-- ==== Sys2Proof/Word.lean ====
section
/-! DEFINITION. The word types of the FX9: 64-bit scalars, bytes, and the 32-bit slot word. -/

namespace Sys2Proof

/-- A 64-bit scalar register's contents (14 R227). -/
abbrev Word := BitVec 64

/-- One byte of memory (00 R6). -/
abbrev Byte := BitVec 8

/-- A line is 128 bytes aligned on 128 (00 R6, the glossary before it). -/
abbrev lineBytes : Nat := 128

end Sys2Proof
end

