-- ==== Sys2Proof/Machine/Bits.lean ====
section
/-! DEFINITION. Bit fields, sign extension and little-endian byte strings (00 R7, R10). -/

namespace Sys2Proof.Bits

/-- Bits [hi:lo] of `w` as a number (00 Table 0.1). -/
def get (w : Word) (hi lo : Nat) : Nat := w.toNat / 2 ^ lo % 2 ^ (hi - lo + 1)

/-- Bit `n` of `w`. -/
def bit (w : Word) (n : Nat) : Bool := w.getLsbD n

/-- `w` with bits [hi:lo] replaced by `v` (its low bits). -/
def put (w : Word) (hi lo v : Nat) : Word :=
  let m := 2 ^ (hi - lo + 1)
  BitVec.ofNat 64 (w.toNat - (w.toNat / 2 ^ lo % m) * 2 ^ lo + (v % m) * 2 ^ lo)

/-- Field [hi:lo] of a number. -/
def nget (w hi lo : Nat) : Nat := w / 2 ^ lo % 2 ^ (hi - lo + 1)

/-- Sign extension of the low `n` bits of a number, `n > 0` (00 R10). -/
def sext (v n : Nat) : Int :=
  let u := v % 2 ^ n
  if u < 2 ^ (n - 1) then (u : Int) else (u : Int) - 2 ^ n

/-- The signed reading s(x) of a 64-bit value. -/
def sgn (w : Word) : Int := w.toInt

/-- The low 64 bits of an integer (00 R10). -/
def ofInt (i : Int) : Word := BitVec.ofInt 64 i

/-- Round a number up to a multiple of `m`, counted in multiples: ⌈x / m⌉. -/
def ceilDiv (x m : Nat) : Nat := (x + m - 1) / m

/-- A little-endian byte string as a number (00 R7). -/
def leNat : List Byte → Nat
  | [] => 0
  | b :: bs => b.toNat + 2 ^ 8 * leNat bs

/-- The low `n` bytes of a number, lowest first (00 R7). -/
def natLE : Nat → Nat → List Byte
  | 0, _ => []
  | n + 1, v => BitVec.ofNat 8 v :: natLE n (v / 2 ^ 8)

/-- An 8-byte little-endian string as a word. -/
def leWord (bs : List Byte) : Word := BitVec.ofNat 64 (leNat bs)

/-- The eight bytes of a word. -/
def wordLE (w : Word) : List Byte := natLE 8 w.toNat

/-- `n` bytes of a list from `off`, zero past its end. -/
def slice (bs : List Byte) (off n : Nat) : List Byte :=
  let t := (bs.drop off).take n
  t ++ List.replicate (n - t.length) 0

/-- The number in the `n` bytes at `off`. -/
def numAt (bs : List Byte) (off n : Nat) : Nat := leNat (slice bs off n)

/-- The 64-bit word number `i` of a byte string. -/
def wordAt (bs : List Byte) (i : Nat) : Word := BitVec.ofNat 64 (numAt bs (8 * i) 8)

/-- A byte string with the bytes `v` written at `off` (inside its length). -/
def splice (bs : List Byte) (off : Nat) (v : List Byte) : List Byte :=
  bs.take off ++ v.take (bs.length - off) ++ bs.drop (off + v.length)

/-- Leading zeros of the low `n` bits. -/
def clz : Nat → Nat → Nat
  | 0, _ => 0
  | n + 1, v => if v / 2 ^ n % 2 = 1 then 0 else 1 + clz n v

/-- Trailing zeros, at most `n`. -/
def ctz : Nat → Nat → Nat
  | 0, _ => 0
  | n + 1, v => if v % 2 = 1 then 0 else 1 + ctz n (v / 2)

/-- Set bits among the low `n`. -/
def popc : Nat → Nat → Nat
  | 0, _ => 0
  | n + 1, v => v % 2 + popc n (v / 2)

/-- Number of significant bits: 0 for 0, else ⌊log2⌋ + 1. -/
def bitLen (n : Nat) : Nat := if n = 0 then 0 else n.log2 + 1

end Sys2Proof.Bits
end

