-- ==== Sys2Proof/Syntax.lean ====
section
/-! DEFINITION. The instructions of Oaden and the other indivisible steps of the part: one constructor per row of
the opcode table (14 R240 to R245 for slot words; 95 for the events). -/

namespace Sys2Proof

/-- The header of a slot word with the slot it stands in (14 Table 14.2, R221). Slots: 0 c, 1 s, 2 a, 3 m, 4 x,
5 v, 6 q, 7 f. -/
structure Hdr where
  slot : Fin 8
  pr   : Fin 16
  pn   : Bool
  deriving DecidableEq, Repr

/-- Scalar register number (14 Table 14.3). -/
abbrev XReg := Fin 64
/-- Predicate register number. -/
abbrev PReg := Fin 16
/-- Offset register number. -/
abbrev OReg := Fin 16
/-- Tile register number. -/
abbrev TReg := Fin 128
/-- Tensor handle number. -/
abbrev HReg := Fin 64
/-- Channel number. -/
abbrev CReg := Fin 64
/-- Barrier number. -/
abbrev BReg := Fin 64
/-- Accumulator number. -/
abbrev AReg := Fin 4
/-- A loop level field: 6 and 7 are illegal (14 R239). -/
abbrev LevelF := Fin 8
/-- Landing code (14 R236). -/
abbrev Land := Fin 8

/-- Rounding modes (02 Table 2.2). -/
inductive RMode where
  | rne | rz | rup | rdn | sr
  deriving DecidableEq, Repr

/-- Comparison conditions of CMP and CMPI (14 R239). -/
inductive Cond where
  | eq | ne | lt | ge | ltu | geu | bset | bclr
  deriving DecidableEq, Repr

/-- How a comparison combines with the old predicate (14 R239, 17 R292). -/
inductive Comb where
  | set | and | or | xor
  deriving DecidableEq, Repr

/-- Conditions of WAITA (09 Table 9.3). -/
inductive WaitCond where
  | eq | ne | ge | geu
  deriving DecidableEq, Repr

/-- Scopes (04 Table 4.2). -/
inductive Scope where
  | core | cluster | device | system
  deriving DecidableEq, Repr

/-- Orders of FENCE (04 Table 4.3). -/
inductive Order where
  | acq | rel | acqrel | sc
  deriving DecidableEq, Repr

/-- Wrapping or saturating forms of ADD and SUB (17 R288). -/
inductive SatForm where
  | wrap | sats | satu
  deriving DecidableEq, Repr

/-- Sizes of TLBI and INVREQ (16 R282). -/
inductive InvSize where
  | k64 | m2 | g1 | ctx
  deriving DecidableEq, Repr

/-- Levels of TWARM (18 R319). -/
inductive WarmLevel where
  | l1 | l2 | cs
  deriving DecidableEq, Repr

/-- Reduction operators (14 Table 14.6, VRED). -/
inductive RedOp where
  | sum | max | min
  deriving DecidableEq, Repr

/-- Functions of VOPX (20 Table 20.4). -/
inductive VFun where
  | floor | ceil | trunc | rint | frac | sign | relu | sq | isnan | popc | clz
  deriving DecidableEq, Repr

/-- The operand kinds of MMA, MMAZ and MFEED (14 R239, 19 R327). -/
inductive MOp where
  | tile (t : TReg)
  | chan (c : CReg)
  | hnd (h : HReg)
  deriving DecidableEq, Repr

/-- The fields of a flit that a link reads (11 Table 11.3). -/
structure FlitIn where
  seq   : Nat
  vc    : Nat
  kind  : Nat
  av    : Bool
  ack   : Nat
  cvc   : Nat
  cred  : Nat
  peer  : Nat
  gid   : Nat
  bytes : List Byte
  deriving DecidableEq, Repr

/-- What a message between packages says beside its payload bytes. 11 Table 11.4 names what travels, and the spec lays out none of
it, so it is data of the message and takes none of its bytes (DESIGN CHOICE, log 8). `sptag` names the part of a spanning
course on the other package. -/
inductive PeerMsg where
  | nothing
  /-- A write (04 R91): stamp, the markers of lower epochs sent to the package (epoch, path), its address in the context of the part (or
  of the sender's number, for a group that spans no packages), the barrier and tag its bytes count under (09 R443), its number. -/
  | write (agent epoch : Nat) (acq : List Nat) (needs : List (Nat × Nat)) (sptag ctx va : Nat) (bar : Option (Nat × Bool)) (msg : Nat)
  /-- A held store of a conversion, for the member that now holds it (13 R218): tensor, conversion, place in the whole tensor, its
  number. -/
  | held (agent epoch : Nat) (acq : List Nat) (needs : List (Nat × Nat)) (tid seq place msg : Nat)
  /-- A close marker (11 R185) on its path. -/
  | close (agent epoch path : Nat)
  /-- A join (13 R216). -/
  | join (key rank seq axis src dst : Nat)
  /-- The payload of a collective step, or of step `step` of a conversion's stage (13 R214, R219). -/
  | step (key rank seq axis step : Nat)
  /-- A row asked of an expert's package, and its answer (12 R202): the asker's context, route and row number. An answer without a row
  has the first faulting address as its bytes (R203). -/
  | ask (sptag va len ctx route row : Nat)
  | row (ctx route row : Nat) (ok : Bool)
  /-- A channel landing for member `rank` of the part (21 R371), and a credit for a core (R373). -/
  | landing (rank sender chan slot : Nat) (shape : Word) (tag : Bool)
  | credit (core chan : Nat)
  /-- A package arrival (09 R151). -/
  | arrival (bar : Nat) (phase : Bool) (rank : Nat)
  /-- LATE (07 R135). -/
  | late
  /-- A drain marker, going out or coming back (08 R146), with its path. -/
  | drain (path : Nat) (back : Bool)
  /-- A write or held store has been applied at its home (12 R200; 13 R218), or faulted there at an address (12 R203). -/
  | applied (msg : Nat) (fva : Option Nat)
  deriving DecidableEq, Repr

/-- A group index with the generation that holds it (08 R139). -/
structure GroupNo where
  g   : Fin 1024
  gen : Nat
  deriving DecidableEq, Repr

/-- Where a reply goes at its core: the group id it carries (08 R146) and the number of the request it answers. -/
structure ReplyTo where
  gid : BitVec 16
  id  : Nat
  deriving DecidableEq, Repr

/-- What a close marker says (04 R83): the epoch it closes. One from another package (11 R185) also says which, counted from 1 (0:
an agent of this package), and the path it came on. -/
structure Closing where
  epoch : Nat
  src   : Nat
  path  : Nat
  deriving DecidableEq, Repr

/-- A LAST flit as it arrives (11 Table 11.3): its 256 bytes, and what its message says beside its payload. -/
structure LastFlit where
  image   : List Byte
  telling : PeerMsg
  deriving DecidableEq, Repr

/-- ONE constructor per row of spec/opcode_table.json. -/
inductive Instr where
  -- control slot (14 Table 14.7)
  | nop (h : Hdr)
  | br (h : Hdr) (disp : BitVec 21)
  | call (h : Hdr) (disp : BitVec 21)
  | ret (h : Hdr)
  | jmp (h : Hdr) (target : Fin 8192)
  | loop (h : Hdr) (l p : Bool) (count : Fin 1024) (lenM1 : Fin 256)
  | loopReg (h : Hdr) (l p : Bool) (xN : XReg) (lenM1 : Fin 256)
  | lbrk (h : Hdr) (n : Fin 8)
  | waitFlag (h : Hdr) (f : Fin 32) (clear : Bool)
  | waitSem (h : Hdr) (xS xT : XReg)
  | waita (h : Hdr) (xA xV : XReg) (cond : WaitCond)
  | setf (h : Hdr) (f : Fin 32) (xC : XReg) (remote : Bool)
  | clrf (h : Hdr) (f : Fin 32) (xC : XReg) (remote : Bool)
  | sadd (h : Hdr) (xD xS xV : XReg)
  | scas (h : Hdr) (xD xS xV : XReg)
  | sxch (h : Hdr) (xD xS xV : XReg)
  | smax (h : Hdr) (xD xS xV : XReg)
  | swge (h : Hdr) (xD xS xV : XReg)
  | srd (h : Hdr) (xD xS : XReg)
  | bdcl (h : Hdr) (b : BReg) (xA : XReg)
  | barv (h : Hdr) (b : BReg) (c : CReg) (named : Bool)
  | bwt (h : Hdr) (b : BReg)
  | sstep (h : Hdr) (b : BReg) (c : CReg) (named : Bool)
  | fence (h : Hdr) (order : Order) (scope : Scope)
  | trig (h : Hdr)
  | enq (h : Hdr) (xD xQ : XReg) (tS : TReg) (hi : Bool)
  | ntile (h : Hdr)
  | layer (h : Hdr)
  | spec (h : Hdr)
  | cmit (h : Hdr)
  | sabt (h : Hdr)
  | trap (h : Hdr) (n : Fin 128)
  | exit (h : Hdr)
  | frsm (h : Hdr) (xD xC xN : XReg)
  | tlbi (h : Hdr) (xA xC : XReg) (sz : InvSize)
  -- slots s and a (14 Table 14.8)
  | add (h : Hdr) (xD xA xB : XReg) (fn : SatForm)
  | sub (h : Hdr) (xD xA xB : XReg) (fn : SatForm)
  | mul (h : Hdr) (xD xA xB : XReg)
  | mulh (h : Hdr) (xD xA xB : XReg)
  | mulhu (h : Hdr) (xD xA xB : XReg)
  | div (h : Hdr) (xD xA xB : XReg)
  | divu (h : Hdr) (xD xA xB : XReg)
  | rem (h : Hdr) (xD xA xB : XReg)
  | remu (h : Hdr) (xD xA xB : XReg)
  | and (h : Hdr) (xD xA xB : XReg)
  | or (h : Hdr) (xD xA xB : XReg)
  | xor (h : Hdr) (xD xA xB : XReg)
  | andn (h : Hdr) (xD xA xB : XReg)
  | shl (h : Hdr) (xD xA xB : XReg)
  | shr (h : Hdr) (xD xA xB : XReg)
  | sar (h : Hdr) (xD xA xB : XReg)
  | min (h : Hdr) (xD xA xB : XReg)
  | max (h : Hdr) (xD xA xB : XReg)
  | minu (h : Hdr) (xD xA xB : XReg)
  | maxu (h : Hdr) (xD xA xB : XReg)
  | addi (h : Hdr) (xD xA : XReg) (imm : BitVec 9)
  | andi (h : Hdr) (xD xA : XReg) (imm : BitVec 9)
  | ori (h : Hdr) (xD xA : XReg) (imm : BitVec 9)
  | xori (h : Hdr) (xD xA : XReg) (imm : BitVec 9)
  | shli (h : Hdr) (xD xA : XReg) (imm : BitVec 9)
  | shri (h : Hdr) (xD xA : XReg) (imm : BitVec 9)
  | sari (h : Hdr) (xD xA : XReg) (imm : BitVec 9)
  | li (h : Hdr) (xD : XReg) (imm : BitVec 15)
  | lih (h : Hdr) (xD : XReg) (imm : BitVec 15)
  | cmp (h : Hdr) (pD : PReg) (xA xB : XReg) (cond : Cond) (comb : Comb)
  | cmpi (h : Hdr) (pD : PReg) (xA : XReg) (imm : BitVec 6) (cond : Cond) (comb : Comb)
  | sel (h : Hdr) (xD xA xB : XReg)
  | plog (h : Hdr) (pD pA pB : PReg) (tt : BitVec 4)
  | clz (h : Hdr) (xD xA : XReg)
  | ctz (h : Hdr) (xD xA : XReg)
  | popc (h : Hdr) (xD xA : XReg)
  | bfx (h : Hdr) (xD xA xB : XReg) (sx : Bool)
  | mfs (h : Hdr) (xD : XReg) (num : Fin 1024)
  | mts (h : Hdr) (xA : XReg) (num : Fin 1024)
  | xidx (h : Hdr) (xD : XReg) (lvl : LevelF)
  | ldp (h : Hdr) (xD : XReg) (w : Fin 8) (imm : Fin 4096)
  | ldpx (h : Hdr) (xD : XReg) (w : Fin 8) (xA : XReg)
  | oset (h : Hdr) (oD : OReg) (xA : XReg)
  | oaddi (h : Hdr) (oD : OReg) (imm : BitVec 17)
  | ostr (h : Hdr) (oD : OReg) (lvl : LevelF) (xA : XReg)
  | ord (h : Hdr) (xD : XReg) (oA : OReg)
  | brx (h : Hdr) (disp : BitVec 21)
  | hset (h : Hdr) (hD : HReg) (xA : XReg) (sel : Fin 16)
  | hget (h : Hdr) (xD : XReg) (hA : HReg) (sel : Fin 16)
  | hcpy (h : Hdr) (hD hA : HReg)
  -- slot m (14 Table 14.9)
  | tld (h : Hdr) (tD : TReg) (xB : XReg) (oO : OReg) (byp : Bool) (land : Land)
  | tst (h : Hdr) (tS : TReg) (xB : XReg) (oO : OReg)
  | tldh (h : Hdr) (tD : TReg) (hn : HReg) (og : Fin 4) (enf : Bool) (land : Land)
  | tsth (h : Hdr) (tS : TReg) (hn : HReg) (og : Fin 4)
  | tldg (h : Hdr) (tD : TReg) (xB : XReg) (tI : TReg) (l7 : Bool)
  | tsts (h : Hdr) (tS : TReg) (xB : XReg) (tI : TReg)
  | tldx (h : Hdr) (tD : TReg) (xB : XReg) (oO : OReg) (land : Land)
  | tldw (h : Hdr) (xD xB : XReg) (oO : OReg) (land : Land)
  | tshp (h : Hdr) (tD : TReg) (xA : XReg)
  | tshpBound (h : Hdr) (tD : TReg) (xA : XReg) (hn : HReg)
  | tzero (h : Hdr) (tD : TReg)
  | tempty (h : Hdr) (tD : TReg)
  | twarm (h : Hdr) (xN xB : XReg) (oO : OReg) (lvl : WarmLevel)
  | xchn (h : Hdr) (xD xA xC : XReg)
  | twm (h : Hdr) (xD xC : XReg)
  -- slot x (14 Table 14.10)
  | mma (h : Hdr) (acc : AReg) (a b : MOp) (fs : Bool)
  | mmaz (h : Hdr) (acc : AReg) (a b : MOp) (fs : Bool)
  | mout (h : Hdr) (tD : TReg) (acc : AReg) (rm : RMode) (sat : Bool)
  | mrd (h : Hdr) (tD : TReg) (acc : AReg) (xD : XReg)
  | mclr (h : Hdr) (acc : AReg)
  | mcop (h : Hdr) (xA : XReg)
  | mfeed (h : Hdr) (acc : AReg) (a : MOp)
  | mfmt (h : Hdr) (lvl : LevelF)
  -- slots v and q (14 Table 14.11)
  | vadd (h : Hdr) (tD tA tB : TReg)
  | vsub (h : Hdr) (tD tA tB : TReg)
  | vmul (h : Hdr) (tD tA tB : TReg)
  | vfma (h : Hdr) (tD tA tB : TReg)
  | vmax (h : Hdr) (tD tA tB : TReg)
  | vmin (h : Hdr) (tD tA tB : TReg)
  | vabs (h : Hdr) (tD tA : TReg)
  | vneg (h : Hdr) (tD tA : TReg)
  | vrcp (h : Hdr) (tD tA : TReg) (rm : RMode) (sat : Bool)
  | vrsq (h : Hdr) (tD tA : TReg) (rm : RMode) (sat : Bool)
  | vsqrt (h : Hdr) (tD tA : TReg) (rm : RMode) (sat : Bool)
  | vexp2 (h : Hdr) (tD tA : TReg) (rm : RMode) (sat : Bool)
  | vlog2 (h : Hdr) (tD tA : TReg) (rm : RMode) (sat : Bool)
  | vcvt (h : Hdr) (tD tA : TReg) (rm : RMode) (sat : Bool)
  | vand (h : Hdr) (tD tA tB : TReg)
  | vor (h : Hdr) (tD tA tB : TReg)
  | vxor (h : Hdr) (tD tA tB : TReg)
  | vshl (h : Hdr) (tD tA : TReg) (xB : XReg)
  | vshr (h : Hdr) (tD tA : TReg) (xB : XReg)
  | vcmp (h : Hdr) (tD tA tB : TReg)
  | vsel (h : Hdr) (tD tA tB : TReg)
  | vmov (h : Hdr) (tD tA : TReg)
  | vopx (h : Hdr) (tD tA : TReg) (fn : VFun)
  | vbc (h : Hdr) (tD tA : TReg)
  | vrred (h : Hdr) (tD tA : TReg) (rm : RMode) (sat : Bool) (op : RedOp)
  | vcred (h : Hdr) (tD tA : TReg) (rm : RMode) (sat : Bool) (op : RedOp)
  | vxs (h : Hdr) (xD : XReg) (tA : TReg) (xB : XReg)
  | vins (h : Hdr) (tD : TReg) (xA xB : XReg)
  | viota (h : Hdr) (tD : TReg) (xA : XReg)
  | vperm (h : Hdr) (tD tA tB : TReg)
  | vscan (h : Hdr) (tD tA : TReg) (rm : RMode) (sat : Bool) (op : RedOp)
  | vpart (h : Hdr) (tD tA : TReg) (nom1 : Fin 4)
  | vclmp (h : Hdr) (tD tA tB : TReg)
  | vtrn (h : Hdr) (tD tA : TReg)
  | qthr (h : Hdr) (tD tA : TReg)
  | qbis (h : Hdr) (tD : TReg) (km1 : Fin 8)
  | qsel (h : Hdr) (tD tA tB : TReg)
  | qscl (h : Hdr) (tD tA : TReg) (rm : RMode) (sat : Bool)
  | qnt (h : Hdr) (tD tA : TReg) (rm : RMode) (sat : Bool)
  | qdq (h : Hdr) (tD tA : TReg)
  | qef (h : Hdr) (tD tA tB : TReg)
  -- slot f (14 Table 14.12)
  | chcfg (h : Hdr) (c : CReg) (xA : XReg)
  | chsnd (h : Hdr) (c : CReg) (tS : TReg)
  | chadv (h : Hdr) (c : CReg) (cons : Bool)
  | chst (h : Hdr) (xD : XReg) (c : CReg)
  | vrcfg (h : Hdr) (xD xA xB : XReg)
  | vrrte (h : Hdr) (xD xA xB : XReg)
  | vrsct (h : Hdr) (xD xA xB : XReg)
  | vrcmb (h : Hdr) (xD xA xB : XReg)
  | vrcnt (h : Hdr) (xD xA : XReg) (sel : Fin 16)
  | pldef (h : Hdr) (xD xA xB : XReg)
  | plcnv (h : Hdr) (xD xA xB : XReg)
  | plqry (h : Hdr) (xD xA : XReg) (sel : Fin 16)
  | slbxl (h : Hdr) (xD xA xB : XReg)
  | slbgr (h : Hdr) (xD xA xB : XReg)
  | exacq (h : Hdr) (xD xA xB : XReg)
  | exrel (h : Hdr) (xD xA : XReg)
  | tick (h : Hdr) (xD : XReg)
  -- contexts and queues (05, 06)
  | destroyComplete (c : Fin 64)
  -- groups (07, 08)
  | launchReady (no : GroupNo)
  | startTick (g : Fin 1024)
  | sequencerBroadcast (g : Fin 1024)
  | bundleIssue (core : Fin 64)
  | saveComplete (g : Fin 1024)
  | park (g : Fin 1024)
  | groupRestore (g : Fin 1024)
  | restoreComplete (g : Fin 1024)
  | shadowReplay (core : Fin 64)
  | exposedResultDue (core : Fin 64)
  | drainComplete (g : Fin 1024)
  | drainMarkerReturn (path : Nat) (gid : BitVec 16)
  | dispenserGrant (core : Fin 64) (dest : ReplyTo)
  -- barriers, semaphores, monitors, flags (09, 16)
  | barrierArrival (gid : BitVec 16) (core : Fin 64) (b : BReg) (tag : Bool)
  | bdclArrival (gid : BitVec 16) (core : Fin 64) (b : BReg) (decl : Nat)
  | barrierLanding (peer : Bool) (gid : BitVec 16) (core : Fin 64) (b : BReg) (tag : Bool) (bytes : Nat)
  | completionNotice (gid : BitVec 16) (inst : Nat) (b : BReg)
  | watchdogExpiry (gid : BitVec 16) (inst : Nat) (b : BReg)
  | semaphoreTest (core : Fin 64)
  | semaphoreOperation (core : Fin 64) (id : Nat)
  | monitorWake (core : Fin 64)
  | monitorReread (core : Fin 64)
  | remoteFlagChange (gid : BitVec 16) (sender : Fin 64) (rank : Nat) (f : Fin 32) (val : Bool) (epoch : Nat) (acq : List Nat)
  -- memory and translation (04, 10)
  | loadPerformed (core : Fin 64) (id line : Nat)
  | loadLanding (core : Fin 64) (id : Nat)
  | storePerformed (core : Fin 64) (id line : Nat)
  | wcbAgeDrain (die : Fin 8) (key : Nat)
  | writeApply (home : Fin 18) (id : Nat)
  | closeMarker (home agent : Fin 18) (closing : Closing)
  | applyAcknowledgement (die : Fin 8) (id : Nat)
  | releaseComplete (core : Fin 64) (id : Nat)
  | walkStart (die : Fin 8) (ctx : Fin 64) (va : Nat)
  | walkComplete (die : Fin 8) (ctx : Fin 64) (va : Nat)
  -- placement and engines (03, 19, 20)
  | placement (core : Fin 64)
  | pieceStart (place : Fin 10)
  | pieceComplete (id : Nat)
  | kstepComplete (core : Fin 64) (id : Nat)
  | shadowSwap (core : Fin 64)
  | mmaComplete (core : Fin 64) (id : Nat)
  | matrixOutputComplete (core : Fin 64) (id : Nat)
  | pipeStart (core : Fin 64) (q : Bool)
  | vectorComplete (core : Fin 64) (id : Nat)
  | tzeroFill (core : Fin 64) (id : Nat)
  -- fabric and ridge objects (12, 13, 18, 21)
  | chcfgEntryArrival (core : Fin 64) (c : CReg)
  | channelLanding (gid : BitVec 16) (consumer : Fin 64) (sender : Nat) (c : CReg) (slot : Nat) (shape : Word) (tag : Bool) (bytes : List Byte)
  | channelCredit (peer : Bool) (gid : BitVec 16) (core : Fin 64) (c : CReg)
  | replyArrival (core : Fin 64) (dest : ReplyTo)
  | routeOperationRun (ctx : Fin 64) (route : Fin 64)
  | routeOperationComplete (ctx : Fin 64) (route : Fin 64) (peers : List (List Byte))
  | joinTimeout (ctx : Fin 64) (entry : Fin 1024) (seq : Nat)
  | conversionStageComplete (ctx : Fin 64) (entry : Fin 1024) (peers : List (List Byte))
  | collectiveStepComplete (id : Nat) (peers : List (List Byte))
  | tsthAtEave (core : Fin 64) (id : Nat)
  | transferLinkComplete (ch : Fin 64)
  | slabChunkCopied (ctx : Fin 64) (k : Fin 4096)
  | expertSlotFilled (n : Fin 64)
  -- links (11)
  | trainingTimeout (l : Fin 48)
  | replayTimeout (l : Fin 48)
  | replayComplete (l : Fin 48)
  | flitSend (l : Fin 48)
  | slotOpen (l : Fin 48)
  | guardEnd (l : Fin 48)
  | slotClose (l : Fin 48)
  | tickSend (l : Fin 48)
  -- ageing, telemetry and errors (29)
  | agewaitExpiry (die : Fin 21)
  | replanPause (die : Fin 21)
  | pauseEnd (die : Fin 21)
  | measurement (margins temps : List Nat)
  -- what the outside alone brings about: the host, peers, the supply, sensors (06, 11, 29, 30, 31), and queue packets
  | powerLoss (millivolts micros : Nat)
  | overtemperature (die temp : Nat)
  | laserModuleRemoval (gable : Nat)
  | laserModuleInsertion (gable : Nat)
  | initComplete (hbmTrained : Bool)
  | spdmRequest (req : List Byte)
  | registerWrite (off : Nat) (val : Word)
  | hostMemRead (pa len : Nat)
  | hostMemWrite (pa : Nat) (bytes : List Byte)
  | create (c : Fin 64)
  | activate (c : Fin 64)
  | suspend (c : Fin 64)
  | ctxResume (c : Fin 64)
  | ctxFence (c : Fin 64)
  | destroy (c : Fin 64)
  | queueEnable (q : Fin 256)
  | queueDisable (q : Fin 256)
  | doorbell (q : Fin 256) (tail : BitVec 32)
  | launch (q : Fin 256)
  | collstep (q : Fin 256)
  | transfer (q : Fin 256)
  | convert (q : Fin 256)
  | signal (q : Fin 256)
  | waitsem (q : Fin 256)
  | tickstart (q : Fin 256)
  | marker (q : Fin 256)
  | drainMarker (path : Nat) (gid : BitVec 16)
  | late (sptag : BitVec 16)
  | packageArrival (sptag : BitVec 16) (b : BReg) (phase : Bool) (rank : Nat)
  | join (key rank : Nat) (seq axis src dst : Nat)
  | bankRetry (core : Fin 64)
  | lnkTrain (l : Fin 48)
  | lnkFence (l : Fin 48)
  | lnkDisable (l : Fin 48)
  | trainingDone (l : Fin 48) (locked : Nat) (ident tail : List Byte)
  | wavelengthLoss (l : Fin 48)
  | nak (l : Fin 48) (flit : List Byte)
  | payload (l : Fin 48) (flit : List Byte)
  | last (l : Fin 48) (flit : LastFlit)
  | idle (l : Fin 48) (flit : List Byte)
  | tickFlit (l : Fin 48) (flit : List Byte) (roundTrip : Nat)
  | slotid (l : Fin 48) (flit : List Byte)
  | sltctlWrite (l : Fin 48) (val : Word)
  | crcFailure (l : Fin 48)
  | meshcfgWrite (val : Word)
  | l2qtWrite (val : Word)
  | excfgWrite (val : Word)
  | gstaleWrite (val : Word)
  | invreq (val : Word)
  | resume (val : Word)
  | pkgtelRefresh (watts inlet outlet : Nat)
  | uncorrectableError (pa : Nat) (consumer : Nat) (kind : Nat)
  | coreLogicCheck (core : Fin 64)
  | eaveLogicCheck (u : Fin 8)
  | arrayLogicCheck (a : Fin 4)
  | linkError (l : Fin 48)
  -- events without operands
  | coldStart
  | boot
  | imageVerified
  | warmReset
  | functionLevelReset
  | frontEndStart
  | invalidationBegin
  | invalidationComplete
  | meas
  | correctableError
  deriving DecidableEq, Repr

end Sys2Proof
end

