-- ==== Sys2Proof/WellFormed.lean ====
section
/-! DEFINITION. Which instructions of the syntax an Oaden word can hold (14 R239, R246): the slot fits the mnemonic and
every field value lies in its stated range. -/

namespace Sys2Proof

/-- The header stands in one of the slots `l` (14 Table 14.1). -/
def Hdr.at (h : Hdr) (l : List (Fin 8)) : Bool := l.contains h.slot

/-- The assigned special-register numbers (14 Table 14.4). -/
def specialAssigned (n : Nat) : Bool :=
  [0x000, 0x001, 0x002, 0x003, 0x004, 0x005, 0x008, 0x009, 0x00A, 0x00B, 0x00C, 0x00D, 0x00E, 0x00F,
   0x011, 0x012, 0x013, 0x014, 0x015, 0x016, 0x017, 0x018, 0x01C, 0x01D, 0x01E, 0x01F, 0x020, 0x021].contains n

/-- Field ranges and slots of the instructions; an event of the part is no word and has no field to check. -/
def Instr.wf : Instr → Bool
  | .nop _ => true
  | .br h _ => h.at [0]
  | .call h _ => h.at [0]
  | .ret h => h.at [0]
  | .jmp h _ => h.at [0]
  | .loop h _ _ _ _ => h.at [0]
  | .loopReg h _ _ _ _ => h.at [0]
  | .lbrk h n => h.at [0] && (decide (1 ≤ n.val) && decide (n.val ≤ 6))
  | .waitFlag h _ _ => h.at [0]
  | .waitSem h _ _ => h.at [0]
  | .waita h _ _ _ => h.at [0]
  | .setf h _ xC remote => h.at [0] && (remote || decide (xC.val = 0))
  | .clrf h _ xC remote => h.at [0] && (remote || decide (xC.val = 0))
  | .sadd h _ _ _ => h.at [0]
  | .scas h _ _ _ => h.at [0]
  | .sxch h _ _ _ => h.at [0]
  | .smax h _ _ _ => h.at [0]
  | .swge h _ _ _ => h.at [0]
  | .srd h _ _ => h.at [0]
  | .bdcl h _ _ => h.at [0]
  | .barv h _ _ _ => h.at [0]
  | .bwt h _ => h.at [0]
  | .sstep h _ _ _ => h.at [0]
  | .fence h _ _ => h.at [0]
  | .trig h => h.at [0]
  | .enq h _ _ _ _ => h.at [0]
  | .ntile h => h.at [0]
  | .layer h => h.at [0]
  | .spec h => h.at [0]
  | .cmit h => h.at [0]
  | .sabt h => h.at [0]
  | .trap h _ => h.at [0]
  | .exit h => h.at [0]
  | .frsm h _ _ _ => h.at [0]
  | .tlbi h _ _ _ => h.at [0]
  | .add h _ _ _ _ => h.at [1, 2]
  | .sub h _ _ _ _ => h.at [1, 2]
  | .mul h _ _ _ => h.at [1, 2]
  | .mulh h _ _ _ => h.at [1, 2]
  | .mulhu h _ _ _ => h.at [1, 2]
  | .div h _ _ _ => h.at [1, 2]
  | .divu h _ _ _ => h.at [1, 2]
  | .rem h _ _ _ => h.at [1, 2]
  | .remu h _ _ _ => h.at [1, 2]
  | .and h _ _ _ => h.at [1, 2]
  | .or h _ _ _ => h.at [1, 2]
  | .xor h _ _ _ => h.at [1, 2]
  | .andn h _ _ _ => h.at [1, 2]
  | .shl h _ _ _ => h.at [1, 2]
  | .shr h _ _ _ => h.at [1, 2]
  | .sar h _ _ _ => h.at [1, 2]
  | .min h _ _ _ => h.at [1, 2]
  | .max h _ _ _ => h.at [1, 2]
  | .minu h _ _ _ => h.at [1, 2]
  | .maxu h _ _ _ => h.at [1, 2]
  | .addi h _ _ _ => h.at [1, 2]
  | .andi h _ _ _ => h.at [1, 2]
  | .ori h _ _ _ => h.at [1, 2]
  | .xori h _ _ _ => h.at [1, 2]
  | .shli h _ _ imm => h.at [1, 2] && decide (imm.toNat ≤ 63)
  | .shri h _ _ imm => h.at [1, 2] && decide (imm.toNat ≤ 63)
  | .sari h _ _ imm => h.at [1, 2] && decide (imm.toNat ≤ 63)
  | .li h _ _ => h.at [1, 2]
  | .lih h _ _ => h.at [1, 2]
  | .cmp h _ _ _ _ _ => h.at [1, 2]
  | .cmpi h _ _ _ _ _ => h.at [1, 2]
  | .sel h _ _ _ => h.at [1, 2]
  | .plog h _ _ _ _ => h.at [1, 2]
  | .clz h _ _ => h.at [1, 2]
  | .ctz h _ _ => h.at [1, 2]
  | .popc h _ _ => h.at [1, 2]
  | .bfx h _ _ _ _ => h.at [1, 2]
  | .mfs h _ num => h.at [1, 2] && specialAssigned num.val
  | .mts h _ num => h.at [1, 2] && specialAssigned num.val
  | .xidx h _ lvl => h.at [1, 2] && decide (lvl.val ≤ 5)
  | .ldp h _ _ _ => h.at [1, 2]
  | .ldpx h _ _ _ => h.at [1, 2]
  | .oset h _ _ => h.at [2]
  | .oaddi h _ _ => h.at [2]
  | .ostr h _ lvl _ => h.at [2] && decide (lvl.val ≤ 5)
  | .ord h _ _ => h.at [2]
  | .brx h _ => h.at [2]
  | .hset h _ _ sl => h.at [2] && decide (sl.val ≤ 13)
  | .hget h _ _ sl => h.at [2] && decide (sl.val ≤ 13)
  | .hcpy h _ _ => h.at [2]
  | .tld h _ _ _ _ _ => h.at [3]
  | .tst h _ _ _ => h.at [3]
  | .tldh h _ _ _ _ _ => h.at [3]
  | .tsth h _ _ _ => h.at [3]
  | .tldg h _ _ _ _ => h.at [3]
  | .tsts h _ _ _ => h.at [3]
  | .tldx h _ _ _ _ => h.at [3]
  | .tldw h _ _ _ land => h.at [3] && decide (1 ≤ land.val)
  | .tshp h _ _ => h.at [3]
  | .tshpBound h _ _ _ => h.at [3]
  | .tzero h _ => h.at [3]
  | .tempty h _ => h.at [3]
  | .twarm h _ _ _ _ => h.at [3]
  | .xchn h _ _ _ => h.at [3]
  | .twm h _ _ => h.at [3]
  | .mma h _ _ _ _ => h.at [4]
  | .mmaz h _ _ _ _ => h.at [4]
  | .mout h _ _ _ _ => h.at [4]
  | .mrd h _ _ _ => h.at [4]
  | .mclr h _ => h.at [4]
  | .mcop h _ => h.at [4]
  | .mfeed h _ _ => h.at [4]
  | .mfmt h lvl => h.at [4] && decide (lvl.val ≤ 5)
  | .vadd h _ _ _ => h.at [5, 6]
  | .vsub h _ _ _ => h.at [5, 6]
  | .vmul h _ _ _ => h.at [5, 6]
  | .vfma h _ _ _ => h.at [5, 6]
  | .vmax h _ _ _ => h.at [5, 6]
  | .vmin h _ _ _ => h.at [5, 6]
  | .vabs h _ _ => h.at [5, 6]
  | .vneg h _ _ => h.at [5, 6]
  | .vrcp h _ _ _ _ => h.at [5, 6]
  | .vrsq h _ _ _ _ => h.at [5, 6]
  | .vsqrt h _ _ _ _ => h.at [5, 6]
  | .vexp2 h _ _ _ _ => h.at [5, 6]
  | .vlog2 h _ _ _ _ => h.at [5, 6]
  | .vcvt h _ _ _ _ => h.at [5, 6]
  | .vand h _ _ _ => h.at [5, 6]
  | .vor h _ _ _ => h.at [5, 6]
  | .vxor h _ _ _ => h.at [5, 6]
  | .vshl h _ _ _ => h.at [5, 6]
  | .vshr h _ _ _ => h.at [5, 6]
  | .vcmp h _ _ _ => h.at [5, 6]
  | .vsel h _ _ _ => h.at [5, 6]
  | .vmov h _ _ => h.at [5, 6]
  | .vopx h _ _ _ => h.at [5, 6]
  | .vbc h _ _ => h.at [5, 6]
  | .vrred h _ _ _ _ _ => h.at [5, 6]
  | .vcred h _ _ _ _ _ => h.at [5, 6]
  | .vxs h _ _ _ => h.at [5, 6]
  | .vins h _ _ _ => h.at [5, 6]
  | .viota h _ _ => h.at [5, 6]
  | .vperm h _ _ _ => h.at [5, 6]
  | .vscan h _ _ _ _ _ => h.at [5, 6]
  | .vpart h _ _ _ => h.at [5, 6]
  | .vclmp h _ _ _ => h.at [5, 6]
  | .vtrn h _ _ => h.at [5, 6]
  | .qthr h _ _ => h.at [6]
  | .qbis h _ _ => h.at [6]
  | .qsel h _ _ _ => h.at [6]
  | .qscl h _ _ _ _ => h.at [6]
  | .qnt h _ _ _ _ => h.at [6]
  | .qdq h _ _ => h.at [6]
  | .qef h _ _ _ => h.at [6]
  | .chcfg h _ _ => h.at [7]
  | .chsnd h _ _ => h.at [7]
  | .chadv h _ _ => h.at [7]
  | .chst h _ _ => h.at [7]
  | .vrcfg h _ _ _ => h.at [7]
  | .vrrte h _ _ _ => h.at [7]
  | .vrsct h _ _ _ => h.at [7]
  | .vrcmb h _ _ _ => h.at [7]
  | .vrcnt h _ _ sl => h.at [7] && decide (sl.val ≤ 8)
  | .pldef h _ _ _ => h.at [7]
  | .plcnv h _ _ _ => h.at [7]
  | .plqry h _ _ _ => h.at [7]
  | .slbxl h _ _ _ => h.at [7]
  | .slbgr h _ _ _ => h.at [7]
  | .exacq h _ _ _ => h.at [7]
  | .exrel h _ _ => h.at [7]
  | .tick h _ => h.at [7]
  | .coldStart => true
  | .powerLoss _ _ => true
  | .overtemperature _ _ => true
  | .laserModuleRemoval _ => true
  | .laserModuleInsertion _ => true
  | .boot => true
  | .imageVerified => true
  | .initComplete _ => true
  | .warmReset => true
  | .functionLevelReset => true
  | .spdmRequest _ => true
  | .registerWrite _ _ => true
  | .hostMemRead _ _ => true
  | .hostMemWrite _ _ => true
  | .create _ => true
  | .activate _ => true
  | .suspend _ => true
  | .ctxResume _ => true
  | .ctxFence _ => true
  | .destroy _ => true
  | .destroyComplete _ => true
  | .queueEnable _ => true
  | .queueDisable _ => true
  | .doorbell _ _ => true
  | .frontEndStart => true
  | .launch _ => true
  | .collstep _ => true
  | .transfer _ => true
  | .convert _ => true
  | .signal _ => true
  | .waitsem _ => true
  | .tickstart _ => true
  | .marker _ => true
  | .launchReady _ => true
  | .startTick _ => true
  | .late _ => true
  | .sequencerBroadcast _ => true
  | .bundleIssue _ => true
  | .saveComplete _ => true
  | .park _ => true
  | .groupRestore _ => true
  | .restoreComplete _ => true
  | .shadowReplay _ => true
  | .exposedResultDue _ => true
  | .drainComplete _ => true
  | .drainMarker _ _ => true
  | .drainMarkerReturn _ _ => true
  | .dispenserGrant _ _ => true
  | .barrierArrival _ _ _ _ => true
  | .bdclArrival _ _ _ _ => true
  | .barrierLanding _ _ _ _ _ _ => true
  | .packageArrival _ _ _ _ => true
  | .completionNotice _ _ _ => true
  | .watchdogExpiry _ _ _ => true
  | .semaphoreTest _ => true
  | .semaphoreOperation _ _ => true
  | .monitorWake _ => true
  | .monitorReread _ => true
  | .remoteFlagChange _ _ _ _ _ _ _ => true
  | .loadPerformed _ _ _ => true
  | .loadLanding _ _ => true
  | .storePerformed _ _ _ => true
  | .wcbAgeDrain _ _ => true
  | .writeApply _ _ => true
  | .closeMarker _ _ _ => true
  | .applyAcknowledgement _ _ => true
  | .releaseComplete _ _ => true
  | .bankRetry _ => true
  | .walkStart _ _ _ => true
  | .walkComplete _ _ _ => true
  | .invalidationBegin => true
  | .invalidationComplete => true
  | .placement _ => true
  | .pieceStart _ => true
  | .pieceComplete _ => true
  | .kstepComplete _ _ => true
  | .shadowSwap _ => true
  | .mmaComplete _ _ => true
  | .matrixOutputComplete _ _ => true
  | .pipeStart _ _ => true
  | .vectorComplete _ _ => true
  | .tzeroFill _ _ => true
  | .chcfgEntryArrival _ _ => true
  | .channelLanding _ _ _ _ _ _ _ _ => true
  | .channelCredit _ _ _ _ => true
  | .replyArrival _ _ => true
  | .routeOperationRun _ _ => true
  | .routeOperationComplete _ _ _ => true
  | .join _ _ _ _ _ _ => true
  | .joinTimeout _ _ _ => true
  | .conversionStageComplete _ _ _ => true
  | .collectiveStepComplete _ _ => true
  | .tsthAtEave _ _ => true
  | .transferLinkComplete _ => true
  | .slabChunkCopied _ _ => true
  | .expertSlotFilled _ => true
  | .lnkTrain _ => true
  | .lnkFence _ => true
  | .lnkDisable _ => true
  | .trainingDone _ _ _ _ => true
  | .trainingTimeout _ => true
  | .wavelengthLoss _ => true
  | .replayTimeout _ => true
  | .replayComplete _ => true
  | .nak _ _ => true
  | .payload _ _ => true
  | .last _ _ => true
  | .idle _ _ => true
  | .tickFlit _ _ _ => true
  | .slotid _ _ => true
  | .flitSend _ => true
  | .slotOpen _ => true
  | .guardEnd _ => true
  | .slotClose _ => true
  | .sltctlWrite _ _ => true
  | .tickSend _ => true
  | .crcFailure _ => true
  | .meshcfgWrite _ => true
  | .l2qtWrite _ => true
  | .excfgWrite _ => true
  | .gstaleWrite _ => true
  | .invreq _ => true
  | .resume _ => true
  | .meas => true
  | .measurement _ _ => true
  | .agewaitExpiry _ => true
  | .replanPause _ => true
  | .pauseEnd _ => true
  | .pkgtelRefresh _ _ _ => true
  | .correctableError => true
  | .uncorrectableError _ _ _ => true
  | .coreLogicCheck _ => true
  | .eaveLogicCheck _ => true
  | .arrayLogicCheck _ => true
  | .linkError _ => true

end Sys2Proof
end

