-- ==== Sys2Proof/Decode.lean ====
section
/-! DEFINITION. The decoder of a slot word (14 R222 to R246), total on every word and every byte string, and the
encoder, both written from Tables 4.3, 6.4, 7.2, 9.3 and 14.6 to 14.12. -/

namespace Sys2Proof

/-- Why a slot word is no instruction (14 Table 14.13); each of them is ILLOP when the bundle reaches a core (R224). -/
inductive DecErr where
  | unassigned   -- the opcode is not assigned in the slot
  | reserved     -- a reserved field is not zero
  | range        -- a field value lies outside its range
  | truncated    -- fewer than four bytes
  deriving DecidableEq, Repr

/-- The bits [lo+k-1:lo] of `w` are zero: a reserved field (00 R9). -/
def zeros (w lo k : Nat) : Bool := w / 2 ^ lo % 2 ^ k == 0

/-- A field of `w` at bit `lo`, as a number below `m`. -/
def fieldF {m : Nat} [NeZero m] (w lo : Nat) : Fin m := ⟨w / 2 ^ lo % m, Nat.mod_lt _ (Nat.pos_of_neZero m)⟩

/-- A field of `w` at bit `lo`, as a bit vector. -/
def fieldB {k : Nat} (w lo : Nat) : BitVec k := BitVec.ofNat k (w / 2 ^ lo)

/-- Bit `lo` of `w`. -/
def fieldBit (w lo : Nat) : Bool := w / 2 ^ lo % 2 == 1

/-- The instruction if its reserved fields are zero. -/
def unlessRes (z : Bool) (r : Except DecErr Instr) : Except DecErr Instr := if z then r else .error .reserved

/-- An enumerated field: the decoded value goes on, any other code is out of range. -/
def withCode {α : Type} (c : Option α) (f : α → Except DecErr Instr) : Except DecErr Instr :=
  match c with
  | some a => f a
  | none => .error .range

/-- Code of SatForm (the table that names the field). -/
def satFormCode : SatForm → Nat
  | .wrap => 0
  | .sats => 1
  | .satu => 2

/-- The SatForm a code names. -/
def satFormOf (c : Nat) : Option SatForm :=
  match c with
  | 0 => some .wrap
  | 1 => some .sats
  | 2 => some .satu
  | _ => none

/-- Code of Cond (the table that names the field). -/
def condCode : Cond → Nat
  | .eq => 0
  | .ne => 1
  | .lt => 2
  | .ge => 3
  | .ltu => 4
  | .geu => 5
  | .bset => 6
  | .bclr => 7

/-- The Cond a code names. -/
def condOf (c : Nat) : Option Cond :=
  match c with
  | 0 => some .eq
  | 1 => some .ne
  | 2 => some .lt
  | 3 => some .ge
  | 4 => some .ltu
  | 5 => some .geu
  | 6 => some .bset
  | 7 => some .bclr
  | _ => none

/-- Code of Comb (the table that names the field). -/
def combCode : Comb → Nat
  | .set => 0
  | .and => 1
  | .or => 2
  | .xor => 3

/-- The Comb a code names. -/
def combOf (c : Nat) : Option Comb :=
  match c with
  | 0 => some .set
  | 1 => some .and
  | 2 => some .or
  | 3 => some .xor
  | _ => none

/-- Code of WaitCond (the table that names the field). -/
def waitCondCode : WaitCond → Nat
  | .eq => 0
  | .ne => 1
  | .ge => 2
  | .geu => 3

/-- The WaitCond a code names. -/
def waitCondOf (c : Nat) : Option WaitCond :=
  match c with
  | 0 => some .eq
  | 1 => some .ne
  | 2 => some .ge
  | 3 => some .geu
  | _ => none

/-- Code of Scope (the table that names the field). -/
def scopeCode : Scope → Nat
  | .core => 0
  | .cluster => 1
  | .device => 2
  | .system => 3

/-- The Scope a code names. -/
def scopeOf (c : Nat) : Option Scope :=
  match c with
  | 0 => some .core
  | 1 => some .cluster
  | 2 => some .device
  | 3 => some .system
  | _ => none

/-- Code of Order (the table that names the field). -/
def orderCode : Order → Nat
  | .acq => 0
  | .rel => 1
  | .acqrel => 2
  | .sc => 3

/-- The Order a code names. -/
def orderOf (c : Nat) : Option Order :=
  match c with
  | 0 => some .acq
  | 1 => some .rel
  | 2 => some .acqrel
  | 3 => some .sc
  | _ => none

/-- Code of InvSize (the table that names the field). -/
def invSizeCode : InvSize → Nat
  | .k64 => 0
  | .m2 => 1
  | .g1 => 2
  | .ctx => 3

/-- The InvSize a code names. -/
def invSizeOf (c : Nat) : Option InvSize :=
  match c with
  | 0 => some .k64
  | 1 => some .m2
  | 2 => some .g1
  | 3 => some .ctx
  | _ => none

/-- Code of WarmLevel (the table that names the field). -/
def warmLevelCode : WarmLevel → Nat
  | .l1 => 0
  | .l2 => 1
  | .cs => 2

/-- The WarmLevel a code names. -/
def warmLevelOf (c : Nat) : Option WarmLevel :=
  match c with
  | 0 => some .l1
  | 1 => some .l2
  | 2 => some .cs
  | _ => none

/-- Code of RMode (the table that names the field). -/
def rModeCode : RMode → Nat
  | .rne => 0
  | .rz => 1
  | .rup => 2
  | .rdn => 3
  | .sr => 4

/-- The RMode a code names. -/
def rModeOf (c : Nat) : Option RMode :=
  match c with
  | 0 => some .rne
  | 1 => some .rz
  | 2 => some .rup
  | 3 => some .rdn
  | 4 => some .sr
  | _ => none

/-- Code of RedOp (the table that names the field). -/
def redOpCode : RedOp → Nat
  | .sum => 0
  | .max => 1
  | .min => 2

/-- The RedOp a code names. -/
def redOpOf (c : Nat) : Option RedOp :=
  match c with
  | 0 => some .sum
  | 1 => some .max
  | 2 => some .min
  | _ => none

/-- Code of VFun (the table that names the field). -/
def vFunCode : VFun → Nat
  | .floor => 0
  | .ceil => 1
  | .trunc => 2
  | .rint => 3
  | .frac => 4
  | .sign => 5
  | .relu => 6
  | .sq => 7
  | .isnan => 8
  | .popc => 9
  | .clz => 10

/-- The VFun a code names. -/
def vFunOf (c : Nat) : Option VFun :=
  match c with
  | 0 => some .floor
  | 1 => some .ceil
  | 2 => some .trunc
  | 3 => some .rint
  | 4 => some .frac
  | 5 => some .sign
  | 6 => some .relu
  | 7 => some .sq
  | 8 => some .isnan
  | 9 => some .popc
  | 10 => some .clz
  | _ => none

/-- Kind code of a matrix operand (14 R239). -/
def mopKind : MOp → Nat
  | .tile _ => 0
  | .chan _ => 1
  | .hnd _ => 2

/-- The number in a matrix operand's seven-bit field. -/
def mopNum : MOp → Nat
  | .tile t => t.val
  | .chan c => c.val
  | .hnd h => h.val

/-- The matrix operand of a kind and a field: kind 3 and the reserved top bit of a channel or handle are refused. -/
def mopOf (k v : Nat) : Option MOp :=
  match k with
  | 0 => some (.tile (fieldF v 0))
  | 1 => if v < 64 then some (.chan (fieldF v 0)) else none
  | 2 => if v < 64 then some (.hnd (fieldF v 0)) else none
  | _ => none

/-- The opcode map: control, slot c (14 Table 14.7). -/
def decC (h : Hdr) (w op : Nat) : Except DecErr Instr :=
  match op with
  | 0 => unlessRes (zeros w 0 21) (.ok (.nop h))
  | 1 => .ok (.br h (fieldB w 0))
  | 2 => .ok (.call h (fieldB w 0))
  | 3 => unlessRes (zeros w 0 21) (.ok (.ret h))
  | 4 => unlessRes (zeros w 13 8) (.ok (.jmp h (fieldF w 0)))
  | 5 =>
    if fieldBit w 20 then unlessRes (zeros w 8 4) (.ok (.loopReg h (fieldBit w 19) (fieldBit w 18) (fieldF w 12) (fieldF w 0)))
    else .ok (.loop h (fieldBit w 19) (fieldBit w 18) (fieldF w 8) (fieldF w 0))
  | 6 => unlessRes (zeros w 0 18) (.ok (.lbrk h (fieldF w 18)))
  | 7 =>
    if fieldBit w 20 then unlessRes (zeros w 0 8) (.ok (.waitSem h (fieldF w 14) (fieldF w 8)))
    else unlessRes (zeros w 0 14) (.ok (.waitFlag h (fieldF w 15) (fieldBit w 14)))
  | 8 => unlessRes (zeros w 0 7) (withCode (waitCondOf (w / 2 ^ 7 % 4)) fun cond => .ok (.waita h (fieldF w 15) (fieldF w 9) cond))
  | 9 => unlessRes (zeros w 0 9) (.ok (.setf h (fieldF w 16) (fieldF w 10) (fieldBit w 9)))
  | 10 => unlessRes (zeros w 0 9) (.ok (.clrf h (fieldF w 16) (fieldF w 10) (fieldBit w 9)))
  | 11 => unlessRes (zeros w 0 3) (.ok (.sadd h (fieldF w 15) (fieldF w 9) (fieldF w 3)))
  | 12 => unlessRes (zeros w 0 3) (.ok (.scas h (fieldF w 15) (fieldF w 9) (fieldF w 3)))
  | 13 => unlessRes (zeros w 0 3) (.ok (.sxch h (fieldF w 15) (fieldF w 9) (fieldF w 3)))
  | 14 => unlessRes (zeros w 0 3) (.ok (.smax h (fieldF w 15) (fieldF w 9) (fieldF w 3)))
  | 15 => unlessRes (zeros w 0 3) (.ok (.swge h (fieldF w 15) (fieldF w 9) (fieldF w 3)))
  | 16 => unlessRes (zeros w 0 9) (.ok (.srd h (fieldF w 15) (fieldF w 9)))
  | 17 => unlessRes (zeros w 0 9) (.ok (.bdcl h (fieldF w 15) (fieldF w 9)))
  | 18 => unlessRes (zeros w 0 8) (.ok (.barv h (fieldF w 15) (fieldF w 9) (fieldBit w 8)))
  | 19 => unlessRes (zeros w 0 15) (.ok (.bwt h (fieldF w 15)))
  | 20 => unlessRes (zeros w 0 8) (.ok (.sstep h (fieldF w 15) (fieldF w 9) (fieldBit w 8)))
  | 21 => unlessRes (zeros w 0 17) (withCode (orderOf (w / 2 ^ 17 % 4)) fun order => withCode (scopeOf (w / 2 ^ 19 % 4)) fun scope => .ok (.fence h order scope))
  | 22 => unlessRes (zeros w 0 21) (.ok (.trig h))
  | 23 => unlessRes (zeros w 0 1) (.ok (.enq h (fieldF w 15) (fieldF w 9) (fieldF w 2) (fieldBit w 1)))
  | 24 => unlessRes (zeros w 0 21) (.ok (.ntile h))
  | 25 => unlessRes (zeros w 0 21) (.ok (.layer h))
  | 26 => unlessRes (zeros w 0 21) (.ok (.spec h))
  | 27 => unlessRes (zeros w 0 21) (.ok (.cmit h))
  | 28 => unlessRes (zeros w 0 21) (.ok (.sabt h))
  | 29 => unlessRes (zeros w 0 14) (.ok (.trap h (fieldF w 14)))
  | 30 => unlessRes (zeros w 0 21) (.ok (.exit h))
  | 32 => unlessRes (zeros w 0 3) (.ok (.frsm h (fieldF w 15) (fieldF w 9) (fieldF w 3)))
  | 33 => unlessRes (zeros w 0 7) (withCode (invSizeOf (w / 2 ^ 7 % 4)) fun sz => .ok (.tlbi h (fieldF w 15) (fieldF w 9) sz))
  | _ => .error .unassigned

/-- The opcode map: slots s and a (14 Table 14.8). -/
def decS (h : Hdr) (w op : Nat) : Except DecErr Instr :=
  match op with
  | 0 => unlessRes (zeros w 0 21) (.ok (.nop h))
  | 1 => withCode (satFormOf (w / 2 ^ 0 % 8)) fun fn => .ok (.add h (fieldF w 15) (fieldF w 9) (fieldF w 3) fn)
  | 2 => withCode (satFormOf (w / 2 ^ 0 % 8)) fun fn => .ok (.sub h (fieldF w 15) (fieldF w 9) (fieldF w 3) fn)
  | 3 => unlessRes (zeros w 0 3) (.ok (.mul h (fieldF w 15) (fieldF w 9) (fieldF w 3)))
  | 4 => unlessRes (zeros w 0 3) (.ok (.mulh h (fieldF w 15) (fieldF w 9) (fieldF w 3)))
  | 5 => unlessRes (zeros w 0 3) (.ok (.mulhu h (fieldF w 15) (fieldF w 9) (fieldF w 3)))
  | 6 => unlessRes (zeros w 0 3) (.ok (.div h (fieldF w 15) (fieldF w 9) (fieldF w 3)))
  | 7 => unlessRes (zeros w 0 3) (.ok (.divu h (fieldF w 15) (fieldF w 9) (fieldF w 3)))
  | 8 => unlessRes (zeros w 0 3) (.ok (.rem h (fieldF w 15) (fieldF w 9) (fieldF w 3)))
  | 9 => unlessRes (zeros w 0 3) (.ok (.remu h (fieldF w 15) (fieldF w 9) (fieldF w 3)))
  | 10 => unlessRes (zeros w 0 3) (.ok (.and h (fieldF w 15) (fieldF w 9) (fieldF w 3)))
  | 11 => unlessRes (zeros w 0 3) (.ok (.or h (fieldF w 15) (fieldF w 9) (fieldF w 3)))
  | 12 => unlessRes (zeros w 0 3) (.ok (.xor h (fieldF w 15) (fieldF w 9) (fieldF w 3)))
  | 13 => unlessRes (zeros w 0 3) (.ok (.andn h (fieldF w 15) (fieldF w 9) (fieldF w 3)))
  | 14 => unlessRes (zeros w 0 3) (.ok (.shl h (fieldF w 15) (fieldF w 9) (fieldF w 3)))
  | 15 => unlessRes (zeros w 0 3) (.ok (.shr h (fieldF w 15) (fieldF w 9) (fieldF w 3)))
  | 16 => unlessRes (zeros w 0 3) (.ok (.sar h (fieldF w 15) (fieldF w 9) (fieldF w 3)))
  | 17 => unlessRes (zeros w 0 3) (.ok (.min h (fieldF w 15) (fieldF w 9) (fieldF w 3)))
  | 18 => unlessRes (zeros w 0 3) (.ok (.max h (fieldF w 15) (fieldF w 9) (fieldF w 3)))
  | 19 => unlessRes (zeros w 0 3) (.ok (.minu h (fieldF w 15) (fieldF w 9) (fieldF w 3)))
  | 20 => unlessRes (zeros w 0 3) (.ok (.maxu h (fieldF w 15) (fieldF w 9) (fieldF w 3)))
  | 21 => .ok (.addi h (fieldF w 15) (fieldF w 9) (fieldB w 0))
  | 22 => .ok (.andi h (fieldF w 15) (fieldF w 9) (fieldB w 0))
  | 23 => .ok (.ori h (fieldF w 15) (fieldF w 9) (fieldB w 0))
  | 24 => .ok (.xori h (fieldF w 15) (fieldF w 9) (fieldB w 0))
  | 25 => .ok (.shli h (fieldF w 15) (fieldF w 9) (fieldB w 0))
  | 26 => .ok (.shri h (fieldF w 15) (fieldF w 9) (fieldB w 0))
  | 27 => .ok (.sari h (fieldF w 15) (fieldF w 9) (fieldB w 0))
  | 28 => .ok (.li h (fieldF w 15) (fieldB w 0))
  | 29 => .ok (.lih h (fieldF w 15) (fieldB w 0))
  | 30 => withCode (condOf (w / 2 ^ 2 % 8)) fun cond => withCode (combOf (w / 2 ^ 0 % 4)) fun comb => .ok (.cmp h (fieldF w 17) (fieldF w 11) (fieldF w 5) cond comb)
  | 31 => withCode (condOf (w / 2 ^ 2 % 8)) fun cond => withCode (combOf (w / 2 ^ 0 % 4)) fun comb => .ok (.cmpi h (fieldF w 17) (fieldF w 11) (fieldB w 5) cond comb)
  | 32 => unlessRes (zeros w 0 3) (.ok (.sel h (fieldF w 15) (fieldF w 9) (fieldF w 3)))
  | 33 => unlessRes (zeros w 0 5) (.ok (.plog h (fieldF w 17) (fieldF w 13) (fieldF w 9) (fieldB w 5)))
  | 34 => unlessRes (zeros w 0 9) (.ok (.clz h (fieldF w 15) (fieldF w 9)))
  | 35 => unlessRes (zeros w 0 9) (.ok (.ctz h (fieldF w 15) (fieldF w 9)))
  | 36 => unlessRes (zeros w 0 9) (.ok (.popc h (fieldF w 15) (fieldF w 9)))
  | 37 => unlessRes (zeros w 1 2) (.ok (.bfx h (fieldF w 15) (fieldF w 9) (fieldF w 3) (fieldBit w 0)))
  | 38 => unlessRes (zeros w 0 5) (.ok (.mfs h (fieldF w 15) (fieldF w 5)))
  | 39 => unlessRes (zeros w 0 5) (.ok (.mts h (fieldF w 15) (fieldF w 5)))
  | 40 => unlessRes (zeros w 0 12) (.ok (.xidx h (fieldF w 15) (fieldF w 12)))
  | 41 => .ok (.ldp h (fieldF w 15) (fieldF w 12) (fieldF w 0))
  | 42 => unlessRes (zeros w 0 6) (.ok (.ldpx h (fieldF w 15) (fieldF w 12) (fieldF w 6)))
  | _ => .error .unassigned

/-- The opcode map: slot a alone (14 Table 14.8). -/
def decA (h : Hdr) (w op : Nat) : Except DecErr Instr :=
  match op with
  | 48 => unlessRes (zeros w 0 11) (.ok (.oset h (fieldF w 17) (fieldF w 11)))
  | 49 => .ok (.oaddi h (fieldF w 17) (fieldB w 0))
  | 50 => unlessRes (zeros w 0 8) (.ok (.ostr h (fieldF w 17) (fieldF w 14) (fieldF w 8)))
  | 51 => unlessRes (zeros w 0 11) (.ok (.ord h (fieldF w 15) (fieldF w 11)))
  | 52 => .ok (.brx h (fieldB w 0))
  | 53 => unlessRes (zeros w 0 5) (.ok (.hset h (fieldF w 15) (fieldF w 9) (fieldF w 5)))
  | 54 => unlessRes (zeros w 0 5) (.ok (.hget h (fieldF w 15) (fieldF w 9) (fieldF w 5)))
  | 55 => unlessRes (zeros w 0 9) (.ok (.hcpy h (fieldF w 15) (fieldF w 9)))
  | _ => .error .unassigned

/-- The opcode map: slot m (14 Table 14.9). -/
def decM (h : Hdr) (w op : Nat) : Except DecErr Instr :=
  match op with
  | 0 => unlessRes (zeros w 0 21) (.ok (.nop h))
  | 1 => .ok (.tld h (fieldF w 14) (fieldF w 8) (fieldF w 4) (fieldBit w 3) (fieldF w 0))
  | 2 => unlessRes (zeros w 0 4) (.ok (.tst h (fieldF w 14) (fieldF w 8) (fieldF w 4)))
  | 3 => unlessRes (zeros w 3 2) (.ok (.tldh h (fieldF w 14) (fieldF w 8) (fieldF w 6) (fieldBit w 5) (fieldF w 0)))
  | 4 => unlessRes (zeros w 0 6) (.ok (.tsth h (fieldF w 14) (fieldF w 8) (fieldF w 6)))
  | 5 => .ok (.tldg h (fieldF w 14) (fieldF w 8) (fieldF w 1) (fieldBit w 0))
  | 6 => unlessRes (zeros w 0 1) (.ok (.tsts h (fieldF w 14) (fieldF w 8) (fieldF w 1)))
  | 7 => unlessRes (zeros w 3 1) (.ok (.tldx h (fieldF w 14) (fieldF w 8) (fieldF w 4) (fieldF w 0)))
  | 8 => unlessRes (zeros w 3 2) (.ok (.tldw h (fieldF w 15) (fieldF w 9) (fieldF w 5) (fieldF w 0)))
  | 9 =>
    if fieldBit w 1 then unlessRes (zeros w 0 1) (.ok (.tshpBound h (fieldF w 14) (fieldF w 8) (fieldF w 2)))
    else unlessRes (zeros w 2 6 && zeros w 0 1) (.ok (.tshp h (fieldF w 14) (fieldF w 8)))
  | 10 => unlessRes (zeros w 0 14) (.ok (.tzero h (fieldF w 14)))
  | 11 => unlessRes (zeros w 0 14) (.ok (.tempty h (fieldF w 14)))
  | 12 => unlessRes (zeros w 0 3) (withCode (warmLevelOf (w / 2 ^ 3 % 4)) fun lvl => .ok (.twarm h (fieldF w 15) (fieldF w 9) (fieldF w 5) lvl))
  | 13 => unlessRes (zeros w 0 3) (.ok (.xchn h (fieldF w 15) (fieldF w 9) (fieldF w 3)))
  | 14 => unlessRes (zeros w 0 9) (.ok (.twm h (fieldF w 15) (fieldF w 9)))
  | _ => .error .unassigned

/-- The opcode map: slot x (14 Table 14.10). -/
def decX (h : Hdr) (w op : Nat) : Except DecErr Instr :=
  match op with
  | 0 => unlessRes (zeros w 0 21) (.ok (.nop h))
  | 1 => withCode (mopOf (w / 2 ^ 17 % 4) (w / 2 ^ 10 % 128)) fun a => withCode (mopOf (w / 2 ^ 8 % 4) (w / 2 ^ 1 % 128)) fun b => .ok (.mma h (fieldF w 19) a b (fieldBit w 0))
  | 2 => withCode (mopOf (w / 2 ^ 17 % 4) (w / 2 ^ 10 % 128)) fun a => withCode (mopOf (w / 2 ^ 8 % 4) (w / 2 ^ 1 % 128)) fun b => .ok (.mmaz h (fieldF w 19) a b (fieldBit w 0))
  | 3 => unlessRes (zeros w 0 8) (withCode (rModeOf (w / 2 ^ 9 % 8)) fun rm => .ok (.mout h (fieldF w 14) (fieldF w 12) rm (fieldBit w 8)))
  | 4 => unlessRes (zeros w 0 6) (.ok (.mrd h (fieldF w 14) (fieldF w 12) (fieldF w 6)))
  | 5 => unlessRes (zeros w 0 19) (.ok (.mclr h (fieldF w 19)))
  | 6 => unlessRes (zeros w 0 15) (.ok (.mcop h (fieldF w 15)))
  | 7 => unlessRes (zeros w 0 10) (withCode (mopOf (w / 2 ^ 17 % 4) (w / 2 ^ 10 % 128)) fun a => .ok (.mfeed h (fieldF w 19) a))
  | 8 => unlessRes (zeros w 0 18) (.ok (.mfmt h (fieldF w 18)))
  | _ => .error .unassigned

/-- The opcode map: slots v and q (14 Table 14.11). -/
def decV (h : Hdr) (w op : Nat) : Except DecErr Instr :=
  match op with
  | 0 => unlessRes (zeros w 0 21) (.ok (.nop h))
  | 1 => .ok (.vadd h (fieldF w 14) (fieldF w 7) (fieldF w 0))
  | 2 => .ok (.vsub h (fieldF w 14) (fieldF w 7) (fieldF w 0))
  | 3 => .ok (.vmul h (fieldF w 14) (fieldF w 7) (fieldF w 0))
  | 4 => .ok (.vfma h (fieldF w 14) (fieldF w 7) (fieldF w 0))
  | 5 => .ok (.vmax h (fieldF w 14) (fieldF w 7) (fieldF w 0))
  | 6 => .ok (.vmin h (fieldF w 14) (fieldF w 7) (fieldF w 0))
  | 7 => unlessRes (zeros w 0 7) (.ok (.vabs h (fieldF w 14) (fieldF w 7)))
  | 8 => unlessRes (zeros w 0 7) (.ok (.vneg h (fieldF w 14) (fieldF w 7)))
  | 9 => unlessRes (zeros w 0 3) (withCode (rModeOf (w / 2 ^ 4 % 8)) fun rm => .ok (.vrcp h (fieldF w 14) (fieldF w 7) rm (fieldBit w 3)))
  | 10 => unlessRes (zeros w 0 3) (withCode (rModeOf (w / 2 ^ 4 % 8)) fun rm => .ok (.vrsq h (fieldF w 14) (fieldF w 7) rm (fieldBit w 3)))
  | 11 => unlessRes (zeros w 0 3) (withCode (rModeOf (w / 2 ^ 4 % 8)) fun rm => .ok (.vsqrt h (fieldF w 14) (fieldF w 7) rm (fieldBit w 3)))
  | 12 => unlessRes (zeros w 0 3) (withCode (rModeOf (w / 2 ^ 4 % 8)) fun rm => .ok (.vexp2 h (fieldF w 14) (fieldF w 7) rm (fieldBit w 3)))
  | 13 => unlessRes (zeros w 0 3) (withCode (rModeOf (w / 2 ^ 4 % 8)) fun rm => .ok (.vlog2 h (fieldF w 14) (fieldF w 7) rm (fieldBit w 3)))
  | 14 => unlessRes (zeros w 0 3) (withCode (rModeOf (w / 2 ^ 4 % 8)) fun rm => .ok (.vcvt h (fieldF w 14) (fieldF w 7) rm (fieldBit w 3)))
  | 15 => .ok (.vand h (fieldF w 14) (fieldF w 7) (fieldF w 0))
  | 16 => .ok (.vor h (fieldF w 14) (fieldF w 7) (fieldF w 0))
  | 17 => .ok (.vxor h (fieldF w 14) (fieldF w 7) (fieldF w 0))
  | 18 => unlessRes (zeros w 0 1) (.ok (.vshl h (fieldF w 14) (fieldF w 7) (fieldF w 1)))
  | 19 => unlessRes (zeros w 0 1) (.ok (.vshr h (fieldF w 14) (fieldF w 7) (fieldF w 1)))
  | 20 => .ok (.vcmp h (fieldF w 14) (fieldF w 7) (fieldF w 0))
  | 21 => .ok (.vsel h (fieldF w 14) (fieldF w 7) (fieldF w 0))
  | 22 => unlessRes (zeros w 0 7) (.ok (.vmov h (fieldF w 14) (fieldF w 7)))
  | 23 => unlessRes (zeros w 0 3) (withCode (vFunOf (w / 2 ^ 3 % 16)) fun fn => .ok (.vopx h (fieldF w 14) (fieldF w 7) fn))
  | 24 => unlessRes (zeros w 0 7) (.ok (.vbc h (fieldF w 14) (fieldF w 7)))
  | 25 => unlessRes (zeros w 0 1) (withCode (rModeOf (w / 2 ^ 4 % 8)) fun rm => withCode (redOpOf (w / 2 ^ 1 % 4)) fun op => .ok (.vrred h (fieldF w 14) (fieldF w 7) rm (fieldBit w 3) op))
  | 26 => unlessRes (zeros w 0 1) (withCode (rModeOf (w / 2 ^ 4 % 8)) fun rm => withCode (redOpOf (w / 2 ^ 1 % 4)) fun op => .ok (.vcred h (fieldF w 14) (fieldF w 7) rm (fieldBit w 3) op))
  | 27 => unlessRes (zeros w 0 2) (.ok (.vxs h (fieldF w 15) (fieldF w 8) (fieldF w 2)))
  | 28 => unlessRes (zeros w 0 2) (.ok (.vins h (fieldF w 14) (fieldF w 8) (fieldF w 2)))
  | 29 => unlessRes (zeros w 0 8) (.ok (.viota h (fieldF w 14) (fieldF w 8)))
  | 30 => .ok (.vperm h (fieldF w 14) (fieldF w 7) (fieldF w 0))
  | 31 => unlessRes (zeros w 0 1) (withCode (rModeOf (w / 2 ^ 4 % 8)) fun rm => withCode (redOpOf (w / 2 ^ 1 % 4)) fun op => .ok (.vscan h (fieldF w 14) (fieldF w 7) rm (fieldBit w 3) op))
  | 32 => unlessRes (zeros w 0 5) (.ok (.vpart h (fieldF w 14) (fieldF w 7) (fieldF w 5)))
  | 33 => .ok (.vclmp h (fieldF w 14) (fieldF w 7) (fieldF w 0))
  | 34 => unlessRes (zeros w 0 7) (.ok (.vtrn h (fieldF w 14) (fieldF w 7)))
  | _ => .error .unassigned

/-- The opcode map: slot q alone (14 Table 14.11). -/
def decQ (h : Hdr) (w op : Nat) : Except DecErr Instr :=
  match op with
  | 48 => unlessRes (zeros w 0 7) (.ok (.qthr h (fieldF w 14) (fieldF w 7)))
  | 49 => unlessRes (zeros w 0 11) (.ok (.qbis h (fieldF w 14) (fieldF w 11)))
  | 50 => .ok (.qsel h (fieldF w 14) (fieldF w 7) (fieldF w 0))
  | 51 => unlessRes (zeros w 0 3) (withCode (rModeOf (w / 2 ^ 4 % 8)) fun rm => .ok (.qscl h (fieldF w 14) (fieldF w 7) rm (fieldBit w 3)))
  | 52 => unlessRes (zeros w 0 3) (withCode (rModeOf (w / 2 ^ 4 % 8)) fun rm => .ok (.qnt h (fieldF w 14) (fieldF w 7) rm (fieldBit w 3)))
  | 53 => unlessRes (zeros w 0 7) (.ok (.qdq h (fieldF w 14) (fieldF w 7)))
  | 54 => .ok (.qef h (fieldF w 14) (fieldF w 7) (fieldF w 0))
  | _ => .error .unassigned

/-- The opcode map: slot f (14 Table 14.12). -/
def decF (h : Hdr) (w op : Nat) : Except DecErr Instr :=
  match op with
  | 0 => unlessRes (zeros w 0 21) (.ok (.nop h))
  | 1 => unlessRes (zeros w 0 9) (.ok (.chcfg h (fieldF w 15) (fieldF w 9)))
  | 2 => unlessRes (zeros w 0 8) (.ok (.chsnd h (fieldF w 15) (fieldF w 8)))
  | 3 => unlessRes (zeros w 0 14) (.ok (.chadv h (fieldF w 15) (fieldBit w 14)))
  | 4 => unlessRes (zeros w 0 9) (.ok (.chst h (fieldF w 15) (fieldF w 9)))
  | 5 => unlessRes (zeros w 0 3) (.ok (.vrcfg h (fieldF w 15) (fieldF w 9) (fieldF w 3)))
  | 6 => unlessRes (zeros w 0 3) (.ok (.vrrte h (fieldF w 15) (fieldF w 9) (fieldF w 3)))
  | 7 => unlessRes (zeros w 0 3) (.ok (.vrsct h (fieldF w 15) (fieldF w 9) (fieldF w 3)))
  | 8 => unlessRes (zeros w 0 3) (.ok (.vrcmb h (fieldF w 15) (fieldF w 9) (fieldF w 3)))
  | 9 => unlessRes (zeros w 0 5) (.ok (.vrcnt h (fieldF w 15) (fieldF w 9) (fieldF w 5)))
  | 10 => unlessRes (zeros w 0 3) (.ok (.pldef h (fieldF w 15) (fieldF w 9) (fieldF w 3)))
  | 11 => unlessRes (zeros w 0 3) (.ok (.plcnv h (fieldF w 15) (fieldF w 9) (fieldF w 3)))
  | 12 => unlessRes (zeros w 0 5) (.ok (.plqry h (fieldF w 15) (fieldF w 9) (fieldF w 5)))
  | 13 => unlessRes (zeros w 0 3) (.ok (.slbxl h (fieldF w 15) (fieldF w 9) (fieldF w 3)))
  | 14 => unlessRes (zeros w 0 3) (.ok (.slbgr h (fieldF w 15) (fieldF w 9) (fieldF w 3)))
  | 15 => unlessRes (zeros w 0 3) (.ok (.exacq h (fieldF w 15) (fieldF w 9) (fieldF w 3)))
  | 16 => unlessRes (zeros w 0 9) (.ok (.exrel h (fieldF w 15) (fieldF w 9)))
  | 17 => unlessRes (zeros w 0 15) (.ok (.tick h (fieldF w 15)))
  | _ => .error .unassigned

/-- The header of word `w` in slot `k` (14 Table 14.2). -/
def hdrOf (k : Fin 8) (w : Nat) : Hdr := { slot := k, pr := fieldF w 22, pn := fieldBit w 21 }

/-- The opcode map of a slot (14 Table 14.1): slots s and a share opcodes 0x00 to 0x2A, v and q 0x00 to 0x22. -/
def decRaw (k : Fin 8) (w : Nat) : Except DecErr Instr :=
  let h := hdrOf k w
  let op := w / 2 ^ 26 % 64
  match k with
  | 0 => decC h w op
  | 1 => decS h w op
  | 2 => if op < 0x30 then decS h w op else decA h w op
  | 3 => decM h w op
  | 4 => decX h w op
  | 5 => decV h w op
  | 6 => if op < 0x30 then decV h w op else decQ h w op
  | 7 => decF h w op

/-- The instruction of a slot word, or why there is none (14 R246). -/
def decodeSlot (k : Fin 8) (w : Nat) : Except DecErr Instr :=
  match decRaw k w with
  | .ok i => if i.wf then .ok i else .error .range
  | .error e => .error e

/-- The first four bytes of a string as a slot word, lowest address first (00 R7), and the rest. -/
def decodeBytes (k : Fin 8) : List Byte → Except DecErr (Instr × List Byte)
  | a :: b :: c :: d :: rest =>
    match decodeSlot k (a.toNat + 2 ^ 8 * b.toNat + 2 ^ 16 * c.toNat + 2 ^ 24 * d.toNat) with
    | .ok i => .ok (i, rest)
    | .error e => .error e
  | _ => .error .truncated

/-- The header bits of a word: OP, PR and PN (14 Table 14.2). -/
def encHdr (h : Hdr) (op : Nat) : Nat := op * 2 ^ 26 + h.pr.val * 2 ^ 22 + h.pn.toNat * 2 ^ 21

/-- A value at bit `lo` of a word. -/
def sh (lo v : Nat) : Nat := v * 2 ^ lo

/-- A word: its header and its fields, each already at its place. -/
def enc (h : Hdr) (op : Nat) (fs : List Nat) : Option Nat := some (encHdr h op + fs.sum)

/-- The word of an instruction; an event of the part has none. -/
def encode : Instr → Option Nat
  | .nop h => enc h 0 []
  | .br h disp => enc h 1 [sh 0 disp.toNat]
  | .call h disp => enc h 2 [sh 0 disp.toNat]
  | .ret h => enc h 3 []
  | .jmp h target => enc h 4 [sh 0 target.val]
  | .loop h l p count lenM1 => enc h 5 [sh 19 l.toNat, sh 18 p.toNat, sh 8 count.val, sh 0 lenM1.val]
  | .loopReg h l p xN lenM1 => enc h 5 [sh 20 1, sh 19 l.toNat, sh 18 p.toNat, sh 12 xN.val, sh 0 lenM1.val]
  | .lbrk h n => enc h 6 [sh 18 n.val]
  | .waitFlag h f clear => enc h 7 [sh 15 f.val, sh 14 clear.toNat]
  | .waitSem h xS xT => enc h 7 [sh 20 1, sh 14 xS.val, sh 8 xT.val]
  | .waita h xA xV cond => enc h 8 [sh 15 xA.val, sh 9 xV.val, sh 7 (waitCondCode cond)]
  | .setf h f xC remote => enc h 9 [sh 16 f.val, sh 10 xC.val, sh 9 remote.toNat]
  | .clrf h f xC remote => enc h 10 [sh 16 f.val, sh 10 xC.val, sh 9 remote.toNat]
  | .sadd h xD xS xV => enc h 11 [sh 15 xD.val, sh 9 xS.val, sh 3 xV.val]
  | .scas h xD xS xV => enc h 12 [sh 15 xD.val, sh 9 xS.val, sh 3 xV.val]
  | .sxch h xD xS xV => enc h 13 [sh 15 xD.val, sh 9 xS.val, sh 3 xV.val]
  | .smax h xD xS xV => enc h 14 [sh 15 xD.val, sh 9 xS.val, sh 3 xV.val]
  | .swge h xD xS xV => enc h 15 [sh 15 xD.val, sh 9 xS.val, sh 3 xV.val]
  | .srd h xD xS => enc h 16 [sh 15 xD.val, sh 9 xS.val]
  | .bdcl h b xA => enc h 17 [sh 15 b.val, sh 9 xA.val]
  | .barv h b c named => enc h 18 [sh 15 b.val, sh 9 c.val, sh 8 named.toNat]
  | .bwt h b => enc h 19 [sh 15 b.val]
  | .sstep h b c named => enc h 20 [sh 15 b.val, sh 9 c.val, sh 8 named.toNat]
  | .fence h order scope => enc h 21 [sh 19 (scopeCode scope), sh 17 (orderCode order)]
  | .trig h => enc h 22 []
  | .enq h xD xQ tS hi => enc h 23 [sh 15 xD.val, sh 9 xQ.val, sh 2 tS.val, sh 1 hi.toNat]
  | .ntile h => enc h 24 []
  | .layer h => enc h 25 []
  | .spec h => enc h 26 []
  | .cmit h => enc h 27 []
  | .sabt h => enc h 28 []
  | .trap h n => enc h 29 [sh 14 n.val]
  | .exit h => enc h 30 []
  | .frsm h xD xC xN => enc h 32 [sh 15 xD.val, sh 9 xC.val, sh 3 xN.val]
  | .tlbi h xA xC sz => enc h 33 [sh 15 xA.val, sh 9 xC.val, sh 7 (invSizeCode sz)]
  | .add h xD xA xB fn => enc h 1 [sh 15 xD.val, sh 9 xA.val, sh 3 xB.val, sh 0 (satFormCode fn)]
  | .sub h xD xA xB fn => enc h 2 [sh 15 xD.val, sh 9 xA.val, sh 3 xB.val, sh 0 (satFormCode fn)]
  | .mul h xD xA xB => enc h 3 [sh 15 xD.val, sh 9 xA.val, sh 3 xB.val]
  | .mulh h xD xA xB => enc h 4 [sh 15 xD.val, sh 9 xA.val, sh 3 xB.val]
  | .mulhu h xD xA xB => enc h 5 [sh 15 xD.val, sh 9 xA.val, sh 3 xB.val]
  | .div h xD xA xB => enc h 6 [sh 15 xD.val, sh 9 xA.val, sh 3 xB.val]
  | .divu h xD xA xB => enc h 7 [sh 15 xD.val, sh 9 xA.val, sh 3 xB.val]
  | .rem h xD xA xB => enc h 8 [sh 15 xD.val, sh 9 xA.val, sh 3 xB.val]
  | .remu h xD xA xB => enc h 9 [sh 15 xD.val, sh 9 xA.val, sh 3 xB.val]
  | .and h xD xA xB => enc h 10 [sh 15 xD.val, sh 9 xA.val, sh 3 xB.val]
  | .or h xD xA xB => enc h 11 [sh 15 xD.val, sh 9 xA.val, sh 3 xB.val]
  | .xor h xD xA xB => enc h 12 [sh 15 xD.val, sh 9 xA.val, sh 3 xB.val]
  | .andn h xD xA xB => enc h 13 [sh 15 xD.val, sh 9 xA.val, sh 3 xB.val]
  | .shl h xD xA xB => enc h 14 [sh 15 xD.val, sh 9 xA.val, sh 3 xB.val]
  | .shr h xD xA xB => enc h 15 [sh 15 xD.val, sh 9 xA.val, sh 3 xB.val]
  | .sar h xD xA xB => enc h 16 [sh 15 xD.val, sh 9 xA.val, sh 3 xB.val]
  | .min h xD xA xB => enc h 17 [sh 15 xD.val, sh 9 xA.val, sh 3 xB.val]
  | .max h xD xA xB => enc h 18 [sh 15 xD.val, sh 9 xA.val, sh 3 xB.val]
  | .minu h xD xA xB => enc h 19 [sh 15 xD.val, sh 9 xA.val, sh 3 xB.val]
  | .maxu h xD xA xB => enc h 20 [sh 15 xD.val, sh 9 xA.val, sh 3 xB.val]
  | .addi h xD xA imm => enc h 21 [sh 15 xD.val, sh 9 xA.val, sh 0 imm.toNat]
  | .andi h xD xA imm => enc h 22 [sh 15 xD.val, sh 9 xA.val, sh 0 imm.toNat]
  | .ori h xD xA imm => enc h 23 [sh 15 xD.val, sh 9 xA.val, sh 0 imm.toNat]
  | .xori h xD xA imm => enc h 24 [sh 15 xD.val, sh 9 xA.val, sh 0 imm.toNat]
  | .shli h xD xA imm => enc h 25 [sh 15 xD.val, sh 9 xA.val, sh 0 imm.toNat]
  | .shri h xD xA imm => enc h 26 [sh 15 xD.val, sh 9 xA.val, sh 0 imm.toNat]
  | .sari h xD xA imm => enc h 27 [sh 15 xD.val, sh 9 xA.val, sh 0 imm.toNat]
  | .li h xD imm => enc h 28 [sh 15 xD.val, sh 0 imm.toNat]
  | .lih h xD imm => enc h 29 [sh 15 xD.val, sh 0 imm.toNat]
  | .cmp h pD xA xB cond comb => enc h 30 [sh 17 pD.val, sh 11 xA.val, sh 5 xB.val, sh 2 (condCode cond), sh 0 (combCode comb)]
  | .cmpi h pD xA imm cond comb => enc h 31 [sh 17 pD.val, sh 11 xA.val, sh 5 imm.toNat, sh 2 (condCode cond), sh 0 (combCode comb)]
  | .sel h xD xA xB => enc h 32 [sh 15 xD.val, sh 9 xA.val, sh 3 xB.val]
  | .plog h pD pA pB tt => enc h 33 [sh 17 pD.val, sh 13 pA.val, sh 9 pB.val, sh 5 tt.toNat]
  | .clz h xD xA => enc h 34 [sh 15 xD.val, sh 9 xA.val]
  | .ctz h xD xA => enc h 35 [sh 15 xD.val, sh 9 xA.val]
  | .popc h xD xA => enc h 36 [sh 15 xD.val, sh 9 xA.val]
  | .bfx h xD xA xB sx => enc h 37 [sh 15 xD.val, sh 9 xA.val, sh 3 xB.val, sh 0 sx.toNat]
  | .mfs h xD num => enc h 38 [sh 15 xD.val, sh 5 num.val]
  | .mts h xA num => enc h 39 [sh 15 xA.val, sh 5 num.val]
  | .xidx h xD lvl => enc h 40 [sh 15 xD.val, sh 12 lvl.val]
  | .ldp h xD w imm => enc h 41 [sh 15 xD.val, sh 12 w.val, sh 0 imm.val]
  | .ldpx h xD w xA => enc h 42 [sh 15 xD.val, sh 12 w.val, sh 6 xA.val]
  | .oset h oD xA => enc h 48 [sh 17 oD.val, sh 11 xA.val]
  | .oaddi h oD imm => enc h 49 [sh 17 oD.val, sh 0 imm.toNat]
  | .ostr h oD lvl xA => enc h 50 [sh 17 oD.val, sh 14 lvl.val, sh 8 xA.val]
  | .ord h xD oA => enc h 51 [sh 15 xD.val, sh 11 oA.val]
  | .brx h disp => enc h 52 [sh 0 disp.toNat]
  | .hset h hD xA sl => enc h 53 [sh 15 hD.val, sh 9 xA.val, sh 5 sl.val]
  | .hget h xD hA sl => enc h 54 [sh 15 xD.val, sh 9 hA.val, sh 5 sl.val]
  | .hcpy h hD hA => enc h 55 [sh 15 hD.val, sh 9 hA.val]
  | .tld h tD xB oO byp land => enc h 1 [sh 14 tD.val, sh 8 xB.val, sh 4 oO.val, sh 3 byp.toNat, sh 0 land.val]
  | .tst h tS xB oO => enc h 2 [sh 14 tS.val, sh 8 xB.val, sh 4 oO.val]
  | .tldh h tD hn og enf land => enc h 3 [sh 14 tD.val, sh 8 hn.val, sh 6 og.val, sh 5 enf.toNat, sh 0 land.val]
  | .tsth h tS hn og => enc h 4 [sh 14 tS.val, sh 8 hn.val, sh 6 og.val]
  | .tldg h tD xB tI l7 => enc h 5 [sh 14 tD.val, sh 8 xB.val, sh 1 tI.val, sh 0 l7.toNat]
  | .tsts h tS xB tI => enc h 6 [sh 14 tS.val, sh 8 xB.val, sh 1 tI.val]
  | .tldx h tD xB oO land => enc h 7 [sh 14 tD.val, sh 8 xB.val, sh 4 oO.val, sh 0 land.val]
  | .tldw h xD xB oO land => enc h 8 [sh 15 xD.val, sh 9 xB.val, sh 5 oO.val, sh 0 land.val]
  | .tshp h tD xA => enc h 9 [sh 14 tD.val, sh 8 xA.val]
  | .tshpBound h tD xA hn => enc h 9 [sh 14 tD.val, sh 8 xA.val, sh 2 hn.val, sh 1 1]
  | .tzero h tD => enc h 10 [sh 14 tD.val]
  | .tempty h tD => enc h 11 [sh 14 tD.val]
  | .twarm h xN xB oO lvl => enc h 12 [sh 15 xN.val, sh 9 xB.val, sh 5 oO.val, sh 3 (warmLevelCode lvl)]
  | .xchn h xD xA xC => enc h 13 [sh 15 xD.val, sh 9 xA.val, sh 3 xC.val]
  | .twm h xD xC => enc h 14 [sh 15 xD.val, sh 9 xC.val]
  | .mma h acc a b fs => enc h 1 [sh 19 acc.val, sh 17 (mopKind a), sh 10 (mopNum a), sh 8 (mopKind b), sh 1 (mopNum b), sh 0 fs.toNat]
  | .mmaz h acc a b fs => enc h 2 [sh 19 acc.val, sh 17 (mopKind a), sh 10 (mopNum a), sh 8 (mopKind b), sh 1 (mopNum b), sh 0 fs.toNat]
  | .mout h tD acc rm sat => enc h 3 [sh 14 tD.val, sh 12 acc.val, sh 9 (rModeCode rm), sh 8 sat.toNat]
  | .mrd h tD acc xD => enc h 4 [sh 14 tD.val, sh 12 acc.val, sh 6 xD.val]
  | .mclr h acc => enc h 5 [sh 19 acc.val]
  | .mcop h xA => enc h 6 [sh 15 xA.val]
  | .mfeed h acc a => enc h 7 [sh 19 acc.val, sh 17 (mopKind a), sh 10 (mopNum a)]
  | .mfmt h lvl => enc h 8 [sh 18 lvl.val]
  | .vadd h tD tA tB => enc h 1 [sh 14 tD.val, sh 7 tA.val, sh 0 tB.val]
  | .vsub h tD tA tB => enc h 2 [sh 14 tD.val, sh 7 tA.val, sh 0 tB.val]
  | .vmul h tD tA tB => enc h 3 [sh 14 tD.val, sh 7 tA.val, sh 0 tB.val]
  | .vfma h tD tA tB => enc h 4 [sh 14 tD.val, sh 7 tA.val, sh 0 tB.val]
  | .vmax h tD tA tB => enc h 5 [sh 14 tD.val, sh 7 tA.val, sh 0 tB.val]
  | .vmin h tD tA tB => enc h 6 [sh 14 tD.val, sh 7 tA.val, sh 0 tB.val]
  | .vabs h tD tA => enc h 7 [sh 14 tD.val, sh 7 tA.val]
  | .vneg h tD tA => enc h 8 [sh 14 tD.val, sh 7 tA.val]
  | .vrcp h tD tA rm sat => enc h 9 [sh 14 tD.val, sh 7 tA.val, sh 4 (rModeCode rm), sh 3 sat.toNat]
  | .vrsq h tD tA rm sat => enc h 10 [sh 14 tD.val, sh 7 tA.val, sh 4 (rModeCode rm), sh 3 sat.toNat]
  | .vsqrt h tD tA rm sat => enc h 11 [sh 14 tD.val, sh 7 tA.val, sh 4 (rModeCode rm), sh 3 sat.toNat]
  | .vexp2 h tD tA rm sat => enc h 12 [sh 14 tD.val, sh 7 tA.val, sh 4 (rModeCode rm), sh 3 sat.toNat]
  | .vlog2 h tD tA rm sat => enc h 13 [sh 14 tD.val, sh 7 tA.val, sh 4 (rModeCode rm), sh 3 sat.toNat]
  | .vcvt h tD tA rm sat => enc h 14 [sh 14 tD.val, sh 7 tA.val, sh 4 (rModeCode rm), sh 3 sat.toNat]
  | .vand h tD tA tB => enc h 15 [sh 14 tD.val, sh 7 tA.val, sh 0 tB.val]
  | .vor h tD tA tB => enc h 16 [sh 14 tD.val, sh 7 tA.val, sh 0 tB.val]
  | .vxor h tD tA tB => enc h 17 [sh 14 tD.val, sh 7 tA.val, sh 0 tB.val]
  | .vshl h tD tA xB => enc h 18 [sh 14 tD.val, sh 7 tA.val, sh 1 xB.val]
  | .vshr h tD tA xB => enc h 19 [sh 14 tD.val, sh 7 tA.val, sh 1 xB.val]
  | .vcmp h tD tA tB => enc h 20 [sh 14 tD.val, sh 7 tA.val, sh 0 tB.val]
  | .vsel h tD tA tB => enc h 21 [sh 14 tD.val, sh 7 tA.val, sh 0 tB.val]
  | .vmov h tD tA => enc h 22 [sh 14 tD.val, sh 7 tA.val]
  | .vopx h tD tA fn => enc h 23 [sh 14 tD.val, sh 7 tA.val, sh 3 (vFunCode fn)]
  | .vbc h tD tA => enc h 24 [sh 14 tD.val, sh 7 tA.val]
  | .vrred h tD tA rm sat op => enc h 25 [sh 14 tD.val, sh 7 tA.val, sh 4 (rModeCode rm), sh 3 sat.toNat, sh 1 (redOpCode op)]
  | .vcred h tD tA rm sat op => enc h 26 [sh 14 tD.val, sh 7 tA.val, sh 4 (rModeCode rm), sh 3 sat.toNat, sh 1 (redOpCode op)]
  | .vxs h xD tA xB => enc h 27 [sh 15 xD.val, sh 8 tA.val, sh 2 xB.val]
  | .vins h tD xA xB => enc h 28 [sh 14 tD.val, sh 8 xA.val, sh 2 xB.val]
  | .viota h tD xA => enc h 29 [sh 14 tD.val, sh 8 xA.val]
  | .vperm h tD tA tB => enc h 30 [sh 14 tD.val, sh 7 tA.val, sh 0 tB.val]
  | .vscan h tD tA rm sat op => enc h 31 [sh 14 tD.val, sh 7 tA.val, sh 4 (rModeCode rm), sh 3 sat.toNat, sh 1 (redOpCode op)]
  | .vpart h tD tA nom1 => enc h 32 [sh 14 tD.val, sh 7 tA.val, sh 5 nom1.val]
  | .vclmp h tD tA tB => enc h 33 [sh 14 tD.val, sh 7 tA.val, sh 0 tB.val]
  | .vtrn h tD tA => enc h 34 [sh 14 tD.val, sh 7 tA.val]
  | .qthr h tD tA => enc h 48 [sh 14 tD.val, sh 7 tA.val]
  | .qbis h tD km1 => enc h 49 [sh 14 tD.val, sh 11 km1.val]
  | .qsel h tD tA tB => enc h 50 [sh 14 tD.val, sh 7 tA.val, sh 0 tB.val]
  | .qscl h tD tA rm sat => enc h 51 [sh 14 tD.val, sh 7 tA.val, sh 4 (rModeCode rm), sh 3 sat.toNat]
  | .qnt h tD tA rm sat => enc h 52 [sh 14 tD.val, sh 7 tA.val, sh 4 (rModeCode rm), sh 3 sat.toNat]
  | .qdq h tD tA => enc h 53 [sh 14 tD.val, sh 7 tA.val]
  | .qef h tD tA tB => enc h 54 [sh 14 tD.val, sh 7 tA.val, sh 0 tB.val]
  | .chcfg h c xA => enc h 1 [sh 15 c.val, sh 9 xA.val]
  | .chsnd h c tS => enc h 2 [sh 15 c.val, sh 8 tS.val]
  | .chadv h c cons => enc h 3 [sh 15 c.val, sh 14 cons.toNat]
  | .chst h xD c => enc h 4 [sh 15 xD.val, sh 9 c.val]
  | .vrcfg h xD xA xB => enc h 5 [sh 15 xD.val, sh 9 xA.val, sh 3 xB.val]
  | .vrrte h xD xA xB => enc h 6 [sh 15 xD.val, sh 9 xA.val, sh 3 xB.val]
  | .vrsct h xD xA xB => enc h 7 [sh 15 xD.val, sh 9 xA.val, sh 3 xB.val]
  | .vrcmb h xD xA xB => enc h 8 [sh 15 xD.val, sh 9 xA.val, sh 3 xB.val]
  | .vrcnt h xD xA sl => enc h 9 [sh 15 xD.val, sh 9 xA.val, sh 5 sl.val]
  | .pldef h xD xA xB => enc h 10 [sh 15 xD.val, sh 9 xA.val, sh 3 xB.val]
  | .plcnv h xD xA xB => enc h 11 [sh 15 xD.val, sh 9 xA.val, sh 3 xB.val]
  | .plqry h xD xA sl => enc h 12 [sh 15 xD.val, sh 9 xA.val, sh 5 sl.val]
  | .slbxl h xD xA xB => enc h 13 [sh 15 xD.val, sh 9 xA.val, sh 3 xB.val]
  | .slbgr h xD xA xB => enc h 14 [sh 15 xD.val, sh 9 xA.val, sh 3 xB.val]
  | .exacq h xD xA xB => enc h 15 [sh 15 xD.val, sh 9 xA.val, sh 3 xB.val]
  | .exrel h xD xA => enc h 16 [sh 15 xD.val, sh 9 xA.val]
  | .tick h xD => enc h 17 [sh 15 xD.val]
  | .coldStart => none
  | .powerLoss _ _ => none
  | .overtemperature _ _ => none
  | .laserModuleRemoval _ => none
  | .laserModuleInsertion _ => none
  | .boot => none
  | .imageVerified => none
  | .initComplete _ => none
  | .warmReset => none
  | .functionLevelReset => none
  | .spdmRequest _ => none
  | .registerWrite _ _ => none
  | .hostMemRead _ _ => none
  | .hostMemWrite _ _ => none
  | .create _ => none
  | .activate _ => none
  | .suspend _ => none
  | .ctxResume _ => none
  | .ctxFence _ => none
  | .destroy _ => none
  | .destroyComplete _ => none
  | .queueEnable _ => none
  | .queueDisable _ => none
  | .doorbell _ _ => none
  | .frontEndStart => none
  | .launch _ => none
  | .collstep _ => none
  | .transfer _ => none
  | .convert _ => none
  | .signal _ => none
  | .waitsem _ => none
  | .tickstart _ => none
  | .marker _ => none
  | .launchReady _ => none
  | .startTick _ => none
  | .late _ => none
  | .sequencerBroadcast _ => none
  | .bundleIssue _ => none
  | .saveComplete _ => none
  | .park _ => none
  | .groupRestore _ => none
  | .restoreComplete _ => none
  | .shadowReplay _ => none
  | .exposedResultDue _ => none
  | .drainComplete _ => none
  | .drainMarker _ _ => none
  | .drainMarkerReturn _ _ => none
  | .dispenserGrant _ _ => none
  | .barrierArrival _ _ _ _ => none
  | .bdclArrival _ _ _ _ => none
  | .barrierLanding _ _ _ _ _ _ => none
  | .packageArrival _ _ _ _ => none
  | .completionNotice _ _ _ => none
  | .watchdogExpiry _ _ _ => none
  | .semaphoreTest _ => none
  | .semaphoreOperation _ _ => none
  | .monitorWake _ => none
  | .monitorReread _ => none
  | .remoteFlagChange _ _ _ _ _ _ _ => none
  | .loadPerformed _ _ _ => none
  | .loadLanding _ _ => none
  | .storePerformed _ _ _ => none
  | .wcbAgeDrain _ _ => none
  | .writeApply _ _ => none
  | .closeMarker _ _ _ => none
  | .applyAcknowledgement _ _ => none
  | .releaseComplete _ _ => none
  | .bankRetry _ => none
  | .walkStart _ _ _ => none
  | .walkComplete _ _ _ => none
  | .invalidationBegin => none
  | .invalidationComplete => none
  | .placement _ => none
  | .pieceStart _ => none
  | .pieceComplete _ => none
  | .kstepComplete _ _ => none
  | .shadowSwap _ => none
  | .mmaComplete _ _ => none
  | .matrixOutputComplete _ _ => none
  | .pipeStart _ _ => none
  | .vectorComplete _ _ => none
  | .tzeroFill _ _ => none
  | .chcfgEntryArrival _ _ => none
  | .channelLanding _ _ _ _ _ _ _ _ => none
  | .channelCredit _ _ _ _ => none
  | .replyArrival _ _ => none
  | .routeOperationRun _ _ => none
  | .routeOperationComplete _ _ _ => none
  | .join _ _ _ _ _ _ => none
  | .joinTimeout _ _ _ => none
  | .conversionStageComplete _ _ _ => none
  | .collectiveStepComplete _ _ => none
  | .tsthAtEave _ _ => none
  | .transferLinkComplete _ => none
  | .slabChunkCopied _ _ => none
  | .expertSlotFilled _ => none
  | .lnkTrain _ => none
  | .lnkFence _ => none
  | .lnkDisable _ => none
  | .trainingDone _ _ _ _ => none
  | .trainingTimeout _ => none
  | .wavelengthLoss _ => none
  | .replayTimeout _ => none
  | .replayComplete _ => none
  | .nak _ _ => none
  | .payload _ _ => none
  | .last _ _ => none
  | .idle _ _ => none
  | .tickFlit _ _ _ => none
  | .slotid _ _ => none
  | .flitSend _ => none
  | .slotOpen _ => none
  | .guardEnd _ => none
  | .slotClose _ => none
  | .sltctlWrite _ _ => none
  | .tickSend _ => none
  | .crcFailure _ => none
  | .meshcfgWrite _ => none
  | .l2qtWrite _ => none
  | .excfgWrite _ => none
  | .gstaleWrite _ => none
  | .invreq _ => none
  | .resume _ => none
  | .meas => none
  | .measurement _ _ => none
  | .agewaitExpiry _ => none
  | .replanPause _ => none
  | .pauseEnd _ => none
  | .pkgtelRefresh _ _ _ => none
  | .correctableError => none
  | .uncorrectableError _ _ _ => none
  | .coreLogicCheck _ => none
  | .eaveLogicCheck _ => none
  | .arrayLogicCheck _ => none
  | .linkError _ => none

/-- The slot an instruction's header names; events stand in no slot. -/
def Instr.slot? : Instr → Option (Fin 8)
  | .nop h => some h.slot
  | .br h _ => some h.slot
  | .call h _ => some h.slot
  | .ret h => some h.slot
  | .jmp h _ => some h.slot
  | .loop h _ _ _ _ => some h.slot
  | .loopReg h _ _ _ _ => some h.slot
  | .lbrk h _ => some h.slot
  | .waitFlag h _ _ => some h.slot
  | .waitSem h _ _ => some h.slot
  | .waita h _ _ _ => some h.slot
  | .setf h _ _ _ => some h.slot
  | .clrf h _ _ _ => some h.slot
  | .sadd h _ _ _ => some h.slot
  | .scas h _ _ _ => some h.slot
  | .sxch h _ _ _ => some h.slot
  | .smax h _ _ _ => some h.slot
  | .swge h _ _ _ => some h.slot
  | .srd h _ _ => some h.slot
  | .bdcl h _ _ => some h.slot
  | .barv h _ _ _ => some h.slot
  | .bwt h _ => some h.slot
  | .sstep h _ _ _ => some h.slot
  | .fence h _ _ => some h.slot
  | .trig h => some h.slot
  | .enq h _ _ _ _ => some h.slot
  | .ntile h => some h.slot
  | .layer h => some h.slot
  | .spec h => some h.slot
  | .cmit h => some h.slot
  | .sabt h => some h.slot
  | .trap h _ => some h.slot
  | .exit h => some h.slot
  | .frsm h _ _ _ => some h.slot
  | .tlbi h _ _ _ => some h.slot
  | .add h _ _ _ _ => some h.slot
  | .sub h _ _ _ _ => some h.slot
  | .mul h _ _ _ => some h.slot
  | .mulh h _ _ _ => some h.slot
  | .mulhu h _ _ _ => some h.slot
  | .div h _ _ _ => some h.slot
  | .divu h _ _ _ => some h.slot
  | .rem h _ _ _ => some h.slot
  | .remu h _ _ _ => some h.slot
  | .and h _ _ _ => some h.slot
  | .or h _ _ _ => some h.slot
  | .xor h _ _ _ => some h.slot
  | .andn h _ _ _ => some h.slot
  | .shl h _ _ _ => some h.slot
  | .shr h _ _ _ => some h.slot
  | .sar h _ _ _ => some h.slot
  | .min h _ _ _ => some h.slot
  | .max h _ _ _ => some h.slot
  | .minu h _ _ _ => some h.slot
  | .maxu h _ _ _ => some h.slot
  | .addi h _ _ _ => some h.slot
  | .andi h _ _ _ => some h.slot
  | .ori h _ _ _ => some h.slot
  | .xori h _ _ _ => some h.slot
  | .shli h _ _ _ => some h.slot
  | .shri h _ _ _ => some h.slot
  | .sari h _ _ _ => some h.slot
  | .li h _ _ => some h.slot
  | .lih h _ _ => some h.slot
  | .cmp h _ _ _ _ _ => some h.slot
  | .cmpi h _ _ _ _ _ => some h.slot
  | .sel h _ _ _ => some h.slot
  | .plog h _ _ _ _ => some h.slot
  | .clz h _ _ => some h.slot
  | .ctz h _ _ => some h.slot
  | .popc h _ _ => some h.slot
  | .bfx h _ _ _ _ => some h.slot
  | .mfs h _ _ => some h.slot
  | .mts h _ _ => some h.slot
  | .xidx h _ _ => some h.slot
  | .ldp h _ _ _ => some h.slot
  | .ldpx h _ _ _ => some h.slot
  | .oset h _ _ => some h.slot
  | .oaddi h _ _ => some h.slot
  | .ostr h _ _ _ => some h.slot
  | .ord h _ _ => some h.slot
  | .brx h _ => some h.slot
  | .hset h _ _ _ => some h.slot
  | .hget h _ _ _ => some h.slot
  | .hcpy h _ _ => some h.slot
  | .tld h _ _ _ _ _ => some h.slot
  | .tst h _ _ _ => some h.slot
  | .tldh h _ _ _ _ _ => some h.slot
  | .tsth h _ _ _ => some h.slot
  | .tldg h _ _ _ _ => some h.slot
  | .tsts h _ _ _ => some h.slot
  | .tldx h _ _ _ _ => some h.slot
  | .tldw h _ _ _ _ => some h.slot
  | .tshp h _ _ => some h.slot
  | .tshpBound h _ _ _ => some h.slot
  | .tzero h _ => some h.slot
  | .tempty h _ => some h.slot
  | .twarm h _ _ _ _ => some h.slot
  | .xchn h _ _ _ => some h.slot
  | .twm h _ _ => some h.slot
  | .mma h _ _ _ _ => some h.slot
  | .mmaz h _ _ _ _ => some h.slot
  | .mout h _ _ _ _ => some h.slot
  | .mrd h _ _ _ => some h.slot
  | .mclr h _ => some h.slot
  | .mcop h _ => some h.slot
  | .mfeed h _ _ => some h.slot
  | .mfmt h _ => some h.slot
  | .vadd h _ _ _ => some h.slot
  | .vsub h _ _ _ => some h.slot
  | .vmul h _ _ _ => some h.slot
  | .vfma h _ _ _ => some h.slot
  | .vmax h _ _ _ => some h.slot
  | .vmin h _ _ _ => some h.slot
  | .vabs h _ _ => some h.slot
  | .vneg h _ _ => some h.slot
  | .vrcp h _ _ _ _ => some h.slot
  | .vrsq h _ _ _ _ => some h.slot
  | .vsqrt h _ _ _ _ => some h.slot
  | .vexp2 h _ _ _ _ => some h.slot
  | .vlog2 h _ _ _ _ => some h.slot
  | .vcvt h _ _ _ _ => some h.slot
  | .vand h _ _ _ => some h.slot
  | .vor h _ _ _ => some h.slot
  | .vxor h _ _ _ => some h.slot
  | .vshl h _ _ _ => some h.slot
  | .vshr h _ _ _ => some h.slot
  | .vcmp h _ _ _ => some h.slot
  | .vsel h _ _ _ => some h.slot
  | .vmov h _ _ => some h.slot
  | .vopx h _ _ _ => some h.slot
  | .vbc h _ _ => some h.slot
  | .vrred h _ _ _ _ _ => some h.slot
  | .vcred h _ _ _ _ _ => some h.slot
  | .vxs h _ _ _ => some h.slot
  | .vins h _ _ _ => some h.slot
  | .viota h _ _ => some h.slot
  | .vperm h _ _ _ => some h.slot
  | .vscan h _ _ _ _ _ => some h.slot
  | .vpart h _ _ _ => some h.slot
  | .vclmp h _ _ _ => some h.slot
  | .vtrn h _ _ => some h.slot
  | .qthr h _ _ => some h.slot
  | .qbis h _ _ => some h.slot
  | .qsel h _ _ _ => some h.slot
  | .qscl h _ _ _ _ => some h.slot
  | .qnt h _ _ _ _ => some h.slot
  | .qdq h _ _ => some h.slot
  | .qef h _ _ _ => some h.slot
  | .chcfg h _ _ => some h.slot
  | .chsnd h _ _ => some h.slot
  | .chadv h _ _ => some h.slot
  | .chst h _ _ => some h.slot
  | .vrcfg h _ _ _ => some h.slot
  | .vrrte h _ _ _ => some h.slot
  | .vrsct h _ _ _ => some h.slot
  | .vrcmb h _ _ _ => some h.slot
  | .vrcnt h _ _ _ => some h.slot
  | .pldef h _ _ _ => some h.slot
  | .plcnv h _ _ _ => some h.slot
  | .plqry h _ _ _ => some h.slot
  | .slbxl h _ _ _ => some h.slot
  | .slbgr h _ _ _ => some h.slot
  | .exacq h _ _ _ => some h.slot
  | .exrel h _ _ => some h.slot
  | .tick h _ => some h.slot
  | .coldStart => none
  | .powerLoss _ _ => none
  | .overtemperature _ _ => none
  | .laserModuleRemoval _ => none
  | .laserModuleInsertion _ => none
  | .boot => none
  | .imageVerified => none
  | .initComplete _ => none
  | .warmReset => none
  | .functionLevelReset => none
  | .spdmRequest _ => none
  | .registerWrite _ _ => none
  | .hostMemRead _ _ => none
  | .hostMemWrite _ _ => none
  | .create _ => none
  | .activate _ => none
  | .suspend _ => none
  | .ctxResume _ => none
  | .ctxFence _ => none
  | .destroy _ => none
  | .destroyComplete _ => none
  | .queueEnable _ => none
  | .queueDisable _ => none
  | .doorbell _ _ => none
  | .frontEndStart => none
  | .launch _ => none
  | .collstep _ => none
  | .transfer _ => none
  | .convert _ => none
  | .signal _ => none
  | .waitsem _ => none
  | .tickstart _ => none
  | .marker _ => none
  | .launchReady _ => none
  | .startTick _ => none
  | .late _ => none
  | .sequencerBroadcast _ => none
  | .bundleIssue _ => none
  | .saveComplete _ => none
  | .park _ => none
  | .groupRestore _ => none
  | .restoreComplete _ => none
  | .shadowReplay _ => none
  | .exposedResultDue _ => none
  | .drainComplete _ => none
  | .drainMarker _ _ => none
  | .drainMarkerReturn _ _ => none
  | .dispenserGrant _ _ => none
  | .barrierArrival _ _ _ _ => none
  | .bdclArrival _ _ _ _ => none
  | .barrierLanding _ _ _ _ _ _ => none
  | .packageArrival _ _ _ _ => none
  | .completionNotice _ _ _ => none
  | .watchdogExpiry _ _ _ => none
  | .semaphoreTest _ => none
  | .semaphoreOperation _ _ => none
  | .monitorWake _ => none
  | .monitorReread _ => none
  | .remoteFlagChange _ _ _ _ _ _ _ => none
  | .loadPerformed _ _ _ => none
  | .loadLanding _ _ => none
  | .storePerformed _ _ _ => none
  | .wcbAgeDrain _ _ => none
  | .writeApply _ _ => none
  | .closeMarker _ _ _ => none
  | .applyAcknowledgement _ _ => none
  | .releaseComplete _ _ => none
  | .bankRetry _ => none
  | .walkStart _ _ _ => none
  | .walkComplete _ _ _ => none
  | .invalidationBegin => none
  | .invalidationComplete => none
  | .placement _ => none
  | .pieceStart _ => none
  | .pieceComplete _ => none
  | .kstepComplete _ _ => none
  | .shadowSwap _ => none
  | .mmaComplete _ _ => none
  | .matrixOutputComplete _ _ => none
  | .pipeStart _ _ => none
  | .vectorComplete _ _ => none
  | .tzeroFill _ _ => none
  | .chcfgEntryArrival _ _ => none
  | .channelLanding _ _ _ _ _ _ _ _ => none
  | .channelCredit _ _ _ _ => none
  | .replyArrival _ _ => none
  | .routeOperationRun _ _ => none
  | .routeOperationComplete _ _ _ => none
  | .join _ _ _ _ _ _ => none
  | .joinTimeout _ _ _ => none
  | .conversionStageComplete _ _ _ => none
  | .collectiveStepComplete _ _ => none
  | .tsthAtEave _ _ => none
  | .transferLinkComplete _ => none
  | .slabChunkCopied _ _ => none
  | .expertSlotFilled _ => none
  | .lnkTrain _ => none
  | .lnkFence _ => none
  | .lnkDisable _ => none
  | .trainingDone _ _ _ _ => none
  | .trainingTimeout _ => none
  | .wavelengthLoss _ => none
  | .replayTimeout _ => none
  | .replayComplete _ => none
  | .nak _ _ => none
  | .payload _ _ => none
  | .last _ _ => none
  | .idle _ _ => none
  | .tickFlit _ _ _ => none
  | .slotid _ _ => none
  | .flitSend _ => none
  | .slotOpen _ => none
  | .guardEnd _ => none
  | .slotClose _ => none
  | .sltctlWrite _ _ => none
  | .tickSend _ => none
  | .crcFailure _ => none
  | .meshcfgWrite _ => none
  | .l2qtWrite _ => none
  | .excfgWrite _ => none
  | .gstaleWrite _ => none
  | .invreq _ => none
  | .resume _ => none
  | .meas => none
  | .measurement _ _ => none
  | .agewaitExpiry _ => none
  | .replanPause _ => none
  | .pauseEnd _ => none
  | .pkgtelRefresh _ _ _ => none
  | .correctableError => none
  | .uncorrectableError _ _ _ => none
  | .coreLogicCheck _ => none
  | .eaveLogicCheck _ => none
  | .arrayLogicCheck _ => none
  | .linkError _ => none

/-- The order in which a bare table word is tried in the slots: a word of the opcode table carries no slot number, so
one word can be an instruction in several slots, and the first slot that accepts it is taken (DESIGN CHOICE, log 2).
Slots a and q take every word that s and v take. -/
def tableSlots : List (Fin 8) := [4, 0, 3, 7, 2, 6]

/-- The slot a bare table word is placed in: the first of `tableSlots` that accepts it. -/
def tableSlot (w : Nat) : Option (Fin 8) := tableSlots.find? fun k => (decodeSlot k w).toOption.isSome

/-- The instruction of a bare 32-bit table word, in the first slot that accepts it (the row's bits as the table numbers
them); only 32-bit words are slot words. -/
def decodeTableWord (nbits w : Nat) : Option Instr :=
  if nbits = 32 ∧ w < 2 ^ 32 then
    match tableSlot w with
    | some k => (decodeSlot k w).toOption
    | none => none
  else none

end Sys2Proof
end

