-- ==== Sys2Proof/Config.lean ====
section
/-! DEFINITION. What one part fixes for its life (fuses), and the values the spec leaves open: opaque constants, of
which nothing can be proved (log 4, log 6, log 8). -/

namespace Sys2Proof.Config

/-- A free 64-bit value for each count of the state's counter of free values. -/
opaque freeWord : Nat → Word

/-- A free byte for each count of the counter and each index. -/
opaque freeByte : Nat → Nat → Byte

/-- The bank of a core scratchpad, or of the chip scratchpad, that holds a line: the spec numbers no banks (01 R19; 22 R391). -/
opaque scrBank : Nat → Nat

/-- The row of its HBM pseudo-channel that holds a line: the spec gives no size of one (22 R389). -/
opaque hbmRow : Nat → Nat

/-- The set, of those in its bank, that holds a line of the L2: the spec gives 384 MiB, 24 ways and the bank (22 R390), and no set
index (10 R170). -/
opaque l2Set : Nat → Nat

/-- Layout of the placement-stage area of a save slot (05 Table 5.5 names its size only): its bytes for a count. -/
opaque stageImage : Nat → List Byte

/-- The signature check of the boot firmware on a load buffer (30 R431). -/
opaque imageOk : List Byte → Bool

/-- The reply of the SPDM responder to a request, from measurement block 2 (none: zeros), the rollback counter and the SVN of the
running image (30 R432, Table 30.6). -/
opaque spdmReply : List Byte → Option (List Byte) → Nat → Nat → List Byte

/-- The boot security counter in fuses (30 R430; PRESUMED 0, log 6). -/
def fuseCtr : Nat := 0

/-- Fused GUARD of AGEST (29; PRESUMED 0, log 6). -/
def fuseGuard : Nat := 0

/-- Fused MARG of AGEST (29; PRESUMED 0, log 6). -/
def fuseMarg : Nat := 0

end Sys2Proof.Config
end

