-- ==== Sys2Proof/Machine/Mem.lean ====
section
/-! DEFINITION. Byte memory in canonical form, and sparse tables. -/

namespace Sys2Proof.Machine

/-- Memory as (address, byte) pairs, addresses rising, no byte equal to what an unlisted address reads as. -/
abbrev Mem := List Host.Cell

/-- What an unlisted address reads as (DESIGN CHOICE, log 5: the spec gives no contents after power-on). -/
def Mem.blank : Byte := 0

/-- One byte. -/
def Mem.read1 (m : Mem) (a : Nat) : Byte :=
  match m with
  | [] => Mem.blank
  | (k, b) :: rest => if k = a then b else if k > a then Mem.blank else Mem.read1 rest a

/-- One byte written, the canonical form kept. -/
def Mem.write1 (m : Mem) (a : Nat) (v : Byte) : Mem :=
  match m with
  | [] => if v = Mem.blank then [] else [(a, v)]
  | (k, b) :: rest =>
    if k < a then (k, b) :: Mem.write1 rest a v
    else if k = a then (if v = Mem.blank then rest else (a, v) :: rest)
    else if v = Mem.blank then (k, b) :: rest
    else (a, v) :: (k, b) :: rest

/-- Cells at or above an address. -/
def Mem.above (m : Mem) (a : Nat) : Mem := m.dropWhile fun c => decide (c.1 < a)

/-- `n` bytes from address `a`. -/
def Mem.read (m : Mem) (a : Nat) : Nat → List Byte
  | 0 => []
  | n + 1 => Mem.read1 (m.above a) a :: Mem.read (m.above a) (a + 1) n

/-- Bytes named by a mask (true) put from `a` into cells that all lie at or above `a`. -/
def Mem.put : Mem → Nat → List (Bool × Byte) → Mem
  | m, _, [] => m
  | [], a, (k, b) :: bs =>
    let rest := Mem.put [] (a + 1) bs
    if k && b != Mem.blank then (a, b) :: rest else rest
  | (j, c) :: m, a, (k, b) :: bs =>
    if j = a then
      let rest := Mem.put m (a + 1) bs
      let v := if k then b else c
      if v = Mem.blank then rest else (a, v) :: rest
    else
      let rest := Mem.put ((j, c) :: m) (a + 1) bs
      if k && b != Mem.blank then (a, b) :: rest else rest

/-- The bytes named by a mask (true) written from `a`. -/
def Mem.writeMasked (m : Mem) (a : Nat) (bs : List (Bool × Byte)) : Mem :=
  (m.takeWhile fun c => decide (c.1 < a)) ++ Mem.put (m.above a) a bs

/-- A byte string written from address `a`. -/
def Mem.write (m : Mem) (a : Nat) (bs : List Byte) : Mem := m.writeMasked a (bs.map fun b => (true, b))

/-- The canonical form: addresses strictly rising, no blank byte listed. -/
def Mem.wf : Mem → Bool
  | [] => true
  | [(_, b)] => b != Mem.blank
  | (k, b) :: (k', b') :: rest => b != Mem.blank && decide (k < k') && Mem.wf ((k', b') :: rest)

/-- A sparse table: rising keys. -/
abbrev Tbl (α : Type) := List (Nat × α)

/-- The entry of a key. -/
def Tbl.get {α : Type} (t : Tbl α) (k : Nat) : Option α :=
  match t with
  | [] => none
  | (j, v) :: rest => if j = k then some v else if j > k then none else Tbl.get rest k

/-- An entry set. -/
def Tbl.set {α : Type} (t : Tbl α) (k : Nat) (v : α) : Tbl α :=
  match t with
  | [] => [(k, v)]
  | (j, w) :: rest =>
    if j < k then (j, w) :: Tbl.set rest k v
    else if j = k then (k, v) :: rest
    else (k, v) :: (j, w) :: rest

/-- An entry removed. -/
def Tbl.erase {α : Type} (t : Tbl α) (k : Nat) : Tbl α := t.filter fun e => e.1 != k

/-- The entry of a key, or a default. -/
def Tbl.getD {α : Type} (t : Tbl α) (k : Nat) (d : α) : α := (Tbl.get t k).getD d

/-- A FIFO of keyed operations: replace the element with a given id. -/
def updWhere {α : Type} (p : α → Bool) (f : α → α) : List α → List α
  | [] => []
  | a :: l => (if p a then f a else a) :: updWhere p f l

end Sys2Proof.Machine
end

