-- ==== Sys2Proof/Machine/Num.lean ====
section
/-! DEFINITION. Number formats, exact values, rounding and conversions (02 R27 to R42, R47, R51; 20 R353). Every value
is an exact rational until a rule rounds it; the rounding asks for floors of the scaled magnitude, so irrational results
are rounded from their exact value as well. -/

namespace Sys2Proof.Machine
open Sys2Proof.Bits

/-- Floating-point formats (02 Table 2.1). -/
inductive FF where
  | fp32 | fp16 | bf16 | e4m3 | e5m2
  deriving DecidableEq, Repr

/-- Element formats (18 Table 18.1). -/
inductive Fmt where
  | flt (f : FF)
  | mx (w : Nat)
  | int (bits : Nat)
  | uint (bits : Nat)
  deriving DecidableEq, Repr

/-- An exact value: NaN, an infinity, or ±num/den with den > 0 (the sign of a zero is kept). -/
inductive Val where
  | nan
  | inf (neg : Bool)
  | fin (neg : Bool) (num den : Nat)
  deriving DecidableEq, Repr

/-- The format of a code; unassigned codes have none (18 R306). -/
def fmtOf (c : Nat) : Option Fmt :=
  match c with
  | 0x00 => some (.flt .fp32)
  | 0x01 => some (.flt .fp16)
  | 0x02 => some (.flt .bf16)
  | 0x03 => some (.flt .e4m3)
  | 0x04 => some (.flt .e5m2)
  | 0x10 => some (.mx 4)
  | 0x11 => some (.mx 6)
  | 0x12 => some (.mx 8)
  | 0x13 => some (.mx 12)
  | 0x14 => some (.mx 16)
  | 0x20 => some (.int 8)
  | 0x21 => some (.int 16)
  | 0x22 => some (.int 32)
  | 0x23 => some (.int 64)
  | 0x28 => some (.uint 8)
  | 0x29 => some (.uint 16)
  | 0x2A => some (.uint 32)
  | 0x2B => some (.uint 64)
  | _ => none

/-- Exponent width of a float format. -/
def FF.ew : FF → Nat
  | .fp32 => 8
  | .fp16 => 5
  | .bf16 => 8
  | .e4m3 => 4
  | .e5m2 => 5

/-- Fraction width. -/
def FF.fw : FF → Nat
  | .fp32 => 23
  | .fp16 => 10
  | .bf16 => 7
  | .e4m3 => 3
  | .e5m2 => 2

/-- Exponent bias. -/
def FF.bias : FF → Nat
  | .fp32 => 127
  | .fp16 => 15
  | .bf16 => 127
  | .e4m3 => 7
  | .e5m2 => 15

/-- Stored width in bits. -/
def FF.width (f : FF) : Nat := 1 + f.ew + f.fw

/-- Whether the format has infinities: all but E4M3 (02 R28). -/
def FF.hasInf : FF → Bool
  | .e4m3 => false
  | _ => true

/-- The canonical NaN (02 R28). -/
def FF.canonNan : FF → Nat
  | .fp32 => 0x7FC00000
  | .fp16 => 0x7E00
  | .bf16 => 0x7FC0
  | .e4m3 => 0x7F
  | .e5m2 => 0x7F

/-- Encoding of the largest finite magnitude (02 Table 2.1). -/
def FF.maxBits : FF → Nat
  | .fp32 => 0x7F7FFFFF
  | .fp16 => 0x7BFF
  | .bf16 => 0x7F7F
  | .e4m3 => 0x7E
  | .e5m2 => 0x7B

/-- Encoding of +infinity, where the format has one. -/
def FF.infBits (f : FF) : Nat := (2 ^ f.ew - 1) * 2 ^ f.fw

/-- Exponent of the smallest normal value. -/
def FF.emin (f : FF) : Int := 1 - (f.bias : Int)

/-- The sign bit of an encoding. -/
def FF.signBit (f : FF) (neg : Bool) : Nat := neg.toNat * 2 ^ (f.ew + f.fw)

/-- Bits an element of a format occupies in a row; an MX element its code. -/
def Fmt.bits : Fmt → Nat
  | .flt f => f.width
  | .mx w => w
  | .int b => b
  | .uint b => b

/-- Whether a format is MX. -/
def Fmt.isMx : Fmt → Bool
  | .mx _ => true
  | _ => false

/-- Whether a format is float (20 R347). -/
def Fmt.isFloat : Fmt → Bool
  | .flt _ => true
  | _ => false

/-- Whether a format is integer (20 R347). -/
def Fmt.isInt : Fmt → Bool
  | .int _ => true
  | .uint _ => true
  | _ => false

/-! Exact arithmetic. -/

/-- `num·2^e / den`. -/
def scaled (neg : Bool) (num den : Nat) (e : Int) : Val :=
  if e ≥ 0 then .fin neg (num * 2 ^ e.toNat) den else .fin neg num (den * 2 ^ (-e).toNat)

/-- The value of an integer. -/
def Val.ofInt (i : Int) : Val := .fin (i < 0) i.natAbs 1

/-- `i·2^e`. -/
def Val.ofScaled (i : Int) (e : Int) : Val := scaled (i < 0) i.natAbs 1 e

/-- One. -/
def Val.one : Val := .fin false 1 1

/-- Plus zero. -/
def Val.zero : Val := .fin false 0 1

/-- The value of an encoding (02 R27, R28). -/
def decodeFloat (f : FF) (b : Nat) : Val :=
  let neg := b / 2 ^ (f.ew + f.fw) % 2 == 1
  let e := b / 2 ^ f.fw % 2 ^ f.ew
  let m := b % 2 ^ f.fw
  let top := e == 2 ^ f.ew - 1
  if f.hasInf && top then (if m = 0 then .inf neg else .nan)
  else if !f.hasInf && top && m == 2 ^ f.fw - 1 then .nan
  else if e = 0 then scaled neg m 1 (f.emin - f.fw)
  else scaled neg (2 ^ f.fw + m) 1 ((e : Int) - f.bias - f.fw)

/-- Whether a value is zero. -/
def Val.isZero : Val → Bool
  | .fin _ n _ => n == 0
  | _ => false

/-- Whether a value is NaN. -/
def Val.isNan : Val → Bool
  | .nan => true
  | _ => false

/-- Whether a value is infinite. -/
def Val.isInf : Val → Bool
  | .inf _ => true
  | _ => false

/-- The sign of a value; a NaN has sign 0. -/
def Val.sign : Val → Bool
  | .nan => false
  | .inf n => n
  | .fin n _ _ => n

/-- Sign flipped; a NaN stays (20 Table 20.2, VNEG). -/
def Val.neg : Val → Val
  | .nan => .nan
  | .inf n => .inf (!n)
  | .fin n a b => .fin (!n) a b

/-- Sign cleared. -/
def Val.abs : Val → Val
  | .nan => .nan
  | .inf _ => .inf false
  | .fin _ a b => .fin false a b

/-- The signed numerator. -/
def signedNum (neg : Bool) (n : Nat) : Int := if neg then -(n : Int) else n

/-- Bit masks of the arithmetic events (02 Table 2.7, in the table's order; 14 Table 14.15 codes 1 to 7). -/
def evINV : Nat := 1
def evDZ : Nat := 2
def evOVF : Nat := 4
def evUNF : Nat := 8
def evSAT : Nat := 16
def evNANSCALE : Nat := 32
def evSCALEMIS : Nat := 64

/-- IEEE sum before rounding; the zero of an exact cancellation is +0 (round to nearest), −0 + −0 is −0. -/
def Val.add : Val → Val → Val × Nat
  | .nan, _ => (.nan, 0)
  | _, .nan => (.nan, 0)
  | .inf a, .inf b => if a == b then (.inf a, 0) else (.nan, evINV)
  | .inf a, .fin _ _ _ => (.inf a, 0)
  | .fin _ _ _, .inf b => (.inf b, 0)
  | .fin sa na da, .fin sb nb db =>
    if na = 0 ∧ nb = 0 then (.fin (sa && sb) 0 1, 0)
    else
      let n := signedNum sa (na * db) + signedNum sb (nb * da)
      (.fin (n < 0) n.natAbs (da * db), 0)

/-- Exact product. -/
def Val.mul : Val → Val → Val × Nat
  | .nan, _ => (.nan, 0)
  | _, .nan => (.nan, 0)
  | .inf a, .inf b => (.inf (a != b), 0)
  | .inf a, .fin b n _ => if n = 0 then (.nan, evINV) else (.inf (a != b), 0)
  | .fin a n _, .inf b => if n = 0 then (.nan, evINV) else (.inf (a != b), 0)
  | .fin sa na da, .fin sb nb db => (.fin (sa != sb) (na * nb) (da * db), 0)

/-- Exact quotient with the IEEE special cases (20 R363). -/
def Val.div : Val → Val → Val × Nat
  | .nan, _ => (.nan, 0)
  | _, .nan => (.nan, 0)
  | .inf _, .inf _ => (.nan, evINV)
  | .inf a, .fin b _ _ => (.inf (a != b), 0)
  | .fin a _ _, .inf b => (.fin (a != b) 0 1, 0)
  | .fin sa na da, .fin sb nb db =>
    if nb = 0 then (if na = 0 then (.nan, evINV) else (.inf (sa != sb), evDZ))
    else (.fin (sa != sb) (na * db) (da * nb), 0)

/-- Exact a·b + c; a NaN addend gives NaN and no event, whatever the product is (02 R28, R51). -/
def Val.fma (a b c : Val) : Val × Nat :=
  if c.isNan then (.nan, 0)
  else
    let (p, e) := a.mul b
    let (r, e') := p.add c
    (r, e ||| e')

/-- Comparison: none if unordered; +0 equals −0 (20 R351). -/
def Val.cmp : Val → Val → Option Ordering
  | .nan, _ => none
  | _, .nan => none
  | .inf a, .inf b => if a == b then some .eq else some (if a then .lt else .gt)
  | .inf a, .fin _ _ _ => some (if a then .lt else .gt)
  | .fin _ _ _, .inf b => some (if b then .gt else .lt)
  | .fin sa na da, .fin sb nb db => some (compare (signedNum sa (na * db)) (signedNum sb (nb * da)))

/-- Maximum by 02 R46: a NaN gives NaN, and +0 counts as greater than −0. -/
def Val.max (a b : Val) : Val :=
  match a.cmp b with
  | none => .nan
  | some .lt => b
  | some .gt => a
  | some .eq => if a.sign then b else a

/-- Minimum by 02 R46. -/
def Val.min (a b : Val) : Val :=
  match a.cmp b with
  | none => .nan
  | some .lt => a
  | some .gt => b
  | some .eq => if a.sign then a else b

/-! Rounding. A magnitude answers, for every k, the floor of |x|·2^k and whether that floor is exact. -/

/-- A positive real known through its scaled floors. -/
structure Mag where
  expo : Int
  fl   : Int → Nat × Bool

/-- Floor of num·2^k/den and whether it is exact. -/
def ratFloor (num den : Nat) (k : Int) : Nat × Bool :=
  if k ≥ 0 then
    let n := num * 2 ^ k.toNat
    (n / den, n % den == 0)
  else
    let d := den * 2 ^ (-k).toNat
    (num / d, num % d == 0)

/-- Floor of log2 of num/den, both positive. -/
def ratExpo (num den : Nat) : Int :=
  let e : Int := (bitLen num : Int) - (bitLen den : Int)
  let ge := if e ≥ 0 then decide (num ≥ den * 2 ^ e.toNat) else decide (num * 2 ^ (-e).toNat ≥ den)
  if ge then e else e - 1

/-- The magnitude num/den. -/
def ratMag (num den : Nat) : Mag := { expo := ratExpo num den, fl := ratFloor num den }

/-- Integer square root by bits. -/
def isqrtGo : Nat → Nat → Nat → Nat
  | 0, _, r => r
  | k + 1, n, r =>
    let t := r + 2 ^ k
    if t * t ≤ n then isqrtGo k n t else isqrtGo k n r

/-- ⌊√n⌋. -/
def isqrt (n : Nat) : Nat := isqrtGo (bitLen n / 2 + 1) n 0

/-- The magnitude √(num/den). -/
def sqrtMag (num den : Nat) : Mag where
  expo := ratExpo num den / 2
  fl := fun k =>
    if k ≥ 0 then
      let n := num * 2 ^ (2 * k.toNat)
      let r := isqrt (n / den)
      (r, r * r * den == n)
    else
      let d := den * 2 ^ (2 * (-k).toNat)
      let r := isqrt (num / d)
      (r, r * r * d == num)

/-- Working precision of the evaluation of 2^f and log2 m, in bits (log 10). -/
def prec : Nat := 320

/-- A lower bound of 2^(a/2^q)·2^prec, a < 2^q: the product of the square roots 2^(2^-i) of the bits that are set. -/
def exp2Frac : Nat → Nat → Nat → Nat → Nat
  | 0, _, _, acc => acc
  | q + 1, a, root, acc =>
    let root' := isqrt (root * 2 ^ prec)
    if a / 2 ^ q % 2 = 1 then exp2Frac q a root' (acc * root' / 2 ^ prec) else exp2Frac q a root' acc

/-- The magnitude 2^x for a rational x = ±num/2^q; a magnitude of x above 4,096 is replaced by 4,096, which is out of
the range of every format on the same side. -/
def exp2Mag (neg : Bool) (num den : Nat) : Mag :=
  if num > 4096 * den then (if neg then ratMag 1 (2 ^ 4096) else ratMag (2 ^ 4096) 1)
  else
    let x : Int := signedNum neg num
    let n : Int := x / (den : Int)
    let a : Nat := (x % (den : Int)).toNat
    if a = 0 then (if n ≥ 0 then ratMag (2 ^ n.toNat) 1 else ratMag 1 (2 ^ (-n).toNat))
    else
      let f := exp2Frac (bitLen den - 1) a (2 ^ (prec + 1)) (2 ^ prec)
      { expo := n
        fl := fun k =>
          let e := n + k - prec
          if e ≥ 0 then (f * 2 ^ e.toNat, false) else (f / 2 ^ (-e).toNat, false) }

/-- The first `t` fraction bits of log2 of m in [1, 2), m held as m·2^prec, by repeated squaring. -/
def log2Bits : Nat → Nat → Nat → Nat
  | 0, _, acc => acc
  | t + 1, m, acc =>
    let s := m * m / 2 ^ prec
    if s ≥ 2 ^ (prec + 1) then log2Bits t (s / 2) (2 * acc + 1) else log2Bits t s (2 * acc)

/-- Fraction bits kept of a logarithm. -/
def logBits : Nat := 160

/-- log2 of a positive rational: its sign and magnitude, none when it is 0. -/
def log2Mag (num den : Nat) : Option (Bool × Mag) :=
  let e := ratExpo num den
  let (m, exact) := ratFloor num den ((prec : Int) - e)
  if exact && m == 2 ^ prec then
    if e = 0 then none else some (e < 0, ratMag e.natAbs 1)
  else
    let b := log2Bits logBits m 0
    let (neg, f) := if e ≥ 0 then (false, e.toNat * 2 ^ logBits + b) else (true, (-e).toNat * 2 ^ logBits - b - 1)
    some (neg,
      { expo := (bitLen f : Int) - 1 - logBits
        fl := fun k =>
          let d : Int := (logBits : Int) - k
          if d ≥ 0 then (f / 2 ^ d.toNat, false) else (f * 2 ^ (-d).toNat, false) })

/-- |x|·2^k rounded to an integer by a mode (02 Table 2.2, R41), with whether it was inexact. `r` is the element's 16
random bits under `.sr`. -/
def roundMag (m : RMode) (r : Nat) (neg : Bool) (k : Int) (x : Mag) : Nat × Bool :=
  let (n, ex) := x.fl k
  if ex then (n, false)
  else
    let up :=
      match m with
      | .rne => let (n2, ex2) := x.fl (k + 1); n2 % 2 == 1 && (!ex2 || n % 2 == 1)
      | .rz => false
      | .rup => !neg
      | .rdn => neg
      | .sr => decide (r < (x.fl (k + 16)).1 % 2 ^ 16)
    (if up then n + 1 else n, true)

/-- An infinite operand or result in a float target (02 R34). -/
def packInf (f : FF) (sat neg : Bool) : Nat × Nat :=
  if sat then (f.signBit neg + f.maxBits, evSAT)
  else if f.hasInf then (f.signBit neg + f.infBits, 0)
  else (f.canonNan, evOVF)

/-- A positive magnitude rounded into a float format, with overflow by 02 R34 and underflow by R35. -/
def packMag (f : FF) (m : RMode) (sat : Bool) (r : Nat) (neg : Bool) (x : Mag) : Nat × Nat :=
  let e := if x.expo ≥ f.emin then x.expo else f.emin
  let q : Int := e - f.fw
  let (n, inex) := roundMag m r neg (-q) x
  let (n, q) := if n ≥ 2 ^ (f.fw + 1) then (n / 2, q + 1) else (n, q)
  let bits := if n < 2 ^ f.fw then n else (q + f.fw + f.bias).toNat * 2 ^ f.fw + (n - 2 ^ f.fw)
  let tiny := decide (x.expo < f.emin)
  if bits > f.maxBits then
    if sat then (f.signBit neg + f.maxBits, evSAT)
    else
      let toInf :=
        match m with
        | .rne => true
        | .sr => true
        | .rz => false
        | .rup => !neg
        | .rdn => neg
      (if toInf then (if f.hasInf then f.signBit neg + f.infBits else f.canonNan) else f.signBit neg + f.maxBits, evOVF)
  else (f.signBit neg + bits, if tiny && inex then evUNF else 0)

/-- An exact value rounded once into a float format. -/
def packFloat (f : FF) (m : RMode) (sat : Bool) (r : Nat) : Val → Nat × Nat
  | .nan => (f.canonNan, 0)
  | .inf neg => packInf f sat neg
  | .fin neg n d => if n = 0 then (f.signBit neg, 0) else packMag f m sat r neg (ratMag n d)

/-- Rounding to FP32 at `.rne` under NOSAT, as a value again (02 R10's `round_fp32_rne`). -/
def roundF32 (v : Val) : Val × Nat :=
  let (b, e) := packFloat .fp32 .rne false 0 v
  (decodeFloat .fp32 b, e)

/-- Range of an integer type. -/
def intRange (signed : Bool) (bits : Nat) : Int × Int :=
  if signed then (-(2 ^ (bits - 1) : Int), 2 ^ (bits - 1) - 1) else (0, 2 ^ bits - 1)

/-- Clamp to a range; a clamp logs SAT. -/
def clampInt (lo hi i : Int) : Int × Nat :=
  if i < lo then (lo, evSAT) else if i > hi then (hi, evSAT) else (i, 0)

/-- Float to integer (02 Table 2.4): one rounding, then a clamp; NaN gives 0 with INV. -/
def packInt (signed : Bool) (bits : Nat) (m : RMode) (r : Nat) : Val → Int × Nat
  | .nan => (0, evINV)
  | .inf neg =>
    let (lo, hi) := intRange signed bits
    (if neg then lo else hi, evSAT)
  | .fin neg n d =>
    let (lo, hi) := intRange signed bits
    if n = 0 then (0, 0)
    else
      let (k, _) := roundMag m r neg 0 (ratMag n d)
      clampInt lo hi (signedNum neg k)

/-- The low `bits` bits of an integer, the stored form of an integer element. -/
def lowBits (bits : Nat) (i : Int) : Nat := (i % (2 ^ bits : Int)).toNat

/-- The integer of stored bits, by its format. -/
def intOf (signed : Bool) (bits : Nat) (b : Nat) : Int := if signed then sext b bits else ((b % 2 ^ bits : Nat) : Int)

/-- The exact value of a stored non-MX element. -/
def decodeElem (f : Fmt) (b : Nat) : Val :=
  match f with
  | .flt ff => decodeFloat ff b
  | .int n => Val.ofInt (intOf true n b)
  | .uint n => Val.ofInt (intOf false n b)
  | .mx _ => .nan

/-- The integer of a stored element of an integer format. -/
def elemInt (f : Fmt) (b : Nat) : Int :=
  match f with
  | .int n => intOf true n b
  | .uint n => intOf false n b
  | _ => 0

/-- Integer narrow (02 Table 2.4): `.sat` clamps, `.nosat` keeps the low bits. -/
def narrowInt (f : Fmt) (sat : Bool) (i : Int) : Nat × Nat :=
  match f with
  | .int n => if sat then (let (lo, hi) := intRange true n; let (k, e) := clampInt lo hi i; (lowBits n k, e)) else (lowBits n i, 0)
  | .uint n => if sat then (let (lo, hi) := intRange false n; let (k, e) := clampInt lo hi i; (lowBits n k, e)) else (lowBits n i, 0)
  | _ => (0, 0)

/-- The value of an E8M0 scale, none for NaN (02 R30). -/
def e8m0 (e : Nat) : Val := if e = 255 then .nan else scaled false 1 1 ((e : Int) - 127)

/-- The value of an MXINT code under a scale (02 R31); a scale of 255 gives NaN with NANSCALE (R36). -/
def mxVal (w code scale : Nat) : Val × Nat :=
  if scale = 255 then (.nan, evNANSCALE)
  else (Val.ofScaled (sext code w) ((scale : Int) - 127 - (w - 2 : Int)), 0)

/-- Whether a float conversion is of the Widen class of 02 Table 2.4. -/
def FF.widens (src dst : FF) : Bool :=
  match src, dst with
  | .fp32, _ => false
  | .fp16, .fp32 => true
  | .bf16, .fp32 => true
  | .e4m3, .fp32 => true
  | .e4m3, .fp16 => true
  | .e4m3, .bf16 => true
  | .e5m2, .fp32 => true
  | .e5m2, .fp16 => true
  | .e5m2, .bf16 => true
  | _, _ => false

/-- A number converted between non-MX formats by 02 Table 2.4: a wider float and a wider integer are exact, a narrower
integer narrows, the others round once. A float format converted to itself, which no class of the table names (FP32, E4M3 and
E5M2), takes one rounding with R34 and R35 as a narrowing does (DESIGN CHOICE, log 9). -/
def convElem (src dst : Fmt) (m : RMode) (sat : Bool) (r b : Nat) : Nat × Nat :=
  match dst with
  | .flt f =>
    match src with
    | .flt g => if g.widens f then ((packFloat f m false r (decodeFloat g b)).1, 0) else packFloat f m sat r (decodeFloat g b)
    | _ => packFloat f m sat r (decodeElem src b)
  | .int n =>
    if src.isInt then narrowInt dst (sat && decide (n ≤ src.bits)) (elemInt src b)
    else (let (i, e) := packInt true n m r (decodeElem src b); (lowBits n i, e))
  | .uint n =>
    if src.isInt then narrowInt dst (sat && decide (n ≤ src.bits)) (elemInt src b)
    else (let (i, e) := packInt false n m r (decodeElem src b); (lowBits n i, e))
  | .mx _ => (0, 0)

/-- The greatest magnitude of a list of finite values. -/
def maxAbs (xs : List Val) : Val := xs.foldl (fun m x => Val.max m x.abs) Val.zero

/-- Quantisation of one block to MXINT w (02 R37): the scale, and for each element its code and events. `rs` are the
16-bit draws of the elements. -/
def quantBlock (w : Nat) (m : RMode) (rs : List Nat) (xs : List Val) : Nat × List (Nat × Nat) :=
  if xs.any fun x => x.isNan || x.isInf then (255, xs.mapIdx fun i _ => (0, if i = 0 then evNANSCALE else 0))
  else
    match maxAbs xs with
    | .fin _ n d =>
      if n = 0 then (127, xs.map fun _ => (0, 0))
      else
        let s := ratExpo n d + 127
        let scale : Nat := if s < 0 then 0 else if s > 254 then 254 else s.toNat
        let lim : Int := 2 ^ (w - 1) - 1
        (scale, xs.mapIdx fun i x =>
          match x with
          | .fin neg a b =>
            if a = 0 then (0, 0)
            else
              let (k, _) := roundMag m (rs.getD i 0) neg ((127 : Int) - scale + (w - 2 : Int)) (ratMag a b)
              let (c, e) := clampInt (-lim) lim (signedNum neg k)
              (lowBits w c, e ||| (if c = 0 then evUNF else 0))
          | _ => (0, 0))
    | _ => (255, xs.map fun _ => (0, 0))

/-- The unbiased exponent of a nonzero element as R42 counts it: a subnormal has its format's smallest normal one. -/
def entryExpo (f : FF) (n d : Nat) : Int :=
  let e := ratExpo n d
  if e ≥ f.emin then e else f.emin

/-- Entry of a float block into the arrays as MXINT16 (02 R42): the scale, the signed codes, and whether NANSCALE is
logged. -/
def entryBlock (f : FF) (xs : List Val) : Nat × List Int × Bool :=
  if xs.any fun x => x.isNan || x.isInf then (255, xs.map (fun _ => 0), true)
  else
    let es := xs.filterMap fun x =>
      match x with
      | .fin _ n d => if n = 0 then none else some (entryExpo f n d)
      | _ => none
    match es with
    | [] => (127, xs.map (fun _ => 0), false)
    | e :: rest =>
      let emax := rest.foldl (fun a b => if a ≥ b then a else b) e
      ((emax + 127).toNat, xs.map (fun x =>
        match x with
        | .fin neg n d => if n = 0 then 0 else signedNum neg (roundMag .rne 0 neg (14 - emax) (ratMag n d)).1
        | _ => 0), false)

/-- One xorshift draw: the new state, which is also the value (02 R39). -/
def xorshift (x : BitVec 32) : BitVec 32 :=
  let x := x ^^^ (x <<< 13)
  let x := x ^^^ (x >>> 17)
  x ^^^ (x <<< 5)

/-- The 16-bit values of `n` elements and the state after ⌈n/2⌉ draws (02 R40). -/
def draws : Nat → BitVec 32 → List Nat × BitVec 32
  | 0, x => ([], x)
  | 1, x => let y := xorshift x; ([y.toNat % 2 ^ 16], y)
  | n + 2, x =>
    let y := xorshift x
    let (l, z) := draws n y
    (y.toNat % 2 ^ 16 :: y.toNat / 2 ^ 16 :: l, z)

/-- The ordered key of a score (12 R205). -/
def topKey (v : Val) : Nat :=
  match v with
  | .nan => 0
  | v =>
    let b := (packFloat .fp32 .rne false 0 v).1
    if b < 2 ^ 31 then b + 2 ^ 31 else 2 ^ 32 - 1 - b

/-- Integral part of a value by a mode; the sign of a zero result is the sign of the operand (20 Table 20.4). -/
def Val.integral (m : RMode) : Val → Val
  | .nan => .nan
  | .inf n => .inf n
  | .fin neg n d => if n = 0 then .fin neg 0 1 else .fin neg (roundMag m 0 neg 0 (ratMag n d)).1 1

end Sys2Proof.Machine
end

