-- ==== Sys2Proof/Machine/Tile.lean ====
section
/-! DEFINITION. Tile shapes, line images and element matrices (18 R306 to R308; 02 R32; 20 R346). -/

namespace Sys2Proof.Machine
open Sys2Proof.Bits

/-- What a shape word says: rows, columns and the element format code (18 Table 18.2). -/
structure Shape where
  rows : Nat
  cols : Nat
  fmt  : Nat
  deriving DecidableEq, Repr

/-- The shape of a shape word; reserved bits are ignored (18 R309). -/
def shapeOf (w : Word) : Shape := { rows := get w 15 0, cols := get w 31 16, fmt := get w 47 40 }

/-- The shape word of a shape. -/
def Shape.word (s : Shape) : Word := BitVec.ofNat 64 (s.fmt % 256 * 2 ^ 40 + s.cols % 2 ^ 16 * 2 ^ 16 + s.rows % 2 ^ 16)

/-- The reset shape: one line of 32 FP32 elements (18 R307). -/
def Shape.reset : Shape := { rows := 1, cols := 32, fmt := 0 }

/-- Trap codes (14 Table 14.14). -/
def trILLOP : Nat := 0x01
def trPRIVOP : Nat := 0x02
def trPARAM : Nat := 0x03
def trPCRANGE : Nat := 0x04
def trBANKC : Nat := 0x05
def trCHOVR : Nat := 0x06
def trBAROP : Nat := 0x07
def trBOVR : Nat := 0x08
def trBWDOG : Nat := 0x09
def trSEMNUM : Nat := 0x0A
def trALIGN : Nat := 0x0B
def trLANDUSE : Nat := 0x0C
def trFMTOP : Nat := 0x0D
def trSHAPE : Nat := 0x0E
def trLOOPOVF : Nat := 0x0F

/-- Blocks of 32 in a row. -/
def Shape.blocks (s : Shape) : Nat := ceilDiv s.cols 32

/-- Bytes of a row of codes or elements (18 R308). -/
def Shape.rowBytes (s : Shape) : Nat :=
  match fmtOf s.fmt with
  | some (.mx w) => s.blocks * (4 * w)
  | some f => s.cols * (f.bits / 8)
  | none => 0

/-- P: lines of a row. -/
def Shape.pitch (s : Shape) : Nat := ceilDiv s.rowBytes 128

/-- S: lines of the scale area. -/
def Shape.scaleLines (s : Shape) : Nat :=
  match fmtOf s.fmt with
  | some (.mx _) => ceilDiv (s.rows * s.blocks) 128
  | _ => 0

/-- L: lines of the tile. -/
def Shape.lines (s : Shape) : Nat := s.rows * s.pitch + s.scaleLines

/-- The trap a descriptor raises at a use: FMTOP before SHAPE (18 R308, R309). -/
def Shape.trap (s : Shape) : Option Nat :=
  match fmtOf s.fmt with
  | none => some trFMTOP
  | some _ =>
    if s.rows < 1 ∨ s.rows > 256 ∨ s.cols < 1 ∨ s.cols > 32768 ∨ s.lines > 256 then some trSHAPE else none

/-- A list cut into `c` pieces of `k`. -/
def chunks {α : Type} (k : Nat) : Nat → List α → List (List α)
  | 0, _ => []
  | c + 1, l => l.take k :: chunks k c (l.drop k)

/-- `n` bytes of a list, padded with zeros. -/
def padTo (n : Nat) (l : List Byte) : List Byte := l.take n ++ List.replicate (n - l.length) 0

/-- `c` fields of `w` bits of a number, lowest first. -/
def fieldsOf (w : Nat) : Nat → Nat → List Nat
  | 0, _ => []
  | c + 1, v => v % 2 ^ w :: fieldsOf w c (v / 2 ^ w)

/-- The number whose fields of `w` bits are the list's, lowest first. -/
def packFields (w : Nat) : List Nat → Nat
  | [] => 0
  | v :: vs => v % 2 ^ w + 2 ^ w * packFields w vs

/-- The stored bits of a tile's elements, row by row. -/
def tileBits (s : Shape) (img : List Byte) : List (List Nat) :=
  (chunks (128 * s.pitch) s.rows img).map fun row =>
    match fmtOf s.fmt with
    | some (.mx w) => ((chunks (4 * w) s.blocks row).flatMap fun b => fieldsOf w 32 (leNat b)).take s.cols
    | some f => (chunks (f.bits / 8) s.cols row).map leNat
    | none => []

/-- The scales of an MX tile, row by row, one per block. -/
def tileScales (s : Shape) (img : List Byte) : List (List Nat) :=
  chunks s.blocks s.rows ((img.drop (128 * (s.rows * s.pitch))).map (·.toNat))

/-- The line image of element bits and, for MX, scales; padding is zero (18 R308). -/
def tileImage (s : Shape) (bits : List (List Nat)) (scales : List (List Nat)) : List Byte :=
  let body := bits.flatMap fun row =>
    padTo (128 * s.pitch)
      (match fmtOf s.fmt with
       | some (.mx w) => (chunks 32 s.blocks row).flatMap fun b => natLE (4 * w) (packFields w b)
       | some f => row.flatMap fun v => natLE (f.bits / 8) v
       | none => [])
  let area := (scales.flatten).map fun v => BitVec.ofNat 8 v
  body ++ (if s.scaleLines = 0 then [] else padTo (128 * s.scaleLines) area)

/-- The exact values of a tile's elements with each element's events (NaN scales log NANSCALE, 02 R36). -/
def tileVals (s : Shape) (img : List Byte) : List (List (Val × Nat)) :=
  match fmtOf s.fmt with
  | some (.mx w) =>
    List.zipWith (fun row sc => row.mapIdx fun j c => mxVal w c (sc.getD (j / 32) 127)) (tileBits s img) (tileScales s img)
  | some f => (tileBits s img).map fun row => row.map fun b => (decodeElem f b, 0)
  | none => []

/-- Whether an operand of shape `a` is usable for a result of `r` × `c`: equal, or broadcasting (20 R346). -/
def broadcasts (a : Shape) (r c : Nat) : Bool :=
  (a.rows == r && a.cols == c) || (a.rows == 1 && a.cols == 1) || (a.rows == 1 && a.cols == c) || (a.cols == 1 && a.rows == r)

/-- Element (m, n) of a matrix under broadcasting, for every element of an `r` × `c` result. -/
def spread {α : Type} (r c : Nat) (x : List (List α)) : List (List α) :=
  let wide := x.map fun row =>
    match row with
    | [v] => List.replicate c v
    | _ => row
  match wide with
  | [row] => List.replicate r row
  | _ => wide

/-- Elementwise combination of two matrices. -/
def zip2 {α β γ : Type} (f : α → β → γ) (x : List (List α)) (y : List (List β)) : List (List γ) :=
  List.zipWith (List.zipWith f) x y

/-- Transposition of a matrix with `c` columns. -/
def transpose {α : Type} : Nat → List (List α) → List (List α)
  | 0, _ => []
  | c + 1, x => x.filterMap List.head? :: transpose c (x.map List.tail)

/-- Rows of `c` from a flat row-major list. -/
def toRows {α : Type} (r c : Nat) (l : List α) : List (List α) := chunks c r l

/-- What the events of an instruction's result elements leave in the log: the summary mask, and the code of the lowest
element that has one (02 R51, R53); `masks` are per element in row-major order, bit k−1 for code k. -/
def evSummary (masks : List Nat) : Nat × Nat :=
  (masks.foldl (· ||| ·) 0,
   match masks.find? (· != 0) with
   | some m => ctz 16 m + 1
   | none => 0)

end Sys2Proof.Machine
end

