-- ==== Sys2Proof/Machine/VecMath.lean ====
section
/-! DEFINITION. What the vector and post-processing instructions compute, as functions of tile shapes, line images,
scalars and random bits (20 R346 to R365; 12 R205 to R208; 02 R46, R47). -/

namespace Sys2Proof.Machine
open Sys2Proof.Bits

/-- A vector operation with its immediate operands and the scalar it took at issue. -/
inductive VOp where
  | add | sub | mul | fma | max | min | abs | neg
  | rcp (rm : RMode) (sat : Bool)
  | rsq (rm : RMode) (sat : Bool)
  | sqrt (rm : RMode) (sat : Bool)
  | exp2 (rm : RMode) (sat : Bool)
  | log2 (rm : RMode) (sat : Bool)
  | cvt (rm : RMode) (sat : Bool)
  | and | or | xor
  | shl (k : Nat)
  | shr (k : Nat)
  | cmp | sel | mov
  | opx (fn : VFun)
  | bc
  | rred (rm : RMode) (sat : Bool) (op : RedOp)
  | cred (rm : RMode) (sat : Bool) (op : RedOp)
  | scan (rm : RMode) (sat : Bool) (op : RedOp)
  | xs (idx : Nat)
  | ins (val : Word) (idx : Nat)
  | iota (base : Int)
  | perm
  | part (n : Nat)
  | clmp | trn | thr
  | bis (k : Nat)
  | qsel
  | scl (rm : RMode) (sat : Bool)
  | qnt (rm : RMode) (sat : Bool)
  | qdq | qef
  deriving DecidableEq, Repr

/-- Operands of a vector operation: shapes and line images of tD, tA, tB and tA's scale partner, and the 16-bit draws of
its result elements. -/
structure VIn where
  d : Shape
  a : Shape
  b : Shape
  p : Shape
  di : List Byte
  ai : List Byte
  bi : List Byte
  pi : List Byte
  rs : List Nat
  deriving DecidableEq, Repr

/-- Results: the image of tD, of tB where it is written too, a scalar, and each result element's events. -/
structure VRes where
  d : Option (List Byte)
  b : Option (List Byte)
  x : Option Word
  evs : List Nat
  deriving DecidableEq, Repr

/-- Whether the operation has an operand tA. -/
def VOp.usesA : VOp → Bool
  | .iota _ => false
  | .ins _ _ => false
  | .bis _ => false
  | _ => true

/-- Whether it has an operand tB. -/
def VOp.usesB : VOp → Bool
  | .add => true
  | .sub => true
  | .mul => true
  | .fma => true
  | .max => true
  | .min => true
  | .and => true
  | .or => true
  | .xor => true
  | .cmp => true
  | .sel => true
  | .perm => true
  | .clmp => true
  | .qsel => true
  | .qef => true
  | _ => false

/-- Whether it writes a tile tD. -/
def VOp.writesD : VOp → Bool
  | .xs _ => false
  | _ => true

/-- Whether it reads tD's elements as well (20 R348). -/
def VOp.readsD : VOp → Bool
  | .fma => true
  | .sel => true
  | .thr => true
  | .bis _ => true
  | .scl _ _ => true
  | _ => false

/-- Whether it writes tB too (20 R360, R365). -/
def VOp.writesB : VOp → Bool
  | .qsel => true
  | .qef => true
  | _ => false

/-- Whether it reads the scale partner of tA (20 R361). -/
def VOp.usesPartner (op : VOp) (d a : Shape) : Bool :=
  match op with
  | .qnt _ _ => !((fmtOf d.fmt).any Fmt.isMx)
  | .qdq => !((fmtOf a.fmt).any Fmt.isMx)
  | _ => false

/-- Whether it rounds with `.sr`. -/
def VOp.isSr : VOp → Bool
  | .rcp .sr _ => true
  | .rsq .sr _ => true
  | .sqrt .sr _ => true
  | .exp2 .sr _ => true
  | .log2 .sr _ => true
  | .cvt .sr _ => true
  | .rred .sr _ _ => true
  | .cred .sr _ _ => true
  | .scan .sr _ _ => true
  | .scl .sr _ => true
  | .qnt .sr _ => true
  | _ => false

/-- Result elements the operation's own rule writes: the count its draws follow (02 R40, 20 R350). -/
def VOp.resultCount (op : VOp) (d : Shape) : Nat :=
  match op with
  | .scl _ _ => d.rows
  | _ => d.rows * d.cols

/-- The format classes the operation accepts, as a test of tD, tA and tB (20 R347, R351 to R365). -/
def VOp.fmtOk (op : VOp) (d a b : Fmt) (dcode pcode : Nat) : Bool :=
  let fl := fun (l : List Fmt) => l.all Fmt.isFloat
  let it := fun (l : List Fmt) => l.all Fmt.isInt
  let bracket := fun (c : Nat) => c == 0x22 || c == 0x2A
  match op with
  | .add => fl [d, a, b] || it [d, a, b]
  | .sub => fl [d, a, b] || it [d, a, b]
  | .mul => fl [d, a, b] || it [d, a, b]
  | .fma => fl [d, a, b] || it [d, a, b]
  | .max => fl [d, a, b] || it [d, a, b]
  | .min => fl [d, a, b] || it [d, a, b]
  | .clmp => fl [d, a, b] || it [d, a, b]
  | .abs => fl [d, a] || it [d, a]
  | .neg => fl [d, a] || it [d, a]
  | .rcp _ _ => fl [d, a]
  | .rsq _ _ => fl [d, a]
  | .sqrt _ _ => fl [d, a]
  | .exp2 _ _ => fl [d, a]
  | .log2 _ _ => fl [d, a]
  | .cvt _ _ => true
  | .and => [d, a, b].all (fun f => !f.isMx) && d.bits == a.bits && d.bits == b.bits
  | .or => [d, a, b].all (fun f => !f.isMx) && d.bits == a.bits && d.bits == b.bits
  | .xor => [d, a, b].all (fun f => !f.isMx) && d.bits == a.bits && d.bits == b.bits
  | .shl _ => it [d, a]
  | .shr _ => it [d, a]
  | .cmp => (fl [a, b] || it [a, b]) && (match d with | .int _ => true | _ => false)
  | .sel => !d.isMx && d == a && d == b
  | .mov => true
  | .opx fn =>
    (fl [d, a] && !(fn == .popc || fn == .clz)) || it [d, a]
  | .bc => !d.isMx && !a.isMx
  | .rred _ _ _ => fl [d, a] || it [d, a]
  | .cred _ _ _ => fl [d, a] || it [d, a]
  | .scan _ _ _ => fl [d, a] || it [d, a]
  | .xs _ => !a.isMx
  | .ins _ _ => !d.isMx
  | .iota _ => !d.isMx
  | .perm => b.isInt && d == a && !d.isMx
  | .part _ => a.isInt && dcode == 0x22
  | .trn => d == a && !d.isMx
  | .thr => a.isFloat && bracket dcode
  | .bis _ => bracket dcode
  | .qsel => a.isFloat && dcode == 0x21
  | .scl _ _ => a.isFloat && dcode == 0
  | .qnt _ _ => a.isFloat && (d.isMx || pcode == 0)
  | .qdq => d.isFloat && (a.isMx || pcode == 0)
  | .qef => a.isFloat && d.isMx

/-- The shape rules (20 R346, R352 to R365). -/
def VOp.shapeOk (op : VOp) (d a b p : Shape) (aMx dMx : Bool) : Bool :=
  let same := fun (x y : Shape) => x.rows == y.rows && x.cols == y.cols
  match op with
  | .abs => broadcasts a d.rows d.cols
  | .neg => broadcasts a d.rows d.cols
  | .rcp _ _ => broadcasts a d.rows d.cols
  | .rsq _ _ => broadcasts a d.rows d.cols
  | .sqrt _ _ => broadcasts a d.rows d.cols
  | .exp2 _ _ => broadcasts a d.rows d.cols
  | .log2 _ _ => broadcasts a d.rows d.cols
  | .cvt _ _ => if aMx then same a d else broadcasts a d.rows d.cols
  | .shl _ => broadcasts a d.rows d.cols
  | .shr _ => broadcasts a d.rows d.cols
  | .mov => broadcasts a d.rows d.cols
  | .opx _ => broadcasts a d.rows d.cols
  | .bc => true
  | .rred _ _ _ => d.rows == a.rows && d.cols == 1
  | .cred _ _ _ => d.rows == 1 && d.cols == a.cols
  | .scan _ _ _ => same a d
  | .xs _ => true
  | .ins _ _ => true
  | .iota _ => true
  | .perm => broadcasts b d.rows d.cols && (a.rows == d.rows || a.rows == 1)
  | .part n => d.rows == n
  | .trn => d.rows == a.cols && d.cols == a.rows
  | .thr => d.rows == a.rows && d.cols == 4
  | .bis _ => d.cols == 4
  | .qsel => b.cols == 4 && b.rows == a.rows && d.rows == a.rows && decide (1 ≤ d.cols) && decide (d.cols ≤ 8)
  | .scl _ _ => d.rows == a.rows && d.cols == 2
  | .qnt _ _ => same a d && (dMx || p.rows == a.rows || p.rows == 1)
  | .qdq => same a d && (aMx || p.rows == a.rows || p.rows == 1)
  | .qef => same a d && same a b
  | _ => broadcasts a d.rows d.cols && broadcasts b d.rows d.cols

/-- The trap of an operation on its descriptors: a format trap before a shape trap (18 R309); `partnerOk` is false when a
partner is needed and tA is t127 (20 R361). -/
def VOp.check (op : VOp) (d a b p : Shape) (partnerOk : Bool) : Option Nat :=
  let named := (if op.writesD then [d] else []) ++ (if op.usesA then [a] else []) ++ (if op.usesB then [b] else [])
    ++ (if op.usesPartner d a && partnerOk then [p] else [])
  let anyF : Fmt := .uint 8
  let fd := (fmtOf d.fmt).getD anyF
  let fa := (fmtOf a.fmt).getD anyF
  let fb := (fmtOf b.fmt).getD anyF
  let plain := op == .mov && d == a
  let movMx := op == .mov && !plain && (fd.isMx || fa.isMx)
  let bBad :=
    match op with
    | .qsel => !(b.fmt == 0x22 || b.fmt == 0x2A)
    | .qef => b.fmt != 0
    | _ => false
  let pcode := if partnerOk then p.fmt else 0
  if named.any (fun s => (fmtOf s.fmt).isNone) then some trFMTOP
  else if movMx || bBad || !(op.fmtOk fd fa fb d.fmt pcode) then some trFMTOP
  else if named.any (fun s => s.trap.isSome) then some trSHAPE
  else if op.usesPartner d a && !partnerOk then some trSHAPE
  else if op.shapeOk d a b p fa.isMx fd.isMx then none
  else some trSHAPE

/-! Elementwise results. -/

/-- A float result packed into a format with the events before the rounding. -/
def packV (f : FF) (m : RMode) (sat : Bool) (r : Nat) (v : Val × Nat) : Nat × Nat :=
  let (b, e) := packFloat f m sat r v.1
  (b, e ||| v.2)

/-- The binary operations on floats. -/
def VOp.float2 (op : VOp) (a b d : Val) : Val × Nat :=
  match op with
  | .add => a.add b
  | .sub => a.add b.neg
  | .mul => a.mul b
  | .fma => Val.fma a b d
  | .max => (Val.max a b, 0)
  | .min => (Val.min a b, 0)
  | .clmp => (Val.min (Val.max a b.abs.neg) b.abs, 0)
  | _ => (a, 0)

/-- The binary operations on integers, exact. -/
def VOp.int2 (op : VOp) (a b d : Int) : Int :=
  match op with
  | .add => a + b
  | .sub => a - b
  | .mul => a * b
  | .fma => a * b + d
  | .max => if a ≥ b then a else b
  | .min => if a ≤ b then a else b
  | .clmp =>
    let m := if b < 0 then -b else b
    let x := if a ≥ -m then a else -m
    if x ≤ m then x else m
  | _ => a

/-- The function of a transcendental instruction on one element, rounded (20 R353, Table 20.3). -/
def transElem (op : VOp) (f : FF) (r : Nat) (a : Val) : Nat × Nat :=
  let go := fun (m : RMode) (sat : Bool) (v : Val × Nat) => packV f m sat r v
  match op, a with
  | .rcp m s, a => go m s (Val.div Val.one a)
  | .rsq m s, .nan => go m s (.nan, 0)
  | .rsq m s, .inf neg => if neg then go m s (.nan, evINV) else go m s (Val.zero, 0)
  | .rsq m s, .fin neg n d =>
    if n = 0 then go m s (.inf neg, evDZ)
    else if neg then go m s (.nan, evINV)
    else packMag f m s r false (sqrtMag d n)
  | .sqrt m s, .nan => go m s (.nan, 0)
  | .sqrt m s, .inf neg => if neg then go m s (.nan, evINV) else go m s (.inf false, 0)
  | .sqrt m s, .fin neg n d =>
    if n = 0 then go m s (.fin neg 0 1, 0)
    else if neg then go m s (.nan, evINV)
    else packMag f m s r false (sqrtMag n d)
  | .exp2 m s, .nan => go m s (.nan, 0)
  | .exp2 m s, .inf neg => if neg then go m s (Val.zero, 0) else go m s (.inf false, 0)
  | .exp2 m s, .fin neg n d => if n = 0 then go m s (Val.one, 0) else packMag f m s r false (exp2Mag neg n d)
  | .log2 m s, .nan => go m s (.nan, 0)
  | .log2 m s, .inf neg => if neg then go m s (.nan, evINV) else go m s (.inf false, 0)
  | .log2 m s, .fin neg n d =>
    if n = 0 then go m s (.inf true, evDZ)
    else if neg then go m s (.nan, evINV)
    else
      match log2Mag n d with
      | none => go m s (Val.zero, 0)
      | some (ng, x) => packMag f m s r ng x
  | _, a => go .rne false (a, 0)

/-- The functions of VOPX on a float (20 Table 20.4), rounded `.rne` under NOSAT. -/
def opxFloat (fn : VFun) (f : FF) (a : Val) : Nat × Nat :=
  let go := fun (v : Val × Nat) => packV f .rne false 0 v
  match fn with
  | .floor => go (a.integral .rdn, 0)
  | .ceil => go (a.integral .rup, 0)
  | .trunc => go (a.integral .rz, 0)
  | .rint => go (a.integral .rne, 0)
  | .frac =>
    match a with
    | .inf _ => go (.nan, evINV)
    | a => go (a.add (a.integral .rdn).neg)
  | .sign =>
    match a with
    | .nan => go (.nan, 0)
    | a => if a.isZero then go (a, 0) else go (.fin a.sign 1 1, 0)
  | .relu =>
    match a with
    | .nan => go (.nan, 0)
    | a => if a.sign then go (Val.zero, 0) else go (a, 0)
  | .sq => go (a.mul a)
  | .isnan => go (if a.isNan then Val.one else Val.zero, 0)
  | .popc => (0, 0)
  | .clz => (0, 0)

/-- The functions of VOPX on an integer of `bits` stored bits. -/
def opxInt (fn : VFun) (bits : Nat) (a : Int) : Int :=
  match fn with
  | .floor => a
  | .ceil => a
  | .trunc => a
  | .rint => a
  | .frac => 0
  | .sign => if a < 0 then -1 else if a = 0 then 0 else 1
  | .relu => if a < 0 then 0 else a
  | .sq => a * a
  | .isnan => 0
  | .popc => popc bits (lowBits bits a)
  | .clz => clz bits (lowBits bits a)

/-- Arithmetic shift right of an integer. -/
def asr (a : Int) (k : Nat) : Int := a / (2 ^ k : Int)

/-- Attach the random bits of the result elements, row by row. -/
def withRs (r c : Nat) (rs : List Nat) : List (List Nat) :=
  if rs.isEmpty then List.replicate r (List.replicate c 0) else toRows r c rs

/-- A tile result from a matrix of (stored bits, events). -/
def resD (d : Shape) (m : List (List (Nat × Nat))) : VRes :=
  { d := some (tileImage d (m.map fun r => r.map (·.1)) []), b := none, x := none, evs := m.flatten.map (·.2) }

/-- A matrix of values quantised to an MX tile by rows (02 R37, R32), with events already attached to the elements. -/
def quantTile (d : Shape) (w : Nat) (m : RMode) (rs : List (List Nat)) (x : List (List (Val × Nat))) : VRes :=
  let rows := List.zipWith (fun row rr =>
      List.zipWith (fun blk r => (blk, quantBlock w m r (blk.map (·.1)))) (chunks 32 d.blocks row) (chunks 32 d.blocks rr)) x rs
  { d := some (tileImage d (rows.map fun bs => bs.flatMap fun q => q.2.2.map (·.1)) (rows.map fun bs => bs.map fun q => q.2.1))
    b := none, x := none
    evs := rows.flatMap fun bs => bs.flatMap fun q => List.zipWith (fun e c => e.2 ||| c.2) q.1 q.2.2 }

/-! Reductions. -/

/-- The identity of a reduction of floats (02 R46). -/
def redId : RedOp → Val
  | .sum => .fin true 0 1
  | .max => .inf true
  | .min => .inf false

/-- One combination of floats: sums are rounded to FP32 at `.rne` (02 R46). -/
def redStep (op : RedOp) (a b : Val × Nat) : Val × Nat :=
  match op with
  | .sum =>
    let (s, e) := a.1.add b.1
    let (r, e') := roundF32 s
    (r, a.2 ||| b.2 ||| e ||| e')
  | .max => (Val.max a.1 b.1, a.2 ||| b.2)
  | .min => (Val.min a.1 b.1, a.2 ||| b.2)

/-- One combination of integers, exact. -/
def redInt (op : RedOp) (a b : Int) : Int :=
  match op with
  | .sum => a + b
  | .max => if a ≥ b then a else b
  | .min => if a ≤ b then a else b

/-- Lane partials: lane l combines columns l, l+64, … in ascending order. -/
def lanePartials (op : RedOp) : Nat → List (List (Val × Nat)) → List (Val × Nat)
  | 0, _ => []
  | n + 1, cols =>
    (cols.filterMap List.head?).foldl (redStep op) (redId op, 0) :: lanePartials op n (cols.map List.tail)

/-- One level of the pairwise tree; an unpaired last partial passes up. -/
def pairUp (op : RedOp) : List (Val × Nat) → List (Val × Nat)
  | a :: b :: rest => redStep op a b :: pairUp op rest
  | l => l

/-- `n` levels of the tree. -/
def treeLevels (op : RedOp) : Nat → List (Val × Nat) → List (Val × Nat)
  | 0, l => l
  | n + 1, l => treeLevels op n (pairUp op l)

/-- A row reduction of floats (02 R46). -/
def rowReduce (op : RedOp) (row : List (Val × Nat)) : Val × Nat :=
  match treeLevels op 6 (lanePartials op 64 (chunks 64 (ceilDiv row.length 64) row)) with
  | v :: _ => v
  | [] => (redId op, 0)

/-- A column reduction of floats: rows in ascending order from the identity (02 R47). -/
def colReduce (op : RedOp) (col : List (Val × Nat)) : Val × Nat := col.foldl (redStep op) (redId op, 0)

/-- An integer reduction; a sum wraps modulo 2^64 and is read by the operand's signedness (20 R357). -/
def intReduce (op : RedOp) (signed : Bool) (l : List Int) : Int :=
  match l with
  | [] => 0
  | a :: rest =>
    let s := rest.foldl (redInt op) a
    if op == .sum then intOf signed 64 (lowBits 64 s) else s

/-- The running combinations of a row (02 R47). -/
def scanRow (op : RedOp) : Val × Nat → List (Val × Nat) → List (Val × Nat)
  | _, [] => []
  | acc, v :: vs => let n := redStep op acc v; n :: scanRow op n vs

/-- The running combinations of a row of integers. -/
def scanInts (op : RedOp) (signed : Bool) : List Int → List Int → List Int
  | _, [] => []
  | pre, v :: vs => intReduce op signed (pre ++ [v]) :: scanInts op signed (pre ++ [v]) vs

/-- Only the events the step itself adds to a scan's element: the partial's earlier events belong to earlier elements. -/
def scanEvs : List (Val × Nat) → Val × Nat → RedOp → List (Val × Nat)
  | [], _, _ => []
  | v :: vs, acc, op =>
    let n := redStep op (acc.1, 0) v
    n :: scanEvs vs n op

/-- Whether a format's integers are signed. -/
def Fmt.signed : Fmt → Bool
  | .int _ => true
  | _ => false

/-! Top-k. -/

/-- Insert a candidate by descending key, ties to the earlier one. -/
def insertCand (x : Nat × Nat) : List (Nat × Nat) → List (Nat × Nat)
  | [] => [x]
  | y :: ys => if x.1 > y.1 then x :: y :: ys else y :: insertCand x ys

/-- The candidates of a row, ranked (12 R208): (key, column) pairs of the first 32 with key ≥ lo, and their number. -/
def candidates (lo : Nat) (keys : List Nat) : List (Nat × Nat) × Nat :=
  let all := (keys.mapIdx fun i k => (k, i)).filter fun c => decide (c.1 ≥ lo)
  ((all.take 32).foldl (fun acc c => insertCand c acc) [], all.length)

/-- TAU and CNT of a bracket row (12 R206). -/
def thrRow (keys row : List Nat) : List Nat :=
  match row with
  | [lo, hi, _, _] =>
    let tau := lowBits 32 ((lo : Int) + ((hi : Int) - lo + 1) / 2)
    [lo, hi, tau, (keys.filter fun k => decide (k ≥ tau)).length]
  | r => r

/-- One bisection of a bracket row (12 R207). -/
def bisRow (k : Nat) (row : List Nat) : List Nat :=
  match row with
  | [lo, hi, tau, cnt] =>
    if lo = hi then [lo, hi, tau, cnt]
    else if cnt ≥ k then [tau, hi, tau, cnt]
    else [lo, (tau + 2 ^ 32 - 1) % 2 ^ 32, tau, cnt]
  | r => r

/-- The scale of one row of QSCL (20 R362): `q` its bound, `row` its elements. -/
def sclRow (m : RMode) (sat : Bool) (r : Nat) (q : Val) (row : List Val) : Nat × Nat :=
  let bad :=
    match q with
    | .nan => true
    | .inf _ => true
    | .fin neg n _ => neg || n == 0
  if bad then (FF.canonNan .fp32, evINV)
  else if row.any Val.isNan then (FF.canonNan .fp32, 0)
  else
    let mx := maxAbs row
    if mx.isZero then (0x3F800000, 0)
    else
      let (s, e) := packV .fp32 m sat r (Val.div mx q)
      if s = 0 then (1, e ||| evUNF) else (s, e)

/-- Partition rows (20 R359). -/
def partRow (o cols : Nat) (codes : List Int) : List Nat :=
  let idx := (codes.mapIdx fun i c => (i, c)).filterMap fun p => if p.2 = (o : Int) then some p.1 else none
  let l := idx.length :: idx.take (cols - 1)
  (l ++ List.replicate (cols - l.length) (2 ^ 32 - 1)).take cols

/-- Error feedback on one block (20 R365; 11 R191): scale, codes, new residuals, events. -/
def feedbackBlock (w : Nat) (xs rs : List Val) : Nat × List Nat × List Nat × List Nat :=
  let y := List.zipWith (fun a b => let (s, e) := a.add b; let (v, e') := roundF32 s; (v, e ||| e')) xs rs
  let (scale, c) := quantBlock w .rne [] (y.map (·.1))
  let res := List.zipWith (fun v q =>
      if scale = 255 then (0, 0)
      else packV .fp32 .rne false 0 (v.1.add (mxVal w q.1 scale).1.neg)) y c
  (scale, c.map (·.1), res.map (·.1), List.zipWith (fun a b => a ||| b) (List.zipWith (fun v q => v.2 ||| q.2) y c) (res.map (·.2)))

/-- The result of a vector operation whose checks passed. DESIGN CHOICE, log 9: −2^128, the most negative code under scale 254, which FP32
cannot hold though 02 R36 calls MXINT to FP32 exact, overflows by R34; a requantisation quantises the exact value. -/
def VOp.eval (op : VOp) (i : VIn) : VRes :=
  let anyF : Fmt := .uint 8
  let fd := (fmtOf i.d.fmt).getD anyF
  let fa := (fmtOf i.a.fmt).getD anyF
  let fb := (fmtOf i.b.fmt).getD anyF
  let R := i.d.rows
  let C := i.d.cols
  let rs := withRs R C i.rs
  let A := fun (_ : Unit) => spread R C (tileBits i.a i.ai)
  let B := fun (_ : Unit) => spread R C (tileBits i.b i.bi)
  let D := fun (_ : Unit) => tileBits i.d i.di
  let un := fun (f : Nat → Nat → Nat × Nat) => resD i.d (zip2 f (A ()) rs)
  let binary := fun (_ : Unit) =>
    match fd with
    | .flt ff =>
      resD i.d (zip2 (fun ab d =>
        packV ff .rne false 0 (op.float2 (decodeElem fa ab.1) (decodeElem fb ab.2) (decodeElem fd d))) (zip2 Prod.mk (A ()) (B ())) (if op.readsD then D () else rs))
    | _ =>
      resD i.d (zip2 (fun ab d =>
        (lowBits fd.bits (op.int2 (elemInt fa ab.1) (elemInt fb ab.2) (elemInt fd d)), 0)) (zip2 Prod.mk (A ()) (B ())) (if op.readsD then D () else rs))
  let bitwise := fun (f : Nat → Nat → Nat) => resD i.d (zip2 (fun a b => (f a b, 0)) (A ()) (B ()))
  let trans := fun (_ : Unit) =>
    match fd with
    | .flt ff => un fun a r => transElem op ff r (decodeElem fa a)
    | _ => un fun a _ => (a, 0)
  let packRed := fun (m : RMode) (sat : Bool) (r : Nat) (v : Val × Nat) =>
    match fd with
    | .flt ff => packV ff m sat r v
    | _ => (0, 0)
  let avals := fun (_ : Unit) => tileVals i.a i.ai
  let aints := fun (_ : Unit) => (tileBits i.a i.ai).map fun row => row.map (elemInt fa)
  match op with
  | .add => binary ()
  | .sub => binary ()
  | .mul => binary ()
  | .fma => binary ()
  | .max => binary ()
  | .min => binary ()
  | .clmp => binary ()
  | .abs =>
    match fd with
    | .flt ff => un fun a _ => packV ff .rne false 0 ((decodeElem fa a).abs, 0)
    | _ => un fun a _ => (lowBits fd.bits (elemInt fa a).natAbs, 0)
  | .neg =>
    match fd with
    | .flt ff => un fun a _ => packV ff .rne false 0 ((decodeElem fa a).neg, 0)
    | _ => un fun a _ => (lowBits fd.bits (-(elemInt fa a)), 0)
  | .rcp _ _ => trans ()
  | .rsq _ _ => trans ()
  | .sqrt _ _ => trans ()
  | .exp2 _ _ => trans ()
  | .log2 _ _ => trans ()
  | .cvt m sat =>
    match fd with
    | .mx w =>
      quantTile i.d w m rs (if fa.isMx then tileVals i.a i.ai else spread R C (tileVals i.a i.ai))
    | _ =>
      if fa.isMx then
        resD i.d (zip2 (fun v r =>
          match fd with
          | .flt ff => packV ff m sat r v
          | .int n => let (k, e) := packInt true n m r v.1; (lowBits n k, e ||| v.2)
          | _ => let (k, e) := packInt false fd.bits m r v.1; (lowBits fd.bits k, e ||| v.2)) (tileVals i.a i.ai) rs)
      else un fun a r => convElem fa fd m sat r a
  | .and => bitwise (· &&& ·)
  | .or => bitwise (· ||| ·)
  | .xor => bitwise (· ^^^ ·)
  | .shl k => un fun a _ => (if k ≥ fa.bits then 0 else lowBits fd.bits (elemInt fa a * 2 ^ k), 0)
  | .shr k => un fun a _ => (lowBits fd.bits (asr (elemInt fa a) (if k ≥ fa.bits then fa.bits else k)), 0)
  | .cmp =>
    resD i.d (zip2 (fun a b =>
      let o := if fa.isFloat then (decodeElem fa a).cmp (decodeElem fb b) else some (compare (elemInt fa a) (elemInt fb b))
      (lowBits fd.bits (match o with | none => 2 | some .lt => -1 | some .eq => 0 | some .gt => 1), 0)) (A ()) (B ()))
  | .sel => resD i.d (zip2 (fun ab d => (if d ≠ 0 then ab.1 else ab.2, 0)) (zip2 Prod.mk (A ()) (B ())) (D ()))
  | .mov =>
    if i.d == i.a then { d := some (padTo (128 * i.d.lines) i.ai), b := none, x := none, evs := [] }
    else un fun a _ => convElem fa fd .rne false 0 a
  | .opx fn =>
    match fd with
    | .flt ff => un fun a _ => opxFloat fn ff (decodeElem fa a)
    | _ => un fun a _ => (lowBits fd.bits (opxInt fn fa.bits (elemInt fa a)), 0)
  | .bc =>
    let e := ((tileBits i.a i.ai).headD []).headD 0
    let v := convElem fa fd .rne false 0 e
    resD i.d (List.replicate R (List.replicate C v))
  | .rred m sat o =>
    if fa.isFloat then
      resD i.d (List.zipWith (fun row r => [packRed m sat (r.headD 0) (rowReduce o row)]) (avals ()) rs)
    else resD i.d ((aints ()).map fun row => [narrowInt fd sat (intReduce o fa.signed row)])
  | .cred m sat o =>
    if fa.isFloat then
      resD i.d [List.zipWith (fun col r => packRed m sat r (colReduce o col)) (transpose i.a.cols (avals ())) (rs.headD [])]
    else resD i.d [(transpose i.a.cols (aints ())).map fun col => narrowInt fd sat (intReduce o fa.signed col)]
  | .scan m sat o =>
    if fa.isFloat then
      resD i.d (List.zipWith (fun row r => List.zipWith (fun v k => packRed m sat k v) (scanEvs row (redId o, 0) o) r) (avals ()) rs)
    else resD i.d ((aints ()).map fun row => (scanInts o fa.signed [] row).map (narrowInt fd sat))
  | .xs idx =>
    let e := (tileBits i.a i.ai).flatten[idx]?
    { d := none, b := none, evs := []
      x := some (match e with
        | none => 0
        | some b => if fa.signed then ofInt (elemInt fa b) else BitVec.ofNat 64 b) }
  | .ins v idx =>
    let e := fd.bits / 8
    if idx ≥ R * C then { d := none, b := none, x := none, evs := [] }
    else { d := some (splice (padTo (128 * i.d.lines) i.di) (128 * (idx / C * i.d.pitch) + e * (idx % C)) (natLE e (v.toNat % 2 ^ fd.bits))),
           b := none, x := none, evs := [] }
  | .iota base =>
    resD i.d (toRows R C ((List.range (R * C)).map fun (k : Nat) =>
      match fd with
      | .flt ff => packFloat ff .rne false 0 (Val.ofInt (base + k))
      | _ => (lowBits fd.bits (base + k), 0)))
  | .perm =>
    let rows := tileBits i.a i.ai
    resD i.d ((B ()).mapIdx fun m row => row.map fun b =>
      let src := if i.a.rows = 1 then rows.headD [] else rows.getD m []
      let k := elemInt fb b
      (if k < 0 ∨ k ≥ i.a.cols then 0 else src.getD k.toNat 0, 0))
  | .part n =>
    let codes := (aints ()).flatten
    resD i.d ((List.range n).map fun o => (partRow o C codes).map fun v => (v, 0))
  | .trn => resD i.d ((transpose i.a.cols (tileBits i.a i.ai)).map fun row => row.map fun v => (v, 0))
  | .thr =>
    resD i.d (List.zipWith (fun row d => (thrRow (row.map fun v => topKey v.1) d).map fun v => (v, 0)) (avals ()) (D ()))
  | .bis k => resD i.d ((D ()).map fun row => (bisRow k row).map fun v => (v, 0))
  | .qsel =>
    let br := tileBits i.b i.bi
    let rows := List.zipWith (fun row b => candidates (b.headD 0) (row.map fun v => topKey v.1)) (avals ()) br
    { (resD i.d (rows.map fun c => (List.range C).map fun j =>
        (match c.1[j]? with | some p => p.2 % 2 ^ 16 | none => 2 ^ 16 - 1, 0))) with
      b := some (tileImage i.b (List.zipWith (fun b c => b.take 3 ++ [c.2]) br rows) []) }
  | .scl m sat =>
    let dr := D ()
    let rr := if i.rs.isEmpty then List.replicate R 0 else i.rs
    let out := List.zipWith (fun row dr => (row, dr)) (avals ()) (List.zipWith Prod.mk dr rr)
    let sc := out.map fun p => sclRow m sat p.2.2 (decodeFloat .fp32 (p.2.1.getD 1 0)) (p.1.map (·.1))
    { d := some (tileImage i.d (List.zipWith (fun s d => [s.1, d.getD 1 0]) sc dr) []), b := none, x := none, evs := sc.map (·.2) }
  | .qnt m sat =>
    match fd with
    | .mx w => quantTile i.d w m rs (tileVals i.a i.ai)
    | _ =>
      let sc := spread R 1 ((tileBits i.p i.pi).map fun row => [decodeFloat .fp32 (row.headD 0)])
      resD i.d (List.zipWith (fun s rowr => List.zipWith (fun v r =>
        let (y, e) := Val.div v.1 s
        match fd with
        | .flt ff => packV ff m sat r (y, e)
        | .int n => let (k, e') := packInt true n m r y; (lowBits n k, e ||| e')
        | _ => let (k, e') := packInt false fd.bits m r y; (lowBits fd.bits k, e ||| e')) rowr.1 rowr.2)
        (sc.map fun r => r.headD .nan) (List.zipWith Prod.mk (tileVals i.a i.ai) rs))
  | .qdq =>
    match fd with
    | .flt ff =>
      if fa.isMx then resD i.d ((tileVals i.a i.ai).map fun row => row.map fun v => packV ff .rne false 0 v)
      else
        let sc := spread R 1 ((tileBits i.p i.pi).map fun row => [decodeFloat .fp32 (row.headD 0)])
        resD i.d (List.zipWith (fun s row => row.map fun v => packV ff .rne false 0 (Val.mul v.1 s))
          (sc.map fun r => r.headD .nan) (tileVals i.a i.ai))
    | _ => { d := none, b := none, x := none, evs := [] }
  | .qef =>
    match fd with
    | .mx w =>
      let rows := List.zipWith (fun xa xb =>
          List.zipWith (feedbackBlock w) (chunks 32 i.d.blocks (xa.map (·.1))) (chunks 32 i.d.blocks (xb.map (·.1))))
          (tileVals i.a i.ai) (tileVals i.b i.bi)
      { d := some (tileImage i.d (rows.map fun bs => bs.flatMap (·.2.1)) (rows.map fun bs => bs.map (·.1)))
        b := some (tileImage i.b (rows.map fun bs => bs.flatMap (·.2.2.1)) [])
        x := none
        evs := rows.flatMap fun bs => bs.flatMap (·.2.2.2) }
    | _ => { d := none, b := none, x := none, evs := [] }

/-- Lines of a tile's image that VINS reads and leaves empty while it writes: the line of the element, none when the
index is past the element count (20 R356). -/
def insLine (d : Shape) (idx : Nat) : Option Nat :=
  match fmtOf d.fmt with
  | some f => if d.cols = 0 ∨ idx ≥ d.rows * d.cols then none else some (idx / d.cols * d.pitch + idx % d.cols * (f.bits / 8) / 128)
  | none => none

/-- Occupancy and latency of an operation on tiles of at most `l` lines (20 Table 20.1). -/
def VOp.times (op : VOp) (l : Nat) : Nat × Nat :=
  let h := ceilDiv l 2
  match op with
  | .rcp _ _ => (h, 14 + h)
  | .rsq _ _ => (h, 14 + h)
  | .sqrt _ _ => (h, 14 + h)
  | .exp2 _ _ => (h, 14 + h)
  | .log2 _ _ => (h, 14 + h)
  | .rred _ _ _ => (h, 12 + h)
  | .cred _ _ _ => (h, 12 + h)
  | .scan _ _ _ => (l, 16 + l)
  | .part _ => (l, 16 + l)
  | .qsel => (l, 16 + l)
  | .xs _ => (1, 9)
  | .ins _ _ => (1, 9)
  | .thr => (h, 10 + h)
  | .bis _ => (1, 6)
  | .scl _ _ => (h, 12 + h)
  | .qnt _ _ => (h, 8 + h)
  | .qdq => (h, 8 + h)
  | .qef => (h, 10 + h)
  | _ => (h, 8 + h)

end Sys2Proof.Machine
end

