-- ==== Sys2Proof/Machine/State.lean ====
section
/-! DEFINITION. The state of one FX9-A64 package, as plain data; its reset; and the reasons a step can stop. -/

namespace Sys2Proof.Machine

/-- Faults of the model. Traps, page faults and errors of the part are next states, so nothing of the part ends here. -/
inductive Fault where
  /-- Raised by no instruction; kept so that the type is inhabited. Safe: a stop proves nothing about a later state. -/
  | none
  deriving DecidableEq, Repr

/-- Refusals of the model. -/
inductive Refusal where
  /-- Raised by the dispatcher alone, for an instruction that has no meaning yet. Safe: it stops. -/
  | notModelled (mnemonic : String)
  deriving DecidableEq, Repr

/-- A cached translation (10 R164): context, first address of the page, level of the leaf (0, 1, 2), the entry. -/
structure Xl where
  ctx   : Nat
  base  : Nat
  level : Nat
  pte   : Word
  deriving DecidableEq, Repr

/-! ### One core -/

/-- A register write that waits for the bundle it is due for (14 R231). -/
inductive PWrite where
  | x (r : Nat) (v : Word)
  | p (r : Nat) (v : Bool)
  | o (r : Nat) (v : Word)
  /-- MTS, MCOP: a special register by number. -/
  | spr (n : Nat) (v : Word)
  /-- HSET: field `sel` of a handle. -/
  | hnd (h sel : Nat) (v : Word)
  /-- HCPY: a whole handle. -/
  | hcopy (h : Nat) (ws : List Word)
  /-- The version write of an enforced TLDH (17 R305). -/
  | ver (h : Nat) (v : Nat)
  /-- TSHP: both words of a descriptor. -/
  | shape (t : Nat) (w0 w1 : Word)
  | stride (o l : Nat) (v : Word)
  /-- MFMT. -/
  | fl (l : Nat)
  /-- SETF and CLRF in the issuing core. -/
  | flag (f : Nat) (b : Bool)
  /-- LAYER. -/
  | layer
  /-- NTILE: x61 := x60, x60 := v, p11 := ok. -/
  | ntile (v : Word) (ok : Bool)
  /-- The landing of a tile load of landing code 1 to 7 (14 R236). -/
  | land (op : Nat)
  /-- The replayed landing of lines that a save wrote (05 R111): those that `op` keeps empty become full. -/
  | full (op : Nat)
  deriving DecidableEq, Repr

/-- A pending write: due LCYC, position in issue order (8·LCYC + slot), bundle address, and the events it logs when it is
applied. `arrived` is false while the value is still on its way from another agent (14 R232). -/
structure Pend where
  due     : Nat
  pos     : Nat
  addr    : Nat
  w       : PWrite
  arrived : Bool
  id      : Nat
  evs     : List Nat
  deriving DecidableEq, Repr

/-- An open loop level (16 Table 16.4). -/
structure LoopL where
  l     : Bool
  p     : Bool
  index : Nat
  count : Nat
  start : Nat
  lenM1 : Nat
  deriving DecidableEq, Repr

/-- A broadcast bundle in a core's skid queue (08 R141), with the loop stack it runs under (innermost first), the stride
sums due for it (level, factor: 16 R266) and the layer steps due for it. -/
structure Skid where
  seqno  : Nat
  pc     : Nat
  words  : List Nat
  stack  : List LoopL
  adj    : List (Nat × Int)
  layers : Nat
  delay  : Bool
  /-- Once the course's decision on the bundle is known: what a taken CALL writes to `x63` (16 R261). -/
  link   : Option (Option Nat)
  deriving DecidableEq, Repr

/-- What a branch-class instruction asks of the sequencer (16 R260). -/
inductive BrAct where
  | none
  | rel (disp : Int)
  | call (disp : Int)
  | ret (target : Nat)
  | jmp (target : Nat)
  | loop (l p : Bool) (count lenM1 : Nat)
  | lbrk (n : Nat)
  deriving DecidableEq, Repr

/-- What the bundle being issued has done so far. -/
structure BCtx where
  /-- Branch of slot c and of slot a. -/
  br    : BrAct
  brx   : BrAct
  /-- Traps raised in execution: slot and code. -/
  traps : List (Nat × Nat)
  exit  : Bool
  cmit  : Bool
  sabt  : Bool
  /-- Traps and freezes of the bundle have been tested (14 R445). -/
  ready : Bool
  deriving DecidableEq, Repr

/-- Nothing done yet. -/
def BCtx.fresh : BCtx := ⟨.none, .none, [], false, false, false, false⟩

/-- A line of the TRF that is not full: `land` is the landing LCYC it awaits (codes 1 to 7), `op` the operation that
fills it. -/
structure LineSt where
  land : Option Nat
  op   : Option Nat
  deriving DecidableEq, Repr

/-- State of one line access. -/
inductive AccSt where
  /-- Not started. -/
  | idle
  /-- Waiting for a translation. -/
  | walk
  /-- On its way to the source. -/
  | flight
  | done
  /-- Faulted, with its cause (10 Table 10.5). -/
  | fault (cause : Nat)
  deriving DecidableEq, Repr

/-- One line of an access: its virtual address, the place it was translated to (0 before), its bytes (read, or to be written) and,
for a store, the bytes it names. -/
structure LineAcc where
  va     : Nat
  key    : Nat
  home   : Nat
  /-- The leaf it was translated by; 0 for a window. -/
  pte    : Word
  st     : AccSt
  data   : List Byte
  mask   : List Bool
  /-- The acquired vector of the die as the access left the core (04 R84). -/
  acq    : List Nat
  /-- Number of the locked translation it took (10 R168); 0 for none. -/
  lock   : Nat
  /-- The L1 held the line as the access left the core, and serves it (04 R81). -/
  l1     : Bool
  deriving DecidableEq, Repr

/-- Bytes `len` at `src` of access line `line` go to byte `dst` of the destination image. -/
structure Chunk where
  line : Nat
  src  : Nat
  dst  : Nat
  len  : Nat
  deriving DecidableEq, Repr

/-- A request that leaves a core for another agent once the core's earlier releases have completed. -/
inductive Req where
  | sem (op : Nat) (xD : Nat) (sem : Nat) (v cmp : Word)
  | flag (rank f : Nat) (val : Bool)
  | enq (q : Word) (bytes : List Byte)
  | ntile
  | bdcl (b : Nat) (decl : Nat)
  | barv (b : Nat) (tag : Bool) (chan : Option Nat)
  | xchn (ch : Word) (link : Word)
  | twm (ch : Word)
  | vr (op : Nat) (a b b2 : Word)
  | vrcnt (a : Word) (sel : Nat) (ex : Word)
  | pldef (a b : Word)
  | plcnv (a b : Word)
  | plqry (a : Word) (sel : Nat)
  /-- The third word and on: number of the first write its rows have made, 0 for none (21 R380). -/
  | slbxl (a b b2 : Word) (lo : Nat)
  /-- All rows of a PUT or GET have been written; the numbers their writes lie between. -/
  | slabDone (lo hi : Nat)
  | slbgr (a b : Word)
  | exacq (a b : Word) (clayer nlayer : Nat)
  | exrel (a : Word)
  | frsm (c n : Word)
  | tlbi (a c : Word) (sz : InvSize)
  | trig
  deriving DecidableEq, Repr

/-- A handle as it stood at an issue (17 R304): its number, words, offsets of the group, the tile's shape, and whether the
load is enforced. -/
structure Enf where
  h     : Nat
  ws    : List Word
  offs  : List Int
  shape : Shape
  check : Bool
  deriving DecidableEq, Repr

/-- A matrix operand as it stood at issue (19 R327): rows, K columns, format, and where its bytes come from. -/
structure MArg where
  kind : Nat
  num  : Nat
  rows : Nat
  cols : Nat
  /-- Line image of a tile or channel slot; a tile may not be overwritten before it has been read (19 R336). -/
  img  : List Byte
  /-- The handle and its offsets, for a handle or bound tile. -/
  hnd  : Option Enf
  deriving DecidableEq, Repr

/-- What a placed operation computes (03 R55). -/
inductive PlKind where
  | mma (acc : Nat) (zero : Bool) (a b : MArg) (fa fb : Nat) (pat : Word) (numv : Bool)
  /-- A vector instruction: shapes; the operands' images at issue, or the handles they are bound to. -/
  | vec (op : VOp) (i : VIn) (td tb : Nat) (hd ha hb hp : Option Enf) (xD : Option Nat)
  /-- MOUT, MRD (with the snapshot's image) or MFEED of a bound tile at CORE (03 R56). -/
  | mout (acc : Nat) (rm : RMode) (sat : Bool) (rs : List Nat) (hd : Enf)
  | mrd (img : List Byte) (hd : Enf)
  | mfeed (acc : Nat) (ha : Enf)
  deriving DecidableEq, Repr

/-- Kinds of ordered memory operations of a core (04 R79). -/
inductive OpKind where
  /-- A tile load into tile `t`; `fill` is the image before the chunks land, `keep` the bits that stay of some bytes. -/
  | load (t : Nat) (fill : List Byte) (keep : List (Nat × Byte)) (enf : Option Enf)
  | tldw (x off : Nat)
  | store
  /-- A store through a handle that names a placement entry: the eave unit decides (13 R218). -/
  | pstore (e : Enf) (bytes : List (Nat × List Byte))
  | chcfg (c : Nat) (off : Nat)
  | waita (cond : WaitCond) (v : Word) (off : Nat)
  /-- FENCE and implied orderings. Stage 0 awaits the core's own accesses, 1 the die's drain of the cycle, 2 what ends the fence. -/
  | fence (order : Order) (scope : Scope) (stage : Nat)
  | req (r : Req) (minAt : Nat)
  | placed (k : PlKind)
  /-- CHSND to a consumer on another package: the package and its member's rank, channel and slot, the tile's shape and bytes, and the message that carries them (0
  before it has left). -/
  | chsend (to_ : Nat × Nat × Nat × Nat) (shape : Word) (img : List Byte) (msg : Nat)
  deriving DecidableEq, Repr

/-- An operation of a core that has not completed, in program order. `land` is the landing LCYC; `chunks` say which bytes
of the lines go where; `left` is true once a request has left the core. -/
structure MemOp where
  id     : Nat
  pos    : Nat
  addr   : Nat
  kind   : OpKind
  lines  : List LineAcc
  chunks : List Chunk
  land   : Option Nat
  left   : Bool
  nl1    : Bool
  ready  : Nat
  /-- A fault-queue entry of the operation is outstanding. -/
  fq     : Bool
  /-- Barriers whose phase view P xor A was 1 as the request left the core (09 R443). -/
  tags   : List Nat
  /-- Lines it will access that are not in `lines` yet: placement entry whose BASE they are relative to, write, address (03 R76; 13 R217,
  R218). -/
  about  : List (Option Nat × Bool × Nat)
  /-- A WAITA has logged MONFULL (09 R159). -/
  full   : Bool
  /-- `RBND` as the operation issued, or as a resume of its pieces found it (03 R60, R73). -/
  rbnd   : Nat
  /-- Of a tile load: the line count of its landing time, and the cycles that a gather adds (22 R387); 0 stands for its lines. -/
  count  : Nat × Nat := (0, 0)
  deriving DecidableEq, Repr

/-- Kinds of results on their way. -/
inductive JobKind where
  /-- A result that a save held, `off` cycles after the restored core issues its first bundle (05 R113). -/
  | shadow (off : Nat)
  /-- A vector result: its tile lines are computed. -/
  | vec
  | tzero
  | mrd
  | mout (acc t : Nat) (rm : RMode) (sat : Bool) (rs : List Nat)
  | mfeed (acc rows cols fmt : Nat) (img : List Byte)
  | mclr (acc : Nat)
  deriving DecidableEq, Repr

/-- A result that completes at cycle `done` (0: not known yet): tile lines (tile, first line, image) and its events
(summary mask, code). -/
structure Job where
  id    : Nat
  pos   : Nat
  addr  : Nat
  done  : Nat
  kind  : JobKind
  tiles : List (Nat × Nat × List Byte)
  evs   : Nat × Nat
  deriving DecidableEq, Repr

/-- An MMA or MMAZ at CORE (19 R335). -/
structure MmaOp where
  id     : Nat
  pos    : Nat
  addr   : Nat
  acc    : Nat
  zero   : Bool
  a      : MArg
  b      : MArg
  fa     : Nat
  fb     : Nat
  m      : Nat
  n      : Nat
  ksteps : Nat
  c      : Nat
  pat    : Word
  numv   : Bool
  start  : Option Nat
  kdone  : Nat
  /-- Window of the group in progress under NUMV 1, per element (02 R45). -/
  win    : List Int
  winNan : List Bool
  /-- Events so far: summary mask, lowest element that has one, its mask. -/
  evs    : Nat × Nat × Nat
  deriving DecidableEq, Repr

/-- An instruction in a vector pipe. -/
structure PipeOp where
  job : Job
  occ : Nat
  lat : Nat
  /-- Tile operands it reads (22 R392). -/
  reads : List Nat
  deriving DecidableEq, Repr

/-- A tile that a store or a CHSND is reading (22 R392): its operation; for a CHSND its channel and the cycle its landing is due, if that is of
this package; the tile; and the cycle its reads end. -/
structure Port where
  id   : Nat
  chan : Option (Nat × Nat)
  tile : Nat
  till : Nat
  deriving DecidableEq, Repr

/-- A channel's entry and state in one member (21 R368, R369). Slot states: 0 FREE, 1 LANDING, 2 FULL; with the shape word
and the sender (a core; 64·(rank + 1) + core for a core of package `rank`). -/
structure Chan where
  conf   : Bool
  pend   : Bool
  x      : Bool
  rel    : Bool
  pkg    : Nat
  rank   : Nat
  bar    : Option Nat
  nslot  : Nat
  lines  : Nat
  rbase  : Nat
  pp     : Nat
  cred   : Nat
  cp     : Nat
  slots  : List (Nat × Word × Nat)
  deriving DecidableEq, Repr

/-- An action a speculative region holds until CMIT (16 R277). -/
structure Held where
  pos  : Nat
  addr : Nat
  op   : MemOp
  lat  : Nat
  x    : Option Nat
  deriving DecidableEq, Repr

/-- An open speculative region and its checkpoint. -/
structure Spec where
  pos  : Nat
  xs   : List Word
  ps   : List Bool
  os   : List Word
  held : List Held
  deriving DecidableEq, Repr

/-- An entry of the shadow result buffer (05 R111, Table 5.6), with the events it logs at its replay; kind 0 holds events
alone. -/
structure ShEnt where
  kind   : Nat
  target : Nat
  first  : Nat
  count  : Nat
  off    : Nat
  data   : List Byte
  pos    : Nat
  addr   : Nat
  mask   : Nat
  code   : Nat
  codes  : List Nat
  deriving DecidableEq, Repr

/-- A piece of a placed operation (03 R64, R65): its cell of the grid, its place, and how far it is. -/
structure Piece where
  id    : Nat
  core  : Nat
  op    : Nat
  order : Nat
  place : Nat
  m0    : Nat
  m1    : Nat
  n0    : Nat
  n1    : Nat
  k0    : Nat
  k1    : Nat
  ready : Nat
  /-- Cycle in which it entered intake. -/
  came  : Nat
  run   : Nat
  out   : Nat
  /-- 0 waiting for intake, 1 in intake, 2 running, 3 computed and held, 4 done, 5 cancelled by a fault. -/
  st    : Nat
  evs   : Nat × Nat × Nat
  deriving DecidableEq, Repr

/-- One core: its registers (14 Tables 14.3 and 14.4), tiles, accumulators, engines and the work it has outstanding. -/
structure Core where
  x      : Vector Word 64
  p      : Vector Bool 16
  o      : Vector Word 16
  stride : Vector Word 96
  h      : Tbl (List Word)
  shapes : Tbl (Word × Word)
  trf    : Mem
  lines  : Tbl LineSt
  acc    : Tbl Nat
  -- special registers
  gid    : Nat
  lcyc   : Nat
  dsel   : Nat
  csel   : Nat
  fela   : Word
  fels   : Word
  felPos : Option Nat
  numv   : Bool
  rbnd   : Nat
  clayer : Nat
  nlayer : Nat
  fmtb   : Nat
  seed   : BitVec 32
  ld     : Vector Nat 8
  halo   : Nat
  dom    : List Word
  flags  : BitVec 32
  mcopr  : Word
  fl     : Nat
  fmtTab : Tbl Word
  -- issue
  pend    : List Pend
  skid    : List Skid
  bctx    : BCtx
  /-- What this core's values make of the latest branch bundles: bundle, slot, action (16 R260). -/
  decided : List (Nat × Nat × BrAct)
  /-- A delay bundle issued before its branch was decided: bundle, its position, slots that held a branch. -/
  early   : Option (Nat × Nat × Nat)
  exited  : Bool
  trig    : Bool
  frozen  : Bool
  cause   : Nat
  lastCause : Nat
  spec    : Option Spec
  /-- Lines of the store at the head that an overflow of its region has already performed (16 R279). -/
  specFull : Option Nat
  group   : Option Nat
  lastCtx : Option Nat
  /-- Cycle in which the core last issued a bundle. -/
  issued  : Nat
  /-- While its group saves: results held so far (05 R111). -/
  hold    : Option (List ShEnt)
  -- engines and memory
  writers : List (Nat × Nat)
  readers : List (Nat × Nat)
  memq    : List MemOp
  jobs    : List Job
  mma     : List MmaOp
  pipeV   : List PipeOp
  pipeQ   : List PipeOp
  /-- Tiles being read by slots m and f; the cycle of the latest landings, with their lines of each bank group; the cycle of the latest
  arbitration of the bank groups (22 R392). -/
  ports   : List Port
  landed  : Nat × List Nat
  trfAt   : Nat
  monfull : Bool
  l1      : List (Nat × List Byte)
  utlb    : List Xl
  chans   : Tbl Chan
  bP      : List Nat
  bA      : List Nat
  /-- The barrier whose A bit was set last, and the cycle. -/
  arvAt   : Option (Nat × Nat)
  waitT   : Option (Nat × Nat)
  deriving DecidableEq, Repr

/-! ### Groups -/

/-- The sequencer's wait for a branch decision (16 R260): the bundle it waits on, whether the delay bundle may go out, and
whether it has; `fall` marks a fall-through past the image (R129). -/
structure SeqWait where
  seqno : Nat
  pc    : Nat
  early : Bool
  sent  : Bool
  fall  : Bool
  deriving DecidableEq, Repr

/-- A sequencer: next bundle, loop stack (innermost first), pending target behind a delay bundle, what is due for the next
bundle. -/
structure Seq where
  pc     : Nat
  stack  : List LoopL
  seqno  : Nat
  wait   : Option SeqWait
  tgt    : Option Nat
  adj    : List (Nat × Int)
  /-- The pending target closes the levels it leaves (16 R269); CALL closes none. -/
  close  : Bool
  layers : Nat
  /-- A pre-emption point has been reached at this bundle; nothing is broadcast beyond it (05 R111). -/
  bound  : Option Nat
  deriving DecidableEq, Repr

/-- One instance of a barrier (09 R150). Condition: 0 OPEN, 1 OVERRUN, 2 TIMEOUT. -/
structure Bar where
  phase : Bool
  arr   : Nat
  arrN  : Nat
  land  : Nat
  landN : Nat
  decl  : Nat
  parr  : Nat
  parrN : Nat
  /-- Cycle of the first arrival or landing of the phase; while the group is saved, the cycles counted so far. -/
  since : Option Nat
  cond  : Nat
  /-- The package arrival of the phase has been sent. -/
  sent  : Bool
  deriving DecidableEq, Repr

/-- A barrier declaration (09 Table 9.1). -/
structure BarDecl where
  wdog   : Nat
  dom    : Nat
  expect : Nat
  decl   : Nat
  deriving DecidableEq, Repr

/-- What FRSM re-issues for a fault entry (10 R172). -/
inductive Again where
  /-- Memory operation `id` of a core. -/
  | op (core id : Nat)
  /-- Cancelled pieces of placed operation `id`. -/
  | piece (core id : Nat)
  /-- Copy of slab `k`, row transfer `id` of a core, or fill of expert slot `n`. -/
  | grow (k : Nat)
  | fill (n : Nat)
  deriving DecidableEq, Repr

/-- What a group that runs, loads or is parked holds (07, 08). -/
structure Run where
  ctx     : Nat
  queue   : Nat
  cls     : Nat
  deadline : Nat
  packet  : Nat
  seq     : Nat
  members : List Nat
  clen    : Nat
  code    : Nat
  image   : List Byte
  win     : List (Option (List Byte))
  fmts    : List Word
  chs     : List (List Word)
  bars    : List BarDecl
  insts   : Tbl Bar
  fmtb    : Nat
  lds     : List Nat
  grid    : Nat × Nat × Nat
  tiles   : Nat
  npkg    : Nat
  sptag   : Nat
  peers   : List Nat
  stat    : Nat
  tick    : Option Nat
  sq      : Seq
  timer   : Nat
  preempt : Bool
  sems    : Tbl (Word × List Nat)
  triggered : Bool
  /-- Acquired vector merged at the first bundle (07 R132). -/
  stamp   : List Nat
  ready   : Bool
  started : Bool
  /-- Members' state kept by a save, and operations to re-issue at restore (05 R111, R112). -/
  saved   : List (Nat × Core)
  /-- 1 while a park saves the group, 2 while a pre-emption does (05 R111, R112). -/
  saving  : Nat
  /-- Cycle, plus 1, of the dies' releases of a save under way; messages held for the group (08 R147). -/
  savedAt : Nat
  heldMsgs : List Instr
  /-- Package arrivals among them: barrier and phase. -/
  heldArr  : List (Nat × Bool)
  /-- What FRSM has resumed for the saved group and the ridge carries out after the restore (10 R172). -/
  redo     : List Again
  /-- The member whose freeze the sequencer's stall of this cycle counts under (08 R142). -/
  stalled  : Option Nat
  parkedAt : Nat
  /-- Fault entries (SEQ) the park recorded that FRSM has not resumed. -/
  entries : List Nat
  /-- 1 this package was late, 2 a peer was (07 R136). -/
  late    : Nat
  deriving DecidableEq, Repr

/-- A group index (08 Table 8.2) with its freeze counters and GTRAP (14 R247). -/
structure Grp where
  state : Nat
  gen   : Nat
  ctx   : Nat
  pwhy  : Nat
  trap  : Nat
  cause : Nat
  parks : Nat
  gfrz  : List Nat
  gtrap : Word
  run   : Option Run
  /-- Paths whose drain marker is still out: 8·link + VC, and 1000, 1001 for the two ways round the eave ring. -/
  marks : List Nat
  deriving DecidableEq, Repr

/-! ### Agents of the memory model (04) -/

/-- The stamp of a write: agent, epoch, acquired vector (04 R82). -/
structure Stamp where
  agent : Nat
  epoch : Nat
  acq   : List Nat
  deriving DecidableEq, Repr

/-- What follows a write of the ridge once it is applied. -/
inductive Told where
  | none
  /-- A fault-queue entry of a context is written (10 R171). -/
  | entry (x : Nat)
  /-- A MARKER packet, the n-th of queue q, is complete (06 R121). -/
  | marker (q n : Nat)
  deriving DecidableEq, Repr

/-- A write on its way to its home, or held there (04 R83). `src` is 0, or 1 + the rank of the peer package that made it
(R91), whose markers in `needs` (epoch, path) it waits for; `die` is the rafter die whose buffer drained it. `land` is the barrier its
bytes count at once they are applied (09 R443): from a peer, group id, requesting core, barrier, tag. -/
structure Write where
  id    : Nat
  stamp : Stamp
  src   : Nat
  needs : List (Nat × Nat) := []
  key   : Nat
  home  : Nat
  bytes : List (Bool × Byte)
  die   : Option Nat
  land  : Option (Bool × Nat × Nat × Nat × Bool) := none
  /-- Number of the locked translation an agent's write took (10 R168). -/
  lock  : Nat := 0
  /-- The peer and the number of the message it came with, which is answered once all its lines are applied (12 R200). -/
  back  : Option (Nat × Nat) := none
  told  : Told := .none
  /-- The cycle in which it reaches its home. -/
  due   : Nat := 0
  deriving DecidableEq, Repr

/-- One of the 18 agents. `closed` tells of source `src * 18 + agent` how many epochs are closed without a gap, and which
are closed beyond the gap; `peers` are the markers of peer agents it holds (source, agent, epoch, path: R91); `marked` the markers this agent
has sent to peers (peer, epoch, path); `waiting` are the writes it holds, `loads` the loads (core, operation, line, vector). -/
structure Agent where
  epoch   : Nat
  acq     : List Nat
  closed  : Tbl (Nat × List Nat)
  peers   : List (Nat × Nat × Nat × Nat)
  marked  : List (Nat × Nat × Nat)
  waiting : List Write
  loads   : List (Nat × Nat × Nat × List Nat)
  deriving DecidableEq, Repr

/-- A line of a write-combining buffer: merged bytes, the bytes held invisible (core, position, bytes: 04 R86), the cycle
it entered, and the write that drained it. -/
structure WLine where
  key    : Nat
  home   : Nat
  cls    : Nat
  since  : Nat
  merged : List (Bool × Byte)
  held   : List (Nat × Nat × List (Bool × Byte))
  sent   : Option Nat
  deriving DecidableEq, Repr

/-- An access that waits at a home (22 R389, R390): its event, the cycle it came, that a lookup of the L2 has missed, and the point it waits
at, with its agent and line; none while it is on its way from the L2. -/
structure Ask where
  ev   : Instr
  came : Nat
  miss : Bool
  at_  : Option (Nat × Nat × Nat)
  deriving DecidableEq, Repr

/-- A pseudo-channel or a bank (22 R389 to R391): the cycle it is free from, the agent it served last, the row it has open. -/
structure Point where
  free : Nat
  last : Nat
  row  : Option Nat
  deriving DecidableEq, Repr
/-- A point that has served nothing: the turn is rafter 0's. -/
def Point.reset : Point := ⟨0, 17, none⟩

/-- A monitor (09 R159): line key, core, operation. -/
structure Mon where
  key  : Nat
  core : Nat
  id   : Nat
  deriving DecidableEq, Repr

/-- A translation walk of a die (10 R165): the cycle and the lowest core of the first misses, joined accesses (core, operation, line),
and, while it runs, the level and table it reads next. -/
structure Walk where
  ctx   : Nat
  va    : Nat
  arr   : Nat
  core  : Nat
  run   : Option (Nat × Nat)
  joins : List (Nat × Nat × Nat)
  deriving DecidableEq, Repr

/-- What a rafter die holds: its buffer, TLB, walks, SC order, monitors. -/
structure Die where
  wcb   : List WLine
  tlb   : List Xl
  walks : List Walk
  sc    : Nat
  /-- Cycle of the die's last tick, plus 1 (04 R82: releases in one cycle make one tick). -/
  tickAt : Nat
  /-- The cycle in which the drain of that tick ends. -/
  drainTo : Nat
  mons  : List Mon
  /-- Lines of its core scratchpads that accesses of a cycle have taken: the cycle, and (core, line) (01 R19). -/
  served : Nat × List (Nat × Nat)
  deriving DecidableEq, Repr

/-! ### Contexts and queues (05, 06) -/

/-- An entry the context has written and FRSM has not resumed: its SEQ, the cycle it was written, what it says (cause, core, group id,
KIND, OPND, slot, address, bundle), and what it re-issues. -/
structure FqEnt where
  seq   : Nat
  at_   : Nat
  telling  : List Nat
  again : Again
  deriving DecidableEq, Repr

/-- A conversion of a placement entry, queued or in progress (13). `core` is the requesting core with its tag for the
barrier and its group id; `pkts` are CONVERT packets (queue, packet) that complete with it; `waits` the loads it fills (core,
operation). -/
structure Conv where
  seq    : Nat
  tgt    : Nat
  core   : Option (Nat × Bool × Nat)
  axis   : Nat
  from_  : Nat
  joined : List Nat
  begun  : Bool
  joinAt : Nat
  evt    : Nat
  pkts   : List (Nat × Nat)
  waits  : List (Nat × Nat)
  /-- Step of the stage's collective; its messages, each with its link, once they have been sent (13 R214, R219). -/
  step   : Nat
  went   : Option (List (Nat × Nat))
  /-- Chunks of the stage that have come so far, and the bytes of them that land. -/
  part   : Tbl (List Byte)
  landed : Nat
  /-- Numbers that the writes under way lie between: those of the new layout, or of held stores. -/
  ids    : Option (Nat × Nat)
  /-- Once its stages are done: held stores sent to other members and not yet applied there (R218). -/
  puts   : Option (List (Nat × Nat))
  deriving DecidableEq, Repr

/-- A request for a conversion that waits at the ridge beyond the queue limit (13 R215). -/
structure PlReq where
  tgt  : Nat
  core : Option (Nat × Bool × Nat)
  load : Option (Nat × Nat)
  pkt  : Option (Nat × Nat)
  deriving DecidableEq, Repr

/-- A held store's piece (13 R218): its place in the whole tensor (of an element, or twice that of an MX block's codes, plus one for its
scale); the storing core, or the peer and message it came with. -/
structure HeldSt where
  place : Nat
  core  : Option Nat
  back  : Option (Nat × Nat)
  bytes : List Byte
  deriving DecidableEq, Repr

/-- A placement-table entry (13 Table 13.2, words 0 to 7) with its conversions (first in progress), requests beyond the
queue limit, and held stores in the order they came (R218). -/
structure PlEnt where
  words : List Word
  convs : List Conv
  later  : List PlReq
  held  : List HeldSt
  deriving DecidableEq, Repr

/-- A slab (10 Table 10.6): its four words; while growing, the semaphore of SLBGR, the core that asked, and its group id, slot and
bundle for a fault entry; a copy stopped by a fault; the numbers its chunk's writes lie between, once they are made (10 R175). -/
structure Slab where
  words : List Word
  sem   : Nat
  core  : Nat
  by_   : Nat × Nat × Nat
  stop  : Bool
  ids   : Option (Nat × Nat)
  deriving DecidableEq, Repr

/-- A route operation in a queue (12 R194): opcode of slot f, core, operands; as its request left the core, the barriers whose phase view
was 1 (09 R443), the group id and the tag of its spanning course. -/
structure ROp where
  op   : Nat
  core : Nat
  t    : Nat
  a    : Nat
  b    : Nat
  tags : List Nat
  gid  : Nat
  sptag : Nat
  deriving DecidableEq, Repr

/-- A route (12 R192, R204). -/
structure Route where
  desc   : List Word
  ready  : Bool
  routed : Bool
  words  : List Word
  counts : List (Nat × Nat)
  queue  : List ROp
  run    : Bool
  /-- VRCNTs that wait behind accepted operations: core, operation, operations still ahead. -/
  reads  : List (Nat × Nat × Nat)
  /-- Result, events and faulting address of the operation that has run and not completed. -/
  res    : Nat × Nat × Nat
  /-- The expert map as that operation read it (R193): IBASE, OBASE, package of each expert; and the inverse map of a VRCMB. -/
  map    : List (Nat × Nat × Nat)
  invs   : List Nat
  /-- Numbers its local writes lie between; messages with rows not yet applied, rows asked and not yet answered, each with the link that
  carries it; and rows answered (R200, R202). -/
  ids    : Nat × Nat
  sent   : List (Nat × Nat)
  asked  : List (Nat × Nat)
  rows   : Tbl (List Byte)
  deriving DecidableEq, Repr

/-- A context. -/
structure Ctx where
  state  : Nat
  spnd   : Bool
  cause  : Nat
  root   : Nat
  priv   : Bool
  save   : Nat
  fqbase : Nat
  qlog   : Nat
  weight : Nat
  /-- Entries begun, and those of them that are not written yet: FQTAIL counts the others (10 R171). -/
  fqtail : Nat
  fqwait : Nat
  fqhead : Nat
  fqres  : Nat
  ents   : List FqEnt
  irqs   : Nat
  ptab   : Tbl PlEnt
  slabs  : Tbl Slab
  routes : Tbl Route
  credit : List Nat
  deriving DecidableEq, Repr

/-- A queue (06 Table 6.1) with its started packets that have not completed (number, group index when it launched one),
the group its last packet launched, the packet read at its head with the record it names (R119, R126), and the cycle a
WAITSEM's test was satisfied (R121). -/
structure Queue where
  miss  : Nat
  state : Nat
  err   : Nat
  size  : Nat
  cls   : Nat
  enqok : Bool
  en    : Bool
  ctx   : Nat
  base  : Nat
  head  : Nat
  tail  : Nat
  out   : List (Nat × Option Nat)
  last  : Option Nat
  pkt   : List Byte
  rec_  : List Byte
  met   : Option Nat
  /-- Vectors of the stamps of doorbells and ENQs, and of completions, that a launch waited on (04 R90). -/
  stampB : List Nat
  stampC : List Nat
  deriving DecidableEq, Repr

/-! ### Objects of the ridge -/

/-- A chain accepted on a transfer channel (18 R321): next link, context, requesting core, packet (queue, number). -/
structure Chain where
  link : Nat
  core : Option Nat
  pkt  : Option (Nat × Nat)
  /-- Its link is being carried out. -/
  on   : Bool
  /-- Words of the link once its writes are made, and the numbers that these lie between. -/
  made : Option (List Word × Nat × Nat)
  deriving DecidableEq, Repr

/-- A transfer channel (18 R320, R324): XFOWN word, STATE, accepted chains, WM, FVA. -/
structure XChan where
  own    : Word
  state  : Nat
  chains : List Chain
  wm     : Nat
  fva    : Nat
  deriving DecidableEq, Repr

/-- An expert slot (10 R176): 0 EMPTY, 1 LOADING, 2 RESIDENT. For its fill: source, requesting core, and its group id, slot and bundle. -/
structure ESlot where
  state   : Nat
  ctx     : Nat
  expert  : Nat
  layer   : Nat
  readers : Nat
  src     : Nat
  core    : Nat
  by_     : Nat × Nat × Nat
  /-- Bytes that have landed, and the numbers the next line's writes lie between, once they are made (10 R177; 21 R382). -/
  filled  : Nat
  ids     : Option (Nat × Nat)
  deriving DecidableEq, Repr

/-- A locked walk-cache entry (10 R168). -/
structure Lock where
  id        : Nat
  xl        : Xl
  readers   : Nat
  withdrawn : Bool
  deriving DecidableEq, Repr

/-- A pointer or leaf in the walk cache (10 R164). -/
structure WCEnt where
  ctx   : Nat
  base  : Nat
  level : Nat
  word  : Word
  deriving DecidableEq, Repr

/-- An invalidation at the ridge (10 R167): the TLBI (core, operation), or none for the host, and the cycle it arrives. -/
structure Inval where
  by_ : Option (Nat × Nat)
  arr : Nat
  ctx : Nat
  va  : Nat
  sz  : InvSize
  /-- The cycle it began, plus 1, once its entries have been removed; 0 before. -/
  began : Nat
  deriving DecidableEq, Repr

/-- A collective step in progress (13 R219). -/
structure Coll where
  id     : Nat
  ctx    : Nat
  desc   : List Word
  addr   : Nat
  step   : Nat
  pkt    : Nat × Nat
  joined : List Nat
  begun  : Bool
  /-- The step has started: its join has been sent. -/
  sent   : Bool
  /-- Its messages, each with its link, once they have been sent; its events; the chunks the collective holds between steps; the bytes it
  lands; and, once it has written, the numbers its writes lie between. -/
  went   : Option (List (Nat × Nat))
  evt    : Nat
  part   : Tbl (List Byte)
  landed : Nat
  ids    : Option (Nat × Nat)
  deriving DecidableEq, Repr

/-- The latest step of a collective descriptor that has completed here (13 R219), and the chunks the collective holds between steps: partial
results, or results as they go on (02 R48, R49; 11 R191). -/
structure CollDone where
  ctx  : Nat
  addr : Nat
  step : Nat
  part : Tbl (List Byte)
  deriving DecidableEq, Repr

/-- A join received from a peer (13 R216): key (TID, or 2^32 + DTAG), rank on the axis, sequence, axis, states. -/
structure Join where
  key  : Nat
  rank : Nat
  seq  : Nat
  axis : Nat
  src  : Nat
  dst  : Nat
  deriving DecidableEq, Repr

/-- The payload of a step received and not yet taken (13 R214, R219): key, sender's rank, sequence, axis and step as they were sent. -/
structure StepIn where
  key   : Nat
  rank  : Nat
  seq   : Nat
  axis  : Nat
  step  : Nat
  bytes : List Byte
  deriving DecidableEq, Repr

/-- A waiter of the semaphore file (09 R157): core, bundle's LCYC, semaphore (sequencer ones offset by 0x1_0000),
threshold; `met` is the cycle in which the test was found satisfied. -/
structure SemW where
  core : Nat
  lcyc : Nat
  sem  : Nat
  thr  : Word
  met  : Option Nat
  deriving DecidableEq, Repr

/-- Ridge objects. -/
structure Ridge where
  sems     : Tbl Word
  semStamp : Tbl Stamp
  claims   : Tbl Nat
  semw     : List SemW
  sc       : Nat
  mons     : List Mon
  xch      : Tbl XChan
  slots    : Tbl ESlot
  exwait   : List (Nat × Nat)
  wcache   : List WCEnt
  locks    : List Lock
  invs     : List Inval
  l2       : Tbl (List (Nat × Nat))
  /-- Central intake: eight queues of piece ids, the die whose turn it is, the piece on each array. -/
  central  : List (List Nat)
  turn     : Nat
  arrays   : List (Option Nat)
  eaves    : List (List Nat)
  eaveRun  : List (Option Nat)
  pieces   : Tbl Piece
  colls    : List Coll
  done     : List CollDone
  joins    : List Join
  steps    : List StepIn
  arrFenced  : List Nat
  eaveFenced : List Nat
  pcFenced   : List Nat
  hopFenced  : List Nat
  /-- Uncorrectable errors of each pseudo-channel (index, cycle). -/
  pcErrs   : List (Nat × Nat)
  /-- Residuals of compressed collectives (11 R191): address, FP32 bits. -/
  resid    : Tbl Nat
  /-- Messages of peers some of whose lines have not been applied: peer, number, lines left (12 R200). -/
  landing  : List (Nat × Nat × Nat)
  /-- Accesses that wait at a home; banks and pseudo-channels by number (`pointOf`). -/
  asks     : List Ask
  points   : Tbl Point
  deriving DecidableEq, Repr

/-! ### Links (11) -/

/-- A flit as it is queued, sent and held for replay. KIND as in Table 11.3; `msg` numbers the message it is of, and its last flit has
what the message says. -/
structure Flit where
  vc    : Nat
  kind  : Nat
  seq   : Nat
  peer  : Nat
  gid   : Nat
  len   : Nat
  bytes : List Byte
  msg   : Nat
  telling  : PeerMsg
  deriving DecidableEq, Repr

/-- A message that a link has received and its agent has not taken yet (R183, 08 R147): the cycle it reaches the agent, its sender, VC
and group. -/
structure Inbound where
  due   : Nat
  peer  : Nat
  vc    : Nat
  gid   : Nat
  telling  : PeerMsg
  bytes : List Byte
  deriving DecidableEq, Repr

/-- Sequence state toward one peer (R183, R184, R186). `seen`: a flit with a SEQ has been accepted since training. -/
structure PeerSt where
  txSeq  : Nat
  rxSeq  : Nat
  seen   : Bool
  naked  : Bool
  credit : List Nat
  /-- Credits to give back, by VC. -/
  owed   : List Nat
  deriving DecidableEq, Repr

/-- A link: `LNKST`, its slot table, its buffers. `slot` is (index, opening tick, guard over, payload bytes used). -/
structure Link where
  state    : Nat
  back     : Nat
  replays  : Nat
  mismatch : Nat
  peer     : Nat
  nwl      : Nat
  loss     : Nat
  tlock    : Bool
  sltctl   : Word
  sltbase  : Word
  table    : Tbl (Word × Word)
  peers    : Tbl PeerSt
  queue    : List Flit
  /-- Flits of messages on their way over the eave ring, with the cycle they reach the link (R190, 01 R14). -/
  coming   : List (Nat × Flit)
  replay   : List (Flit × Nat × Nat)
  /-- Flits to send again: peer and SEQ, in order. -/
  resend   : List (Nat × Nat)
  assembly : Tbl (List Byte)
  inbox    : List Inbound
  /-- The 256 bytes of the flit sent last, and the beats sent since training (R181). -/
  wire     : List Byte
  beats    : Nat
  slot     : Option (Nat × Nat × Bool × Nat)
  wrongId  : Bool
  /-- Writes it carried that no close marker has followed (R185): VC, peer, agent, epoch. -/
  carried  : List (Nat × Nat × Nat × Nat)
  /-- Cycle from which the next flit may be sent. -/
  free     : Nat
  deriving DecidableEq, Repr

/-! ### Device registers (30) -/

/-- Registers of the device block that no other structure holds. -/
structure Regs where
  bootState : Nat
  bootCause : Nat
  bootCtr   : Nat
  buffer    : Mem
  image     : List Byte
  ctxtab    : Nat
  cmdCtx    : Nat
  cmdBusy   : Bool
  cmdStatus : Nat
  pkrank    : Nat
  meshcfg   : Word
  tkcfg     : Word
  l2qt      : Word
  excfg     : Word
  gstale    : Nat
  pkgtel    : Word
  agecfg    : Word
  lost      : Nat
  ce        : Nat
  errTail   : Nat
  errHead   : Nat
  /-- Of the last records found: the cycle, and TAIL and LOST before them (29 R421). -/
  errFrom   : Nat × Nat × Nat
  /-- Those records in their order, without SEQ. -/
  errBatch  : List (List Word)
  errlog    : Tbl (List Word)
  rettab    : List Nat
  invBusy   : Bool
  resumeDone : Nat
  lrte      : Tbl Word
  agest     : Tbl Word
  ageWait   : Tbl Nat
  errIrqs   : Nat
  spdm      : Bool
  spdmOut   : List (List Byte)
  /-- Data the host has read, newest first. -/
  reads     : List (List Byte)
  deriving DecidableEq, Repr

/-! ### The package -/

/-- A deadline launch whose requests are outstanding (06 R124): its queue, and the cores and sequencers that were free as it asked and
that others may still take. -/
structure Keep where
  queue : Nat
  cores : List Nat
  seqs  : List Nat
  deriving DecidableEq, Repr

/-- Whose word is issued next: none, or slot `k` of core `c`. -/
inductive Phase where
  | idle
  | slot (c k : Nat)
  deriving DecidableEq, Repr

/-- The state of one package. `now` counts cycles; `agenda` is what is due, in order; `inputs` is what the outside will do
next (30 R426); `nextId` numbers operations, writes and packets; `freeCtr` counts free values taken. -/
structure State where
  now     : Nat
  ftick   : Nat
  tfrac   : Nat
  thold   : Nat
  tadj    : Int
  tlast   : Nat
  phase   : Phase
  agenda  : List (Nat × Instr)
  inputs  : List Instr
  nextId  : Nat
  freeCtr : Nat
  powered : Bool
  lasers  : List Bool
  cores   : Tbl Core
  fenced  : List Nat
  dies    : Tbl Die
  agents  : Tbl Agent
  stamps  : Tbl Stamp
  flights : List Write
  ctxs    : Tbl Ctx
  queues  : Tbl Queue
  classPtr : List Nat
  /-- The pointer of a class stands on a context that it has started for (06 R123). -/
  classOn : List Bool
  nextStart : Nat
  keep    : Option Keep
  grps    : Tbl Grp
  ridge   : Ridge
  links   : Tbl Link
  regs    : Regs
  mem     : Mem
  deriving DecidableEq, Repr

/-! ### Reset -/

/-- A descriptor at launch (18 R307): 1 row, 32 columns, FP32, unbound. -/
def resetShape : Word × Word := (Shape.reset.word, 0)

/-- A core after reset (14 R229, 30 R430). Registers the spec gives no reset value for are zero (DESIGN CHOICE, log 5). -/
def Core.reset (c : Nat) : Core :=
  { x := Vector.replicate 64 0, p := Vector.replicate 16 false, o := Vector.replicate 16 0,
    stride := Vector.replicate 96 0, h := [], shapes := [], trf := [], lines := [], acc := [],
    gid := 0, lcyc := 0, dsel := 0, csel := 0, fela := 0, fels := 0, felPos := none, numv := false, rbnd := 0x0400,
    clayer := 0, nlayer := 0, fmtb := 0, seed := BitVec.ofNat 32 0x9E3779B9 ^^^ BitVec.ofNat 32 c,
    ld := Vector.replicate 8 1, halo := 0, dom := [0, 0, 0, 0], flags := 0, mcopr := 0, fl := 0, fmtTab := [],
    pend := [], skid := [], bctx := BCtx.fresh, decided := [], early := none,
    exited := false, trig := false, frozen := false, cause := 0, lastCause := 0, spec := none, specFull := none,
    group := none, lastCtx := none, issued := 0, hold := none, writers := [], readers := [], memq := [], jobs := [], mma := [], pipeV := [],
    pipeQ := [], ports := [], landed := (0, [0, 0, 0, 0]), trfAt := 0, monfull := false, l1 := [], utlb := [], chans := [], bP := [], bA := [], arvAt := none, waitT := none }

/-- Eighteen zero epochs (04 R82). -/
def zeroVec : List Nat := List.replicate 18 0

/-- An agent at cold start (04 R82). -/
def Agent.reset : Agent := ⟨0, zeroVec, [], [], [], [], []⟩

/-- A die at cold start. -/
def Die.reset : Die := ⟨[], [], [], 0, 0, 0, [], (0, [])⟩

/-- A FREE context (05 Table 5.2). -/
def Ctx.reset : Ctx := ⟨0, false, 0, 0, false, 0, 0, 0, 0, 0, 0, 0, 0, [], 0, [], [], [], [0, 0, 0, 0]⟩

/-- A queue at reset (06 Table 6.1): CLASS 2, everything else 0. -/
def Queue.reset : Queue := ⟨0, 0, 0, 0, 2, false, false, 0, 0, 0, 0, [], none, [], [], none, [], []⟩

/-- A FREE group index (08 Table 8.2). -/
def Grp.reset : Grp := ⟨8, 0, 0, 0, 0, 0, 0, [0, 0, 0, 0], 0, none, []⟩

/-- A transfer channel at reset (18 R320). -/
def XChan.reset : XChan := ⟨0, 0, [], 0, 0⟩

/-- An EMPTY expert slot (10 R176). -/
def ESlot.reset : ESlot := ⟨0, 0, 0, 0, 0, 0, 0, (0, 0, 0), 0, none⟩

/-- A route in FREE (12 R192). -/
def Route.reset : Route := ⟨[], false, false, [0, 0, 0, 0, 0, 0], [], [], false, [], (0, 0, 0), [], [], (0, 0), [], [], []⟩

/-- An unused placement entry (13 R211). -/
def PlEnt.reset : PlEnt := ⟨[0, 0, 0, 0, 0, 0, 0, 0], [], [], []⟩

/-- A FREE slab (10 Table 10.6). -/
def Slab.reset : Slab := ⟨[0, 0, 0, 0], 0, 0, (0, 0, 0), false, none⟩

/-- A DARK link (11 Table 11.2). -/
def Link.reset : Link :=
  { state := 0, back := 0, replays := 0, mismatch := 0, peer := 0, nwl := 0, loss := 0, tlock := false, sltctl := 0, sltbase := 0,
    table := [], peers := [], queue := [], coming := [], replay := [], resend := [], assembly := [], inbox := [], wire := [], beats := 0,
    slot := none, wrongId := false, carried := [], free := 0 }

/-- A slot-table entry at reset (11 Table 11.5): VCM 0xFF, DUR 10,000, GUARD 600. -/
def resetSlot : Word × Word := (0x00FF_0000_0000_2710, 0x0258_0000_0000_0000)

/-- The ridge at reset. -/
def Ridge.reset : Ridge :=
  { sems := [], semStamp := [], claims := [], semw := [], sc := 0, mons := [], xch := [], slots := [], exwait := [],
    wcache := [], locks := [], invs := [], l2 := [], central := List.replicate 8 [], turn := 0,
    arrays := List.replicate 4 none, eaves := List.replicate 8 [], eaveRun := List.replicate 8 none, pieces := [],
    colls := [], done := [], joins := [], steps := [], arrFenced := [], eaveFenced := [], pcFenced := [], hopFenced := [],
    pcErrs := [], resid := [], landing := [], asks := [], points := [] }

/-- Word of `AGEST` at reset: GUARD and MARG from fuses (29 Table 29.4). -/
def resetAge : Word := BitVec.ofNat 64 (Config.fuseGuard * 2 ^ 32 + Config.fuseMarg * 2 ^ 24)

/-- Device registers at cold start (30 Tables 30.2 to 30.5; 10 Table 10.3; 13 Table 13.1; 29 Table 29.5). -/
def Regs.reset : Regs :=
  { bootState := 0, bootCause := 0, bootCtr := Config.fuseCtr, buffer := [], image := [], ctxtab := 0, cmdCtx := 0,
    cmdBusy := false, cmdStatus := 0, pkrank := 0, meshcfg := 0x001E_0000_0000_0000, tkcfg := 0x40,
    l2qt := 0xC0300C0300, excfg := 0x15, gstale := 0, pkgtel := 0, agecfg := 0x0000_0000_040A_0E10,
    lost := 0, ce := 0, errTail := 0, errHead := 0, errFrom := (0, 0, 0), errBatch := [], errlog := [], rettab := [], invBusy := false, resumeDone := 0,
    lrte := [], agest := [], ageWait := [], errIrqs := 0, spdm := false, spdmOut := [], reads := [] }

/-- The package right after cold start (30 R430 step 1): `BOOTST.STATE` is WAITFW, nothing runs, memory lists nothing. -/
def State.reset : State :=
  { now := 0, ftick := 0, tfrac := 0, thold := 0, tadj := 0, tlast := 0, phase := .idle, agenda := [], inputs := [],
    nextId := 1, freeCtr := 0, powered := true, lasers := [true, true, true, true], cores := [], fenced := [],
    dies := [], agents := [], stamps := [], flights := [], ctxs := [], queues := [], classPtr := [0, 0, 0, 0],
    classOn := [false, false, false, false],
    nextStart := 0, keep := none, grps := [], ridge := Ridge.reset, links := [], regs := Regs.reset, mem := [] }

end Sys2Proof.Machine
end

