-- ==== Sys2Proof/Machine/Flags.lean ====
section
/-! DEFINITION. The first-event log of a core: event codes, summary bits, and how an event enters (02 R51 to R54; 14 R249). -/

namespace Sys2Proof.Machine
open Sys2Proof.Bits

/-- Event codes of 14 Table 14.15 that no arithmetic raises. -/
def codePWBND : Nat := 0x08
def codeDSLOT : Nat := 0x09
def codeBRCONF : Nat := 0x0A
def codeWWCONF : Nat := 0x0B
def codeMONFULL : Nat := 0x0C
def codeSPECFULL : Nat := 0x10
def codeIDZ : Nat := 0x11

/-- Summary bit of an event code (14 Table 14.15). -/
def sumBit (code : Nat) : Nat := if 1 ≤ code ∧ code ≤ 0x0C then 2 ^ (code - 1) else 2 ^ 15

/-- Address field of `FELA`: bundle address in [51:5], slot in [2:0] (02 Table 2.8). -/
def felaWord (addr slot : Nat) : Word := BitVec.ofNat 64 (addr / 32 % 2 ^ 47 * 32 + slot % 8)

/-- Events enter the log (02 R53): summary bits are set; the first event is recorded when none is held or when it is
earlier in issue order than the held one. `mask` 0 is no event. -/
def Core.log (k : Core) (pos addr : Nat) (mask code : Nat) : Core :=
  if mask = 0 then k else
    let sum := k.fels ||| BitVec.ofNat 64 (mask % 2 ^ 16)
    let earlier := match k.felPos with
      | some q => decide (pos < q)
      | none => false
    if !bit k.fels 24 || earlier then
      { k with fels := put (put sum 24 24 1) 23 16 code, fela := felaWord addr (pos % 8), felPos := some pos }
    else { k with fels := sum }

/-- One event by code. -/
def Core.logCode (k : Core) (pos addr code : Nat) : Core := k.log pos addr (sumBit code) code

/-- Several codes of one instruction, the first listed being the one recorded. -/
def Core.logCodes (k : Core) (pos addr : Nat) (codes : List Nat) : Core :=
  match codes with
  | [] => k
  | c :: _ => k.log pos addr (codes.foldl (fun m d => m ||| sumBit d) 0) c

/-- A write of ones to clear, to `FELS` (02 Table 2.9): SUM bits; V, which clears CODE and `FELA` too. -/
def Core.clearFels (k : Core) (v : Word) : Core :=
  let f := k.fels &&& ~~~(v &&& 0xFFFF)
  if bit v 24 then { k with fels := put (put f 24 24 0) 23 16 0, fela := 0, felPos := none } else { k with fels := f }

end Sys2Proof.Machine
end

