-- ==== Sys2Proof/Machine/Access.lean ====
section
/-! DEFINITION. Parts of the package by number, the agenda, group ids, and reading and writing the registers of a core. -/

namespace Sys2Proof.Machine
open Sys2Proof.Bits

/-! ### Parts of the package -/

/-- Core `c`. -/
def State.core (s : State) (c : Nat) : Core := Tbl.getD s.cores c (Core.reset c)
/-- Core `c` replaced. -/
def State.setCore (s : State) (c : Nat) (k : Core) : State := { s with cores := Tbl.set s.cores c k }
/-- Core `c` changed. -/
def State.updCore (s : State) (c : Nat) (f : Core → Core) : State := s.setCore c (f (s.core c))
/-- Rafter die `d`. -/
def State.die (s : State) (d : Nat) : Die := Tbl.getD s.dies d Die.reset
/-- Die `d` changed. -/
def State.updDie (s : State) (d : Nat) (f : Die → Die) : State := { s with dies := Tbl.set s.dies d (f (s.die d)) }
/-- Agent `a` (04 Table 4.1). -/
def State.agent (s : State) (a : Nat) : Agent := Tbl.getD s.agents a Agent.reset
/-- Agent `a` changed. -/
def State.updAgent (s : State) (a : Nat) (f : Agent → Agent) : State :=
  { s with agents := Tbl.set s.agents a (f (s.agent a)) }
/-- Context `c`. -/
def State.ctx (s : State) (c : Nat) : Ctx := Tbl.getD s.ctxs c Ctx.reset
/-- Context `c` changed. -/
def State.updCtx (s : State) (c : Nat) (f : Ctx → Ctx) : State := { s with ctxs := Tbl.set s.ctxs c (f (s.ctx c)) }
/-- Queue `q`. -/
def State.queue (s : State) (q : Nat) : Queue := Tbl.getD s.queues q Queue.reset
/-- Queue `q` changed. -/
def State.updQueue (s : State) (q : Nat) (f : Queue → Queue) : State :=
  { s with queues := Tbl.set s.queues q (f (s.queue q)) }
/-- Group index `g`. -/
def State.grp (s : State) (g : Nat) : Grp := Tbl.getD s.grps g Grp.reset
/-- Group index `g` changed. -/
def State.updGrp (s : State) (g : Nat) (f : Grp → Grp) : State := { s with grps := Tbl.set s.grps g (f (s.grp g)) }
/-- What group `g` runs, changed. -/
def State.updRun (s : State) (g : Nat) (f : Run → Run) : State := s.updGrp g fun x => { x with run := x.run.map f }
/-- Link `l`. -/
def State.link (s : State) (l : Nat) : Link := Tbl.getD s.links l Link.reset
/-- Link `l` changed. -/
def State.updLink (s : State) (l : Nat) (f : Link → Link) : State := { s with links := Tbl.set s.links l (f (s.link l)) }
/-- The ridge changed. -/
def State.updRidge (s : State) (f : Ridge → Ridge) : State := { s with ridge := f s.ridge }
/-- The registers changed. -/
def State.updRegs (s : State) (f : Regs → Regs) : State := { s with regs := f s.regs }
/-- Transfer channel `c`. -/
def State.xch (s : State) (c : Nat) : XChan := Tbl.getD s.ridge.xch c XChan.reset
/-- Transfer channel `c` changed. -/
def State.updXch (s : State) (c : Nat) (f : XChan → XChan) : State :=
  s.updRidge fun r => { r with xch := Tbl.set r.xch c (f (Tbl.getD r.xch c XChan.reset)) }
/-- Expert slot `n`. -/
def State.eslot (s : State) (n : Nat) : ESlot := Tbl.getD s.ridge.slots n ESlot.reset
/-- Expert slot `n` changed. -/
def State.updEslot (s : State) (n : Nat) (f : ESlot → ESlot) : State :=
  s.updRidge fun r => { r with slots := Tbl.set r.slots n (f (Tbl.getD r.slots n ESlot.reset)) }
/-- Route `r` of context `c`. -/
def State.route (s : State) (c r : Nat) : Route := Tbl.getD (s.ctx c).routes r Route.reset
/-- A route changed. -/
def State.updRoute (s : State) (c r : Nat) (f : Route → Route) : State :=
  s.updCtx c fun x => { x with routes := Tbl.set x.routes r (f (Tbl.getD x.routes r Route.reset)) }
/-- Placement entry `e` of context `c`. -/
def State.plent (s : State) (c e : Nat) : PlEnt := Tbl.getD (s.ctx c).ptab e PlEnt.reset
/-- A placement entry changed. -/
def State.updPlent (s : State) (c e : Nat) (f : PlEnt → PlEnt) : State :=
  s.updCtx c fun x => { x with ptab := Tbl.set x.ptab e (f (Tbl.getD x.ptab e PlEnt.reset)) }
/-- Slab `k` of context `c`. -/
def State.slab (s : State) (c k : Nat) : Slab := Tbl.getD (s.ctx c).slabs k Slab.reset
/-- A slab changed. -/
def State.updSlab (s : State) (c k : Nat) (f : Slab → Slab) : State :=
  s.updCtx c fun x => { x with slabs := Tbl.set x.slabs k (f (Tbl.getD x.slabs k Slab.reset)) }

/-- Word `i` of a list of words, zero past its end. -/
def wnth (l : List Word) (i : Nat) : Word := l.getD i 0
/-- Word `i` of a list of words set. -/
def wset (l : List Word) (i : Nat) (v : Word) : List Word := l.set i v

/-- A new number for an operation, a write or a packet. -/
def State.bump (s : State) : State := { s with nextId := s.nextId + 1 }

/-- The next free value (log 4). -/
def State.takeFree (s : State) : Word × State := (Config.freeWord s.freeCtr, { s with freeCtr := s.freeCtr + 1 })

/-! ### The agenda -/

/-- Order of the events of one cycle: data and markers, then completions, then requests in ascending core index
(16 R275, 21 R367, 06 R125), then what the ridge and the front end do after them, then broadcast and issue, then channel
landings (21 R372). -/
def evRank : Instr → Nat
  | .writeApply _ _ => 0
  | .closeMarker _ _ _ => 1
  | .applyAcknowledgement _ _ => 2
  | .walkStart _ _ _ | .walkComplete _ _ _ => 3
  | .park _ => 4
  | .pipeStart c _ => 10 + c.val
  | .loadPerformed c _ _ | .storePerformed c _ _ => 100 + c.val
  | .loadLanding c _ | .tzeroFill c _ | .chcfgEntryArrival c _ => 200 + c.val
  | .kstepComplete c _ => 300 + c.val
  | .shadowSwap c => 400 + c.val
  | .mmaComplete c _ | .matrixOutputComplete c _ | .vectorComplete c _ => 500 + c.val
  | .placement c => 650 + c.val
  | .pieceComplete _ => 700
  | .pieceStart p => if p.val = 0 then 701 else 3295
  | .shadowReplay c => 750 + c.val
  | .channelCredit _ _ c _ => 800 + c.val
  | .monitorReread c => 100 + c.val
  | .monitorWake c => 900 + c.val
  | .releaseComplete c _ => 1000 + c.val
  | .remoteFlagChange _ c _ _ _ _ _ => 1100 + c.val
  | .bdclArrival _ c _ _ => 3228 + c.val
  | .barrierArrival _ c _ _ | .barrierLanding _ _ c _ _ _ => 1300 + c.val
  | .completionNotice _ _ b => 1400 + b.val
  | .semaphoreOperation c _ => 1500 + c.val
  | .semaphoreTest c => 1600 + c.val
  | .replyArrival c _ | .dispenserGrant c _ | .tsthAtEave c _ => 1700 + c.val
  | .invalidationBegin | .invalidationComplete => 1800
  | .routeOperationRun _ _ | .routeOperationComplete _ _ _ => 1801
  | .frontEndStart => 1900
  | .sequencerBroadcast g => 2000 + g.val
  | .exposedResultDue c => 3100 + 2 * c.val
  | .bundleIssue c => 3101 + 2 * c.val
  | .channelLanding _ _ c _ _ _ _ _ => 3300 + c
  | _ => 1850

/-- Insertion by due cycle, then rank, then age. -/
def insertDue (t : Nat) (i : Instr) : List (Nat × Instr) → List (Nat × Instr)
  | [] => [(t, i)]
  | (u, j) :: rest =>
    if u < t ∨ (u = t ∧ evRank j ≤ evRank i) then (u, j) :: insertDue t i rest else (t, i) :: (u, j) :: rest

/-- Event `i` is due at cycle `t`. -/
def State.sched (s : State) (t : Nat) (i : Instr) : State := { s with agenda := insertDue t i s.agenda }
/-- Event `i` is due `d` cycles from now. -/
def State.after (s : State) (d : Nat) (i : Instr) : State := s.sched (s.now + d) i
/-- The cycle by which every close marker of a rafter die that is on its way has arrived: what an agent reads for a request that follows a release
is read no earlier (04 R83; 12 R195; 21 R367). The host port's count while a write to host memory is on its way. -/
def State.settleAt (s : State) : Nat :=
  let host := s.flights.any fun w => w.home == 17
  s.agenda.foldl (fun u e => match e.2 with
    | .closeMarker h g _ => if 8 ≤ g.val ∨ (h = 17 ∧ host = false) then u else max u e.1
    | _ => u) s.now
/-- Event `i` is due `d` cycles from now, or when the markers on their way have arrived. -/
def State.settled (s : State) (d : Nat) (i : Instr) : State :=
  let t := max (s.now + d) s.settleAt
  if s.agenda.contains (t, i) then s else s.sched t i
/-- Event `i` is due now unless it is already due. -/
def State.soon (s : State) (i : Instr) : State := if s.agenda.contains (s.now, i) then s else s.sched s.now i

/-- Numbers reduced into the index types of the events. -/
def fin64 (n : Nat) : Fin 64 := ⟨n % 64, Nat.mod_lt _ (by decide)⟩
def fin48 (n : Nat) : Fin 48 := ⟨n % 48, Nat.mod_lt _ (by decide)⟩
def fin256 (n : Nat) : Fin 256 := ⟨n % 256, Nat.mod_lt _ (by decide)⟩
def fin1024 (n : Nat) : Fin 1024 := ⟨n % 1024, Nat.mod_lt _ (by decide)⟩
def fin4096 (n : Nat) : Fin 4096 := ⟨n % 4096, Nat.mod_lt _ (by decide)⟩
def fin18 (n : Nat) : Fin 18 := ⟨n % 18, Nat.mod_lt _ (by decide)⟩
def fin8 (n : Nat) : Fin 8 := ⟨n % 8, Nat.mod_lt _ (by decide)⟩
def fin10 (n : Nat) : Fin 10 := ⟨n % 10, Nat.mod_lt _ (by decide)⟩
def fin21 (n : Nat) : Fin 21 := ⟨n % 21, Nat.mod_lt _ (by decide)⟩
def fin32 (n : Nat) : Fin 32 := ⟨n % 32, Nat.mod_lt _ (by decide)⟩

/-- Cycles of a time in ns: ⌈ns × 1.5⌉ (22 R386). -/
def nsToCy (ns : Nat) : Nat := (3 * ns + 1) / 2

/-! ### Groups and domains -/

/-- `GID`[15:0] of group index `g` (08 Table 8.1). -/
def State.gid16 (s : State) (g : Nat) : BitVec 16 := BitVec.ofNat 16 ((s.grp g).gen % 64 * 1024 + g % 1024)
/-- The index a 16-bit group id names when its generation is the current one. -/
def State.ofGid (s : State) (gid : BitVec 16) : Option Nat :=
  let g := gid.toNat % 1024
  if (s.grp g).gen % 64 = gid.toNat / 1024 then some g else none
/-- The group of core `c`. -/
def State.grpOf (s : State) (c : Nat) : Option Nat := (s.core c).group
/-- What the group of core `c` runs. -/
def State.runOf (s : State) (c : Nat) : Option Run := (s.grpOf c).bind fun g => (s.grp g).run
/-- The context of core `c`. -/
def State.ctxOf (s : State) (c : Nat) : Nat := ((s.runOf c).map (·.ctx)).getD 0
/-- Position of a value in a list. -/
def indexIn (c : Nat) : List Nat → Option Nat
  | [] => none
  | d :: l => if c = d then some 0 else (indexIn c l).map (· + 1)
/-- `DOM2`.RANK of core `c` (14 R229). -/
def State.rankOf (s : State) (c : Nat) : Nat := ((s.runOf c).bind fun r => indexIn c r.members).getD 0
/-- Members of the group of core `c`, in allocation order. -/
def State.membersOf (s : State) (c : Nat) : List Nat := ((s.runOf c).map (·.members)).getD [c]

/-! ### Registers -/

/-- Scalar register, `x0` reading as zero (14 R228). -/
def Core.rx (k : Core) (r : XReg) : Word := if r.val = 0 then 0 else k.x.get r
/-- Scalar register by number. -/
def Core.rxn (k : Core) (n : Nat) : Word := k.rx (fin64 n)
/-- Offset register. -/
def Core.ro (k : Core) (r : OReg) : Word := k.o.get r
/-- The loop stack the bundle being issued runs under, innermost first (14 R268). -/
def Core.stack (k : Core) : List LoopL := ((k.skid.head?).map (·.stack)).getD []
/-- Predicate register of core `c` (14 R228, 16 R268). -/
def Core.rp (k : Core) (c : Nat) (r : PReg) : Bool :=
  match r.val with
  | 0 => true
  | 12 => match k.stack with
    | l :: _ => decide (l.index = 0)
    | [] => false
  | 13 => match k.stack with
    | l :: _ => decide (l.index + 1 = l.count)
    | [] => false
  | 14 => k.dsel / 2 ^ (c / 8) % 2 = 1
  | 15 => k.csel / 2 ^ (c % 8) % 2 = 1
  | _ => k.p.get r
/-- The predicate as it reads under another loop stack. -/
def Core.rpUnder (k : Core) (c : Nat) (stack : List LoopL) (r : PReg) : Bool := match r.val with
  | 12 => (stack.head?).any fun l => decide (l.index = 0)
  | 13 => (stack.head?).any fun l => decide (l.index + 1 = l.count)
  | _ => k.rp c r
/-- The header's condition in core `c` (14 R222). -/
def Core.holds (k : Core) (c : Nat) (h : Hdr) : Bool := k.rp c h.pr != h.pn

/-- Context number bits of a special register read, 64 bits each (14 Table 14.4). Unassigned numbers read as zero here;
they are illegal encodings (R230). -/
def Core.rspr (k : Core) (c n : Nat) : Word :=
  match n with
  | 0x000 => BitVec.ofNat 64 (c / 8 % 8)
  | 0x001 => BitVec.ofNat 64 (c % 8)
  | 0x002 => BitVec.ofNat 64 k.gid
  | 0x003 => BitVec.ofNat 64 k.lcyc
  | 0x004 => BitVec.ofNat 64 k.dsel
  | 0x005 => BitVec.ofNat 64 k.csel
  | 0x008 => k.fela
  | 0x009 => k.fels
  | 0x00A => BitVec.ofNat 64 k.numv.toNat
  | 0x00B => BitVec.ofNat 64 k.rbnd
  | 0x00C => BitVec.ofNat 64 k.clayer
  | 0x00D => BitVec.ofNat 64 k.nlayer
  | 0x00E => BitVec.ofNat 64 k.fmtb
  | 0x00F => k.seed.zeroExtend 64
  | 0x018 => BitVec.ofNat 64 k.halo
  | 0x01C => wnth k.dom 0
  | 0x01D => wnth k.dom 1
  | 0x01E => wnth k.dom 2
  | 0x01F => wnth k.dom 3
  | 0x020 => k.flags.zeroExtend 64
  | 0x021 => k.mcopr
  | _ => if 0x011 ≤ n ∧ n ≤ 0x017 then BitVec.ofNat 64 (k.ld.toList.getD (n - 0x010) 0) else 0

/-- The effect of MTS on a special register (14 R230; 02 Tables 2.5, 2.9; 03 Table 3.2). RO registers keep their value. -/
def Core.wspr (k : Core) (n : Nat) (v : Word) : Core :=
  match n with
  | 0x004 => { k with dsel := get v 7 0 }
  | 0x005 => { k with csel := get v 7 0 }
  | 0x009 => k.clearFels v
  | 0x00A => { k with numv := bit v 0 }
  | 0x00B => { k with rbnd := get v 15 0 }
  | 0x00C => { k with clayer := get v 15 0 }
  | 0x00D => { k with nlayer := get v 15 0 }
  | 0x00E => { k with fmtb := get v 5 0 }
  | 0x00F => { k with seed := if get v 31 0 = 0 then BitVec.ofNat 32 0x9E3779B9 else BitVec.ofNat 32 (get v 31 0) }
  | 0x018 => { k with halo := get v 15 0 }
  | 0x020 => { k with flags := BitVec.ofNat 32 (get v 31 0) }
  | 0x021 => { k with mcopr := BitVec.ofNat 64 (get v 18 0) }
  | _ =>
    if 0x011 ≤ n ∧ n ≤ 0x017 then
      (if get v 9 0 = 0 then k else { k with ld := k.ld.setIfInBounds (n - 0x010) (get v 9 0) })
    else k

/-- `layer_step` (16 R271). -/
def Core.layerStep (k : Core) : Core := { k with clayer := (k.clayer + 1) % max k.nlayer 1 }

/-- Words of handle `h` (17 Table 17.3). -/
def Core.hwords (k : Core) (h : Nat) : List Word := Tbl.getD k.h h (List.replicate 8 0)

/-- A field of a handle by the SEL of HSET and HGET (14 R241, 17 Table 17.3). -/
def hfieldGet (ws : List Word) (sel : Nat) : Word :=
  match sel with
  | 0 => BitVec.ofNat 64 (get (wnth ws 0) 51 0)
  | 1 => BitVec.ofNat 64 (get (wnth ws 1) 31 0)
  | 2 => BitVec.ofNat 64 (get (wnth ws 1) 63 32)
  | 3 => BitVec.ofNat 64 (get (wnth ws 2) 31 0)
  | 4 => BitVec.ofNat 64 (get (wnth ws 2) 63 32)
  | 5 => wnth ws 3
  | 6 => wnth ws 4
  | 7 => wnth ws 5
  | 8 => wnth ws 6
  | 9 => BitVec.ofNat 64 (get (wnth ws 0) 63 56)
  | 10 => BitVec.ofNat 64 (get (wnth ws 7) 10 0)
  | 11 => BitVec.ofNat 64 (get (wnth ws 7) 31 16)
  | 12 => BitVec.ofNat 64 (get (wnth ws 0) 55 52)
  | 13 => BitVec.ofNat 64 (get (wnth ws 7) 63 32)
  | _ => 0

/-- A field of a handle set from the low bits of `v` that fit it (17 R304). -/
def hfieldSet (ws : List Word) (sel : Nat) (v : Word) : List Word :=
  match sel with
  | 0 => wset ws 0 (put (wnth ws 0) 51 0 v.toNat)
  | 1 => wset ws 1 (put (wnth ws 1) 31 0 v.toNat)
  | 2 => wset ws 1 (put (wnth ws 1) 63 32 v.toNat)
  | 3 => wset ws 2 (put (wnth ws 2) 31 0 v.toNat)
  | 4 => wset ws 2 (put (wnth ws 2) 63 32 v.toNat)
  | 5 => wset ws 3 v
  | 6 => wset ws 4 v
  | 7 => wset ws 5 v
  | 8 => wset ws 6 v
  | 9 => wset ws 0 (put (wnth ws 0) 63 56 v.toNat)
  | 10 => wset ws 7 (put (wnth ws 7) 10 0 v.toNat)
  | 11 => wset ws 7 (put (wnth ws 7) 31 16 v.toNat)
  | 12 => wset ws 0 (put (wnth ws 0) 55 52 v.toNat)
  | 13 => wset ws 7 (put (wnth ws 7) 63 32 v.toNat)
  | _ => ws

/-- Stride of `o_i` at level `l` (17 R301). -/
def Core.strideOf (k : Core) (i l : Nat) : Word := k.stride.toList.getD (6 * i + l) 0

/-- The stride sums of a list of (level, factor) added to every offset register (16 R266, R267). -/
def Core.applyAdj (k : Core) (adj : List (Nat × Int)) : Core :=
  { k with o := k.o.mapFinIdx fun i v _ => adj.foldl (fun a e => a + ofInt (sgn (k.strideOf i e.1) * e.2)) v }

/-- A pending write takes effect (14 R231). Writes to `x0`, `p0` and `p12` to `p15` are discarded (R228). -/
def Core.apply (k : Core) : PWrite → Core
  | .x r v => if r = 0 then k else { k with x := k.x.setIfInBounds r v }
  | .p r v => if r = 0 ∨ 12 ≤ r then k else { k with p := k.p.setIfInBounds r v }
  | .o r v => { k with o := k.o.setIfInBounds r v }
  | .spr n v => k.wspr n v
  | .hnd h sel v => { k with h := Tbl.set k.h h (hfieldSet (k.hwords h) sel v) }
  | .hcopy h ws => { k with h := Tbl.set k.h h ws }
  | .ver h v =>
    let ws := k.hwords h
    { k with h := Tbl.set k.h h (wset ws 7 (put (wnth ws 7) 63 32 v)) }
  | .shape t w0 w1 => { k with shapes := Tbl.set k.shapes t (w0, w1) }
  | .stride o l v => { k with stride := k.stride.setIfInBounds (6 * o + l) v }
  | .fl l => { k with fl := l }
  | .flag f b => { k with flags := if b then k.flags ||| BitVec.ofNat 32 (2 ^ f) else k.flags &&& ~~~BitVec.ofNat 32 (2 ^ f) }
  | .layer => k.layerStep
  | .ntile v ok =>
    { k with x := (k.x.setIfInBounds 61 (k.rxn 60)).setIfInBounds 60 v, p := k.p.setIfInBounds 11 ok }
  | .land _ => k
  | .full op => { k with lines := k.lines.filter fun e => e.2.op != some op, writers := k.writers.filter fun w => w.2 != op }

end Sys2Proof.Machine
end

