-- ==== Sys2Proof/Machine/Operands.lean ====
section
/-! DEFINITION. Operand forms: tiles and their lines, the addresses of line, halo, handle and gather accesses, matrix
operands, and what a vector instruction names (18 R307 to R317; 19 R327, R330; 20 R346 to R356). -/

namespace Sys2Proof.Machine
open Sys2Proof.Bits

/-! ### Tiles -/

/-- Both words of a tile's shape descriptor (18 R307). -/
def Core.desc (k : Core) (t : Nat) : Word × Word := Tbl.getD k.shapes t resetShape
/-- A tile's shape. -/
def Core.shape (k : Core) (t : Nat) : Shape := shapeOf (k.desc t).1
/-- The handle a tile is bound to (18 Table 18.2). -/
def Core.boundTo (k : Core) (t : Nat) : Option Nat :=
  if bit (k.desc t).2 63 then some (get (k.desc t).2 5 0) else none
/-- Lines 0 to n - 1 of tile t: a tile has 256 lines in the TRF. -/
def Core.tileImg (k : Core) (t n : Nat) : List Byte := k.trf.read (t * 32768) (128 * n)
/-- Number of line `n` of tile `t`. -/
def lineNo (t n : Nat) : Nat := t * 256 + n
/-- Entries of the lines that are not full, among `n` lines of `t` from `first`. -/
def Core.notFull (k : Core) (t first n : Nat) : List (Nat × LineSt) :=
  k.lines.filter fun e => decide (lineNo t first ≤ e.1 ∧ e.1 < lineNo t first + n)
/-- Some line awaits a landing of code 1 to 7 at a later LCYC (14 R237). -/
def Core.awaits (k : Core) (t first n : Nat) : Bool :=
  (k.notFull t first n).any fun e => match e.2.land with
    | some l => decide (k.lcyc < l)
    | none => false
/-- Some line is empty (cause 1). -/
def Core.hasEmpty (k : Core) (t first n : Nat) : Bool := !(k.notFull t first n).isEmpty
/-- A tile or an accumulator (128 + acc) has a pending writer, or is still being read (14 R234, 19 R336): cause 2. -/
def Core.busyDest (k : Core) (target : Nat) : Bool :=
  k.writers.any (fun w => w.1 == target) || k.readers.any (fun w => w.1 == target)
/-- Lines become empty, awaiting a landing or an operation. -/
def Core.emptyLines (k : Core) (t first n : Nat) (land op : Option Nat) : Core :=
  { k with lines := (List.range n).foldl (fun l i => Tbl.set l (lineNo t (first + i)) ⟨land, op⟩) k.lines }
/-- Lines are written and become full. -/
def Core.fillLines (k : Core) (t first : Nat) (img : List Byte) : Core :=
  let n := ceilDiv img.length 128
  { k with trf := k.trf.write (t * 32768 + 128 * first) img,
           lines := k.lines.filter fun e => !decide (lineNo t first ≤ e.1 ∧ e.1 < lineNo t first + n) }

/-! ### Addresses -/

/-- xBase + oOff (18 R310). -/
def Core.addr (k : Core) (xB : XReg) (oO : OReg) : Nat := (k.rx xB + k.ro oO).toNat
/-- The address with bits [6:0] cleared. -/
def alignLine (a : Nat) : Nat := a / 128 * 128

/-- A load line not yet started. -/
def loadLine (va : Nat) : LineAcc := ⟨va, 0, 0, 0, .idle, [], [], [], 0, false⟩
/-- A store line of whole bytes. -/
def storeLine (va : Nat) (bs : List Byte) : LineAcc := ⟨va, 0, 0, 0, .idle, padTo 128 bs, List.replicate 128 true, [], 0, false⟩

/-- `n` consecutive lines from `a` to the image. -/
def seqLines (a n : Nat) : List LineAcc × List Chunk :=
  ((List.range n).map fun i => loadLine (a + 128 * i), (List.range n).map fun i => ⟨i, 0, 128 * i, 128⟩)

/-- A piece of an access: virtual address, place in the image, bytes. -/
abbrev Bit3 := Nat × Nat × Nat

/-- Pieces cut at line boundaries; addresses wrap at 64 bits. -/
def cutLines : Nat → Bit3 → List Bit3
  | 0, _ => []
  | f + 1, (va, dst, len) =>
    if len = 0 then [] else
      let room := 128 - va % 128
      if len ≤ room then [(va, dst, len)] else (va, dst, room) :: cutLines f ((va + room) % 2 ^ 64, dst + room, len - room)

/-- Insertion into a rising list without repeats. -/
def insertNat (n : Nat) : List Nat → List Nat
  | [] => [n]
  | m :: l => if n < m then n :: m :: l else if n = m then m :: l else m :: insertNat n l

/-- Lines (rising) and chunks of a list of pieces. -/
def gather (ps : List Bit3) : List LineAcc × List Chunk :=
  let cut := ps.flatMap fun p => cutLines (p.2.2 / 128 + 2) p
  let vas := cut.foldl (fun l p => insertNat (alignLine p.1) l) []
  (vas.map loadLine, cut.map fun p => ⟨(indexIn (alignLine p.1) vas).getD 0, p.1 % 128, p.2.1, p.2.2⟩)

/-- Bytes laid over a line at an offset, with their mask. -/
def layOver (l : LineAcc) (off : Nat) (bs : List Byte) : LineAcc :=
  { l with data := splice (padTo 128 l.data) off bs,
           mask := (List.range 128).map fun i => l.mask.getD i false || decide (off ≤ i ∧ i < off + bs.length) }

/-- Store lines of a list of (address, bytes), in order; later bytes replace earlier ones. Lines rise. -/
def scatter (ws : List (Nat × List Byte)) : List LineAcc :=
  let cut := ws.flatMap fun w => (cutLines (w.2.length / 128 + 2) (w.1, 0, w.2.length)).map fun p =>
    (p.1, (w.2.drop p.2.1).take p.2.2)
  let vas := cut.foldl (fun l p => insertNat (alignLine p.1) l) []
  vas.map fun va => cut.foldl (fun l p => if alignLine p.1 = va then layOver l (p.1 % 128) p.2 else l)
    ⟨va, 0, 0, 0, .idle, List.replicate 128 0, List.replicate 128 false, [], 0, false⟩

/-! ### Handles -/

/-- The offset group OG read as element indices (18 R314). -/
def Core.offGroup (k : Core) (g : Nat) : List Int := (List.range 4).map fun d => sgn (k.o.toList.getD (4 * g + d) 0)

/-- A handle's fields. -/
def hBase (ws : List Word) : Nat := get (wnth ws 0) 51 0
def hFmt (ws : List Word) : Nat := get (wnth ws 0) 63 56
def hHint (ws : List Word) : Nat := get (wnth ws 0) 55 52
def hPV (ws : List Word) : Bool := bit (wnth ws 7) 10
def hPle (ws : List Word) : Nat := get (wnth ws 7) 9 0
def hDemand (ws : List Word) : Nat := get (wnth ws 7) 31 16
def hVer (ws : List Word) : Nat := get (wnth ws 7) 63 32
/-- max(EXT_d, 1). -/
def hExt (ws : List Word) (d : Nat) : Nat := max (hfieldGet ws (1 + d)).toNat 1
/-- STR_d. -/
def hStr (ws : List Word) (d : Nat) : Int := sgn (hfieldGet ws (5 + d))

/-- The element indices of (r, c), none when OUT (18 R314). -/
def walkIdx (ws : List Word) (offs : List Int) (r c : Nat) : Option (List Nat) :=
  let i : List Int := [offs.getD 0 0, offs.getD 1 0, offs.getD 2 0 + r, offs.getD 3 0 + c]
  if (List.range 4).any fun d => decide (i.getD d 0 < 0 ∨ (hExt ws d : Int) ≤ i.getD d 0) then none
  else some (i.map Int.toNat)

/-- The row address of indices i0, i1, i2. -/
def rowVa (ws : List Word) (base : Nat) (i : List Nat) : Int :=
  (base : Int) + i.getD 0 0 * hStr ws 0 + i.getD 1 0 * hStr ws 1 + i.getD 2 0 * hStr ws 2

/-- walk() for a non-MX format (18 R314). -/
def walkVa (ws : List Word) (base : Nat) (offs : List Int) (r c : Nat) : Option Nat :=
  (walkIdx ws offs r c).map fun i => (ofInt (rowVa ws base i + i.getD 3 0 * hStr ws 3)).toNat

/-- Code and scale addresses of the block that holds (r, c) of an MX handle, with its first column's index. -/
def walkBlock (ws : List Word) (base w : Nat) (offs : List Int) (r c : Nat) : Option (Nat × Nat × Nat) :=
  (walkIdx ws offs r c).map fun i =>
    let i3 := i.getD 3 0
    let sb := (base : Int) + (hExt ws 0 : Int) * hStr ws 0
    ((ofInt (rowVa ws base i + i3 / 32 * (4 * w : Nat))).toNat,
     (ofInt (sb + (((i.getD 0 0 * hExt ws 1 + i.getD 1 0) * hExt ws 2 + i.getD 2 0) * ceilDiv (hExt ws 3) 32 + i3 / 32 : Nat))).toNat,
     i3)

/-- What a load through a handle reads: the image before it (zeros; 127 in scale bytes of blocks wholly OUT), the pieces,
and the bits that stay of partly OUT bytes (18 R315). -/
def hLoad (s : Shape) (ws : List Word) (base : Nat) (offs : List Int) : List Byte × List Bit3 × List (Nat × Byte) :=
  let n := 128 * s.lines
  match fmtOf s.fmt with
  | some (.mx w) =>
    let rows := List.range s.rows
    let blocks := List.range s.blocks
    let cells := rows.flatMap fun r => blocks.map fun b => (r, b, walkBlock ws base w offs r (32 * b))
    let scaleAt := fun (r b : Nat) => 128 * (s.rows * s.pitch) + r * s.blocks + b
    let fill := cells.foldl (fun img c => match c.2.2 with
      | none => splice img (scaleAt c.1 c.2.1) [127]
      | some _ => img) (List.replicate n 0)
    let valid := fun (i3 b : Nat) => min (min 32 (hExt ws 3 - i3)) (s.cols - 32 * b)
    let ps := cells.flatMap fun c => match c.2.2 with
      | none => []
      | some (code, scale, i3) =>
        [(code, 128 * (c.1 * s.pitch) + 4 * w * c.2.1, ceilDiv (w * valid i3 c.2.1) 8), (scale, scaleAt c.1 c.2.1, 1)]
    let keep := cells.flatMap fun c => match c.2.2 with
      | none => []
      | some (_, _, i3) =>
        let bits := w * valid i3 c.2.1
        if bits % 8 = 0 then []
        else [(128 * (c.1 * s.pitch) + 4 * w * c.2.1 + bits / 8, BitVec.ofNat 8 (2 ^ (bits % 8) - 1))]
    (fill, ps, keep)
  | some f =>
    let e := f.bits / 8
    let ps := (List.range s.rows).flatMap fun r => (List.range s.cols).flatMap fun c => match walkVa ws base offs r c with
      | none => []
      | some va => [(va, 128 * (r * s.pitch) + e * c, e)]
    (List.replicate n 0, ps, [])
  | none => (List.replicate n 0, [], [])

/-- What a store through a handle writes: (address, bytes) of every element or block that is not OUT (18 R315). -/
def hStore (s : Shape) (img : List Byte) (ws : List Word) (base : Nat) (offs : List Int) : List (Nat × List Byte) :=
  match fmtOf s.fmt with
  | some (.mx w) =>
    (List.range s.rows).flatMap fun r => (List.range s.blocks).flatMap fun b => match walkBlock ws base w offs r (32 * b) with
      | none => []
      | some (code, scale, i3) =>
        let bits := w * min (min 32 (hExt ws 3 - i3)) (s.cols - 32 * b)
        let raw := numAt img (128 * (r * s.pitch) + 4 * w * b) (4 * w) % 2 ^ bits
        [(code, natLE (4 * w) raw), (scale, slice img (128 * (s.rows * s.pitch) + r * s.blocks + b) 1)]
  | some f =>
    let e := f.bits / 8
    (List.range s.rows).flatMap fun r => (List.range s.cols).flatMap fun c => match walkVa ws base offs r c with
      | none => []
      | some va => [(va, slice img (128 * (r * s.pitch) + e * c) e)]
  | none => []

/-- The virtual address of the first element in row-major order that is not OUT, or the base (13 R216). -/
def hFirst (s : Shape) (ws : List Word) (base : Nat) (offs : List Int) : Nat :=
  let all := (List.range s.rows).flatMap fun r => (List.range s.cols).filterMap fun c => match fmtOf s.fmt with
    | some (.mx w) => (walkBlock ws base w offs r c).map (·.1)
    | _ => walkVa ws base offs r c
  all.headD base

/-- A handle used at an issue. -/
def Core.enf (k : Core) (h og : Nat) (s : Shape) (check : Bool) : Enf := ⟨h, k.hwords h, k.offGroup og, s, check⟩

/-- Every handle of the operation changed. -/
def PlKind.mapEnf (f : Enf → Enf) : PlKind → PlKind
  | .mma acc z a b fa fb p v => .mma acc z { a with hnd := a.hnd.map f } { b with hnd := b.hnd.map f } fa fb p v
  | .vec op i td tb hd ha hb hp x => .vec op i td tb (hd.map f) (ha.map f) (hb.map f) (hp.map f) x
  | .mout acc rm sat rs e => .mout acc rm sat rs (f e)
  | .mrd img e => .mrd img (f e)
  | .mfeed acc e => .mfeed acc (f e)

/-- Version writes an operation owes handles that `p` names are overruled: such a handle is 64 from then on (17 R305, for a placed
operand too: DEDUCED, log 20). -/
def MemOp.mute (p : Nat → Bool) (o : MemOp) : MemOp :=
  let f := fun (e : Enf) => if p e.h then { e with h := 64 } else e
  match o.kind with
  | .load t fill keep (some e) => { o with kind := .load t fill keep (some (f e)) }
  | .placed k => { o with kind := .placed (k.mapEnf f) }
  | _ => o

/-- An operation of an undone region owes no register: its versions and its scalar result are discarded (16 R278). -/
def MemOp.undone (o : MemOp) : MemOp :=
  let q := o.mute fun _ => true
  match q.kind with
  | .placed (.vec op i td tb hd ha hb hp _) => { q with kind := .placed (.vec op i td tb hd ha hb hp none) }
  | _ => q

/-- Traps of a handle access with a tile of shape `s` (18 R309, R314): unassigned or differing formats, then shape, then an
MX offset that is not a multiple of 32. -/
def handleTrap (s : Shape) (ws : List Word) (offs : List Int) : Option Nat :=
  if s.trap = some trFMTOP ∨ hFmt ws ≠ s.fmt then some trFMTOP
  else if s.trap.isSome then some trSHAPE
  else if (fmtOf s.fmt).any Fmt.isMx ∧ offs.getD 3 0 % 32 ≠ 0 then some trSHAPE
  else none

/-! ### Matrix operands -/

/-- A handle operand's shape: rows max(EXT2, 1), columns max(EXT3, 1) (19 R327). -/
def hShape (ws : List Word) (fmt : Nat) : Shape := ⟨hExt ws 2, hExt ws 3, fmt⟩

/-- FMT of the table entry an MMA uses (19 R330). -/
def Core.fmtEntry (k : Core) (fs : Bool) : Word :=
  let idx := match k.stack.reverse[k.fl]? with
    | some l => l.index
    | none => 0
  Tbl.getD k.fmtTab ((k.fmtb + idx + 32 * fs.toNat) % 64) 0

/-- Channel `c` of a core (21 R369); none when unconfigured. -/
def Core.chan (k : Core) (c : Nat) : Option Chan := (Tbl.get k.chans c).bind fun x => if x.conf then some x else none
/-- The state of the ring slot the consumer pointer names: state, shape word, sender. -/
def Chan.cur (x : Chan) : Nat × Word × Nat := x.slots.getD x.cp (0, 0, 0)

/-- Rows, columns and format an operand names (19 R327). -/
def Core.mopShape (k : Core) : MOp → Shape
  | .tile t => k.shape t.val
  | .chan c => match k.chan c.val with
    | some x => shapeOf x.cur.2.1
    | none => ⟨1, 1, 0⟩
  | .hnd h => hShape (k.hwords h.val) (hFmt (k.hwords h.val))
/-- The handle an operand names, or that its tile is bound to. -/
def Core.mopHandle (k : Core) : MOp → Option Nat
  | .tile t => k.boundTo t.val
  | .chan _ => none
  | .hnd h => some h.val

/-! ### Vector operands -/

/-- What a vector instruction names. -/
structure VecI where
  op : VOp
  d  : Nat
  a  : Nat
  b  : Nat
  x  : Option Nat

/-- A vector instruction read in a core: its operation with the scalars it takes at the start of the bundle. -/
def Core.vecOf (k : Core) : Instr → Option VecI
  | .vadd _ d a b => some ⟨.add, d.val, a.val, b.val, none⟩
  | .vsub _ d a b => some ⟨.sub, d.val, a.val, b.val, none⟩
  | .vmul _ d a b => some ⟨.mul, d.val, a.val, b.val, none⟩
  | .vfma _ d a b => some ⟨.fma, d.val, a.val, b.val, none⟩
  | .vmax _ d a b => some ⟨.max, d.val, a.val, b.val, none⟩
  | .vmin _ d a b => some ⟨.min, d.val, a.val, b.val, none⟩
  | .vabs _ d a => some ⟨.abs, d.val, a.val, 0, none⟩
  | .vneg _ d a => some ⟨.neg, d.val, a.val, 0, none⟩
  | .vrcp _ d a r t => some ⟨.rcp r t, d.val, a.val, 0, none⟩
  | .vrsq _ d a r t => some ⟨.rsq r t, d.val, a.val, 0, none⟩
  | .vsqrt _ d a r t => some ⟨.sqrt r t, d.val, a.val, 0, none⟩
  | .vexp2 _ d a r t => some ⟨.exp2 r t, d.val, a.val, 0, none⟩
  | .vlog2 _ d a r t => some ⟨.log2 r t, d.val, a.val, 0, none⟩
  | .vcvt _ d a r t => some ⟨.cvt r t, d.val, a.val, 0, none⟩
  | .vand _ d a b => some ⟨.and, d.val, a.val, b.val, none⟩
  | .vor _ d a b => some ⟨.or, d.val, a.val, b.val, none⟩
  | .vxor _ d a b => some ⟨.xor, d.val, a.val, b.val, none⟩
  | .vshl _ d a x => some ⟨.shl (k.rx x).toNat, d.val, a.val, 0, none⟩
  | .vshr _ d a x => some ⟨.shr (k.rx x).toNat, d.val, a.val, 0, none⟩
  | .vcmp _ d a b => some ⟨.cmp, d.val, a.val, b.val, none⟩
  | .vsel _ d a b => some ⟨.sel, d.val, a.val, b.val, none⟩
  | .vmov _ d a => some ⟨.mov, d.val, a.val, 0, none⟩
  | .vopx _ d a fn => some ⟨.opx fn, d.val, a.val, 0, none⟩
  | .vbc _ d a => some ⟨.bc, d.val, a.val, 0, none⟩
  | .vrred _ d a r t o => some ⟨.rred r t o, d.val, a.val, 0, none⟩
  | .vcred _ d a r t o => some ⟨.cred r t o, d.val, a.val, 0, none⟩
  | .vxs _ x a i => some ⟨.xs (k.rx i).toNat, 0, a.val, 0, some x.val⟩
  | .vins _ d x i => some ⟨.ins (k.rx x) (k.rx i).toNat, d.val, 0, 0, none⟩
  | .viota _ d x => some ⟨.iota (sgn (k.rx x)), d.val, 0, 0, none⟩
  | .vperm _ d a b => some ⟨.perm, d.val, a.val, b.val, none⟩
  | .vscan _ d a r t o => some ⟨.scan r t o, d.val, a.val, 0, none⟩
  | .vpart _ d a n => some ⟨.part (n.val + 1), d.val, a.val, 0, none⟩
  | .vclmp _ d a b => some ⟨.clmp, d.val, a.val, b.val, none⟩
  | .vtrn _ d a => some ⟨.trn, d.val, a.val, 0, none⟩
  | .qthr _ d a => some ⟨.thr, d.val, a.val, 0, none⟩
  | .qbis _ d n => some ⟨.bis (n.val + 1), d.val, 0, 0, none⟩
  | .qsel _ d a b => some ⟨.qsel, d.val, a.val, b.val, none⟩
  | .qscl _ d a r t => some ⟨.scl r t, d.val, a.val, 0, none⟩
  | .qnt _ d a r t => some ⟨.qnt r t, d.val, a.val, 0, none⟩
  | .qdq _ d a => some ⟨.qdq, d.val, a.val, 0, none⟩
  | .qef _ d a b => some ⟨.qef, d.val, a.val, b.val, none⟩
  | _ => none

/-- Operations that always run at CORE (03 R56; 20 R360). -/
def VOp.atCore : VOp → Bool
  | .bis _ => true
  | .qsel => true
  | .part _ => true
  | .scan _ _ _ => true
  | _ => false

/-- Tiles read by a vector instruction. -/
def VecI.reads (v : VecI) (d a : Shape) : List Nat :=
  (if v.op.usesA then [v.a] else []) ++ (if v.op.usesB then [v.b] else []) ++ (if v.op.readsD then [v.d] else []) ++
    (if v.op.usesPartner d a then [v.a + 1] else [])
/-- Tiles written. -/
def VecI.writes (v : VecI) : List Nat := (if v.op.writesD then [v.d] else []) ++ (if v.op.writesB then [v.b] else [])
/-- Tiles named. -/
def VecI.named (v : VecI) (d a : Shape) : List Nat := v.reads d a ++ v.writes
/-- The instruction names a bound tile (03 R55). -/
def Core.vecPlaced (k : Core) (v : VecI) : Bool :=
  (v.named (k.shape v.d) (k.shape v.a)).any fun t => (k.boundTo t).isSome

end Sys2Proof.Machine
end

