-- ==== Sys2Proof/Machine/Send.lean ====
section
/-! DEFINITION. Messages to peer packages: the eave ring to the link that carries them, their flits, and the close markers of the
writes a link carried (01 R14; 11 R182, R184, R185, R190; 22 R395). -/

namespace Sys2Proof.Machine
open Sys2Proof.Bits

/-- Hops of the eave ring between units `a` and `b` (01 R14). -/
def hops (a b : Nat) : Nat := min ((b + 8 - a) % 8) ((a + 8 - b) % 8)

/-- The hops (of unit h to h+1) that traffic from unit `a` to unit `b` crosses: the shorter way, ascending at distance 4. -/
def hopsOn (a b : Nat) : List Nat :=
  let up := (b + 8 - a) % 8
  if up ≤ 4 then (List.range up).map fun i => (a + i) % 8
  else (List.range (8 - up)).map fun i => (a + 7 - i) % 8

/-- Eave unit that owns a link, and the gable it lies on (11; 01 R13: eave unit s has a port to gable ⌊s/2⌋). -/
def ownerOf (l : Nat) : Nat := l / 6
def gableOf (l : Nat) : Nat := ownerOf l / 2

/-- Eave unit at which an agent's fabric traffic enters the ring for a link (01 R13, R14): a rafter's own, the unit itself, and
for the ridge the owner of the link, through the rafter beside it. -/
def ringUnit (g l : Nat) : Nat := if g < 8 then g else if g < 16 then g - 8 else ownerOf l

/-- Ring hops between an agent and a link (22 R395). -/
def linkHops (g l : Nat) : List Nat := hopsOn (ringUnit g l) (ownerOf l)

/-- A link that can carry messages: UP, DEGRADED or REPLAY (11 R178). -/
def State.linkUsable (s : State) (l : Nat) : Bool :=
  let t := (s.link l).state
  t == 2 || t == 3 || t == 4

/-- The link that serves package `p`: the primary of `LRTE`, else its alternate (11 R190). -/
def State.linkTo (s : State) (p : Nat) : Option Nat :=
  let e := Tbl.getD s.regs.lrte p 0
  if bit e 6 && s.linkUsable (get e 5 0) then some (get e 5 0)
  else if bit e 14 && s.linkUsable (get e 13 8) then some (get e 13 8)
  else none

/-- The link that serves package `p` for agent `g`: none either when a ring hop to it is fenced (10 Table 10.5, cause 6). -/
def State.linkFor (s : State) (g p : Nat) : Option Nat :=
  (s.linkTo p).filter fun l => !(linkHops g l).any fun h => s.ridge.hopFenced.contains h

/-- Payload bytes of a flit. -/
def flitBytes : Nat := 232

/-- Flits of a message; an empty one is one flit (11 R182; 22 R395). The last has what it says. -/
def flitsOf (vc peer gid msg : Nat) (telling : PeerMsg) : Nat → List Byte → List Flit
  | 0, _ => []
  | n + 1, bs =>
    if n = 0 then [⟨vc, 2, 0, peer, gid, bs.length, bs, msg, telling⟩]
    else ⟨vc, 1, 0, peer, gid, flitBytes, bs.take flitBytes, msg, .nothing⟩ :: flitsOf vc peer gid msg telling n (bs.drop flitBytes)

/-- A message of agent `g` for link `l`: its flits reach the link after 18 cycles a ring hop (22 R395, Table 22.3), behind those on
their way before them. -/
def State.queueOn (s : State) (g l vc peer gid : Nat) (bs : List Byte) (telling : PeerMsg) : State :=
  let t := s.now + 18 * (linkHops g l).length
  let fs := (flitsOf vc peer gid s.nextId telling (max 1 (ceilDiv bs.length flitBytes)) bs).map fun f => (t, f)
  (s.bump.updLink l fun k => { k with coming := k.coming ++ fs }).sched t (.flitSend (fin48 l))

/-- Writes a message carries are followed by a marker on its path (11 R185). -/
def Link.carries (k : Link) (vc peer : Nat) : PeerMsg → Link
  | .write g e _ _ _ _ _ _ _ => { k with carried := if k.carried.contains (vc, peer, g, e) then k.carried else (vc, peer, g, e) :: k.carried }
  | .held g e _ _ _ _ _ _ => { k with carried := if k.carried.contains (vc, peer, g, e) then k.carried else (vc, peer, g, e) :: k.carried }
  | _ => k

/-- A message of agent `g` to package `p`: its number, or none when no link is usable (11 R190). -/
def State.sendPeer (s : State) (g vc p gid : Nat) (bs : List Byte) (telling : PeerMsg) : State × Option Nat :=
  match s.linkFor g p with
  | none => (s, none)
  | some l => ((s.queueOn g l vc p gid bs telling).updLink l fun k => k.carries vc p telling, some s.nextId)

/-- The same message to several packages; packages without a usable link get none. -/
def State.sendPeers (s : State) (g vc gid : Nat) (bs : List Byte) (telling : PeerMsg) (ps : List Nat) : State :=
  ps.foldl (fun (s : State) p => (s.sendPeer g vc p gid bs telling).1) s

/-- A message has been acknowledged: no link holds a flit of it (11 R183; 13 R219). -/
def State.acked (s : State) (m : Nat) : Bool :=
  s.links.all fun e => !(e.2.queue.any (·.msg == m) || e.2.coming.any (·.2.msg == m) || e.2.replay.any (·.1.msg == m))

/-- Markers an agent has sent to a package, for a write that follows them (04 R91). -/
def Agent.needs (x : Agent) (p : Nat) : List (Nat × Nat) := (x.marked.filter fun m => m.1 == p).map (·.2)

/-- Close markers of agent `g`'s epoch `e` on every path that carried its writes, behind them (11 R185). A marker names
agent, epoch and path; the package it goes to is the one the writes went to. -/
def State.markPaths (s : State) (g e : Nat) : State :=
  (List.range 48).foldl (fun (s : State) l =>
    let k := s.link l
    let mine := k.carried.filter fun w => w.2.2.1 == g && w.2.2.2 == e
    if mine.isEmpty then s else
      let s1 := s.updLink l fun k => { k with carried := k.carried.filter fun w => !(w.2.2.1 == g && w.2.2.2 == e) }
      mine.foldl (fun (s : State) w =>
        (s.queueOn g l w.1 w.2.1 0xFFFF [] (.close g e (8 * l + w.1))).updAgent g fun a => { a with marked := a.marked ++ [(w.2.1, e, 8 * l + w.1)] }) s1) s

/-- Links that hold messages for a group try again to deliver them (08 R147). -/
def State.pokeInbox (s : State) : State :=
  s.links.foldl (fun (s : State) e => if e.2.inbox.isEmpty then s else s.soon (.flitSend (fin48 e.1))) s

end Sys2Proof.Machine
end

