-- ==== Sys2Proof/Machine/Memory.lean ====
section
/-! DEFINITION. Addresses and homes (01), pages (10), the write-combining buffers, epochs, stamps and homes (04), the L1
and the L2: what one line access does at each of its steps. -/

namespace Sys2Proof.Machine
open Sys2Proof.Bits

/-! ### Places

A byte of storage is named by a key: HBM by its linear address, the chip scratchpad and host memory by their physical
addresses, core scratchpads from `scrBase` on (0x80_0000 a core). -/

/-- End of the linear aperture (01 Table 1.5). -/
def hbmTop : Nat := 0x80_0000_0000
/-- Chip scratchpad. -/
def chipBase : Nat := 0x100_0000_0000
/-- Keys of core scratchpads (the model's own numbering). -/
def scrBase : Nat := 0x300_0000_0000
/-- Host memory. -/
def hostBase : Nat := 0x8000_0000_0000
/-- First address that is never translated (01 R20). -/
def winBase : Nat := 0xF_FFFF_0000_0000

/-- Key of byte `off` of the scratchpad of core `c`. -/
def scrKey (c off : Nat) : Nat := scrBase + c * 0x80_0000 + off
/-- Key of cluster offset `off` of die `d` (01 R18). -/
def clusterKey (d off : Nat) : Nat :=
  scrKey (8 * d + off / 2 ^ 12 % 8) (0x40_0000 + off / 2 ^ 15 % 2 ^ 9 * 2 ^ 12 + off % 2 ^ 12)
/-- Core whose scratchpad holds a key. -/
def scrCore (key : Nat) : Nat := (key - scrBase) / 0x80_0000 % 64
/-- The key lies in a core scratchpad. -/
def isScr (key : Nat) : Bool := decide (scrBase ≤ key ∧ key < hostBase)

/-- Key and home agent of a physical address (01 R22 to R24; 04 Table 4.1); none for reserved and register ranges. -/
def resolvePA (pa : Nat) : Option (Nat × Nat) :=
  if pa < hbmTop then some (pa, 8 + pa / 2 ^ 36)
  else if pa < 2 * hbmTop then
    let u := pa - hbmTop
    some (u / 2 ^ 12 % 8 * 2 ^ 36 + u / 2 ^ 15 % 2 ^ 24 * 2 ^ 12 + u % 2 ^ 12, 16)
  else if chipBase ≤ pa ∧ pa < chipBase + 0x800_0000 then some (pa, 16)
  else if 0x101_0000_0000 ≤ pa ∧ pa < 0x101_0800_0000 then
    let d := pa / 2 ^ 24 % 8
    some (clusterKey d (pa % 2 ^ 24), d)
  else if hostBase ≤ pa ∧ pa < 2 * hostBase then some (pa, 17)
  else none

/-- Key and home of a window address for a core, or for an agent working for a packet (01 R20, R21, R441). -/
def windowPlace (core : Option Nat) (va : Nat) : Option (Nat × Nat) :=
  if 0xF_FFFF_C000_0000 ≤ va ∧ va < 0xF_FFFF_C800_0000 then some (chipBase + (va - 0xF_FFFF_C000_0000), 16)
  else match core with
    | none => none
    | some c =>
      if 0xF_FFFF_E000_0000 ≤ va ∧ va < 0xF_FFFF_E100_0000 then
        some (clusterKey (c / 8) (va - 0xF_FFFF_E000_0000), c / 8)
      else if 0xF_FFFF_F000_0000 ≤ va ∧ va < 0xF_FFFF_F060_0000 then
        some (scrKey c (va - 0xF_FFFF_F000_0000), c / 8)
      else none

/-- One-way latency of the legs between two agents (22 Table 22.3; 880 toward host memory makes Table 22.2's 1,800). -/
def legs (a b : Nat) : Nat :=
  if a = b then 0
  else if a = 17 then (if b < 8 then 70 else if b < 16 then 90 else 30)
  else if b = 17 then 880
  else if a < 8 then (if b < 8 then 80 else if b < 16 then 20 + 18 * hops a (b - 8) else 40)
  else if a < 16 then (if b < 8 then 20 + 18 * hops b (a - 8) else if b < 16 then 18 * hops (a - 8) (b - 8) else 60)
  else if b < 8 then 40 else if b < 16 then 60 else 0

/-! ### Page tables -/

/-- The 64-bit word at a key. -/
def State.word (s : State) (key : Nat) : Word := leWord (s.mem.read key 8)

/-- Index shift of a level, and bytes its leaf maps (10 Table 10.1). -/
def lvlShift : Nat → Nat
  | 0 => 16
  | 1 => 21
  | 2 => 30
  | _ => 39
/-- Entries of a level. -/
def lvlEntries : Nat → Nat
  | 0 => 32
  | 1 => 512
  | 2 => 512
  | _ => 8192

/-- Affinity the frame at a physical address must carry (01 R25); none when the frame is malformed. -/
def frameAff (pa : Nat) : Option Nat :=
  if pa < hbmTop then some (pa / 2 ^ 36)
  else if pa < 2 * hbmTop then some 8
  else if chipBase ≤ pa ∧ pa < chipBase + 0x800_0000 then some 10
  else if 0x101_0000_0000 ≤ pa ∧ pa < 0x101_0800_0000 then some 10
  else if hostBase ≤ pa ∧ pa < 2 * hostBase then some 9
  else none

/-- What a table entry is (10 R163). -/
inductive Pte where
  | leaf
  | ptr (pa : Nat)
  | bad (cause : Nat)
  deriving DecidableEq, Repr

/-- Physical address field of an entry. -/
def pteAddr (w : Word) : Nat := get w 47 12 * 2 ^ 12

/-- Check of an entry at a level (10 R163, Table 10.2). -/
def pteKind (level : Nat) (w : Word) : Pte :=
  if !bit w 0 then .bad 1
  else if get w 56 48 ≠ 0 ∨ get w 11 5 ≠ 0 then .bad 3
  else if bit w 1 then
    if level = 3 then .bad 3
    else if pteAddr w % 2 ^ lvlShift level ≠ 0 then .bad 3
    else match frameAff (pteAddr w) with
      | some a => if get w 61 58 = a then .leaf else .bad 3
      | none => .bad 3
  else if level = 0 ∨ get w 63 57 ≠ 0 ∨ get w 4 2 ≠ 0 then .bad 3
  else .ptr (pteAddr w)

/-- Outcome of a walk. -/
inductive WalkRes where
  | leaf (level : Nat) (pte : Word)
  | fault (cause : Nat)
  /-- A table is unreadable (10 R166). -/
  | dead
  deriving DecidableEq, Repr

/-- Number of the HBM pseudo-channel of a key: stack × 32 + pseudo-channel (22 R389, 29 Table 29.2). -/
def pchOf (key : Nat) : Nat := key / 2 ^ 36 * 32 + key / 2 ^ 7 % 32

/-- Causes 4 and 5: a retired frame, a fenced pseudo-channel (29 R418, R420). -/
def State.unitFault (s : State) (key : Nat) : Option Nat :=
  if hbmTop ≤ key then none
  else if s.regs.rettab.contains (key / 2 ^ 16) then some 4
  else if s.ridge.pcFenced.contains (pchOf key) then some 5
  else none

/-- The entry of the table of level `n` at `pa` for an address, with its key and home; none when the table is unreadable: in no backed
range, or where an uncorrectable error has retired or fenced the storage (10 R166; 29 R420). -/
def State.entryAt (s : State) (va n pa : Nat) : Option (Word × Nat × Nat) :=
  (resolvePA (pa + va / 2 ^ lvlShift n % lvlEntries n * 8)).bind fun p => if (s.unitFault p.1).isSome then none else some (s.word p.1, p)

/-- A walk from the table of level `n - 1` at physical address `pa`, with the pointer entries met (10 R162, R164). -/
def walkFrom (s : State) (va : Nat) : Nat → Nat → List (Nat × Word) → WalkRes × List (Nat × Word)
  | 0, _, tr => (.fault 3, tr)
  | n + 1, pa, tr =>
    match s.entryAt va n pa with
    | none => (.dead, tr)
    | some (w, _, _) =>
      match pteKind n w with
      | .leaf => (.leaf n w, tr)
      | .bad c => (.fault c, tr)
      | .ptr next => walkFrom s va n next (tr ++ [(n, w)])

/-- Cost of reading the entry at a key from die `d` (22 R387). -/
def entryCost (d key home : Nat) : Nat :=
  if home = 17 then 1801
  else if isScr key then (if scrCore key / 8 = d then 29 else 91)
  else if key < hbmTop then (if home = 16 then 261 else 261 + 36 * hops d (home - 8))
  else 91

/-- Cycles until a walk has read its next entry: of level `n - 1`, in the table at `pa`. -/
def State.nextEntry (s : State) (d va : Nat) : Nat → Nat → Nat
  | 0, _ => 1
  | n + 1, pa => match s.entryAt va n pa with
    | none => 1
    | some (_, key, home) => entryCost d key home

/-- The deepest pointer the walk cache holds for an address: where the walk starts (levels left, table address). -/
def State.walkStartAt (s : State) (ctx va : Nat) : Nat × Nat :=
  let hit := fun (n : Nat) => s.ridge.wcache.find? fun e =>
    e.ctx = ctx ∧ e.level = n ∧ e.base = va / 2 ^ lvlShift n * 2 ^ lvlShift n ∧ !bit e.word 1
  match hit 1, hit 2, hit 3 with
  | some e, _, _ => (1, pteAddr e.word)
  | none, some e, _ => (2, pteAddr e.word)
  | none, none, some e => (3, pteAddr e.word)
  | none, none, none => (4, (s.ctx ctx).root)

/-- A walk that starts at a cached pointer makes it the most recently used of the walk cache (10 R164). -/
def State.touchPtr (s : State) (ctx va : Nat) : State :=
  let hit := fun (e : WCEnt) => decide (e.ctx = ctx ∧ e.level = (s.walkStartAt ctx va).1 ∧ e.base = va / 2 ^ lvlShift e.level * 2 ^ lvlShift e.level) && !bit e.word 1
  match s.ridge.wcache.find? hit with
  | some e => s.updRidge fun r => { r with wcache := e :: r.wcache.filter (· ≠ e) }
  | none => s

/-- First address of the page a leaf of a level maps. -/
def pageBase (level va : Nat) : Nat := va / 2 ^ lvlShift level * 2 ^ lvlShift level
/-- A translation covers an address of a context. -/
def Xl.covers (x : Xl) (ctx va : Nat) : Bool := decide (x.ctx = ctx ∧ x.base = pageBase x.level va)

/-- LRU insertion at the front of a list of limited length. -/
def lruPut {α : Type} [DecidableEq α] (n : Nat) (a : α) (l : List α) : List α := (a :: l.filter (· ≠ a)).take n

/-- Outcome of translating one line. -/
inductive Xres where
  | ok (key home : Nat) (pte : Word)
  | fault (cause : Nat)
  | miss
  deriving DecidableEq, Repr

/-- Cause 6: a fenced eave-ring hop between unit `d` and the home (10 Table 10.5). -/
def State.routeFault (s : State) (d home : Nat) : Option Nat :=
  if 8 ≤ home ∧ home < 16 ∧ (hopsOn d (home - 8)).any (fun h => s.ridge.hopFenced.contains h) then some 6 else none

/-- Use of a leaf for an access (10 R163, Table 10.5). -/
def State.useLeaf (s : State) (level : Nat) (pte : Word) (va : Nat) (write fetch : Bool) : Xres :=
  if (write && !bit pte 3) || (!write && !bit pte 2) || (fetch && !bit pte 4) then .fault 2
  else match resolvePA (pteAddr pte + va % 2 ^ lvlShift level) with
    | none => .fault 3
    | some (key, home) => match s.unitFault key with
      | some c => .fault c
      | none => .ok key home pte

/-- Translation of a line for core `c` from its µTLB, whatever its way (10 R164). -/
def State.coreLeaf (s : State) (c ctx va : Nat) (write : Bool) : Xres :=
  if 2 ^ 52 ≤ va then .fault 1
  else if winBase ≤ va then
    match windowPlace (some c) va with
    | some (k, h) => .ok k h 0
    | none => .fault 1
  else match (s.core c).utlb.find? (·.covers ctx va) with
    | none => .miss
    | some x => s.useLeaf x.level x.pte va write false

/-- The same for an access of the core itself, whose way may cross a fenced hop (10 Table 10.5). -/
def State.coreXlate (s : State) (c ctx va : Nat) (write : Bool) : Xres := match s.coreLeaf c ctx va write with
  | .ok k h p => match s.routeFault (c / 8) h with
    | some cause => .fault cause
    | none => .ok k h p
  | r => r

/-- A µTLB hit makes its entry the most recently used (10 R164). -/
def State.touchXl (s : State) (c va : Nat) : State :=
  if winBase ≤ va then s
  else match (s.core c).utlb.find? (·.covers ((s.runOf c).elim 0 (·.ctx)) va) with
    | some x => s.updCore c fun k => { k with utlb := lruPut 64 x k.utlb }
    | none => s

/-- Room for one more locked entry, or one for this page is there already (10 R168). -/
def State.lockRoom (s : State) (e : Xl) : Bool :=
  s.ridge.locks.any (fun l => l.xl == e && !l.withdrawn) || decide (s.ridge.locks.length < 16384)

/-- Walk-cache entries that locked ones leave (10 R164, R168). -/
def Ridge.wcRoom (r : Ridge) : Nat := 65536 - r.locks.length

/-- A leaf enters the walk cache, or a locked entry when it is pinned (10 R164, R168). -/
def State.cacheLeaf (s : State) (e : Xl) : State :=
  if bit e.pte 57 then
    (if s.ridge.locks.any (fun l => l.xl == e && !l.withdrawn) then s
     else s.bump.updRidge fun r => { r with locks := r.locks ++ [⟨s.nextId, e, 0, false⟩], wcache := r.wcache.take (r.wcRoom - 1) })
  else s.updRidge fun r => { r with wcache := lruPut r.wcRoom ⟨e.ctx, e.base, e.level, e.pte⟩ r.wcache }

/-- A translation a structure outside the die holds for a page: a leaf of the walk cache, or a locked entry. -/
def State.ridgeLeaf (s : State) (x va : Nat) : Option Xl :=
  match s.ridge.locks.find? fun l => l.xl.covers x va && !l.withdrawn with
  | some l => some l.xl
  | none => (s.ridge.wcache.find? fun e => e.ctx == x && bit e.word 1 && e.base == pageBase e.level va).map fun e => ⟨e.ctx, e.base, e.level, e.word⟩

/-- The walk cache takes the pointers a walk read (10 R164). -/
def State.cachePtrs (s : State) (ctx va : Nat) (ps : List (Nat × Word)) : State :=
  ps.foldl (fun (s : State) p => s.updRidge fun x =>
    { x with wcache := lruPut x.wcRoom ⟨ctx, va / 2 ^ lvlShift p.1 * 2 ^ lvlShift p.1, p.1, p.2⟩ x.wcache }) s

/-- Translation by an agent of the ridge or an eave unit, for a core or for a packet: the walk cache, else a walk made at
once (10 R164, 01 R441). Cause 0 stands for an unreadable table (R166). -/
def State.agentXlate (s : State) (core : Option Nat) (ctx va : Nat) (write fetch : Bool) : Xres :=
  if 2 ^ 52 ≤ va then .fault 1
  else if winBase ≤ va then
    match windowPlace core va with
    | some (k, h) => .ok k h 0
    | none => .fault 1
  else
    match s.ridgeLeaf ctx va with
    | some e => s.useLeaf e.level e.pte va write fetch
    | none =>
      let st := s.walkStartAt ctx va
      match (walkFrom s va st.1 st.2 []).1 with
      | .leaf l p => if bit p 57 && !s.lockRoom ⟨ctx, pageBase l va, l, p⟩ then .fault 11 else s.useLeaf l p va write fetch
      | .fault c => .fault c
      | .dead => .fault 0

/-- What an agent's translation leaves in the walk cache: the entries its walk read, a pinned leaf locked (10 R164, R168). -/
def State.agentWalk (s : State) (ctx va : Nat) : State :=
  if winBase ≤ va then s
  else match s.ridgeLeaf ctx va with
    | some e => s.cacheLeaf e
    | none =>
      let st := s.walkStartAt ctx va
      let r := walkFrom s va st.1 st.2 []
      let s1 := (s.touchPtr ctx va).cachePtrs ctx va r.2
      match r.1 with
      | .leaf l p =>
        let e : Xl := ⟨ctx, pageBase l va, l, p⟩
        if bit p 57 && !s1.lockRoom e then s1 else s1.cacheLeaf e
      | _ => s1
/-- The locked entry a translation takes (10 R168); 0 for none. -/
def State.lockOf (s : State) (ctx va : Nat) (pte : Word) : Nat :=
  if bit pte 57 then ((s.ridge.locks.find? fun l => l.xl.covers ctx va && l.xl.pte == pte && !l.withdrawn).map (·.id)).getD 0 else 0
/-- The walks an agent makes for the pages of a range. -/
def State.agentWalks (s : State) (ctx va n : Nat) : State :=
  if n = 0 then s
  else (List.range ((va % 65536 + n - 1) / 65536 + 1)).foldl (fun (s : State) i => s.agentWalk ctx (if i = 0 then va else (va / 65536 + i) * 65536)) s

/-! ### Epochs, markers and applied writes -/

/-- Vectors joined entry by entry (04 R84). -/
def vmax (a b : List Nat) : List Nat := (List.range 18).map fun i => max (a.getD i 0) (b.getD i 0)
/-- A vector with entry `g` at least `e`. -/
def vput (a : List Nat) (g e : Nat) : List Nat := (List.range 18).map fun i => if i = g then max (a.getD i 0) e else a.getD i 0
/-- An acquired vector merged with a stamp (04 R84). -/
def vmerge (a : List Nat) (t : Stamp) : List Nat := vput (vmax a t.acq) t.agent t.epoch
/-- Two stamps joined entry by entry (16 R276). -/
def stampMax (a b : Stamp) : Stamp :=
  let v := vmerge (vmerge zeroVec a) b
  { agent := b.agent, epoch := v.getD b.agent 0, acq := v }

/-- The stamp agent `g` gives a write now (04 R82). -/
def State.stampOf (s : State) (g : Nat) : Stamp := ⟨g, (s.agent g).epoch, (s.agent g).acq⟩
/-- Agent `g` merges a stamp. -/
def State.merge (s : State) (g : Nat) (t : Stamp) : State := s.updAgent g fun a => { a with acq := vmerge a.acq t }

/-- A home holds source `(src, g)`'s markers for every epoch below `n`; a rafter die and the host port, whose writes to what is their own are
applied as they are made, always hold their own. -/
def Agent.holds (x : Agent) (home src g n : Nat) : Bool :=
  (src = 0 && g = home && (decide (g < 8) || g = 17)) || decide (n ≤ (Tbl.getD x.closed (src * 18 + g) (0, [])).1)
/-- A home holds the markers of every epoch below a vector (04 R83). -/
def Agent.holdsVec (x : Agent) (home : Nat) (v : List Nat) : Bool :=
  (List.range 18).all fun j => x.holds home 0 j (v.getD j 0)
/-- A marker arrives (04 R83). -/
def Agent.close (x : Agent) (key e : Nat) : Agent :=
  let p := Tbl.getD x.closed key (0, [])
  let rest := if p.1 ≤ e ∧ ¬ p.2.contains e then e :: p.2 else p.2
  let n := (List.range (rest.length + 1)).foldl (fun n _ => if rest.contains n then n + 1 else n) p.1
  { x with closed := Tbl.set x.closed key (n, rest.filter (fun i => decide (n ≤ i))) }

/-- A home holds a peer agent's markers of lower epochs, from every path that carried its writes (04 R91). -/
def Agent.holdsPeer (x : Agent) (w : Write) : Bool :=
  w.needs.all fun n => decide (w.stamp.epoch ≤ n.1) || x.peers.contains (w.src, w.stamp.agent, n.1, n.2)

/-- A write may be applied at its home (04 R83; vectors do not cross packages, R91). -/
def Agent.mayApply (x : Agent) (home : Nat) (w : Write) : Bool :=
  if w.src = 0 then x.holds home 0 w.stamp.agent w.stamp.epoch && x.holdsVec home w.stamp.acq else x.holdsPeer w

/-- First byte of the line of a key. -/
def lineOf (key : Nat) : Nat := key / 128 * 128

/-- Monitors on a line wake (09 R158). -/
def State.wake (s : State) (key : Nat) : State :=
  let hit := fun (m : Mon) => m.key = lineOf key
  let ms := s.ridge.mons.filter hit ++ ((List.range 8).map fun d => (s.die d).mons.filter hit).flatten
  ms.foldl (fun s m => s.soon (.monitorWake (fin64 m.core))) s

/-- Bytes that have been applied count toward a barrier (09 R443). -/
def State.landWrite (s : State) (w : Write) : State := match w.land with
  | some (peer, gid, core, b, tag) =>
    s.after 0 (.barrierLanding peer (BitVec.ofNat 16 gid) (fin64 core) (fin64 b) tag (w.bytes.filter (·.1)).length)
  | none => s

/-- A line of a peer's message has been applied; with the last of them the message is answered on VC4 (12 R200). -/
def State.landBack (s : State) (w : Write) : State := match w.back.bind fun b => s.ridge.landing.find? fun e => e.1 == b.1 && e.2.1 == b.2 with
  | none => s
  | some e =>
    let rest := s.ridge.landing.filter (· != e)
    if e.2.2 ≤ 1 then ((s.updRidge fun r => { r with landing := rest }).sendPeer w.home 4 e.1 0xFFFF [] (.applied e.2.1 none)).1
    else s.updRidge fun r => { r with landing := (e.1, e.2.1, e.2.2 - 1) :: rest }

/-- Agent `g` ticks: the epoch closes; markers go out behind its writes, `d` cycles from now, to its own home too where its writes take time
(04 R82; 22 R442). -/
def State.tick (s : State) (g d : Nat) : State :=
  let e := (s.agent g).epoch
  let s1 := (s.updAgent g fun a => { a with epoch := a.epoch + 1 }).markPaths g e
  (List.range 18).foldl (fun s h =>
    if h = g ∧ (g < 8 ∨ g = 17) then s else s.after (d + legs g h + 40) (.closeMarker (fin18 h) (fin18 g) ⟨e, 0, 0⟩)) s1

/-- Packet `n` of queue `q` completes by agent `g`, whose stamp a launch behind it waits on (06 R121; 04 R90). -/
def State.packetDone (s : State) (q n g : Nat) : State :=
  let v := vmerge zeroVec (s.stampOf g)
  (s.updQueue q fun k => { k with out := k.out.filter fun e => e.1 != n, stampC := vmax k.stampC v }).soon .frontEndStart

/-- What an applied write of the ridge tells: a fault-queue entry, as which the ridge ticks, advances FQTAIL and raises the context's interrupt
(10 R171); a MARKER packet, which is complete (06 R121). -/
def State.tell (s : State) (t : Told) : State := match t with
  | .none => s
  | .entry x => (s.tick 16 0).updCtx x fun k => if k.fqwait = 0 then k else { k with fqwait := k.fqwait - 1, irqs := k.irqs + 1 }
  | .marker q n => (s.tick 16 0).packetDone q n 16

/-- A home applies a write: bytes, stamp, monitors, landing, acknowledgement (04 R79, R84; 09 R158, R443; 22 R442). The stamp of a
peer's write is of no agent here: it leaves the line without one (04 R91). An invalidation may wait for it (10 R168). -/
def State.applyWrite (s : State) (w : Write) : State :=
  let stamps := if w.src = 0 then Tbl.set s.stamps (w.key / 128) w.stamp else Tbl.erase s.stamps (w.key / 128)
  let s1 := { s with mem := s.mem.writeMasked w.key w.bytes, stamps := stamps }
  let s2 := (((s1.wake w.key).landWrite w).landBack w).tell w.told
  let s3 := if w.lock = 0 then s2 else s2.soon .invalidationComplete
  match w.die with
  | some d => s3.after (legs w.home d) (.applyAcknowledgement (fin8 d) w.id)
  | none => s3

/-- A write reaches its home: applied, or held in arrival order (04 R83). -/
def State.deliverWrite (s : State) (w : Write) : State :=
  let x := s.agent w.home
  let before := x.waiting.any fun v =>
    decide (v.src = w.src ∧ v.stamp.agent = w.stamp.agent ∧ v.stamp.epoch = w.stamp.epoch)
  if x.mayApply w.home w && !before then s.applyWrite w
  else s.updAgent w.home fun a => { a with waiting := a.waiting ++ [w] }

/-- A pass over the waiting writes of a home, in arrival order. -/
def State.retryWrites (s : State) (home : Nat) : State :=
  let ws := (s.agent home).waiting
  (ws.foldl (fun (s : State) w => s.deliverWrite w) (s.updAgent home fun a => { a with waiting := [] }))

/-- Writes that a home applies in the order in which they come: of one agent, in one epoch (04 R83). -/
def Write.sameWay (v w : Write) : Bool :=
  v.home == w.home && v.src == w.src && v.stamp.agent == w.stamp.agent && v.stamp.epoch == w.stamp.epoch
/-- A write sets out for its home, which it reaches in cycle `t`; behind one of its own agent and epoch it has its turn after that one. -/
def State.depart (s : State) (w : Write) (t : Nat) : State :=
  let s1 := { s with flights := s.flights ++ [{ w with due := t }] }
  if s.flights.any (·.sameWay w) then s1 else s1.sched t (.writeApply (fin18 w.home) w.id)
/-- After an applied write comes the next of its agent and epoch. -/
def State.nextWrite (s : State) (w : Write) : State := match s.flights.find? (·.sameWay w) with
  | some v => s.sched (max s.now v.due) (.writeApply (fin18 v.home) v.id)
  | none => s

/-- A write leaves agent `g` for its home, where it is applied 40 cycles after it has come, at the earliest (22 R442). What the host writes in its
own memory is there at once; a save's lines have come by its end, when they are made (log 1). -/
def State.sendWrite (s : State) (g : Nat) (w : Write) : State :=
  if g < 8 ∨ g = 17 ∧ w.home = 17 then s.deliverWrite w
  else s.depart w (s.now + legs g w.home + 40)

/-- A write of agent `g` of the bytes `bs` at a key, cut into lines; its bytes count at `land` as they are applied; `lock` is the locked
translation it took; `told` follows its last line. -/
def State.agentWriteGo (s : State) (g home : Nat) (land : Option (Bool × Nat × Nat × Nat × Bool)) (lock : Nat) (told : Told) :
    Nat → Nat → List Byte → State
  | 0, _, _ => s
  | n + 1, key, bs =>
    if bs.isEmpty then s else
      let room := 128 - key % 128
      let w : Write := { id := s.nextId, stamp := s.stampOf g, src := 0, key := key, home := home,
                         bytes := (bs.take room).map fun b => (true, b), die := none, land := land, lock := lock,
                         told := if (bs.drop room).isEmpty then told else .none }
      (s.bump.sendWrite g w).agentWriteGo g home land lock told n (key + room) (bs.drop room)
/-- A write of an agent at a key. -/
def State.agentWrite (s : State) (g key home : Nat) (bs : List Byte) (told : Told := .none) : State :=
  s.agentWriteGo g home none 0 told (bs.length / 128 + 2) key bs

/-- Writes held at their homes, or on their way there. -/
def State.writes (s : State) : List Write := ((List.range 18).flatMap fun h => (s.agent h).waiting) ++ s.flights

/-- The bytes at `key` once a write has been applied. -/
def Write.over (w : Write) (key : Nat) (bs : List Byte) : List Byte := bs.mapIdx fun i b =>
  if w.key ≤ key + i then (match w.bytes[key + i - w.key]? with
    | some (true, v) => v
    | _ => b) else b

/-- The bytes at `key` as agent `g` finds them at their home, where its request comes behind the writes that it has made (04 R82, R83). -/
def State.behindOwn (s : State) (g key n : Nat) : List Byte :=
  (s.writes.filter fun w => w.src == 0 && w.stamp.agent == g && decide (w.key < key + n ∧ key < w.key + w.bytes.length)).foldl
    (fun bs w => w.over key bs) (s.mem.read key n)

/-- An agent reads bytes at a key with the value the home holds, merging the stamps of the lines (04 R84). -/
def State.agentRead (s : State) (g key n : Nat) : List Byte × State :=
  (if g = 17 then s.mem.read key n else s.behindOwn g key n, (List.range (n / 128 + 2)).foldl (fun (s : State) i =>
    match Tbl.get s.stamps (key / 128 + i) with
    | some t => if key / 128 + i ≤ (key + n - 1) / 128 then s.merge g t else s
    | none => s) s)

/-! ### Virtual bytes as agents see them -/

/-- Read of `n` bytes at a virtual address, line by line; the first faulting address and cause otherwise. -/
def State.vreadGo (s : State) (core : Option Nat) (ctx g : Nat) : Nat → Nat → Nat → List Byte →
    Except (Nat × Nat) (List Byte × State)
  | 0, _, _, acc => .ok (acc, s)
  | f + 1, va, n, acc =>
    if n = 0 then .ok (acc, s) else
      let k := min n (128 - va % 128)
      match s.agentXlate core ctx va false false with
      | .ok key _ _ =>
        let r := (s.agentWalk ctx va).agentRead g key k
        State.vreadGo r.2 core ctx g f (va + k) (n - k) (acc ++ r.1)
      | .fault c => .error (va, c)
      | .miss => .error (va, 1)
/-- Read of bytes by agent `g` for a core or a packet of a context. -/
def State.vread (s : State) (core : Option Nat) (ctx g va n : Nat) : Except (Nat × Nat) (List Byte × State) :=
  s.vreadGo core ctx g (n / 128 + 2) va n []

/-- Write of bytes at a virtual address, line by line; writes before a fault stand (13 R220, 18 R322). -/
def State.vwriteGo (s : State) (core : Option Nat) (ctx g : Nat) (land : Option (Bool × Nat × Nat × Nat × Bool)) : Nat → Nat → List Byte → State × Option (Nat × Nat)
  | 0, _, _ => (s, none)
  | f + 1, va, bs =>
    if bs.isEmpty then (s, none) else
      let k := 128 - va % 128
      match s.agentXlate core ctx va true false with
      | .ok key home pte =>
        let s1 := s.agentWalk ctx va
        (s1.agentWriteGo g home land (s1.lockOf ctx va pte) .none (k / 128 + 2) key (bs.take k)).vwriteGo core ctx g land f (va + k) (bs.drop k)
      | .fault c => (s, some (va, c))
      | .miss => (s, some (va, 1))
/-- Write of bytes by agent `g`. -/
def State.vwrite (s : State) (core : Option Nat) (ctx g va : Nat) (bs : List Byte) : State × Option (Nat × Nat) :=
  s.vwriteGo core ctx g none (bs.length / 128 + 2) va bs
/-- The same, and its bytes count toward a barrier as they are applied. -/
def State.vwriteLand (s : State) (core : Option Nat) (ctx g va : Nat) (bs : List Byte) (land : Option (Bool × Nat × Nat × Nat × Bool)) :
    State × Option (Nat × Nat) :=
  s.vwriteGo core ctx g land (bs.length / 128 + 2) va bs

/-- Some write of an agent with a number from `lo` to `hi` - 1 has not been applied. -/
def State.unapplied (s : State) (lo hi : Nat) : Bool := s.writes.any fun w => w.src == 0 && decide (lo ≤ w.id ∧ w.id < hi)

/-- Some write of the host's has not been applied at its home (30 R444). -/
def State.hostWaits (s : State) : Bool :=
  s.writes.any fun w => w.src == 0 && w.stamp.agent == 17

/-- Offsets of the registers whose writes are commands: `RSTCTL`, `CTXCMD`, `INVREQ`, `RESUME` and each queue's TAIL (30 R444). -/
def isCommand (off : Nat) : Bool := [0x8, 0x18, 0x70, 0x78].contains off || decide (0x2000 ≤ off ∧ off < 0x4000 ∧ off % 32 = 24)

/-- A register write at the port (30 R444): a command is held there until the host's earlier writes have been applied, and what comes behind
it is held too. -/
def State.port (s : State) (off : Nat) (v : Word) (act : State → State) : State :=
  let behind := s.agenda.any fun e => match e.2 with
    | .registerWrite _ _ => decide (s.now < e.1)
    | _ => false
  if (isCommand off && s.hostWaits) || behind then s.after 1 (.registerWrite off v) else act s

/-- Every byte of a range can be translated, line by line: a page may lie partly in fenced storage (07 R126, R137). -/
def State.vokGo (s : State) (core : Option Nat) (ctx : Nat) (write fetch : Bool) : Nat → Nat → Nat → Bool
  | 0, _, _ => true
  | f + 1, va, n =>
    if n = 0 then true else
      let k := min n (128 - va % 128)
      match s.agentXlate core ctx va write fetch with
      | .ok _ _ _ => s.vokGo core ctx write fetch f (va + k) (n - k)
      | _ => false
/-- Every byte of a range can be translated with the permission. -/
def State.vok (s : State) (core : Option Nat) (ctx va n : Nat) (write fetch : Bool) : Bool :=
  s.vokGo core ctx write fetch (n / 128 + 2) va n

/-! ### Write-combining buffers -/

/-- Bytes over bytes: those named replace. -/
def overlay (base : List Byte) (m : List (Bool × Byte)) : List Byte :=
  (List.range base.length).map fun i =>
    match m.getD i (false, 0) with
    | (true, b) => b
    | (false, _) => base.getD i 0
/-- The bytes of `old` that `new` does not name. -/
def stripBytes (new old : List (Bool × Byte)) : List (Bool × Byte) :=
  (List.range 128).map fun i => if (new.getD i (false, 0)).1 then (false, 0) else old.getD i (false, 0)
/-- A later store merged over an earlier one, byte by byte (04 R81). -/
def mergeBytes (old new : List (Bool × Byte)) : List (Bool × Byte) :=
  (List.range 128).map fun i => let n := new.getD i (false, 0); if n.1 then n else old.getD i (false, 0)
/-- A line of no named byte. -/
def noBytes : List (Bool × Byte) := List.replicate 128 (false, 0)

/-- The bytes of a buffered line as an access of core `c` at position `p` sees them: merged ones and the core's own
earlier held ones (04 R86). -/
def WLine.view (w : WLine) (c p : Nat) : List (Bool × Byte) :=
  w.held.foldl (fun m h => if h.1 = c ∧ h.2.1 < p then mergeBytes m h.2.2 else m) w.merged
/-- What the die's buffer shows an access of a line. -/
def Die.lookup (d : Die) (c p key : Nat) : List (Bool × Byte) :=
  d.wcb.foldl (fun m w => if w.key = key then mergeBytes m (w.view c p) else m) noBytes

/-- Lines that count toward the buffer's capacity: global lines (scratchpad lines wait in the owning scratchpad's write
port, 04 R86). -/
def WLine.counts (w : WLine) : Bool := !isScr w.key
/-- Bytes have entered the line that every core of the die sees. -/
def WLine.shows (w : WLine) : Bool := w.merged.any (·.1)
/-- A line that a drain may take. -/
def WLine.drainable (w : WLine) : Bool := w.counts && w.sent.isNone && w.shows
/-- Bytes every core sees enter a line: they replace those of stores still held, which entered before them (04 R81, R86). -/
def WLine.enter (w : WLine) (bs : List (Bool × Byte)) : WLine :=
  { w with merged := mergeBytes w.merged bs, held := (w.held.map fun h => (h.1, h.2.1, stripBytes bs h.2.2)).filter fun h => h.2.2.any (·.1) }
/-- Held bytes that become visible do so in the order they entered. -/
def WLine.free (w : WLine) (free : Nat × Nat × List (Bool × Byte) → Bool) : WLine :=
  if w.sent.isSome then w
  else w.held.foldl (fun w h => if free h then w.enter h.2.2 else { w with held := w.held ++ [h] }) { w with held := [] }

/-- The core's memory operation has a load line not yet performed (04 R86, R94). -/
def MemOp.isLoad (o : MemOp) : Bool := match o.kind with
  | .load _ _ _ _ | .tldw _ _ | .chcfg _ _ | .waita _ _ _ => true
  | _ => false
/-- A line access has been performed. -/
def LineAcc.isDone (l : LineAcc) : Bool := match l.st with
  | .done => true
  | _ => false
/-- An operation with a line still to be performed, or whose lines are not known yet. -/
def MemOp.unperformed (o : MemOp) : Bool := if o.lines.isEmpty then !o.about.isEmpty else o.lines.any fun l => !l.isDone
/-- A load, or the operand reads of a placed operation (03 R76), still to be performed. -/
def MemOp.reads (o : MemOp) : Bool := match o.kind with
  | .placed _ => if o.lines.isEmpty then o.about.any fun a => !a.2.1 else o.lines.any fun l => l.mask.isEmpty && !l.isDone
  | _ => o.isLoad && o.unperformed
/-- Some load of core `k` before position `p` is unperformed. -/
def Core.loadsBefore (k : Core) (p : Nat) : Bool := k.memq.any fun o => decide (o.pos < p) && o.reads

/-- Agent `g`'s write now could be applied at a home (04 R83). -/
def State.wouldApply (s : State) (g home : Nat) : Bool :=
  (s.agent home).holds home 0 g (s.agent g).epoch && (s.agent home).holdsVec home (s.agent g).acq

/-- The store of a line is written into the owning scratchpad, with the die's stamp (04 R79, R82). -/
def State.scrWrite (s : State) (die key home : Nat) (bs : List (Bool × Byte)) : State :=
  s.applyWrite { id := 0, stamp := s.stampOf die, src := 0, key := key, home := home, bytes := bs, die := none }

/-- Results of placed operations that are held look again (03 R66, R76). -/
def State.pokePieces (s : State) (d : Nat) : State :=
  s.ridge.pieces.foldl (fun (s : State) e => if e.2.st = 3 ∧ e.2.core / 8 = d then s.soon (.pieceComplete e.1) else s) s

/-- Held bytes whose earlier loads have all been performed become visible (04 R86); scratchpad lines go to storage once their home may
take them (R83). -/
def State.releaseHeld (s : State) (d : Nat) : State :=
  let ready := fun (h : Nat × Nat × List (Bool × Byte)) => (decide (h.1 < 64) && !(s.core h.1).loadsBefore h.2.1) || decide (2 ^ 20 ≤ h.1)
  let step := fun (w : WLine) => if isScr w.key && !s.wouldApply d w.home then w else w.free ready
  let ws := (s.die d).wcb.map step
  let old := (s.die d).wcb.filter fun w => w.counts && !w.held.isEmpty && w.sent.isNone && decide (w.since + 4096 ≤ s.now)
  let left := fun (w : WLine) => if isScr w.key then { w with merged := noBytes } else w
  let s0 := s.updDie d fun x => { x with wcb := (ws.map left).filter fun w => !(isScr w.key && w.held.isEmpty) }
  let s1 := old.foldl (fun (s : State) w => s.soon (.wcbAgeDrain (fin8 d) w.key)) s0
  ((ws.filter fun w => isScr w.key && w.shows).foldl (fun (s : State) w => s.scrWrite d w.key w.home w.merged) s1).pokePieces d

/-- Stores of core `a` that wait invisible in its die's buffer are tied to `b` instead (04 R94): a saved group's are kept under
a number above the cores'; from `2 ^ 20` on nothing holds them any more. -/
def State.tieHeld (s : State) (a b : Nat) : State :=
  s.updDie (a % 64 / 8) fun d => { d with wcb := d.wcb.map fun w => { w with held := w.held.map fun h => if h.1 = a then (b, h.2) else h } }

/-- A line leaves the buffer for its home after `d` cycles (04 R81, R82). It stays readable until it is acknowledged; bytes still held
stay in a line of their own. -/
def State.drainOne (s : State) (die d : Nat) (w : WLine) : State :=
  let wr : Write := { id := s.nextId, stamp := s.stampOf die, src := 0, key := w.key, home := w.home,
                      bytes := w.merged, die := some die }
  let rest := if w.held.isEmpty then [] else [{ w with merged := noBytes }]
  let s1 := s.bump.updDie die fun x => { x with wcb := updWhere (fun v => v == w) (fun v => { v with sent := some wr.id, held := [] }) x.wcb ++ rest }
  s1.depart wr (s.now + d + legs die w.home + 40)

/-- Lines drained in order, one per cycle (22 R393). -/
def State.drainList (s : State) (die : Nat) : Nat → List WLine → State
  | _, [] => s
  | d, w :: ws => (s.drainOne die d w).drainList die (d + 1) ws

/-- A release of a die can be made in this cycle: none has been made yet, or there is nothing more to drain. -/
def State.mayRelease (s : State) (die : Nat) : Bool := (s.die die).tickAt != s.now + 1 || !(s.die die).wcb.any (·.drainable)

/-- A DEVICE or SYSTEM release of a die: drain all, then tick (04 R81, R82, R88). Releases of one cycle make one drain and
one tick: one that finds more to drain after the drain of its cycle answers none, and is made in the next. Else the cycle the drain ends. -/
def State.releaseDie (s : State) (die : Nat) : State × Option Nat :=
  let ws := (s.die die).wcb.filter (·.drainable)
  if (s.die die).tickAt = s.now + 1 then (s, if ws.isEmpty then some (s.die die).drainTo else none) else
    let s1 := s.drainList die 0 ws
    let s2 := s1.tick die ws.length
    (s2.updDie die fun x => { x with tickAt := s.now + 1, drainTo := s.now + ws.length }, some (s.now + ws.length))

/-- The core's L1 copy of a line takes the bytes of a store (04 R81: write-through). -/
def State.l1Store (s : State) (c key : Nat) (bytes : List (Bool × Byte)) : State :=
  s.updCore c fun k => { k with l1 := k.l1.map fun e => if e.1 = key then (e.1, overlay e.2 bytes) else e }

/-- A store line of core `c` enters its die's buffer, or is written into the owning scratchpad; bytes wait invisible for the core's
earlier loads, a scratchpad line's in its write port (04 R79, R81, R86). -/
def State.enterStore (s : State) (c pos key home cls : Nat) (bytes : List (Bool × Byte)) : State :=
  let die := c / 8
  let hold := (s.core c).loadsBefore pos
  let s0 := s.l1Store c key bytes
  let put := fun (w : WLine) => if hold then { w with held := w.held ++ [(c, pos, bytes)] } else w.enter bytes
  let open_ := fun (w : WLine) => decide (w.key = key) && w.sent.isNone
  if isScr key && !hold then
    let clear := fun (w : WLine) => if w.key = key then { w.enter bytes with merged := noBytes } else w
    (s0.updDie die fun x => { x with wcb := (x.wcb.map clear).filter fun w => !(isScr w.key && w.held.isEmpty) }).scrWrite die key home bytes
  else
    let s1 := s0.updDie die fun x =>
      if x.wcb.any open_ then { x with wcb := updWhere open_ put x.wcb }
      else { x with wcb := x.wcb ++ [put ⟨key, home, cls, s.now, noBytes, [], none⟩] }
    let since := (((s1.die die).wcb.find? open_).map (·.since)).getD s.now
    if isScr key then s1 else s1.sched (max s.now (since + 4096)) (.wcbAgeDrain (fin8 die) key)

/-- A placed operation's store of bytes of one line, as a write of the issuing core's die (03 R76): earlier bytes of the die that it
replaces go nowhere any more, the core's own copy takes the new ones, and they stay readable until the home acknowledges them (04 R81,
R95). -/
def State.placedWrite (s : State) (c pos key home off : Nat) (bs : List Byte) : State :=
  let die := c / 8
  let m : List (Bool × Byte) := (List.range 128).map fun i => if off ≤ i ∧ i < off + bs.length then (true, bs.getD (i - off) 0) else (false, 0)
  let strip := stripBytes m
  let w : Write := { id := s.nextId, stamp := s.stampOf die, src := 0, key := key, home := home, bytes := m, die := some die }
  let held := fun (h : Nat × Nat × List (Bool × Byte)) => if h.1 = c ∧ h.2.1 < pos then (h.1, h.2.1, strip h.2.2) else h
  let line := fun (v : WLine) => if v.key = key then { v with merged := strip v.merged, held := v.held.map held } else v
  let fly := fun (v : Write) => if v.die = some die ∧ v.key = key then { v with bytes := strip v.bytes } else v
  let s1 := s.bump.l1Store c key m
  let s2 := { s1 with flights := s1.flights.map fly }
  (s2.updDie die fun x => { x with wcb := ⟨key, home, 0, s.now, m, [], some w.id⟩ :: x.wcb.map line }).deliverWrite w

/-- Whether a new line of core `c` may enter the buffer (04 R81, R86): it merges, there is room, or the oldest line drains; the store
tries again each cycle, and each try drains a line more until an acknowledgement makes room (DESIGN CHOICE, log 15: the spec does not say
how many lines one waiting store drains). A scratchpad takes it once it may be applied there (R83). -/
def State.wcbRoom (s : State) (c key : Nat) : Bool × State :=
  let die := c / 8
  let x := s.die die
  if isScr key then (s.wouldApply die (scrCore key / 8), s)
  else if x.wcb.any (fun w => decide (w.key = key) && w.sent.isNone) then (true, s)
  else if (x.wcb.filter (·.counts)).length < 2048 then (true, s)
  else match x.wcb.find? (·.drainable) with
    | some w => (false, s.drainOne die 0 w)
    | none => (false, s)

/-! ### The L1 and the L2 -/

/-- Lines of an L1 (01 Table 1.3: 1 MiB; organised as one LRU list, log 21). -/
def l1Lines : Nat := 8192

/-- A line enters an L1. -/
def Core.l1Fill (k : Core) (key : Nat) (bs : List Byte) : Core :=
  { k with l1 := ((key, bs) :: k.l1.filter (fun e => e.1 ≠ key)).take l1Lines }

/-- Quota fields of `L2QT` for a class: MIN, MAX (10 Table 10.3). -/
def l2Quota (w : Word) (cls : Nat) : Nat × Nat := (get w (10 * cls + 4) (10 * cls), get w (10 * cls + 9) (10 * cls + 5))

/-- Last element satisfying a test, removed (the least recently used of a class). -/
def dropLast (p : Nat × Nat → Bool) (l : List (Nat × Nat)) : List (Nat × Nat) :=
  match l.reverse.findIdx? p with
  | some i => l.eraseIdx (l.length - 1 - i)
  | none => l

/-- A fill of class `c` into a set, most recent first (10 R170). -/
def l2Fill (qt : Word) (key c : Nat) (set : List (Nat × Nat)) : List (Nat × Nat) :=
  let n := fun (k : Nat) => (set.filter fun e => e.2 = k).length
  if (l2Quota qt c).2 ≤ n c then
    (if n c = 0 then set else (key, c) :: dropLast (fun e => decide (e.2 = c)) set)
  else if set.length < 24 then (key, c) :: set
  else if [0, 1, 2, 3].any (fun k => decide ((l2Quota qt k).1 < n k)) then
    (key, c) :: dropLast (fun e => decide ((l2Quota qt e.2).1 < n e.2)) set
  else if 0 < n c then (key, c) :: dropLast (fun e => decide (e.2 = c)) set
  else set

/-- A line whose pages the L2 holds: striped pages and host memory (10 R169). -/
def l2Able (key home : Nat) : Bool := decide (home = 17 ∨ (home = 16 ∧ key < hbmTop))
/-- The bank of the L2 that serves a line (22 R390). -/
def l2Bank (key : Nat) : Nat := (key / 2 ^ 7 % 64) ^^^ (key / 2 ^ 13 % 64)
/-- The set that holds a line: 64 banks of 2,048 sets of 24 ways, 384 MiB in all (01 Table 1.3). -/
def l2Index (key : Nat) : Nat := l2Bank key + 64 * (Config.l2Set (key / 128) % 2048)
/-- The L2 holds a line. -/
def State.l2Hit (s : State) (key : Nat) : Bool :=
  (Tbl.getD s.ridge.l2 (l2Index key) []).any fun e => decide (e.1 = key)
/-- A lookup of the L2: a hit becomes most recent, a miss fills (10 R170). -/
def State.l2Touch (s : State) (key cls : Nat) : State :=
  s.updRidge fun r =>
    let i := l2Index key
    let set := Tbl.getD r.l2 i []
    let hit := set.filter fun e => decide (e.1 = key)
    { r with l2 := Tbl.set r.l2 i (if hit.isEmpty then l2Fill s.regs.l2qt key cls set
        else hit ++ set.filter fun e => decide (e.1 ≠ key)) }

/-! ### Pinned translations -/

/-- The reader count of the locked entry an access took rises (10 R168). -/
def State.pinTake (s : State) (lock : Nat) : State :=
  if lock = 0 then s
  else s.updRidge fun r => { r with locks := updWhere (fun (l : Lock) => l.id == lock) (fun l => { l with readers := l.readers + 1 }) r.locks }
/-- It falls when the access is performed; a withdrawn entry without readers completes its invalidation. -/
def State.pinDrop (s : State) (lock : Nat) : State :=
  if lock = 0 then s
  else (s.updRidge fun r => { r with locks := updWhere (fun (l : Lock) => l.id == lock) (fun l => { l with readers := l.readers - 1 }) r.locks }).soon
    .invalidationComplete
/-- An agent's write that took a locked translation is still on its way to its home, or waits there (10 R168). -/
def State.lockWaits (s : State) (lock : Nat) : Bool :=
  s.writes.any fun w => w.lock == lock

/-! ### One line of a load -/

/-- The core-scratchpad window: the one way by which a core's scratchpad is its own; its cluster window and pages reach the same bytes as
cluster memory (01 R18, R26). -/
def ownWindow (va : Nat) : Bool := decide (0xF_FFFF_F000_0000 ≤ va ∧ va < 0xF_FFFF_F060_0000)

/-- An access of core `c` to a scratchpad line waits for its bank (01 R19): another core's access has it in this cycle, the owner's
one that is due included. A core's own lines do not meet (18 Table 18.4; log 1). -/
def State.bankBusy (s : State) (c key : Nat) : Bool :=
  let o := scrCore key
  let clash := fun (k : Nat) => isScr k && scrCore k == o && (k == key || Config.scrBank (k / 128) == Config.scrBank (key / 128))
  let line := fun (d id n : Nat) => (((s.core d).memq.find? fun p => p.id == id).bind fun p => p.lines[n]?).any fun l => clash l.key
  let due := s.agenda.any fun e => e.1 == s.now && (match e.2 with
    | .loadPerformed d id n => d.val == o && line o id n
    | .storePerformed d id n => d.val == o && line o id n
    | _ => false)
  let v := (s.die (o / 8)).served
  isScr key && c != o && (due || (v.1 == s.now && v.2.any fun a => a.1 != c && clash a.2))
/-- The bank of a scratchpad line has served core `c` in this cycle. -/
def State.bankTake (s : State) (c key : Nat) : State :=
  if isScr key then s.updDie (scrCore key / 8) fun d => { d with served := (s.now, (c, key) :: if d.served.1 = s.now then d.served.2 else []) } else s

/-- Outbound latency from core `c` to the source of a line, and the source term of its landing time without the line
count (18 Table 18.4; 22 R387, R442). A line that the L2 may hold is looked up there, 40 cycles out, and goes on when it misses. -/
def lineSource (c va key home : Nat) (l1 miss : Bool) : Nat × Nat × Bool :=
  let die := c / 8
  if l1 then (4, 8, true)
  else if isScr key then
    (if ownWindow va then (4, 12, true) else if scrCore key / 8 = die then (1, 28, false) else (80, 90, false))
  else if home = 17 then (if miss then (920, 1800, false) else (40, 110, false))
  else if key < hbmTop then
    (if home = 16 then (if miss then (100, 260, false) else (40, 110, false))
     else (20 + 18 * hops die (home - 8), 260 + 36 * hops die (home - 8), false))
  else (40, 90, false)

/-- Cycles from its start to line `n` of a load at its source, and to the landing of a load of `len` lines: they leave the core four a cycle
to the L1 and the own scratchpad, else two (22 R387, R442). -/
def srcOut (src : Nat × Nat × Bool) (n : Nat) : Nat := max 1 (src.1 + n / (if src.2.2 then 4 else 2))
def srcAll (src : Nat × Nat × Bool) (len : Nat) : Nat := src.2.1 + ceilDiv len (if src.2.2 then 4 else 2)

/-- Bytes of an expert slot, and where slot `n` starts (10 R176): offset into the chip scratchpad. -/
def State.slotLen (s : State) : Nat := 2 ^ get s.regs.excfg 4 0
def State.slotOff (s : State) (n : Nat) : Nat := get s.regs.excfg 26 5 * 2 ^ 21 + n * s.slotLen
/-- The line lies in an expert slot that is being filled, and has not landed there yet (21 R382). -/
def State.slotLoading (s : State) (key : Nat) : Bool := s.ridge.slots.any fun e =>
  e.2.state == 1 && decide (chipBase + s.slotOff e.1 + e.2.filled ≤ key ∧ key < chipBase + s.slotOff e.1 + s.slotLen)

/-- The stamp of a line merges into a die's acquired vector (04 R84). -/
def State.mergeLine (s : State) (die key : Nat) : State := match Tbl.get s.stamps (key / 128) with
  | some t => s.merge die t
  | none => s

/-- A line is read at its home alone (04 R83, R84; 09 R158): its bytes, which no copy in the L1 may be older than (R96). -/
def State.serveHome (s : State) (c key home : Nat) (acq : List Nat) : Option (List Byte × State) :=
  if !(s.agent home).holdsVec home acq || s.slotLoading key then none
  else some (s.mem.read key 128, s.updCore c fun k => { k with l1 := k.l1.filter fun e => e.1 != key })

/-- A load line is served, by the core's L1 or by the buffer and the home: the value is fixed (04 R79, R81, R83 to R85). None: the home
waits for close markers. A load that goes by the L1 leaves no older copy there (R96). -/
def State.serve (s : State) (c pos key home : Nat) (pte : Word) (acq : List Nat) (nl1 l1 : Bool) : Option (List Byte × State) :=
  let die := c / 8
  let own := (s.die die).lookup c pos key
  match if l1 then (s.core c).l1.find? fun e => decide (e.1 = key) else none with
  | some e => some (e.2, s.updCore c fun k => k.l1Fill key e.2)
  | none =>
    let fill := fun (bs : List Byte) (s : State) => s.updCore c fun k =>
      if nl1 || isScr key then { k with l1 := k.l1.filter fun e => e.1 != key } else k.l1Fill key bs
    if !isScr key && own.all (·.1) then
      let bs := own.map (·.2)
      some (bs, fill bs s)
    else if !(s.agent home).holdsVec home acq || s.slotLoading key then none
    else
      let bs := overlay (s.mem.read key 128) own
      let s1 := s.mergeLine die key
      some (bs, fill bs (if l2Able key home then s1.l2Touch key (get pte 63 62) else s1))

end Sys2Proof.Machine
end

