-- ==== Sys2Proof/Machine/Ops.lean ====
section
/-! DEFINITION. Shared operations: pending writes and traps of the bundle being issued, fault-queue entries, contexts,
taking a trap and ending a group, and the ordered memory operations of a core. -/

namespace Sys2Proof.Machine
open Sys2Proof.Bits

/-! ### The issuing core -/

/-- Core whose bundle is being issued. -/
def State.issuer (s : State) : Nat := match s.phase with
  | .slot c _ => c
  | .idle => 0

/-- Position in issue order (02 R53). -/
def Core.posAt (k : Core) (slot : Nat) : Nat := 8 * k.lcyc + slot

/-- Virtual address of the bundle at the head of a core's skid queue (07 R129). -/
def State.bundleAddr (s : State) (c : Nat) : Nat :=
  match s.runOf c with
  | some r => r.code * 32 + 32 * (((s.core c).skid.head?).map (·.pc)).getD 0
  | none => 0

/-- A write due `lat` bundles on (14 R231). -/
def State.due (s : State) (c slot lat : Nat) (w : PWrite) (evs : List Nat := []) : State :=
  s.updCore c fun k => { k with pend := k.pend ++ [⟨k.lcyc + lat, k.posAt slot, s.bundleAddr c, w, true, 0, evs⟩] }

/-- A write due `lat` bundles on whose value operation `id` still has to bring (14 R232). -/
def State.dueLate (s : State) (c slot lat id : Nat) (w : PWrite) : State :=
  s.updCore c fun k => { k with pend := k.pend ++ [⟨k.lcyc + lat, k.posAt slot, s.bundleAddr c, w, false, id, []⟩] }

/-- The value of operation `id` reaches core `c`. -/
def State.deliver (s : State) (c id : Nat) (f : PWrite → PWrite) : State :=
  s.updCore c fun k => { k with pend := updWhere (fun (p : Pend) => p.id == id) (fun p => { p with w := f p.w, arrived := true }) k.pend }

/-- The pending scalar of operation `id` takes a value; it still has to travel back. -/
def State.stash (s : State) (c id : Nat) (v : Word) : State :=
  let f := fun (p : Pend) => match p.w with
    | .x r _ => { p with w := PWrite.x r v }
    | _ => p
  s.updCore c fun k => { k with pend := updWhere (fun (p : Pend) => p.id == id) f k.pend }

/-- An execution trap of the bundle being issued (14 R247). -/
def State.trapSlot (s : State) (c slot code : Nat) : State :=
  s.updCore c fun k => { k with bctx := { k.bctx with traps := k.bctx.traps ++ [(slot, code)] } }

/-- An event logged by the bundle being issued. -/
def State.logNow (s : State) (c slot code : Nat) : State :=
  s.updCore c fun k => k.logCode (k.posAt slot) (s.bundleAddr c) code

/-! ### Contexts and the fault queue -/

/-- A context ends or overflows (05 R106, R107): ACTIVE becomes FAULTED; while SPND only CAUSE is recorded, the latest one (DESIGN CHOICE, log
19: the spec does not say which of two stays). -/
def State.ctxFault (s : State) (x cause : Nat) : State :=
  s.updCtx x fun k =>
    if k.state = 2 then
      (if k.spnd then { k with cause := cause } else { k with state := 4, cause := cause })
    else k

/-- Groups of a context that still hold their cores (05 R106). -/
def State.ctxBusy (s : State) (x : Nat) : Bool :=
  s.grps.any fun g => decide (g.2.ctx = x ∧ (g.2.state ≤ 3 ∨ g.2.state = 5))

/-- A suspend completes when the last group has been saved, parked or retired (05 R106). -/
def State.ctxSettle (s : State) (x : Nat) : State :=
  if (s.ctx x).spnd ∧ s.ctxBusy x = false then
    let s1 := s.updCtx x fun k => { k with state := 3, spnd := false }
    if s1.regs.cmdBusy ∧ s1.regs.cmdCtx = x then s1.updRegs fun r => { r with cmdBusy := false, cmdStatus := 0 } else s1
  else s

/-- Words 0 to 3 of a fault-queue entry (10 Table 10.4). -/
def fqWords (cause core gid kind opnd slot va bundle seq : Nat) : List Word :=
  [BitVec.ofNat 64 (cause * 2 ^ 56 + core % 64 * 2 ^ 50 + gid % 2 ^ 16 * 2 ^ 32 + kind % 16 * 2 ^ 8 + opnd % 16 * 2 ^ 4 + slot % 8),
   BitVec.ofNat 64 (va % 2 ^ 52), BitVec.ofNat 64 (bundle / 32 % 2 ^ 47 * 32), BitVec.ofNat 64 seq, 0, 0, 0, 0]

/-- Bytes of a list of words. -/
def wordsLE (ws : List Word) : List Byte := (ws.map wordLE).flatten

/-- Group id and core of an entry. -/
def FqEnt.gid (e : FqEnt) : Nat := e.telling.getD 2 0
def FqEnt.core (e : FqEnt) : Nat := e.telling.getD 1 0

/-- The ridge's write of an entry to its place in the ring (10 R171, Table 10.4). -/
def State.writeEntry (s : State) (x : Nat) (e : FqEnt) (told : Told) : State :=
  let k := s.ctx x
  let w := fun (i : Nat) => e.telling.getD i 0
  match resolvePA (k.fqbase * 2 ^ 12 + e.seq % 2 ^ k.qlog * 64) with
  | some (key, home) => s.agentWrite 16 key home (wordsLE (fqWords (w 0) (w 1) (w 2) (w 3) (w 4) (w 5) (w 6) (w 7) e.seq)) told
  | none => s.tell told

/-- An entry takes its place among those of its cycle: ascending core index, then as they are found (10 R171). The count of entries is
64 bits (SEQ); FQTAIL shows its low 32. -/
def fqPlace (e : FqEnt) (l : List FqEnt) : List FqEnt :=
  let later := fun (f : FqEnt) => f.at_ == e.at_ && decide (e.core < f.core)
  let tail := l.filter later
  l.filter (fun f => !later f) ++ { e with seq := e.seq - tail.length } :: tail.map fun f => { f with seq := f.seq + 1 }

/-- The ridge writes a fault-queue entry, and with its last line ticks, advances FQTAIL and raises the interrupt; a full queue faults the context
instead (10 R171). -/
def State.faultEntry (s : State) (x cause core gid kind opnd slot va bundle : Nat) (again : Again) : State :=
  let k := s.ctx x
  if (k.fqtail + 2 ^ 32 - k.fqhead) % 2 ^ 32 = 2 ^ k.qlog then s.ctxFault x 2
  else
    let e : FqEnt := ⟨k.fqtail, s.now, [cause, core, gid, kind, opnd, slot, va, bundle], again⟩
    let l := fqPlace e k.ents
    let fresh := l.filter fun f => !k.ents.contains f
    let s1 := s.updCtx x fun k => { k with fqtail := k.fqtail + 1, fqwait := k.fqwait + 1, ents := l }
    fresh.zipIdx.foldl (fun (s : State) f => s.writeEntry x f.1 (if f.2 + 1 = fresh.length then .entry x else .none)) s1

/-! ### Ordered memory operations -/

/-- Operation `id` of a core. -/
def Core.op (k : Core) (id : Nat) : Option MemOp := k.memq.find? fun o => o.id == id
/-- Operation `id` changed. -/
def Core.updOp (k : Core) (id : Nat) (f : MemOp → MemOp) : Core :=
  { k with memq := updWhere (fun (o : MemOp) => o.id == id) f k.memq }
/-- Operation `id` has completed. -/
def Core.dropOp (k : Core) (id : Nat) : Core := { k with memq := k.memq.filter fun o => o.id != id }
/-- Line `n` of an operation changed. -/
def MemOp.updLine (o : MemOp) (n : Nat) (f : LineAcc → LineAcc) : MemOp :=
  { o with lines := o.lines.modify n f }

/-- A release orders (04 Table 4.3). -/
def relOrd : Order → Bool
  | .acq => false
  | _ => true
/-- An acquire orders. -/
def acqOrd : Order → Bool
  | .rel => false
  | _ => true
/-- DEVICE or SYSTEM scope. -/
def wideScope : Scope → Bool
  | .device | .system => true
  | _ => false

/-- The group triggers in the cycle in which its last core has executed TRIG (07 R132): `stamp` gathers the stamps of the dies' releases.
After that a TRIG is a release and nothing more. -/
def State.trigDone (s : State) (c : Nat) : State :=
  match s.grpOf c, s.runOf c with
  | some g, some r =>
    if r.triggered then s
    else
      let s1 := (s.updCore c fun k => { k with trig := true }).updRun g fun r => { r with stamp := vmerge r.stamp (s.stampOf (c / 8)) }
      if r.members.all (fun m => (s1.core m).trig) then (s1.updRun g fun r => { r with triggered := true }).soon .frontEndStart else s1
  | _, _ => s

/-- The group id a message of core `c` carries (08 R146). -/
def State.gidOf (s : State) (c : Nat) : BitVec 16 := match s.grpOf c with
  | some g => s.gid16 g
  | none => BitVec.ofNat 16 0xFFFF

/-- The tag that names the parts of a spanning course in messages between packages (08 R146; log 8). -/
def State.spanTag (s : State) (c : Nat) : Nat := ((s.runOf c).map (·.sptag)).getD 0xFFFF

/-- The reply of operation `id` of core `c` is due `d` cycles from now (08 R146: it carries the group id). -/
def State.replyAfter (s : State) (c d id : Nat) : State := s.after d (.replyArrival (fin64 c) ⟨s.gidOf c, id⟩)

/-- Where the bytes an operation needs of a line begin (10 Table 10.4: the first faulting byte). -/
def MemOp.firstByte (o : MemOp) (l : LineAcc) : Nat := match o.kind with
  | .tldw _ off | .chcfg _ off | .waita _ _ off => off
  | .store => (l.mask.findIdx? fun b => b).getD 0
  | _ =>
    let n := (o.lines.findIdx? fun m => m.va == l.va).getD 0
    match (o.chunks.filter fun c => c.line == n).map (·.src) with
    | [] => 0
    | c :: cs => cs.foldl min c

/-- An operation that has done its part: a tile that has left for another package. -/
def MemOp.gone (o : MemOp) : Bool := match o.kind with
  | .chsend _ _ _ _ => o.left && !o.fq
  | _ => false

/-- A core has no operation of its group left. -/
def Core.quiet (k : Core) : Bool :=
  k.memq.all MemOp.gone && k.jobs.isEmpty && k.mma.isEmpty && k.pipeV.isEmpty && k.pipeQ.isEmpty

/-- Pieces of the cores of a group are still in intake or running. -/
def State.piecesOf (s : State) (ms : List Nat) : Bool :=
  s.ridge.pieces.any fun p => ms.contains p.2.core && decide (p.2.st < 4)

/-- A draining group whose members are quiet drains (08 R145). -/
def State.drainCheck (s : State) (g : Nat) : State :=
  let x := s.grp g
  match x.run with
  | some r =>
    if x.state = 5 ∧ r.members.all (fun c => (s.core c).quiet) ∧ s.piecesOf r.members = false then
      s.soon (.drainComplete (fin1024 g))
    else s
  | none => s

/-- The group of core `c` drains (08 Table 8.3): what faults in it is cancelled, and a piece writes no entry (R145). -/
def State.draining (s : State) (c : Nat) : Bool := match s.grpOf c with
  | some g => (s.grp g).state == 5
  | none => false

/-- Pins that the lines of some operations of a core still hold (10 R168). -/
def State.dropPins (s : State) (os : List MemOp) : State :=
  os.foldl (fun (s : State) o => o.lines.foldl (fun (s : State) l => if l.st = .flight then s.pinDrop l.lock else s) s) s

/-- Operations of a core go, with the pins they hold. -/
def State.dropOps (s : State) (c : Nat) (gone : MemOp → Bool) : State :=
  (s.dropPins ((s.core c).memq.filter gone)).updCore c fun k => { k with memq := k.memq.filter fun o => !gone o }

/-- Lines of a store that have faulted are cancelled and count as performed (04 R94; 08 R145). -/
def MemOp.cancelLines (o : MemOp) : MemOp :=
  let skip := fun (l : LineAcc) => match l.st with
    | .fault _ => { l with st := .done }
    | _ => l
  { o with lines := o.lines.map skip, fq := false }

/-- A faulted operation of a draining group is cancelled (08 R145): of a store the faulted lines, else all of it. -/
def State.cancelOp (s : State) (c id : Nat) : State :=
  let s1 := match (s.core c).op id with
    | some o => (match o.kind with
      | .store => if o.cancelLines.unperformed then s.updCore c fun k => k.updOp id MemOp.cancelLines else s.dropOps c fun p => p.id == id
      | _ => s.dropOps c fun p => p.id == id)
    | none => s
  match s1.grpOf c with
  | some g => s1.drainCheck g
  | none => s1

/-- An operation of core `c` faults: an entry is written for it (10 R171), and in a draining group it is cancelled (04 R94; 08 R145). -/
def State.opFault (s : State) (c : Nat) (o : MemOp) (cause kind opnd va : Nat) (again : Again) : State :=
  let s1 := (s.updCore c fun k => k.updOp o.id fun o => { o with fq := true }).faultEntry (s.ctxOf c) cause c (s.gidOf c).toNat kind opnd
    (o.pos % 8) va o.addr again
  if s1.draining c then s1.cancelOp c o.id else s1

/-- A line access of an operation faults; the entry is written when every line has been looked up, for the lowest faulting
line (18 R310). -/
def State.noteFault (s : State) (c id : Nat) : State :=
  match (s.core c).op id with
  | none => s
  | some o =>
    if o.fq || (match o.kind with
        | .placed _ => true
        | _ => false) || o.lines.any (fun l => match l.st with
        | .idle | .walk => true
        | _ => false) then s
    else match o.lines.find? (fun l => match l.st with
        | .fault _ => true
        | _ => false) with
      | none => s
      | some l =>
        let cause := match l.st with
          | .fault n => n
          | _ => 0
        let kind := match o.kind with
          | .store => 2
          | .tldw _ _ => 5
          | .waita _ _ _ => 4
          | _ => 1
        s.opFault c o cause kind 1 (lineOf l.va + o.firstByte l) (.op c id)

/-- A µTLB miss joins the walk of its page, or asks for one: 6 cycles to the die's TLB, 40 more to the walk cache (10 R164, R165, 22
R387). Of the misses that arrive with it the lowest core counts. -/
def State.missLine (s : State) (c id n va : Nat) : State :=
  let die := c / 8
  let x := s.ctxOf c
  let page := va / 65536 * 65536
  let mine := fun (w : Walk) => decide (w.ctx = x ∧ w.va = page)
  let t := if (s.die die).tlb.any (·.covers x va) then 6 else 46
  if (s.die die).walks.any mine then
    let join := fun (w : Walk) => { w with joins := w.joins ++ [(c, id, n)], core := if w.arr = s.now + t then min w.core c else w.core }
    s.updDie die fun d => { d with walks := updWhere mine join d.walks }
  else (s.updDie die fun d => { d with walks := d.walks ++ [⟨x, page, s.now + t, c, none, [(c, id, n)]⟩] }).after t
    (.walkStart (fin8 die) (fin64 x) page)

/-- One line of an operation starts: translation, then its way to the source or the buffer (22 R387, R442; 04 R79). -/
def State.startLine (s : State) (c : Nat) (o : MemOp) (n : Nat) (l : LineAcc) (busy : List Nat) : State :=
  let write := match o.kind with
    | .store => true
    | _ => false
  match s.coreXlate c (s.ctxOf c) l.va write with
  | .miss => (s.updCore c fun k => k.updOp o.id fun o => o.updLine n fun l => { l with st := .walk }).missLine c o.id n l.va
  | .fault cause => s.updCore c fun k => k.updOp o.id fun o => o.updLine n fun l => { l with st := .fault cause }
  | .ok key home pte =>
    if busy.contains (lineOf key) then s
    else
      let len := o.lines.length
      let lock := s.lockOf (s.ctxOf c) l.va pte
      let s1 := (s.pinTake lock).touchXl c l.va
      let hit := !write && !o.nl1 && !isScr key && (s.core c).l1.any fun e => decide (e.1 = lineOf key)
      let s2 := s1.updCore c fun k => k.updOp o.id fun o => o.updLine n fun l =>
        { l with st := .flight, key := lineOf key, home := home, pte := pte, acq := (s.agent (c / 8)).acq, lock := lock, l1 := hit }
      if write then
        let d := if !isScr key then 1 + n / 4
          else if ownWindow l.va then 6 + ceilDiv len 4
          else if scrCore key / 8 = c / 8 then 14 + ceilDiv len 2 else 80 + ceilDiv len 2
        s2.after d (.storePerformed (fin64 c) o.id n)
      else s2.after (srcOut (lineSource c l.va (lineOf key) home hit false) n) (.loadPerformed (fin64 c) o.id n)

/-- What stands ahead of an operation in program order, as the queue is walked. -/
structure Ahead where
  fence  : Bool
  rel    : Bool
  loads  : Bool
  stores : Bool
  placed : Bool
  tlbi   : Bool
  /-- Lines of unperformed accesses, by key and by virtual address. -/
  keys   : List Nat
  vas    : List Nat
  /-- The same without the load lines that are on their way: what a load's line waits for (04 R79). -/
  skeys  : List Nat
  svas   : List Nat

/-- A load of data, which is performed at its source at once. -/
def MemOp.isPlainLoad (o : MemOp) : Bool := match o.kind with
  | .load _ _ _ _ | .tldw _ _ | .chcfg _ _ => true
  | _ => false
/-- A line that has left, or whose page is being walked. -/
def LineAcc.onWay (l : LineAcc) : Bool := match l.st with
  | .walk | .flight => true
  | _ => false

/-- Base that the addresses of an access through a placement entry are computed at; the entry's BASE replaces it (13 R217). -/
def pstoreBase : Nat := 2 ^ 60
/-- An address through a placement entry of a context with its BASE as it stands; through none it is what it is. -/
def State.entryVa (s : State) (x : Nat) : Option Nat → Nat → Nat
  | none, va => va
  | some e, va => (va + 2 ^ 64 - pstoreBase + get (wnth (s.plent x e).words 2) 51 0) % 2 ^ 64

/-- The storage a line not looked up yet would name: what orders it against an access by another address of the same bytes (01 R18). -/
def State.peekKey (s : State) (c va : Nat) : List Nat := match s.agentXlate (some c) (s.ctxOf c) va false false with
  | .ok key _ _ => [lineOf key]
  | _ => []

/-- Address and storage of a line, as what stands ahead of later accesses. -/
def State.lineNames (s : State) (c : Nat) (ls : List LineAcc) : List Nat × List Nat :=
  (ls.flatMap fun l => match l.st with
    | .idle | .walk => s.peekKey c l.va
    | .fault _ => []
    | _ => [l.key],
   ls.map fun l => lineOf l.va)

/-- What an operation puts ahead of later ones of core `c`: its lines not performed, or those it is about to access (03 R76; 04 R79). -/
def Ahead.add (s : State) (c : Nat) (a : Ahead) (o : MemOp) : Ahead :=
  let open_ := o.lines.filter fun l => !l.isDone
  let held := if o.isPlainLoad then open_.filter fun l => !l.onWay else open_
  let far := if o.lines.isEmpty then o.about.map fun e => lineOf (s.entryVa (s.ctxOf c) e.1 e.2.2) else []
  let farKeys := far.flatMap (s.peekKey c)
  let n := s.lineNames c open_
  let m := s.lineNames c held
  let b := { a with keys := a.keys ++ n.1 ++ farKeys, vas := a.vas ++ n.2 ++ far, skeys := a.skeys ++ m.1 ++ farKeys, svas := a.svas ++ m.2 ++ far,
                    loads := a.loads || o.reads }
  match o.kind with
  | .fence ord _ _ => { b with fence := true, rel := b.rel || (relOrd ord) }
  | .store => { b with stores := b.stores || !open_.isEmpty }
  | .pstore _ _ => { b with stores := true }
  | .placed _ => { b with placed := true }
  | .req (.tlbi _ _ _) _ => { b with tlbi := true }
  | _ => b

/-- A die has sent what is not acknowledged: drained lines, and tiles to peer packages (04 R88). -/
def State.unacked (s : State) (d : Nat) : Bool :=
  (s.die d).wcb.any (·.sent.isSome) || (List.range 8).any fun i => (s.core (8 * d + i)).memq.any fun o => match o.kind with
    | .chsend _ _ _ m => m != 0
    | _ => false

/-- The fence's awaits end; what it needs at the end of the drain (04 R88). An SC fence of CORE scope awaits no acknowledgement: it acts as
ACQREL (R89, against R88's `order = SC`; DEDUCED, log 14). -/
def State.fenceDone (s : State) (c : Nat) (o : MemOp) : Bool :=
  match o.kind with
  | .fence ord sc stage =>
    stage == 2 && decide (o.ready ≤ s.now) && (!(relOrd ord && (sc == .system || (ord == .sc && sc != .core))) || !s.unacked (c / 8))
  | _ => false

/-- Barriers whose phase view P xor A is 1 as something leaves the core: an A bit that the cycle's own bundle sets is not seen yet
(09 R151, R155, R443; 00 R10). -/
def Core.tags (k : Core) (now : Nat) : List Nat :=
  let a := k.bA.filter fun b => k.arvAt != some (b, now)
  k.bP.filter (fun b => !a.contains b) ++ a.filter fun b => !k.bP.contains b

/-- A request leaves the core (16 R273, R276; 21 R367). -/
def State.sendReq (s : State) (c : Nat) (o : MemOp) (r : Req) (at_ : Nat) : State :=
  let t := max s.now at_
  let s1 := s.updCore c fun k => k.updOp o.id fun o => { o with left := true, tags := k.tags s.now }
  let gid := s.gidOf c
  match r with
  | .sem _ _ _ _ _ => s1.sched t (.semaphoreOperation (fin64 c) o.id)
  | .flag rank f v => (s1.updCore c fun k => k.dropOp o.id).sched t
      (.remoteFlagChange gid (fin64 c) rank (fin32 f) v (s.agent (c / 8)).epoch (s.agent (c / 8)).acq)
  | .bdcl b d => (s1.updCore c fun k => k.dropOp o.id).sched t (.bdclArrival gid (fin64 c) (fin64 b) d)
  | .barv b tag ch =>
    -- the path of a named channel brings the arrival behind the core's earlier sends on it (09 R155, R161)
    let behind := s.agenda.foldl (fun u e => match e.2 with
      | .channelLanding _ _ from_ n _ _ _ _ => if from_ = c ∧ ch = some n.val then max u (e.1 + 1) else u
      | _ => u) t
    (s1.updCore c fun k => k.dropOp o.id).sched behind (.barrierArrival gid (fin64 c) (fin64 b) tag)
  | .trig => (s1.updCore c fun k => k.dropOp o.id).trigDone c
  | .tlbi _ _ _ => s1.sched t .invalidationBegin
  | _ =>
    -- a core's requests reach the ridge in order; these two read memory where they arrive
    let isReq := fun (id : Nat) => ((s.core c).op id).any fun p => match p.kind with
      | .req _ _ => true
      | _ => false
    let behind := s.agenda.foldl (fun u e => match e.2 with
      | .replyArrival k ⟨_, id⟩ => if k.val = c ∧ isReq id = true then max u e.1 else u
      | _ => u) t
    let reads := match r with
      | .pldef _ _ | .slbxl _ _ _ _ | .slabDone _ _ => true
      | _ => false
    s1.sched (if reads then max behind s1.settleAt else behind) (.replyArrival (fin64 c) ⟨gid, o.id⟩)

/-- Sends of core `c` to a consumer on another package, on channel `n` and issued before `p`, that have not been acknowledged (09 R155). -/
def Core.sending (k : Core) (n p : Nat) : Bool := k.memq.any fun o => match o.kind with
  | .chsend t _ _ _ => t.2.2.1 == n && decide (o.pos < p)
  | _ => false

/-- CHSND to a peer package: the tile goes out on VC3 (21 R372); with no usable link the operation takes fault cause 6 (11 R190; KIND 2 and
VA 0 are the model's: DESIGN CHOICE, log 18). -/
def State.sendTile (s : State) (c : Nat) (o : MemOp) (t : Nat × Nat × Nat × Nat) (shape : Word) (img : List Byte) : State :=
  let r := s.sendPeer (c / 8) 3 t.1 (s.spanTag c) img (.landing t.2.1 (64 * (s.regs.pkrank + 1) + c) t.2.2.1 t.2.2.2 shape (!o.tags.isEmpty))
  match r.2 with
  | some m => r.1.updCore c fun k => k.updOp o.id fun o => { o with left := true, kind := .chsend t shape img m }
  | none => s.opFault c o 6 2 1 0 (.op c o.id)

/-- What can start of one operation, given what stands ahead. -/
def State.pumpOp (s : State) (c : Nat) (a : Ahead) (o : MemOp) : State :=
  let lines := fun (s : State) => if !(o.lines.any fun l => l.st == .idle) then s else ((List.range o.lines.length).foldl (fun (s : State) n =>
    match ((s.core c).op o.id).bind fun o => o.lines[n]? with
    | some l => (match l.st with
      | .idle =>
        if (if o.isPlainLoad then a.svas else a.vas).contains (lineOf l.va) then s
        else s.startLine c o n l (if o.isPlainLoad then a.skeys else a.keys)
      | _ => s)
    | none => s) s).noteFault c o.id
  match o.kind with
  | .fence ord sc stage =>
    if stage ≠ 0 then (if s.fenceDone c o ∧ ¬ o.left then
        (s.updCore c fun k => k.updOp o.id fun o => { o with left := true }).soon (.releaseComplete (fin64 c) o.id) else s)
    else if a.fence then s
    else
      let relOk := !a.loads && !a.stores && !a.placed && !((wideScope sc) && a.tlbi)
      let acqOk := !a.loads
      if ((relOrd ord) && !relOk) || ((acqOrd ord) && !acqOk) then s
      else (s.updCore c fun k => k.updOp o.id fun o => { o with kind := .fence ord sc 1, ready := s.now }).soon (.releaseComplete (fin64 c) o.id)
  | .req r t =>
    let waits := match r with
      | .barv _ _ (some n) => (s.core c).sending n o.pos
      | _ => false
    if o.left ∨ a.rel ∨ waits = true then s else s.sendReq c o r t
  | .chsend t shape img _ => if o.left ∨ o.fq then s else s.sendTile c o t shape img
  | .placed _ =>
    let far := if o.lines.isEmpty then o.about.map fun e => lineOf (s.entryVa (s.ctxOf c) e.1 e.2.2) else []
    let names := s.lineNames c (o.lines.filter fun l => !l.isDone)
    let clash := (names.2 ++ far).any a.vas.contains || (names.1 ++ far.flatMap (s.peekKey c)).any a.keys.contains
    let redo := !o.fq && s.ridge.pieces.any fun p => p.2.core == c && p.2.op == o.id && p.2.st == 5
    let todo := o.land.isNone || redo || o.lines.any fun l => l.st == .idle
    if (o.left && !redo) || a.fence || (s.core c).hold.isSome then s
    else
      let s1 := s.updCore c fun k => k.updOp o.id fun o => { o with ready := if clash then 0 else 1 }
      if todo || (!clash && o.ready = 0) then s1.soon (.placement (fin64 c)) else s1
  | .load _ _ _ enf =>
    if a.fence then s
    else if o.lines.isEmpty ∧ ¬ o.left then
      let s1 := s.updCore c fun k => k.updOp o.id fun o => { o with left := true, tags := k.tags s.now }
      if enf.isSome then s1.replyAfter c 40 o.id else s1.after 1 (.loadLanding (fin64 c) o.id)
    else lines s
  | .pstore _ _ =>
    if a.fence ∨ a.loads ∨ o.left then s
    else (s.updCore c fun k => k.updOp o.id fun o => { o with left := true }).after 60 (.tsthAtEave (fin64 c) o.id)
  | _ => if a.fence then s else lines s

/-- One pass over a core's operations in program order. -/
def State.pumpGo (s : State) (c : Nat) : List Nat → Ahead → State
  | [], _ => s
  | id :: ids, a =>
    match (s.core c).op id with
    | none => s.pumpGo c ids a
    | some o =>
      let s1 := s.pumpOp c a o
      s1.pumpGo c ids (match (s1.core c).op id with
        | some o1 => a.add s1 c o1
        | none => a)

/-- Start what can start in core `c`. -/
def State.pump (s : State) (c : Nat) : State :=
  s.pumpGo c ((s.core c).memq.map (·.id)) ⟨false, false, false, false, false, false, [], [], [], []⟩

/-- Start what can start in every core of a die. -/
def State.pumpDie (s : State) (d : Nat) : State := (List.range 8).foldl (fun (s : State) i => s.pump (8 * d + i)) s

/-- An operation enters a core's queue at a position (or the region's held actions: see Operands). -/
def State.push (s : State) (c pos addr : Nat) (kind : OpKind) (lines : List LineAcc) (chunks : List Chunk) (land : Option Nat)
    (nl1 : Bool) (about : List (Option Nat × Bool × Nat) := []) : State :=
  let o : MemOp := { id := s.nextId, pos := pos, addr := addr, kind := kind, lines := lines, chunks := chunks, land := land,
                     left := false, nl1 := nl1, ready := 0, fq := false, tags := [], about := about, full := false, rbnd := (s.core c).rbnd }
  s.bump.updCore c fun k => { k with memq := k.memq ++ [o] }

/-- A fence at a core's position. -/
def State.pushFence (s : State) (c pos : Nat) (ord : Order) (sc : Scope) : State :=
  s.push c pos (s.bundleAddr c) (.fence ord sc 0) [] [] none false

/-! ### Packets and groups -/

/-- A core stops issuing: its skid queue, its pending writes, its wait and its speculative region go (08 R145, 16 R279). -/
def Core.halt (k : Core) : Core :=
  { k with skid := [], pend := [], waitT := none, spec := none, frozen := false, early := none, hold := none,
           bctx := BCtx.fresh }

/-- Requests of a core that wait at the ridge are withdrawn: EXACQs for a slot, VRCNTs behind route operations. -/
def State.dropAsked (s : State) (c : Nat) : State :=
  let s1 := s.updRidge fun r => { r with exwait := r.exwait.filter fun w => w.1 != c }
  s1.updCtx (s.ctxOf c) fun x => { x with routes := x.routes.map fun e => (e.1, { e.2 with reads := e.2.reads.filter fun w => w.1 != c }) }

/-- A request of the core stands at the ridge and no reply is on its way. -/
def State.asking (s : State) (c : Nat) (o : MemOp) : Bool := o.left && (match o.kind with
  | .req (.tlbi _ _ _) _ => false
  | .req (.sem _ _ _ _ _) _ => false
  | .req _ _ => !s.agenda.any fun e => match e.2 with
      | .replyArrival k ⟨_, id⟩ => k.val == c && id == o.id
      | _ => false
  | _ => false)

/-- A piece has entered intake (03 R65, R69). -/
def Piece.taken (p : Piece) : Bool := decide (1 ≤ p.st ∧ p.st ≤ 3) || (p.place == 0 && p.st == 0)
/-- Pieces of a core's operation. -/
def State.hasPiece (s : State) (c id : Nat) (f : Piece → Bool) : Bool := s.ridge.pieces.any fun p => p.2.core == c && p.2.op == id && f p.2
/-- Pieces of a core that satisfy a test are forgotten. -/
def State.dropPieces (s : State) (c : Nat) (f : Piece → Bool) : State :=
  s.updRidge fun r => { r with pieces := r.pieces.filter fun p => !(p.2.core == c && f p.2) }

/-- What has faulted is cancelled, and waits; cancelled pieces go and the others of their operation run on (04 R94; 08 R145). Loads whose
data is there have no landing bundle left to wait for. -/
def State.cancelFaulted (s : State) (c : Nat) : State :=
  let s1 := s.dropPieces c fun p => p.st == 5
  let gone := fun (o : MemOp) => match o.kind with
    | .waita _ _ _ => true
    | .store => !o.cancelLines.unperformed
    | .placed _ => o.fq && !s1.hasPiece c o.id fun p => p.st != 4
    | _ => o.fq || (o.isLoad && !o.unperformed) || o.lines.any fun l => match l.st with
        | .fault _ => true
        | _ => false
  let keep := fun (o : MemOp) => match o.kind with
    | .store => o.cancelLines
    | .placed _ => { o with fq := false }
    | _ => o
  (s1.dropOps c gone).updCore c fun k => { k with memq := k.memq.map keep }

/-- A stop without save: pieces in intake run to completion, and nothing else is waited for (08 R145). -/
def State.stopCore (s : State) (c : Nat) : State :=
  let s1 := s.dropPieces c fun p => !p.taken && p.st != 4
  let s2 := s1.dropOps c fun o => !s1.hasPiece c o.id Piece.taken
  (s2.updCore c fun k => { k with jobs := [], mma := [], pipeV := [], pipeQ := [], writers := [], readers := [] }).soon (.pieceStart (fin10 0))

/-- A member's part of ending a group. With `stop` only pieces in intake are waited for; otherwise its dies make a SYSTEM release
when what it issued has completed (08 R145). -/
def State.endCore (s : State) (stop : Bool) (c : Nat) : State :=
  let s0 := s.updCore c fun k => { k with memq := k.memq.filter fun o => !s.asking c o }
  let s1 := (s0.dropAsked c).updCore c Core.halt
  let s2 := s1.updRidge fun r => { r with semw := r.semw.filter fun w => w.core != c,
                                          mons := r.mons.filter fun m => m.core != c }
  let s3 := (List.range 8).foldl (fun (s : State) d => s.updDie d fun x => { x with mons := x.mons.filter fun m => m.core != c }) s2
  if stop then (s3.stopCore c).releaseHeld (c / 8)
  else
    let s4 := (s3.cancelFaulted c).releaseHeld (c / 8)
    (s4.pushFence c (8 * (s4.core c).lcyc + 8) .rel .system).pump c

/-- TAKING A TRAP, and every other end of a group (08 R140, R145; 14 R247; 05 R106): the index goes to DRAINING with its
CAUSE and trap code, `GTRAP` names bundle and slot, the context is handled, every member stops issuing. -/
def State.endGroup (s : State) (g cause trap : Nat) (gt : Word) (stop : Bool) : State :=
  let x := s.grp g
  if 5 ≤ x.state then s else
    let s1 := s.updGrp g fun x => { x with state := 5, cause := cause, trap := trap, gtrap := gt }
    let s2 := if cause = 2 then s1.ctxFault x.ctx 1 else s1
    match x.run with
    | none => s2
    | some r =>
      let s3 := s2.updRun g fun r => { r with saved := [], ready := false, preempt := false, saving := 0 }
      let hold := decide (x.state ≠ 4)
      let s4 := if hold then r.members.foldl (fun (s : State) c => s.endCore stop c) s3
        else r.members.foldl (fun (s : State) c => (s.tieHeld (c + 64 * (g + 1)) (2 ^ 20 + c)).releaseHeld (c / 8)) s3
      if hold then s4.drainCheck g else s4.soon (.drainComplete (fin1024 g))

/-- `GTRAP` of a bundle and slot (14 R247). -/
def gtrapWord (addr slot : Nat) : Word := felaWord addr slot

/-- A stop without save (08 R145). -/
def State.stopGroup (s : State) (g cause trap : Nat) : State := s.endGroup g cause trap 0 true

end Sys2Proof.Machine
end

