-- ==== Sys2Proof/Machine/Checks.lean ====
section
/-! DEFINITION. What is tested before an instruction whose predicate holds executes: its execution traps, then its
freezes (14 R237, R247, R248, R445; 08 Table 8.4; 18 R311; 19 R332, R335, R336; 20 R348, R349; 21 R370 to R373). -/

namespace Sys2Proof.Machine
open Sys2Proof.Bits

/-! ### Facts the tests use -/

/-- Device semaphore `n` is claimed for context `x` (30 Table 30.2). -/
def State.claimed (s : State) (x n : Nat) : Bool :=
  let b := Tbl.getD s.ridge.claims n 0
  decide (b / 128 % 2 = 1 ∧ b % 64 = x)

/-- A semaphore number a core may name (09 R157, 16 R274). -/
def State.semOk (s : State) (c : Nat) (n : Word) : Bool :=
  if n.toNat < 0x10000 then s.claimed (s.ctxOf c) n.toNat else decide (n.toNat < 0x10400)

/-- NBAR and NCH of the core's group. -/
def State.nbar (s : State) (c : Nat) : Nat := ((s.runOf c).map (·.bars.length)).getD 0
def State.nch (s : State) (c : Nat) : Nat := ((s.runOf c).map (·.chs.length)).getD 0

/-- Core `c` decides branches for its course: the lowest rank that has not executed EXIT (16 R260). -/
def State.decider (s : State) (c : Nat) : Bool :=
  match (s.membersOf c).find? fun m => !(s.core m).exited with
  | some m => m == c
  | none => true

/-- Iterations LOOP opens from a register (16 R265). -/
def clampCount (v : Word) : Nat := if sgn v ≤ 0 then 0 else if sgn v > 1048575 then 1048575 else (sgn v).toNat

/-- Where a channel's landing goes from core `c`: package rank (none: this package) and member rank; none when the member
does nothing (21 R368, R371). -/
def State.chTarget (s : State) (c : Nat) (x : Chan) : Option (Option Nat × Nat) :=
  let n := (s.membersOf c).length
  let own := s.rankOf c
  let r := if x.rel then (own + x.rank) % max n 1 else x.rank
  if x.x && x.pkg != s.regs.pkrank then some (some x.pkg, r)
  else if n ≤ r then none
  else if !x.rel && r == own then none
  else some (none, r)

/-- Core `c` consumes a ring of the channel (21 R368, R373). -/
def State.consumes (s : State) (c : Nat) (x : Chan) : Bool :=
  (!x.x || x.pkg == s.regs.pkrank) && (x.rel || x.rank == s.rankOf c)

/-- A channel of core `c` whose CHCFG entry has not arrived. -/
def Core.chPending (k : Core) (c : Nat) : Bool := ((Tbl.get k.chans c).map (·.pend)).getD false

/-- LANDUSE on lines `first` to `first + n - 1` of tile `t` (14 R237). -/
def Core.landT (k : Core) (t first n : Nat) : Option Nat := if k.awaits t first n then some trLANDUSE else none

/-- Entries of the placement stage in use (03 R67). -/
def Core.stageUsed (k : Core) : Nat := (k.memq.filter fun o => match o.kind with
  | .placed _ => !o.left
  | _ => false).length

/-- An MMA that is running its K-steps or waits in the shadow set (19 R335). -/
def MmaOp.active (o : MmaOp) (now : Nat) : Bool := match o.start with
  | some t => decide (now < t + o.ksteps * o.c)
  | none => true

/-- A piece of a placed MMA holds the array of core `c` now. -/
def State.corePiece (s : State) (c : Nat) : Bool :=
  s.ridge.pieces.any fun p => p.2.core == c && p.2.place == 0 && p.2.st == 2 && decide (s.now < p.2.out)

/-- Stores waiting in the core's store queue (04 R88). -/
def Core.storeQ (k : Core) : Nat := (k.memq.filter fun o => match o.kind with
  | .store => o.unperformed
  | .pstore _ _ => true
  | _ => false).length

/-- Held store lines of an open region (16 R277). -/
def Spec.lines (r : Spec) : Nat := (r.held.map fun h => match h.op.kind with
  | .store => h.op.lines.length
  | .pstore _ _ => h.op.about.length
  | _ => 0).sum

/-! ### Tile operands -/

/-- First trap of a shape. -/
def Core.shapeT (k : Core) (t : Nat) : Option Nat := (k.shape t).trap

/-- The index tile of TLDG and TSTS (18 R316). -/
def idxOk (i : Shape) : Bool := i.fmt == 0x22 || i.fmt == 0x2A

/-- Traps of TLDG and TSTS on their shapes. -/
def gatherTrap (d i : Shape) : Option Nat :=
  if d.trap = some trFMTOP ∨ idxOk i = false ∨ (fmtOf d.fmt).any Fmt.isMx then some trFMTOP
  else if d.trap.isSome ∨ i.trap.isSome ∨ i.rows * i.cols < d.rows then some trSHAPE
  else none

/-- HALO rows and columns. -/
def Core.haloR (k : Core) : Nat := k.halo % 256
def Core.haloC (k : Core) : Nat := k.halo / 256 % 256

/-- Traps of TLDX (18 R313). -/
def Core.haloTrap (k : Core) (t : Nat) : Option Nat :=
  let d := k.shape t
  if d.trap = some trFMTOP ∨ (fmtOf d.fmt).any Fmt.isMx then some trFMTOP
  else if d.trap.isSome ∨ d.rows ≤ 2 * k.haloR ∨ d.cols ≤ 2 * k.haloC then some trSHAPE
  else none

/-- A matrix operand's tile, unless it is bound. -/
def Core.mopTile (k : Core) (o : MOp) : Option Nat := match o with
  | .tile t => if (k.boundTo t.val).isSome then none else some t.val
  | _ => none
/-- A channel operand's slot holds a tile (19 R327). -/
def Core.mopFull (k : Core) (o : MOp) : Bool := match o with
  | .chan c => match k.chan c.val with
    | some x => !x.pend && x.cur.1 == 2
    | none => false
  | _ => true
/-- Lines a tile operand takes under format `f`. -/
def Core.mopLines (k : Core) (o : MOp) (f : Nat) : Nat := ({ k.mopShape o with fmt := f } : Shape).lines
/-- The operand is a channel at or above NCH. -/
def mopChBad (nch : Nat) (o : MOp) : Bool := match o with
  | .chan c => decide (nch ≤ c.val)
  | _ => false
/-- Formats an MMA entry may hold (19 R329, R330). -/
def entryOk (f : Nat) : Bool := (1 ≤ f && f ≤ 4) || (0x10 ≤ f && f ≤ 0x14)
/-- K of an operand (19 R327). -/
def kOf (s : Shape) : Nat := 32 * ceilDiv s.cols 32
/-- The pattern's active steps (19 R334). -/
def patSteps (p : Word) : List Nat := (List.range (get p 18 16 + 1)).map fun i => get p (2 * i + 1) (2 * i)
/-- A handle operand with o3 not a multiple of 32. -/
def Core.hndBad (k : Core) (o : MOp) : Bool := (k.mopHandle o).isSome && decide ((k.offGroup 0).getD 3 0 % 32 ≠ 0)
/-- LANDUSE of a matrix operand. -/
def Core.mopLand (k : Core) (o : MOp) (f : Nat) : Option Nat := match k.mopTile o with
  | some t => k.landT t 0 (k.mopLines o f)
  | none => none

/-- Checks of MMA and MMAZ in the order of 19 R332, then LANDUSE. A check of a channel slot that is not FULL waits for its
arrival (R445). -/
def State.mmaTrap (s : State) (c : Nat) (a b : MOp) (fs : Bool) : Option Nat :=
  let k := s.core c
  let e := k.fmtEntry fs
  let fa := get e 15 8
  let fb := get e 7 0
  let sa := k.mopShape a
  let sb := k.mopShape b
  let big := fun (o : MOp) (f : Nat) => (k.mopHandle o).isNone && decide (256 < k.mopLines o f)
  let known := k.mopFull a && k.mopFull b
  if !entryOk fa || !entryOk fb || (patSteps k.mcopr).contains 3 then some trFMTOP
  else if known && (decide (256 < sa.rows ∨ 256 < sb.rows ∨ kOf sa ≠ kOf sb ∨ 65536 < kOf sa) || big a fa || big b fb)
    then some trSHAPE
  else if k.hndBad a || k.hndBad b then some trSHAPE
  else if mopChBad (s.nch c) a || mopChBad (s.nch c) b then some trBAROP
  else
    let bank := match a, b with
      | .tile t, .tile u => t.val / 32 == u.val / 32
      | _, _ => false
    if bank then some trBANKC else (k.mopLand a fa).or (k.mopLand b fb)

/-- Checks of MFEED (19 R340). -/
def State.mfeedTrap (s : State) (c : Nat) (a : MOp) : Option Nat :=
  let k := s.core c
  let sh := k.mopShape a
  if mopChBad (s.nch c) a then some trBAROP
  else if !k.mopFull a then none
  else if 4 < sh.fmt then some trFMTOP
  else if 256 < sh.rows ∨ 256 < sh.cols ∨ ((k.mopHandle a).isNone ∧ sh.trap.isSome) then some trSHAPE
  else k.mopLand a sh.fmt

/-- Checks of MOUT and MRD on tD (19 R337, R338). -/
def Core.moutTrap (k : Core) (t : Nat) (mrd : Bool) : Option Nat :=
  let d := k.shape t
  if d.trap = some trFMTOP ∨ (mrd ∧ d.fmt ≠ 0) then some trFMTOP
  else if 256 < d.rows ∨ 256 < d.cols ∨ d.trap.isSome then some trSHAPE
  else match k.boundTo t with
    | some h => handleTrap d (k.hwords h) (k.offGroup 0)
    | none => k.landT t 0 d.lines

/-! ### Vector operands -/

/-- Lines a vector instruction reads in the TRF: tile, first line, count (20 R348, R356). -/
def Core.vecReads (k : Core) (v : VecI) : List (Nat × Nat × Nat) :=
  let tiles := (v.reads (k.shape v.d) (k.shape v.a)).filter fun t => (k.boundTo t).isNone
  let ins := match v.op with
    | .ins _ idx => match insLine (k.shape v.d) idx, k.boundTo v.d with
      | some n, none => [(v.d, n, 1)]
      | _, _ => []
    | _ => []
  tiles.map (fun t => (t, 0, (k.shape t).lines)) ++ ins

/-- Lines it writes in the TRF. -/
def Core.vecWrites (k : Core) (v : VecI) : List (Nat × Nat × Nat) :=
  let tiles := v.writes.filter fun t => (k.boundTo t).isNone
  match v.op with
  | .ins _ idx => match insLine (k.shape v.d) idx, k.boundTo v.d with
    | some n, none => [(v.d, n, 1)]
    | _, _ => []
  | _ => tiles.map fun t => (t, 0, (k.shape t).lines)

/-- Traps of a vector instruction: formats and shapes, its bound tiles' handles, then LANDUSE. -/
def Core.vecTrap (k : Core) (v : VecI) : Option Nat :=
  let d := k.shape v.d
  let a := k.shape v.a
  ((v.op.check d a (k.shape v.b) (k.shape (v.a + 1)) (v.a != 127)).or
    ((v.named d a).findSome? fun t => (k.boundTo t).bind fun h => handleTrap (k.shape t) (k.hwords h) (k.offGroup 0))).or
    ((k.vecReads v ++ k.vecWrites v).findSome? fun r => k.landT r.1 r.2.1 r.2.2)

/-! ### Execution traps -/

/-- The execution trap of an instruction whose predicate holds, if any (14 R247, Table 14.14). -/
def State.trapOf (s : State) (c : Nat) (i : Instr) : Option Nat :=
  let k := s.core c
  let ch := fun (n : CReg) => if s.nch c ≤ n.val then some trBAROP else none
  let bar := fun (b : BReg) => if s.nbar c ≤ b.val then some trBAROP else none
  let sem := fun (x : XReg) => if s.semOk c (k.rx x) then none else some trSEMNUM
  let full := fun (h : Bool) (n : Nat) => if h && decide (n ≠ 0) && decide (6 ≤ k.stack.length) && s.decider c
    && !(((k.skid.head?).map (·.delay)).getD false) then some trLOOPOVF else none
  match i with
  | .loop _ _ _ n _ => full true n.val
  | .loopReg _ _ _ x _ => full true (clampCount (k.rx x))
  | .waitSem _ x _ => sem x
  | .sadd _ _ x _ | .scas _ _ x _ | .sxch _ _ x _ | .smax _ _ x _ | .swge _ _ x _ | .srd _ _ x => sem x
  | .waita _ x _ _ => if (k.rx x).toNat % 8 = 0 then none else some trALIGN
  | .bdcl _ b x => if s.nbar c ≤ b.val ∨ get (k.rx x) 63 48 ≠ 0 then some trBAROP else none
  | .bwt _ b => bar b
  | .barv _ b n named | .sstep _ b n named => (bar b).or (if named then ch n else none)
  | .enq _ _ _ t _ => k.landT t.val 0 1
  | .frsm _ _ _ _ | .tlbi _ _ _ _ => if (s.ctx (s.ctxOf c)).priv then none else some trPRIVOP
  | .ldp _ _ w _ | .ldpx _ _ w _ => match (s.runOf c).bind (fun r => (r.win[w.val]?).join) with
    | some _ => none
    | none => some trPARAM
  | .tld _ t _ _ _ _ => (k.shapeT t.val).or (k.landT t.val 0 (k.shape t.val).lines)
  | .tst _ t _ _ => (k.shapeT t.val).or (k.landT t.val 0 (k.shape t.val).lines)
  | .tldh _ t h g _ _ => (handleTrap (k.shape t.val) (k.hwords h.val) (k.offGroup g.val)).or (k.landT t.val 0 (k.shape t.val).lines)
  | .tsth _ t h g => (handleTrap (k.shape t.val) (k.hwords h.val) (k.offGroup g.val)).or (k.landT t.val 0 (k.shape t.val).lines)
  | .tldg _ t _ x _ | .tsts _ t _ x => ((gatherTrap (k.shape t.val) (k.shape x.val)).or
      (k.landT x.val 0 (k.shape x.val).lines)).or (k.landT t.val 0 (k.shape t.val).lines)
  | .tldx _ t _ _ _ => (k.haloTrap t.val).or (k.landT t.val 0 (k.shape t.val).lines)
  | .tldw _ _ x o _ => if k.addr x o % 8 = 0 then none else some trALIGN
  | .tshp _ t x | .tshpBound _ t x _ => ((shapeOf (k.rx x)).trap).or (k.landT t.val 0 256)
  | .tzero _ t | .tempty _ t => (k.shapeT t.val).or (k.landT t.val 0 (k.shape t.val).lines)
  | .mma _ _ a b fs | .mmaz _ _ a b fs => s.mmaTrap c a b fs
  | .mfeed _ _ a => s.mfeedTrap c a
  | .mout _ t _ _ _ => k.moutTrap t.val false
  | .mrd _ t _ _ => k.moutTrap t.val true
  | .chcfg _ n x => if (k.rx x).toNat % 32 ≠ 0 then some trALIGN else ch n
  | .chsnd _ n t => (ch n).or (match k.chan n.val with
    | none => none
    | some x => if x.pend || (s.chTarget c x).isNone then none
      else (k.shapeT t.val).or (if x.lines < (k.shape t.val).lines then some trSHAPE
        else k.landT t.val 0 (k.shape t.val).lines))
  | .chadv _ n _ => ch n
  | .chst _ _ n => ch n
  | i => (k.vecOf i).bind k.vecTrap

/-! ### Freezes -/

/-- First cause that holds. -/
def causes (l : List (Bool × Nat)) : Option Nat := (l.find? (·.1)).map (·.2)

/-- The instruction enters the placement stage (03 R55, R56). -/
def Core.isPlaced (k : Core) (i : Instr) : Bool := match i with
  | .mma _ _ a b _ | .mmaz _ _ a b _ => (k.mopHandle a).isSome || (k.mopHandle b).isSome
  | .mfeed _ _ a => (k.mopHandle a).isSome
  | .mout _ t _ _ _ | .mrd _ t _ _ => (k.boundTo t.val).isSome
  | i => match k.vecOf i with
    | some v => k.vecPlaced v
    | none => false

/-- A wait of slot c still has to be met (09 R155, R157, R158). -/
def State.waiting (s : State) (c : Nat) (i : Instr) : Bool :=
  let k := s.core c
  match i with
  | .waitFlag _ f clear => k.flags.getLsbD f.val == clear
  | .waitSem _ _ _ => match s.ridge.semw.find? fun w => w.core == c && w.lcyc == k.lcyc with
    | some w => match w.met with
      | some m => decide (s.now < m + 20)
      | none => true
    | none => true
  | .waita _ _ _ _ => match k.waitT with
    | some (l, id) => !(l == k.lcyc && (k.op id).isNone)
    | none => true
  | .barv _ b _ _ => k.bA.contains b.val
  | .bwt _ b => k.bA.contains b.val
  | .sstep _ b _ _ => !(k.waitT == some (k.lcyc, 0)) || k.bA.contains b.val
  | _ => false

/-- Lines of a store not yet drained by an overflow of its region (16 R279). -/
def Core.storeRest (k : Core) (n : Nat) : Nat := n - k.specFull.getD 0

/-- A store of `n` lines cannot enter its queue (04 R88, 16 R279). -/
def Core.storeFull (k : Core) (n : Nat) : Bool := match k.spec with
  | some r => decide (64 < r.lines + k.storeRest n) ||
      (k.specFull.isSome && k.memq.any fun o => decide (r.pos ≤ o.pos) && o.unperformed)
  | none => decide (32 ≤ k.storeQ)

/-- Rows that a scatter stores: all but those of an INT32 index of -1 (18 R316). -/
def Core.tstsRows (k : Core) (t x : Nat) : Nat :=
  let idx := (tileBits (k.shape x) (k.tileImg x (k.shape x).lines)).flatten
  ((List.range (k.shape t).rows).filter fun r => (k.shape x).fmt != 0x22 || decide (sext (idx.getD r 0) 32 ≠ -1)).length

/-- The freeze cause of an instruction whose predicate holds and whose trap does not (08 Table 8.4). `pre` counts the placed
operations of lower slots of the bundle; `slot` names its pipe. -/
def State.freezeOf (s : State) (c slot pre : Nat) (i : Instr) : Option Nat :=
  let k := s.core c
  let src := fun (t : Nat) => (k.hasEmpty t 0 (k.shape t).lines, 1)
  let dst := fun (t : Nat) => (k.busyDest t, 2)
  let stage := (decide (16 ≤ k.stageUsed + pre), 2)
  let pendc := fun (n : CReg) => (k.chPending n.val, 1)
  let mop := fun (o : MOp) (f : Nat) => match o with
    | .tile t => (match k.mopTile o with
      | some _ => k.hasEmpty t.val 0 (k.mopLines o f)
      | none => false, 1)
    | o => (!k.mopFull o, 1)
  let store := fun (n : Nat) => (k.storeFull n, 2)
  match i with
  | .waitFlag _ _ _ | .waitSem _ _ _ | .waita _ _ _ _ | .bwt _ _ => causes [(s.waiting c i, 3)]
  | .barv _ _ n named | .sstep _ _ n named => causes [(named && k.chPending n.val, 1), (s.waiting c i, 3)]
  | .chst _ _ n => causes [pendc n]
  | .enq _ _ _ t _ => causes [(k.hasEmpty t.val 0 1, 1)]
  | .tld _ t _ _ _ _ | .tldh _ t _ _ _ _ | .tldx _ t _ _ _ => causes [dst t.val]
  | .tldg _ t _ x _ => causes [src x.val, dst t.val]
  | .tst _ t _ _ => causes [src t.val, store (k.shape t.val).lines]
  | .tsth _ t h g => causes [src t.val, store (scatter (hStore (k.shape t.val) (k.tileImg t.val (k.shape t.val).lines) (k.hwords h.val)
      (hBase (k.hwords h.val)) (k.offGroup g.val))).length]
  | .tsts _ t _ x => causes [src t.val, src x.val, store (k.tstsRows t.val x.val * (k.shape t.val).pitch)]
  | .tshp _ t _ | .tshpBound _ t _ _ | .tzero _ t | .tempty _ t => causes [dst t.val]
  | .mma _ acc a b fs | .mmaz _ acc a b fs =>
    let e := k.fmtEntry fs
    causes [mop a (get e 15 8), mop b (get e 7 0), dst (128 + acc.val),
      if k.isPlaced i then stage else (decide (2 ≤ (k.mma.filter fun o => o.active s.now).length + (s.corePiece c).toNat), 2)]
  | .mout _ t _ _ _ => causes [dst t.val, (k.isPlaced i && stage.1, 2)]
  | .mrd _ t _ _ => causes [dst t.val, (k.isPlaced i && stage.1, 2)]
  | .mclr _ acc => causes [dst (128 + acc.val)]
  | .mfeed _ _ a => causes [mop a (k.mopShape a).fmt, (k.isPlaced i && stage.1, 2)]
  | .chcfg _ n _ => causes [pendc n]
  | .chsnd _ n t => match k.chan n.val with
    | some x => if (s.chTarget c x).isNone then causes [pendc n] else causes [pendc n, (x.cred == 0, 2), src t.val]
    | none => causes [pendc n]
  | .chadv _ n cons => match k.chan n.val with
    | some x =>
      if cons then (if s.consumes c x then causes [pendc n, (x.cur.1 != 2, 1), (k.busyDest (256 + 64 * n.val + x.cp), 2)] else causes [pendc n])
      else (if (s.chTarget c x).isNone then causes [pendc n] else causes [pendc n, (x.cred == 0, 2)])
    | none => causes [pendc n]
  | i => match k.vecOf i with
    | none => none
    | some v =>
      causes ((k.vecReads v).map (fun r => (k.hasEmpty r.1 r.2.1 r.2.2, 1)) ++ (k.vecWrites v).map (fun r => (k.busyDest r.1, 2)) ++
        [if k.vecPlaced v then stage else (decide (2 ≤ (if slot = 6 then k.pipeQ else k.pipeV).length), 2)])

/-! ### Starting a wait -/

/-- The scope of a barrier's release and acquire: 1 CLUSTER, 2 DEVICE, 3 SYSTEM (09 Table 9.2). -/
def State.barScope (s : State) (c b : Nat) : Scope :=
  match s.runOf c with
  | none => .cluster
  | some r =>
    let one := r.members.all fun m => m / 8 == c / 8
    match ((r.bars[b]?).map (·.dom)).getD 0 with
    | 0 => .cluster
    | 1 => .cluster
    | 2 => if one then .cluster else .device
    | _ => .system

/-- An action held by an open region until CMIT (16 R277). -/
def State.hold (s : State) (c slot : Nat) (kind : OpKind) (lines : List LineAcc) (x : Option Nat) (lat : Nat)
    (about : List (Option Nat × Bool × Nat) := []) : State :=
  let k := s.core c
  let o : MemOp := { id := s.nextId, pos := k.posAt slot, addr := s.bundleAddr c, kind := kind, lines := lines, chunks := [],
                     land := none, left := false, nl1 := false, ready := 0, fq := false, tags := [], about := about, full := false,
                     rbnd := k.rbnd }
  s.bump.updCore c fun k => { k with spec := k.spec.map fun r => { r with held := r.held ++ [⟨o.pos, o.addr, o, lat, x⟩] } }

/-- FENCE, or an implied ordering, of core `c`: the release part is held by an open region (04 R93). -/
def State.fenceAt (s : State) (c slot : Nat) (ord : Order) (sc : Scope) : State :=
  let k := s.core c
  if k.spec.isNone then (s.pushFence c (k.posAt slot) ord sc).pump c
  else match ord with
    | .acq => (s.pushFence c (k.posAt slot) .acq sc).pump c
    | .rel => s.hold c slot (.fence .rel sc 0) [] none 0
    | .acqrel => ((s.pushFence c (k.posAt slot) .acq sc).pump c).hold c slot (.fence .rel sc 0) [] none 0
    | .sc => s.hold c slot (.fence .sc sc 0) [] none 0

/-- A request of core `c` that reaches its agent `rel` cycles from now at the earliest; its result in `x`, if any, is due
`lat` bundles on (14 R232; 16 R277 in a region). -/
def State.ask (s : State) (c slot : Nat) (r : Req) (rel : Nat) (x : Option Nat) (lat : Nat) : State :=
  let k := s.core c
  if k.spec.isSome then s.hold c slot (.req r rel) [] x lat
  else
    let s1 := match x with
      | some n => s.dueLate c slot lat s.nextId (.x n 0)
      | none => s
    (s1.push c (k.posAt slot) (s.bundleAddr c) (.req r (s.now + rel)) [] [] none false).pump c

/-- BARV: release, pending-arrival bit, and the arrival that follows the release (09 R155). -/
def State.barArrive (s : State) (c slot b : Nat) (chan : Option Nat) : State :=
  let tag := (s.core c).bP.contains b
  let s1 := (s.fenceAt c slot .rel (s.barScope c b)).updCore c fun k => { k with bA := b :: k.bA, arvAt := some (b, s.now) }
  s1.ask c slot (.barv b tag chan) 0 none 0

/-- What a waiting instruction of slot c starts when it first stands at the head (09 R155, R157, R158; 16 R279). -/
def State.waitStart (s : State) (c slot : Nat) (i : Instr) : State :=
  let k := s.core c
  match i with
  | .waitSem _ x t =>
    if s.ridge.semw.any (fun w => w.core == c && w.lcyc == k.lcyc) then s
    else
      let n := (k.rx x).toNat
      (s.updRidge fun r => { r with semw := r.semw ++ [⟨c, k.lcyc, n, k.rx t, none⟩] }).after
        (if n < 0x10000 then 24 else 8) (.semaphoreTest (fin64 c))
  | .waita _ x v cond =>
    if (k.waitT.map (·.1)) == some k.lcyc then s
    else
      let a := (k.rx x).toNat
      let s1 := s.updCore c fun k => { k with waitT := some (k.lcyc, s.nextId) }
      (s1.push c (k.posAt slot) (s.bundleAddr c) (.waita cond (k.rx v) (a % 128)) [loadLine (alignLine a)] [] none true).pump c
  | .sstep _ b n named =>
    if (k.waitT.map (·.1)) == some k.lcyc || k.bA.contains b.val then s
    else (s.updCore c fun k => { k with waitT := some (k.lcyc, 0) }).barArrive c slot b.val (if named then some n.val else none)
  | _ => s

end Sys2Proof.Machine
end

