-- ==== Sys2Proof/Machine/Ports.lean ====
section
/-! DEFINITION. The bank groups of a core's tile register file: who reads and writes them in a cycle, and what a requester that is
not served loses (22 R392). -/

namespace Sys2Proof.Machine
open Sys2Proof.Bits

/-- A vector pipe, v or q. -/
def Core.pipe (k : Core) (q : Bool) : List PipeOp := if q then k.pipeQ else k.pipeV
/-- A pipe replaced. -/
def Core.setPipe (k : Core) (q : Bool) (l : List PipeOp) : Core := if q then { k with pipeQ := l } else { k with pipeV := l }

/-- Bank groups of the TRF, and line reads or writes each serves in a cycle (14 R228; 22 R392). -/
def bankGroups : List Nat := [8, 8, 8, 8]
/-- Bank group of a tile register (14 R228). -/
def bankOf (t : Nat) : Nat := t / 32 % 4
/-- Lines of each bank group when `n` of each of some tiles are wanted. -/
def bankUse (n : Nat) (ts : List Nat) : List Nat := (List.range 4).map fun g => n * (ts.filter fun t => bankOf t == g).length

/-- Who asks a bank group: slot x or a landing, which is always served; a vector instruction; an MOUT or MRD; a store or CHSND. -/
inductive TrfUser where
  | first
  | vec (job : Nat)
  | out (job : Nat)
  | port (p : Port)
  deriving DecidableEq, Repr

/-- An MMA that has started, or an MFEED whose additions are due, reads a tile operand in cycle `t`: lines a cycle (2 for the matrix engine;
1 for MFEED, whose demand R392 does not give: DESIGN CHOICE, log 1). -/
def Core.engineNeed (k : Core) (t id : Nat) : Nat :=
  if k.mma.any fun o => o.id == id && o.active t && (o.start.any fun b => decide (b ≤ t)) then 2
  else if k.jobs.any fun j => j.id == id && decide (t < j.done) && (match j.kind with
    | .mfeed _ _ _ _ _ => true
    | _ => false) then 1 else 0

/-- Reads wanted in cycle `t`, in the order they are served: slot x, v, q, stores, CHSNDs. -/
def Core.trfReads (k : Core) (t : Nat) : List (TrfUser × List Nat) :=
  let engine := (k.readers.filter fun r => decide (r.1 < 128)).foldl (fun u r => List.zipWith (· + ·) u (bankUse (k.engineNeed t r.2) [r.1])) [0, 0, 0, 0]
  let pipe := fun (q : Bool) => match k.pipe q with
    | [] => []
    | o :: _ => (k.jobs.filter fun j => j.id == o.job.id && j.done != 0 && decide (t + o.lat < j.done + o.occ)).map fun j => (TrfUser.vec j.id, bankUse 2 o.reads)
  let ports := fun (chan : Bool) => (k.ports.filter fun p => p.chan.isSome == chan && decide (t < p.till)).map fun p =>
    (TrfUser.port p, bankUse (if chan then 2 else 4) [p.tile])
  (TrfUser.first, engine) :: (pipe false ++ pipe true ++ ports false ++ ports true)

/-- A job writes tile lines in cycle `t`, `per` a cycle up to its completion. -/
def Job.writes (j : Job) (per t : Nat) : Bool :=
  let n := (j.tiles.map fun x => ceilDiv x.2.2.length 128).foldl max 0
  decide (t < j.done ∧ j.done ≤ t + ceilDiv n per)

/-- Writes wanted in cycle `t`, in the order they are served: landing lines, MOUT and MRD, v, q; with `soon` those still to come of the
latter too. MOUT and MRD write a line a cycle (DESIGN CHOICE, log 1: R392 does not give their demand). -/
def Core.trfWrites (k : Core) (t : Nat) (soon : Bool) : List (TrfUser × List Nat) :=
  let ask := fun (u : TrfUser) (per : Nat) (j : Job) => if j.done != 0 && (soon || j.writes per t) then some (u, bankUse per (j.tiles.map (·.1))) else none
  let outs := k.jobs.filterMap fun j => match j.kind with
    | .mout _ _ _ _ _ => ask (.out j.id) 1 j
    | .mrd => ask (.out j.id) 1 j
    | _ => none
  let vecs := fun (q : Bool) => k.jobs.filterMap fun j => if j.kind == .vec && (j.pos % 8 == 6) == q then ask (.vec j.id) 2 j else none
  (TrfUser.first, if k.landed.1 = t then k.landed.2 else [0, 0, 0, 0]) :: (outs ++ vecs false ++ vecs true)

/-- Requesters that are not served: each is served whole or not at all, in order (22 R392). -/
def trfRefused : List Nat → List (TrfUser × List Nat) → List TrfUser
  | _, [] => []
  | left, (u, n) :: l =>
    if u == .first || (List.zipWith (fun a b => decide (b ≤ a)) left n).all id then trfRefused (List.zipWith (· - ·) left n) l
    else u :: trfRefused left l

/-- Somebody may be refused in cycle `t`, or, of those that write, later. -/
def Core.trfBusy (k : Core) (t : Nat) : Bool :=
  !(trfRefused bankGroups (k.trfReads t)).isEmpty || !(trfRefused bankGroups (k.trfWrites t true)).isEmpty

/-- While somebody may be refused the core's groups are looked at in every cycle. -/
def State.watchTrf (s : State) (c : Nat) : State :=
  let t := s.now + 1
  if !(s.core c).trfBusy s.now || s.agenda.contains (t, .pipeStart (fin64 c) false) then s else s.sched t (.pipeStart (fin64 c) false)

/-- Events that something holds of are due one cycle later. -/
def State.delay (s : State) (p : Nat × Instr → Bool) : State :=
  (s.agenda.filter p).foldl (fun (s : State) e => s.sched (e.1 + 1) e.2) { s with agenda := s.agenda.filter fun e => !p e }

/-- Flits of a message that is on its way to a link come one cycle later. -/
def State.delayMsg (s : State) (m : Nat) : State :=
  s.links.foldl (fun (s : State) e =>
    if e.2.coming.any fun f => f.2.msg == m then
      (s.updLink e.1 fun k => { k with coming := k.coming.map fun f => if f.2.msg = m then (f.1 + 1, f.2) else f }).after 1 (.flitSend (fin48 e.1))
    else s) s

/-- A store's lines, or a tile's travel, one cycle later. -/
def State.portLate (s : State) (c : Nat) (p : Port) : State :=
  let mine := fun (e : Nat × Instr) => match e.2, p.chan with
    | .storePerformed d id _, none => d.val == c && id == p.id
    | .tsthAtEave d id, none => d.val == c && id == p.id
    | .channelLanding _ _ src n _ _ _ _, some (m, due) => src == c && n.val == m && e.1 == due
    | _, _ => false
  let next : Port := { p with till := p.till + 1, chan := p.chan.map fun x => (x.1, x.2 + 1) }
  let s1 := (s.delay mine).updCore c fun k => { k with ports := updWhere (fun v => v == p) (fun _ => next) k.ports }
  match (s1.core c).op p.id with
  | some o => (match o.kind with
    | .chsend _ _ _ m => s1.delayMsg m
    | _ => s1)
  | none => s1

/-- A requester that is not served tries again in the next cycle: its occupancy and its completion are a cycle later (22 R392). -/
def State.trfLate (s : State) (c : Nat) : TrfUser → State
  | .first => s
  | .port p => s.portLate c p
  | .out id =>
    let s1 := s.updCore c fun k => { k with jobs := updWhere (fun (j : Job) => j.id == id) (fun j => { j with done := j.done + 1 }) k.jobs }
    ((s1.core c).jobs.filter fun j => j.id == id).foldl (fun (s : State) j => s.sched j.done (.matrixOutputComplete (fin64 c) id)) s1
  | .vec id =>
    let s1 := s.updCore c fun k => { k with jobs := updWhere (fun (j : Job) => j.id == id) (fun j => { j with done := j.done + 1 }) k.jobs }
    let s2 := ((s1.core c).jobs.filter fun j => j.id == id).foldl (fun (s : State) j => s.sched j.done (.vectorComplete (fin64 c) id)) s1
    [false, true].foldl (fun (s : State) q => match (s.core c).pipe q with
      | o :: _ => ((s.core c).jobs.filter fun j => j.id == id && o.job.id == id).foldl (fun (s : State) j =>
          s.sched (j.done + o.occ - o.lat) (.pipeStart (fin64 c) q)) s
      | [] => s) s2

/-- The arbitration of the cycle before, once (22 R392). -/
def State.trfTurn (s : State) (c : Nat) : State :=
  let k := s.core c
  let t := s.now - 1
  if k.trfAt = s.now then s
  else
    let us := (trfRefused bankGroups (k.trfReads t) ++ trfRefused bankGroups (k.trfWrites t false)).eraseDups
    (us.foldl (fun (s : State) u => s.trfLate c u) (s.updCore c fun k => { k with trfAt := s.now })).updCore c fun k =>
      { k with ports := k.ports.filter fun p => decide (s.now < p.till) }

/-- A store or CHSND begins to read its tile (22 R392). -/
def State.readTile (s : State) (c id tile cycles : Nat) (chan : Option (Nat × Nat)) : State :=
  (s.updCore c fun k => { k with ports := k.ports.filter (fun p => decide (s.now < p.till)) ++ [⟨id, chan, tile, s.now + cycles⟩] }).watchTrf c

/-- Lines that landings have filled since the lines of core `c` stood as `was` (22 R392: landing lines are written first). -/
def State.noteLanded (s : State) (c : Nat) (was : Tbl LineSt) : State :=
  let k := s.core c
  if k.lines.length = was.length then s
  else
    let full := (was.filter fun e => (Tbl.get k.lines e.1).isNone).map fun e => e.1 / 256
    let old := if k.landed.1 = s.now then k.landed.2 else [0, 0, 0, 0]
    (s.updCore c fun k => { k with landed := (s.now, List.zipWith (· + ·) old (bankUse 1 full)) }).watchTrf c

end Sys2Proof.Machine
end

