-- ==== Sys2Proof/Machine/Issue.lean ====
section
/-! DEFINITION. Issue: due results, the decode check, traps and freezes of a bundle, the end of a bundle, and the sequencer
that broadcasts bundles and follows branches and loops (08 R141 to R143; 14 R224, R231 to R237, R445; 16 R260 to R270). -/

namespace Sys2Proof.Machine
open Sys2Proof.Bits

/-- Outcome of a step of the part. -/
abbrev Out := Host.Outcome State Fault Refusal

/-! ### Landings and due results -/

/-- The image a load makes of the lines performed so far. -/
def loadImage (o : MemOp) (fill : List Byte) (keep : List (Nat × Byte)) : List Byte :=
  let img := o.chunks.foldl (fun img ch => match o.lines[ch.line]? with
    | some l => if l.isDone then splice img ch.dst (slice l.data ch.src ch.len) else img
    | none => img) fill
  keep.foldl (fun img k => img.modify k.1 (· &&& k.2)) img

/-- Destination lines that take a byte from a line not performed (18 R310). -/
def badLines (o : MemOp) : List Nat :=
  o.chunks.flatMap fun ch => match o.lines[ch.line]? with
    | some l => if l.isDone || ch.len = 0 then [] else (List.range ((ch.dst + ch.len - 1) / 128 - ch.dst / 128 + 1)).map (· + ch.dst / 128)
    | none => []

/-- A load fills the destination lines it can; when all are filled it has completed (18 R310, R311; 17 R305). -/
def Core.landOp (k : Core) (id : Nat) : Core :=
  match k.op id with
  | some o => match o.kind with
    | .load t fill keep enf =>
      let img := loadImage o fill keep
      let bad := badLines o
      let mine := fun (n : Nat) => match Tbl.get k.lines (lineNo t n) with
        | some e => e.op == some id
        | none => false
      let good := (List.range (fill.length / 128)).filter fun n => !bad.contains n && mine n
      let k1 := good.foldl (fun (k : Core) n => k.fillLines t n (slice img (128 * n) 128)) k
      if bad.isEmpty then
        let k2 := { (k1.dropOp id) with writers := k1.writers.filter fun w => w.2 != id }
        match enf with
        | some e => if e.check && decide (e.h < 64)
            then { k2 with pend := k2.pend ++ [⟨k2.lcyc, o.pos, o.addr, .ver e.h (hVer e.ws), true, 0, []⟩] } else k2
        | none => k2
      else k1
    | _ => k
  | none => k

/-- Results due for the next bundle. -/
def Core.dueNow (k : Core) : List Pend := k.pend.filter fun p => decide (p.due ≤ k.lcyc)

/-- Insertion by (due, position) (14 R231). -/
def insertPend (p : Pend) : List Pend → List Pend
  | [] => [p]
  | q :: l => if q.due < p.due ∨ (q.due = p.due ∧ q.pos ≤ p.pos) then q :: insertPend p l else p :: q :: l

/-- One pending write takes effect and its events enter the log (02 R53). -/
def Core.applyPend (k : Core) (p : Pend) : Core := (k.apply p.w).logCodes p.pos p.addr p.evs

/-- Every due result has reached the core. -/
def Core.dueArrived (k : Core) : Bool := k.dueNow.all (·.arrived)

/-- Due results take effect: landings, then register writes in order (14 R231, R236). -/
def Core.applyDue (k : Core) : Core :=
  let k1 := k.dueNow.foldl (fun (k : Core) p => match p.w with
    | .land id => k.landOp id
    | _ => k) k
  let l := k1.dueNow.foldl (fun l p => insertPend p l) []
  l.foldl Core.applyPend { k1 with pend := k1.pend.filter fun p => !decide (p.due ≤ k1.lcyc) }

/-- What is due once for the bundle at the head: stride sums and layer steps of iteration ends (16 R267, R271). -/
def Core.headDue (k : Core) : Core :=
  match k.skid with
  | e :: rest =>
    let k1 := if e.adj.isEmpty then k else k.applyAdj e.adj
    let k2 := (List.range e.layers).foldl (fun (k : Core) _ => k.layerStep) k1
    { k2 with skid := { e with adj := [], layers := 0 } :: rest }
  | [] => k

/-! ### What a bundle names -/

/-- Tiles and accumulators (128 + number) named as destinations (14 R234). -/
def dests (i : Instr) : List Nat := match i with
  | .tld _ t _ _ _ _ => [t.val]
  | .tldh _ t _ _ _ _ => [t.val]
  | .tldg _ t _ _ _ => [t.val]
  | .tldx _ t _ _ _ => [t.val]
  | .tshp _ t _ => [t.val]
  | .tshpBound _ t _ _ => [t.val]
  | .tzero _ t => [t.val]
  | .tempty _ t => [t.val]
  | .mma _ a _ _ _ => [128 + a.val]
  | .mmaz _ a _ _ _ => [128 + a.val]
  | .mout _ t _ _ _ => [t.val]
  | .mrd _ t _ _ => [t.val]
  | .mclr _ a => [128 + a.val]
  | .mfeed _ a _ => [128 + a.val]
  | i => match (Core.reset 0).vecOf i with
    | some v => v.writes
    | none => []

/-- Tile of a matrix operand. -/
def mopTiles : MOp → List Nat
  | .tile t => [t.val]
  | _ => []

/-- Tiles named as operands by the slots other than v and q. -/
def srcs (i : Instr) : List Nat := match i with
  | .tst _ t _ _ => [t.val]
  | .tsth _ t _ _ => [t.val]
  | .tldg _ _ _ x _ => [x.val]
  | .tsts _ t _ x => [t.val, x.val]
  | .mma _ _ a b _ => mopTiles a ++ mopTiles b
  | .mmaz _ _ a b _ => mopTiles a ++ mopTiles b
  | .mfeed _ _ a => mopTiles a
  | .chsnd _ _ t => [t.val]
  | .enq _ _ _ t _ => [t.val]
  | _ => []

/-- The eight slots of a bundle, decoded. -/
def slotsOf (ws : List Nat) : List (Nat × Nat × Except DecErr Instr) :=
  (List.range 8).map fun k => (k, ws.getD k 0, decodeSlot (fin8 k) (ws.getD k 0))

/-- The decode check of a bundle: lowest failing slot and its trap (14 R224, R234, R247). -/
def decodeTrap (priv : Bool) (ws : List Nat) : Option (Nat × Nat) :=
  let go := (slotsOf ws).foldl (fun (a : List Nat × Option (Nat × Nat)) e =>
    let bad := match e.2.2 with
      | .error _ => some trILLOP
      | .ok i => if (dests i).any a.1.contains then some trILLOP else match i with
        | .frsm _ _ _ _ => if priv then none else some trPRIVOP
        | .tlbi _ _ _ _ => if priv then none else some trPRIVOP
        | _ => none
    let ds := match e.2.2 with
      | .ok i => dests i
      | .error _ => []
    (a.1 ++ ds, a.2.or (bad.map fun t => (e.1, t)))) ([], none)
  go.2

/-- Instructions of the head bundle whose predicate holds in core `c`: slot and instruction. -/
def Core.headInstrs (k : Core) (c : Nat) : List (Nat × Instr) :=
  match k.skid with
  | [] => []
  | e :: _ => (slotsOf e.words).filterMap fun s => match s.2.2 with
    | .ok i => if k.holds c (hdrOf (fin8 s.1) s.2.1) then some (s.1, i) else none
    | .error _ => none

/-! ### Bundle issue -/

/-- The group of core `c` issues (08 R140, R141), or the core stands alone. -/
def State.groupIssues (s : State) (c : Nat) : Bool := match s.grpOf c with
  | none => true
  | some g => ((s.grp g).state == 2 || (s.grp g).state == 3) && (((s.grp g).run.map (·.saving)).getD 0) == 0

/-- A core freezes with a cause (08 R142). -/
def State.freeze (s : State) (c cause : Nat) : State :=
  s.updCore c fun k => { k with frozen := true, cause := cause, lastCause := cause }

/-- Traps of the head bundle in slot order. -/
def State.bundleTraps (s : State) (c : Nat) : List (Nat × Nat) :=
  ((s.core c).headInstrs c).filterMap fun e => (s.trapOf c e.2).map fun t => (e.1, t)

/-- The first slot that freezes, and its cause; slots that trap do not freeze (14 R445). -/
def State.bundleFreeze (s : State) (c : Nat) (traps : List (Nat × Nat)) : Option (Nat × Nat) :=
  let k := s.core c
  let live := (k.headInstrs c).filter fun e => !traps.any (·.1 == e.1)
  let go := live.foldl (fun (a : Nat × Option (Nat × Nat)) e =>
    (a.1 + (k.isPlaced e.2).toNat, a.2.or ((s.freezeOf c e.1 a.1 e.2).map fun n => (e.1, n)))) (0, none)
  go.2

/-- Performing the held actions of a region in program order (16 R278, R279). -/
def State.performHeld (s : State) (c : Nat) : State :=
  match (s.core c).spec with
  | none => s
  | some r =>
    let s1 := s.updCore c fun k => { k with spec := some { r with held := [] } }
    let put := fun (s : State) (h : Held) =>
      let kind := match h.op.kind with
        | .req q rel => OpKind.req q (s.now + rel)
        | q => q
      let s1 := s.updCore c fun k => { k with memq := k.memq ++ [{ h.op with kind := kind }] }
      match h.x with
      | some x => s1.updCore c fun k => { k with pend := k.pend ++ [⟨k.lcyc + h.lat, h.pos, h.addr, .x x 0, false, h.op.id, []⟩] }
      | none => s1
    (r.held.foldl put s1).pump c

/-- A store whose region's queue overflows: held actions, then as many of its lines as fit, are performed (16 R279). -/
def State.overflow (s : State) (c slot : Nat) (lines : List LineAcc) : State :=
  let k := s.core c
  match k.spec with
  | none => s
  | some r =>
    if k.specFull.isSome && k.memq.any (fun o => decide (r.pos ≤ o.pos) && o.unperformed) then s
    else
      let done := k.specFull.getD 0
      let room := min (64 - r.lines) (lines.length - done)
      let s1 := if k.specFull.isNone then s.logNow c slot codeSPECFULL else s
      let s2 := s1.performHeld c
      let s3 := s2.updCore c fun k => { k with specFull := some (done + room) }
      if room = 0 then s3
      else (s3.push c (k.posAt slot) (s.bundleAddr c) .store ((lines.drop done).take room) [] none false).pump c

/-- Address of line `p` of the row that index `n` names from a base (18 R316). -/
def rowAddr (base : Word) (n : Int) (pitch p : Nat) : Nat :=
  (ofInt ((alignLine base.toNat : Nat) + n * (pitch * 128 : Nat) + (128 * p : Nat))).toNat

/-- Element `r` of an index tile by its format; none for the -1 of INT32 (18 R316). -/
def idxAt (ish : Shape) (idx : List Nat) (r : Nat) : Option Int :=
  let v := idx.getD r 0
  if ish.fmt = 0x22 then (if sext v 32 = -1 then none else some (sext v 32)) else some (v : Int)

/-- Lines a tile store writes (18 R313, R315, R316). -/
def Core.storeLines (k : Core) (i : Instr) : List LineAcc := match i with
  | .tst _ t x o =>
    let a := alignLine (k.addr x o)
    let sh := k.shape t.val
    let img := k.tileImg t.val sh.lines
    (List.range sh.lines).map fun n => storeLine (a + 128 * n) (slice img (128 * n) 128)
  | .tsth _ t h g =>
    let sh := k.shape t.val
    scatter (hStore sh (k.tileImg t.val sh.lines) (k.hwords h.val) (hBase (k.hwords h.val)) (k.offGroup g.val))
  | .tsts _ t x i =>
    let sh := k.shape t.val
    let ish := k.shape i.val
    let idx := (tileBits ish (k.tileImg i.val ish.lines)).flatten
    let img := k.tileImg t.val sh.lines
    (List.range sh.rows).flatMap fun r =>
      match idxAt ish idx r with
      | none => []
      | some n => (List.range sh.pitch).map fun p => storeLine (rowAddr (k.rx x) n sh.pitch p)
          (slice img (128 * (r * sh.pitch + p)) 128)
  | _ => []

/-- Results a save held start to count with the first bundle the restored core issues (05 R113), or as that bundle freezes on a line or a
writer, which may be one of theirs (DEDUCED, log 13). -/
def State.startShadow (s : State) (c : Nat) : State :=
  let off := fun (j : Job) => match j.kind with
    | .shadow d => if j.done = 0 then some d else none
    | _ => none
  (s.core c).jobs.foldl (fun (s : State) j => match off j with
    | some d => (s.updCore c fun k => { k with jobs := updWhere (fun (v : Job) => v.id == j.id) (fun v => { v with done := s.now + d }) k.jobs }).sched
        (s.now + d) (.shadowReplay (fin64 c))
    | none => s) s

/-- BUNDLE_ISSUE of core `c`: the decode check, due results, waits, traps and freezes; then its slots execute in order (14 R224, R231). -/
def State.bundleIssue (s : State) (c : Nat) : State :=
  let k0 := s.core c
  match k0.skid, s.phase with
  | e :: _, .idle =>
    if k0.exited || !s.groupIssues c then s
    else match decodeTrap ((s.ctx (s.ctxOf c)).priv) e.words with
      | some (slot, code) => match s.grpOf c with
        | some g => s.endGroup g 2 code (gtrapWord (s.bundleAddr c) slot) false
        | none => s.updCore c fun k => { k with skid := [] }
      | none =>
        if !k0.dueArrived then s.freeze c 0
        else
        let s1 := (s.updCore c fun k => k.applyDue.headDue).noteLanded c k0.lines
        let s2 := ((s1.core c).headInstrs c).foldl (fun (s : State) i =>
          if (s.trapOf c i.2).isSome then s else s.waitStart c i.1 i.2) s1
        let traps := s2.bundleTraps c
        match s2.bundleFreeze c traps with
        | some (slot, cause) =>
          let s3 := match ((s2.core c).headInstrs c).find? (·.1 == slot) with
            | some (_, i) => if cause = 2 && !((s2.core c).storeLines i).isEmpty then s2.overflow c slot ((s2.core c).storeLines i) else s2
            | none => s2
          (if cause = 1 ∨ cause = 2 then s3.startShadow c else s3).freeze c cause
        | none =>
          let s3 := (s2.startShadow c).updCore c fun k => { k with frozen := false, bctx := { BCtx.fresh with ready := true, traps := traps } }
          { s3 with phase := .slot c 0 }
  | _, _ => s

/-- The execution of one instruction: its predicate, its trap, its freeze, its effect (14 R222, R247, R445). BUNDLE_ISSUE
has tested traps and freezes of the whole bundle already; an instruction met alone is tested here. -/
def slotDo (h : Hdr) (i : Instr) (s : State) (eff : Nat → State → State) : Out :=
  let c := s.issuer
  let k := s.core c
  if !k.holds c h then .next s
  else if k.bctx.ready then (if k.bctx.traps.any (·.1 == h.slot.val) then .next s else .next (eff c s))
  else match s.trapOf c i with
    | some t => .next (s.trapSlot c h.slot.val t)
    | none => match (s.waitStart c h.slot.val i).freezeOf c h.slot.val 0 i with
      | some cause => .next { (s.waitStart c h.slot.val i).freeze c cause with phase := .idle }
      | none => .next (eff c s)

/-! ### Branches and loops -/

/-- What follows a bundle at `pc` when no branch is taken: the loop stack, stride sums, layer steps, whether a pre-emptible
level ended an iteration, and the next bundle (16 R266). -/
structure IterRes where
  stack  : List LoopL
  adj    : List (Nat × Int)
  layers : Nat
  pre    : Bool
  next   : Nat

/-- The iteration-end test, innermost level first. -/
def iterEnd (pc : Nat) : List LoopL → IterRes
  | [] => ⟨[], [], 0, false, pc + 1⟩
  | l :: rest =>
    if pc = l.start + l.lenM1 then
      if l.index + 1 < l.count then
        ⟨{ l with index := l.index + 1 } :: rest, [(rest.length, 1)], l.l.toNat, l.p, l.start⟩
      else
        let r := iterEnd pc rest
        ⟨r.stack, (rest.length, -(l.index : Int)) :: r.adj, r.layers + l.l.toNat, r.pre || l.p, r.next⟩
    else ⟨l :: rest, [], 0, false, pc + 1⟩

/-- Levels a taken branch from `n` to `t` closes, with their restoring sums (16 R269). -/
def closeFor (n t : Nat) : List LoopL → List LoopL × List (Nat × Int)
  | [] => ([], [])
  | l :: rest =>
    let inside := fun (a : Nat) => decide (l.start ≤ a ∧ a ≤ l.start + l.lenM1)
    let r := closeFor n t rest
    if inside n && !inside t then (r.1, (rest.length, -(l.index : Int)) :: r.2) else (l :: r.1, r.2)

/-- The `n` innermost levels closed; the last is the outermost closed (16 R270). -/
def closeN : Nat → List LoopL → List LoopL × List (Nat × Int) × Option LoopL
  | 0, st => (st, [], none)
  | _ + 1, [] => ([], [], none)
  | n + 1, l :: rest =>
    let r := closeN n rest
    (r.1, (rest.length, -(l.index : Int)) :: r.2.1, r.2.2.or (some l))

/-- Branch-class instructions a bundle holds: plain ones, and LOOP or LBRK (14 R235). -/
def branchKinds (ws : List Nat) : Bool × Bool :=
  let is := (slotsOf ws).filterMap fun e => match e.2.2 with
    | .ok i => some i
    | .error _ => none
  (is.any fun i => match i with
    | .br _ _ => true
    | .call _ _ => true
    | .ret _ => true
    | .jmp _ _ => true
    | .brx _ _ => true
    | _ => false,
   is.any fun i => match i with
    | .loop _ _ _ _ _ => true
    | .loopReg _ _ _ _ _ => true
    | .lbrk _ _ => true
    | _ => false)

/-- Words of bundle `n` of an image. -/
def Run.wordsAt (r : Run) (n : Nat) : List Nat := (List.range 8).map fun k => numAt r.image (32 * n + 4 * k) 4

/-- The sequencer of group `g` changed. -/
def State.updSeq (s : State) (g : Nat) (f : Seq → Seq) : State := s.updRun g fun r => { r with sq := f r.sq }

/-- What the sequencer does after broadcasting bundle `pc` numbered `n` that is no delay bundle (16 R260, R266). -/
def Run.follow (r : Run) (n pc : Nat) (q : Seq) : Seq :=
  let kinds := branchKinds (r.wordsAt pc)
  let last := match q.stack with
    | l :: _ => decide (pc = l.start + l.lenM1)
    | [] => false
  if kinds.1 || kinds.2 then { q with pc := pc, wait := some ⟨n, pc, !kinds.2 && !last, false, false⟩ }
  else
    let it := iterEnd pc q.stack
    if r.clen ≤ it.next then { q with pc := pc, wait := some ⟨n, pc, false, false, true⟩ }
    else { q with pc := it.next, stack := it.stack, adj := it.adj, layers := it.layers, wait := none,
                  bound := if it.pre && r.preempt then some n else none }

/-- Bundle `pc` is broadcast to every member that has not exited (08 R141, R145). -/
def State.broadcast (s : State) (g : Nat) (r : Run) (pc : Nat) (delay : Bool) : State :=
  let q := r.sq
  let e : Skid := { seqno := q.seqno, pc := pc, words := r.wordsAt pc, stack := q.stack, adj := q.adj, layers := q.layers,
                    delay := delay, link := none }
  let s1 := r.members.foldl (fun (s : State) m =>
    if (s.core m).exited then s else s.updCore m fun k => { k with skid := k.skid ++ [e] }) s
  s1.updSeq g fun q => { q with seqno := q.seqno + 1, adj := [], layers := 0 }

/-- PCRANGE: the bundle at `pc` has executed in full (07 R129, 14 R247). -/
def State.pcRange (s : State) (g : Nat) (r : Run) (pc slot : Nat) : State :=
  s.endGroup g 2 trPCRANGE (gtrapWord (r.code * 32 + 32 * pc) slot) false

/-- Members learn of the decision on bundle `n`: CALL's link value, and that bundle `n + 1` is a delay bundle (16 R261,
14 R235). -/
def State.tellMembers (s : State) (r : Run) (w : SeqWait) (taken : Bool) (link : Option Nat) : State :=
  r.members.foldl (fun (s : State) m => s.updCore m fun k =>
    let behind := k.skid.any (·.seqno == w.seqno)
    let mark := fun (e : Skid) => if e.seqno = w.seqno then { e with link := some link }
      else if e.seqno = w.seqno + 1 && taken && w.sent then { e with delay := true } else e
    let k1 := { k with skid := k.skid.map mark }
    let ownCall := k.decided.any fun d => d.1 == w.seqno && (match d.2.2 with
      | .call _ => true
      | _ => false)
    let addr := r.code * 32 + 32 * w.pc
    let k2 := if behind || k.exited then k1 else match link with
      | some v => if ownCall then k1 else
          { k1 with pend := k1.pend ++ [⟨k1.lcyc, 8 * (k1.lcyc - 1), addr, .x 63 (BitVec.ofNat 64 v), true, 0, []⟩] }
      | none => if ownCall then { k1 with pend := k1.pend.filter fun p => !(p.addr == addr && p.pos % 8 == 0 && (match p.w with
            | .x 63 _ => true
            | _ => false)) } else k1
    match k2.early with
    | some (n, pos, mask) =>
      if n = w.seqno + 1 then
        let a1 := addr + 32
        let k3 := { k2 with early := none }
        if taken then
          let k4 := if mask % 2 = 1 then k3.logCode pos a1 codeDSLOT else k3
          if mask / 4 % 2 = 1 then k4.logCode (pos + 2) a1 codeDSLOT else k4
        else if mask = 5 then k3.logCode (pos + 2) a1 codeBRCONF else k3
      else k2
    | none => k2) s

/-- The course's decision on bundle `w`: action `act` of slot `slot` (16 R260 to R270). -/
def State.settle (s : State) (g : Nat) (w : SeqWait) (slot : Nat) (act : BrAct) : State :=
  match (s.grp g).run with
  | none => s
  | some r =>
    let n := w.pc
    let q := r.sq
    let go := fun (s : State) (f : Seq → Seq) => s.updSeq g fun q => { f q with wait := none }
    let plain := fun (_ : Unit) =>
      let s1 := s.tellMembers r w false none
      if w.sent then s1.updSeq g fun q => r.follow (w.seqno + 1) (n + 1) { q with wait := none }
      else
        let it := iterEnd n q.stack
        if r.clen ≤ it.next then s1.pcRange g r n 0
        else go s1 fun q => { q with pc := it.next, stack := it.stack, adj := it.adj, layers := it.layers,
                                     bound := if it.pre && r.preempt then some w.seqno else none }
    let jump := fun (t : Int) (link : Option Nat) (close : Bool) =>
      let s1 := s.tellMembers r w true link
      if r.clen ≤ n + 1 ∨ t < 0 ∨ (r.clen : Int) ≤ t then s1.pcRange g r n slot
      else
        let cl := if close then closeFor n t.toNat q.stack else (q.stack, [])
        if w.sent then go s1 fun q => { q with pc := t.toNat, stack := cl.1, adj := cl.2 }
        else go s1 fun q => { q with pc := n + 1, tgt := some t.toNat, close := close }
    match act with
    | .none => if w.fall then s.pcRange g r n 0 else plain ()
    | .rel d => jump ((n : Int) + d) none true
    | .call d => jump ((n : Int) + d) (some (n + 2)) false
    | .ret t => jump (t : Int) none true
    | .jmp t => jump (t : Int) none true
    | .loop l p cnt lenM1 =>
      let s1 := s.tellMembers r w false none
      let next := if cnt = 0 then n + 2 + lenM1 else n + 1
      if r.clen ≤ next then s1.pcRange g r n 0
      else go s1 fun q => { q with pc := next, stack := if cnt = 0 then q.stack else ⟨l, p, 0, cnt, n + 1, lenM1⟩ :: q.stack }
    | .lbrk m =>
      match closeN m q.stack with
      | (_, _, none) => plain ()
      | (st, adj, some l) =>
        let s1 := s.tellMembers r w false none
        if r.clen ≤ l.start + l.lenM1 + 1 then s1.pcRange g r n 0
        else go s1 fun q => { q with pc := l.start + l.lenM1 + 1, stack := st, adj := adj }

/-- The sequencer's wait is met when its deciding member has issued the bundle (16 R260). -/
def State.resolve (s : State) (g : Nat) : State :=
  match (s.grp g).run with
  | none => s
  | some r => match r.sq.wait, r.members.find? fun m => !(s.core m).exited with
    | some w, some d => match (s.core d).decided.find? fun e => e.1 == w.seqno with
      | some e => s.settle g w e.2.1 e.2.2
      | none => s
    | _, _ => s

/-! ### The end of a bundle -/

/-- Registers a pending write targets, for R233: class and number. -/
def targets : PWrite → List (Nat × Nat)
  | .x r _ => if r = 0 then [] else [(0, r)]
  | .p r _ => if r = 0 ∨ 12 ≤ r then [] else [(1, r)]
  | .o r _ => [(2, r)]
  | .spr n _ => [(3, n)]
  | .flag _ _ => [(3, 0x020)]
  | .layer => [(3, 0x00C)]
  | .ntile _ _ => [(0, 60), (0, 61), (1, 11)]
  | _ => []

/-- WWCONF: of two writes of one bundle to one register due together, the higher slot's stands, and the lower slot's
instruction logs it (14 R233). -/
def Core.conflicts (k : Core) : Core :=
  let mine := k.pend.filter fun p => decide (p.pos / 8 = k.lcyc)
  { k with pend := k.pend.map fun p =>
      if p.pos / 8 = k.lcyc ∧ mine.any (fun q => decide (p.pos < q.pos ∧ p.due = q.due) && (targets p.w).any (targets q.w).contains) then
        { p with evs := p.evs ++ [codeWWCONF], w := match p.w with
          | .spr _ _ => PWrite.x 0 0
          | .flag _ _ => PWrite.x 0 0
          | .layer => PWrite.x 0 0
          | w => w }
      else p }

/-- SABT: the checkpoint returns for the next bundle; register writes of the region still due are discarded, those its operations will
make too; loads into tiles land (16 R278). -/
def Core.abort (k : Core) (r : Spec) : Core :=
  let keep := fun (p : Pend) => decide (p.pos < r.pos) || (match p.w with
    | .land _ => true
    | _ => false)
  { k with spec := none, specFull := none, x := Vector.ofFn fun i => r.xs.getD i 0, p := Vector.ofFn fun i => r.ps.getD i false,
           o := Vector.ofFn fun i => r.os.getD i 0, pend := k.pend.filter keep,
           memq := k.memq.map fun o => if o.pos < r.pos then o else o.undone }

/-- The bundle of core `c` has executed its eight slots. -/
def State.finishBundle (s : State) (c : Nat) : State :=
  let k := s.core c
  let b := k.bctx
  let e := k.skid.head?
  let delay := (e.map (·.delay)).getD false
  let early := match s.runOf c, e with
    | some r, some e => match r.sq.wait with
      | some w => w.sent && e.seqno == w.seqno + 1
      | none => false
    | _, _ => false
  let two := !(b.br == .none) && !(b.brx == .none)
  let act := if delay then (0, BrAct.none) else if b.br == .none then (2, b.brx) else (0, b.br)
  let addr := s.bundleAddr c
  let pos := k.posAt 0
  let mask := (!(b.br == .none)).toNat + 4 * (!(b.brx == .none)).toNat
  let k1 := k.conflicts
  let k2 := if two && !delay && !early then k1.logCode (pos + 2) addr codeBRCONF else k1
  -- the course's decision, if it came first, settles CALL's write (16 R261)
  let own : Bool := match act.2 with
    | .call _ => true
    | _ => false
  let k3 : Core := match e.bind fun (e : Skid) => e.link with
    | some (some v) => bif own then k2 else { k2 with pend := k2.pend ++ [⟨k2.lcyc + 1, pos, addr, .x 63 (BitVec.ofNat 64 v), true, 0, []⟩] }
    | some none => bif own then { k2 with pend := k2.pend.filter fun p => !(p.pos == pos && (match p.w with
        | .x 63 _ => true
        | _ => false)) } else k2
    | none => k2
  let k4 := match k3.spec, b.sabt with
    | some r, true => k3.abort r
    | _, _ => k3
  let k5 := { k4 with decided := ((e.map fun (e : Skid) => (e.seqno, act.1, act.2)).toList ++ k4.decided).take 2,
                      early := if early && mask != 0 then e.map fun (e : Skid) => (e.seqno, pos, mask) else k4.early,
                      waitT := none, specFull := none }
  let s1 := s.setCore c k5
  let s2 := if b.cmit then (s1.performHeld c).updCore c fun k => { k with spec := none } else s1
  let s3 := s2.updCore c fun k => { k with lcyc := k.lcyc + 1, issued := s.now, skid := k.skid.drop 1, bctx := BCtx.fresh, exited := k.exited || b.exit }
  let s4 := if b.exit then s3.updCore c fun k => { k with skid := [], spec := none } else s3
  let s5 := { s4 with phase := .idle }
  match s5.grpOf c with
  | none => s5
  | some g =>
    match b.traps with
    | [] =>
      let s6 := match (s5.grp g).run with
        | some r => if b.exit && r.members.all (fun m => (s5.core m).exited) then s5.endGroup g 1 0 0 false else s5
        | none => s5
      (s6.resolve g).pump c
    | t :: ts =>
      let low := ts.foldl (fun a b => if b.1 < a.1 then b else a) t
      s5.endGroup g 2 low.2 (gtrapWord addr low.1) false

/-! ### The sequencer -/

/-- Operations a frozen core is held by: late results, lines and writers of what its head bundle names, its wait (08
R143). -/
def State.blockers (s : State) (c : Nat) : List Nat :=
  let k := s.core c
  let reads := fun (i : Instr) => match k.vecOf i with
    | some v => v.reads (k.shape v.d) (k.shape v.a)
    | none => srcs i
  let named := (k.headInstrs c).flatMap fun e => dests e.2 ++ reads e.2
  let late := (k.dueNow.filter fun p => !p.arrived).map fun p => match p.w with
    | .land id => id
    | _ => p.id
  let lines := (k.lines.filter fun e => named.contains (e.1 / 256)).filterMap fun e => e.2.op
  let wr := (k.writers.filter fun w => named.contains w.1).map (·.2)
  late ++ lines ++ wr ++ (k.waitT.map (·.2)).toList

/-- The core's operation that an outstanding entry of a context re-issues (08 R143). -/
def Again.opOf : Again → Option (Nat × Nat)
  | .op c id => some (c, id)
  | .piece c id => some (c, id)
  | _ => none

/-- A member is frozen on an operation with an outstanding fault-queue entry. -/
def State.faultFrozen (s : State) (c : Nat) : Bool :=
  (s.core c).frozen && (let b := s.blockers c; (s.ctx (s.ctxOf c)).ents.any fun e => (e.again.opOf).any fun o => o.1 == c && b.contains o.2)

/-- An operation of a group has an outstanding entry. -/
def State.faultsOut (s : State) (g : Nat) (r : Run) : Bool :=
  (s.ctx r.ctx).ents.any fun e => e.gid == (s.gid16 g).toNat && e.again.opOf.isSome

/-- The parking timer and FROZEN in a cycle (08 R140, R143): at 65,536 the group parks. -/
def State.parkTimer (s : State) (g : Nat) (r : Run) : State :=
  let x := s.grp g
  if r.saving ≠ 0 ∨ (x.state ≠ 2 ∧ x.state ≠ 3) then s
  else if r.members.any s.faultFrozen then
    let t := r.timer + 1
    let s1 := (s.updGrp g fun x => { x with state := 3 }).updRun g fun r => { r with timer := t }
    if 65536 ≤ t then s1.sched (s.now + 1) (.park (fin1024 g)) else s1
  else
    let s1 := if r.timer = 0 then s else s.updRun g fun r => { r with timer := 0 }
    if x.state = 3 ∧ s.faultsOut g r = false then s1.updGrp g fun x => { x with state := 2 } else s1

/-- Freeze cause that stands for a member: its freeze, or its most recent one. -/
def Core.causeNow (k : Core) : Nat := if k.frozen then k.cause else k.lastCause

/-- The sequencer stalls in this cycle for a member (08 R142). -/
def State.stall (s : State) (g m : Nat) : State := s.updRun g fun r => { r with stalled := some m }

/-- A stalled cycle is counted under the freeze that held in it (08 R142). -/
def State.countStall (s : State) (g : Nat) (r : Run) : State := match r.stalled with
  | some m => (s.updGrp g fun x => { x with gfrz := x.gfrz.modify (s.core m).causeNow (fun n => (n + 1) % 2 ^ 64) }).updRun g fun r => { r with stalled := none }
  | none => s

/-- What a cycle leaves once every core has issued or frozen in it: stalls and parking timers counted. -/
def State.closeCycle (s : State) : State := s.grps.foldl (fun (s : State) e => match e.2.run with
  | some r => (s.countStall e.1 r).parkTimer e.1 { r with stalled := none }
  | none => s) s

/-- One cycle of the sequencer of group `g` (08 R141, R142; 16 R260, R261). -/
def State.sequence (s : State) (g : Nat) (r : Run) : State :=
  let q := r.sq
  let live := r.members.filter fun m => !(s.core m).exited
  match live.find? fun m => decide (16 ≤ (s.core m).skid.length) with
  | some _ =>
    let full := live.filter fun m => decide (16 ≤ (s.core m).skid.length)
    s.stall g (full.foldl min (full.headD 0))
  | none =>
    if q.bound.isSome then s
    else match q.wait, q.tgt with
      | some w, _ =>
        if w.early && !w.sent && decide (w.pc + 1 < r.clen) then
          (s.broadcast g r (w.pc + 1) false).updSeq g fun q => { q with wait := some { w with sent := true } }
        else if w.fall then s
        else match live with
          | d :: _ => s.stall g d
          | [] => s
      | none, some t =>
        let s1 := s.broadcast g r q.pc true
        let cl := if q.close then closeFor (q.pc - 1) t q.stack else (q.stack, [])
        s1.updSeq g fun q => { q with pc := t, tgt := none, stack := cl.1, adj := cl.2 }
      | none, none =>
        let n := q.seqno
        (s.broadcast g r q.pc false).updSeq g fun q' => r.follow n q.pc q'

/-- At a boundary bundle the group saves once every member has issued it, unless a region is open (05 R110, R111). Answers
whether the save begins. -/
def State.boundary (s : State) (g : Nat) (r : Run) : State × Bool :=
  match r.sq.bound with
  | none => (s, false)
  | some _ =>
    if !r.preempt || r.members.any (fun m => (s.core m).spec.isSome && (s.core m).skid.isEmpty) then
      (s.updSeq g fun q => { q with bound := none }, false)
    else (s, r.members.all fun m => (s.core m).skid.isEmpty || (s.core m).exited)

/-! ### Time -/

/-- One ns of the fabric tick (11 R189). -/
def State.nsTick (s : State) : State :=
  if 0 < s.thold then { s with thold := s.thold - 1 }
  else if 0 < s.tadj ∧ s.tlast + 1500 ≤ s.now then { s with ftick := (s.ftick + 2) % 2 ^ 64, tadj := s.tadj - 1, tlast := s.now }
  else if s.tadj < 0 ∧ s.tlast + 1500 ≤ s.now then { s with tadj := s.tadj + 1, tlast := s.now }
  else { s with ftick := (s.ftick + 1) % 2 ^ 64 }

/-- The cycle is over and the next begins: the clock of 1.5 GHz against the tick of 1 ns, then every sequencer that runs and every core
that holds a bundle (00 R6; 08 R141). -/
def State.nextCycle (s : State) : State :=
  let s0 := s.closeCycle
  let s1 := { s0 with now := s.now + 1 }
  let f := s1.tfrac + 2
  let s2 := if 3 ≤ f then { (s1.nsTick) with tfrac := f - 3 } else { s1 with tfrac := f }
  let gs := (s2.grps.filter fun g => g.2.state == 2 || g.2.state == 3).map (·.1)
  let s3 := gs.foldl (fun (s : State) g => s.sched s.now (.sequencerBroadcast (fin1024 g))) s2
  let ms := gs.flatMap fun g => (((s3.grp g).run).map (·.members)).getD []
  ms.foldl (fun (s : State) c => (s.sched s.now (.exposedResultDue (fin64 c))).sched s.now (.bundleIssue (fin64 c))) s3

/-! ### Steps -/

/-- The 32-bit word of slot `k` of the bundle that core `c` issues. -/
def State.slotWord (s : State) (c k : Nat) : Nat :=
  match (s.core c).skid with
  | e :: _ => e.words.getD k 0
  | [] => 0

/-- After slot `k` of core `c`: the next slot, or the end of the bundle; a bundle that froze stays where it is. -/
def State.advance (s : State) (c k : Nat) : State :=
  if s.phase = .slot c k then (if k < 7 then { s with phase := .slot c (k + 1) } else s.finishBundle c) else s

/-- The first event due, if any, taken off the agenda. -/
def State.takeDue (s : State) : Option (Instr × State) :=
  match s.agenda with
  | (t, i) :: rest => if t ≤ s.now then some (i, { s with agenda := rest }) else none
  | [] => none

/-- What the outside does next, taken off the inputs. -/
def State.takeInput (s : State) : Option (Instr × State) :=
  match s.inputs with
  | i :: rest => some (i, { s with inputs := rest })
  | [] => none

/-- Core 0 about to execute slot `k` of a bundle whose other slots are NOP (log 2). -/
def State.atSlot (s : State) (k w : Nat) : State :=
  let e : Skid := { seqno := 0, pc := 0, words := (List.replicate 8 0).set k w, stack := [], adj := [], layers := 0,
                    delay := false, link := none }
  { s.updCore 0 (fun c => { c with skid := [e], bctx := BCtx.fresh }) with phase := .slot 0 k }

end Sys2Proof.Machine
end

