-- ==== Sys2Proof/Machine/MatrixMath.lean ====
section
/-! DEFINITION. What the matrix array computes: operand blocks, cell operations, K-steps (02 R42 to R45; 19 R331 to
R334). -/

namespace Sys2Proof.Machine
open Sys2Proof.Bits

/-- A block of 32 codes under a scale. -/
abbrev Blk := Nat × List Int

/-- Element width in the arrays: floats enter as MXINT16 (02 R42, 19 R330). -/
def arrayWidth (f : Nat) : Nat := match fmtOf f with
  | some (.mx w) => w
  | _ => 16

/-- Cycles per K-step (19 Table 19.2). -/
def kstepCycles (wa wb : Nat) : Nat :=
  let lo := min wa wb
  let hi := max wa wb
  if hi ≤ 4 then 8
  else if lo ≤ 4 ∧ hi ≤ 8 then 16
  else if hi ≤ 8 then 32
  else if lo ≤ 8 then 64
  else 128

/-- Codes padded to a block of 32 zeros (19 R327). -/
def pad32 (l : List Int) : List Int := l ++ List.replicate (32 - l.length) 0

/-- The blocks of an operand's rows under its format. -/
def argBlocks (s : Shape) (img : List Byte) : List (List Blk) :=
  match fmtOf s.fmt with
  | some (.mx w) =>
    List.zipWith (fun row sc => List.zipWith (fun blk scale => (scale, pad32 (blk.map fun v => sext v w))) (chunks 32 s.blocks row) sc)
      (tileBits s img) (tileScales s img)
  | some (.flt f) =>
    (tileBits s img).map fun row => (chunks 32 s.blocks row).map fun blk =>
      let e := entryBlock f (blk.map (decodeFloat f))
      (e.1, pad32 e.2.1)
  | _ => []

/-- Sum of products of two blocks (02 R44). -/
def dot (a b : List Int) : Int := (List.zipWith (· * ·) a b).foldl (· + ·) 0

/-- Exponent of a block's products. -/
def blkExpo (wa wb : Nat) (a b : Blk) : Int := (a.1 : Int) + b.1 - 254 - ((wa : Int) - 2) - ((wb : Int) - 2)

/-- Codes of both blocks at one fraction width f (19 R334). -/
def alignCodes (w f : Nat) (l : List Int) : List Int := l.map fun v => v * 2 ^ (f - (w - 2))

/-- The block result of a cell operation with its events (19 Table 19.3). -/
def cellBlk (op wa wb : Nat) (a b : Blk) : Val × Nat :=
  let bad := a.1 = 255 ∨ b.1 = 255
  let f := max (wa - 2) (wb - 2)
  let mis := if op ≠ 0 ∧ a.1 ≠ b.1 then evSCALEMIS else 0
  if bad then (.nan, evNANSCALE ||| mis)
  else
    let ca := alignCodes wa f a.2
    let cb := alignCodes wb f b.2
    let r := match op with
      | 0 => roundF32 (Val.ofScaled (dot a.2 b.2) (blkExpo wa wb a b))
      | 1 => roundF32 (Val.ofScaled ((List.zipWith (fun (x y : Int) => ((x - y).natAbs : Int)) ca cb).foldl (· + ·) 0) ((a.1 : Int) - 127 - f))
      | _ =>
        let ss := List.zipWith (· + ·) ca cb
        roundF32 (Val.ofScaled (ss.foldl max (ss.headD 0)) ((a.1 : Int) - 127 - f))
    (r.1, r.2 ||| mis)

/-- FP32 bits of a value with the events of the rounding. -/
def f32Bits (v : Val) : Nat × Nat := packFloat .fp32 .rne false 0 v

/-- One accumulation into FP32 bits: addition, or maximum under CS (02 R44; 19 Table 19.3). -/
def accAdd (op : Nat) (acc : Nat) (blk : Val × Nat) : Nat × Nat :=
  if op = 2 then ((f32Bits (Val.max (decodeFloat .fp32 acc) blk.1)).1, blk.2)
  else
    let s := (decodeFloat .fp32 acc).add blk.1
    let r := f32Bits s.1
    (r.1, r.2 ||| s.2 ||| blk.2)

/-- One block of the window of NUMV 1 (02 R45): window, NaN mark, events. -/
def windowAdd (wa wb : Nat) (first blk : Blk × Blk) (win : Int) (nan : Bool) : Int × Bool × Nat :=
  let bad := blk.1.1 = 255 ∨ blk.2.1 = 255
  let sh := blkExpo wa wb blk.1 blk.2 - blkExpo wa wb first.1 first.2 + 20
  let p := dot blk.1.2 blk.2.2
  let v := if 0 ≤ sh then p * 2 ^ sh.toNat else p / 2 ^ (-sh).toNat
  let w := win + v
  let lim : Int := 2 ^ 63 - 1
  if w < -lim then (-lim, nan || bad, evOVF) else if lim < w then (lim, nan || bad, evOVF) else (w, nan || bad, 0)

/-- The accumulator under construction, its window, and the events of one element. -/
structure Cell where
  acc : Nat
  win : Int
  nan : Bool
  evs : Nat
  deriving DecidableEq, Repr

/-- K-step `j` of `n` on one element, blocks given by number (02 R44, R45; 19 R333). -/
def cellStep (pat : Word) (numv : Bool) (wa wb n j : Nat) (ba bb : List Blk) (x : Cell) : Cell :=
  let zero : Blk := (127, [])
  let a := ba.getD j zero
  let b := bb.getD j zero
  let ops := (List.range (get pat 18 16 + 1)).map fun i => get pat (2 * i + 1) (2 * i)
  if numv && ops.all (· == 0) then
    let f := j / 4 * 4
    let w := windowAdd wa wb (ba.getD f zero, bb.getD f zero) (a, b) (if j = f then 0 else x.win) (if j = f then false else x.nan)
    if j % 4 = 3 ∨ j + 1 = n then
      let blk : Val × Nat := if w.2.1 then (.nan, evNANSCALE)
        else (Val.ofScaled w.1 (blkExpo wa wb (ba.getD f zero) (bb.getD f zero) - 20), 0)
      let r := accAdd 0 x.acc blk
      { acc := r.1, win := 0, nan := false, evs := x.evs ||| w.2.2 ||| r.2 }
    else { x with win := w.1, nan := w.2.1, evs := x.evs ||| w.2.2 }
  else
    let op := ops.getD (j % ops.length) 0
    let r := accAdd op x.acc (cellBlk op wa wb a b)
    { x with acc := r.1, evs := x.evs ||| r.2 }

/-- All K-steps from `j` on, for one element. -/
def cellRun (pat : Word) (numv : Bool) (wa wb n : Nat) (ba bb : List Blk) : Nat → Nat → Cell → Cell
  | 0, _, x => x
  | f + 1, j, x => cellRun pat numv wa wb n ba bb f (j + 1) (cellStep pat numv wa wb n j ba bb x)

/-- Events of an instruction so far: summary mask, lowest result element that has one, its mask (02 R53). -/
abbrev Evs := Nat × Nat × Nat
/-- Events of result element `idx` join. -/
def Evs.add (a : Evs) (idx mask : Nat) : Evs :=
  if mask = 0 then a
  else if a.1 = 0 ∨ idx < a.2.1 then (a.1 ||| mask, idx, mask)
  else if idx = a.2.1 then (a.1 ||| mask, idx, a.2.2 ||| mask)
  else (a.1 ||| mask, a.2)
/-- Two records join. -/
def Evs.join (a b : Evs) : Evs :=
  let c := Evs.add a b.2.1 b.2.2
  if b.1 = 0 then a else (c.1 ||| b.1, c.2)
/-- Code of the first event. -/
def Evs.code (a : Evs) : Nat := if a.1 = 0 then 0 else ctz 16 a.2.2 + 1

/-- Conversion of FP32 bits into a tile's format, as MOUT does (19 R337): image and events. -/
def moutImage (d : Shape) (rm : RMode) (sat : Bool) (rs : List Nat) (bits : List (List Nat)) : List Byte × List Nat :=
  let a : Shape := ⟨d.rows, d.cols, 0⟩
  let img := tileImage a bits []
  if d.fmt = 0 then (img, [])
  else
    let r := (VOp.cvt rm sat).eval ⟨d, a, a, a, [], img, [], [], rs⟩
    (r.d.getD [], r.evs)

/-- FP32 bits of a tile's element widened (19 R340). -/
def widenBits (f b : Nat) : Nat := match fmtOf f with
  | some (.flt g) => (f32Bits (decodeFloat g b)).1
  | _ => 0

end Sys2Proof.Machine
end

