-- ==== Sys2Proof/Machine/PlaceArgs.lean ====
section
/-! DEFINITION. What a placed operation names: its operands, their roles, extents and lines (03 R55, R65, R71). -/

namespace Sys2Proof.Machine
open Sys2Proof.Bits

/-- What a dimension of an operand runs along: M, N, K (or the reduced dimension), or nothing that is cut (03 R65). -/
inductive Role where
  | m | n | k | none
  deriving DecidableEq, Repr

/-- An operand or destination of a placed operation: its code (03 R71), handle or unbound, shape as it is read, dimensions,
and whether it is written. -/
structure PArg where
  opnd  : Nat
  hnd   : Option Enf
  shape : Shape
  row   : Role
  col   : Role
  write : Bool
  deriving DecidableEq, Repr

/-- Vector operations whose operands correspond element by element (03 R65). -/
def VOp.elementwise : VOp → Bool
  | .bc => false
  | .rred _ _ _ => false
  | .cred _ _ _ => false
  | .xs _ => false
  | .ins _ _ => false
  | .iota _ => false
  | .perm => false
  | .scan _ _ _ => false
  | .part _ => false
  | .trn => false
  | .thr => false
  | .bis _ => false
  | .qsel => false
  | .scl _ _ => false
  | _ => true

/-- Operands of a placed operation, destination first (03 R62, R71). -/
def PlKind.args : PlKind → List PArg
  | .mma _ _ a b fa fb _ _ =>
    [⟨0, none, ⟨a.rows, b.rows, 0⟩, .m, .n, true⟩, ⟨1, a.hnd, ⟨a.rows, a.cols, fa⟩, .m, .k, false⟩,
     ⟨2, b.hnd, ⟨b.rows, b.cols, fb⟩, .n, .k, false⟩]
  | .vec op i _ _ hd ha hb hp _ =>
    let e := op.elementwise
    let roles : Role × Role × Role × Role := match op with
      | .rred _ _ _ => (.m, .none, .m, .k)
      | .cred _ _ _ => (.none, .n, .k, .n)
      | .ins _ _ => (.m, .n, .none, .none)
      | _ => if e then (.m, .n, .m, .n) else (.none, .none, .none, .none)
    (if op.writesD then [⟨0, hd, i.d, roles.1, roles.2.1, true⟩] else []) ++
    (if op.readsD then [⟨0, hd, i.d, roles.1, roles.2.1, false⟩] else []) ++
    (if op.usesA then [⟨1, ha, i.a, roles.2.2.1, roles.2.2.2, false⟩] else []) ++
    (if op.usesB then [⟨2, hb, i.b, if e then .m else .none, if e then .n else .none, false⟩] else []) ++
    (if op.writesB then [⟨2, hb, i.b, if e then .m else .none, if e then .n else .none, true⟩] else []) ++
    (if op.usesPartner i.d i.a then [⟨3, hp, i.p, if e then .m else .none, .none, false⟩] else [])
  | .mout _ _ _ _ e => [⟨0, some e, e.shape, .none, .none, true⟩]
  | .mrd _ e => [⟨0, some e, e.shape, .none, .none, true⟩]
  | .mfeed _ e => [⟨1, some e, e.shape, .none, .none, false⟩]

/-- The operation runs at CORE whatever its operands (03 R56). -/
def PlKind.atCore : PlKind → Bool
  | .mma _ _ _ _ _ _ _ _ => false
  | .vec op _ _ _ _ _ _ _ _ => op.atCore
  | .mout _ _ _ _ _ => true
  | .mrd _ _ => true
  | .mfeed _ _ => true

/-- Extents M, N, K of an operation. -/
def PlKind.extents : PlKind → Nat × Nat × Nat
  | .mma _ _ a b _ _ _ _ => (a.rows, b.rows, kOf ⟨a.rows, a.cols, 0⟩)
  | .vec op i _ _ _ _ _ _ _ => match op with
    | .rred _ _ _ => (i.a.rows, 1, i.a.cols)
    | .cred _ _ _ => (1, i.a.cols, i.a.rows)
    | _ => if op.writesD then (i.d.rows, i.d.cols, 1) else (1, 1, 1)
  | .mout _ _ _ _ e => (e.shape.rows, e.shape.cols, 1)
  | .mrd _ e => (e.shape.rows, e.shape.cols, 1)
  | .mfeed _ e => (e.shape.rows, e.shape.cols, 1)

/-- The first handle of the operation that names a placement entry (03 R72). -/
def PlKind.unresolved (k : PlKind) : Option Enf := (k.args.filterMap (·.hnd)).find? fun e => hPV e.ws

/-- Rows and columns of an operand inside a cell. -/
def PArg.ranges (a : PArg) (p : Piece) : (Nat × Nat) × (Nat × Nat) :=
  let pick := fun (d : Role) (ext : Nat) => match d with
    | .m => (p.m0, p.m1)
    | .n => (p.n0, p.n1)
    | .k => (p.k0, p.k1)
    | .none => (0, ext)
  let r := if a.shape.rows = 1 then (0, 1) else pick a.row a.shape.rows
  let c := if a.shape.cols = 1 then (0, 1) else pick a.col a.shape.cols
  ((r.1, min r.2 a.shape.rows), (c.1, min c.2 a.shape.cols))

/-- Stored bytes of an operand in a cell, in element order: address and count; the codes of an MX block, then its scale. -/
def PArg.spans (a : PArg) (p : Piece) : List (Nat × Nat) := match a.hnd with
  | none => []
  | some e =>
    let rg := a.ranges p
    let rows := (List.range (rg.1.2 - rg.1.1)).map (· + rg.1.1)
    let cols := (List.range (rg.2.2 - rg.2.1)).map (· + rg.2.1)
    rows.flatMap fun r => cols.flatMap fun c => match fmtOf a.shape.fmt with
      | some (.mx w) => if c % 32 ≠ 0 then [] else match walkBlock e.ws (hBase e.ws) w e.offs r c with
        | some (code, scale, _) => [(code, 4 * w), (scale, 1)]
        | none => []
      | some f => match walkVa e.ws (hBase e.ws) e.offs r c with
        | some va => if f.bits < 8 then [] else [(va, f.bits / 8)]
        | none => []
      | none => []

/-- Lines of an operand in a cell. -/
def PArg.lineVas (a : PArg) (p : Piece) : List Nat :=
  (a.spans p).foldl (fun l e => insertNat (lineOf (e.1 + e.2 - 1)) (insertNat (lineOf e.1) l)) []

/-- The element VINS writes, if its index names one (20 R356): row and column. -/
def PlKind.oneElem : PlKind → Option (Option (Nat × Nat))
  | .vec (.ins _ idx) i _ _ _ _ _ _ _ => some (if idx < i.d.rows * i.d.cols then some (idx / i.d.cols, idx % i.d.cols) else none)
  | _ => none

/-- The whole of an operation of a core, before it is cut. -/
def PlKind.whole (k : PlKind) (c id : Nat) : Piece :=
  let ex := k.extents
  let rc : Nat × Nat × Nat × Nat := match k.oneElem with
    | some (some (r, n)) => (r, r + 1, n, n + 1)
    | some none => (0, 0, 0, 0)
    | none => (0, ex.1, 0, ex.2.1)
  { id := 0, core := c, op := id, order := 0, place := 0, m0 := rc.1, m1 := rc.2.1, n0 := rc.2.2.1, n1 := rc.2.2.2, k0 := 0, k1 := ex.2.2,
    ready := 0, came := 0, run := 0, out := 0, st := 0, evs := (0, 0, 0) }

/-- Read and write lines of an operation, reads first. -/
def PlKind.lines (k : PlKind) : List LineAcc :=
  let whole := k.whole 0 0
  let vas := fun (w : Bool) => k.args.foldl (fun l a => if a.write = w then (a.lineVas whole).foldl (fun l v => insertNat v l) l else l) []
  (vas false).map loadLine ++ (vas true).map fun v => { loadLine v with mask := [true] }

/-- The lines a placed operation will access, those through a placement entry relative to its BASE (03 R76; 13 R217). -/
def PlKind.about (k : PlKind) : List (Option Nat × Bool × Nat) :=
  let far := fun (a : PArg) => match a.hnd with
    | some e => if hPV e.ws then
        ({ a with hnd := some { e with ws := wset e.ws 0 (put (wnth e.ws 0) 51 0 0) } }.lineVas (k.whole 0 0)).map fun va =>
          (some (hPle e.ws), a.write, (va + 2 ^ 60) % 2 ^ 64)
      else (a.lineVas (k.whole 0 0)).map fun va => (none, a.write, va)
    | none => []
  k.args.flatMap far

end Sys2Proof.Machine
end

