-- ==== Sys2Proof/Machine/Matrix.lean ====
section
/-! DEFINITION. The instructions of slot x, and the events of the matrix engine of a core (19). -/

namespace Sys2Proof.Machine
open Sys2Proof.Bits

/-! ### Accumulators -/

/-- Key of element (m, n) of an accumulator. -/
def accKey (acc m n : Nat) : Nat := acc * 65536 + m * 256 + n
/-- FP32 bits of an accumulator element; elements not listed hold +0.0. -/
def Core.accGet (k : Core) (acc m n : Nat) : Nat := Tbl.getD k.acc (accKey acc m n) 0
/-- An accumulator element set. -/
def Core.accPut (k : Core) (acc m n v : Nat) : Core :=
  { k with acc := if v = 0 then Tbl.erase k.acc (accKey acc m n) else Tbl.set k.acc (accKey acc m n) v }
/-- Every element of an accumulator becomes +0.0. -/
def Core.accZero (k : Core) (acc : Nat) : Core := { k with acc := k.acc.filter fun e => e.1 / 65536 != acc }
/-- Rows 0 to r - 1 and columns 0 to c - 1 of an accumulator. -/
def Core.accBits (k : Core) (acc r c : Nat) : List (List Nat) :=
  (List.range r).map fun m => (List.range c).map fun n => k.accGet acc m n
/-- Elements (m, n) of an area. -/
def area (m0 m1 n0 n1 : Nat) : List (Nat × Nat) :=
  (List.range (m1 - m0)).flatMap fun i => (List.range (n1 - n0)).map fun j => (m0 + i, n0 + j)

/-- Each element of an area takes a new value and events; an element's number is m × w + n. -/
def Core.accMap (k : Core) (acc w : Nat) (cells : List (Nat × Nat)) (f : Nat → Nat → Nat → Nat × Nat) (ev : Evs) : Core × Evs :=
  cells.foldl (fun a e =>
    let r := f e.1 e.2 (a.1.accGet acc e.1 e.2)
    (a.1.accPut acc e.1 e.2 r.1, Evs.add a.2 (e.1 * w + e.2) r.2)) (k, ev)

/-- An entry enters the shadow result buffer of a core whose group saves, with the cycles since its last bundle (05 R111). -/
def Core.shadow (k : Core) (now : Nat) (e : ShEnt) : Core :=
  { k with hold := k.hold.map fun es => es ++ [{ e with off := now - (k.issued + 1) }] }
/-- Events of a completed result enter the log (02 R53); while the group saves they wait for the replay (05 R113). -/
def Core.logRes (k : Core) (now pos addr mask code : Nat) : Core :=
  if k.hold.isNone ∨ mask = 0 then k.log pos addr mask code
  else k.shadow now ⟨0, 0, 0, 0, 0, [], pos, addr, mask, code, []⟩
/-- Lines of a result are written and become full (20 R348); while the group saves they are held as well (05 R111). -/
def Core.fillRes (k : Core) (now pos addr t first : Nat) (img : List Byte) : Core :=
  (k.fillLines t first img).shadow now ⟨4, 0, lineNo t first, ceilDiv img.length 128, 0, img, pos, addr, 0, 0, []⟩

/-- Events of a completed operation enter the log of its core (02 R53). -/
def State.logEvs (s : State) (c pos addr : Nat) (ev : Evs) : State :=
  s.updCore c fun k => k.logRes s.now pos addr ev.1 ev.code
/-- The same for a summary mask and code. -/
def State.logSum (s : State) (c pos addr : Nat) (ev : Nat × Nat) : State := s.updCore c fun k => k.logRes s.now pos addr ev.1 ev.2

/-- A writer or a job has ended: the group may have drained (08 R145). -/
def State.ended (s : State) (c : Nat) : State := match s.grpOf c with
  | some g => s.drainCheck g
  | none => s

/-! ### The engine at CORE -/

/-- An operation of the core runs its K-steps now. -/
def Core.engineRuns (k : Core) (now : Nat) : Bool := k.mma.any fun o => o.start.isSome && o.active now

/-- An operation starts in the idle array (19 R335). -/
def State.startMma (s : State) (c : Nat) (o : MmaOp) : State :=
  let s1 := s.updCore c fun k => { k with mma := updWhere (fun v => v.id == o.id) (fun v => { v with start := some s.now }) k.mma }
  let s2 := (s1.after (o.ksteps * o.c) (.shadowSwap (fin64 c))).watchTrf c
  if o.ksteps = 0 then s2.after 12 (.mmaComplete (fin64 c) o.id) else s2.after (12 + o.c) (.kstepComplete (fin64 c) o.id)

/-- The array of core `c` is free: the earliest of the shadow operation and the waiting placed pieces starts. -/
def State.engineNext (s : State) (c : Nat) : State :=
  let k := s.core c
  if k.engineRuns s.now || s.corePiece c then s
  else match k.mma.find? (fun o => o.start.isNone) with
    | some o => s.startMma c o
    | none => s.soon (.pieceStart (fin10 0))

/-- An operand as an MMA or MFEED takes it at issue under format `f` (19 R327, R328). -/
def State.mopArg (s : State) (c : Nat) (o : MOp) (f : Nat) : MArg :=
  let k := s.core c
  let sh := k.mopShape o
  match o, k.mopHandle o with
  | .tile t, none => ⟨0, t.val, sh.rows, sh.cols, k.tileImg t.val ({ sh with fmt := f } : Shape).lines, none⟩
  | .tile t, some h => ⟨0, t.val, sh.rows, sh.cols, [], some (k.enf h 0 { sh with fmt := f } (hPV (k.hwords h)))⟩
  | .chan n, _ =>
    let x := (k.chan n.val).getD ⟨false, false, false, false, 0, 0, none, 0, 0, 0, 0, 0, 0, []⟩
    ⟨1, n.val, sh.rows, sh.cols, s.mem.read (scrKey c ((x.rbase + x.cp * x.lines) * 128)) (128 * ({ sh with fmt := f } : Shape).lines), none⟩
  | .hnd h, _ => ⟨2, h.val, sh.rows, sh.cols, [], some (k.enf h.val 0 { sh with fmt := f } (hPV (k.hwords h.val)))⟩

/-- The tile or ring slot an operand keeps from being overwritten while it is read (19 R336). -/
def Core.readKey (k : Core) (o : MOp) : List Nat := match o with
  | .tile t => if (k.boundTo t.val).isSome then [] else [t.val]
  | .chan n => match k.chan n.val with
    | some x => [256 + 64 * n.val + x.cp]
    | none => []
  | .hnd _ => []

/-- An operation enters the placement stage of core `c` (03 R67). -/
def State.pushPlaced (s : State) (c slot : Nat) (k : PlKind) : State :=
  (s.push c ((s.core c).posAt slot) (s.bundleAddr c) (.placed k) [] [] none false k.about).pump c

/-- MMA and MMAZ (19 R333 to R336; 03 R67 when placed). -/
def State.issueMma (s : State) (c slot acc : Nat) (a b : MOp) (fs zero : Bool) : State :=
  let k := s.core c
  let e := k.fmtEntry fs
  let fa := get e 15 8
  let fb := get e 7 0
  let aa := s.mopArg c a fa
  let ab := s.mopArg c b fb
  let id := s.nextId
  let s1 := s.updCore c fun k =>
    { k with writers := k.writers ++ [(128 + acc, id)], readers := k.readers ++ (k.readKey a ++ k.readKey b).map fun r => (r, id) }
  if aa.hnd.isSome || ab.hnd.isSome then s1.pushPlaced c slot (.mma acc zero aa ab fa fb k.mcopr k.numv)
  else
    let o : MmaOp := { id := id, pos := k.posAt slot, addr := s.bundleAddr c, acc := acc, zero := zero, a := aa, b := ab, fa := fa,
                       fb := fb, m := aa.rows, n := ab.rows, ksteps := ceilDiv aa.cols 32,
                       c := kstepCycles (arrayWidth fa) (arrayWidth fb), pat := k.mcopr, numv := k.numv, start := none, kdone := 0,
                       win := [], winNan := [], evs := (0, 0, 0) }
    let idle := !(k.engineRuns s.now) && !(k.mma.any fun v => v.start.isNone) && !s.corePiece c
    let s2 := s1.bump.updCore c fun k => { k with mma := k.mma ++ [o] }
    if idle then s2.startMma c o else s2

/-- MMA (19 R333). -/
def execMma (h : Hdr) (acc : AReg) (a b : MOp) (fs : Bool) (s : State) : Out :=
  slotDo h (.mma h acc a b fs) s fun c s => s.issueMma c h.slot.val acc.val a b fs false

/-- MMAZ (19 R333). -/
def execMmaz (h : Hdr) (acc : AReg) (a b : MOp) (fs : Bool) (s : State) : Out :=
  slotDo h (.mmaz h acc a b fs) s fun c s => s.issueMma c h.slot.val acc.val a b fs true

/-! ### Readers and late writers of an accumulator -/

/-- A writer of accumulator `acc` issued before operation `id` has not completed. -/
def Core.accBusy (k : Core) (acc id : Nat) : Bool := k.writers.any fun w => w.1 == 128 + acc && decide (w.2 < id)

/-- A job whose accumulator has no earlier writer left: MOUT reads it now; MFEED ends 6 + L cycles on (19 R337, R340). -/
def State.settleJob (s : State) (c : Nat) (j : Job) : State :=
  let k := s.core c
  match j.kind with
  | .mout acc t rm sat rs =>
    if j.done ≠ 0 || k.accBusy acc j.id then s else
      let d := k.shape t
      let r := moutImage d rm sat rs (k.accBits acc d.rows d.cols)
      let at_ := s.now + 6 + d.lines
      let j1 := { j with done := at_, tiles := [(t, 0, r.1)], evs := evSummary r.2 }
      ((s.updCore c fun k => { k with jobs := updWhere (fun v => v.id == j.id) (fun _ => j1) k.jobs }).sched at_ (.matrixOutputComplete (fin64 c) j.id)).watchTrf c
  | .mfeed acc rows cols fmt _ =>
    if j.done ≠ 0 || k.accBusy acc j.id then s else
      let at_ := s.now + 6 + (⟨rows, cols, fmt⟩ : Shape).lines
      ((s.updCore c fun k => { k with jobs := updWhere (fun v => v.id == j.id) (fun v => { v with done := at_ }) k.jobs }).sched at_
        (.matrixOutputComplete (fin64 c) j.id)).watchTrf c
  | _ => s

/-- Operation `id` no longer writes or reads anything of core `c`; what waited for it goes on. -/
def State.accSettle (s : State) (c id : Nat) : State :=
  let s0 := ((s.core c).writers.filter fun w => w.2 == id && decide (128 ≤ w.1)).foldl (fun (s : State) w =>
    s.updCore c fun k => k.shadow s.now ⟨6, w.1 - 128, 0, 0, 0, [], 0, 0, 0, 0, []⟩) s
  let s1 := s0.updCore c fun k => { k with writers := k.writers.filter fun w => w.2 != id, readers := k.readers.filter fun w => w.2 != id }
  (((s1.core c).jobs.foldl (fun (s : State) j => s.settleJob c j) s1).soon (.pieceStart (fin10 0))).ended c

/-- MOUT (19 R337); into a bound tile it is placed at CORE (03 R56). -/
def execMout (h : Hdr) (tD : TReg) (acc : AReg) (rm : RMode) (sat : Bool) (s : State) : Out :=
  slotDo h (.mout h tD acc rm sat) s fun c s =>
    let k := s.core c
    let d := k.shape tD.val
    let r := if rm = .sr ∧ d.fmt ≠ 0 then draws (d.rows * d.cols) k.seed else ([], k.seed)
    let s1 := s.updCore c fun k => { k with seed := r.2 }
    let id := s.nextId
    match k.boundTo tD.val with
    | some hn =>
      let s2 := s1.updCore c fun k => { k with writers := k.writers ++ [(tD.val, id)] }
      s2.pushPlaced c h.slot.val (.mout acc.val rm sat r.1 (k.enf hn 0 d (hPV (k.hwords hn))))
    | none =>
      let j : Job := { id := id, pos := k.posAt h.slot.val, addr := s.bundleAddr c, done := 0, kind := .mout acc.val tD.val rm sat r.1,
                       tiles := [], evs := (0, 0) }
      let s2 := s1.bump.updCore c fun k =>
        { k.emptyLines tD.val 0 d.lines none (some id) with writers := k.writers ++ [(tD.val, id)], jobs := k.jobs ++ [j] }
      s2.settleJob c j

/-- K-steps still outstanding on an accumulator (19 R338, R343). -/
def State.outstanding (s : State) (c acc : Nat) : Nat :=
  let k := s.core c
  let mmas := (k.mma.filter fun o => o.acc == acc).map fun o =>
    o.ksteps - (if o.numv && (patSteps o.pat).all (· == 0) && o.kdone != o.ksteps then o.kdone / 4 * 4 else o.kdone)
  let placed := k.memq.map fun o => match o.kind with
    | .placed (.mma a _ x _ _ _ _ _) =>
      if a != acc then 0 else
        let open_ := (s.ridge.pieces.filter fun p => p.2.core == c && p.2.op == o.id && p.2.st != 4).map fun p => p.2.k0
        ceilDiv x.cols 32 - (match open_ with
          | [] => 0
          | p :: ps => (ps.foldl min p) / 32)
    | .placed (.mfeed a _) => if a = acc then 1 else 0
    | _ => 0
  let jobs := k.jobs.map fun j => match j.kind with
    | .mfeed a _ _ _ _ => if a = acc then 1 else 0
    | .mclr a => if a = acc then 1 else 0
    | _ => 0
  mmas.sum + placed.sum + jobs.sum

/-- MRD: a snapshot of the accumulator as it stands (19 R338); into a bound tile it is placed at CORE (03 R56). -/
def execMrd (h : Hdr) (tD : TReg) (acc : AReg) (xD : XReg) (s : State) : Out :=
  slotDo h (.mrd h tD acc xD) s fun c s =>
    let k := s.core c
    let d := k.shape tD.val
    let at_ := s.now + 6 + d.lines
    let img := tileImage d (k.accBits acc.val d.rows d.cols) []
    let s1 := s.due c h.slot.val (6 + d.lines) (.x xD.val (BitVec.ofNat 64 (s.outstanding c acc.val)))
    match k.boundTo tD.val with
    | some hn =>
      (s1.updCore c fun k => { k with writers := k.writers ++ [(tD.val, s.nextId)] }).pushPlaced c h.slot.val (.mrd img (k.enf hn 0 d (hPV (k.hwords hn))))
    | none =>
      let j : Job := { id := s.nextId, pos := k.posAt h.slot.val, addr := s.bundleAddr c, done := at_, kind := .mrd,
                       tiles := [(tD.val, 0, img)], evs := (0, 0) }
      let s2 := s1.bump.updCore c fun k =>
        { k.emptyLines tD.val 0 d.lines none (some j.id) with writers := k.writers ++ [(tD.val, j.id)], jobs := k.jobs ++ [j] }
      (s2.sched at_ (.matrixOutputComplete (fin64 c) j.id)).watchTrf c

/-- MCLR (19 R339). -/
def execMclr (h : Hdr) (acc : AReg) (s : State) : Out :=
  slotDo h (.mclr h acc) s fun c s =>
    let k := s.core c
    let j : Job := { id := s.nextId, pos := k.posAt h.slot.val, addr := s.bundleAddr c, done := s.now + 4, kind := .mclr acc.val,
                     tiles := [], evs := (0, 0) }
    (s.bump.updCore c fun k => { k with writers := k.writers ++ [(128 + acc.val, j.id)], jobs := k.jobs ++ [j] }).after 4
      (.matrixOutputComplete (fin64 c) j.id)

/-- MCOP (19 R341). -/
def execMcop (h : Hdr) (xA : XReg) (s : State) : Out :=
  slotDo h (.mcop h xA) s fun c s => s.due c h.slot.val 1 (.spr 0x021 ((s.core c).rx xA))

/-- MFEED (19 R340); from a bound tile or a handle it is placed at CORE (03 R56). -/
def execMfeed (h : Hdr) (acc : AReg) (a : MOp) (s : State) : Out :=
  slotDo h (.mfeed h acc a) s fun c s =>
    let k := s.core c
    let sh := k.mopShape a
    let x := s.mopArg c a sh.fmt
    let id := s.nextId
    let s1 := s.updCore c fun k =>
      { k with writers := k.writers ++ [(128 + acc.val, id)], readers := k.readers ++ (k.readKey a).map fun r => (r, id) }
    match x.hnd with
    | some e => s1.pushPlaced c h.slot.val (.mfeed acc.val e)
    | none =>
      let j : Job := { id := id, pos := k.posAt h.slot.val, addr := s.bundleAddr c, done := 0,
                       kind := .mfeed acc.val sh.rows sh.cols sh.fmt x.img, tiles := [], evs := (0, 0) }
      (s1.bump.updCore c fun k => { k with jobs := k.jobs ++ [j] }).settleJob c j

/-- MFMT (19 R342). -/
def execMfmt (h : Hdr) (lvl : LevelF) (s : State) : Out :=
  slotDo h (.mfmt h lvl) s fun c s => s.due c h.slot.val 1 (.fl lvl.val)

/-! ### Events of the engine -/

/-- One K-step of an operation reaches the accumulator; under `NUMV` = 1 a group of four does, and MMAZ's zeroing with the first
(19 R333, R335, R338). -/
def Core.kstep (k : Core) (o : MmaOp) : Core :=
  let wa := arrayWidth o.fa
  let wb := arrayWidth o.fb
  let ba := argBlocks ⟨o.a.rows, o.a.cols, o.fa⟩ o.a.img
  let bb := argBlocks ⟨o.b.rows, o.b.cols, o.fb⟩ o.b.img
  let grouped := o.numv && (patSteps o.pat).all (· == 0)
  let k0 := if o.zero ∧ o.kdone = (if grouped then min 3 (o.ksteps - 1) else 0) then k.accZero o.acc else k
  let r := (area 0 o.m 0 o.n).foldl (fun (a : Core × List Int × List Bool × Evs) e =>
    let i := e.1 * o.n + e.2
    let x := cellStep o.pat o.numv wa wb o.ksteps o.kdone (ba.getD e.1 []) (bb.getD e.2 [])
      ⟨a.1.accGet o.acc e.1 e.2, o.win.getD i 0, o.winNan.getD i false, 0⟩
    (a.1.accPut o.acc e.1 e.2 x.acc, x.win :: a.2.1, x.nan :: a.2.2.1, Evs.add a.2.2.2 i x.evs)) (k0, [], [], o.evs)
  let o1 := { o with kdone := o.kdone + 1, win := r.2.1.reverse, winNan := r.2.2.1.reverse, evs := r.2.2.2 }
  { r.1 with mma := updWhere (fun v => v.id == o.id) (fun _ => o1) r.1.mma }

/-- KSTEP_COMPLETE (19 R335): the next one follows c cycles later; the last completes the operation. -/
def execKstepComplete (core : Fin 64) (id : Nat) (s : State) : Out :=
  match (s.core core.val).mma.find? fun o => o.id == id with
  | some o =>
    if o.start.isNone || decide (o.ksteps ≤ o.kdone) then .next s
    else
      let s1 := s.updCore core.val fun k => k.kstep o
      .next (if o.kdone + 1 < o.ksteps then s1.after o.c (.kstepComplete core id) else s1.soon (.mmaComplete core id))
  | none => .next s

/-- SHADOW_SWAP (19 R335, R336): the running operation has taken its last operands; the next starts. -/
def execShadowSwap (core : Fin 64) (s : State) : Out :=
  let finished := ((s.core core.val).mma.filter fun o => o.start.isSome && !o.active s.now).map (·.id)
  .next ((s.updCore core.val fun k => { k with readers := k.readers.filter fun r => !finished.contains r.2 }).engineNext core.val)

/-- MMA_COMPLETE (19 R335, R336). -/
def execMmaComplete (core : Fin 64) (id : Nat) (s : State) : Out :=
  match (s.core core.val).mma.find? fun o => o.id == id with
  | some o =>
    if o.start.isNone || decide (o.kdone < o.ksteps) then .next s
    else
      let s1 := s.logEvs core.val o.pos o.addr o.evs
      .next ((s1.updCore core.val fun k => { k with mma := k.mma.filter fun v => v.id != id }).accSettle core.val id)
  | none => .next s

/-- MFEED's additions with their events; a 1-row or 1-column tile is broadcast (19 R340). -/
def Core.feed (k : Core) (acc : Nat) (sh : Shape) (img : List Byte) : Core × Evs :=
  let bits := tileBits sh img
  let f := fmtOf sh.fmt
  let cells := area 0 (if sh.rows = 1 then 256 else sh.rows) 0 (if sh.cols = 1 then 256 else sh.cols)
  k.accMap acc 256 cells (fun m n v =>
    let b := (bits.getD (if sh.rows = 1 then 0 else m) []).getD (if sh.cols = 1 then 0 else n) 0
    accAdd 0 v (match f with
      | some f => decodeElem f b
      | none => Val.zero, 0)) (0, 0, 0)

/-- The tile lines of a job fill, and its events enter the log (20 R348, R350). -/
def State.fillJob (s : State) (c : Nat) (j : Job) : State :=
  (s.updCore c fun k => j.tiles.foldl (fun (k : Core) t => k.fillRes s.now j.pos j.addr t.1 t.2.1 t.2.2) k).logSum c j.pos j.addr j.evs

/-- MATRIX_OUTPUT_COMPLETE: an MOUT, MRD, MCLR or MFEED ends (19 R337 to R340). -/
def execMatrixOutputComplete (core : Fin 64) (id : Nat) (s : State) : Out :=
  let c := core.val
  match (s.core c).jobs.find? fun j => j.id == id with
  | none => .next s
  | some j =>
    if j.done = 0 || decide (s.now < j.done) then .next s
    else
      let s1 := s.updCore c fun k => { k with jobs := k.jobs.filter fun v => v.id != id }
      match j.kind with
      | .mclr acc => .next ((s1.updCore c fun k => k.accZero acc).accSettle c id)
      | .mfeed acc rows cols fmt img =>
        let r := (s1.core c).feed acc ⟨rows, cols, fmt⟩ img
        .next (((s1.setCore c r.1).logEvs c j.pos j.addr r.2).accSettle c id)
      | .vec => .next s
      | .tzero => .next s
      | .shadow _ => .next s
      | _ => .next ((s1.fillJob c j).accSettle c id)

end Sys2Proof.Machine
end

