-- ==== Sys2Proof/Machine/MemEvents.lean ====
section
/-! DEFINITION. Events of the memory model: lines performed and landing, buffers draining, writes applied, markers,
acknowledgements, releases (04, 18), and the monitors of WAITA (09 R158 to R160). -/

namespace Sys2Proof.Machine
open Sys2Proof.Bits

/-! ### Loads -/

/-- Lines a held store of core `c` writes, through a placement entry with its BASE as it stands. -/
def State.storeLines (s : State) (c : Nat) (o : MemOp) : List LineAcc := match o.kind with
  | .pstore e bytes => scatter (bytes.map fun b => (s.entryVa (s.ctxOf c) (some (hPle e.ws)) b.1, b.2))
  | _ => o.lines

/-- The bytes an open region's held stores give a line, over what memory gives (04 R93). -/
def State.heldOver (s : State) (c pos key : Nat) (bs : List Byte) : List Byte :=
  let mine : List LineAcc := match (s.core c).spec with
    | some r => (r.held.filter fun (h : Held) => decide (h.pos < pos)).flatMap fun (h : Held) => s.storeLines c h.op
    | none => []
  mine.foldl (fun b l => match s.agentXlate (some c) (s.ctxOf c) l.va true false with
    | .ok k _ _ => if lineOf k = key then overlay b (List.zip l.mask l.data) else b
    | _ => b) bs

/-- A line of an operation has its bytes. -/
def State.lineDone (s : State) (c id n : Nat) (bs : List Byte) : State :=
  s.updCore c fun k => k.updOp id fun o => o.updLine n fun l => { l with st := .done, data := bs }

/-- No line of the operation is still on its way. -/
def MemOp.settled (o : MemOp) : Bool := o.lines.all fun l => match l.st with
  | .done => true
  | .fault _ => true
  | _ => false

/-- What follows when a line of core `c` has been performed: held stores of the die may become visible, a fault entry may
be due, the landing is due when no line is on its way (04 R86; 22 R387). -/
def State.afterLine (s : State) (c id : Nat) : State :=
  let s1 := (s.releaseHeld (c / 8)).noteFault c id
  let s2 := match (s1.core c).op id with
    | some o => if o.isLoad && o.settled then s1.sched (max o.ready s1.now) (.loadLanding (fin64 c) id) else s1
    | none => s1
  (if s2.ridge.pieces.isEmpty then s2 else (List.range 10).foldl (fun (s : State) p => s.soon (.pieceStart (fin10 p))) s2).pump c

/-- A comparison of WAITA (09 Table 9.3). -/
def waitHolds (cond : WaitCond) (w v : Word) : Bool := match cond with
  | .eq => w == v
  | .ne => w != v
  | .ge => decide (sgn v ≤ sgn w)
  | .geu => decide (v.toNat ≤ w.toNat)

/-- Room in the monitor table that serves a home (09 R159): 64 at a rafter, 128 at the ridge. -/
def State.monRoom (s : State) (home : Nat) : Bool :=
  if home < 8 then decide ((s.die home).mons.length < 64) else decide (s.ridge.mons.length < 128)

/-- A monitor is armed. -/
def State.arm (s : State) (home : Nat) (m : Mon) : State :=
  if home < 8 then s.updDie home fun d => { d with mons := d.mons ++ [m] } else s.updRidge fun r => { r with mons := r.mons ++ [m] }

/-- The compare-and-arm of a WAITA with the word at the home of its line (09 R158, R159): done, armed, or to be re-read in 1,024 cycles.
The stamp of the word that satisfied it merges. -/
def State.compareArm (s : State) (c id n : Nat) (o : MemOp) (l : LineAcc) (cond : WaitCond) (v : Word) (off : Nat)
    (bs : List Byte) : State :=
  if waitHolds cond (leWord (slice bs off 8)) v then ((((s.mergeLine (c / 8) l.key).pinDrop l.lock).lineDone c id n bs).afterLine c id)
  else if l.home = 17 then s.after 1024 (.monitorReread (fin64 c))
  else if s.monRoom l.home then s.arm l.home ⟨l.key, c, id⟩
  else
    let s1 := if o.full then s else (s.updCore c fun k => k.logCode o.pos o.addr codeMONFULL).updCore c fun k => k.updOp id fun o => { o with full := true }
    s1.after 1024 (.monitorReread (fin64 c))

/-- A load waits at a home that it has to be served at (04 R83). -/
def State.waitAt (s : State) (c id n : Nat) (l : LineAcc) : State := s.updAgent l.home fun a =>
  if a.loads.contains (c, id, n, l.acq) then a else { a with loads := a.loads ++ [(c, id, n, l.acq)] }

/-- Earlier lines of a core's loads that have not been performed: those of one line are performed in program order. -/
def Core.linesBefore (k : Core) (o : MemOp) (l : LineAcc) : List LineAcc := k.memq.flatMap fun p =>
  if p.isPlainLoad && decide (p.pos < o.pos) then p.lines.filter fun m => !m.isDone && (m.key == l.key || lineOf m.va == lineOf l.va) else []

/-- A line leaves the core again: an earlier load of its line has not left, or the L1 has lost the copy that was to serve it. -/
def State.restart (s : State) (c id n : Nat) (l : LineAcc) : State :=
  (s.pinDrop l.lock).updCore c fun k => k.updOp id fun o => o.updLine n fun l => { l with st := .idle, lock := 0 }

/-! ### Turns at the homes (22 R389 to R391) -/

/-- The bank or pseudo-channel that serves a line at its home: of the L2, 0 to 63; the pseudo-channels, from 64; the banks of the chip
scratchpad, from 320. Core scratchpads follow 01 R19, and host memory beyond the L2 has no bound. -/
def pointOf (key home : Nat) (miss : Bool) : Option Nat :=
  if isScr key then none
  else if l2Able key home && !miss then some (l2Bank key)
  else if key < hbmTop then some (64 + pchOf key)
  else if home = 16 then some (320 + Config.scrBank (key / 128))
  else none

/-- The load line that an event is to perform asks its home now: an L1 does not serve it, and the home does not hold it back. -/
def State.lineAsks (s : State) (c id n : Nat) : Option LineAcc := match (s.core c).op id with
  | none => none
  | some o => match o.lines[n]? with
    | none => none
    | some l =>
      if l.st != .flight || !o.isLoad || l.l1 || !(s.agent l.home).holdsVec l.home l.acq || s.slotLoading l.key then none
      else some l

/-- The lookup of the L2 has missed. -/
def State.askMissed (s : State) (ev : Instr) : Bool := s.ridge.asks.any fun a => a.ev == ev && a.miss

/-- What an event asks for: the point, the agent it comes from, the line. A drained write that the L2 does not hold is served by HBM, and a
walk never reads the L2 (10 R164). -/
def State.request (s : State) (ev : Instr) : Option (Nat × Nat × Nat) := match ev with
  | .loadPerformed c id n => (s.lineAsks c.val id n).bind fun l => (pointOf l.key l.home (s.askMissed ev)).map fun p => (p, c.val / 8, l.key)
  | .writeApply h id => (s.flights.find? fun w => w.id == id && w.home == h.val).bind fun w =>
      (pointOf w.key w.home (!s.l2Hit w.key)).map fun p => (p, w.stamp.agent, w.key)
  | .walkComplete d x va => ((s.die d.val).walks.find? fun w => w.ctx == x.val && w.va == va && w.run.isSome).bind fun w => match w.run with
    | some (n + 1, pa) => (s.entryAt va n pa).bind fun e => (pointOf e.2.1 e.2.2 true).map fun p => (p, d.val, e.2.1)
    | _ => none
  | _ => none

/-- What of a request counts first at its point, smaller first: at a bank the turn of its agent, then its age; at a pseudo-channel whether
it has waited 256 cycles or finds its row open, its age, its agent. -/
def State.urgency (s : State) (came : Nat) (r : Nat × Nat × Nat) : Nat × Nat × Nat :=
  let q := Tbl.getD s.ridge.points r.1 Point.reset
  if r.1 < 64 ∨ 320 ≤ r.1 then ((r.2.1 + 17 - q.last) % 18, came, 0)
  else (if came + 256 ≤ s.now then 0 else if q.row = some (Config.hbmRow (r.2.2 / 128)) then 1 else 2, came, r.2.1)

/-- Order of urgencies. -/
def urges (a b : Nat × Nat × Nat) : Bool := decide (a.1 < b.1 ∨ (a.1 = b.1 ∧ (a.2.1 < b.2.1 ∨ (a.2.1 = b.2.1 ∧ a.2.2 < b.2.2))))

/-- The cycle an event came to its point. -/
def State.cameAt (s : State) (ev : Instr) : Nat := ((s.ridge.asks.find? fun a => a.ev == ev).map (·.came)).getD s.now

/-- A point is free. -/
def State.pointFree (s : State) (p : Nat) : Bool := decide ((Tbl.getD s.ridge.points p Point.reset).free ≤ s.now)

/-- An event has its turn at its home: the point is free and no other request comes before it, of those that wait or that come in this
cycle. -/
def State.hasTurn (s : State) (ev : Instr) : Bool := match s.request ev with
  | none => true
  | some r =>
    let mine := s.urgency (s.cameAt ev) r
    let theirs := fun (a : Ask) => (a.at_.filter fun q => q.1 == r.1).map fun q => s.urgency a.came q
    let ahead := s.ridge.asks.takeWhile fun a => a.ev != ev
    let now := (s.agenda.takeWhile fun e => decide (e.1 ≤ s.now)).filter fun e => e.2 != ev && !s.ridge.asks.any fun a => a.ev == e.2
    s.pointFree r.1 && ahead.all (fun a => (theirs a).all fun u => urges mine u) &&
      (s.ridge.asks.drop (ahead.length + 1)).all (fun a => (theirs a).all fun u => !urges u mine) &&
      now.all (fun e => ((s.request e.2).filter fun q => q.1 == r.1).all fun q => !urges (s.urgency s.now q) mine)

/-- The request that waits at a point and comes first there. -/
def State.firstAsk (s : State) (p : Nat) : Option Instr :=
  (s.ridge.asks.foldl (fun (b : Option (Instr × Nat × Nat × Nat)) a => match a.at_ with
    | some q => if q.1 != p then b else
      let u := s.urgency a.came q
      (match b with
      | some v => if urges u v.2 then some (a.ev, u) else b
      | none => some (a.ev, u))
    | none => b) none).map (·.1)

/-- Event `i` is due at cycle `t` unless it is already. -/
def State.dueAt (s : State) (t : Nat) (i : Instr) : State := if s.agenda.contains (t, i) then s else s.sched t i

/-- It has not: it waits, and asks again when the point is free. One request of a point that is busy is due then; at one that is free the
request that comes first is served in this cycle. -/
def State.askAgain (s : State) (ev : Instr) : State := match s.request ev with
  | none => s.after 1 ev
  | some r =>
    let other := s.ridge.asks.any fun a => a.ev != ev && a.at_.any fun q => q.1 == r.1
    let s1 := s.updRidge fun x =>
      { x with asks := if x.asks.any fun a => a.ev == ev then updWhere (fun a => a.ev == ev) (fun a => { a with at_ := some r }) x.asks
                       else x.asks ++ [⟨ev, s.now, false, some r⟩] }
    if !s.pointFree r.1 then (if other then s1 else s1.dueAt (Tbl.getD s.ridge.points r.1 Point.reset).free ev)
    else (match s1.firstAsk r.1 with
      | some i => if i == ev then s1 else s1.soon i
      | none => s1).dueAt (s.now + 1) ev

/-- The point of request `r` serves `ev`, a bank for 1 cycle, a pseudo-channel for 2, or with none `ev` asks no more; what comes first of those
that wait there is next. -/
def State.askDone (s : State) (ev : Instr) (r : Option (Nat × Nat × Nat)) : State :=
  let p := (r.or ((s.ridge.asks.find? fun a => a.ev == ev).bind (·.at_))).map (·.1)
  let s1 := s.updRidge fun x =>
    { x with asks := x.asks.filter fun a => a.ev != ev
             points := match r with
               | none => x.points
               | some r =>
                 if r.1 < 64 ∨ 320 ≤ r.1 then Tbl.set x.points r.1 ⟨s.now + 1, r.2.1, none⟩
                 else Tbl.set x.points r.1 ⟨s.now + 2, r.2.1, some (Config.hbmRow (r.2.2 / 128))⟩ }
  match p.bind s1.firstAsk, p with
  | some i, some p => s1.dueAt (max s.now (Tbl.getD s1.ridge.points p Point.reset).free) i
  | _, _ => s1

/-- The lookup of a line in the L2 that misses: 60 cycles on the line is at its HBM stack, 880 on in host memory (22 R387, R442). -/
def State.askMiss (s : State) (ev : Instr) (r : Option (Nat × Nat × Nat)) (home : Nat) : State :=
  let d := if home = 17 then 880 else 60
  ((s.askDone ev r).updRidge fun x => { x with asks := x.asks ++ [⟨ev, s.now + d, true, none⟩] }).after d ev

/-- An earlier load of the line waits at the point where this one will: they are served in their order there. -/
def State.askBehind (s : State) (c id line : Nat) (o : MemOp) (l : LineAcc) : Bool :=
  (pointOf l.key l.home (s.askMissed (.loadPerformed (fin64 c) id line))).isSome && s.ridge.asks.any fun a => match a.ev with
    | .loadPerformed d i n => d.val == c && a.at_.any (fun q => q.2.2 == l.key) && ((s.core c).op i).any fun p =>
      decide (p.pos < o.pos) && (p.lines[n]?).any fun m => m.onWay
    | _ => false

/-- The load of a performed line lands when its data is back (22 R387, R442). -/
def State.backAt (s : State) (c id n : Nat) (o : MemOp) (l : LineAcc) (miss : Bool) (t : State) : State :=
  let src := lineSource c l.va l.key l.home l.l1 miss
  let len := if o.count.1 = 0 then o.lines.length else o.count.1
  if o.isLoad then t.updCore c fun k => k.updOp id fun o => { o with ready := max o.ready (s.now + (srcAll src len + o.count.2 - srcOut src n)) } else t

/-- A line is read at the source that serves it (04 R79, R81, R83 to R85). When the home still waits for a close marker,
the load waits there; when the bank of a scratchpad is taken, or a point of its home serves another, it tries again in the next cycle (01
R19; 22 R389 to R391). -/
def State.performLine (s : State) (c id line : Nat) : State :=
  let ev : Instr := .loadPerformed (fin64 c) id line
  match (s.core c).op id with
  | none => s.askDone ev none
  | some o => match o.lines[line]? with
    | none => s
    | some l =>
      let before := (s.core c).linesBefore o l
      let got := match o.kind with
        | .waita _ _ _ => s.serveHome c l.key l.home l.acq
        | _ => s.serve c o.pos l.key l.home l.pte l.acq o.nl1 l.l1
      let r := s.request ev
      let looks := (r.any fun q => decide (q.1 < 64)) && !s.l2Hit l.key
      if l.st != .flight then s.askDone ev none
      else if before.any (·.onWay) then (if s.askBehind c id line o l then s.askAgain ev else (s.askDone ev none).after 1 ev)
      else if !before.isEmpty then (s.askDone ev none).restart c id line l
      else if l.l1 && !(s.core c).l1.any (fun e => decide (e.1 = l.key)) then ((s.askDone ev none).restart c id line l).pump c
      else if s.bankBusy c l.key then s.after 1 ev
      else match got with
        | none => (s.askDone ev none).waitAt c id line l
        | some (bs, s1) =>
          if !s.hasTurn ev then s.askAgain ev
          else if looks then s.askMiss ev r l.home
          else
            let s2 := s.backAt c id line o l (s.askMissed ev) ((s1.bankTake c l.key).askDone ev r)
            match o.kind with
            | .waita cond v off => s2.compareArm c id line o l cond v off bs
            | _ => ((s2.pinDrop l.lock).lineDone c id line (s.heldOver c o.pos l.key bs)).afterLine c id

/-- LOAD_PERFORMED (04 R79). -/
def execLoadPerformed (core : Fin 64) (id line : Nat) (s : State) : Out := .next (s.performLine core.val id line)

/-- LOAD_LANDING: the data of a load has reached the core (14 R236; 18 R317; 21 R370). -/
def execLoadLanding (core : Fin 64) (id : Nat) (s : State) : Out :=
  let c := core.val
  match (s.core c).op id with
  | none => .next s
  | some o =>
    if !o.settled then .next s
    else match o.kind with
      | .load _ _ _ _ =>
        let late := (s.core c).pend.any fun p => p.w == .land id
        if late then
          .next (if o.unperformed then s else s.updCore c fun k =>
            { k with pend := updWhere (fun (p : Pend) => p.w == .land id) (fun p => { p with arrived := true }) k.pend })
        else .next ((((s.updCore c fun k => k.landOp id).noteLanded c (s.core c).lines).accSettle c 0).pump c)
      | .tldw x off => match o.lines.head? with
        | some l => if l.isDone then
            .next (((s.deliver c id fun _ => .x x (leWord (slice l.data off 8))).updCore c fun k => k.dropOp id).ended c)
          else .next s
        | none => .next s
      | .chcfg n _ => .next (if o.unperformed then s else s.soon (.chcfgEntryArrival core (fin64 n)))
      | .waita _ _ _ => .next (if o.unperformed then s else (s.updCore c fun k => k.dropOp id).ended c)
      | _ => .next s

/-! ### Monitors -/

/-- The WAITA of a core that has not completed. -/
def Core.waitaOp (k : Core) : Option MemOp := k.memq.find? fun o => match o.kind with
  | .waita _ _ _ => true
  | _ => false

/-- MONITOR_WAKE: the line's new word goes to the core, which completes or re-arms by a fresh compare-and-arm (09 R158). -/
def execMonitorWake (core : Fin 64) (s : State) : Out :=
  let c := core.val
  match (s.core c).waitaOp with
  | none => .next s
  | some o =>
    let mine := fun (m : Mon) => m.core == c && m.id == o.id
    let armed := s.ridge.mons.any mine || (List.range 8).any fun d => (s.die d).mons.any mine
    if !armed then .next s
    else match o.kind, o.lines.head? with
      | .waita cond v off, some l =>
        let s1 := s.updRidge fun r => { r with mons := r.mons.filter fun m => !mine m }
        let s2 := (List.range 8).foldl (fun (s : State) d => s.updDie d fun x => { x with mons := x.mons.filter fun m => !mine m }) s1
        let bs := s2.mem.read l.key 128
        if waitHolds cond (leWord (slice bs off 8)) v then
          let s3 := (s2.mergeLine (c / 8) l.key).pinDrop l.lock
          let s4 := s3.updCore c fun k =>
            { (k.updOp o.id fun o => { o with ready := s.now + legs l.home (c / 8) }) with l1 := k.l1.filter fun e => e.1 != l.key }
          .next ((s4.lineDone c o.id 0 bs).afterLine c o.id)
        else .next (s2.after (legs l.home (c / 8) + max 1 (legs (c / 8) l.home)) (.loadPerformed core o.id 0))
      | _, _ => .next s

/-- MONITOR_REREAD: a WAITA without a monitor reads its word again and tries to arm, among the requests of the cycle in ascending core
index (09 R159). -/
def execMonitorReread (core : Fin 64) (s : State) : Out :=
  match (s.core core.val).waitaOp with
  | some o =>
    let mine := fun (m : Mon) => m.core == core.val && m.id == o.id
    let armed := s.ridge.mons.any mine || (List.range 8).any fun d => (s.die d).mons.any mine
    .next (if armed then s else s.performLine core.val o.id 0)
  | none => .next s

/-! ### Stores and buffers -/

/-- STORE_PERFORMED: a line enters the buffer of the die, or the owning scratchpad (04 R79, R81, R86); with every line of a
full buffer held it waits, as it does for a bank (01 R19) and for the close markers its home needs (04 R83). -/
def execStorePerformed (core : Fin 64) (id line : Nat) (s : State) : Out :=
  let c := core.val
  match (s.core c).op id with
  | none => .next s
  | some o => match o.kind, o.lines[line]? with
    | .store, some l =>
      if l.st != .flight then .next s
      else if s.bankBusy c l.key then .next (s.after 1 (.storePerformed core id line))
      else match s.wcbRoom c l.key with
        | (false, s1) => .next (s1.after 1 (.storePerformed core id line))
        | (true, s1) =>
          let s2 := (s1.bankTake c l.key).enterStore c o.pos l.key l.home (get l.pte 63 62) (List.zip l.mask l.data)
          let s3 := (s2.pinDrop l.lock).updCore c fun k => k.updOp id fun o => o.updLine line fun l => { l with st := .done }
          let s4 := s3.noteFault c id
          let finished := match (s4.core c).op id with
            | some o => !o.unperformed
            | none => false
          .next (((if finished then s4.updCore c fun k => k.dropOp id else s4).ended c).pump c)
    | _, _ => .next s

/-- WCB_AGE_DRAIN: a buffered line that nothing holds and that is 4,096 cycles old drains in the current epoch (04 R81, R86). -/
def execWcbAgeDrain (die : Fin 8) (key : Nat) (s : State) : Out :=
  match (s.die die.val).wcb.find? fun w => w.key == key && w.drainable && decide (w.since + 4096 ≤ s.now) with
  | some w => .next (s.drainOne die.val 0 w)
  | none => .next s

/-- WRITE_APPLY: a write has reached its home; when it has its turn there (22 R389 to R391) it is applied once the home holds every
marker its stamp requires (04 R83; 22 R442). -/
def execWriteApply (home : Fin 18) (id : Nat) (s : State) : Out :=
  let ev : Instr := .writeApply home id
  match s.flights.find? fun w => w.id == id && w.home == home.val with
  | some w => .next (if s.hasTurn ev then
      ({ s.askDone ev (s.request ev) with flights := s.flights.filter fun v => v.id != id }.deliverWrite w).nextWrite w
      else s.askAgain ev)
  | none => .next (s.askDone ev none)

/-- Loads that a home can serve now start again. -/
def State.retryLoads (s : State) (home : Nat) : State :=
  let x := s.agent home
  let go := x.loads.filter fun l => x.holdsVec home l.2.2.2
  let s1 := s.updAgent home fun a => { a with loads := a.loads.filter fun l => !(x.holdsVec home l.2.2.2) }
  go.foldl (fun (s : State) l => s.soon (.loadPerformed (fin64 l.1) l.2.1 l.2.2.1)) s1

/-- Scratchpad lines in the write ports of every die look again whether their homes take them (04 R83, R86). -/
def State.retryPorts (s : State) : State :=
  (List.range 8).foldl (fun (s : State) d => if (s.die d).wcb.any fun w => isScr w.key then s.releaseHeld d else s) s

/-- Writes that a marker follows wait for their turn at the home (04 R82; 22 R442). -/
def State.marksBehind (s : State) (home agent : Fin 18) (closing : Closing) : Bool := s.flights.any fun w =>
  w.home == home.val && w.src == closing.src && w.stamp.agent == agent.val && decide (w.stamp.epoch ≤ closing.epoch)

/-- CLOSE_MARKER: a marker of an agent of this package or of a peer reaches a home behind the writes of its epoch, and the home applies and
serves what waited for it (04 R82, R83, R91). -/
def execCloseMarker (home agent : Fin 18) (closing : Closing) (s : State) : Out :=
  if s.marksBehind home agent closing then .next (s.after 1 (.closeMarker home agent closing)) else
  let mark := fun (a : Agent) => if closing.src = 0 then a.close agent.val closing.epoch
    else { a with peers := (closing.src, agent.val, closing.epoch, closing.path) :: a.peers }
  .next ((((s.updAgent home.val mark).retryWrites home.val).retryLoads home.val).retryPorts)

/-- APPLY_ACKNOWLEDGEMENT: the die drops the line from its buffer (04 R81). -/
def execApplyAcknowledgement (die : Fin 8) (id : Nat) (s : State) : Out :=
  .next ((s.updDie die.val fun d => { d with wcb := d.wcb.filter fun w => w.sent != some id }).pumpDie die.val)

/-- A fence's awaits of its core's own accesses are over: with a wide release the die drains and ticks, in this cycle or the next (04 R82,
R88). -/
def State.fenceDrain (s : State) (c id : Nat) (ord : Order) (sc : Scope) : State :=
  let r := if relOrd ord && wideScope sc then s.releaseDie (c / 8) else (s, some s.now)
  match r.2 with
  | some t => (r.1.updCore c fun k => k.updOp id fun o => { o with kind := .fence ord sc 2, ready := t }).sched t (.releaseComplete (fin64 c) id)
  | none => s.after 1 (.releaseComplete (fin64 c) id)

/-- RELEASE_COMPLETE: a fence's awaits end; its place in the SC order, the invalidation of the L1, and what waited for it
(04 R88, R89). -/
def execReleaseComplete (core : Fin 64) (id : Nat) (s : State) : Out :=
  let c := core.val
  match (s.core c).op id with
  | none => .next s
  | some o => match o.kind with
    | .fence ord sc stage =>
      if stage = 1 then .next (s.fenceDrain c id ord sc)
      else if !s.fenceDone c o then .next s
      else
        let s1 := match ord, sc with
          | .sc, .device => s.updRidge fun r => { r with sc := r.sc + 1 }
          | .sc, .system => s.updRidge fun r => { r with sc := r.sc + 1 }
          | .sc, .cluster => s.updDie (c / 8) fun d => { d with sc := d.sc + 1 }
          | _, _ => s
        let s2 := if acqOrd ord && sc != .core then s1.updCore c fun k => { k with l1 := [] } else s1
        .next (((s2.updCore c fun k => k.dropOp id).ended c).pump c)
    | _ => .next s

/-- Tiles of a core that peer packages have acknowledged are done (11 R183). -/
def State.dropAcked (s : State) (c : Nat) : State :=
  let done := fun (o : MemOp) => match o.kind with
    | .chsend _ _ _ m => m != 0 && o.left && !o.fq && s.acked m
    | _ => false
  if (s.core c).memq.any done then ((s.updCore c fun k => { k with memq := k.memq.filter fun o => !done o }).ended c).pump c else s

/-- BANK_RETRY: what could not be served is tried again (01 R19). -/
def execBankRetry (core : Fin 64) (s : State) : Out := .next (s.pump core.val)

/-- TZERO_FILL (18 R318). -/
def execTzeroFill (core : Fin 64) (id : Nat) (s : State) : Out :=
  let c := core.val
  match (s.core c).jobs.find? fun j => j.id == id with
  | some j =>
    if j.kind != .tzero || decide (s.now < j.done) then .next s
    else .next (((s.updCore c fun k => { k with jobs := k.jobs.filter fun v => v.id != id }).fillJob c j).accSettle c id)
  | none => .next s

end Sys2Proof.Machine
end

