-- ==== Sys2Proof/Machine/Vector.lean ====
section
/-! DEFINITION. The instructions of slots v and q, and the events of the vector pipes (20). -/

namespace Sys2Proof.Machine
open Sys2Proof.Bits

/-! ### Pipes -/

/-- The instruction at the head of a pipe starts (20 R349). -/
def State.pipeGo (s : State) (c : Nat) (q : Bool) : State :=
  match (s.core c).pipe q with
  | [] => s.soon (.pieceStart (fin10 0))
  | o :: _ =>
    let j := { o.job with done := s.now + o.lat }
    let s1 := s.updCore c fun k => { k with jobs := k.jobs ++ [j] }
    ((s1.after o.occ (.pipeStart (fin64 c) q)).after o.lat (.vectorComplete (fin64 c) j.id)).watchTrf c

/-- An instruction enters a pipe; it starts at once in an idle one. -/
def State.pipeAdd (s : State) (c : Nat) (q : Bool) (o : PipeOp) : State :=
  let idle := ((s.core c).pipe q).isEmpty
  let s1 := s.updCore c fun k => k.setPipe q (k.pipe q ++ [o])
  if idle then s1.pipeGo c q else s1

/-! ### Issue -/

/-- The image of an operand tile: its lines when it is unbound. -/
def Core.opImg (k : Core) (t : Nat) : List Byte := if (k.boundTo t).isSome then [] else k.tileImg t (k.shape t).lines
/-- The handle of a bound tile as it stands. -/
def Core.opHnd (k : Core) (t : Nat) : Option Enf := (k.boundTo t).map fun h => k.enf h 0 (k.shape t) (hPV (k.hwords h))

/-- The largest line count among the tiles a vector instruction names (20 R349). -/
def Core.vecLen (k : Core) (v : VecI) : Nat :=
  ((v.named (k.shape v.d) (k.shape v.a)).map fun t => (k.shape t).lines).foldl max 0

/-- A vector instruction issues (20 R348 to R350; 03 R55, R67 when a tile it names is bound). -/
def State.issueVec (s : State) (c slot : Nat) (v : VecI) : State :=
  let k := s.core c
  let d := k.shape v.d
  let a := k.shape v.a
  let r := if v.op.isSr then draws (v.op.resultCount d) k.seed else ([], k.seed)
  let part := v.op.usesPartner d a
  let inp : VIn := { d := d, a := a, b := k.shape v.b, p := k.shape (v.a + 1), di := k.opImg v.d,
                     ai := if v.op.usesA then k.opImg v.a else [], bi := if v.op.usesB then k.opImg v.b else [],
                     pi := if part then k.opImg (v.a + 1) else [], rs := r.1 }
  let id := s.nextId
  let pos := k.posAt slot
  let empty := fun (k : Core) => (k.vecWrites v).foldl (fun (k : Core) w =>
    { k.emptyLines w.1 w.2.1 w.2.2 none (some id) with writers := k.writers ++ [(w.1, id)] }) { k with seed := r.2 }
  let s1 := s.updCore c empty
  if k.vecPlaced v then
    let kind := PlKind.vec v.op inp v.d v.b (if v.op.writesD || v.op.readsD then k.opHnd v.d else none)
      (if v.op.usesA then k.opHnd v.a else none) (if v.op.usesB then k.opHnd v.b else none)
      (if part then k.opHnd (v.a + 1) else none) v.x
    s1.pushPlaced c slot kind
  else
    let res := v.op.eval inp
    let dl := match res.d with
      | none => []
      | some img => (k.vecWrites v).filterMap fun w =>
          if w.1 = v.d then some (v.d, w.2.1, slice img (128 * w.2.1) (128 * w.2.2)) else none
    let bl := match res.b with
      | none => []
      | some img => [(v.b, 0, img)]
    let t := v.op.times (k.vecLen v)
    let j : Job := { id := id, pos := pos, addr := s.bundleAddr c, done := 0, kind := .vec, tiles := dl ++ bl, evs := evSummary res.evs }
    let s2 := match v.x, res.x with
      | some x, some w => s1.dueLate c slot 9 id (.x x w)
      | _, _ => s1
    s2.bump.pipeAdd c (slot == 6) ⟨j, t.1, t.2, v.reads d a⟩

/-- An instruction of slot v or q. -/
def State.vecDo (s : State) (c slot : Nat) (i : Instr) : State :=
  match (s.core c).vecOf i with
  | some v => s.issueVec c slot v
  | none => s

/-! ### Events of the pipes -/

/-- PIPE_START: the occupancy of the running instruction has ended; the waiting one starts (20 R349), once the bank groups of the cycle
before have been served (22 R392). -/
def execPipeStart (core : Fin 64) (q : Bool) (s : State) : Out :=
  let c := core.val
  let s1 := s.trfTurn c
  match (s1.core c).pipe q with
  | [] => .next (s1.watchTrf c)
  | o :: rest =>
    let early := (s1.core c).jobs.any fun j => j.id == o.job.id && decide (s.now + o.lat < j.done + o.occ)
    .next (if early then s1.watchTrf c else (s1.updCore c fun k => k.setPipe q rest).pipeGo c q)

/-- VECTOR_COMPLETE: result lines fill, a scalar result has arrived, events enter the log (20 R348, R350). -/
def execVectorComplete (core : Fin 64) (id : Nat) (s : State) : Out :=
  let c := core.val
  match (s.core c).jobs.find? fun j => j.id == id with
  | none => .next s
  | some j =>
    if j.done = 0 || decide (s.now < j.done) || j.kind != .vec then .next s
    else
      let s1 := s.updCore c fun k => { k with jobs := k.jobs.filter fun v => v.id != id }
      .next (((s1.fillJob c j).deliver c id fun w => w).accSettle c id)

/-! ### The instructions -/

/-- VADD (20 R351). -/
def execVadd (h : Hdr) (tD tA tB : TReg) (s : State) : Out :=
  slotDo h (.vadd h tD tA tB) s fun c s => s.vecDo c h.slot.val (.vadd h tD tA tB)

/-- VSUB (20 R351). -/
def execVsub (h : Hdr) (tD tA tB : TReg) (s : State) : Out :=
  slotDo h (.vsub h tD tA tB) s fun c s => s.vecDo c h.slot.val (.vsub h tD tA tB)

/-- VMUL (20 R351). -/
def execVmul (h : Hdr) (tD tA tB : TReg) (s : State) : Out :=
  slotDo h (.vmul h tD tA tB) s fun c s => s.vecDo c h.slot.val (.vmul h tD tA tB)

/-- VFMA (20 R351). -/
def execVfma (h : Hdr) (tD tA tB : TReg) (s : State) : Out :=
  slotDo h (.vfma h tD tA tB) s fun c s => s.vecDo c h.slot.val (.vfma h tD tA tB)

/-- VMAX (20 R351). -/
def execVmax (h : Hdr) (tD tA tB : TReg) (s : State) : Out :=
  slotDo h (.vmax h tD tA tB) s fun c s => s.vecDo c h.slot.val (.vmax h tD tA tB)

/-- VMIN (20 R351). -/
def execVmin (h : Hdr) (tD tA tB : TReg) (s : State) : Out :=
  slotDo h (.vmin h tD tA tB) s fun c s => s.vecDo c h.slot.val (.vmin h tD tA tB)

/-- VABS (20 R351). -/
def execVabs (h : Hdr) (tD tA : TReg) (s : State) : Out :=
  slotDo h (.vabs h tD tA) s fun c s => s.vecDo c h.slot.val (.vabs h tD tA)

/-- VNEG (20 R351). -/
def execVneg (h : Hdr) (tD tA : TReg) (s : State) : Out :=
  slotDo h (.vneg h tD tA) s fun c s => s.vecDo c h.slot.val (.vneg h tD tA)

/-- VRCP (20 R353). -/
def execVrcp (h : Hdr) (tD tA : TReg) (rm : RMode) (sat : Bool) (s : State) : Out :=
  slotDo h (.vrcp h tD tA rm sat) s fun c s => s.vecDo c h.slot.val (.vrcp h tD tA rm sat)

/-- VRSQ (20 R353). -/
def execVrsq (h : Hdr) (tD tA : TReg) (rm : RMode) (sat : Bool) (s : State) : Out :=
  slotDo h (.vrsq h tD tA rm sat) s fun c s => s.vecDo c h.slot.val (.vrsq h tD tA rm sat)

/-- VSQRT (20 R353). -/
def execVsqrt (h : Hdr) (tD tA : TReg) (rm : RMode) (sat : Bool) (s : State) : Out :=
  slotDo h (.vsqrt h tD tA rm sat) s fun c s => s.vecDo c h.slot.val (.vsqrt h tD tA rm sat)

/-- VEXP2 (20 R353). -/
def execVexp2 (h : Hdr) (tD tA : TReg) (rm : RMode) (sat : Bool) (s : State) : Out :=
  slotDo h (.vexp2 h tD tA rm sat) s fun c s => s.vecDo c h.slot.val (.vexp2 h tD tA rm sat)

/-- VLOG2 (20 R353). -/
def execVlog2 (h : Hdr) (tD tA : TReg) (rm : RMode) (sat : Bool) (s : State) : Out :=
  slotDo h (.vlog2 h tD tA rm sat) s fun c s => s.vecDo c h.slot.val (.vlog2 h tD tA rm sat)

/-- VCVT (20 R354). -/
def execVcvt (h : Hdr) (tD tA : TReg) (rm : RMode) (sat : Bool) (s : State) : Out :=
  slotDo h (.vcvt h tD tA rm sat) s fun c s => s.vecDo c h.slot.val (.vcvt h tD tA rm sat)

/-- VAND (20 R351). -/
def execVand (h : Hdr) (tD tA tB : TReg) (s : State) : Out :=
  slotDo h (.vand h tD tA tB) s fun c s => s.vecDo c h.slot.val (.vand h tD tA tB)

/-- VOR (20 R351). -/
def execVor (h : Hdr) (tD tA tB : TReg) (s : State) : Out :=
  slotDo h (.vor h tD tA tB) s fun c s => s.vecDo c h.slot.val (.vor h tD tA tB)

/-- VXOR (20 R351). -/
def execVxor (h : Hdr) (tD tA tB : TReg) (s : State) : Out :=
  slotDo h (.vxor h tD tA tB) s fun c s => s.vecDo c h.slot.val (.vxor h tD tA tB)

/-- VSHL (20 R351). -/
def execVshl (h : Hdr) (tD tA : TReg) (xB : XReg) (s : State) : Out :=
  slotDo h (.vshl h tD tA xB) s fun c s => s.vecDo c h.slot.val (.vshl h tD tA xB)

/-- VSHR (20 R351). -/
def execVshr (h : Hdr) (tD tA : TReg) (xB : XReg) (s : State) : Out :=
  slotDo h (.vshr h tD tA xB) s fun c s => s.vecDo c h.slot.val (.vshr h tD tA xB)

/-- VCMP (20 R351). -/
def execVcmp (h : Hdr) (tD tA tB : TReg) (s : State) : Out :=
  slotDo h (.vcmp h tD tA tB) s fun c s => s.vecDo c h.slot.val (.vcmp h tD tA tB)

/-- VSEL (20 R351). -/
def execVsel (h : Hdr) (tD tA tB : TReg) (s : State) : Out :=
  slotDo h (.vsel h tD tA tB) s fun c s => s.vecDo c h.slot.val (.vsel h tD tA tB)

/-- VMOV (20 R352). -/
def execVmov (h : Hdr) (tD tA : TReg) (s : State) : Out :=
  slotDo h (.vmov h tD tA) s fun c s => s.vecDo c h.slot.val (.vmov h tD tA)

/-- VOPX (20 R355). -/
def execVopx (h : Hdr) (tD tA : TReg) (fn : VFun) (s : State) : Out :=
  slotDo h (.vopx h tD tA fn) s fun c s => s.vecDo c h.slot.val (.vopx h tD tA fn)

/-- VBC (20 R356). -/
def execVbc (h : Hdr) (tD tA : TReg) (s : State) : Out :=
  slotDo h (.vbc h tD tA) s fun c s => s.vecDo c h.slot.val (.vbc h tD tA)

/-- VRRED (20 R357). -/
def execVrred (h : Hdr) (tD tA : TReg) (rm : RMode) (sat : Bool) (op : RedOp) (s : State) : Out :=
  slotDo h (.vrred h tD tA rm sat op) s fun c s => s.vecDo c h.slot.val (.vrred h tD tA rm sat op)

/-- VCRED (20 R357). -/
def execVcred (h : Hdr) (tD tA : TReg) (rm : RMode) (sat : Bool) (op : RedOp) (s : State) : Out :=
  slotDo h (.vcred h tD tA rm sat op) s fun c s => s.vecDo c h.slot.val (.vcred h tD tA rm sat op)

/-- VXS (20 R356). -/
def execVxs (h : Hdr) (xD : XReg) (tA : TReg) (xB : XReg) (s : State) : Out :=
  slotDo h (.vxs h xD tA xB) s fun c s => s.vecDo c h.slot.val (.vxs h xD tA xB)

/-- VINS (20 R356). -/
def execVins (h : Hdr) (tD : TReg) (xA xB : XReg) (s : State) : Out :=
  slotDo h (.vins h tD xA xB) s fun c s => s.vecDo c h.slot.val (.vins h tD xA xB)

/-- VIOTA (20 R356). -/
def execViota (h : Hdr) (tD : TReg) (xA : XReg) (s : State) : Out :=
  slotDo h (.viota h tD xA) s fun c s => s.vecDo c h.slot.val (.viota h tD xA)

/-- VPERM (20 R356). -/
def execVperm (h : Hdr) (tD tA tB : TReg) (s : State) : Out :=
  slotDo h (.vperm h tD tA tB) s fun c s => s.vecDo c h.slot.val (.vperm h tD tA tB)

/-- VSCAN (20 R358). -/
def execVscan (h : Hdr) (tD tA : TReg) (rm : RMode) (sat : Bool) (op : RedOp) (s : State) : Out :=
  slotDo h (.vscan h tD tA rm sat op) s fun c s => s.vecDo c h.slot.val (.vscan h tD tA rm sat op)

/-- VPART (20 R359). -/
def execVpart (h : Hdr) (tD tA : TReg) (nom1 : Fin 4) (s : State) : Out :=
  slotDo h (.vpart h tD tA nom1) s fun c s => s.vecDo c h.slot.val (.vpart h tD tA nom1)

/-- VCLMP (20 R351). -/
def execVclmp (h : Hdr) (tD tA tB : TReg) (s : State) : Out :=
  slotDo h (.vclmp h tD tA tB) s fun c s => s.vecDo c h.slot.val (.vclmp h tD tA tB)

/-- VTRN (20 R356). -/
def execVtrn (h : Hdr) (tD tA : TReg) (s : State) : Out :=
  slotDo h (.vtrn h tD tA) s fun c s => s.vecDo c h.slot.val (.vtrn h tD tA)

/-- QTHR (20 R360, 12 R206). -/
def execQthr (h : Hdr) (tD tA : TReg) (s : State) : Out :=
  slotDo h (.qthr h tD tA) s fun c s => s.vecDo c h.slot.val (.qthr h tD tA)

/-- QBIS (20 R360, 12 R207). -/
def execQbis (h : Hdr) (tD : TReg) (km1 : Fin 8) (s : State) : Out :=
  slotDo h (.qbis h tD km1) s fun c s => s.vecDo c h.slot.val (.qbis h tD km1)

/-- QSEL (20 R360, 12 R208). -/
def execQsel (h : Hdr) (tD tA tB : TReg) (s : State) : Out :=
  slotDo h (.qsel h tD tA tB) s fun c s => s.vecDo c h.slot.val (.qsel h tD tA tB)

/-- QSCL (20 R362). -/
def execQscl (h : Hdr) (tD tA : TReg) (rm : RMode) (sat : Bool) (s : State) : Out :=
  slotDo h (.qscl h tD tA rm sat) s fun c s => s.vecDo c h.slot.val (.qscl h tD tA rm sat)

/-- QNT (20 R363). -/
def execQnt (h : Hdr) (tD tA : TReg) (rm : RMode) (sat : Bool) (s : State) : Out :=
  slotDo h (.qnt h tD tA rm sat) s fun c s => s.vecDo c h.slot.val (.qnt h tD tA rm sat)

/-- QDQ (20 R364). -/
def execQdq (h : Hdr) (tD tA : TReg) (s : State) : Out :=
  slotDo h (.qdq h tD tA) s fun c s => s.vecDo c h.slot.val (.qdq h tD tA)

/-- QEF (20 R365). -/
def execQef (h : Hdr) (tD tA tB : TReg) (s : State) : Out :=
  slotDo h (.qef h tD tA tB) s fun c s => s.vecDo c h.slot.val (.qef h tD tA tB)

end Sys2Proof.Machine
end

