-- ==== Sys2Proof/Machine/PlaceMath.lean ====
section
/-! DEFINITION. Where a placed operation runs: its operands' bytes by home, its cuts, the place of each piece, the routes of
moved bytes (03 R55 to R66; 22 R394). -/

namespace Sys2Proof.Machine
open Sys2Proof.Bits

/-! ### Bytes and their homes -/

/-- The line of a read or a write at an address. -/
def MemOp.lineAt (o : MemOp) (write : Bool) (va : Nat) : Option LineAcc :=
  o.lines.find? fun l => lineOf l.va == lineOf va && l.mask.isEmpty != write

/-- Where the byte at an address is homed for core `c`: 0 none, 1 CORE, 2 CENTRAL, 3 + s EAVE(s), 12 host memory, which is
CENTRAL reached over gable 0 (01 R24; 22 R440). A byte without a translation, or whose translation faults, has home 0, and cuts fall where
such bytes begin and end (DESIGN CHOICE, log 17: the spec gives such a byte no home). -/
def MemOp.homeAt (o : MemOp) (c : Nat) (write : Bool) (va : Nat) : Nat := match o.lineAt write va with
  | some l => match l.st with
    | .fault _ => 0
    | _ => if l.home < 8 then (if l.home = c / 8 then 1 else 2) else if l.home < 16 then l.home - 5 else if l.home = 17 then 12 else 2
  | none => 0

/-- Place of a home: 0 CORE, 1 CENTRAL, 2 + s EAVE(s). -/
def placeOf (h : Nat) : Nat := if h = 12 then 1 else h - 1

/-- An MMA or MMAZ. -/
def PlKind.isMma : PlKind → Bool
  | .mma _ _ _ _ _ _ _ _ => true
  | _ => false

/-- What cuts along a dimension fall between (03 R64): blocks of 32 along K of an MMA and where the dimension is the innermost of an MX
operand, else elements. -/
def PlKind.unit (k : PlKind) (d : Role) : Nat :=
  if (k.isMma && d == .k) || k.args.any (fun a => a.col == d && (fmtOf a.shape.fmt).any Fmt.isMx) then 32 else 1

/-- Address of the code bytes of element (r, c). -/
def PArg.va (a : PArg) (e : Enf) (r c : Nat) : Option Nat := match fmtOf a.shape.fmt with
  | some (.mx w) => (walkBlock e.ws (hBase e.ws) w e.offs r c).map (·.1)
  | _ => walkVa e.ws (hBase e.ws) e.offs r c

/-- Homes of the units of row `r`. -/
def MemOp.profile (o : MemOp) (c : Nat) (a : PArg) (e : Enf) (u r : Nat) : List (Option Nat) :=
  (List.range (ceilDiv a.shape.cols u)).map fun j => (a.va e r (j * u)).map fun va => o.homeAt c a.write va

/-- Two units whose homes differ; what is OUT has none. -/
def homesDiffer : Option Nat → Option Nat → Bool
  | some x, some y => x != y
  | _, _ => false

/-- Cuts an operand asks for along its rows and its columns, units `ur` and `u` (03 R64). -/
def MemOp.cuts (o : MemOp) (c ur u : Nat) (a : PArg) : List Nat × List Nat := match a.hnd with
  | none => ([], [])
  | some e =>
    let rows := (List.range a.shape.rows).map fun r => o.profile c a e u r
    let rc := (List.range a.shape.rows).filter fun r => 0 < r && (List.zipWith homesDiffer (rows.getD r []) (rows.getD (r - 1) [])).any (· == true)
    let cc := (List.range (ceilDiv a.shape.cols u)).filter fun j => 0 < j && rows.any fun p => homesDiffer (p.getD j none) (p.getD (j - 1) none)
    (rc.map fun r => ceilDiv r ur * ur, cc.map (· * u))

/-- Cuts of all operands along one dimension, merged (03 R65). -/
def MemOp.cutsOf (o : MemOp) (c : Nat) (k : PlKind) (d : Role) : List Nat :=
  k.args.foldl (fun l a =>
    let x := o.cuts c (k.unit a.row) (k.unit a.col) a
    let l1 := if a.row = d then x.1.foldl (fun l n => insertNat n l) l else l
    if a.col = d then x.2.foldl (fun l n => insertNat n l) l1 else l1) []

/-- Intervals of [lo, hi) between cuts. -/
def intervals (hi : Nat) : List Nat → Nat → List (Nat × Nat)
  | [], lo => [(lo, hi)]
  | x :: xs, lo => if lo < x ∧ x < hi then (lo, x) :: intervals hi xs x else intervals hi xs lo

/-- Bytes of an operand in a cell by home; with `blk` it is cut between blocks (03 R58, R64). -/
def MemOp.bytesBy (o : MemOp) (c : Nat) (blk : Bool) (a : PArg) (p : Piece) : List (Nat × Nat) :=
  let rg := a.ranges p
  let rows := (List.range (rg.1.2 - rg.1.1)).map (· + rg.1.1)
  let n := rg.2.2 - rg.2.1
  let blocks := (List.range (ceilDiv n 32)).map fun i => rg.2.1 + 32 * i
  match a.hnd, fmtOf a.shape.fmt with
  | none, some (.mx w) => [(1, rows.length * blocks.length * (4 * w + 1))]
  | none, some f => [(1, rows.length * n * (f.bits / 8))]
  | some e, some (.mx w) => rows.flatMap fun r => blocks.flatMap fun j => match walkBlock e.ws (hBase e.ws) w e.offs r j with
    | none => []
    | some (code, scale, _) =>
      let h := o.homeAt c a.write code
      ((cutLines 3 (code, 0, 4 * w)).map fun q => (if o.homeAt c a.write q.1 = h then h else 0, q.2.2)) ++ [(o.homeAt c a.write scale, 1)]
  | some e, some f => rows.flatMap fun r => blocks.flatMap fun j =>
      let first := (a.va e r j).map (o.homeAt c a.write)
      (List.range (min 32 (rg.2.2 - j))).filterMap fun i => (a.va e r (j + i)).map fun va =>
        let h := o.homeAt c a.write va
        (if blk && some h != first then 0 else h, f.bits / 8)
  | _, none => []

/-! ### The rule -/

/-- Multiply-accumulates of a piece (03 R59). -/
def PlKind.macs (k : PlKind) (p : Piece) : Nat := match k with
  | .mma _ _ _ _ _ _ _ _ => (p.m1 - p.m0) * (p.n1 - p.n0) * (p.k1 - p.k0)
  | _ => 0

/-- The hint of an operation (03 R62): a place, or none. A HINT of 3 to 7 acts as 0, so that a later handle's counts (DEDUCED, log 17). -/
def PlKind.hint (k : PlKind) : Option Nat :=
  let place := fun (e : Enf) => match hHint e.ws with
    | 1 => some 0
    | 2 => some 1
    | h => if 8 ≤ h then some (h - 6) else none
  (k.args.filterMap (·.hnd)).findSome? place

/-- Bytes of a piece by home, all operands. -/
def MemOp.pieceBytes (o : MemOp) (c : Nat) (k : PlKind) (p : Piece) : List (Nat × Nat) :=
  k.args.flatMap fun a => o.bytesBy c (k.unit a.col == 32) a p

/-- place(x) (03 R61), with the fenced arrays and eave units. -/
def State.placeFor (s : State) (c : Nat) (o : MemOp) (k : PlKind) (p : Piece) (rbnd : Nat) : Nat :=
  if k.atCore then 0 else
    let bytes := o.pieceBytes c k p
    let total := (bytes.map (·.2)).sum
    let moved := fun (q : Nat) => total - ((bytes.filter fun b => b.1 != 0 && placeOf b.1 == q).map (·.2)).sum
    let central := decide (s.ridge.arrFenced.length < 4)
    let cand := (List.range 10).filter fun q => q == 0 || (q == 1 && central) || (2 ≤ q && !s.ridge.eaveFenced.contains (q - 2))
    match k.hint with
    | some h => if cand.contains h then h else go total moved central cand
    | none => go total moved central cand
where
  go (total : Nat) (moved : Nat → Nat) (central : Bool) (cand : List Nat) : Nat :=
    let best := cand.foldl (fun (b : Nat × Nat) q => if moved q < b.2 then (q, moved q) else b) (0, moved 0)
    if best.1 ≠ 0 ∧ central ∧ rbnd * total < k.macs p * 16 then 1 else best.1

/-! ### Routes and times -/

/-- A leg: d rafter d to ridge, 10 + d rafter d to eave d, 20 + h up and 30 + h down the ring hop h, 40 ridge to gable 0. -/
def legTime (l : Nat) : Nat × Nat :=
  if l < 10 then (40, 512) else if l < 20 then (20, 512) else if l < 40 then (18, 666) else (30, 512)

/-- Ring hops from unit a to unit b as legs (01 R14). -/
def ringLegs (a b : Nat) : List Nat :=
  let up := (b + 8 - a) % 8
  (hopsOn a b).map fun h => if up ≤ 4 then 20 + h else 30 + h

/-- The route from a home to a place for a core of die `d` (03 Table 3.4). -/
def pathOf (d home q : Nat) : List Nat :=
  let gable := if home = 12 then [40] else []
  let h := placeOf home
  gable ++ (
    if home = 0 ∨ h = q then []
    else match h, q with
      | 0, 1 => [d]
      | 1, 0 => [d]
      | 0, t + 2 => (10 + d) :: ringLegs d t
      | 1, t + 2 => [t, 10 + t]
      | t + 2, 0 => ringLegs t d ++ [10 + d]
      | t + 2, 1 => [10 + t, t]
      | t + 2, u + 2 => ringLegs t u
      | _, _ => [])

/-- A fenced ring hop lies on the route (03 R71). -/
def State.routeBad (s : State) (d home q : Nat) : Bool :=
  (pathOf d home q).any fun l => 20 ≤ l && l < 40 && s.ridge.hopFenced.contains (l % 10)

/-- Latency of a route. -/
def routeLat (r : List Nat) : Nat := (r.map fun l => (legTime l).1).sum

/-- t_in of a piece at a place (22 R394). -/
def tIn (d q : Nat) (bytes : List (Nat × Nat)) : Nat :=
  let away := bytes.filter fun b => b.1 != 0 && (placeOf b.1 != q || b.1 == 12)
  let onLeg := fun (l : Nat) => ((away.filter fun b => (pathOf d b.1 q).contains l).map (·.2)).sum
  away.foldl (fun t b =>
    let r := pathOf d b.1 q
    max t (routeLat r + (r.map fun l => ceilDiv (onLeg l) (legTime l).2).foldl max 0)) 0

/-- t_out of `n` bytes to a home (22 R394). -/
def tOut (d q home n : Nat) : Nat :=
  let r := pathOf d home q
  if r.isEmpty then 0 else routeLat r + ceilDiv n ((r.map fun l => (legTime l).2).foldl min 666)

/-- Lines of the largest tile part of a piece. -/
def PlKind.pieceLines (k : PlKind) (p : Piece) : Nat :=
  (k.args.map fun a =>
    let r := a.ranges p
    (⟨r.1.2 - r.1.1, r.2.2 - r.2.1, a.shape.fmt⟩ : Shape).lines).foldl max 0

/-- Cycles a piece holds its unit, and cycles from its start until its result leaves (22 R394; 19 R335; 20 R349). -/
def PlKind.runTimes (k : PlKind) (p : Piece) (q : Nat) : Nat × Nat := match k with
  | .mma _ _ _ _ fa fb _ _ =>
    let steps := (p.k1 - p.k0) / 32 * kstepCycles (arrayWidth fa) (arrayWidth fb)
    let passes := if 2 ≤ q then ceilDiv (p.m1 - p.m0) 64 * ceilDiv (p.n1 - p.n0) 64 else 1
    if q = 0 then (steps, 12 + steps) else (12 + passes * steps, 12 + passes * steps)
  | .vec op _ _ _ _ _ _ _ _ =>
    let t := op.times (k.pieceLines p)
    if q = 0 then t else (t.2, t.2)
  | .mout _ _ _ _ e => (0, 6 + e.shape.lines)
  | .mrd _ e => (0, 6 + e.shape.lines)
  | .mfeed _ e => (0, 6 + e.shape.lines)

end Sys2Proof.Machine
end

