-- ==== Sys2Proof/Machine/Place.lean ====
section
/-! DEFINITION. Placed operations: their translations, cutting and placement, intake, running, and the results of their
pieces (03 R64 to R76; 22 R394). -/

namespace Sys2Proof.Machine
open Sys2Proof.Bits

/-- Piece `id` changed. -/
def State.updPiece (s : State) (id : Nat) (f : Piece → Piece) : State :=
  match Tbl.get s.ridge.pieces id with
  | some p => s.updRidge fun r => { r with pieces := Tbl.set r.pieces id (f p) }
  | none => s

/-- Pieces of operation `id` of core `c`, in their order. -/
def State.opPieces (s : State) (c id : Nat) : List Piece :=
  (s.ridge.pieces.filter fun p => p.2.core == c && p.2.op == id).map (·.2)

/-- The placed kind of an operation. -/
def MemOp.plKind (o : MemOp) : Option PlKind := match o.kind with
  | .placed k => some k
  | _ => none

/-! ### Lines -/

/-- A line's translation is looked up (03 R67): found, faulted, or a walk is joined. Its route is known when it is placed (R71). -/
def State.probeLine (s : State) (c id n : Nat) (l : LineAcc) : State :=
  match s.coreLeaf c (s.ctxOf c) l.va (!l.mask.isEmpty) with
  | .miss => (s.updCore c fun k => k.updOp id fun o => o.updLine n fun l => { l with st := .walk }).missLine c id n l.va
  | .fault cause => s.updCore c fun k => k.updOp id fun o => o.updLine n fun l => { l with st := .fault cause }
  | .ok key home pte =>
    let lock := s.lockOf (s.ctxOf c) l.va pte
    ((s.pinTake lock).touchXl c l.va).updCore c fun k => k.updOp id fun o => o.updLine n fun l =>
      { l with st := .flight, key := lineOf key, home := home, pte := pte, acq := (s.agent (c / 8)).acq, lock := lock }

/-- Every idle line of an operation is looked up. -/
def State.probe (s : State) (c : Nat) (o : MemOp) : State :=
  (List.range o.lines.length).foldl (fun (s : State) n => match ((s.core c).op o.id).bind fun o => o.lines[n]? with
    | some l => if l.st = .idle then s.probeLine c o.id n l else s
    | none => s) s

/-! ### Cutting and placing -/

/-- Cells of an operation (03 R64, R65): all of it, or each of its cancelled pieces, cut at the homes' boundaries. -/
def MemOp.cells (o : MemOp) (c : Nat) (k : PlKind) (from_ : List Piece) : List Piece :=
  let kCut := match k with
    | .mma _ _ _ _ _ _ pat _ => (patSteps pat).all (· == 0)
    | _ => true
  let cuts := fun (d : Role) => if k.atCore then [] else o.cutsOf c k d
  let mc := cuts .m
  let nc := cuts .n
  let kc := if kCut then cuts .k else []
  from_.flatMap fun p => (intervals p.m1 mc p.m0).flatMap fun m => (intervals p.n1 nc p.n0).flatMap fun n =>
    (intervals p.k1 kc p.k0).map fun q => { p with m0 := m.1, m1 := m.2, n0 := n.1, n1 := n.2, k0 := q.1, k1 := q.2 }

/-- Lines of a piece in the operation's list: reads, writes. -/
def MemOp.pieceLines (o : MemOp) (k : PlKind) (p : Piece) (write : Bool) : List Nat :=
  let vas := k.args.foldl (fun l a => if a.write = write then (a.lineVas p).foldl (fun l v => insertNat v l) l else l) []
  (List.range o.lines.length).filter fun n => match o.lines[n]? with
    | some l => (l.mask.isEmpty != write) && vas.contains (lineOf l.va)
    | none => false

/-- Why a byte cannot be read or written from place `q` (03 R71), as a cause of Table 10.5. -/
def State.byteFault (s : State) (c : Nat) (o : MemOp) (write : Bool) (q va : Nat) : Option Nat := match o.lineAt write va with
  | none => none
  | some l => match l.st with
    | .fault cause => some cause
    | _ => (s.unitFault l.key).or (if s.routeBad (c / 8) (o.homeAt c write va) q then some 6 else none)

/-- The first faulting byte of some consecutive ones, with its cause. -/
def State.spanFault (s : State) (c : Nat) (o : MemOp) (write : Bool) (q : Nat) (e : Nat × Nat) : Option (Nat × Nat) :=
  let last := lineOf (e.1 + e.2 - 1)
  ((s.byteFault c o write q e.1).map fun cause => (e.1, cause)).or
    (if last ≤ e.1 then none else (s.byteFault c o write q last).map fun cause => (last, cause))

/-- The first faulting byte of a piece, with its cause and operand code (03 R71): operands A, B, C, then the destination, each in element
order (DEDUCED, log 17). What an unbound operand or destination needs is the way to CORE; it has no address and its entry names 0 (DESIGN
CHOICE, log 17). -/
def State.pieceFault (s : State) (c : Nat) (o : MemOp) (k : PlKind) (p : Piece) : Option (Nat × Nat × Nat) :=
  (k.args.filter (fun a => !a.write) ++ k.args.filter (·.write)).findSome? fun a => match a.hnd with
    | none => if s.routeBad (c / 8) 1 p.place then some (0, 6, a.opnd) else none
    | some _ => ((a.spans p).findSome? (s.spanFault c o a.write p.place)).map fun f => (f.1, f.2, a.opnd)

/-- A piece's place among those that reach an intake: by cycle, then issuing die, then as they were placed (03 R69). -/
def insertArrival (p : Piece) : List Piece → List Piece
  | [] => [p]
  | q :: l =>
    let later := decide (p.came < q.came) || (p.came == q.came && (decide (p.core / 8 < q.core / 8) || (p.core / 8 == q.core / 8 && decide (p.id < q.id))))
    if later then p :: q :: l else q :: insertArrival p l

/-- The stage entry frees when every piece has entered intake; a piece at CORE has at once (03 R67, R69). -/
def State.freeStage (s : State) (c id : Nat) : State :=
  if (s.opPieces c id).all (fun p => p.st != 0 || p.place == 0) then s.updCore c fun k => k.updOp id fun o => { o with left := true } else s

/-- Waiting pieces enter the intake of place `q` where there is room (03 R69): CENTRAL 32 a die, an eave unit 64. -/
def State.intake (s : State) (q : Nat) : State :=
  let come := s.ridge.pieces.foldl (fun l e => if e.2.st = 0 ∧ e.2.place = q then insertArrival e.2 l else l) []
  come.foldl (fun (s : State) p =>
    let d := p.core / 8
    let room := if q = 1 then decide ((s.ridge.central.getD d []).length < 32) else decide ((s.ridge.eaves.getD (q - 2) []).length < 64)
    let add := fun (r : Ridge) => if q = 1 then { r with central := r.central.modify d (· ++ [p.id]) }
      else { r with eaves := r.eaves.modify (q - 2) (· ++ [p.id]) }
    if room then ((s.updRidge add).updPiece p.id fun p => { p with st := 1 }).freeStage p.core p.op else s) s

/-- Lines homed away from a piece's place leave for it from the cycle of placement, those of one home in the order of their route and at
the rate of its slowest leg (03 R69, R76; 22 Table 22.3). -/
def State.sendLines (s : State) (c : Nat) (o : MemOp) (k : PlKind) (p : Piece) : State :=
  let home := fun (n : Nat) => ((o.lines[n]?).map fun l => o.homeAt c false l.va).getD 0
  let away := (o.pieceLines k p false).filter fun n => placeOf (home n) != p.place || home n == 12
  away.foldl (fun (s : State) n =>
    let ahead := ((away.takeWhile (· != n)).filter fun m => home m == home n).length
    let rate := ((pathOf (c / 8) (home n) p.place).map fun l => (legTime l).2).foldl min 666
    s.after (128 * ahead / rate) (.loadPerformed (fin64 c) o.id n)) s

/-- One piece is placed: cancelled by a fault, or given its place, its bytes under way (03 R61, R69, R71). -/
def State.placePiece (s : State) (c : Nat) (o : MemOp) (k : PlKind) (p : Piece) : State × Option (Nat × Nat × Nat) :=
  let q := s.placeFor c o k p o.rbnd
  let id := s.nextId
  let p1 := { p with id := id, place := q, ready := s.now + tIn (c / 8) q (o.pieceBytes c k p), came := s.now, run := 0, out := 0, st := 0 }
  let s1 := s.bump
  match s1.pieceFault c o k p1 with
  | some f => (s1.updRidge fun r => { r with pieces := Tbl.set r.pieces id { p1 with st := 5 } }, some f)
  | none => ((((s1.updRidge fun r => { r with pieces := Tbl.set r.pieces id p1 }).sendLines c o k p1).soon (.pieceStart (fin10 q))).sched p1.ready
      (.pieceStart (fin10 q)), none)

/-- Later pieces of a K group behind a cancelled one are cancelled too (03 R71). -/
def State.cancelGroup (s : State) (c id : Nat) : State :=
  let ps := s.opPieces c id
  let bad := ps.filter (·.st == 5)
  ps.foldl (fun (s : State) (p : Piece) =>
    if p.st ≠ 4 ∧ p.st ≠ 5 ∧ bad.any (fun (b : Piece) => decide (b.m0 = p.m0 ∧ b.n0 = p.n0 ∧ b.k0 < p.k0)) then
      (s.updPiece p.id fun p => { p with st := 5 }).updRidge fun r =>
        { r with central := r.central.map fun l => l.filter (· != p.id), eaves := r.eaves.map fun l => l.filter (· != p.id) }
    else s) s

/-- Cancelled pieces of a draining group's operation go, and the operation with its last one (08 R145). -/
def State.dropCancelled (s : State) (c id : Nat) : State :=
  let s1 := s.dropPieces c fun p => p.op == id && p.st == 5
  if s1.hasPiece c id fun p => p.st != 4 then s1 else (s1.dropOps c fun o => o.id == id).ended c

/-- An operation is cut and its pieces are placed (03 R61 to R67): all of it, or again the pieces of `old` (R73, R74). -/
def State.placeCells (s : State) (c : Nat) (o : MemOp) (k : PlKind) (old : List Piece) : State :=
  let cells := o.cells c k (if old.isEmpty then [k.whole c o.id] else old)
  let s0 := old.foldl (fun (s : State) p => s.updRidge fun r => { r with pieces := Tbl.erase r.pieces p.id }) s
  let r := cells.foldl (fun (a : State × Option (Nat × Nat × Nat)) p =>
    let x := a.1.placePiece c o k p
    (x.1, a.2.or x.2)) (s0, none)
  let s1 := (r.1.cancelGroup c o.id).freeStage c o.id
  match r.2 with
  | some (va, cause, opnd) => if s1.draining c then s1.dropCancelled c o.id else s1.opFault c o cause 3 opnd va (.piece c o.id)
  | none => s1

/-- An operation whose translations have completed is placed, or its cancelled pieces are placed again (03 R73). -/
def State.placeOp (s : State) (c : Nat) (o : MemOp) (k : PlKind) : State := s.placeCells c o k ((s.opPieces c o.id).filter (·.st == 5))

/-- An operation has cancelled pieces that FRSM has resumed (03 R73). -/
def State.redoes (s : State) (c : Nat) (o : MemOp) : Bool := !o.fq && (s.opPieces c o.id).any (·.st == 5)
/-- An operation stands in the placement stage: nothing of it has been placed, or a part is placed again. -/
def State.staged (s : State) (c : Nat) (o : MemOp) : Bool := (s.opPieces c o.id).isEmpty || s.redoes c o

/-- An operation of the stage whose terms may start asks for a placement state, or looks its lines up (03 R67, R72; 22 R388). -/
def State.prepare (s : State) (c id : Nat) : State := match (s.core c).op id with
  | none => s
  | some o => match o.plKind with
    | none => s
    | some k =>
      if o.ready = 0 ∨ s.staged c o = false then s
      else match k.unresolved, o.land with
        | some _, none => (s.updCore c fun k => k.updOp id fun o => { o with land := some 1, tags := (s.core c).tags s.now }).replyAfter c 40 id
        | some _, some _ => s
        | none, _ =>
          let s1 := if o.land = some 0 then s else s.updCore c fun x => x.updOp id fun o => { o with land := some 0, lines := k.lines }
          match (s1.core c).op id with
          | some o => s1.probe c o
          | none => s1

/-- Operations of the stage are placed in issue order: the first that still lacks something stops those behind it, one that took a fault of
R72 too, until FRSM (03 R67, R68; DESIGN CHOICE, log 17: the spec does not say what waits behind such a one). Pieces placed again count as
issued in the cycle they resume (R73) and stop nothing. -/
def State.placeGo (s : State) (c : Nat) : List Nat → State
  | [] => s
  | id :: ids => match (s.core c).op id with
    | none => s.placeGo c ids
    | some o => match o.plKind with
      | none => s.placeGo c ids
      | some k =>
        let lacks := o.ready == 0 || k.unresolved.isSome || o.land != some 0 || o.lines.any fun l => l.st == .walk || l.st == .idle
        if !s.staged c o then s.placeGo c ids
        else if lacks then (if s.redoes c o then s.placeGo c ids else s)
        else (s.placeOp c o k).placeGo c ids

/-- PLACEMENT (03 R67, R68). -/
def execPlacement (core : Fin 64) (s : State) : Out :=
  let c := core.val
  if (s.core c).hold.isSome then .next s else
  let ids := ((s.core c).memq.filter fun o => o.plKind.isSome).map (·.id)
  let s1 := (ids.foldl (fun (s : State) id => s.prepare c id) s).placeGo c ids
  let same := decide ((s1.core c).memq = (s.core c).memq)
  .next (if same then s1 else (s1.soon (.pieceStart (fin10 0))).pump c)

/-! ### Starting -/

/-- The bytes of a piece are all there: those homed elsewhere have arrived, and those at its place are read now, as it starts (03 R69,
R76). -/
def State.pieceReady (s : State) (p : Piece) : State × Bool :=
  if s.now < p.ready then (s, false)
  else match (s.core p.core).op p.op with
    | none => (s, false)
    | some o => match o.plKind with
      | none => (s, false)
      | some k =>
        let here := fun (l : LineAcc) => placeOf (o.homeAt p.core false l.va) == p.place && l.home != 17
        let ns := o.pieceLines k p false
        let come := ns.all fun n => match o.lines[n]? with
          | some l => here l || l.isDone
          | none => true
        if !come then (s, false)
        else
          let s1 := ns.foldl (fun (s : State) n => match o.lines[n]? with
            | some l => if here l then s.performLine p.core o.id n else s
            | none => s) s
          let ok := match (s1.core p.core).op p.op with
            | some o => ns.all fun n => match o.lines[n]? with
              | some l => l.isDone
              | none => true
            | none => false
          (s1, ok)

/-- Home of a piece's destination and its bytes. -/
def MemOp.destOf (o : MemOp) (c : Nat) (k : PlKind) (p : Piece) : Nat × Nat :=
  let bs := (k.args.filter (·.write)).flatMap fun a => o.bytesBy c false a p
  (((bs.find? fun b => b.1 != 0).map (·.1)).getD 1, (bs.map (·.2)).sum)

/-- A piece starts to run at its place. -/
def State.startPiece (s : State) (p : Piece) : State :=
  match (s.core p.core).op p.op with
  | none => s
  | some o => match o.plKind with
    | none => s
    | some k =>
      let t := k.runTimes p p.place
      let dst := o.destOf p.core k p
      let s1 := s.updPiece p.id fun p => { p with st := 2, run := s.now, out := s.now + t.1 }
      let s2 := s1.after (t.2 + tOut (p.core / 8) p.place dst.1 dst.2) (.pieceComplete p.id)
      if p.place = 0 then
        match k with
        | .mma _ _ _ _ _ _ _ _ => s2.after t.1 (.shadowSwap (fin64 p.core))
        | .vec _ _ _ _ _ _ _ _ _ =>
          let q := o.pos % 8 == 6
          let j : Job := { id := p.id, pos := o.pos, addr := o.addr, done := 0, kind := .vec, tiles := [], evs := (0, 0) }
          (s2.updCore p.core fun k => k.setPipe q (k.pipe q ++ [⟨j, t.1, t.2, []⟩])).after t.1 (.pipeStart (fin64 p.core) q)
        | _ => s2
      else s2.after t.1 (.pieceStart (fin10 p.place))

/-- The unit at CORE that a piece needs is free (19 R335; 20 R349; 19 R337, R340). -/
def State.coreFree (s : State) (o : MemOp) (k : PlKind) (p : Piece) : Bool :=
  let x := s.core p.core
  match k with
  | .mma _ _ _ _ _ _ _ _ => !x.engineRuns s.now && !s.corePiece p.core && !(x.mma.any fun v => v.start.isNone && decide (v.id < o.id))
  | .vec _ _ _ _ _ _ _ _ _ => (x.pipe (o.pos % 8 == 6)).isEmpty
  | .mout acc _ _ _ _ => !x.accBusy acc o.id
  | .mrd _ _ => true
  | .mfeed acc _ => !x.accBusy acc o.id

/-- Kind of unit a piece uses at CORE. -/
def coreUnit (o : MemOp) : PlKind → Nat
  | .mma _ _ _ _ _ _ _ _ => 0
  | .vec _ _ _ _ _ _ _ _ _ => o.pos % 8
  | .mout _ _ _ _ _ => 9
  | .mrd _ _ => 9
  | .mfeed _ _ => 9

/-- Pieces at CORE start in order, each in its unit (03 R69). `seen` are the units whose first waiting piece was tried. -/
def State.startCore (s : State) : List Nat → List (Nat × Nat) → State
  | [], _ => s
  | id :: ids, seen => match Tbl.get s.ridge.pieces id with
    | none => s.startCore ids seen
    | some p => match (s.core p.core).op p.op with
      | none => s.startCore ids seen
      | some o => match o.plKind with
        | none => s.startCore ids seen
        | some k =>
          let u := (p.core, coreUnit o k)
          if p.place ≠ 0 ∨ p.st ≠ 0 ∨ (seen.contains u ∧ u.2 ≠ 9) then s.startCore ids seen
          else if !s.coreFree o k p then s.startCore ids (u :: seen)
          else
            let r := s.pieceReady p
            if r.2 then (r.1.startPiece p).startCore ids (u :: seen) else r.1.startCore ids (u :: seen)

/-- Arrays of CENTRAL whose piece has left are free. -/
def State.freeArrays (s : State) : State :=
  s.updRidge fun r => { r with arrays := r.arrays.map fun a => match a with
    | some id => (match Tbl.get r.pieces id with
      | some p => if p.st = 2 ∧ s.now < p.out then some id else none
      | none => none)
    | none => none }

/-- Lowest free array that is not fenced. -/
def State.freeArray (s : State) : Option Nat :=
  (List.range 4).find? fun i => (s.ridge.arrays.getD i none).isNone && !s.ridge.arrFenced.contains i

/-- One turn of CENTRAL: the first queue from the turn on whose head is ready (03 R69). -/
def State.centralTurn (s : State) : List Nat → State × Bool
  | [] => (s, false)
  | i :: is =>
    let d := (s.ridge.turn + i) % 8
    match (s.ridge.central.getD d []).head?, s.freeArray with
    | some id, some a => match Tbl.get s.ridge.pieces id with
      | some p =>
        let r := s.pieceReady p
        if r.2 then
          let take := fun (x : Ridge) => { x with central := x.central.modify d (·.drop 1), turn := (d + 1) % 8, arrays := x.arrays.set a (some id) }
          ((r.1.updRidge take).startPiece p, true)
        else r.1.centralTurn is
      | none => ((s.updRidge fun x => { x with central := x.central.modify d (·.drop 1) }), true)
    | _, _ => s.centralTurn is

/-- Turns of CENTRAL while arrays are free and heads are ready. -/
def State.centralGo (s : State) : Nat → State
  | 0 => s
  | n + 1 =>
    let r := s.centralTurn (List.range 8)
    if r.2 then r.1.centralGo n else r.1

/-- The head piece of an eave unit runs when it is ready and the unit is free (03 R69). -/
def State.startEave (s : State) (u : Nat) : State :=
  let busy := match s.ridge.eaveRun.getD u none with
    | some id => (match Tbl.get s.ridge.pieces id with
      | some p => decide (p.st = 2 ∧ s.now < p.out)
      | none => false)
    | none => false
  if busy || s.ridge.eaveFenced.contains u then s
  else match (s.ridge.eaves.getD u []).head? with
    | none => s
    | some id => match Tbl.get s.ridge.pieces id with
      | none => (s.updRidge fun x => { x with eaves := x.eaves.modify u (·.drop 1) }).soon (.pieceStart (fin10 (u + 2)))
      | some p =>
        let r := s.pieceReady p
        if r.2 then
          (r.1.updRidge fun x => { x with eaves := x.eaves.modify u (·.drop 1), eaveRun := x.eaveRun.set u (some id) }).startPiece p
        else r.1

/-- PIECE_START (03 R69): place 0 CORE, 1 CENTRAL, 2 + s EAVE(s). -/
def execPieceStart (place : Fin 10) (s : State) : Out :=
  .next (match place.val with
    | 0 => s.startCore ((s.ridge.pieces.filter fun p => p.2.place == 0 && p.2.st == 0).map (·.1)) []
    | 1 => ((s.intake 1).freeArrays.centralGo 8).intake 1
    | u + 2 => ((s.intake (u + 2)).startEave u).intake (u + 2))

/-! ### Results -/

/-- The image of a handle operand from the lines read for it (18 R315). -/
def MemOp.argImage (o : MemOp) (e : Enf) : List Byte :=
  let w := hLoad e.shape e.ws (hBase e.ws) e.offs
  let cut := w.2.1.flatMap fun p => cutLines (p.2.2 / 128 + 2) p
  let img := cut.foldl (fun img p => match o.lineAt false p.1 with
    | some l => if l.isDone then splice img p.2.1 (slice l.data (p.1 % 128) p.2.2) else img
    | none => img) w.1
  w.2.2.foldl (fun img k => img.modify k.1 (· &&& k.2)) img

/-- Bytes written at an address of a destination line, as writes of the issuing core's die (03 R76). -/
def State.storeAt (s : State) (c : Nat) (o : MemOp) (va : Nat) (bs : List Byte) : State :=
  (cutLines (bs.length / 128 + 2) (va, 0, bs.length)).foldl (fun (s : State) p => match o.lineAt true p.1 with
    | some l => (match l.st with
      | .fault _ => s
      | _ => s.placedWrite c o.pos l.key l.home (p.1 % 128) ((bs.drop p.2.1).take p.2.2))
    | none => s) s

/-- The elements of a piece stored through a handle (18 R315). -/
def State.storePart (s : State) (c : Nat) (o : MemOp) (e : Enf) (img : List Byte) (m0 m1 n0 n1 : Nat) : State :=
  let d := e.shape
  let base := hBase e.ws
  (List.range (m1 - m0)).foldl (fun (s : State) i =>
    let r := m0 + i
    match fmtOf d.fmt with
    | some (.mx w) => (List.range (ceilDiv (n1 - n0) 32)).foldl (fun (s : State) b => match walkBlock e.ws base w e.offs r (n0 + 32 * b) with
      | some (code, scale, i3) =>
        let bits := w * min (min 32 (hExt e.ws 3 - i3)) (d.cols - (n0 + 32 * b))
        let raw := numAt img (128 * (r * d.pitch) + 4 * w * ((n0 + 32 * b) / 32)) (4 * w) % 2 ^ bits
        (s.storeAt c o code (natLE (4 * w) raw)).storeAt c o scale (slice img (128 * (d.rows * d.pitch) + r * d.blocks + (n0 + 32 * b) / 32) 1)
      | none => s) s
    | some f => (List.range (n1 - n0)).foldl (fun (s : State) j => match walkVa e.ws base e.offs r (n0 + j) with
      | some va => s.storeAt c o va (slice img (128 * (r * d.pitch) + (f.bits / 8) * (n0 + j)) (f.bits / 8))
      | none => s) s
    | none => s) s

/-- Pieces of an operation that are not done cover an element. -/
def openAt (ps : List Piece) (m n : Nat) : Bool :=
  ps.any fun p => p.st != 4 && decide (p.m0 ≤ m ∧ m < p.m1 ∧ p.n0 ≤ n ∧ n < p.n1)

/-- Lines of an unbound destination whose elements have all arrived (03 R66). -/
def arrivedLines (d : Shape) (ps : List Piece) : List Nat :=
  let perLine := match fmtOf d.fmt with
    | some (.mx w) => 128 / (4 * w) * 32
    | some f => 128 / (f.bits / 8)
    | none => 1
  let span := fun (p : Nat) => match fmtOf d.fmt with
    | some (.mx w) => (128 * p / (4 * w) * 32, min d.cols ((128 * (p + 1) + 4 * w - 1) / (4 * w) * 32))
    | _ => (perLine * p, min d.cols (perLine * (p + 1)))
  let rows := (List.range d.rows).flatMap fun r => (List.range d.pitch).filterMap fun p =>
    let sp := span p
    if (List.range (sp.2 - sp.1)).any (fun j => openAt ps r (sp.1 + j)) then none else some (r * d.pitch + p)
  let all := ps.all (·.st == 4)
  rows ++ (if all then (List.range d.scaleLines).map (· + d.rows * d.pitch) else [])

/-- Lines of a tile that operation `id` emptied and that have arrived fill. -/
def Core.fillArrived (k : Core) (now pos addr t id : Nat) (d : Shape) (img : List Byte) (ps : List Piece) : Core :=
  (arrivedLines d ps).foldl (fun (k : Core) n => match Tbl.get k.lines (lineNo t n) with
    | some e => if e.op = some id then k.fillRes now pos addr t n (slice img (128 * n) 128) else k
    | none => k) k

/-- Inputs of a vector operation with its handle operands read. -/
def MemOp.vecIn (o : MemOp) (i : VIn) (hd ha hb hp : Option Enf) : VIn :=
  { i with di := (hd.map o.argImage).getD i.di, ai := (ha.map o.argImage).getD i.ai, bi := (hb.map o.argImage).getD i.bi,
           pi := (hp.map o.argImage).getD i.pi }

/-- The partial of a reduction over columns lo to hi - 1 of a row, or rows of a column. Column j of a row stays in lane
j mod 64 (02 R46): the lanes before column lo hold the identity. -/
def redPart (op : RedOp) (row : Bool) (vals : List (Val × Nat)) (lo hi : Nat) : Val × Nat :=
  let part := (vals.drop lo).take (hi - lo)
  if row then rowReduce op (List.replicate (lo % 64) (redId op, 0) ++ part) else colReduce op part

/-- Parts of a cut dimension in ascending order. -/
def cutsUp (l : List (Nat × Nat)) : List (Nat × Nat) :=
  l.foldr (fun c acc => acc.takeWhile (fun d => decide (d.1 < c.1)) ++ c :: acc.dropWhile fun d => decide (d.1 < c.1)) []

/-- A reduction cut along its reduced dimension (03 R66): partials summed in ascending order, one rounding at the end. -/
def splitReduce (op : VOp) (i : VIn) (cuts : List (Nat × Nat)) : VRes :=
  let fd := (fmtOf i.d.fmt).getD (.uint 8)
  let fa := (fmtOf i.a.fmt).getD (.uint 8)
  let pack := fun (m : RMode) (sat : Bool) (r : Nat) (v : Val × Nat) => match fd with
    | .flt f => packV f m sat r v
    | _ => (0, 0)
  let join := fun (o : RedOp) (row : Bool) (vals : List (Val × Nat)) => match cuts with
    | [] => redPart o row vals 0 vals.length
    | c0 :: cs => cs.foldl (fun a c => redStep o a (redPart o row vals c.1 c.2)) (redPart o row vals c0.1 c0.2)
  let vals := tileVals i.a i.ai
  let rs := withRs i.d.rows i.d.cols i.rs
  match op with
  | .rred m sat o => if fa.isFloat then
      resD i.d (List.zipWith (fun v r => [pack m sat (r.headD 0) (join o true v)]) vals rs) else op.eval i
  | .cred m sat o => if fa.isFloat then
      resD i.d [List.zipWith (fun v r => pack m sat r (join o false v)) (transpose i.a.cols vals) (rs.headD [])] else op.eval i
  | _ => op.eval i

/-- The K-split partial of one element over a piece's blocks, from +0 (03 R66). -/
def mmaPart (pat : Word) (numv : Bool) (wa wb : Nat) (ba bb : List Blk) (k0 k1 acc : Nat) : Nat × Nat :=
  let n := (k1 - k0) / 32
  let x := cellRun pat numv wa wb n ((ba.drop (k0 / 32)).take n) ((bb.drop (k0 / 32)).take n) n 0 ⟨acc, 0, false, 0⟩
  (x.acc, x.evs)

/-- A piece of an MMA reaches the accumulator at CORE (03 R66; 19 R333). -/
def Core.addPiece (k : Core) (o : MemOp) (first split : Bool) (acc : Nat) (zero : Bool) (a b : MArg) (fa fb : Nat) (pat : Word)
    (numv : Bool) (p : Piece) : Core × Evs :=
  let ia := (a.hnd.map o.argImage).getD a.img
  let ib := (b.hnd.map o.argImage).getD b.img
  let ba := argBlocks ⟨a.rows, a.cols, fa⟩ ia
  let bb := argBlocks ⟨b.rows, b.cols, fb⟩ ib
  let wa := arrayWidth fa
  let wb := arrayWidth fb
  let k0 := if zero && first then k.accZero acc else k
  k0.accMap acc b.rows (area p.m0 p.m1 p.n0 p.n1) (fun m n v =>
    let base := if zero && p.k0 = 0 then 0 else v
    if split then
      let x := mmaPart pat numv wa wb (ba.getD m []) (bb.getD n []) p.k0 p.k1 0
      let y := accAdd 0 base (decodeFloat .fp32 x.1, 0)
      (y.1, x.2 ||| y.2)
    else mmaPart pat numv wa wb (ba.getD m []) (bb.getD n []) p.k0 p.k1 base) p.evs

/-- Events of the result elements of a piece, numbered over the whole result. -/
def partEvs (d : Shape) (masks : List Nat) (p : Piece) (whole : Bool) : Evs :=
  (masks.mapIdx fun i m => (i, m)).foldl (fun a e =>
    let inside := whole || decide (p.m0 ≤ e.1 / max d.cols 1 ∧ e.1 / max d.cols 1 < p.m1 ∧ p.n0 ≤ e.1 % max d.cols 1 ∧ e.1 % max d.cols 1 < p.n1)
    if inside then Evs.add a e.1 e.2 else a) (0, 0, 0)

/-- The operation completes with its last part (03 R66, R63): events, scalar result, versions of enforced handles. -/
def State.finishPlaced (s : State) (c : Nat) (o : MemOp) (k : PlKind) (x : Option Word) : State :=
  let ev := (s.opPieces c o.id).foldl (fun a p => Evs.join a p.evs) (0, 0, 0)
  let s1 := s.logEvs c o.pos o.addr ev
  let vers := ((k.args.filterMap (·.hnd)).filter fun e => e.check && decide (e.h < 64)).map fun e => PWrite.ver e.h (hVer e.ws)
  let ws := (match k, x with
    | .vec _ _ _ _ _ _ _ _ (some r), some w => [PWrite.x r w]
    | _, _ => []) ++ vers
  let live := (s1.core c).group.isSome
  let s2 := s1.updCore c fun k => { k with pend := k.pend ++ (if live then ws.map fun w => ⟨k.lcyc, o.pos, o.addr, w, true, 0, []⟩ else []) }
  let s3 := o.lines.foldl (fun (s : State) l => if l.mask.isEmpty then s else s.pinDrop l.lock) s2
  let s4 := s3.updRidge fun r => { r with pieces := r.pieces.filter fun p => !(p.2.core == c && p.2.op == o.id) }
  (((((s4.updCore c fun k => k.dropOp o.id).accSettle c o.id).engineNext c).soon (.pieceStart (fin10 0))).ended c).pump c

/-- The destination's homes may take the write now (04 R83) and it may be seen: the core's earlier loads have been performed (R86). -/
def State.homesTake (s : State) (c : Nat) (o : MemOp) : Bool :=
  o.lines.all fun l => l.mask.isEmpty || (!(s.core c).loadsBefore o.pos && (s.agent l.home).holdsVec l.home (s.agent (c / 8)).acq)

/-- The result of a piece whose turn it is: its part of the destination (03 R66). Answers the state, and a scalar. -/
def State.storePiece (s : State) (o : MemOp) (k : PlKind) (p : Piece) : State × Option Word :=
  let c := p.core
  let ps := (s.opPieces c o.id).map fun q => if q.id = p.id then { q with st := 4 } else q
  let group := (s.opPieces c o.id).filter fun q => decide (q.m0 = p.m0 ∧ q.n0 = p.n0)
  let s0 := s.updPiece p.id fun p => { p with st := 4 }
  match k with
  | .mma acc zero a b fa fb pat numv =>
    let r := (s0.core c).addPiece o ((s.opPieces c o.id).all (·.st != 4)) (decide (1 < group.length)) acc zero a b fa fb pat numv p
    ((s0.setCore c r.1).updPiece p.id fun p => { p with evs := r.2 }, none)
  | .vec op i td tb hd ha hb hp _ =>
    let inp := o.vecIn i hd ha hb hp
    let last := group.all fun q => q.st == 4 || q.id == p.id
    let res := if 1 < group.length then splitReduce op inp (cutsUp (group.map fun q => (q.k0, q.k1))) else op.eval inp
    let whole := !op.elementwise && (match op with
      | .rred _ _ _ => false
      | .cred _ _ _ => false
      | .ins _ _ => false
      | _ => true)
    if !last then (s0, none)
    else
      let s1 := s0.updPiece p.id fun q => { q with evs := partEvs i.d res.evs p whole }
      let r := if whole then (0, i.d.rows, 0, i.d.cols) else (p.m0, p.m1, p.n0, p.n1)
      let s2 := match res.d, hd with
        | some img, some e => s1.storePart c o e img r.1 r.2.1 r.2.2.1 r.2.2.2
        | some img, none => s1.updCore c fun k => k.fillArrived s.now o.pos o.addr td o.id i.d img ps
        | none, _ => s1
      let s3 := match res.b, hb with
        | some img, some e => s2.storePart c o e img 0 i.b.rows 0 i.b.cols
        | some img, none => s2.updCore c fun k => k.fillArrived s.now o.pos o.addr tb o.id i.b img ps
        | none, _ => s2
      (s3, res.x)
  | .mout acc rm sat rs e =>
    let r := moutImage e.shape rm sat rs ((s.core c).accBits acc e.shape.rows e.shape.cols)
    let s1 := s0.storePart c o e r.1 0 e.shape.rows 0 e.shape.cols
    (s1.updPiece p.id fun q => { q with evs := partEvs e.shape r.2 p true }, none)
  | .mrd img e => (s0.storePart c o e img 0 e.shape.rows 0 e.shape.cols, none)
  | .mfeed acc e =>
    let r := (s0.core c).feed acc e.shape (o.argImage e)
    ((s0.setCore c r.1).updPiece p.id fun q => { q with evs := r.2 }, none)

/-- Of some pieces the one with the lowest columns. -/
def lowestK (ps : List Piece) : Option Piece := ps.foldl (fun b q => match b with
  | some x => if q.k0 < x.k0 then some q else some x
  | none => some q) none

/-- PIECE_COMPLETE (03 R66): a piece behind another of its K group is held; each sum takes 4 cycles; the last part completes
the operation. -/
def execPieceComplete (id : Nat) (s : State) : Out :=
  match Tbl.get s.ridge.pieces id with
  | none => .next s
  | some p =>
    if p.st ≠ 2 ∧ p.st ≠ 3 then .next s
    else match (s.core p.core).op p.op with
      | none => .next (((s.updRidge fun r => { r with pieces := Tbl.erase r.pieces id }).soon (.pieceStart (fin10 p.place))).ended p.core)
      | some o => match o.plKind with
        | none => .next s
        | some k =>
          let group := (s.opPieces p.core p.op).filter fun q => decide (q.m0 = p.m0 ∧ q.n0 = p.n0)
          if group.any fun q => decide (q.k0 < p.k0) && q.st != 4 then .next (s.updPiece id fun p => { p with st := 3 })
          else if !s.homesTake p.core o then .next ((s.updPiece id fun p => { p with st := 3 }).after 1 (.pieceComplete id))
          else
            let r := s.storePiece o k p
            let s1 := match lowestK (group.filter fun q => q.st == 3 && decide (p.k0 < q.k0)) with
              | some q => r.1.after 4 (.pieceComplete q.id)
              | none => r.1
            let finished := (s1.opPieces p.core p.op).all (·.st == 4)
            let s2 := if finished then s1.finishPlaced p.core o k r.2 else s1
            .next (if p.place = 0 then s2 else s2.soon (.pieceStart (fin10 p.place)))

end Sys2Proof.Machine
end

