-- ==== Sys2Proof/Machine/Context.lean ====
section
/-! DEFINITION. What ends the work of a context, completion records, semaphore updates, the removal of translations, and
messages to groups (05 R106, R116; 08 R147; 10 R167; 13 R220; 16 R275, R276). -/

namespace Sys2Proof.Machine
open Sys2Proof.Bits

/-! ### Semaphores -/

/-- Waiters of a semaphore whose test has arrived are tested again at the end of the cycle's updates (09 R157). `seq` names the
group of a sequencer semaphore. -/
def State.retest (s : State) (n : Nat) (members : List Nat) : State :=
  s.ridge.semw.foldl (fun (s : State) w =>
    let coming := s.agenda.any fun e => e.2 == .semaphoreTest (fin64 w.core) && decide (s.now < e.1)
    if w.sem = n ∧ w.met.isNone ∧ coming = false ∧ (n < 0x10000 ∨ members.contains w.core) then
      s.soon (.semaphoreTest (fin64 w.core))
    else s) s

/-- Value of a device semaphore (16 R274). -/
def State.devSem (s : State) (n : Nat) : Word := Tbl.getD s.ridge.sems n 0

/-- Device semaphore `n` takes a value under a stamp; the front end and the waiters look again (16 R276; 06 R121). -/
def State.setDevSem (s : State) (n : Nat) (v : Word) (t : Stamp) : State :=
  let t1 := match Tbl.get s.ridge.semStamp n with
    | some u => stampMax u t
    | none => t
  ((s.updRidge fun r => { r with sems := Tbl.set r.sems n v, semStamp := Tbl.set r.semStamp n t1 }).retest n []).soon .frontEndStart

/-- An agent adds to a device semaphore (06 R121, 18 R322, 13 R214). -/
def State.addSem (s : State) (agent n : Nat) (v : Word) : State := s.setDevSem n (s.devSem n + v) (s.stampOf agent)

/-! ### Completion records -/

/-- Words of a completion record (13 Table 13.7; 12 R203). -/
def recordBytes (seq result evt : Nat) (ver fva : Word) : List Byte :=
  wordsLE [BitVec.ofNat 64 (seq % 2 ^ 32 * 2 ^ 32 + result % 256 * 2 ^ 24 + evt % 2 ^ 16), ver, if result = 1 then fva else 0, 0, 0, 0, 0, 0]

/-- A record of agent `g` at STAT, written only where it can be (13 R220, 01 R441), and the agent's tick (04 R90). -/
def State.record (s : State) (core : Option Nat) (x g stat : Nat) (bs : List Byte) : State :=
  let s1 := if stat ≠ 0 ∧ s.vok core x stat 64 true false = true then (s.vwrite core x g stat bs).1 else s
  s1.tick g 0

/-! ### Translations -/

/-- The range an invalidation names overlaps the `2 ^ lvlShift l` bytes at `base` (16 R282). -/
def overlaps (sz : InvSize) (va base l : Nat) : Bool :=
  let n := match sz with
    | .k64 => 16
    | .m2 => 21
    | .g1 => 30
    | .ctx => 52
  let lo := va / 2 ^ n * 2 ^ n
  decide (base < lo + 2 ^ n ∧ lo < base + 2 ^ lvlShift l)

/-- A cached translation falls under an invalidation. -/
def Xl.under (e : Xl) (x va : Nat) (sz : InvSize) : Bool := e.ctx == x && overlaps sz va e.base e.level

/-- The entries of every µTLB, TLB and walk cache under an invalidation are removed; pinned ones are withdrawn, and go when they
have no reader (10 R167, R168). -/
def State.dropXl (s : State) (x va : Nat) (sz : InvSize) : State :=
  { s with
    cores := s.cores.map fun e => (e.1, { e.2 with utlb := e.2.utlb.filter fun t => !t.under x va sz }),
    dies := s.dies.map fun e => (e.1, { e.2 with tlb := e.2.tlb.filter fun t => !t.under x va sz }),
    ridge := { s.ridge with
      wcache := s.ridge.wcache.filter fun w => !(w.ctx == x && overlaps sz va w.base w.level),
      locks := (s.ridge.locks.map fun l => if l.xl.under x va sz then { l with withdrawn := true } else l).filter fun l =>
        !(l.withdrawn && l.readers == 0 && !s.lockWaits l.id) } }

/-! ### Ending a context's work -/

/-- Groups of a context in a state up to PARKED. -/
def State.groupsOf (s : State) (x : Nat) : List Nat := (s.grps.filter fun g => g.2.ctx == x && decide (g.2.state ≤ 4)).map (·.1)

/-- Groups of a context stopped without save (08 R140, R145). -/
def State.stopGroups (s : State) (x : Nat) : State := (s.groupsOf x).foldl (fun (s : State) g => s.stopGroup g 3 0) s

/-- Chains of the context's transfer channels cancelled, the channels IDLE (18 R320). -/
def State.cancelChains (s : State) (x : Nat) : State :=
  s.ridge.xch.foldl (fun (s : State) e =>
    if bit e.2.own 6 && get e.2.own 5 0 == x then
      let s0 := s.updXch e.1 fun k => { k with state := 0, chains := [] }
      let s1 := { s0 with agenda := s0.agenda.filter fun a => a.2 != .transferLinkComplete (fin64 e.1) }
      e.2.chains.foldl (fun (s : State) c => match c.pkt with
        | some (q, n) => s.packetDone q n 16
        | none => s) s1
    else s) s

/-- Stack of a collective's buffers, and its record address (13 Table 13.6). -/
def Coll.aff (k : Coll) : Nat := get (wnth k.desc 0) 39 36
def Coll.stat (k : Coll) : Nat := get (wnth k.desc 5) 51 0

/-- A collective step ends with a result: record, tick, packet; steps that wait for it look again (13 R219, R220). -/
def State.endColl (s : State) (k : Coll) (result fva : Nat) : State :=
  let other := fun (d : CollDone) => !(d.ctx == k.ctx && d.addr == k.addr)
  let done := fun (l : List CollDone) => (⟨k.ctx, k.addr, k.step, if result = 0 then k.part else []⟩ : CollDone) :: l.filter other
  let s1 := s.updRidge fun r => { r with colls := r.colls.filter fun v => v.id != k.id, done := done r.done }
  let s2 := (s1.record none k.ctx (8 + k.aff % 8) k.stat (recordBytes k.step result k.evt 0 (BitVec.ofNat 64 fva))).packetDone k.pkt.1 k.pkt.2 (8 + k.aff % 8)
  (s2.ridge.colls.filter fun v => !v.sent).foldl (fun (s : State) v => s.soon (.collectiveStepComplete v.id [])) s2

/-- Collective steps of a context cancelled with RESULT 5 (05 Table 5.3; 13 Table 13.7). -/
def State.cancelColls (s : State) (x : Nat) : State :=
  (s.ridge.colls.filter fun k => k.ctx == x).foldl (fun (s : State) k => s.endColl k 5 0) s

/-- FENCED: the host's FENCE (CAUSE 5), or the errors of CAUSE 3 and 4 (05 R106). A SUSPEND in progress ends with it: BUSY clears and STATUS
is 2 (DESIGN CHOICE, log 19: the spec does not say what becomes of one). -/
def State.fenceCtx (s : State) (x cause : Nat) : State :=
  let k := s.ctx x
  if k.state = 2 ∨ k.state = 3 ∨ k.state = 4 then
    let s1 := s.updCtx x fun k => { k with state := 5, spnd := false, cause := cause }
    let s2 := if s1.regs.cmdBusy ∧ s1.regs.cmdCtx = x then s1.updRegs fun r => { r with cmdBusy := false, cmdStatus := 2 } else s1
    ((s2.stopGroups x).cancelChains x).cancelColls x
  else s

/-- What an agent's access to a context meets: cause 0, an unreadable table, fences the context (10 R166); any other cause is `f`'s. -/
def State.agentFault (s : State) (x cause : Nat) (f : State → State) : State := if cause = 0 then s.fenceCtx x 4 else f s

/-! ### Messages to groups -/

/-- The index is DRAINING after a stop without save (08 R145, R147). -/
def Grp.stopped (g : Grp) : Bool :=
  g.state == 5 && (decide (3 ≤ g.cause) || (g.cause == 2 && (g.trap == trBOVR || g.trap == trBWDOG)))

/-- What becomes of a message for a group (08 R147): taken by group `g`, held for it, or dropped. -/
inductive Fate where
  | live (g : Nat)
  | held (g : Nat)
  | stale
  deriving DecidableEq, Repr

/-- The group index a message names: by its group id, or by the tag of a spanning course when a peer sent it (08 R146; log 8). -/
def State.named (s : State) (peer : Bool) (gid : BitVec 16) : Option Nat :=
  if peer then
    (s.grps.find? fun g => match g.2.run with
      | some r => r.npkg != 0 && r.sptag == gid.toNat && decide (g.2.state ≤ 5)
      | none => false).map (·.1)
  else s.ofGid gid

/-- The fate of a message by its group id (08 R147). -/
def State.fate (s : State) (peer : Bool) (gid : BitVec 16) : Fate :=
  match s.named peer gid with
  | none => .stale
  | some g =>
    let x := s.grp g
    if 6 ≤ x.state ∨ x.stopped = true then .stale
    else if x.state = 4 then .held g
    else if x.state = 1 ∧ ((x.run.map (·.saved.isEmpty)).getD true) = false then .held g
    else .live g

/-- A stale message is dropped and counted (08 R147). -/
def State.countStale (s : State) : State := s.updRegs fun r => { r with gstale := min (r.gstale + 1) (2 ^ 32 - 1) }

/-- A message is held, dropped, or acts. -/
def State.message (s : State) (peer : Bool) (gid : BitVec 16) (i : Instr) (act : Nat → State → State) : State :=
  match s.fate peer gid with
  | .stale => s.countStale
  | .held g => s.updRun g fun r => { r with heldMsgs := r.heldMsgs ++ [i] }
  | .live g => act g s

end Sys2Proof.Machine
end

