-- ==== Sys2Proof/Machine/Translate.lean ====
section
/-! DEFINITION. Walks and invalidations (10 R162 to R168). -/

namespace Sys2Proof.Machine
open Sys2Proof.Bits

/-! ### Walks -/

/-- A walk of a die by context and page. -/
def Walk.is (w : Walk) (x va : Nat) : Bool := w.ctx == x && w.va == va

/-- Accesses that joined a walk go on with its translation, or fault on their own (10 R165, R166). -/
def State.endJoins (s : State) (joins : List (Nat × Nat × Nat)) (st : AccSt) (e : Option Xl) : State :=
  let s1 := joins.foldl (fun (s : State) j => s.updCore j.1 fun k =>
    { (k.updOp j.2.1 fun o => o.updLine j.2.2 fun l => if l.st = .walk then { l with st := st } else l) with
      utlb := match e with
        | some x => lruPut 64 x k.utlb
        | none => k.utlb }) s
  let s2 := joins.foldl (fun (s : State) j => s.noteFault j.1 j.2.1) s1
  let cs := joins.foldl (fun l j => insertNat j.1 l) []
  cs.foldl (fun (s : State) c => (if ((s.core c).memq.any fun o => o.plKind.isSome) then s.soon (.placement (fin64 c)) else s).pump c) s2

/-- A walk of a die ends with a translation. -/
def State.walkLoads (s : State) (d : Nat) (w : Walk) (e : Xl) : State :=
  (s.updDie d fun x => { x with walks := x.walks.filter fun v => v != w, tlb := lruPut 4096 e x.tlb }).endJoins w.joins .idle (some e)

/-- A walk of a die ends with a fault. -/
def State.walkFaults (s : State) (d : Nat) (w : Walk) (cause : Nat) : State :=
  (s.updDie d fun x => { x with walks := x.walks.filter fun v => v != w }).endJoins w.joins (.fault cause) none

/-- A walk of a die reads next the entry of level `n - 1` in the table at `pa`. -/
def State.walkOn (s : State) (d : Nat) (w : Walk) (n pa : Nat) : State :=
  (s.updDie d fun x => { x with walks := updWhere (fun v => v == w) (fun v => { v with run := some (n, pa) }) x.walks }).after (s.nextEntry d w.va n pa)
    (.walkComplete (fin8 d) (fin64 w.ctx) w.va)

/-- A miss that has arrived: the die's TLB or the walk cache has the translation by now, else a walk starts, 32 at most (10 R164, R165). -/
def State.walkGo (s : State) (d : Nat) (m : Walk) : State :=
  match (s.die d).walks.find? fun w => w.is m.ctx m.va && w.run.isNone with
  | none => s
  | some w => match (s.die d).tlb.find? (·.covers w.ctx w.va) with
    | some e => s.walkLoads d w e
    | none => match s.ridgeLeaf w.ctx w.va with
      | some e => (s.cacheLeaf e).walkLoads d w e
      | none =>
        if 32 ≤ ((s.die d).walks.filter (·.run.isSome)).length then s
        else
          let st := s.walkStartAt w.ctx w.va
          (s.touchPtr w.ctx w.va).walkOn d w st.1 st.2

/-- A miss among those that wait: by cycle of arrival, then core index (10 R165). -/
def insertMiss (w : Walk) : List Walk → List Walk
  | [] => [w]
  | v :: l => if w.arr < v.arr ∨ (w.arr = v.arr ∧ w.core < v.core) then w :: v :: l else v :: insertMiss w l

/-- Misses of a die that have arrived start in order while walks are free (10 R165). -/
def State.startWalks (s : State) (d : Nat) : State :=
  ((s.die d).walks.foldl (fun l w => if w.run.isNone ∧ w.arr ≤ s.now then insertMiss w l else l) []).foldl (fun (s : State) w => s.walkGo d w) s

/-- WALK_START: a miss arrives, 6 or 46 cycles after its access looked the page up (22 R387; 10 R165). -/
def execWalkStart (die : Fin 8) (_ctx : Fin 64) (_va : Nat) (s : State) : Out := .next (s.startWalks die.val)

/-- WALK_COMPLETE: the walk has its turn at the home of the entry (22 R387), has read it, and goes on to the next table, or ends with a translation, or with a fault for each access
that joined it; an unreadable table fences the context (10 R162 to R166, R168). -/
def execWalkComplete (die : Fin 8) (ctx : Fin 64) (va : Nat) (s0 : State) : Out :=
  let d := die.val
  let ev : Instr := .walkComplete die ctx va
  match (s0.die d).walks.find? fun w => w.is ctx.val va && w.run.isSome with
  | none => .next (s0.askDone ev none)
  | some w =>
    if !s0.hasTurn ev then .next (s0.askAgain ev)
    else
    let s := s0.askDone ev (s0.request ev)
    .next (match w.run with
    | some (n + 1, pa) => match s.entryAt va n pa with
      | none => ((s.updDie d fun x => { x with walks := x.walks.filter fun v => v != w }).fenceCtx ctx.val 4).startWalks d
      | some (p, _, _) => match pteKind n p with
        | .ptr next => (s.cachePtrs ctx.val va [(n, p)]).walkOn d w n next
        | .bad c => (s.walkFaults d w c).startWalks d
        | .leaf =>
          let e : Xl := ⟨ctx.val, pageBase n va, n, p⟩
          (if bit p 57 && !s.lockRoom e then s.walkFaults d w 11 else (s.cacheLeaf e).walkLoads d w e).startWalks d
    | _ => (s.walkFaults d w 3).startWalks d)

/-! ### Invalidations -/

/-- TLBIs that have reached the ridge join the invalidations in ascending core index, before a host command of the cycle
(10 R167; 30 R429). -/
def State.gatherInv (s : State) : State :=
  let here := fun (i : Inval) => i.by_.isNone && decide (s.now ≤ i.arr)
  let mine := (List.range 64).flatMap fun c => (s.core c).memq.filterMap fun o => match o.kind with
    | .req (.tlbi a x sz) t => if o.left && decide (t ≤ s.now) && !s.ridge.invs.any (fun i => i.by_ == some (c, o.id))
        then some (⟨some (c, o.id), s.now, get x 5 0, a.toNat, sz, 0⟩ : Inval) else none
    | _ => none
  s.updRidge fun r => { r with invs := r.invs.filter (fun i => !here i) ++ mine ++ r.invs.filter here }

/-- Lines of an operation in the placement stage that no piece uses: all of them, or those of its cancelled pieces alone. -/
def State.freeLines (s : State) (c : Nat) (o : MemOp) (k : PlKind) : List Nat :=
  let ps := s.opPieces c o.id
  let of_ := fun (ps : List Piece) => ps.flatMap fun p => o.pieceLines k p false ++ o.pieceLines k p true
  if ps.isEmpty then List.range o.lines.length
  else
    let used := of_ (ps.filter (·.st != 5))
    (of_ (ps.filter (·.st == 5))).filter fun n => !used.contains n

/-- A line in the placement stage whose translation goes is looked up again: homes are those of the translation that stands when the
operation is placed (03 R57). -/
def State.forgetLine (s : State) (c id n : Nat) (l : LineAcc) : State :=
  (s.pinDrop l.lock).updCore c fun k => k.updOp id fun o => o.updLine n fun l => { l with st := .idle, lock := 0 }

/-- The lines of a core's placement stage under an invalidation. -/
def State.forgetLines (s : State) (i : Inval) (c : Nat) : State :=
  if s.ctxOf c ≠ i.ctx then s
  else ((s.core c).memq.foldl (fun (s : State) o => match o.plKind with
    | some k => if !s.staged c o then s else (s.freeLines c o k).foldl (fun (s : State) n => match o.lines[n]? with
      | some l => if l.st = .flight ∧ winBase > l.va ∧ overlaps i.sz i.va (pageBase 0 l.va) 0 = true then s.forgetLine c o.id n l else s
      | none => s) s
    | none => s) s).soon (.placement (fin64 c))

/-- The first invalidation begins: entries are removed, pinned ones withdrawn (10 R167, R168). -/
def State.beginInv (s : State) : State :=
  match s.ridge.invs with
  | i :: rest =>
    if i.began ≠ 0 ∨ s.now < i.arr then s
    else (((List.range 64).foldl (fun (s : State) c => if ((s.core c).memq.any fun o => o.plKind.isSome) then s.forgetLines i c else s)
      (s.dropXl i.ctx i.va i.sz)).updRidge fun r => { r with invs := { i with began := s.now + 1 } :: rest }).after 60 .invalidationComplete
  | [] => s

/-- INVALIDATION_BEGIN (10 R167). -/
def execInvalidationBegin (s : State) : Out := .next s.gatherInv.beginInv

/-- INVALIDATION_COMPLETE: 60 cycles after it began, and when no reader of a withdrawn translation is left (10 R167, R168); a
release that waited goes on, `INVREQ`.BUSY clears (16 R284, 30 R429); the next begins. -/
def execInvalidationComplete (s : State) : Out :=
  match s.ridge.invs with
  | [] => .next s
  | i :: rest =>
    let read := s.ridge.locks.any fun l => l.withdrawn && l.xl.under i.ctx i.va i.sz && (l.readers != 0 || s.lockWaits l.id)
    if i.began = 0 ∨ s.now < i.began + 59 ∨ read then .next s
    else
      let s1 := s.updRidge fun r => { r with invs := rest, locks := r.locks.filter fun l => !(l.withdrawn && l.readers == 0 && !s.lockWaits l.id) }
      match i.by_ with
      | some (c, id) => .next ((((s1.updCore c fun k => k.dropOp id).ended c).pump c).gatherInv.beginInv)
      | none => .next ((s1.updRegs fun r => { r with invBusy := false }).gatherInv.beginInv)

end Sys2Proof.Machine
end

