-- ==== Sys2Proof/Machine/Barrier.lean ====
section
/-! DEFINITION. Barriers, semaphores, remote flags and the tile dispenser: what arrives at them (09 R149 to R157; 16 R272 to
R276; 07 R133). -/

namespace Sys2Proof.Machine
open Sys2Proof.Bits

/-! ### Instances -/

/-- Declaration of barrier `b`. -/
def Run.decl (r : Run) (b : Nat) : BarDecl := r.bars.getD b ⟨0, 0, 0, 0⟩

/-- The instance of barrier `b` that holds core `c` (09 Table 9.2): by member, by die, or the only one. -/
def Run.instOf (r : Run) (c b : Nat) : Nat := match (r.decl b).dom with
  | 0 => (indexIn c r.members).getD 0
  | 1 => c / 8
  | _ => 0

/-- Members of an instance. -/
def Run.instMembers (r : Run) (b n : Nat) : List Nat := match (r.decl b).dom with
  | 0 => (r.members[n]?).toList
  | 1 => r.members.filter fun m => m / 8 == n
  | _ => r.members

/-- Arrivals per phase: EXPECT, or every member (09 Table 9.1). -/
def Run.expect (r : Run) (b n : Nat) : Nat :=
  let e := (r.decl b).expect
  if e = 0 then (r.instMembers b n).length else e

/-- State of an instance; at launch all zero, DECL from the declaration (09 R150). -/
def Run.bar (r : Run) (b n : Nat) : Bar := Tbl.getD r.insts (b * 64 + n) ⟨false, 0, 0, 0, 0, (r.decl b).decl, 0, 0, none, 0, false⟩

/-- An instance changed. -/
def State.updBar (s : State) (g b n : Nat) (f : Bar → Bar) : State :=
  s.updRun g fun r => { r with insts := Tbl.set r.insts (b * 64 + n) (f (r.bar b n)) }

/-- The watchdog counts from now, if the barrier has one (09 R153). -/
def State.watch (s : State) (g b n : Nat) : State := match (s.grp g).run with
  | some r =>
    if (r.decl b).wdog = 0 ∨ (r.bar b n).since.isSome then s
    else (s.updBar g b n fun x => { x with since := some s.now }).after (2 ^ (r.decl b).wdog) (.watchdogExpiry (s.gid16 g) n (fin64 b))
  | none => s

/-- A count is beyond its declared value (09 R152). -/
def Run.exceeds (r : Run) (b n : Nat) : Bool :=
  let x := r.bar b n
  decide (x.decl < x.land ∨ x.decl < x.landN ∨ r.expect b n < x.arr ∨ r.expect b n < x.arrN ∨ max r.npkg 1 < x.parr)

/-- OVERRUN: the group stops with BOVR (09 R152). -/
def State.overrun (s : State) (g b n : Nat) : State :=
  (s.updBar g b n fun x => { x with cond := 1 }).endGroup g 2 trBOVR 0 true

/-- Where instance `n` of barrier `b` is held: a die, or 8 + `g` for the sequencer of its group (09 R149). -/
def State.barHolder (s : State) (g b n : Nat) : Nat := match (s.grp g).run with
  | some r => match (r.decl b).dom with
    | 0 => (r.members.getD n 0) / 8
    | 1 => n
    | _ => 8 + g
  | none => 8 + g

/-- A notice among the ones that wait at a holder, in ascending barrier number. -/
def insertNotice (x : Nat × Instr) : List (Nat × Instr) → List (Nat × Instr)
  | [] => [x]
  | y :: l => if x.1 < y.1 then x :: y :: l else y :: insertNotice x l

/-- A completion notice goes out: the ones its holder has not let go leave it at one per cycle, in ascending barrier number, and reach the
members 16 cycles on from a die and 40 from a sequencer (09 R156; 22 R397). -/
def State.sendNotice (s : State) (g b n : Nat) (phase : Bool) : State :=
  let h := s.barHolder g b n
  let d := if h < 8 then 16 else 40
  let waits := fun (e : Nat × Instr) => match e.2 with
    | .completionNotice gid inst c => if s.now + d ≤ e.1 ∧ (s.ofGid gid).any (fun x => s.barHolder x c.val (inst / 2) == h) then some c.val else none
    | _ => none
  let rest := s.agenda.filter fun e => (waits e).isNone
  let queue := insertNotice (b, .completionNotice (s.gid16 g) (2 * n + phase.toNat) (fin64 b))
    (s.agenda.foldl (fun l e => match waits e with
      | some c => insertNotice (c, e.2) l
      | none => l) [])
  queue.zipIdx.foldl (fun (s : State) x => s.after (d + x.2) x.1.2) { s with agenda := rest }

/-- A phase completes: the next phase's counts become the phase's, and the notice goes out (09 R151, R156). -/
def State.completePhase (s : State) (g b n : Nat) (r : Run) : State :=
  let x := r.bar b n
  let y : Bar := { x with phase := !x.phase, arr := x.arrN, arrN := 0, land := x.landN, landN := 0, parr := x.parrN, parrN := 0,
                          since := none, sent := false }
  let s1 := (s.updBar g b n fun _ => y).sendNotice g b n y.phase
  if y.arr = 0 ∧ y.land = 0 ∧ y.parr = 0 then s1 else s1.watch g b n

/-- The test an instance makes at each change (09 R151, R152). A spanning instance that is locally complete tells its peers once. -/
def State.barTest (s : State) (g b n : Nat) : Nat → State
  | 0 => s
  | f + 1 => match (s.grp g).run with
    | none => s
    | some r =>
      let x := r.bar b n
      if x.cond ≠ 0 then s
      else if r.exceeds b n then s.overrun g b n
      else if x.arr ≠ r.expect b n ∨ x.land ≠ x.decl then s
      else if (r.decl b).dom = 3 ∧ x.sent = false then
        let s1 := s.sendPeers 16 3 r.sptag [] (.arrival b x.phase s.regs.pkrank) (r.peers.filter (· ≠ s.regs.pkrank))
        (s1.updBar g b n fun x => { x with sent := true, parr := x.parr + 1 }).barTest g b n f
      else if (r.decl b).dom = 3 ∧ x.parr < r.npkg then s
      else (s.completePhase g b n r).barTest g b n f

/-- An instance that is OPEN changes, and tests. -/
def State.barCount (s : State) (g b n : Nat) (cur : Bar → Bool) (f : Bar → Bar) : State := match (s.grp g).run with
  | none => s
  | some r =>
    if r.bars.length ≤ b ∨ (r.bar b n).cond ≠ 0 then s
    else
      let s1 := s.updBar g b n f
      (if cur (r.bar b n) then s1.watch g b n else s1).barTest g b n 8

/-- BARRIER_ARRIVAL (09 R151). -/
def execBarrierArrival (gid : BitVec 16) (core : Fin 64) (b : BReg) (tag : Bool) (s : State) : Out :=
  .next (s.message false gid (.barrierArrival gid core b tag) fun g s => match (s.grp g).run with
    | some r => s.barCount g b.val (r.instOf core.val b.val) (fun x => x.phase == tag) fun x =>
        if x.phase = tag then { x with arr := x.arr + 1 } else { x with arrN := x.arrN + 1 }
    | none => s)

/-- Landed bytes count at an instance (09 R151). -/
def State.barLand (s : State) (g b n : Nat) (tag : Bool) (bytes : Nat) : State :=
  s.barCount g b n (fun x => x.phase == tag) fun x =>
    if x.phase = tag then { x with land := x.land + bytes } else { x with landN := x.landN + bytes }

/-- BARRIER_LANDING (09 R151, R443): from a peer, only barriers of domain 2 and 3 receive. -/
def execBarrierLanding (peer : Bool) (gid : BitVec 16) (core : Fin 64) (b : BReg) (tag : Bool) (bytes : Nat) (s : State) : Out :=
  .next (s.message peer gid (.barrierLanding peer gid core b tag bytes) fun g s => match (s.grp g).run with
    | some r => if peer ∧ (r.decl b.val).dom ≤ 1 then s else s.barLand g b.val (r.instOf core.val b.val) tag bytes
    | none => s)

/-- BDCL_ARRIVAL: DECL changes; below LAND is an overrun (09 R152, R155). -/
def execBdclArrival (gid : BitVec 16) (core : Fin 64) (b : BReg) (decl : Nat) (s : State) : Out :=
  .next (s.message false gid (.bdclArrival gid core b decl) fun g s => match (s.grp g).run with
    | some r =>
      let n := r.instOf core.val b.val
      if (r.bar b.val n).cond = 0 ∧ decl < (r.bar b.val n).land then s.overrun g b.val n
      else s.barCount g b.val n (fun _ => false) fun x => { x with decl := decl }
    | none => s)

/-- What a completed phase of a barrier of domain 2 or 3 gives its members' dies: the stamps of the dies that arrived and of the agents
whose work landed (09 R161; 04 R90). -/
def State.barMerge (s : State) (r : Run) (b : Nat) : State :=
  if (r.decl b).dom < 2 then s
  else
    let gs := r.members.foldl (fun l m => insertNat (m / 8) l) []
    let ts := (gs ++ (List.range 9).map (8 + ·)).map s.stampOf
    gs.foldl (fun (s : State) d => (ts.filter fun t => t.agent != d).foldl (fun (s : State) t => s.merge d t) s) s

/-- COMPLETION_NOTICE: each member sets P := PHASE and A := 0 (09 R151). `inst` is twice the instance plus the phase. -/
def execCompletionNotice (gid : BitVec 16) (inst : Nat) (b : BReg) (s : State) : Out :=
  .next (s.message false gid (.completionNotice gid inst b) fun g s => match (s.grp g).run with
    | some r => (r.instMembers b.val (inst / 2)).foldl (fun (s : State) m => s.updCore m fun k =>
        { k with bP := (if inst % 2 = 1 then [b.val] else []) ++ k.bP.filter (· != b.val), bA := k.bA.filter (· != b.val) }) (s.barMerge r b.val)
    | none => s)

/-- WATCHDOG_EXPIRY (09 R153): a saved group's watchdog does not count. -/
def execWatchdogExpiry (gid : BitVec 16) (inst : Nat) (b : BReg) (s : State) : Out :=
  match s.ofGid gid with
  | none => .next s
  | some g => match (s.grp g).run with
    | none => .next s
    | some r =>
      let x := r.bar b.val inst
      let due := match x.since with
        | some t => decide (t + 2 ^ (r.decl b.val).wdog ≤ s.now)
        | none => false
      if due && (r.decl b.val).wdog != 0 && x.cond == 0 && ((s.grp g).state == 2 || (s.grp g).state == 3) then
        .next ((s.updBar g b.val inst fun x => { x with cond := 2 }).endGroup g 2 trBWDOG 0 true)
      else .next s

/-- A package arrival counts at an instance of domain 3; one for the next phase is held there (09 R151). -/
def State.countPackage (s : State) (g b : Nat) (phase : Bool) : State := match (s.grp g).run with
  | some r => if (r.decl b).dom = 3 then s.barCount g b 0 (fun x => x.phase == phase) fun x =>
      if x.phase = phase then { x with parr := x.parr + 1 } else { x with parrN := x.parrN + 1 } else s
  | none => s

/-- A package arrival reaches the part of a spanning course: it counts, is held for a saved group, or is stale (08 R147; 09 R150, R151). -/
def State.packageArrives (s : State) (sptag : BitVec 16) (b : Nat) (phase : Bool) : State := match s.fate true sptag with
  | .stale => s.countStale
  | .held g => s.updRun g fun r => { r with heldArr := r.heldArr ++ [(b, phase)] }
  | .live g => s.countPackage g b phase

/-- PACKAGE_ARRIVAL: a peer's part is locally complete (09 R151). -/
def execPackageArrival (sptag : BitVec 16) (b : BReg) (phase : Bool) (_rank : Nat) (s : State) : Out := .next (s.packageArrives sptag b.val phase)

/-- Landings of a packet's work count at every group of the context that holds the barrier (09 R443). -/
def State.landForPacket (s : State) (x b bytes : Nat) : State :=
  s.grps.foldl (fun (s : State) e => match e.2.run with
    | some r =>
      if e.2.ctx = x ∧ e.2.state ≤ 4 ∧ b < r.bars.length ∧ 2 ≤ (r.decl b).dom then
        s.after 0 (.barrierLanding false (s.gid16 e.1) (fin64 (r.members.headD 0)) (fin64 b) (r.bar b 0).phase bytes)
      else s
    | none => s) s

/-! ### Semaphores, flags, the dispenser -/

/-- What a semaphore operation leaves (16 R275): 0 SADD, 1 SCAS, 2 SXCH, 3 SMAX, 4 SWGE, 5 SRD. -/
def semNew (op : Nat) (old v cmp : Word) : Word := match op with
  | 0 => old + v
  | 1 => if old = cmp then v else old
  | 2 => v
  | 3 => if sgn old ≤ sgn v then v else old
  | 4 => if sgn v ≤ sgn old then old - v else old
  | _ => old

/-- Value and stamp of a semaphore as core `c` names it; the stamp as a vector. -/
def State.semOf (s : State) (c n : Nat) : Word × List Nat :=
  if n < 0x10000 then (s.devSem n, match Tbl.get s.ridge.semStamp n with
    | some t => vmerge zeroVec t
    | none => zeroVec)
  else match s.runOf c with
    | some r => Tbl.getD r.sems (n - 0x10000) (0, zeroVec)
    | none => (0, zeroVec)

/-- The die of core `c` merges a vector (04 R84). -/
def State.mergeVec (s : State) (c : Nat) (v : List Nat) : State := s.updAgent (c / 8) fun a => { a with acq := vmax a.acq v }

/-- SEMAPHORE_OPERATION: one atomic step at the semaphore file (16 R275, R276). -/
def execSemaphoreOperation (core : Fin 64) (id : Nat) (s : State) : Out :=
  let c := core.val
  match (s.core c).op id with
  | none => .next s
  | some o => match o.kind with
    | .req (.sem op _ n v cmp) _ =>
      let old := s.semOf c n
      let t := s.stampOf (c / 8)
      let new := semNew op old.1 v cmp
      let s1 := if op = 5 then s
        else if n < 0x10000 then s.setDevSem n new t
        else match s.grpOf c with
          | some g => (s.updRun g fun r => { r with sems := Tbl.set r.sems (n - 0x10000) (new, vmax old.2 (vmerge zeroVec t)) }).retest n (s.membersOf c)
          | none => s
      let s2 := ((s1.mergeVec c old.2).stash c id old.1).updCore c fun k => k.dropOp id
      .next (((s2.replyAfter core.val (if n < 0x10000 then 24 else 8) id).ended c).pump c)
    | _ => .next s

/-- SEMAPHORE_TEST: the file tests a WAIT.sem; the core resumes 20 cycles after the test that holds (09 R157; 16 R276). -/
def execSemaphoreTest (core : Fin 64) (s : State) : Out :=
  let c := core.val
  match s.ridge.semw.find? fun w => w.core == c && w.met.isNone with
  | none => .next s
  | some w =>
    let x := s.semOf c w.sem
    if sgn w.thr ≤ sgn x.1 then
      .next ((s.updRidge fun r => { r with semw := updWhere (fun v => v == w) (fun v => { v with met := some s.now }) r.semw }).mergeVec c x.2)
    else .next s

/-- REMOTE_FLAG_CHANGE: the bit changes in the member of rank `rank`; its die merges the sender's stamp; a member that has exited
drops it (16 R272, R273). -/
def execRemoteFlagChange (gid : BitVec 16) (sender : Fin 64) (rank : Nat) (f : Fin 32) (val : Bool) (epoch : Nat) (acq : List Nat)
    (s : State) : Out :=
  .next (s.message false gid (.remoteFlagChange gid sender rank f val epoch acq) fun g s =>
    match ((s.grp g).run).bind fun r => r.members[rank]? with
    | some m =>
      if (s.core m).exited then s
      else (s.updCore m fun k => k.apply (.flag f.val val)).merge (m / 8) ⟨sender.val / 8, epoch, acq⟩
    | none => s)

/-- The dispenser of group `g` answers request `id` of core `c` (07 R133). -/
def State.grantTile (s : State) (g c id : Nat) : State :=
  if !(s.core c).pend.any (·.id == id) then s
  else match (s.grp g).run with
    | none => s
    | some r =>
      let (gx, gy, gz) := r.grid
      let t := r.tiles
      if t < gx * gy * gz then
        let v := BitVec.ofNat 64 (t / (gx * gy) * 2 ^ 32 + t / gx % gy * 2 ^ 16 + t % gx)
        (s.updRun g fun r => { r with tiles := t + 1 }).deliver c id fun _ => .ntile v true
      else s.deliver c id fun _ => .ntile (ofInt (-1)) false

/-- DISPENSER_GRANT: the next tile of the grid, or -1, for a group that is still there (07 R133; 08 R147). -/
def execDispenserGrant (core : Fin 64) (dest : ReplyTo) (s : State) : Out :=
  .next (s.message false dest.gid (.dispenserGrant core dest) fun g s => s.grantTile g core.val dest.id)

end Sys2Proof.Machine
end

