-- ==== Sys2Proof/Machine/Fabric.lean ====
section
/-! DEFINITION. The instructions of slot f (21). -/

namespace Sys2Proof.Machine
open Sys2Proof.Bits

/-! ### Channels -/

/-- A channel of core `c` changed. -/
def Core.updChan (k : Core) (n : Nat) (f : Chan → Chan) : Core := match Tbl.get k.chans n with
  | some x => { k with chans := Tbl.set k.chans n (f x) }
  | none => k

/-- A channel that nothing has configured yet. -/
def Chan.blank : Chan := ⟨false, false, false, false, 0, 0, none, 0, 0, 0, 0, 0, 0, []⟩

/-- CHCFG: the 32 bytes at xA are read as a load of landing code 0 reads them (21 R370). -/
def execChcfg (h : Hdr) (n : CReg) (xA : XReg) (s : State) : Out :=
  slotDo h (.chcfg h n xA) s fun c s =>
    let k := s.core c
    let a := (k.rx xA).toNat
    let x := { (Tbl.getD k.chans n.val Chan.blank) with pend := true }
    let s1 := s.updCore c fun k => { k with chans := Tbl.set k.chans n.val x }
    (s1.push c (k.posAt h.slot.val) (s.bundleAddr c) (.chcfg n.val (a % 128)) [loadLine (alignLine a)] [] none false).pump c

/-- Phase tag a member puts on what it sends for a barrier: P xor A (09 R151). -/
def Core.tagOf (k : Core) (now b : Nat) : Bool := (k.tags now).contains b

/-- CHSND: tile tS, read now, travels to slot PP of the consumer's ring (21 R371, R372). -/
def execChsnd (h : Hdr) (n : CReg) (tS : TReg) (s : State) : Out :=
  slotDo h (.chsnd h n tS) s fun c s =>
    let k := s.core c
    match k.chan n.val with
    | none => s
    | some x =>
      let d := k.desc tS.val
      let l := (k.shape tS.val).lines
      let img := k.tileImg tS.val l
      let tag := match x.bar with
        | some b => k.tagOf s.now b
        | none => false
      match s.chTarget c x with
      | none => s
      | some (none, r) =>
        let goal := (s.membersOf c).getD r 0
        let t := (if goal / 8 = c / 8 then 20 else 48) + ceilDiv l 2
        (s.after t (.channelLanding (s.gidOf c) (fin64 goal) c n x.pp d.1 tag img)).readTile c 0 tS.val (ceilDiv l 2) (some (n.val, s.now + t))
      | some (some p, r) =>
        let to_ := (p, r, n.val, x.pp)
        let s1 := s.push c (k.posAt h.slot.val) (s.bundleAddr c) (.chsend to_ d.1 img 0) [] [] none false
        ((s1.updCore c fun k => k.updOp s.nextId fun o => { o with tags := if tag then [1] else [] }).pump c).readTile c s.nextId tS.val (ceilDiv l 2)
          (some (n.val, 0))

/-- A credit travels to the sender of a slot (21 R373). -/
def State.creditBack (s : State) (c n sender : Nat) : State :=
  if sender < 64 then s.after (if sender / 8 = c / 8 then 16 else 40) (.channelCredit false (s.gidOf c) (fin64 sender) (fin64 n))
  else (s.sendPeer (c / 8) 3 (sender / 64 - 1) (s.spanTag c) [] (.credit (sender % 64) n)).1

/-- CHADV (21 R373). -/
def execChadv (h : Hdr) (n : CReg) (cons : Bool) (s : State) : Out :=
  slotDo h (.chadv h n cons) s fun c s =>
    let k := s.core c
    match k.chan n.val with
    | none => s
    | some x =>
      if cons then
        if s.consumes c x then
          let s1 := s.updCore c fun k => k.updChan n.val fun x =>
            { x with slots := x.slots.set x.cp (0, x.cur.2.1, x.cur.2.2), cp := (x.cp + 1) % max x.nslot 1 }
          s1.creditBack c n.val x.cur.2.2
        else s
      else if (s.chTarget c x).isNone then s
      else s.updCore c fun k => k.updChan n.val fun x => { x with pp := (x.pp + 1) % max x.nslot 1, cred := x.cred - 1 }

/-- The word CHST returns (21 R374). -/
def Core.chStatus (k : Core) (n : Nat) : Word := match k.chan n with
  | none => 0
  | some x =>
    let used := (x.slots.filter fun e => e.1 != 0).length
    let full := (x.slots.filter fun e => e.1 == 2).length
    BitVec.ofNat 64 ((!x.pend).toNat * 2 ^ 63 + used % 128 * 2 ^ 32 + full % 128 * 2 ^ 24 + x.cp % 64 * 2 ^ 16 + x.pp % 64 * 2 ^ 8 + x.cred % 128)

/-- CHST (21 R374). -/
def execChst (h : Hdr) (xD : XReg) (n : CReg) (s : State) : Out :=
  slotDo h (.chst h xD n) s fun c s => s.due c h.slot.val 2 (.x xD.val ((s.core c).chStatus n.val))

/-! ### Requests -/

/-- A request of slot f: a device release, then the request; its status or reply in xD (21 R367). -/
def State.fabricAsk (s : State) (c slot : Nat) (r : Req) (reply : Bool) (x : Nat) : State :=
  (s.fenceAt c slot .rel .device).ask c slot r 12 (some x) (if reply then 40 else 24)

/-- The register after xB of a pair (21 R367). -/
def Core.pair (k : Core) (xB : XReg) : Word := k.rxn ((xB.val + 1) % 64)

/-- VRCFG (21 R376; 12 R192). -/
def execVrcfg (h : Hdr) (xD xA xB : XReg) (s : State) : Out :=
  slotDo h (.vrcfg h xD xA xB) s fun c s =>
    let k := s.core c
    s.fabricAsk c h.slot.val (.vr 5 (k.rx xA) (k.rx xB) 0) false xD.val

/-- VRRTE (21 R376; 12 R196). -/
def execVrrte (h : Hdr) (xD xA xB : XReg) (s : State) : Out :=
  slotDo h (.vrrte h xD xA xB) s fun c s =>
    let k := s.core c
    s.fabricAsk c h.slot.val (.vr 6 (k.rx xA) (k.rx xB) 0) false xD.val

/-- VRSCT (21 R376; 12 R200): the requesting core's phase tag goes with it (09 R443). -/
def execVrsct (h : Hdr) (xD xA xB : XReg) (s : State) : Out :=
  slotDo h (.vrsct h xD xA xB) s fun c s =>
    let k := s.core c
    s.fabricAsk c h.slot.val (.vr 7 (k.rx xA) (k.rx xB) 0) false xD.val

/-- VRCMB (21 R376; 12 R201). -/
def execVrcmb (h : Hdr) (xD xA xB : XReg) (s : State) : Out :=
  slotDo h (.vrcmb h xD xA xB) s fun c s =>
    let k := s.core c
    s.fabricAsk c h.slot.val (.vr 8 (k.rx xA) (k.rx xB) (k.pair xB)) false xD.val

/-- VRCNT: xD as it stood gives the expert of selectors 7 and 8 (21 R376; 12 R204). -/
def execVrcnt (h : Hdr) (xD xA : XReg) (sel : Fin 16) (s : State) : Out :=
  slotDo h (.vrcnt h xD xA sel) s fun c s =>
    let k := s.core c
    s.fabricAsk c h.slot.val (.vrcnt (k.rx xA) sel.val (k.rx xD)) true xD.val

/-- PLDEF (21 R377). -/
def execPldef (h : Hdr) (xD xA xB : XReg) (s : State) : Out :=
  slotDo h (.pldef h xD xA xB) s fun c s =>
    let k := s.core c
    s.fabricAsk c h.slot.val (.pldef (k.rx xA) (k.rx xB)) true xD.val

/-- PLCNV (21 R378). -/
def execPlcnv (h : Hdr) (xD xA xB : XReg) (s : State) : Out :=
  slotDo h (.plcnv h xD xA xB) s fun c s =>
    let k := s.core c
    s.fabricAsk c h.slot.val (.plcnv (k.rx xA) (k.rx xB)) true xD.val

/-- PLQRY (21 R379). -/
def execPlqry (h : Hdr) (xD xA : XReg) (sel : Fin 16) (s : State) : Out :=
  slotDo h (.plqry h xD xA sel) s fun c s => s.fabricAsk c h.slot.val (.plqry ((s.core c).rx xA) sel.val) true xD.val

/-- SLBXL (21 R380). -/
def execSlbxl (h : Hdr) (xD xA xB : XReg) (s : State) : Out :=
  slotDo h (.slbxl h xD xA xB) s fun c s =>
    let k := s.core c
    s.fabricAsk c h.slot.val (.slbxl (k.rx xA) (k.rx xB) (k.pair xB) 0) true xD.val

/-- SLBGR (21 R381). -/
def execSlbgr (h : Hdr) (xD xA xB : XReg) (s : State) : Out :=
  slotDo h (.slbgr h xD xA xB) s fun c s =>
    let k := s.core c
    s.fabricAsk c h.slot.val (.slbgr (k.rx xA) (k.rx xB)) false xD.val

/-- EXACQ, with CLAYER and NLAYER as they stand (21 R382; 10 R177). -/
def execExacq (h : Hdr) (xD xA xB : XReg) (s : State) : Out :=
  slotDo h (.exacq h xD xA xB) s fun c s =>
    let k := s.core c
    s.fabricAsk c h.slot.val (.exacq (k.rx xA) (k.rx xB) k.clayer k.nlayer) true xD.val

/-- EXREL (21 R383). -/
def execExrel (h : Hdr) (xD xA : XReg) (s : State) : Out :=
  slotDo h (.exrel h xD xA) s fun c s => s.fabricAsk c h.slot.val (.exrel ((s.core c).rx xA)) true xD.val

/-- TICK (21 R384). -/
def execTick (h : Hdr) (xD : XReg) (s : State) : Out :=
  slotDo h (.tick h xD) s fun c s => s.due c h.slot.val 8 (.x xD.val (BitVec.ofNat 64 s.ftick))

end Sys2Proof.Machine
end

