-- ==== Sys2Proof/Machine/Channel.lean ====
section
/-! DEFINITION. Channel entries, landings and credits (21 R368 to R373). -/

namespace Sys2Proof.Machine
open Sys2Proof.Bits

/-- A channel entry of four words, for a part of `size` members (21 R368); none when it is malformed. -/
def chanOf (ws : List Word) (npkg size : Nat) (peers : List Nat) : Option Chan :=
  let w := wnth ws 0
  let n := get w 13 8 + 1
  let l := get w 7 0 + 1
  let base := get (wnth ws 1) 15 0
  if get w 49 48 ≠ 0 ∨ get w 35 30 ≠ 0 ∨ get w 22 14 ≠ 0 ∨ get (wnth ws 1) 63 16 ≠ 0 ∨ wnth ws 2 ≠ 0 ∨ wnth ws 3 ≠ 0 then none
  else if 49152 < base + n * l then none
  else if bit w 62 = false ∧ size ≤ get w 47 36 then none
  else if bit w 63 ∧ (npkg = 0 ∨ peers.contains (get w 61 50) = false) then none
  else some
    { conf := true, pend := false, x := bit w 63, rel := bit w 62, pkg := get w 61 50, rank := get w 47 36,
      bar := if bit w 23 then some (get w 29 24) else none, nslot := n, lines := l, rbase := base, pp := 0, cred := n, cp := 0,
      slots := List.replicate n (0, 0, 0) }

/-- The words of 32 bytes. -/
def words4 (bs : List Byte) : List Word := (List.range 4).map fun i => wordAt bs i

/-- CHCFG_ENTRY_ARRIVAL: the entry replaces the old one, or raises SHAPE (21 R370). -/
def execChcfgEntryArrival (core : Fin 64) (n : CReg) (s : State) : Out :=
  let c := core.val
  let mine := fun (o : MemOp) => match o.kind with
    | .chcfg m _ => m == n.val && !o.unperformed
    | _ => false
  match (s.core c).memq.find? mine, s.grpOf c with
  | some o, some g =>
    let off := match o.kind with
      | .chcfg _ a => a
      | _ => 0
    let bs := match o.lines.head? with
      | some l => slice l.data off 32
      | none => []
    let s1 := s.updCore c fun k => k.dropOp o.id
    match ((s.grp g).run).bind fun r => chanOf (words4 bs) r.npkg r.members.length r.peers with
    | some x => .next (((s1.updCore c fun k => { k with chans := Tbl.set k.chans n.val x }).ended c).pump c)
    | none =>
      let s2 := s1.updCore c fun k => k.updChan n.val fun x => { x with pend := false }
      .next (if (s.grp g).state ≤ 3 then s2.endGroup g 2 trSHAPE (gtrapWord o.addr (o.pos % 8)) false else s2.ended c)
  | _, _ => .next s

/-- CHANNEL_LANDING: the slot fills, or the group takes CHOVR (21 R372). -/
def execChannelLanding (gid : BitVec 16) (consumer : Fin 64) (sender : Nat) (n : CReg) (slot : Nat) (shape : Word) (tag : Bool)
    (bytes : List Byte) (s : State) : Out :=
  .next (s.message (decide (64 ≤ sender)) gid (.channelLanding gid consumer sender n slot shape tag bytes) fun g s =>
    let c := consumer.val
    match (s.core c).chan n.val, (s.grp g).run with
    | some x, some r =>
      if x.nslot ≤ slot then s
      else if (x.slots.getD slot (0, 0, 0)).1 ≠ 0 then s.endGroup g 2 trCHOVR 0 false
      else
        let s1 := { s with mem := s.mem.write (scrKey c (128 * (x.rbase + slot * x.lines))) (bytes.take (128 * x.lines)) }
        let s2 := s1.updCore c fun k => k.updChan n.val fun x => { x with slots := x.slots.set slot (2, shape, sender) }
        match x.bar with
        | some b => s2.barLand g b (r.instOf c b) tag bytes.length
        | none => s2
    | _, _ => s)

/-- CHANNEL_CREDIT (21 R373). -/
def execChannelCredit (peer : Bool) (gid : BitVec 16) (core : Fin 64) (n : CReg) (s : State) : Out :=
  .next (s.message peer gid (.channelCredit peer gid core n) fun _ s =>
    s.updCore core.val fun k => k.updChan n.val fun x => { x with cred := x.cred + 1 })

end Sys2Proof.Machine
end

