-- ==== Sys2Proof/Machine/Save.lean ====
section
/-! DEFINITION. The save slot of a core: what a save writes and what a restore reads back (05 R111 to R115; 16 R263). -/

namespace Sys2Proof.Machine
open Sys2Proof.Bits

/-! ### What is held -/

/-- A pending result as entries (05 R111, 07 R133): the entries, and `x60` as it will then stand. -/
def Pend.entries (p : Pend) (lcyc : Nat) (x60 : Word) : List ShEnt × Word :=
  let e := fun (kind target : Nat) (v : Word) => (⟨kind, target, 0, 0, p.due - lcyc, wordLE v, p.pos, p.addr, 0, 0, p.evs⟩ : ShEnt)
  match p.w with
  | .x r v => if r = 0 then ([], x60) else ([e 1 r v], if r = 60 then v else x60)
  | .p r v => if r = 0 ∨ 12 ≤ r then ([], x60) else ([e 2 r (BitVec.ofNat 64 v.toNat)], x60)
  | .o r v => ([e 3 r v], x60)
  | .ver h v => ([e 7 h (BitVec.ofNat 64 v)], x60)
  | .ntile v ok => ([e 1 61 x60, { e 1 60 v with codes := [] }, { e 2 11 (BitVec.ofNat 64 ok.toNat) with codes := [] }], v)
  | _ => ([], x60)

/-- A load of landing code 1 to 7 that has arrived is written into the TRF; its lines are held as landing (05 R111). -/
def Core.landHeld (k : Core) (p : Pend) (id : Nat) : Core × List ShEnt :=
  let mine := (k.lines.filter fun e => e.2.op == some id).map (·.1)
  let old := k.pend.length
  let k1 := k.landOp id
  let k2 := { k1 with pend := k1.pend.mapIdx fun i q => if i < old then q else { q with due := p.due } }
  match mine with
  | [] => (k2, [])
  | n :: _ => (k2, [⟨5, 0, n, mine.length, p.due - k.lcyc, [], p.pos, p.addr, 0, 0, p.evs⟩])

/-- Results held at a save, and the core without them (05 R111); what waits for an operation still to be re-issued stays (21 R367).
Writes that no entry can hold take effect at the next bundle and
are made now. -/
def Core.holdAll (k : Core) : Core × List ShEnt :=
  let ps := k.pend.foldl (fun l p => insertPend p l) []
  let lands := ps.foldl (fun (a : Core × List ShEnt) p => match p.w with
    | .land id => if p.arrived then
        let r := a.1.landHeld p id
        (r.1, a.2 ++ r.2) else a
    | _ => a) (k, [])
  let k1 := lands.1
  let qs := (k1.pend.filter (·.arrived)).foldl (fun l p => insertPend p l) []
  let held := qs.foldl (fun (a : List ShEnt × Word) p =>
    let r := p.entries k.lcyc a.2
    (a.1 ++ r.1, r.2)) ([], k.rxn 60)
  let now := qs.filter fun p => match p.w with
    | .x _ _ | .p _ _ | .o _ _ | .ver _ _ | .ntile _ _ | .land _ => false
    | _ => true
  let k2 := now.foldl Core.applyPend { k1 with pend := k1.pend.filter fun p => !p.arrived }
  (k2, lands.2 ++ held.1 ++ (k.hold.getD []))

/-! ### The bytes of a slot -/

/-- Size of a save slot (05 R115). -/
def slotSize : Nat := 0x55_0000

/-- Address of the slot of core `c` in the save area of a context. -/
def State.slotAt (s : State) (x c : Nat) : Nat := (s.ctx x).save * 2 ^ 21 + c * slotSize

/-- Entries that the buffer stores: those of kinds 1 to 7. -/
def stored (es : List ShEnt) : List ShEnt := es.filter fun e => e.kind != 0

/-- Shadow result data: the bytes of kind-4 entries, one after another. -/
def shadowData (es : List ShEnt) : List Byte := es.flatMap fun e => if e.kind = 4 then e.data else []

/-- The entries as they lie in the slot (05 Table 5.6). -/
def shadowBytes (es : List ShEnt) : List Byte :=
  (es.foldl (fun (a : List Byte × Nat) e =>
    let ws := [BitVec.ofNat 64 (e.count % 2 ^ 16 * 2 ^ 32 + e.first % 2 ^ 16 * 2 ^ 16 + e.target % 128 * 16 + e.kind % 16),
               BitVec.ofNat 64 e.off, if e.kind = 4 then BitVec.ofNat 64 a.2 else leWord e.data, felaWord e.addr (e.pos % 8)]
    (a.1 ++ wordsLE ws, if e.kind = 4 then a.2 + e.data.length else a.2)) ([], 0)).1

/-- Lines an entry keeps empty. -/
def ShEnt.covers (e : ShEnt) (n : Nat) : Bool := (e.kind == 4 || e.kind == 5) && decide (e.first ≤ n ∧ n < e.first + e.count)

/-- A line is full in the saved image. -/
def Core.savedFull (k : Core) (es : List ShEnt) (n : Nat) : Bool := (Tbl.get k.lines n).isNone && !es.any fun e => e.covers n

/-- Full/empty bits, one per line. -/
def Core.fullBits (k : Core) (es : List ShEnt) : List Byte :=
  (List.range 4096).map fun i => (List.range 8).foldl (fun (b : Byte) j => if k.savedFull es (8 * i + j) then b ||| BitVec.ofNat 8 (2 ^ j) else b) 0

/-- A loop-level word (16 Table 16.4). -/
def LoopL.word (l : LoopL) : Word :=
  BitVec.ofNat 64 (2 ^ 63 + l.l.toNat * 2 ^ 62 + l.p.toNat * 2 ^ 61 + l.index % 2 ^ 20 * 2 ^ 41 + l.count % 2 ^ 20 * 2 ^ 21 +
    l.start % 2 ^ 13 * 2 ^ 8 + l.lenM1 % 256)

/-- The level a word holds, if it is open. -/
def loopOf (w : Word) : Option LoopL :=
  if bit w 63 then some ⟨bit w 62, bit w 61, get w 60 41, get w 40 21, get w 20 8, get w 7 0⟩ else none

/-- The position of a course (16 R263): next bundle, pending target, loop stack (innermost first). -/
structure Posn where
  pc    : Nat
  tgt   : Option Nat
  stack : List LoopL
  deriving DecidableEq, Repr

/-- The position of a group: the oldest bundle a member has not issued, else the sequencer's next. -/
def State.posn (s : State) (r : Run) : Posn :=
  let heads := r.members.filterMap fun m => match (s.core m).skid with
    | e :: rest => some (e, rest)
    | [] => none
  match heads with
  | [] => ⟨r.sq.pc, r.sq.tgt, r.sq.stack⟩
  | h :: hs =>
    let low := hs.foldl (fun a b => if b.1.seqno < a.1.seqno then b else a) h
    ⟨low.1.pc, if low.1.delay then some ((low.2.head?.map (·.pc)).getD r.sq.pc) else none, low.1.stack⟩

/-- The program-counter word and six loop levels (05 Table 5.5). -/
def Posn.words (p : Posn) : List Word :=
  let w0 := match p.tgt with
    | some t => BitVec.ofNat 64 (2 ^ 63 + t % 2 ^ 13 * 2 ^ 16 + p.pc % 2 ^ 13)
    | none => BitVec.ofNat 64 (p.pc % 2 ^ 13)
  let levels := p.stack.reverse
  w0 :: (List.range 6).map fun i => (levels[i]?.map LoopL.word).getD 0

/-- The position that words name. -/
def posnOf (ws : List Word) : Posn :=
  let w0 := wnth ws 0
  ⟨get w0 12 0, if bit w0 63 then some (get w0 28 16) else none, ((List.range 6).filterMap fun i => loopOf (wnth ws (i + 1))).reverse⟩

/-- The parts of a save slot: offset and bytes (05 Table 5.5). -/
def Core.slotParts (k : Core) (c : Nat) (es : List ShEnt) (p : Posn) (stage : List Byte) : List (Nat × List Byte) :=
  let st := (stored es).take 512
  [ (0, k.trf.read 0 0x40_0000),
    (0x40_0000, (List.range 4).flatMap fun a => (List.range 65536).flatMap fun i => natLE 4 (Tbl.getD k.acc (a * 65536 + i) 0)),
    (0x50_0000, padTo 0x4_0000 (shadowData st)),
    (0x54_0000, k.fullBits es),
    (0x54_1000, padTo 16384 (shadowBytes st)),
    (0x54_5000, (List.range 64).flatMap fun i => wordLE (k.rxn i)),
    (0x54_5200, padTo 64 ((List.range 16).map fun i => BitVec.ofNat 8 (k.rpUnder c p.stack ⟨i % 16, Nat.mod_lt _ (by decide)⟩).toNat)),
    (0x54_5240, k.o.toList.flatMap wordLE),
    (0x54_52C0, k.stride.toList.flatMap wordLE),
    (0x54_55C0, padTo 64 (p.words.flatMap wordLE)),
    (0x54_5600, List.replicate 2560 0),
    (0x54_6000, (List.range 128).flatMap fun t => wordLE (k.desc t).1 ++ wordLE (k.desc t).2),
    (0x54_6800, (List.range 64).flatMap fun h => padTo 64 (wordsLE (k.hwords h))),
    (0x54_7800, (List.range 1024).flatMap fun n => wordLE (k.rspr c n)),
    (0x54_9800, padTo 0x6800 stage) ]

/-! ### Reading a slot -/

/-- Bytes of a slot in memory. -/
def State.slotRead (s : State) (x c off n : Nat) : List Byte := s.mem.read (s.slotAt x c + off) n

/-- Words of a slot in memory. -/
def State.slotWords (s : State) (x c off n : Nat) : List Word := (List.range n).map fun i => leWord (s.slotRead x c (off + 8 * i) 8)

/-- Registers and tiles that a slot holds, over what the front end kept (05 R113). -/
def State.slotCore (s : State) (x c : Nat) (k : Core) : Core :=
  let xs := s.slotWords x c 0x54_5000 64
  let ps := s.slotRead x c 0x54_5200 16
  let os := s.slotWords x c 0x54_5240 16
  let ss := s.slotWords x c 0x54_52C0 96
  let sp := fun (n : Nat) => leWord (s.slotRead x c (0x54_7800 + 8 * n) 8)
  let full := s.slotRead x c 0x54_0000 4096
  let empty := (List.range 32768).filter fun n => !(full.getD (n / 8) 0).getLsbD (n % 8)
  { k with
    x := Vector.ofFn fun i => xs.getD i 0, p := Vector.ofFn fun i => (ps.getD i 0).getLsbD 0, o := Vector.ofFn fun i => os.getD i 0,
    stride := Vector.ofFn fun i => ss.getD i 0,
    h := (List.range 64).map fun h => (h, s.slotWords x c (0x54_6800 + 64 * h) 8),
    shapes := (List.range 128).map fun t => (t, leWord (s.slotRead x c (0x54_6000 + 16 * t) 8), leWord (s.slotRead x c (0x54_6008 + 16 * t) 8)),
    trf := Mem.write [] 0 (s.slotRead x c 0 0x40_0000),
    acc := (List.range 262144).filterMap fun i =>
      let v := leNat (s.slotRead x c (0x40_0000 + 4 * i) 4)
      if v = 0 then none else some (i, v),
    lines := empty.map fun n => (n, (Tbl.get k.lines n).getD ⟨none, none⟩),
    lcyc := (sp 0x003).toNat, dsel := get (sp 0x004) 7 0, csel := get (sp 0x005) 7 0, fela := sp 0x008, fels := sp 0x009,
    numv := bit (sp 0x00A) 0, rbnd := get (sp 0x00B) 15 0, clayer := get (sp 0x00C) 15 0, nlayer := get (sp 0x00D) 15 0,
    fmtb := get (sp 0x00E) 5 0, seed := BitVec.ofNat 32 (get (sp 0x00F) 31 0), ld := Vector.ofFn fun i => if i.val = 0 then 1 else get (sp (0x010 + i)) 9 0,
    halo := get (sp 0x018) 15 0, flags := BitVec.ofNat 32 (get (sp 0x020) 31 0), mcopr := sp 0x021 }

/-- One entry of the shadow result buffer goes back to its core: pending register writes, landings, and results that count in
cycles (05 R113). `old` is the entry as the front end kept it, for its events and position. -/
def Core.replayEnt (k : Core) (id : Nat) (ws : List Word) (data : List Byte) (old : Option ShEnt) : Core :=
  let w := wnth ws 0
  let off := (wnth ws 1).toNat
  let v := wnth ws 2
  let t := get w 10 4
  let first := get w 31 16
  let n := get w 47 32
  let pos := (old.map (·.pos)).getD (8 * k.lcyc + get (wnth ws 3) 2 0)
  let addr := get (wnth ws 3) 51 5 * 32
  let codes := (old.map (·.codes)).getD []
  let due := fun (p : PWrite) => { k with pend := k.pend ++ [⟨k.lcyc + off, pos, addr, p, true, id, codes⟩] }
  let mine := fun (land : Option Nat) => { k with
    lines := k.lines.map fun (e : Nat × LineSt) => if first ≤ e.1 ∧ e.1 < first + n then (e.1, ⟨land, some id⟩) else e,
    writers := k.writers ++ [(first / 256, id)] }
  match get w 3 0 with
  | 1 => due (.x (t % 64) v)
  | 2 => due (.p (t % 16) (bit v 0))
  | 3 => due (.o (t % 16) v)
  | 4 =>
    let j : Job := ⟨id, pos, addr, 0, .shadow off, [(first / 256, first % 256, slice data v.toNat (128 * n))], (0, 0)⟩
    { (mine none) with jobs := k.jobs ++ [j] }
  | 5 =>
    let q : Pend := ⟨k.lcyc + off, pos, addr, .full id, true, id, codes⟩
    { (mine (some (k.lcyc + off))) with pend := k.pend ++ [q] }
  | 6 =>
    let j : Job := ⟨id, pos, addr, 0, .shadow off, [], (0, 0)⟩
    { k with writers := k.writers ++ [(128 + t % 4, id)], jobs := k.jobs ++ [j] }
  | 7 => due (.ver (t % 64) (get v 31 0))
  | _ => k

/-- Events that wait for their replay alone. -/
def Core.replayEvs (k : Core) (id : Nat) (e : ShEnt) : Core :=
  { k with jobs := k.jobs ++ [⟨id, e.pos, e.addr, 0, .shadow e.off, [], (e.mask, e.code)⟩] }

/-- A core as a slot and the front end give it back. -/
def State.readBack (s : State) (x c : Nat) (k : Core) : State × Core :=
  let es := k.hold.getD []
  let k0 := { (s.slotCore x c k) with hold := none }
  let data := s.slotRead x c 0x50_0000 0x4_0000
  let st := stored es
  let r := (List.range 512).foldl (fun (a : State × Core) i =>
    let ws := s.slotWords x c (0x54_1000 + 32 * i) 4
    if get (wnth ws 0) 3 0 = 0 then a else (a.1.bump, a.2.replayEnt a.1.nextId ws data st[i]?)) (s, k0)
  (es.filter fun e => e.kind == 0).foldl (fun (a : State × Core) e => (a.1.bump, a.2.replayEvs a.1.nextId e)) r

end Sys2Proof.Machine
end

