-- ==== Sys2Proof/Machine/Group.lean ====
section
/-! DEFINITION. Groups from their launch to their end: set-up, broadcast and issue, saves and restores, draining and
quarantine (05 R110 to R113; 07 R128, R131, R135 to R137; 08). -/

namespace Sys2Proof.Machine
open Sys2Proof.Bits

/-! ### Set-up and start -/

/-- A domain register (14 Table 14.4). -/
def domWord (rank size id : Nat) : Word := BitVec.ofNat 64 (rank % 4096 * 2 ^ 48 + (size - 1) % 4096 * 2 ^ 32 + id % 2 ^ 16)

/-- `DOM0` to `DOM3` of a member (14 R229). -/
def State.domsOf (s : State) (g : Nat) (r : Run) (c : Nat) : List Word :=
  let mates := r.members.filter fun m => m / 8 == c / 8
  [domWord 0 1 c, domWord ((indexIn c mates).getD 0) mates.length (c / 8), domWord ((indexIn c r.members).getD 0) r.members.length g,
   if r.npkg = 0 then 0 else domWord ((indexIn s.regs.pkrank r.peers).getD 0) r.npkg r.sptag]

/-- `GID` (08 Table 8.1). -/
def State.gidWord (s : State) (g seq : Nat) : Nat := seq % 8 * 2 ^ 19 + (s.gid16 g).toNat

/-- A mask with a 1 for each number of a list. -/
def maskOf (l : List Nat) : Nat := l.foldl (fun m n => m ||| 2 ^ n) 0

/-- A member as it starts (07 R128; 05 R117): tiles and accumulators stay when the context is the one the core last ran. -/
def State.freshCore (s : State) (g : Nat) (r : Run) (c : Nat) : Core :=
  let k := s.core c
  let same := k.lastCtx == some r.ctx
  { Core.reset c with
    trf := if same then k.trf else [], acc := if same then k.acc else [], gid := s.gidWord g r.seq,
    ld := Vector.ofFn fun i => if i.val = 0 then 1 else r.lds.getD (i - 1) 1, fmtb := r.fmtb,
    fmtTab := r.fmts.mapIdx fun i w => (i, w), dom := s.domsOf g r c, dsel := maskOf (r.members.map (· / 8)),
    csel := maskOf (r.members.map (· % 8)), group := some g, lastCtx := some r.ctx, utlb := k.utlb,
    chans := (r.chs.mapIdx fun i ws => (i, chanOf ws r.npkg r.members.length r.peers)).filterMap fun e => e.2.map fun x => (e.1, x) }

/-- A group that comes to run with a fenced member stops (29 R419; DEDUCED, log 25: the fence met it while it was LOADING). -/
def State.shunFenced (s : State) (g : Nat) : State := match (s.grp g).run with
  | some r => if r.members.any s.fenced.contains then s.stopGroup g 6 0 else s
  | none => s

/-- Members are set up, their dies merge what the launch waited on, and the group RUNs (07 R128, 04 R90). -/
def State.beginRun (s : State) (g : Nat) : State := match (s.grp g).run with
  | none => s
  | some r =>
    let s1 := r.members.foldl (fun (s : State) c => (s.setCore c (s.freshCore g r c)).mergeVec c r.stamp) s
    (((s1.updRun g fun r => { r with started := true }).updGrp g fun x => { x with state := 2 }).soon .frontEndStart).shunFenced g

/-- LATE, with the tag, to every other rank of the course (07 R135). -/
def State.sendLate (s : State) (r : Run) : State :=
  s.sendPeers 16 6 r.sptag [] .late (r.peers.filter (· ≠ s.regs.pkrank))

/-- The package is late: it tells its peers and aborts its part (07 R135, R136). -/
def State.isLate (s : State) (g : Nat) : State := match (s.grp g).run with
  | none => s
  | some r => ((s.sendLate r).updRun g fun r => { r with late := 1 }).stopGroup g 4 0

/-- The link the fabric tick follows, if any (11 R189). -/
def State.upstream (s : State) : Option Nat := if bit s.regs.tkcfg 6 then none else some (get s.regs.tkcfg 5 0)

/-- The package is a tick root, or its tick is locked; otherwise its TICKSTARTs are late (11 R189). -/
def State.tickLocked (s : State) : Bool := match s.upstream with
  | none => true
  | some l => (s.link l).tlock

/-- LAUNCH_READY: allocation, copies and image are done (07 R131). A LAUNCH issues its first bundle in the next cycle; a TICKSTART
waits for its tick (R135). -/
def execLaunchReady (no : GroupNo) (s : State) : Out :=
  let g := no.g
  let x := s.grp g.val
  match x.run with
  | none => .next s
  | some r =>
    if x.state ≠ 1 ∨ x.gen ≠ no.gen ∨ r.ready ∨ r.started ∨ r.saved.isEmpty = false then .next s
    else
      let s1 := s.updRun g.val fun r => { r with ready := true }
      match r.tick with
      | none => .next (s1.beginRun g.val)
      | some t => .next (if t ≤ s.ftick then s1.isLate g.val else s1)

/-- START_TICK: the tick is watched from the allocation on; when it reaches S the part issues its first bundle, or is late (07
R135). -/
def execStartTick (g : Fin 1024) (s : State) : Out :=
  let x := s.grp g.val
  match x.run with
  | none => .next s
  | some r => match r.tick with
    | none => .next s
    | some t =>
      if x.state ≠ 1 ∨ r.started then .next s
      else if s.ftick < t then .next (s.after 1 (.startTick g))
      else if r.ready && s.tickLocked then
        let s1 := (s.beginRun g.val).soon (.sequencerBroadcast g)
        .next (r.members.foldl (fun (s : State) c => s.soon (.bundleIssue (fin64 c))) s1)
      else .next (s.isLate g.val)

/-- LATE from a peer: the part with the tag, if any, is aborted (07 R136). -/
def State.lateArrives (s : State) (sptag : BitVec 16) : State :=
  let mine := fun (e : Nat × Grp) => match e.2.run with
    | some r => r.npkg != 0 && r.sptag == sptag.toNat && decide (e.2.state ≤ 4)
    | none => false
  match s.grps.find? mine with
  | some e => (s.updRun e.1 fun r => { r with late := if r.late = 0 then 2 else r.late }).stopGroup e.1 4 0
  | none => s

/-- LATE (07 R136). -/
def execLate (sptag : BitVec 16) (s : State) : Out := .next (s.lateArrives sptag)

/-! ### Saving -/

/-- What a member waits on at the head of its queue is withdrawn; it is asked again after the restore (08 R143, 09 R160). -/
def State.dropWaits (s : State) (c : Nat) : State :=
  let mine := fun (m : Mon) => m.core == c
  let s1 := s.updRidge fun r => { r with semw := r.semw.filter fun w => w.core != c, mons := r.mons.filter fun m => !mine m }
  let s2 := (List.range 8).foldl (fun (s : State) d => s.updDie d fun x => { x with mons := x.mons.filter fun m => !mine m }) s1
  s2.updCore c fun k => { k with
    memq := k.memq.filter fun o => match o.kind with
      | .waita _ _ _ => false
      | _ => true,
    waitT := match k.waitT with
      | some (l, 0) => some (l, 0)
      | _ => none }

/-- Stride sums and layer steps that wait for the bundle behind a pre-emption point are made; a write of an offset register due for that
bundle takes the sum too (16 R267). -/
def Core.sumsNow (k : Core) (adj : List (Nat × Int)) (layers : Nat) : Core :=
  let more := fun (r : Nat) (v : Word) => adj.foldl (fun a e => a + ofInt (sgn (k.strideOf r e.1) * e.2)) v
  let up := fun (p : Pend) => match p.w with
    | .o r v => if p.due ≤ k.lcyc then { p with w := PWrite.o r (more r v) } else p
    | _ => p
  let k1 := k.applyAdj adj
  (List.range layers).foldl (fun (k : Core) _ => k.layerStep) { k1 with pend := k1.pend.map up }

/-- A save begins: `why` 1 for a park, 2 at a pre-emption point (05 R111, R112; 16 R279; 03 R75). -/
def State.startSave (s : State) (g why : Nat) : State := match (s.grp g).run with
  | none => s
  | some r =>
    let one := fun (s : State) (c : Nat) =>
      let s1 := if (s.core c).spec.isSome then (s.performHeld c).updCore c fun k => { k with spec := none, specFull := none } else s
      (s1.dropWaits c).updCore c fun k =>
        let k1 := if why = 2 && !k.exited then k.sumsNow r.sq.adj r.sq.layers else k
        { k1 with hold := some [], frozen := false }
    let s1 := r.members.foldl one s
    let cut := fun (e : Nat × Piece) => if r.members.contains e.2.core && e.2.st == 0 && !e.2.taken then (e.1, { e.2 with st := 5 }) else e
    let s2 := s1.updRidge fun x => { x with pieces := x.pieces.map cut }
    s2.updRun g fun r =>
      let sq := if why = 2 then { r.sq with adj := [], layers := 0 } else r.sq
      { r with saving := why, savedAt := 0, sq := sq }

/-- A job that cannot run: it waits for an accumulator that an operation left for the restore still writes. -/
def Core.jobStuck (k : Core) (j : Job) : Bool :=
  j.done == 0 && (match j.kind with
    | .mout acc _ _ _ _ => k.writers.any fun w => w.1 == 128 + acc && k.memq.any fun o => o.id == w.2
    | .mfeed acc _ _ _ _ => k.writers.any fun w => w.1 == 128 + acc && k.memq.any fun o => o.id == w.2
    | _ => false)

/-- Nothing of a member is under way that a save lets complete (05 R111). -/
def State.saveQuiet (s : State) (c : Nat) : Bool :=
  let k := s.core c
  let moving := fun (o : MemOp) => (o.lines.any fun l => l.st == .flight || l.st == .walk) || (match o.kind with
    | .req (.tlbi _ _ _) _ => o.left
    | .req (.sem _ _ _ _ _) _ => o.left
    | .pstore _ _ => o.left && !o.fq
    | .fence _ _ stage => stage != 0
    | .chsend _ _ _ _ => !o.left && !o.fq
    | _ => false)
  let placedFlight := fun (o : MemOp) => o.plKind.isSome
  let coming := fun (i : Instr) => match i with
    | .replyArrival d _ => d.val == c
    | .loadLanding d _ => d.val == c
    | .chcfgEntryArrival d _ => d.val == c
    | _ => false
  k.jobs.all k.jobStuck && k.mma.isEmpty && k.pipeV.isEmpty && k.pipeQ.isEmpty &&
    (k.pend.all fun p => p.arrived || (k.memq.any fun o => o.id == p.id) || (match p.w with
      | .land _ => true
      | _ => false)) &&
    !(k.memq.any fun o => !placedFlight o && moving o) &&
    !(s.ridge.pieces.any fun p => p.2.core == c && p.2.taken) &&
    !(s.agenda.any fun e => coming e.2)

/-- Lines that a die drained before its release have not all been acknowledged. -/
def State.acksOut (s : State) (d at_ : Nat) : Bool := (s.die d).wcb.any fun w => w.sent.isSome && decide (w.since < at_)

/-- A save under way: when its members are quiet the dies release; when that is acknowledged the save completes (05 R111). -/
def State.saveStep (s : State) (g : Nat) (r : Run) : State :=
  if !r.members.all s.saveQuiet then s
  else if r.savedAt = 0 then
    let dies := r.members.foldl (fun l m => insertNat (m / 8) l) []
    if !dies.all s.mayRelease then s else (dies.foldl (fun (s : State) d => (s.releaseDie d).1) s).updRun g fun r => { r with savedAt := s.now + 1 }
  else if r.members.any fun m => s.acksOut (m / 8) r.savedAt then s
  else s.soon (.saveComplete (fin1024 g))

/-- PARK: the parking timer has run out (08 R143). -/
def execPark (g : Fin 1024) (s : State) : Out :=
  let x := s.grp g.val
  match x.run with
  | some r => .next (if x.state = 3 ∧ r.saving = 0 ∧ 65536 ≤ r.timer then s.startSave g.val 1 else s)
  | none => .next s

/-- An operation as a save keeps it for the restore: what was under way starts again (05 R111, R112); what stands in the placement stage is
placed as R73 has it (03 R75), with the core's `RBND`. -/
def MemOp.again (rbnd : Nat) (o : MemOp) : MemOp :=
  let line := fun (l : LineAcc) => match l.st with
    | .walk => { l with st := .idle }
    | .flight => { l with st := .idle }
    | _ => l
  match o.kind with
  | .load _ _ _ (some _) => { o with lines := o.lines.map line, left := if o.lines.isEmpty then false else o.left, ready := 0 }
  | .placed _ =>
    let anew := fun (l : LineAcc) => match l.st with
      | .fault _ => l
      | _ => { l with st := .idle, lock := 0 }
    { o with lines := o.lines.map anew, land := if o.land = some 1 then none else o.land, ready := 0, left := false, rbnd := rbnd }
  | .req (.tlbi _ _ _) _ => o
  | .req _ _ => { o with left := false }
  | _ => { o with lines := o.lines.map line, ready := 0 }

/-- A core whose group has left it (08 R140). -/
def Core.leave (k : Core) : Core :=
  { k with skid := [], pend := [], memq := [], jobs := [], mma := [], pipeV := [], pipeQ := [], writers := [], readers := [], lines := [],
           bctx := BCtx.fresh, decided := [], early := none, exited := false, trig := false, frozen := false, spec := none,
           specFull := none, group := none, hold := none, waitT := none }

/-- Pins taken by lines that start again are given back (10 R168). -/
def State.unpin (s : State) (o : MemOp) : State :=
  o.lines.foldl (fun (s : State) l => if l.st = .flight then s.pinDrop l.lock else s) s

/-- The save of one member: its slot is written, and the front end keeps the rest. -/
def State.saveCore (s : State) (g x c : Nat) (p : Posn) : State :=
  let r := (s.core c).holdAll
  let k := r.1
  let stage := Config.stageImage s.nextId
  let parts := k.slotParts c r.2 p stage
  let s1 := parts.foldl (fun (s : State) part => match resolvePA (s.slotAt x c + part.1) with
    | some (key, home) => s.agentWrite (c / 8) key home part.2
    | none => s) s.bump
  let s2 := k.memq.foldl (fun (s : State) o => s.unpin o) (s1.dropAsked c)
  let kept := { k with hold := some r.2, memq := k.memq.map (MemOp.again k.rbnd), bctx := BCtx.fresh, frozen := false, l1 := [], group := none }
  let s3 := (s2.setCore c k.leave).tieHeld c (c + 64 * (g + 1))
  (s3.updRun g fun r => { r with saved := r.saved ++ [(c, kept)] }).updRidge fun q =>
    { q with pieces := q.pieces.map fun e => if e.2.core = c ∧ e.2.st ≠ 4 then (e.1, { e.2 with st := 5 }) else e }

/-- Entries of a group that FRSM has not resumed. -/
def State.openEntries (s : State) (x g : Nat) : List Nat :=
  ((s.ctx x).ents.filter fun e => e.gid == (s.gid16 g).toNat).map (·.seq)

/-- SAVE_COMPLETE: the slots are written, the group is PARKED, its cores and sequencer are free (05 R111, R112; 08 R140). -/
def execSaveComplete (g : Fin 1024) (s : State) : Out :=
  let x := s.grp g.val
  match x.run with
  | none => .next s
  | some r =>
    if r.saving = 0 ∨ r.savedAt = 0 ∨ (x.state ≠ 2 ∧ x.state ≠ 3) then .next s
    else
      let p := s.posn r
      let s1 := r.members.foldl (fun (s : State) c => s.saveCore g.val r.ctx c p) s
      let count := fun (b : Bar) => { b with since := b.since.map fun t => s.now - t }
      let s2 := s1.updRun g.val fun q => { q with
        saving := 0, savedAt := 0, parkedAt := s.now, preempt := false, timer := 0, sq := { q.sq with bound := none },
        entries := if r.saving = 1 then s.openEntries r.ctx g.val else [], insts := q.insts.map fun e => (e.1, count e.2) }
      let s3 := s2.updGrp g.val fun x => { x with state := 4, pwhy := r.saving, parks := if r.saving = 1 then (x.parks + 1) % 2 ^ 32 else x.parks }
      let s4 := (s3.ctxSettle r.ctx).soon .frontEndStart
      .next ((List.range 8).foldl (fun (s : State) d => s.soon (.replanPause (fin21 d))) s4)

/-! ### Restoring -/

/-- Sequencers that groups hold (08 R140). -/
def State.seqsHeld (s : State) : List Nat :=
  s.grps.filterMap fun e => match e.2.run with
    | some r => if e.2.state ≤ 3 ∨ e.2.state = 5 ∨ e.2.state = 6 then some r.seq else none
    | none => none

/-- The lowest-numbered free sequencer (07 R130). -/
def State.freeSeq (s : State) : Option Nat := (List.range 8).find? fun q => !s.seqsHeld.contains q

/-- A die's margin plan keeps its cores from being given out (29 R423). -/
def State.planned (s : State) (d : Nat) : Bool := get (Tbl.getD s.regs.agest d resetAge) 1 0 != 0

/-- A core that can be given out now. -/
def State.coreFree1 (s : State) (c : Nat) : Bool := (s.core c).group.isNone && !s.fenced.contains c && !s.planned (c / 8)

/-- A parked group may be restored (08 R144; 05 R113): its entries are resumed and its context runs on. -/
def State.eligible (s : State) (g : Nat) : Bool :=
  let x := s.grp g
  match x.run with
  | some r => x.state == 4 && r.entries.isEmpty && !(s.ctx r.ctx).spnd && ((s.ctx r.ctx).state == 2 || (s.ctx r.ctx).state == 4)
  | none => false

/-- GROUP_RESTORE: the same cores and a sequencer are taken; a fenced core ends the group as by a trap (05 R113; 08 R144). -/
def execGroupRestore (g : Fin 1024) (s : State) : Out :=
  match (s.grp g.val).run with
  | none => .next s
  | some r =>
    if !s.eligible g.val then .next s
    else if r.members.any s.fenced.contains then .next ((s.stopGroup g.val 5 0).ctxFault r.ctx 1)
    else match s.freeSeq with
      | none => .next s
      | some q =>
        if !r.members.all s.coreFree1 then .next s
        else
          let s1 := r.members.foldl (fun (s : State) c => s.updCore c fun k => { k with group := some g.val }) s
          .next (((s1.updRun g.val fun r => { r with seq := q }).updGrp g.val fun x => { x with state := 1 }).after 1 (.restoreComplete g))

/-- The sequencer at a restore: where it stood, unless the saved position has been changed in memory. -/
def Seq.restored (q : Seq) (was now_ : Posn) : Seq :=
  if was = now_ then { q with bound := none }
  else { pc := now_.pc, stack := now_.stack, seqno := q.seqno, wait := none, tgt := now_.tgt, adj := [], close := true, layers := 0, bound := none }

/-- The position a save wrote, as the front end kept it. -/
def posnKept (r : Run) : Posn :=
  let heads := r.saved.filterMap fun m => match m.2.skid with
    | e :: rest => some (e, rest)
    | [] => none
  match heads with
  | [] => ⟨r.sq.pc, r.sq.tgt, r.sq.stack⟩
  | h :: hs =>
    let low := hs.foldl (fun a b => if b.1.seqno < a.1.seqno then b else a) h
    ⟨low.1.pc, if low.1.delay then some ((low.2.head?.map (·.pc)).getD r.sq.pc) else none, low.1.stack⟩

/-- Writes to some bytes have not been applied yet. -/
def State.writesUnder (s : State) (lo n : Nat) : Bool :=
  s.writes.any fun w => decide (lo ≤ w.key ∧ w.key < lo + n)

/-- A slab's copy or an expert slot's fill that a fault stopped goes on (10 R172). -/
def State.goOn (s : State) (x : Nat) (a : Again) : State := match a with
  | .grow n => (s.updSlab x n fun b => { b with stop := false }).soon (.slabChunkCopied (fin64 x) (fin4096 n))
  | .fill n => s.soon (.expertSlotFilled (fin64 n))
  | _ => s

/-- What FRSM resumed at the ridge while the group was saved goes on (10 R172). -/
def State.redoAll (s : State) (r : Run) : State := r.redo.foldl (fun (s : State) a => s.goOn r.ctx a) s

/-- RESTORE_COMPLETE: registers and tiles come back from the slots, what the front end kept from the front end; issue resumes at the
saved position (05 R113; 08 R140). Messages held for the group act (R147). -/
def execRestoreComplete (g : Fin 1024) (s : State) : Out :=
  let x := s.grp g.val
  match x.run with
  | none => .next s
  | some r =>
    if x.state ≠ 1 ∨ r.saved.isEmpty then .next s
    else if r.members.any fun c => s.writesUnder (s.slotAt r.ctx c) slotSize then .next (s.after 1 (.restoreComplete g))
    else
      let was := posnKept r
      let now_ := posnOf (s.slotWords r.ctx (r.members.headD 0) 0x54_55C0 7)
      let back := fun (s : State) (e : Nat × Core) =>
        let b := s.readBack r.ctx e.1 e.2
        let skid := if was = now_ then e.2.skid else []
        let utlb := (s.core e.1).utlb
        let k := { b.2 with group := some g.val, lastCtx := some r.ctx, gid := s.gidWord g.val r.seq, utlb := utlb, skid := skid, issued := (s.now) }
        (b.1.setCore e.1 k).tieHeld (e.1 + 64 * (g.val + 1)) e.1
      let s1 := r.saved.foldl back s
      let count := fun (b : Bar) => { b with since := b.since.map fun t => s.now - t }
      let s2 := s1.updRun g.val fun q =>
        let sq := q.sq.restored was now_
        let insts := q.insts.map fun e => (e.1, count e.2)
        { q with saved := [], heldMsgs := [], heldArr := [], redo := [], entries := [], sq := sq, insts := insts }
      let s3 := s2.updGrp g.val fun x => { x with state := if s.faultsOut g.val r then 3 else 2 }
      let s4 := ((r.heldMsgs.foldl (fun (s : State) i => s.soon i) s3).redoAll r).pokeInbox
      let watch := fun (s : State) (e : Nat × Bar) => match e.2.since with
        | some t => s.sched (s.now - t + 2 ^ (r.decl (e.1 / 64)).wdog) (.watchdogExpiry (s.gid16 g.val) (e.1 % 64) (fin64 (e.1 / 64)))
        | none => s
      let s5 := r.heldArr.foldl (fun (s : State) a => s.countPackage g.val a.1 a.2) (r.insts.foldl watch s4)
      -- the restore acts as FENCE.acq.system behind what it re-issues (05 R113)
      let go := fun (s : State) (c : Nat) =>
        let s1 := (s.releaseHeld (c / 8)).dropAcked c
        ((s1.push c (8 * (s1.core c).lcyc) 0 (.fence .acq .system 0) [] [] none false).soon (.placement (fin64 c))).pump c
      .next (((r.members.foldl go s5).soon .frontEndStart).shunFenced g.val)

/-- SHADOW_REPLAY: results that a save held take effect, with their events (05 R113). -/
def execShadowReplay (core : Fin 64) (s : State) : Out :=
  let c := core.val
  let due := (s.core c).jobs.filter fun j => (match j.kind with
    | .shadow _ => true
    | _ => false) && j.done != 0 && decide (j.done ≤ s.now)
  .next (due.foldl (fun (s : State) j =>
    ((s.updCore c fun k => { k with jobs := k.jobs.filter fun v => v.id != j.id }).fillJob c j).accSettle c j.id) s)

/-! ### Broadcast and issue -/

/-- SEQUENCER_BROADCAST: one cycle of a group's sequencer (08 R141 to R143; 05 R110). -/
def execSequencerBroadcast (g : Fin 1024) (s : State) : Out :=
  let x := s.grp g.val
  match x.run with
  | none => .next s
  | some r =>
    if x.state ≠ 2 ∧ x.state ≠ 3 then .next s
    else if r.saving ≠ 0 then .next (s.saveStep g.val r)
    else
      let b := s.boundary g.val r
      if b.2 then .next (b.1.startSave g.val 2)
      else match (b.1.grp g.val).run with
        | some r1 => .next (b.1.sequence g.val r1)
        | none => .next b.1

/-- BUNDLE_ISSUE (08 R141; 14 R445). -/
def execBundleIssue (core : Fin 64) (s : State) : Out := .next (s.bundleIssue core.val)

/-- EXPOSED_RESULT_DUE: results due for the bundle at the head take effect (14 R231, R232). -/
def execExposedResultDue (core : Fin 64) (s : State) : Out :=
  let c := core.val
  let k := s.core c
  if k.skid.isEmpty || k.exited || !s.groupIssues c || !k.dueArrived then .next s else .next ((s.setCore c k.applyDue).noteLanded c k.lines)

/-! ### Draining and quarantine -/

/-- Status word of a group's end (07 Table 7.3). -/
def statusOf (cause late : Nat) : Nat := match cause with
  | 1 => 0
  | 2 => 3
  | 3 => 4
  | 4 => if late = 1 then 1 else 2
  | 5 => 3
  | _ => 5

/-- A word the front end writes as a ridge write where it can, and the ridge's tick (07 R137; 01 R441). -/
def State.statWrite (s : State) (x va : Nat) (v : Word) : State :=
  let s1 := if va ≠ 0 ∧ s.vok none x va 8 true false = true then (s.vwrite none x 16 va (wordLE v)).1 else s
  s1.tick 16 0

/-- Paths of a drain marker: every virtual channel of every link that can carry messages, and the eave ring both ways (08 R146). -/
def State.markerPaths (s : State) : List Nat :=
  ((List.range 48).filter s.linkUsable).flatMap (fun l => (List.range 7).map fun v => 8 * l + v) ++ [1000, 1001]

/-- The drain markers of an id go out (08 R146). Once round the ring from the ridge takes 2 × 60 + 8 × 18 cycles. -/
def State.sendMarkers (s : State) (g : Nat) : State :=
  let ps := s.markerPaths
  let gid := s.gid16 g
  let s1 := ps.foldl (fun (s : State) p => if 1000 ≤ p then s.after 264 (.drainMarkerReturn p gid)
    else s.queueOn 16 (p / 8) (p % 8) (s.link (p / 8)).peer gid.toNat [] (.drain p false)) s
  s1.updGrp g fun x => { x with marks := ps }

/-- The cleanup of a DESTROYING context is over: its groups have reached quarantine (05 R116). -/
def State.destroyed (s : State) (x : Nat) : Bool :=
  (s.ctx x).state == 6 && s.grps.all fun g => g.2.ctx != x || decide (7 ≤ g.2.state)

/-- A DESTROYING context is looked at again. -/
def State.destroyCheck (s : State) (x : Nat) : State := if s.destroyed x then s.soon (.destroyComplete (fin64 x)) else s

/-- DRAIN_COMPLETE: the group RETIREs, its packet completes, its status word is written; sequencer and cores are free, and the id
is in quarantine (08 R145, R146; 07 R137; 06 R121). -/
def execDrainComplete (g : Fin 1024) (s : State) : Out :=
  let x := s.grp g.val
  if x.state ≠ 5 then .next s
  else match x.run with
    | none => .next s
    | some r =>
      let busy := r.members.any fun c => (s.core c).group == some g.val && !(s.core c).quiet
      if busy || (s.piecesOf r.members && r.members.any fun c => (s.core c).group == some g.val) then .next s
      else
        let s1 := s.statWrite r.ctx r.stat (BitVec.ofNat 64 (statusOf x.cause r.late))
        let vec := r.members.foldl (fun v m => vmerge v (s1.stampOf (m / 8))) (vmerge zeroVec (s1.stampOf 16))
        let s2 := (s1.packetDone r.queue r.packet 16).updQueue r.queue fun q => { q with stampC := vmax q.stampC vec, last := if q.last = some g.val then none else q.last }
        let s3 := r.members.foldl (fun (s : State) c => if (s.core c).group = some g.val then s.updCore c Core.leave else s) s2
        let s4 := s3.updRidge fun q => { q with pieces := q.pieces.filter fun p => !(r.members.contains p.2.core && (s.core p.2.core).group == some g.val) }
        let s5 := (List.range (r.heldMsgs.length + r.heldArr.length)).foldl (fun (s : State) _ => s.countStale) s4
        let s6 := (s5.updGrp g.val fun x => { x with state := 7, run := none }).sendMarkers g.val
        let s7 := ((s6.ctxSettle r.ctx).destroyCheck r.ctx).soon .frontEndStart
        .next ((List.range 8).foldl (fun (s : State) d => s.soon (.replanPause (fin21 d))) s7)

/-- A marker of a path is back (08 R146): after the last, the index is FREE. -/
def State.markBack (s : State) (g path : Nat) : State :=
  let x := s.grp g
  if x.state ≠ 7 then s
  else
    let ms := x.marks.filter (· ≠ path)
    (s.updGrp g fun x => { x with marks := ms, state := if ms.isEmpty then 8 else 7 }).soon .frontEndStart

/-- DRAIN_MARKER_RETURN (08 R146). -/
def execDrainMarkerReturn (path : Nat) (gid : BitVec 16) (s : State) : Out :=
  match s.ofGid gid with
  | some g => .next (s.markBack g path)
  | none => .next s

/-- DRAIN_MARKER: a peer's marker goes back behind every message held on its path (08 R146). -/
def execDrainMarker (path : Nat) (gid : BitVec 16) (s : State) : Out :=
  let l := path / 8
  if s.linkUsable l then .next (s.queueOn 16 l (path % 8) (s.link l).peer gid.toNat [] (.drain path true)) else .next s

end Sys2Proof.Machine
end

