-- ==== Sys2Proof/Machine/Route.lean ====
section
/-! DEFINITION. Work of the ridge, the eave units and the transfer engine on memory, replies to cores, and the valley router
(12; 21 R376; 01 R441; 09 R443). -/

namespace Sys2Proof.Machine
open Sys2Proof.Bits

/-! ### Work on memory -/

/-- Work in progress: the state, its result so far (0 done, 1 fault, 2 link lost), the first faulting byte, its events, and the messages it
has sent to peers, each with its link. -/
structure Work where
  st   : State
  res  : Nat
  fva  : Nat
  evt  : Nat
  msgs : List (Nat × Nat)
  deriving DecidableEq, Repr

/-- Who a piece of work is for: the requesting core, if a core requested it, its context, and the agent that does it. -/
structure For where
  core  : Option Nat
  ctx   : Nat
  agent : Nat
  deriving DecidableEq, Repr

/-- Work begins. -/
def Work.on (s : State) : Work := ⟨s, 0, 0, 0, []⟩

/-- Work meets a fault; an unreadable table fences its context (10 R166). -/
def Work.faults (w : Work) (f : For) (va cause : Nat) : Work := { w with st := w.st.agentFault f.ctx cause id, res := 1, fva := va }

/-- Work meets an entry with a nonzero reserved field, on which it does not act (00 R9). Chapter 12 gives no report of its own for one: it
ends as a fault at that entry (DEDUCED, log 18). -/
def Work.malformed (w : Work) (va : Nat) : Work := if w.res = 0 then { w with res := 1, fva := va } else w

/-- Bytes read; nothing more happens after a fault (12 R203). -/
def Work.read (w : Work) (f : For) (va n : Nat) : List Byte × Work :=
  if w.res ≠ 0 then ([], w)
  else match w.st.vread f.core f.ctx f.agent va n with
    | .ok (bs, s) => (bs, { w with st := s })
    | .error (a, c) => ([], w.faults f a c)

/-- Bytes written, which count toward a barrier as they are applied; what was written before a fault stands. -/
def Work.writeLand (w : Work) (f : For) (va : Nat) (bs : List Byte) (land : Option (Bool × Nat × Nat × Nat × Bool)) : Work :=
  if w.res ≠ 0 then w
  else match w.st.vwriteLand f.core f.ctx f.agent va bs land with
    | (s, none) => { w with st := s }
    | (s, some (a, c)) => { w with st := s }.faults f a c

/-- Bytes written. -/
def Work.write (w : Work) (f : For) (va : Nat) (bs : List Byte) : Work := w.writeLand f va bs none

/-- The link a message needs is lost. -/
def Work.lose (w : Work) : Work := if w.res = 0 then { w with res := 2 } else w

/-- A message to a peer package, which knows its number; without a usable link the work ends (13 R216; 12 R203). -/
def Work.send (w : Work) (g vc peer : Nat) (bs : List Byte) (telling : Nat → PeerMsg) : Work :=
  if w.res ≠ 0 then w
  else match w.st.linkFor g peer with
    | none => { w with res := 2 }
    | some l => { w with st := (w.st.sendPeer g vc peer 0xFFFF bs (telling w.st.nextId)).1, msgs := w.msgs ++ [(w.st.nextId, l)] }

/-- The state changed by something that cannot fail. -/
def Work.upd (w : Work) (f : State → State) : Work := if w.res ≠ 0 then w else { w with st := f w.st }

/-- Events added. -/
def Work.events (w : Work) (e : Nat) : Work := { w with evt := w.evt ||| e }

/-! ### Replies -/

/-- A request has been served: its value goes back to the core, which merges the ridge's stamp (21 R367). -/
def State.answer (s : State) (c id : Nat) (v : Word) (back : Nat) : State :=
  let s1 := ((s.merge (c / 8) (s.stampOf 16)).stash c id v).updCore c fun k => k.dropOp id
  ((s1.replyAfter c back id).ended c).pump c

/-- A value no reply or status of the ridge can be mistaken for: all ones. -/
def allOnes : Word := ofInt (-1)

/-! ### Routes -/

/-- Sources, capacity, choices, experts, row bytes of a route descriptor (12 Table 12.1). -/
def rtS (d : List Word) : Nat := get (wnth d 0) 63 52 + 1
def rtC (d : List Word) : Nat := get (wnth d 0) 47 32 + 1
def rtSrc (d : List Word) : Nat := get (wnth d 0) 31 20
def rtZF (d : List Word) : Bool := bit (wnth d 0) 19
def rtK (d : List Word) : Nat := get (wnth d 0) 18 16 + 1
def rtFmt (d : List Word) : Nat := get (wnth d 0) 11 10
def rtN (d : List Word) : Nat := get (wnth d 0) 9 0 + 1
def rtRB (d : List Word) : Nat := 128 * (get (wnth d 1) 61 52 + 1)
/-- Address in word `i`. -/
def rtAddr (d : List Word) (i : Nat) : Nat := get (wnth d i) 51 0
def rtDcap (d : List Word) : Nat := 256 * get (wnth d 5) 63 52
def rtBar (d : List Word) : Option Nat := if bit (wnth d 6) 52 then some (get (wnth d 6) 58 53) else none
def rtSem (d : List Word) : Nat := get (wnth d 7) 15 0

/-- A route descriptor is well formed (12 R192). -/
def rtOk (d : List Word) : Bool :=
  get (wnth d 0) 51 48 == 0 && get (wnth d 0) 15 12 == 0 && get (wnth d 1) 63 62 == 0 && get (wnth d 2) 63 52 == 0 &&
  get (wnth d 3) 63 52 == 0 && get (wnth d 4) 63 52 == 0 && get (wnth d 6) 63 59 == 0 && get (wnth d 7) 63 16 == 0 &&
  decide (rtSrc d < rtS d) && decide (get (wnth d 1) 61 52 ≤ 511) && decide (rtFmt d ≤ 1) && rtAddr d 1 % 16 == 0 &&
  rtAddr d 2 % 8 == 0 && rtAddr d 3 % 4 == 0 && rtAddr d 4 % 4 == 0 && rtAddr d 5 % 8 == 0 && rtAddr d 6 % 64 == 0

/-- The route will be READY once the operations accepted before have run: a VRCFG among them may make it so (12 R194, R416). -/
def Route.usable (r : Route) : Bool := r.ready || r.queue.any fun o => o.op == 5

/-- Acceptance status of a route operation (12 R194; 21 R376). -/
def State.routeStatus (s : State) (x op r t a b : Nat) : Nat :=
  let bad := match op with
    | 5 => a % 64 != 0
    | 6 => a % 2 != 0 || t == 0 || decide (65536 < t)
    | 7 => a % 128 != 0
    | _ => a % 4 != 0 || b % 128 != 0
  if 63 < r ∨ bad = true then 2
  else if op ≠ 5 ∧ (s.route x r).usable = false then 2
  else if 8 ≤ (s.route x r).queue.length then 1 else 0

/-- Tag of the spanning course core `c` is in; all ones for none. -/
def State.sptagOf (s : State) (c : Nat) : Nat := match s.runOf c with
  | some r => if r.npkg = 0 then 0xFFFF else r.sptag
  | none => 0xFFFF

/-- A route operation reaches the ridge (12 R194), with the phase views as they stood when it left the core (09 R443). -/
def State.routeArrives (s : State) (c id op : Nat) (o : MemOp) (a b b2 : Word) : State :=
  let x := s.ctxOf c
  let r := get a 7 0
  let t := get a 63 32
  let st := s.routeStatus x op r t b.toNat b2.toNat
  let gid := (s.grpOf c).map (fun g => (s.gid16 g).toNat) |>.getD 0xFFFF
  let q : ROp := ⟨op, c, t, b.toNat, b2.toNat, o.tags, gid, s.sptagOf c⟩
  let s1 := if st = 0 then (s.updRoute x r fun k => { k with queue := k.queue ++ [q] }).settled 0 (.routeOperationRun (fin64 x) (fin64 r)) else s
  let s2 := (s1.stash c id (BitVec.ofNat 64 st)).updCore c fun k => k.dropOp id
  ((s2.replyAfter c 12 id).ended c).pump c

/-- The value VRCNT returns (12 R204). -/
def Route.count (r : Route) (sel : Nat) (ex : Word) : Word :=
  if r.ready = false then allOnes
  else if sel ≤ 5 then wnth r.words sel
  else if sel = 6 then BitVec.ofNat 64 (1 + 2 * r.routed.toNat)
  else match r.counts[ex.toNat]? with
    | some n => BitVec.ofNat 64 (if sel = 7 then n.1 else n.2)
    | none => 0

/-- VRCNT reaches the ridge: it is answered behind every operation accepted before it (12 R204; 21 R376). -/
def State.countArrives (s : State) (c id : Nat) (a : Word) (sel : Nat) (ex : Word) : State :=
  let x := s.ctxOf c
  let r := get a 7 0
  if 63 < r then s.answer c id allOnes 28
  else
    let k := s.route x r
    if k.queue.isEmpty then s.answer c id (k.count sel ex) 28
    else s.updRoute x r fun k => { k with reads := k.reads ++ [(c, id, k.queue.length)] }

/-! ### Routing -/

/-- VRRTE as it goes over the choices: demand of each expert, inverse map so far, and the counts. -/
structure Rte where
  w      : Work
  dem    : List Nat
  inv    : List (Nat × Nat × Nat)
  placed : Nat
  drop   : Nat
  none_  : Nat
  bad    : Nat
  listed : Nat

/-- An inverse-map entry (12 Table 12.5): kind, expert, slot. -/
def invWord (e : Nat × Nat × Nat) : List Byte := natLE 4 (e.1 * 2 ^ 30 + e.2.1 * 2 ^ 16 + e.2.2)

/-- One choice of VRRTE (12 R196). -/
def Rte.choice (r : Rte) (f : For) (d : List Word) (ch i : Nat) : Rte :=
  let x := r.w.read f (ch + 2 * i) 2
  if x.2.res ≠ 0 then { r with w := x.2 }
  else
    let e := sext (leNat x.1) 16
    let put := fun (v : Nat × Nat × Nat) => x.2.write f (rtAddr d 3 + 4 * i) (invWord v)
    if e = -1 then { r with w := put (2, 0, 0), inv := r.inv ++ [(2, 0, 0)], none_ := r.none_ + 1 }
    else if e < 0 ∨ (rtN d : Int) ≤ e then { r with w := put (2, 0, 0), inv := r.inv ++ [(2, 0, 0)], bad := r.bad + 1 }
    else
      let n := e.toNat
      let pos := r.dem.getD n 0
      let dem := r.dem.set n (pos + 1)
      if pos < rtC d then { r with w := put (0, n, pos), dem := dem, inv := r.inv ++ [(0, n, pos)], placed := r.placed + 1 }
      else
        let w1 := put (1, n, 0)
        if r.listed < rtDcap d then
          let bs := natLE 8 (n * 2 ^ 32 + i % rtK d * 2 ^ 16 + i / rtK d)
          { r with w := w1.write f (rtAddr d 5 + 8 * r.listed) bs, dem := dem, inv := r.inv ++ [(1, n, 0)], drop := r.drop + 1, listed := r.listed + 1 }
        else { r with w := w1, dem := dem, inv := r.inv ++ [(1, n, 0)], drop := r.drop + 1 }

/-- Count-table entries with their offsets: the exclusive prefix sum (12 R196). -/
def offsets (c : Nat) (dem : List Nat) : List (Nat × Nat × Nat) :=
  (dem.foldl (fun (a : List (Nat × Nat × Nat) × Nat) n => (a.1 ++ [(a.2, n, min n c)], a.2 + min n c)) ([], 0)).1

/-- A count-table entry (12 Table 12.4). -/
def cntWord (e : Nat × Nat × Nat) : List Byte := natLE 8 (e.1 * 2 ^ 40 + e.2.1 * 2 ^ 20 + e.2.2)

/-- VRRTE (12 R196, R197): its work, the status words, and demand and acceptance of each expert. -/
def State.routeAll (s : State) (f : For) (d : List Word) (t ch : Nat) : Work × List Word × List (Nat × Nat) :=
  let r0 : Rte := ⟨Work.on s, List.replicate (rtN d) 0, [], 0, 0, 0, 0, 0⟩
  let r := (List.range (t * rtK d)).foldl (fun r i => r.choice f d ch i) r0
  let cs := offsets (rtC d) r.dem
  let w1 := (List.range cs.length).foldl (fun (w : Work) e => w.write f (rtAddr d 2 + 8 * e) (cntWord (cs.getD e (0, 0, 0)))) r.w
  let disp := fun (w : Work) (i : Nat) => match r.inv[i]? with
    | some (0, e, pos) => w.write f (rtAddr d 4 + 4 * ((cs.getD e (0, 0, 0)).1 + pos)) (natLE 4 (i % rtK d * 2 ^ 16 + i / rtK d))
    | _ => w
  let w2 := (List.range r.inv.length).foldl disp w1
  let words := [t, r.placed, r.drop, r.none_, r.bad, r.listed].map (BitVec.ofNat 64)
  (w2, words, cs.map fun e => e.2)

/-- The expert map, read once: IBASE, OBASE, package of each expert (12 R193). -/
def Work.map (w : Work) (f : For) (d : List Word) : List (Nat × Nat × Nat) × Work :=
  let r := w.read f (rtAddr d 1) (16 * rtN d)
  let bad := (List.range (rtN d)).find? fun e => get (wordAt r.1 (2 * e)) 63 52 != 0
  ((List.range (rtN d)).map fun e =>
    let a := wordAt r.1 (2 * e)
    let b := wordAt r.1 (2 * e + 1)
    (get a 51 0, get b 51 0, get b 63 52), match bad with
    | some e => r.2.malformed (rtAddr d 1 + 16 * e)
    | none => r.2)

/-- One row to an expert's input buffer: a ridge write here, or on VC0 to the expert's package; its bytes count as they are applied (12
R200; 09 R443). -/
def Work.row (w : Work) (f : For) (d : List Word) (o : ROp) (e : Nat × Nat × Nat) (slot : Nat) (bs : List Byte) : Work :=
  let va := e.1 + (rtSrc d * rtC d + slot) * rtRB d
  if e.2.2 = w.st.regs.pkrank then w.writeLand f va bs ((rtBar d).map fun b => (false, o.gid, o.core, b, o.tags.contains b))
  else
    let a := w.st.agent f.agent
    w.send f.agent 0 e.2.2 bs fun m =>
      .write f.agent a.epoch a.acq (a.needs e.2.2) o.sptag f.ctx va ((rtBar d).map fun b => (b, o.tags.contains b)) m

/-- VRSCT (12 R200): rows in ascending dispatch position, then the zero rows of the expert. -/
def State.scatter (s : State) (f : For) (d : List Word) (o : ROp) : Work × List (Nat × Nat × Nat) :=
  let m := (Work.on s).map f d
  let cnt := m.2.read f (rtAddr d 2) (8 * rtN d)
  let expert := fun (w : Work) (e : Nat) =>
    let n := wordAt cnt.1 e
    let home := m.1.getD e (0, 0, 0)
    let acc := get n 16 0
    let w0 := if get n 63 60 ≠ 0 ∨ get n 19 17 ≠ 0 then w.malformed (rtAddr d 2 + 8 * e) else w
    let w1 := (List.range acc).foldl (fun (w : Work) slot =>
      if w.res ≠ 0 then w
      else
        let at_ := rtAddr d 4 + 4 * (get n 59 40 + slot)
        let t := w.read f at_ 4
        if 2 ^ 19 ≤ leNat t.1 then t.2.malformed at_
        else
          let row := t.2.read f (o.a + leNat t.1 % 2 ^ 16 * rtRB d) (rtRB d)
          row.2.row f d o home slot row.1) w0
    if rtZF d then (List.range (rtC d - acc)).foldl (fun (w : Work) i => w.row f d o home (acc + i) (List.replicate (rtRB d) 0)) w1 else w1
  ((List.range (rtN d)).foldl expert cnt.2, m.1)

/-! ### Combine -/

/-- Elements of a row as values (12 R202). -/
def outRowls (fmt : Nat) (bs : List Byte) (n : Nat) : List Val :=
  (List.range n).map fun i => if fmt = 0 then decodeFloat .bf16 (numAt bs (2 * i) 2) else decodeFloat .fp32 (numAt bs (4 * i) 4)

/-- One placed row added under its gate: exact product, one rounding to FP32 an element (12 R202). -/
def gated (g : Val) (row : List Val) (acc : List (Val × Nat)) : List (Val × Nat) :=
  List.zipWith (fun y a =>
    let p := Val.fma g y a.1
    let r := roundF32 p.1
    (r.1, a.2 ||| p.2 ||| r.2)) row acc

/-- The output row of a token, with its events. -/
def rowOut (fmt : Nat) (acc : List (Val × Nat)) : List Byte × Nat :=
  acc.foldl (fun (o : List Byte × Nat) v =>
    let p := if fmt = 0 then packFloat .bf16 .rne true 0 v.1 else packFloat .fp32 .rne false 0 v.1
    (o.1 ++ natLE (if fmt = 0 then 2 else 4) p.1, o.2 ||| v.2 ||| p.2)) ([], 0)

/-- Fields of an inverse-map entry (12 Table 12.5): its kind, expert and slot; KIND 3 and reserved bits have no meaning. -/
def invKind (v : Nat) : Nat := v / 2 ^ 30
def invExp (v : Nat) : Nat := nget v 25 16
def invOk (v : Nat) : Bool := decide (invKind v ≤ 2) && nget v 29 26 == 0

/-- Where the row of an entry lies in its expert's output buffer (12 R202). -/
def outRow (d : List Word) (home : Nat × Nat × Nat) (v : Nat) : Nat := home.2.1 + (rtSrc d * rtC d + v % 2 ^ 16) * rtRB d

/-- VRCMB starts: it reads the expert map and the inverse map and asks other packages for their rows (12 R193, R202). -/
def State.askRows (s : State) (f : For) (n : Nat) (d : List Word) (o : ROp) (t : Nat) : Work × List (Nat × Nat × Nat) × List Nat × List Nat :=
  let m := (Work.on s).map f d
  let r := m.2.read f (rtAddr d 3) (4 * (t * rtK d))
  let invs := (List.range (t * rtK d)).map fun i => numAt r.1 (4 * i) 4
  let w := match (List.range (t * rtK d)).find? fun i => !invOk (invs.getD i 0) with
    | some i => r.2.malformed (rtAddr d 3 + 4 * i)
    | none => r.2
  let home := fun (i : Nat) => m.1.getD (invExp (invs.getD i 0)) (0, 0, 0)
  let far := (List.range (t * rtK d)).filter fun i =>
    let v := invs.getD i 0
    invKind v == 0 && decide (invExp v < rtN d) && (home i).2.2 != s.regs.pkrank
  let ask := fun (w : Work) (i : Nat) => w.send f.agent 1 (home i).2.2 [] fun _ => .ask o.sptag (outRow d (home i) (invs.getD i 0)) (rtRB d) f.ctx n i
  (far.foldl ask w, m.1, invs, far)

/-- VRCMB (12 R202), with the maps it read at its start and the rows of other packages. -/
def State.combine (s : State) (f : For) (r : Route) (o : ROp) (t : Nat) : Work :=
  let d := r.desc
  let n := rtRB d / (if rtFmt d = 0 then 2 else 4)
  let choice := fun (i : Nat) (a : Work × List (Val × Nat)) (j : Nat) =>
    let k := i * rtK d + j
    let v := r.invs.getD k 0
    if a.1.res ≠ 0 ∨ invKind v ≠ 0 ∨ rtN d ≤ invExp v then a
    else
      let g := a.1.read f (o.a + 4 * k) 4
      let home := r.map.getD (invExp v) (0, 0, 0)
      let row := match Tbl.get r.rows k with
        | some bs => (bs, g.2)
        | none => g.2.read f (outRow d home v) (rtRB d)
      (row.2, gated (decodeFloat .fp32 (leNat g.1)) (outRowls (rtFmt d) row.1 n) a.2)
  let token := fun (w : Work) (i : Nat) =>
    let a := (List.range (rtK d)).foldl (choice i) (w, List.replicate n (Val.zero, 0))
    let out := rowOut (rtFmt d) a.2
    if a.1.res ≠ 0 then a.1 else (a.1.write f (o.b + i * rtRB d) out.1).events out.2
  (List.range t).foldl token (Work.on s)

/-! ### Running and completing -/

/-- A route with no descriptor: FREE, or as a VRRTE without its tables leaves it (12 R192, R203). -/
def Route.cleared (r : Route) (free : Bool) : Route :=
  { r with desc := if free then [] else r.desc, ready := r.ready && !free, routed := false, words := List.replicate 6 0,
           counts := if free then [] else List.replicate (rtN r.desc) (0, 0) }

/-- What a route operation does to its route and to memory before it completes (12 R192, R196, R200, R203). VRCMB reads its rows and writes
at its completion. -/
def State.runRoute (s : State) (x n : Nat) (r : Route) (o : ROp) : State :=
  let f : For := ⟨some o.core, x, 16⟩
  match o.op with
  | 5 =>
    let d := (Work.on s).read f o.a 64
    let ws := (List.range 8).map (wordAt d.1)
    if d.2.res = 0 ∧ rtOk ws = true then d.2.st.updRoute x n fun k => { (k.cleared true) with desc := ws, ready := true, res := (0, 0, 0) }
    else d.2.st.updRoute x n fun k => { (k.cleared true) with res := (0, 0, 0) }
  | 6 =>
    if r.ready = false then s
    else
      let w := s.routeAll f r.desc o.t o.a
      let res := (w.1.res, 0, w.1.fva)
      if w.1.res = 0 then w.1.st.updRoute x n fun k => { k with routed := true, words := w.2.1, counts := w.2.2, res := res }
      else w.1.st.updRoute x n fun k => { (k.cleared false) with res := res }
  | 7 =>
    if r.routed = false then s.updRoute x n fun k => { k with res := (3, 0, 0) }
    else
      let w := s.scatter f r.desc o
      w.1.st.updRoute x n fun k =>
        { k with res := (w.1.res, w.1.evt, w.1.fva), map := w.2, ids := (s.nextId, w.1.st.nextId), sent := w.1.msgs }
  | _ =>
    if r.routed = false then s.updRoute x n fun k => { k with res := (3, 0, 0) }
    else
      let w := s.askRows f n r.desc o (wnth r.words 0).toNat
      w.1.st.updRoute x n fun k =>
        { k with res := (w.1.res, w.1.evt, w.1.fva), map := w.2.1, invs := w.2.2.1, asked := List.zipWith (fun i m => (i, m.2)) w.2.2.2 w.1.msgs }

/-- ROUTE_OPERATION_RUN: the operation at the head of a route runs (12 R194). One that needs another package completes when that
package has answered. -/
def execRouteOperationRun (ctx : Fin 64) (route : Fin 64) (s : State) : Out :=
  let x := ctx.val
  let n := route.val
  let r := s.route x n
  match r.queue with
  | [] => .next s
  | o :: _ =>
    if r.run then .next s
    else .next (((s.runRoute x n r o).updRoute x n fun k => { k with run := true }).after 1 (.routeOperationComplete ctx route []))

/-- The status record of a route operation (12 R198): words 6 and 7, and words 0 to 5 after a VRRTE. -/
def State.routeRecord (s : State) (f : For) (d : List Word) (o : ROp) (words : List Word) (res : Nat × Nat × Nat) : State :=
  let va := rtAddr d 6
  let w6 := BitVec.ofNat 64 (o.op * 2 ^ 24 + res.1 * 2 ^ 16 + res.2.1 % 2 ^ 16)
  let w7 := BitVec.ofNat 64 (if res.1 = 1 then res.2.2 else 0)
  if s.vok f.core f.ctx va 64 true false = false then s
  else if o.op = 6 then (s.vwrite f.core f.ctx 16 va (wordsLE (words ++ [w6, w7]))).1
  else (s.vwrite f.core f.ctx 16 (va + 48) (wordsLE [w6, w7])).1

/-- VRCNTs whose turn has come are answered. -/
def State.routeReads (s : State) (x n : Nat) : State :=
  let r := s.route x n
  let rs := r.reads.map fun w => (w.1, w.2.1, w.2.2 - 1)
  let s1 := s.updRoute x n fun k => { k with reads := rs.filter fun w => w.2.2 != 0 }
  (rs.filter fun w => w.2.2 == 0).foldl (fun (s : State) w => match (s.core w.1).op w.2.1 with
    | some o => match o.kind with
      | .req (.vrcnt _ sel ex) _ => s.answer w.1 w.2.1 (r.count sel ex) 28
      | _ => s
    | none => s) s1

/-- Rows that other packages answer with, for those asked first; one of another size is none. -/
def Route.gave (r : Route) (rows : List (List Byte)) : Route :=
  if r.run && rows.all fun b => b.length == rtRB r.desc then
    { r with rows := (List.zip r.asked rows).foldl (fun t e => Tbl.set t e.1.1 e.2) r.rows, asked := r.asked.drop rows.length }
  else r

/-- Some other package has still to answer the operation that runs (12 R200, R202). -/
def Route.waits (r : Route) : Bool := r.res.1 == 0 && !(r.sent.isEmpty && r.asked.isEmpty)

/-- What an operation leaves of its own on its route. -/
def Route.ended (r : Route) : Route :=
  { r with queue := r.queue.drop 1, run := false, res := (0, 0, 0), map := [], invs := [], ids := (0, 0), sent := [], asked := [], rows := [] }

/-- An operation completes: record, tick, semaphore, in this order (12 R195, R198); then the next operation of the route. -/
def State.routeDone (s : State) (x n : Nat) (r : Route) (o : ROp) : State :=
  let f : For := ⟨some o.core, x, 16⟩
  let w := if o.op = 8 ∧ r.res.1 = 0 then s.combine f r o (wnth r.words 0).toNat
    else { Work.on s with res := r.res.1, evt := r.res.2.1, fva := r.res.2.2 }
  let s1 := if r.ready then w.st.routeRecord f r.desc o r.words (w.res, w.evt, w.fva) else w.st
  let s2 := s1.tick 16 0
  let s3 := if r.ready then s2.addSem 16 (rtSem r.desc) 1 else s2
  let s4 := (s3.updRoute x n (·.ended)).routeReads x n
  if r.queue.length ≤ 1 then s4 else s4.settled 0 (.routeOperationRun (fin64 x) (fin64 n))

/-- ROUTE_OPERATION_COMPLETE (12 R195, R200): an operation that other packages have answered completes, a VRSCT once its own rows have been
applied too. `peers` are rows that come with the event. -/
def execRouteOperationComplete (ctx : Fin 64) (route : Fin 64) (peers : List (List Byte)) (s : State) : Out :=
  let x := ctx.val
  let n := route.val
  let r := (s.route x n).gave peers
  let s0 := s.updRoute x n fun _ => r
  match r.queue with
  | [] => .next s
  | o :: _ =>
    if !r.run then .next s
    else if r.waits then .next s0
    else if r.res.1 = 0 ∧ s.unapplied r.ids.1 r.ids.2 = true then .next (s0.after 1 (.routeOperationComplete ctx route []))
    else .next (s0.routeDone x n r o)

/-! ### Answers of other packages -/

/-- Routes of which something holds: context and number. -/
def State.routesWhere (s : State) (p : Route → Bool) : List (Nat × Nat) :=
  s.ctxs.flatMap fun x => (x.2.routes.filter fun r => r.2.run && p r.2).map fun r => (x.1, r.1)

/-- The running operation of a route learns something of its messages, and looks whether it is complete. -/
def State.routeLearns (s : State) (k : Nat × Nat) (f : Route → Route) : State :=
  (s.updRoute k.1 k.2 f).soon (.routeOperationComplete (fin64 k.1) (fin64 k.2) [])

/-- A scatter's rows have been applied on another package, or have faulted there (12 R200, R203). -/
def State.routeApplied (s : State) (msg : Nat) (fva : Option Nat) : State :=
  (s.routesWhere fun r => r.sent.any (·.1 == msg)).foldl (fun (s : State) k => s.routeLearns k fun r =>
    { r with sent := r.sent.filter (·.1 != msg), res := match fva with
      | some a => if r.res.1 = 0 then (1, r.res.2.1, a) else r.res
      | none => r.res }) s

/-- A row that a combine asked for arrives, or the fault it met (12 R202, R203). -/
def State.rowArrives (s : State) (ctx route row : Nat) (ok : Bool) (bs : List Byte) : State :=
  let r := s.route ctx route
  if !r.run || !(r.asked.any (·.1 == row)) then s
  else s.routeLearns (ctx, route) fun r =>
    { r with asked := r.asked.filter (·.1 != row), rows := if ok then Tbl.set r.rows row bs else r.rows,
             res := if ok || r.res.1 != 0 then r.res else (1, r.res.2.1, leNat bs) }

/-- The context a message's addresses are of: the part's of the course with its tag, else the sender's number. -/
def State.ctxOfPart (s : State) (sptag ctx : Nat) : Nat := ((s.named true (BitVec.ofNat 16 sptag)).map fun g => (s.grp g).ctx).getD ctx

/-- Another package's combine asks for a row of an expert here: the ridge reads it and answers on VC4 (12 R202). -/
def State.rowAsked (s : State) (peer sptag va len ctx route row : Nat) : State :=
  let x := s.ctxOfPart sptag ctx
  match s.vread none x 16 va len with
  | .ok (bs, s1) => (s1.sendPeer 16 4 peer 0xFFFF bs (.row ctx route row true)).1
  | .error (a, c) => ((s.agentFault x c id).sendPeer 16 4 peer 0xFFFF (natLE 8 a) (.row ctx route row false)).1

/-- A line of a peer's write on its way from the link to its home (04 R91; 22 R442). -/
def State.peerLine (s : State) (unit : Nat) (w : Write) : State :=
  let w1 := { w with id := s.nextId }
  s.bump.depart w1 (s.now + legs (8 + unit) w.home + 40)

/-- The bytes of a peer's write, line by line (04 R91; 12 R200): the lines before one that faults stand. -/
def State.peerWriteGo (s : State) (unit x : Nat) (w : Write) : Nat → Nat → List Byte → State × Option Nat
  | 0, _, _ => (s, none)
  | f + 1, va, bs =>
    if bs.isEmpty then (s, none) else
      let k := 128 - va % 128
      match s.agentXlate none x va true false with
      | .ok key home pte =>
        let s1 := s.agentWalk x va
        let w1 := { w with key := key, home := home, bytes := (bs.take k).map fun b => (true, b), lock := s1.lockOf x va pte }
        (s1.peerLine unit w1).peerWriteGo unit x w f (va + k) (bs.drop k)
      | .fault c => (s.agentFault x c id, some va)
      | .miss => (s, some va)

/-- A peer's bytes arrive at a link of eave unit `unit` for an address of context `x` (04 R91): their lines go to their homes, and the message
is answered once all of them are applied, or one has faulted. -/
def State.peerPut (s : State) (peer unit : Nat) (stamp : Stamp) (needs : List (Nat × Nat)) (x va : Nat) (land : Option (Bool × Nat × Nat × Nat × Bool))
    (msg : Nat) (bs : List Byte) : State :=
  let w : Write := { id := 0, stamp := stamp, src := peer + 1, needs := needs, key := 0, home := 0, bytes := [], die := none, land := land,
                     back := some (peer, msg) }
  let n := (va + bs.length + 127) / 128 - va / 128
  let s1 := if n = 0 then s else s.updRidge fun r => { r with landing := (peer, msg, n) :: r.landing }
  let r := s1.peerWriteGo unit x w (n + 1) va bs
  let tell := fun (s : State) (a : Option Nat) =>
    ((s.updRidge fun q => { q with landing := q.landing.filter fun e => e.1 != peer || e.2.1 != msg }).sendPeer (8 + unit) 4 peer 0xFFFF [] (.applied msg a)).1
  match r.2 with
  | some a => tell r.1 (some a)
  | none => if n = 0 then tell r.1 none else r.1

/-- A peer's write: its bytes count at the barrier of the part of its course (09 R443). -/
def State.peerWrite (s : State) (peer unit : Nat) (stamp : Stamp) (needs : List (Nat × Nat)) (sptag ctx va : Nat) (bar : Option (Nat × Bool))
    (msg : Nat) (bs : List Byte) : State :=
  s.peerPut peer unit stamp needs (s.ctxOfPart sptag ctx) va (bar.map fun b => (true, sptag, 0, b.1, b.2)) msg bs

/-- A link is lost: scatters and combines with a message on it end with RESULT 2 (12 R203). -/
def State.loseRoutes (s : State) (l : Nat) : State :=
  (s.routesWhere fun r => r.waits && (r.sent ++ r.asked).any (·.2 == l)).foldl (fun (s : State) k => s.routeLearns k fun r =>
    { r with sent := [], asked := [], res := (2, r.res.2.1, 0) }) s

end Sys2Proof.Machine
end

