-- ==== Sys2Proof/Machine/TileMemory.lean ====
section
/-! DEFINITION. The instructions of slot m (18). -/

namespace Sys2Proof.Machine
open Sys2Proof.Bits

/-- A tile load starts: its lines are empty from issue, it is a pending writer of the tile until its last line fills, and
with a landing code of 1 to 7 it lands for the bundle at LCYC + LDk (14 R236, 18 R311). -/
def State.startLoad (s : State) (c slot t : Nat) (lc : List LineAcc × List Chunk) (fill : List Byte) (keep : List (Nat × Byte))
    (enf : Option Enf) (land : Nat) (nl1 : Bool) (about : List (Option Nat × Bool × Nat) := []) (count : Nat × Nat := (fill.length / 128, 0)) :
    State :=
  let k := s.core c
  let id := s.nextId
  let at_ := if land = 0 then none else some (k.lcyc + k.ld.toList.getD land 1)
  let s1 := s.push c (k.posAt slot) (s.bundleAddr c) (.load t fill keep enf) lc.1 lc.2 at_ nl1 about
  let s2 := s1.updCore c fun k =>
    { (k.emptyLines t 0 (fill.length / 128) at_ (some id)).updOp id (fun o => { o with count := count }) with writers := k.writers ++ [(t, id)] }
  let s3 := match at_ with
    | some due =>
      let p : Pend := ⟨due, k.posAt slot, s.bundleAddr c, .land id, false, id, []⟩
      s2.updCore c fun k => { k with pend := k.pend ++ [p] }
    | none => s2
  s3.pump c

/-- A tile store: performed in program order, or held by an open region (18 R313; 16 R277). -/
def State.startStore (s : State) (c slot t : Nat) (lines : List LineAcc) : State :=
  let k := s.core c
  let rest := lines.drop (k.specFull.getD 0)
  if rest.isEmpty then s
  else if k.spec.isSome then s.hold c slot .store rest none 0
  else ((s.push c (k.posAt slot) (s.bundleAddr c) .store rest [] none false).pump c).readTile c s.nextId t (ceilDiv (k.shape t).lines 4) none

/-- TLD (18 R313). -/
def execTld (h : Hdr) (tD : TReg) (xB : XReg) (oO : OReg) (byp : Bool) (land : Land) (s : State) : Out :=
  slotDo h (.tld h tD xB oO byp land) s fun c s =>
    let k := s.core c
    let n := (k.shape tD.val).lines
    s.startLoad c h.slot.val tD.val (seqLines (alignLine (k.addr xB oO)) n) (List.replicate (128 * n) 0) [] none land.val byp

/-- TST (18 R313). -/
def execTst (h : Hdr) (tS : TReg) (xB : XReg) (oO : OReg) (s : State) : Out :=
  slotDo h (.tst h tS xB oO) s fun c s => s.startStore c h.slot.val tS.val ((s.core c).storeLines (.tst h tS xB oO))

/-- Lines an access through a handle's placement entry will reach, relative to the entry's BASE (13 R217, R218). -/
def entryLines (ws : List Word) (write : Bool) (ls : List LineAcc) : List (Option Nat × Bool × Nat) :=
  ls.map fun l => (some (hPle ws), write, l.va)

/-- TLDH: the handle walk, from the handle's own BASE, or from its placement entry's as it stands at the access
(18 R314, R315; 13 R217). -/
def execTldh (h : Hdr) (tD : TReg) (hn : HReg) (og : Fin 4) (enf : Bool) (land : Land) (s : State) : Out :=
  slotDo h (.tldh h tD hn og enf land) s fun c s =>
    let k := s.core c
    let sh := k.shape tD.val
    let ws := k.hwords hn.val
    if hPV ws then
      s.startLoad c h.slot.val tD.val ([], []) (List.replicate (128 * sh.lines) 0) [] (some (k.enf hn.val og.val sh enf)) land.val false
        (entryLines ws false (gather (hLoad sh ws pstoreBase (k.offGroup og.val)).2.1).1)
    else
      let w := hLoad sh ws (hBase ws) (k.offGroup og.val)
      s.startLoad c h.slot.val tD.val (gather w.2.1) w.1 w.2.2 none land.val false

/-- TSTH: an ordinary store, or a store handled at the entry's eave unit (18 R315; 13 R218). -/
def execTsth (h : Hdr) (tS : TReg) (hn : HReg) (og : Fin 4) (s : State) : Out :=
  slotDo h (.tsth h tS hn og) s fun c s =>
    let k := s.core c
    let sh := k.shape tS.val
    let ws := k.hwords hn.val
    if hPV ws then
      let bytes := hStore sh (k.tileImg tS.val sh.lines) ws pstoreBase (k.offGroup og.val)
      let kind := OpKind.pstore (k.enf hn.val og.val sh false) bytes
      let about := entryLines ws true (scatter bytes)
      if k.spec.isSome then s.hold c h.slot.val kind [] none 0 about
      else ((s.push c (k.posAt h.slot.val) (s.bundleAddr c) kind [] [] none false about).pump c).readTile c s.nextId tS.val (ceilDiv sh.lines 4) none
    else s.startStore c h.slot.val tS.val (k.storeLines (.tsth h tS hn og))

/-- Lines of a gather: the rows that an index names (18 R316). -/
def Core.gatherRows (k : Core) (t i : Nat) (base : Word) : List LineAcc × List Chunk :=
  let sh := k.shape t
  let ish := k.shape i
  let idx := (tileBits ish (k.tileImg i ish.lines)).flatten
  let rows := (List.range sh.rows).filterMap fun r => (idxAt ish idx r).map fun n => (r, n)
  (rows.flatMap fun e => (List.range sh.pitch).map fun p => loadLine (rowAddr base e.2 sh.pitch p),
   (rows.mapIdx fun j e => (List.range sh.pitch).map fun p => ⟨j * sh.pitch + p, 0, 128 * (e.1 * sh.pitch + p), 128⟩).flatten)

/-- TLDG: lands at LD6 or LD7 (18 R316). -/
def execTldg (h : Hdr) (tD : TReg) (xB : XReg) (tI : TReg) (l7 : Bool) (s : State) : Out :=
  slotDo h (.tldg h tD xB tI l7) s fun c s =>
    let k := s.core c
    s.startLoad c h.slot.val tD.val (k.gatherRows tD.val tI.val (k.rx xB)) (List.replicate (128 * (k.shape tD.val).lines) 0) [] none
      (if l7 then 7 else 6) false [] ((k.shape tD.val).lines, ceilDiv (k.shape tD.val).rows 4)

/-- TSTS: rows in ascending order (18 R316). -/
def execTsts (h : Hdr) (tS : TReg) (xB : XReg) (tI : TReg) (s : State) : Out :=
  slotDo h (.tsts h tS xB tI) s fun c s => s.startStore c h.slot.val tS.val ((s.core c).storeLines (.tsts h tS xB tI))

/-- Pieces of a TLDX: each row from its halo-shifted address (18 R313). -/
def Core.haloPieces (k : Core) (t a : Nat) : List Bit3 :=
  let d := k.shape t
  let e := ((fmtOf d.fmt).map Fmt.bits).getD 8 / 8
  (List.range d.rows).map fun (r : Nat) =>
    let va := (ofInt ((a : Int) + ((r : Int) - k.haloR) * (d.pitch * 128 : Nat) - (k.haloC * e : Nat))).toNat
    (va, 128 * (r * d.pitch), d.cols * e)

/-- TLDX (18 R313). -/
def execTldx (h : Hdr) (tD : TReg) (xB : XReg) (oO : OReg) (land : Land) (s : State) : Out :=
  slotDo h (.tldx h tD xB oO land) s fun c s =>
    let k := s.core c
    s.startLoad c h.slot.val tD.val (gather (k.haloPieces tD.val (alignLine (k.addr xB oO))))
      (List.replicate (128 * (k.shape tD.val).lines) 0) [] none land.val false []
      (((k.shape tD.val).rows + 2 * k.haloR) * (k.shape tD.val).pitch, 0)

/-- TLDW: the word lands in xD for the landing bundle (18 R317). -/
def execTldw (h : Hdr) (xD xB : XReg) (oO : OReg) (land : Land) (s : State) : Out :=
  slotDo h (.tldw h xD xB oO land) s fun c s =>
    let k := s.core c
    let a := k.addr xB oO
    let s1 := s.dueLate c h.slot.val (k.ld.toList.getD land.val 1) s.nextId (.x xD.val 0)
    (s1.push c (k.posAt h.slot.val) (s.bundleAddr c) (.tldw xD.val (a % 128)) [loadLine (alignLine a)] [] none false).pump c

/-- TSHP, unbound (18 R309). -/
def execTshp (h : Hdr) (tD : TReg) (xA : XReg) (s : State) : Out :=
  slotDo h (.tshp h tD xA) s fun c s => s.due c h.slot.val 1 (.shape tD.val (shapeOf ((s.core c).rx xA)).word 0)

/-- TSHP, bound to a handle (18 R309). -/
def execTshpBound (h : Hdr) (tD : TReg) (xA : XReg) (hn : HReg) (s : State) : Out :=
  slotDo h (.tshpBound h tD xA hn) s fun c s =>
    s.due c h.slot.val 1 (.shape tD.val (shapeOf ((s.core c).rx xA)).word (BitVec.ofNat 64 (2 ^ 63 + hn.val)))

/-- The image TZERO writes: zeros, and scales of 127 for MX (18 R318). -/
def zeroImage (d : Shape) : List Byte := List.replicate (128 * (d.rows * d.pitch)) 0 ++ List.replicate (128 * d.scaleLines) 127

/-- TZERO: empty from issue, zero and full 2 + ⌈L/4⌉ cycles later (18 R318, Table 18.3). -/
def execTzero (h : Hdr) (tD : TReg) (s : State) : Out :=
  slotDo h (.tzero h tD) s fun c s =>
    let k := s.core c
    let d := k.shape tD.val
    let t := s.now + 2 + ceilDiv d.lines 4
    let j : Job := { id := s.nextId, pos := k.posAt h.slot.val, addr := s.bundleAddr c, done := t, kind := .tzero,
                     tiles := [(tD.val, 0, zeroImage d)], evs := (0, 0) }
    let s1 := s.updCore c fun k =>
      { k.emptyLines tD.val 0 d.lines none (some j.id) with writers := k.writers ++ [(tD.val, j.id)], jobs := k.jobs ++ [j] }
    s1.bump.sched t (.tzeroFill (fin64 c) j.id)

/-- TEMPTY: lines empty, contents kept (18 R318). -/
def execTempty (h : Hdr) (tD : TReg) (s : State) : Out :=
  slotDo h (.tempty h tD) s fun c s => s.updCore c fun k => k.emptyLines tD.val 0 (k.shape tD.val).lines none none

/-- The translation of a line to warm, looked up as a core's access looks it up: µTLB, die TLB, walk cache, walk, which is made at once
(10 R164; log 16). -/
def State.warmXlate (s : State) (c va : Nat) : State × Xres :=
  let x := s.ctxOf c
  let d := c / 8
  let fill := fun (s : State) (e : Xl) =>
    (s.updCore c fun k => { k with utlb := lruPut 64 e k.utlb }).updDie d fun x => { x with tlb := lruPut 4096 e x.tlb }
  match s.coreXlate c x va false with
  | .miss => (match (s.die d).tlb.find? (·.covers x va) with
    | some e => let t := fill s e; (t, t.coreXlate c x va false)
    | none =>
      let t := s.agentWalk x va
      match t.ridgeLeaf x va with
      | some e => let t := fill t e; (t, t.coreXlate c x va false)
      | none => (t, .miss))
  | r => (s.touchXl c va, r)

/-- One line of a warming: an L1 or L2 copy of a line that translates and whose home may serve it (18 R319). -/
def State.warmLine (s0 : State) (c va : Nat) (lvl : WarmLevel) : State :=
  let r := s0.warmXlate c va
  let s := r.1
  match r.2 with
  | .ok key home pte =>
    let key := lineOf key
    match lvl with
    | .l1 =>
      if isScr key || !(s.agent home).holdsVec home (s.agent (c / 8)).acq then s
      else s.updCore c fun k => k.l1Fill key (overlay (s.mem.read key 128) ((s.die (c / 8)).lookup c (8 * k.lcyc) key))
    | .l2 => if l2Able key home then s.l2Touch key (get pte 63 62) else s
    | .cs => s
  | _ => s

/-- TWARM (18 R319). -/
def execTwarm (h : Hdr) (xN xB : XReg) (oO : OReg) (lvl : WarmLevel) (s : State) : Out :=
  slotDo h (.twarm h xN xB oO lvl) s fun c s =>
    let k := s.core c
    let a := alignLine (k.addr xB oO)
    (List.range (min (k.rx xN).toNat 4096)).foldl (fun (s : State) i => s.warmLine c (a + 128 * i) lvl) s

/-- XCHN: a release, then a chain for the ridge transfer engine (18 R323). -/
def execXchn (h : Hdr) (xD xA xC : XReg) (s : State) : Out :=
  slotDo h (.xchn h xD xA xC) s fun c s =>
    let k := s.core c
    (s.fenceAt c h.slot.val .rel .device).ask c h.slot.val (.xchn (k.rx xC) (k.rx xA)) 12 (some xD.val) 24

/-- A request that no region holds: its result is due `lat` bundles on. -/
def State.askNow (s : State) (c slot : Nat) (r : Req) (rel x lat : Nat) : State :=
  let k := s.core c
  ((s.dueLate c slot lat s.nextId (.x x 0)).push c (k.posAt slot) (s.bundleAddr c) (.req r (s.now + rel)) [] [] none false).pump c

/-- TWM (18 R324). -/
def execTwm (h : Hdr) (xD xC : XReg) (s : State) : Out :=
  slotDo h (.twm h xD xC) s fun c s => s.askNow c h.slot.val (.twm ((s.core c).rx xC)) 12 xD.val 40

end Sys2Proof.Machine
end

