-- ==== Sys2Proof/Machine/Convert.lean ====
section
/-! DEFINITION. Distributed tensors: the mesh, parts and their cells, conversions and the loads and stores that meet them, and
collective steps (13; 02 R48, R49; 11 R191; 09 R443). -/

namespace Sys2Proof.Machine
open Sys2Proof.Bits

/-! ### The mesh -/

/-- Size of an axis, this package's coordinate on it (13 Table 13.1). -/
def axSize (m : Word) (a : Nat) : Nat := get m (6 * a + 5) (6 * a) + 1
def axAt (m : Word) (a : Nat) : Nat := get m (6 * a + 29) (6 * a + 24)

/-- Package rank of the package at some coordinates (13 R210). -/
def meshRank (m : Word) (at_ : Nat → Nat) : Nat :=
  at_ 0 + axSize m 0 * (at_ 1 + axSize m 1 * (at_ 2 + axSize m 2 * at_ 3))

/-- Coordinates of the member of axis `a` at `j`. -/
def memberAt (m : Word) (a j : Nat) : Nat → Nat := fun b => if b = a then j else axAt m b

/-! ### Entries -/

/-- Fields of a placement entry (13 Table 13.2). -/
def plV (ws : List Word) : Bool := bit (wnth ws 0) 63
def plAuto (ws : List Word) : Bool := bit (wnth ws 0) 62
def plConv (ws : List Word) : Bool := bit (wnth ws 0) 61
def plNdim (ws : List Word) : Nat := get (wnth ws 0) 53 52
def plFmt (ws : List Word) : Nat := get (wnth ws 0) 51 44
def plTid (ws : List Word) : Nat := get (wnth ws 0) 31 0
def plExt (ws : List Word) (d : Nat) : Nat := get (wnth ws 1) (16 * d + 15) (16 * d)
def plAff (ws : List Word) : Nat := get (wnth ws 2) 63 60
def plBase (ws : List Word) : Nat := get (wnth ws 2) 51 0
def plAlt (ws : List Word) : Nat := get (wnth ws 3) 51 0
def plCseq (ws : List Word) : Nat := get (wnth ws 4) 47 32
def plTgt (ws : List Word) : Nat := get (wnth ws 4) 31 16
def plState (ws : List Word) : Nat := get (wnth ws 4) 15 0
def plVer (ws : List Word) : Nat := get (wnth ws 5) 31 0
def plBar (ws : List Word) : Option Nat := if bit (wnth ws 6) 57 then some (get (wnth ws 6) 63 58) else none
def plStat (ws : List Word) : Nat := get (wnth ws 6) 51 0
def plSem (ws : List Word) : Nat := get (wnth ws 7) 16 0

/-- Code of axis `a` in a word of states. -/
def codeAt (st a : Nat) : Nat := nget st (4 * a + 3) (4 * a)
/-- The code of an axis set. -/
def codeSet (st a v : Nat) : Nat := st - codeAt st a * 2 ^ (4 * a) + v * 2 ^ (4 * a)
/-- An assigned state code (13 Table 13.3). -/
def codeOk (c : Nat) : Bool := decide (c ≤ 2) || decide (8 ≤ c ∧ c ≤ 11)
/-- All four codes are assigned. -/
def statesOk (st : Nat) : Bool := (List.range 4).all fun a => codeOk (codeAt st a)
/-- All four demanded codes are assigned, or 15. -/
def demandOk (st : Nat) : Bool := (List.range 4).all fun a => codeOk (codeAt st a) || codeAt st a == 15

/-! ### Parts -/

/-- The element format is MX of width `w`. -/
def mxWidth (fmt : Nat) : Option Nat := match fmtOf fmt with
  | some (.mx w) => some w
  | _ => none

/-- Bytes of a cell: an element, or the codes and scale of a block of 32. -/
def cellSize (fmt : Nat) : Nat := match fmtOf fmt with
  | some (.mx w) => 4 * w + 1
  | some f => f.bits / 8
  | none => 1

/-- Elements a cell spans along dimension `d`: the innermost one is held in blocks. -/
def cellSpan (ws : List Word) (d : Nat) : Nat := if (mxWidth (plFmt ws)).isSome ∧ d = plNdim ws then 32 else 1

/-- Axes that cut dimension `d`, lowest first. -/
def cutAxes (st d : Nat) : List Nat := (List.range 4).filter fun a => codeAt st a == 8 + d

/-- Pieces a dimension is cut into, and the composite rank of a package (13 R213). -/
def cutRank (m : Word) (st d : Nat) (at_ : Nat → Nat) : Nat × Nat :=
  (cutAxes st d).foldl (fun (q : Nat × Nat) a => (q.1 * axSize m a, q.2 * axSize m a + at_ a)) (1, 0)

/-- Elements of a slice of dimension `d`. -/
def sliceLen (m : Word) (ws : List Word) (st d : Nat) : Nat := ceilDiv (plExt ws d) (cutRank m st d (axAt m)).1

/-- Cells of each dimension that a package holds; a slice past the end is empty (13 R213). -/
def boxOf (m : Word) (ws : List Word) (st : Nat) (at_ : Nat → Nat) : List (Nat × Nat) :=
  (List.range 4).map fun d =>
    let n := sliceLen m ws st d
    let r := (cutRank m st d at_).2
    let u := cellSpan ws d
    if plExt ws d ≤ r * n then (ceilDiv (plExt ws d) u, ceilDiv (plExt ws d) u)
    else (r * n / u, ceilDiv (min ((r + 1) * n) (plExt ws d)) u)

/-- Cells of a box. -/
def boxCount (b : List (Nat × Nat)) : Nat := b.foldl (fun n r => n * (r.2 - r.1)) 1

/-- The cells of a box in the order they are held: dimension 0 outermost. -/
def boxCells (b : List (Nat × Nat)) : List (List Nat) :=
  b.foldl (fun acc r => acc.flatMap fun p => (List.range (r.2 - r.1)).map fun i => p ++ [r.1 + i]) [[]]

/-- Where a box holds a cell. -/
def boxPos (b : List (Nat × Nat)) (g : List Nat) : Option Nat :=
  if (List.zip b g).all fun e => decide (e.1.1 ≤ e.2 ∧ e.2 < e.1.2) then
    some ((List.zip b g).foldl (fun n e => n * (e.1.2 - e.1.1) + (e.2 - e.1.1)) 0)
  else none

/-- The whole tensor as a box. -/
def wholeBox (ws : List Word) : List (Nat × Nat) := (List.range 4).map fun d => (0, ceilDiv (plExt ws d) (cellSpan ws d))

/-- Cell `i` of a part of `n` cells: codes and scales of MX lie apart (13 R213; 18 R315). -/
def cellOf (fmt n : Nat) (bs : List Byte) (i : Nat) : List Byte := match mxWidth fmt with
  | some w => slice bs (4 * w * i) (4 * w) ++ slice bs (4 * w * n + i) 1
  | none => slice bs (cellSize fmt * i) (cellSize fmt)

/-- The bytes of a part from its cells. -/
def partBytes (fmt : Nat) (cells : List (List Byte)) : List Byte := match mxWidth fmt with
  | some w => (cells.map fun c => c.take (4 * w)).flatten ++ (cells.map fun c => c.drop (4 * w)).flatten
  | none => cells.flatten

/-- A cell of +0. -/
def zeroCell (fmt : Nat) : List Byte := match mxWidth fmt with
  | some w => List.replicate (4 * w) 0 ++ [127]
  | none => List.replicate (cellSize fmt) 0

/-- A cell that no rule gives a value (log 4). -/
def freeCell (fmt ctr i : Nat) : List Byte := (List.range (cellSize fmt)).map fun j => Config.freeByte ctr (i * cellSize fmt + j)

/-- ⌈Dd/q⌉ of an MX tensor cut on its innermost dimension is a multiple of 32 (13 R213). -/
def blocksOk (m : Word) (ws : List Word) (st : Nat) : Bool :=
  (mxWidth (plFmt ws)).isNone || decide ((cutRank m st (plNdim ws) (axAt m)).1 ≤ 1) || sliceLen m ws st (plNdim ws) % 32 == 0

/-! ### Reductions -/

/-- One addition or maximum of a collective: exact, rounded once into the format (02 R48). A collective has no saturation field: a sum that
overflows is rounded under NOSAT, to an infinity with OVF (DESIGN CHOICE, log 20: 02 R48 does not say). -/
def redElem (fmt : Nat) (mx : Bool) (a b : Nat) : Nat × Nat := match fmtOf fmt with
  | some (.flt f) =>
    let x := decodeFloat f a
    let y := decodeFloat f b
    if mx then packFloat f .rne false 0 (x.max y)
    else
      let p := x.add y
      let r := packFloat f .rne false 0 p.1
      (r.1, p.2 ||| r.2)
  | some (.mx _) => (0, 0)
  | some f =>
    let x := elemInt f a
    let y := elemInt f b
    (lowBits f.bits (if mx then max x y else x + y), 0)
  | none => (0, 0)

/-- Two buffers combined element by element, the first on the left. MX elements have no rule of their own: free values (log 4). -/
def redBytes (fmt : Nat) (mx : Bool) (ctr : Nat) (a b : List Byte) : List Byte × Nat :=
  if (mxWidth fmt).isSome then ((List.range a.length).map fun i => Config.freeByte ctr i, 0)
  else
    let z := cellSize fmt
    let out := (List.range (a.length / z)).map fun i => redElem fmt mx (numAt a (z * i) z) (numAt b (z * i) z)
    ((out.map fun r => natLE z r.1).flatten, out.foldl (fun e r => e ||| r.2) 0)

/-! ### Steps of a collective -/

/-- A collective as its steps see it: OPC of Table 13.6, canonical tree, members of the axis, this one's rank on it. -/
structure Plan where
  opc  : Nat
  tree : Bool
  n    : Nat
  me   : Nat
  deriving DecidableEq, Repr

/-- ⌈log2 n⌉. -/
def log2Up (n : Nat) : Nat := bitLen (n - 1)

/-- Its partial results go by the canonical tree (02 R49). -/
def Plan.byTree (p : Plan) : Bool := p.tree && (p.opc == 0 || p.opc == 2)
/-- Steps in which partial results are combined. -/
def Plan.redSteps (p : Plan) : Nat := if p.opc = 1 ∨ p.opc = 3 then 0 else if p.tree then log2Up p.n else p.n - 1
/-- Steps of a collective (13 R219). -/
def Plan.steps (p : Plan) : Nat := if p.opc = 0 then 2 * p.redSteps else if p.opc = 2 then p.redSteps else p.n - 1

/-- The member that holds the partial result of chunk `c` over block `b` of 2^l ranks (02 R49): the one toward which the chunk goes
(DEDUCED, log 22). -/
def holder (n c : Nat) : Nat → Nat → Nat
  | 0, b => b
  | l + 1, b => if n ≤ (2 * b + 1) * 2 ^ l ∨ c / 2 ^ l % 2 = 0 then holder n c l (2 * b) else holder n c l (2 * b + 1)

/-- What moves in a step: from, to, chunk (02 R48, R49; log 22). Around a ring every member sends to the next; in an exchange to the member
`step + 1` further on, and the chunk is named by that member; in a tree from block to block, and in the second half of an all-reduce back. -/
def Plan.moves (p : Plan) (step : Nat) : List (Nat × Nat × Nat) :=
  if p.byTree then
    let up := decide (step < p.redSteps)
    let l := if up then step else 2 * p.redSteps - 1 - step
    (List.range (if p.opc = 0 then 1 else p.n)).flatMap fun c => (List.range (ceilDiv p.n (2 ^ (l + 1)))).filterMap fun b =>
      let lo := holder p.n c l (2 * b)
      let hi := holder p.n c l (2 * b + 1)
      if p.n ≤ (2 * b + 1) * 2 ^ l then none
      else some (if up && c / 2 ^ l % 2 == 0 then (hi, lo, c) else (lo, hi, c))
  else (List.range p.n).map fun r =>
    let next := (r + 1) % p.n
    match p.opc with
    | 3 => (r, (r + 1 + step) % p.n, (r + 1 + step) % p.n)
    | 1 => (r, next, (r + p.n - step % p.n) % p.n)
    | _ => if step < p.redSteps then (r, next, (r + 2 * p.n - 1 - step) % p.n) else (r, next, (r + p.n - (step - p.redSteps) % p.n) % p.n)

/-- To whom this member sends which chunks in a step. -/
def Plan.sends (p : Plan) (step : Nat) : List (Nat × List Nat) := (List.range p.n).filterMap fun q =>
  let cs := (p.moves step).filterMap fun m => if m.1 = p.me ∧ m.2.1 = q then some m.2.2 else none
  if cs.isEmpty then none else some (q, cs)

/-- From whom it receives which chunks; in an exchange a chunk received is named by its sender. -/
def Plan.takes (p : Plan) (step : Nat) : List (Nat × List Nat) := (List.range p.n).filterMap fun q =>
  let cs := (p.moves step).filterMap fun m => if m.1 = q ∧ m.2.1 = p.me then some (if p.opc = 3 then q else m.2.2) else none
  if cs.isEmpty then none else some (q, cs)

/-- The chunk as this member sends it on: as it has come so far, else its own. -/
def Plan.have (p : Plan) (own : Nat → List Byte) (part : Tbl (List Byte)) (c : Nat) : List Byte :=
  if p.opc = 3 then own c else (Tbl.get part c).getD (own c)

/-- Bytes cut into pieces of given sizes. -/
def splitBy : List Nat → List Byte → List (List Byte)
  | [], _ => []
  | n :: ns, bs => bs.take n :: splitBy ns (bs.drop n)

/-- A chunk from member `q` joins what is here: combined in the steps that reduce, the lower rank on the left in a tree and what comes on the
left in a ring (02 R48, R49); else it stands as it came. -/
def Plan.take (p : Plan) (step q : Nat) (red : List Byte → List Byte → List Byte × Nat) (own : Nat → List Byte) (t : Tbl (List Byte) × Nat)
    (c : Nat) (bs : List Byte) : Tbl (List Byte) × Nat :=
  if step < p.redSteps then
    let r := if p.byTree && decide (p.me < q) then red (p.have own t.1 c) bs else red bs (p.have own t.1 c)
    (Tbl.set t.1 c r.1, t.2 ||| r.2)
  else (Tbl.set t.1 c bs, t.2)

/-- Payloads of a step's senders, each of the size it must have: those the event brings, else those that have come as messages. -/
def State.payloads (s : State) (key seq axis step : Nat) (sizes : List (Nat × Nat)) (given : List (List Byte)) : Option (List (List Byte)) :=
  let come := sizes.map fun q => s.ridge.steps.find? fun i => i.key == key && i.rank == q.1 && i.seq == seq && i.axis == axis && i.step == step && i.bytes.length == q.2
  if !given.isEmpty then (if given.map (·.length) = sizes.map (·.2) then some given else none)
  else if come.all (·.isSome) then some (come.filterMap fun i => i.map (·.bytes)) else none

/-- They have been taken. -/
def State.dropSteps (s : State) (key seq axis step : Nat) : State := s.updRidge fun r =>
  { r with steps := r.steps.filter fun i => !(i.key == key && i.seq == seq && i.axis == axis && i.step == step) }

/-- Every message of a step has been acknowledged (13 R219). -/
def State.allAcked (s : State) (went : List (Nat × Nat)) : Bool := went.all fun m => s.acked m.1

/-! ### Stages -/

/-- What a change of state on one axis does (13 Table 13.4). -/
inductive StageKind where
  | local_
  | gather
  | scatter (mx : Bool)
  | reduce (mx : Bool)
  | exchange
  | refused
  deriving DecidableEq, Repr

/-- The kind of a change from one code to another. -/
def stageKind (from_ goal : Nat) : StageKind :=
  if from_ = 1 ∨ from_ = 2 then
    (if goal = 0 then .reduce (from_ == 2) else if 8 ≤ goal then .scatter (from_ == 2) else .refused)
  else if from_ = 0 then .local_
  else if goal = 0 then .gather
  else if 8 ≤ goal then .exchange
  else if goal = 1 then .local_ else .refused

/-- A stage as it is carried out: mesh, entry, states before, axis, new code, its kind. -/
structure Stage where
  mesh : Word
  ws   : List Word
  st   : Nat
  axis : Nat
  goal   : Nat
  deriving DecidableEq, Repr

/-- States after the stage. -/
def Stage.after (g : Stage) : Nat := codeSet g.st g.axis g.goal
/-- Its kind. -/
def Stage.kind (g : Stage) : StageKind := stageKind (codeAt g.st g.axis) g.goal
/-- Members of the axis, and this one. -/
def Stage.n (g : Stage) : Nat := axSize g.mesh g.axis
def Stage.me (g : Stage) : Nat := axAt g.mesh g.axis
/-- What member `j` holds before, and after. -/
def Stage.box (g : Stage) (j : Nat) : List (Nat × Nat) := boxOf g.mesh g.ws g.st (memberAt g.mesh g.axis j)
def Stage.boxNew (g : Stage) (j : Nat) : List (Nat × Nat) := boxOf g.mesh g.ws g.after (memberAt g.mesh g.axis j)
/-- Bytes of a box. -/
def Stage.size (g : Stage) (b : List (Nat × Nat)) : Nat := boxCount b * cellSize (plFmt g.ws)

/-- The collective that carries the stage out (13 Table 13.4). Table 13.2 has no field that tells of a canonical-tree descriptor: reductions
go in ring order (DESIGN CHOICE, log 20: 13 R214 gives an entry's no other sign of R49). -/
def Stage.plan (g : Stage) : Plan := ⟨match g.kind with
  | .gather => 1
  | .scatter _ => 2
  | .exchange => 3
  | _ => 0, false, g.n, g.me⟩

/-- It takes the maximum. -/
def Stage.max (g : Stage) : Bool := match g.kind with
  | .scatter mx => mx
  | .reduce mx => mx
  | _ => false

/-- Cell `cell` of the bytes `bs` that member `j` holds before. -/
def Stage.held (g : Stage) (bs : List Byte) (j : Nat) (cell : List Nat) : Option (List Byte) :=
  (boxPos (g.box j) cell).map fun p => cellOf (plFmt g.ws) (boxCount (g.box j)) bs p

/-- The cells of a chunk that this member sends: a member's part, a member's new slice, a chunk of the whole part (02 R48), or what of its own
goes to a member. -/
def Stage.outCells (g : Stage) (c : Nat) : List (List Nat) := match g.kind with
  | .gather => boxCells (g.box c)
  | .reduce _ =>
    let l := boxCells (g.boxNew g.me)
    (l.drop (c * ceilDiv l.length g.n)).take (ceilDiv l.length g.n)
  | _ => (boxCells (g.box g.me)).filter fun cell => (boxPos (g.boxNew c) cell).isSome

/-- The cells of a chunk that it receives. -/
def Stage.inCells (g : Stage) (c : Nat) : List (List Nat) := match g.kind with
  | .exchange => (boxCells (g.box c)).filter fun cell => (boxPos (g.boxNew g.me) cell).isSome
  | _ => g.outCells c

/-- Its own bytes of a chunk, from what it holds. -/
def Stage.own (g : Stage) (bs : List Byte) (c : Nat) : List Byte := (g.outCells c).flatMap fun cell => (g.held bs g.me cell).getD []

/-- One cell of the new layout, from what this member held and the chunks that came (13 Table 13.4). A cell that no member of the axis holds
has no value in the spec: a free value (log 4). -/
def Stage.cell (g : Stage) (own : List Byte) (got : List (List Nat × List Byte)) (ctr i : Nat) (cell : List Nat) : List Byte :=
  let fmt := plFmt g.ws
  let mine := g.held own g.me cell
  let come := (got.find? fun e => e.1 == cell).map (·.2)
  match g.kind with
  | .local_ =>
    if g.goal = 1 ∧ codeAt g.st g.axis = 0 ∧ g.me ≠ 0 then zeroCell fmt
    else mine.getD (if g.goal = 1 ∧ codeAt g.st g.axis ≠ 0 then zeroCell fmt else freeCell fmt ctr i)
  | .scatter _ => come.getD (freeCell fmt ctr i)
  | .reduce _ => come.getD (freeCell fmt ctr i)
  | _ => (mine <|> come).getD (freeCell fmt ctr i)

/-- The new part. -/
def Stage.run (g : Stage) (own : List Byte) (part : Tbl (List Byte)) (ctr : Nat) : List Byte :=
  let z := cellSize (plFmt g.ws)
  let got := part.flatMap fun e => (g.inCells e.1).mapIdx fun i cell => (cell, slice e.2 (z * i) z)
  partBytes (plFmt g.ws) ((boxCells (g.boxNew g.me)).mapIdx fun i cell => g.cell own got ctr i cell)

/-! ### Conversions -/

/-- Words of an entry changed. -/
def State.plSet (s : State) (x e : Nat) (f : List Word → List Word) : State := s.updPlent x e fun p => { p with words := f p.words }

/-- The conversion at the head of an entry changed. -/
def State.updConv (s : State) (x e : Nat) (f : Conv → Conv) : State :=
  s.updPlent x e fun p => { p with convs := p.convs.modify 0 f }

/-- The eave unit of an entry works for its conversion. -/
def convFor (x : Nat) (ws : List Word) (c : Conv) : For := ⟨c.core.map (·.1), x, 8 + plAff ws % 8⟩

/-- The stage a conversion is at. -/
def convStage (m : Word) (ws : List Word) (c : Conv) : Stage := ⟨m, ws, plState ws, c.axis, codeAt c.tgt c.axis⟩

/-- Key of the joins of an entry's conversion. -/
def convKey (ws : List Word) : Nat := plTid ws

/-- The place of a stored piece in the whole tensor: of an element, or twice that of a block's codes, plus one for its scale; none
outside the part (13 R218). -/
def heldAt (m : Word) (ws : List Word) (off : Int) (len : Nat) : Option Nat :=
  let fmt := plFmt ws
  let box := boxOf m ws (plState ws) (axAt m)
  let n := boxCount box
  let place := fun (i : Nat) => ((boxCells box)[i]?).bind fun g => boxPos (wholeBox ws) g
  if off < 0 then none
  else
    let o := off.toNat
    match mxWidth fmt with
    | some w =>
      if len = 1 ∧ 4 * w * n ≤ o then (place (o - 4 * w * n)).map fun p => 2 * p + 1
      else if o % (4 * w) = 0 ∧ o < 4 * w * n then (place (o / (4 * w))).map fun p => 2 * p else none
    | none => if o % cellSize fmt = 0 ∧ o < cellSize fmt * n then place (o / cellSize fmt) else none

/-- Indices of cell number `p` of a box. -/
def cellIndex (b : List (Nat × Nat)) (p : Nat) : List Nat :=
  (b.foldr (fun r (a : List Nat × Nat) => (a.2 % max 1 (r.2 - r.1) :: a.1, a.2 / max 1 (r.2 - r.1))) ([], p)).1

/-- Coordinates of the member that holds a cell: on an axis that cuts nothing, this package's own (13 R213, R218). -/
def ownerAt (m : Word) (ws : List Word) (st : Nat) (g : List Nat) (a : Nat) : Nat :=
  let c := codeAt st a
  if c < 8 then axAt m a
  else
    let d := c - 8
    let r := g.getD d 0 * cellSpan ws d / max 1 (sliceLen m ws st d)
    let later := (cutAxes st d).filter fun b => decide (a < b)
    r / later.foldl (fun n b => n * axSize m b) 1 % axSize m a

/-- The place of a held piece in this package's part, in bytes, or the rank of the package that holds it (13 R218). -/
def heldGoes (m : Word) (rank : Nat) (ws : List Word) (place : Nat) : Nat ⊕ Nat :=
  let st := plState ws
  let p := if (mxWidth (plFmt ws)).isSome then place / 2 else place
  let g := cellIndex (wholeBox ws) p
  let goal := meshRank m (ownerAt m ws st g)
  let box := boxOf m ws st (axAt m)
  if goal ≠ rank then .inr goal
  else
    let i := (boxPos box g).getD 0
    .inl (match mxWidth (plFmt ws) with
      | some v => if place % 2 = 1 then 4 * v * boxCount box + i else 4 * v * i
      | none => cellSize (plFmt ws) * i)

/-- One held store is applied: here, for the core that stored it (01 R441), or at the member that now holds its element (13 R218). -/
def Work.putHeld (w : Work) (f : For) (ws : List Word) (seq : Nat) (h : HeldSt) : Work := match heldGoes w.st.regs.meshcfg w.st.regs.pkrank ws h.place with
  | .inl off => w.write { f with core := h.core } (plBase ws + off) h.bytes
  | .inr rank =>
    let a := w.st.agent f.agent
    w.send f.agent 0 rank h.bytes fun m => .held f.agent a.epoch a.acq (a.needs rank) (plTid ws) seq h.place m

/-- Requests for a conversion (13 R215): joined, new, or beyond the limit. Answers 0 new, 1 joined, 3 waiting. -/
def State.convAsk (s : State) (x e : Nat) (q : PlReq) : State × Nat :=
  let p := s.plent x e
  let n := p.convs.length
  let same := fun (i : Nat) => (i == 0 || i + 1 == n) && ((p.convs[i]?).map (·.tgt)) == some q.tgt
  match (List.range n).find? same with
  | some i =>
    let add := fun (c : Conv) => { c with pkts := c.pkts ++ q.pkt.toList, waits := c.waits ++ q.load.toList }
    (s.updPlent x e fun p => { p with convs := p.convs.modify i add }, 1)
  | none =>
    if 5 ≤ n then (s.updPlent x e fun p => { p with later := p.later ++ [q] }, 3)
    else
      let seq := (plCseq p.words + 1) % 2 ^ 16
      let c : Conv :=
        { seq := seq, tgt := q.tgt, core := q.core, axis := 0, from_ := 0, joined := [], begun := false, joinAt := 0, evt := 0, pkts := q.pkt.toList,
          waits := q.load.toList, step := 0, went := none, part := [], landed := 0, ids := none, puts := none }
      let w4 := fun (w : Word) => put w 47 32 seq
      let first := fun (ws : List Word) => if n = 0 then wset (wset ws 4 (put (w4 (wnth ws 4)) 31 16 q.tgt)) 0 (put (wnth ws 0) 61 61 1)
        else wset ws 4 (w4 (wnth ws 4))
      let s1 := s.updPlent x e fun p => { p with words := first p.words, convs := p.convs ++ [c] }
      (if n = 0 then s1.settled 0 (.conversionStageComplete (fin64 x) (fin1024 e) []) else s1, 0)

/-- Requests that waited at the ridge are queued in their turn. -/
def State.convPull (s : State) (x e : Nat) : Nat → State
  | 0 => s
  | n + 1 =>
    let p := s.plent x e
    match p.later with
    | q :: rest => if 5 ≤ p.convs.length then s else ((s.updPlent x e fun p => { p with later := rest }).convAsk x e q).1.convPull x e n
    | [] => s

/-! ### Loads through entries -/

/-- Demand and states agree (13 R217). -/
def matches_ (m : Word) (st demand : Nat) : Bool :=
  (List.range 4).all fun a => codeAt demand a == 15 || codeAt demand a == codeAt st a || axSize m a == 1

/-- States a load's request asks for (13 R217). -/
def targetOf (p : PlEnt) (demand : Nat) : Nat :=
  let b := match p.convs.getLast? with
    | some c => c.tgt
    | none => plState p.words
  (List.range 4).foldl (fun t a => codeSet t a (if codeAt demand a = 15 then codeAt b a else codeAt demand a)) 0

/-- A handle whose entry has been read: its own BASE is the entry's now, and VER what the load saw (13 R217). -/
def Enf.resolved (e : Enf) (ws : List Word) : Enf :=
  let w0 := put (wnth e.ws 0) 51 0 (plBase ws)
  let w7 := put (put (wnth e.ws 7) 10 10 0) 63 32 (if e.check then plVer ws else hVer e.ws)
  { e with ws := wset (wset e.ws 0 w0) 7 w7 }

/-- A load through an entry reads its lines (13 R217; 18 R314, R315). One that a conversion fills takes what the eave unit wrote, by no copy
in the core's L1. -/
def State.readLoad (s : State) (c id : Nat) (e : Enf) (ws : List Word) (fill : Bool) : State :=
  let e1 := e.resolved ws
  let w := hLoad e1.shape e1.ws (hBase e1.ws) e1.offs
  let lc := gather w.2.1
  let s1 := s.updCore c fun k => k.updOp id fun o => match o.kind with
    | .load t _ _ _ => { o with kind := .load t w.1 w.2.2 (some e1), lines := lc.1, chunks := lc.2, nl1 := o.nl1 || fill }
    | _ => o
  if lc.1.isEmpty then s1.after 1 (.loadLanding (fin64 c) id) else s1.pump c

/-- A placed operand goes on with its handle read from the entry (03 R72). -/
def State.readPlaced (s : State) (c id : Nat) (e : Enf) (ws : List Word) : State :=
  let s1 := s.updCore c fun k => k.updOp id fun o => match o.kind with
    | .placed k => { o with kind := .placed (k.mapEnf fun h => if h = e then e.resolved ws else h), land := none }
    | _ => o
  s1.pump c

/-- A load through an entry faults (13 R216, R217): cause 7 at its first element. -/
def State.entryFault (s : State) (c : Nat) (o : MemOp) (e : Enf) (ws : List Word) (kind opnd : Nat) : State :=
  s.opFault c o 7 kind opnd (hFirst e.shape e.ws (plBase ws) e.offs) (.op c o.id)

/-- The handle an operation still has to read an entry for, with the entry's KIND and OPND (10 Table 10.4). -/
def MemOp.asks (o : MemOp) : Option (Enf × Nat × Nat) := match o.kind with
  | .load _ _ _ (some e) => if hPV e.ws && o.lines.isEmpty then some (e, 1, 1) else none
  | .placed k => if o.land = some 1 then (k.unresolved.map fun e => (e, 3, ((k.args.find? fun a => a.hnd == some e).map (·.opnd)).getD 1)) else none
  | _ => none

/-- The operation reads its entry. -/
def State.readEntry (s : State) (c id : Nat) (kind : Nat) (e : Enf) (ws : List Word) (fill : Bool) : State :=
  if kind = 3 then s.readPlaced c id e ws else s.readLoad c id e ws fill

/-- TLDH or a placed operand at its entry (13 R217): read, wait for a conversion, or fault. -/
def State.testEntry (s : State) (c id : Nat) : State := match (s.core c).op id with
  | none => s
  | some o => match o.asks with
    | none => s
    | some (e, kind, opnd) =>
      let x := s.ctxOf c
      let n := hPle e.ws
      let p := s.plent x n
      let ws := p.words
      let d := hDemand e.ws
      let m := s.regs.meshcfg
      if o.fq then s
      else if !e.check then s.readEntry c id kind e ws false
      else if !plV ws || !demandOk d then s.entryFault c o e ws kind opnd
      else if !plConv ws && matches_ m (plState ws) d then s.readEntry c id kind e ws false
      else if plConv ws && matches_ m (plTgt ws) d then
        s.updPlent x n fun p => { p with convs := p.convs.modify 0 fun v => { v with waits := v.waits ++ [(c, id)] } }
      else if plConv ws && matches_ m (plState ws) d then s.readEntry c id kind e ws false
      else if plAuto ws then
        let tag := ((plBar ws).map o.tags.contains).getD false
        let gid := (s.gidOf c).toNat
        (s.convAsk x n ⟨targetOf p d, some (c, tag, gid), some (c, id), none⟩).1
      else s.entryFault c o e ws kind opnd

/-- Loads that waited for a conversion go on, or fault (13 R216, R217). -/
def State.endWaits (s : State) (ok : Bool) (ws : List Word) (waits : List (Nat × Nat)) : State :=
  waits.foldl (fun (s : State) w => match (s.core w.1).op w.2 with
    | none => s
    | some o => match o.asks with
      | none => s
      | some (e, kind, opnd) => if o.fq then s else if ok then s.readEntry w.1 w.2 kind e ws true else s.entryFault w.1 o e ws kind opnd) s

/-- The entry looks again in this cycle, or in the next. -/
def State.convSoon (s : State) (x e : Nat) : State := s.soon (.conversionStageComplete (fin64 x) (fin1024 e) [])
def State.convNext (s : State) (x e : Nat) : State := s.after 1 (.conversionStageComplete (fin64 x) (fin1024 e) [])

/-- Writes an entry's conversion waits for have not all been applied (04 R83). -/
def State.idsOut (s : State) : Option (Nat × Nat) → Bool
  | some i => s.unapplied i.1 i.2
  | none => false

/-- The conversion at the head of an entry completes (13 R214, R216, R218, R220): version, record, tick, packets, semaphore, waiting loads;
other members learn what became of the held stores they sent; then the next. -/
def State.convFin (s : State) (x e result fva : Nat) : State :=
  let p := s.plent x e
  match p.convs with
  | [] => s
  | c :: rest =>
    let f := convFor x p.words c
    let next := fun (ws : List Word) =>
      let v := if result = 0 then wset ws 5 (put (wnth ws 5) 31 0 (plVer ws + 1)) else ws
      match rest with
      | [] => wset v 0 (put (wnth v 0) 61 61 0)
      | d :: _ => wset v 4 (put (wnth v 4) 31 16 d.tgt)
    let s1 := s.updPlent x e fun p => { p with words := next p.words, convs := rest, held := [] }
    let ws := (s1.plent x e).words
    let s2 := s1.updRidge fun r => { r with
      joins := r.joins.filter fun j => !(j.key == convKey ws && j.seq == c.seq), steps := r.steps.filter fun j => !(j.key == convKey ws && j.seq == c.seq) }
    let tell := fun (s : State) (h : HeldSt) => match h.back with
      | some b => (s.sendPeer f.agent 4 b.1 0xFFFF [] (.applied b.2 (if result = 0 then none else some 0))).1
      | none => s
    let s3 := (p.held.foldl tell s2).record f.core x f.agent (plStat ws)
      (recordBytes c.seq result c.evt (BitVec.ofNat 64 (plVer ws)) (BitVec.ofNat 64 fva))
    let s4 := c.pkts.foldl (fun (s : State) k => s.packetDone k.1 k.2 f.agent) s3
    let s5 := if plSem ws < 65536 then s4.addSem f.agent (plSem ws) 1 else s4
    let s6 := (s5.endWaits (result == 0) ws c.waits).convPull x e p.later.length
    if rest.isEmpty then s6 else s6.settled 0 (.conversionStageComplete (fin64 x) (fin1024 e) [])

/-- The last stage is done: held stores are applied, here and at the members that hold their elements (13 R218). -/
def State.convPuts (s : State) (x e : Nat) : State :=
  let p := s.plent x e
  match p.convs with
  | [] => s
  | c :: _ =>
    let w := p.held.foldl (fun (w : Work) h => w.putHeld (convFor x p.words c) p.words c.seq h) (Work.on s)
    if w.res ≠ 0 then w.st.convFin x e w.res w.fva
    else
      let s1 := w.st.updConv x e fun c => { c with puts := some w.msgs, ids := some (s.nextId, w.st.nextId) }
      if w.msgs.isEmpty && !s1.unapplied s.nextId w.st.nextId then s1.convFin x e 0 0 else s1.convNext x e

/-- The conversion at the head of an entry ends: a failure discards what it holds (13 R216). -/
def State.convEnd (s : State) (x e result fva : Nat) : State := if result = 0 then s.convPuts x e else s.convFin x e result fva

/-- Joins of a stage or a step go from agent `g` to the other members of the axis (13 R216, R219). -/
def Work.sendJoins (w : Work) (g : Nat) (m : Word) (a key seq src dst : Nat) : Work :=
  let me := axAt m a
  ((List.range (axSize m a)).filter (· ≠ me)).foldl (fun (w : Work) j =>
    w.send g 1 (meshRank m (memberAt m a j)) [] fun _ => .join key me seq a src dst) w

/-- A stage whose joins are all there begins; a join that differs in a state ends the conversion (13 R216). -/
def State.convJoined (s : State) (x e : Nat) : State :=
  let p := s.plent x e
  match p.convs with
  | [] => s
  | c :: _ =>
    let g := convStage s.regs.meshcfg p.words c
    let mine := s.ridge.joins.filter fun j => j.key == convKey p.words && j.seq == c.seq && j.axis == c.axis
    if c.joinAt = 0 ∨ c.begun ∨ g.kind = .local_ then s
    else if mine.any fun j => j.src != codeAt g.st g.axis || j.dst != g.goal then s.convEnd x e 3 0
    else
      let ranks := mine.map (·.rank)
      if (List.range g.n).all fun j => j == g.me || ranks.contains j then (s.updConv x e fun c => { c with begun := true, joined := ranks }).convSoon x e
      else s.updConv x e fun c => { c with joined := ranks }

/-- The next stage of a conversion starts: axes in ascending order; without one the conversion is done (13 R214). -/
def State.convGo (s : State) (x e : Nat) : Nat → State
  | 0 => s.convEnd x e 0 0
  | n + 1 =>
    let a := 3 - n
    let p := s.plent x e
    match p.convs with
    | [] => s
    | c :: _ =>
      let m := s.regs.meshcfg
      let from_ := codeAt (plState p.words) a
      let goal := codeAt c.tgt a
      let g : Stage := ⟨m, p.words, plState p.words, a, goal⟩
      if from_ = goal then s.convGo x e n
      else if axSize m a = 1 then
        (s.plSet x e fun ws => wset ws 4 (put (wnth ws 4) 15 0 (codeSet (plState ws) a goal))).convGo x e n
      else if g.kind = .refused ∨ blocksOk m p.words g.after = false then s.convEnd x e 3 0
      else
        let s1 := s.updConv x e fun c => { c with
          axis := a, from_ := from_, joined := [], begun := false, joinAt := s.now + 1, step := 0, went := none, part := [], landed := 0, ids := none }
        if g.kind = .local_ then s1.convNext x e
        else
          let w := (Work.on s1).sendJoins (8 + plAff p.words % 8) m a (convKey p.words) c.seq from_ goal
          if w.res ≠ 0 then w.st.convEnd x e 2 0
          else (w.st.after (2 ^ get m 53 48) (.joinTimeout (fin64 x) (fin1024 e) c.seq)).convJoined x e

/-- Bytes that the stage landed count toward the entry's barrier (13 R214; 09 R443). -/
def State.convLand (s : State) (x : Nat) (ws : List Word) (c : Conv) (bytes : Nat) : State := match plBar ws with
  | none => s
  | some b =>
    if bytes = 0 then s
    else match c.core with
      | some (k, tag, gid) => s.after 0 (.barrierLanding false (BitVec.ofNat 16 gid) (fin64 k) (fin64 b) tag bytes)
      | none => s.landForPacket x b bytes

/-- The new layout has been applied: BASE and ALT are exchanged, the axis has its new state, its landed bytes count, and the next stage starts
(13 R214). -/
def State.stageSwap (s : State) (x e : Nat) (c : Conv) (g : Stage) : State :=
  let swap := fun (ws : List Word) =>
    wset (wset (wset ws 2 (put (wnth ws 2) 51 0 (plAlt ws))) 3 (put (wnth ws 3) 51 0 (plBase ws))) 4 (put (wnth ws 4) 15 0 g.after)
  let s1 := ((s.convLand x g.ws c c.landed).plSet x e swap).updConv x e fun c => { c with begun := false, joinAt := 0, part := [], ids := none }
  s1.convGo x e (3 - c.axis)

/-- The last step of a stage is done: its new layout goes into ALT (13 R214). -/
def State.stageDone (s : State) (x e : Nat) (c : Conv) (g : Stage) : State :=
  let f := convFor x g.ws c
  let own := (Work.on s).read f (plBase g.ws) (g.size (g.box g.me))
  let w := own.2.write f (plAlt g.ws) (g.run own.1 c.part s.freeCtr)
  if w.res ≠ 0 then w.st.convEnd x e 1 w.fva
  else
    let s1 := { w.st with freeCtr := w.st.freeCtr + 1 }.updConv x e fun c => { c with ids := some (s.nextId, w.st.nextId) }
    if s1.unapplied s.nextId w.st.nextId then s1.convNext x e else s1.stageSwap x e c g

/-- A step of a stage: this member's chunks go out on VC2 (13 R214, R219). -/
def State.convSend (s : State) (x e : Nat) (c : Conv) (g : Stage) : State :=
  let f := convFor x g.ws c
  let own := (Work.on s).read f (plBase g.ws) (g.size (g.box g.me))
  let w := (g.plan.sends c.step).foldl (fun (w : Work) q =>
    w.send f.agent 2 (meshRank g.mesh (memberAt g.mesh g.axis q.1)) (q.2.flatMap (g.plan.have (g.own own.1) c.part)) fun _ =>
      .step (convKey g.ws) g.me c.seq g.axis c.step) own.2
  if w.res ≠ 0 then w.st.convEnd x e w.res w.fva else w.st.updConv x e fun c => { c with went := some w.msgs }

/-- A step ends when its messages have been acknowledged and what it receives is there (13 R219); the stage ends with its last step. Of an
all-reduce the results alone land (13 R214: (n − 1)/n of the new part). -/
def State.convTake (s : State) (x e : Nat) (c : Conv) (g : Stage) (went : List (Nat × Nat)) (given : List (List Byte)) : State :=
  let z := cellSize (plFmt g.ws)
  let takes := g.plan.takes c.step
  let sizes := takes.map fun q => q.2.map fun k => z * (g.inCells k).length
  let total := fun (l : List Nat) => l.foldl (· + ·) 0
  match s.payloads (convKey g.ws) c.seq g.axis c.step (List.zipWith (fun q l => (q.1, total l)) takes sizes) given with
  | none => s
  | some ps =>
    if !s.allAcked went then s
    else
      let own := (Work.on s).read (convFor x g.ws c) (plBase g.ws) (g.size (g.box g.me))
      if own.2.res ≠ 0 then own.2.st.convEnd x e 1 own.2.fva
      else
        let red := redBytes (plFmt g.ws) g.max s.freeCtr
        let one := fun (t : Tbl (List Byte) × Nat) (q : (Nat × List Nat) × List Nat × List Byte) =>
          (List.zip q.1.2 (splitBy q.2.1 q.2.2)).foldl (fun t k => g.plan.take c.step q.1.1 red (g.own own.1) t k.1 k.2) t
        let r := (List.zip takes (List.zip sizes ps)).foldl one (c.part, c.evt)
        let lands := if g.plan.opc = 0 ∧ c.step < g.plan.redSteps then 0 else total (ps.map (·.length))
        let s1 := ({ own.2.st with freeCtr := s.freeCtr + 1 }.dropSteps (convKey g.ws) c.seq g.axis c.step).updConv x e fun c =>
          { c with step := c.step + 1, went := none, part := r.1, evt := r.2, landed := c.landed + lands }
        if c.step + 1 < g.plan.steps then s1.convSoon x e
        else match (s1.plent x e).convs with
          | d :: _ => s1.stageDone x e d g
          | [] => s1

/-- CONVERSION_STAGE_COMPLETE (13 R214): what an entry's conversion does next: it starts a stage, sends or takes a step, exchanges BASE and
ALT, or completes. `peers` are payloads that come with the event, in the order of their senders' ranks; of another size they mean nothing. -/
def execConversionStageComplete (ctx : Fin 64) (entry : Fin 1024) (peers : List (List Byte)) (s : State) : Out :=
  let x := ctx.val
  let e := entry.val
  let p := s.plent x e
  match p.convs with
  | [] => .next s
  | c :: _ =>
    let g := convStage s.regs.meshcfg p.words c
    .next (match c.puts with
      | some ms => if s.idsOut c.ids then s.convNext x e else if ms.isEmpty then s.convFin x e 0 0 else s
      | none =>
        if c.joinAt = 0 then s.convGo x e (4 - c.axis)
        else if c.ids.isSome then (if s.idsOut c.ids then s.convNext x e else s.stageSwap x e c g)
        else if g.kind = .local_ then s.stageDone x e c g
        else if !c.begun then s
        else match c.went with
          | some ms => s.convTake x e c g ms peers
          | none =>
            let s1 := s.convSend x e c g
            match (s1.plent x e).convs with
            | d :: _ => (match d.went with
              | some ms => if d.seq = c.seq then s1.convTake x e d g ms peers else s1
              | none => s1)
            | [] => s1)

/-- A conversion's held store has been applied at another member, or has faulted there (13 R218). -/
def State.convApplied (s : State) (msg : Nat) (fva : Option Nat) : State :=
  s.ctxs.foldl (fun (s : State) x => x.2.ptab.foldl (fun (s : State) e => match e.2.convs with
    | c :: _ => (match c.puts with
      | some ms =>
        if ms.any (·.1 == msg) then
          match fva with
          | some a => s.convFin x.1 e.1 1 a
          | none => (s.updConv x.1 e.1 fun c => { c with puts := some (ms.filter (·.1 != msg)) }).convSoon x.1 e.1
        else s
      | none => s)
    | [] => s) s) s

/-! ### Stores through entries -/

/-- Bytes of an entry's held stores. -/
def PlEnt.heldBytes (p : PlEnt) : Nat := p.held.foldl (fun n h => n + h.bytes.length) 0

/-- Virtual address of a store through an entry, from its place after `pstoreBase` (13 R218). -/
def pstoreVa (ws : List Word) (a : Nat) : Nat := (a + 2 ^ 64 - pstoreBase + plBase ws) % 2 ^ 64

/-- The core's copies of the lines that some bytes at a virtual address lie in take them (04 R81, R95). -/
def State.l1StoreVa (s : State) (c x : Nat) : Nat → Nat → List Byte → State
  | 0, _, _ => s
  | f + 1, va, bs =>
    if bs.isEmpty then s else
      let k := 128 - va % 128
      let s1 := match s.agentXlate (some c) x va true false with
        | .ok key _ _ =>
          let m : List (Bool × Byte) := (List.range 128).map fun i => if va % 128 ≤ i ∧ i < va % 128 + (bs.take k).length then (true, bs.getD (i - va % 128) 0) else (false, 0)
          s.l1Store c (lineOf key) m
        | _ => s
      s1.l1StoreVa c x f (va + k) (bs.drop k)

/-- The pieces of a store through an entry written in order by its eave unit; it ends at the first that faults. -/
def State.pstoreGo (s : State) (c x g : Nat) (ws : List Word) : List (Nat × List Byte) → State × Option (Nat × Nat)
  | [] => (s, none)
  | b :: bs =>
    let r := s.vwrite (some c) x g (pstoreVa ws b.1) b.2
    if r.2.isSome then r else (r.1.l1StoreVa c x (b.2.length / 128 + 2) (pstoreVa ws b.1) b.2).pstoreGo c x g ws bs

/-- TSTH_AT_EAVE: a store through a handle at its entry's eave unit (13 R218): performed, held, or PLSTALE. -/
def execTsthAtEave (core : Fin 64) (id : Nat) (s : State) : Out :=
  let c := core.val
  match (s.core c).op id with
  | none => .next s
  | some o => match o.kind with
    | .pstore e bytes =>
      if o.fq then .next s
      else
        let x := s.ctxOf c
        let p := s.plent x (hPle e.ws)
        let ws := p.words
        let g := 8 + plAff ws % 8
        let stop := fun (s : State) (cause va : Nat) => s.agentFault x cause fun s => s.opFault c o cause 2 1 va (.op c id)
        let finish := fun (s : State) => ((s.updCore c fun k => k.dropOp id).ended c).pump c
        let s0 := s.merge g (s.stampOf (c / 8))
        if hVer e.ws != plVer ws then .next (stop s 8 (hFirst e.shape e.ws (plBase ws) e.offs))
        else if plConv ws then
          if 2 ^ 22 < p.heldBytes + bytes.foldl (fun n b => n + b.2.length) 0 then .next (s.after 60 (.tsthAtEave core id))
          else
            let place := fun (b : Nat × List Byte) =>
              (heldAt s.regs.meshcfg ws ((b.1 : Int) - pstoreBase) b.2.length).map fun k => (⟨k, some c, none, b.2⟩ : HeldSt)
            .next (finish (s0.updPlent x (hPle e.ws) fun p => { p with held := p.held ++ bytes.filterMap place }))
        else
          let w := s0.pstoreGo c x g ws bytes
          .next (match w.2 with
            | some (va, cause) => stop w.1 cause va
            | none => finish w.1)
    | _ => .next s

/-- The entry of a tensor: the first context's valid one with its identifier. -/
def State.entryOfTid (s : State) (tid : Nat) : Option (Nat × Nat) := (s.ctxs.flatMap fun x =>
  (x.2.ptab.filter fun e => plV e.2.words && plTid e.2.words == tid).map fun e => (x.1, e.1)).head?

/-- A peer's held store arrives for an element that this member now holds (13 R218). While the conversion it belongs to has not done its
stages here it is held too; else it is written. -/
def State.peerHeld (s : State) (peer unit : Nat) (stamp : Stamp) (needs : List (Nat × Nat)) (tid seq place msg : Nat) (bs : List Byte) : State :=
  match s.entryOfTid tid with
  | none => (s.sendPeer (8 + unit) 4 peer 0xFFFF [] (.applied msg (some 0))).1
  | some (x, e) =>
    let p := s.plent x e
    let open_ := match p.convs with
      | c :: _ => c.seq == seq && c.puts.isNone
      | [] => false
    if open_ then s.updPlent x e fun p => { p with held := p.held ++ [⟨place, none, some (peer, msg), bs⟩] }
    else match heldGoes s.regs.meshcfg s.regs.pkrank p.words place with
      | .inl off => s.peerPut peer unit stamp needs x (plBase p.words + off) none msg bs
      | .inr _ => (s.sendPeer (8 + unit) 4 peer 0xFFFF [] (.applied msg (some 0))).1

/-! ### Collective steps -/

/-- Fields of a collective descriptor (13 Table 13.6). -/
def clTag (d : List Word) : Nat := get (wnth d 0) 63 48
def clAxis (d : List Word) : Nat := get (wnth d 0) 35 34
def clCmp (d : List Word) : Bool := bit (wnth d 0) 33
def clTree (d : List Word) : Bool := bit (wnth d 0) 32
def clOpc (d : List Word) : Nat := get (wnth d 0) 31 30
def clMax (d : List Word) : Bool := bit (wnth d 0) 29
def clFmt (d : List Word) : Nat := get (wnth d 0) 28 21
def clSrc (d : List Word) : Nat := get (wnth d 1) 51 0
def clDst (d : List Word) : Nat := get (wnth d 2) 51 0
def clCount (d : List Word) : Nat := (wnth d 3).toNat
def clResid (d : List Word) : Nat := get (wnth d 4) 51 0
def clBar (d : List Word) : Option Nat := if bit (wnth d 5) 57 then some (get (wnth d 5) 63 58) else none

/-- A descriptor as its steps see it. -/
def clPlan (m : Word) (d : List Word) : Plan := ⟨clOpc d, clTree d, axSize m (clAxis d), axAt m (clAxis d)⟩

/-- A descriptor is well formed: reserved fields, AFF, a format collectives take, CMP only where it may be (13 Table 13.6). -/
def clOk (d : List Word) : Bool :=
  let f := clFmt d
  get (wnth d 0) 47 40 == 0 && get (wnth d 0) 20 0 == 0 && get (wnth d 1) 63 52 == 0 && get (wnth d 2) 63 52 == 0 &&
  get (wnth d 4) 63 52 == 0 && get (wnth d 5) 56 52 == 0 && wnth d 6 == 0 && wnth d 7 == 0 && decide (get (wnth d 0) 39 36 ≤ 7) &&
  (decide (f ≤ 2) || ((fmtOf f).any Fmt.isInt)) && (!clCmp d || clOpc d == 0 || clOpc d == 2)

/-- A step tries to start: it waits for the step before it (13 R219). -/
def State.collTry (s : State) (k : Coll) : State :=
  let before := s.ridge.done.find? fun d => d.ctx == k.ctx && d.addr == k.addr && d.step + 1 == k.step
  let busy := s.ridge.colls.any fun v => v.sent && v.ctx == k.ctx && v.addr == k.addr
  if k.sent || !(k.step == 0 || before.isSome) || busy then s
  else
    let m := s.regs.meshcfg
    let part := if k.step = 0 then [] else (before.map (·.part)).getD []
    let s1 := s.updRidge fun r => { r with colls := updWhere (fun v => v.id == k.id) (fun v => { v with sent := true, part := part }) r.colls }
    let w := (Work.on s1).sendJoins (8 + k.aff % 8) m (clAxis k.desc) (2 ^ 32 + clTag k.desc) k.step 0 0
    if w.res ≠ 0 then w.st.endColl k 2 0
    else w.st.after (2 ^ get m 53 48) (.joinTimeout (fin64 0) (fin1024 0) (2 ^ 16 + k.id))

/-- A collective step changed. -/
def State.updColl (s : State) (id : Nat) (f : Coll → Coll) : State := s.updRidge fun r => { r with colls := updWhere (fun v => v.id == id) f r.colls }

/-- A step whose joins are all there begins (13 R216, R219). -/
def State.collJoined (s : State) (k : Coll) : State :=
  let m := s.regs.meshcfg
  let a := clAxis k.desc
  let mine := s.ridge.joins.filter fun j => j.key == 2 ^ 32 + clTag k.desc && j.seq == k.step && j.axis == a
  let ranks := mine.map (·.rank)
  if !k.sent || k.begun then s
  else if (List.range (axSize m a)).all fun j => j == axAt m a || ranks.contains j then
    ((s.updColl k.id fun v => { v with begun := true, joined := ranks }).updRidge fun r => { r with joins := r.joins.filter fun j => !mine.contains j }).soon
      (.collectiveStepComplete k.id [])
  else s

/-- Chunk `c` of `count` elements on `n` members: first element, and the one after the last (02 R48). -/
def chunkOf (count n c : Nat) : Nat × Nat :=
  let k := ceilDiv count n
  (min (c * k) count, min ((c + 1) * k) count)

/-- Where a chunk lies in the source buffer: first element and number. -/
def clSpan (d : List Word) (p : Plan) (c : Nat) : Nat × Nat :=
  if p.opc = 1 ∨ (p.opc = 0 ∧ p.tree = true) then (0, clCount d)
  else
    let k := chunkOf (clCount d) p.n c
    (k.1, k.2 - k.1)

/-- Elements of a chunk as this member receives it, and where it goes in the destination buffer. -/
def clTake (d : List Word) (p : Plan) (c : Nat) : Nat := if p.opc = 3 then (clSpan d p p.me).2 else (clSpan d p c).2
def clInto (d : List Word) (p : Plan) (c : Nat) : Nat := match p.opc with
  | 1 => c * clCount d
  | 2 => 0
  | 3 => c * ceilDiv (clCount d) p.n
  | _ => (clSpan d p c).1

/-- The step in which results begin to go round, and the chunk of them that this member has by then. -/
def clSeal (p : Plan) (step : Nat) : Option Nat :=
  if p.opc = 0 ∧ step = p.redSteps then (if p.tree then (if p.me = 0 then some 0 else none) else some p.me) else none

/-- Chunks whose results are written in a step: what a member has of its own, and what it receives (13 R219; log 22). -/
def clLands (d : List Word) (p : Plan) (step : Nat) : List Nat :=
  let takes := (p.takes step).flatMap (·.2)
  match p.opc with
  | 2 => if step + 1 = p.steps then [p.me] else []
  | 0 =>
    let mine := if clCmp d then clSeal p step else if step + 1 = p.redSteps then clSeal p (step + 1) else none
    mine.toList ++ if step < p.redSteps then [] else takes
  | _ => (if step = 0 then [p.me] else []) ++ takes

/-! ### Compressed collectives -/

/-- Value of element bits of a collective's format. -/
def clVal (fmt b : Nat) : Val := match fmtOf fmt with
  | some f => decodeElem f b
  | none => .zero

/-- A value rounded once into a collective's format; integers wrap (02 R48). -/
def clPack (fmt : Nat) (v : Val) : Nat × Nat := match fmtOf fmt with
  | some (.flt f) => packFloat f .rne false 0 v
  | some (.int n) => let r := packInt true 512 .rne 0 v; (lowBits n r.1, r.2)
  | some (.uint n) => let r := packInt true 512 .rne 0 v; (lowBits n r.1, r.2)
  | _ => (0, 0)

/-- A block of 32 elements as it is sent: its 17 bytes, its events, and the residuals it leaves (11 R191). -/
def sendBlock (s : State) (key : Nat) (xs : List Val) : List Byte × State × Nat :=
  let rs := (List.range xs.length).map fun i => decodeFloat .fp32 (Tbl.getD s.ridge.resid (key + 4 * i) 0)
  let ys := List.zipWith (fun x r => (roundF32 (x.add r).1)) xs rs
  let q := quantBlock 4 .rne [] (ys.map (·.1))
  let res := List.zipWith (fun (y : Val × Nat) (c : Nat × Nat) =>
    if q.1 = 255 then 0 else (packFloat .fp32 .rne false 0 (y.1.add (mxVal 4 c.1 q.1).1.neg).1).1) ys q.2
  let put := fun (s : State) (e : Nat × Nat) => s.updRidge fun r => { r with resid := if e.2 = 0 then Tbl.erase r.resid e.1 else Tbl.set r.resid e.1 e.2 }
  let codes := (q.2.foldr (fun c n => n * 16 + c.1 % 16) 0)
  (natLE 16 codes ++ natLE 1 q.1, (res.mapIdx fun i v => (key + 4 * i, v)).foldl put s,
    q.2.foldl (fun e c => e ||| c.2) 0 ||| ys.foldl (fun e y => e ||| y.2) 0)

/-- A chunk as it is sent, block by block. `key` is the residual of its first element. -/
def sendChunk (s : State) (key : Nat) (xs : List Val) : List Byte × State × Nat :=
  let a := (chunks 32 (ceilDiv xs.length 32) xs).foldl (fun (a : (List Byte × State × Nat) × Nat) b =>
    let r := sendBlock a.1.2.1 a.2 b
    ((a.1.1 ++ r.1, r.2.1, a.1.2.2 ||| r.2.2), a.2 + 128)) (([], s, 0), key)
  a.1

/-- Values of `n` elements in blocks of 17 bytes, and their events (11 R191). -/
def openBlocks (bs : List Byte) (n : Nat) : List (Val × Nat) :=
  (List.range n).map fun i =>
    let b := slice bs (17 * (i / 32)) 17
    mxVal 4 (nget (numAt b 0 16) (4 * (i % 32) + 3) (4 * (i % 32))) (numAt b 16 1)

/-- A received value combined with one held here on the side that `left` tells, rounded once into the format. -/
def clJoin (d : List Word) (left : Bool) (a : Val × Nat) (own : Nat) : Nat × Nat :=
  let y := clVal (clFmt d) own
  let v := if clMax d then ((if left then a.1.max y else y.max a.1), 0) else (if left then a.1.add y else y.add a.1)
  let r := clPack (clFmt d) v.1
  (r.1, a.2 ||| v.2 ||| r.2)

/-- Values of a chunk of bytes. -/
def clVals (fmt : Nat) (bs : List Byte) : List Val := (List.range (bs.length / cellSize fmt)).map fun i => clVal fmt (numAt bs (cellSize fmt * i) (cellSize fmt))

/-- Bytes of a chunk of `n` elements on the wire. -/
def clWire (d : List Word) (n : Nat) : Nat := if clCmp d then 17 * ceilDiv n 32 else n * cellSize (clFmt d)

/-- A chunk as it came over the wire in the format of the buffers. -/
def clOpen (d : List Word) (n : Nat) (bs : List Byte) : List Byte × Nat :=
  if clCmp d then
    let vs := (openBlocks bs n).map fun v => let r := clPack (clFmt d) v.1; (r.1, v.2 ||| r.2)
    ((vs.map fun v => natLE (cellSize (clFmt d)) v.1).flatten, vs.foldl (fun e v => e ||| v.2) 0)
  else (bs, 0)

/-- Residual of a collective's element: the staging SRAM of its eave unit (11 R191). -/
def Coll.residKey (k : Coll) (i : Nat) : Nat := k.aff % 8 * 2 ^ 52 + clResid k.desc + 4 * i

/-- The first byte of the residual area that lies beyond the 16 MiB of staging SRAM (01 R12, Table 1.3): an access there faults (DEDUCED, log
22). -/
def clBeyond (d : List Word) : Option Nat := if clCmp d && decide (2 ^ 24 < clResid d + 4 * clCount d) then some (max (clResid d) (2 ^ 24)) else none

/-! ### One step -/

/-- This member's own chunks, read from the source buffer. -/
def Coll.own (k : Coll) (p : Plan) (f : For) (w : Work) (cs : List Nat) : Tbl (List Byte) × Work :=
  let z := cellSize (clFmt k.desc)
  cs.foldl (fun (a : Tbl (List Byte) × Work) c =>
    let sp := clSpan k.desc p c
    let r := a.2.read f (clSrc k.desc + sp.1 * z) (sp.2 * z)
    (Tbl.set a.1 c r.1, r.2)) ([], w)

/-- A chunk is compressed as it is sent for the first time (11 R191); a result that goes on is sent as it came, so that every member has the same
(02 R48; DEDUCED, log 22). -/
def Coll.enc (k : Coll) (p : Plan) (w : Work) (c : Nat) (bs : List Byte) : List Byte × Work :=
  if !clCmp k.desc then (bs, w)
  else
    let r := sendChunk w.st (k.residKey (clSpan k.desc p c).1) (clVals (clFmt k.desc) bs)
    (r.1, { w with st := r.2.1, evt := w.evt ||| r.2.2 })

/-- The result that a member has of its own as results begin to go round, as they go. -/
def Coll.sealOwn (k : Coll) (p : Plan) (w : Work) : Tbl (List Byte) × Work := match clSeal p k.step with
  | some c => match Tbl.get k.part c with
    | some bs => let r := k.enc p w c bs; (Tbl.set k.part c r.1, r.2)
    | none => (k.part, w)
  | none => (k.part, w)

/-- The step's chunks go out on VC2, one message to each member that it sends to (13 R219). -/
def State.collSend (s : State) (k : Coll) : State :=
  let d := k.desc
  let m := s.regs.meshcfg
  let p := clPlan m d
  let f : For := ⟨none, k.ctx, 8 + k.aff % 8⟩
  let sends := p.sends k.step
  let sealed := k.sealOwn p (Work.on s)
  let own := k.own p f sealed.2 ((sends.flatMap (·.2)).filter fun c => p.opc == 3 || (Tbl.get sealed.1 c).isNone)
  let enc := fun (a : List Byte × Work) (c : Nat) =>
    let bs := p.have (fun c => Tbl.getD own.1 c []) sealed.1 c
    let r := if k.step < p.redSteps then k.enc p a.2 c bs else (bs, a.2)
    (a.1 ++ r.1, r.2)
  let w := sends.foldl (fun (w : Work) q =>
    let e := q.2.foldl enc ([], w)
    e.2.send f.agent 2 (meshRank m (memberAt m (clAxis d) q.1)) e.1 fun _ => .step (2 ^ 32 + clTag d) p.me k.step (clAxis d) k.step) own.2
  match clBeyond d with
  | some a => s.endColl k 1 a
  | none =>
    if w.res ≠ 0 then w.st.endColl { k with evt := k.evt ||| w.evt } w.res w.fva
    else w.st.updColl k.id fun v => { v with went := some w.msgs, part := sealed.1, evt := v.evt ||| w.evt }

/-- A chunk that is received is combined with what is here, or stands as it came. -/
def Coll.takeOne (k : Coll) (p : Plan) (q : Nat) (own : Nat → List Byte) (t : Tbl (List Byte) × Nat) (c : Nat) (bs : List Byte) :
    Tbl (List Byte) × Nat :=
  let d := k.desc
  if clCmp d && decide (k.step < p.redSteps) then
    let vs := (openBlocks bs (clTake d p c)).mapIdx fun i v =>
      clJoin d (!(p.byTree && decide (p.me < q))) v (numAt (p.have own t.1 c) (cellSize (clFmt d) * i) (cellSize (clFmt d)))
    (Tbl.set t.1 c (vs.map fun v => natLE (cellSize (clFmt d)) v.1).flatten, vs.foldl (fun e v => e ||| v.2) t.2)
  else p.take k.step q (redBytes (clFmt d) (clMax d) 0) own t c bs

/-- A step ends when its messages have been acknowledged and its receives applied (13 R219): what it received is combined, its results are
written, and its bytes land. -/
def State.collTake (s : State) (k : Coll) (went : List (Nat × Nat)) (given : List (List Byte)) : State :=
  let d := k.desc
  let m := s.regs.meshcfg
  let p := clPlan m d
  let f : For := ⟨none, k.ctx, 8 + k.aff % 8⟩
  let takes := p.takes k.step
  let sizes := takes.map fun q => q.2.map fun c => clWire d (clTake d p c)
  let total := fun (l : List Nat) => l.foldl (· + ·) 0
  match s.payloads (2 ^ 32 + clTag d) k.step (clAxis d) k.step (List.zipWith (fun q l => (q.1, total l)) takes sizes) given with
  | none => s
  | some ps =>
    if !s.allAcked went then s
    else
      let need := (if k.step < p.redSteps then (takes.flatMap (·.2)).filter fun c => (Tbl.get k.part c).isNone else []) ++
        (if k.step = 0 ∧ p.redSteps = 0 then [p.me] else [])
      let own := k.own p f (Work.on (s.dropSteps (2 ^ 32 + clTag d) k.step (clAxis d) k.step)) need
      let mine := fun (c : Nat) => Tbl.getD own.1 c []
      let one := fun (t : Tbl (List Byte) × Nat) (q : (Nat × List Nat) × List Nat × List Byte) =>
        (List.zip q.1.2 (splitBy q.2.1 q.2.2)).foldl (fun t c => k.takeOne p q.1.1 mine t c.1 c.2) t
      let r := (List.zip takes (List.zip sizes ps)).foldl one (k.part, k.evt)
      let land := fun (w : Work) (c : Nat) =>
        let wire := decide (p.redSteps ≤ k.step)
        let bs := if p.redSteps = 0 ∧ c = p.me then (mine c, 0) else if wire then clOpen d (clTake d p c) (Tbl.getD r.1 c []) else (Tbl.getD r.1 c [], 0)
        (w.write f (clDst d + clInto d p c * cellSize (clFmt d)) bs.1).events bs.2
      let w := (clLands d p k.step).foldl land own.2
      let k1 := { k with evt := r.2 ||| w.evt, part := r.1, landed := total (ps.map (·.length)), ids := some (s.nextId, w.st.nextId) }
      if w.res ≠ 0 then w.st.endColl k1 1 w.fva
      else (w.st.updColl k.id fun _ => k1).soon (.collectiveStepComplete k.id [])

/-- COLLECTIVE_STEP_COMPLETE (13 R219): what a step does next: it starts, sends, takes, or completes once its writes have been applied. `peers`
are payloads that come with the event, in the order of their senders' ranks. -/
def execCollectiveStepComplete (id : Nat) (peers : List (List Byte)) (s : State) : Out :=
  let at_ := fun (s : State) => s.ridge.colls.find? fun k => k.id == id
  match at_ s with
  | none => .next s
  | some k => .next (
    if !k.sent then
      let s1 := s.collTry k
      match at_ s1 with
      | some k => s1.collJoined k
      | none => s1
    else if !k.begun then s
    else match k.ids with
      | some i =>
        if s.unapplied i.1 i.2 then s.after 1 (.collectiveStepComplete id [])
        else
          let s1 := match clBar k.desc with
            | some b => if k.landed = 0 then s else s.landForPacket k.ctx b k.landed
            | none => s
          s1.endColl k 0 0
      | none => match k.went with
        | some ms => s.collTake k ms peers
        | none =>
          let s1 := s.collSend k
          match at_ s1 with
          | some k1 => (match k1.went with
            | some ms => s1.collTake k1 ms peers
            | none => s1)
          | none => s1)

/-! ### What comes from peers -/

/-- A peer's join arrives (13 R216, R219). -/
def State.joinArrives (s : State) (j : Join) : State :=
  let s1 := s.updRidge fun r => { r with joins := r.joins ++ [j] }
  let s2 := s1.ctxs.foldl (fun (s : State) x => x.2.ptab.foldl (fun (s : State) e =>
    if e.2.convs.isEmpty || convKey e.2.words != j.key then s else s.convJoined x.1 e.1) s) s1
  s2.ridge.colls.foldl (fun (s : State) k => s.collJoined k) s2

/-- JOIN (13 R216, R219). -/
def execJoin (key rank : Nat) (seq axis src dst : Nat) (s : State) : Out := .next (s.joinArrives ⟨key, rank, seq, axis, src, dst⟩)

/-- Conversions and collective steps under way look again: something has come for them. -/
def State.pokeSteps (s : State) : State :=
  let s1 := s.ctxs.foldl (fun (s : State) x => x.2.ptab.foldl (fun (s : State) e => match e.2.convs with
    | c :: _ => if c.went.isSome then s.convSoon x.1 e.1 else s
    | [] => s) s) s
  (s1.ridge.colls.filter (·.went.isSome)).foldl (fun (s : State) k => s.soon (.collectiveStepComplete k.id [])) s1

/-- The payload of a peer's step arrives (13 R214, R219). -/
def State.stepArrives (s : State) (i : StepIn) : State := (s.updRidge fun r => { r with steps := r.steps ++ [i] }).pokeSteps

/-- JOIN_TIMEOUT: 2^JLOG cycles after the local join (13 R216). From 2^16 on `seq` names a collective step. -/
def execJoinTimeout (ctx : Fin 64) (entry : Fin 1024) (seq : Nat) (s : State) : Out :=
  if 2 ^ 16 ≤ seq then
    match s.ridge.colls.find? fun k => k.id + 2 ^ 16 == seq with
    | some k => .next (if k.sent && !k.begun then s.endColl k 4 0 else s)
    | none => .next s
  else match (s.plent ctx.val entry.val).convs with
    | [] => .next s
    | c :: _ =>
      if c.seq = seq ∧ c.joinAt ≠ 0 ∧ c.begun = false ∧ c.joinAt + 2 ^ get s.regs.meshcfg 53 48 ≤ s.now + 1 then .next (s.convEnd ctx.val entry.val 4 0)
      else .next s

/-- Conversions of a context end with RESULT 5 (05 R116; 13 Table 13.7). -/
def State.cancelConvs (s : State) (x : Nat) : State :=
  (s.ctx x).ptab.foldl (fun (s : State) e =>
    let gone := e.2.later.filterMap (·.pkt)
    let s1 := gone.foldl (fun (s : State) k => s.packetDone k.1 k.2 (8 + plAff e.2.words % 8)) (s.updPlent x e.1 fun p => { p with later := [] })
    e.2.convs.foldl (fun (s : State) _ => s.convEnd x e.1 5 0) s1) s

/-- Conversions and collective steps that a lost link served end with RESULT 2 (11 R179; 13 R216): those whose axis has a member that link `l`
led to, as the state before its loss has it, and those that await an answer over it. -/
def State.loseConvs (s old : State) (l : Nat) : State :=
  let m := s.regs.meshcfg
  let cut := fun (g a : Nat) => (List.range (axSize m a)).any fun j => j != axAt m a && old.linkFor g (meshRank m (memberAt m a j)) == some l
  let s1 := s.ctxs.foldl (fun (s : State) x => x.2.ptab.foldl (fun (s : State) e => match e.2.convs with
    | c :: _ =>
      let g := 8 + plAff e.2.words % 8
      let stage := c.joinAt != 0 && (convStage m e.2.words c).kind != .local_ && cut g c.axis
      let put := (c.puts.getD []).any (·.2 == l)
      if stage || put then s.convEnd x.1 e.1 2 0 else s
    | [] => s) s) s
  (s1.ridge.colls.filter fun k => k.sent && cut (8 + k.aff % 8) (clAxis k.desc)).foldl (fun (s : State) k => s.endColl k 2 0) s1

end Sys2Proof.Machine
end

