-- ==== Sys2Proof/Machine/Transfer.lean ====
section
/-! DEFINITION. The ridge transfer engine: chains, slabs and expert slots (18 R320 to R325; 10 R173 to R177; 21 R380 to R383). -/

namespace Sys2Proof.Machine
open Sys2Proof.Bits

/-- A request has been served: its value goes back to the core with no stamp (21 R367; 18 R324). -/
def State.status (s : State) (c id : Nat) (v : Word) (back : Nat) : State :=
  let s1 := (s.stash c id v).updCore c fun k => k.dropOp id
  ((s1.replyAfter c back id).ended c).pump c

/-- A device semaphore is claimed for a context. -/
def State.claimedBy (s : State) (n x : Nat) : Bool :=
  let e := Tbl.getD s.ridge.claims n 0
  decide (n < 65536) && e == 128 + x

/-! ### Chains -/

/-- A link is well formed (18 R321). -/
def State.linkOk (s : State) (x at_ : Nat) (ws : List Word) : Bool :=
  let len := get (wnth ws 2) 39 0
  get (wnth ws 0) 63 52 == 0 && get (wnth ws 1) 63 52 == 0 && get (wnth ws 2) 63 58 == 0 && get (wnth ws 3) 63 52 == 0 &&
  get (wnth ws 0) 51 0 % 128 == 0 && get (wnth ws 1) 51 0 % 128 == 0 && len != 0 && len % 128 == 0 && at_ % 32 == 0 &&
  (!bit (wnth ws 2) 57 || s.claimedBy (get (wnth ws 2) 56 40) x)

/-- Cycles the engine takes for the link at the head of a channel (log 1). -/
def State.linkTime (s : State) (x : Nat) (c : Chain) : Nat :=
  match s.vread c.core x 16 c.link 32 with
  | .ok (bs, _) => 1 + get (wordAt bs 2) 39 0 / 64
  | .error _ => 1

/-- The chain at the head of a channel starts, WM 0 (18 R322). -/
def State.startChain (s : State) (ch : Nat) : State := match (s.xch ch).chains with
  | [] => s.updXch ch fun k => { k with state := 0 }
  | _ :: _ => (s.updXch ch fun k => { k with wm := 0 }).settled 0 (.transferLinkComplete (fin64 ch))

/-- A chain for channel `ch` of context `x`: 0 accepted, 1 full, 2 refused (18 R323). -/
def State.acceptChain (s : State) (x ch : Nat) (c : Chain) : State × Nat :=
  let k := s.xch ch
  if 63 < ch ∨ bit k.own 6 = false ∨ get k.own 5 0 ≠ x then (s, 2)
  else if 8 ≤ k.chains.length then (s, 1)
  else
    let s1 := s.updXch ch fun k => { k with chains := k.chains ++ [c], fva := if k.chains.isEmpty then 0 else k.fva, state := 1 }
    (if k.chains.isEmpty then s1.startChain ch else s1, 0)

/-- A chain stops: its channel is FAULTED and its queued chains go (18 R322). -/
def State.faultChain (s : State) (ch va : Nat) : State :=
  let pk := (s.xch ch).chains.filterMap (·.pkt)
  let s1 := s.updXch ch fun k => { k with state := 2, chains := [], fva := va }
  pk.foldl (fun (s : State) p => s.packetDone p.1 p.2 16) s1

/-- Bytes of `len` written with the numbers from `lo` to `hi` - 1 that have been applied at their homes, as an unbroken prefix: those before
the first write that is not (18 R322). -/
def State.applied (s : State) (lo hi len : Nat) : Nat :=
  let ids := s.writes.filterMap fun w =>
    if w.src == 0 && decide (lo ≤ w.id ∧ w.id < hi) then some w.id else none
  len - 128 * (hi - ids.foldl min hi)

/-- The link at the head of a channel has been carried out: the watermark has passed its bytes, the semaphore rises, and the next link or
the chain's completion follows (18 R322). -/
def State.linkDone (s : State) (ch : Nat) (c : Chain) (rest : List Chain) (ws : List Word) : State :=
  let s1 := s.updXch ch fun k => { k with wm := (k.wm + get (wnth ws 2) 39 0) % 2 ^ 48 }
  let s2 := if bit (wnth ws 2) 57 then s1.addSem 16 (get (wnth ws 2) 56 40) 1 else s1
  let next := get (wnth ws 3) 51 0
  if next ≠ 0 then
    let c1 := { c with link := next, made := none }
    let s3 := s2.updXch ch fun k => { k with chains := c1 :: rest }
    s3.after (s3.linkTime (get (s.xch ch).own 5 0) c1) (.transferLinkComplete (fin64 ch))
  else
    let s4 := (s2.tick 16 0).updXch ch fun k => { k with chains := rest }
    let s5 := match c.pkt with
      | some p => s4.packetDone p.1 p.2 16
      | none => s4
    if rest.isEmpty then s5.updXch ch fun k => { k with state := 0 } else s5.startChain ch

/-- TRANSFER_LINK_COMPLETE: a chain's first link is taken up; at a link's end the source is read whole and the destination written, and
once every write has been applied at its home the link is done (18 R322). -/
def execTransferLinkComplete (ch : Fin 64) (s : State) : Out :=
  let k := s.xch ch.val
  let x := get k.own 5 0
  match k.chains with
  | [] => .next s
  | c :: rest =>
    let f : For := ⟨c.core, x, 16⟩
    let now := fun (s : State) (c : Chain) => s.updXch ch.val fun k => { k with chains := c :: rest }
    match c.made with
    | some m => .next (if s.unapplied m.2.1 m.2.2 then s.after 1 (.transferLinkComplete ch) else s.linkDone ch.val c rest m.1)
    | none =>
      if c.on = false then .next ((now s { c with on := true }).after (s.linkTime x c) (.transferLinkComplete ch))
      else
      let l := (Work.on s).read f c.link 32
      let ws := (List.range 4).map (wordAt l.1)
      if l.2.res ≠ 0 then .next (l.2.st.faultChain ch.val l.2.fva)
      else if !s.linkOk x c.link ws then .next (l.2.st.faultChain ch.val c.link)
      else
        let dst := get (wnth ws 1) 51 0
        let src := l.2.read f (get (wnth ws 0) 51 0) (get (wnth ws 2) 39 0)
        let w := src.2.write f dst src.1
        let lo := src.2.st.nextId
        if w.res ≠ 0 then
          let upto := w.st.applied lo w.st.nextId (min (w.fva - dst) src.1.length)
          .next ((w.st.updXch ch.val fun k => { k with wm := (k.wm + upto) % 2 ^ 48 }).faultChain ch.val w.fva)
        else .next ((now w.st { c with made := some (ws, lo, w.st.nextId) }).after 0 (.transferLinkComplete ch))

/-- The word TWM returns (18 R324): of a link whose writes are not all applied, WM counts those that are. -/
def State.twmWord (s : State) (x : Nat) (ch : Word) : Word :=
  let k := s.xch (get ch 5 0)
  let part := match k.chains.head?.bind (·.made) with
    | some m => s.applied m.2.1 m.2.2 (get (wnth m.1 2) 39 0)
    | none => 0
  if get ch 63 7 ≠ 0 ∨ bit k.own 6 = false ∨ get k.own 5 0 ≠ x then allOnes
  else if bit ch 6 then BitVec.ofNat 64 k.fva
  else BitVec.ofNat 64 (k.state * 2 ^ 62 + k.chains.length % 16 * 2 ^ 48 + (k.wm + part) % 2 ^ 48)

/-! ### Slabs -/

/-- Fields of a slab entry (10 Table 10.6). -/
def sbState (ws : List Word) : Nat := get (wnth ws 0) 63 62
def sbCap (ws : List Word) : Nat := get (wnth ws 0) 61 57
def sbBase (ws : List Word) : Nat := get (wnth ws 0) 51 0
def sbRow (ws : List Word) : Nat := 128 * get (wnth ws 1) 15 0
def sbNew (ws : List Word) : Nat := get (wnth ws 2) 51 0
def sbWm (ws : List Word) : Nat := get (wnth ws 3) 20 0

/-- Words of an entry. -/
def slabWords (state cap base row newb wm : Nat) : List Word :=
  [BitVec.ofNat 64 (state % 4 * 2 ^ 62 + cap % 32 * 2 ^ 57 + base % 2 ^ 52), BitVec.ofNat 64 (row / 128 % 2 ^ 16),
   BitVec.ofNat 64 (newb % 2 ^ 52), BitVec.ofNat 64 (wm % 2 ^ 21)]

/-- Outcome of slab_va (10 R174). -/
inductive SlabVa where
  | at_ (va : Nat)
  | fault
  | wait
  deriving DecidableEq, Repr

/-- slab_va (10 R174). -/
def slabVa (ws : List Word) (p : Nat) : SlabVa :=
  let cap := 2 ^ sbCap ws
  let growing := sbState ws == 2
  if sbState ws = 0 ∨ 2 * cap ≤ p ∨ (sbState ws = 1 ∧ cap ≤ p) then .fault
  else if growing && (decide (p < sbWm ws) || decide (cap ≤ p)) then .at_ (sbNew ws + p * sbRow ws)
  else if growing && decide (p < sbWm ws + 64) then .wait
  else .at_ (sbBase ws + p * sbRow ws)

/-- An entry of KIND 6 (10 Table 10.4); an unreadable table fences the context instead (10 R166). -/
def State.slabFault (s : State) (x cause core opnd va : Nat) (by_ : Nat × Nat × Nat) (again : Again) : State :=
  s.agentFault x cause fun s => s.faultEntry x cause core by_.1 6 opnd by_.2.1 va by_.2.2 again

/-- Group id, slot and bundle of an operation. -/
def State.byOf (s : State) (c : Nat) (o : MemOp) : Nat × Nat × Nat := ((s.gidOf c).toNat, o.pos % 8, o.addr)

/-- Rows of a PUT or GET (21 R380): answers the work, rows done, and a fault (cause, byte, operand) or a wait. -/
def slabRows (f : For) (k : Nat) (put : Bool) (p m : Nat) : Nat → Nat → Work → Work × Nat × Option (Nat × Nat × Nat) × Bool
  | 0, i, w => (w, i, none, false)
  | n + 1, i, w =>
    let ws := (w.st.slab f.ctx k).words
    match slabVa ws (p + i) with
    | .fault => (w, i, some (9, (sbBase ws + (p + i) * sbRow ws) % 2 ^ 52, if put then 0 else 1), false)
    | .wait => (w, i, none, true)
    | .at_ va =>
      let mem := m + i * sbRow ws
      let src := if put then mem else va
      let dst := if put then va else mem
      match w.st.vread f.core f.ctx f.agent src (sbRow ws) with
      | .error (a, c) => (w, i, some (c, a, 1), false)
      | .ok (bs, s) => match s.vwrite f.core f.ctx f.agent dst bs with
        | (s1, none) => slabRows f k put p m n (i + 1) { w with st := s1 }
        | (s1, some (a, c)) => ({ w with st := s1 }, i, some (c, a, 0), false)

/-- The reply of a PUT or GET once its rows' writes have been applied (21 R380). -/
def State.slabReply (s : State) (c id lo hi : Nat) : State :=
  if s.unapplied lo hi then s.replyAfter c 1 id else s.answer c id 0 28

/-- PUT or GET at the transfer engine: rows done stand; a fault leaves the rest for FRSM, a wait for the growth; `first` numbers the first
write of its rows (21 R380). -/
def State.slabMove (s : State) (c id : Nat) (o : MemOp) (a b b2 : Word) (first : Nat) : State :=
  let lo := if first = 0 then s.nextId else first
  let x := s.ctxOf c
  let k := get a 11 0
  let put := get a 63 60 == 2
  let n := get a 43 32 + 1
  let r := slabRows ⟨some c, x, 16⟩ k put b.toNat b2.toNat n 0 (Work.on s)
  let i := r.2.1
  let row := sbRow (s.slab x k).words
  let rest : Req := .slbxl (put_ a (n - i)) (b + BitVec.ofNat 64 i) (b2 + BitVec.ofNat 64 (i * row)) lo
  let keep := fun (s : State) (r : Req) => s.updCore c fun k => k.updOp id fun o => match o.kind with
    | .req _ t => { o with kind := .req r t }
    | _ => o
  match r.2.2.1, r.2.2.2 with
  | some (cause, va, opnd), _ => (keep r.1.st rest).agentFault x cause fun s => s.opFault c o cause 6 opnd va (.op c id)
  | none, true => (keep r.1.st rest).replyAfter c 16 id
  | none, false =>
    let hi := r.1.st.nextId
    (keep r.1.st (.slabDone lo hi)).slabReply c id lo hi
where
  /-- xA with `n` rows to go. -/
  put_ (a : Word) (n : Nat) : Word := Sys2Proof.Bits.put a 43 32 (n - 1)

/-- SLBXL at the ridge (21 R380). -/
def State.slabArrives (s : State) (c id : Nat) (o : MemOp) (a b b2 : Word) (lo : Nat) : State :=
  let x := s.ctxOf c
  let k := get a 11 0
  let ws := (s.slab x k).words
  let reply := fun (s : State) (v : Word) => s.answer c id v 28
  match get a 63 60 with
  | 0 =>
    let cap := get a 29 25
    if get a 59 30 ≠ 0 ∨ get a 15 12 ≠ 0 ∨ sbState ws ≠ 0 ∨ cap < 6 ∨ 20 < cap ∨ b.toNat % 128 ≠ 0 then reply s 2
    else reply (s.updSlab x k fun e => { e with words := slabWords 1 cap b.toNat (128 * (get a 24 16 + 1)) 0 0 }) 0
  | 1 => if get a 59 12 ≠ 0 ∨ sbState ws ≠ 1 then reply s 2 else reply (s.updSlab x k fun _ => Slab.reset) 0
  | 4 =>
    if get a 59 12 ≠ 0 then reply s 2
    else match slabVa ws b.toNat with
      | .at_ va => reply s (BitVec.ofNat 64 va)
      | .fault => reply s allOnes
      | .wait => s.replyAfter c 16 id
  | n =>
    if n = 2 ∨ n = 3 then
      (if get a 59 44 ≠ 0 ∨ get a 31 12 ≠ 0 ∨ b2.toNat % 128 ≠ 0 then reply s 2 else s.slabMove c id o a b b2 lo)
    else reply s 2

/-- SLBGR at the ridge (21 R381; 10 R175). -/
def State.growArrives (s : State) (c id : Nat) (o : MemOp) (a b : Word) : State :=
  let x := s.ctxOf c
  let k := get a 11 0
  let ws := (s.slab x k).words
  let sem := get a 32 16
  if get a 63 33 ≠ 0 ∨ get a 15 12 ≠ 0 ∨ sbState ws ≠ 1 ∨ sbCap ws = 20 ∨ b.toNat % 128 ≠ 0 ∨ (sem ≠ 0x1FFFF ∧ s.claimedBy sem x = false) then
    s.status c id 2 12
  else
    let by_ := s.byOf c o
    let s1 := s.updSlab x k fun _ => ⟨slabWords 2 (sbCap ws) (sbBase ws) (sbRow ws) b.toNat 0, sem, c, by_, false, none⟩
    (s1.settled (1 + sbRow ws) (.slabChunkCopied (fin64 x) (fin4096 k))).status c id 0 12

/-- SLAB_CHUNK_COPIED: 64 rows are written to the new copy, and once they are applied there WM passes them; at the end BASE, CAPLOG and
STATE change in one step, with a tick, then the semaphore (10 R175; 21 R381). -/
def execSlabChunkCopied (ctx : Fin 64) (k : Fin 4096) (s : State) : Out :=
  let x := ctx.val
  let e := s.slab x k.val
  let ws := e.words
  if sbState ws ≠ 2 ∨ e.stop then .next s
  else
    let f : For := ⟨some e.core, x, 16⟩
    let n := 64 * sbRow ws
    let off := sbWm ws * sbRow ws
    let stop := fun (s : State) (cause va opnd : Nat) =>
      (s.updSlab x k.val fun e => { e with stop := true }).slabFault x cause e.core opnd va e.by_ (.grow k.val)
    let again := fun (s : State) (d : Nat) => (.next (s.after d (.slabChunkCopied ctx k)) : Out)
    match e.ids with
    | none => (match s.vread f.core x 16 (sbBase ws + off) n with
      | .error (va, cause) => .next (stop s cause va 1)
      | .ok (bs, s1) => match s1.vwrite f.core x 16 (sbNew ws + off) bs with
        | (s2, some (va, cause)) => .next (stop s2 cause va 0)
        | (s2, none) => again (s2.updSlab x k.val fun e => { e with ids := some (s1.nextId, s2.nextId) }) 0)
    | some w =>
      let wm := sbWm ws + 64
      if s.unapplied w.1 w.2 then again s 1
      else if wm < 2 ^ sbCap ws then
        again (s.updSlab x k.val fun e => { e with words := slabWords 2 (sbCap ws) (sbBase ws) (sbRow ws) (sbNew ws) wm, ids := none }) (1 + sbRow ws)
      else
        let s3 := s.updSlab x k.val fun _ => { Slab.reset with words := slabWords 1 (sbCap ws + 1) (sbNew ws) (sbRow ws) 0 0 }
        let s4 := s3.tick 16 0
        .next (if e.sem < 65536 then s4.addSem 16 e.sem 1 else s4)

/-! ### Expert slots -/

/-- The window address of a slot (21 R382). -/
def State.slotVa (s : State) (n : Nat) : Word := BitVec.ofNat 64 (0xF_FFFF_C000_0000 + s.slotOff n)

/-- The slot that holds an expert of a context. -/
def State.slotOf (s : State) (x e : Nat) : Option Nat := (List.range 64).find? fun n =>
  let k := s.eslot n
  k.state != 0 && k.ctx == x && k.expert == e

/-- A slot evicted for another: farthest layer, then highest expert, then highest index (10 R177). -/
def State.slotVictim (s : State) (cl nl : Nat) : Option Nat :=
  let dist := fun (n : Nat) => (((s.eslot n).layer : Int) - cl) % (max nl 1 : Nat)
  let better := fun (n m : Nat) => decide (dist m < dist n ∨ (dist n = dist m ∧ (s.eslot m).expert ≤ (s.eslot n).expert))
  (List.range 64).foldl (fun (b : Option Nat) n =>
    if (s.eslot n).state = 2 ∧ (s.eslot n).readers = 0 then (match b with
      | some m => if better n m then some n else some m
      | none => some n)
    else b) none

/-- EXACQ at the ridge (10 R177; 21 R382). -/
def State.exacqArrives (s : State) (c id : Nat) (o : MemOp) (a b : Word) (cl nl : Nat) : State :=
  let x := s.ctxOf c
  let e := get a 9 0
  if get a 63 32 ≠ 0 ∨ get a 15 10 ≠ 0 ∨ b.toNat % 128 ≠ 0 then s.answer c id allOnes 28
  else match s.slotOf x e with
    | some n => (s.updEslot n fun k => { k with readers := k.readers + 1 }).answer c id (s.slotVa n) 28
    | none =>
      match ((List.range 64).find? fun n => (s.eslot n).state == 0).or (s.slotVictim cl nl) with
      | some n =>
        let by_ := s.byOf c o
        let s1 := s.updEslot n fun _ => ⟨1, x, e, get a 31 16, 1, b.toNat, c, by_, 0, none⟩
        (s1.settled 2 (.expertSlotFilled (fin64 n))).answer c id (s.slotVa n) 28
      | none => s.updRidge fun r => { r with exwait := r.exwait.filter (· ≠ (c, id)) ++ [(c, id)] }

/-- Waiting EXACQs retry, in arrival order (10 R177). -/
def State.exRetry (s : State) : State :=
  let ws := s.ridge.exwait
  ws.foldl (fun (s : State) w => match (s.core w.1).op w.2 with
    | some o => (match o.kind with
      | .req (.exacq a b cl nl) _ => s.exacqArrives w.1 w.2 o a b cl nl
      | _ => s)
    | none => s) (s.updRidge fun r => { r with exwait := [] })

/-- EXREL at the ridge (21 R383). -/
def State.exrelArrives (s : State) (c id : Nat) (a : Word) : State :=
  match s.slotOf (s.ctxOf c) (get a 9 0) with
  | some n =>
    if get a 63 10 ≠ 0 ∨ (s.eslot n).readers = 0 then s.answer c id 2 28
    else
      let s1 := (s.updEslot n fun k => { k with readers := k.readers - 1 }).answer c id 0 28
      if (s.eslot n).readers = 1 then s1.exRetry else s1
  | none => s.answer c id 2 28

/-- EXPERT_SLOT_FILLED: the next line of the weights is written into the slot and, once it is applied there, loads held for it go on; after
the last the slot is RESIDENT (10 R177; 21 R382). -/
def execExpertSlotFilled (n : Fin 64) (s : State) : Out :=
  let k := s.eslot n.val
  if k.state ≠ 1 then .next s
  else
    let fault := fun (s : State) (cause va : Nat) => s.slabFault k.ctx cause k.core 1 va k.by_ (.fill n.val)
    let again := fun (s : State) (d : Nat) => (.next (s.after d (.expertSlotFilled n)) : Out)
    match k.ids with
    | none => (match s.vread (some k.core) k.ctx 16 (k.src + k.filled) 128 with
      | .error (va, cause) => .next (fault s cause va)
      | .ok (bs, s1) =>
        let s2 := s1.agentWrite 16 (chipBase + s.slotOff n.val + k.filled) 16 bs
        again (s2.updEslot n.val fun k => { k with ids := some (s1.nextId, s2.nextId) }) 0)
    | some w =>
      if s.unapplied w.1 w.2 then again s 1
      else
        let full := decide (s.slotLen ≤ k.filled + 128)
        let s1 := (s.updEslot n.val fun k => { k with state := if full then 2 else 1, filled := k.filled + 128, ids := none }).retryLoads 16
        if full then .next s1.exRetry else again s1 2

end Sys2Proof.Machine
end

