-- ==== Sys2Proof/Machine/Reply.lean ====
section
/-! DEFINITION. Requests of cores at the ridge and their replies: placement entries, ENQ, FRSM (21 R377 to R379; 06 R125; 16 R281;
10 R172). -/

namespace Sys2Proof.Machine
open Sys2Proof.Bits

/-! ### Placement entries -/

/-- An entry image is well formed (13 R211). -/
def plOk (m : Word) (ws : List Word) : Bool :=
  get (wnth ws 0) 60 54 == 0 && get (wnth ws 0) 43 32 == 0 && get (wnth ws 2) 59 52 == 0 && get (wnth ws 3) 63 52 == 0 &&
  get (wnth ws 4) 63 48 == 0 && get (wnth ws 5) 63 32 == 0 && get (wnth ws 6) 56 52 == 0 && get (wnth ws 7) 63 17 == 0 &&
  statesOk (plState ws) && ((List.range 4).all fun d => plExt ws d != 0 && (decide (d ≤ plNdim ws) || plExt ws d == 1)) &&
  decide (plAff ws ≤ 7) && plBase ws % 128 == 0 && plAlt ws % 128 == 0 && !plConv ws && (fmtOf (plFmt ws)).isSome && blocksOk m ws (plState ws)

/-- PLDEF at the ridge (21 R377). -/
def State.pldefArrives (s : State) (c id : Nat) (a b : Word) : State :=
  let x := s.ctxOf c
  let e := get a 9 0
  let p := s.plent x e
  if get a 63 10 ≠ 0 then s.answer c id 2 28
  else if plConv p.words || !p.convs.isEmpty then s.answer c id 1 28
  else if b.toNat % 64 ≠ 0 then s.answer c id 3 28
  else match s.vread (some c) x 16 b.toNat 64 with
    | .error _ => s.answer c id 3 28
    | .ok (bs, s1) =>
      let ws := (List.range 8).map (wordAt bs)
      if !plV ws then (s1.updPlent x e fun _ => PlEnt.reset).answer c id 0 28
      else if !plOk s.regs.meshcfg ws then s1.answer c id 2 28
      else (s1.updPlent x e fun _ => { PlEnt.reset with words := wset ws 4 (put (wnth ws 4) 47 32 0) }).answer c id 0 28

/-- PLCNV at the ridge (21 R378). -/
def State.plcnvArrives (s : State) (c id : Nat) (o : MemOp) (a b : Word) : State :=
  let x := s.ctxOf c
  let e := get a 9 0
  let ws := (s.plent x e).words
  if get a 63 10 ≠ 0 ∨ get b 63 16 ≠ 0 ∨ plV ws = false ∨ statesOk (get b 15 0) = false then s.answer c id 2 28
  else
    let tag := ((plBar ws).map o.tags.contains).getD false
    let r := s.convAsk x e ⟨get b 15 0, some (c, tag, (s.gidOf c).toNat), none, none⟩
    r.1.answer c id (BitVec.ofNat 64 r.2) 28

/-- The word PLQRY returns (21 R379). -/
def State.plqryWord (s : State) (x : Nat) (a : Word) (sel : Nat) : Word :=
  let p := s.plent x (get a 9 0)
  if get a 63 10 ≠ 0 then allOnes
  else if sel ≤ 7 then wnth p.words sel
  else if sel = 8 then BitVec.ofNat 64 p.convs.length else 0

/-! ### ENQ -/

/-- ENQ at the ridge (06 R125): 0 written, 1 full, 2 refused. -/
def State.enqArrives (s : State) (c id : Nat) (q : Word) (bytes : List Byte) : State :=
  let k := s.queue q.toNat
  if 255 < q.toNat ∨ k.en = false ∨ k.enqok = false ∨ k.ctx ≠ s.ctxOf c ∨ hostBase ≤ k.base then s.status c id 2 12
  else if 2 ^ k.size ≤ (k.tail + 2 ^ 32 - k.head) % 2 ^ 32 then s.status c id 1 12
  else
    let s1 := s.merge 16 (s.stampOf (c / 8))
    let s2 := match resolvePA (k.base + k.tail % 2 ^ k.size * 64) with
      | some (key, home) => s1.agentWrite 16 key home bytes
      | none => s1
    let v := vmerge zeroVec (s.stampOf (c / 8))
    let s3 := s2.updQueue q.toNat fun k => { k with tail := (k.tail + 1) % 2 ^ 32, stampB := vmax k.stampB v }
    (s3.status c id 0 12).soon .frontEndStart

/-! ### Resuming fault entries -/

/-- What an entry's operation does again in its core (10 R172): faulted lines start over; a load through an entry, a store through one,
a request and a send go whole. A placed operation is placed again with the core's `RBND` as it stands (03 R73). -/
def MemOp.resume (rbnd : Nat) (o : MemOp) : MemOp :=
  let line := fun (l : LineAcc) => match l.st with
    | .fault _ => { l with st := .idle }
    | _ => l
  let whole := match o.kind with
    | .load _ _ _ (some _) => o.lines.isEmpty
    | .pstore _ _ => true
    | .req _ _ => true
    | .chsend _ _ _ _ => true
    | _ => false
  { o with rbnd := if o.plKind.isSome then rbnd else o.rbnd, lines := o.lines.map line, fq := false, ready := if o.plKind.isSome then o.ready else 0,
           left := o.left && !whole, land := if o.plKind.isSome && o.land == some 1 then none else o.land }

/-- Lines that only cancelled pieces of a placed operation use are looked up and read again (03 R73). -/
def State.forgetStage (s : State) (c id : Nat) : State := match (s.core c).op id with
  | none => s
  | some o => match o.plKind with
    | none => s
    | some k => (s.freeLines c o k).foldl (fun (s : State) n => match o.lines[n]? with
      | some l => (match l.st with
        | .flight => s.forgetLine c id n l
        | .done => s.forgetLine c id n { l with lock := 0 }
        | _ => s)
      | none => s) s

/-- One entry is resumed (10 R172): with no effect when its group drains or has gone; kept for the restore when it is parked. -/
def State.resumeEntry (s : State) (x : Nat) (e : FqEnt) : State :=
  match s.ofGid (BitVec.ofNat 16 e.gid) with
  | none => s
  | some g =>
    let k := s.grp g
    if 5 ≤ k.state then s
    else
      let s1 := s.updRun g fun r => { r with entries := r.entries.filter (· ≠ e.seq) }
      let parked := k.state == 4 || (k.state == 1 && ((k.run.map fun r => !r.saved.isEmpty).getD false))
      let later := fun (s : State) => s.updRun g fun r => { r with redo := r.redo ++ [e.again] }
      match e.again with
      | .grow _ => if parked then later s1 else s1.goOn x e.again
      | .fill _ => if parked then later s1 else s1.goOn x e.again
      | a => match a.opOf with
        | none => s1
        | some (c, id) =>
          let again := fun (k : Core) => k.updOp id (MemOp.resume k.rbnd)
          if parked then s1.updRun g fun r => { r with saved := r.saved.map fun m => if m.1 = c then (m.1, again m.2) else m }
          else (((s1.forgetStage c id).updCore c again).soon (.placement (fin64 c))).pump c

/-- The `n` oldest entries of a context are resumed, in order (10 R172; 16 R281). -/
def State.resumeEntries (s : State) (x n : Nat) : State :=
  let k := s.ctx x
  let s1 := s.updCtx x fun k => { k with fqres := (k.fqres + n) % 2 ^ 32, ents := k.ents.drop n }
  ((k.ents.take n).foldl (fun (s : State) e => s.resumeEntry x e) s1).soon .frontEndStart

/-- FRSM, and the host's resume register (16 R281): answers the count, or none when the context takes none. -/
def State.frsm (s : State) (x n : Nat) : State × Option Nat :=
  let k := s.ctx x
  if 63 < x ∨ k.state = 0 ∨ 5 ≤ k.state then (s, none)
  else
    let m := min n ((k.fqtail - k.fqwait + 2 ^ 32 - k.fqres) % 2 ^ 32)
    (s.resumeEntries x m, some m)

/-! ### Replies -/

/-- A request reaches the ridge (21 R367). -/
def State.serveReq (s : State) (c id : Nat) (o : MemOp) (r : Req) : State :=
  let x := s.ctxOf c
  match r with
  | .vr op a b b2 => s.routeArrives c id op o a b b2
  | .vrcnt a sel ex => s.countArrives c id a sel ex
  | .pldef a b => s.pldefArrives c id a b
  | .plcnv a b => s.plcnvArrives c id o a b
  | .plqry a sel => s.answer c id (s.plqryWord x a sel) 28
  | .slbxl a b b2 lo => s.slabArrives c id o a b b2 lo
  | .slabDone lo hi => s.slabReply c id lo hi
  | .slbgr a b => s.growArrives c id o a b
  | .exacq a b cl nl => s.exacqArrives c id o a b cl nl
  | .exrel a => s.exrelArrives c id a
  | .enq q bytes => s.enqArrives c id q bytes
  | .xchn ch link =>
    let a := s.acceptChain x ch.toNat ⟨link.toNat, some c, none, false, none⟩
    a.1.status c id (BitVec.ofNat 64 a.2) 12
  | .twm ch => s.status c id (s.twmWord x ch) 28
  | .frsm xc n =>
    let a := s.frsm xc.toNat n.toNat
    a.1.status c id (match a.2 with
      | some m => BitVec.ofNat 64 m
      | none => allOnes) 28
  | _ => s

/-- REPLY_ARRIVAL: a request is at the ridge, or its reply is back at the core, where it is taken, held or dropped by the group id it
carries (21 R367; 13 R217; 08 R146, R147). -/
def execReplyArrival (core : Fin 64) (dest : ReplyTo) (s : State) : Out :=
  let c := core.val
  let id := dest.id
  match (s.core c).op id with
  | some o =>
    match o.kind with
    | .req r _ => .next (if !o.left || o.fq then s else s.serveReq c id o r)
    | .placed _ => .next (s.testEntry c id)
    | _ => .next (if !o.left || o.fq then s else s.testEntry c id)
  | none =>
    .next (s.message false dest.gid (.replyArrival core dest) fun _ s => if (s.core c).pend.any (·.id == id) then s.deliver c id fun w => w else s)

end Sys2Proof.Machine
end

