-- ==== Sys2Proof/Machine/Launch.lean ====
section
/-! DEFINITION. Launch records, allocation, and the start of a group (07 R126 to R131, R135; 09 R148; 19 R329; 21 R368). -/

namespace Sys2Proof.Machine
open Sys2Proof.Bits

/-! ### The record (07 Table 7.1) -/

/-- Fields of a launch record. -/
def lrCode (ws : List Word) : Nat := get (wnth ws 0) 51 5
def lrClen (ws : List Word) : Nat := get (wnth ws 1) 12 0
def lrFmtb (ws : List Word) : Nat := get (wnth ws 2) 45 40
def lrNfmt (ws : List Word) : Nat := get (wnth ws 2) 38 32
def lrNbar (ws : List Word) : Nat := get (wnth ws 2) 30 24
def lrNch (ws : List Word) : Nat := get (wnth ws 2) 22 16
def lrEarly (ws : List Word) : Bool := bit (wnth ws 2) 4
def lrDies (ws : List Word) : Nat := 2 ^ get (wnth ws 2) 3 2
def lrCores (ws : List Word) : Nat := 2 ^ get (wnth ws 2) 1 0
def lrLd (ws : List Word) (k : Nat) : Nat := if k ≤ 6 then get (wnth ws 3) (10 * k - 1) (10 * k - 10) else get (wnth ws 4) 9 0
def lrFmtAddr (ws : List Word) : Nat := (wnth ws 5).toNat
def lrChAddr (ws : List Word) : Nat := (wnth ws 6).toNat
def lrBarAddr (ws : List Word) : Nat := (wnth ws 7).toNat
def lrGrid (ws : List Word) : Nat × Nat × Nat := (get (wnth ws 8) 15 0, get (wnth ws 8) 31 16, get (wnth ws 8) 47 32)
def lrBound (ws : List Word) (i : Nat) : Bool := bit (wnth ws (9 + i)) 63
def lrWin (ws : List Word) (i : Nat) : Nat := get (wnth ws (9 + i)) 51 0
def lrWlen (ws : List Word) (i : Nat) : Nat := get (wnth ws (17 + i / 4)) (16 * (i % 4) + 15) (16 * (i % 4)) + 1
def lrNpkg (ws : List Word) : Nat := get (wnth ws 19) 28 16
def lrSptag (ws : List Word) : Nat := get (wnth ws 19) 15 0
def lrPeers (ws : List Word) : Nat := (wnth ws 20).toNat
def lrStat (ws : List Word) : Nat := (wnth ws 21).toNat

/-- Bytes of the bound windows together. -/
def lrWindows (ws : List Word) : Nat := (List.range 8).foldl (fun n i => if lrBound ws i then n + lrWlen ws i else n) 0

/-- Reserved fields are zero, counts and latencies in range, addresses aligned (07 R126). -/
def lrShapeOk (ws : List Word) : Bool :=
  get (wnth ws 0) 63 52 == 0 && get (wnth ws 0) 4 0 == 0 && get (wnth ws 1) 63 13 == 0 && get (wnth ws 2) 63 46 == 0 &&
  !bit (wnth ws 2) 39 && !bit (wnth ws 2) 31 && !bit (wnth ws 2) 23 && get (wnth ws 2) 15 5 == 0 && get (wnth ws 3) 63 60 == 0 &&
  get (wnth ws 4) 63 10 == 0 && get (wnth ws 8) 63 48 == 0 && ((List.range 8).all fun i => get (wnth ws (9 + i)) 62 52 == 0) &&
  get (wnth ws 19) 63 29 == 0 && ((List.range 10).all fun i => wnth ws (22 + i) == 0) &&
  decide (1 ≤ lrClen ws ∧ lrClen ws ≤ 4096) && ((List.range 7).all fun i => lrLd ws (i + 1) != 0) &&
  decide (lrNch ws ≤ 64 ∧ lrNbar ws ≤ 64 ∧ lrNfmt ws ≤ 64 ∧ lrNpkg ws ≤ 4096) &&
  lrFmtAddr ws % 8 == 0 && lrChAddr ws % 32 == 0 && lrBarAddr ws % 16 == 0 && lrPeers ws % 2 == 0 && lrStat ws % 8 == 0

/-- Everything a record names can be read, the image fetched (07 R126; 10 Table 10.2). -/
def State.lrReadable (s : State) (x : Nat) (ws : List Word) : Bool :=
  let ok := fun (va n : Nat) (fetch : Bool) => s.vok none x va n false fetch
  ok (lrCode ws * 32) (32 * lrClen ws) true && ((List.range 8).all fun i => !lrBound ws i || ok (lrWin ws i) (lrWlen ws i) false) &&
  ok (lrFmtAddr ws) (8 * lrNfmt ws) false && ok (lrChAddr ws) (32 * lrNch ws) false && ok (lrBarAddr ws) (16 * lrNbar ws) false &&
  ok (lrPeers ws) (2 * lrNpkg ws) false

/-- Bytes the front end reads for a packet; empty where they cannot be read. -/
def State.feBytes (s : State) (x va n : Nat) : List Byte := match s.vread none x 16 va n with
  | .ok (bs, _) => bs
  | .error _ => []

/-- What reading such bytes leaves: stamps merged, pages walked (04 R84; 10 R164). -/
def State.feSaw (s : State) (x va n : Nat) : State := match s.vread none x 16 va n with
  | .ok (_, t) => t
  | .error _ => s
/-- What a launch's reads leave: the tables its record names, its image and its windows. -/
def State.lrReads (s : State) (x : Nat) (ws : List Word) : State :=
  let s1 := (((s.feSaw x (lrFmtAddr ws) (8 * lrNfmt ws)).feSaw x (lrChAddr ws) (32 * lrNch ws)).feSaw x (lrBarAddr ws) (16 * lrNbar ws)).feSaw x
    (lrPeers ws) (2 * lrNpkg ws)
  (List.range 8).foldl (fun (s : State) i => if lrBound ws i then s.feSaw x (lrWin ws i) (lrWlen ws i) else s)
    (s1.feSaw x (lrCode ws * 32) (32 * lrClen ws))

/-- Tables a record names: formats, channel entries, barrier words, peers. -/
def State.lrFmts (s : State) (x : Nat) (ws : List Word) : List Word :=
  let b := s.feBytes x (lrFmtAddr ws) (8 * lrNfmt ws)
  (List.range (lrNfmt ws)).map (wordAt b)
def State.lrChans (s : State) (x : Nat) (ws : List Word) : List (List Word) :=
  let b := s.feBytes x (lrChAddr ws) (32 * lrNch ws)
  (List.range (lrNch ws)).map fun i => (List.range 4).map fun j => wordAt b (4 * i + j)
def State.lrBars (s : State) (x : Nat) (ws : List Word) : List (Word × Word) :=
  let b := s.feBytes x (lrBarAddr ws) (16 * lrNbar ws)
  (List.range (lrNbar ws)).map fun i => (wordAt b (2 * i), wordAt b (2 * i + 1))
def State.lrRanks (s : State) (x : Nat) (ws : List Word) : List Nat :=
  let b := s.feBytes x (lrPeers ws) (2 * lrNpkg ws)
  (List.range (lrNpkg ws)).map fun i => numAt b (2 * i) 2

/-- A barrier declaration of two words (09 Table 9.1). -/
def barDecl (w : Word × Word) : BarDecl := ⟨get w.1 55 48, get w.1 33 32, get w.1 15 0, get w.2 47 0⟩

/-- A declaration is well formed (09 R148). -/
def barDeclOk (w : Word × Word) (cores dies npkg : Nat) : Bool :=
  let d := barDecl w
  let size := match d.dom with
    | 0 => 1
    | 1 => cores
    | _ => cores * dies
  get w.1 63 56 == 0 && get w.1 47 34 == 0 && get w.1 31 16 == 0 && get w.2 63 48 == 0 &&
  (d.wdog == 0 || decide (10 ≤ d.wdog ∧ d.wdog ≤ 40)) && !(d.dom == 3 && npkg == 0) && decide (d.expect ≤ size)

/-- A format-table entry is well formed (19 R329). -/
def fmtOk (w : Word) : Bool :=
  let ok := fun (f : Nat) => decide (1 ≤ f ∧ f ≤ 4) || decide (0x10 ≤ f ∧ f ≤ 0x14)
  get w 63 16 == 0 && ok (get w 15 8) && ok (get w 7 0)

/-! ### Allocation -/

/-- The first-fit allocation (07 R130): the m lowest dies with n free cores, the n lowest on each. -/
def firstFit (free : Nat → Bool) (n m : Nat) : Option (List Nat) :=
  let per := (List.range 8).filterMap fun d =>
    let cs := ((List.range 8).map (8 * d + ·)).filter free
    if n ≤ cs.length then some (cs.take n) else none
  if m ≤ per.length then some (per.take m).flatten else none

/-- The record is well formed in a context (07 R126, R130; 09 R148; 19 R329; 21 R368). -/
def State.lrOk (s : State) (x : Nat) (ws : List Word) (tick : Bool) : Bool :=
  lrShapeOk ws && s.lrReadable x ws && (!tick || decide (1 ≤ lrNpkg ws)) && (s.lrFmts x ws).all fmtOk &&
  ((s.lrChans x ws).all fun c => (chanOf c (lrNpkg ws) (lrCores ws * lrDies ws) (s.lrRanks x ws)).isSome) &&
  ((s.lrBars x ws).all fun b => barDeclOk b (lrCores ws) (lrDies ws) (lrNpkg ws)) &&
  (firstFit (fun c => !s.fenced.contains c) (lrCores ws) (lrDies ws)).isSome

/-- Spanning barriers configured on the package (09 R148). -/
def State.spanBars (s : State) : Nat := s.grps.foldl (fun n g => match g.2.run with
  | some r => n + (r.bars.filter fun b => b.dom == 3).length
  | none => n) 0

/-- The launch's spanning barriers have room. -/
def State.spanRoom (s : State) (x : Nat) (ws : List Word) : Bool :=
  decide (s.spanBars + ((s.lrBars x ws).filter fun b => (barDecl b).dom == 3).length ≤ 16)

/-- A queue may take a core, a sequencer: free, and not kept for another deadline launch (06 R124). -/
def State.mayCore (s : State) (q c : Nat) : Bool := s.coreFree1 c && (match s.keep with
  | some k => k.queue == q || k.cores.contains c
  | none => true)
def State.maySeq (s : State) (q n : Nat) : Bool := !s.seqsHeld.contains n && (match s.keep with
  | some k => k.queue == q || k.seqs.contains n
  | none => true)

/-- A sequencer, cores and a group index for a launch (07 R130; 08 R138), if it can be allocated now. -/
def State.allocFor (s : State) (q x : Nat) (ws : List Word) : Option (Nat × List Nat × Nat) :=
  if !s.spanRoom x ws then none
  else match (List.range 8).find? (s.maySeq q), firstFit (s.mayCore q) (lrCores ws) (lrDies ws), (List.range 1024).find? fun g => (s.grp g).state == 8 with
    | some n, some cs, some g => some (n, cs, g)
    | _, _, _ => none

/-- Cores and a sequencer are taken; kept ones are no longer on offer. -/
def State.unkeep (s : State) (q n : Nat) (cs : List Nat) : State := match s.keep with
  | some k => if k.queue = q then { s with keep := none }
    else { s with keep := some { k with cores := k.cores.filter fun c => !cs.contains c, seqs := k.seqs.filter (· ≠ n) } }
  | none => s

/-- The position every group starts at. -/
def Seq.reset : Seq := ⟨0, [], 0, none, none, [], false, 0, none⟩

/-- What a launched group holds, from its record (07 R126 to R128). -/
def State.runFrom (s : State) (q x : Nat) (ws : List Word) (deadline packet seq : Nat) (cs : List Nat) (tick : Option Nat)
    (stamp : List Nat) : Run :=
  { ctx := x, queue := q, cls := (s.queue q).cls, deadline := deadline, packet := packet, seq := seq, members := cs, clen := lrClen ws,
    code := lrCode ws, image := s.feBytes x (lrCode ws * 32) (32 * lrClen ws),
    win := (List.range 8).map fun i => if lrBound ws i then some (s.feBytes x (lrWin ws i) (lrWlen ws i)) else none,
    fmts := s.lrFmts x ws, chs := s.lrChans x ws, bars := (s.lrBars x ws).map barDecl, insts := [], fmtb := lrFmtb ws,
    lds := (List.range 7).map fun i => lrLd ws (i + 1), grid := lrGrid ws, tiles := 0, npkg := lrNpkg ws, sptag := lrSptag ws,
    peers := s.lrRanks x ws, stat := lrStat ws, tick := tick, sq := Seq.reset, timer := 0, preempt := false, sems := [],
    triggered := false, stamp := stamp, ready := false, started := false, saved := [], saving := 0, savedAt := 0, heldMsgs := [],
    heldArr := [], redo := [], stalled := none, parkedAt := 0, entries := [], late := 0 }

/-- Cycles from a launch's start to ready: 1.2 µs + 40 ns a die + W / (64 B/ns) (07 R131). -/
def launchTime (ws : List Word) : Nat := ceilDiv (3 * (64 * (1200 + 40 * lrDies ws) + lrWindows ws)) 128

/-- A launch is allocated (07 R130, R131, R135; 08 R138 to R140): its index is LOADING, its parts are copied. -/
def State.startGroup (s : State) (g : Nat) (r : Run) (ws : List Word) : State :=
  let s1 := s.updGrp g fun x => ⟨1, (x.gen + 1) % 64, r.ctx, 0, 0, 0, 0, [0, 0, 0, 0], 0, some r, []⟩
  let s2 := r.members.foldl (fun (s : State) c => s.updCore c fun k => { k with group := some g }) s1
  let s3 := (s2.unkeep r.queue r.seq r.members).after (launchTime ws) (.launchReady ⟨fin1024 g, ((s.grp g).gen + 1) % 64⟩)
  if r.tick.isSome then s3.soon (.startTick (fin1024 g)) else s3

/-- LATE for a course that never was allocated here (07 R135). -/
def State.lateAtHead (s : State) (x : Nat) (ws : List Word) : State :=
  (s.sendPeers 16 6 (lrSptag ws) [] .late ((s.lrRanks x ws).filter (· ≠ s.regs.pkrank))).statWrite x (lrStat ws) 1

end Sys2Proof.Machine
end

