-- ==== Sys2Proof/Machine/Queue.lean ====
section
/-! DEFINITION. Queues, packets and the front end (06). -/

namespace Sys2Proof.Machine
open Sys2Proof.Bits

/-! ### Queue registers -/

/-- A queue goes to ERROR (06 Table 6.1). -/
def State.queueError (s : State) (q err : Nat) : State := s.updQueue q fun k => { k with state := 2, err := err }

/-- Words at its head that a queue has read are forgotten. -/
def Queue.unread (k : Queue) : Queue := { k with pkt := [], rec_ := [], met := none }

/-- A write that sets EN from 0 to 1 (06 R118). -/
def State.enableQueue (s : State) (q : Nat) : State :=
  let k := s.queue q
  if k.en then s
  else
    let s1 := s.updQueue q fun k => { k.unread with head := k.tail, miss := 0 }
    let x := s.ctx k.ctx
    let on := fun (p : Queue → Bool) => (s.queues.filter fun e => e.2.en && p e.2).length
    let bad := decide (k.size < 4) || k.base % (2 ^ k.size * 64) != 0 || x.state == 0 || x.state == 6 ||
      decide (16 ≤ on fun e => e.ctx == k.ctx) || (k.cls == 0 && (!x.priv || decide (4 ≤ on fun e => e.cls == 0)))
    if bad then s1.updQueue q fun k => { k with en := false, err := 4, state := 2 }
    else (s1.updQueue q fun k => { k with en := true, err := 0, state := 1, stampB := zeroVec, stampC := zeroVec, last := none }).soon .frontEndStart

/-- QUEUE_ENABLE (06 R118). -/
def execQueueEnable (q : Fin 256) (s : State) : Out := .next (s.enableQueue q.val)

/-- A write of EN to 0 (06 R119). -/
def State.disableQueue (s : State) (q : Nat) : State :=
  let s1 := s.updQueue q fun k => { k.unread with en := false, state := 0 }
  let mine := (s1.keep.map fun k => k.queue == q).getD false
  if mine then { s1 with keep := none }.soon .frontEndStart else s1

/-- QUEUE_DISABLE (06 R119). -/
def execQueueDisable (q : Fin 256) (s : State) : Out := .next (s.disableQueue q.val)

/-- A host write to TAIL: the host port ticks, and the front end looks (06 R118, R119; 30 R427, R444). -/
def State.ringBell (s : State) (q tail : Nat) : State :=
  let k := s.queue q
  if k.enqok then s
  else
    let s1 := s.tick 17 0
    let v := vmerge zeroVec (s1.stampOf 17)
    let s2 := s1.updQueue q fun k => { k with tail := tail % 2 ^ 32, stampB := vmax k.stampB v }
    if k.en = false ∨ k.state ≠ 1 then s2
    else if 2 ^ k.size < (tail + 2 ^ 32 - k.head) % 2 ^ 32 then s2.queueError q 2
    else s2.soon .frontEndStart

/-- DOORBELL (06 R119; 30 R444). -/
def execDoorbell (q : Fin 256) (tail : BitVec 32) (s : State) : Out :=
  .next (s.port (0x2000 + 32 * q.val + 24) (tail.setWidth 64) fun s => s.ringBell q.val tail.toNat)

/-! ### Packets -/

/-- Word `i` of a packet. -/
def pkWord (b : List Byte) (i : Nat) : Word := wordAt b i
/-- Its kind, AC bit, deadline. -/
def pkKind (b : List Byte) : Nat := get (pkWord b 0) 7 0
def pkAc (b : List Byte) : Bool := bit (pkWord b 0) 8
def pkDeadline (b : List Byte) : Nat := (pkWord b 1).toNat

/-- Header and payload fields that the kind does not name are zero (06 R120). -/
def pkFieldsOk (b : List Byte) : Bool :=
  let w2 := pkWord b 2
  let w3 := pkWord b 3
  get (pkWord b 0) 63 9 == 0 && ((List.range 4).all fun i => pkWord b (4 + i) == 0) && match pkKind b with
    | 1 => w3 == 0
    | 2 => get w3 63 16 == 0
    | 3 => get w3 63 6 == 0
    | 4 => get w2 63 10 == 0 && get w3 63 16 == 0
    | 5 => get w2 63 17 == 0
    | 6 => get w2 63 17 == 0
    | 7 => true
    | 8 => true
    | _ => false

/-- Words of the launch record a queue has read. -/
def Queue.recWords (k : Queue) : List Word := (List.range 32).map (wordAt k.rec_)

/-- A queue's context lets it start packets (06; 05 R106). -/
def State.queueLive (s : State) (k : Queue) : Bool :=
  k.en && k.state == 1 && (s.ctx k.ctx).state == 2 && !(s.ctx k.ctx).spnd && k.head != k.tail

/-- The packet at the head of a queue is read, and the record it names, once what the doorbell or the ENQ released is there (06 R119, R125; 07
R126). -/
def State.readHead (s : State) (q : Nat) : State :=
  let k := s.queue q
  if !s.queueLive k || !k.pkt.isEmpty then s
  else if (List.range 17).all (fun h => (s.agent h).holdsVec h (k.stampB.take 8)) = false then s.settled 1 .frontEndStart
  else match resolvePA (k.base + k.head % 2 ^ k.size * 64) with
    | none => s.queueError q 3
    | some (key, _) =>
      if (s.unitFault key).isSome then s.queueError q 3
      else if s.writes.any (fun w => w.src == 0 && decide (16 ≤ w.stamp.agent) && lineOf w.key == lineOf key) then s.settled 1 .frontEndStart
      else
        let r := s.agentRead 16 key 64
        let kind := pkKind r.1
        let va := (pkWord r.1 2).toNat
        let reads := (kind = 1 ∨ kind = 7) ∧ va % 256 = 0 ∧ r.2.vok none k.ctx va 256 false true = true
        let rec_ := if reads then r.2.feBytes k.ctx va 256 else []
        (if reads then r.2.feSaw k.ctx va 256 else r.2).updQueue q fun k => { k with pkt := r.1, rec_ := rec_ }

/-- Every earlier packet has completed, or with EARLY the group of the LAUNCH just before has triggered (06 R122; 07 R132). -/
def State.acOk (s : State) (k : Queue) : Bool :=
  let early := pkKind k.pkt == 1 && !k.rec_.isEmpty && lrEarly k.recWords
  !pkAc k.pkt || k.out.isEmpty || (early && match k.last with
    | some g => (((s.grp g).run.map (·.triggered)).getD false) && k.out.all fun e => e.2 == some g
    | none => false)

/-- What a queue's head packet can do. -/
inductive HeadSt where
  | wait
  | bad
  | go
  deriving DecidableEq, Repr

/-- The device semaphore a packet names may be named by its context (16 R274). -/
def State.pkSemOk (s : State) (k : Queue) : Bool := s.claimedBy (get (pkWord k.pkt 2) 16 0) k.ctx

/-- The descriptor and step of a COLLSTEP are well formed (13 R219). -/
def State.collOk (s : State) (k : Queue) : Bool :=
  let b := s.feBytes k.ctx (pkWord k.pkt 2).toNat 64
  let d := (List.range 8).map (wordAt b)
  b.length == 64 && clOk d && decide (get (pkWord k.pkt 3) 15 0 < (clPlan s.regs.meshcfg d).steps)

/-- The TICKSTART at the head of a queue is late (07 R135; 11 R189). -/
def State.headLate (s : State) (k : Queue) : Bool := decide ((pkWord k.pkt 3).toNat ≤ s.ftick) || !s.tickLocked

/-- Whether the head packet is malformed, must wait, or can start (06 R120 to R122). -/
def State.headSt (s : State) (q : Nat) : HeadSt :=
  let k := s.queue q
  let b := k.pkt
  let w2 := pkWord b 2
  let w3 := pkWord b 3
  let when_ := fun (ok go : Bool) => if !ok then HeadSt.bad else if go then .go else .wait
  if !s.queueLive k || b.isEmpty || !s.acOk k then .wait
  else if !pkFieldsOk b then .bad
  else match pkKind b with
    | 1 => when_ (!k.rec_.isEmpty && s.lrOk k.ctx k.recWords false) (s.allocFor q k.ctx k.recWords).isSome
    | 2 => when_ (s.collOk k) true
    | 3 =>
      let c := s.xch (get w3 5 0)
      when_ (bit c.own 6 && get c.own 5 0 == k.ctx) (decide (c.chains.length < 8))
    | 4 => when_ (plV (s.plent k.ctx (get w2 9 0)).words && statesOk (get w3 15 0)) true
    | 5 => when_ (s.pkSemOk k) true
    | 6 => when_ (s.pkSemOk k) (match k.met with
        | some t => decide (t + 20 ≤ s.now)
        | none => false)
    | 7 => when_ (!k.rec_.isEmpty && s.lrOk k.ctx k.recWords true) (s.headLate k || (s.allocFor q k.ctx k.recWords).isSome)
    | 8 => when_ (w2.toNat % 8 == 0 && (resolvePA w2.toNat).isSome) true
    | _ => .bad

/-! ### Starts -/

/-- HEAD passes packet `n`, which has started; MISS counts a class-0 one past its deadline (06 R121, R123). -/
def State.passHead (s : State) (q : Nat) (out : Option (Option Nat)) : State :=
  let b := (s.queue q).pkt
  let late := pkDeadline b != 0 && decide (pkDeadline b < s.ftick)
  let started := fun (k : Queue) => match out with
    | some g => k.out ++ [(k.head, g)]
    | none => k.out
  s.updQueue q fun k => { k.unread with
    head := (k.head + 1) % 2 ^ 32, out := started k, last := (out.getD none),
    miss := if k.cls == 0 && late then min (k.miss + 1) 255 else k.miss }

/-- A LAUNCH or TICKSTART starts, if it can be allocated. `tick` is the start tick of a TICKSTART. -/
def State.doLaunch (s : State) (q : Nat) (tick : Option Nat) : State :=
  let k := s.queue q
  let ws := k.recWords
  match s.allocFor q k.ctx ws with
  | none => s
  | some (n, cs, g) =>
    let early := match k.last with
      | some p => if k.out.isEmpty then zeroVec else ((s.grp p).run.map (·.stamp)).getD zeroVec
      | none => zeroVec
    let stamp := vmax k.stampB (if pkAc k.pkt then vmax k.stampC early else zeroVec)
    let r := s.runFrom q k.ctx ws (pkDeadline k.pkt) k.head n cs tick stamp
    let s1 := (s.lrReads k.ctx ws).startGroup g r ws
    let s2 := s1.passHead q (some (some g))
    if tick.isSome then s2.updQueue q fun k => { k with last := none } else s2

/-- LAUNCH (07 R130, R131). -/
def State.startLaunch (s : State) (q : Nat) : State := s.doLaunch q none

/-- TICKSTART (07 R135, R136): late at the head, it only tells its peers, if it has not done so already, and completes. -/
def State.startTickstart (s : State) (q : Nat) : State :=
  let k := s.queue q
  if s.headLate k then (if k.met.isSome then s else s.lateAtHead k.ctx k.recWords).passHead q none
  else s.doLaunch q (some (pkWord k.pkt 3).toNat)

/-- COLLSTEP (13 R219). -/
def State.startCollstep (s : State) (q : Nat) : State :=
  let k := s.queue q
  let va := (pkWord k.pkt 2).toNat
  match s.vread none k.ctx 16 va 64 with
  | .error _ => s
  | .ok (b, s1) =>
    let d := (List.range 8).map (wordAt b)
    let c : Coll := ⟨s1.nextId, k.ctx, d, va, get (pkWord k.pkt 3) 15 0, (q, k.head), [], false, false, none, 0, [], 0, none⟩
    let s2 := s1.bump.updRidge fun r => { r with colls := r.colls ++ [c] }
    (s2.passHead q (some none)).soon (.collectiveStepComplete c.id [])

/-- TRANSFER (18 R320, R323). -/
def State.startTransfer (s : State) (q : Nat) : State :=
  let k := s.queue q
  let a := s.acceptChain k.ctx (get (pkWord k.pkt 3) 5 0) ⟨(pkWord k.pkt 2).toNat, none, some (q, k.head), false, none⟩
  if a.2 = 0 then a.1.passHead q (some none) else s

/-- CONVERT (13 R215). -/
def State.startConvert (s : State) (q : Nat) : State :=
  let k := s.queue q
  let r := s.convAsk k.ctx (get (pkWord k.pkt 2) 9 0) ⟨get (pkWord k.pkt 3) 15 0, none, none, some (q, k.head)⟩
  r.1.passHead q (some none)

/-- The ridge acquires what the completions of a queue delivered, for a write that follows them (06 R121). -/
def State.afterDone (s : State) (q : Nat) : State := s.updAgent 16 fun a => { a with acq := vmax a.acq (s.queue q).stampC }

/-- SIGNAL: the addend, and the ridge's tick (06 R121). -/
def State.startSignal (s : State) (q : Nat) : State :=
  let b := (s.queue q).pkt
  (((s.afterDone q).addSem 16 (get (pkWord b 2) 16 0) (pkWord b 3)).tick 16 0).passHead q none

/-- WAITSEM (06 R121). -/
def State.startWaitsem (s : State) (q : Nat) : State := s.passHead q none

/-- MARKER: the write; once it is made the ridge ticks and the packet is complete (06 R121). -/
def State.startMarker (s : State) (q : Nat) : State :=
  let b := (s.queue q).pkt
  let n := (s.queue q).head
  let s1 := (s.afterDone q).passHead q (some none)
  match resolvePA (pkWord b 2).toNat with
  | some (key, home) => s1.agentWrite 16 key home (wordLE (pkWord b 3)) (.marker q n)
  | none => s1.tell (.marker q n)

/-- The head packet of a queue starts. -/
def State.startPacket (s : State) (q : Nat) : State := match pkKind (s.queue q).pkt with
  | 1 => s.startLaunch q
  | 2 => s.startCollstep q
  | 3 => s.startTransfer q
  | 4 => s.startConvert q
  | 5 => s.startSignal q
  | 6 => s.startWaitsem q
  | 7 => s.startTickstart q
  | 8 => s.startMarker q
  | _ => s

/-! ### The front end -/

/-- Queues in their order. -/
def State.queueList (s : State) : List Nat := s.queues.map (·.1)

/-- A TICKSTART at the head of a queue that waits for earlier packets is late when its tick reaches S: its peers are told then (07 R135). -/
def State.lateWaits (s : State) (k : Queue) : Bool :=
  pkKind k.pkt == 7 && s.queueLive k && k.met.isNone && !s.acOk k && s.headLate k && pkFieldsOk k.pkt && !k.rec_.isEmpty &&
    s.lrOk k.ctx k.recWords true

/-- Heads are read; malformed ones send their queue to ERROR; a WAITSEM's semaphore is tested (06 R119 to R121). -/
def State.scanHeads (s : State) : State :=
  s.queueList.foldl (fun (s : State) q =>
    let s1 := s.readHead q
    let k := s1.queue q
    if s1.headSt q = .bad then s1.queueError q 1
    else if s1.lateWaits k then (s1.lateAtHead k.ctx k.recWords).updQueue q fun k => { k with met := some s1.now }
    else if pkKind k.pkt = 6 ∧ s1.queueLive k ∧ k.met.isNone ∧ sgn (pkWord k.pkt 3) ≤ sgn (s1.devSem (get (pkWord k.pkt 2) 16 0)) then
      (s1.updQueue q fun k => { k with met := some s1.now }).after 20 .frontEndStart
    else if pkKind k.pkt = 7 ∧ s1.queueLive k ∧ s1.ftick < (pkWord k.pkt 3).toNat then
      s1.after (max 1 (min (((pkWord k.pkt 3).toNat - s1.ftick) * 3 / 2) 65536)) .frontEndStart
    else s1) s

/-- Saved groups that may come back, in the order they were saved, then by index (08 R144). -/
def State.comeback (s : State) : List Nat :=
  let gs := (s.grps.filter fun g => s.eligible g.1).map (·.1)
  let key := fun (g : Nat) => match (s.grp g).run with
    | some r => (r.parkedAt, g)
    | none => (0, g)
  let le := fun (a b : Nat × Nat) => decide (a.1 < b.1 ∨ (a.1 = b.1 ∧ a.2 ≤ b.2))
  let ins := fun (l : List Nat) (g : Nat) => (l.filter fun h => le (key h) (key g)) ++ [g] ++ l.filter fun h => !le (key h) (key g)
  gs.foldl ins []

/-- One saved group is restored if its cores and a sequencer may be taken, or ended if a core is fenced (05 R113; 06 R124). -/
def State.tryRestore (s : State) (g : Nat) : State := match (s.grp g).run with
  | none => s
  | some r =>
    let seqOk := match s.freeSeq with
      | some n => s.maySeq 256 n
      | none => false
    if r.members.any s.fenced.contains || (seqOk && r.members.all (s.mayCore 256)) then
      (match execGroupRestore (fin1024 g) s with
        | .next s1 => s1.unkeep 256 ((s.freeSeq).getD 8) r.members
        | _ => s)
    else s

/-- Contexts with a startable head of a class, and their lowest such queue. -/
def State.startable (s : State) (cls : Nat) : List Nat := s.queueList.filter fun q => (s.queue q).cls == cls && s.headSt q == .go

/-- The class-0 choice: smallest deadline, 0 latest; then lowest queue (06 R123). -/
def State.pick0 (s : State) (qs : List Nat) : Option Nat :=
  let dl := fun (q : Nat) => let d := pkDeadline (s.queue q).pkt; if d = 0 then 2 ^ 64 else d
  qs.foldl (fun (b : Option Nat) q => match b with
    | some p => if dl q < dl p then some q else some p
    | none => some q) none

/-- Credit a context has in a class; its weight (06 R123; 05 R108). -/
def Ctx.cred (x : Ctx) (cls : Nat) : Nat := x.credit.getD cls 0
def Ctx.wt (x : Ctx) : Nat := if x.weight = 0 then 16 else x.weight

/-- Every context's credit of a class is reset to its weight. -/
def State.refillCredit (s : State) (cls : Nat) : State :=
  (List.range 64).foldl (fun (s : State) x => if (s.ctx x).state = 0 then s else s.updCtx x fun k => { k with credit := k.credit.set cls k.wt }) s

/-- The first context from the pointer with a startable head and credit. -/
def State.turn (s : State) (cls : Nat) (qs : List Nat) : Option Nat :=
  let p := s.classPtr.getD cls 0
  ((List.range 64).map fun i => (p + i) % 64).find? fun x => qs.any (fun q => (s.queue q).ctx == x) && decide (0 < (s.ctx x).cred cls)

/-- The choice of classes 1 to 3: the state with credits reset if need be, and a queue (06 R123). -/
def State.pickN (s : State) (cls : Nat) (qs : List Nat) : State × Option Nat :=
  let lowest := fun (x : Nat) => qs.find? fun q => (s.queue q).ctx == x
  match s.turn cls qs with
  | some x => (s, lowest x)
  | none =>
    let s1 := s.refillCredit cls
    (s1, (s1.turn cls qs).bind lowest)

/-- The pointer of a class that stands on a context moves on once that context has no head that can start (06 R123). -/
def State.leaveCtx (s : State) (cls : Nat) : State :=
  let p := s.classPtr.getD cls 0
  if s.classOn.getD cls false && !(s.startable cls).any fun q => (s.queue q).ctx == p then
    { s with classPtr := s.classPtr.set cls ((p + 1) % 64), classOn := s.classOn.set cls false }
  else s

/-- Heads are read, and pointers move (06 R119, R123). -/
def State.look (s : State) : State := [1, 2, 3].foldl (fun (s : State) cls => s.leaveCtx cls) s.scanHeads

/-- A start by queue `q` of a class from 1 to 3 is paid for (06 R123). -/
def State.payCredit (s : State) (cls q : Nat) : State :=
  let x := (s.queue q).ctx
  let c := (s.ctx x).cred cls - 1
  let s1 := s.updCtx x fun k => { k with credit := k.credit.set cls c }
  { s1 with classPtr := s1.classPtr.set cls (if c = 0 then (x + 1) % 64 else x), classOn := s1.classOn.set cls (c != 0) }

/-- The next start: credits reset if need be, and the class and queue chosen (06 R123). -/
def State.choose (s : State) : List Nat → State × Option (Nat × Nat)
  | [] => (s, none)
  | cls :: rest =>
    let qs := s.startable cls
    if qs.isEmpty then s.choose rest
    else if cls = 0 then (s, (s.pick0 qs).map fun q => (0, q))
    else ((s.pickN cls qs).1, (s.pickN cls qs).2.map fun q => (cls, q))

/-- The next start is made, if it is of a queue of which `want` holds; one every 16 cycles (06 R123). -/
def State.startNext (s : State) (want : Nat → Bool) : State :=
  if s.now < s.nextStart then s
  else
    let r := s.choose [0, 1, 2, 3]
    match r.2 with
    | none => r.1
    | some (cls, q) =>
      if !want q then s
      else
        let s1 := ((if cls = 0 then r.1 else r.1.payCredit cls q).startPacket q)
        ({ s1 with nextStart := s.now + 16 }.sched (s.now + 16) .frontEndStart).look

/-- Running groups that a deadline launch may ask, in order (06 R124): class, deadline with 0 latest, group id, all descending. -/
def State.victims (s : State) : List Nat :=
  let gs := (s.grps.filter fun g => (g.2.state == 2 || g.2.state == 3) && (match g.2.run with
    | some r => decide (1 ≤ r.cls)
    | none => false)).map (·.1)
  let key := fun (g : Nat) => match (s.grp g).run with
    | some r => (r.cls, if r.deadline = 0 then 2 ^ 64 else r.deadline, (s.gid16 g).toNat)
    | none => (0, 0, 0)
  let ge := fun (a b : Nat × Nat × Nat) => decide (b.1 < a.1 ∨ (a.1 = b.1 ∧ (b.2.1 < a.2.1 ∨ (a.2.1 = b.2.1 ∧ b.2.2 ≤ a.2.2))))
  let ins := fun (l : List Nat) (g : Nat) => (l.filter fun h => ge (key h) (key g)) ++ [g] ++ l.filter fun h => !ge (key h) (key g)
  gs.foldl ins []

/-- The launch fits what is free together with what some groups hold. -/
def State.fitsWith (s : State) (q x : Nat) (ws : List Word) (gs : List Nat) : Bool :=
  let runs := gs.filterMap fun g => (s.grp g).run
  let cores := runs.flatMap (·.members)
  s.spanRoom x ws && ((List.range 1024).any fun g => (s.grp g).state == 8) && ((List.range 8).any (s.maySeq q) || !runs.isEmpty) &&
    (firstFit (fun c => s.mayCore q c || (cores.contains c && !s.fenced.contains c && !s.planned (c / 8))) (lrCores ws) (lrDies ws)).isSome

/-- Victims in order until the launch fits (06 R124); none when no set of them will do. -/
def State.victimsFor (s : State) (q x : Nat) (ws : List Word) : List Nat → List Nat → Option (List Nat)
  | got, [] => if s.fitsWith q x ws got then some got else none
  | got, v :: vs => if s.fitsWith q x ws got then some got else s.victimsFor q x ws (got ++ [v]) vs

/-- Heads of class 0 in the order of their start (06 R123). -/
def State.order0 (s : State) : Nat → List Nat → List Nat
  | 0, _ => []
  | n + 1, qs => match s.pick0 qs with
    | some q => q :: s.order0 n (qs.filter (· ≠ q))
    | none => []

/-- Victims for the LAUNCH at the head of queue `q`, those asked already for it first; none when there are none to ask. -/
def State.askFor (s : State) (q : Nat) : Option (List Nat) :=
  let k := s.queue q
  let got := if s.keep.isSome then s.victims.filter fun g => ((s.grp g).run.map (·.preempt)).getD false else []
  (s.victimsFor q k.ctx k.recWords got (s.victims.filter fun g => !got.contains g)).filter fun vs => !vs.isEmpty

/-- A class-0 LAUNCH at its head that finds no allocation asks groups to pre-empt; while requests for one are outstanding no other asks
(06 R124). -/
def State.askPreempt (s : State) : State :=
  let heads := s.queueList.filter fun q =>
    let k := s.queue q
    k.cls == 0 && s.queueLive k && pkKind k.pkt == 1 && s.acOk k && s.headSt q == .wait
  let s0 := if (s.keep.map fun k => !heads.contains k.queue).getD false then { s with keep := none } else s
  let mine := match s0.keep with
    | some k => [k.queue]
    | none => s0.order0 heads.length heads
  match mine.findSome? fun q => (s0.askFor q).map fun vs => (q, vs) with
  | none => s0
  | some (q, vs) =>
    let s1 := vs.foldl (fun (s : State) g => s.updRun g fun r => { r with preempt := true }) s0
    if s0.keep.isSome then s1
    else { s1 with keep := some ⟨q, (List.range 64).filter s.coreFree1, (List.range 8).filter fun n => !s.seqsHeld.contains n⟩ }

/-- The front end at work (06 R122 to R124): heads are read, saved groups come back, and at most one packet starts every 16 cycles, of a
queue of which `want` holds. -/
def State.frontEnd (s : State) (want : State → Nat → Bool) : State :=
  let s1 := s.look
  let s2 := s1.comeback.foldl (fun (s : State) g => s.tryRestore g) s1
  let s3 := s2.startNext (want s2)
  let more := decide (s3.now < s3.nextStart) && [0, 1, 2, 3].any fun c => !(s3.startable c).isEmpty
  (if more then s3.sched s3.nextStart .frontEndStart else s3).askPreempt

/-- FRONT_END_START (06 R122 to R124). -/
def execFrontEndStart (s : State) : Out := .next (s.frontEnd fun _ _ => true)

/-! ### Packets as events of their own -/

/-- The packet at the head of queue `q`, of a kind, starts when the front end's next start is its (06 R121, R123). -/
def State.startKind (s : State) (q kind : Nat) : State := s.frontEnd fun s p => p == q && pkKind (s.queue p).pkt == kind

/-- LAUNCH (07 R130). -/
def execLaunch (q : Fin 256) (s : State) : Out := .next (s.startKind q.val 1)
/-- COLLSTEP (13 R219). -/
def execCollstep (q : Fin 256) (s : State) : Out := .next (s.startKind q.val 2)
/-- TRANSFER (18 R322). -/
def execTransfer (q : Fin 256) (s : State) : Out := .next (s.startKind q.val 3)
/-- CONVERT (13 R215). -/
def execConvert (q : Fin 256) (s : State) : Out := .next (s.startKind q.val 4)
/-- SIGNAL (06 R121). -/
def execSignal (q : Fin 256) (s : State) : Out := .next (s.startKind q.val 5)
/-- WAITSEM (06 R121). -/
def execWaitsem (q : Fin 256) (s : State) : Out := .next (s.startKind q.val 6)
/-- TICKSTART (07 R135). -/
def execTickstart (q : Fin 256) (s : State) : Out := .next (s.startKind q.val 7)
/-- MARKER (06 R121). -/
def execMarker (q : Fin 256) (s : State) : Out := .next (s.startKind q.val 8)

end Sys2Proof.Machine
end

