-- ==== Sys2Proof/Machine/Linking.lean ====
section
/-! DEFINITION. The optical links: states, flits, replay, credits, slot tables and the fabric tick (11). -/

namespace Sys2Proof.Machine
open Sys2Proof.Bits

/-! ### Losing a link -/

/-- A tile's send to another package was discarded: it is an operation not acknowledged whose message a list has. -/
def MemOp.sendLost (lost : List Nat) (o : MemOp) : Bool := match o.kind with
  | .chsend _ _ _ m => o.left && !o.fq && lost.contains m
  | _ => false

/-- Tile operations whose messages were discarded fault with cause 6 (11 R179); those of saved groups send again once they are restored. -/
def State.loseSends (s : State) (lost : List Nat) : State :=
  let again := fun (o : MemOp) => if o.sendLost lost then { o with left := false } else o
  let back := fun (r : Run) => { r with saved := r.saved.map fun m => (m.1, { m.2 with memq := m.2.memq.map again }) }
  let s1 := { s with grps := s.grps.map fun e => (e.1, { e.2 with run := e.2.run.map back }) }
  (List.range 64).foldl (fun (s : State) c => ((s.core c).memq.filter (MemOp.sendLost lost)).foldl (fun (s : State) o => s.opFault c o 6 2 1 0 (.op c o.id)) s) s1

/-- Acknowledgements may complete sends of tiles, and steps of collectives (11 R183; 13 R214, R219). -/
def State.sendsAcked (s : State) : State := ((List.range 64).foldl (fun (s : State) c => s.dropAcked c) s).pokeSteps

/-- A link enters FENCED, DOWN or DARK: what it holds is discarded, its markers count as returned, and operations whose messages or whose
path it carried end (11 R179; 08 R146; 12 R203; 13 R216). `loss` 0 leaves LOSS as it is. -/
def State.dropLink (s : State) (l state loss : Nat) : State :=
  let k := s.link l
  let lost := (k.coming.map (·.2.msg)) ++ (k.queue.map (·.msg)) ++ (k.replay.map (·.1.msg))
  let s1 := s.updLink l fun k => { k with
    state := state, back := 0, loss := if loss = 0 then k.loss else loss, nwl := 0, tlock := false, queue := [], coming := [], replay := [],
    resend := [], assembly := [], inbox := [], slot := none, wrongId := false }
  let s2 := s1.grps.foldl (fun (s : State) g =>
    (g.2.marks.filter fun p => decide (p < 1000 ∧ p / 8 = l)).foldl (fun (s : State) p => s.markBack g.1 p) s) s1
  if 2 ≤ k.state ∧ k.state ≤ 4 then ((s2.loseConvs s l).loseRoutes l).loseSends lost else s2

/-! ### Commands and training -/

/-- LNKCTL TRAIN (11 Table 11.1, R180): DARK with the gable's laser module present, FENCED or DOWN; it ends in 2 ms at the latest. -/
def State.linkTrain (s : State) (l : Nat) : State :=
  let k := s.link l
  if (k.state = 0 ∨ k.state = 5 ∨ k.state = 6) ∧ s.lasers.getD (gableOf l) false = true then
    ((s.updLink l fun k => { k with state := 1, back := 0, replays := 0, free := s.now + 3000000 }).after 3000000
      (.trainingTimeout (fin48 l))).soon (.tickSend (fin48 l))
  else s

/-- LNKCTL FENCE, containment and the replay limit (11 Table 11.1): TRAIN to REPLAY become FENCED. -/
def State.linkFence (s : State) (l loss : Nat) : State :=
  if 1 ≤ (s.link l).state ∧ (s.link l).state ≤ 4 then s.dropLink l 5 loss else s

/-- LNK_TRAIN (11 R178). -/
def execLnkTrain (l : Fin 48) (s : State) : Out := .next (s.linkTrain l.val)

/-- LNK_FENCE (11 R178): LOSS 4. -/
def execLnkFence (l : Fin 48) (s : State) : Out := .next (s.linkFence l.val 4)

/-- LNK_DISABLE (11 R178). -/
def execLnkDisable (l : Fin 48) (s : State) : Out := .next (s.dropLink l.val 0 0)

/-- TRAINING_TIMEOUT: 2 ms elapsed (11 Table 11.1): DOWN, LOSS 1. -/
def execTrainingTimeout (l : Fin 48) (s : State) : Out :=
  let k := s.link l.val
  .next (if k.state = 1 ∧ k.free ≤ s.now then s.dropLink l.val 6 1 else s)

/-- The lowest-numbered UP or DEGRADED link whose peer is `p` (11 R190). -/
def State.linkOfPeer (s : State) (p : Nat) : Option Nat :=
  (List.range 48).find? fun l => ((s.link l).state == 2 || (s.link l).state == 3) && (s.link l).peer == p

/-- Every entry of `LRTE` at bring-up (11 R190): the lowest-numbered link to its package, or none. -/
def State.bringUp (s : State) : State :=
  let ps := (List.range 48).foldl (fun l i => if (s.link i).state = 2 ∨ (s.link i).state = 3 then insertNat (s.link i).peer l else l) []
  let e := fun (p : Nat) => match s.linkOfPeer p with
    | some l => BitVec.ofNat 64 (64 + l)
    | none => (0 : Word)
  s.updRegs fun r => { r with lrte := ps.map fun p => (p, e p) }

/-- Sequence state as training leaves it (11 R180): SEQ 0, no acknowledgement, 128 credits on every VC. -/
def PeerSt.fresh : PeerSt :=
  { txSeq := 0, rxSeq := 0, seen := false, naked := false, credit := List.replicate 8 128, owed := List.replicate 8 0 }

/-! ### Flits -/

/-- One byte more of a CRC-32C, by bits: reflected polynomial 0x82F6_3B78. -/
def crcBits : Nat → Nat → Nat
  | 0, c => c
  | n + 1, c => crcBits n (if c % 2 = 1 then Nat.xor (c / 2) 0x82F63B78 else c / 2)

/-- CRC-32C of a byte string (11 R182). -/
def crc32c (bs : List Byte) : Nat := Nat.xor (bs.foldl (fun c b => crcBits 8 (Nat.xor c b.toNat)) 0xFFFFFFFF) 0xFFFFFFFF

/-- The first 248 bytes of a flit (11 Table 11.3). `ack` is the acknowledgement, if valid; `cvc` and `cred` the credit returned; `rank` the
sender's. -/
def Flit.body (f : Flit) (ack : Option Nat) (cvc cred rank : Nat) : List Byte :=
  let w0 := f.seq % 2 ^ 13 * 2 ^ 51 + f.vc % 8 * 2 ^ 48 + f.kind % 8 * 2 ^ 45 + (if ack.isSome then 2 ^ 44 else 0) + (ack.getD 0) % 2 ^ 13 * 2 ^ 31 +
    cvc % 8 * 2 ^ 28 + cred % 256 * 2 ^ 20 + rank % 4096
  let w1 := f.gid % 2 ^ 16 * 2 ^ 48 + f.len % 256 * 2 ^ 40
  natLE 8 w0 ++ natLE 8 w1 ++ slice f.bytes 0 232

/-- The 256 bytes of a flit: word 31 has the CRC (11 Table 11.3). -/
def Flit.image (f : Flit) (ack : Option Nat) (cvc cred rank : Nat) : List Byte :=
  let b := f.body ack cvc cred rank
  b ++ natLE 4 (crc32c b) ++ [0, 0, 0, 0]

/-- A received flit read: none when its CRC-32C fails, its kind is 6 or 7, LEN is above 232, a reserved field is nonzero or a byte past LEN
is not zero (11 R182). -/
def readFlit (bs : List Byte) : Option FlitIn :=
  let w0 := numAt bs 0 8
  let w1 := numAt bs 8 8
  let len := nget w1 47 40
  let good := bs.length == 256 && numAt bs 248 4 == crc32c (bs.take 248) && numAt bs 252 4 == 0 && decide (nget w0 47 45 ≤ 5) &&
    nget w0 19 12 == 0 && nget w1 39 0 == 0 && decide (len ≤ 232) && (slice bs (16 + len) (232 - len)).all (· == 0)
  if good then
    some { seq := nget w0 63 51, vc := nget w0 50 48, kind := nget w0 47 45, av := nget w0 44 44 == 1, ack := nget w0 43 31, cvc := nget w0 30 28,
           cred := nget w0 27 20, peer := nget w0 11 0, gid := nget w1 63 48, bytes := slice bs 16 len }
  else none

/-- The wavelength each beat of the flit being sent goes to: beat j of the stream to j mod n (11 R181). -/
def Link.lanes (k : Link) : List (Nat × List Byte) :=
  (List.range 16).map fun i => ((k.beats + i) % max 1 k.nwl, slice k.wire (16 * i) 16)

/-- TRAINING_DONE with the number of wavelengths locked here and the peer's identity flit, what its CRC covers and the rest (11 Table 11.1,
R180, R182): a VC6 flit whose payload is
its count of wavelengths and its protocol revision (the layout is the model's, log 8); this end's goes out. Each end takes the lower
count. -/
def execTrainingDone (l : Fin 48) (locked : Nat) (ident tail : List Byte) (s : State) : Out :=
  let n := l.val
  match readFlit (ident ++ tail) with
  | none => .next s
  | some f =>
    if (s.link n).state ≠ 1 ∨ f.vc ≠ 6 then .next s
    else
      let mine : Flit := ⟨6, 2, 0, 0, 0xFFFF, 2, [BitVec.ofNat 8 locked, 2], 0, .nothing⟩
      let s0 := s.updLink n fun k => { k with wire := mine.image none 0 0 s.regs.pkrank }
      let w := min (min locked (numAt f.bytes 0 1)) 16
      if numAt f.bytes 1 1 ≠ 2 then .next (s0.dropLink n 6 1)
      else if w < 12 then .next (s0.dropLink n 6 2)
      else
        let s1 := s0.updLink n fun k => { k with
          state := if w = 16 then 2 else 3, nwl := w, peer := f.peer, peers := [], beats := 0, free := s.now }
        .next ((((s1.bringUp).soon (.tickSend l)).soon (.slotOpen l)).soon (.flitSend l))

/-- LASER_MODULE_REMOVAL: the gable's 12 links go DARK (31 R439; 11 Table 11.1), LOSS 6. -/
def execLaserModuleRemoval (gable : Nat) (s : State) : Out :=
  if 4 ≤ gable then .next s
  else
    let s1 := { s with lasers := s.lasers.set gable false }
    .next ((List.range 12).foldl (fun (s : State) i => s.dropLink (12 * gable + i) 0 6) s1)

/-- LASER_MODULE_INSERTION changes no link's state (31 R439). -/
def execLaserModuleInsertion (gable : Nat) (s : State) : Out :=
  .next { s with lasers := s.lasers.set gable true }

/-! ### Slot tables -/

/-- `SLTCTL`.EN, NSLOT; an entry of the table and its fields (11 Table 11.5). -/
def Link.en (k : Link) : Bool := bit k.sltctl 8
def Link.nslot (k : Link) : Nat := get k.sltctl 6 0
def Link.entry (k : Link) (i : Nat) : Word × Word := Tbl.getD k.table i resetSlot
def seV (e : Word × Word) : Bool := bit e.1 63
def seVcm (e : Word × Word) : Nat := get e.1 55 48
def sePeer (e : Word × Word) : Nat := get e.1 47 36
def seDur (e : Word × Word) : Nat := get e.1 23 0
def seGuard (e : Word × Word) : Nat := get e.2 63 48
def seBudget (e : Word × Word) : Nat := get e.2 31 0

/-- Length of a rotation (11 R186). -/
def Link.rot (k : Link) : Nat := (List.range k.nslot).foldl (fun n i => n + seDur (k.entry i)) 0

/-- The slot that holds offset `r` of a rotation, and where it begins. -/
def Link.slotGo (k : Link) (r : Nat) : Nat → Nat → Nat → Nat × Nat
  | 0, i, a => (i, a)
  | n + 1, i, a => if r < a + seDur (k.entry i) then (i, a) else k.slotGo r n (i + 1) (a + seDur (k.entry i))

/-- Slot and opening tick at a fabric tick at or past `SLTBASE` (11 R186). -/
def Link.slotAt (k : Link) (t : Nat) : Nat × Nat :=
  let e := t - k.sltbase.toNat
  let r := e % max 1 k.rot
  let g := k.slotGo r (k.nslot - 1) 0 0
  (g.1, k.sltbase.toNat + (e - r) + g.2)

/-- Event `i` is tried again when the fabric tick may have reached `t`. -/
def State.atTick (s : State) (t : Nat) (i : Instr) : State := s.after (max 1 ((t - s.ftick) * 3 / 2)) i

/-- The table may be enabled (11 R187). -/
def Link.tableOk (k : Link) (n : Nat) : Bool :=
  decide (1 ≤ n ∧ n ≤ 64) && (List.range n).all fun i =>
    let e := k.entry i
    decide (seGuard e + 1000 ≤ seDur e ∧ seBudget e ≤ (seDur e - seGuard e) * 116)

/-- A write of `SLTCTL` (11 R186, R187). -/
def State.writeSltctl (s : State) (l : Nat) (val : Word) : State :=
  let k := s.link l
  let n := get val 6 0
  if k.en then
    (if bit val 8 then s
     else (s.updLink l fun k => { k with sltctl := BitVec.ofNat 64 k.nslot, slot := none, wrongId := false }).soon (.flitSend (fin48 l)))
  else
    let on := bit val 8 && k.tableOk n
    let s1 := s.updLink l fun k => { k with sltctl := BitVec.ofNat 64 ((if on then 256 else 0) + n), slot := none, wrongId := false }
    if on then s1.soon (.slotOpen (fin48 l)) else s1

/-- SLTCTL_WRITE (11 R187). -/
def execSltctlWrite (l : Fin 48) (val : Word) (s : State) : Out := .next (s.writeSltctl l.val val)

/-- SLOT_OPEN (11 R186, R188): a slot opens at its tick. -/
def execSlotOpen (l : Fin 48) (s : State) : Out :=
  let k := s.link l.val
  if !k.en || !s.linkUsable l.val then .next s
  else if s.ftick < k.sltbase.toNat then .next (s.atTick k.sltbase.toNat (.slotOpen l))
  else
    let p := k.slotAt s.ftick
    let same := match k.slot with
      | some q => q.1 == p.1 && q.2.1 == p.2
      | none => false
    if same then .next s
    else
      let e := k.entry p.1
      let s1 := s.updLink l.val fun k => { k with slot := some (p.1, p.2, false, 0), wrongId := false }
      .next ((s1.atTick (p.2 + seGuard e) (.guardEnd l)).atTick (p.2 + seDur e) (.slotClose l))

/-- GUARD_END: the guard is over, a SLOTID flit is sent (11 R186). -/
def execGuardEnd (l : Fin 48) (s : State) : Out :=
  let k := s.link l.val
  match k.slot with
  | none => .next s
  | some q =>
    let e := k.entry q.1
    if q.2.2.1 then .next s
    else if s.ftick < q.2.1 + seGuard e then .next (s.atTick (q.2.1 + seGuard e) (.guardEnd l))
    else if !seV e then .next (s.updLink l.val fun k => { k with slot := some (q.1, q.2.1, true, 0) })
    else
      let f : Flit := ⟨0, 5, 0, sePeer e, 0xFFFF, 0, [], 0, .nothing⟩
      let s1 := s.updLink l.val fun k => { k with slot := some (q.1, q.2.1, true, 0), queue := f :: k.queue }
      .next (s1.soon (.flitSend l))

/-- SLOT_CLOSE: the slot's time is over; the next opens (11 R186). -/
def execSlotClose (l : Fin 48) (s : State) : Out :=
  let k := s.link l.val
  match k.slot with
  | none => .next s
  | some q =>
    let e := k.entry q.1
    if s.ftick < q.2.1 + seDur e then .next (s.atTick (q.2.1 + seDur e) (.slotClose l))
    else .next ((s.updLink l.val fun k => { k with slot := none, wrongId := false }).soon (.slotOpen l))

/-! ### Sending -/

/-- Whom a link may send to now, and on which VCs; bytes of payload left (none: no limit); the tick the slot closes at (11 R186,
R188). -/
structure Window where
  peer  : Nat
  vcs   : Nat
  left  : Option Nat
  close : Option Nat
  deriving DecidableEq, Repr

/-- The window open on a link at a fabric tick. -/
def Link.window (k : Link) (t : Nat) : Option Window :=
  if !k.en then some ⟨k.peer, 0xFF, none, none⟩
  else if t < k.sltbase.toNat then some ⟨k.peer, 0x40, none, none⟩
  else match k.slot with
    | none => none
    | some q =>
      let e := k.entry q.1
      if q.2.2.1 && seV e then
        some ⟨sePeer e, seVcm e % 128, if seBudget e = 0 then none else some (seBudget e - q.2.2.2), some (q.2.1 + seDur e)⟩
      else none

/-- Sequence state toward a peer. -/
def Link.peerSt (k : Link) (p : Nat) : PeerSt := Tbl.getD k.peers p PeerSt.fresh
/-- It changes. -/
def Link.updPeer (k : Link) (p : Nat) (f : PeerSt → PeerSt) : Link := { k with peers := Tbl.set k.peers p (f (k.peerSt p)) }

/-- Flits of a message carry a SEQ; IDLE, TICK, NAK and SLOTID do not (11 R182). -/
def Flit.seqd (f : Flit) : Bool := f.kind == 1 || f.kind == 2
/-- IDLE, NAK and SLOTID are flits of the link itself and of no VC (11 R188 names them beside the flits of VC6): they take no credit
and no mask of VCs holds them (DEDUCED, log 23). -/
def Flit.control (f : Flit) : Bool := f.kind == 0 || f.kind == 4 || f.kind == 5

/-- Cycles a flit takes: 256 B at n × 8 B/ns (11 R181). -/
def Link.flitTime (k : Link) : Nat := ceilDiv 48 (max 1 k.nwl)

/-- A flit's VC is open in a window and its LEN keeps the slot's payload bytes within the budget (11 R186); a new flit of a message may be cut
to it. -/
def Window.takes (w : Window) (f : Flit) (whole : Bool) : Bool :=
  f.peer == w.peer && w.vcs / 2 ^ f.vc % 2 == 1 && (match w.left with
    | some n => if whole then decide (f.len ≤ n) else decide (0 < n ∨ f.len = 0)
    | none => true)

/-- A flit may be sent in a window (11 R183, R184, R186): its peer, and for one of a VC the mask, credit and budget, and for one with a SEQ
room in the replay buffer. -/
def Link.sendable (k : Link) (w : Window) (f : Flit) : Bool :=
  if f.control then f.peer == w.peer
  else w.takes f (!f.seqd) && decide (0 < ((k.peerSt f.peer).credit.getD f.vc 0)) && (!f.seqd || decide (k.replay.length < 4096))

/-- The next new flit: SLOTID first, then NAK and IDLE, else the first of the lowest-numbered VC (11 R184, R186); its place in the queue. -/
def Link.choose (k : Link) (w : Window) : Option (Nat × Flit) :=
  let ok := (k.queue.mapIdx fun i f => (i, f)).filter fun e => k.sendable w e.2
  match ok.find? (fun e => e.2.kind == 5), ok.find? (fun e => e.2.control) with
  | some e, _ => some e
  | none, some e => some e
  | none, none => if k.state = 4 then none else (List.range 8).findSome? fun v => ok.find? fun e => e.2.vc == v

/-- The flit cut to what the budget leaves, and what stays queued of it (11 R186: the last flit fills the budget exactly). -/
def Flit.cut (f : Flit) (left : Option Nat) : Flit × List Flit := match left with
  | some n => if f.seqd && decide (n < f.len) then
      ({ f with kind := 1, len := n, bytes := f.bytes.take n, telling := .nothing }, [{ f with len := f.len - n, bytes := f.bytes.drop n }])
    else (f, [])
  | none => (f, [])

/-- The group of a message is saved and holds as many as it may (08 R147). -/
def State.inboxFull (s : State) (m : Inbound) : Bool := m.gid != 0xFFFF && (match s.fate true (BitVec.ofNat 16 m.gid) with
  | .held g => decide (256 ≤ (((s.grp g).run).map fun r => r.heldMsgs.length + r.heldArr.length).getD 0)
  | _ => false)

/-- VCs of a peer whose credits stop because a message for a saved group waits here beyond the 256 it may hold (08 R147). -/
def State.stopsCredit (s : State) (k : Link) (p v : Nat) : Bool := k.inbox.any fun m => m.peer == p && m.vc == v && decide (m.due ≤ s.now) && s.inboxFull m

/-- The VC whose credit goes back with a flit to a peer, and how much (11 R182, R184). -/
def State.payable (s : State) (k : Link) (p : Nat) : Option (Nat × Nat) :=
  ((List.range 8).find? fun v => decide (0 < (k.peerSt p).owed.getD v 0) && !s.stopsCredit k p v).map fun v => (v, (k.peerSt p).owed.getD v 0)

/-- Flits whose way over the eave ring is over join the queue. -/
def Link.board (k : Link) (now : Nat) : Link :=
  { k with queue := k.queue ++ (k.coming.filter fun e => decide (e.1 ≤ now)).map (·.2), coming := k.coming.filter fun e => decide (now < e.1) }

/-- A flit goes out: its 256 bytes with the acknowledgement and the credits it returns; a TICK carries the tick of its first beat (11 R181 to
R184, R189). -/
def State.putFlit (s : State) (l : Nat) (f : Flit) : State :=
  let k := s.link l
  let p := k.peerSt f.peer
  let c := s.payable k f.peer
  let f1 := if f.kind = 3 then { f with bytes := natLE 8 s.ftick } else f
  let ack := if p.seen then some ((p.rxSeq + 8191) % 8192) else none
  let paid := fun (p : PeerSt) => match c with
    | some (v, _) => { p with owed := p.owed.set v 0 }
    | none => p
  let t := k.flitTime
  (s.updLink l fun k => { (k.updPeer f.peer paid) with
    wire := f1.image ack ((c.map (·.1)).getD 0) ((c.map (·.2)).getD 0) s.regs.pkrank, beats := k.beats + 16, free := s.now + t }).after t (.flitSend (fin48 l))

/-- A new flit leaves the queue: SEQ, credit, replay buffer, budget (11 R182 to R184, R186). -/
def State.sendFlit (s : State) (l i : Nat) (f : Flit) (w : Window) : State :=
  let k := s.link l
  let c := f.cut w.left
  let sent := if f.seqd then { c.1 with seq := (k.peerSt f.peer).txSeq } else c.1
  let step := fun (p : PeerSt) =>
    if f.seqd then { p with txSeq := (p.txSeq + 1) % 8192, credit := p.credit.modify f.vc (· - 1) }
    else if f.control then p else { p with credit := p.credit.modify f.vc (· - 1) }
  let used := k.slot.map fun x => (x.1, x.2.1, x.2.2.1, x.2.2.2 + sent.len)
  let s1 := s.updLink l fun k => { (k.updPeer f.peer step) with
    queue := k.queue.take i ++ c.2 ++ k.queue.drop (i + 1), replay := if f.seqd then k.replay ++ [(sent, 1, s.now)] else k.replay, slot := used }
  let s2 := s1.putFlit l sent
  if f.seqd then s2.after 6000 (.replayTimeout (fin48 l)) else s2

/-- A flit is sent again in REPLAY; the sixteenth sending fences the link (11 R183, Table 11.1). -/
def State.resendFlit (s : State) (l : Nat) (q : Nat × Nat) : State :=
  let k := s.link l
  let mine := fun (e : Flit × Nat × Nat) => e.1.peer == q.1 && e.1.seq == q.2
  let rest := k.resend.erase q
  match k.replay.find? mine with
  | none => (s.updLink l fun k => { k with resend := rest }).soon (.flitSend (fin48 l))
  | some e =>
    if 16 ≤ e.2.1 + 1 then s.linkFence l 3
    else
      let again := fun (e : Flit × Nat × Nat) => (e.1, e.2.1 + 1, s.now)
      let used := k.slot.map fun x => (x.1, x.2.1, x.2.2.1, x.2.2.2 + e.1.len)
      let s1 := s.updLink l fun k => { k with resend := rest, replay := updWhere mine again k.replay, slot := used }
      (s1.putFlit l e.1).after 6000 (.replayTimeout (fin48 l))

/-- The next flit to send again in a window: of its peer, in order, as mask and budget allow (11 R183, R186). A flit that is acknowledged
by now goes no more. -/
def Link.nextResend (k : Link) (w : Window) : Option (Nat × Nat) := match k.resend.find? fun q => q.1 == w.peer with
  | none => none
  | some q => match k.replay.find? fun e => e.1.peer == q.1 && e.1.seq == q.2 with
    | none => some q
    | some e => if w.takes e.1 true then some q else none

/-- A flit fits before the slot closes. -/
def State.fitsSlot (s : State) (k : Link) (w : Window) : Bool := match w.close with
  | some t => decide (s.ftick + ceilDiv (2 * k.flitTime) 3 ≤ t)
  | none => true

/-- The link sends what it may now (11 R184, R186, R188): in REPLAY the flits to send again go before any new one. -/
def State.sendNext (s : State) (l : Nat) : State :=
  let k := s.link l
  if s.now < k.free then (if s.agenda.contains (k.free, .flitSend (fin48 l)) then s else s.sched k.free (.flitSend (fin48 l)))
  else match k.window s.ftick with
    | none => s
    | some w =>
      if !s.fitsSlot k w then s
      else match k.choose w with
        | some e => s.sendFlit l e.1 e.2 w
        | none =>
          if k.state = 4 then
            (if k.resend.isEmpty then s.soon (.replayComplete (fin48 l))
             else match k.nextResend w with
              | some q => s.resendFlit l q
              | none => s)
          else if (s.payable k w.peer).isSome then s.putFlit l ⟨0, 0, 0, w.peer, 0xFFFF, 0, [], 0, .nothing⟩
          else s

/-! ### Replay -/

/-- A link goes to REPLAY (11 R183): it sends again the flits of peer `p` from SEQ `q` on, or with none named those of every peer from the
oldest of a peer that `late` tells of. -/
def State.toReplay (s : State) (l : Nat) (from_ : Option (Nat × Nat)) (late : Nat → Bool) (back : Nat) : State :=
  let k := s.link l
  let all := k.replay.map fun e => (e.1.peer, e.1.seq)
  let qs := match from_ with
    | some q => (all.filter fun e => e.1 == q.1).dropWhile (· != q)
    | none => all.filter fun e => late e.1
  (s.updLink l fun k => { k with state := 4, back := back, resend := qs, replays := min (k.replays + 1) 65535 }).soon (.flitSend (fin48 l))

/-- REPLAY_TIMEOUT: the oldest unacknowledged flit has waited 4 µs (11 R183). -/
def execReplayTimeout (l : Fin 48) (s : State) : Out :=
  let k := s.link l.val
  let old := fun (p : Nat) => k.replay.any fun e => e.1.peer == p && decide (e.2.2 + 6000 ≤ s.now)
  .next (if (k.state = 2 ∨ k.state = 3) ∧ k.replay.any (fun e => decide (e.2.2 + 6000 ≤ s.now)) = true then s.toReplay l.val none old k.state else s)

/-- REPLAY_COMPLETE: the link returns to the state it came from (11 Table 11.1). -/
def execReplayComplete (l : Fin 48) (s : State) : Out :=
  let k := s.link l.val
  .next (if k.state = 4 ∧ k.resend.isEmpty then
    (s.updLink l.val fun k => { k with state := k.back, back := 0 }).soon (.flitSend l) else s)

/-- WAVELENGTH_LOSS: REPLAY, then DEGRADED with the new count; DOWN below 12 (11 Table 11.1). -/
def execWavelengthLoss (l : Fin 48) (s : State) : Out :=
  let k := s.link l.val
  if k.state ≠ 2 ∧ k.state ≠ 3 then .next s
  else if k.nwl - 1 < 12 then .next (s.dropLink l.val 6 2)
  else .next ((s.updLink l.val fun k => { k with nwl := k.nwl - 1 }).toReplay l.val none (fun _ => true) 3)

/-! ### Receiving -/

/-- A flit is discarded by the slot rules and counted (11 R186, R188). -/
def State.mismatch (s : State) (l : Nat) : State := s.updLink l fun k => { k with mismatch := min (k.mismatch + 1) 65535 }

/-- The slot rules discard a flit of a peer (11 R186, R188). -/
def Link.discards (k : Link) (t peer : Nat) : Bool :=
  k.en && (k.wrongId || (decide (t < k.sltbase.toNat) && peer != k.peer))

/-- Whose sequence space a received flit belongs to (11 R186). -/
def Link.sender (k : Link) (peer : Nat) : Nat := if k.en then peer else k.peer

/-- Acknowledged flits leave the replay buffer: those up to ACK in sending order (11 R183). -/
def ackTo (p a : Nat) (l : List (Flit × Nat × Nat)) : List (Flit × Nat × Nat) :=
  let mine := l.filter fun e => e.1.peer == p
  if mine.any (fun e => e.1.seq == a) then
    let gone := (mine.takeWhile fun e => e.1.seq != a).map (·.1.seq) ++ [a]
    l.filter fun e => !(e.1.peer == p && gone.contains e.1.seq)
  else l

/-- The acknowledgement and the credits a flit carries are taken (11 R182 to R184), and what waited for the acknowledgement goes on. -/
def State.takeHeader (s : State) (l p : Nat) (f : FlitIn) : State :=
  let give := fun (x : PeerSt) => { x with credit := x.credit.modify f.cvc (fun n => min (n + f.cred) 128) }
  let s1 := s.updLink l fun k =>
    let r := if f.av then ackTo p f.ack k.replay else k.replay
    { (k.updPeer p give) with replay := r }
  (if f.av then s1.sendsAcked else s1).soon (.flitSend (fin48 l))

/-- One NAK for the next expected SEQ, and no further one until it arrives (11 R183). -/
def State.sendNak (s : State) (l p : Nat) : State :=
  let x := (s.link l).peerSt p
  if x.naked then s
  else
    let f : Flit := ⟨0, 4, x.rxSeq, p, 0xFFFF, 0, [], 0, .nothing⟩
    (s.updLink l fun k => { (k.updPeer p fun x => { x with naked := true }) with queue := f :: k.queue }).soon (.flitSend (fin48 l))

/-- A flit that fails FEC, CRC-32C or its checks is discarded and one NAK sent (11 R182, R183); behind a wrong SLOTID it is counted like
any other (R186). -/
def State.badFlit (s : State) (l : Nat) : State :=
  let k := s.link l
  if !s.linkUsable l then s
  else if k.en && k.wrongId then s.mismatch l
  else s.sendNak l ((k.window s.ftick).map (·.peer) |>.getD k.peer)

/-- A flit of a kind arrives (11 R182, R186, R188): read, discarded by the slot rules and counted, or taken with the acknowledgement and
credits it carries. A flit of another kind is another event. -/
def State.receive (s : State) (l kind : Nat) (flit : List Byte) : State × Option FlitIn :=
  let k := s.link l
  if !s.linkUsable l then (s, none)
  else match readFlit flit with
    | none => (s.badFlit l, none)
    | some f =>
      if f.kind ≠ kind then (s, none)
      else if k.discards s.ftick f.peer then (s.mismatch l, none)
      else (s.takeHeader l (k.sender f.peer) f, some f)

/-- A flit with a SEQ is accepted in order, or discarded with one NAK; its bytes join its message (11 R183, R184). Answers the message and
its sender when `last` completes it. -/
def State.acceptFlit (s : State) (l : Nat) (f : FlitIn) (last : Bool) : State × Option (Nat × List Byte) :=
  let k := s.link l
  let p := k.sender f.peer
  if f.seq ≠ (k.peerSt p).rxSeq then (s.sendNak l p, none)
  else
    let got := fun (x : PeerSt) => { x with rxSeq := (x.rxSeq + 1) % 8192, seen := true, naked := false, owed := x.owed.modify f.vc (· + 1) }
    let key := p * 8 + f.vc
    let s2 := s.updLink l fun k => k.updPeer p got
    if f.vc = 7 then (s2.mismatch l, none)
    else
      let bs := Tbl.getD k.assembly key [] ++ f.bytes
      if last then (s2.updLink l fun k => { k with assembly := Tbl.erase k.assembly key }, some (p, bs))
      else (s2.updLink l fun k => { k with assembly := Tbl.set k.assembly key bs }, none)

/-- PAYLOAD (11 R183). -/
def execPayload (l : Fin 48) (flit : List Byte) (s : State) : Out :=
  let r := s.receive l.val 1 flit
  .next (match r.2 with
    | some f => (r.1.acceptFlit l.val f false).1
    | none => r.1)

/-! ### Messages received -/

/-- What a message says takes effect at its agent (11 Table 11.4). -/
def State.handMessage (s : State) (l : Nat) (m : Inbound) : State :=
  let gid := BitVec.ofNat 16 m.gid
  match m.telling with
  | .nothing => s
  | .write g e acq needs sptag ctx va bar msg => s.peerWrite m.peer (ownerOf l) ⟨g, e, acq⟩ needs sptag ctx va bar msg m.bytes
  | .held g e acq needs tid seq place msg => s.peerHeld m.peer (ownerOf l) ⟨g, e, acq⟩ needs tid seq place msg m.bytes
  | .close g e path => (List.range 18).foldl (fun (s : State) h =>
      s.after (41 + legs (8 + ownerOf l) h) (.closeMarker (fin18 h) (fin18 g) ⟨e, m.peer + 1, path⟩)) s
  | .join key rank seq axis src dst => s.joinArrives ⟨key, rank, seq, axis, src, dst⟩
  | .step key rank seq axis step => s.stepArrives ⟨key, rank, seq, axis, step, m.bytes⟩
  | .ask sptag va len ctx route row => s.rowAsked m.peer sptag va len ctx route row
  | .row ctx route row ok => s.rowArrives ctx route row ok m.bytes
  | .landing rank sender chan slot shape tag => match s.named true gid with
    | none => s.countStale
    | some g => match ((s.grp g).run).bind fun r => r.members[rank]? with
      | none => s
      | some c => s.after (48 + ceilDiv m.bytes.length 256) (.channelLanding gid (fin64 c) (64 * (m.peer + 1) + sender) (fin64 chan) slot shape tag m.bytes)
  | .credit core chan => s.after 40 (.channelCredit true gid (fin64 core) (fin64 chan))
  | .arrival b phase _ => s.packageArrives gid b phase
  | .late => s.lateArrives gid
  | .drain path back =>
    if back then (match s.ofGid gid with
      | some g => s.markBack g path
      | none => s)
    else if s.linkUsable l then s.queueOn 16 l m.vc m.peer m.gid [] (.drain path true) else s
  | .applied msg fva => (s.routeApplied msg fva).convApplied msg fva

/-- Messages that have reached their agents take effect in the order they came, each VC of each peer on its own (11 R183); one for a group
that can hold no more waits, and what is behind it (08 R147). -/
def State.handInbox (s : State) (l : Nat) : State :=
  let blocked := fun (s : State) (m : Inbound) => decide (s.now < m.due) || s.inboxFull m
  (s.link l).inbox.foldl (fun (a : State × List (Nat × Nat)) m =>
    if a.2.contains (m.peer, m.vc) || blocked a.1 m then (a.1, (m.peer, m.vc) :: a.2)
    else ((a.1.updLink l fun k => { k with inbox := k.inbox.erase m }).handMessage l m, a.2)) (s, []) |>.1

/-- The ring hops from a link to a message's agent (01 R14). -/
def State.hopsTo (s : State) (l : Nat) (telling : PeerMsg) (gid : Nat) : List Nat := match telling with
  | .landing rank _ _ _ _ _ => match (s.named true (BitVec.ofNat 16 gid)).bind fun g => ((s.grp g).run).bind fun r => r.members[rank]? with
    | some c => hopsOn (ownerOf l) (c / 8)
    | none => []
  | .credit core _ => hopsOn (ownerOf l) (core % 64 / 8)
  | _ => []

/-- Messages that are not dropped for want of a running group when they come: markers, LATE, and arrivals, which count themselves. -/
def outlivesGroup : PeerMsg → Bool
  | .drain _ _ => true
  | .late => true
  | .arrival _ _ _ => true
  | _ => false

/-- LAST completes a message, which goes over the eave ring to its agent (11 R183, R190; 01 R14) with what it says beside its bytes
(log 8). One for a group that cannot take it is dropped and counted (08 R147). -/
def execLast (l : Fin 48) (flit : LastFlit) (s : State) : Out :=
  let r := s.receive l.val 2 flit.image
  .next (match r.2 with
    | none => r.1
    | some f =>
      let a := r.1.acceptFlit l.val f true
      match a.2 with
      | none => a.1
      | some (p, bs) =>
        let m : Inbound := ⟨s.now + 18 * (s.hopsTo l.val flit.telling f.gid).length, p, f.vc, f.gid, flit.telling, bs⟩
        let stale := f.gid != 0xFFFF && !outlivesGroup flit.telling && (match a.1.fate true (BitVec.ofNat 16 f.gid) with
          | .stale => true
          | _ => false)
        if stale then a.1.countStale
        else
          let s1 := a.1.updLink l.val fun k => { k with inbox := k.inbox ++ [m] }
          if m.due = s.now then s1.handInbox l.val else s1.sched m.due (.flitSend l))

/-- FLIT_SEND (11 R184, R186, R188): what has come over the ring joins the queue, what the link received goes to its agents, and the next flit
goes out. -/
def execFlitSend (l : Fin 48) (s : State) : Out :=
  let s1 := (s.updLink l.val fun k => k.board s.now).handInbox l.val
  .next (if s1.linkUsable l.val then s1.sendNext l.val else s1)

/-- NAK received: replay from the named SEQ (11 R183, Table 11.1). -/
def execNak (l : Fin 48) (flit : List Byte) (s : State) : Out :=
  let r := s.receive l.val 4 flit
  let k := r.1.link l.val
  .next (match r.2 with
    | none => r.1
    | some f => if k.state = 2 ∨ k.state = 3 then r.1.toReplay l.val (some (k.sender f.peer, f.seq)) (fun _ => false) k.state else r.1)

/-- IDLE carries acknowledgements and credits (11 R182). -/
def execIdle (l : Fin 48) (flit : List Byte) (s : State) : Out := .next (s.receive l.val 0 flit).1

/-- CRC_FAILURE: a flit that FEC does not correct is discarded and one NAK sent (11 R182, R183). -/
def execCrcFailure (l : Fin 48) (s : State) : Out := .next (s.badFlit l.val)

/-- SLOTID: flits up to the slot's close are discarded when it names another peer (11 R186). -/
def execSlotid (l : Fin 48) (flit : List Byte) (s : State) : Out :=
  let k := s.link l.val
  match readFlit flit, k.slot with
  | some f, some q =>
    if f.kind ≠ 5 ∨ k.en = false ∨ s.linkUsable l.val = false then .next s
    else
      let wrong := sePeer (k.entry q.1) != f.peer
      let s1 := s.updLink l.val fun k => { k with wrongId := wrong }
      .next (if wrong then s1 else s1.takeHeader l.val f.peer f)
  | none, _ => .next (s.badFlit l.val)
  | _, none => .next s

/-! ### The fabric tick -/

/-- TICK_SEND: a TICK flit, 64 in a ms (11 R189). In TRAIN it goes out at once. -/
def execTickSend (l : Fin 48) (s : State) : Out :=
  let k := s.link l.val
  let due := s.agenda.any fun e => e.2 == .tickSend l && decide (s.now < e.1)
  let f : Flit := ⟨6, 3, 0, (k.window s.ftick).map (·.peer) |>.getD k.peer, 0xFFFF, 8, natLE 8 s.ftick, 0, .nothing⟩
  if due then .next s
  else if k.state = 1 then .next ((s.updLink l.val fun k => { k with wire := f.image none 0 0 s.regs.pkrank }).after 23438 (.tickSend l))
  else if !s.linkUsable l.val then .next s
  else .next (((s.updLink l.val fun k => { k with queue := k.queue ++ [f] }).soon (.flitSend l)).after 23438 (.tickSend l))

/-- A link's TICK has arrived with the sender's tick `t`, delay added (11 R189): in TRAIN one step forward, or a hold; afterwards a correction
of one tick at a time, and TLOCK within ±2 ns. -/
def State.followTick (s : State) (l t : Nat) : State :=
  let k := s.link l
  let err : Int := t - s.ftick
  if s.upstream ≠ some l then s
  else if k.state = 1 then
    (if k.back ≠ 0 then s
     else
      let s1 := s.updLink l fun k => { k with back := 1 }
      if s.ftick ≤ t then { s1 with ftick := t % 2 ^ 64 } else { s1 with thold := s.ftick - t })
  else if s.linkUsable l then
    (let s1 := { s with tadj := err }
     if -2 ≤ err ∧ err ≤ 2 then s1.updLink l fun k => { k with tlock := true } else s1)
  else s

/-- TICK_FLIT with the round trip measured on the link, in ns: the one-way delay is half of it (11 R189). The flit frees its place on VC6. -/
def execTickFlit (l : Fin 48) (flit : List Byte) (roundTrip : Nat) (s : State) : Out :=
  if (s.link l.val).state = 1 then
    match readFlit flit with
    | some f => .next (if f.kind = 3 then s.followTick l.val (numAt f.bytes 0 8 + roundTrip / 2) else s)
    | none => .next s
  else
    let r := s.receive l.val 3 flit
    .next (match r.2 with
      | none => r.1
      | some f =>
        let back := fun (x : PeerSt) => { x with owed := x.owed.modify f.vc (· + 1) }
        (r.1.updLink l.val fun k => k.updPeer (k.sender f.peer) back).followTick l.val (numAt f.bytes 0 8 + roundTrip / 2))

end Sys2Proof.Machine
end

