-- ==== Sys2Proof/Machine/Boot.lean ====
section
/-! DEFINITION. Power, cold start, boot, attestation and reset (30 R430 to R433; 31 R435, R438). -/

namespace Sys2Proof.Machine
open Sys2Proof.Bits

/-! ### Power -/

/-- The package without its volatile contents. Host memory is the host's; the rollback counter is fused; modules stay in their
connectors; the clock counts on (30 R430, R433). -/
def State.cold (s : State) (on : Bool) : State :=
  { State.reset with
    now := s.now, inputs := s.inputs, nextId := s.nextId, freeCtr := s.freeCtr, powered := on, lasers := s.lasers,
    mem := s.mem.filter fun e => decide (hostBase ≤ e.1),
    regs := { Regs.reset with bootCtr := s.regs.bootCtr, reads := s.regs.reads, spdmOut := s.regs.spdmOut } }

/-- The next measurement is due INT s from now; with INT 0 there is none (29 R423). -/
def State.nextMeasure (s : State) : State :=
  let other := s.agenda.filter fun e => match e.2 with
    | .measurement _ _ => false
    | _ => true
  let int := get s.regs.agecfg 15 0
  let s1 := { s with agenda := other }
  if int = 0 then s1 else s1.after (int * 1500000000) (.measurement [] [])

/-- The package is powered off (31 R435, R438). -/
def State.powerOff (s : State) : State := s.cold false

/-- POWER_LOSS: input below 44 V for 100 µs or longer (31 R435). -/
def execPowerLoss (millivolts micros : Nat) (s : State) : Out :=
  .next (if millivolts < 44000 ∧ 100 ≤ micros then s.powerOff else s)

/-- OVERTEMPERATURE: a die reaches 110 °C (31 R438). -/
def execOvertemperature (die temp : Nat) (s : State) : Out :=
  .next (if die < 21 ∧ 110 ≤ temp then s.powerOff else s)

/-- COLD_START: power-good, or a CXL conventional reset; STATE is WAITFW (30 R430 step 1). -/
def execColdStart (s : State) : Out := .next (s.cold true)

/-! ### Boot -/

/-- STATE FAILED with its CAUSE; the buffer is erased (30 R430 step 5). -/
def State.bootFail (s : State) (cause : Nat) : State :=
  s.updRegs fun r => { r with bootState := 4, bootCause := cause, buffer := [], image := [] }

/-- A write of 1 to `RSTCTL`.CMD: taken in WAITFW or FAILED (30 Table 30.5, R431). -/
def State.bootCmd (s : State) : State :=
  if s.powered ∧ (s.regs.bootState = 0 ∨ s.regs.bootState = 4) then
    (s.updRegs fun r => { r with bootState := 1, bootCause := 0 }).after 1 .imageVerified
  else s

/-- BOOT (30 R430 step 2, R444). -/
def execBoot (s : State) : Out := .next (s.port 0x8 1 State.bootCmd)

/-- Bytes of the header, of the signature, of the load buffer (30 R431, Table 30.2). -/
def hdrBytes : Nat := 64
def sigBytes : Nat := 29792
def bufBytes : Nat := 2 ^ 24

/-- Body length and SVN of an image. -/
def imgLen (h : List Word) : Nat := (wnth h 1).toNat
def imgSvn (h : List Word) : Nat := get (wnth h 2) 15 0
def imgBump (h : List Word) : Bool := bit (wnth h 2) 16

/-- The header is well formed (30 R431). -/
def hdrOk (h : List Word) : Bool :=
  wnth h 0 == 0x465839 && decide (imgLen h ≤ bufBytes - hdrBytes - sigBytes) && get (wnth h 2) 63 17 == 0 &&
  (List.range 5).all fun i => wnth h (3 + i) == 0

/-- The words of a header. -/
def hdrOf (bs : List Byte) : List Word := (List.range 8).map (wordAt bs)

/-- IMAGE_VERIFIED: the checks of R431 in order; the running image is its header and body (30 R430 step 3, R431). -/
def execImageVerified (s : State) : Out :=
  if s.regs.bootState ≠ 1 then .next s
  else
    let hb := s.regs.buffer.read 0 hdrBytes
    let h := hdrOf hb
    if hdrOk h = false then .next (s.bootFail 1)
    else
      let body := s.regs.buffer.read (hdrBytes + sigBytes) (imgLen h)
      if Config.imageOk (hb ++ s.regs.buffer.read hdrBytes sigBytes ++ body) = false then .next (s.bootFail 2)
      else if imgSvn h < s.regs.bootCtr then .next (s.bootFail 3)
      else .next (s.updRegs fun r => { r with bootState := 2, image := hb ++ body })

/-! ### Reset -/

/-- What writes under way are made of: lines in the buffers, writes in flight, markers; they stand through a reset (08 R145). -/
def keptEvent (e : Nat × Instr) : Bool := match e.2 with
  | .closeMarker _ _ _ | .writeApply _ _ | .applyAcknowledgement _ _ | .wcbAgeDrain _ _ => true
  | .agewaitExpiry _ | .replanPause _ | .pauseEnd _ => true
  | _ => false

/-- A die with nothing but its buffer and its SC order. -/
def Die.bare (d : Die) : Die := { d with tlb := [], walks := [], mons := [] }

/-- Every register at its reset value but those R433 keeps; cores, contexts, queues, groups and links as after reset; storage,
fences, writes already made and the agents' epochs stay (30 R433); what waits for its turn at a home asks anew. -/
def State.clear (s : State) : State :=
  let keep := { Regs.reset with
    bootState := s.regs.bootState, bootCause := s.regs.bootCause, bootCtr := s.regs.bootCtr, buffer := s.regs.buffer, image := s.regs.image,
    lost := s.regs.lost, ce := s.regs.ce, errTail := s.regs.errTail, errHead := s.regs.errHead, errlog := s.regs.errlog,
    rettab := s.regs.rettab, agest := s.regs.agest, ageWait := s.regs.ageWait, errIrqs := s.regs.errIrqs, spdmOut := s.regs.spdmOut,
    reads := s.regs.reads }
  let ridge := { Ridge.reset with
    sc := s.ridge.sc, l2 := s.ridge.l2, arrFenced := s.ridge.arrFenced, eaveFenced := s.ridge.eaveFenced,
    pcFenced := s.ridge.pcFenced, hopFenced := s.ridge.hopFenced, pcErrs := s.ridge.pcErrs, resid := s.ridge.resid }
  let stopped := (s.grps.map (·.1)).foldl (fun (s : State) g => s.stopGroup g 3 0) s
  let writes := (stopped.ridge.asks.map (·.ev)).filter fun i => keptEvent (0, i)
  { stopped with
    phase := .idle, agenda := writes.foldl (fun l i => insertDue s.now i l) (stopped.agenda.filter keptEvent), cores := [], ctxs := [], queues := [], classPtr := [0, 0, 0, 0],
    classOn := [false, false, false, false],
    nextStart := 0, keep := none, grps := [], ridge := ridge, links := [], regs := keep,
    dies := stopped.dies.map fun e => (e.1, e.2.bare), agents := stopped.agents.map fun e => (e.1, { e.2 with loads := [] }) }

/-- A warm reset is taken only while STATE is READY (30 Table 30.5, R433). -/
def State.warm (s : State) : State := if s.powered ∧ s.regs.bootState = 3 then s.clear.nextMeasure else s

/-- WARM_RESET (30 R433, R444). -/
def execWarmReset (s : State) : Out := .next (s.port 0x8 2 State.warm)

/-- FUNCTION_LEVEL_RESET does the same (30 R433). -/
def execFunctionLevelReset (s : State) : Out := .next s.warm

/-- INIT_COMPLETE: HBM is trained or not; every register takes its reset value; READY, and BUMP advances the fused counter (30 R430
steps 4 and 5, R431). The first measurement is INT s away (29 R423). -/
def execInitComplete (hbmTrained : Bool) (s : State) : Out :=
  if s.regs.bootState ≠ 2 then .next s
  else if !hbmTrained then .next (s.bootFail 4)
  else
    let h := hdrOf (s.regs.image.take hdrBytes)
    let ctr := if imgBump h && decide (s.regs.bootCtr < imgSvn h) then imgSvn h else s.regs.bootCtr
    let s1 := s.cold s.powered
    .next (s1.updRegs fun r => { r with bootState := 3, bootCtr := ctr, image := s.regs.image }).nextMeasure

/-! ### Attestation -/

/-- SPDM_REQUEST at any STATE after WAITFW; block 2 is the running image once READY, zeros before (30 R432, Table 30.6). -/
def execSpdmRequest (req : List Byte) (s : State) : Out :=
  if s.powered = false ∨ s.regs.bootState = 0 then .next s
  else
    let ready := decide (s.regs.bootState = 3)
    let img := if ready then some s.regs.image else none
    let svn := if ready then imgSvn (hdrOf (s.regs.image.take hdrBytes)) else 0
    .next (s.updRegs fun r => { r with spdm := true, spdmOut := Config.spdmReply req img r.bootCtr svn :: r.spdmOut })

end Sys2Proof.Machine
end

