-- ==== Sys2Proof/Machine/Errors.lean ====
section
/-! DEFINITION. Containment of errors, the error log, ageing and telemetry (29). -/

namespace Sys2Proof.Machine
open Sys2Proof.Bits

/-! ### The error log -/

/-- KIND, UNIT and GID of a record (29 Table 29.2). -/
def recordKey (w : List Word) : Nat × Nat × Nat := (get (wnth w 0) 63 56, get (wnth w 0) 31 16, get (wnth w 0) 47 32)

/-- A record among those found in its cycle: ascending KIND, then UNIT, then group id (29 R419, R421). -/
def insertRecord (x : List Word) : List (List Word) → List (List Word)
  | [] => [x]
  | y :: l =>
    let a := recordKey x
    let b := recordKey y
    if a.1 < b.1 ∨ (a.1 = b.1 ∧ (a.2.1 < b.2.1 ∨ (a.2.1 = b.2.1 ∧ a.2.2 < b.2.2))) then x :: y :: l else y :: insertRecord x l

/-- A record of `ERRLOG` (29 Table 29.2): the records found in one cycle stand in their order, as far as fewer than 64 stand unread; LOST counts
the others (29 R421). -/
def State.errRecord (s : State) (kind action gid unit pa : Nat) : State :=
  let r := s.regs
  let old := if r.errFrom.1 = s.now then r.errBatch else []
  let from_ := if r.errFrom.1 = s.now then r.errFrom.2 else (r.errTail, r.lost)
  let w0 := BitVec.ofNat 64 (kind % 256 * 2 ^ 56 + action % 256 * 2 ^ 48 + gid % 65536 * 2 ^ 32 + unit % 65536 * 2 ^ 16)
  let batch := insertRecord [w0, BitVec.ofNat 64 pa, BitVec.ofNat 64 s.ftick] old
  let room := 64 - (from_.1 % 65536 + 65536 - r.errHead) % 65536
  let written := batch.take room
  s.updRegs fun r => { r with
    errlog := written.zipIdx.foldl (fun t x => Tbl.set t ((from_.1 + x.2) % 64) (x.1 ++ [BitVec.ofNat 64 (from_.1 + x.2)])) r.errlog
    errTail := from_.1 + written.length, lost := min (from_.2 + (batch.length - room)) 65535
    errFrom := (s.now, from_), errBatch := batch, errIrqs := r.errIrqs + (if old.length < room then 1 else 0) }

/-- CORRECTABLE_ERROR: CE + 1 (29 Table 29.1). -/
def execCorrectableError (s : State) : Out := .next (s.updRegs fun r => { r with ce := min (r.ce + 1) 65535 })

/-! ### Fences -/

/-- A group takes a contained error: it stops without save with CAUSE 6 (29 R419). Answers its id, 0 when there is none to stop. -/
def State.contain (s : State) (c : Nat) : State × Nat := match s.grpOf c with
  | some g => if (s.grp g).state = 2 ∨ (s.grp g).state = 3 then (s.stopGroup g 6 0, (s.gid16 g).toNat) else (s, 0)
  | none => (s, 0)

/-- A core is fenced; its course stops (29 Table 29.1). -/
def State.fenceCore (s : State) (c : Nat) : State × Nat :=
  if s.fenced.contains c then (s, 0) else ({ s with fenced := insertNat c s.fenced }.soon .frontEndStart).contain c

/-- CORE_LOGIC_CHECK (29 Table 29.1). -/
def execCoreLogicCheck (core : Fin 64) (s : State) : Out :=
  let r := s.fenceCore core.val
  .next (r.1.errRecord 4 (if s.fenced.contains core.val then 0 else 2) r.2 core.val 0)

/-- Pieces are cancelled and placed again at once, with no fault-queue entry (03 R74). -/
def State.rehome (s : State) (ps : List Piece) : State :=
  let out := fun (l : List Nat) => l.filter fun id => !ps.any fun p => p.id == id
  let s1 := s.updRidge fun r => { r with central := r.central.map out, eaves := r.eaves.map out }
  let ops := ps.foldl (fun (l : List (Nat × Nat)) p => if l.contains (p.core, p.op) then l else l ++ [(p.core, p.op)]) []
  ops.foldl (fun (s : State) e =>
    let mine := ps.filter fun p => p.core == e.1 && p.op == e.2
    match ((s.core e.1).op e.2).bind fun o => o.plKind.map fun k => (o, k) with
    | some (o, k) => s.placeCells e.1 o k mine
    | none => mine.foldl (fun (s : State) p => s.updRidge fun r => { r with pieces := Tbl.erase r.pieces p.id }) s) s1

/-- A piece waits for, or runs at, a place. -/
def Piece.at_ (p : Piece) (now place : Nat) : Bool :=
  p.place == place && (p.st == 0 || p.st == 1 || (p.st == 2 && decide (now < p.out)))

/-- EAVE_LOGIC_CHECK: EAVE(s) leaves the candidates, its pieces are placed again (29 Table 29.1; 03 R61, R74). -/
def execEaveLogicCheck (u : Fin 8) (s : State) : Out :=
  let n := u.val
  if s.ridge.eaveFenced.contains n then .next (s.errRecord 7 0 0 n 0)
  else
    let s1 := s.updRidge fun r => { r with eaveFenced := insertNat n r.eaveFenced, eaveRun := r.eaveRun.set n none }
    let ps := (s1.ridge.pieces.filter fun e => e.2.at_ s.now (n + 2)).map (·.2)
    .next ((s1.rehome ps).errRecord 7 5 0 n 0)

/-- A piece that ran at a fenced array while others are left stays at CENTRAL: it waits again at the head of its die's queue (03
R74). -/
def State.requeue (s : State) (p : Piece) : State :=
  let q := { p with id := s.nextId, st := 1, run := 0, out := 0 }
  s.bump.updRidge fun r => { r with
    pieces := Tbl.set (Tbl.erase r.pieces p.id) q.id q, central := r.central.modify (p.core / 8) fun l => q.id :: l }

/-- ARRAY_LOGIC_CHECK (29 Table 29.1; 03 R74): with the last array CENTRAL leaves the candidates. -/
def execArrayLogicCheck (a : Fin 4) (s : State) : Out :=
  let n := a.val
  if s.ridge.arrFenced.contains n then .next (s.errRecord 8 0 0 n 0)
  else
    let on := (s.ridge.arrays.getD n none).bind fun id => Tbl.get s.ridge.pieces id
    let s1 := s.updRidge fun r => { r with arrFenced := insertNat n r.arrFenced, arrays := r.arrays.set n none }
    let s2 := if 4 ≤ s1.ridge.arrFenced.length then s1.rehome ((s1.ridge.pieces.filter fun e => e.2.at_ s.now 1).map (·.2))
      else match on with
        | some p => if p.at_ s.now 1 ∧ p.st = 2 then (s1.requeue p).soon (.pieceStart (fin10 1)) else s1
        | none => s1
    .next (s2.errRecord 8 6 0 n 0)

/-- LINK_ERROR beyond replay: FENCED with LOSS 5 (29 Table 29.1; 11 R178). -/
def execLinkError (l : Fin 48) (s : State) : Out :=
  let live := decide (1 ≤ (s.link l.val).state ∧ (s.link l.val).state ≤ 4)
  .next ((s.linkFence l.val 5).errRecord 5 (if live then 3 else 0) 0 l.val 0)

/-! ### Uncorrectable errors -/

/-- The pseudo-channel of a key is fenced, with a record (29 R418, R420). -/
def State.fencePch (s : State) (key pa : Nat) : State :=
  let n := pchOf key
  if s.ridge.pcFenced.contains n then s
  else (s.updRidge fun r => { r with pcFenced := insertNat n r.pcFenced }).errRecord 9 4 0 n pa

/-- The frame that holds a line of HBM is retired; with `RETTAB` full its pseudo-channel is fenced instead; so it is at the fourth
error within 1 s (29 R418, R420). -/
def State.retire (s : State) (key pa : Nat) : State :=
  if hbmTop ≤ key then s
  else
    let n := pchOf key
    let s1 := s.updRidge fun r => { r with pcErrs := (n, s.now) :: r.pcErrs.filter fun e => decide (s.now < e.2 + 1500000000) }
    let full := decide (1024 ≤ s1.regs.rettab.length)
    let s2 := if s1.regs.rettab.contains (key / 65536) || full then s1
      else s1.updRegs fun r => { r with rettab := r.rettab ++ [key / 65536] }
    let many := decide (4 ≤ (s2.ridge.pcErrs.filter fun e => e.1 == n).length)
    if (full && !s1.regs.rettab.contains (key / 65536)) || many then s2.fencePch key pa else s2

/-- ACTION of a record about a line when nothing else is fenced: 8 where its frame is retired now, else 0 (29 Table 29.2, R418). -/
def State.frameAction (s : State) (key : Nat) : Nat :=
  if key < hbmTop ∧ s.regs.rettab.contains (key / 65536) = false ∧ s.regs.rettab.length < 1024 then 8 else 0

/-- Unit of a record about a line: stack × 32 + pseudo-channel. -/
def unitOf (key : Nat) : Nat := if hbmTop ≤ key then 0 else pchOf key

/-- UNCORRECTABLE_ERROR in the line at a physical address (29 Table 29.1, R418 to R421). `kind` tells what consumes it: 0 nothing; 1 core
`consumer` or a piece of its work; 2 the chain of transfer channel `consumer`; 3 collective step `consumer`; 4 the conversion of entry
consumer mod 1,024 of context consumer div 1,024; 5 the operation of route consumer mod 64 of context consumer div 64 (a VRCFG's
route is FREE, 12 R192; a VRRTE leaves its route as a fault does, R203); 6 the save area of context `consumer`; one found while it is
DESTROYING leaves it there (05 R116); 7 the front end, at the ring of queue `consumer` (06 R119). -/
def execUncorrectableError (pa consumer kind : Nat) (s : State) : Out :=
  match resolvePA pa with
  | none => .next s
  | some (key, _) =>
    let line := pa / 128 * 128
    let u := unitOf key
    match kind with
    | 1 =>
      let r := s.contain (consumer % 64)
      .next ((r.1.errRecord 2 (if r.2 = 0 then s.frameAction key else 1) r.2 u line).retire key line)
    | 2 =>
      let s1 := if (s.xch (consumer % 64)).chains.isEmpty then s else s.faultChain (consumer % 64) 0
      .next ((s1.errRecord 2 (s.frameAction key) 0 u line).retire key line)
    | 3 =>
      let s1 := match s.ridge.colls.find? fun k => k.id == consumer with
        | some k => s.endColl k 1 0
        | none => s
      .next ((s1.errRecord 2 (s.frameAction key) 0 u line).retire key line)
    | 4 => .next (((s.convEnd (consumer / 1024 % 64) (consumer % 1024) 1 0).errRecord 2 (s.frameAction key) 0 u line).retire key line)
    | 5 =>
      let x := consumer / 64 % 64
      let n := consumer % 64
      let s1 := if (s.route x n).run then
          (s.updRoute x n fun k => match (k.queue.head?.map (·.op)).getD 0 with
            | 5 => { (k.cleared true) with res := (0, 0, 0) }
            | 6 => { (k.cleared false) with res := (1, k.res.2.1, 0) }
            | _ => { k with res := (1, k.res.2.1, 0) }).soon (.routeOperationComplete (fin64 x) (fin64 n) [])
        else s
      .next ((s1.errRecord 2 (s.frameAction key) 0 u line).retire key line)
    | 6 =>
      let x := consumer % 64
      let k := s.ctx x
      let live := k.state == 2 || k.state == 3 || k.state == 4
      let s1 := if live then s.fenceCtx x 3 else s
      .next ((s1.retire key line).errRecord 10 (if live then 7 else 0) 0 u line)
    | 7 =>
      let q := consumer % 256
      let s1 := if (s.queue q).en && (s.queue q).state == 1 then s.queueError q 3 else s
      .next ((s1.errRecord 2 (s.frameAction key) 0 u line).retire key line)
    | _ => .next ((s.errRecord 3 (s.frameAction key) 0 u line).retire key line)

/-! ### Ageing -/

/-- Word of `AGEST` of a die, and its fields (29 Table 29.4). -/
def State.age (s : State) (i : Nat) : Word := Tbl.getD s.regs.agest i resetAge
def agPauses (w : Word) : Nat := get w 63 48
def agGuard (w : Word) : Nat := get w 39 32
def agMarg (w : Word) : Nat := get w 31 24
def agPlan (w : Word) : Nat := get w 1 0
/-- It changes. -/
def State.setAge (s : State) (i : Nat) (w : Word) : State := s.updRegs fun r => { r with agest := Tbl.set r.agest i w }

/-- AGEWAIT in cycles (29 Table 29.5). -/
def State.ageWaitCy (s : State) : Nat := max 1 (get s.regs.agecfg 23 16) * 1500000

/-- Cores of rafter `i` whose monitors show no margin: entry 21 + core of the measurement is 0. -/
def noMargin (margins : List Nat) (i : Nat) : List Nat :=
  if 8 ≤ i then [] else ((List.range 8).map fun j => 8 * i + j).filter fun c => margins.getD (21 + c) 1 == 0

/-- One die is measured (29 R422, R423): MARG and TEMP; below MINM it is DUE; no margin after a re-plan is recorded, with the first
group that it stops. -/
def State.measureDie (s : State) (margins temps : List Nat) (i : Nat) : State :=
  let w := s.age i
  let marg := min (margins.getD i (agMarg w)) 255
  let w1 := put (put w 31 24 marg) 23 16 (min (temps.getD i (get w 23 16)) 255)
  let due := decide (marg < get s.regs.agecfg 31 24) && agPlan w == 0
  let s1 := s.setAge i (if due then put w1 1 0 1 else w1)
  let s2 := if due then
      let s2 := (s1.updRegs fun r => { r with ageWait := Tbl.set r.ageWait i (s.now + s.ageWaitCy) }).soon (.replanPause (fin21 i))
      if i < 8 then s2.after s.ageWaitCy (.agewaitExpiry (fin21 i)) else s2
    else s1
  if marg = 0 ∧ agPauses w ≠ 0 then
    let cs := if bit s.regs.agecfg 32 then (noMargin margins i).filter fun c => !s.fenced.contains c else []
    let r := cs.foldl (fun (a : State × Nat) c => let r := a.1.fenceCore c; (r.1, if a.2 = 0 then r.2 else a.2)) (s2, 0)
    r.1.errRecord 6 (if cs.isEmpty then 0 else 2) r.2 i 0
  else s2

/-- Every die is measured; one at 110 °C powers the package off (29 R423; 31 R438). -/
def State.measure (s : State) (margins temps : List Nat) : State :=
  let s1 := (List.range 21).foldl (fun (s : State) i => s.measureDie margins temps i) s
  if (List.range 21).any fun i => decide (110 ≤ temps.getD i 0) then s1.powerOff else s1

/-- What the monitors and sensors show when nothing outside says it: free values (log 4). -/
def freeReadings (n k : Nat) : List Nat := (List.range k).map fun i => (Config.freeByte n i).toNat

/-- MEAS: every die is measured now (29 Table 29.5). -/
def State.measureNow (s : State) : State :=
  let s1 := { s with freeCtr := s.freeCtr + 2 }
  s1.measure (freeReadings s.freeCtr 85) (freeReadings (s.freeCtr + 1) 21)

/-- MEASUREMENT, every INT s, with what the monitors of dies 0 to 20, then of the cores, and the sensors show; with INT 0 only MEAS
measures (29 R422, R423). -/
def execMeasurement (margins temps : List Nat) (s : State) : Out :=
  if s.powered = false ∨ get s.regs.agecfg 15 0 = 0 then .next s
  else
    let s1 := if margins.isEmpty then s.measureNow else s.measure margins temps
    .next (if s1.powered then s1.nextMeasure else s1)

/-- MEAS (29 R423). -/
def execMeas (s : State) : Out := .next (if s.powered then s.measureNow else s)

/-- Groups that hold or wait for a core of a rafter die. -/
def State.groupsOn (s : State) (d : Nat) : List Nat := (s.grps.filter fun g => decide (1 ≤ g.2.state ∧ g.2.state ≤ 3) && (match g.2.run with
  | some r => r.members.any fun c => c / 8 == d
  | none => false)).map (·.1)

/-- AGEWAIT_EXPIRY: a rafter die still DUE drains: its groups are asked to pre-empt (29 R423; 05 R110). -/
def execAgewaitExpiry (die : Fin 21) (s : State) : Out :=
  let d := die.val
  if 8 ≤ d ∨ agPlan (s.age d) ≠ 1 ∨ s.now < Tbl.getD s.regs.ageWait d 0 then .next s
  else
    let s1 := s.setAge d (put (s.age d) 1 0 2)
    .next ((s.groupsOn d).foldl (fun (s : State) g => s.updRun g fun r => { r with preempt := true }) s1)

/-- A die may pause: a rafter when no group holds its cores, another while no context is ACTIVE (29 R423). -/
def State.mayPause (s : State) (d : Nat) : Bool :=
  if d < 8 then (List.range 8).all fun i => (s.core (8 * d + i)).group.isNone
  else s.ctxs.all fun e => e.2.state != 2

/-- REPLAN_PAUSE: GUARD := GUARD + 4 − MARG in 0..255, PAUSES + 1; the voltage settles in 2 ms (29 R422, log 1). Another die than a
rafter looks again after 1 µs. -/
def execReplanPause (die : Fin 21) (s : State) : Out :=
  let d := die.val
  let w := s.age d
  if agPlan w ≠ 1 ∧ agPlan w ≠ 2 then .next s
  else if s.mayPause d then
    let g := min 255 (agGuard w + 4 - agMarg w)
    .next ((s.setAge d (put (put (put w 63 48 (agPauses w + 1)) 39 32 g) 1 0 3)).after 3000000 (.pauseEnd die))
  else if d < 8 ∨ (s.agenda.any fun e => e.2 == .replanPause die) = true then .next s
  else .next (s.after 1500 (.replanPause die))

/-- PAUSE_END: the die is IDLE again; drained groups may come back (29 R422, R423; 05 R110). -/
def execPauseEnd (die : Fin 21) (s : State) : Out :=
  let w := s.age die.val
  .next (if agPlan w = 3 then (s.setAge die.val (put w 1 0 0)).soon .frontEndStart else s)

/-- PKGTEL_REFRESH (29 R425). -/
def execPkgtelRefresh (watts inlet outlet : Nat) (s : State) : Out :=
  .next (s.updRegs fun r => { r with pkgtel := BitVec.ofNat 64 (outlet % 256 * 2 ^ 24 + inlet % 256 * 2 ^ 16 + watts % 65536) })

end Sys2Proof.Machine
end

