-- ==== Sys2Proof/Machine/Command.lean ====
section
/-! DEFINITION. Context commands (05 R105 to R109, R116). -/

namespace Sys2Proof.Machine
open Sys2Proof.Bits

/-- A command ends with a STATUS (05 Table 5.1). -/
def State.cmdEnd (s : State) (status : Nat) : State := s.updRegs fun r => { r with cmdBusy := false, cmdStatus := status }

/-- The 64 bytes of a context descriptor (05 R108; 30 Table 30.2); none where nothing can be read. -/
def State.descriptor (s : State) (c : Nat) : Option (List Word) := match resolvePA (s.regs.ctxtab + 64 * c) with
  | some (key, _) => if (s.unitFault key).isSome then none else some ((List.range 8).map fun i => s.word (key + 8 * i))
  | none => none

/-- A descriptor is well formed (05 R108). -/
def descOk (d : List Word) : Bool :=
  get (wnth d 0) 63 48 == 0 && get (wnth d 0) 15 2 == 0 && bit (wnth d 0) 0 && get (wnth d 1) 63 48 == 0 && get (wnth d 1) 20 0 == 0 &&
  get (wnth d 2) 63 48 == 0 && get (wnth d 2) 11 4 == 0 && decide (4 ≤ get (wnth d 2) 3 0 ∧ get (wnth d 2) 3 0 ≤ 12) &&
  get (wnth d 3) 63 8 == 0 && (List.range 4).all fun i => wnth d (4 + i) == 0

/-- The save area lies in the HBM linear aperture (05 R109, R115). -/
def saveOk (d : List Word) : Bool := decide (get (wnth d 1) 47 21 * 2 ^ 21 + 64 * slotSize ≤ hbmTop)

/-- A created context (05 R106, R108): everything of an earlier one is gone. -/
def ctxOfDesc (d : List Word) : Ctx :=
  { Ctx.reset with
    state := 1, root := get (wnth d 0) 47 16 * 65536, priv := bit (wnth d 0) 1, save := get (wnth d 1) 47 21,
    fqbase := get (wnth d 2) 47 12, qlog := get (wnth d 2) 3 0, weight := get (wnth d 3) 7 0 }

/-- CREATE of a FREE context (05 Table 5.3). -/
def State.doCreate (s : State) (c : Nat) : State := match s.descriptor c with
  | none => s.cmdEnd 3
  | some d =>
    if descOk d = false then s.cmdEnd 3
    else if saveOk d = false then s.cmdEnd 4
    else (((s.dropXl c 0 .ctx).updCtx c fun _ => ctxOfDesc d).cmdEnd 0)

/-- Groups of a context that hold or wait for their cores are asked to pre-empt (05 R106, R110). -/
def State.askAll (s : State) (c : Nat) : State :=
  (s.grps.filter fun g => g.2.ctx == c && decide (g.2.state ≤ 3)).foldl (fun (s : State) g =>
    s.updRun g.1 fun r => { r with preempt := true }) s

/-- Expert slots lose the readers of a context; a slot being filled for it becomes EMPTY (05 R116 step 3). -/
def State.dropReaders (s : State) (c : Nat) : State :=
  let leave := fun (k : ESlot) => if k.ctx != c then k else if k.state == 1 then ESlot.reset else { k with readers := 0 }
  (s.updRidge fun r => { r with slots := r.slots.map fun e => (e.1, leave e.2) }).exRetry

/-- The cleanup of DESTROY up to its groups' quarantine (05 R116). -/
def State.doDestroy (s : State) (c : Nat) : State :=
  let s1 := s.updCtx c fun k => { k with state := 6, spnd := false }
  let late := fun (s : State) (g : Nat) => match (s.grp g).run with
    | some r => if r.npkg = 0 then s else s.sendLate r
    | none => s
  let s2 := (s1.groupsOf c).foldl late s1
  let s3 := (((s2.stopGroups c).cancelChains c).cancelConvs c).cancelColls c
  let s4 := (s3.dropReaders c).updCtx c fun k => { k with ptab := [], slabs := [], routes := [] }
  let s5 := s4.updRidge fun r => { r with claims := r.claims.filter fun e => e.2 != 128 + c }
  (s5.dropXl c 0 .ctx).destroyCheck c

/-- A command of `CTXCMD` to context `c` (05 R106, Table 5.3): 1 CREATE, 2 ACTIVATE, 3 SUSPEND, 4 RESUME, 5 FENCE, 6 DESTROY. A write
while BUSY is ignored; one to the context being destroyed sets STATUS 2 (R116 is of these steps alone, Table 5.1 of every command:
DEDUCED, log 19). -/
def State.command (s : State) (c cmd : Nat) : State :=
  if s.regs.cmdBusy then
    (if (s.ctx c).state = 6 ∧ 1 ≤ cmd ∧ cmd ≤ 6 then s.updRegs fun r => { r with cmdStatus := 2 } else s)
  else
    let s0 := s.updRegs fun r => { r with cmdCtx := c }
    let st := (s.ctx c).state
    let busy := fun (s : State) => s.updRegs fun r => { r with cmdBusy := true }
    match cmd with
    | 1 => if st = 0 then s0.doCreate c else s0.cmdEnd 2
    | 2 => if st = 1 then ((s0.updCtx c fun k => { k with state := 2 }).cmdEnd 0).soon .frontEndStart else s0.cmdEnd 2
    | 3 => if st = 2 ∨ st = 4 then (((busy s0).updCtx c fun k => { k with spnd := true }).askAll c).ctxSettle c else s0.cmdEnd 2
    | 4 =>
      if st = 3 then
        ((s0.updCtx c fun k => { k with state := if k.cause = 0 then 2 else 4 }).cmdEnd 0).soon .frontEndStart
      else if st = 4 then ((s0.updCtx c fun k => { k with state := 2, cause := 0 }).cmdEnd 0).soon .frontEndStart
      else s0.cmdEnd 2
    | 5 => if st = 2 ∨ st = 3 ∨ st = 4 then (s0.fenceCtx c 5).cmdEnd 0 else s0.cmdEnd 2
    | 6 => if st = 0 ∨ st = 6 then s0.cmdEnd 2 else (busy s0).doDestroy c
    | _ => s0

/-- A write of `CTXCMD` at the port (05 Table 5.1; 30 R444). -/
def State.ctxCommand (s : State) (c cmd : Nat) : State := s.port 0x18 (BitVec.ofNat 64 (cmd * 256 + c)) fun s => s.command c cmd

/-- CREATE (05 R106, R108). -/
def execCreate (c : Fin 64) (s : State) : Out := .next (s.ctxCommand c.val 1)
/-- ACTIVATE (05 R106). -/
def execActivate (c : Fin 64) (s : State) : Out := .next (s.ctxCommand c.val 2)
/-- SUSPEND (05 R106, R110). -/
def execSuspend (c : Fin 64) (s : State) : Out := .next (s.ctxCommand c.val 3)
/-- CTX_RESUME (05 R106, R113). -/
def execCtxResume (c : Fin 64) (s : State) : Out := .next (s.ctxCommand c.val 4)
/-- CTX_FENCE (05 R106). -/
def execCtxFence (c : Fin 64) (s : State) : Out := .next (s.ctxCommand c.val 5)
/-- DESTROY (05 R116). -/
def execDestroy (c : Fin 64) (s : State) : Out := .next (s.ctxCommand c.val 6)

/-- DESTROY_COMPLETE: the context is FREE and BUSY clears (05 R116, Table 5.3). -/
def execDestroyComplete (c : Fin 64) (s : State) : Out :=
  .next (if s.destroyed c.val then
    (let s1 := s.updCtx c.val fun _ => Ctx.reset
     if s.regs.cmdCtx = c.val then s1.cmdEnd 0 else s1)
  else s)

end Sys2Proof.Machine
end

