-- ==== Sys2Proof/Machine/Control.lean ====
section
/-! DEFINITION. The instructions of slot c, and BRX of slot a (16; 04 R87; 06 R125; 07 R132, R133; 09 R154 to R157). -/

namespace Sys2Proof.Machine
open Sys2Proof.Bits

/-- A branch-class instruction whose predicate holds: what it asks of the sequencer; in a delay bundle it is a no-op that
logs DSLOT (14 R235). -/
def State.branch (s : State) (c slot : Nat) (act : BrAct) : State :=
  if (((s.core c).skid.head?).map (·.delay)).getD false then s.logNow c slot codeDSLOT
  else s.updCore c fun k =>
    { k with bctx := if slot = 2 then { k.bctx with brx := act } else { k.bctx with br := act } }

/-- PC of the bundle at the head. -/
def State.pcOf (s : State) (c : Nat) : Nat := (((s.core c).skid.head?).map (·.pc)).getD 0

/-- NOP (14 R223). -/
def execNop (_h : Hdr) (s : State) : Out := .next s

/-- BR (16 R260, R261). -/
def execBr (h : Hdr) (disp : BitVec 21) (s : State) : Out :=
  slotDo h (.br h disp) s fun c s => s.branch c h.slot.val (.rel disp.toInt)

/-- BRX (17 R302). -/
def execBrx (h : Hdr) (disp : BitVec 21) (s : State) : Out :=
  slotDo h (.brx h disp) s fun c s => s.branch c h.slot.val (.rel disp.toInt)

/-- CALL: x63 := n + 2, due for the delay bundle (16 R261). -/
def execCall (h : Hdr) (disp : BitVec 21) (s : State) : Out :=
  slotDo h (.call h disp) s fun c s =>
    let s1 := s.branch c h.slot.val (.call disp.toInt)
    if (((s.core c).skid.head?).map (·.delay)).getD false then s1
    else s1.due c h.slot.val 1 (.x 63 (BitVec.ofNat 64 (s.pcOf c + 2)))

/-- RET: the target is x63 at the start of the bundle (16 R261). -/
def execRet (h : Hdr) (s : State) : Out :=
  slotDo h (.ret h) s fun c s => s.branch c h.slot.val (.ret ((s.core c).rxn 63).toNat)

/-- JMP (16 R261). -/
def execJmp (h : Hdr) (target : Fin 8192) (s : State) : Out :=
  slotDo h (.jmp h target) s fun c s => s.branch c h.slot.val (.jmp target.val)

/-- LOOP with an immediate count (16 R265). -/
def execLoop (h : Hdr) (l p : Bool) (count : Fin 1024) (lenM1 : Fin 256) (s : State) : Out :=
  slotDo h (.loop h l p count lenM1) s fun c s => s.branch c h.slot.val (.loop l p count.val lenM1.val)

/-- LOOP with a register count (16 R265). -/
def execLoopReg (h : Hdr) (l p : Bool) (xN : XReg) (lenM1 : Fin 256) (s : State) : Out :=
  slotDo h (.loopReg h l p xN lenM1) s fun c s =>
    s.branch c h.slot.val (.loop l p (clampCount ((s.core c).rx xN)) lenM1.val)

/-- LBRK (16 R270). -/
def execLbrk (h : Hdr) (n : Fin 8) (s : State) : Out :=
  slotDo h (.lbrk h n) s fun c s => s.branch c h.slot.val (.lbrk n.val)

/-- WAIT.flag and WAIT.clear: the freeze is the whole effect (09 R157). -/
def execWaitFlag (h : Hdr) (f : Fin 32) (clear : Bool) (s : State) : Out :=
  slotDo h (.waitFlag h f clear) s fun _ s => s

/-- WAIT.sem: the waiter leaves the semaphore file (09 R157). -/
def execWaitSem (h : Hdr) (xS xT : XReg) (s : State) : Out :=
  slotDo h (.waitSem h xS xT) s fun c s =>
    s.updRidge fun r => { r with semw := r.semw.filter fun w => w.core != c }

/-- WAITA: the wait is over when its line access has completed (09 R158). -/
def execWaita (h : Hdr) (xA xV : XReg) (cond : WaitCond) (s : State) : Out :=
  slotDo h (.waita h xA xV cond) s fun c s => s.updCore c fun k => { k with waitT := none }

/-- SETF and CLRF: the own bit for the bundle issued next, or a change sent to the member of rank xC (16 R272, R273). -/
def State.flagOp (s : State) (c slot f : Nat) (xC : XReg) (remote val : Bool) : State :=
  if remote then
    let r := ((s.core c).rx xC).toNat
    match (s.membersOf c)[r]? with
    | some m => s.ask c slot (.flag r f val) (if m / 8 = c / 8 then 16 else 40) none 0
    | none => s
  else s.due c slot 1 (.flag f val)

/-- SETF (16 R272). -/
def execSetf (h : Hdr) (f : Fin 32) (xC : XReg) (remote : Bool) (s : State) : Out :=
  slotDo h (.setf h f xC remote) s fun c s => s.flagOp c h.slot.val f.val xC remote true

/-- CLRF (16 R272). -/
def execClrf (h : Hdr) (f : Fin 32) (xC : XReg) (remote : Bool) (s : State) : Out :=
  slotDo h (.clrf h f xC remote) s fun c s => s.flagOp c h.slot.val f.val xC remote false

/-- A semaphore operation: sent to the semaphore file, old value due after 16 or 48 (16 R275). -/
def State.semOp (s : State) (c slot op : Nat) (xD xS : XReg) (v : Word) : State :=
  let n := ((s.core c).rx xS).toNat
  let dev := decide (n < 0x10000)
  s.ask c slot (.sem op xD.val n v ((s.core c).rx xD)) (if dev then 24 else 8) (some xD.val) (if dev then 48 else 16)

/-- SADD (16 R275). -/
def execSadd (h : Hdr) (xD xS xV : XReg) (s : State) : Out :=
  slotDo h (.sadd h xD xS xV) s fun c s => s.semOp c h.slot.val 0 xD xS ((s.core c).rx xV)
/-- SCAS (16 R275). -/
def execScas (h : Hdr) (xD xS xV : XReg) (s : State) : Out :=
  slotDo h (.scas h xD xS xV) s fun c s => s.semOp c h.slot.val 1 xD xS ((s.core c).rx xV)
/-- SXCH (16 R275). -/
def execSxch (h : Hdr) (xD xS xV : XReg) (s : State) : Out :=
  slotDo h (.sxch h xD xS xV) s fun c s => s.semOp c h.slot.val 2 xD xS ((s.core c).rx xV)
/-- SMAX (16 R275). -/
def execSmax (h : Hdr) (xD xS xV : XReg) (s : State) : Out :=
  slotDo h (.smax h xD xS xV) s fun c s => s.semOp c h.slot.val 3 xD xS ((s.core c).rx xV)
/-- SWGE (16 R275). -/
def execSwge (h : Hdr) (xD xS xV : XReg) (s : State) : Out :=
  slotDo h (.swge h xD xS xV) s fun c s => s.semOp c h.slot.val 4 xD xS ((s.core c).rx xV)
/-- SRD (16 R275). -/
def execSrd (h : Hdr) (xD xS : XReg) (s : State) : Out :=
  slotDo h (.srd h xD xS) s fun c s => s.semOp c h.slot.val 5 xD xS 0

/-- BDCL: the declaration travels to the instance (09 R155). -/
def execBdcl (h : Hdr) (b : BReg) (xA : XReg) (s : State) : Out :=
  slotDo h (.bdcl h b xA) s fun c s =>
    let k := s.core c
    (s.push c (k.posAt h.slot.val) (s.bundleAddr c) (.req (.bdcl b.val (get (k.rx xA) 47 0)) s.now) [] [] none false).pump c

/-- The channel a BARV or SSTEP names. -/
def namedChan (c : CReg) (named : Bool) : Option Nat := if named then some c.val else none

/-- BARV (09 R155). -/
def execBarv (h : Hdr) (b : BReg) (n : CReg) (named : Bool) (s : State) : Out :=
  slotDo h (.barv h b n named) s fun c s => s.barArrive c h.slot.val b.val (namedChan n named)

/-- BWT: the acquire of the barrier's scope (09 R155). -/
def execBwt (h : Hdr) (b : BReg) (s : State) : Out :=
  slotDo h (.bwt h b) s fun c s => s.fenceAt c h.slot.val .acq (s.barScope c b.val)

/-- SSTEP: its arrival was sent when it first stood at the head; the wait is over (09 R155). -/
def execSstep (h : Hdr) (b : BReg) (n : CReg) (named : Bool) (s : State) : Out :=
  slotDo h (.sstep h b n named) s fun c s => s.fenceAt c h.slot.val .acq (s.barScope c b.val)

/-- FENCE (04 R88). -/
def execFence (h : Hdr) (order : Order) (scope : Scope) (s : State) : Out :=
  slotDo h (.fence h order scope) s fun c s => s.fenceAt c h.slot.val order scope

/-- TRIG (07 R132). -/
def execTrig (h : Hdr) (s : State) : Out :=
  slotDo h (.trig h) s fun c s => (s.fenceAt c h.slot.val .rel .device).ask c h.slot.val .trig 0 none 0

/-- ENQ (06 R125). -/
def execEnq (h : Hdr) (xD xQ : XReg) (tS : TReg) (hi : Bool) (s : State) : Out :=
  slotDo h (.enq h xD xQ tS hi) s fun c s =>
    let k := s.core c
    let bytes := slice (k.tileImg tS.val 1) (if hi then 64 else 0) 64
    (s.fenceAt c h.slot.val .rel .device).ask c h.slot.val (.enq (k.rx xQ) bytes) 12 (some xD.val) 24

/-- NTILE: a request to the group's tile dispenser (07 R133). -/
def execNtile (h : Hdr) (s : State) : Out :=
  slotDo h (.ntile h) s fun c s =>
    ((s.dueLate c h.slot.val 24 s.nextId (.ntile 0 false)).after 12 (.dispenserGrant (fin64 c) ⟨s.gidOf c, s.nextId⟩)).bump

/-- LAYER (16 R271). -/
def execLayer (h : Hdr) (s : State) : Out :=
  slotDo h (.layer h) s fun c s => s.due c h.slot.val 1 .layer

/-- SPEC: a region opens with its checkpoint (16 R277). -/
def execSpec (h : Hdr) (s : State) : Out :=
  slotDo h (.spec h) s fun c s => s.updCore c fun k =>
    { k with spec := k.spec.or (some ⟨k.posAt 0, k.x.toList, k.p.toList, k.o.toList, []⟩) }

/-- CMIT: the region closes at the end of the bundle and its actions are performed (16 R278). -/
def execCmit (h : Hdr) (s : State) : Out :=
  slotDo h (.cmit h) s fun c s => s.updCore c fun k => { k with bctx := { k.bctx with cmit := k.spec.isSome } }

/-- SABT: the region closes at the end of the bundle and is undone (16 R278). -/
def execSabt (h : Hdr) (s : State) : Out :=
  slotDo h (.sabt h) s fun c s => s.updCore c fun k => { k with bctx := { k.bctx with sabt := k.spec.isSome } }

/-- TRAP n: the bundle executes in full, then the group ends with code 0x80 + n (16 R280). -/
def execTrap (h : Hdr) (n : Fin 128) (s : State) : Out :=
  slotDo h (.trap h n) s fun c s => s.trapSlot c h.slot.val (0x80 + n.val)

/-- EXIT: the member retires at the end of the bundle (16 R280, 08 R145). -/
def execExit (h : Hdr) (s : State) : Out :=
  slotDo h (.exit h) s fun c s => s.updCore c fun k => { k with bctx := { k.bctx with exit := true } }

/-- FRSM (16 R281). -/
def execFrsm (h : Hdr) (xD xC xN : XReg) (s : State) : Out :=
  slotDo h (.frsm h xD xC xN) s fun c s =>
    let k := s.core c
    (s.dueLate c h.slot.val 40 s.nextId (.x xD.val 0)).push c (k.posAt h.slot.val) (s.bundleAddr c)
      (.req (.frsm (k.rx xC) (k.rx xN)) (s.now + 12)) [] [] none false |>.pump c

/-- TLBI (16 R282, R283): asynchronous; an xC above 63 does nothing. -/
def execTlbi (h : Hdr) (xA xC : XReg) (sz : InvSize) (s : State) : Out :=
  slotDo h (.tlbi h xA xC sz) s fun c s =>
    let k := s.core c
    if 63 < (k.rx xC).toNat then s
    else (s.push c (k.posAt h.slot.val) (s.bundleAddr c) (.req (.tlbi (k.rx xA) (k.rx xC) sz) (s.now + 40)) [] [] none false).pump c

end Sys2Proof.Machine
end

