-- ==== Sys2Proof/Machine/Registers.lean ====
section
/-! DEFINITION. The host port: device registers and host accesses to memory (04 R92; 30 R427 to R429; 10 R169, R176; 13 R210). -/

namespace Sys2Proof.Machine
open Sys2Proof.Bits

/-! ### Registers with rules of their own -/

/-- Sizes and coordinates of a `MESHCFG` word agree with each other, with JLOG's range and with `PKRANK` (13 R210). -/
def meshOk (w : Word) (rank : Nat) : Bool :=
  let n := fun (a : Nat) => get w (6 * a + 5) (6 * a) + 1
  let c := fun (a : Nat) => get w (29 + 6 * a) (24 + 6 * a)
  decide (n 0 * n 1 * n 2 * n 3 ≤ 4096) && ((List.range 4).all fun a => decide (c a < n a)) &&
  decide (20 ≤ get w 53 48 ∧ get w 53 48 ≤ 40) && decide (c 0 + n 0 * (c 1 + n 1 * (c 2 + n 2 * c 3)) = rank)

/-- A conversion or a collective step is in progress. -/
def State.meshBusy (s : State) : Bool :=
  !s.ridge.colls.isEmpty || s.ctxs.any fun x => x.2.ptab.any fun e => !e.2.convs.isEmpty

/-- A write of `MESHCFG` (13 R210). -/
def State.writeMesh (s : State) (v : Word) : State :=
  let w := BitVec.ofNat 64 (get v 53 0)
  if meshOk w s.regs.pkrank && !s.meshBusy then s.updRegs fun r => { r with meshcfg := w } else s

/-- MESHCFG_WRITE (13 R210). -/
def execMeshcfgWrite (val : Word) (s : State) : Out := .next (s.writeMesh val)

/-- The quotas of an `L2QT` word may be set (10 R169). -/
def quotaOk (w : Word) : Bool :=
  ((List.range 4).all fun c => decide ((l2Quota w c).1 ≤ (l2Quota w c).2 ∧ (l2Quota w c).2 ≤ 24)) &&
  decide ((l2Quota w 0).1 + (l2Quota w 1).1 + (l2Quota w 2).1 + (l2Quota w 3).1 ≤ 24)

/-- A write of `L2QT` (10 R169). -/
def State.writeL2qt (s : State) (v : Word) : State :=
  let w := BitVec.ofNat 64 (get v 39 0)
  if quotaOk w then s.updRegs fun r => { r with l2qt := w } else s

/-- L2QT_WRITE (10 R169). -/
def execL2qtWrite (val : Word) (s : State) : Out := .next (s.writeL2qt val)

/-- A write of `EXCFG` (10 R176): the region lies in the scratchpad, no slot has readers or is LOADING; every slot becomes EMPTY. -/
def State.writeExcfg (s : State) (v : Word) : State :=
  let log := get v 4 0
  let fits := decide (16 ≤ log ∧ log ≤ 21 ∧ get v 26 5 * 2 ^ 21 + 64 * 2 ^ log ≤ 2 ^ 27)
  let used := s.ridge.slots.any fun e => e.2.readers != 0 || e.2.state == 1
  if fits && !used then
    (s.updRegs fun r => { r with excfg := BitVec.ofNat 64 (get v 26 0) }).updRidge fun r => { r with slots := [] }
  else s

/-- EXCFG_WRITE (10 R176). -/
def execExcfgWrite (val : Word) (s : State) : Out := .next (s.writeExcfg val)

/-- A write of `GSTALE`, 32 bits: 0 clears it (08 R147). -/
def State.writeGstale (s : State) (v : Word) : State := if get v 31 0 = 0 then s.updRegs fun r => { r with gstale := 0 } else s

/-- GSTALE_WRITE (08 R147). -/
def execGstaleWrite (val : Word) (s : State) : Out := .next (s.writeGstale val)

/-- SZ of an invalidation by its code (30 Table 30.3). -/
def invSizeOf : Nat → InvSize
  | 0 => .k64
  | 1 => .m2
  | 2 => .g1
  | _ => .ctx

/-- A write of `INVREQ` (30 R429; 10 R167): it reaches the ridge in the next cycle, behind the TLBIs of that cycle. -/
def State.writeInvreq (s : State) (v : Word) : State :=
  if s.regs.invBusy then s
  else
    let i : Inval := ⟨none, s.now + 1, get v 57 52, get v 51 16 * 65536, invSizeOf (get v 61 60), 0⟩
    (((s.updRegs fun r => { r with invBusy := true }).updRidge fun r => { r with invs := r.invs ++ [i] }).after 1 .invalidationBegin)

/-- INVREQ (30 R429, R444). -/
def execInvreq (val : Word) (s : State) : Out := .next (s.port 0x70 val fun s => s.writeInvreq val)

/-- A write of `RESUME` acts as FRSM; DONE holds its answer (30 R429; 16 R281). -/
def State.writeResume (s : State) (v : Word) : State :=
  let r := s.frsm (get v 5 0) (get v 31 16)
  r.1.updRegs fun k => { k with resumeDone := (r.2.map (· % 2 ^ 32)).getD (2 ^ 32 - 1) }

/-- RESUME (30 R429, R444). -/
def execResume (val : Word) (s : State) : Out := .next (s.port 0x78 val fun s => s.writeResume val)

/-- A write of `RSTCTL` (30 Table 30.5). -/
def State.writeRstctl (s : State) (v : Word) : State :=
  if get v 63 3 ≠ 0 then s else if get v 2 0 = 1 then s.bootCmd else if get v 2 0 = 2 then s.warm else s

/-! ### Blocks of registers -/

/-- A write in the block of queue `q` (06 R118, Table 6.1). -/
def State.writeQueueReg (s : State) (q word : Nat) (v : Word) : State := match word with
  | 0 =>
    let s1 := if (s.queue q).en then s else s.updQueue q fun k =>
      { k with size := get v 23 20, cls := get v 17 16, enqok := bit v 15, ctx := get v 5 0 }
    if bit v 14 then s1.enableQueue q else s1.disableQueue q
  | 1 => if (s.queue q).en then s else s.updQueue q fun k => { k with base := get v 47 12 * 4096 }
  | 3 => s.ringBell q (get v 31 0)
  | _ => s

/-- A write of `LNKCTL` (11 R178). -/
def State.writeLnkctl (s : State) (l : Nat) (v : Word) : State := match get v 2 0 with
  | 1 => s.linkTrain l
  | 2 => s.linkFence l 4
  | 3 => s.dropLink l 0 0
  | _ => s

/-- A write in the block of link `l` (30 Table 30.2; 11 R187). -/
def State.writeLinkReg (s : State) (l word : Nat) (v : Word) : State := match word with
  | 1 => s.writeLnkctl l v
  | 2 => s.writeSltctl l v
  | 3 => if (s.link l).en then s else s.updLink l fun k => { k with sltbase := v }
  | _ => s

/-- A write of word `w` of an entry of a slot table: the RW fields of Table 11.5; ignored while EN = 1 (11 R187). -/
def State.writeSlotReg (s : State) (l i w : Nat) (v : Word) : State :=
  let k := s.link l
  let e := k.entry i
  let keep0 := v &&& 0x80FF_FFF0_00FF_FFFF
  let keep1 := v &&& 0xFFFF_0000_FFFF_FFFF
  if k.en then s
  else s.updLink l fun k => { k with table := Tbl.set k.table i (if w = 0 then (keep0, e.2) else (e.1, keep1)) }

/-- Eight bytes of the claim table (30 Table 30.2). -/
def State.writeClaims (s : State) (n : Nat) (v : Word) : State :=
  (List.range 8).foldl (fun (s : State) i =>
    let b := get v (8 * i + 7) (8 * i)
    s.updRidge fun r => { r with claims := Tbl.set r.claims (n + i) (b / 128 * 128 + b % 64) }) s

/-- A write of an entry of `RETTAB` enters its frame (29 R420; the entry holds the frame address in [47:16]). -/
def State.writeRettab (s : State) (v : Word) : State :=
  let f := get v 47 16
  if s.regs.rettab.contains f ∨ 1024 ≤ s.regs.rettab.length then s else s.updRegs fun r => { r with rettab := r.rettab ++ [f] }

/-- A write of `AGECFG` (29 Table 29.5). -/
def State.writeAgecfg (s : State) (v : Word) : State :=
  let s1 := (s.updRegs fun r => { r with agecfg := BitVec.ofNat 64 (get v 32 0) }).nextMeasure
  if bit v 33 then s1.measureNow else s1

/-- Registers of the first block (30 Table 30.2). RO ones keep their value. -/
def State.writeTop (s : State) (off : Nat) (v : Word) : State := match off / 8 with
  | 1 => s.writeRstctl v
  | 2 => s.updRegs fun r => { r with ctxtab := get v 47 12 * 4096 }
  | 3 => s.command (get v 5 0) (get v 10 8)
  | 4 => s.updRegs fun r => { r with pkrank := get v 11 0 }
  | 5 => s.writeMesh v
  | 6 => s.updRegs fun r => { r with tkcfg := BitVec.ofNat 64 (get v 6 0) }
  | 8 => s.writeL2qt v
  | 9 => s.writeExcfg v
  | 10 => s.writeGstale v
  | 12 => s.writeAgecfg v
  | 13 => s.updRegs fun r => { r with errHead := get v 15 0 }
  | 14 => s.writeInvreq v
  | 15 => s.writeResume v
  | _ => s

/-- Bytes of the firmware load buffer: written only in WAITFW and FAILED (30 R431). -/
def State.writeBuffer (s : State) (off : Nat) (v : Word) : State :=
  if s.regs.bootState = 0 ∨ s.regs.bootState = 4 then s.updRegs fun r => { r with buffer := r.buffer.write off (wordLE v) } else s

/-- A host write of 8 bytes at an offset of the register block (30 R428, Table 30.2). Reserved offsets do nothing. -/
def State.writeReg (s : State) (off : Nat) (v : Word) : State :=
  if off % 8 ≠ 0 then s
  else if off < 0x80 then s.writeTop off v
  else if 0x1000 ≤ off ∧ off < 0x1800 then
    (if off % 32 = 16 then s.updCtx ((off - 0x1000) / 32) fun k => { k with fqhead := get v 31 0 } else s)
  else if 0x2000 ≤ off ∧ off < 0x4000 then s.writeQueueReg ((off - 0x2000) / 32) (off % 32 / 8) v
  else if 0x14000 ≤ off ∧ off < 0x24000 then s.writeClaims (off - 0x14000) v
  else if 0x24000 ≤ off ∧ off < 0x24C00 then s.writeLinkReg ((off - 0x24000) / 64) (off % 64 / 8) v
  else if 0x28000 ≤ off ∧ off < 0x34000 then s.writeSlotReg ((off - 0x28000) / 1024) (off % 1024 / 16) (off % 16 / 8) v
  else if 0x34000 ≤ off ∧ off < 0x3C000 then
    s.updRegs fun r => { r with lrte := Tbl.set r.lrte ((off - 0x34000) / 8) (v &&& 0x7F7F) }
  else if 0x3C000 ≤ off ∧ off < 0x3C200 then s.updXch ((off - 0x3C000) / 8) fun k => { k with own := BitVec.ofNat 64 (get v 6 0) }
  else if 0x3E000 ≤ off ∧ off < 0x40000 then s.writeRettab v
  else if 0x1000000 ≤ off ∧ off < 0x2000000 then s.writeBuffer (off - 0x1000000) v
  else s

/-- REGISTER_WRITE (30 R427, R428, R444). -/
def execRegisterWrite (off : Nat) (val : Word) (s : State) : Out :=
  .next (if s.powered then s.port off val fun s => s.writeReg off val else s)

/-! ### What the registers read as -/

/-- `BOOTST` (30 Table 30.4). -/
def State.bootst (s : State) : Word := BitVec.ofNat 64 (s.regs.bootCause * 2 ^ 56 + s.regs.bootCtr % 2 ^ 16 * 2 ^ 40 + s.regs.bootState)
/-- `CTXCMD` (05 Table 5.1). -/
def State.ctxcmd (s : State) : Word :=
  BitVec.ofNat 64 (s.regs.cmdStatus * 2 ^ 17 + s.regs.cmdBusy.toNat * 2 ^ 16 + s.regs.cmdCtx)
/-- Groups of a context that hold a sequencer (05 Table 5.2). -/
def State.seqCount (s : State) (x : Nat) : Nat :=
  (s.grps.filter fun g => g.2.ctx == x && (decide (g.2.state ≤ 3) || g.2.state == 5 || g.2.state == 6)).length
/-- `CTXST` (05 Table 5.2). -/
def State.ctxst (s : State) (x : Nat) : Word :=
  let k := s.ctx x
  BitVec.ofNat 64 (min 8 (s.seqCount x) * 2 ^ 16 + k.cause * 2 ^ 8 + k.spnd.toNat * 8 + k.state)
/-- Words of a queue's block (06 Table 6.1). -/
def Queue.regs (k : Queue) (word : Nat) : Word := BitVec.ofNat 64 (match word with
  | 0 => k.miss * 2 ^ 32 + k.state * 2 ^ 28 + k.err * 2 ^ 24 + k.size * 2 ^ 20 + k.cls * 2 ^ 16 + k.enqok.toNat * 2 ^ 15 +
      k.en.toNat * 2 ^ 14 + k.ctx
  | 1 => k.base
  | 2 => k.head
  | _ => k.tail)
/-- `GRPST` (08 Table 8.2). -/
def Grp.grpst (g : Grp) : Word :=
  BitVec.ofNat 64 (g.parks % 2 ^ 32 * 2 ^ 32 + g.cause * 2 ^ 24 + g.trap * 2 ^ 16 + (if g.state = 4 then g.pwhy else 0) * 2 ^ 14 +
    g.ctx * 2 ^ 8 + g.gen % 16 * 16 + g.state)
/-- `LNKST` (11 Table 11.2). -/
def Link.lnkst (k : Link) : Word :=
  BitVec.ofNat 64 (k.replays * 2 ^ 48 + k.mismatch * 2 ^ 32 + k.peer * 2 ^ 20 + k.nwl * 2 ^ 11 + k.loss * 16 + k.tlock.toNat * 8 + k.state)
/-- `ERRCTL` (29 Table 29.3). -/
def State.errctl (s : State) : Word :=
  BitVec.ofNat 64 (s.regs.lost * 2 ^ 48 + s.regs.ce * 2 ^ 32 + s.regs.errTail % 65536 * 65536 + s.regs.errHead)

/-- A host read of a register (30 Table 30.2); reserved offsets and write-only registers read as zero. -/
def State.readReg (s : State) (off : Nat) : Word :=
  if off < 0x80 then (match off / 8 with
    | 0 => s.bootst
    | 2 => BitVec.ofNat 64 s.regs.ctxtab
    | 3 => s.ctxcmd
    | 4 => BitVec.ofNat 64 s.regs.pkrank
    | 5 => s.regs.meshcfg
    | 6 => s.regs.tkcfg
    | 7 => BitVec.ofNat 64 s.ftick
    | 8 => s.regs.l2qt
    | 9 => s.regs.excfg
    | 10 => BitVec.ofNat 64 s.regs.gstale
    | 11 => s.regs.pkgtel
    | 12 => s.regs.agecfg
    | 13 => s.errctl
    | 14 => BitVec.ofNat 64 (s.regs.invBusy.toNat * 2 ^ 63)
    | 15 => BitVec.ofNat 64 (s.regs.resumeDone * 2 ^ 32)
    | _ => 0)
  else if 0x1000 ≤ off ∧ off < 0x1800 then
    let x := (off - 0x1000) / 32
    (match off % 32 / 8 with
      | 0 => s.ctxst x
      | 1 => BitVec.ofNat 64 (((s.ctx x).fqtail - (s.ctx x).fqwait) % 2 ^ 32)
      | 2 => BitVec.ofNat 64 (s.ctx x).fqhead
      | _ => BitVec.ofNat 64 (s.ctx x).fqres)
  else if 0x2000 ≤ off ∧ off < 0x4000 then (s.queue ((off - 0x2000) / 32)).regs (off % 32 / 8)
  else if 0x4000 ≤ off ∧ off < 0x14000 then
    let g := s.grp ((off - 0x4000) / 64)
    let w := off % 64 / 8
    if w = 0 then g.grpst else if w ≤ 4 then BitVec.ofNat 64 (g.gfrz.getD (w - 1) 0) else if w = 5 then g.gtrap else 0
  else if 0x14000 ≤ off ∧ off < 0x24000 then
    BitVec.ofNat 64 ((List.range 8).foldl (fun n i => n + Tbl.getD s.ridge.claims (off - 0x14000 + i) 0 * 256 ^ i) 0)
  else if 0x24000 ≤ off ∧ off < 0x24C00 then
    let k := s.link ((off - 0x24000) / 64)
    (match off % 64 / 8 with
      | 0 => k.lnkst
      | 2 => k.sltctl
      | 3 => k.sltbase
      | _ => 0)
  else if 0x28000 ≤ off ∧ off < 0x34000 then
    let e := (s.link ((off - 0x28000) / 1024)).entry (off % 1024 / 16)
    if off % 16 = 0 then e.1 else e.2
  else if 0x34000 ≤ off ∧ off < 0x3C000 then Tbl.getD s.regs.lrte ((off - 0x34000) / 8) 0
  else if 0x3C000 ≤ off ∧ off < 0x3C200 then (s.xch ((off - 0x3C000) / 8)).own
  else if 0x3C200 ≤ off ∧ off < 0x3C2A8 then s.age ((off - 0x3C200) / 8)
  else if 0x3D000 ≤ off ∧ off < 0x3D800 then wnth (Tbl.getD s.regs.errlog ((off - 0x3D000) / 32) []) (off % 32 / 8)
  else if 0x3E000 ≤ off ∧ off < 0x40000 then BitVec.ofNat 64 (s.regs.rettab.getD ((off - 0x3E000) / 8) 0 * 65536)
  else 0

/-! ### Host accesses to device memory -/

/-- CXL.mem answers once STATE is READY (30 R430). -/
def State.cxlMem (s : State) : Bool := s.powered && s.regs.bootState == 3

/-- HOST_MEM_READ over the linear aperture: the applied value at the home (04 R92; 30 R427). The host port acquires the stamps of what it
reads, as other agents do (DESIGN CHOICE, log 28: R92 does not say). -/
def execHostMemRead (pa len : Nat) (s : State) : Out :=
  if s.cxlMem = false ∨ hbmTop < pa + len ∨ (s.unitFault pa).isSome then .next s
  else
    let r := s.agentRead 17 pa len
    .next (r.2.updRegs fun k => { k with reads := r.1 :: k.reads })

/-- HOST_MEM_WRITE: applied at its home in arrival order, with the host port's epoch (04 R92; 30 R427). What the host writes in its own
memory is its own. -/
def execHostMemWrite (pa : Nat) (bytes : List Byte) (s : State) : Out :=
  if hostBase ≤ pa ∧ pa + bytes.length ≤ 2 * hostBase then .next (s.agentWrite 17 pa 17 bytes)
  else if s.cxlMem = false ∨ hbmTop < pa + bytes.length ∨ (s.unitFault pa).isSome then .next s
  else .next (s.agentWrite 17 pa (8 + pa / 2 ^ 36) bytes)

end Sys2Proof.Machine
end

