-- ==== Sys2Proof/Machine/Scalar.lean ====
section
/-! DEFINITION. The instructions of slots s and a (17). -/

namespace Sys2Proof.Machine
open Sys2Proof.Bits

/-! ### Values -/

/-- ADD and SUB by form: exact, wrapped or clamped, and SAT when a clamp changes the value (17 R288). -/
def addForm (fn : SatForm) (s u : Int) : Word × List Nat :=
  let clamp := fun (lo hi v : Int) => if v < lo then (ofInt lo, [0x05]) else if hi < v then (ofInt hi, [0x05]) else (ofInt v, [])
  match fn with
  | .wrap => (ofInt u, [])
  | .sats => clamp (-(2 ^ 63)) (2 ^ 63 - 1) s
  | .satu => clamp 0 (2 ^ 64 - 1) u

/-- ADD (17 Table 17.2). -/
def addVal (fn : SatForm) (a b : Word) : Word × List Nat := addForm fn (a.toInt + b.toInt) ((a.toNat : Int) + b.toNat)
/-- SUB (17 Table 17.2). -/
def subVal (fn : SatForm) (a b : Word) : Word × List Nat := addForm fn (a.toInt - b.toInt) ((a.toNat : Int) - b.toNat)
/-- High half of the signed product. -/
def mulhVal (a b : Word) : Word := ofInt (a.toInt * b.toInt / 2 ^ 64)
/-- High half of the unsigned product. -/
def mulhuVal (a b : Word) : Word := BitVec.ofNat 64 (a.toNat * b.toNat / 2 ^ 64)
/-- DIV, truncating (17 R289). -/
def divVal (a b : Word) : Word × List Nat := if b = 0 then (ofInt (-1), [codeIDZ]) else (ofInt (a.toInt.tdiv b.toInt), [])
/-- DIVU (17 R289). -/
def divuVal (a b : Word) : Word × List Nat := if b = 0 then (ofInt (-1), [codeIDZ]) else (BitVec.ofNat 64 (a.toNat / b.toNat), [])
/-- REM: the dividend's sign (17 R289). -/
def remVal (a b : Word) : Word × List Nat := if b = 0 then (a, [codeIDZ]) else (ofInt (a.toInt.tmod b.toInt), [])
/-- REMU (17 R289). -/
def remuVal (a b : Word) : Word × List Nat := if b = 0 then (a, [codeIDZ]) else (BitVec.ofNat 64 (a.toNat % b.toNat), [])
/-- Shift count of the register forms: xB[5:0]. -/
def shAmt (b : Word) : Nat := get b 5 0
/-- Immediates of format SI, sign-extended (17 R290). -/
def imm9 (i : BitVec 9) : Word := i.signExtend 64

/-- The comparison of CMP and CMPI (14 R239, 17 R292). -/
def cmpVal (cond : Cond) (a b : Word) : Bool :=
  match cond with
  | .eq => a == b
  | .ne => a != b
  | .lt => a.slt b
  | .ge => !a.slt b
  | .ltu => a.ult b
  | .geu => !a.ult b
  | .bset => a &&& b != 0
  | .bclr => a &&& b == 0
/-- How a comparison combines with the old predicate (17 R292). -/
def combVal (comb : Comb) (old c : Bool) : Bool :=
  match comb with
  | .set => c
  | .and => old && c
  | .or => old || c
  | .xor => old != c
/-- BFX (17 R296). -/
def bfxVal (sx : Bool) (a b : Word) : Word :=
  let lo := get b 5 0
  let n := get b 14 8
  if n = 0 ∨ 64 < n then 0
  else
    let f := a.toNat / 2 ^ lo % 2 ^ n
    if sx then ofInt (sext f n) else BitVec.ofNat 64 f

/-! ### Register arithmetic -/

/-- A scalar result due `lat` bundles on, with its events. -/
def State.dueX (s : State) (c slot lat : Nat) (xD : XReg) (v : Word × List Nat) : State := s.due c slot lat (.x xD.val v.1) v.2

/-- ADD (17 R288). -/
def execAdd (h : Hdr) (xD xA xB : XReg) (fn : SatForm) (s : State) : Out :=
  slotDo h (.add h xD xA xB fn) s fun c s =>
    s.dueX c h.slot.val 1 xD (addVal fn ((s.core c).rx xA) ((s.core c).rx xB))

/-- SUB (17 R288). -/
def execSub (h : Hdr) (xD xA xB : XReg) (fn : SatForm) (s : State) : Out :=
  slotDo h (.sub h xD xA xB fn) s fun c s =>
    s.dueX c h.slot.val 1 xD (subVal fn ((s.core c).rx xA) ((s.core c).rx xB))

/-- MUL (17 Table 17.2). -/
def execMul (h : Hdr) (xD xA xB : XReg) (s : State) : Out :=
  slotDo h (.mul h xD xA xB) s fun c s =>
    let a := (s.core c).rx xA
    let b := (s.core c).rx xB
    s.dueX c h.slot.val 3 xD (a * b, [])

/-- MULH (17 Table 17.2). -/
def execMulh (h : Hdr) (xD xA xB : XReg) (s : State) : Out :=
  slotDo h (.mulh h xD xA xB) s fun c s =>
    let a := (s.core c).rx xA
    let b := (s.core c).rx xB
    s.dueX c h.slot.val 3 xD (mulhVal a b, [])

/-- MULHU (17 Table 17.2). -/
def execMulhu (h : Hdr) (xD xA xB : XReg) (s : State) : Out :=
  slotDo h (.mulhu h xD xA xB) s fun c s =>
    let a := (s.core c).rx xA
    let b := (s.core c).rx xB
    s.dueX c h.slot.val 3 xD (mulhuVal a b, [])

/-- DIV (17 Table 17.2). -/
def execDiv (h : Hdr) (xD xA xB : XReg) (s : State) : Out :=
  slotDo h (.div h xD xA xB) s fun c s =>
    let a := (s.core c).rx xA
    let b := (s.core c).rx xB
    s.dueX c h.slot.val 34 xD (divVal a b)

/-- DIVU (17 Table 17.2). -/
def execDivu (h : Hdr) (xD xA xB : XReg) (s : State) : Out :=
  slotDo h (.divu h xD xA xB) s fun c s =>
    let a := (s.core c).rx xA
    let b := (s.core c).rx xB
    s.dueX c h.slot.val 34 xD (divuVal a b)

/-- REM (17 Table 17.2). -/
def execRem (h : Hdr) (xD xA xB : XReg) (s : State) : Out :=
  slotDo h (.rem h xD xA xB) s fun c s =>
    let a := (s.core c).rx xA
    let b := (s.core c).rx xB
    s.dueX c h.slot.val 34 xD (remVal a b)

/-- REMU (17 Table 17.2). -/
def execRemu (h : Hdr) (xD xA xB : XReg) (s : State) : Out :=
  slotDo h (.remu h xD xA xB) s fun c s =>
    let a := (s.core c).rx xA
    let b := (s.core c).rx xB
    s.dueX c h.slot.val 34 xD (remuVal a b)

/-- AND (17 Table 17.2). -/
def execAnd (h : Hdr) (xD xA xB : XReg) (s : State) : Out :=
  slotDo h (.and h xD xA xB) s fun c s =>
    let a := (s.core c).rx xA
    let b := (s.core c).rx xB
    s.dueX c h.slot.val 1 xD (a &&& b, [])

/-- OR (17 Table 17.2). -/
def execOr (h : Hdr) (xD xA xB : XReg) (s : State) : Out :=
  slotDo h (.or h xD xA xB) s fun c s =>
    let a := (s.core c).rx xA
    let b := (s.core c).rx xB
    s.dueX c h.slot.val 1 xD (a ||| b, [])

/-- XOR (17 Table 17.2). -/
def execXor (h : Hdr) (xD xA xB : XReg) (s : State) : Out :=
  slotDo h (.xor h xD xA xB) s fun c s =>
    let a := (s.core c).rx xA
    let b := (s.core c).rx xB
    s.dueX c h.slot.val 1 xD (a ^^^ b, [])

/-- ANDN (17 Table 17.2). -/
def execAndn (h : Hdr) (xD xA xB : XReg) (s : State) : Out :=
  slotDo h (.andn h xD xA xB) s fun c s =>
    let a := (s.core c).rx xA
    let b := (s.core c).rx xB
    s.dueX c h.slot.val 1 xD (a &&& ~~~b, [])

/-- SHL (17 Table 17.2). -/
def execShl (h : Hdr) (xD xA xB : XReg) (s : State) : Out :=
  slotDo h (.shl h xD xA xB) s fun c s =>
    let a := (s.core c).rx xA
    let b := (s.core c).rx xB
    s.dueX c h.slot.val 1 xD (a <<< shAmt b, [])

/-- SHR (17 Table 17.2). -/
def execShr (h : Hdr) (xD xA xB : XReg) (s : State) : Out :=
  slotDo h (.shr h xD xA xB) s fun c s =>
    let a := (s.core c).rx xA
    let b := (s.core c).rx xB
    s.dueX c h.slot.val 1 xD (a >>> shAmt b, [])

/-- SAR (17 Table 17.2). -/
def execSar (h : Hdr) (xD xA xB : XReg) (s : State) : Out :=
  slotDo h (.sar h xD xA xB) s fun c s =>
    let a := (s.core c).rx xA
    let b := (s.core c).rx xB
    s.dueX c h.slot.val 1 xD (a.sshiftRight (shAmt b), [])

/-- MIN (17 Table 17.2). -/
def execMin (h : Hdr) (xD xA xB : XReg) (s : State) : Out :=
  slotDo h (.min h xD xA xB) s fun c s =>
    let a := (s.core c).rx xA
    let b := (s.core c).rx xB
    s.dueX c h.slot.val 1 xD (if b.slt a then b else a, [])

/-- MAX (17 Table 17.2). -/
def execMax (h : Hdr) (xD xA xB : XReg) (s : State) : Out :=
  slotDo h (.max h xD xA xB) s fun c s =>
    let a := (s.core c).rx xA
    let b := (s.core c).rx xB
    s.dueX c h.slot.val 1 xD (if a.slt b then b else a, [])

/-- MINU (17 Table 17.2). -/
def execMinu (h : Hdr) (xD xA xB : XReg) (s : State) : Out :=
  slotDo h (.minu h xD xA xB) s fun c s =>
    let a := (s.core c).rx xA
    let b := (s.core c).rx xB
    s.dueX c h.slot.val 1 xD (if b.ult a then b else a, [])

/-- MAXU (17 Table 17.2). -/
def execMaxu (h : Hdr) (xD xA xB : XReg) (s : State) : Out :=
  slotDo h (.maxu h xD xA xB) s fun c s =>
    let a := (s.core c).rx xA
    let b := (s.core c).rx xB
    s.dueX c h.slot.val 1 xD (if a.ult b then b else a, [])

/-! ### Immediates and constants -/

/-- ADDI (17 R290). -/
def execAddi (h : Hdr) (xD xA : XReg) (imm : BitVec 9) (s : State) : Out :=
  slotDo h (.addi h xD xA imm) s fun c s =>
    let a := (s.core c).rx xA
    s.dueX c h.slot.val 1 xD (a + imm9 imm, [])

/-- ANDI (17 R290). -/
def execAndi (h : Hdr) (xD xA : XReg) (imm : BitVec 9) (s : State) : Out :=
  slotDo h (.andi h xD xA imm) s fun c s =>
    let a := (s.core c).rx xA
    s.dueX c h.slot.val 1 xD (a &&& imm9 imm, [])

/-- ORI (17 R290). -/
def execOri (h : Hdr) (xD xA : XReg) (imm : BitVec 9) (s : State) : Out :=
  slotDo h (.ori h xD xA imm) s fun c s =>
    let a := (s.core c).rx xA
    s.dueX c h.slot.val 1 xD (a ||| imm9 imm, [])

/-- XORI (17 R290). -/
def execXori (h : Hdr) (xD xA : XReg) (imm : BitVec 9) (s : State) : Out :=
  slotDo h (.xori h xD xA imm) s fun c s =>
    let a := (s.core c).rx xA
    s.dueX c h.slot.val 1 xD (a ^^^ imm9 imm, [])

/-- SHLI (17 R290). -/
def execShli (h : Hdr) (xD xA : XReg) (imm : BitVec 9) (s : State) : Out :=
  slotDo h (.shli h xD xA imm) s fun c s =>
    let a := (s.core c).rx xA
    s.dueX c h.slot.val 1 xD (a <<< imm.toNat, [])

/-- SHRI (17 R290). -/
def execShri (h : Hdr) (xD xA : XReg) (imm : BitVec 9) (s : State) : Out :=
  slotDo h (.shri h xD xA imm) s fun c s =>
    let a := (s.core c).rx xA
    s.dueX c h.slot.val 1 xD (a >>> imm.toNat, [])

/-- SARI (17 R290). -/
def execSari (h : Hdr) (xD xA : XReg) (imm : BitVec 9) (s : State) : Out :=
  slotDo h (.sari h xD xA imm) s fun c s =>
    let a := (s.core c).rx xA
    s.dueX c h.slot.val 1 xD (a.sshiftRight imm.toNat, [])

/-- LI (17 R291). -/
def execLi (h : Hdr) (xD : XReg) (imm : BitVec 15) (s : State) : Out :=
  slotDo h (.li h xD imm) s fun c s => s.dueX c h.slot.val 1 xD (imm.signExtend 64, [])

/-- LIH: xD := xD << 15 OR IMM15 (17 R291). -/
def execLih (h : Hdr) (xD : XReg) (imm : BitVec 15) (s : State) : Out :=
  slotDo h (.lih h xD imm) s fun c s =>
    s.dueX c h.slot.val 1 xD ((s.core c).rx xD <<< 15 ||| imm.zeroExtend 64, [])

/-! ### Predicates and selection -/

/-- CMP (17 R292). -/
def execCmp (h : Hdr) (pD : PReg) (xA xB : XReg) (cond : Cond) (comb : Comb) (s : State) : Out :=
  slotDo h (.cmp h pD xA xB cond comb) s fun c s =>
    let k := s.core c
    s.due c h.slot.val 1 (.p pD.val (combVal comb (k.rp c pD) (cmpVal cond (k.rx xA) (k.rx xB))))

/-- CMPI (17 R292). -/
def execCmpi (h : Hdr) (pD : PReg) (xA : XReg) (imm : BitVec 6) (cond : Cond) (comb : Comb) (s : State) : Out :=
  slotDo h (.cmpi h pD xA imm cond comb) s fun c s =>
    let k := s.core c
    s.due c h.slot.val 1 (.p pD.val (combVal comb (k.rp c pD) (cmpVal cond (k.rx xA) (imm.signExtend 64))))

/-- SEL always executes: xA when the header's condition holds, else xB (14 R225). -/
def execSel (h : Hdr) (xD xA xB : XReg) (s : State) : Out :=
  let c := s.issuer
  let k := s.core c
  .next (s.dueX c h.slot.val 1 xD (if k.holds c h then k.rx xA else k.rx xB, []))

/-- PLOG (17 R293). -/
def execPlog (h : Hdr) (pD pA pB : PReg) (tt : BitVec 4) (s : State) : Out :=
  slotDo h (.plog h pD pA pB tt) s fun c s =>
    let k := s.core c
    s.due c h.slot.val 1 (.p pD.val (tt.getLsbD (2 * (k.rp c pA).toNat + (k.rp c pB).toNat)))

/-! ### Bits -/

/-- CLZ (17 R295). -/
def execClz (h : Hdr) (xD xA : XReg) (s : State) : Out :=
  slotDo h (.clz h xD xA) s fun c s => s.dueX c h.slot.val 1 xD (BitVec.ofNat 64 (Bits.clz 64 ((s.core c).rx xA).toNat), [])

/-- CTZ (17 R295). -/
def execCtz (h : Hdr) (xD xA : XReg) (s : State) : Out :=
  slotDo h (.ctz h xD xA) s fun c s => s.dueX c h.slot.val 1 xD (BitVec.ofNat 64 (Bits.ctz 64 ((s.core c).rx xA).toNat), [])

/-- POPC (17 R295). -/
def execPopc (h : Hdr) (xD xA : XReg) (s : State) : Out :=
  slotDo h (.popc h xD xA) s fun c s => s.dueX c h.slot.val 1 xD (BitVec.ofNat 64 (Bits.popc 64 ((s.core c).rx xA).toNat), [])

/-- BFX (17 R296). -/
def execBfx (h : Hdr) (xD xA xB : XReg) (sx : Bool) (s : State) : Out :=
  slotDo h (.bfx h xD xA xB sx) s fun c s => s.dueX c h.slot.val 1 xD (bfxVal sx ((s.core c).rx xA) ((s.core c).rx xB), [])

/-! ### Special registers, loop indices, parameter windows -/

/-- MFS: the register as it stood at the start of the bundle, two bundles on (14 R230). -/
def execMfs (h : Hdr) (xD : XReg) (num : Fin 1024) (s : State) : Out :=
  slotDo h (.mfs h xD num) s fun c s => s.dueX c h.slot.val 2 xD ((s.core c).rspr c num.val, [])

/-- MTS: for the bundles issued after its own (14 R230). -/
def execMts (h : Hdr) (xA : XReg) (num : Fin 1024) (s : State) : Out :=
  slotDo h (.mts h xA num) s fun c s => s.due c h.slot.val 1 (.spr num.val ((s.core c).rx xA))

/-- INDEX of loop level `l`, 0 when it is not open (17 R298). -/
def Core.levelIndex (k : Core) (l : Nat) : Nat := ((k.stack.reverse[l]?).map (·.index)).getD 0

/-- XIDX (17 R298). -/
def execXidx (h : Hdr) (xD : XReg) (lvl : LevelF) (s : State) : Out :=
  slotDo h (.xidx h xD lvl) s fun c s => s.dueX c h.slot.val 1 xD (BitVec.ofNat 64 ((s.core c).levelIndex lvl.val), [])

/-- The word at byte `off` of a window's copy: bytes past its length read as zero and log PWBND (17 R299). -/
def windowWord (w : List Byte) (off : Nat) : Word × List Nat :=
  (BitVec.ofNat 64 (numAt w off 8), if w.length < off + 8 then [codePWBND] else [])

/-- The group's copy of window `w`. -/
def State.window (s : State) (c w : Nat) : List Byte := ((s.runOf c).bind fun r => (r.win[w]?).join).getD []

/-- LDP (17 R299). -/
def execLdp (h : Hdr) (xD : XReg) (w : Fin 8) (imm : Fin 4096) (s : State) : Out :=
  slotDo h (.ldp h xD w imm) s fun c s => s.dueX c h.slot.val 4 xD (windowWord (s.window c w.val) (8 * imm.val))

/-- LDPX: bits [2:0] of the offset are cleared (17 R299). -/
def execLdpx (h : Hdr) (xD : XReg) (w : Fin 8) (xA : XReg) (s : State) : Out :=
  slotDo h (.ldpx h xD w xA) s fun c s =>
    s.dueX c h.slot.val 4 xD (windowWord (s.window c w.val) (((s.core c).rx xA).toNat / 8 * 8))

/-! ### Offset registers, strides, handles -/

/-- OSET (17 R300). -/
def execOset (h : Hdr) (oD : OReg) (xA : XReg) (s : State) : Out :=
  slotDo h (.oset h oD xA) s fun c s => s.due c h.slot.val 1 (.o oD.val ((s.core c).rx xA))

/-- OADDI (17 R300). -/
def execOaddi (h : Hdr) (oD : OReg) (imm : BitVec 17) (s : State) : Out :=
  slotDo h (.oaddi h oD imm) s fun c s => s.due c h.slot.val 1 (.o oD.val ((s.core c).ro oD + imm.signExtend 64))

/-- OSTR (17 R301). -/
def execOstr (h : Hdr) (oD : OReg) (lvl : LevelF) (xA : XReg) (s : State) : Out :=
  slotDo h (.ostr h oD lvl xA) s fun c s => s.due c h.slot.val 1 (.stride oD.val lvl.val ((s.core c).rx xA))

/-- ORD (17 R300). -/
def execOrd (h : Hdr) (xD : XReg) (oA : OReg) (s : State) : Out :=
  slotDo h (.ord h xD oA) s fun c s => s.dueX c h.slot.val 2 xD ((s.core c).ro oA, [])

/-- Version writes that earlier operations owe handle `n` are overruled (17 R305). -/
def Core.overrule (k : Core) (n : Nat) : Core :=
  let late := fun (p : Pend) => match p.w with
    | .ver m _ => m == n
    | _ => false
  { k with pend := k.pend.filter (fun p => !late p), memq := k.memq.map (MemOp.mute (· == n)) }

/-- A write of a handle's version overrules what is owed to it, but for one in the bundle of a region's SABT, which is discarded (16 R277;
17 R305). -/
def State.overrule (s : State) (c n : Nat) : State := if (s.core c).bctx.sabt then s else s.updCore c fun k => k.overrule n

/-- HSET (17 R304). -/
def execHset (h : Hdr) (hD : HReg) (xA : XReg) (sel : Fin 16) (s : State) : Out :=
  slotDo h (.hset h hD xA sel) s fun c s =>
    (if sel.val = 13 then s.overrule c hD.val else s).due c h.slot.val 1 (.hnd hD.val sel.val ((s.core c).rx xA))

/-- HGET (17 R304). -/
def execHget (h : Hdr) (xD : XReg) (hA : HReg) (sel : Fin 16) (s : State) : Out :=
  slotDo h (.hget h xD hA sel) s fun c s => s.dueX c h.slot.val 2 xD (hfieldGet ((s.core c).hwords hA.val) sel.val, [])

/-- HCPY (17 R304). -/
def execHcpy (h : Hdr) (hD hA : HReg) (s : State) : Out :=
  slotDo h (.hcpy h hD hA) s fun c s =>
    (s.overrule c hD.val).due c h.slot.val 1 (.hcopy hD.val ((s.core c).hwords hA.val))

end Sys2Proof.Machine
end

