-- ==== Sys2Proof/Machine/Dispatch.lean ====
section
/-! DEFINITION. The meaning of every instruction and every other step: one direct call each. -/

namespace Sys2Proof.Machine

/-- The effect of an instruction or event. -/
def exec (i : Instr) (s : State) : Host.Outcome State Fault Refusal :=
  match i with
  | .nop h => Sys2Proof.Machine.execNop h s
  | .br h disp => Sys2Proof.Machine.execBr h disp s
  | .call h disp => Sys2Proof.Machine.execCall h disp s
  | .ret h => Sys2Proof.Machine.execRet h s
  | .jmp h target => Sys2Proof.Machine.execJmp h target s
  | .loop h l p count lenM1 => Sys2Proof.Machine.execLoop h l p count lenM1 s
  | .loopReg h l p xN lenM1 => Sys2Proof.Machine.execLoopReg h l p xN lenM1 s
  | .lbrk h n => Sys2Proof.Machine.execLbrk h n s
  | .waitFlag h f clear => Sys2Proof.Machine.execWaitFlag h f clear s
  | .waitSem h xS xT => Sys2Proof.Machine.execWaitSem h xS xT s
  | .waita h xA xV cond => Sys2Proof.Machine.execWaita h xA xV cond s
  | .setf h f xC remote => Sys2Proof.Machine.execSetf h f xC remote s
  | .clrf h f xC remote => Sys2Proof.Machine.execClrf h f xC remote s
  | .sadd h xD xS xV => Sys2Proof.Machine.execSadd h xD xS xV s
  | .scas h xD xS xV => Sys2Proof.Machine.execScas h xD xS xV s
  | .sxch h xD xS xV => Sys2Proof.Machine.execSxch h xD xS xV s
  | .smax h xD xS xV => Sys2Proof.Machine.execSmax h xD xS xV s
  | .swge h xD xS xV => Sys2Proof.Machine.execSwge h xD xS xV s
  | .srd h xD xS => Sys2Proof.Machine.execSrd h xD xS s
  | .bdcl h b xA => Sys2Proof.Machine.execBdcl h b xA s
  | .barv h b c named => Sys2Proof.Machine.execBarv h b c named s
  | .bwt h b => Sys2Proof.Machine.execBwt h b s
  | .sstep h b c named => Sys2Proof.Machine.execSstep h b c named s
  | .fence h order scope => Sys2Proof.Machine.execFence h order scope s
  | .trig h => Sys2Proof.Machine.execTrig h s
  | .enq h xD xQ tS hi => Sys2Proof.Machine.execEnq h xD xQ tS hi s
  | .ntile h => Sys2Proof.Machine.execNtile h s
  | .layer h => Sys2Proof.Machine.execLayer h s
  | .spec h => Sys2Proof.Machine.execSpec h s
  | .cmit h => Sys2Proof.Machine.execCmit h s
  | .sabt h => Sys2Proof.Machine.execSabt h s
  | .trap h n => Sys2Proof.Machine.execTrap h n s
  | .exit h => Sys2Proof.Machine.execExit h s
  | .frsm h xD xC xN => Sys2Proof.Machine.execFrsm h xD xC xN s
  | .tlbi h xA xC sz => Sys2Proof.Machine.execTlbi h xA xC sz s
  | .add h xD xA xB fn => Sys2Proof.Machine.execAdd h xD xA xB fn s
  | .sub h xD xA xB fn => Sys2Proof.Machine.execSub h xD xA xB fn s
  | .mul h xD xA xB => Sys2Proof.Machine.execMul h xD xA xB s
  | .mulh h xD xA xB => Sys2Proof.Machine.execMulh h xD xA xB s
  | .mulhu h xD xA xB => Sys2Proof.Machine.execMulhu h xD xA xB s
  | .div h xD xA xB => Sys2Proof.Machine.execDiv h xD xA xB s
  | .divu h xD xA xB => Sys2Proof.Machine.execDivu h xD xA xB s
  | .rem h xD xA xB => Sys2Proof.Machine.execRem h xD xA xB s
  | .remu h xD xA xB => Sys2Proof.Machine.execRemu h xD xA xB s
  | .and h xD xA xB => Sys2Proof.Machine.execAnd h xD xA xB s
  | .or h xD xA xB => Sys2Proof.Machine.execOr h xD xA xB s
  | .xor h xD xA xB => Sys2Proof.Machine.execXor h xD xA xB s
  | .andn h xD xA xB => Sys2Proof.Machine.execAndn h xD xA xB s
  | .shl h xD xA xB => Sys2Proof.Machine.execShl h xD xA xB s
  | .shr h xD xA xB => Sys2Proof.Machine.execShr h xD xA xB s
  | .sar h xD xA xB => Sys2Proof.Machine.execSar h xD xA xB s
  | .min h xD xA xB => Sys2Proof.Machine.execMin h xD xA xB s
  | .max h xD xA xB => Sys2Proof.Machine.execMax h xD xA xB s
  | .minu h xD xA xB => Sys2Proof.Machine.execMinu h xD xA xB s
  | .maxu h xD xA xB => Sys2Proof.Machine.execMaxu h xD xA xB s
  | .addi h xD xA imm => Sys2Proof.Machine.execAddi h xD xA imm s
  | .andi h xD xA imm => Sys2Proof.Machine.execAndi h xD xA imm s
  | .ori h xD xA imm => Sys2Proof.Machine.execOri h xD xA imm s
  | .xori h xD xA imm => Sys2Proof.Machine.execXori h xD xA imm s
  | .shli h xD xA imm => Sys2Proof.Machine.execShli h xD xA imm s
  | .shri h xD xA imm => Sys2Proof.Machine.execShri h xD xA imm s
  | .sari h xD xA imm => Sys2Proof.Machine.execSari h xD xA imm s
  | .li h xD imm => Sys2Proof.Machine.execLi h xD imm s
  | .lih h xD imm => Sys2Proof.Machine.execLih h xD imm s
  | .cmp h pD xA xB cond comb => Sys2Proof.Machine.execCmp h pD xA xB cond comb s
  | .cmpi h pD xA imm cond comb => Sys2Proof.Machine.execCmpi h pD xA imm cond comb s
  | .sel h xD xA xB => Sys2Proof.Machine.execSel h xD xA xB s
  | .plog h pD pA pB tt => Sys2Proof.Machine.execPlog h pD pA pB tt s
  | .clz h xD xA => Sys2Proof.Machine.execClz h xD xA s
  | .ctz h xD xA => Sys2Proof.Machine.execCtz h xD xA s
  | .popc h xD xA => Sys2Proof.Machine.execPopc h xD xA s
  | .bfx h xD xA xB sx => Sys2Proof.Machine.execBfx h xD xA xB sx s
  | .mfs h xD num => Sys2Proof.Machine.execMfs h xD num s
  | .mts h xA num => Sys2Proof.Machine.execMts h xA num s
  | .xidx h xD lvl => Sys2Proof.Machine.execXidx h xD lvl s
  | .ldp h xD w imm => Sys2Proof.Machine.execLdp h xD w imm s
  | .ldpx h xD w xA => Sys2Proof.Machine.execLdpx h xD w xA s
  | .oset h oD xA => Sys2Proof.Machine.execOset h oD xA s
  | .oaddi h oD imm => Sys2Proof.Machine.execOaddi h oD imm s
  | .ostr h oD lvl xA => Sys2Proof.Machine.execOstr h oD lvl xA s
  | .ord h xD oA => Sys2Proof.Machine.execOrd h xD oA s
  | .brx h disp => Sys2Proof.Machine.execBrx h disp s
  | .hset h hD xA sel => Sys2Proof.Machine.execHset h hD xA sel s
  | .hget h xD hA sel => Sys2Proof.Machine.execHget h xD hA sel s
  | .hcpy h hD hA => Sys2Proof.Machine.execHcpy h hD hA s
  | .tld h tD xB oO byp land => Sys2Proof.Machine.execTld h tD xB oO byp land s
  | .tst h tS xB oO => Sys2Proof.Machine.execTst h tS xB oO s
  | .tldh h tD hn og enf land => Sys2Proof.Machine.execTldh h tD hn og enf land s
  | .tsth h tS hn og => Sys2Proof.Machine.execTsth h tS hn og s
  | .tldg h tD xB tI l7 => Sys2Proof.Machine.execTldg h tD xB tI l7 s
  | .tsts h tS xB tI => Sys2Proof.Machine.execTsts h tS xB tI s
  | .tldx h tD xB oO land => Sys2Proof.Machine.execTldx h tD xB oO land s
  | .tldw h xD xB oO land => Sys2Proof.Machine.execTldw h xD xB oO land s
  | .tshp h tD xA => Sys2Proof.Machine.execTshp h tD xA s
  | .tshpBound h tD xA hn => Sys2Proof.Machine.execTshpBound h tD xA hn s
  | .tzero h tD => Sys2Proof.Machine.execTzero h tD s
  | .tempty h tD => Sys2Proof.Machine.execTempty h tD s
  | .twarm h xN xB oO lvl => Sys2Proof.Machine.execTwarm h xN xB oO lvl s
  | .xchn h xD xA xC => Sys2Proof.Machine.execXchn h xD xA xC s
  | .twm h xD xC => Sys2Proof.Machine.execTwm h xD xC s
  | .mma h acc a b fs => Sys2Proof.Machine.execMma h acc a b fs s
  | .mmaz h acc a b fs => Sys2Proof.Machine.execMmaz h acc a b fs s
  | .mout h tD acc rm sat => Sys2Proof.Machine.execMout h tD acc rm sat s
  | .mrd h tD acc xD => Sys2Proof.Machine.execMrd h tD acc xD s
  | .mclr h acc => Sys2Proof.Machine.execMclr h acc s
  | .mcop h xA => Sys2Proof.Machine.execMcop h xA s
  | .mfeed h acc a => Sys2Proof.Machine.execMfeed h acc a s
  | .mfmt h lvl => Sys2Proof.Machine.execMfmt h lvl s
  | .vadd h tD tA tB => Sys2Proof.Machine.execVadd h tD tA tB s
  | .vsub h tD tA tB => Sys2Proof.Machine.execVsub h tD tA tB s
  | .vmul h tD tA tB => Sys2Proof.Machine.execVmul h tD tA tB s
  | .vfma h tD tA tB => Sys2Proof.Machine.execVfma h tD tA tB s
  | .vmax h tD tA tB => Sys2Proof.Machine.execVmax h tD tA tB s
  | .vmin h tD tA tB => Sys2Proof.Machine.execVmin h tD tA tB s
  | .vabs h tD tA => Sys2Proof.Machine.execVabs h tD tA s
  | .vneg h tD tA => Sys2Proof.Machine.execVneg h tD tA s
  | .vrcp h tD tA rm sat => Sys2Proof.Machine.execVrcp h tD tA rm sat s
  | .vrsq h tD tA rm sat => Sys2Proof.Machine.execVrsq h tD tA rm sat s
  | .vsqrt h tD tA rm sat => Sys2Proof.Machine.execVsqrt h tD tA rm sat s
  | .vexp2 h tD tA rm sat => Sys2Proof.Machine.execVexp2 h tD tA rm sat s
  | .vlog2 h tD tA rm sat => Sys2Proof.Machine.execVlog2 h tD tA rm sat s
  | .vcvt h tD tA rm sat => Sys2Proof.Machine.execVcvt h tD tA rm sat s
  | .vand h tD tA tB => Sys2Proof.Machine.execVand h tD tA tB s
  | .vor h tD tA tB => Sys2Proof.Machine.execVor h tD tA tB s
  | .vxor h tD tA tB => Sys2Proof.Machine.execVxor h tD tA tB s
  | .vshl h tD tA xB => Sys2Proof.Machine.execVshl h tD tA xB s
  | .vshr h tD tA xB => Sys2Proof.Machine.execVshr h tD tA xB s
  | .vcmp h tD tA tB => Sys2Proof.Machine.execVcmp h tD tA tB s
  | .vsel h tD tA tB => Sys2Proof.Machine.execVsel h tD tA tB s
  | .vmov h tD tA => Sys2Proof.Machine.execVmov h tD tA s
  | .vopx h tD tA fn => Sys2Proof.Machine.execVopx h tD tA fn s
  | .vbc h tD tA => Sys2Proof.Machine.execVbc h tD tA s
  | .vrred h tD tA rm sat op => Sys2Proof.Machine.execVrred h tD tA rm sat op s
  | .vcred h tD tA rm sat op => Sys2Proof.Machine.execVcred h tD tA rm sat op s
  | .vxs h xD tA xB => Sys2Proof.Machine.execVxs h xD tA xB s
  | .vins h tD xA xB => Sys2Proof.Machine.execVins h tD xA xB s
  | .viota h tD xA => Sys2Proof.Machine.execViota h tD xA s
  | .vperm h tD tA tB => Sys2Proof.Machine.execVperm h tD tA tB s
  | .vscan h tD tA rm sat op => Sys2Proof.Machine.execVscan h tD tA rm sat op s
  | .vpart h tD tA nom1 => Sys2Proof.Machine.execVpart h tD tA nom1 s
  | .vclmp h tD tA tB => Sys2Proof.Machine.execVclmp h tD tA tB s
  | .vtrn h tD tA => Sys2Proof.Machine.execVtrn h tD tA s
  | .qthr h tD tA => Sys2Proof.Machine.execQthr h tD tA s
  | .qbis h tD km1 => Sys2Proof.Machine.execQbis h tD km1 s
  | .qsel h tD tA tB => Sys2Proof.Machine.execQsel h tD tA tB s
  | .qscl h tD tA rm sat => Sys2Proof.Machine.execQscl h tD tA rm sat s
  | .qnt h tD tA rm sat => Sys2Proof.Machine.execQnt h tD tA rm sat s
  | .qdq h tD tA => Sys2Proof.Machine.execQdq h tD tA s
  | .qef h tD tA tB => Sys2Proof.Machine.execQef h tD tA tB s
  | .chcfg h c xA => Sys2Proof.Machine.execChcfg h c xA s
  | .chsnd h c tS => Sys2Proof.Machine.execChsnd h c tS s
  | .chadv h c cons => Sys2Proof.Machine.execChadv h c cons s
  | .chst h xD c => Sys2Proof.Machine.execChst h xD c s
  | .vrcfg h xD xA xB => Sys2Proof.Machine.execVrcfg h xD xA xB s
  | .vrrte h xD xA xB => Sys2Proof.Machine.execVrrte h xD xA xB s
  | .vrsct h xD xA xB => Sys2Proof.Machine.execVrsct h xD xA xB s
  | .vrcmb h xD xA xB => Sys2Proof.Machine.execVrcmb h xD xA xB s
  | .vrcnt h xD xA sel => Sys2Proof.Machine.execVrcnt h xD xA sel s
  | .pldef h xD xA xB => Sys2Proof.Machine.execPldef h xD xA xB s
  | .plcnv h xD xA xB => Sys2Proof.Machine.execPlcnv h xD xA xB s
  | .plqry h xD xA sel => Sys2Proof.Machine.execPlqry h xD xA sel s
  | .slbxl h xD xA xB => Sys2Proof.Machine.execSlbxl h xD xA xB s
  | .slbgr h xD xA xB => Sys2Proof.Machine.execSlbgr h xD xA xB s
  | .exacq h xD xA xB => Sys2Proof.Machine.execExacq h xD xA xB s
  | .exrel h xD xA => Sys2Proof.Machine.execExrel h xD xA s
  | .tick h xD => Sys2Proof.Machine.execTick h xD s
  | .destroyComplete c => Sys2Proof.Machine.execDestroyComplete c s
  | .launchReady no => Sys2Proof.Machine.execLaunchReady no s
  | .startTick g => Sys2Proof.Machine.execStartTick g s
  | .sequencerBroadcast g => Sys2Proof.Machine.execSequencerBroadcast g s
  | .bundleIssue core => Sys2Proof.Machine.execBundleIssue core s
  | .saveComplete g => Sys2Proof.Machine.execSaveComplete g s
  | .park g => Sys2Proof.Machine.execPark g s
  | .groupRestore g => Sys2Proof.Machine.execGroupRestore g s
  | .restoreComplete g => Sys2Proof.Machine.execRestoreComplete g s
  | .shadowReplay core => Sys2Proof.Machine.execShadowReplay core s
  | .exposedResultDue core => Sys2Proof.Machine.execExposedResultDue core s
  | .drainComplete g => Sys2Proof.Machine.execDrainComplete g s
  | .drainMarkerReturn path gid => Sys2Proof.Machine.execDrainMarkerReturn path gid s
  | .dispenserGrant core dest => Sys2Proof.Machine.execDispenserGrant core dest s
  | .barrierArrival gid core b tag => Sys2Proof.Machine.execBarrierArrival gid core b tag s
  | .bdclArrival gid core b decl => Sys2Proof.Machine.execBdclArrival gid core b decl s
  | .barrierLanding peer gid core b tag bytes => Sys2Proof.Machine.execBarrierLanding peer gid core b tag bytes s
  | .completionNotice gid inst b => Sys2Proof.Machine.execCompletionNotice gid inst b s
  | .watchdogExpiry gid inst b => Sys2Proof.Machine.execWatchdogExpiry gid inst b s
  | .semaphoreTest core => Sys2Proof.Machine.execSemaphoreTest core s
  | .semaphoreOperation core id => Sys2Proof.Machine.execSemaphoreOperation core id s
  | .monitorWake core => Sys2Proof.Machine.execMonitorWake core s
  | .monitorReread core => Sys2Proof.Machine.execMonitorReread core s
  | .remoteFlagChange gid sender rank f val epoch acq => Sys2Proof.Machine.execRemoteFlagChange gid sender rank f val epoch acq s
  | .loadPerformed core id line => Sys2Proof.Machine.execLoadPerformed core id line s
  | .loadLanding core id => Sys2Proof.Machine.execLoadLanding core id s
  | .storePerformed core id line => Sys2Proof.Machine.execStorePerformed core id line s
  | .wcbAgeDrain die key => Sys2Proof.Machine.execWcbAgeDrain die key s
  | .writeApply home id => Sys2Proof.Machine.execWriteApply home id s
  | .closeMarker home agent closing => Sys2Proof.Machine.execCloseMarker home agent closing s
  | .applyAcknowledgement die id => Sys2Proof.Machine.execApplyAcknowledgement die id s
  | .releaseComplete core id => Sys2Proof.Machine.execReleaseComplete core id s
  | .walkStart die ctx va => Sys2Proof.Machine.execWalkStart die ctx va s
  | .walkComplete die ctx va => Sys2Proof.Machine.execWalkComplete die ctx va s
  | .placement core => Sys2Proof.Machine.execPlacement core s
  | .pieceStart place => Sys2Proof.Machine.execPieceStart place s
  | .pieceComplete id => Sys2Proof.Machine.execPieceComplete id s
  | .kstepComplete core id => Sys2Proof.Machine.execKstepComplete core id s
  | .shadowSwap core => Sys2Proof.Machine.execShadowSwap core s
  | .mmaComplete core id => Sys2Proof.Machine.execMmaComplete core id s
  | .matrixOutputComplete core id => Sys2Proof.Machine.execMatrixOutputComplete core id s
  | .pipeStart core q => Sys2Proof.Machine.execPipeStart core q s
  | .vectorComplete core id => Sys2Proof.Machine.execVectorComplete core id s
  | .tzeroFill core id => Sys2Proof.Machine.execTzeroFill core id s
  | .chcfgEntryArrival core c => Sys2Proof.Machine.execChcfgEntryArrival core c s
  | .channelLanding gid consumer sender c slot shape tag bytes => Sys2Proof.Machine.execChannelLanding gid consumer sender c slot shape tag bytes s
  | .channelCredit peer gid core c => Sys2Proof.Machine.execChannelCredit peer gid core c s
  | .replyArrival core dest => Sys2Proof.Machine.execReplyArrival core dest s
  | .routeOperationRun ctx route => Sys2Proof.Machine.execRouteOperationRun ctx route s
  | .routeOperationComplete ctx route peers => Sys2Proof.Machine.execRouteOperationComplete ctx route peers s
  | .joinTimeout ctx entry seq => Sys2Proof.Machine.execJoinTimeout ctx entry seq s
  | .conversionStageComplete ctx entry peers => Sys2Proof.Machine.execConversionStageComplete ctx entry peers s
  | .collectiveStepComplete id peers => Sys2Proof.Machine.execCollectiveStepComplete id peers s
  | .tsthAtEave core id => Sys2Proof.Machine.execTsthAtEave core id s
  | .transferLinkComplete ch => Sys2Proof.Machine.execTransferLinkComplete ch s
  | .slabChunkCopied ctx k => Sys2Proof.Machine.execSlabChunkCopied ctx k s
  | .expertSlotFilled n => Sys2Proof.Machine.execExpertSlotFilled n s
  | .trainingTimeout l => Sys2Proof.Machine.execTrainingTimeout l s
  | .replayTimeout l => Sys2Proof.Machine.execReplayTimeout l s
  | .replayComplete l => Sys2Proof.Machine.execReplayComplete l s
  | .flitSend l => Sys2Proof.Machine.execFlitSend l s
  | .slotOpen l => Sys2Proof.Machine.execSlotOpen l s
  | .guardEnd l => Sys2Proof.Machine.execGuardEnd l s
  | .slotClose l => Sys2Proof.Machine.execSlotClose l s
  | .tickSend l => Sys2Proof.Machine.execTickSend l s
  | .agewaitExpiry die => Sys2Proof.Machine.execAgewaitExpiry die s
  | .replanPause die => Sys2Proof.Machine.execReplanPause die s
  | .pauseEnd die => Sys2Proof.Machine.execPauseEnd die s
  | .measurement margins temps => Sys2Proof.Machine.execMeasurement margins temps s
  | .powerLoss millivolts micros => Sys2Proof.Machine.execPowerLoss millivolts micros s
  | .overtemperature die temp => Sys2Proof.Machine.execOvertemperature die temp s
  | .laserModuleRemoval gable => Sys2Proof.Machine.execLaserModuleRemoval gable s
  | .laserModuleInsertion gable => Sys2Proof.Machine.execLaserModuleInsertion gable s
  | .initComplete hbmTrained => Sys2Proof.Machine.execInitComplete hbmTrained s
  | .spdmRequest req => Sys2Proof.Machine.execSpdmRequest req s
  | .registerWrite off val => Sys2Proof.Machine.execRegisterWrite off val s
  | .hostMemRead pa len => Sys2Proof.Machine.execHostMemRead pa len s
  | .hostMemWrite pa bytes => Sys2Proof.Machine.execHostMemWrite pa bytes s
  | .create c => Sys2Proof.Machine.execCreate c s
  | .activate c => Sys2Proof.Machine.execActivate c s
  | .suspend c => Sys2Proof.Machine.execSuspend c s
  | .ctxResume c => Sys2Proof.Machine.execCtxResume c s
  | .ctxFence c => Sys2Proof.Machine.execCtxFence c s
  | .destroy c => Sys2Proof.Machine.execDestroy c s
  | .queueEnable q => Sys2Proof.Machine.execQueueEnable q s
  | .queueDisable q => Sys2Proof.Machine.execQueueDisable q s
  | .doorbell q tail => Sys2Proof.Machine.execDoorbell q tail s
  | .launch q => Sys2Proof.Machine.execLaunch q s
  | .collstep q => Sys2Proof.Machine.execCollstep q s
  | .transfer q => Sys2Proof.Machine.execTransfer q s
  | .convert q => Sys2Proof.Machine.execConvert q s
  | .signal q => Sys2Proof.Machine.execSignal q s
  | .waitsem q => Sys2Proof.Machine.execWaitsem q s
  | .tickstart q => Sys2Proof.Machine.execTickstart q s
  | .marker q => Sys2Proof.Machine.execMarker q s
  | .drainMarker path gid => Sys2Proof.Machine.execDrainMarker path gid s
  | .late sptag => Sys2Proof.Machine.execLate sptag s
  | .packageArrival sptag b phase rank => Sys2Proof.Machine.execPackageArrival sptag b phase rank s
  | .join key rank seq axis src dst => Sys2Proof.Machine.execJoin key rank seq axis src dst s
  | .bankRetry core => Sys2Proof.Machine.execBankRetry core s
  | .lnkTrain l => Sys2Proof.Machine.execLnkTrain l s
  | .lnkFence l => Sys2Proof.Machine.execLnkFence l s
  | .lnkDisable l => Sys2Proof.Machine.execLnkDisable l s
  | .trainingDone l locked ident tail => Sys2Proof.Machine.execTrainingDone l locked ident tail s
  | .wavelengthLoss l => Sys2Proof.Machine.execWavelengthLoss l s
  | .nak l flit => Sys2Proof.Machine.execNak l flit s
  | .payload l flit => Sys2Proof.Machine.execPayload l flit s
  | .last l flit => Sys2Proof.Machine.execLast l flit s
  | .idle l flit => Sys2Proof.Machine.execIdle l flit s
  | .tickFlit l flit roundTrip => Sys2Proof.Machine.execTickFlit l flit roundTrip s
  | .slotid l flit => Sys2Proof.Machine.execSlotid l flit s
  | .sltctlWrite l val => Sys2Proof.Machine.execSltctlWrite l val s
  | .crcFailure l => Sys2Proof.Machine.execCrcFailure l s
  | .meshcfgWrite val => Sys2Proof.Machine.execMeshcfgWrite val s
  | .l2qtWrite val => Sys2Proof.Machine.execL2qtWrite val s
  | .excfgWrite val => Sys2Proof.Machine.execExcfgWrite val s
  | .gstaleWrite val => Sys2Proof.Machine.execGstaleWrite val s
  | .invreq val => Sys2Proof.Machine.execInvreq val s
  | .resume val => Sys2Proof.Machine.execResume val s
  | .pkgtelRefresh watts inlet outlet => Sys2Proof.Machine.execPkgtelRefresh watts inlet outlet s
  | .uncorrectableError pa consumer kind => Sys2Proof.Machine.execUncorrectableError pa consumer kind s
  | .coreLogicCheck core => Sys2Proof.Machine.execCoreLogicCheck core s
  | .eaveLogicCheck u => Sys2Proof.Machine.execEaveLogicCheck u s
  | .arrayLogicCheck a => Sys2Proof.Machine.execArrayLogicCheck a s
  | .linkError l => Sys2Proof.Machine.execLinkError l s
  | .coldStart => Sys2Proof.Machine.execColdStart s
  | .boot => Sys2Proof.Machine.execBoot s
  | .imageVerified => Sys2Proof.Machine.execImageVerified s
  | .warmReset => Sys2Proof.Machine.execWarmReset s
  | .functionLevelReset => Sys2Proof.Machine.execFunctionLevelReset s
  | .frontEndStart => Sys2Proof.Machine.execFrontEndStart s
  | .invalidationBegin => Sys2Proof.Machine.execInvalidationBegin s
  | .invalidationComplete => Sys2Proof.Machine.execInvalidationComplete s
  | .meas => Sys2Proof.Machine.execMeas s
  | .correctableError => Sys2Proof.Machine.execCorrectableError s

end Sys2Proof.Machine
end

