-- ==== Sys2Proof/Machine/Step.lean ====
section
/-! DEFINITION. One step of the package: the next slot word, the next due event, what the outside does, or the next
cycle. -/

namespace Sys2Proof.Machine

/-- The outcome of a slot's instruction, with the issue moved past the slot. -/
def pastSlot (c k : Nat) : Out → Out
  | .next s => .next (s.advance c k)
  | .fault r => .fault r
  | .refused r => .refused r

/-- One step (log 2). While a bundle issues, its next slot word is fetched, decoded and executed. Otherwise the first event
due happens; with none due, the outside's next action; with none, the next cycle begins. -/
def step (s : State) : Host.Outcome State Fault Refusal :=
  match s.phase with
  | .slot c k =>
    match decodeSlot (fin8 k) (s.slotWord c k) with
    | .ok i => pastSlot c k (exec i s)
    | .error _ => pastSlot c k (.next (s.trapSlot c k trILLOP))
  | .idle =>
    match s.takeDue with
    | some (i, s') => exec i s'
    | none =>
      match s.takeInput with
      | some (i, s') => exec i s'
      | none => .next s.nextCycle

/-- The bare table word `w` placed as the next slot word to be fetched, in the slot its opcode belongs to (log 2). -/
def State.withFetchWord (s : State) (_nbits w : Nat) : State :=
  match tableSlot w with
  | some k => s.atSlot k.val w
  | none => s.atSlot 0 w

end Sys2Proof.Machine
end

