-- ==== Sys2Proof/Safety.lean ====
section
/-! DEFINITION. The terms claims use: when an instruction executes, what a pending write is, what stays the same, and the
invariants of a state. -/

namespace Sys2Proof

/-- Instructions of slots s, a, m, x and f whose whole effect is a write that falls due later. -/
def Instr.pendingOnly : Instr → Bool
  | .add _ _ _ _ _ | .sub _ _ _ _ _ | .mul _ _ _ _ | .mulh _ _ _ _ | .mulhu _ _ _ _ | .div _ _ _ _ | .divu _ _ _ _
  | .rem _ _ _ _ | .remu _ _ _ _ | .and _ _ _ _ | .or _ _ _ _ | .xor _ _ _ _ | .andn _ _ _ _ | .shl _ _ _ _
  | .shr _ _ _ _ | .sar _ _ _ _ | .min _ _ _ _ | .max _ _ _ _ | .minu _ _ _ _ | .maxu _ _ _ _ | .addi _ _ _ _
  | .andi _ _ _ _ | .ori _ _ _ _ | .xori _ _ _ _ | .shli _ _ _ _ | .shri _ _ _ _ | .sari _ _ _ _ | .li _ _ _
  | .lih _ _ _ | .cmp _ _ _ _ _ _ | .cmpi _ _ _ _ _ _ | .sel _ _ _ _ | .plog _ _ _ _ _ | .clz _ _ _ | .ctz _ _ _
  | .popc _ _ _ | .bfx _ _ _ _ _ | .mfs _ _ _ | .mts _ _ _ | .xidx _ _ _ | .ldp _ _ _ _ | .ldpx _ _ _ _ | .oset _ _ _
  | .oaddi _ _ _ | .ostr _ _ _ _ | .ord _ _ _ | .hget _ _ _ _ | .layer _ | .tshp _ _ _ | .tshpBound _ _ _ _ | .mcop _ _
  | .mfmt _ _ | .chst _ _ _ | .tick _ _ => true
  | _ => false

/-- The header of an instruction that stands in a slot. -/
def Instr.hdr? : Instr → Option Hdr
  | .nop h => some h
  | .br h _ => some h
  | .call h _ => some h
  | .ret h => some h
  | .jmp h _ => some h
  | .loop h _ _ _ _ => some h
  | .loopReg h _ _ _ _ => some h
  | .lbrk h _ => some h
  | .waitFlag h _ _ => some h
  | .waitSem h _ _ => some h
  | .waita h _ _ _ => some h
  | .setf h _ _ _ => some h
  | .clrf h _ _ _ => some h
  | .sadd h _ _ _ => some h
  | .scas h _ _ _ => some h
  | .sxch h _ _ _ => some h
  | .smax h _ _ _ => some h
  | .swge h _ _ _ => some h
  | .srd h _ _ => some h
  | .bdcl h _ _ => some h
  | .barv h _ _ _ => some h
  | .bwt h _ => some h
  | .sstep h _ _ _ => some h
  | .fence h _ _ => some h
  | .trig h => some h
  | .enq h _ _ _ _ => some h
  | .ntile h => some h
  | .layer h => some h
  | .spec h => some h
  | .cmit h => some h
  | .sabt h => some h
  | .trap h _ => some h
  | .exit h => some h
  | .frsm h _ _ _ => some h
  | .tlbi h _ _ _ => some h
  | .add h _ _ _ _ => some h
  | .sub h _ _ _ _ => some h
  | .mul h _ _ _ => some h
  | .mulh h _ _ _ => some h
  | .mulhu h _ _ _ => some h
  | .div h _ _ _ => some h
  | .divu h _ _ _ => some h
  | .rem h _ _ _ => some h
  | .remu h _ _ _ => some h
  | .and h _ _ _ => some h
  | .or h _ _ _ => some h
  | .xor h _ _ _ => some h
  | .andn h _ _ _ => some h
  | .shl h _ _ _ => some h
  | .shr h _ _ _ => some h
  | .sar h _ _ _ => some h
  | .min h _ _ _ => some h
  | .max h _ _ _ => some h
  | .minu h _ _ _ => some h
  | .maxu h _ _ _ => some h
  | .addi h _ _ _ => some h
  | .andi h _ _ _ => some h
  | .ori h _ _ _ => some h
  | .xori h _ _ _ => some h
  | .shli h _ _ _ => some h
  | .shri h _ _ _ => some h
  | .sari h _ _ _ => some h
  | .li h _ _ => some h
  | .lih h _ _ => some h
  | .cmp h _ _ _ _ _ => some h
  | .cmpi h _ _ _ _ _ => some h
  | .sel h _ _ _ => some h
  | .plog h _ _ _ _ => some h
  | .clz h _ _ => some h
  | .ctz h _ _ => some h
  | .popc h _ _ => some h
  | .bfx h _ _ _ _ => some h
  | .mfs h _ _ => some h
  | .mts h _ _ => some h
  | .xidx h _ _ => some h
  | .ldp h _ _ _ => some h
  | .ldpx h _ _ _ => some h
  | .oset h _ _ => some h
  | .oaddi h _ _ => some h
  | .ostr h _ _ _ => some h
  | .ord h _ _ => some h
  | .brx h _ => some h
  | .hset h _ _ _ => some h
  | .hget h _ _ _ => some h
  | .hcpy h _ _ => some h
  | .tld h _ _ _ _ _ => some h
  | .tst h _ _ _ => some h
  | .tldh h _ _ _ _ _ => some h
  | .tsth h _ _ _ => some h
  | .tldg h _ _ _ _ => some h
  | .tsts h _ _ _ => some h
  | .tldx h _ _ _ _ => some h
  | .tldw h _ _ _ _ => some h
  | .tshp h _ _ => some h
  | .tshpBound h _ _ _ => some h
  | .tzero h _ => some h
  | .tempty h _ => some h
  | .twarm h _ _ _ _ => some h
  | .xchn h _ _ _ => some h
  | .twm h _ _ => some h
  | .mma h _ _ _ _ => some h
  | .mmaz h _ _ _ _ => some h
  | .mout h _ _ _ _ => some h
  | .mrd h _ _ _ => some h
  | .mclr h _ => some h
  | .mcop h _ => some h
  | .mfeed h _ _ => some h
  | .mfmt h _ => some h
  | .vadd h _ _ _ => some h
  | .vsub h _ _ _ => some h
  | .vmul h _ _ _ => some h
  | .vfma h _ _ _ => some h
  | .vmax h _ _ _ => some h
  | .vmin h _ _ _ => some h
  | .vabs h _ _ => some h
  | .vneg h _ _ => some h
  | .vrcp h _ _ _ _ => some h
  | .vrsq h _ _ _ _ => some h
  | .vsqrt h _ _ _ _ => some h
  | .vexp2 h _ _ _ _ => some h
  | .vlog2 h _ _ _ _ => some h
  | .vcvt h _ _ _ _ => some h
  | .vand h _ _ _ => some h
  | .vor h _ _ _ => some h
  | .vxor h _ _ _ => some h
  | .vshl h _ _ _ => some h
  | .vshr h _ _ _ => some h
  | .vcmp h _ _ _ => some h
  | .vsel h _ _ _ => some h
  | .vmov h _ _ => some h
  | .vopx h _ _ _ => some h
  | .vbc h _ _ => some h
  | .vrred h _ _ _ _ _ => some h
  | .vcred h _ _ _ _ _ => some h
  | .vxs h _ _ _ => some h
  | .vins h _ _ _ => some h
  | .viota h _ _ => some h
  | .vperm h _ _ _ => some h
  | .vscan h _ _ _ _ _ => some h
  | .vpart h _ _ _ => some h
  | .vclmp h _ _ _ => some h
  | .vtrn h _ _ => some h
  | .qthr h _ _ => some h
  | .qbis h _ _ => some h
  | .qsel h _ _ _ => some h
  | .qscl h _ _ _ _ => some h
  | .qnt h _ _ _ _ => some h
  | .qdq h _ _ => some h
  | .qef h _ _ _ => some h
  | .chcfg h _ _ => some h
  | .chsnd h _ _ => some h
  | .chadv h _ _ => some h
  | .chst h _ _ => some h
  | .vrcfg h _ _ _ => some h
  | .vrrte h _ _ _ => some h
  | .vrsct h _ _ _ => some h
  | .vrcmb h _ _ _ => some h
  | .vrcnt h _ _ _ => some h
  | .pldef h _ _ _ => some h
  | .plcnv h _ _ _ => some h
  | .plqry h _ _ _ => some h
  | .slbxl h _ _ _ => some h
  | .slbgr h _ _ _ => some h
  | .exacq h _ _ _ => some h
  | .exrel h _ _ => some h
  | .tick h _ => some h
  | _ => none

end Sys2Proof

namespace Sys2Proof.Machine

/-! ### When an instruction executes -/

/-- The instruction with header `h` executes in the issuing core: its predicate holds (14 R222), and the traps and freezes of its
bundle have been tested and none is listed for its slot (14 R247, R445). -/
def State.Runs (s : State) (h : Hdr) : Prop :=
  (s.core s.issuer).holds s.issuer h = true ∧ (s.core s.issuer).bctx.ready = true ∧
    ∀ t ∈ (s.core s.issuer).bctx.traps, t.1 ≠ h.slot.val

/-- The core that issues. -/
def State.here (s : State) : Core := s.core s.issuer

/-- The issuing core changed; nothing else of the package is. -/
def State.setHere (s : State) (k : Core) : State := s.setCore s.issuer k

/-- What a write of the instruction in slot `slot` is while it is pending: due `lat` bundles after its own, after every earlier slot's
(14 R231), with the events it logs as it is applied. -/
def State.pendAt (s : State) (slot lat : Nat) (w : PWrite) (evs : List Nat) : Pend :=
  ⟨s.here.lcyc + lat, 8 * s.here.lcyc + slot, s.bundleAddr s.issuer, w, true, 0, evs⟩

/-- The state in which one more write of the issuing core is pending. -/
def State.addPend (s : State) (p : Pend) : State := s.setHere { s.here with pend := s.here.pend ++ [p] }

/-- A scalar result: `v` due in `xD` after `lat` bundles. -/
def State.result (s : State) (h : Hdr) (lat : Nat) (xD : XReg) (v : Word) (evs : List Nat) : State :=
  s.addPend (s.pendAt h.slot.val lat (.x xD.val v) evs)

/-- The next state's core: the issuing core of `s` as it stands in `t`. -/
def State.hereIn (s t : State) : Core := t.core s.issuer

/-- Nothing of the host's holds a command at its port: its writes have been applied, and no register write waits there (30 R444). -/
def State.PortClear (s : State) : Prop :=
  s.hostWaits = false ∧ ∀ e ∈ s.agenda, ∀ off v, e.2 = .registerWrite off v → e.1 ≤ s.now

/-! ### What stays the same -/

/-- Everything of the package outside its cores is as it was: memory, dies, agents, stamps and writes on their way, contexts, queues,
groups, the ridge, links, device registers, the clock and the agenda. -/
def State.SameOutside (s t : State) : Prop :=
  t.mem = s.mem ∧ t.dies = s.dies ∧ t.agents = s.agents ∧ t.stamps = s.stamps ∧ t.flights = s.flights ∧ t.ctxs = s.ctxs ∧
  t.queues = s.queues ∧ t.grps = s.grps ∧ t.ridge = s.ridge ∧ t.links = s.links ∧ t.regs = s.regs ∧ t.now = s.now ∧
  t.ftick = s.ftick ∧ t.agenda = s.agenda ∧ t.inputs = s.inputs ∧ t.nextId = s.nextId ∧ t.freeCtr = s.freeCtr

/-- The registers of a core: scalar, predicate, offset and stride registers, handles, shapes, accumulators, special registers,
the event log, and the tiles with the state of their lines. -/
def Core.SameRegs (k l : Core) : Prop :=
  l.x = k.x ∧ l.p = k.p ∧ l.o = k.o ∧ l.stride = k.stride ∧ l.h = k.h ∧ l.shapes = k.shapes ∧ l.acc = k.acc ∧
  l.trf = k.trf ∧ l.lines = k.lines ∧ l.gid = k.gid ∧ l.lcyc = k.lcyc ∧ l.dsel = k.dsel ∧ l.csel = k.csel ∧
  l.fela = k.fela ∧ l.fels = k.fels ∧ l.numv = k.numv ∧ l.rbnd = k.rbnd ∧ l.clayer = k.clayer ∧ l.nlayer = k.nlayer ∧
  l.fmtb = k.fmtb ∧ l.seed = k.seed ∧ l.ld = k.ld ∧ l.halo = k.halo ∧ l.dom = k.dom ∧ l.flags = k.flags ∧
  l.mcopr = k.mcopr ∧ l.fl = k.fl ∧ l.fmtTab = k.fmtTab

/-! ### Invariants -/

/-- Memory is in canonical form. -/
def State.MemOk (s : State) : Prop := s.mem.wf = true

/-- Memory is in canonical form after an outcome, when that is a next state. -/
def OutMemOk : Out → Prop
  | .next t => t.MemOk
  | _ => True

end Sys2Proof.Machine
end

