-- ==== Sys2Proof/Certificates/Slice0/Obligations.lean ====
section
/-! DEFINITION. Statements about the machine, for the provers. -/

open Sys2Proof Sys2Proof.Machine Sys2Proof.Bits

/-! ### Decoding and the step -/

/-- Words written out from the encoding tables of ch. 14, one per slot family, decode to the instruction they stand for. -/
def Obligations.SampleWordsDecode : Prop :=
  -- c: ENQ.hi x5, x6, t40 (OP 0x17: xD 20:15, xQ 14:9, tS 8:2, HALF 1)
  decodeSlot 0 0x5C028CA2 = .ok (.enq ⟨0, 0, false⟩ 5 6 40 true) ∧
  -- c: FENCE.rel.device (OP 0x15: SCOPE 20:19 = 2, ORD 18:17 = 1)
  decodeSlot 0 0x54120000 = .ok (.fence ⟨0, 0, false⟩ .rel .device) ∧
  -- s: ADD x3, x4, x5 under p2 negated (OP 0x01, PR 25:22 = 2, PN 21 = 1)
  decodeSlot 1 (0x01 * 2 ^ 26 + 2 * 2 ^ 22 + 2 ^ 21 + 3 * 2 ^ 15 + 4 * 2 ^ 9 + 5 * 2 ^ 3) = .ok (.add ⟨1, 2, true⟩ 3 4 5 .wrap) ∧
  -- a: OSTR o1, 0, x16 (OP 0x32: oD 20:17, LVL 16:14, xA 13:8)
  decodeSlot 2 (0x32 * 2 ^ 26 + 1 * 2 ^ 17 + 16 * 2 ^ 8) = .ok (.ostr ⟨2, 0, false⟩ 1 0 16) ∧
  -- m: TLD t32, [x15 + o2], landing code 3 (OP 0x01: tD 20:14, xB 13:8, oO 7:4, BYP 3, LAND 2:0)
  decodeSlot 3 (0x01 * 2 ^ 26 + 32 * 2 ^ 14 + 15 * 2 ^ 8 + 2 * 2 ^ 4 + 3) = .ok (.tld ⟨3, 0, false⟩ 32 15 2 false 3) ∧
  -- x: MCLR acc2 (OP 0x05: acc 20:19)
  decodeSlot 4 (0x05 * 2 ^ 26 + 2 * 2 ^ 19) = .ok (.mclr ⟨4, 0, false⟩ 2) ∧
  -- v: VADD t1, t2, t3 (OP 0x01: tD 20:14, tA 13:7, tB 6:0)
  decodeSlot 5 (0x01 * 2 ^ 26 + 1 * 2 ^ 14 + 2 * 2 ^ 7 + 3) = .ok (.vadd ⟨5, 0, false⟩ 1 2 3) ∧
  -- q: QBIS t4, K = 3 (OP 0x31: tD 20:14, K - 1 13:11)
  decodeSlot 6 (0x31 * 2 ^ 26 + 4 * 2 ^ 14 + 2 * 2 ^ 11) = .ok (.qbis ⟨6, 0, false⟩ 4 2) ∧
  -- f: TICK x7 (OP 0x11: xD 20:15)
  decodeSlot 7 (0x11 * 2 ^ 26 + 7 * 2 ^ 15) = .ok (.tick ⟨7, 0, false⟩ 7) ∧
  -- an unassigned opcode, a set reserved bit and a value outside its range are no instruction
  decodeSlot 0 (0x1F * 2 ^ 26) = .error .unassigned ∧ decodeSlot 4 1 = .error .reserved ∧
  decodeSlot 2 (0x32 * 2 ^ 26 + 6 * 2 ^ 14) = .error .range

/-- Decode and encode agree: a well-formed instruction that has a word is what its slot decodes from that word. -/
def Obligations.EncodedInstructionDecodesBack : Prop :=
  ∀ (i : Instr) (w : Nat), i.wf = true → encode i = some w →
    ∃ k, i.slot? = some k ∧ w < 2 ^ 32 ∧ decodeSlot k w = .ok i

/-- Every well-formed instruction that stands in a slot has a word, so the round trip leaves none out. -/
def Obligations.EverySlotInstructionHasAWord : Prop :=
  ∀ i : Instr, i.wf = true → ((∃ k, i.slot? = some k) ↔ ∃ w, encode i = some w)

/-- No two words of a slot stand for one instruction: a word that decodes is the word its instruction encodes to, so every reserved
field of it is zero. -/
def Obligations.DecodedWordIsTheEncodedOne : Prop :=
  ∀ (k : Fin 8) (w : Nat) (i : Instr), w < 2 ^ 32 → decodeSlot k w = .ok i → encode i = some w ∧ i.slot? = some k ∧ i.wf = true

/-- A step runs the decoded instruction: while slot `k` of the bundle of core `c` is due, the step is `exec` of what the slot's word
decodes to, followed by moving past the slot.
Beyond the words of the rules it rests on readings of the model's own: log 2. -/
def Obligations.StepRunsTheDecodedInstruction : Prop :=
  ∀ (s : State) (c : Nat) (k : Fin 8) (i : Instr), s.phase = .slot c k.val → decodeSlot k (s.slotWord c k.val) = .ok i →
    (∀ t, exec i s = .next t → step s = .next (t.advance c k.val)) ∧
    (∀ t : State, t.phase = .slot c k.val → k.val < 7 → t.advance c k.val = { t with phase := .slot c (k.val + 1) }) ∧
    (∀ t : State, t.phase = .slot c k.val → k.val = 7 → t.advance c k.val = t.finishBundle c) ∧
    (∀ t : State, t.phase ≠ .slot c k.val → t.advance c k.val = t)

/-- With no bundle issuing, a step is the first event due, else what the outside does next, else the next cycle (a reading of the
model's own: log 2). -/
def Obligations.StepOutsideABundle : Prop :=
  ∀ s : State, s.phase = .idle →
    (∀ t i rest, s.agenda = (t, i) :: rest → t ≤ s.now → step s = exec i { s with agenda := rest }) ∧
    ((∀ t i rest, s.agenda = (t, i) :: rest → s.now < t) → ∀ i rest, s.inputs = i :: rest →
      step s = exec i { s with inputs := rest }) ∧
    ((∀ t i rest, s.agenda = (t, i) :: rest → s.now < t) → s.inputs = [] → step s = .next s.nextCycle)

/-! ### Slots s and a: values -/

/-- ADD and SUB: one bundle on, `xD` takes the sum or difference wrapped, or clamped to the signed or unsigned range with SAT logged when
the clamp changed it; FN 3 to 7 are no instruction. -/
def Obligations.AddAndSubResults : Prop :=
  (∀ (k : Fin 8) (w : Nat) (i : Instr), k = 1 ∨ k = 2 → w / 2 ^ 26 = 1 ∨ w / 2 ^ 26 = 2 → 2 < w % 8 → decodeSlot k w ≠ .ok i) ∧
  ∀ (s : State) (h : Hdr) (xD xA xB : XReg), s.Runs h →
    let a := s.here.rx xA
    let b := s.here.rx xB
    exec (.add h xD xA xB .wrap) s = .next (s.result h 1 xD (a + b) []) ∧
    exec (.sub h xD xA xB .wrap) s = .next (s.result h 1 xD (a - b) []) ∧
    exec (.add h xD xA xB .sats) s = .next (
      if a.toInt + b.toInt < -(2 ^ 63) then s.result h 1 xD 0x8000000000000000 [0x05]
      else if 2 ^ 63 - 1 < a.toInt + b.toInt then s.result h 1 xD 0x7FFFFFFFFFFFFFFF [0x05]
      else s.result h 1 xD (a + b) []) ∧
    exec (.sub h xD xA xB .sats) s = .next (
      if a.toInt - b.toInt < -(2 ^ 63) then s.result h 1 xD 0x8000000000000000 [0x05]
      else if 2 ^ 63 - 1 < a.toInt - b.toInt then s.result h 1 xD 0x7FFFFFFFFFFFFFFF [0x05]
      else s.result h 1 xD (a - b) []) ∧
    exec (.add h xD xA xB .satu) s = .next (
      if 2 ^ 64 ≤ a.toNat + b.toNat then s.result h 1 xD 0xFFFFFFFFFFFFFFFF [0x05] else s.result h 1 xD (a + b) []) ∧
    exec (.sub h xD xA xB .satu) s = .next (
      if a.toNat < b.toNat then s.result h 1 xD 0 [0x05] else s.result h 1 xD (a - b) [])

/-- MUL, MULH and MULHU: three bundles on, the low or high half of the product. -/
def Obligations.MultiplyResults : Prop :=
  ∀ (s : State) (h : Hdr) (xD xA xB : XReg), s.Runs h →
    let a := s.here.rx xA
    let b := s.here.rx xB
    exec (.mul h xD xA xB) s = .next (s.result h 3 xD (a * b) []) ∧
    exec (.mulh h xD xA xB) s = .next (s.result h 3 xD (BitVec.ofInt 64 (a.toInt * b.toInt / 2 ^ 64)) []) ∧
    exec (.mulhu h xD xA xB) s = .next (s.result h 3 xD (BitVec.ofNat 64 (a.toNat * b.toNat / 2 ^ 64)) [])

/-- DIV, DIVU, REM and REMU: 34 bundles on; the quotient truncates, the remainder has the dividend's sign, a divisor of 0 gives all
ones and the dividend and logs IDZ, and the most negative value over -1 gives itself and 0. -/
def Obligations.DivideResults : Prop :=
  ∀ (s : State) (h : Hdr) (xD xA xB : XReg), s.Runs h →
    let a := s.here.rx xA
    let b := s.here.rx xB
    (b = 0 →
      exec (.div h xD xA xB) s = .next (s.result h 34 xD 0xFFFFFFFFFFFFFFFF [0x11]) ∧
      exec (.divu h xD xA xB) s = .next (s.result h 34 xD 0xFFFFFFFFFFFFFFFF [0x11]) ∧
      exec (.rem h xD xA xB) s = .next (s.result h 34 xD a [0x11]) ∧
      exec (.remu h xD xA xB) s = .next (s.result h 34 xD a [0x11])) ∧
    (b ≠ 0 →
      exec (.div h xD xA xB) s = .next (s.result h 34 xD (a.sdiv b) []) ∧
      exec (.divu h xD xA xB) s = .next (s.result h 34 xD (a / b) []) ∧
      exec (.rem h xD xA xB) s = .next (s.result h 34 xD (a.srem b) []) ∧
      exec (.remu h xD xA xB) s = .next (s.result h 34 xD (a % b) [])) ∧
    (a = 0x8000000000000000 → b = 0xFFFFFFFFFFFFFFFF →
      exec (.div h xD xA xB) s = .next (s.result h 34 xD a []) ∧ exec (.rem h xD xA xB) s = .next (s.result h 34 xD 0 []))

/-- AND, OR, XOR, ANDN, the shifts by the low six bits of xB, and MIN, MAX, MINU, MAXU: one bundle on. -/
def Obligations.LogicShiftAndOrderResults : Prop :=
  ∀ (s : State) (h : Hdr) (xD xA xB : XReg), s.Runs h →
    let a := s.here.rx xA
    let b := s.here.rx xB
    exec (.and h xD xA xB) s = .next (s.result h 1 xD (a &&& b) []) ∧
    exec (.or h xD xA xB) s = .next (s.result h 1 xD (a ||| b) []) ∧
    exec (.xor h xD xA xB) s = .next (s.result h 1 xD (a ^^^ b) []) ∧
    exec (.andn h xD xA xB) s = .next (s.result h 1 xD (a &&& ~~~b) []) ∧
    exec (.shl h xD xA xB) s = .next (s.result h 1 xD (a <<< (b.toNat % 64)) []) ∧
    exec (.shr h xD xA xB) s = .next (s.result h 1 xD (a >>> (b.toNat % 64)) []) ∧
    exec (.sar h xD xA xB) s = .next (s.result h 1 xD (a.sshiftRight (b.toNat % 64)) []) ∧
    exec (.min h xD xA xB) s = .next (s.result h 1 xD (if a.toInt ≤ b.toInt then a else b) []) ∧
    exec (.max h xD xA xB) s = .next (s.result h 1 xD (if a.toInt ≤ b.toInt then b else a) []) ∧
    exec (.minu h xD xA xB) s = .next (s.result h 1 xD (if a.toNat ≤ b.toNat then a else b) []) ∧
    exec (.maxu h xD xA xB) s = .next (s.result h 1 xD (if a.toNat ≤ b.toNat then b else a) [])

/-- The immediate forms: the nine-bit immediate sign-extended, a shift count of 0 to 63 and no instruction with a count outside that,
LI's fifteen bits sign-extended, LIH's appended to what xD held. -/
def Obligations.ImmediateResults : Prop :=
  (∀ (k : Fin 8) (w : Nat) (i : Instr), k = 1 ∨ k = 2 → 0x19 ≤ w / 2 ^ 26 → w / 2 ^ 26 ≤ 0x1B → 63 < w % 2 ^ 9 → decodeSlot k w ≠ .ok i) ∧
  ∀ (s : State) (h : Hdr) (xD xA : XReg) (imm : BitVec 9) (long : BitVec 15), s.Runs h →
    let a := s.here.rx xA
    exec (.addi h xD xA imm) s = .next (s.result h 1 xD (a + imm.signExtend 64) []) ∧
    exec (.andi h xD xA imm) s = .next (s.result h 1 xD (a &&& imm.signExtend 64) []) ∧
    exec (.ori h xD xA imm) s = .next (s.result h 1 xD (a ||| imm.signExtend 64) []) ∧
    exec (.xori h xD xA imm) s = .next (s.result h 1 xD (a ^^^ imm.signExtend 64) []) ∧
    exec (.shli h xD xA imm) s = .next (s.result h 1 xD (a <<< imm.toNat) []) ∧
    exec (.shri h xD xA imm) s = .next (s.result h 1 xD (a >>> imm.toNat) []) ∧
    exec (.sari h xD xA imm) s = .next (s.result h 1 xD (a.sshiftRight imm.toNat) []) ∧
    exec (.li h xD long) s = .next (s.result h 1 xD (long.signExtend 64) []) ∧
    exec (.lih h xD long) s = .next (s.result h 1 xD (s.here.rx xD <<< 15 ||| long.zeroExtend 64) [])

/-- CLZ, CTZ, POPC and BFX. The counts are said by what they count: the bits above the highest set bit, those below the lowest, and the
set bits; a word of a count with a bit set in its reserved fields is no instruction. -/
def Obligations.BitCountAndFieldResults : Prop :=
  (∀ (k : Fin 8) (w : Nat) (i : Instr), k = 1 ∨ k = 2 → 0x22 ≤ w / 2 ^ 26 → w / 2 ^ 26 ≤ 0x24 → w % 2 ^ 9 ≠ 0 → decodeSlot k w ≠ .ok i) ∧
  ∀ (s : State) (h : Hdr) (xD xA xB : XReg) (sx : Bool), s.Runs h →
    let a := s.here.rx xA
    let b := s.here.rx xB
    let lo := b.toNat % 64
    let n := b.toNat / 2 ^ 8 % 2 ^ 7
    (∃ z, exec (.clz h xD xA) s = .next (s.result h 1 xD (BitVec.ofNat 64 z) []) ∧ z ≤ 64 ∧ a.toNat < 2 ^ (64 - z) ∧
      (z < 64 → 2 ^ (63 - z) ≤ a.toNat)) ∧
    (∃ z, exec (.ctz h xD xA) s = .next (s.result h 1 xD (BitVec.ofNat 64 z) []) ∧ z ≤ 64 ∧ a.toNat % 2 ^ z = 0 ∧
      (z < 64 → a.getLsbD z = true)) ∧
    exec (.popc h xD xA) s = .next (s.result h 1 xD (BitVec.ofNat 64 ((List.range 64).countP fun i => a.getLsbD i)) []) ∧
    (n = 0 ∨ 64 < n → exec (.bfx h xD xA xB sx) s = .next (s.result h 1 xD 0 [])) ∧
    (1 ≤ n ∧ n ≤ 64 →
      exec (.bfx h xD xA xB false) s = .next (s.result h 1 xD (BitVec.ofNat 64 (a.toNat / 2 ^ lo % 2 ^ n)) []) ∧
      exec (.bfx h xD xA xB true) s = .next (s.result h 1 xD (((a >>> lo).truncate n).signExtend 64) []))

/-- SEL always executes: the header's predicate chooses xA or xB; and XIDX reads the index of an open loop level, else 0. -/
def Obligations.SelectAndIndexResults : Prop :=
  ∀ (s : State) (h : Hdr) (xD xA xB : XReg) (lvl : LevelF),
    (s.here.holds s.issuer h = true → exec (.sel h xD xA xB) s = .next (s.result h 1 xD (s.here.rx xA) [])) ∧
    (s.here.holds s.issuer h = false → exec (.sel h xD xA xB) s = .next (s.result h 1 xD (s.here.rx xB) [])) ∧
    (s.Runs h → ∀ l, s.here.stack.reverse[lvl.val]? = some l →
      exec (.xidx h xD lvl) s = .next (s.result h 1 xD (BitVec.ofNat 64 l.index) [])) ∧
    (s.Runs h → s.here.stack.length ≤ lvl.val → exec (.xidx h xD lvl) s = .next (s.result h 1 xD 0 []))

/-- CMP, CMPI and PLOG: the condition, combined with the old predicate, is due one bundle on; a predicate that is fixed discards it. -/
def Obligations.PredicateResults : Prop :=
  ∀ (s : State) (h : Hdr) (pD pA pB : PReg) (xA xB : XReg) (imm : BitVec 6) (cond : Cond) (comb : Comb) (tt : BitVec 4), s.Runs h →
    let a := s.here.rx xA
    let old := s.here.rp s.issuer pD
    let holds := fun (b : Word) => match cond with
      | .eq => decide (a = b)
      | .ne => decide (a ≠ b)
      | .lt => decide (a.toInt < b.toInt)
      | .ge => decide (b.toInt ≤ a.toInt)
      | .ltu => decide (a.toNat < b.toNat)
      | .geu => decide (b.toNat ≤ a.toNat)
      | .bset => decide (a &&& b ≠ 0)
      | .bclr => decide (a &&& b = 0)
    let put := fun (c : Bool) => s.addPend (s.pendAt h.slot.val 1 (.p pD.val (match comb with
      | .set => c
      | .and => old && c
      | .or => old || c
      | .xor => xor old c)) [])
    exec (.cmp h pD xA xB cond comb) s = .next (put (holds (s.here.rx xB))) ∧
    exec (.cmpi h pD xA imm cond comb) s = .next (put (holds (imm.signExtend 64))) ∧
    exec (.plog h pD pA pB tt) s = .next (s.addPend (s.pendAt h.slot.val 1 (.p pD.val
      (tt.getLsbD (2 * (s.here.rp s.issuer pA).toNat + (s.here.rp s.issuer pB).toNat))) [])) ∧
    (pD.val = 0 ∨ 12 ≤ pD.val → ∀ (k : Core) (b : Bool), k.apply (.p pD.val b) = k)

/-- Special registers, parameter windows, the fabric tick and channel status as scalar results: MFS two bundles on, LDP and LDPX four
and a window's bytes past its end reading as zero
with PWBND logged, TICK eight, CHST two; MTS writes for the bundles after its own. -/
def Obligations.SpecialRegisterResults : Prop :=
  ∀ (s : State) (h : Hdr) (xD xA : XReg) (num : Fin 1024) (w : Fin 8) (imm : Fin 4096) (n : CReg), s.Runs h →
    let win := s.window s.issuer w.val
    let at_ := (s.here.rx xA).toNat / 8 * 8
    exec (.mfs h xD num) s = .next (s.result h 2 xD (s.here.rspr s.issuer num.val) []) ∧
    exec (.mts h xA num) s = .next (s.addPend (s.pendAt h.slot.val 1 (.spr num.val (s.here.rx xA)) [])) ∧
    let read := fun (off : Nat) => leWord (((win.drop off).take 8 ++ List.replicate 8 0).take 8)
    let past := fun (off : Nat) => if win.length < off + 8 then [0x08] else ([] : List Nat)
    exec (.ldp h xD w imm) s = .next (s.result h 4 xD (read (8 * imm.val)) (past (8 * imm.val))) ∧
    exec (.ldpx h xD w xA) s = .next (s.result h 4 xD (read at_) (past at_)) ∧
    exec (.tick h xD) s = .next (s.result h 8 xD (BitVec.ofNat 64 s.ftick) []) ∧
    exec (.chst h xD n) s = .next (s.result h 2 xD (s.here.chStatus n.val) [])

/-- Offset registers, strides, handles, CLAYER and the shape, stride and coprocessor writes of slots a, m and x. -/
def Obligations.OffsetHandleAndShapeWrites : Prop :=
  ∀ (s : State) (h : Hdr) (xD xA : XReg) (oD : OReg) (imm : BitVec 17) (lvl : LevelF) (hD hA : HReg) (sel : Fin 16) (tD : TReg), s.Runs h →
    let a := s.here.rx xA
    let put := fun (lat : Nat) (w : PWrite) => s.addPend (s.pendAt h.slot.val lat w [])
    exec (.oset h oD xA) s = .next (put 1 (.o oD.val a)) ∧
    exec (.oaddi h oD imm) s = .next (put 1 (.o oD.val (s.here.o.get oD + imm.signExtend 64))) ∧
    exec (.ostr h oD lvl xA) s = .next (put 1 (.stride oD.val lvl.val a)) ∧
    exec (.ord h xD oD) s = .next (s.result h 2 xD (s.here.o.get oD) []) ∧
    (sel.val ≠ 13 → exec (.hset h hD xA sel) s = .next (put 1 (.hnd hD.val sel.val a))) ∧
    exec (.hget h xD hA sel) s = .next (s.result h 2 xD (hfieldGet (s.here.hwords hA.val) sel.val) []) ∧
    exec (.layer h) s = .next (put 1 .layer) ∧
    exec (.tshp h tD xA) s = .next (put 1 (.shape tD.val (shapeOf a).word 0)) ∧
    exec (.tshpBound h tD xA hD) s = .next (put 1 (.shape tD.val (shapeOf a).word (BitVec.ofNat 64 (2 ^ 63 + hD.val)))) ∧
    exec (.mcop h xA) s = .next (put 1 (.spr 0x021 a)) ∧
    exec (.mfmt h lvl) s = .next (put 1 (.fl lvl.val))

/-- HCPY, and HSET of VER: the write is due one bundle on, and overrules the version writes that earlier enforced loads and placed
operations still owe the handle, unless the bundle's SABT undoes it. -/
def Obligations.HandleCopyOverrulesVersionWrites : Prop :=
  ∀ (s : State) (h : Hdr) (xA : XReg) (hD hA : HReg), s.Runs h →
    let k := s.here
    let owed := if k.bctx.sabt = true then s else s.setHere { k with
      pend := k.pend.filter (fun p => match p.w with
        | .ver m _ => m != hD.val
        | _ => true),
      memq := k.memq.map (MemOp.mute fun n => n == hD.val) }
    exec (.hcpy h hD hA) s = .next (owed.addPend (s.pendAt h.slot.val 1 (.hcopy hD.val (k.hwords hA.val)) [])) ∧
    exec (.hset h hD xA 13) s = .next (owed.addPend (s.pendAt h.slot.val 1 (.hnd hD.val 13 (k.rx xA)) [])) ∧
    s.SameOutside owed ∧ s.here.SameRegs (s.hereIn owed) ∧ ∀ d, d ≠ s.issuer → owed.core d = s.core d

/-- The frame of the instructions whose whole effect is a pending write: whenever one answers a next state, every byte of memory reads as
before, every other core and everything outside the cores is as it was (but for what a wait would start, of which they have none),
and the issuing core keeps every register until the write falls due. -/
def Obligations.PendingWriteFrame : Prop :=
  ∀ (i : Instr) (s t : State), i.pendingOnly = true → exec i s = .next t →
    (∀ a, t.mem.read1 a = s.mem.read1 a) ∧ s.SameOutside t ∧ (∀ d, d ≠ s.issuer → t.core d = s.core d) ∧
    s.here.SameRegs (s.hereIn t) ∧ (s.hereIn t).memq = s.here.memq ∧ (s.hereIn t).jobs = s.here.jobs ∧
    ((s.hereIn t).pend = s.here.pend ∨ ∃ p, (s.hereIn t).pend = s.here.pend ++ [p] ∧ s.here.lcyc < p.due)

/-! ### Slot c -/

/-- Branches ask the sequencer for their target, in the place of their slot; in a delay bundle a branch does nothing but log DSLOT. CALL
also leaves the bundle after its delay bundle in x63. LOOP by register clamps its count to 0 .. 1,048,575. -/
def Obligations.BranchResults : Prop :=
  ∀ (s : State) (h : Hdr) (disp : BitVec 21) (target : Fin 8192) (l p : Bool) (count : Fin 1024) (len : Fin 256) (xN : XReg)
    (n : Fin 8), s.Runs h →
    let k := s.here
    let delay := ((k.skid.head?).map (·.delay)).getD false
    let pc := ((k.skid.head?).map (·.pc)).getD 0
    let asked := fun (a : BrAct) =>
      if delay then s.setHere (k.logCode (k.posAt h.slot.val) (s.bundleAddr s.issuer) 0x09)
      else s.setHere { k with bctx := if h.slot.val = 2 then { k.bctx with brx := a } else { k.bctx with br := a } }
    let clamped := (max 0 (min (k.rx xN).toInt 1048575)).toNat
    exec (.br h disp) s = .next (asked (.rel disp.toInt)) ∧
    exec (.brx h disp) s = .next (asked (.rel disp.toInt)) ∧
    exec (.call h disp) s = .next (if delay then asked (.call disp.toInt)
      else (asked (.call disp.toInt)).addPend (s.pendAt h.slot.val 1 (.x 63 (BitVec.ofNat 64 (pc + 2))) [])) ∧
    exec (.ret h) s = .next (asked (.ret (k.rx 63).toNat)) ∧
    exec (.jmp h target) s = .next (asked (.jmp target.val)) ∧
    exec (.loop h l p count len) s = .next (asked (.loop l p count.val len.val)) ∧
    exec (.loopReg h l p xN len) s = .next (asked (.loop l p clamped len.val)) ∧
    exec (.lbrk h n) s = .next (asked (.lbrk n.val))

/-- NOP does nothing; a WAIT whose condition holds goes on, and takes back what it waits with. SETF and CLRF of the own core are due one
bundle on; those of another member are a request to the member of rank xC, which reaches it 16 cycles on in the cluster and 40 beyond
it; a rank that no member has does nothing.
Beyond the words of the rules it rests on readings of the model's own: log 11. -/
def Obligations.WaitAndFlagResults : Prop :=
  ((∀ (s : State) (h : Hdr), exec (.nop h) s = .next s) ∧
  ∀ (s : State) (h : Hdr) (f : Fin 32) (clear : Bool) (xS xT : XReg) (cond : WaitCond), s.Runs h →
    exec (.waitFlag h f clear) s = .next s ∧
    exec (.waitSem h xS xT) s =
      .next { s with ridge := { s.ridge with semw := s.ridge.semw.filter fun w => w.core != s.issuer } } ∧
    exec (.waita h xS xT cond) s = .next (s.setHere { s.here with waitT := none })) ∧
  (∀ (s : State) (h : Hdr) (f : Fin 32) (xC : XReg), s.Runs h →
    let rank := (s.here.rx xC).toNat
    let send := fun (v : Bool) (m : Nat) => s.ask s.issuer h.slot.val (.flag rank f.val v) (if m / 8 = s.issuer / 8 then 16 else 40) none 0
    exec (.setf h f xC false) s = .next (s.addPend (s.pendAt h.slot.val 1 (.flag f.val true) [])) ∧
    exec (.clrf h f xC false) s = .next (s.addPend (s.pendAt h.slot.val 1 (.flag f.val false) [])) ∧
    (∀ m, (s.membersOf s.issuer)[rank]? = some m →
      exec (.setf h f xC true) s = .next (send true m) ∧ exec (.clrf h f xC true) s = .next (send false m)) ∧
    ((s.membersOf s.issuer).length ≤ rank → exec (.setf h f xC true) s = .next s ∧ exec (.clrf h f xC true) s = .next s))

/-- The semaphore operations send their operands to the semaphore file, 24 cycles away for a device semaphore and 8 for one of the
sequencer; the old value is due in xD 48 or 16 bundles on. -/
def Obligations.SemaphoreRequests : Prop :=
  ∀ (s : State) (h : Hdr) (xD xS xV : XReg), s.Runs h →
    let n := (s.here.rx xS).toNat
    let v := s.here.rx xV
    let send := fun (op : Nat) (v : Word) => s.ask s.issuer h.slot.val (.sem op xD.val n v (s.here.rx xD)) (if n < 0x10000 then 24 else 8)
      (some xD.val) (if n < 0x10000 then 48 else 16)
    exec (.sadd h xD xS xV) s = .next (send 0 v) ∧ exec (.scas h xD xS xV) s = .next (send 1 v) ∧
    exec (.sxch h xD xS xV) s = .next (send 2 v) ∧ exec (.smax h xD xS xV) s = .next (send 3 v) ∧
    exec (.swge h xD xS xV) s = .next (send 4 v) ∧ exec (.srd h xD xS) s = .next (send 5 0)

/-- What a request does in a core that has nothing outstanding and no open region: it leaves at once, reaches its agent `rel` cycles on,
and its result waits in the pending writes for the value, due `lat` bundles on.
Beyond the words of the rules it rests on readings of the model's own: log 15. -/
def Obligations.RequestLeavesAtOnce : Prop :=
  ∀ (s : State) (c slot op xD n rel lat : Nat) (v cmp : Word), (s.core c).memq = [] → (s.core c).spec = none →
    let k := s.core c
    let t := s.ask c slot (.sem op xD n v cmp) rel (some xD) lat
    t.agenda = insertDue (s.now + rel) (.semaphoreOperation (fin64 c) s.nextId) s.agenda ∧
    (t.core c).pend = k.pend ++ [⟨k.lcyc + lat, 8 * k.lcyc + slot, s.bundleAddr c, .x xD 0, false, s.nextId, []⟩] ∧
    ((t.core c).memq.map fun o => (o.id, o.kind, o.left)) = [(s.nextId, .req (.sem op xD n v cmp) (s.now + rel), true)] ∧
    t.nextId = s.nextId + 1 ∧ t.mem = s.mem ∧ (∀ d, d ≠ c → t.core d = s.core d)

/-- FENCE and what implies one: BWT and SSTEP acquire in the barrier's scope, BARV releases, sets its pending-arrival bit and sends its
arrival with the phase bit as tag, TRIG releases and tells the front end, BDCL sends its declaration. -/
def Obligations.OrderingAndBarrierResults : Prop :=
  ∀ (s : State) (h : Hdr) (ord : Order) (sc : Scope) (b : BReg) (n : CReg) (named : Bool) (xA : XReg), s.Runs h →
    let c := s.issuer
    let slot := h.slot.val
    let scope := s.barScope c b.val
    let released := s.fenceAt c slot .rel scope
    let marked := released.setCore c { released.core c with bA := b.val :: (released.core c).bA, arvAt := some (b.val, s.now) }
    exec (.fence h ord sc) s = .next (s.fenceAt c slot ord sc) ∧
    exec (.bwt h b) s = .next (s.fenceAt c slot .acq scope) ∧
    exec (.sstep h b n named) s = .next (s.fenceAt c slot .acq scope) ∧
    exec (.barv h b n named) s = .next (marked.ask c slot
      (.barv b.val (s.here.bP.contains b.val) (if named then some n.val else none)) 0 none 0) ∧
    exec (.trig h) s = .next ((s.fenceAt c slot .rel .device).ask c slot .trig 0 none 0) ∧
    exec (.bdcl h b xA) s = .next ((s.push c (s.here.posAt slot) (s.bundleAddr c)
      (.req (.bdcl b.val ((s.here.rx xA).toNat % 2 ^ 48)) s.now) [] [] none false).pump c)

/-- The requests to the front end and the ridge. Those of slot f, ENQ and XCHN release to the device first; status requests are due 24
bundles on, replies 40. TLBI and FRSM go as they are; TLBI of a context above 63 does nothing.
Beyond the words of the rules it rests on readings of the model's own: log 15. -/
def Obligations.RidgeRequestResults : Prop :=
  ∀ (s : State) (h : Hdr) (xD xA xB : XReg) (tS : TReg) (hi : Bool) (sel : Fin 16) (sz : InvSize), s.Runs h →
    let c := s.issuer
    let slot := h.slot.val
    let k := s.here
    let a := k.rx xA
    let b := k.rx xB
    let b2 := k.rxn ((xB.val + 1) % 64)
    let released := s.fenceAt c slot .rel .device
    let status := fun (r : Req) => released.ask c slot r 12 (some xD.val) 24
    let reply := fun (r : Req) => released.ask c slot r 12 (some xD.val) 40
    let pushed := fun (u : State) (r : Req) (t : Nat) =>
      (u.push c (k.posAt slot) (s.bundleAddr c) (.req r t) [] [] none false).pump c
    exec (.enq h xD xA tS hi) s =
      .next (status (.enq a (slice (k.trf.read (tS.val * 32768) 128) (if hi then 64 else 0) 64))) ∧
    exec (.xchn h xD xA xB) s = .next (status (.xchn b a)) ∧
    exec (.twm h xD xA) s = .next (pushed (s.dueLate c slot 40 s.nextId (.x xD.val 0)) (.twm a) (s.now + 12)) ∧
    exec (.frsm h xD xA xB) s = .next (pushed (s.dueLate c slot 40 s.nextId (.x xD.val 0)) (.frsm a b) (s.now + 12)) ∧
    exec (.tlbi h xA xB sz) s = .next (if 63 < b.toNat then s else pushed s (.tlbi a b sz) (s.now + 40)) ∧
    exec (.ntile h) s =
      .next (((s.dueLate c slot 24 s.nextId (.ntile 0 false)).after 12 (.dispenserGrant (fin64 c) ⟨s.gidOf c, s.nextId⟩)).bump) ∧
    exec (.vrcfg h xD xA xB) s = .next (status (.vr 5 a b 0)) ∧ exec (.vrrte h xD xA xB) s = .next (status (.vr 6 a b 0)) ∧
    exec (.vrsct h xD xA xB) s = .next (status (.vr 7 a b 0)) ∧ exec (.vrcmb h xD xA xB) s = .next (status (.vr 8 a b b2)) ∧
    exec (.vrcnt h xD xA sel) s = .next (reply (.vrcnt a sel.val (k.rx xD))) ∧
    exec (.pldef h xD xA xB) s = .next (reply (.pldef a b)) ∧ exec (.plcnv h xD xA xB) s = .next (reply (.plcnv a b)) ∧
    exec (.plqry h xD xA sel) s = .next (reply (.plqry a sel.val)) ∧
    exec (.slbxl h xD xA xB) s = .next (reply (.slbxl a b b2 0)) ∧ exec (.slbgr h xD xA xB) s = .next (status (.slbgr a b)) ∧
    exec (.exacq h xD xA xB) s = .next (reply (.exacq a b k.clayer k.nlayer)) ∧
    exec (.exrel h xD xA) s = .next (reply (.exrel a))

/-- SPEC checkpoints the scalar, predicate and offset registers unless a region is open; CMIT and SABT close an open region at the end of
their bundle; TRAP lists its code for the end of the bundle; EXIT retires the member there.
Beyond the words of the rules it rests on readings of the model's own: log 12. -/
def Obligations.RegionTrapAndExitResults : Prop :=
  ∀ (s : State) (h : Hdr) (n : Fin 128), s.Runs h →
    let k := s.here
    exec (.spec h) s = .next (s.setHere { k with spec := match k.spec with
      | some r => some r
      | none => some ⟨8 * k.lcyc, k.x.toList, k.p.toList, k.o.toList, []⟩ }) ∧
    exec (.cmit h) s = .next (s.setHere { k with bctx := { k.bctx with cmit := k.spec.isSome } }) ∧
    exec (.sabt h) s = .next (s.setHere { k with bctx := { k.bctx with sabt := k.spec.isSome } }) ∧
    exec (.trap h n) s = .next (s.setHere { k with bctx := { k.bctx with traps := k.bctx.traps ++ [(h.slot.val, 0x80 + n.val)] } }) ∧
    exec (.exit h) s = .next (s.setHere { k with bctx := { k.bctx with exit := true } })

/-! ### Slot m -/

/-- The tile loads: which lines they read, where their bytes go in the tile's image, and what the image holds before. -/
def Obligations.TileLoadResults : Prop :=
  ∀ (s : State) (h : Hdr) (tD tI : TReg) (xB xD : XReg) (oO : OReg) (hn : HReg) (og : Fin 4) (byp enf l7 : Bool) (land : Land), s.Runs h →
    let c := s.issuer
    let k := s.here
    let slot := h.slot.val
    let a := (k.rx xB + k.o.get oO).toNat
    let n := (k.shape tD.val).lines
    let blank := List.replicate (128 * n) (0 : Byte)
    let ws := k.hwords hn.val
    let walk := hLoad (k.shape tD.val) ws (hBase ws) (k.offGroup og.val)
    exec (.tld h tD xB oO byp land) s = .next (s.startLoad c slot tD.val
      ((List.range n).map fun i => loadLine (a / 128 * 128 + 128 * i), (List.range n).map fun i => ⟨i, 0, 128 * i, 128⟩) blank [] none
      land.val byp) ∧
    (hPV ws = false → exec (.tldh h tD hn og enf land) s =
      .next (s.startLoad c slot tD.val (gather walk.2.1) walk.1 walk.2.2 none land.val false)) ∧
    (hPV ws = true → exec (.tldh h tD hn og enf land) s = .next (s.startLoad c slot tD.val ([], []) blank []
      (some (k.enf hn.val og.val (k.shape tD.val) enf)) land.val false
      ((gather (hLoad (k.shape tD.val) ws pstoreBase (k.offGroup og.val)).2.1).1.map fun l => (some (hPle ws), false, l.va)))) ∧
    exec (.tldg h tD xB tI l7) s =
      .next (s.startLoad c slot tD.val (k.gatherRows tD.val tI.val (k.rx xB)) blank [] none (if l7 then 7 else 6) false
        [] ((k.shape tD.val).lines, ceilDiv (k.shape tD.val).rows 4)) ∧
    exec (.tldx h tD xB oO land) s =
      .next (s.startLoad c slot tD.val (gather (k.haloPieces tD.val (a / 128 * 128))) blank [] none land.val false
        [] (((k.shape tD.val).rows + 2 * k.haloR) * (k.shape tD.val).pitch, 0)) ∧
    exec (.tldw h xD xB oO land) s =
      .next (((s.dueLate c slot (k.ld.toList.getD land.val 1) s.nextId (.x xD.val 0)).push c (k.posAt slot) (s.bundleAddr c)
        (.tldw xD.val (a % 128)) [loadLine (a / 128 * 128)] [] none false).pump c)

/-- The tile stores send the lines of their tile, handle walk or index rows in program order; TZERO and TEMPTY empty the lines of a tile,
TZERO to fill them 2 + ⌈L / 4⌉ cycles on; TWARM copies up to 4,096 lines into a cache. -/
def Obligations.TileStoreAndFillResults : Prop :=
  ∀ (s : State) (h : Hdr) (tS tI : TReg) (xB xN : XReg) (oO : OReg) (hn : HReg) (og : Fin 4) (lvl : WarmLevel), s.Runs h →
    let c := s.issuer
    let k := s.here
    let slot := h.slot.val
    let sh := k.shape tS.val
    let ws := k.hwords hn.val
    let done := s.now + 2 + (sh.lines + 3) / 4
    let job : Job := ⟨s.nextId, 8 * k.lcyc + slot, s.bundleAddr c, done, .tzero, [(tS.val, 0, zeroImage sh)], (0, 0)⟩
    let bytes := hStore sh (k.tileImg tS.val sh.lines) ws pstoreBase (k.offGroup og.val)
    let about := (scatter bytes).map fun l => (some (hPle ws), true, l.va)
    exec (.tst h tS xB oO) s = .next (s.startStore c slot tS.val ((List.range sh.lines).map fun i =>
      storeLine ((k.rx xB + k.o.get oO).toNat / 128 * 128 + 128 * i) (slice (k.tileImg tS.val sh.lines) (128 * i) 128))) ∧
    (hPV ws = false → exec (.tsth h tS hn og) s =
      .next (s.startStore c slot tS.val (scatter (hStore sh (k.tileImg tS.val sh.lines) ws (hBase ws) (k.offGroup og.val))))) ∧
    (hPV ws = true → k.spec = none → exec (.tsth h tS hn og) s = .next (((s.push c (k.posAt slot) (s.bundleAddr c)
      (.pstore (k.enf hn.val og.val sh false) bytes) [] [] none false about).pump c).readTile c s.nextId tS.val ((sh.lines + 3) / 4) none)) ∧
    (hPV ws = true → k.spec ≠ none → exec (.tsth h tS hn og) s =
      .next (s.hold c slot (.pstore (k.enf hn.val og.val sh false) bytes) [] none 0 about)) ∧
    exec (.tsts h tS xB tI) s = .next (s.startStore c slot tS.val (k.storeLines (.tsts h tS xB tI))) ∧
    exec (.tzero h tS) s = .next { ((s.setHere { k.emptyLines tS.val 0 sh.lines none (some s.nextId) with
      writers := k.writers ++ [(tS.val, s.nextId)], jobs := k.jobs ++ [job] })) with
      nextId := s.nextId + 1, agenda := insertDue done (.tzeroFill (fin64 c) s.nextId) s.agenda } ∧
    exec (.tempty h tS) s = .next (s.setHere (k.emptyLines tS.val 0 sh.lines none none)) ∧
    exec (.twarm h xN xB oO lvl) s = .next ((List.range (min (k.rx xN).toNat 4096)).foldl
      (fun s i => s.warmLine c ((k.rx xB + k.o.get oO).toNat / 128 * 128 + 128 * i) lvl) s)

/-! ### Slots x, v, q and f -/

/-- The matrix instructions: MMA and MMAZ enter the engine; MCLR takes 4 cycles; MRD reads the accumulator as it stands, with the number
of steps still outstanding due in xD; MOUT and MFEED take what their operands hold and wait for the accumulator's writers. A bound
destination or operand makes each of MRD, MOUT and MFEED a placed operation. -/
def Obligations.MatrixResults : Prop :=
  ∀ (s : State) (h : Hdr) (tD : TReg) (acc : AReg) (a b : MOp) (fs sat : Bool) (rm : RMode) (xD : XReg), s.Runs h →
    let c := s.issuer
    let k := s.here
    let slot := h.slot.val
    let d := k.shape tD.val
    let pos := 8 * k.lcyc + slot
    let rs := if rm = .sr ∧ d.fmt ≠ 0 then draws (d.rows * d.cols) k.seed else ([], k.seed)
    let wait := fun (kind : JobKind) => (⟨s.nextId, pos, s.bundleAddr c, 0, kind, [], (0, 0)⟩ : Job)
    let mclr : Job := ⟨s.nextId, pos, s.bundleAddr c, s.now + 4, .mclr acc.val, [], (0, 0)⟩
    let mrd : Job := ⟨s.nextId, pos, s.bundleAddr c, s.now + 6 + d.lines, .mrd,
      [(tD.val, 0, tileImage d (k.accBits acc.val d.rows d.cols) [])], (0, 0)⟩
    let sh := k.mopShape a
    let arg := s.mopArg c a sh.fmt
    exec (.mma h acc a b fs) s = .next (s.issueMma c slot acc.val a b fs false) ∧
    exec (.mmaz h acc a b fs) s = .next (s.issueMma c slot acc.val a b fs true) ∧
    exec (.mclr h acc) s = .next { s.setHere { k with writers := k.writers ++ [(128 + acc.val, s.nextId)], jobs := k.jobs ++ [mclr] } with
      nextId := s.nextId + 1, agenda := insertDue (s.now + 4) (.matrixOutputComplete (fin64 c) s.nextId) s.agenda } ∧
    let img := tileImage d (k.accBits acc.val d.rows d.cols) []
    let counted := s.addPend (s.pendAt slot (6 + d.lines) (.x xD.val (BitVec.ofNat 64 (s.outstanding c acc.val))) [])
    (k.boundTo tD.val = none → exec (.mrd h tD acc xD) s = .next (({ counted.setHere { counted.here.emptyLines tD.val 0 d.lines none (some s.nextId) with
      writers := k.writers ++ [(tD.val, s.nextId)], jobs := k.jobs ++ [mrd] } with
      nextId := s.nextId + 1, agenda := insertDue (s.now + 6 + d.lines) (.matrixOutputComplete (fin64 c) s.nextId) s.agenda }).watchTrf c)) ∧
    (∀ hn, k.boundTo tD.val = some hn → exec (.mrd h tD acc xD) s =
      .next ((counted.setHere { counted.here with writers := k.writers ++ [(tD.val, s.nextId)] }).pushPlaced c slot
        (.mrd img (k.enf hn 0 d (hPV (k.hwords hn)))))) ∧
    (k.boundTo tD.val = none → exec (.mout h tD acc rm sat) s =
      .next (({ s.setHere { ({ k with seed := rs.2 } : Core).emptyLines tD.val 0 d.lines none (some s.nextId) with
        writers := k.writers ++ [(tD.val, s.nextId)], jobs := k.jobs ++ [wait (.mout acc.val tD.val rm sat rs.1)] } with
        nextId := s.nextId + 1 }).settleJob c (wait (.mout acc.val tD.val rm sat rs.1)))) ∧
    (∀ hn, k.boundTo tD.val = some hn → exec (.mout h tD acc rm sat) s =
      .next ((s.setHere { k with seed := rs.2, writers := k.writers ++ [(tD.val, s.nextId)] }).pushPlaced c slot
        (.mout acc.val rm sat rs.1 (k.enf hn 0 d (hPV (k.hwords hn)))))) ∧
    (arg.hnd = none → exec (.mfeed h acc a) s =
      .next (({ s.setHere { k with
        writers := k.writers ++ [(128 + acc.val, s.nextId)], readers := k.readers ++ (k.readKey a).map (·, s.nextId),
        jobs := k.jobs ++ [wait (.mfeed acc.val sh.rows sh.cols sh.fmt arg.img)] } with
        nextId := s.nextId + 1 }).settleJob c (wait (.mfeed acc.val sh.rows sh.cols sh.fmt arg.img)))) ∧
    (∀ e, arg.hnd = some e → exec (.mfeed h acc a) s =
      .next ((s.setHere { k with
        writers := k.writers ++ [(128 + acc.val, s.nextId)], readers := k.readers ++ (k.readKey a).map (·, s.nextId) }).pushPlaced c slot
        (.mfeed acc.val e)))

/-- Every instruction of slots v and q issues the operation of its mnemonic on the tiles and scalars it names, with its rounding mode,
saturation and function. -/
def Obligations.VectorIssueResults : Prop :=
  ∀ (s : State) (h : Hdr) (d a b : TReg) (xD xA xB : XReg) (rm : RMode) (sat : Bool) (fn : VFun) (op : RedOp) (no : Fin 4) (km : Fin 8),
    s.Runs h →
    let k := s.here
    let run := fun (v : VecI) => s.issueVec s.issuer h.slot.val v
    let three := fun (o : VOp) => run ⟨o, d.val, a.val, b.val, none⟩
    let two := fun (o : VOp) => run ⟨o, d.val, a.val, 0, none⟩
    exec (.vadd h d a b) s = .next (three .add) ∧ exec (.vsub h d a b) s = .next (three .sub) ∧
    exec (.vmul h d a b) s = .next (three .mul) ∧ exec (.vfma h d a b) s = .next (three .fma) ∧
    exec (.vmax h d a b) s = .next (three .max) ∧ exec (.vmin h d a b) s = .next (three .min) ∧
    exec (.vabs h d a) s = .next (two .abs) ∧ exec (.vneg h d a) s = .next (two .neg) ∧
    exec (.vrcp h d a rm sat) s = .next (two (.rcp rm sat)) ∧ exec (.vrsq h d a rm sat) s = .next (two (.rsq rm sat)) ∧
    exec (.vsqrt h d a rm sat) s = .next (two (.sqrt rm sat)) ∧ exec (.vexp2 h d a rm sat) s = .next (two (.exp2 rm sat)) ∧
    exec (.vlog2 h d a rm sat) s = .next (two (.log2 rm sat)) ∧ exec (.vcvt h d a rm sat) s = .next (two (.cvt rm sat)) ∧
    exec (.vand h d a b) s = .next (three .and) ∧ exec (.vor h d a b) s = .next (three .or) ∧
    exec (.vxor h d a b) s = .next (three .xor) ∧ exec (.vshl h d a xB) s = .next (two (.shl (k.rx xB).toNat)) ∧
    exec (.vshr h d a xB) s = .next (two (.shr (k.rx xB).toNat)) ∧ exec (.vcmp h d a b) s = .next (three .cmp) ∧
    exec (.vsel h d a b) s = .next (three .sel) ∧ exec (.vmov h d a) s = .next (two .mov) ∧
    exec (.vopx h d a fn) s = .next (two (.opx fn)) ∧ exec (.vbc h d a) s = .next (two .bc) ∧
    exec (.vrred h d a rm sat op) s = .next (two (.rred rm sat op)) ∧
    exec (.vcred h d a rm sat op) s = .next (two (.cred rm sat op)) ∧
    exec (.vxs h xD a xB) s = .next (run ⟨.xs (k.rx xB).toNat, 0, a.val, 0, some xD.val⟩) ∧
    exec (.vins h d xA xB) s = .next (run ⟨.ins (k.rx xA) (k.rx xB).toNat, d.val, 0, 0, none⟩) ∧
    exec (.viota h d xA) s = .next (run ⟨.iota (k.rx xA).toInt, d.val, 0, 0, none⟩) ∧
    exec (.vperm h d a b) s = .next (three .perm) ∧
    exec (.vscan h d a rm sat op) s = .next (two (.scan rm sat op)) ∧
    exec (.vpart h d a no) s = .next (two (.part (no.val + 1))) ∧ exec (.vclmp h d a b) s = .next (three .clmp) ∧
    exec (.vtrn h d a) s = .next (two .trn) ∧ exec (.qthr h d a) s = .next (two .thr) ∧
    exec (.qbis h d km) s = .next (run ⟨.bis (km.val + 1), d.val, 0, 0, none⟩) ∧ exec (.qsel h d a b) s = .next (three .qsel) ∧
    exec (.qscl h d a rm sat) s = .next (two (.scl rm sat)) ∧ exec (.qnt h d a rm sat) s = .next (two (.qnt rm sat)) ∧
    exec (.qdq h d a) s = .next (two .qdq) ∧ exec (.qef h d a b) s = .next (three .qef)

/-- Channels: CHCFG marks the entry pending and reads its 32 bytes; CHSND copies its tile toward the slot PP of a consumer of this
package, or enters an operation that sends it to a peer; CHADV gives back the slot at CP with its credit, or moves PP on and takes a credit. What names no consumer or
is not configured does nothing.
Beyond the words of the rules it rests on readings of the model's own: log 18. -/
def Obligations.ChannelResults : Prop :=
  ∀ (s : State) (h : Hdr) (n : CReg) (xA : XReg) (tS : TReg) (cons : Bool), s.Runs h →
    let c := s.issuer
    let k := s.here
    let a := (k.rx xA).toNat
    let pending : Chan := { (Tbl.getD k.chans n.val Chan.blank) with pend := true }
    let lines := (k.shape tS.val).lines
    let img := k.trf.read (tS.val * 32768) (128 * lines)
    let put := fun (x : Chan) => s.setHere { k with chans := Tbl.set k.chans n.val x }
    let tag := fun (x : Chan) => (x.bar.map (k.tagOf s.now)).getD false
    exec (.chcfg h n xA) s = .next (((put pending).push c (k.posAt h.slot.val) (s.bundleAddr c) (.chcfg n.val (a % 128))
      [loadLine (a / 128 * 128)] [] none false).pump c) ∧
    (k.chan n.val = none → exec (.chsnd h n tS) s = .next s ∧ exec (.chadv h n cons) s = .next s) ∧
    (∀ x, k.chan n.val = some x → s.chTarget c x = none →
      exec (.chsnd h n tS) s = .next s ∧ exec (.chadv h n false) s = .next s) ∧
    (∀ x r, k.chan n.val = some x → s.chTarget c x = some (none, r) →
      let goal := (s.membersOf c).getD r 0
      let t := (if goal / 8 = c / 8 then 20 else 48) + (lines + 1) / 2
      exec (.chsnd h n tS) s = .next ((s.after t (.channelLanding (s.gidOf c) (fin64 goal) c n x.pp (k.desc tS.val).1 (tag x) img)).readTile c 0
        tS.val ((lines + 1) / 2) (some (n.val, s.now + t))) ∧
      exec (.chadv h n false) s = .next (put { x with pp := (x.pp + 1) % max x.nslot 1, cred := x.cred - 1 })) ∧
    (∀ x p r, k.chan n.val = some x → s.chTarget c x = some (some p, r) →
      exec (.chsnd h n tS) s = .next (((((s.push c (k.posAt h.slot.val) (s.bundleAddr c) (.chsend (p, r, n.val, x.pp) (k.desc tS.val).1 img 0)
        [] [] none false).updCore c fun k => k.updOp s.nextId fun o => { o with tags := if tag x = true then [1] else [] }).pump c)).readTile c s.nextId
        tS.val ((lines + 1) / 2) (some (n.val, 0))) ∧
      exec (.chadv h n false) s = .next (put { x with pp := (x.pp + 1) % max x.nslot 1, cred := x.cred - 1 })) ∧
    (∀ x, k.chan n.val = some x → s.consumes c x = false → exec (.chadv h n true) s = .next s) ∧
    (∀ x, k.chan n.val = some x → s.consumes c x = true → exec (.chadv h n true) s =
      .next ((put { x with slots := x.slots.set x.cp (0, x.cur.2.1, x.cur.2.2), cp := (x.cp + 1) % max x.nslot 1 }).creditBack c n.val
        x.cur.2.2))

/-! ### Contexts, queues and packets -/

/-- What a finished context command shows: BUSY clear, its STATUS, and the context changed as the command says. A command from a state that
does not allow it ends with STATUS 2 and changes no context; a malformed descriptor gives 3, a save area outside its aperture 4; a
command while BUSY is ignored, but that one to the context being destroyed sets STATUS 2; a command waits at the port for the host's
earlier writes; and DESTROY_COMPLETE leaves the context as after reset, STATUS 0.
Beyond the words of the rules it rests on readings of the model's own: log 19. -/
def Obligations.ContextCommandResults : Prop :=
  (∀ (s : State) (c : Fin 64), s.PortClear → s.regs.cmdBusy = false →
    let x := s.ctx c.val
    let finished := fun (t : State) (status : Nat) => t.regs.cmdBusy = false ∧ t.regs.cmdStatus = status ∧ t.regs.cmdCtx = c.val
    let named := s.updRegs fun r => { r with cmdCtx := c.val }
    let busy := named.updRegs fun r => { r with cmdBusy := true }
    -- CREATE
    (∀ d, x.state = 0 → s.descriptor c.val = some d → descOk d = true → saveOk d = true →
      ∃ t, exec (.create c) s = .next t ∧ finished t 0 ∧ (t.ctx c.val).state = 1 ∧
        (t.ctx c.val).root = get (wnth d 0) 47 16 * 65536 ∧ (t.ctx c.val).priv = bit (wnth d 0) 1 ∧
        (t.ctx c.val).save = get (wnth d 1) 47 21 ∧ (t.ctx c.val).fqbase = get (wnth d 2) 47 12 ∧
        (t.ctx c.val).qlog = get (wnth d 2) 3 0 ∧ (t.ctx c.val).weight = get (wnth d 3) 7 0 ∧ (t.ctx c.val).cause = 0) ∧
    -- ACTIVATE
    (x.state = 1 → ∃ t, exec (.activate c) s = .next t ∧ finished t 0 ∧ t.ctx c.val = { x with state := 2 }) ∧
    -- SUSPEND: it ends when the last group has left its cores
    (x.state = 2 ∨ x.state = 4 →
      exec (.suspend c) s = .next (((busy.updCtx c.val fun k => { k with spnd := true }).askAll c.val).ctxSettle c.val)) ∧
    -- RESUME
    (x.state = 3 → ∃ t, exec (.ctxResume c) s = .next t ∧ finished t 0 ∧
      t.ctx c.val = { x with state := if x.cause = 0 then 2 else 4 }) ∧
    (x.state = 4 → ∃ t, exec (.ctxResume c) s = .next t ∧ finished t 0 ∧ t.ctx c.val = { x with state := 2, cause := 0 }) ∧
    -- FENCE
    (x.state = 2 ∨ x.state = 3 ∨ x.state = 4 →
      exec (.ctxFence c) s = .next ((named.fenceCtx c.val 5).cmdEnd 0)) ∧
    -- DESTROY: it ends with DESTROY_COMPLETE
    (x.state ≠ 0 ∧ x.state ≠ 6 → exec (.destroy c) s = .next (busy.doDestroy c.val))) ∧
  (∀ (s : State) (c : Fin 64),
    let x := s.ctx c.val
    let refused := fun (i : Instr) (status : Nat) =>
      ∃ t, exec i s = .next t ∧ t.regs.cmdBusy = false ∧ t.regs.cmdStatus = status ∧ t.ctxs = s.ctxs
    (s.hostWaits = true →
      exec (.create c) s = .next (s.after 1 (.registerWrite 0x18 (BitVec.ofNat 64 (256 + c.val)))) ∧
      exec (.destroy c) s = .next (s.after 1 (.registerWrite 0x18 (BitVec.ofNat 64 (6 * 256 + c.val))))) ∧
    (s.PortClear → s.regs.cmdBusy = true → ∀ i, i ∈ [Instr.create c, .activate c, .suspend c, .ctxResume c, .ctxFence c, .destroy c] →
      exec i s = .next (if x.state = 6 then s.updRegs fun r => { r with cmdStatus := 2 } else s)) ∧
    (s.PortClear → s.regs.cmdBusy = false →
      (x.state ≠ 0 → refused (.create c) 2) ∧ (x.state = 0 → s.descriptor c.val = none → refused (.create c) 3) ∧
      (∀ d, x.state = 0 → s.descriptor c.val = some d → descOk d = false → refused (.create c) 3) ∧
      (∀ d, x.state = 0 → s.descriptor c.val = some d → descOk d = true → saveOk d = false → refused (.create c) 4) ∧
      (x.state ≠ 1 → refused (.activate c) 2) ∧ (x.state ≠ 2 ∧ x.state ≠ 4 → refused (.suspend c) 2) ∧
      (x.state ≠ 3 ∧ x.state ≠ 4 → refused (.ctxResume c) 2) ∧
      (x.state ≠ 2 ∧ x.state ≠ 3 ∧ x.state ≠ 4 → refused (.ctxFence c) 2) ∧ (x.state = 0 ∨ x.state = 6 → refused (.destroy c) 2)) ∧
    (s.destroyed c.val = true → ∃ t, exec (.destroyComplete c) s = .next t ∧ t.ctx c.val = Ctx.reset ∧
      (s.regs.cmdCtx = c.val → t.regs.cmdBusy = false ∧ t.regs.cmdStatus = 0)) ∧
    (s.destroyed c.val = false → exec (.destroyComplete c) s = .next s))

/-- Setting EN starts a queue at its TAIL with empty stamps, or sends it to ERROR 4; clearing EN turns it OFF; a doorbell moves TAIL,
and one more than the queue's size ahead of HEAD is ERROR 2; a doorbell waits at the port for the host's earlier writes.
Beyond the words of the rules it rests on readings of the model's own: log 19. -/
def Obligations.QueueRegisterResults : Prop :=
  ∀ (s : State) (q : Fin 256) (tail : BitVec 32),
    let k := s.queue q.val
    let x := s.ctx k.ctx
    let fresh := { k with pkt := [], rec_ := [], met := none, head := k.tail, miss := 0 }
    -- EN from 0 to 1
    (k.en = false → 4 ≤ k.size → k.base % (2 ^ k.size * 64) = 0 → x.state ≠ 0 → x.state ≠ 6 → k.cls ≠ 0 →
      (s.queues.filter fun e => e.2.en && e.2.ctx == k.ctx).length < 16 →
      ∃ t, exec (.queueEnable q) s = .next t ∧
        t.queue q.val = { fresh with en := true, err := 0, state := 1, stampB := zeroVec, stampC := zeroVec, last := none }) ∧
    (k.en = false → k.size < 4 ∨ k.base % (2 ^ k.size * 64) ≠ 0 ∨ x.state = 0 ∨ x.state = 6 →
      ∃ t, exec (.queueEnable q) s = .next t ∧ t.queue q.val = { fresh with en := false, err := 4, state := 2 }) ∧
    -- EN to 0
    (∃ t, exec (.queueDisable q) s = .next t ∧
      t.queue q.val = { k with pkt := [], rec_ := [], met := none, en := false, state := 0 }) ∧
    -- TAIL
    (s.hostWaits = true → exec (.doorbell q tail) s = .next (s.after 1 (.registerWrite (0x2000 + 32 * q.val + 24) (tail.setWidth 64)))) ∧
    (s.PortClear → k.enqok = true → exec (.doorbell q tail) s = .next s) ∧
    (s.PortClear → k.enqok = false → ∃ t, exec (.doorbell q tail) s = .next t ∧ (t.queue q.val).tail = tail.toNat ∧
      (t.queue q.val).head = k.head ∧
      (k.en = true → k.state = 1 → (2 ^ k.size < (tail.toNat + 2 ^ 32 - k.head) % 2 ^ 32 ↔ (t.queue q.val).state = 2) ∧
        ((t.queue q.val).state = 2 → (t.queue q.val).err = 2)))

/-- The packet that the front end chooses starts when its next start is due, each kind as its own event does, and the next start is 16
cycles away; an event of another kind or queue starts nothing, and nothing starts before its time or with no head that can. A malformed
head sends its queue to ERROR 1.
Beyond the words of the rules it rests on readings of the model's own: log 13 and 19. -/
def Obligations.PacketStarts : Prop :=
  ∀ (s : State) (q : Fin 256),
    let s1 := s.look
    let s2 := s1.comeback.foldl (fun (s : State) g => s.tryRestore g) s1
    let ch := s2.choose [0, 1, 2, 3]
    let waits := fun (t : State) => ((if decide (t.now < t.nextStart) && [0, 1, 2, 3].any fun c => !(t.startable c).isEmpty
      then t.sched t.nextStart .frontEndStart else t).askPreempt)
    let begun := fun (t : State) => waits (({ t with nextStart := s2.now + 16 }.sched (s2.now + 16) .frontEndStart).look)
    (∀ cls, s2.nextStart ≤ s2.now → ch.2 = some (cls, q.val) →
      let u := if cls = 0 then ch.1 else ch.1.payCredit cls q.val
      let k := u.queue q.val
      let b := k.pkt
      let starts := fun (kind : Nat) (i : Instr) (t : State) => pkKind (s2.queue q.val).pkt = kind → pkKind b = kind →
        exec i s = .next (begun t) ∧ exec .frontEndStart s = .next (begun t)
      starts 1 (.launch q) (u.doLaunch q.val none) ∧
      starts 2 (.collstep q) (u.startCollstep q.val) ∧
      starts 3 (.transfer q) (u.startTransfer q.val) ∧
      starts 4 (.convert q) ((u.convAsk k.ctx (get (pkWord b 2) 9 0) ⟨get (pkWord b 3) 15 0, none, none, some (q, k.head)⟩).1.passHead q.val (some none)) ∧
      starts 5 (.signal q) ((((u.afterDone q.val).addSem 16 (get (pkWord b 2) 16 0) (pkWord b 3)).tick 16 0).passHead q.val none) ∧
      starts 6 (.waitsem q) (u.passHead q.val none) ∧
      ((pkWord b 3).toNat ≤ u.ftick ∨ u.tickLocked = false → k.met = none →
        starts 7 (.tickstart q) ((u.lateAtHead k.ctx k.recWords).passHead q.val none)) ∧
      (u.ftick < (pkWord b 3).toNat → u.tickLocked = true → starts 7 (.tickstart q) (u.doLaunch q.val (some (pkWord b 3).toNat))) ∧
      (∀ key home, resolvePA (pkWord b 2).toNat = some (key, home) →
        starts 8 (.marker q) (((u.afterDone q.val).passHead q.val (some none)).agentWrite 16 key home (wordLE (pkWord b 3))
          (.marker q.val k.head))) ∧
      (pkKind (s2.queue q.val).pkt ≠ 1 → exec (.launch q) s = .next (waits s2)) ∧
      (pkKind (s2.queue q.val).pkt ≠ 8 → exec (.marker q) s = .next (waits s2))) ∧
    (s2.now < s2.nextStart → exec .frontEndStart s = .next (waits s2) ∧ exec (.launch q) s = .next (waits s2) ∧
      exec (.signal q) s = .next (waits s2)) ∧
    (s2.nextStart ≤ s2.now → ch.2 = none → exec .frontEndStart s = .next (waits ch.1)) ∧
    (∀ k, s.queues = [(q.val, k)] → (s.readHead q.val).headSt q.val = .bad →
      s.scanHeads = (s.readHead q.val).updQueue q.val fun k => { k with state := 2, err := 1 })

/-! ### Groups -/

/-- Set-up and start: a LAUNCH whose copies are done runs, and only that launch of its index; a TICKSTART's part waits for its tick, issues at it, or is late. -/
def Obligations.GroupStartResults : Prop :=
  ∀ (s : State) (g : Fin 1024) (r : Run) (tag : BitVec 16), (s.grp g.val).run = some r →
    let st := (s.grp g.val).state
    let ready := s.updRun g.val fun r => { r with ready := true }
    let gen := (s.grp g.val).gen
    (st = 1 → r.ready = false → r.started = false → r.saved = [] → r.tick = none → (∀ c ∈ r.members, c ∉ s.fenced) →
      ∃ t, exec (.launchReady ⟨g, gen⟩) s = .next t ∧ (t.grp g.val).state = 2 ∧ (t.grp g.val).gen = (s.grp g.val).gen ∧
        (t.grp g.val).run = some { r with ready := true, started := true }) ∧
    (∀ tk, st = 1 → r.ready = false → r.started = false → r.saved = [] → r.tick = some tk → s.ftick < tk →
      exec (.launchReady ⟨g, gen⟩) s = .next ready) ∧
    (∀ tk, st = 1 → r.ready = false → r.started = false → r.saved = [] → r.tick = some tk → tk ≤ s.ftick →
      exec (.launchReady ⟨g, gen⟩) s = .next (ready.isLate g.val)) ∧
    (∀ n, n ≠ gen → exec (.launchReady ⟨g, n⟩) s = .next s) ∧
    (∀ tk, st = 1 → r.started = false → r.tick = some tk → s.ftick < tk →
      exec (.startTick g) s = .next (s.after 1 (.startTick g))) ∧
    (∀ tk, st = 1 → r.started = false → r.tick = some tk → tk ≤ s.ftick → r.ready = true → s.tickLocked = true →
      exec (.startTick g) s = .next (r.members.foldl (fun (s : State) c => s.soon (.bundleIssue (fin64 c)))
        ((s.beginRun g.val).soon (.sequencerBroadcast g)))) ∧
    (∀ tk, st = 1 → r.started = false → r.tick = some tk → tk ≤ s.ftick → r.ready = false ∨ s.tickLocked = false →
      exec (.startTick g) s = .next (s.isLate g.val)) ∧
    -- a LATE of a peer aborts the part with its tag
    (∀ before x after, s.grps = before ++ (g.val, x) :: after → x.run = some r → r.npkg ≠ 0 → r.sptag = tag.toNat → x.state ≤ 4 →
      (∀ e ∈ before, ∀ r', e.2.run = some r' → r'.sptag ≠ tag.toNat) →
      exec (.late tag) s = .next ((s.updRun g.val fun r => { r with late := if r.late = 0 then 2 else r.late }).stopGroup g.val 4 0))

/-- A cycle of a sequencer, an issue, results that fall due at the head, and results that a save held.
Beyond the words of the rules it rests on readings of the model's own: log 11 and 13. -/
def Obligations.SequencerAndIssueResults : Prop :=
  ∀ (s : State) (g : Fin 1024) (r : Run) (core : Fin 64), (s.grp g.val).run = some r →
    let st := (s.grp g.val).state
    let b := s.boundary g.val r
    let k := s.core core.val
    let shadows := k.jobs.filter fun j => (match j.kind with
      | .shadow _ => true
      | _ => false) && j.done != 0 && decide (j.done ≤ s.now)
    (st ≠ 2 → st ≠ 3 → exec (.sequencerBroadcast g) s = .next s) ∧
    (st = 2 ∨ st = 3 → r.saving ≠ 0 → exec (.sequencerBroadcast g) s = .next (s.saveStep g.val r)) ∧
    (∀ r1, st = 2 ∨ st = 3 → r.saving = 0 → b.2 = false → (b.1.grp g.val).run = some r1 →
      exec (.sequencerBroadcast g) s = .next (b.1.sequence g.val r1)) ∧
    (st = 2 ∨ st = 3 → r.saving = 0 → b.2 = true → exec (.sequencerBroadcast g) s = .next (b.1.startSave g.val 2)) ∧
    -- the 65,536 cycles a group stands frozen before it parks
    (r.saving = 0 → st = 2 ∨ st = 3 → r.members.any s.faultFrozen = true →
      ((s.parkTimer g.val r).grp g.val).state = 3 ∧ (∃ r1, ((s.parkTimer g.val r).grp g.val).run = some r1 ∧ r1.timer = r.timer + 1) ∧
      (65535 ≤ r.timer → (s.now + 1, .park g) ∈ (s.parkTimer g.val r).agenda)) ∧
    exec (.bundleIssue core) s = .next (s.bundleIssue core.val) ∧
    (k.skid ≠ [] → k.exited = false → s.groupIssues core.val = true → k.dueArrived = true →
      exec (.exposedResultDue core) s = .next ((s.setCore core.val k.applyDue).noteLanded core.val k.lines)) ∧
    (k.skid = [] → exec (.exposedResultDue core) s = .next s) ∧
    exec (.shadowReplay core) s = .next (shadows.foldl (fun (s : State) j =>
      ((s.updCore core.val fun k => { k with jobs := k.jobs.filter fun v => v.id != j.id }).fillJob core.val j).accSettle core.val j.id) s)

/-- Parks, saves and restores: a parked group holds no core and no sequencer, and a restore takes them again; it is FROZEN after it while
a re-issued access is outstanding, and what was held for it arrives.
Beyond the words of the rules it rests on readings of the model's own: log 13. -/
def Obligations.SaveAndRestoreResults : Prop :=
  ∀ (s : State) (g : Fin 1024) (r : Run), (s.grp g.val).run = some r →
    let x := s.grp g.val
    (x.state = 3 → r.saving = 0 → 65536 ≤ r.timer → exec (.park g) s = .next (s.startSave g.val 1)) ∧
    (r.timer < 65536 → exec (.park g) s = .next s) ∧
    (x.state = 2 ∨ x.state = 3 → r.saving ≠ 0 → r.savedAt ≠ 0 → ∃ t, exec (.saveComplete g) s = .next t ∧
      (t.grp g.val).state = 4 ∧ (t.grp g.val).pwhy = r.saving ∧
      (t.grp g.val).parks = (if r.saving = 1 then (x.parks + 1) % 2 ^ 32 else x.parks)) ∧
    (∀ q, s.eligible g.val = true → (∀ c ∈ r.members, c ∉ s.fenced) → s.freeSeq = some q → r.members.all s.coreFree1 = true →
      ∃ t, exec (.groupRestore g) s = .next t ∧ (t.grp g.val).state = 1 ∧ (t.grp g.val).run = some { r with seq := q } ∧
        ∀ c ∈ r.members, (t.core c).group = some g.val) ∧
    (s.eligible g.val = true → (∃ c ∈ r.members, c ∈ s.fenced) →
      exec (.groupRestore g) s = .next ((s.stopGroup g.val 5 0).ctxFault r.ctx 1)) ∧
    (x.state = 1 → r.saved ≠ [] → (∃ c ∈ r.members, s.writesUnder (s.slotAt r.ctx c) slotSize = true) →
      exec (.restoreComplete g) s = .next (s.after 1 (.restoreComplete g))) ∧
    (x.state = 1 → r.saved ≠ [] → (∀ c ∈ r.members, s.writesUnder (s.slotAt r.ctx c) slotSize = false) → ∃ u : State,
      (u.grp g.val).state = (if s.faultsOut g.val r = true then 3 else 2) ∧
      (∃ r1, (u.grp g.val).run = some r1 ∧ r1.saved = [] ∧ r1.heldMsgs = [] ∧ r1.heldArr = [] ∧ r1.redo = []) ∧
      let counted := r.heldArr.foldl (fun (s : State) a => s.countPackage g.val a.1 a.2) (r.insts.foldl (fun (s : State) e => match e.2.since with
          | some t => s.sched (s.now - t + 2 ^ (r.decl (e.1 / 64)).wdog) (.watchdogExpiry (s.gid16 g.val) (e.1 % 64) (fin64 (e.1 / 64)))
          | none => s) (((r.heldMsgs.foldl (fun (s : State) i => s.soon i) u).redoAll r).pokeInbox))
      exec (.restoreComplete g) s = .next (((r.members.foldl (fun (s : State) c =>
        let s1 := (s.releaseHeld (c / 8)).dropAcked c
        ((s1.push c (8 * (s1.core c).lcyc) 0 (.fence .acq .system 0) [] [] none false).soon (.placement (fin64 c))).pump c) counted).soon
          .frontEndStart).shunFenced g.val))

/-- A drained group RETIREs: its index is in quarantine and runs nothing; the last marker to come back frees the index; a peer's
marker goes back behind what its path holds.
Beyond the words of the rules it rests on readings of the model's own: log 13 and 27. -/
def Obligations.DrainAndQuarantineResults : Prop :=
  ∀ (s : State) (g : Fin 1024) (path : Nat),
    let x := s.grp g.val
    let left := x.marks.filter (· ≠ path)
    (∀ r, x.run = some r → x.state = 5 → (∀ c ∈ r.members, (s.core c).quiet = true) → s.piecesOf r.members = false →
      ∃ t, exec (.drainComplete g) s = .next t ∧ (t.grp g.val).state = 7 ∧ (t.grp g.val).run = none ∧
        (t.grp g.val).gen = x.gen ∧ (t.grp g.val).cause = x.cause ∧ (t.grp g.val).gtrap = x.gtrap ∧
        (t.grp g.val).marks = s.markerPaths) ∧
    (x.state ≠ 5 → exec (.drainComplete g) s = .next s) ∧
    (x.state = 7 → x.gen < 64 → ∃ t, exec (.drainMarkerReturn path (s.gid16 g.val)) s = .next t ∧
      (t.grp g.val) = { x with marks := left, state := if left = [] then 8 else 7 }) ∧
    (s.linkUsable (path / 8) = true → exec (.drainMarker path (s.gid16 g.val)) s =
      .next (s.queueOn 16 (path / 8) (path % 8) (s.link (path / 8)).peer (s.gid16 g.val).toNat [] (.drain path true))) ∧
    (s.linkUsable (path / 8) = false → exec (.drainMarker path (s.gid16 g.val)) s = .next s)

/-! ### Barriers, semaphores and flags -/

/-- What barrier traffic does at a live group: arrivals, changed declarations and landings count in the phase they are tagged for and the
instance tests; a notice sets P to the phase and A to 0 in every member of the instance; a watchdog that has run out stops the group
with BWDOG; a peer part's arrival counts. A message for a group whose id has been used up is dropped and counted, one for a saved group
is held.
Beyond the words of the rules it rests on readings of the model's own: log 14. -/
def Obligations.BarrierResults : Prop :=
  (∀ (s : State) (g : Nat) (r : Run) (gid : BitVec 16) (core : Fin 64) (b : BReg) (tag peer : Bool) (n bytes rank : Nat),
    (s.grp g).run = some r → b.val < r.bars.length →
    let inst := r.instOf core.val b.val
    let open_ := fun (i : Nat) => (r.bar b.val i).cond = 0
    let count := fun (i : Nat) (f : Bar → Bar) => s.updBar g b.val i f
    (s.fate false gid = .live g → open_ inst →
      ((r.bar b.val inst).phase = tag → exec (.barrierArrival gid core b tag) s =
        .next (((count inst fun x => if x.phase = tag then { x with arr := x.arr + 1 } else { x with arrN := x.arrN + 1 }).watch g b.val
          inst).barTest g b.val inst 8)) ∧
      ((r.bar b.val inst).phase ≠ tag → exec (.barrierArrival gid core b tag) s =
        .next ((count inst fun x => if x.phase = tag then { x with arr := x.arr + 1 } else { x with arrN := x.arrN + 1 }).barTest g b.val
          inst 8)) ∧
      ((r.bar b.val inst).land ≤ n → exec (.bdclArrival gid core b n) s =
        .next ((count inst fun x => { x with decl := n }).barTest g b.val inst 8)) ∧
      (n < (r.bar b.val inst).land → exec (.bdclArrival gid core b n) s =
        .next ((s.updBar g b.val inst fun x => { x with cond := 1 }).endGroup g 2 trBOVR 0 true))) ∧
    (s.fate peer gid = .live g → open_ inst → (peer = true → 2 ≤ (r.decl b.val).dom) → (r.bar b.val inst).phase ≠ tag →
      exec (.barrierLanding peer gid core b tag bytes) s =
        .next ((count inst fun x => if x.phase = tag then { x with land := x.land + bytes } else { x with landN := x.landN + bytes }).barTest
          g b.val inst 8)) ∧
    (s.fate peer gid = .live g → open_ inst → (peer = true → 2 ≤ (r.decl b.val).dom) → (r.bar b.val inst).phase = tag →
      exec (.barrierLanding peer gid core b tag bytes) s =
        .next (((count inst fun x => if x.phase = tag then { x with land := x.land + bytes } else { x with landN := x.landN + bytes }).watch
          g b.val inst).barTest g b.val inst 8)) ∧
    (s.fate false gid = .live g → ∃ t, exec (.completionNotice gid n b) s = .next t ∧
      ∀ m ∈ r.instMembers b.val (n / 2), b.val ∉ (t.core m).bA ∧ (b.val ∈ (t.core m).bP ↔ n % 2 = 1)) ∧
    (∀ since, s.ofGid gid = some g → (r.bar b.val n).since = some since → since + 2 ^ (r.decl b.val).wdog ≤ s.now →
      (r.decl b.val).wdog ≠ 0 → open_ n → (s.grp g).state = 2 ∨ (s.grp g).state = 3 →
      exec (.watchdogExpiry gid n b) s = .next ((s.updBar g b.val n fun x => { x with cond := 2 }).endGroup g 2 trBWDOG 0 true)) ∧
    (s.fate true gid = .live g → (r.decl b.val).dom = 3 → open_ 0 →
      let counted := count 0 fun x => if x.phase = tag then { x with parr := x.parr + 1 } else { x with parrN := x.parrN + 1 }
      ((r.bar b.val 0).phase ≠ tag → exec (.packageArrival gid b tag rank) s = .next (counted.barTest g b.val 0 8)) ∧
      ((r.bar b.val 0).phase = tag → exec (.packageArrival gid b tag rank) s = .next ((counted.watch g b.val 0).barTest g b.val 0 8)))) ∧
  (∀ (s : State) (g : Nat) (gid : BitVec 16) (core : Fin 64) (b : BReg) (tag peer : Bool) (n : Nat),
    let held := fun (i : Instr) => s.updRun g fun r => { r with heldMsgs := r.heldMsgs ++ [i] }
    let stale := { s with regs := { s.regs with gstale := min (s.regs.gstale + 1) (2 ^ 32 - 1) } }
    (s.fate peer gid = .stale → exec (.barrierLanding peer gid core b tag n) s = .next stale) ∧
    (s.fate false gid = .stale → exec (.barrierArrival gid core b tag) s = .next stale ∧
      exec (.bdclArrival gid core b n) s = .next stale ∧ exec (.completionNotice gid n b) s = .next stale) ∧
    (s.fate true gid = .stale → exec (.packageArrival gid b tag n) s = .next stale) ∧
    (s.fate true gid = .held g → exec (.packageArrival gid b tag n) s =
      .next (s.updRun g fun r => { r with heldArr := r.heldArr ++ [(b.val, tag)] })) ∧
    (s.fate peer gid = .held g → exec (.barrierLanding peer gid core b tag n) s = .next (held (.barrierLanding peer gid core b tag n))) ∧
    (s.fate false gid = .held g →
      exec (.barrierArrival gid core b tag) s = .next (held (.barrierArrival gid core b tag)) ∧
      exec (.bdclArrival gid core b n) s = .next (held (.bdclArrival gid core b n)) ∧
      exec (.completionNotice gid n b) s = .next (held (.completionNotice gid n b))))

/-- The semaphore operations in one atomic step: the new value, the old one back to the core. A waiter's test, a remote flag and the tile
dispenser.
Beyond the words of the rules it rests on readings of the model's own: log 11 and 14. -/
def Obligations.SemaphoreFlagAndTileResults : Prop :=
  ∀ (s : State) (core : Fin 64),
    let c := core.val
    let new := fun (op : Nat) (old v cmp : Word) => match op with
      | 0 => old + v
      | 1 => if old = cmp then v else old
      | 2 => v
      | 3 => if old.toInt ≤ v.toInt then v else old
      | _ => if v.toInt ≤ old.toInt then old - v else old
    -- a device semaphore
    (∀ id o op a n v cmp t, (s.core c).op id = some o → o.kind = .req (.sem op a n v cmp) t → op < 5 → n < 65536 →
      exec (.semaphoreOperation core id) s = .next ((((((s.setDevSem n (new op (s.devSem n) v cmp) (s.stampOf (c / 8))).mergeVec c
        (s.semOf c n).2).stash c id (s.devSem n)).updCore c fun k => k.dropOp id).replyAfter c 24 id).ended c |>.pump c)) ∧
    (∀ id o a n v cmp t, (s.core c).op id = some o → o.kind = .req (.sem 5 a n v cmp) t →
      exec (.semaphoreOperation core id) s = .next (((((s.mergeVec c (s.semOf c n).2).stash c id (s.semOf c n).1).updCore c
        fun k => k.dropOp id).replyAfter c (if n < 65536 then 24 else 8) id).ended c |>.pump c)) ∧
    -- a waiter
    (∀ w, s.ridge.semw.find? (fun w => w.core == c && w.met.isNone) = some w → w.thr.toInt ≤ (s.semOf c w.sem).1.toInt →
      exec (.semaphoreTest core) s = .next ((s.updRidge fun r => { r with
        semw := updWhere (fun v => v == w) (fun v => { v with met := some s.now }) r.semw }).mergeVec c (s.semOf c w.sem).2)) ∧
    (∀ w, s.ridge.semw.find? (fun w => w.core == c && w.met.isNone) = some w → (s.semOf c w.sem).1.toInt < w.thr.toInt →
      exec (.semaphoreTest core) s = .next s) ∧
    -- a flag
    (∀ gid g r rank m, ∀ f : Fin 32, ∀ val epoch acq, s.fate false gid = .live g → (s.grp g).run = some r → r.members[rank]? = some m →
      (s.core m).exited = false → ∃ t, exec (.remoteFlagChange gid core rank f val epoch acq) s = .next t ∧
        (∀ j, j < 32 → (t.core m).flags.getLsbD j = if j = f.val then val else (s.core m).flags.getLsbD j) ∧
        (t.core m).x = (s.core m).x ∧ (t.core m).p = (s.core m).p ∧ t.mem = s.mem) ∧
    -- a tile
    (∀ gid id g r, s.fate false gid = .live g → (s.core c).pend.any (·.id == id) = true → (s.grp g).run = some r →
      let gx := r.grid.1
      let gy := r.grid.2.1
      (r.tiles < gx * gy * r.grid.2.2 → exec (.dispenserGrant core ⟨gid, id⟩) s = .next ((s.updRun g fun q => { q with tiles := r.tiles + 1 }).deliver
        c id fun _ => .ntile (BitVec.ofNat 64 (r.tiles / (gx * gy) * 2 ^ 32 + r.tiles / gx % gy * 2 ^ 16 + r.tiles % gx)) true)) ∧
      (gx * gy * r.grid.2.2 ≤ r.tiles → exec (.dispenserGrant core ⟨gid, id⟩) s = .next (s.deliver c id fun _ => .ntile (-1) false))) ∧
    (∀ gid id, s.fate false gid = .stale → exec (.dispenserGrant core ⟨gid, id⟩) s = .next s.countStale)

/-! ### Memory -/

/-- A home applies a write: the bytes its mask names are in memory, every other byte is as before, and the line has the write's stamp. -/
def Obligations.AppliedWriteChangesItsBytes : Prop :=
  ∀ (s : State) (w : Write), s.MemOk →
    let t := s.applyWrite w
    t.MemOk ∧ Tbl.get t.stamps (w.key / 128) = some w.stamp ∧
    ∀ a, t.mem.read1 a =
      if w.key ≤ a ∧ a < w.key + w.bytes.length ∧ (w.bytes.getD (a - w.key) (false, 0)).1 = true then
        (w.bytes.getD (a - w.key) (false, 0)).2 else s.mem.read1 a

/-- Loads: a line that is on its way is read at what serves it, after its core's earlier loads of the line, once the bank of a scratchpad
is its and it has its turn at its home, where it asks again until it has, and goes on to memory when the L2 does not hold its line; when every
line has its bytes the data lands; a WAITA compares with its line's home, or arms the line's monitor, which wakes it or has it read again.
Beyond the words of the rules it rests on readings of the model's own: log 1, 15, 16 and 21. -/
def Obligations.LoadAndMonitorResults : Prop :=
  ∀ (s : State) (core : Fin 64) (id line : Nat) (o : MemOp) (l : LineAcc), (s.core core.val).op id = some o →
    let c := core.val
    let next := o.lines[line]? = some l ∧ l.st = .flight ∧ ∀ p ∈ (s.core c).memq, p.isPlainLoad = true → p.pos < o.pos →
      ∀ m ∈ p.lines, m.isDone = true ∨ (m.key ≠ l.key ∧ lineOf m.va ≠ lineOf l.va)
    let held := l.l1 = false ∨ (s.core c).l1.any (fun e => decide (e.1 = l.key)) = true
    let first := next ∧ held ∧ s.bankBusy c l.key = false
    let ev : Instr := .loadPerformed core id line
    let r := s.request ev
    let found := r.any (fun q => decide (q.1 < 64)) = false ∨ s.l2Hit l.key = true
    let back := fun (s1 : State) => s.backAt c id line o l (s.askMissed ev) ((s1.bankTake c l.key).askDone ev r)
    let got := match o.kind with
      | .waita _ _ _ => s.serveHome c l.key l.home l.acq
      | _ => s.serve c o.pos l.key l.home l.pte l.acq o.nl1 l.l1
    let waiting := (s.askDone (.loadPerformed core id line) none).updAgent l.home fun a => { a with loads := a.loads ++ [(c, id, line, l.acq)] }
    let arrived := o.settled = true ∧ o.unperformed = false
    let monitored := (s.core c).waitaOp = some o ∧ o.lines.head? = some l ∧ o.id = id ∧
      (⟨l.key, c, id⟩ ∈ s.ridge.mons ∨ ∃ d, d < 8 ∧ ⟨l.key, c, id⟩ ∈ (s.die d).mons)
    let unarmed := (List.range 8).foldl (fun (s : State) d => s.updDie d fun x =>
        { x with mons := x.mons.filter fun m => !(m.core == c && m.id == o.id) })
      (s.updRidge fun r => { r with mons := r.mons.filter fun m => !(m.core == c && m.id == o.id) })
    let word := fun (off : Nat) => leWord (slice (s.mem.read l.key 128) off 8)
    (∀ bs s1, first → s.hasTurn ev = true → found → s.serve c o.pos l.key l.home l.pte l.acq o.nl1 l.l1 = some (bs, s1) →
      o.isPlainLoad = true →
      exec ev s = .next ((((back s1).pinDrop l.lock).lineDone c id line (s.heldOver c o.pos l.key bs)).afterLine c id)) ∧
    (∀ bs s1 cond v off, first → s.hasTurn ev = true → found → s.serveHome c l.key l.home l.acq = some (bs, s1) →
      o.kind = .waita cond v off → exec ev s = .next ((back s1).compareArm c id line o l cond v off bs)) ∧
    (∀ p, first → got = some p → s.hasTurn ev = false → exec ev s = .next (s.askAgain ev)) ∧
    (∀ p q, first → got = some p → s.hasTurn ev = true → r = some q → q.1 < 64 → s.l2Hit l.key = false →
      exec ev s = .next (s.askMiss ev r l.home)) ∧
    (first → got = none → (c, id, line, l.acq) ∉ (s.agent l.home).loads → exec ev s = .next waiting) ∧
    (next → held → s.bankBusy c l.key = true → exec ev s = .next (s.after 1 ev)) ∧
    (next → l.l1 = true → (∀ e ∈ (s.core c).l1, e.1 ≠ l.key) → exec ev s = .next (((s.askDone ev none).restart c id line l).pump c)) ∧
    (∀ p m, o.lines[line]? = some l → l.st = .flight → p ∈ (s.core c).memq → p.isPlainLoad = true → p.pos < o.pos → m ∈ p.lines →
      m.onWay = true → m.key = l.key →
      exec ev s = .next (if s.askBehind c id line o l then s.askAgain ev else (s.askDone ev none).after 1 ev)) ∧
    (∀ p m, o.lines[line]? = some l → l.st = .flight → (∀ m ∈ (s.core c).linesBefore o l, m.onWay = false) → p ∈ (s.core c).memq →
      p.isPlainLoad = true → p.pos < o.pos → m ∈ p.lines → m.isDone = false → m.key = l.key →
      exec ev s = .next ((s.askDone ev none).restart c id line l)) ∧
    -- landing
    (∀ tD land lat e, arrived → o.kind = .load tD land lat e → (∀ p ∈ (s.core c).pend, p.w ≠ .land id) →
      exec (.loadLanding core id) s =
        .next ((((s.updCore c fun k => k.landOp id).noteLanded c (s.core c).lines).accSettle c 0).pump c)) ∧
    (∀ tD land lat e, arrived → o.kind = .load tD land lat e → (∃ p ∈ (s.core c).pend, p.w = .land id) →
      exec (.loadLanding core id) s = .next (s.updCore c fun k => { k with
        pend := updWhere (fun (p : Pend) => p.w == .land id) (fun p => { p with arrived := true }) k.pend })) ∧
    (∀ x off, arrived → o.kind = .tldw x off → o.lines = [l] → l.isDone = true → exec (.loadLanding core id) s =
      .next (((s.deliver c id fun _ => .x x (leWord (slice l.data off 8))).updCore c fun k => k.dropOp id).ended c)) ∧
    (∀ n off, arrived → o.kind = .chcfg n off → exec (.loadLanding core id) s = .next (s.soon (.chcfgEntryArrival core (fin64 n)))) ∧
    (∀ cond v off, arrived → o.kind = .waita cond v off → exec (.loadLanding core id) s =
      .next ((s.updCore c fun k => k.dropOp id).ended c)) ∧
    -- monitors
    (∀ cond v off, monitored → o.kind = .waita cond v off → waitHolds cond (word off) v = false →
      exec (.monitorWake core) s = .next (unarmed.after (legs l.home (c / 8) + max 1 (legs (c / 8) l.home)) (.loadPerformed core id 0))) ∧
    (∀ cond v off, monitored → o.kind = .waita cond v off → waitHolds cond (word off) v = true →
      exec (.monitorWake core) s = .next (((((unarmed.mergeLine (c / 8) l.key).pinDrop l.lock).updCore c fun k =>
        { (k.updOp id fun o => { o with ready := s.now + legs l.home (c / 8) }) with l1 := k.l1.filter fun e => e.1 != l.key }).lineDone
        c id 0 (s.mem.read l.key 128)).afterLine c id)) ∧
    ((s.core c).waitaOp = some o → o.id = id → (∀ m ∈ s.ridge.mons, m.core ≠ c) → (∀ d, d < 8 → ∀ m ∈ (s.die d).mons, m.core ≠ c) →
      exec (.monitorReread core) s = .next (s.performLine c id 0))

/-- Stores, buffers, writes, markers, acknowledgements and releases, and the fill of a TZERO: a store waits for its bank and for room; a
wide release drains its die once its core's accesses are performed, and ends when what it awaits is acknowledged; a drained write is applied
when it has its turn at its home and what it has seen is there, and a marker comes behind the writes of its epoch.
Beyond the words of the rules it rests on readings of the model's own: log 1 and 15. -/
def Obligations.StoreBufferAndReleaseResults : Prop :=
  ∀ (s : State) (core : Fin 64) (die : Fin 8) (home agent : Fin 18) (id line epoch key src path : Nat),
    let c := core.val
    let ev : Instr := .writeApply home id
    let taken := { s.askDone ev (s.request ev) with flights := s.flights.filter fun v => v.id != id }
    (∀ o l, (s.core c).op id = some o → o.kind = .store → o.lines[line]? = some l → l.st = .flight → s.bankBusy c l.key = true →
      exec (.storePerformed core id line) s = .next (s.after 1 (.storePerformed core id line))) ∧
    (∀ o l s1, (s.core c).op id = some o → o.kind = .store → o.lines[line]? = some l → l.st = .flight → s.bankBusy c l.key = false →
      s.wcbRoom c l.key = (false, s1) →
      exec (.storePerformed core id line) s = .next (s1.after 1 (.storePerformed core id line))) ∧
    (∀ o l s1 s4, (s.core c).op id = some o → o.kind = .store → o.lines[line]? = some l → l.st = .flight → s.bankBusy c l.key = false →
      s.wcbRoom c l.key = (true, s1) →
      s4 = ((((s1.bankTake c l.key).enterStore c o.pos l.key l.home (get l.pte 63 62) (List.zip l.mask l.data)).pinDrop l.lock).updCore c
        fun k => k.updOp id fun o => o.updLine line fun l => { l with st := .done }).noteFault c id →
      exec (.storePerformed core id line) s =
        .next (((if ((s4.core c).op id).any (fun o => !o.unperformed) then s4.updCore c fun k => k.dropOp id else s4).ended c).pump c)) ∧
    (∀ w, (s.die die.val).wcb.find? (fun w => w.key == key && w.drainable && decide (w.since + 4096 ≤ s.now)) = some w →
      exec (.wcbAgeDrain die key) s = .next (s.drainOne die.val 0 w)) ∧
    (∀ w, s.flights.find? (fun w => w.id == id && w.home == home.val) = some w →
      (s.hasTurn ev = false → exec ev s = .next (s.askAgain ev)) ∧
      (s.hasTurn ev = true → (s.agent w.home).mayApply w.home w = true → (∀ v ∈ (s.agent w.home).waiting,
          v.src ≠ w.src ∨ v.stamp.agent ≠ w.stamp.agent ∨ v.stamp.epoch ≠ w.stamp.epoch) → exec ev s = .next ((taken.applyWrite w).nextWrite w)) ∧
      (s.hasTurn ev = true → (s.agent w.home).mayApply w.home w = false →
        exec ev s = .next ((taken.updAgent w.home fun a => { a with waiting := a.waiting ++ [w] }).nextWrite w))) ∧
    -- a marker comes behind the writes that it follows
    (s.marksBehind home agent ⟨epoch, src, path⟩ = true →
      exec (.closeMarker home agent ⟨epoch, src, path⟩) s = .next (s.after 1 (.closeMarker home agent ⟨epoch, src, path⟩))) ∧
    (s.marksBehind home agent ⟨epoch, 0, path⟩ = false → exec (.closeMarker home agent ⟨epoch, 0, path⟩) s =
      .next ((((s.updAgent home.val fun a => a.close agent.val epoch).retryWrites home.val).retryLoads home.val).retryPorts)) ∧
    (src ≠ 0 → s.marksBehind home agent ⟨epoch, src, path⟩ = false → exec (.closeMarker home agent ⟨epoch, src, path⟩) s = .next ((((s.updAgent home.val fun a =>
      { a with peers := (src, agent.val, epoch, path) :: a.peers }).retryWrites home.val).retryLoads home.val).retryPorts)) ∧
    exec (.applyAcknowledgement die id) s =
      .next ((s.updDie die.val fun d => { d with wcb := d.wcb.filter fun w => w.sent != some id }).pumpDie die.val) ∧
    -- the end of a release: an ordered one is counted, an acquire empties the level-1 copies
    (∀ o ord sc, (s.core c).op id = some o → o.kind = .fence ord sc 1 →
      let drained := if relOrd ord && wideScope sc then s.releaseDie (c / 8) else (s, some s.now)
      (drained.2 = none → exec (.releaseComplete core id) s = .next (s.after 1 (.releaseComplete core id))) ∧
      (∀ t, drained.2 = some t → exec (.releaseComplete core id) s = .next ((drained.1.updCore c fun k => k.updOp id fun o =>
        { o with kind := .fence ord sc 2, ready := t }).sched t (.releaseComplete core id)))) ∧
    (∀ o ord sc stage, (s.core c).op id = some o → o.kind = .fence ord sc stage → stage ≠ 1 → s.fenceDone c o = false →
      exec (.releaseComplete core id) s = .next s) ∧
    (∀ o done, (s.core c).op id = some o → o.kind = .fence .sc .device done → s.fenceDone c o = true →
      exec (.releaseComplete core id) s = .next (((((s.updRidge fun r => { r with sc := r.sc + 1 }).updCore c fun k => { k with l1 := [] }).updCore c
        fun k => k.dropOp id).ended c).pump c)) ∧
    (∀ o done, (s.core c).op id = some o → o.kind = .fence .rel .device done → s.fenceDone c o = true →
      exec (.releaseComplete core id) s = .next (((s.updCore c fun k => k.dropOp id).ended c).pump c)) ∧
    (∀ o done, (s.core c).op id = some o → o.kind = .fence .acq .device done → s.fenceDone c o = true →
      exec (.releaseComplete core id) s =
        .next (((((s.updCore c fun k => { k with l1 := [] }).updCore c fun k => k.dropOp id).ended c).pump c))) ∧
    (∀ j, (s.core c).jobs.find? (fun j => j.id == id) = some j → j.kind = .tzero → j.done ≤ s.now →
      exec (.tzeroFill core id) s =
        .next (((s.updCore c fun k => { k with jobs := k.jobs.filter fun v => v.id != id }).fillJob c j).accSettle c id)) ∧
    exec (.bankRetry core) s = .next (s.pump c)

/-! ### Translation -/

/-- Misses that have arrived start in order while walks are free; a walk reads one entry after another, and ends with the entry found or with
the fault of the entries as they stand, each read in its turn at its home; invalidations run one after another, and the ridge's pinned
translations go when nothing reads them.
Beyond the words of the rules it rests on readings of the model's own: log 1 and 16. -/
def Obligations.TranslationResults : Prop :=
  ∀ (s : State) (die : Fin 8) (ctx : Fin 64) (va : Nat) (w : Walk),
    let d := die.val
    -- a miss that has arrived
    let alone := (s.die d).walks.filter (fun v => v.run.isNone && decide (v.arr ≤ s.now)) = [w] ∧
      (s.die d).walks.find? (fun v => v.is w.ctx w.va && v.run.isNone) = some w
    let start := s.walkStartAt w.ctx w.va
    exec (.walkStart die ctx va) s = .next (((s.die d).walks.foldl (fun l v => if v.run.isNone ∧ v.arr ≤ s.now then insertMiss v l else l)
      []).foldl (fun (s : State) w => s.walkGo d w) s) ∧
    (∀ e, alone → (s.die d).tlb.find? (·.covers w.ctx w.va) = some e → exec (.walkStart die ctx va) s = .next (s.walkLoads d w e)) ∧
    (∀ e, alone → (s.die d).tlb.find? (·.covers w.ctx w.va) = none → s.ridgeLeaf w.ctx w.va = some e →
      exec (.walkStart die ctx va) s = .next ((s.cacheLeaf e).walkLoads d w e)) ∧
    (alone → (s.die d).tlb.find? (·.covers w.ctx w.va) = none → s.ridgeLeaf w.ctx w.va = none →
      ((s.die d).walks.filter (·.run.isSome)).length < 32 →
      exec (.walkStart die ctx va) s = .next ((s.touchPtr w.ctx w.va).walkOn d w start.1 start.2)) ∧
    (alone → (s.die d).tlb.find? (·.covers w.ctx w.va) = none → s.ridgeLeaf w.ctx w.va = none →
      32 ≤ ((s.die d).walks.filter (·.run.isSome)).length → exec (.walkStart die ctx va) s = .next s) ∧
    -- a walk that has read an entry, which it does when it has its turn at the entry's home
    (∀ n pa, (s.die d).walks.find? (fun v => v.is ctx.val va && v.run.isSome) = some w → w.run = some (n + 1, pa) →
      let ev : Instr := .walkComplete die ctx va
      let t := s.askDone ev (s.request ev)
      let gone := t.updDie d fun x => { x with walks := x.walks.filter fun v => v != w }
      (s.hasTurn ev = false → exec ev s = .next (s.askAgain ev)) ∧
      (s.hasTurn ev = true → t.entryAt va n pa = none → exec ev s = .next ((gone.fenceCtx ctx.val 4).startWalks d)) ∧
      (∀ p at_, s.hasTurn ev = true → t.entryAt va n pa = some (p, at_) →
        let e : Xl := ⟨ctx.val, pageBase n va, n, p⟩
        (∀ table, pteKind n p = .ptr table → exec ev s = .next ((t.cachePtrs ctx.val va [(n, p)]).walkOn d w n table)) ∧
        (∀ cause, pteKind n p = .bad cause → exec ev s = .next ((t.walkFaults d w cause).startWalks d)) ∧
        (pteKind n p = .leaf → bit p 57 = false ∨ t.lockRoom e = true →
          exec ev s = .next (((t.cacheLeaf e).walkLoads d w e).startWalks d)) ∧
        (pteKind n p = .leaf → bit p 57 = true → t.lockRoom e = false →
          exec ev s = .next ((t.walkFaults d w 11).startWalks d)))) ∧
    exec .invalidationBegin s = .next s.gatherInv.beginInv ∧
    (s.ridge.invs = [] → exec .invalidationComplete s = .next s) ∧
    (∀ i rest, s.ridge.invs = i :: rest → i.began ≠ 0 → i.began + 59 ≤ s.now →
      (∀ l ∈ s.ridge.locks, l.withdrawn = true → l.xl.under i.ctx i.va i.sz = true → l.readers = 0 ∧ s.lockWaits l.id = false) →
      let done := s.updRidge fun r => { r with invs := rest, locks := r.locks.filter fun l => !(l.withdrawn && l.readers == 0 && !s.lockWaits l.id) }
      (i.by_ = none → exec .invalidationComplete s = .next ((done.updRegs fun r => { r with invBusy := false }).gatherInv.beginInv)) ∧
      (∀ c id, i.by_ = some (c, id) → exec .invalidationComplete s =
        .next ((((done.updCore c fun k => k.dropOp id).ended c).pump c).gatherInv.beginInv))) ∧
    (∀ i rest, s.ridge.invs = i :: rest → i.began = 0 ∨ s.now < i.began + 59 ∨
      (∃ l ∈ s.ridge.locks, l.withdrawn = true ∧ l.xl.under i.ctx i.va i.sz = true ∧ l.readers ≠ 0) →
      exec .invalidationComplete s = .next s)

/-! ### Engines and placement -/

/-- The matrix engine and the vector pipes: a step done, an operation over, the next one started once the bank groups of the cycle before
have been given out and its forerunner's results are not late, results put in their tiles.
Beyond the words of the rules it rests on readings of the model's own: log 1. -/
def Obligations.EngineResults : Prop :=
  ∀ (s : State) (core : Fin 64) (id : Nat) (q : Bool),
    let c := core.val
    let k := s.core c
    let finished := (k.mma.filter fun o => o.start.isSome && !o.active s.now).map (·.id)
    let done := s.updCore c fun k => { k with jobs := k.jobs.filter fun v => v.id != id }
    let turned := s.trfTurn c
    (∀ o, k.mma.find? (fun o => o.id == id) = some o → o.start.isSome = true → o.kdone + 1 < o.ksteps →
      exec (.kstepComplete core id) s = .next ((s.updCore c fun k => k.kstep o).after o.c (.kstepComplete core id))) ∧
    (∀ o, k.mma.find? (fun o => o.id == id) = some o → o.start.isSome = true → o.kdone + 1 = o.ksteps →
      exec (.kstepComplete core id) s = .next ((s.updCore c fun k => k.kstep o).soon (.mmaComplete core id))) ∧
    exec (.shadowSwap core) s =
      .next ((s.updCore c fun k => { k with readers := k.readers.filter fun r => !finished.contains r.2 }).engineNext c) ∧
    (∀ o, k.mma.find? (fun o => o.id == id) = some o → o.start.isSome = true → o.ksteps ≤ o.kdone →
      exec (.mmaComplete core id) s = .next (((s.logEvs c o.pos o.addr o.evs).updCore c fun k =>
        { k with mma := k.mma.filter fun v => v.id != id }).accSettle c id)) ∧
    (∀ j acc, k.jobs.find? (fun j => j.id == id) = some j → j.done ≠ 0 → j.done ≤ s.now → j.kind = .mclr acc →
      exec (.matrixOutputComplete core id) s = .next ((done.updCore c fun k => k.accZero acc).accSettle c id)) ∧
    (∀ j acc rows cols fmt img, k.jobs.find? (fun j => j.id == id) = some j → j.done ≠ 0 → j.done ≤ s.now →
      j.kind = .mfeed acc rows cols fmt img → exec (.matrixOutputComplete core id) s =
        .next (((done.setCore c ((done.core c).feed acc ⟨rows, cols, fmt⟩ img).1).logEvs c j.pos j.addr
          ((done.core c).feed acc ⟨rows, cols, fmt⟩ img).2).accSettle c id)) ∧
    (∀ j, k.jobs.find? (fun j => j.id == id) = some j → j.done ≠ 0 → j.done ≤ s.now → j.kind = .mrd →
      exec (.matrixOutputComplete core id) s = .next ((done.fillJob c j).accSettle c id)) ∧
    (∀ j acc tD rm sat rs, k.jobs.find? (fun j => j.id == id) = some j → j.done ≠ 0 → j.done ≤ s.now →
      j.kind = .mout acc tD rm sat rs → exec (.matrixOutputComplete core id) s = .next ((done.fillJob c j).accSettle c id)) ∧
    (∀ o rest, (turned.core c).pipe q = o :: rest →
      ((∀ j ∈ (turned.core c).jobs, j.id = o.job.id → j.done + o.occ ≤ s.now + o.lat) →
        exec (.pipeStart core q) s = .next ((turned.updCore c fun k => k.setPipe q rest).pipeGo c q)) ∧
      ((∃ j ∈ (turned.core c).jobs, j.id = o.job.id ∧ s.now + o.lat < j.done + o.occ) →
        exec (.pipeStart core q) s = .next (turned.watchTrf c))) ∧
    ((turned.core c).pipe q = [] → exec (.pipeStart core q) s = .next (turned.watchTrf c)) ∧
    (∀ j, k.jobs.find? (fun j => j.id == id) = some j → j.done ≠ 0 → j.done ≤ s.now → j.kind = .vec →
      exec (.vectorComplete core id) s = .next (((done.fillJob c j).deliver c id fun w => w).accSettle c id))

/-- Placed operations: their pieces are made, start at their place, and end in order, where every home of the destination takes them.
Beyond the words of the rules it rests on readings of the model's own: log 17. -/
def Obligations.PlacementResults : Prop :=
  ∀ (s : State) (core : Fin 64) (id : Nat),
    let c := core.val
    let ids := ((s.core c).memq.filter fun o => o.plKind.isSome).map (·.id)
    let placed := (ids.foldl (fun (s : State) id => s.prepare c id) s).placeGo c ids
    ((s.core c).hold = none → (placed.core c).memq = (s.core c).memq → exec (.placement core) s = .next placed) ∧
    ((s.core c).hold = none → (placed.core c).memq ≠ (s.core c).memq →
      exec (.placement core) s = .next ((placed.soon (.pieceStart 0)).pump c)) ∧
    ((s.core c).hold ≠ none → exec (.placement core) s = .next s) ∧
    exec (.pieceStart 0) s =
      .next (s.startCore ((s.ridge.pieces.filter fun p => p.2.place == 0 && p.2.st == 0).map (·.1)) []) ∧
    exec (.pieceStart 1) s = .next (((s.intake 1).freeArrays.centralGo 8).intake 1) ∧
    (∀ u, u < 8 → exec (.pieceStart (fin10 (u + 2))) s = .next (((s.intake (u + 2)).startEave u).intake (u + 2))) ∧
    (∀ p, Tbl.get s.ridge.pieces id = some p → p.st = 2 ∨ p.st = 3 → (s.core p.core).op p.op = none → exec (.pieceComplete id) s =
      .next (((s.updRidge fun r => { r with pieces := Tbl.erase r.pieces id }).soon (.pieceStart (fin10 p.place))).ended p.core)) ∧
    (∀ p o k, Tbl.get s.ridge.pieces id = some p → p.st = 2 ∨ p.st = 3 → (s.core p.core).op p.op = some o → o.plKind = some k →
      let group := (s.opPieces p.core p.op).filter fun q => decide (q.m0 = p.m0 ∧ q.n0 = p.n0)
      ((∃ q ∈ group, q.k0 < p.k0 ∧ q.st ≠ 4) → exec (.pieceComplete id) s = .next (s.updPiece id fun p => { p with st := 3 })) ∧
      ((∀ q ∈ group, q.k0 < p.k0 → q.st = 4) → s.homesTake p.core o = false →
        exec (.pieceComplete id) s = .next ((s.updPiece id fun p => { p with st := 3 }).after 1 (.pieceComplete id))) ∧
      ((∀ q ∈ group, q.k0 < p.k0 → q.st = 4) → s.homesTake p.core o = true →
        let r := s.storePiece o k p
        -- the next sum follows 4 cycles later
        let t := match lowestK (group.filter fun q => q.st == 3 && decide (p.k0 < q.k0)) with
          | some q => r.1.after 4 (.pieceComplete q.id)
          | none => r.1
        let u := bif (t.opPieces p.core p.op).all (·.st == 4) then t.finishPlaced p.core o k r.2 else t
        exec (.pieceComplete id) s = .next (if p.place = 0 then u else u.soon (.pieceStart (fin10 p.place)))))

/-! ### Channels and replies -/

/-- A channel's new entry, a landing that fills its slot, a credit that comes back, and what arrives at the ridge or back at a core.
Beyond the words of the rules it rests on readings of the model's own: log 18. -/
def Obligations.ChannelAndReplyResults : Prop :=
  ∀ (s : State) (core : Fin 64) (n : CReg) (gid : BitVec 16) (g : Nat) (r : Run), (s.grp g).run = some r →
    let c := core.val
    (∀ before o after l off x, (s.core c).memq = before ++ o :: after → (∀ p ∈ before, ∀ a, p.kind ≠ .chcfg n.val a) →
      o.kind = .chcfg n.val off → o.unperformed = false → o.lines = [l] → s.grpOf c = some g →
      chanOf (words4 (slice l.data off 32)) r.npkg r.members.length r.peers = some x →
      exec (.chcfgEntryArrival core n) s = .next ((((s.updCore c fun k => k.dropOp o.id).updCore c fun k =>
        { k with chans := Tbl.set k.chans n.val x }).ended c).pump c)) ∧
    (∀ before o after l off, (s.core c).memq = before ++ o :: after → (∀ p ∈ before, ∀ a, p.kind ≠ .chcfg n.val a) →
      o.kind = .chcfg n.val off → o.unperformed = false → o.lines = [l] → s.grpOf c = some g → (s.grp g).state ≤ 3 →
      chanOf (words4 (slice l.data off 32)) r.npkg r.members.length r.peers = none →
      exec (.chcfgEntryArrival core n) s = .next (((s.updCore c fun k => k.dropOp o.id).updCore c fun k => k.updChan n.val fun x =>
        { x with pend := false }).endGroup g 2 trSHAPE (gtrapWord o.addr (o.pos % 8)) false)) ∧
    (∀ x sender slot shape tag bytes, s.MemOk → s.fate (decide (64 ≤ sender)) gid = .live g → (s.core c).chan n.val = some x →
      slot < x.nslot → (x.slots.getD slot (0, 0, 0)).1 = 0 → x.bar = none →
      ∃ t, exec (.channelLanding gid core sender n slot shape tag bytes) s = .next t ∧ t.MemOk ∧
        (∀ a, t.mem.read1 a = if scrKey c (128 * (x.rbase + slot * x.lines)) ≤ a ∧
            a < scrKey c (128 * (x.rbase + slot * x.lines)) + min bytes.length (128 * x.lines)
          then bytes.getD (a - scrKey c (128 * (x.rbase + slot * x.lines))) 0 else s.mem.read1 a) ∧
        ∃ y, (t.core c).chan n.val = some y ∧ y.slots = x.slots.set slot (2, shape, sender) ∧ y.pp = x.pp ∧ y.cp = x.cp) ∧
    (∀ x b sender slot shape tag bytes, s.fate (decide (64 ≤ sender)) gid = .live g → (s.core c).chan n.val = some x →
      slot < x.nslot → (x.slots.getD slot (0, 0, 0)).1 = 0 → x.bar = some b →
      exec (.channelLanding gid core sender n slot shape tag bytes) s = .next (({ s with
          mem := s.mem.write (scrKey c (128 * (x.rbase + slot * x.lines))) (bytes.take (128 * x.lines)) }.updCore c fun k =>
        k.updChan n.val fun x => { x with slots := x.slots.set slot (2, shape, sender) }).barLand g b (r.instOf c b) tag bytes.length)) ∧
    (∀ peer, s.fate peer gid = .live g → exec (.channelCredit peer gid core n) s =
      .next (s.updCore c fun k => k.updChan n.val fun x => { x with cred := x.cred + 1 })) ∧
    (∀ x sender slot shape tag bytes, s.fate (decide (64 ≤ sender)) gid = .live g → (s.core c).chan n.val = some x →
      slot < x.nslot → (x.slots.getD slot (0, 0, 0)).1 ≠ 0 →
      exec (.channelLanding gid core sender n slot shape tag bytes) s = .next (s.endGroup g 2 trCHOVR 0 false)) ∧
    (∀ op rq at_ id, (s.core c).op id = some op → op.kind = .req rq at_ → op.left = true → op.fq = false →
      exec (.replyArrival core ⟨gid, id⟩) s = .next (s.serveReq c id op rq)) ∧
    (∀ op id, (s.core c).op id = some op → op.plKind ≠ none → exec (.replyArrival core ⟨gid, id⟩) s = .next (s.testEntry c id)) ∧
    (∀ id, (s.core c).op id = none → s.fate false gid = .live g → (∃ p ∈ (s.core c).pend, p.id = id) →
      exec (.replyArrival core ⟨gid, id⟩) s = .next (s.deliver c id fun w => w)) ∧
    (∀ id, (s.core c).op id = none → s.fate false gid = .held g →
      exec (.replyArrival core ⟨gid, id⟩) s = .next (s.updRun g fun r => { r with heldMsgs := r.heldMsgs ++ [.replyArrival core ⟨gid, id⟩] })) ∧
    (∀ id, (s.core c).op id = none → s.fate false gid = .stale → exec (.replyArrival core ⟨gid, id⟩) s = .next s.countStale)

/-! ### Routes, conversions, collectives, transfers, slabs and experts -/

/-- Operations of a route run one at a time in order. One completes when other packages have answered what it sent and its own rows have been
applied: record, tick, semaphore, in this order, then the next; without a descriptor there is no record and no semaphore.
Beyond the words of the rules it rests on readings of the model's own: log 18. -/
def Obligations.RouteOperationResults : Prop :=
  ∀ (s : State) (ctx route : Fin 64) (peers : List (List Byte)) (o : ROp) (rest : List ROp),
    let x := ctx.val
    let n := route.val
    let r0 := s.route x n
    let r := r0.gave peers
    let s0 := s.updRoute x n fun _ => r
    let f : For := ⟨some o.core, x, 16⟩
    let next := fun (t : State) => let u := (t.updRoute x n (·.ended)).routeReads x n
      if rest = [] then u else u.settled 0 (.routeOperationRun ctx route)
    let answered := r.res.1 ≠ 0 ∨ (r.sent = [] ∧ r.asked = [])
    let applied := r.res.1 ≠ 0 ∨ s.unapplied r.ids.1 r.ids.2 = false
    r0.queue = o :: rest →
    (r0.run = true → exec (.routeOperationRun ctx route) s = .next s) ∧
    (r0.run = false → exec (.routeOperationRun ctx route) s =
      .next (((s.runRoute x n r0 o).updRoute x n fun k => { k with run := true }).after 1 (.routeOperationComplete ctx route []))) ∧
    (r0.run = false → exec (.routeOperationComplete ctx route peers) s = .next s) ∧
    (r0.run = true → ¬answered → exec (.routeOperationComplete ctx route peers) s = .next s0) ∧
    (r0.run = true → answered → ¬applied →
      exec (.routeOperationComplete ctx route peers) s = .next (s0.after 1 (.routeOperationComplete ctx route []))) ∧
    (r0.run = true → answered → applied → r.ready = false → o.op ≠ 8 ∨ r.res.1 ≠ 0 →
      exec (.routeOperationComplete ctx route peers) s = .next (next (s0.tick 16 0))) ∧
    (r0.run = true → answered → applied → r.ready = true → o.op ≠ 8 ∨ r.res.1 ≠ 0 →
      exec (.routeOperationComplete ctx route peers) s =
        .next (next (((s0.routeRecord f r.desc o r.words r.res).tick 16 0).addSem 16 (rtSem r.desc) 1))) ∧
    (r0.run = true → answered → applied → r.ready = true → o.op = 8 → r.res.1 = 0 →
      let w := s0.combine f r o (wnth r.words 0).toNat
      exec (.routeOperationComplete ctx route peers) s =
        .next (next (((w.st.routeRecord f r.desc o r.words (w.res, w.evt, w.fva)).tick 16 0).addSem 16 (rtSem r.desc) 1)))

/-- Conversions and collective steps join with their peers, go on stage by stage, send and take what each step moves, wait for their writes,
time out, and store through entries: what a converting entry holds back, what a resident one writes, and the version a store is tested
against.
Beyond the words of the rules it rests on readings of the model's own: log 20 and 22. -/
def Obligations.ConversionAndCollectiveResults : Prop :=
  ∀ (s : State) (ctx core : Fin 64) (entry : Fin 1024) (id : Nat) (peers : List (List Byte)),
    let x := ctx.val
    let n := entry.val
    let p := s.plent x n
    let c := core.val
    -- joins
    (∀ key rank seq axis src dst, let s1 := s.updRidge fun r => { r with joins := r.joins ++ [⟨key, rank, seq, axis, src, dst⟩] }
      (∀ e ∈ s.ctxs, e.2.ptab = []) → exec (.join key rank seq axis src dst) s =
        .next (s.ridge.colls.foldl (fun (s : State) k => s.collJoined k) s1)) ∧
    (∀ cv rest, p.convs = cv :: rest → cv.seq < 65536 → cv.joinAt ≠ 0 → cv.begun = false →
      cv.joinAt + 2 ^ get s.regs.meshcfg 53 48 ≤ s.now + 1 →
      exec (.joinTimeout ctx entry cv.seq) s = .next (s.convEnd x n 4 0)) ∧
    (∀ k, s.ridge.colls.find? (fun k => k.id + 65536 == id + 65536) = some k → k.sent = true → k.begun = false →
      exec (.joinTimeout ctx entry (id + 65536)) s = .next (s.endColl k 4 0)) ∧
    -- stages of a conversion
    (∀ cv rest, p.convs = cv :: rest →
      let g := convStage s.regs.meshcfg p.words cv
      (cv.puts = none → cv.joinAt = 0 → exec (.conversionStageComplete ctx entry peers) s = .next (s.convGo x n (4 - cv.axis))) ∧
      (cv.puts = none → cv.joinAt ≠ 0 → cv.ids = none → g.kind = .local_ →
        exec (.conversionStageComplete ctx entry peers) s = .next (s.stageDone x n cv g)) ∧
      (cv.puts = none → cv.joinAt ≠ 0 → cv.ids = none → g.kind ≠ .local_ → cv.begun = false →
        exec (.conversionStageComplete ctx entry peers) s = .next s) ∧
      (∀ ms, cv.puts = none → cv.joinAt ≠ 0 → cv.ids = none → g.kind ≠ .local_ → cv.begun = true → cv.went = some ms →
        exec (.conversionStageComplete ctx entry peers) s = .next (s.convTake x n cv g ms peers)) ∧
      (∀ d later ms, cv.puts = none → cv.joinAt ≠ 0 → cv.ids = none → g.kind ≠ .local_ → cv.begun = true → cv.went = none →
        ((s.convSend x n cv g).plent x n).convs = d :: later → d.went = some ms → d.seq = cv.seq →
        exec (.conversionStageComplete ctx entry peers) s = .next ((s.convSend x n cv g).convTake x n d g ms peers)) ∧
      (∀ ids, cv.puts = none → cv.joinAt ≠ 0 → cv.ids = some ids → exec (.conversionStageComplete ctx entry peers) s =
        .next (if s.unapplied ids.1 ids.2 = true then s.after 1 (.conversionStageComplete ctx entry []) else s.stageSwap x n cv g)) ∧
      (∀ ids ms, cv.puts = some ms → cv.ids = some ids → exec (.conversionStageComplete ctx entry peers) s =
        .next (if s.unapplied ids.1 ids.2 = true then s.after 1 (.conversionStageComplete ctx entry [])
          else if ms = [] then s.convFin x n 0 0 else s))) ∧
    -- steps of a collective
    (∀ k, s.ridge.colls.find? (fun k => k.id == id) = some k →
      (∀ k1, k.sent = false → (s.collTry k).ridge.colls.find? (fun k => k.id == id) = some k1 →
        exec (.collectiveStepComplete id peers) s = .next ((s.collTry k).collJoined k1)) ∧
      (k.sent = true → k.begun = false → exec (.collectiveStepComplete id peers) s = .next s) ∧
      (∀ ms, k.sent = true → k.begun = true → k.ids = none → k.went = some ms →
        exec (.collectiveStepComplete id peers) s = .next (s.collTake k ms peers)) ∧
      (∀ k1 ms, k.sent = true → k.begun = true → k.ids = none → k.went = none →
        (s.collSend k).ridge.colls.find? (fun k => k.id == id) = some k1 → k1.went = some ms →
        exec (.collectiveStepComplete id peers) s = .next ((s.collSend k).collTake k1 ms peers)) ∧
      (∀ ids, k.sent = true → k.begun = true → k.ids = some ids → s.unapplied ids.1 ids.2 = true →
        exec (.collectiveStepComplete id peers) s = .next (s.after 1 (.collectiveStepComplete id []))) ∧
      (∀ ids, k.sent = true → k.begun = true → k.ids = some ids → s.unapplied ids.1 ids.2 = false → clBar k.desc = none ∨ k.landed = 0 →
        exec (.collectiveStepComplete id peers) s = .next (s.endColl k 0 0)) ∧
      (∀ ids b, k.sent = true → k.begun = true → k.ids = some ids → s.unapplied ids.1 ids.2 = false → clBar k.desc = some b → k.landed ≠ 0 →
        exec (.collectiveStepComplete id peers) s = .next ((s.landForPacket k.ctx b k.landed).endColl k 0 0))) ∧
    -- stores through entries
    (∀ o e bytes, let q := s.plent (s.ctxOf c) (hPle e.ws)
      let g := 8 + plAff q.words % 8
      let size := q.heldBytes + bytes.foldl (fun n b => n + b.2.length) 0
      let wrote := (s.merge g (s.stampOf (c / 8))).pstoreGo c (s.ctxOf c) g q.words bytes
      let current := hVer e.ws = plVer q.words
      (s.core c).op id = some o → o.kind = .pstore e bytes → o.fq = false →
      (hVer e.ws ≠ plVer q.words →
        exec (.tsthAtEave core id) s = .next (s.opFault c o 8 2 1 (hFirst e.shape e.ws (plBase q.words) e.offs) (.op c id))) ∧
      (current → plConv q.words = true → size ≤ 2 ^ 22 →
        exec (.tsthAtEave core id) s = .next (((((s.merge g (s.stampOf (c / 8))).updPlent (s.ctxOf c) (hPle e.ws) fun p =>
          { p with held := p.held ++ bytes.filterMap fun b =>
            (heldAt s.regs.meshcfg q.words ((b.1 : Int) - pstoreBase) b.2.length).map fun k => (⟨k, some c, none, b.2⟩ : HeldSt) }).updCore c fun k =>
          k.dropOp id).ended c).pump c)) ∧
      (current → plConv q.words = true → 2 ^ 22 < size → exec (.tsthAtEave core id) s = .next (s.after 60 (.tsthAtEave core id))) ∧
      (current → plConv q.words = false → wrote.2 = none →
        exec (.tsthAtEave core id) s = .next (((wrote.1.updCore c fun k => k.dropOp id).ended c).pump c)) ∧
      (∀ va cause, current → plConv q.words = false → wrote.2 = some (va, cause) → cause ≠ 0 →
        exec (.tsthAtEave core id) s = .next (wrote.1.opFault c o cause 2 1 va (.op c id))) ∧
      (∀ va, current → plConv q.words = false → wrote.2 = some (va, 0) →
        exec (.tsthAtEave core id) s = .next (wrote.1.fenceCtx (s.ctxOf c) 4)))

/-- A link of a transfer chain copies its bytes and adds them to the watermark; a slab that grows copies 64 rows at a time, its watermark
passes them once they are applied, and it takes its new base at the end; an expert slot is filled line by line and becomes RESIDENT with the
last; the first byte that faults writes an entry.
Beyond the words of the rules it rests on readings of the model's own: log 16 and 19. -/
def Obligations.TransferSlabAndExpertResults : Prop :=
  ∀ (s : State) (ch ctx : Fin 64) (kk : Fin 4096) (n : Fin 64),
    let k := s.xch ch.val
    let x := get k.own 5 0
    let e := s.slab ctx.val kk.val
    let row := sbRow e.words
    let cap := sbCap e.words
    let q := s.eslot n.val
    (∀ c rest, let now := fun (t : State) (c1 : Chain) => t.updXch ch.val fun k => { k with chains := c1 :: rest }
      k.chains = c :: rest → c.made = none → c.on = false →
      exec (.transferLinkComplete ch) s = .next ((now s { c with on := true }).after (s.linkTime x c) (.transferLinkComplete ch))) ∧
    -- a link's writes
    (∀ c rest, let f : For := ⟨c.core, x, 16⟩
      let l := (Work.on s).read f c.link 32
      let ws := (List.range 4).map (wordAt l.1)
      let dst := get (wnth ws 1) 51 0
      let src := l.2.read f (get (wnth ws 0) 51 0) (get (wnth ws 2) 39 0)
      let w := src.2.write f dst src.1
      let lo := src.2.st.nextId
      let upto := w.st.applied lo w.st.nextId (min (w.fva - dst) src.1.length)
      let made := { c with made := some (ws, lo, w.st.nextId) }
      k.chains = c :: rest → c.made = none → c.on = true →
      (l.2.res ≠ 0 → exec (.transferLinkComplete ch) s = .next (l.2.st.faultChain ch.val l.2.fva)) ∧
      (l.2.res = 0 → s.linkOk x c.link ws = false → exec (.transferLinkComplete ch) s = .next (l.2.st.faultChain ch.val c.link)) ∧
      (l.2.res = 0 → s.linkOk x c.link ws = true → w.res ≠ 0 → exec (.transferLinkComplete ch) s =
        .next ((w.st.updXch ch.val fun k => { k with wm := (k.wm + upto) % 2 ^ 48 }).faultChain ch.val w.fva)) ∧
      (l.2.res = 0 → s.linkOk x c.link ws = true → w.res = 0 → exec (.transferLinkComplete ch) s =
        .next ((w.st.updXch ch.val fun k => { k with chains := made :: rest }).after 0 (.transferLinkComplete ch)))) ∧
    -- the link once they are applied
    (∀ c rest m, let moved := s.updXch ch.val fun k => { k with wm := (k.wm + get (wnth m.1 2) 39 0) % 2 ^ 48 }
      let c1 := { c with link := get (wnth m.1 3) 51 0, made := none }
      let next := (moved.addSem 16 (get (wnth m.1 2) 56 40) 1).updXch ch.val fun k => { k with chains := c1 :: rest }
      k.chains = c :: rest → c.made = some m →
      (s.unapplied m.2.1 m.2.2 = true → exec (.transferLinkComplete ch) s = .next (s.after 1 (.transferLinkComplete ch))) ∧
      (s.unapplied m.2.1 m.2.2 = false → bit (wnth m.1 2) 57 = false → get (wnth m.1 3) 51 0 = 0 → c.pkt = none →
        rest = [] → exec (.transferLinkComplete ch) s =
          .next (((moved.tick 16 0).updXch ch.val fun k => { k with chains := [] }).updXch ch.val fun k => { k with state := 0 })) ∧
      (s.unapplied m.2.1 m.2.2 = false → bit (wnth m.1 2) 57 = true → get (wnth m.1 3) 51 0 ≠ 0 → exec (.transferLinkComplete ch) s =
        .next (next.after (next.linkTime x c1) (.transferLinkComplete (fin64 ch.val))))) ∧
    -- a chunk of a growth: copied, and once it is applied the watermark passes it
    (sbState e.words = 2 → e.stop = false → e.ids = none →
      let src := sbBase e.words + sbWm e.words * row
      let dst := sbNew e.words + sbWm e.words * row
      let stopped := fun (t : State) => t.updSlab ctx.val kk.val fun b => { b with stop := true }
      (∀ bs s1 s2, s.vread (some e.core) ctx.val 16 src (64 * row) = .ok (bs, s1) → s1.vwrite (some e.core) ctx.val 16 dst bs = (s2, none) →
        exec (.slabChunkCopied ctx kk) s =
          .next ((s2.updSlab ctx.val kk.val fun b => { b with ids := some (s1.nextId, s2.nextId) }).after 0 (.slabChunkCopied ctx kk))) ∧
      (∀ va cause, s.vread (some e.core) ctx.val 16 src (64 * row) = .error (va, cause) →
        exec (.slabChunkCopied ctx kk) s = .next ((stopped s).slabFault ctx.val cause e.core 1 va e.by_ (.grow kk.val))) ∧
      (∀ bs s1 s2 va cause, s.vread (some e.core) ctx.val 16 src (64 * row) = .ok (bs, s1) →
        s1.vwrite (some e.core) ctx.val 16 dst bs = (s2, some (va, cause)) →
        exec (.slabChunkCopied ctx kk) s = .next ((stopped s2).slabFault ctx.val cause e.core 0 va e.by_ (.grow kk.val)))) ∧
    (∀ w, sbState e.words = 2 → e.stop = false → e.ids = some w →
      (s.unapplied w.1 w.2 = true → exec (.slabChunkCopied ctx kk) s = .next (s.after 1 (.slabChunkCopied ctx kk))) ∧
      (s.unapplied w.1 w.2 = false → sbWm e.words + 64 < 2 ^ cap →
        exec (.slabChunkCopied ctx kk) s = .next ((s.updSlab ctx.val kk.val fun b =>
          { b with words := slabWords 2 cap (sbBase e.words) row (sbNew e.words) (sbWm e.words + 64), ids := none }).after (1 + row)
            (.slabChunkCopied ctx kk))) ∧
      (s.unapplied w.1 w.2 = false → 2 ^ cap ≤ sbWm e.words + 64 →
        let grown := (s.updSlab ctx.val kk.val fun _ =>
          { Slab.reset with words := slabWords 1 (cap + 1) (sbNew e.words) row 0 0 }).tick 16 0
        exec (.slabChunkCopied ctx kk) s = .next (if e.sem < 65536 then grown.addSem 16 e.sem 1 else grown))) ∧
    -- a line of an expert's weights: written into the slot, and once it is applied the loads held for it go on
    (∀ bs s1, q.state = 1 → q.ids = none → s.vread (some q.core) q.ctx 16 (q.src + q.filled) 128 = .ok (bs, s1) →
      let s2 := s1.agentWrite 16 (chipBase + s.slotOff n.val + q.filled) 16 bs
      exec (.expertSlotFilled n) s =
        .next ((s2.updEslot n.val fun k => { k with ids := some (s1.nextId, s2.nextId) }).after 0 (.expertSlotFilled n))) ∧
    (∀ va cause, q.state = 1 → q.ids = none → s.vread (some q.core) q.ctx 16 (q.src + q.filled) 128 = .error (va, cause) →
      exec (.expertSlotFilled n) s = .next (s.slabFault q.ctx cause q.core 1 va q.by_ (.fill n.val))) ∧
    (∀ w, q.state = 1 → q.ids = some w →
      let landed := fun (state : Nat) => (s.updEslot n.val fun k => { k with state := state, filled := k.filled + 128, ids := none }).retryLoads 16
      (s.unapplied w.1 w.2 = true → exec (.expertSlotFilled n) s = .next (s.after 1 (.expertSlotFilled n))) ∧
      (s.unapplied w.1 w.2 = false → q.filled + 128 < s.slotLen → exec (.expertSlotFilled n) s = .next ((landed 1).after 2 (.expertSlotFilled n))) ∧
      (s.unapplied w.1 w.2 = false → s.slotLen ≤ q.filled + 128 → exec (.expertSlotFilled n) s = .next ((landed 2).exRetry))) ∧
    (q.state ≠ 1 → exec (.expertSlotFilled n) s = .next s)

/-! ### Links -/

/-- The states of a link: training, its end or timeout, fences, wavelengths lost, laser modules, replay, and the slot control. A link
that drops keeps no wavelength, no tick lock and nothing queued or on its way to it.
Beyond the words of the rules it rests on readings of the model's own: log 8 and 23. -/
def Obligations.LinkStateResults : Prop :=
  ∀ (s : State) (l : Fin 48) (w : Nat) (flit tail : List Byte) (val : Word),
    let n := l.val
    let k := s.link n
    let dropped := fun (t : State) (state loss : Nat) => (t.link n).state = state ∧ (t.link n).nwl = 0 ∧ (t.link n).tlock = false ∧
      (t.link n).queue = [] ∧ (t.link n).coming = [] ∧ (t.link n).replay = [] ∧ (t.link n).loss = loss
    -- LNKCTL
    (k.state = 0 ∨ k.state = 5 ∨ k.state = 6 → s.lasers.getD (n / 12) false = true → ∃ t, exec (.lnkTrain l) s = .next t ∧
      (t.link n).state = 1 ∧ (t.link n).replays = 0 ∧ (s.now + 3000000, .trainingTimeout l) ∈ t.agenda) ∧
    (k.state ≠ 0 ∧ k.state ≠ 5 ∧ k.state ≠ 6 ∨ s.lasers.getD (n / 12) false = false → exec (.lnkTrain l) s = .next s) ∧
    (k.state = 1 → ∃ t, exec (.lnkFence l) s = .next t ∧ dropped t 5 4) ∧
    (2 ≤ k.state ∧ k.state ≤ 4 → exec (.lnkFence l) s = .next (s.dropLink n 5 4)) ∧
    (k.state = 0 ∨ 5 ≤ k.state → exec (.lnkFence l) s = .next s) ∧
    exec (.lnkDisable l) s = .next (s.dropLink n 0 0) ∧
    -- training: this end's identity flit goes out, and the lower of the two counts of wavelengths is taken
    (∀ f, k.state = 1 → readFlit (flit ++ tail) = some f → f.vc = 6 → numAt f.bytes 1 1 = 2 →
      let both := min (min w (numAt f.bytes 0 1)) 16
      let mine : Flit := ⟨6, 2, 0, 0, 0xFFFF, 2, [BitVec.ofNat 8 w, 2], 0, .nothing⟩
      (12 ≤ both → ∃ t, exec (.trainingDone l w flit tail) s = .next t ∧ (t.link n).state = (if both = 16 then 2 else 3) ∧
        (t.link n).nwl = both ∧ (t.link n).peer = f.peer ∧ (t.link n).peers = [] ∧
        (t.link n).wire = mine.image none 0 0 s.regs.pkrank) ∧
      (both < 12 → ∃ t, exec (.trainingDone l w flit tail) s = .next t ∧ dropped t 6 2)) ∧
    (∀ f, k.state = 1 → readFlit (flit ++ tail) = some f → f.vc = 6 → numAt f.bytes 1 1 ≠ 2 →
      ∃ t, exec (.trainingDone l w flit tail) s = .next t ∧ dropped t 6 1) ∧
    (readFlit (flit ++ tail) = none ∨ k.state ≠ 1 → exec (.trainingDone l w flit tail) s = .next s) ∧
    (k.state = 1 → k.free ≤ s.now → ∃ t, exec (.trainingTimeout l) s = .next t ∧ dropped t 6 1) ∧
    -- wavelengths and laser modules
    (k.state = 2 ∨ k.state = 3 → 12 < k.nwl → ∃ t, exec (.wavelengthLoss l) s = .next t ∧ (t.link n).state = 4 ∧
      (t.link n).back = 3 ∧ (t.link n).nwl = k.nwl - 1 ∧ (t.link n).resend = k.replay.map fun e => (e.1.peer, e.1.seq)) ∧
    (k.state = 2 ∨ k.state = 3 → k.nwl ≤ 12 → exec (.wavelengthLoss l) s = .next (s.dropLink n 6 2)) ∧
    (∀ gable, gable < 4 → exec (.laserModuleRemoval gable) s = .next ((List.range 12).foldl
      (fun (s : State) i => s.dropLink (12 * gable + i) 0 6) { s with lasers := s.lasers.set gable false })) ∧
    (∀ gable, exec (.laserModuleInsertion gable) s = .next { s with lasers := s.lasers.set gable true }) ∧
    -- replay: from the SEQ a NAK names, or all of every peer whose oldest has waited 4 µs
    (∀ u f, s.receive n 4 flit = (u, some f) → (u.link n).state = 2 ∨ (u.link n).state = 3 → ∃ t, exec (.nak l flit) s = .next t ∧
      (t.link n).state = 4 ∧ (t.link n).back = (u.link n).state ∧ (t.link n).replays = min ((u.link n).replays + 1) 65535 ∧
      (t.link n).replay = (u.link n).replay ∧
      (t.link n).resend = (((u.link n).replay.map fun e => (e.1.peer, e.1.seq)).filter fun e => e.1 == (u.link n).sender f.peer).dropWhile
        (· != ((u.link n).sender f.peer, f.seq))) ∧
    (k.state = 2 ∨ k.state = 3 → (∃ e ∈ k.replay, e.2.2 + 6000 ≤ s.now) → ∃ t, exec (.replayTimeout l) s = .next t ∧
      (t.link n).state = 4 ∧ (t.link n).back = k.state ∧
      ∀ p q, (p, q) ∈ (t.link n).resend ↔ (∃ e ∈ k.replay, e.1.peer = p ∧ e.1.seq = q) ∧ ∃ e ∈ k.replay, e.1.peer = p ∧ e.2.2 + 6000 ≤ s.now) ∧
    (k.state = 4 → k.resend = [] → ∃ t, exec (.replayComplete l) s = .next t ∧ t.link n = { k with state := k.back, back := 0 }) ∧
    -- a flit that fails its CRC
    (s.linkUsable n = true → k.en = false ∨ k.wrongId = false → exec (.crcFailure l) s =
      .next (s.sendNak n (((k.window s.ftick).map (·.peer)).getD k.peer))) ∧
    (s.linkUsable n = true → k.en = true → k.wrongId = true → exec (.crcFailure l) s = .next (s.mismatch n)) ∧
    -- SLTCTL
    (k.en = false → bit val 8 = true → k.tableOk (get val 6 0) = true → ∃ t, exec (.sltctlWrite l val) s = .next t ∧
      (t.link n).en = true ∧ (t.link n).nslot = get val 6 0) ∧
    (k.en = true → bit val 8 = false → ∃ t, exec (.sltctlWrite l val) s = .next t ∧ (t.link n).en = false ∧
      (t.link n).nslot = k.nslot % 128 ∧ (t.link n).slot = none)

/-- Slots and flits: a slot opens, its guard ends with a SLOTID flit, it closes; the next flit leaves when the window allows it, a resend
first; flits received count in order and their messages act in order; the fabric tick follows the upstream link.
Beyond the words of the rules it rests on readings of the model's own: log 8 and 23. -/
def Obligations.LinkTrafficResults : Prop :=
  ∀ (s : State) (l : Fin 48) (flit : List Byte) (roundTrip : Nat),
    let n := l.val
    let k := s.link n
    let p := k.slotAt s.ftick
    let tickFlit : Flit := ⟨6, 3, 0, ((k.window s.ftick).map (·.peer)).getD k.peer, 0xFFFF, 8, natLE 8 s.ftick, 0, .nothing⟩
    (k.en = true → s.linkUsable n = true → k.sltbase.toNat ≤ s.ftick → k.slot = none → exec (.slotOpen l) s =
      .next (((s.updLink n fun k => { k with slot := some (p.1, p.2, false, 0), wrongId := false }).atTick (p.2 + seGuard (k.entry p.1))
        (.guardEnd l)).atTick (p.2 + seDur (k.entry p.1)) (.slotClose l))) ∧
    (k.en = true → s.linkUsable n = true → s.ftick < k.sltbase.toNat →
      exec (.slotOpen l) s = .next (s.atTick k.sltbase.toNat (.slotOpen l))) ∧
    (∀ i at_ used, k.slot = some (i, at_, false, used) → at_ + seGuard (k.entry i) ≤ s.ftick → seV (k.entry i) = true →
      exec (.guardEnd l) s = .next ((s.updLink n fun k => { k with
        slot := some (i, at_, true, 0), queue := ⟨0, 5, 0, sePeer (s.link n |>.entry i), 0xFFFF, 0, [], 0, .nothing⟩ :: k.queue }).soon
          (.flitSend l))) ∧
    (∀ i at_ done used, k.slot = some (i, at_, done, used) → at_ + seDur (k.entry i) ≤ s.ftick → exec (.slotClose l) s =
      .next ((s.updLink n fun k => { k with slot := none, wrongId := false }).soon (.slotOpen l))) ∧
    -- sending, in the state where what has come over the ring has joined the queue and what was received has gone to its agents
    (let b := (s.updLink n fun k => k.board s.now).handInbox n
      let j := b.link n
      (b.linkUsable n = false → exec (.flitSend l) s = .next b) ∧
      (b.linkUsable n = true → b.now < j.free → (j.free, .flitSend l) ∉ b.agenda →
        exec (.flitSend l) s = .next (b.sched j.free (.flitSend l))) ∧
      (∀ w, b.linkUsable n = true → j.free ≤ b.now → j.window b.ftick = some w → b.fitsSlot j w = true →
        (∀ i g, j.choose w = some (i, g) → exec (.flitSend l) s = .next (b.sendFlit n i g w)) ∧
        (∀ q, j.choose w = none → j.state = 4 → j.nextResend w = some q → exec (.flitSend l) s = .next (b.resendFlit n q)) ∧
        (j.choose w = none → j.state = 4 → j.resend = [] → exec (.flitSend l) s = .next (b.soon (.replayComplete l))) ∧
        (∀ v, j.choose w = none → j.state ≠ 4 → b.payable j w.peer = some v → exec (.flitSend l) s =
          .next (b.putFlit n ⟨0, 0, 0, w.peer, 0xFFFF, 0, [], 0, .nothing⟩)))) ∧
    (k.state = 1 → (∀ e ∈ s.agenda, e.2 = .tickSend l → e.1 ≤ s.now) → exec (.tickSend l) s =
      .next ((s.updLink n fun k => { k with wire := tickFlit.image none 0 0 s.regs.pkrank }).after 23438 (.tickSend l))) ∧
    (s.linkUsable n = true → (∀ e ∈ s.agenda, e.2 = .tickSend l → e.1 ≤ s.now) → exec (.tickSend l) s =
      .next (((s.updLink n fun k => { k with queue := k.queue ++ [tickFlit] }).soon (.flitSend l)).after 23438 (.tickSend l))) ∧
    -- receiving: a flit that does not read is bad, one the slot rules discard is counted, any other gives its acknowledgement and credits
    (∀ telling, s.linkUsable n = true → readFlit flit = none → exec (.payload l flit) s = .next (s.badFlit n) ∧
      exec (.last l ⟨flit, telling⟩) s = .next (s.badFlit n) ∧ exec (.idle l flit) s = .next (s.badFlit n) ∧
      exec (.nak l flit) s = .next (s.badFlit n) ∧ exec (.tickFlit l flit roundTrip) s = .next (s.badFlit n)) ∧
    (∀ f telling, s.linkUsable n = true → readFlit flit = some f → k.discards s.ftick f.peer = true →
      (s.mismatch n).link n = { k with mismatch := min (k.mismatch + 1) 65535 } ∧
      (f.kind = 1 → exec (.payload l flit) s = .next (s.mismatch n)) ∧ (f.kind = 2 → exec (.last l ⟨flit, telling⟩) s = .next (s.mismatch n)) ∧
      (f.kind = 0 → exec (.idle l flit) s = .next (s.mismatch n)) ∧ (f.kind = 4 → exec (.nak l flit) s = .next (s.mismatch n)) ∧
      (f.kind = 3 → exec (.tickFlit l flit roundTrip) s = .next (s.mismatch n))) ∧
    (∀ f, s.linkUsable n = true → readFlit flit = some f → k.discards s.ftick f.peer = false →
      s.receive n f.kind flit = (s.takeHeader n (k.sender f.peer) f, some f) ∧
      (f.kind = 0 → exec (.idle l flit) s = .next (s.takeHeader n (k.sender f.peer) f))) ∧
    (∀ u f, s.receive n 1 flit = (u, some f) →
      let j := u.link n
      (f.seq = (j.peerSt (j.sender f.peer)).rxSeq → f.vc ≠ 7 → ∃ t, exec (.payload l flit) s = .next t ∧
        ((t.link n).peerSt (j.sender f.peer)).rxSeq = (f.seq + 1) % 8192 ∧
        Tbl.get (t.link n).assembly (j.sender f.peer * 8 + f.vc) =
          some (Tbl.getD j.assembly (j.sender f.peer * 8 + f.vc) [] ++ f.bytes)) ∧
      (f.seq ≠ (j.peerSt (j.sender f.peer)).rxSeq → exec (.payload l flit) s = .next (u.sendNak n (j.sender f.peer)))) ∧
    -- a message complete: it waits for the ring, and acts at its agent behind those before it
    (∀ u f v peer bs telling, s.receive n 2 flit = (u, some f) → u.acceptFlit n f true = (v, some (peer, bs)) →
      let far := (s.hopsTo n telling f.gid).length
      let kept := v.updLink n fun k => { k with inbox := k.inbox ++ [⟨s.now + 18 * far, peer, f.vc, f.gid, telling, bs⟩] }
      let stale := f.gid ≠ 0xFFFF ∧ outlivesGroup telling = false ∧ v.fate true (BitVec.ofNat 16 f.gid) = .stale
      (stale → exec (.last l ⟨flit, telling⟩) s = .next v.countStale) ∧
      (¬ stale → far = 0 → exec (.last l ⟨flit, telling⟩) s = .next (kept.handInbox n)) ∧
      (¬ stale → far ≠ 0 → exec (.last l ⟨flit, telling⟩) s = .next (kept.sched (s.now + 18 * far) (.flitSend l)))) ∧
    (∀ u f v telling, s.receive n 2 flit = (u, some f) → u.acceptFlit n f true = (v, none) → exec (.last l ⟨flit, telling⟩) s = .next v) ∧
    (∀ f q, s.linkUsable n = true → readFlit flit = some f → f.kind = 5 → k.slot = some q → k.en = true →
      let told := fun (wrong : Bool) => s.updLink n fun k => { k with wrongId := wrong }
      (sePeer (k.entry q.1) ≠ f.peer → exec (.slotid l flit) s = .next (told true)) ∧
      (sePeer (k.entry q.1) = f.peer → exec (.slotid l flit) s = .next ((told false).takeHeader n f.peer f))) ∧
    -- the fabric tick: the sender's tick and half the round trip
    (∀ f, readFlit flit = some f → f.kind = 3 → s.upstream = some n → k.state = 1 → k.back = 0 →
      let tick := numAt f.bytes 0 8 + roundTrip / 2
      (s.ftick ≤ tick → ∃ t, exec (.tickFlit l flit roundTrip) s = .next t ∧ t.ftick = tick % 2 ^ 64 ∧ (t.link n).back = 1) ∧
      (tick < s.ftick → ∃ t, exec (.tickFlit l flit roundTrip) s = .next t ∧ t.ftick = s.ftick ∧ t.thold = s.ftick - tick)) ∧
    (∀ u f, s.receive n 3 flit = (u, some f) → k.state ≠ 1 → u.upstream = some n → u.linkUsable n = true → (u.link n).state ≠ 1 →
      let tick := numAt f.bytes 0 8 + roundTrip / 2
      tick ≤ u.ftick + 2 → u.ftick ≤ tick + 2 → ∃ t, exec (.tickFlit l flit roundTrip) s = .next t ∧ (t.link n).tlock = true ∧
        t.tadj = (tick : Int) - u.ftick)

/-! ### Errors and ageing -/

/-- Errors are counted or recorded, and what they make unusable is fenced; a die is measured, drained, paused and idle again.
Beyond the words of the rules it rests on readings of the model's own: log 25. -/
def Obligations.ErrorAndAgeingResults : Prop :=
  ∀ (s : State) (core : Fin 64) (u : Fin 8) (arr : Fin 4) (l : Fin 48) (die : Fin 21) (pa consumer : Nat) (margins temps : List Nat),
    let w := s.age die.val
    exec .correctableError s = .next { s with regs := { s.regs with ce := min (s.regs.ce + 1) 65535 } } ∧
    (∀ g, core.val ∉ s.fenced → s.grpOf core.val = some g → (s.grp g).state = 2 ∨ (s.grp g).state = 3 → exec (.coreLogicCheck core) s =
      .next (((({ s with fenced := insertNat core.val s.fenced }).soon .frontEndStart).stopGroup g 6 0).errRecord 4 2 (s.gid16 g).toNat
        core.val 0)) ∧
    (core.val ∉ s.fenced → s.grpOf core.val = none ∨ (∃ g, s.grpOf core.val = some g ∧ (s.grp g).state ≠ 2 ∧ (s.grp g).state ≠ 3) → exec (.coreLogicCheck core) s =
      .next ((({ s with fenced := insertNat core.val s.fenced }).soon .frontEndStart).errRecord 4 2 0 core.val 0)) ∧
    (u.val ∉ s.ridge.eaveFenced → (∀ e ∈ s.ridge.pieces, e.2.place ≠ u.val + 2) → exec (.eaveLogicCheck u) s =
      .next (((s.updRidge fun r => { r with eaveFenced := insertNat u.val r.eaveFenced, eaveRun := r.eaveRun.set u.val none }).rehome
        []).errRecord 7 5 0 u.val 0)) ∧
    (arr.val ∉ s.ridge.arrFenced → (insertNat arr.val s.ridge.arrFenced).length < 4 → s.ridge.arrays.getD arr.val none = none →
      exec (.arrayLogicCheck arr) s = .next ((s.updRidge fun r => { r with
        arrFenced := insertNat arr.val r.arrFenced, arrays := r.arrays.set arr.val none }).errRecord 8 6 0 arr.val 0)) ∧
    (1 ≤ (s.link l.val).state ∧ (s.link l.val).state ≤ 4 → exec (.linkError l) s =
      .next ((s.dropLink l.val 5 5).errRecord 5 3 0 l.val 0)) ∧
    -- an uncorrectable error: what consumed it ends, and the frame is retired; the record's ACTION is 8 only where it is retired now
    (∀ key home, resolvePA pa = some (key, home) →
      let line := pa / 128 * 128
      let noted := fun (t : State) (kind action gid : Nat) => (t.errRecord kind action gid (unitOf key) line).retire key line
      let act := if key < hbmTop ∧ s.regs.rettab.contains (key / 65536) = false ∧ s.regs.rettab.length < 1024 then 8 else 0
      exec (.uncorrectableError pa consumer 0) s = .next (noted s 3 act 0) ∧
      (∀ g, s.grpOf (consumer % 64) = some g → (s.grp g).state = 2 ∨ (s.grp g).state = 3 → s.gid16 g ≠ 0 →
        exec (.uncorrectableError pa consumer 1) s = .next (noted (s.stopGroup g 6 0) 2 1 (s.gid16 g).toNat)) ∧
      (s.grpOf (consumer % 64) = none → exec (.uncorrectableError pa consumer 1) s = .next (noted s 2 act 0)) ∧
      ((s.xch (consumer % 64)).chains ≠ [] → exec (.uncorrectableError pa consumer 2) s =
        .next (noted (s.faultChain (consumer % 64) 0) 2 act 0)) ∧
      ((s.ctx (consumer % 64)).state = 2 → exec (.uncorrectableError pa consumer 6) s =
        .next (((s.fenceCtx (consumer % 64) 3).retire key line).errRecord 10 7 0 (unitOf key) line)) ∧
      ((s.queue (consumer % 256)).en = true → (s.queue (consumer % 256)).state = 1 → exec (.uncorrectableError pa consumer 7) s =
        .next (noted (s.queueError (consumer % 256) 3) 2 act 0))) ∧
    -- ageing: the INT of AGECFG sets when the next measurement is due
    (s.powered = true → get s.regs.agecfg 15 0 ≠ 0 → margins ≠ [] → (s.measure margins temps).powered = true →
      exec (.measurement margins temps) s = .next (s.measure margins temps).nextMeasure) ∧
    (s.powered = true → get s.regs.agecfg 15 0 ≠ 0 → (s.measure margins temps).powered = false → margins ≠ [] →
      exec (.measurement margins temps) s = .next (s.measure margins temps)) ∧
    (s.powered = false ∨ get s.regs.agecfg 15 0 = 0 → exec (.measurement margins temps) s = .next s) ∧
    (s.powered = true → exec .meas s = .next s.measureNow) ∧
    (die.val < 8 → agPlan w = 1 → Tbl.getD s.regs.ageWait die.val 0 ≤ s.now → exec (.agewaitExpiry die) s =
      .next ((s.groupsOn die.val).foldl (fun (s : State) g => s.updRun g fun r => { r with preempt := true })
        (s.setAge die.val (put w 1 0 2)))) ∧
    (agPlan w = 1 ∨ agPlan w = 2 → s.mayPause die.val = true → exec (.replanPause die) s =
      .next ((s.setAge die.val (put (put (put w 63 48 (agPauses w + 1)) 39 32 (min 255 (agGuard w + 4 - agMarg w))) 1 0 3)).after 3000000
        (.pauseEnd die))) ∧
    (agPlan w = 3 → ∃ t, exec (.pauseEnd die) s = .next t ∧ t.age die.val = put w 1 0 0) ∧
    exec (.pkgtelRefresh pa consumer die.val) s = .next { s with regs := { s.regs with
      pkgtel := BitVec.ofNat 64 (die.val % 256 * 2 ^ 24 + consumer % 256 * 2 ^ 16 + pa % 65536) } }

/-! ### Power, boot, reset and the host -/

/-- Power and boot: what a cold start keeps, how an image is taken or refused, what initialisation leaves, attestation, and the warm
reset, which a function-level reset does too.
Beyond the words of the rules it rests on readings of the model's own: log 24. -/
def Obligations.PowerBootAndResetResults : Prop :=
  ∀ (s : State) (mv us die temp : Nat) (req : List Byte),
    let off := fun (t : State) => t.powered = false ∧ t.ctxs = [] ∧ t.queues = [] ∧ t.grps = [] ∧ t.links = [] ∧ t.cores = [] ∧
      t.regs.bootState = 0 ∧ t.regs.bootCtr = s.regs.bootCtr ∧ t.now = s.now ∧ ∀ e ∈ t.mem, hostBase ≤ e.1
    (mv < 44000 → 100 ≤ us → ∃ t, exec (.powerLoss mv us) s = .next t ∧ off t) ∧
    (44000 ≤ mv ∨ us < 100 → exec (.powerLoss mv us) s = .next s) ∧
    (die < 21 → 110 ≤ temp → ∃ t, exec (.overtemperature die temp) s = .next t ∧ off t) ∧
    (temp < 110 → exec (.overtemperature die temp) s = .next s) ∧
    (∃ t, exec .coldStart s = .next t ∧ t.powered = true ∧ t.regs.bootState = 0 ∧ t.regs.bootCtr = s.regs.bootCtr ∧ t.ctxs = [] ∧
      t.cores = [] ∧ t.ftick = 0) ∧
    -- commands of RSTCTL are held at the port until the host's earlier writes have been applied
    (s.powered = true → s.PortClear → s.regs.bootState = 0 ∨ s.regs.bootState = 4 → ∃ t, exec .boot s = .next t ∧ t.regs.bootState = 1 ∧
      t.regs.bootCause = 0) ∧
    (s.PortClear → s.powered = false ∨ s.regs.bootState ≠ 0 ∧ s.regs.bootState ≠ 4 → exec .boot s = .next s) ∧
    (s.hostWaits = true → exec .boot s = .next (s.after 1 (.registerWrite 0x8 1)) ∧
      exec .warmReset s = .next (s.after 1 (.registerWrite 0x8 2))) ∧
    -- the checks of an image, in their order
    (s.regs.bootState = 1 →
      let hb := s.regs.buffer.read 0 64
      let h := hdrOf hb
      let sig := s.regs.buffer.read 64 29792
      let body := s.regs.buffer.read 29856 (imgLen h)
      let failed := fun (t : State) (cause : Nat) => t.regs.bootState = 4 ∧ t.regs.bootCause = cause ∧ t.regs.buffer = []
      (hdrOk h = false → ∃ t, exec .imageVerified s = .next t ∧ failed t 1) ∧
      (hdrOk h = true → Config.imageOk (hb ++ sig ++ body) = false → ∃ t, exec .imageVerified s = .next t ∧ failed t 2) ∧
      (hdrOk h = true → Config.imageOk (hb ++ sig ++ body) = true → imgSvn h < s.regs.bootCtr →
        ∃ t, exec .imageVerified s = .next t ∧ failed t 3) ∧
      (hdrOk h = true → Config.imageOk (hb ++ sig ++ body) = true → s.regs.bootCtr ≤ imgSvn h →
        ∃ t, exec .imageVerified s = .next t ∧ t.regs.bootState = 2 ∧ t.regs.image = hb ++ body)) ∧
    (s.regs.bootState = 2 → ∃ t, exec (.initComplete true) s = .next t ∧ t.regs.bootState = 3 ∧ t.regs.image = s.regs.image ∧
      s.regs.bootCtr ≤ t.regs.bootCtr ∧ t.cores = [] ∧ t.ctxs = [] ∧ t.queues = []) ∧
    (s.regs.bootState = 2 → ∃ t, exec (.initComplete false) s = .next t ∧ t.regs.bootState = 4 ∧ t.regs.bootCause = 4) ∧
    (s.powered = true → s.regs.bootState = 3 → exec (.spdmRequest req) s = .next { s with regs := { s.regs with
      spdm := true, spdmOut := Config.spdmReply req (some s.regs.image) s.regs.bootCtr (imgSvn (hdrOf (s.regs.image.take 64))) ::
        s.regs.spdmOut } }) ∧
    -- warm reset
    (s.powered = true → s.regs.bootState = 3 → ∃ t, (s.PortClear → exec .warmReset s = .next t) ∧ exec .functionLevelReset s = .next t ∧
      t.phase = .idle ∧ t.cores = [] ∧ t.ctxs = [] ∧ t.queues = [] ∧ t.grps = [] ∧ t.links = [] ∧ t.regs.bootState = 3 ∧
      t.regs.errlog = s.regs.errlog ∧ t.regs.rettab = s.regs.rettab ∧ t.regs.agest = s.regs.agest ∧ t.regs.gstale = 0 ∧
      t.regs.ctxtab = 0) ∧
    (s.regs.bootState ≠ 3 → (s.PortClear → exec .warmReset s = .next s) ∧ exec .functionLevelReset s = .next s)

/-- The host port: a register write acts as its register says, the writes with rules of their own as those say, a command or what is behind
one waits for the host's earlier writes, and accesses to device memory reach the value at the home while the package is READY.
Beyond the words of the rules it rests on readings of the model's own: log 28. -/
def Obligations.HostPortResults : Prop :=
  ∀ (s : State) (off pa len : Nat) (v : Word) (bytes : List Byte),
    (s.powered = true → s.PortClear → exec (.registerWrite off v) s = .next (s.writeReg off v)) ∧
    (s.powered = true → (∀ e ∈ s.agenda, ∀ o w, e.2 = .registerWrite o w → e.1 ≤ s.now) → isCommand off = false →
      exec (.registerWrite off v) s = .next (s.writeReg off v)) ∧
    (s.powered = true → isCommand off = true ∧ s.hostWaits = true ∨ (∃ e ∈ s.agenda, ∃ o w, e.2 = .registerWrite o w ∧ s.now < e.1) →
      exec (.registerWrite off v) s = .next (s.after 1 (.registerWrite off v))) ∧
    (s.powered = false → exec (.registerWrite off v) s = .next s) ∧
    (meshOk (BitVec.ofNat 64 (get v 53 0)) s.regs.pkrank = true → s.ridge.colls = [] → s.ctxs = [] →
      exec (.meshcfgWrite v) s = .next { s with regs := { s.regs with meshcfg := BitVec.ofNat 64 (get v 53 0) } }) ∧
    (meshOk (BitVec.ofNat 64 (get v 53 0)) s.regs.pkrank = false → exec (.meshcfgWrite v) s = .next s) ∧
    (quotaOk (BitVec.ofNat 64 (get v 39 0)) = true →
      exec (.l2qtWrite v) s = .next { s with regs := { s.regs with l2qt := BitVec.ofNat 64 (get v 39 0) } }) ∧
    (quotaOk (BitVec.ofNat 64 (get v 39 0)) = false → exec (.l2qtWrite v) s = .next s) ∧
    (16 ≤ get v 4 0 → get v 4 0 ≤ 21 → get v 26 5 * 2 ^ 21 + 64 * 2 ^ get v 4 0 ≤ 2 ^ 27 →
      (∀ e ∈ s.ridge.slots, e.2.readers = 0 ∧ e.2.state ≠ 1) → exec (.excfgWrite v) s = .next { s with
        regs := { s.regs with excfg := BitVec.ofNat 64 (get v 26 0) }, ridge := { s.ridge with slots := [] } }) ∧
    ((∃ e ∈ s.ridge.slots, e.2.readers ≠ 0 ∨ e.2.state = 1) → exec (.excfgWrite v) s = .next s) ∧
    (get v 31 0 = 0 → exec (.gstaleWrite v) s = .next { s with regs := { s.regs with gstale := 0 } }) ∧
    (get v 31 0 ≠ 0 → exec (.gstaleWrite v) s = .next s) ∧
    (s.hostWaits = true → exec (.invreq v) s = .next (s.after 1 (.registerWrite 0x70 v)) ∧
      exec (.resume v) s = .next (s.after 1 (.registerWrite 0x78 v))) ∧
    (s.PortClear → s.regs.invBusy = false → exec (.invreq v) s = .next (((s.updRegs fun r => { r with invBusy := true }).updRidge fun r => { r with
      invs := r.invs ++ [⟨none, s.now + 1, get v 57 52, get v 51 16 * 65536, invSizeOf (get v 61 60), 0⟩] }).after 1 .invalidationBegin)) ∧
    (s.PortClear → s.regs.invBusy = true → exec (.invreq v) s = .next s) ∧
    (∀ t m, s.PortClear → s.frsm (get v 5 0) (get v 31 16) = (t, some m) → m < 2 ^ 32 →
      exec (.resume v) s = .next { t with regs := { t.regs with resumeDone := m } }) ∧
    (∀ t, s.PortClear → s.frsm (get v 5 0) (get v 31 16) = (t, none) →
      exec (.resume v) s = .next { t with regs := { t.regs with resumeDone := 0xFFFFFFFF } }) ∧
    (s.cxlMem = true → pa + len ≤ hbmTop → s.unitFault pa = none → ∃ t, exec (.hostMemRead pa len) s = .next t ∧
      t.regs.reads = s.mem.read pa len :: s.regs.reads ∧ t.mem = s.mem) ∧
    (s.cxlMem = true → pa + bytes.length ≤ hbmTop → s.unitFault pa = none → exec (.hostMemWrite pa bytes) s =
      .next (s.agentWrite 17 pa (8 + pa / 2 ^ 36) bytes)) ∧
    (hostBase ≤ pa → pa + bytes.length ≤ 2 * hostBase → exec (.hostMemWrite pa bytes) s = .next (s.agentWrite 17 pa 17 bytes)) ∧
    (s.cxlMem = false → pa + bytes.length ≤ hbmTop → exec (.hostMemRead pa len) s = .next s ∧ exec (.hostMemWrite pa bytes) s = .next s)

/-! ### Rules of the whole machine -/

/-- An instruction whose predicate does not hold, or for whose slot its bundle has listed a trap, changes nothing; SEL alone always
executes, its predicate choosing between xA and xB. -/
def Obligations.UnexecutedInstructionChangesNothing : Prop :=
  (∀ (s : State) (h : Hdr) (xD xA xB : XReg), exec (.sel h xD xA xB) s =
    .next (s.result h 1 xD (if s.here.holds s.issuer h then s.here.rx xA else s.here.rx xB) [])) ∧
  ∀ (s : State) (i : Instr) (h : Hdr), i.hdr? = some h → (∀ xD xA xB, i ≠ .sel h xD xA xB) →
    (s.here.holds s.issuer h = false → exec i s = .next s) ∧
    (s.here.bctx.ready = true → (∃ t ∈ s.here.bctx.traps, t.1 = h.slot.val) → exec i s = .next s)

/-- Taking a trap: the group goes to DRAINING with CAUSE 2, the code of the lowest trapped slot and GTRAP naming that slot and its bundle,
its context, when ACTIVE and not being suspended, becomes FAULTED with CAUSE 1, and every member stops issuing. -/
def Obligations.TrapEndsTheGroup : Prop :=
  ∀ (s : State) (c g slot code : Nat) (r : Run) (before after : List (Nat × Nat)),
    (s.core c).group = some g → (s.grp g).run = some r → (s.grp g).state ≤ 3 →
    (s.core c).bctx.traps = before ++ (slot, code) :: after → (∀ t ∈ before, slot < t.1) → (∀ t ∈ after, slot ≤ t.1) →
    (s.core c).bctx.cmit = false → (s.core c).bctx.exit = false →
    ∃ u : State, s.finishBundle c = (r.members.foldl (fun (s : State) m => s.endCore false m) u).drainCheck g ∧
      (u.grp g).state = 5 ∧ (u.grp g).cause = 2 ∧ (u.grp g).trap = code ∧ (u.grp g).gen = (s.grp g).gen ∧
      (u.grp g).gtrap = BitVec.ofNat 64 (s.bundleAddr c / 32 % 2 ^ 47 * 32 + slot % 8) ∧
      (u.core c).lcyc = (s.core c).lcyc + 1 ∧ u.mem = s.mem ∧
      ((s.ctx (s.grp g).ctx).state = 2 → (s.ctx (s.grp g).ctx).spnd = false →
        (u.ctx (s.grp g).ctx).state = 4 ∧ (u.ctx (s.grp g).ctx).cause = 1) ∧
      ((s.ctx (s.grp g).ctx).state = 2 → (s.ctx (s.grp g).ctx).spnd = true →
        (u.ctx (s.grp g).ctx).state = 2 ∧ (u.ctx (s.grp g).ctx).cause = 1)

/-- Results that fall due are applied in the order of their due bundle, then of issue: of the scalar writes of one register that are due,
the last in that order is what the register holds; what is not due stays pending. -/
def Obligations.DueWritesApplyInOrder : Prop :=
  ∀ (k : Core) (p : Pend) (r : XReg) (v : Word), p ∈ k.pend → p.due ≤ k.lcyc → p.w = .x r.val v → r.val ≠ 0 →
    (∀ q ∈ k.pend, q.due ≤ k.lcyc → (∀ id, q.w ≠ .land id) ∧ (∀ a b, q.w ≠ .ntile a b)) →
    (∀ q ∈ k.pend, q ≠ p → q.due ≤ k.lcyc → (∃ v', q.w = .x r.val v') → q.due < p.due ∨ (q.due = p.due ∧ q.pos < p.pos)) →
    k.applyDue.rx r = v ∧ k.applyDue.pend = k.pend.filter fun q => decide (k.lcyc < q.due)

/-- Registers with a meaning of their own: x0 reads as 0, p0 as true, p12 and p13 as the first and the last iteration of the innermost open
level and false with none open, p14 and p15 as the die's and the core's bit of DSEL and CSEL, and writes to them are discarded; a write
to any other register is what it reads as. -/
def Obligations.FixedRegisters : Prop :=
  ∀ (k : Core) (c : Nat) (r : XReg) (p : PReg) (v : Word) (b : Bool),
    (r.val = 0 → k.rx r = 0 ∧ k.apply (.x r.val v) = k) ∧
    (r.val ≠ 0 → (k.apply (.x r.val v)).rx r = v ∧ ∀ q : XReg, q ≠ r → (k.apply (.x r.val v)).rx q = k.rx q) ∧
    (∀ l rest, k.stack = l :: rest → (p.val = 12 → (k.rp c p = true ↔ l.index = 0)) ∧
      (p.val = 13 → (k.rp c p = true ↔ l.index + 1 = l.count))) ∧
    (k.stack = [] → p.val = 12 ∨ p.val = 13 → k.rp c p = false) ∧
    (p.val = 0 → k.rp c p = true) ∧ (p.val = 14 → k.rp c p = decide (k.dsel / 2 ^ (c / 8) % 2 = 1)) ∧
    (p.val = 15 → k.rp c p = decide (k.csel / 2 ^ (c % 8) % 2 = 1)) ∧
    (p.val = 0 ∨ 12 ≤ p.val → k.apply (.p p.val b) = k) ∧
    (p.val ≠ 0 → p.val < 12 → (k.apply (.p p.val b)).rp c p = b ∧
      ∀ q : PReg, q ≠ p → (k.apply (.p p.val b)).rp c q = k.rp c q)

/-- What the state after reset holds: nothing runs, the boot state is WAITFW, and the registers have the reset values the spec gives them;
memory is in its canonical form.
Beyond the words of the rules it rests on readings of the model's own: log 2 and 6. -/
def Obligations.ResetState : Prop :=
  State.reset.MemOk ∧ State.reset.regs.bootState = 0 ∧ State.reset.powered = true ∧ State.reset.phase = .idle ∧
  (∀ c, c < 64 → (State.reset.core c).group = none ∧ (State.reset.core c).rbnd = 0x0400 ∧
    (State.reset.core c).seed = 0x9E3779B9 ^^^ BitVec.ofNat 32 c) ∧
  (∀ x, (State.reset.ctx x).state = 0) ∧ (∀ g, (State.reset.grp g).state = 8) ∧ (∀ q, (State.reset.queue q).cls = 2) ∧
  (∀ l, (State.reset.link l).state = 0) ∧ (∀ a, (State.reset.agent a).epoch = 0) ∧
  State.reset.regs.meshcfg = 0x001E_0000_0000_0000 ∧ State.reset.regs.l2qt = 0xC0300C0300 ∧ State.reset.regs.excfg = 0x15 ∧
  State.reset.regs.tkcfg = 0x40

/-- Memory keeps its canonical form: whatever a step does from a state whose memory is canonical, the memory after it is. -/
def Obligations.StepKeepsMemoryCanonical : Prop :=
  ∀ s t : State, s.MemOk → step s = .next t → t.MemOk
end

