-- ==== Sys2Proof/Laws/Mem.lean ====
section
/-! SUPPORT. Laws of byte memory: the canonical form is kept, and reading back what was written. -/

namespace Sys2Proof.Machine

/-- All cells lie at or above `a`. -/
def Mem.From (a : Nat) (m : Mem) : Prop := ∀ c ∈ m, a ≤ c.1

/-- The canonical form, head and tail. -/
theorem Mem.wf_cons (k : Nat) (b : Byte) (m : Mem) :
    Mem.wf ((k, b) :: m) = true ↔ b ≠ Mem.blank ∧ m.From (k + 1) ∧ m.wf = true := by
  induction m generalizing k b with
  | nil => simp [Mem.wf, Mem.From]
  | cons c m ih =>
    obtain ⟨j, d⟩ := c
    have h := ih j d
    simp only [Mem.wf, Bool.and_eq_true, bne_iff_ne, decide_eq_true_eq, Mem.From, List.mem_cons] at h ⊢
    constructor
    · rintro ⟨⟨hb, hk⟩, hw⟩
      refine ⟨hb, ?_, hw⟩
      rintro c (rfl | hc)
      · exact hk
      · have := (h.1 hw).2.1 c hc
        omega
    · rintro ⟨hb, hf, hw⟩
      exact ⟨⟨hb, hf _ (Or.inl rfl)⟩, hw⟩

/-- A byte below every listed address is blank. -/
theorem Mem.read1_of_from {m : Mem} {a b : Nat} (h : m.From b) (hab : a < b) : m.read1 a = Mem.blank := by
  cases m with
  | nil => rfl
  | cons c m =>
    obtain ⟨k, v⟩ := c
    have hk : b ≤ k := h (k, v) (List.mem_cons_self ..)
    have h1 : k ≠ a := by omega
    have h2 : k > a := by omega
    simp [Mem.read1, h1, h2]

theorem Mem.From.mono {m : Mem} {a b : Nat} (h : m.From b) (hab : a ≤ b) : m.From a :=
  fun c hc => Nat.le_trans hab (h c hc)

/-- Dropping entries keeps the canonical form. -/
theorem Mem.filter_wf {m : Mem} (p : Nat × Byte → Bool) (h : m.wf = true) : Mem.wf (m.filter p) = true := by
  induction m with
  | nil => rfl
  | cons c m ih =>
    obtain ⟨hb, hf, hw⟩ := (Mem.wf_cons c.1 c.2 m).1 h
    rw [List.filter_cons]
    split
    · exact (Mem.wf_cons c.1 c.2 _).2 ⟨hb, fun d hd => hf d (List.mem_filter.1 hd).1, ih hw⟩
    · exact ih hw

/-! ### One byte -/

theorem Mem.write1_from {m : Mem} {a b : Nat} (v : Byte) (h : m.From b) (hab : b ≤ a) : (m.write1 a v).From b := by
  induction m with
  | nil =>
    simp only [Mem.write1]
    split
    · simp [Mem.From]
    · simpa [Mem.From] using hab
  | cons c m ih =>
    obtain ⟨k, w⟩ := c
    have hk : b ≤ k := h (k, w) (List.mem_cons_self ..)
    have hm : Mem.From b m := fun c hc => h c (List.mem_cons_of_mem _ hc)
    have hi := ih hm
    simp only [Mem.write1]
    split
    · rintro c hc
      rcases List.mem_cons.1 hc with rfl | hc
      · exact hk
      · exact hi c hc
    · split
      · split
        · exact hm
        · rintro c hc
          rcases List.mem_cons.1 hc with rfl | hc
          · exact hab
          · exact hm c hc
      · split
        · exact h
        · rintro c hc
          rcases List.mem_cons.1 hc with rfl | hc
          · exact hab
          · exact h c hc

/-- Writing one byte keeps the canonical form. -/
theorem Mem.write1_wf {m : Mem} (a : Nat) (v : Byte) (h : m.wf = true) : (m.write1 a v).wf = true := by
  induction m with
  | nil =>
    simp only [Mem.write1]
    split
    · rfl
    · simpa [Mem.wf] using ‹¬ _›
  | cons c m ih =>
    obtain ⟨k, w⟩ := c
    obtain ⟨hw, hf, hm⟩ := (Mem.wf_cons k w m).1 h
    simp only [Mem.write1]
    split
    · exact (Mem.wf_cons k w _).2 ⟨hw, Mem.write1_from v hf (by omega), ih hm⟩
    · split
      · split
        · exact hm
        · rename_i h2 h3; subst h2
          exact (Mem.wf_cons k v m).2 ⟨h3, hf, hm⟩
      · split
        · exact h
        · rename_i h1 h2 h3
          refine (Mem.wf_cons a v _).2 ⟨h3, ?_, h⟩
          rintro c hc
          rcases List.mem_cons.1 hc with rfl | hc
          · show a + 1 ≤ k; omega
          · have := hf c hc; omega

/-- The byte just written. -/
theorem Mem.read1_write1_self {m : Mem} (a : Nat) (v : Byte) (h : m.wf = true) : (m.write1 a v).read1 a = v := by
  induction m with
  | nil =>
    simp only [Mem.write1]
    split
    · rename_i h; exact h.symm
    · simp [Mem.read1]
  | cons c m ih =>
    obtain ⟨k, w⟩ := c
    obtain ⟨hw, hf, hm⟩ := (Mem.wf_cons k w m).1 h
    simp only [Mem.write1]
    split
    · have h1 : k ≠ a := by omega
      have h2 : ¬ k > a := by omega
      simp [Mem.read1, h1, h2, ih hm]
    · split
      · rename_i h2; subst h2
        split
        · rename_i h3; rw [h3]; exact Mem.read1_of_from hf (by omega)
        · simp [Mem.read1]
      · split
        · rename_i h1 h2 h3
          have h4 : k > a := by omega
          simp [Mem.read1, h2, h4, h3]
        · simp [Mem.read1]

/-- Another byte. -/
theorem Mem.read1_write1_of_ne {m : Mem} {a b : Nat} (v : Byte) (hb : b ≠ a) (h : m.wf = true) :
    (m.write1 a v).read1 b = m.read1 b := by
  have hab : a ≠ b := Ne.symm hb
  induction m with
  | nil =>
    simp only [Mem.write1]
    split
    · rfl
    · simp [Mem.read1, hab]
  | cons c m ih =>
    obtain ⟨k, w⟩ := c
    obtain ⟨hw, hf, hm⟩ := (Mem.wf_cons k w m).1 h
    simp only [Mem.write1]
    split
    · simp [Mem.read1, ih hm]
    · split
      · rename_i h2; subst h2
        have hr : b < k → Mem.read1 m b = Mem.blank := fun h => Mem.read1_of_from hf (by omega)
        split
        · by_cases h4 : k > b
          · simp [Mem.read1, hab, h4, hr h4]
          · simp [Mem.read1, hab, h4]
        · by_cases h4 : k > b <;> simp [Mem.read1, hab, h4]
      · split
        · rfl
        · rename_i h1 h2 h3
          by_cases h4 : a > b
          · have h5 : k ≠ b := by omega
            have h6 : k > b := by omega
            simp [Mem.read1, hab, h4, h5, h6]
          · simp [Mem.read1, hab, h4]

/-! ### A byte string -/

/-- The bytes of a mask over memory, one by one. -/
def Mem.writeList (m : Mem) : Nat → List (Bool × Byte) → Mem
  | _, [] => m
  | a, (k, b) :: bs => (if k then m.write1 a b else m).writeList (a + 1) bs

theorem Mem.above_wf {m : Mem} (a : Nat) (h : m.wf = true) : (m.above a).wf = true := by
  induction m with
  | nil => rfl
  | cons c m ih =>
    obtain ⟨k, w⟩ := c
    simp only [Mem.above, List.dropWhile_cons]
    split
    · exact ih ((Mem.wf_cons k w m).1 h).2.2
    · exact h

theorem Mem.above_from {m : Mem} (a : Nat) (h : m.wf = true) : (m.above a).From a := by
  induction m with
  | nil => simp [Mem.above, Mem.From]
  | cons c m ih =>
    obtain ⟨k, w⟩ := c
    obtain ⟨hw, hf, hm⟩ := (Mem.wf_cons k w m).1 h
    simp only [Mem.above, List.dropWhile_cons]
    split
    · exact ih hm
    · rename_i hk
      have hk' : a ≤ k := by simpa using hk
      rintro c hc
      rcases List.mem_cons.1 hc with rfl | hc
      · exact hk'
      · have := hf c hc; omega

/-- Cells put from `a` stay canonical and at or above `a`. -/
theorem Mem.put_wf (bs : List (Bool × Byte)) : ∀ (m : Mem) (a : Nat), m.wf = true → m.From a →
    (Mem.put m a bs).wf = true ∧ (Mem.put m a bs).From a := by
  induction bs with
  | nil =>
    intro m a hm hf
    have h : Mem.put m a [] = m := by cases m <;> rfl
    exact ⟨h ▸ hm, h ▸ hf⟩
  | cons e bs ih =>
    obtain ⟨k, b⟩ := e
    have cons : ∀ (r : Mem) (a : Nat) (v : Byte), v ≠ Mem.blank → r.wf = true → r.From (a + 1) →
        Mem.wf ((a, v) :: r) = true ∧ Mem.From a ((a, v) :: r) := by
      intro r a v hv hr hf
      refine ⟨(Mem.wf_cons a v r).2 ⟨hv, hf, hr⟩, ?_⟩
      rintro c hc
      rcases List.mem_cons.1 hc with rfl | hc
      · exact Nat.le_refl _
      · have := hf c hc; omega
    intro m a hm hf
    cases m with
    | nil =>
      have h := ih [] (a + 1) rfl (by simp [Mem.From])
      simp only [Mem.put]
      split
      · rename_i hkb
        exact cons _ a b (by simp only [Bool.and_eq_true, bne_iff_ne] at hkb; exact hkb.2) h.1 h.2
      · exact ⟨h.1, h.2.mono (by omega)⟩
    | cons c m =>
      obtain ⟨j, d⟩ := c
      obtain ⟨hd, hfm, hwm⟩ := (Mem.wf_cons j d m).1 hm
      have hj : a ≤ j := hf (j, d) (List.mem_cons_self ..)
      simp only [Mem.put]
      split
      · rename_i hja; subst hja
        have h := ih m (j + 1) hwm hfm
        generalize (if k then b else d) = v
        split
        · exact ⟨h.1, h.2.mono (by omega)⟩
        · exact cons _ j v ‹_› h.1 h.2
      · rename_i hja
        have hf' : Mem.From (a + 1) ((j, d) :: m) := by
          rintro c hc
          rcases List.mem_cons.1 hc with rfl | hc
          · show a + 1 ≤ j; omega
          · have := hfm c hc; omega
        have h := ih ((j, d) :: m) (a + 1) hm hf'
        split
        · rename_i hkb
          exact cons _ a b (by simp only [Bool.and_eq_true, bne_iff_ne] at hkb; exact hkb.2) h.1 h.2
        · exact ⟨h.1, h.2.mono (by omega)⟩

/-- A canonical memory below `a` in front of one from `a` on. -/
theorem Mem.append_wf {l r : Mem} {a : Nat} (hl : l.wf = true) (hla : ∀ c ∈ l, c.1 < a) (hr : r.wf = true)
    (hra : r.From a) : Mem.wf (l ++ r) = true := by
  induction l with
  | nil => exact hr
  | cons c l ih =>
    obtain ⟨k, w⟩ := c
    obtain ⟨hw, hf, hwl⟩ := (Mem.wf_cons k w l).1 hl
    have hk : k < a := hla (k, w) (List.mem_cons_self ..)
    refine (Mem.wf_cons k w (l ++ r)).2 ⟨hw, ?_, ih hwl fun c hc => hla c (List.mem_cons_of_mem _ hc)⟩
    rintro c hc
    rcases List.mem_append.1 hc with hc | hc
    · exact hf c hc
    · have := hra c hc; omega

theorem Mem.takeWhile_wf {m : Mem} (a : Nat) (h : m.wf = true) :
    Mem.wf (m.takeWhile fun c => decide (c.1 < a)) = true := by
  induction m with
  | nil => rfl
  | cons c m ih =>
    obtain ⟨k, w⟩ := c
    obtain ⟨hw, hf, hm⟩ := (Mem.wf_cons k w m).1 h
    simp only [List.takeWhile_cons]
    split
    · exact (Mem.wf_cons k w _).2 ⟨hw, fun c hc => hf c ((List.takeWhile_sublist _).subset hc), ih hm⟩
    · rfl

/-- A masked write keeps the canonical form. -/
theorem Mem.writeMasked_wf {m : Mem} (a : Nat) (bs : List (Bool × Byte)) (h : m.wf = true) :
    (m.writeMasked a bs).wf = true := by
  have hp := Mem.put_wf bs (m.above a) a (Mem.above_wf a h) (Mem.above_from a h)
  refine Mem.append_wf (Mem.takeWhile_wf a h) ?_ hp.1 hp.2
  intro c hc
  have := List.all_takeWhile (p := fun c : Host.Cell => decide (c.1 < a)) (l := m)
  simpa using List.all_eq_true.1 this c hc

/-- A write keeps the canonical form. -/
theorem Mem.write_wf {m : Mem} (a : Nat) (bs : List Byte) (h : m.wf = true) : (m.write a bs).wf = true :=
  Mem.writeMasked_wf a _ h

/-- What a masked byte string makes of the byte at `b`, before it `old`. -/
def maskedByte (a : Nat) (bs : List (Bool × Byte)) (b : Nat) (old : Byte) : Byte :=
  if b < a then old
  else match bs[b - a]? with
    | some (true, v) => v
    | _ => old

theorem Mem.put_read1 (bs : List (Bool × Byte)) : ∀ (m : Mem) (a b : Nat), m.wf = true → m.From a → a ≤ b →
    (Mem.put m a bs).read1 b = maskedByte a bs b (m.read1 b) := by
  induction bs with
  | nil =>
    intro m a b _ _ hab
    have h : Mem.put m a [] = m := by cases m <;> rfl
    have hn : ¬ b < a := by omega
    simp [h, maskedByte, hn]
  | cons e bs ih =>
    obtain ⟨k, v⟩ := e
    -- below the rest, nothing is listed at `a`
    have step : ∀ (r m : Mem) (a b : Nat), a ≤ b → r.From (a + 1) →
        (a + 1 ≤ b → r.read1 b = maskedByte (a + 1) bs b (m.read1 b)) →
        ∀ x : Byte, (b = a → x = if k then v else m.read1 b) →
        (if x = Mem.blank then r else (a, x) :: r).read1 b = maskedByte a ((k, v) :: bs) b (m.read1 b) := by
      intro r m a b hab hr hrb x hx
      have hn : ¬ b < a := by omega
      by_cases hba : b = a
      · subst hba
        have h0 : b - b = 0 := by omega
        have hm : maskedByte b ((k, v) :: bs) b (m.read1 b) = x := by
          rw [hx rfl]; cases k <;> simp [maskedByte]
        rw [hm]
        split
        · rename_i hb; rw [hb]; exact Mem.read1_of_from hr (by omega)
        · simp [Mem.read1]
      · have hlt : a + 1 ≤ b := by omega
        have hn' : ¬ b < a + 1 := by omega
        have hs : b - a = (b - (a + 1)) + 1 := by omega
        have hm : maskedByte a ((k, v) :: bs) b (m.read1 b) = maskedByte (a + 1) bs b (m.read1 b) := by
          simp only [maskedByte, hn, hn', if_false, hs, List.getElem?_cons_succ]
        rw [hm, ← hrb hlt]
        split
        · rfl
        · have h1 : a ≠ b := by omega
          have h2 : ¬ a > b := by omega
          simp [Mem.read1, h1, h2]
    intro m a b hm hf hab
    cases m with
    | nil =>
      have hw := Mem.put_wf bs [] (a + 1) rfl (by simp [Mem.From])
      have h := fun hb => ih [] (a + 1) b rfl (by simp [Mem.From]) hb
      have := step (Mem.put [] (a + 1) bs) [] a b hab hw.2 h (if k then v else Mem.blank) (fun _ => by cases k <;> rfl)
      rw [← this]
      simp only [Mem.put]
      cases k <;> by_cases hv : v = Mem.blank <;> simp [hv]
    | cons c m =>
      obtain ⟨j, d⟩ := c
      obtain ⟨hd, hfm, hwm⟩ := (Mem.wf_cons j d m).1 hm
      have hj : a ≤ j := hf (j, d) (List.mem_cons_self ..)
      by_cases hja : j = a
      · subst hja
        have hw := Mem.put_wf bs m (j + 1) hwm hfm
        have hne : ∀ b, j + 1 ≤ b → Mem.read1 ((j, d) :: m) b = Mem.read1 m b := by
          intro b hb
          have h1 : j ≠ b := by omega
          have h2 : ¬ j > b := by omega
          simp [Mem.read1, h1, h2]
        have h := fun hb : j + 1 ≤ b => (hne b hb).symm ▸ ih m (j + 1) b hwm hfm hb
        have := step (Mem.put m (j + 1) bs) ((j, d) :: m) j b hab hw.2 h (if k then v else d)
          (fun hb => by subst hb; simp [Mem.read1])
        rw [← this]
        simp only [Mem.put, if_true]
      · have hf' : Mem.From (a + 1) ((j, d) :: m) := by
          rintro c hc
          rcases List.mem_cons.1 hc with rfl | hc
          · show a + 1 ≤ j; omega
          · have := hfm c hc; omega
        have hw := Mem.put_wf bs ((j, d) :: m) (a + 1) hm hf'
        have h := fun hb => ih ((j, d) :: m) (a + 1) b hm hf' hb
        have hblank : ∀ b, b = a → Mem.read1 ((j, d) :: m) b = Mem.blank :=
          fun b hb => Mem.read1_of_from hf' (by omega)
        have := step (Mem.put ((j, d) :: m) (a + 1) bs) ((j, d) :: m) a b hab hw.2 h (if k then v else Mem.blank)
          (fun hb => by rw [hblank b hb])
        rw [← this]
        simp only [Mem.put, hja, if_false]
        cases k <;> by_cases hv : v = Mem.blank <;> simp [hv]

theorem Mem.read1_above {m : Mem} {a b : Nat} (h : m.wf = true) (hab : a ≤ b) : (m.above a).read1 b = m.read1 b := by
  induction m with
  | nil => rfl
  | cons c m ih =>
    obtain ⟨k, w⟩ := c
    obtain ⟨hw, hf, hm⟩ := (Mem.wf_cons k w m).1 h
    simp only [Mem.above, List.dropWhile_cons]
    split
    · rename_i hk
      have hk' : k < a := by simpa using hk
      have h1 : k ≠ b := by omega
      have h2 : ¬ k > b := by omega
      have hi := ih hm
      simp only [Mem.above] at hi
      simp only [Mem.read1, h1, h2, if_false]
      exact hi
    · rfl

theorem Mem.read1_append_above {l r : Mem} {a b : Nat} (hla : ∀ c ∈ l, c.1 < a) (hab : a ≤ b) :
    Mem.read1 (l ++ r) b = Mem.read1 r b := by
  induction l with
  | nil => rfl
  | cons c l ih =>
    obtain ⟨k, w⟩ := c
    have hk : k < a := hla (k, w) (List.mem_cons_self ..)
    have h1 : k ≠ b := by omega
    have h2 : ¬ k > b := by omega
    simpa [Mem.read1, h1, h2] using ih fun c hc => hla c (List.mem_cons_of_mem _ hc)

theorem Mem.read1_takeWhile_append {m r : Mem} {a b : Nat} (h : m.wf = true) (hr : r.From a) (hab : b < a) :
    Mem.read1 ((m.takeWhile fun c => decide (c.1 < a)) ++ r) b = m.read1 b := by
  induction m with
  | nil => exact Mem.read1_of_from hr hab
  | cons c m ih =>
    obtain ⟨k, w⟩ := c
    obtain ⟨hw, hf, hm⟩ := (Mem.wf_cons k w m).1 h
    simp only [List.takeWhile_cons]
    split
    · simp only [List.cons_append, Mem.read1]
      rw [ih hm]
    · rename_i hk
      have hk' : a ≤ k := by simpa using hk
      have h1 : k ≠ b := by omega
      have h2 : k > b := by omega
      rw [List.nil_append, Mem.read1_of_from hr hab]
      simp [Mem.read1, h1, h2]

/-- One byte after a masked write. -/
theorem Mem.read1_writeMasked {m : Mem} (a : Nat) (bs : List (Bool × Byte)) (b : Nat) (h : m.wf = true) :
    (m.writeMasked a bs).read1 b = maskedByte a bs b (m.read1 b) := by
  have hp := Mem.put_wf bs (m.above a) a (Mem.above_wf a h) (Mem.above_from a h)
  have hl : ∀ c ∈ m.takeWhile (fun c => decide (c.1 < a)), c.1 < a := by
    intro c hc
    have := List.all_takeWhile (p := fun c : Host.Cell => decide (c.1 < a)) (l := m)
    simpa using List.all_eq_true.1 this c hc
  by_cases hb : b < a
  · simp only [maskedByte, hb, if_true]
    exact Mem.read1_takeWhile_append h hp.2 hb
  · have hab : a ≤ b := by omega
    unfold Mem.writeMasked
    rw [Mem.read1_append_above hl hab, Mem.put_read1 bs _ a b (Mem.above_wf a h) (Mem.above_from a h) hab,
      Mem.read1_above h hab]

/-- A byte of a byte string just written. -/
theorem Mem.read1_write {m : Mem} (a : Nat) (bs : List Byte) (b : Nat) (h : m.wf = true) :
    (m.write a bs).read1 b = if a ≤ b ∧ b < a + bs.length then bs.getD (b - a) 0 else m.read1 b := by
  unfold Mem.write
  rw [Mem.read1_writeMasked _ _ _ h]
  by_cases hb : b < a
  · have : ¬ (a ≤ b ∧ b < a + bs.length) := by omega
    simp [maskedByte, hb, this]
  · by_cases hl : b < a + bs.length
    · have h1 : a ≤ b ∧ b < a + bs.length := by omega
      have h2 : b - a < bs.length := by omega
      simp [maskedByte, hb, h1, h2]
    · have h1 : ¬ (a ≤ b ∧ b < a + bs.length) := by omega
      have h2 : ¬ b - a < bs.length := by omega
      simp [maskedByte, hb, h1, h2]

/-- Reading a byte string is reading its bytes. -/
theorem Mem.read_eq {m : Mem} (n : Nat) : ∀ (a : Nat), m.wf = true →
    m.read a n = (List.range n).map fun i => m.read1 (a + i) := by
  induction n generalizing m with
  | zero => intro a _; rfl
  | succ n ih =>
    intro a h
    rw [List.range_succ_eq_map]
    simp only [Mem.read, List.map_cons, List.map_map, Nat.add_zero]
    rw [Mem.read1_above h (Nat.le_refl a), ih (a + 1) (Mem.above_wf a h)]
    congr 1
    apply List.map_congr_left
    intro i _
    have : a + 1 + i = a + (i + 1) := by omega
    simp only [Function.comp, this]
    exact Mem.read1_above h (by omega)

end Sys2Proof.Machine
end

