-- ==== Sys2Proof/Laws/MemOk.lean ====
section
/-! SUPPORT. Every operation and every meaning keeps memory in its canonical form: one lemma for each, in the order of their definitions. -/

open Sys2Proof Sys2Proof.Bits

namespace Sys2Proof.Machine

/-! ### What every proof below uses -/

/-- A state with the memory of a state whose memory is canonical. -/
theorem State.memOk_of {s t : State} (h : s.MemOk) (e : t.mem = s.mem) : t.MemOk := by rw [State.MemOk, e]; exact h

/-- A state whose memory is canonical, with bytes written. -/
theorem State.memOk_write {s t : State} (h : s.MemOk) {a : Nat} {bs : List Byte} (e : t.mem = s.mem.write a bs) : t.MemOk := by
  rw [State.MemOk, e]
  exact Mem.write_wf _ _ h

theorem memOk_mem {s : State} (h : s.MemOk) : Mem.wf s.mem = true := h

theorem memOk_fst {α : Type} {x : State × α} {t : State} {a : α} (h : x.1.MemOk) (e : x = (t, a)) : t.MemOk := by rw [e] at h; exact h

theorem memOk_snd {α : Type} {x : α × State} {t : State} {a : α} (h : x.2.MemOk) (e : x = (a, t)) : t.MemOk := by rw [e] at h; exact h

theorem outMemOk_next {t : State} (h : t.MemOk) : OutMemOk (.next t) := h

theorem outMemOk_elim {o : Out} {t : State} (h : OutMemOk o) (e : o = .next t) : t.MemOk := by subst e; exact h

theorem outMemOk_ite {p : Prop} [Decidable p] {a b : Out} (ha : p → OutMemOk a) (hb : ¬ p → OutMemOk b) : OutMemOk (if p then a else b) := by
  split
  · exact ha ‹_›
  · exact hb ‹_›

theorem foldl_inv {α β : Type} {P : β → Prop} {f : β → α → β} {l : List α} {b : β} (hf : ∀ (b : β) (a : α), P b → P (f b a)) (h : P b) :
    P (l.foldl f b) := by
  induction l generalizing b with
  | nil => exact h
  | cons a l ih => exact ih (hf b a h)

theorem memOk_foldl_work {α : Type} {f : Work → α → Work} {l : List α} {w : Work} (hf : ∀ (w : Work) (a : α), w.st.MemOk → (f w a).st.MemOk)
    (h : w.st.MemOk) : (l.foldl f w).st.MemOk := by
  induction l generalizing w with
  | nil => exact h
  | cons a l ih => exact ih (hf w a h)

theorem memOk_foldl_work_fst {α β : Type} {f : Work × β → α → Work × β} {l : List α} {w : Work × β}
    (hf : ∀ (w : Work × β) (a : α), w.1.st.MemOk → (f w a).1.st.MemOk) (h : w.1.st.MemOk) : (l.foldl f w).1.st.MemOk := by
  induction l generalizing w with
  | nil => exact h
  | cons a l ih => exact ih (hf w a h)

theorem memOk_ite {p : Prop} [Decidable p] {a b : State} (ha : p → a.MemOk) (hb : ¬ p → b.MemOk) : (if p then a else b).MemOk := by
  split
  · exact ha ‹_›
  · exact hb ‹_›

theorem memOk_foldl {α : Type} {f : State → α → State} {l : List α} {s : State} (hf : ∀ (s : State) (a : α), s.MemOk → (f s a).MemOk)
    (h : s.MemOk) : (l.foldl f s).MemOk := by
  induction l generalizing s with
  | nil => exact h
  | cons a l ih => exact ih (hf s a h)

theorem memOk_foldl_fst {α β : Type} {f : State × β → α → State × β} {l : List α} {s : State × β}
    (hf : ∀ (s : State × β) (a : α), s.1.MemOk → (f s a).1.MemOk) (h : s.1.MemOk) : (l.foldl f s).1.MemOk := by
  induction l generalizing s with
  | nil => exact h
  | cons a l ih => exact ih (hf s a h)

theorem State.setCore_memOk {s : State} (h : s.MemOk) (c : Nat) (k : Core) : (s.setCore c k).MemOk := h
theorem State.updCore_memOk {s : State} (h : s.MemOk) (c : Nat) (f : Core → Core) : (s.updCore c f).MemOk := h
theorem State.updDie_memOk {s : State} (h : s.MemOk) (c : Nat) (f : Die → Die) : (s.updDie c f).MemOk := h
theorem State.updAgent_memOk {s : State} (h : s.MemOk) (c : Nat) (f : Agent → Agent) : (s.updAgent c f).MemOk := h
theorem State.updCtx_memOk {s : State} (h : s.MemOk) (c : Nat) (f : Ctx → Ctx) : (s.updCtx c f).MemOk := h
theorem State.updQueue_memOk {s : State} (h : s.MemOk) (c : Nat) (f : Queue → Queue) : (s.updQueue c f).MemOk := h
theorem State.updGrp_memOk {s : State} (h : s.MemOk) (c : Nat) (f : Grp → Grp) : (s.updGrp c f).MemOk := h
theorem State.updRun_memOk {s : State} (h : s.MemOk) (c : Nat) (f : Run → Run) : (s.updRun c f).MemOk := h
theorem State.updLink_memOk {s : State} (h : s.MemOk) (c : Nat) (f : Link → Link) : (s.updLink c f).MemOk := h
theorem State.updRidge_memOk {s : State} (h : s.MemOk) (f : Ridge → Ridge) : (s.updRidge f).MemOk := h
theorem State.updRegs_memOk {s : State} (h : s.MemOk) (f : Regs → Regs) : (s.updRegs f).MemOk := h
theorem State.updXch_memOk {s : State} (h : s.MemOk) (c : Nat) (f : XChan → XChan) : (s.updXch c f).MemOk := h
theorem State.updEslot_memOk {s : State} (h : s.MemOk) (c : Nat) (f : ESlot → ESlot) : (s.updEslot c f).MemOk := h
theorem State.updRoute_memOk {s : State} (h : s.MemOk) (c r : Nat) (f : Route → Route) : (s.updRoute c r f).MemOk := h
theorem State.updPlent_memOk {s : State} (h : s.MemOk) (c e : Nat) (f : PlEnt → PlEnt) : (s.updPlent c e f).MemOk := h
theorem State.updSlab_memOk {s : State} (h : s.MemOk) (c k : Nat) (f : Slab → Slab) : (s.updSlab c k f).MemOk := h
theorem State.bump_memOk {s : State} (h : s.MemOk) : s.bump.MemOk := h
theorem State.sched_memOk {s : State} (h : s.MemOk) (t : Nat) (i : Instr) : (s.sched t i).MemOk := h

/-! ### Access -/

theorem State.takeFree_memOk {s : State} (h : s.MemOk) : s.takeFree.2.MemOk := h
theorem State.after_memOk {s : State} (h : s.MemOk) (d : Nat) (i : Instr) : (s.after d i).MemOk := by
  unfold State.after
  repeat' with_reducible first
    | assumption | apply State.sched_memOk
theorem State.settled_memOk {s : State} (h : s.MemOk) (d : Nat) (i : Instr) : (s.settled d i).MemOk := by
  unfold State.settled
  extract_lets t
  repeat' first
    | (with_reducible first
        | assumption | apply State.sched_memOk | apply memOk_ite)
    | intro _
theorem State.soon_memOk {s : State} (h : s.MemOk) (i : Instr) : (s.soon i).MemOk := by
  unfold State.soon
  repeat' first
    | (with_reducible first
        | assumption | apply State.sched_memOk | apply memOk_ite)
    | intro _

/-! ### Send -/

theorem State.queueOn_memOk {s : State} (h : s.MemOk) (g l vc peer gid : Nat) (bs : List Byte) (telling : PeerMsg) : (s.queueOn g l vc peer gid bs
    telling).MemOk := by
  unfold State.queueOn
  extract_lets t fs
  repeat' first
    | (with_reducible first
        | assumption | apply State.updLink_memOk | apply State.bump_memOk | apply State.sched_memOk)
    | (intro _ _ h; try dsimp only) | intro _ | extract_lets | (unfold State.MemOk; dsimp only; apply memOk_mem)
theorem State.sendPeer_memOk {s : State} (h : s.MemOk) (g vc p gid : Nat) (bs : List Byte) (telling : PeerMsg) : (s.sendPeer g vc p gid bs telling).1.MemOk
    := by
  unfold State.sendPeer
  repeat' first
    | (with_reducible first
        | assumption | apply State.updLink_memOk | apply State.queueOn_memOk)
    | (intro _ _ h; try dsimp only) | intro _ | extract_lets | split | (unfold State.MemOk; dsimp only; apply memOk_mem)
theorem State.sendPeers_memOk {s : State} (h : s.MemOk) (g vc gid : Nat) (bs : List Byte) (telling : PeerMsg) (ps : List Nat) : (s.sendPeers g vc gid bs
    telling ps).MemOk := by
  unfold State.sendPeers
  repeat' first
    | (with_reducible first
        | assumption | apply State.sendPeer_memOk | apply memOk_foldl)
    | (intro _ _ h; try dsimp only) | intro _
theorem State.markPaths_memOk {s : State} (h : s.MemOk) (g e : Nat) : (s.markPaths g e).MemOk := by
  unfold State.markPaths
  repeat' first
    | (with_reducible first
        | assumption | apply State.updAgent_memOk | apply State.updLink_memOk | apply State.queueOn_memOk | apply memOk_foldl | apply memOk_ite)
    | (intro _ _ h; try dsimp only) | intro _ | extract_lets | (unfold State.MemOk; dsimp only; apply memOk_mem)
theorem State.pokeInbox_memOk {s : State} (h : s.MemOk) : s.pokeInbox.MemOk := by
  unfold State.pokeInbox
  repeat' first
    | (with_reducible first
        | assumption | apply State.soon_memOk | apply memOk_foldl | apply memOk_ite)
    | (intro _ _ h; try dsimp only) | intro _

/-! ### Memory -/

theorem State.touchPtr_memOk {s : State} (h : s.MemOk) (ctx va : Nat) : (s.touchPtr ctx va).MemOk := by
  unfold State.touchPtr
  extract_lets hit
  repeat' first
    | (with_reducible first
        | assumption | apply State.updRidge_memOk)
    | (intro _ _ h; try dsimp only) | intro _ | extract_lets | split | (unfold State.MemOk; dsimp only; apply memOk_mem)
theorem State.touchXl_memOk {s : State} (h : s.MemOk) (c va : Nat) : (s.touchXl c va).MemOk := by
  unfold State.touchXl
  repeat' first
    | (with_reducible first
        | assumption | apply State.updCore_memOk | apply memOk_ite)
    | (intro _ _ h; try dsimp only) | intro _ | extract_lets | split | (unfold State.MemOk; dsimp only; apply memOk_mem)
theorem State.cacheLeaf_memOk {s : State} (h : s.MemOk) (e : Xl) : (s.cacheLeaf e).MemOk := by
  unfold State.cacheLeaf
  repeat' first
    | (with_reducible first
        | assumption | apply State.updRidge_memOk | apply State.bump_memOk | apply memOk_ite)
    | (intro _ _ h; try dsimp only) | intro _ | extract_lets | (unfold State.MemOk; dsimp only; apply memOk_mem)
theorem State.cachePtrs_memOk {s : State} (h : s.MemOk) (ctx va : Nat) (ps : List (Nat × Word)) : (s.cachePtrs ctx va ps).MemOk := by
  unfold State.cachePtrs
  repeat' first
    | (with_reducible first
        | assumption | apply State.updRidge_memOk | apply memOk_foldl)
    | (intro _ _ h; try dsimp only) | intro _ | extract_lets | (unfold State.MemOk; dsimp only; apply memOk_mem)
theorem State.agentWalk_memOk {s : State} (h : s.MemOk) (ctx va : Nat) : (s.agentWalk ctx va).MemOk := by
  unfold State.agentWalk
  repeat' first
    | (with_reducible first
        | assumption | apply State.touchPtr_memOk | apply State.cacheLeaf_memOk | apply State.cachePtrs_memOk | apply memOk_ite)
    | intro _ | extract_lets | split | (unfold State.MemOk; dsimp only; apply memOk_mem)
theorem State.agentWalks_memOk {s : State} (h : s.MemOk) (ctx va n : Nat) : (s.agentWalks ctx va n).MemOk := by
  unfold State.agentWalks
  repeat' first
    | (with_reducible first
        | assumption | apply State.agentWalk_memOk | apply memOk_foldl | apply memOk_ite)
    | (intro _ _ h; try dsimp only) | intro _
theorem State.merge_memOk {s : State} (h : s.MemOk) (g : Nat) (t : Stamp) : (s.merge g t).MemOk := by
  unfold State.merge
  repeat' first
    | (with_reducible first
        | assumption | apply State.updAgent_memOk)
    | (intro _ _ h; try dsimp only) | intro _ | extract_lets | (unfold State.MemOk; dsimp only; apply memOk_mem)
theorem State.wake_memOk {s : State} (h : s.MemOk) (key : Nat) : (s.wake key).MemOk := by
  unfold State.wake
  extract_lets hit ms
  repeat' first
    | (with_reducible first
        | assumption | apply State.soon_memOk | apply memOk_foldl)
    | (intro _ _ h; try dsimp only) | intro _
theorem State.landWrite_memOk {s : State} (h : s.MemOk) (w : Write) : (s.landWrite w).MemOk := by
  unfold State.landWrite
  repeat' first
    | (with_reducible first
        | assumption | apply State.after_memOk)
    | extract_lets | split | (unfold State.MemOk; dsimp only; apply memOk_mem)
theorem State.landBack_memOk {s : State} (h : s.MemOk) (w : Write) : (s.landBack w).MemOk := by
  unfold State.landBack
  repeat' first
    | (with_reducible first
        | assumption | apply State.updRidge_memOk | apply State.sendPeer_memOk | apply memOk_ite)
    | (intro _ _ h; try dsimp only) | intro _ | extract_lets | split | (unfold State.MemOk; dsimp only; apply memOk_mem)
theorem State.tick_memOk {s : State} (h : s.MemOk) (g d : Nat) : (s.tick g d).MemOk := by
  unfold State.tick
  extract_lets e s1
  have h_s1 : s1.MemOk := by
    try dsimp only [s1]
    repeat' first
      | (with_reducible first
          | assumption | apply State.updAgent_memOk | apply State.markPaths_memOk)
      | (intro _ _ h; try dsimp only) | intro _ | extract_lets | (unfold State.MemOk; dsimp only; apply memOk_mem)
  clear_value s1
  repeat' first
    | (with_reducible first
        | assumption | apply State.after_memOk | apply memOk_foldl | apply memOk_ite)
    | (intro _ _ h; try dsimp only) | intro _
theorem State.packetDone_memOk {s : State} (h : s.MemOk) (q n g : Nat) : (s.packetDone q n g).MemOk := by
  unfold State.packetDone
  extract_lets v
  repeat' first
    | (with_reducible first
        | assumption | apply State.updQueue_memOk | apply State.soon_memOk)
    | (intro _ _ h; try dsimp only) | intro _ | extract_lets | (unfold State.MemOk; dsimp only; apply memOk_mem)
theorem State.tell_memOk {s : State} (h : s.MemOk) (told : Told) : (s.tell told).MemOk := by
  unfold State.tell
  split
  · exact h
  · exact State.updCtx_memOk (State.tick_memOk h _ _) _ _
  · exact State.packetDone_memOk (State.tick_memOk h _ _) _ _ _
theorem State.applyWrite_memOk {s : State} (h : s.MemOk) (w : Write) : (s.applyWrite w).MemOk := by
  unfold State.applyWrite
  extract_lets stamps s1 s2 s3
  have h_s1 : s1.MemOk := Mem.writeMasked_wf _ _ h
  clear_value s1
  have h_s2 : s2.MemOk := State.tell_memOk (State.landBack_memOk (State.landWrite_memOk (State.wake_memOk h_s1 _) _) _) _
  clear_value s2
  have h_s3 : s3.MemOk := memOk_ite (fun _ => h_s2) fun _ => State.soon_memOk h_s2 _
  clear_value s3
  split
  · exact State.after_memOk h_s3 _ _
  · exact h_s3
theorem State.deliverWrite_memOk {s : State} (h : s.MemOk) (w : Write) : (s.deliverWrite w).MemOk := by
  unfold State.deliverWrite
  extract_lets x before
  repeat' first
    | (with_reducible first
        | assumption | apply State.updAgent_memOk | apply State.applyWrite_memOk | apply memOk_ite)
    | (intro _ _ h; try dsimp only) | intro _ | extract_lets | (unfold State.MemOk; dsimp only; apply memOk_mem)
theorem State.retryWrites_memOk {s : State} (h : s.MemOk) (home : Nat) : (s.retryWrites home).MemOk := by
  unfold State.retryWrites
  extract_lets ws
  repeat' first
    | (with_reducible first
        | assumption | apply State.updAgent_memOk | apply State.deliverWrite_memOk | apply memOk_foldl)
    | (intro _ _ h; try dsimp only) | intro _ | extract_lets | (unfold State.MemOk; dsimp only; apply memOk_mem)
theorem State.depart_memOk {s : State} (h : s.MemOk) (w : Write) (t : Nat) : (s.depart w t).MemOk := by
  unfold State.depart
  extract_lets s1
  have h_s1 : s1.MemOk := h
  clear_value s1
  exact memOk_ite (fun _ => h_s1) fun _ => State.sched_memOk h_s1 _ _
theorem State.nextWrite_memOk {s : State} (h : s.MemOk) (w : Write) : (s.nextWrite w).MemOk := by
  unfold State.nextWrite
  split
  · exact State.sched_memOk h _ _
  · exact h
theorem State.sendWrite_memOk {s : State} (h : s.MemOk) (g : Nat) (w : Write) : (s.sendWrite g w).MemOk := by
  unfold State.sendWrite
  exact memOk_ite (fun _ => State.deliverWrite_memOk h _) fun _ => State.depart_memOk h _ _
theorem State.agentWriteGo_memOk (g home : Nat) (land : Option (Bool × Nat × Nat × Nat × Bool)) (lock : Nat) (told : Told) (n : Nat) :
    ∀ {s : State} (_ : s.MemOk) (key : Nat) (bs : List Byte), (s.agentWriteGo g home land lock told n key bs).MemOk := by
  induction n with
  | zero => intro s h key bs; exact h
  | succ n ih =>
    intro s h key bs
    unfold State.agentWriteGo
    split
    · exact h
    · exact ih (State.sendWrite_memOk (State.bump_memOk h) _ _) _ _
theorem State.agentWrite_memOk {s : State} (h : s.MemOk) (g key home : Nat) (bs : List Byte) (told : Told := .none) :
    (s.agentWrite g key home bs told).MemOk := State.agentWriteGo_memOk _ _ _ _ _ _ h _ _
theorem State.agentRead_memOk {s : State} (h : s.MemOk) (g key n : Nat) : (s.agentRead g key n).2.MemOk := by
  refine memOk_foldl (fun s i h => ?_) h
  split
  · exact memOk_ite (fun _ => State.merge_memOk h _ _) (fun _ => h)
  · exact h
theorem State.vreadGo_memOk {core : Option Nat} {ctx g : Nat} (f : Nat) : ∀ {s : State} (_ : s.MemOk) {va n : Nat} {acc bs : List Byte} {t : State},
    s.vreadGo core ctx g f va n acc = .ok (bs, t) → t.MemOk := by
  induction f with
  | zero =>
    intro s h va n acc bs t e
    simp only [State.vreadGo, Except.ok.injEq, Prod.mk.injEq] at e
    exact e.2 ▸ h
  | succ f ih =>
    intro s h va n acc bs t e
    unfold State.vreadGo at e
    split at e
    · simp only [Except.ok.injEq, Prod.mk.injEq] at e
      exact e.2 ▸ h
    · dsimp only at e
      split at e
      · exact ih (State.agentRead_memOk (State.agentWalk_memOk h _ _) _ _ _) e
      · cases e
      · cases e
theorem State.vread_memOk {s : State} (h : s.MemOk) {core : Option Nat} {ctx g va n : Nat} {bs : List Byte} {t : State}
    (e : s.vread core ctx g va n = .ok (bs, t)) : t.MemOk := State.vreadGo_memOk _ h e
theorem State.vwriteGo_memOk {core : Option Nat} {ctx g : Nat} {land : Option (Bool × Nat × Nat × Nat × Bool)} (f : Nat) :
    ∀ {s : State} (_ : s.MemOk) (va : Nat) (bs : List Byte), (s.vwriteGo core ctx g land f va bs).1.MemOk := by
  induction f with
  | zero => intro s h va bs; exact h
  | succ f ih =>
    intro s h va bs
    unfold State.vwriteGo
    split
    · exact h
    · dsimp only
      split
      · exact ih (State.agentWriteGo_memOk _ _ _ _ _ _ (State.agentWalk_memOk h _ _) _ _) _ _
      · exact h
      · exact h
theorem State.vwrite_memOk {s : State} (h : s.MemOk) (core : Option Nat) (ctx g va : Nat) (bs : List Byte) :
    (s.vwrite core ctx g va bs).1.MemOk := State.vwriteGo_memOk _ h _ _
theorem State.vwriteLand_memOk {s : State} (h : s.MemOk) (core : Option Nat) (ctx g va : Nat) (bs : List Byte)
    (land : Option (Bool × Nat × Nat × Nat × Bool)) : (s.vwriteLand core ctx g va bs land).1.MemOk := State.vwriteGo_memOk _ h _ _
theorem State.port_memOk {s : State} (h : s.MemOk) (off : Nat) (v : Word) {act : State → State} (ha : ∀ s : State, s.MemOk → (act s).MemOk) :
    (s.port off v act).MemOk := by
  unfold State.port
  exact memOk_ite (fun _ => State.after_memOk h _ _) fun _ => ha _ h
theorem State.scrWrite_memOk {s : State} (h : s.MemOk) (die key home : Nat) (bs : List (Bool × Byte)) : (s.scrWrite die key home bs).MemOk := by
  unfold State.scrWrite
  repeat' with_reducible first
    | assumption | apply State.applyWrite_memOk
theorem State.pokePieces_memOk {s : State} (h : s.MemOk) (d : Nat) : (s.pokePieces d).MemOk := by
  unfold State.pokePieces
  repeat' first
    | (with_reducible first
        | assumption | apply State.soon_memOk | apply memOk_foldl | apply memOk_ite)
    | (intro _ _ h; try dsimp only) | intro _
theorem State.releaseHeld_memOk {s : State} (h : s.MemOk) (d : Nat) : (s.releaseHeld d).MemOk := by
  unfold State.releaseHeld
  extract_lets ready step ws old left s0 s1
  have h_s0 : s0.MemOk := by
    try dsimp only [s0]
    repeat' first
      | (with_reducible first
          | assumption | apply State.updDie_memOk)
      | (intro _ _ h; try dsimp only) | intro _ | extract_lets | (unfold State.MemOk; dsimp only; apply memOk_mem)
  clear_value s0
  have h_s1 : s1.MemOk := by
    try dsimp only [s1]
    repeat' first
      | (with_reducible first
          | assumption | apply State.soon_memOk | apply memOk_foldl)
      | (intro _ _ h; try dsimp only) | intro _
  clear_value s1
  repeat' first
    | (with_reducible first
        | assumption | apply State.scrWrite_memOk | apply State.pokePieces_memOk | apply memOk_foldl)
    | (intro _ _ h; try dsimp only) | intro _
theorem State.tieHeld_memOk {s : State} (h : s.MemOk) (a b : Nat) : (s.tieHeld a b).MemOk := by
  unfold State.tieHeld
  repeat' first
    | (with_reducible first
        | assumption | apply State.updDie_memOk | apply memOk_ite)
    | (intro _ _ h; try dsimp only) | intro _ | extract_lets | (unfold State.MemOk; dsimp only; apply memOk_mem)
theorem State.drainOne_memOk {s : State} (h : s.MemOk) (die d : Nat) (w : WLine) : (s.drainOne die d w).MemOk := by
  unfold State.drainOne
  exact State.depart_memOk (State.updDie_memOk (State.bump_memOk h) _ _) _ _
theorem State.drainList_memOk {die : Nat} (ws : List WLine) : ∀ {s : State} (_ : s.MemOk) (d : Nat), (s.drainList die d ws).MemOk := by
  induction ws with
  | nil => intro s h d; exact h
  | cons w ws ih => intro s h d; exact ih (State.drainOne_memOk h _ _ _) _
theorem State.releaseDie_memOk {s : State} (h : s.MemOk) (die : Nat) : (s.releaseDie die).1.MemOk := by
  unfold State.releaseDie
  extract_lets ws
  repeat' first
    | (with_reducible first
        | assumption | apply State.updDie_memOk | apply State.tick_memOk | apply State.drainList_memOk | apply memOk_ite)
    | (intro _ _ h; try dsimp only) | intro _ | extract_lets | (dsimp +zetaDelta only; split) | (unfold State.MemOk; dsimp only; apply memOk_mem)
    | exact h
theorem State.l1Store_memOk {s : State} (h : s.MemOk) (c key : Nat) (bytes : List (Bool × Byte)) : (s.l1Store c key bytes).MemOk := by
  unfold State.l1Store
  repeat' first
    | (with_reducible first
        | assumption | apply State.updCore_memOk | apply memOk_ite)
    | (intro _ _ h; try dsimp only) | intro _ | extract_lets | (unfold State.MemOk; dsimp only; apply memOk_mem)
theorem State.enterStore_memOk {s : State} (h : s.MemOk) (c pos key home cls : Nat) (bytes : List (Bool × Byte)) : (s.enterStore c pos key home cls
    bytes).MemOk := by
  unfold State.enterStore
  extract_lets die hold s0 put open_
  have h_s0 : s0.MemOk := by
    try dsimp only [s0]
    repeat' with_reducible first
      | assumption | apply State.l1Store_memOk
  clear_value s0
  repeat' first
    | (with_reducible first
        | assumption | apply State.updDie_memOk | apply State.sched_memOk | apply State.scrWrite_memOk | apply memOk_ite)
    | (intro _ _ h; try dsimp only) | intro _ | extract_lets | (unfold State.MemOk; dsimp only; apply memOk_mem)
theorem State.placedWrite_memOk {s : State} (h : s.MemOk) (c pos key home off : Nat) (bs : List Byte) : (s.placedWrite c pos key home off bs).MemOk :=
    by
  unfold State.placedWrite
  extract_lets die m strip w held line fly s1 s2
  have h_s1 : s1.MemOk := by
    try dsimp only [s1]
    repeat' with_reducible first
      | assumption | apply State.bump_memOk | apply State.l1Store_memOk
  clear_value s1
  have h_s2 : s2.MemOk := by
    try dsimp only [s2]
    repeat' first
      | (with_reducible first
          | assumption)
      | extract_lets | (unfold State.MemOk; dsimp only; apply memOk_mem)
  clear_value s2
  repeat' first
    | (with_reducible first
        | assumption | apply State.updDie_memOk | apply State.deliverWrite_memOk)
    | (intro _ _ h; try dsimp only) | intro _ | extract_lets | (unfold State.MemOk; dsimp only; apply memOk_mem)
theorem State.wcbRoom_memOk {s : State} (h : s.MemOk) (c key : Nat) : (s.wcbRoom c key).2.MemOk := by
  unfold State.wcbRoom
  dsimp only
  repeat' first | split | exact h | exact State.drainOne_memOk h _ _ _
theorem State.l2Touch_memOk {s : State} (h : s.MemOk) (key cls : Nat) : (s.l2Touch key cls).MemOk := by
  unfold State.l2Touch
  repeat' first
    | (with_reducible first
        | assumption | apply State.updRidge_memOk | apply memOk_ite)
    | (intro _ _ h; try dsimp only) | intro _ | extract_lets | (unfold State.MemOk; dsimp only; apply memOk_mem)
theorem State.pinTake_memOk {s : State} (h : s.MemOk) (lock : Nat) : (s.pinTake lock).MemOk := by
  unfold State.pinTake
  repeat' first
    | (with_reducible first
        | assumption | apply State.updRidge_memOk | apply memOk_ite)
    | (intro _ _ h; try dsimp only) | intro _ | extract_lets | (unfold State.MemOk; dsimp only; apply memOk_mem)
theorem State.pinDrop_memOk {s : State} (h : s.MemOk) (lock : Nat) : (s.pinDrop lock).MemOk := by
  unfold State.pinDrop
  repeat' first
    | (with_reducible first
        | assumption | apply State.updRidge_memOk | apply State.soon_memOk | apply memOk_ite)
    | (intro _ _ h; try dsimp only) | intro _ | extract_lets | (unfold State.MemOk; dsimp only; apply memOk_mem)
theorem State.bankTake_memOk {s : State} (h : s.MemOk) (c key : Nat) : (s.bankTake c key).MemOk := by
  unfold State.bankTake
  repeat' first
    | (with_reducible first
        | assumption | apply State.updDie_memOk | apply memOk_ite)
    | (intro _ _ h; try dsimp only) | intro _ | extract_lets | (unfold State.MemOk; dsimp only; apply memOk_mem)
theorem State.mergeLine_memOk {s : State} (h : s.MemOk) (die key : Nat) : (s.mergeLine die key).MemOk := by
  unfold State.mergeLine
  repeat' first
    | (with_reducible first
        | assumption | apply State.merge_memOk)
    | extract_lets | split | (unfold State.MemOk; dsimp only; apply memOk_mem)
theorem State.serveHome_memOk {s : State} (h : s.MemOk) {c key home : Nat} {acq : List Nat} {bs : List Byte} {t : State}
    (e : s.serveHome c key home acq = some (bs, t)) : t.MemOk := by
  unfold State.serveHome at e
  split at e
  · cases e
  · simp only [Option.some.injEq, Prod.mk.injEq] at e
    exact e.2 ▸ State.updCore_memOk h _ _
theorem State.serve_memOk {s : State} (h : s.MemOk) {c pos key home : Nat} {pte : Word} {acq : List Nat} {nl1 l1 : Bool} {bs : List Byte}
    {t : State} (e : s.serve c pos key home pte acq nl1 l1 = some (bs, t)) : t.MemOk := by
  unfold State.serve at e
  dsimp only at e
  have hm : ∀ s1 : State, s1.MemOk → (if l2Able key home = true then s1.l2Touch key (get pte 63 62) else s1).MemOk := fun s1 h1 =>
    memOk_ite (fun _ => State.l2Touch_memOk h1 _ _) (fun _ => h1)
  split at e
  · simp only [Option.some.injEq, Prod.mk.injEq] at e
    exact e.2 ▸ State.updCore_memOk h _ _
  · split at e
    · simp only [Option.some.injEq, Prod.mk.injEq] at e
      exact e.2 ▸ State.updCore_memOk h _ _
    · split at e
      · cases e
      · simp only [Option.some.injEq, Prod.mk.injEq] at e
        exact e.2 ▸ State.updCore_memOk (hm _ (State.mergeLine_memOk h _ _)) _ _

/-! ### Ops -/

theorem State.due_memOk {s : State} (h : s.MemOk) (c slot lat : Nat) (w : PWrite) (evs : List Nat := []) : (s.due c slot lat w evs).MemOk := by
  unfold State.due
  repeat' first
    | (with_reducible first
        | assumption | apply State.updCore_memOk)
    | (intro _ _ h; try dsimp only) | intro _ | extract_lets | (unfold State.MemOk; dsimp only; apply memOk_mem)
theorem State.dueLate_memOk {s : State} (h : s.MemOk) (c slot lat id : Nat) (w : PWrite) : (s.dueLate c slot lat id w).MemOk := by
  unfold State.dueLate
  repeat' first
    | (with_reducible first
        | assumption | apply State.updCore_memOk)
    | (intro _ _ h; try dsimp only) | intro _ | extract_lets | (unfold State.MemOk; dsimp only; apply memOk_mem)
theorem State.deliver_memOk {s : State} (h : s.MemOk) (c id : Nat) (f : PWrite → PWrite) : (s.deliver c id f).MemOk := by
  unfold State.deliver
  repeat' first
    | (with_reducible first
        | assumption | apply State.updCore_memOk)
    | (intro _ _ h; try dsimp only) | intro _ | extract_lets | (unfold State.MemOk; dsimp only; apply memOk_mem)
theorem State.stash_memOk {s : State} (h : s.MemOk) (c id : Nat) (v : Word) : (s.stash c id v).MemOk := by
  unfold State.stash
  extract_lets f
  repeat' first
    | (with_reducible first
        | assumption | apply State.updCore_memOk)
    | (intro _ _ h; try dsimp only) | intro _ | extract_lets | (unfold State.MemOk; dsimp only; apply memOk_mem)
theorem State.trapSlot_memOk {s : State} (h : s.MemOk) (c slot code : Nat) : (s.trapSlot c slot code).MemOk := by
  unfold State.trapSlot
  repeat' first
    | (with_reducible first
        | assumption | apply State.updCore_memOk)
    | (intro _ _ h; try dsimp only) | intro _ | extract_lets | (unfold State.MemOk; dsimp only; apply memOk_mem)
theorem State.logNow_memOk {s : State} (h : s.MemOk) (c slot code : Nat) : (s.logNow c slot code).MemOk := by
  unfold State.logNow
  repeat' first
    | (with_reducible first
        | assumption | apply State.updCore_memOk)
    | (intro _ _ h; try dsimp only) | intro _
theorem State.ctxFault_memOk {s : State} (h : s.MemOk) (x cause : Nat) : (s.ctxFault x cause).MemOk := by
  unfold State.ctxFault
  repeat' first
    | (with_reducible first
        | assumption | apply State.updCtx_memOk | apply memOk_ite)
    | (intro _ _ h; try dsimp only) | intro _ | extract_lets | (unfold State.MemOk; dsimp only; apply memOk_mem)
theorem State.ctxSettle_memOk {s : State} (h : s.MemOk) (x : Nat) : (s.ctxSettle x).MemOk := by
  unfold State.ctxSettle
  repeat' first
    | (with_reducible first
        | assumption | apply State.updCtx_memOk | apply State.updRegs_memOk | apply memOk_ite)
    | (intro _ _ h; try dsimp only) | intro _ | extract_lets | (unfold State.MemOk; dsimp only; apply memOk_mem)
theorem State.writeEntry_memOk {s : State} (h : s.MemOk) (x : Nat) (e : FqEnt) (told : Told) : (s.writeEntry x e told).MemOk := by
  unfold State.writeEntry
  extract_lets k w
  split
  · exact State.agentWrite_memOk h _ _ _ _ _
  · exact State.tell_memOk h _
theorem State.faultEntry_memOk {s : State} (h : s.MemOk) (x cause core gid kind opnd slot va bundle : Nat) (again : Again) :
    (s.faultEntry x cause core gid kind opnd slot va bundle again).MemOk := by
  unfold State.faultEntry
  exact memOk_ite (fun _ => State.ctxFault_memOk h _ _) fun _ => memOk_foldl (fun s _ h => State.writeEntry_memOk h _ _ _) h
theorem State.trigDone_memOk {s : State} (h : s.MemOk) (c : Nat) : (s.trigDone c).MemOk := by
  unfold State.trigDone
  repeat' first
    | (with_reducible first
        | assumption | apply State.updCore_memOk | apply State.updRun_memOk | apply State.soon_memOk | apply memOk_ite)
    | (intro _ _ h; try dsimp only) | intro _ | extract_lets | split | (unfold State.MemOk; dsimp only; apply memOk_mem)
theorem State.replyAfter_memOk {s : State} (h : s.MemOk) (c d id : Nat) : (s.replyAfter c d id).MemOk := by
  unfold State.replyAfter
  repeat' with_reducible first
    | assumption | apply State.after_memOk
theorem State.drainCheck_memOk {s : State} (h : s.MemOk) (g : Nat) : (s.drainCheck g).MemOk := by
  unfold State.drainCheck
  extract_lets x
  repeat' first
    | (with_reducible first
        | assumption | apply State.soon_memOk | apply memOk_ite)
    | (intro _ _ h; try dsimp only) | intro _ | extract_lets | split | (unfold State.MemOk; dsimp only; apply memOk_mem)
theorem State.dropPins_memOk {s : State} (h : s.MemOk) (os : List MemOp) : (s.dropPins os).MemOk := by
  unfold State.dropPins
  repeat' first
    | (with_reducible first
        | assumption | apply State.pinDrop_memOk | apply memOk_foldl | apply memOk_ite)
    | (intro _ _ h; try dsimp only) | intro _
theorem State.dropOps_memOk {s : State} (h : s.MemOk) (c : Nat) (gone : MemOp → Bool) : (s.dropOps c gone).MemOk := by
  unfold State.dropOps
  repeat' first
    | (with_reducible first
        | assumption | apply State.updCore_memOk | apply State.dropPins_memOk)
    | (intro _ _ h; try dsimp only) | intro _ | extract_lets | (unfold State.MemOk; dsimp only; apply memOk_mem)
theorem State.cancelOp_memOk {s : State} (h : s.MemOk) (c id : Nat) : (s.cancelOp c id).MemOk := by
  unfold State.cancelOp
  extract_lets s1
  have h_s1 : s1.MemOk := by
    try dsimp only [s1]
    repeat' first
      | (with_reducible first
          | assumption | apply State.updCore_memOk | apply State.dropOps_memOk | apply memOk_ite)
      | (intro _ _ h; try dsimp only) | intro _ | extract_lets | split | (unfold State.MemOk; dsimp only; apply memOk_mem)
  clear_value s1
  repeat' first
    | (with_reducible first
        | assumption | apply State.drainCheck_memOk)
    | extract_lets | split | (unfold State.MemOk; dsimp only; apply memOk_mem)
theorem State.opFault_memOk {s : State} (h : s.MemOk) (c : Nat) (o : MemOp) (cause kind opnd va : Nat) (again : Again) : (s.opFault c o cause kind
    opnd va again).MemOk := by
  unfold State.opFault
  extract_lets s1
  have h_s1 : s1.MemOk := by
    try dsimp only [s1]
    repeat' first
      | (with_reducible first
          | assumption | apply State.updCore_memOk | apply State.faultEntry_memOk)
      | (intro _ _ h; try dsimp only) | intro _ | extract_lets | (unfold State.MemOk; dsimp only; apply memOk_mem)
  clear_value s1
  repeat' first
    | (with_reducible first
        | assumption | apply State.cancelOp_memOk | apply memOk_ite)
    | intro _
theorem State.noteFault_memOk {s : State} (h : s.MemOk) (c id : Nat) : (s.noteFault c id).MemOk := by
  unfold State.noteFault
  repeat' first
    | (with_reducible first
        | assumption | apply State.opFault_memOk | apply memOk_ite)
    | (intro _ _ h; try dsimp only) | intro _ | extract_lets | split | (unfold State.MemOk; dsimp only; apply memOk_mem)
theorem State.missLine_memOk {s : State} (h : s.MemOk) (c id n va : Nat) : (s.missLine c id n va).MemOk := by
  unfold State.missLine
  extract_lets die x page mine t
  repeat' first
    | (with_reducible first
        | assumption | apply State.updDie_memOk | apply State.after_memOk | apply memOk_ite)
    | (intro _ _ h; try dsimp only) | intro _ | extract_lets | (unfold State.MemOk; dsimp only; apply memOk_mem)
theorem State.startLine_memOk {s : State} (h : s.MemOk) (c : Nat) (o : MemOp) (n : Nat) (l : LineAcc) (busy : List Nat) : (s.startLine c o n l
    busy).MemOk := by
  unfold State.startLine
  extract_lets write
  repeat' first
    | (with_reducible first
        | assumption | apply State.updCore_memOk | apply State.after_memOk | apply State.touchXl_memOk | apply State.pinTake_memOk
        | apply State.missLine_memOk | apply memOk_ite)
    | (intro _ _ h; try dsimp only) | intro _ | extract_lets | split | (unfold State.MemOk; dsimp only; apply memOk_mem)
theorem State.sendReq_memOk {s : State} (h : s.MemOk) (c : Nat) (o : MemOp) (r : Req) (at_ : Nat) : (s.sendReq c o r at_).MemOk := by
  unfold State.sendReq
  extract_lets t s1 gid
  have h_s1 : s1.MemOk := by
    try dsimp only [s1]
    repeat' first
      | (with_reducible first
          | assumption | apply State.updCore_memOk)
      | (intro _ _ h; try dsimp only) | intro _ | extract_lets | (unfold State.MemOk; dsimp only; apply memOk_mem)
  clear_value s1
  repeat' first
    | (with_reducible first
        | assumption | apply State.updCore_memOk | apply State.sched_memOk | apply State.trigDone_memOk | apply memOk_foldl | apply memOk_ite)
    | (intro _ _ h; try dsimp only) | intro _ | extract_lets | split | (unfold State.MemOk; dsimp only; apply memOk_mem)
theorem State.sendTile_memOk {s : State} (h : s.MemOk) (c : Nat) (o : MemOp) (t : Nat × Nat × Nat × Nat) (shape : Word) (img : List Byte) :
    (s.sendTile c o t shape img).MemOk := by
  unfold State.sendTile
  extract_lets r
  have h_r : r.1.MemOk := by
    try dsimp only [r]
    repeat' with_reducible first
      | assumption | apply State.sendPeer_memOk
  clear_value r
  repeat' first
    | (with_reducible first
        | assumption | apply State.updCore_memOk | apply State.opFault_memOk)
    | (intro _ _ h; try dsimp only) | intro _ | extract_lets | split | (unfold State.MemOk; dsimp only; apply memOk_mem)
theorem State.pumpOp_memOk {s : State} (h : s.MemOk) (c : Nat) (a : Ahead) (o : MemOp) : (s.pumpOp c a o).MemOk := by
  unfold State.pumpOp
  extract_lets lines
  repeat' first
    | (with_reducible first
        | assumption | apply State.updCore_memOk | apply State.after_memOk | apply State.soon_memOk | apply State.replyAfter_memOk
        | apply State.noteFault_memOk | apply State.startLine_memOk | apply State.sendReq_memOk | apply State.sendTile_memOk | apply memOk_foldl
        | apply memOk_foldl_work | apply memOk_foldl_fst | apply memOk_foldl_work_fst | apply memOk_ite | refine memOk_fst ?_ (by assumption)
        | refine memOk_snd ?_ (by assumption) | refine outMemOk_elim ?_ (by assumption))
    | (intro _ _ h; try dsimp only) | intro _ | extract_lets | split | (dsimp +zetaDelta only; split)
    | (unfold State.MemOk; dsimp only; apply memOk_mem) | exact h
theorem State.pumpGo_memOk {c : Nat} (l : List Nat) : ∀ {s : State} (_ : s.MemOk) (a : Ahead), (s.pumpGo c l a).MemOk := by
  induction l with
  | nil => intro s h a; exact h
  | cons x l ih =>
    intro s h a
    unfold State.pumpGo
    split
    · exact ih h _
    · exact ih (State.pumpOp_memOk h _ _ _) _
theorem State.pump_memOk {s : State} (h : s.MemOk) (c : Nat) : (s.pump c).MemOk := State.pumpGo_memOk _ h _
theorem State.pumpDie_memOk {s : State} (h : s.MemOk) (d : Nat) : (s.pumpDie d).MemOk := by
  unfold State.pumpDie
  repeat' first
    | (with_reducible first
        | assumption | apply State.pump_memOk | apply memOk_foldl)
    | (intro _ _ h; try dsimp only) | intro _
theorem State.push_memOk {s : State} (h : s.MemOk) (c pos addr : Nat) (kind : OpKind) (lines : List LineAcc) (chunks : List Chunk) (land : Option Nat)
    (nl1 : Bool) (about : List (Option Nat × Bool × Nat) := []) : (s.push c pos addr kind lines chunks land nl1 about).MemOk := by
  unfold State.push
  extract_lets o
  repeat' first
    | (with_reducible first
        | assumption | apply State.updCore_memOk | apply State.bump_memOk)
    | (intro _ _ h; try dsimp only) | intro _ | extract_lets | (unfold State.MemOk; dsimp only; apply memOk_mem)
theorem State.pushFence_memOk {s : State} (h : s.MemOk) (c pos : Nat) (ord : Order) (sc : Scope) : (s.pushFence c pos ord sc).MemOk := by
  unfold State.pushFence
  repeat' with_reducible first
    | assumption | apply State.push_memOk
theorem State.dropAsked_memOk {s : State} (h : s.MemOk) (c : Nat) : (s.dropAsked c).MemOk := by
  unfold State.dropAsked
  extract_lets s1
  have h_s1 : s1.MemOk := by
    try dsimp only [s1]
    repeat' first
      | (with_reducible first
          | assumption | apply State.updRidge_memOk)
      | (intro _ _ h; try dsimp only) | intro _ | extract_lets | (unfold State.MemOk; dsimp only; apply memOk_mem)
  clear_value s1
  repeat' first
    | (with_reducible first
        | assumption | apply State.updCtx_memOk)
    | (intro _ _ h; try dsimp only) | intro _ | extract_lets | (unfold State.MemOk; dsimp only; apply memOk_mem)
theorem State.dropPieces_memOk {s : State} (h : s.MemOk) (c : Nat) (f : Piece → Bool) : (s.dropPieces c f).MemOk := by
  unfold State.dropPieces
  repeat' first
    | (with_reducible first
        | assumption | apply State.updRidge_memOk)
    | (intro _ _ h; try dsimp only) | intro _ | extract_lets | (unfold State.MemOk; dsimp only; apply memOk_mem)
theorem State.cancelFaulted_memOk {s : State} (h : s.MemOk) (c : Nat) : (s.cancelFaulted c).MemOk := by
  unfold State.cancelFaulted
  extract_lets s1 gone keep
  have h_s1 : s1.MemOk := by
    try dsimp only [s1]
    repeat' first
      | (with_reducible first
          | assumption | apply State.dropPieces_memOk)
      | (intro _ _ h; try dsimp only) | intro _
  clear_value s1
  repeat' first
    | (with_reducible first
        | assumption | apply State.updCore_memOk | apply State.dropOps_memOk)
    | (intro _ _ h; try dsimp only) | intro _ | extract_lets | (unfold State.MemOk; dsimp only; apply memOk_mem)
theorem State.stopCore_memOk {s : State} (h : s.MemOk) (c : Nat) : (s.stopCore c).MemOk := by
  unfold State.stopCore
  extract_lets s1 s2
  have h_s1 : s1.MemOk := by
    try dsimp only [s1]
    repeat' first
      | (with_reducible first
          | assumption | apply State.dropPieces_memOk)
      | (intro _ _ h; try dsimp only) | intro _
  clear_value s1
  have h_s2 : s2.MemOk := by
    try dsimp only [s2]
    repeat' first
      | (with_reducible first
          | assumption | apply State.dropOps_memOk)
      | (intro _ _ h; try dsimp only) | intro _
  clear_value s2
  repeat' first
    | (with_reducible first
        | assumption | apply State.updCore_memOk | apply State.soon_memOk)
    | (intro _ _ h; try dsimp only) | intro _ | extract_lets | (unfold State.MemOk; dsimp only; apply memOk_mem)
theorem State.endCore_memOk {s : State} (h : s.MemOk) (stop : Bool) (c : Nat) : (s.endCore stop c).MemOk := by
  unfold State.endCore
  extract_lets s0 s1 s2 s3
  have h_s0 : s0.MemOk := by
    try dsimp only [s0]
    repeat' first
      | (with_reducible first
          | assumption | apply State.updCore_memOk)
      | (intro _ _ h; try dsimp only) | intro _ | extract_lets | (unfold State.MemOk; dsimp only; apply memOk_mem)
  clear_value s0
  have h_s1 : s1.MemOk := by
    try dsimp only [s1]
    repeat' with_reducible first
      | assumption | apply State.updCore_memOk | apply State.dropAsked_memOk
  clear_value s1
  have h_s2 : s2.MemOk := by
    try dsimp only [s2]
    repeat' first
      | (with_reducible first
          | assumption | apply State.updRidge_memOk)
      | (intro _ _ h; try dsimp only) | intro _ | extract_lets | (unfold State.MemOk; dsimp only; apply memOk_mem)
  clear_value s2
  have h_s3 : s3.MemOk := by
    try dsimp only [s3]
    repeat' first
      | (with_reducible first
          | assumption | apply State.updDie_memOk | apply memOk_foldl)
      | (intro _ _ h; try dsimp only) | intro _ | extract_lets | (unfold State.MemOk; dsimp only; apply memOk_mem)
  clear_value s3
  repeat' first
    | (with_reducible first
        | assumption | apply State.releaseHeld_memOk | apply State.pump_memOk | apply State.pushFence_memOk | apply State.cancelFaulted_memOk
        | apply State.stopCore_memOk | apply memOk_ite)
    | intro _ | extract_lets
theorem State.endGroup_memOk {s : State} (h : s.MemOk) (g cause trap : Nat) (gt : Word) (stop : Bool) : (s.endGroup g cause trap gt stop).MemOk := by
  unfold State.endGroup
  extract_lets x
  repeat' first
    | (with_reducible first
        | assumption | apply State.updGrp_memOk | apply State.updRun_memOk | apply State.soon_memOk | apply State.releaseHeld_memOk
        | apply State.tieHeld_memOk | apply State.ctxFault_memOk | apply State.drainCheck_memOk | apply State.endCore_memOk | apply memOk_foldl
        | apply memOk_ite)
    | (intro _ _ h; try dsimp only) | intro _ | extract_lets | split | (unfold State.MemOk; dsimp only; apply memOk_mem)
theorem State.stopGroup_memOk {s : State} (h : s.MemOk) (g cause trap : Nat) : (s.stopGroup g cause trap).MemOk := by
  unfold State.stopGroup
  repeat' with_reducible first
    | assumption | apply State.endGroup_memOk

/-! ### Checks -/

theorem State.hold_memOk {s : State} (h : s.MemOk) (c slot : Nat) (kind : OpKind) (lines : List LineAcc) (x : Option Nat) (lat : Nat) (about : List
    (Option Nat × Bool × Nat) := []) : (s.hold c slot kind lines x lat about).MemOk := by
  unfold State.hold
  extract_lets k o
  repeat' first
    | (with_reducible first
        | assumption | apply State.updCore_memOk | apply State.bump_memOk)
    | (intro _ _ h; try dsimp only) | intro _ | extract_lets | (unfold State.MemOk; dsimp only; apply memOk_mem)
theorem State.fenceAt_memOk {s : State} (h : s.MemOk) (c slot : Nat) (ord : Order) (sc : Scope) : (s.fenceAt c slot ord sc).MemOk := by
  unfold State.fenceAt
  extract_lets k
  repeat' first
    | (with_reducible first
        | assumption | apply State.pump_memOk | apply State.pushFence_memOk | apply State.hold_memOk | apply memOk_ite)
    | intro _ | extract_lets | split | (unfold State.MemOk; dsimp only; apply memOk_mem)
theorem State.ask_memOk {s : State} (h : s.MemOk) (c slot : Nat) (r : Req) (rel : Nat) (x : Option Nat) (lat : Nat) : (s.ask c slot r rel x lat).MemOk
    := by
  unfold State.ask
  extract_lets k
  repeat' first
    | (with_reducible first
        | assumption | apply State.dueLate_memOk | apply State.pump_memOk | apply State.push_memOk | apply State.hold_memOk | apply memOk_ite)
    | intro _ | extract_lets | split | (dsimp +zetaDelta only; split) | (unfold State.MemOk; dsimp only; apply memOk_mem) | exact h
theorem State.barArrive_memOk {s : State} (h : s.MemOk) (c slot b : Nat) (chan : Option Nat) : (s.barArrive c slot b chan).MemOk := by
  unfold State.barArrive
  extract_lets tag s1
  have h_s1 : s1.MemOk := by
    try dsimp only [s1]
    repeat' first
      | (with_reducible first
          | assumption | apply State.updCore_memOk | apply State.fenceAt_memOk)
      | (intro _ _ h; try dsimp only) | intro _ | extract_lets | (unfold State.MemOk; dsimp only; apply memOk_mem)
  clear_value s1
  repeat' with_reducible first
    | assumption | apply State.ask_memOk
theorem State.waitStart_memOk {s : State} (h : s.MemOk) (c slot : Nat) (i : Instr) : (s.waitStart c slot i).MemOk := by
  unfold State.waitStart
  extract_lets k
  repeat' first
    | (with_reducible first
        | assumption | apply State.updCore_memOk | apply State.updRidge_memOk | apply State.after_memOk | apply State.pump_memOk
        | apply State.push_memOk | apply State.barArrive_memOk | apply memOk_ite)
    | (intro _ _ h; try dsimp only) | intro _ | extract_lets | split | (unfold State.MemOk; dsimp only; apply memOk_mem)

/-! ### Ports -/

theorem State.watchTrf_memOk {s : State} (h : s.MemOk) (c : Nat) : (s.watchTrf c).MemOk := by
  unfold State.watchTrf
  extract_lets t
  repeat' first
    | (with_reducible first
        | assumption | apply State.sched_memOk | apply memOk_ite)
    | intro _
theorem State.delay_memOk {s : State} (h : s.MemOk) (p : Nat × Instr → Bool) : (s.delay p).MemOk :=
  memOk_foldl (fun _ _ h => State.sched_memOk h _ _) h
theorem State.delayMsg_memOk {s : State} (h : s.MemOk) (m : Nat) : (s.delayMsg m).MemOk := by
  unfold State.delayMsg
  repeat' first
    | (with_reducible first
        | assumption | apply State.updLink_memOk | apply State.after_memOk | apply memOk_foldl | apply memOk_ite)
    | (intro _ _ h; try dsimp only) | intro _ | extract_lets | (unfold State.MemOk; dsimp only; apply memOk_mem)
theorem State.portLate_memOk {s : State} (h : s.MemOk) (c : Nat) (p : Port) : (s.portLate c p).MemOk := by
  unfold State.portLate
  extract_lets mine next s1
  have h_s1 : s1.MemOk := by
    try dsimp only [s1]
    repeat' first
      | (with_reducible first
          | assumption | apply State.updCore_memOk | apply State.delay_memOk)
      | (intro _ _ h; try dsimp only) | intro _ | extract_lets | (unfold State.MemOk; dsimp only; apply memOk_mem)
  clear_value s1
  repeat' first
    | (with_reducible first
        | assumption | apply State.delayMsg_memOk)
    | extract_lets | split | (unfold State.MemOk; dsimp only; apply memOk_mem)
theorem State.trfLate_memOk {s : State} (h : s.MemOk) (c : Nat) (u : TrfUser) : (s.trfLate c u).MemOk := by
  unfold State.trfLate
  split
  · exact h
  · exact State.portLate_memOk h _ _
  · exact memOk_foldl (fun _ _ h => State.sched_memOk h _ _) (State.updCore_memOk h _ _)
  · refine memOk_foldl (fun _ _ h => ?_) (memOk_foldl (fun _ _ h => State.sched_memOk h _ _) (State.updCore_memOk h _ _))
    split
    · exact memOk_foldl (fun _ _ h => State.sched_memOk h _ _) h
    · exact h
theorem State.trfTurn_memOk {s : State} (h : s.MemOk) (c : Nat) : (s.trfTurn c).MemOk := by
  unfold State.trfTurn
  exact memOk_ite (fun _ => h) fun _ =>
    State.updCore_memOk (memOk_foldl (fun _ _ h => State.trfLate_memOk h _ _) (State.updCore_memOk h _ _)) _ _
theorem State.readTile_memOk {s : State} (h : s.MemOk) (c id tile cycles : Nat) (chan : Option (Nat × Nat)) : (s.readTile c id tile cycles chan).MemOk
    := by
  unfold State.readTile
  repeat' first
    | (with_reducible first
        | assumption | apply State.updCore_memOk | apply State.watchTrf_memOk)
    | (intro _ _ h; try dsimp only) | intro _ | extract_lets | (unfold State.MemOk; dsimp only; apply memOk_mem)
theorem State.noteLanded_memOk {s : State} (h : s.MemOk) (c : Nat) (was : Tbl LineSt) : (s.noteLanded c was).MemOk := by
  unfold State.noteLanded
  extract_lets k
  repeat' first
    | (with_reducible first
        | assumption | apply State.updCore_memOk | apply State.watchTrf_memOk | apply memOk_ite)
    | (intro _ _ h; try dsimp only) | intro _ | extract_lets | (unfold State.MemOk; dsimp only; apply memOk_mem)

/-! ### Issue -/

theorem State.freeze_memOk {s : State} (h : s.MemOk) (c cause : Nat) : (s.freeze c cause).MemOk := by
  unfold State.freeze
  repeat' first
    | (with_reducible first
        | assumption | apply State.updCore_memOk)
    | (intro _ _ h; try dsimp only) | intro _ | extract_lets | (unfold State.MemOk; dsimp only; apply memOk_mem)
theorem State.performHeld_memOk {s : State} (h : s.MemOk) (c : Nat) : (s.performHeld c).MemOk := by
  unfold State.performHeld
  try dsimp only
  repeat' first
    | (with_reducible first
        | assumption | apply State.updCore_memOk | apply State.pump_memOk | apply memOk_foldl)
    | (intro _ _ h; try dsimp only) | intro _ | extract_lets | split | (dsimp +zetaDelta only; split)
    | (unfold State.MemOk; dsimp only; apply memOk_mem) | exact h
theorem State.overflow_memOk {s : State} (h : s.MemOk) (c slot : Nat) (lines : List LineAcc) : (s.overflow c slot lines).MemOk := by
  unfold State.overflow
  extract_lets k
  repeat' first
    | (with_reducible first
        | assumption | apply State.updCore_memOk | apply State.logNow_memOk | apply State.pump_memOk | apply State.push_memOk
        | apply State.performHeld_memOk | apply memOk_ite)
    | (intro _ _ h; try dsimp only) | intro _ | extract_lets | split | (unfold State.MemOk; dsimp only; apply memOk_mem)
theorem State.startShadow_memOk {s : State} (h : s.MemOk) (c : Nat) : (s.startShadow c).MemOk := by
  unfold State.startShadow
  extract_lets off
  repeat' first
    | (with_reducible first
        | assumption | apply State.updCore_memOk | apply State.sched_memOk | apply memOk_foldl)
    | (intro _ _ h; try dsimp only) | intro _ | extract_lets | split | (unfold State.MemOk; dsimp only; apply memOk_mem)
theorem State.bundleIssue_memOk {s : State} (h : s.MemOk) (c : Nat) : (s.bundleIssue c).MemOk := by
  unfold State.bundleIssue
  extract_lets k0
  repeat' first
    | (with_reducible first
        | assumption | apply State.updCore_memOk | apply State.endGroup_memOk | apply State.waitStart_memOk | apply State.noteLanded_memOk
        | apply State.freeze_memOk | apply State.overflow_memOk | apply State.startShadow_memOk | apply memOk_foldl | apply memOk_ite)
    | (intro _ _ h; try dsimp only) | intro _ | extract_lets | split | (unfold State.MemOk; dsimp only; apply memOk_mem)
theorem slotDo_memOk {s : State} (hs : s.MemOk) {h : Hdr} {i : Instr} {eff : Nat → State → State}
    (he : ∀ (c : Nat) (s : State), s.MemOk → (eff c s).MemOk) : OutMemOk (slotDo h i s eff) := by
  unfold slotDo
  dsimp only
  repeat' first
    | with_reducible assumption
    | exact he _ _ hs
    | exact State.trapSlot_memOk hs _ _ _
    | exact memOk_mem (State.freeze_memOk (State.waitStart_memOk hs _ _ _) _ _)
    | with_reducible apply outMemOk_next
    | split
    | (unfold State.MemOk; dsimp only; apply memOk_mem; exact State.freeze_memOk (State.waitStart_memOk hs _ _ _) _ _)
theorem State.updSeq_memOk {s : State} (h : s.MemOk) (g : Nat) (f : Seq → Seq) : (s.updSeq g f).MemOk := by
  unfold State.updSeq
  repeat' first
    | (with_reducible first
        | assumption | apply State.updRun_memOk)
    | (intro _ _ h; try dsimp only) | intro _ | extract_lets | (unfold State.MemOk; dsimp only; apply memOk_mem)
theorem State.broadcast_memOk {s : State} (h : s.MemOk) (g : Nat) (r : Run) (pc : Nat) (delay : Bool) : (s.broadcast g r pc delay).MemOk := by
  unfold State.broadcast
  extract_lets q e s1
  have h_s1 : s1.MemOk := by
    try dsimp only [s1]
    repeat' first
      | (with_reducible first
          | assumption | apply State.updCore_memOk | apply memOk_foldl | apply memOk_ite)
      | (intro _ _ h; try dsimp only) | intro _ | extract_lets | (unfold State.MemOk; dsimp only; apply memOk_mem)
  clear_value s1
  repeat' first
    | (with_reducible first
        | assumption | apply State.updSeq_memOk)
    | (intro _ _ h; try dsimp only) | intro _ | extract_lets | (unfold State.MemOk; dsimp only; apply memOk_mem)
theorem State.pcRange_memOk {s : State} (h : s.MemOk) (g : Nat) (r : Run) (pc slot : Nat) : (s.pcRange g r pc slot).MemOk := by
  unfold State.pcRange
  repeat' with_reducible first
    | assumption | apply State.endGroup_memOk
theorem State.tellMembers_memOk {s : State} (h : s.MemOk) (r : Run) (w : SeqWait) (taken : Bool) (link : Option Nat) : (s.tellMembers r w taken
    link).MemOk := by
  unfold State.tellMembers
  repeat' first
    | (with_reducible first
        | assumption | apply State.updCore_memOk | apply State.delay_memOk | apply memOk_foldl | apply memOk_ite)
    | (intro _ _ h; try dsimp only) | intro _ | extract_lets | split | (unfold State.MemOk; dsimp only; apply memOk_mem)
theorem State.settle_memOk {s : State} (h : s.MemOk) (g : Nat) (w : SeqWait) (slot : Nat) (act : BrAct) : (s.settle g w slot act).MemOk := by
  unfold State.settle
  repeat' first
    | (with_reducible first
        | assumption | apply State.updSeq_memOk | apply State.pcRange_memOk | apply State.tellMembers_memOk | apply memOk_ite)
    | (intro _ _ h; try dsimp only) | intro _ | extract_lets | split | (unfold State.MemOk; dsimp only; apply memOk_mem)
theorem State.resolve_memOk {s : State} (h : s.MemOk) (g : Nat) : (s.resolve g).MemOk := by
  unfold State.resolve
  repeat' first
    | (with_reducible first
        | assumption | apply State.settle_memOk)
    | (intro _ _ h; try dsimp only) | intro _ | extract_lets | split | (unfold State.MemOk; dsimp only; apply memOk_mem)
theorem State.finishBundle_memOk {s : State} (h : s.MemOk) (c : Nat) : (s.finishBundle c).MemOk := by
  unfold State.finishBundle
  extract_lets k b e delay early two act addr pos mask k1 k2 own k3 k4 k5 s1 s2 s3 s4 s5
  have h_s1 : s1.MemOk := by
    try dsimp only [s1]
    repeat' first
      | (with_reducible first
          | assumption | apply State.setCore_memOk)
      | (dsimp +zetaDelta only; split) | exact h
  clear_value s1
  have h_s2 : s2.MemOk := by
    try dsimp only [s2]
    repeat' first
      | (with_reducible first
          | assumption | apply State.updCore_memOk | apply State.performHeld_memOk | apply memOk_ite)
      | (intro _ _ h; try dsimp only) | intro _ | extract_lets | (dsimp +zetaDelta only; split)
      | (unfold State.MemOk; dsimp only; apply memOk_mem) | exact h
  clear_value s2
  have h_s3 : s3.MemOk := by
    try dsimp only [s3]
    repeat' first
      | (with_reducible first
          | assumption | apply State.updCore_memOk)
      | (intro _ _ h; try dsimp only) | intro _ | extract_lets | (dsimp +zetaDelta only; split)
      | (unfold State.MemOk; dsimp only; apply memOk_mem) | exact h
  clear_value s3
  have h_s4 : s4.MemOk := by
    try dsimp only [s4]
    repeat' first
      | (with_reducible first
          | assumption | apply State.updCore_memOk | apply memOk_ite)
      | (intro _ _ h; try dsimp only) | intro _ | extract_lets | (dsimp +zetaDelta only; split)
      | (unfold State.MemOk; dsimp only; apply memOk_mem) | exact h
  clear_value s4
  have h_s5 : s5.MemOk := by
    try dsimp only [s5]
    repeat' first
      | (with_reducible first
          | assumption)
      | extract_lets | (dsimp +zetaDelta only; split) | (unfold State.MemOk; dsimp only; apply memOk_mem) | exact h
  clear_value s5
  repeat' first
    | (with_reducible first
        | assumption | apply State.pump_memOk | apply State.endGroup_memOk | apply State.resolve_memOk | apply memOk_foldl | apply memOk_ite)
    | (intro _ _ h; try dsimp only) | intro _ | extract_lets | split | (dsimp +zetaDelta only; split)
    | (unfold State.MemOk; dsimp only; apply memOk_mem) | exact h
theorem State.parkTimer_memOk {s : State} (h : s.MemOk) (g : Nat) (r : Run) : (s.parkTimer g r).MemOk := by
  unfold State.parkTimer
  extract_lets x
  repeat' first
    | (with_reducible first
        | assumption | apply State.updGrp_memOk | apply State.updRun_memOk | apply State.sched_memOk | apply memOk_ite)
    | (intro _ _ h; try dsimp only) | intro _ | extract_lets | (unfold State.MemOk; dsimp only; apply memOk_mem)
theorem State.stall_memOk {s : State} (h : s.MemOk) (g m : Nat) : (s.stall g m).MemOk := by
  unfold State.stall
  repeat' first
    | (with_reducible first
        | assumption | apply State.updRun_memOk)
    | (intro _ _ h; try dsimp only) | intro _ | extract_lets | (unfold State.MemOk; dsimp only; apply memOk_mem)
theorem State.countStall_memOk {s : State} (h : s.MemOk) (g : Nat) (r : Run) : (s.countStall g r).MemOk := by
  unfold State.countStall
  repeat' first
    | (with_reducible first
        | assumption | apply State.updGrp_memOk | apply State.updRun_memOk)
    | (intro _ _ h; try dsimp only) | intro _ | extract_lets | split | (unfold State.MemOk; dsimp only; apply memOk_mem)
theorem State.closeCycle_memOk {s : State} (h : s.MemOk) : s.closeCycle.MemOk := by
  unfold State.closeCycle
  repeat' first
    | (with_reducible first
        | assumption | apply State.parkTimer_memOk | apply State.countStall_memOk | apply memOk_foldl)
    | (intro _ _ h; try dsimp only) | intro _ | extract_lets | split | (unfold State.MemOk; dsimp only; apply memOk_mem)
theorem State.sequence_memOk {s : State} (h : s.MemOk) (g : Nat) (r : Run) : (s.sequence g r).MemOk := by
  unfold State.sequence
  extract_lets q live
  repeat' first
    | (with_reducible first
        | assumption | apply State.updSeq_memOk | apply State.broadcast_memOk | apply State.stall_memOk | apply memOk_foldl | apply memOk_ite)
    | (intro _ _ h; try dsimp only) | intro _ | extract_lets | split | (dsimp +zetaDelta only; split)
    | (unfold State.MemOk; dsimp only; apply memOk_mem) | exact h
theorem State.boundary_memOk {s : State} (h : s.MemOk) (g : Nat) (r : Run) : (s.boundary g r).1.MemOk := by
  unfold State.boundary
  repeat' first
    | (with_reducible first
        | assumption | apply State.updSeq_memOk | apply memOk_ite)
    | (intro _ _ h; try dsimp only) | intro _ | extract_lets | split | (unfold State.MemOk; dsimp only; apply memOk_mem)
theorem State.nsTick_memOk {s : State} (h : s.MemOk) : s.nsTick.MemOk := by
  unfold State.nsTick
  repeat' first
    | (with_reducible first
        | assumption | apply memOk_ite)
    | intro _ | extract_lets | (unfold State.MemOk; dsimp only; apply memOk_mem)
theorem State.nextCycle_memOk {s : State} (h : s.MemOk) : s.nextCycle.MemOk := by
  unfold State.nextCycle
  extract_lets s0 s1 f t s2 gs s3 ms
  have h_s1 : s1.MemOk := State.closeCycle_memOk h
  have h_s2 : s2.MemOk := memOk_ite (fun _ => memOk_mem (State.nsTick_memOk h_s1)) fun _ => h_s1
  clear_value s2
  have h_s3 : s3.MemOk := memOk_foldl (fun s _ h => State.sched_memOk h _ _) h_s2
  clear_value s3
  exact memOk_foldl (fun s _ h => State.sched_memOk (State.sched_memOk h _ _) _ _) h_s3
theorem State.advance_memOk {s : State} (h : s.MemOk) (c k : Nat) : (s.advance c k).MemOk := by
  unfold State.advance
  repeat' first
    | (with_reducible first
        | assumption | apply State.finishBundle_memOk | apply memOk_ite)
    | intro _ | extract_lets | (unfold State.MemOk; dsimp only; apply memOk_mem)
theorem State.takeDue_memOk {s : State} (h : s.MemOk) {i : Instr} {t : State} (e : s.takeDue = some (i, t)) : t.MemOk := by
  unfold State.takeDue at e
  split at e
  · split at e
    · simp only [Option.some.injEq, Prod.mk.injEq] at e
      exact e.2 ▸ h
    · cases e
  · cases e
theorem State.takeInput_memOk {s : State} (h : s.MemOk) {i : Instr} {t : State} (e : s.takeInput = some (i, t)) : t.MemOk := by
  unfold State.takeInput at e
  split at e
  · simp only [Option.some.injEq, Prod.mk.injEq] at e
    exact e.2 ▸ h
  · cases e
theorem State.atSlot_memOk {s : State} (h : s.MemOk) (k w : Nat) : (s.atSlot k w).MemOk := by
  unfold State.atSlot
  extract_lets e
  repeat' first
    | (with_reducible first
        | assumption | apply State.updCore_memOk)
    | (intro _ _ h; try dsimp only) | intro _ | extract_lets | (unfold State.MemOk; dsimp only; apply memOk_mem)

/-! ### Control -/

theorem State.branch_memOk {s : State} (h : s.MemOk) (c slot : Nat) (act : BrAct) : (s.branch c slot act).MemOk := by
  unfold State.branch
  repeat' first
    | (with_reducible first
        | assumption | apply State.updCore_memOk | apply State.logNow_memOk | apply State.delay_memOk | apply memOk_ite)
    | (intro _ _ h; try dsimp only) | intro _ | extract_lets | (unfold State.MemOk; dsimp only; apply memOk_mem)
theorem execNop_memOk {s : State} (h : s.MemOk) (_h : Hdr) : OutMemOk (execNop _h s) := by
  unfold execNop
  repeat' with_reducible first
    | assumption | apply outMemOk_next
theorem execBr_memOk {s : State} (hs : s.MemOk) (h : Hdr) (disp : BitVec 21) : OutMemOk (execBr h disp s) := by
  unfold execBr
  repeat' first
    | (with_reducible first
        | assumption | apply slotDo_memOk | apply State.branch_memOk)
    | (intro _ _ h; try dsimp only) | intro _
theorem execBrx_memOk {s : State} (hs : s.MemOk) (h : Hdr) (disp : BitVec 21) : OutMemOk (execBrx h disp s) := by
  unfold execBrx
  repeat' first
    | (with_reducible first
        | assumption | apply slotDo_memOk | apply State.branch_memOk)
    | (intro _ _ h; try dsimp only) | intro _
theorem execCall_memOk {s : State} (hs : s.MemOk) (h : Hdr) (disp : BitVec 21) : OutMemOk (execCall h disp s) := by
  unfold execCall
  repeat' first
    | (with_reducible first
        | assumption | apply State.due_memOk | apply State.delay_memOk | apply slotDo_memOk | apply State.branch_memOk | apply memOk_ite
        | apply outMemOk_ite)
    | (intro _ _ h; try dsimp only) | intro _ | extract_lets
theorem execRet_memOk {s : State} (hs : s.MemOk) (h : Hdr) : OutMemOk (execRet h s) := by
  unfold execRet
  repeat' first
    | (with_reducible first
        | assumption | apply slotDo_memOk | apply State.branch_memOk)
    | (intro _ _ h; try dsimp only) | intro _
theorem execJmp_memOk {s : State} (hs : s.MemOk) (h : Hdr) (target : Fin 8192) : OutMemOk (execJmp h target s) := by
  unfold execJmp
  repeat' first
    | (with_reducible first
        | assumption | apply slotDo_memOk | apply State.branch_memOk)
    | (intro _ _ h; try dsimp only) | intro _
theorem execLoop_memOk {s : State} (hs : s.MemOk) (h : Hdr) (l p : Bool) (count : Fin 1024) (lenM1 : Fin 256) : OutMemOk (execLoop h l p count lenM1
    s) := by
  unfold execLoop
  repeat' first
    | (with_reducible first
        | assumption | apply slotDo_memOk | apply State.branch_memOk)
    | (intro _ _ h; try dsimp only) | intro _
theorem execLoopReg_memOk {s : State} (hs : s.MemOk) (h : Hdr) (l p : Bool) (xN : XReg) (lenM1 : Fin 256) : OutMemOk (execLoopReg h l p xN lenM1 s) :=
    by
  unfold execLoopReg
  repeat' first
    | (with_reducible first
        | assumption | apply slotDo_memOk | apply State.branch_memOk)
    | (intro _ _ h; try dsimp only) | intro _
theorem execLbrk_memOk {s : State} (hs : s.MemOk) (h : Hdr) (n : Fin 8) : OutMemOk (execLbrk h n s) := by
  unfold execLbrk
  repeat' first
    | (with_reducible first
        | assumption | apply slotDo_memOk | apply State.branch_memOk)
    | (intro _ _ h; try dsimp only) | intro _
theorem execWaitFlag_memOk {s : State} (hs : s.MemOk) (h : Hdr) (f : Fin 32) (clear : Bool) : OutMemOk (execWaitFlag h f clear s) := by
  unfold execWaitFlag
  repeat' first
    | (with_reducible first
        | assumption | apply slotDo_memOk)
    | (intro _ _ h; try dsimp only) | intro _
theorem execWaitSem_memOk {s : State} (hs : s.MemOk) (h : Hdr) (xS xT : XReg) : OutMemOk (execWaitSem h xS xT s) := by
  unfold execWaitSem
  repeat' first
    | (with_reducible first
        | assumption | apply State.updRidge_memOk | apply slotDo_memOk)
    | (intro _ _ h; try dsimp only) | intro _ | extract_lets | (unfold State.MemOk; dsimp only; apply memOk_mem)
theorem execWaita_memOk {s : State} (hs : s.MemOk) (h : Hdr) (xA xV : XReg) (cond : WaitCond) : OutMemOk (execWaita h xA xV cond s) := by
  unfold execWaita
  repeat' first
    | (with_reducible first
        | assumption | apply State.updCore_memOk | apply slotDo_memOk)
    | (intro _ _ h; try dsimp only) | intro _ | extract_lets | (unfold State.MemOk; dsimp only; apply memOk_mem)
theorem State.flagOp_memOk {s : State} (h : s.MemOk) (c slot f : Nat) (xC : XReg) (remote val : Bool) : (s.flagOp c slot f xC remote val).MemOk := by
  unfold State.flagOp
  repeat' first
    | (with_reducible first
        | assumption | apply State.due_memOk | apply State.ask_memOk | apply memOk_ite)
    | intro _ | extract_lets | split | (unfold State.MemOk; dsimp only; apply memOk_mem)
theorem execSetf_memOk {s : State} (hs : s.MemOk) (h : Hdr) (f : Fin 32) (xC : XReg) (remote : Bool) : OutMemOk (execSetf h f xC remote s) := by
  unfold execSetf
  repeat' first
    | (with_reducible first
        | assumption | apply slotDo_memOk | apply State.flagOp_memOk)
    | (intro _ _ h; try dsimp only) | intro _
theorem execClrf_memOk {s : State} (hs : s.MemOk) (h : Hdr) (f : Fin 32) (xC : XReg) (remote : Bool) : OutMemOk (execClrf h f xC remote s) := by
  unfold execClrf
  repeat' first
    | (with_reducible first
        | assumption | apply slotDo_memOk | apply State.flagOp_memOk)
    | (intro _ _ h; try dsimp only) | intro _
theorem State.semOp_memOk {s : State} (h : s.MemOk) (c slot op : Nat) (xD xS : XReg) (v : Word) : (s.semOp c slot op xD xS v).MemOk := by
  unfold State.semOp
  extract_lets n dev
  repeat' first
    | (with_reducible first
        | assumption | apply State.ask_memOk | apply memOk_ite)
    | intro _
theorem execSadd_memOk {s : State} (hs : s.MemOk) (h : Hdr) (xD xS xV : XReg) : OutMemOk (execSadd h xD xS xV s) := by
  unfold execSadd
  repeat' first
    | (with_reducible first
        | assumption | apply slotDo_memOk | apply State.semOp_memOk)
    | (intro _ _ h; try dsimp only) | intro _
theorem execScas_memOk {s : State} (hs : s.MemOk) (h : Hdr) (xD xS xV : XReg) : OutMemOk (execScas h xD xS xV s) := by
  unfold execScas
  repeat' first
    | (with_reducible first
        | assumption | apply slotDo_memOk | apply State.semOp_memOk)
    | (intro _ _ h; try dsimp only) | intro _
theorem execSxch_memOk {s : State} (hs : s.MemOk) (h : Hdr) (xD xS xV : XReg) : OutMemOk (execSxch h xD xS xV s) := by
  unfold execSxch
  repeat' first
    | (with_reducible first
        | assumption | apply slotDo_memOk | apply State.semOp_memOk)
    | (intro _ _ h; try dsimp only) | intro _
theorem execSmax_memOk {s : State} (hs : s.MemOk) (h : Hdr) (xD xS xV : XReg) : OutMemOk (execSmax h xD xS xV s) := by
  unfold execSmax
  repeat' first
    | (with_reducible first
        | assumption | apply slotDo_memOk | apply State.semOp_memOk)
    | (intro _ _ h; try dsimp only) | intro _
theorem execSwge_memOk {s : State} (hs : s.MemOk) (h : Hdr) (xD xS xV : XReg) : OutMemOk (execSwge h xD xS xV s) := by
  unfold execSwge
  repeat' first
    | (with_reducible first
        | assumption | apply slotDo_memOk | apply State.semOp_memOk)
    | (intro _ _ h; try dsimp only) | intro _
theorem execSrd_memOk {s : State} (hs : s.MemOk) (h : Hdr) (xD xS : XReg) : OutMemOk (execSrd h xD xS s) := by
  unfold execSrd
  repeat' first
    | (with_reducible first
        | assumption | apply slotDo_memOk | apply State.semOp_memOk)
    | (intro _ _ h; try dsimp only) | intro _
theorem execBdcl_memOk {s : State} (hs : s.MemOk) (h : Hdr) (b : BReg) (xA : XReg) : OutMemOk (execBdcl h b xA s) := by
  unfold execBdcl
  repeat' first
    | (with_reducible first
        | assumption | apply State.pump_memOk | apply State.push_memOk | apply slotDo_memOk)
    | (intro _ _ h; try dsimp only) | intro _ | extract_lets
theorem execBarv_memOk {s : State} (hs : s.MemOk) (h : Hdr) (b : BReg) (n : CReg) (named : Bool) : OutMemOk (execBarv h b n named s) := by
  unfold execBarv
  repeat' first
    | (with_reducible first
        | assumption | apply State.barArrive_memOk | apply slotDo_memOk)
    | (intro _ _ h; try dsimp only) | intro _
theorem execBwt_memOk {s : State} (hs : s.MemOk) (h : Hdr) (b : BReg) : OutMemOk (execBwt h b s) := by
  unfold execBwt
  repeat' first
    | (with_reducible first
        | assumption | apply State.fenceAt_memOk | apply slotDo_memOk)
    | (intro _ _ h; try dsimp only) | intro _
theorem execSstep_memOk {s : State} (hs : s.MemOk) (h : Hdr) (b : BReg) (n : CReg) (named : Bool) : OutMemOk (execSstep h b n named s) := by
  unfold execSstep
  repeat' first
    | (with_reducible first
        | assumption | apply State.fenceAt_memOk | apply slotDo_memOk)
    | (intro _ _ h; try dsimp only) | intro _
theorem execFence_memOk {s : State} (hs : s.MemOk) (h : Hdr) (order : Order) (scope : Scope) : OutMemOk (execFence h order scope s) := by
  unfold execFence
  repeat' first
    | (with_reducible first
        | assumption | apply State.fenceAt_memOk | apply slotDo_memOk)
    | (intro _ _ h; try dsimp only) | intro _
theorem execTrig_memOk {s : State} (hs : s.MemOk) (h : Hdr) : OutMemOk (execTrig h s) := by
  unfold execTrig
  repeat' first
    | (with_reducible first
        | assumption | apply State.fenceAt_memOk | apply State.ask_memOk | apply slotDo_memOk)
    | (intro _ _ h; try dsimp only) | intro _
theorem execEnq_memOk {s : State} (hs : s.MemOk) (h : Hdr) (xD xQ : XReg) (tS : TReg) (hi : Bool) : OutMemOk (execEnq h xD xQ tS hi s) := by
  unfold execEnq
  repeat' first
    | (with_reducible first
        | assumption | apply State.fenceAt_memOk | apply State.ask_memOk | apply slotDo_memOk | apply memOk_ite | apply outMemOk_ite)
    | (intro _ _ h; try dsimp only) | intro _ | extract_lets
theorem execNtile_memOk {s : State} (hs : s.MemOk) (h : Hdr) : OutMemOk (execNtile h s) := by
  unfold execNtile
  repeat' first
    | (with_reducible first
        | assumption | apply State.bump_memOk | apply State.after_memOk | apply State.dueLate_memOk | apply slotDo_memOk)
    | (intro _ _ h; try dsimp only) | intro _
theorem execLayer_memOk {s : State} (hs : s.MemOk) (h : Hdr) : OutMemOk (execLayer h s) := by
  unfold execLayer
  repeat' first
    | (with_reducible first
        | assumption | apply State.due_memOk | apply slotDo_memOk)
    | (intro _ _ h; try dsimp only) | intro _
theorem execSpec_memOk {s : State} (hs : s.MemOk) (h : Hdr) : OutMemOk (execSpec h s) := by
  unfold execSpec
  repeat' first
    | (with_reducible first
        | assumption | apply State.updCore_memOk | apply slotDo_memOk)
    | (intro _ _ h; try dsimp only) | intro _ | extract_lets | (unfold State.MemOk; dsimp only; apply memOk_mem)
theorem execCmit_memOk {s : State} (hs : s.MemOk) (h : Hdr) : OutMemOk (execCmit h s) := by
  unfold execCmit
  repeat' first
    | (with_reducible first
        | assumption | apply State.updCore_memOk | apply slotDo_memOk)
    | (intro _ _ h; try dsimp only) | intro _ | extract_lets | (unfold State.MemOk; dsimp only; apply memOk_mem)
theorem execSabt_memOk {s : State} (hs : s.MemOk) (h : Hdr) : OutMemOk (execSabt h s) := by
  unfold execSabt
  repeat' first
    | (with_reducible first
        | assumption | apply State.updCore_memOk | apply slotDo_memOk)
    | (intro _ _ h; try dsimp only) | intro _ | extract_lets | (unfold State.MemOk; dsimp only; apply memOk_mem)
theorem execTrap_memOk {s : State} (hs : s.MemOk) (h : Hdr) (n : Fin 128) : OutMemOk (execTrap h n s) := by
  unfold execTrap
  repeat' first
    | (with_reducible first
        | assumption | apply State.trapSlot_memOk | apply slotDo_memOk)
    | (intro _ _ h; try dsimp only) | intro _
theorem execExit_memOk {s : State} (hs : s.MemOk) (h : Hdr) : OutMemOk (execExit h s) := by
  unfold execExit
  repeat' first
    | (with_reducible first
        | assumption | apply State.updCore_memOk | apply slotDo_memOk)
    | (intro _ _ h; try dsimp only) | intro _ | extract_lets | (unfold State.MemOk; dsimp only; apply memOk_mem)
theorem execFrsm_memOk {s : State} (hs : s.MemOk) (h : Hdr) (xD xC xN : XReg) : OutMemOk (execFrsm h xD xC xN s) := by
  unfold execFrsm
  repeat' first
    | (with_reducible first
        | assumption | apply State.dueLate_memOk | apply State.pump_memOk | apply State.push_memOk | apply slotDo_memOk)
    | (intro _ _ h; try dsimp only) | intro _ | extract_lets
theorem execTlbi_memOk {s : State} (hs : s.MemOk) (h : Hdr) (xA xC : XReg) (sz : InvSize) : OutMemOk (execTlbi h xA xC sz s) := by
  unfold execTlbi
  repeat' first
    | (with_reducible first
        | assumption | apply State.pump_memOk | apply State.push_memOk | apply slotDo_memOk | apply memOk_ite | apply outMemOk_ite)
    | (intro _ _ h; try dsimp only) | intro _ | extract_lets

/-! ### Scalar -/

theorem State.dueX_memOk {s : State} (h : s.MemOk) (c slot lat : Nat) (xD : XReg) (v : Word × List Nat) : (s.dueX c slot lat xD v).MemOk := by
  unfold State.dueX
  repeat' with_reducible first
    | assumption | apply State.due_memOk
theorem execAdd_memOk {s : State} (hs : s.MemOk) (h : Hdr) (xD xA xB : XReg) (fn : SatForm) : OutMemOk (execAdd h xD xA xB fn s) := by
  unfold execAdd
  repeat' first
    | (with_reducible first
        | assumption | apply slotDo_memOk | apply State.dueX_memOk)
    | (intro _ _ h; try dsimp only) | intro _
theorem execSub_memOk {s : State} (hs : s.MemOk) (h : Hdr) (xD xA xB : XReg) (fn : SatForm) : OutMemOk (execSub h xD xA xB fn s) := by
  unfold execSub
  repeat' first
    | (with_reducible first
        | assumption | apply slotDo_memOk | apply State.dueX_memOk)
    | (intro _ _ h; try dsimp only) | intro _
theorem execMul_memOk {s : State} (hs : s.MemOk) (h : Hdr) (xD xA xB : XReg) : OutMemOk (execMul h xD xA xB s) := by
  unfold execMul
  repeat' first
    | (with_reducible first
        | assumption | apply slotDo_memOk | apply State.dueX_memOk)
    | (intro _ _ h; try dsimp only) | intro _ | extract_lets
theorem execMulh_memOk {s : State} (hs : s.MemOk) (h : Hdr) (xD xA xB : XReg) : OutMemOk (execMulh h xD xA xB s) := by
  unfold execMulh
  repeat' first
    | (with_reducible first
        | assumption | apply slotDo_memOk | apply State.dueX_memOk)
    | (intro _ _ h; try dsimp only) | intro _ | extract_lets
theorem execMulhu_memOk {s : State} (hs : s.MemOk) (h : Hdr) (xD xA xB : XReg) : OutMemOk (execMulhu h xD xA xB s) := by
  unfold execMulhu
  repeat' first
    | (with_reducible first
        | assumption | apply slotDo_memOk | apply State.dueX_memOk)
    | (intro _ _ h; try dsimp only) | intro _ | extract_lets
theorem execDiv_memOk {s : State} (hs : s.MemOk) (h : Hdr) (xD xA xB : XReg) : OutMemOk (execDiv h xD xA xB s) := by
  unfold execDiv
  repeat' first
    | (with_reducible first
        | assumption | apply slotDo_memOk | apply State.dueX_memOk)
    | (intro _ _ h; try dsimp only) | intro _ | extract_lets
theorem execDivu_memOk {s : State} (hs : s.MemOk) (h : Hdr) (xD xA xB : XReg) : OutMemOk (execDivu h xD xA xB s) := by
  unfold execDivu
  repeat' first
    | (with_reducible first
        | assumption | apply slotDo_memOk | apply State.dueX_memOk)
    | (intro _ _ h; try dsimp only) | intro _ | extract_lets
theorem execRem_memOk {s : State} (hs : s.MemOk) (h : Hdr) (xD xA xB : XReg) : OutMemOk (execRem h xD xA xB s) := by
  unfold execRem
  repeat' first
    | (with_reducible first
        | assumption | apply slotDo_memOk | apply State.dueX_memOk)
    | (intro _ _ h; try dsimp only) | intro _ | extract_lets
theorem execRemu_memOk {s : State} (hs : s.MemOk) (h : Hdr) (xD xA xB : XReg) : OutMemOk (execRemu h xD xA xB s) := by
  unfold execRemu
  repeat' first
    | (with_reducible first
        | assumption | apply slotDo_memOk | apply State.dueX_memOk)
    | (intro _ _ h; try dsimp only) | intro _ | extract_lets
theorem execAnd_memOk {s : State} (hs : s.MemOk) (h : Hdr) (xD xA xB : XReg) : OutMemOk (execAnd h xD xA xB s) := by
  unfold execAnd
  repeat' first
    | (with_reducible first
        | assumption | apply slotDo_memOk | apply State.dueX_memOk)
    | (intro _ _ h; try dsimp only) | intro _ | extract_lets
theorem execOr_memOk {s : State} (hs : s.MemOk) (h : Hdr) (xD xA xB : XReg) : OutMemOk (execOr h xD xA xB s) := by
  unfold execOr
  repeat' first
    | (with_reducible first
        | assumption | apply slotDo_memOk | apply State.dueX_memOk)
    | (intro _ _ h; try dsimp only) | intro _ | extract_lets
theorem execXor_memOk {s : State} (hs : s.MemOk) (h : Hdr) (xD xA xB : XReg) : OutMemOk (execXor h xD xA xB s) := by
  unfold execXor
  repeat' first
    | (with_reducible first
        | assumption | apply slotDo_memOk | apply State.dueX_memOk)
    | (intro _ _ h; try dsimp only) | intro _ | extract_lets
theorem execAndn_memOk {s : State} (hs : s.MemOk) (h : Hdr) (xD xA xB : XReg) : OutMemOk (execAndn h xD xA xB s) := by
  unfold execAndn
  repeat' first
    | (with_reducible first
        | assumption | apply slotDo_memOk | apply State.dueX_memOk)
    | (intro _ _ h; try dsimp only) | intro _ | extract_lets
theorem execShl_memOk {s : State} (hs : s.MemOk) (h : Hdr) (xD xA xB : XReg) : OutMemOk (execShl h xD xA xB s) := by
  unfold execShl
  repeat' first
    | (with_reducible first
        | assumption | apply slotDo_memOk | apply State.dueX_memOk)
    | (intro _ _ h; try dsimp only) | intro _ | extract_lets
theorem execShr_memOk {s : State} (hs : s.MemOk) (h : Hdr) (xD xA xB : XReg) : OutMemOk (execShr h xD xA xB s) := by
  unfold execShr
  repeat' first
    | (with_reducible first
        | assumption | apply slotDo_memOk | apply State.dueX_memOk)
    | (intro _ _ h; try dsimp only) | intro _ | extract_lets
theorem execSar_memOk {s : State} (hs : s.MemOk) (h : Hdr) (xD xA xB : XReg) : OutMemOk (execSar h xD xA xB s) := by
  unfold execSar
  repeat' first
    | (with_reducible first
        | assumption | apply slotDo_memOk | apply State.dueX_memOk)
    | (intro _ _ h; try dsimp only) | intro _ | extract_lets
theorem execMin_memOk {s : State} (hs : s.MemOk) (h : Hdr) (xD xA xB : XReg) : OutMemOk (execMin h xD xA xB s) := by
  unfold execMin
  repeat' first
    | (with_reducible first
        | assumption | apply slotDo_memOk | apply State.dueX_memOk | apply memOk_ite | apply outMemOk_ite)
    | (intro _ _ h; try dsimp only) | intro _ | extract_lets
theorem execMax_memOk {s : State} (hs : s.MemOk) (h : Hdr) (xD xA xB : XReg) : OutMemOk (execMax h xD xA xB s) := by
  unfold execMax
  repeat' first
    | (with_reducible first
        | assumption | apply slotDo_memOk | apply State.dueX_memOk | apply memOk_ite | apply outMemOk_ite)
    | (intro _ _ h; try dsimp only) | intro _ | extract_lets
theorem execMinu_memOk {s : State} (hs : s.MemOk) (h : Hdr) (xD xA xB : XReg) : OutMemOk (execMinu h xD xA xB s) := by
  unfold execMinu
  repeat' first
    | (with_reducible first
        | assumption | apply slotDo_memOk | apply State.dueX_memOk | apply memOk_ite | apply outMemOk_ite)
    | (intro _ _ h; try dsimp only) | intro _ | extract_lets
theorem execMaxu_memOk {s : State} (hs : s.MemOk) (h : Hdr) (xD xA xB : XReg) : OutMemOk (execMaxu h xD xA xB s) := by
  unfold execMaxu
  repeat' first
    | (with_reducible first
        | assumption | apply slotDo_memOk | apply State.dueX_memOk | apply memOk_ite | apply outMemOk_ite)
    | (intro _ _ h; try dsimp only) | intro _ | extract_lets
theorem execAddi_memOk {s : State} (hs : s.MemOk) (h : Hdr) (xD xA : XReg) (imm : BitVec 9) : OutMemOk (execAddi h xD xA imm s) := by
  unfold execAddi
  repeat' first
    | (with_reducible first
        | assumption | apply slotDo_memOk | apply State.dueX_memOk)
    | (intro _ _ h; try dsimp only) | intro _ | extract_lets
theorem execAndi_memOk {s : State} (hs : s.MemOk) (h : Hdr) (xD xA : XReg) (imm : BitVec 9) : OutMemOk (execAndi h xD xA imm s) := by
  unfold execAndi
  repeat' first
    | (with_reducible first
        | assumption | apply slotDo_memOk | apply State.dueX_memOk)
    | (intro _ _ h; try dsimp only) | intro _ | extract_lets
theorem execOri_memOk {s : State} (hs : s.MemOk) (h : Hdr) (xD xA : XReg) (imm : BitVec 9) : OutMemOk (execOri h xD xA imm s) := by
  unfold execOri
  repeat' first
    | (with_reducible first
        | assumption | apply slotDo_memOk | apply State.dueX_memOk)
    | (intro _ _ h; try dsimp only) | intro _ | extract_lets
theorem execXori_memOk {s : State} (hs : s.MemOk) (h : Hdr) (xD xA : XReg) (imm : BitVec 9) : OutMemOk (execXori h xD xA imm s) := by
  unfold execXori
  repeat' first
    | (with_reducible first
        | assumption | apply slotDo_memOk | apply State.dueX_memOk)
    | (intro _ _ h; try dsimp only) | intro _ | extract_lets
theorem execShli_memOk {s : State} (hs : s.MemOk) (h : Hdr) (xD xA : XReg) (imm : BitVec 9) : OutMemOk (execShli h xD xA imm s) := by
  unfold execShli
  repeat' first
    | (with_reducible first
        | assumption | apply slotDo_memOk | apply State.dueX_memOk)
    | (intro _ _ h; try dsimp only) | intro _ | extract_lets
theorem execShri_memOk {s : State} (hs : s.MemOk) (h : Hdr) (xD xA : XReg) (imm : BitVec 9) : OutMemOk (execShri h xD xA imm s) := by
  unfold execShri
  repeat' first
    | (with_reducible first
        | assumption | apply slotDo_memOk | apply State.dueX_memOk)
    | (intro _ _ h; try dsimp only) | intro _ | extract_lets
theorem execSari_memOk {s : State} (hs : s.MemOk) (h : Hdr) (xD xA : XReg) (imm : BitVec 9) : OutMemOk (execSari h xD xA imm s) := by
  unfold execSari
  repeat' first
    | (with_reducible first
        | assumption | apply slotDo_memOk | apply State.dueX_memOk)
    | (intro _ _ h; try dsimp only) | intro _ | extract_lets
theorem execLi_memOk {s : State} (hs : s.MemOk) (h : Hdr) (xD : XReg) (imm : BitVec 15) : OutMemOk (execLi h xD imm s) := by
  unfold execLi
  repeat' first
    | (with_reducible first
        | assumption | apply slotDo_memOk | apply State.dueX_memOk)
    | (intro _ _ h; try dsimp only) | intro _
theorem execLih_memOk {s : State} (hs : s.MemOk) (h : Hdr) (xD : XReg) (imm : BitVec 15) : OutMemOk (execLih h xD imm s) := by
  unfold execLih
  repeat' first
    | (with_reducible first
        | assumption | apply slotDo_memOk | apply State.dueX_memOk)
    | (intro _ _ h; try dsimp only) | intro _
theorem execCmp_memOk {s : State} (hs : s.MemOk) (h : Hdr) (pD : PReg) (xA xB : XReg) (cond : Cond) (comb : Comb) : OutMemOk (execCmp h pD xA xB cond
    comb s) := by
  unfold execCmp
  repeat' first
    | (with_reducible first
        | assumption | apply State.due_memOk | apply slotDo_memOk)
    | (intro _ _ h; try dsimp only) | intro _ | extract_lets
theorem execCmpi_memOk {s : State} (hs : s.MemOk) (h : Hdr) (pD : PReg) (xA : XReg) (imm : BitVec 6) (cond : Cond) (comb : Comb) : OutMemOk (execCmpi
    h pD xA imm cond comb s) := by
  unfold execCmpi
  repeat' first
    | (with_reducible first
        | assumption | apply State.due_memOk | apply slotDo_memOk)
    | (intro _ _ h; try dsimp only) | intro _ | extract_lets
theorem execSel_memOk {s : State} (hs : s.MemOk) (h : Hdr) (xD xA xB : XReg) : OutMemOk (execSel h xD xA xB s) := by
  unfold execSel
  extract_lets c k
  repeat' first
    | (with_reducible first
        | assumption | apply State.dueX_memOk | apply memOk_ite | apply outMemOk_ite | apply outMemOk_next)
    | intro _
theorem execPlog_memOk {s : State} (hs : s.MemOk) (h : Hdr) (pD pA pB : PReg) (tt : BitVec 4) : OutMemOk (execPlog h pD pA pB tt s) := by
  unfold execPlog
  repeat' first
    | (with_reducible first
        | assumption | apply State.due_memOk | apply slotDo_memOk)
    | (intro _ _ h; try dsimp only) | intro _ | extract_lets
theorem execClz_memOk {s : State} (hs : s.MemOk) (h : Hdr) (xD xA : XReg) : OutMemOk (execClz h xD xA s) := by
  unfold execClz
  repeat' first
    | (with_reducible first
        | assumption | apply slotDo_memOk | apply State.dueX_memOk)
    | (intro _ _ h; try dsimp only) | intro _
theorem execCtz_memOk {s : State} (hs : s.MemOk) (h : Hdr) (xD xA : XReg) : OutMemOk (execCtz h xD xA s) := by
  unfold execCtz
  repeat' first
    | (with_reducible first
        | assumption | apply slotDo_memOk | apply State.dueX_memOk)
    | (intro _ _ h; try dsimp only) | intro _
theorem execPopc_memOk {s : State} (hs : s.MemOk) (h : Hdr) (xD xA : XReg) : OutMemOk (execPopc h xD xA s) := by
  unfold execPopc
  repeat' first
    | (with_reducible first
        | assumption | apply slotDo_memOk | apply State.dueX_memOk)
    | (intro _ _ h; try dsimp only) | intro _
theorem execBfx_memOk {s : State} (hs : s.MemOk) (h : Hdr) (xD xA xB : XReg) (sx : Bool) : OutMemOk (execBfx h xD xA xB sx s) := by
  unfold execBfx
  repeat' first
    | (with_reducible first
        | assumption | apply slotDo_memOk | apply State.dueX_memOk)
    | (intro _ _ h; try dsimp only) | intro _
theorem execMfs_memOk {s : State} (hs : s.MemOk) (h : Hdr) (xD : XReg) (num : Fin 1024) : OutMemOk (execMfs h xD num s) := by
  unfold execMfs
  repeat' first
    | (with_reducible first
        | assumption | apply slotDo_memOk | apply State.dueX_memOk)
    | (intro _ _ h; try dsimp only) | intro _
theorem execMts_memOk {s : State} (hs : s.MemOk) (h : Hdr) (xA : XReg) (num : Fin 1024) : OutMemOk (execMts h xA num s) := by
  unfold execMts
  repeat' first
    | (with_reducible first
        | assumption | apply State.due_memOk | apply slotDo_memOk)
    | (intro _ _ h; try dsimp only) | intro _
theorem execXidx_memOk {s : State} (hs : s.MemOk) (h : Hdr) (xD : XReg) (lvl : LevelF) : OutMemOk (execXidx h xD lvl s) := by
  unfold execXidx
  repeat' first
    | (with_reducible first
        | assumption | apply slotDo_memOk | apply State.dueX_memOk)
    | (intro _ _ h; try dsimp only) | intro _
theorem execLdp_memOk {s : State} (hs : s.MemOk) (h : Hdr) (xD : XReg) (w : Fin 8) (imm : Fin 4096) : OutMemOk (execLdp h xD w imm s) := by
  unfold execLdp
  repeat' first
    | (with_reducible first
        | assumption | apply slotDo_memOk | apply State.dueX_memOk)
    | (intro _ _ h; try dsimp only) | intro _
theorem execLdpx_memOk {s : State} (hs : s.MemOk) (h : Hdr) (xD : XReg) (w : Fin 8) (xA : XReg) : OutMemOk (execLdpx h xD w xA s) := by
  unfold execLdpx
  repeat' first
    | (with_reducible first
        | assumption | apply slotDo_memOk | apply State.dueX_memOk)
    | (intro _ _ h; try dsimp only) | intro _
theorem execOset_memOk {s : State} (hs : s.MemOk) (h : Hdr) (oD : OReg) (xA : XReg) : OutMemOk (execOset h oD xA s) := by
  unfold execOset
  repeat' first
    | (with_reducible first
        | assumption | apply State.due_memOk | apply slotDo_memOk)
    | (intro _ _ h; try dsimp only) | intro _
theorem execOaddi_memOk {s : State} (hs : s.MemOk) (h : Hdr) (oD : OReg) (imm : BitVec 17) : OutMemOk (execOaddi h oD imm s) := by
  unfold execOaddi
  repeat' first
    | (with_reducible first
        | assumption | apply State.due_memOk | apply slotDo_memOk)
    | (intro _ _ h; try dsimp only) | intro _
theorem execOstr_memOk {s : State} (hs : s.MemOk) (h : Hdr) (oD : OReg) (lvl : LevelF) (xA : XReg) : OutMemOk (execOstr h oD lvl xA s) := by
  unfold execOstr
  repeat' first
    | (with_reducible first
        | assumption | apply State.due_memOk | apply slotDo_memOk)
    | (intro _ _ h; try dsimp only) | intro _
theorem execOrd_memOk {s : State} (hs : s.MemOk) (h : Hdr) (xD : XReg) (oA : OReg) : OutMemOk (execOrd h xD oA s) := by
  unfold execOrd
  repeat' first
    | (with_reducible first
        | assumption | apply slotDo_memOk | apply State.dueX_memOk)
    | (intro _ _ h; try dsimp only) | intro _
theorem State.overrule_memOk {s : State} (h : s.MemOk) (c n : Nat) : (s.overrule c n).MemOk := by
  unfold State.overrule
  repeat' first
    | (with_reducible first
        | assumption | apply State.updCore_memOk | apply memOk_ite)
    | (intro _ _ h; try dsimp only) | intro _
theorem execHset_memOk {s : State} (hs : s.MemOk) (h : Hdr) (hD : HReg) (xA : XReg) (sel : Fin 16) : OutMemOk (execHset h hD xA sel s) := by
  unfold execHset
  repeat' first
    | (with_reducible first
        | assumption | apply State.due_memOk | apply slotDo_memOk | apply State.overrule_memOk | apply memOk_ite | apply outMemOk_ite)
    | (intro _ _ h; try dsimp only) | intro _
theorem execHget_memOk {s : State} (hs : s.MemOk) (h : Hdr) (xD : XReg) (hA : HReg) (sel : Fin 16) : OutMemOk (execHget h xD hA sel s) := by
  unfold execHget
  repeat' first
    | (with_reducible first
        | assumption | apply slotDo_memOk | apply State.dueX_memOk)
    | (intro _ _ h; try dsimp only) | intro _
theorem execHcpy_memOk {s : State} (hs : s.MemOk) (h : Hdr) (hD hA : HReg) : OutMemOk (execHcpy h hD hA s) := by
  unfold execHcpy
  repeat' first
    | (with_reducible first
        | assumption | apply State.due_memOk | apply slotDo_memOk | apply State.overrule_memOk)
    | (intro _ _ h; try dsimp only) | intro _

/-! ### TileMemory -/

theorem State.startLoad_memOk {s : State} (h : s.MemOk) (c slot t : Nat) (lc : List LineAcc × List Chunk) (fill : List Byte) (keep : List (Nat ×
    Byte)) (enf : Option Enf) (land : Nat) (nl1 : Bool) (about : List (Option Nat × Bool × Nat) := []) (count : Nat × Nat := (fill.length / 128, 0)) : (s.startLoad c slot t lc
    fill keep enf land nl1 about count).MemOk := by
  unfold State.startLoad
  extract_lets k id at_ s1 s2 s3
  have h_s1 : s1.MemOk := by
    try dsimp only [s1]
    repeat' first
      | (with_reducible first
          | assumption | apply State.push_memOk)
      | (dsimp +zetaDelta only; split) | exact h
  clear_value s1
  have h_s2 : s2.MemOk := by
    try dsimp only [s2]
    repeat' first
      | (with_reducible first
          | assumption | apply State.updCore_memOk)
      | (intro _ _ h; try dsimp only) | intro _ | extract_lets | (dsimp +zetaDelta only; split)
      | (unfold State.MemOk; dsimp only; apply memOk_mem) | exact h
  clear_value s2
  have h_s3 : s3.MemOk := by
    try dsimp only [s3]
    repeat' first
      | (with_reducible first
          | assumption | apply State.updCore_memOk | apply State.due_memOk)
      | (intro _ _ h; try dsimp only) | intro _ | extract_lets | split | (dsimp +zetaDelta only; split)
      | (unfold State.MemOk; dsimp only; apply memOk_mem) | exact h
  clear_value s3
  repeat' first
    | (with_reducible first
        | assumption | apply State.pump_memOk)
    | (dsimp +zetaDelta only; split) | exact h
theorem State.startStore_memOk {s : State} (h : s.MemOk) (c slot t : Nat) (lines : List LineAcc) : (s.startStore c slot t lines).MemOk := by
  unfold State.startStore
  extract_lets k rest
  repeat' first
    | (with_reducible first
        | assumption | apply State.pump_memOk | apply State.push_memOk | apply State.hold_memOk | apply State.readTile_memOk | apply memOk_ite)
    | intro _
theorem execTld_memOk {s : State} (hs : s.MemOk) (h : Hdr) (tD : TReg) (xB : XReg) (oO : OReg) (byp : Bool) (land : Land) : OutMemOk (execTld h tD xB
    oO byp land s) := by
  unfold execTld
  repeat' first
    | (with_reducible first
        | assumption | apply slotDo_memOk | apply State.startLoad_memOk)
    | (intro _ _ h; try dsimp only) | intro _ | extract_lets
theorem execTst_memOk {s : State} (hs : s.MemOk) (h : Hdr) (tS : TReg) (xB : XReg) (oO : OReg) : OutMemOk (execTst h tS xB oO s) := by
  unfold execTst
  repeat' first
    | (with_reducible first
        | assumption | apply slotDo_memOk | apply State.startStore_memOk)
    | (intro _ _ h; try dsimp only) | intro _
theorem execTldh_memOk {s : State} (hs : s.MemOk) (h : Hdr) (tD : TReg) (hn : HReg) (og : Fin 4) (enf : Bool) (land : Land) : OutMemOk (execTldh h tD
    hn og enf land s) := by
  unfold execTldh
  repeat' first
    | (with_reducible first
        | assumption | apply slotDo_memOk | apply State.startLoad_memOk | apply memOk_ite | apply outMemOk_ite)
    | (intro _ _ h; try dsimp only) | intro _ | extract_lets
theorem execTsth_memOk {s : State} (hs : s.MemOk) (h : Hdr) (tS : TReg) (hn : HReg) (og : Fin 4) : OutMemOk (execTsth h tS hn og s) := by
  unfold execTsth
  repeat' first
    | (with_reducible first
        | assumption | apply State.pump_memOk | apply State.push_memOk | apply State.hold_memOk | apply State.readTile_memOk | apply slotDo_memOk
        | apply State.startStore_memOk | apply memOk_ite | apply outMemOk_ite)
    | (intro _ _ h; try dsimp only) | intro _ | extract_lets
theorem execTldg_memOk {s : State} (hs : s.MemOk) (h : Hdr) (tD : TReg) (xB : XReg) (tI : TReg) (l7 : Bool) : OutMemOk (execTldg h tD xB tI l7 s) :=
    by
  unfold execTldg
  repeat' first
    | (with_reducible first
        | assumption | apply slotDo_memOk | apply State.startLoad_memOk | apply memOk_ite | apply outMemOk_ite)
    | (intro _ _ h; try dsimp only) | intro _ | extract_lets
theorem execTsts_memOk {s : State} (hs : s.MemOk) (h : Hdr) (tS : TReg) (xB : XReg) (tI : TReg) : OutMemOk (execTsts h tS xB tI s) := by
  unfold execTsts
  repeat' first
    | (with_reducible first
        | assumption | apply slotDo_memOk | apply State.startStore_memOk)
    | (intro _ _ h; try dsimp only) | intro _
theorem execTldx_memOk {s : State} (hs : s.MemOk) (h : Hdr) (tD : TReg) (xB : XReg) (oO : OReg) (land : Land) : OutMemOk (execTldx h tD xB oO land s)
    := by
  unfold execTldx
  repeat' first
    | (with_reducible first
        | assumption | apply slotDo_memOk | apply State.startLoad_memOk)
    | (intro _ _ h; try dsimp only) | intro _ | extract_lets
theorem execTldw_memOk {s : State} (hs : s.MemOk) (h : Hdr) (xD xB : XReg) (oO : OReg) (land : Land) : OutMemOk (execTldw h xD xB oO land s) := by
  unfold execTldw
  repeat' first
    | (with_reducible first
        | assumption | apply State.dueLate_memOk | apply State.pump_memOk | apply State.push_memOk | apply slotDo_memOk)
    | (intro _ _ h; try dsimp only) | intro _ | extract_lets
theorem execTshp_memOk {s : State} (hs : s.MemOk) (h : Hdr) (tD : TReg) (xA : XReg) : OutMemOk (execTshp h tD xA s) := by
  unfold execTshp
  repeat' first
    | (with_reducible first
        | assumption | apply State.due_memOk | apply slotDo_memOk)
    | (intro _ _ h; try dsimp only) | intro _
theorem execTshpBound_memOk {s : State} (hs : s.MemOk) (h : Hdr) (tD : TReg) (xA : XReg) (hn : HReg) : OutMemOk (execTshpBound h tD xA hn s) := by
  unfold execTshpBound
  repeat' first
    | (with_reducible first
        | assumption | apply State.due_memOk | apply slotDo_memOk)
    | (intro _ _ h; try dsimp only) | intro _
theorem execTzero_memOk {s : State} (hs : s.MemOk) (h : Hdr) (tD : TReg) : OutMemOk (execTzero h tD s) := by
  unfold execTzero
  repeat' first
    | (with_reducible first
        | assumption | apply State.updCore_memOk | apply State.bump_memOk | apply State.sched_memOk | apply slotDo_memOk)
    | (intro _ _ h; try dsimp only) | intro _ | extract_lets | (unfold State.MemOk; dsimp only; apply memOk_mem)
theorem execTempty_memOk {s : State} (hs : s.MemOk) (h : Hdr) (tD : TReg) : OutMemOk (execTempty h tD s) := by
  unfold execTempty
  repeat' first
    | (with_reducible first
        | assumption | apply State.updCore_memOk | apply slotDo_memOk)
    | (intro _ _ h; try dsimp only) | intro _
theorem State.warmXlate_memOk {s : State} (h : s.MemOk) (c va : Nat) : (s.warmXlate c va).1.MemOk := by
  unfold State.warmXlate
  extract_lets x d fill
  repeat' first
    | (with_reducible first
        | assumption | apply State.updCore_memOk | apply State.updDie_memOk | apply State.touchXl_memOk | apply State.agentWalk_memOk
        | apply memOk_foldl | apply memOk_foldl_work | apply memOk_foldl_fst | apply memOk_foldl_work_fst | apply memOk_ite
        | refine memOk_fst ?_ (by assumption) | refine memOk_snd ?_ (by assumption) | refine outMemOk_elim ?_ (by assumption))
    | (intro _ _ h; try dsimp only) | intro _ | extract_lets | split | (dsimp +zetaDelta only; split)
    | (unfold State.MemOk; dsimp only; apply memOk_mem) | exact h
theorem State.warmLine_memOk {s0 : State} (h : s0.MemOk) (c va : Nat) (lvl : WarmLevel) : (s0.warmLine c va lvl).MemOk := by
  unfold State.warmLine
  extract_lets r s
  have h_r : r.1.MemOk := by
    try dsimp only [r]
    repeat' with_reducible first
      | assumption | apply State.warmXlate_memOk
  clear_value r
  have h_s : s.MemOk := by
    try dsimp only [s]
    repeat' with_reducible first
      | assumption
  clear_value s
  repeat' first
    | (with_reducible first
        | assumption | apply State.updCore_memOk | apply State.l2Touch_memOk | apply memOk_ite)
    | (intro _ _ h; try dsimp only) | intro _ | extract_lets | split | (unfold State.MemOk; dsimp only; apply memOk_mem)
theorem execTwarm_memOk {s : State} (hs : s.MemOk) (h : Hdr) (xN xB : XReg) (oO : OReg) (lvl : WarmLevel) : OutMemOk (execTwarm h xN xB oO lvl s) :=
    by
  unfold execTwarm
  repeat' first
    | (with_reducible first
        | assumption | apply slotDo_memOk | apply State.warmLine_memOk | apply memOk_foldl)
    | (intro _ _ h; try dsimp only) | intro _ | extract_lets
theorem execXchn_memOk {s : State} (hs : s.MemOk) (h : Hdr) (xD xA xC : XReg) : OutMemOk (execXchn h xD xA xC s) := by
  unfold execXchn
  repeat' first
    | (with_reducible first
        | assumption | apply State.fenceAt_memOk | apply State.ask_memOk | apply slotDo_memOk)
    | (intro _ _ h; try dsimp only) | intro _ | extract_lets
theorem State.askNow_memOk {s : State} (h : s.MemOk) (c slot : Nat) (r : Req) (rel x lat : Nat) : (s.askNow c slot r rel x lat).MemOk := by
  unfold State.askNow
  extract_lets k
  repeat' with_reducible first
    | assumption | apply State.dueLate_memOk | apply State.pump_memOk | apply State.push_memOk
theorem execTwm_memOk {s : State} (hs : s.MemOk) (h : Hdr) (xD xC : XReg) : OutMemOk (execTwm h xD xC s) := by
  unfold execTwm
  repeat' first
    | (with_reducible first
        | assumption | apply slotDo_memOk | apply State.askNow_memOk)
    | (intro _ _ h; try dsimp only) | intro _

/-! ### Matrix -/

theorem State.logEvs_memOk {s : State} (h : s.MemOk) (c pos addr : Nat) (ev : Evs) : (s.logEvs c pos addr ev).MemOk := by
  unfold State.logEvs
  repeat' first
    | (with_reducible first
        | assumption | apply State.updCore_memOk)
    | (intro _ _ h; try dsimp only) | intro _
theorem State.logSum_memOk {s : State} (h : s.MemOk) (c pos addr : Nat) (ev : Nat × Nat) : (s.logSum c pos addr ev).MemOk := by
  unfold State.logSum
  repeat' first
    | (with_reducible first
        | assumption | apply State.updCore_memOk)
    | (intro _ _ h; try dsimp only) | intro _
theorem State.ended_memOk {s : State} (h : s.MemOk) (c : Nat) : (s.ended c).MemOk := by
  unfold State.ended
  repeat' first
    | (with_reducible first
        | assumption | apply State.drainCheck_memOk)
    | extract_lets | split | (unfold State.MemOk; dsimp only; apply memOk_mem)
theorem State.startMma_memOk {s : State} (h : s.MemOk) (c : Nat) (o : MmaOp) : (s.startMma c o).MemOk := by
  unfold State.startMma
  extract_lets s1 s2
  have h_s1 : s1.MemOk := by
    try dsimp only [s1]
    repeat' first
      | (with_reducible first
          | assumption | apply State.updCore_memOk)
      | (intro _ _ h; try dsimp only) | intro _ | extract_lets | (unfold State.MemOk; dsimp only; apply memOk_mem)
  clear_value s1
  have h_s2 : s2.MemOk := by
    try dsimp only [s2]
    repeat' with_reducible first
      | assumption | apply State.after_memOk | apply State.watchTrf_memOk
  clear_value s2
  repeat' first
    | (with_reducible first
        | assumption | apply State.after_memOk | apply memOk_ite)
    | intro _
theorem State.engineNext_memOk {s : State} (h : s.MemOk) (c : Nat) : (s.engineNext c).MemOk := by
  unfold State.engineNext
  extract_lets k
  repeat' first
    | (with_reducible first
        | assumption | apply State.soon_memOk | apply State.startMma_memOk | apply memOk_ite)
    | (intro _ _ h; try dsimp only) | intro _ | extract_lets | split | (unfold State.MemOk; dsimp only; apply memOk_mem)
theorem State.pushPlaced_memOk {s : State} (h : s.MemOk) (c slot : Nat) (k : PlKind) : (s.pushPlaced c slot k).MemOk := by
  unfold State.pushPlaced
  repeat' with_reducible first
    | assumption | apply State.pump_memOk | apply State.push_memOk
theorem State.issueMma_memOk {s : State} (h : s.MemOk) (c slot acc : Nat) (a b : MOp) (fs zero : Bool) : (s.issueMma c slot acc a b fs zero).MemOk :=
    by
  unfold State.issueMma
  extract_lets k e fa fb aa ab id s1
  have h_s1 : s1.MemOk := by
    try dsimp only [s1]
    repeat' first
      | (with_reducible first
          | assumption | apply State.updCore_memOk)
      | (intro _ _ h; try dsimp only) | intro _ | extract_lets | (unfold State.MemOk; dsimp only; apply memOk_mem)
  clear_value s1
  repeat' first
    | (with_reducible first
        | assumption | apply State.updCore_memOk | apply State.bump_memOk | apply State.startMma_memOk | apply State.pushPlaced_memOk
        | apply memOk_ite)
    | (intro _ _ h; try dsimp only) | intro _ | extract_lets | (unfold State.MemOk; dsimp only; apply memOk_mem)
theorem execMma_memOk {s : State} (hs : s.MemOk) (h : Hdr) (acc : AReg) (a b : MOp) (fs : Bool) : OutMemOk (execMma h acc a b fs s) := by
  unfold execMma
  repeat' first
    | (with_reducible first
        | assumption | apply slotDo_memOk | apply State.issueMma_memOk)
    | (intro _ _ h; try dsimp only) | intro _
theorem execMmaz_memOk {s : State} (hs : s.MemOk) (h : Hdr) (acc : AReg) (a b : MOp) (fs : Bool) : OutMemOk (execMmaz h acc a b fs s) := by
  unfold execMmaz
  repeat' first
    | (with_reducible first
        | assumption | apply slotDo_memOk | apply State.issueMma_memOk)
    | (intro _ _ h; try dsimp only) | intro _
theorem State.settleJob_memOk {s : State} (h : s.MemOk) (c : Nat) (j : Job) : (s.settleJob c j).MemOk := by
  unfold State.settleJob
  extract_lets k
  repeat' first
    | (with_reducible first
        | assumption | apply State.updCore_memOk | apply State.sched_memOk | apply State.watchTrf_memOk | apply memOk_ite)
    | (intro _ _ h; try dsimp only) | intro _ | extract_lets | split | (unfold State.MemOk; dsimp only; apply memOk_mem)
theorem State.accSettle_memOk {s : State} (h : s.MemOk) (c id : Nat) : (s.accSettle c id).MemOk := by
  unfold State.accSettle
  extract_lets s0 s1
  have h_s0 : s0.MemOk := by
    try dsimp only [s0]
    repeat' first
      | (with_reducible first
          | assumption | apply State.updCore_memOk | apply memOk_foldl)
      | (intro _ _ h; try dsimp only) | intro _ | (unfold State.MemOk; dsimp only; apply memOk_mem)
  clear_value s0
  have h_s1 : s1.MemOk := by
    try dsimp only [s1]
    repeat' first
      | (with_reducible first
          | assumption | apply State.updCore_memOk)
      | (intro _ _ h; try dsimp only) | intro _ | extract_lets | (unfold State.MemOk; dsimp only; apply memOk_mem)
  clear_value s1
  repeat' first
    | (with_reducible first
        | assumption | apply State.soon_memOk | apply State.ended_memOk | apply State.settleJob_memOk | apply memOk_foldl)
    | (intro _ _ h; try dsimp only) | intro _
theorem execMout_memOk {s : State} (hs : s.MemOk) (h : Hdr) (tD : TReg) (acc : AReg) (rm : RMode) (sat : Bool) : OutMemOk (execMout h tD acc rm sat s)
    := by
  unfold execMout
  repeat' first
    | (with_reducible first
        | assumption | apply State.updCore_memOk | apply State.bump_memOk | apply slotDo_memOk | apply State.pushPlaced_memOk
        | apply State.settleJob_memOk | apply memOk_ite | apply outMemOk_ite)
    | (intro _ _ h; try dsimp only) | intro _ | extract_lets | split | (unfold State.MemOk; dsimp only; apply memOk_mem)
theorem execMrd_memOk {s : State} (hs : s.MemOk) (h : Hdr) (tD : TReg) (acc : AReg) (xD : XReg) : OutMemOk (execMrd h tD acc xD s) := by
  unfold execMrd
  repeat' first
    | (with_reducible first
        | assumption | apply State.updCore_memOk | apply State.bump_memOk | apply State.sched_memOk | apply State.due_memOk
        | apply State.watchTrf_memOk | apply slotDo_memOk | apply State.pushPlaced_memOk)
    | (intro _ _ h; try dsimp only) | intro _ | extract_lets | split | (unfold State.MemOk; dsimp only; apply memOk_mem)
theorem execMclr_memOk {s : State} (hs : s.MemOk) (h : Hdr) (acc : AReg) : OutMemOk (execMclr h acc s) := by
  unfold execMclr
  repeat' first
    | (with_reducible first
        | assumption | apply State.updCore_memOk | apply State.bump_memOk | apply State.after_memOk | apply slotDo_memOk)
    | (intro _ _ h; try dsimp only) | intro _ | extract_lets | (unfold State.MemOk; dsimp only; apply memOk_mem)
theorem execMcop_memOk {s : State} (hs : s.MemOk) (h : Hdr) (xA : XReg) : OutMemOk (execMcop h xA s) := by
  unfold execMcop
  repeat' first
    | (with_reducible first
        | assumption | apply State.due_memOk | apply slotDo_memOk)
    | (intro _ _ h; try dsimp only) | intro _
theorem execMfeed_memOk {s : State} (hs : s.MemOk) (h : Hdr) (acc : AReg) (a : MOp) : OutMemOk (execMfeed h acc a s) := by
  unfold execMfeed
  repeat' first
    | (with_reducible first
        | assumption | apply State.updCore_memOk | apply State.bump_memOk | apply slotDo_memOk | apply State.pushPlaced_memOk
        | apply State.settleJob_memOk)
    | (intro _ _ h; try dsimp only) | intro _ | extract_lets | split | (unfold State.MemOk; dsimp only; apply memOk_mem)
theorem execMfmt_memOk {s : State} (hs : s.MemOk) (h : Hdr) (lvl : LevelF) : OutMemOk (execMfmt h lvl s) := by
  unfold execMfmt
  repeat' first
    | (with_reducible first
        | assumption | apply State.due_memOk | apply slotDo_memOk)
    | (intro _ _ h; try dsimp only) | intro _
theorem execKstepComplete_memOk {s : State} (h : s.MemOk) (core : Fin 64) (id : Nat) : OutMemOk (execKstepComplete core id s) := by
  unfold execKstepComplete
  repeat' first
    | (with_reducible first
        | assumption | apply State.updCore_memOk | apply State.after_memOk | apply State.soon_memOk | apply memOk_ite | apply outMemOk_ite
        | apply outMemOk_next)
    | (intro _ _ h; try dsimp only) | intro _ | extract_lets | split | (unfold State.MemOk; dsimp only; apply memOk_mem)
theorem execShadowSwap_memOk {s : State} (h : s.MemOk) (core : Fin 64) : OutMemOk (execShadowSwap core s) := by
  unfold execShadowSwap
  extract_lets finished
  repeat' first
    | (with_reducible first
        | assumption | apply State.updCore_memOk | apply State.engineNext_memOk | apply outMemOk_next)
    | (intro _ _ h; try dsimp only) | intro _ | extract_lets | (unfold State.MemOk; dsimp only; apply memOk_mem)
theorem execMmaComplete_memOk {s : State} (h : s.MemOk) (core : Fin 64) (id : Nat) : OutMemOk (execMmaComplete core id s) := by
  unfold execMmaComplete
  repeat' first
    | (with_reducible first
        | assumption | apply State.updCore_memOk | apply State.logEvs_memOk | apply State.accSettle_memOk | apply memOk_ite | apply outMemOk_ite
        | apply outMemOk_next)
    | (intro _ _ h; try dsimp only) | intro _ | extract_lets | split | (unfold State.MemOk; dsimp only; apply memOk_mem)
theorem State.fillJob_memOk {s : State} (h : s.MemOk) (c : Nat) (j : Job) : (s.fillJob c j).MemOk := by
  unfold State.fillJob
  repeat' first
    | (with_reducible first
        | assumption | apply State.updCore_memOk | apply State.logSum_memOk | apply memOk_foldl)
    | (intro _ _ h; try dsimp only) | intro _
theorem execMatrixOutputComplete_memOk {s : State} (h : s.MemOk) (core : Fin 64) (id : Nat) : OutMemOk (execMatrixOutputComplete core id s) := by
  unfold execMatrixOutputComplete
  extract_lets c
  repeat' first
    | (with_reducible first
        | assumption | apply State.setCore_memOk | apply State.updCore_memOk | apply State.logEvs_memOk | apply State.accSettle_memOk
        | apply State.fillJob_memOk | apply memOk_ite | apply outMemOk_ite | apply outMemOk_next)
    | (intro _ _ h; try dsimp only) | intro _ | extract_lets | split | (unfold State.MemOk; dsimp only; apply memOk_mem)

/-! ### Vector -/

theorem State.pipeGo_memOk {s : State} (h : s.MemOk) (c : Nat) (q : Bool) : (s.pipeGo c q).MemOk := by
  unfold State.pipeGo
  repeat' first
    | (with_reducible first
        | assumption | apply State.updCore_memOk | apply State.after_memOk | apply State.soon_memOk | apply State.watchTrf_memOk)
    | (intro _ _ h; try dsimp only) | intro _ | extract_lets | split | (unfold State.MemOk; dsimp only; apply memOk_mem)
theorem State.pipeAdd_memOk {s : State} (h : s.MemOk) (c : Nat) (q : Bool) (o : PipeOp) : (s.pipeAdd c q o).MemOk := by
  unfold State.pipeAdd
  extract_lets idle s1
  have h_s1 : s1.MemOk := by
    try dsimp only [s1]
    repeat' first
      | (with_reducible first
          | assumption | apply State.updCore_memOk)
      | (intro _ _ h; try dsimp only) | intro _
  clear_value s1
  repeat' first
    | (with_reducible first
        | assumption | apply State.pipeGo_memOk | apply memOk_ite)
    | intro _
theorem State.issueVec_memOk {s : State} (h : s.MemOk) (c slot : Nat) (v : VecI) : (s.issueVec c slot v).MemOk := by
  unfold State.issueVec
  extract_lets k d a r part inp id pos empty s1
  have h_s1 : s1.MemOk := by
    try dsimp only [s1]
    repeat' first
      | (with_reducible first
          | assumption | apply State.updCore_memOk)
      | (dsimp +zetaDelta only; split) | exact h
  clear_value s1
  repeat' first
    | (with_reducible first
        | assumption | apply State.bump_memOk | apply State.dueLate_memOk | apply State.pushPlaced_memOk | apply State.pipeAdd_memOk
        | apply memOk_ite)
    | (intro _ _ h; try dsimp only) | intro _ | extract_lets | split | (dsimp +zetaDelta only; split)
    | (unfold State.MemOk; dsimp only; apply memOk_mem) | exact h
theorem State.vecDo_memOk {s : State} (h : s.MemOk) (c slot : Nat) (i : Instr) : (s.vecDo c slot i).MemOk := by
  unfold State.vecDo
  repeat' first
    | (with_reducible first
        | assumption | apply State.issueVec_memOk)
    | extract_lets | split | (unfold State.MemOk; dsimp only; apply memOk_mem)
theorem execPipeStart_memOk {s : State} (h : s.MemOk) (core : Fin 64) (q : Bool) : OutMemOk (execPipeStart core q s) := by
  unfold execPipeStart
  extract_lets c s1
  repeat' first
    | (with_reducible first
        | assumption | apply State.updCore_memOk | apply State.watchTrf_memOk | apply State.trfTurn_memOk | apply State.pipeGo_memOk
        | apply memOk_foldl | apply memOk_foldl_work | apply memOk_foldl_fst | apply memOk_foldl_work_fst | apply memOk_ite | apply outMemOk_ite
        | apply outMemOk_next | refine memOk_fst ?_ (by assumption) | refine memOk_snd ?_ (by assumption)
        | refine outMemOk_elim ?_ (by assumption))
    | (intro _ _ h; try dsimp only) | intro _ | extract_lets | split | (dsimp +zetaDelta only; split)
    | (unfold State.MemOk; dsimp only; apply memOk_mem) | exact h
theorem execVectorComplete_memOk {s : State} (h : s.MemOk) (core : Fin 64) (id : Nat) : OutMemOk (execVectorComplete core id s) := by
  unfold execVectorComplete
  extract_lets c
  repeat' first
    | (with_reducible first
        | assumption | apply State.updCore_memOk | apply State.deliver_memOk | apply State.accSettle_memOk | apply State.fillJob_memOk
        | apply memOk_ite | apply outMemOk_ite | apply outMemOk_next)
    | (intro _ _ h; try dsimp only) | intro _ | extract_lets | split | (unfold State.MemOk; dsimp only; apply memOk_mem)
theorem execVadd_memOk {s : State} (hs : s.MemOk) (h : Hdr) (tD tA tB : TReg) : OutMemOk (execVadd h tD tA tB s) := by
  unfold execVadd
  repeat' first
    | (with_reducible first
        | assumption | apply slotDo_memOk | apply State.vecDo_memOk)
    | (intro _ _ h; try dsimp only) | intro _
theorem execVsub_memOk {s : State} (hs : s.MemOk) (h : Hdr) (tD tA tB : TReg) : OutMemOk (execVsub h tD tA tB s) := by
  unfold execVsub
  repeat' first
    | (with_reducible first
        | assumption | apply slotDo_memOk | apply State.vecDo_memOk)
    | (intro _ _ h; try dsimp only) | intro _
theorem execVmul_memOk {s : State} (hs : s.MemOk) (h : Hdr) (tD tA tB : TReg) : OutMemOk (execVmul h tD tA tB s) := by
  unfold execVmul
  repeat' first
    | (with_reducible first
        | assumption | apply slotDo_memOk | apply State.vecDo_memOk)
    | (intro _ _ h; try dsimp only) | intro _
theorem execVfma_memOk {s : State} (hs : s.MemOk) (h : Hdr) (tD tA tB : TReg) : OutMemOk (execVfma h tD tA tB s) := by
  unfold execVfma
  repeat' first
    | (with_reducible first
        | assumption | apply slotDo_memOk | apply State.vecDo_memOk)
    | (intro _ _ h; try dsimp only) | intro _
theorem execVmax_memOk {s : State} (hs : s.MemOk) (h : Hdr) (tD tA tB : TReg) : OutMemOk (execVmax h tD tA tB s) := by
  unfold execVmax
  repeat' first
    | (with_reducible first
        | assumption | apply slotDo_memOk | apply State.vecDo_memOk)
    | (intro _ _ h; try dsimp only) | intro _
theorem execVmin_memOk {s : State} (hs : s.MemOk) (h : Hdr) (tD tA tB : TReg) : OutMemOk (execVmin h tD tA tB s) := by
  unfold execVmin
  repeat' first
    | (with_reducible first
        | assumption | apply slotDo_memOk | apply State.vecDo_memOk)
    | (intro _ _ h; try dsimp only) | intro _
theorem execVabs_memOk {s : State} (hs : s.MemOk) (h : Hdr) (tD tA : TReg) : OutMemOk (execVabs h tD tA s) := by
  unfold execVabs
  repeat' first
    | (with_reducible first
        | assumption | apply slotDo_memOk | apply State.vecDo_memOk)
    | (intro _ _ h; try dsimp only) | intro _
theorem execVneg_memOk {s : State} (hs : s.MemOk) (h : Hdr) (tD tA : TReg) : OutMemOk (execVneg h tD tA s) := by
  unfold execVneg
  repeat' first
    | (with_reducible first
        | assumption | apply slotDo_memOk | apply State.vecDo_memOk)
    | (intro _ _ h; try dsimp only) | intro _
theorem execVrcp_memOk {s : State} (hs : s.MemOk) (h : Hdr) (tD tA : TReg) (rm : RMode) (sat : Bool) : OutMemOk (execVrcp h tD tA rm sat s) := by
  unfold execVrcp
  repeat' first
    | (with_reducible first
        | assumption | apply slotDo_memOk | apply State.vecDo_memOk)
    | (intro _ _ h; try dsimp only) | intro _
theorem execVrsq_memOk {s : State} (hs : s.MemOk) (h : Hdr) (tD tA : TReg) (rm : RMode) (sat : Bool) : OutMemOk (execVrsq h tD tA rm sat s) := by
  unfold execVrsq
  repeat' first
    | (with_reducible first
        | assumption | apply slotDo_memOk | apply State.vecDo_memOk)
    | (intro _ _ h; try dsimp only) | intro _
theorem execVsqrt_memOk {s : State} (hs : s.MemOk) (h : Hdr) (tD tA : TReg) (rm : RMode) (sat : Bool) : OutMemOk (execVsqrt h tD tA rm sat s) := by
  unfold execVsqrt
  repeat' first
    | (with_reducible first
        | assumption | apply slotDo_memOk | apply State.vecDo_memOk)
    | (intro _ _ h; try dsimp only) | intro _
theorem execVexp2_memOk {s : State} (hs : s.MemOk) (h : Hdr) (tD tA : TReg) (rm : RMode) (sat : Bool) : OutMemOk (execVexp2 h tD tA rm sat s) := by
  unfold execVexp2
  repeat' first
    | (with_reducible first
        | assumption | apply slotDo_memOk | apply State.vecDo_memOk)
    | (intro _ _ h; try dsimp only) | intro _
theorem execVlog2_memOk {s : State} (hs : s.MemOk) (h : Hdr) (tD tA : TReg) (rm : RMode) (sat : Bool) : OutMemOk (execVlog2 h tD tA rm sat s) := by
  unfold execVlog2
  repeat' first
    | (with_reducible first
        | assumption | apply slotDo_memOk | apply State.vecDo_memOk)
    | (intro _ _ h; try dsimp only) | intro _
theorem execVcvt_memOk {s : State} (hs : s.MemOk) (h : Hdr) (tD tA : TReg) (rm : RMode) (sat : Bool) : OutMemOk (execVcvt h tD tA rm sat s) := by
  unfold execVcvt
  repeat' first
    | (with_reducible first
        | assumption | apply slotDo_memOk | apply State.vecDo_memOk)
    | (intro _ _ h; try dsimp only) | intro _
theorem execVand_memOk {s : State} (hs : s.MemOk) (h : Hdr) (tD tA tB : TReg) : OutMemOk (execVand h tD tA tB s) := by
  unfold execVand
  repeat' first
    | (with_reducible first
        | assumption | apply slotDo_memOk | apply State.vecDo_memOk)
    | (intro _ _ h; try dsimp only) | intro _
theorem execVor_memOk {s : State} (hs : s.MemOk) (h : Hdr) (tD tA tB : TReg) : OutMemOk (execVor h tD tA tB s) := by
  unfold execVor
  repeat' first
    | (with_reducible first
        | assumption | apply slotDo_memOk | apply State.vecDo_memOk)
    | (intro _ _ h; try dsimp only) | intro _
theorem execVxor_memOk {s : State} (hs : s.MemOk) (h : Hdr) (tD tA tB : TReg) : OutMemOk (execVxor h tD tA tB s) := by
  unfold execVxor
  repeat' first
    | (with_reducible first
        | assumption | apply slotDo_memOk | apply State.vecDo_memOk)
    | (intro _ _ h; try dsimp only) | intro _
theorem execVshl_memOk {s : State} (hs : s.MemOk) (h : Hdr) (tD tA : TReg) (xB : XReg) : OutMemOk (execVshl h tD tA xB s) := by
  unfold execVshl
  repeat' first
    | (with_reducible first
        | assumption | apply slotDo_memOk | apply State.vecDo_memOk)
    | (intro _ _ h; try dsimp only) | intro _
theorem execVshr_memOk {s : State} (hs : s.MemOk) (h : Hdr) (tD tA : TReg) (xB : XReg) : OutMemOk (execVshr h tD tA xB s) := by
  unfold execVshr
  repeat' first
    | (with_reducible first
        | assumption | apply slotDo_memOk | apply State.vecDo_memOk)
    | (intro _ _ h; try dsimp only) | intro _
theorem execVcmp_memOk {s : State} (hs : s.MemOk) (h : Hdr) (tD tA tB : TReg) : OutMemOk (execVcmp h tD tA tB s) := by
  unfold execVcmp
  repeat' first
    | (with_reducible first
        | assumption | apply slotDo_memOk | apply State.vecDo_memOk)
    | (intro _ _ h; try dsimp only) | intro _
theorem execVsel_memOk {s : State} (hs : s.MemOk) (h : Hdr) (tD tA tB : TReg) : OutMemOk (execVsel h tD tA tB s) := by
  unfold execVsel
  repeat' first
    | (with_reducible first
        | assumption | apply slotDo_memOk | apply State.vecDo_memOk)
    | (intro _ _ h; try dsimp only) | intro _
theorem execVmov_memOk {s : State} (hs : s.MemOk) (h : Hdr) (tD tA : TReg) : OutMemOk (execVmov h tD tA s) := by
  unfold execVmov
  repeat' first
    | (with_reducible first
        | assumption | apply slotDo_memOk | apply State.vecDo_memOk)
    | (intro _ _ h; try dsimp only) | intro _
theorem execVopx_memOk {s : State} (hs : s.MemOk) (h : Hdr) (tD tA : TReg) (fn : VFun) : OutMemOk (execVopx h tD tA fn s) := by
  unfold execVopx
  repeat' first
    | (with_reducible first
        | assumption | apply slotDo_memOk | apply State.vecDo_memOk)
    | (intro _ _ h; try dsimp only) | intro _
theorem execVbc_memOk {s : State} (hs : s.MemOk) (h : Hdr) (tD tA : TReg) : OutMemOk (execVbc h tD tA s) := by
  unfold execVbc
  repeat' first
    | (with_reducible first
        | assumption | apply slotDo_memOk | apply State.vecDo_memOk)
    | (intro _ _ h; try dsimp only) | intro _
theorem execVrred_memOk {s : State} (hs : s.MemOk) (h : Hdr) (tD tA : TReg) (rm : RMode) (sat : Bool) (op : RedOp) : OutMemOk (execVrred h tD tA rm
    sat op s) := by
  unfold execVrred
  repeat' first
    | (with_reducible first
        | assumption | apply slotDo_memOk | apply State.vecDo_memOk)
    | (intro _ _ h; try dsimp only) | intro _
theorem execVcred_memOk {s : State} (hs : s.MemOk) (h : Hdr) (tD tA : TReg) (rm : RMode) (sat : Bool) (op : RedOp) : OutMemOk (execVcred h tD tA rm
    sat op s) := by
  unfold execVcred
  repeat' first
    | (with_reducible first
        | assumption | apply slotDo_memOk | apply State.vecDo_memOk)
    | (intro _ _ h; try dsimp only) | intro _
theorem execVxs_memOk {s : State} (hs : s.MemOk) (h : Hdr) (xD : XReg) (tA : TReg) (xB : XReg) : OutMemOk (execVxs h xD tA xB s) := by
  unfold execVxs
  repeat' first
    | (with_reducible first
        | assumption | apply slotDo_memOk | apply State.vecDo_memOk)
    | (intro _ _ h; try dsimp only) | intro _
theorem execVins_memOk {s : State} (hs : s.MemOk) (h : Hdr) (tD : TReg) (xA xB : XReg) : OutMemOk (execVins h tD xA xB s) := by
  unfold execVins
  repeat' first
    | (with_reducible first
        | assumption | apply slotDo_memOk | apply State.vecDo_memOk)
    | (intro _ _ h; try dsimp only) | intro _
theorem execViota_memOk {s : State} (hs : s.MemOk) (h : Hdr) (tD : TReg) (xA : XReg) : OutMemOk (execViota h tD xA s) := by
  unfold execViota
  repeat' first
    | (with_reducible first
        | assumption | apply slotDo_memOk | apply State.vecDo_memOk)
    | (intro _ _ h; try dsimp only) | intro _
theorem execVperm_memOk {s : State} (hs : s.MemOk) (h : Hdr) (tD tA tB : TReg) : OutMemOk (execVperm h tD tA tB s) := by
  unfold execVperm
  repeat' first
    | (with_reducible first
        | assumption | apply slotDo_memOk | apply State.vecDo_memOk)
    | (intro _ _ h; try dsimp only) | intro _
theorem execVscan_memOk {s : State} (hs : s.MemOk) (h : Hdr) (tD tA : TReg) (rm : RMode) (sat : Bool) (op : RedOp) : OutMemOk (execVscan h tD tA rm
    sat op s) := by
  unfold execVscan
  repeat' first
    | (with_reducible first
        | assumption | apply slotDo_memOk | apply State.vecDo_memOk)
    | (intro _ _ h; try dsimp only) | intro _
theorem execVpart_memOk {s : State} (hs : s.MemOk) (h : Hdr) (tD tA : TReg) (nom1 : Fin 4) : OutMemOk (execVpart h tD tA nom1 s) := by
  unfold execVpart
  repeat' first
    | (with_reducible first
        | assumption | apply slotDo_memOk | apply State.vecDo_memOk)
    | (intro _ _ h; try dsimp only) | intro _
theorem execVclmp_memOk {s : State} (hs : s.MemOk) (h : Hdr) (tD tA tB : TReg) : OutMemOk (execVclmp h tD tA tB s) := by
  unfold execVclmp
  repeat' first
    | (with_reducible first
        | assumption | apply slotDo_memOk | apply State.vecDo_memOk)
    | (intro _ _ h; try dsimp only) | intro _
theorem execVtrn_memOk {s : State} (hs : s.MemOk) (h : Hdr) (tD tA : TReg) : OutMemOk (execVtrn h tD tA s) := by
  unfold execVtrn
  repeat' first
    | (with_reducible first
        | assumption | apply slotDo_memOk | apply State.vecDo_memOk)
    | (intro _ _ h; try dsimp only) | intro _
theorem execQthr_memOk {s : State} (hs : s.MemOk) (h : Hdr) (tD tA : TReg) : OutMemOk (execQthr h tD tA s) := by
  unfold execQthr
  repeat' first
    | (with_reducible first
        | assumption | apply slotDo_memOk | apply State.vecDo_memOk)
    | (intro _ _ h; try dsimp only) | intro _
theorem execQbis_memOk {s : State} (hs : s.MemOk) (h : Hdr) (tD : TReg) (km1 : Fin 8) : OutMemOk (execQbis h tD km1 s) := by
  unfold execQbis
  repeat' first
    | (with_reducible first
        | assumption | apply slotDo_memOk | apply State.vecDo_memOk)
    | (intro _ _ h; try dsimp only) | intro _
theorem execQsel_memOk {s : State} (hs : s.MemOk) (h : Hdr) (tD tA tB : TReg) : OutMemOk (execQsel h tD tA tB s) := by
  unfold execQsel
  repeat' first
    | (with_reducible first
        | assumption | apply slotDo_memOk | apply State.vecDo_memOk)
    | (intro _ _ h; try dsimp only) | intro _
theorem execQscl_memOk {s : State} (hs : s.MemOk) (h : Hdr) (tD tA : TReg) (rm : RMode) (sat : Bool) : OutMemOk (execQscl h tD tA rm sat s) := by
  unfold execQscl
  repeat' first
    | (with_reducible first
        | assumption | apply slotDo_memOk | apply State.vecDo_memOk)
    | (intro _ _ h; try dsimp only) | intro _
theorem execQnt_memOk {s : State} (hs : s.MemOk) (h : Hdr) (tD tA : TReg) (rm : RMode) (sat : Bool) : OutMemOk (execQnt h tD tA rm sat s) := by
  unfold execQnt
  repeat' first
    | (with_reducible first
        | assumption | apply slotDo_memOk | apply State.vecDo_memOk)
    | (intro _ _ h; try dsimp only) | intro _
theorem execQdq_memOk {s : State} (hs : s.MemOk) (h : Hdr) (tD tA : TReg) : OutMemOk (execQdq h tD tA s) := by
  unfold execQdq
  repeat' first
    | (with_reducible first
        | assumption | apply slotDo_memOk | apply State.vecDo_memOk)
    | (intro _ _ h; try dsimp only) | intro _
theorem execQef_memOk {s : State} (hs : s.MemOk) (h : Hdr) (tD tA tB : TReg) : OutMemOk (execQef h tD tA tB s) := by
  unfold execQef
  repeat' first
    | (with_reducible first
        | assumption | apply slotDo_memOk | apply State.vecDo_memOk)
    | (intro _ _ h; try dsimp only) | intro _

/-! ### Fabric -/

theorem execChcfg_memOk {s : State} (hs : s.MemOk) (h : Hdr) (n : CReg) (xA : XReg) : OutMemOk (execChcfg h n xA s) := by
  unfold execChcfg
  repeat' first
    | (with_reducible first
        | assumption | apply State.updCore_memOk | apply State.pump_memOk | apply State.push_memOk | apply slotDo_memOk)
    | (intro _ _ h; try dsimp only) | intro _ | extract_lets | (unfold State.MemOk; dsimp only; apply memOk_mem)
theorem execChsnd_memOk {s : State} (hs : s.MemOk) (h : Hdr) (n : CReg) (tS : TReg) : OutMemOk (execChsnd h n tS s) := by
  unfold execChsnd
  repeat' first
    | (with_reducible first
        | assumption | apply State.updCore_memOk | apply State.after_memOk | apply State.pump_memOk | apply State.push_memOk
        | apply State.readTile_memOk | apply slotDo_memOk | apply memOk_ite | apply outMemOk_ite)
    | (intro _ _ h; try dsimp only) | intro _ | extract_lets | split | (unfold State.MemOk; dsimp only; apply memOk_mem)
theorem State.creditBack_memOk {s : State} (h : s.MemOk) (c n sender : Nat) : (s.creditBack c n sender).MemOk := by
  unfold State.creditBack
  repeat' first
    | (with_reducible first
        | assumption | apply State.after_memOk | apply State.sendPeer_memOk | apply memOk_ite)
    | intro _
theorem execChadv_memOk {s : State} (hs : s.MemOk) (h : Hdr) (n : CReg) (cons : Bool) : OutMemOk (execChadv h n cons s) := by
  unfold execChadv
  repeat' first
    | (with_reducible first
        | assumption | apply State.updCore_memOk | apply slotDo_memOk | apply State.creditBack_memOk | apply memOk_ite | apply outMemOk_ite)
    | (intro _ _ h; try dsimp only) | intro _ | extract_lets | split | (unfold State.MemOk; dsimp only; apply memOk_mem)
theorem execChst_memOk {s : State} (hs : s.MemOk) (h : Hdr) (xD : XReg) (n : CReg) : OutMemOk (execChst h xD n s) := by
  unfold execChst
  repeat' first
    | (with_reducible first
        | assumption | apply State.due_memOk | apply slotDo_memOk)
    | (intro _ _ h; try dsimp only) | intro _
theorem State.fabricAsk_memOk {s : State} (h : s.MemOk) (c slot : Nat) (r : Req) (reply : Bool) (x : Nat) : (s.fabricAsk c slot r reply x).MemOk := by
  unfold State.fabricAsk
  repeat' first
    | (with_reducible first
        | assumption | apply State.fenceAt_memOk | apply State.ask_memOk | apply memOk_ite)
    | intro _
theorem execVrcfg_memOk {s : State} (hs : s.MemOk) (h : Hdr) (xD xA xB : XReg) : OutMemOk (execVrcfg h xD xA xB s) := by
  unfold execVrcfg
  repeat' first
    | (with_reducible first
        | assumption | apply slotDo_memOk | apply State.fabricAsk_memOk)
    | (intro _ _ h; try dsimp only) | intro _ | extract_lets
theorem execVrrte_memOk {s : State} (hs : s.MemOk) (h : Hdr) (xD xA xB : XReg) : OutMemOk (execVrrte h xD xA xB s) := by
  unfold execVrrte
  repeat' first
    | (with_reducible first
        | assumption | apply slotDo_memOk | apply State.fabricAsk_memOk)
    | (intro _ _ h; try dsimp only) | intro _ | extract_lets
theorem execVrsct_memOk {s : State} (hs : s.MemOk) (h : Hdr) (xD xA xB : XReg) : OutMemOk (execVrsct h xD xA xB s) := by
  unfold execVrsct
  repeat' first
    | (with_reducible first
        | assumption | apply slotDo_memOk | apply State.fabricAsk_memOk)
    | (intro _ _ h; try dsimp only) | intro _ | extract_lets
theorem execVrcmb_memOk {s : State} (hs : s.MemOk) (h : Hdr) (xD xA xB : XReg) : OutMemOk (execVrcmb h xD xA xB s) := by
  unfold execVrcmb
  repeat' first
    | (with_reducible first
        | assumption | apply slotDo_memOk | apply State.fabricAsk_memOk)
    | (intro _ _ h; try dsimp only) | intro _ | extract_lets
theorem execVrcnt_memOk {s : State} (hs : s.MemOk) (h : Hdr) (xD xA : XReg) (sel : Fin 16) : OutMemOk (execVrcnt h xD xA sel s) := by
  unfold execVrcnt
  repeat' first
    | (with_reducible first
        | assumption | apply slotDo_memOk | apply State.fabricAsk_memOk)
    | (intro _ _ h; try dsimp only) | intro _ | extract_lets
theorem execPldef_memOk {s : State} (hs : s.MemOk) (h : Hdr) (xD xA xB : XReg) : OutMemOk (execPldef h xD xA xB s) := by
  unfold execPldef
  repeat' first
    | (with_reducible first
        | assumption | apply slotDo_memOk | apply State.fabricAsk_memOk)
    | (intro _ _ h; try dsimp only) | intro _ | extract_lets
theorem execPlcnv_memOk {s : State} (hs : s.MemOk) (h : Hdr) (xD xA xB : XReg) : OutMemOk (execPlcnv h xD xA xB s) := by
  unfold execPlcnv
  repeat' first
    | (with_reducible first
        | assumption | apply slotDo_memOk | apply State.fabricAsk_memOk)
    | (intro _ _ h; try dsimp only) | intro _ | extract_lets
theorem execPlqry_memOk {s : State} (hs : s.MemOk) (h : Hdr) (xD xA : XReg) (sel : Fin 16) : OutMemOk (execPlqry h xD xA sel s) := by
  unfold execPlqry
  repeat' first
    | (with_reducible first
        | assumption | apply slotDo_memOk | apply State.fabricAsk_memOk)
    | (intro _ _ h; try dsimp only) | intro _
theorem execSlbxl_memOk {s : State} (hs : s.MemOk) (h : Hdr) (xD xA xB : XReg) : OutMemOk (execSlbxl h xD xA xB s) := by
  unfold execSlbxl
  repeat' first
    | (with_reducible first
        | assumption | apply slotDo_memOk | apply State.fabricAsk_memOk)
    | (intro _ _ h; try dsimp only) | intro _ | extract_lets
theorem execSlbgr_memOk {s : State} (hs : s.MemOk) (h : Hdr) (xD xA xB : XReg) : OutMemOk (execSlbgr h xD xA xB s) := by
  unfold execSlbgr
  repeat' first
    | (with_reducible first
        | assumption | apply slotDo_memOk | apply State.fabricAsk_memOk)
    | (intro _ _ h; try dsimp only) | intro _ | extract_lets
theorem execExacq_memOk {s : State} (hs : s.MemOk) (h : Hdr) (xD xA xB : XReg) : OutMemOk (execExacq h xD xA xB s) := by
  unfold execExacq
  repeat' first
    | (with_reducible first
        | assumption | apply slotDo_memOk | apply State.fabricAsk_memOk)
    | (intro _ _ h; try dsimp only) | intro _ | extract_lets
theorem execExrel_memOk {s : State} (hs : s.MemOk) (h : Hdr) (xD xA : XReg) : OutMemOk (execExrel h xD xA s) := by
  unfold execExrel
  repeat' first
    | (with_reducible first
        | assumption | apply slotDo_memOk | apply State.fabricAsk_memOk)
    | (intro _ _ h; try dsimp only) | intro _
theorem execTick_memOk {s : State} (hs : s.MemOk) (h : Hdr) (xD : XReg) : OutMemOk (execTick h xD s) := by
  unfold execTick
  repeat' first
    | (with_reducible first
        | assumption | apply State.tick_memOk | apply State.due_memOk | apply slotDo_memOk)
    | (intro _ _ h; try dsimp only) | intro _

/-! ### MemEvents -/

theorem State.lineDone_memOk {s : State} (h : s.MemOk) (c id n : Nat) (bs : List Byte) : (s.lineDone c id n bs).MemOk := by
  unfold State.lineDone
  repeat' first
    | (with_reducible first
        | assumption | apply State.updCore_memOk)
    | (intro _ _ h; try dsimp only) | intro _ | extract_lets | (unfold State.MemOk; dsimp only; apply memOk_mem)
theorem State.afterLine_memOk {s : State} (h : s.MemOk) (c id : Nat) : (s.afterLine c id).MemOk := by
  unfold State.afterLine
  extract_lets s1 s2
  have h_s1 : s1.MemOk := by
    try dsimp only [s1]
    repeat' with_reducible first
      | assumption | apply State.releaseHeld_memOk | apply State.noteFault_memOk
  clear_value s1
  have h_s2 : s2.MemOk := by
    try dsimp only [s2]
    repeat' first
      | (with_reducible first
          | assumption | apply State.sched_memOk | apply State.settled_memOk | apply memOk_ite)
      | intro _ | extract_lets | split | (unfold State.MemOk; dsimp only; apply memOk_mem)
  clear_value s2
  repeat' first
    | (with_reducible first
        | assumption | apply State.soon_memOk | apply State.pump_memOk | apply memOk_foldl | apply memOk_ite)
    | (intro _ _ h; try dsimp only) | intro _
theorem State.arm_memOk {s : State} (h : s.MemOk) (home : Nat) (m : Mon) : (s.arm home m).MemOk := by
  unfold State.arm
  repeat' first
    | (with_reducible first
        | assumption | apply State.updDie_memOk | apply State.updRidge_memOk | apply memOk_ite)
    | (intro _ _ h; try dsimp only) | intro _ | extract_lets | (unfold State.MemOk; dsimp only; apply memOk_mem)
theorem State.compareArm_memOk {s : State} (h : s.MemOk) (c id n : Nat) (o : MemOp) (l : LineAcc) (cond : WaitCond) (v : Word) (off : Nat) (bs : List
    Byte) : (s.compareArm c id n o l cond v off bs).MemOk := by
  unfold State.compareArm
  repeat' first
    | (with_reducible first
        | assumption | apply State.updCore_memOk | apply State.after_memOk | apply State.pinDrop_memOk | apply State.mergeLine_memOk
        | apply State.lineDone_memOk | apply State.afterLine_memOk | apply State.arm_memOk | apply memOk_ite)
    | (intro _ _ h; try dsimp only) | intro _ | extract_lets | (unfold State.MemOk; dsimp only; apply memOk_mem)
theorem State.waitAt_memOk {s : State} (h : s.MemOk) (c id n : Nat) (l : LineAcc) : (s.waitAt c id n l).MemOk := by
  unfold State.waitAt
  repeat' first
    | (with_reducible first
        | assumption | apply State.updAgent_memOk | apply memOk_ite)
    | (intro _ _ h; try dsimp only) | intro _ | extract_lets | (unfold State.MemOk; dsimp only; apply memOk_mem)
theorem State.restart_memOk {s : State} (h : s.MemOk) (c id n : Nat) (l : LineAcc) : (s.restart c id n l).MemOk := by
  unfold State.restart
  repeat' first
    | (with_reducible first
        | assumption | apply State.updCore_memOk | apply State.pinDrop_memOk)
    | (intro _ _ h; try dsimp only) | intro _ | extract_lets | split | (dsimp +zetaDelta only; split)
    | (unfold State.MemOk; dsimp only; apply memOk_mem)
theorem State.dueAt_memOk {s : State} (h : s.MemOk) (t : Nat) (i : Instr) : (s.dueAt t i).MemOk := by
  unfold State.dueAt
  split
  · exact h
  · exact State.sched_memOk h t i
theorem State.askAgain_memOk {s : State} (h : s.MemOk) (ev : Instr) : (s.askAgain ev).MemOk := by
  unfold State.askAgain
  split
  · exact State.after_memOk h _ _
  · extract_lets other s1
    have h1 : s1.MemOk := State.updRidge_memOk h _
    clear_value s1
    repeat' first
      | (with_reducible first
          | assumption | apply State.dueAt_memOk | apply State.soon_memOk | apply memOk_ite)
      | intro _ | split
theorem State.askDone_memOk {s : State} (h : s.MemOk) (ev : Instr) (r : Option (Nat × Nat × Nat)) : (s.askDone ev r).MemOk := by
  unfold State.askDone
  extract_lets p s1
  have h1 : s1.MemOk := State.updRidge_memOk h _
  clear_value s1
  repeat' first
    | (with_reducible first
        | assumption | apply State.dueAt_memOk)
    | split
theorem State.askMiss_memOk {s : State} (h : s.MemOk) (ev : Instr) (r : Option (Nat × Nat × Nat)) (home : Nat) : (s.askMiss ev r home).MemOk :=
  State.after_memOk (State.updRidge_memOk (State.askDone_memOk h ev r) _) _ _
theorem State.backAt_memOk {s t : State} (h : t.MemOk) (c id n : Nat) (o : MemOp) (l : LineAcc) (miss : Bool) :
    (s.backAt c id n o l miss t).MemOk := by
  unfold State.backAt
  extract_lets
  split
  · exact State.updCore_memOk h _ _
  · exact h
theorem State.performLine_memOk {s : State} (h : s.MemOk) (c id line : Nat) : (s.performLine c id line).MemOk := by
  unfold State.performLine
  extract_lets ev
  split
  · exact State.askDone_memOk h _ _
  · rename_i o _
    split
    · exact h
    · rename_i l _
      extract_lets before got looks
      have hg : ∀ x : List Byte × State, got = some x → x.2.MemOk := by
        rintro ⟨bs, t⟩ e
        dsimp only [got] at e
        split at e
        · exact State.serveHome_memOk h e
        · exact State.serve_memOk h e
      clear_value got
      cases got with
      | none =>
        dsimp only
        repeat' first
          | (with_reducible first
              | assumption | apply State.after_memOk | apply State.waitAt_memOk | apply State.restart_memOk | apply State.askAgain_memOk
              | apply State.askDone_memOk | apply State.pump_memOk | apply memOk_ite)
          | intro _
      | some x =>
        have h1 := hg x rfl
        obtain ⟨bs, t⟩ := x
        dsimp only at h1 ⊢
        repeat' first
          | (with_reducible first
              | assumption | apply State.after_memOk | apply State.pinDrop_memOk | apply State.bankTake_memOk | apply State.lineDone_memOk
              | apply State.afterLine_memOk | apply State.compareArm_memOk | apply State.restart_memOk | apply State.askAgain_memOk
              | apply State.askDone_memOk | apply State.askMiss_memOk | apply State.backAt_memOk | apply State.pump_memOk | apply memOk_ite)
          | intro _ | extract_lets | split
theorem execLoadPerformed_memOk {s : State} (h : s.MemOk) (core : Fin 64) (id line : Nat) : OutMemOk (execLoadPerformed core id line s) := by
  unfold execLoadPerformed
  repeat' with_reducible first
    | assumption | apply State.performLine_memOk | apply outMemOk_next
theorem execLoadLanding_memOk {s : State} (h : s.MemOk) (core : Fin 64) (id : Nat) : OutMemOk (execLoadLanding core id s) := by
  unfold execLoadLanding
  extract_lets c
  repeat' first
    | (with_reducible first
        | assumption | apply State.updCore_memOk | apply State.settled_memOk | apply State.soon_memOk | apply State.deliver_memOk
        | apply State.pump_memOk | apply State.noteLanded_memOk | apply State.ended_memOk | apply State.accSettle_memOk | apply memOk_ite
        | apply outMemOk_ite | apply outMemOk_next)
    | (intro _ _ h; try dsimp only) | intro _ | extract_lets | split | (unfold State.MemOk; dsimp only; apply memOk_mem)
theorem execMonitorWake_memOk {s : State} (h : s.MemOk) (core : Fin 64) : OutMemOk (execMonitorWake core s) := by
  unfold execMonitorWake
  extract_lets c
  repeat' first
    | (with_reducible first
        | assumption | apply State.updCore_memOk | apply State.updDie_memOk | apply State.updRidge_memOk | apply State.after_memOk
        | apply State.pinDrop_memOk | apply State.mergeLine_memOk | apply State.lineDone_memOk | apply State.afterLine_memOk | apply memOk_foldl
        | apply memOk_ite | apply outMemOk_ite | apply outMemOk_next)
    | (intro _ _ h; try dsimp only) | intro _ | extract_lets | split | (unfold State.MemOk; dsimp only; apply memOk_mem)
theorem execMonitorReread_memOk {s : State} (h : s.MemOk) (core : Fin 64) : OutMemOk (execMonitorReread core s) := by
  unfold execMonitorReread
  repeat' first
    | (with_reducible first
        | assumption | apply State.performLine_memOk | apply memOk_ite | apply outMemOk_ite | apply outMemOk_next)
    | (intro _ _ h; try dsimp only) | intro _ | extract_lets | split | (unfold State.MemOk; dsimp only; apply memOk_mem)
theorem execStorePerformed_memOk {s : State} (h : s.MemOk) (core : Fin 64) (id line : Nat) : OutMemOk (execStorePerformed core id line s) := by
  unfold execStorePerformed
  extract_lets c
  repeat' first
    | (with_reducible first
        | assumption | apply State.updCore_memOk | apply State.after_memOk | apply State.enterStore_memOk | apply State.wcbRoom_memOk
        | apply State.pinDrop_memOk | apply State.bankTake_memOk | apply State.noteFault_memOk | apply State.pump_memOk | apply State.ended_memOk
        | apply memOk_foldl | apply memOk_foldl_work | apply memOk_foldl_fst | apply memOk_foldl_work_fst | apply memOk_ite | apply outMemOk_ite
        | apply outMemOk_next | refine memOk_fst ?_ (by assumption) | refine memOk_snd ?_ (by assumption)
        | refine outMemOk_elim ?_ (by assumption))
    | (intro _ _ h; try dsimp only) | intro _ | extract_lets | split | (dsimp +zetaDelta only; split)
    | (unfold State.MemOk; dsimp only; apply memOk_mem) | exact h
theorem execWcbAgeDrain_memOk {s : State} (h : s.MemOk) (die : Fin 8) (key : Nat) : OutMemOk (execWcbAgeDrain die key s) := by
  unfold execWcbAgeDrain
  repeat' first
    | (with_reducible first
        | assumption | apply State.drainOne_memOk | apply outMemOk_next)
    | (intro _ _ h; try dsimp only) | intro _ | extract_lets | split | (unfold State.MemOk; dsimp only; apply memOk_mem)
theorem execWriteApply_memOk {s : State} (h : s.MemOk) (home : Fin 18) (id : Nat) : OutMemOk (execWriteApply home id s) := by
  unfold execWriteApply
  repeat' first
    | (with_reducible first
        | assumption | apply State.nextWrite_memOk | apply State.deliverWrite_memOk | apply State.askDone_memOk | apply State.askAgain_memOk | apply memOk_ite | apply outMemOk_next)
    | (intro _ _ h; try dsimp only) | intro _ | extract_lets | split | (unfold State.MemOk; dsimp only; apply memOk_mem)
theorem State.retryLoads_memOk {s : State} (h : s.MemOk) (home : Nat) : (s.retryLoads home).MemOk := by
  unfold State.retryLoads
  extract_lets x go s1
  have h_s1 : s1.MemOk := by
    try dsimp only [s1]
    repeat' first
      | (with_reducible first
          | assumption | apply State.updAgent_memOk)
      | (intro _ _ h; try dsimp only) | intro _ | extract_lets | (unfold State.MemOk; dsimp only; apply memOk_mem)
  clear_value s1
  repeat' first
    | (with_reducible first
        | assumption | apply State.soon_memOk | apply memOk_foldl)
    | (intro _ _ h; try dsimp only) | intro _
theorem State.retryPorts_memOk {s : State} (h : s.MemOk) : s.retryPorts.MemOk := by
  unfold State.retryPorts
  repeat' first
    | (with_reducible first
        | assumption | apply State.releaseHeld_memOk | apply memOk_foldl | apply memOk_ite)
    | (intro _ _ h; try dsimp only) | intro _
theorem execCloseMarker_memOk {s : State} (h : s.MemOk) (home agent : Fin 18) (closing : Closing) :
    OutMemOk (execCloseMarker home agent closing s) := by
  unfold execCloseMarker
  extract_lets mark
  repeat' with_reducible first
    | assumption | intro _ | apply outMemOk_ite | apply State.after_memOk | apply State.updAgent_memOk | apply State.retryWrites_memOk | apply State.retryLoads_memOk | apply State.retryPorts_memOk
    | apply outMemOk_next
theorem execApplyAcknowledgement_memOk {s : State} (h : s.MemOk) (die : Fin 8) (id : Nat) : OutMemOk (execApplyAcknowledgement die id s) := by
  unfold execApplyAcknowledgement
  repeat' first
    | (with_reducible first
        | assumption | apply State.updDie_memOk | apply State.pumpDie_memOk | apply outMemOk_next)
    | (intro _ _ h; try dsimp only) | intro _ | extract_lets | (unfold State.MemOk; dsimp only; apply memOk_mem)
theorem State.fenceDrain_memOk {s : State} (h : s.MemOk) (c id : Nat) (ord : Order) (sc : Scope) : (s.fenceDrain c id ord sc).MemOk := by
  unfold State.fenceDrain
  extract_lets r
  have h_r : r.1.MemOk := by
    try dsimp only [r]
    repeat' first
      | (with_reducible first
          | assumption | apply State.updCore_memOk | apply State.sched_memOk | apply State.after_memOk | apply State.releaseDie_memOk
          | apply memOk_foldl | apply memOk_foldl_work | apply memOk_foldl_fst | apply memOk_foldl_work_fst | apply memOk_ite
          | refine memOk_fst ?_ (by assumption) | refine memOk_snd ?_ (by assumption) | refine outMemOk_elim ?_ (by assumption))
      | (intro _ _ h; try dsimp only) | intro _ | extract_lets | split | (dsimp +zetaDelta only; split)
      | (unfold State.MemOk; dsimp only; apply memOk_mem) | exact h
  clear_value r
  repeat' first
    | (with_reducible first
        | assumption | apply State.updCore_memOk | apply State.sched_memOk | apply State.after_memOk | apply State.releaseDie_memOk
        | apply memOk_foldl | apply memOk_foldl_work | apply memOk_foldl_fst | apply memOk_foldl_work_fst | apply memOk_ite
        | refine memOk_fst ?_ (by assumption) | refine memOk_snd ?_ (by assumption) | refine outMemOk_elim ?_ (by assumption))
    | (intro _ _ h; try dsimp only) | intro _ | extract_lets | split | (dsimp +zetaDelta only; split)
    | (unfold State.MemOk; dsimp only; apply memOk_mem) | exact h
theorem execReleaseComplete_memOk {s : State} (h : s.MemOk) (core : Fin 64) (id : Nat) : OutMemOk (execReleaseComplete core id s) := by
  unfold execReleaseComplete
  extract_lets c
  repeat' first
    | (with_reducible first
        | assumption | apply State.updCore_memOk | apply State.updDie_memOk | apply State.updRidge_memOk | apply State.pump_memOk
        | apply State.ended_memOk | apply State.fenceDrain_memOk | apply memOk_ite | apply outMemOk_ite | apply outMemOk_next)
    | (intro _ _ h; try dsimp only) | intro _ | extract_lets | split | (unfold State.MemOk; dsimp only; apply memOk_mem)
theorem State.dropAcked_memOk {s : State} (h : s.MemOk) (c : Nat) : (s.dropAcked c).MemOk := by
  unfold State.dropAcked
  extract_lets done
  repeat' first
    | (with_reducible first
        | assumption | apply State.updCore_memOk | apply State.pump_memOk | apply State.ended_memOk | apply memOk_ite)
    | (intro _ _ h; try dsimp only) | intro _ | extract_lets | (unfold State.MemOk; dsimp only; apply memOk_mem)
theorem execBankRetry_memOk {s : State} (h : s.MemOk) (core : Fin 64) : OutMemOk (execBankRetry core s) := by
  unfold execBankRetry
  repeat' with_reducible first
    | assumption | apply State.pump_memOk | apply outMemOk_next
theorem execTzeroFill_memOk {s : State} (h : s.MemOk) (core : Fin 64) (id : Nat) : OutMemOk (execTzeroFill core id s) := by
  unfold execTzeroFill
  extract_lets c
  repeat' first
    | (with_reducible first
        | assumption | apply State.updCore_memOk | apply State.accSettle_memOk | apply State.fillJob_memOk | apply memOk_ite | apply outMemOk_ite
        | apply outMemOk_next)
    | (intro _ _ h; try dsimp only) | intro _ | extract_lets | split | (unfold State.MemOk; dsimp only; apply memOk_mem)

/-! ### Place -/

theorem State.updPiece_memOk {s : State} (h : s.MemOk) (id : Nat) (f : Piece → Piece) : (s.updPiece id f).MemOk := by
  unfold State.updPiece
  repeat' first
    | (with_reducible first
        | assumption | apply State.updRidge_memOk)
    | (intro _ _ h; try dsimp only) | intro _ | extract_lets | split | (unfold State.MemOk; dsimp only; apply memOk_mem)
theorem State.probeLine_memOk {s : State} (h : s.MemOk) (c id n : Nat) (l : LineAcc) : (s.probeLine c id n l).MemOk := by
  unfold State.probeLine
  repeat' first
    | (with_reducible first
        | assumption | apply State.updCore_memOk | apply State.touchXl_memOk | apply State.pinTake_memOk | apply State.missLine_memOk)
    | (intro _ _ h; try dsimp only) | intro _ | extract_lets | split | (unfold State.MemOk; dsimp only; apply memOk_mem)
theorem State.probe_memOk {s : State} (h : s.MemOk) (c : Nat) (o : MemOp) : (s.probe c o).MemOk := by
  unfold State.probe
  repeat' first
    | (with_reducible first
        | assumption | apply State.probeLine_memOk | apply memOk_foldl | apply memOk_ite)
    | (intro _ _ h; try dsimp only) | intro _ | extract_lets | split | (unfold State.MemOk; dsimp only; apply memOk_mem)
theorem State.freeStage_memOk {s : State} (h : s.MemOk) (c id : Nat) : (s.freeStage c id).MemOk := by
  unfold State.freeStage
  repeat' first
    | (with_reducible first
        | assumption | apply State.updCore_memOk | apply memOk_ite)
    | (intro _ _ h; try dsimp only) | intro _ | extract_lets | (unfold State.MemOk; dsimp only; apply memOk_mem)
theorem State.intake_memOk {s : State} (h : s.MemOk) (q : Nat) : (s.intake q).MemOk := by
  unfold State.intake
  extract_lets come
  repeat' first
    | (with_reducible first
        | assumption | apply State.updRidge_memOk | apply State.updPiece_memOk | apply State.freeStage_memOk | apply memOk_foldl | apply memOk_ite)
    | (intro _ _ h; try dsimp only) | intro _ | extract_lets | (unfold State.MemOk; dsimp only; apply memOk_mem)
theorem State.sendLines_memOk {s : State} (h : s.MemOk) (c : Nat) (o : MemOp) (k : PlKind) (p : Piece) : (s.sendLines c o k p).MemOk := by
  unfold State.sendLines
  extract_lets home away
  repeat' first
    | (with_reducible first
        | assumption | apply State.after_memOk | apply memOk_foldl)
    | (intro _ _ h; try dsimp only) | intro _ | extract_lets
theorem State.placePiece_memOk {s : State} (h : s.MemOk) (c : Nat) (o : MemOp) (k : PlKind) (p : Piece) : (s.placePiece c o k p).1.MemOk := by
  unfold State.placePiece
  extract_lets q id p1 s1
  have h_s1 : s1.MemOk := by
    try dsimp only [s1]
    repeat' with_reducible first
      | assumption | apply State.bump_memOk
  clear_value s1
  repeat' first
    | (with_reducible first
        | assumption | apply State.updRidge_memOk | apply State.sched_memOk | apply State.soon_memOk | apply State.sendLines_memOk)
    | (intro _ _ h; try dsimp only) | intro _ | extract_lets | split | (unfold State.MemOk; dsimp only; apply memOk_mem)
theorem State.cancelGroup_memOk {s : State} (h : s.MemOk) (c id : Nat) : (s.cancelGroup c id).MemOk := by
  unfold State.cancelGroup
  extract_lets ps bad
  repeat' first
    | (with_reducible first
        | assumption | apply State.updRidge_memOk | apply State.updPiece_memOk | apply memOk_foldl | apply memOk_ite)
    | (intro _ _ h; try dsimp only) | intro _ | extract_lets | (unfold State.MemOk; dsimp only; apply memOk_mem)
theorem State.dropCancelled_memOk {s : State} (h : s.MemOk) (c id : Nat) : (s.dropCancelled c id).MemOk := by
  unfold State.dropCancelled
  extract_lets s1
  have h_s1 : s1.MemOk := by
    try dsimp only [s1]
    repeat' first
      | (with_reducible first
          | assumption | apply State.dropPieces_memOk)
      | (intro _ _ h; try dsimp only) | intro _
  clear_value s1
  repeat' first
    | (with_reducible first
        | assumption | apply State.dropOps_memOk | apply State.ended_memOk | apply memOk_ite)
    | (intro _ _ h; try dsimp only) | intro _
theorem State.placeCells_memOk {s : State} (h : s.MemOk) (c : Nat) (o : MemOp) (k : PlKind) (old : List Piece) : (s.placeCells c o k old).MemOk := by
  unfold State.placeCells
  extract_lets cells s0 r s1
  have h_s0 : s0.MemOk := by
    try dsimp only [s0]
    repeat' first
      | (with_reducible first
          | assumption | apply State.updRidge_memOk | apply State.opFault_memOk | apply State.freeStage_memOk | apply State.placePiece_memOk
          | apply State.cancelGroup_memOk | apply State.dropCancelled_memOk | apply memOk_foldl | apply memOk_foldl_work | apply memOk_foldl_fst
          | apply memOk_foldl_work_fst | apply memOk_ite | refine memOk_fst ?_ (by assumption) | refine memOk_snd ?_ (by assumption)
          | refine outMemOk_elim ?_ (by assumption))
      | (intro _ _ h; try dsimp only) | intro _ | extract_lets | split | (dsimp +zetaDelta only; split)
      | (unfold State.MemOk; dsimp only; apply memOk_mem) | exact h
  clear_value s0
  have h_r : r.1.MemOk := by
    try dsimp only [r]
    repeat' first
      | (with_reducible first
          | assumption | apply State.updRidge_memOk | apply State.opFault_memOk | apply State.freeStage_memOk | apply State.placePiece_memOk
          | apply State.cancelGroup_memOk | apply State.dropCancelled_memOk | apply memOk_foldl | apply memOk_foldl_work | apply memOk_foldl_fst
          | apply memOk_foldl_work_fst | apply memOk_ite | refine memOk_fst ?_ (by assumption) | refine memOk_snd ?_ (by assumption)
          | refine outMemOk_elim ?_ (by assumption))
      | (intro _ _ h; try dsimp only) | intro _ | extract_lets | split | (dsimp +zetaDelta only; split)
      | (unfold State.MemOk; dsimp only; apply memOk_mem) | exact h
  clear_value r
  have h_s1 : s1.MemOk := by
    try dsimp only [s1]
    repeat' first
      | (with_reducible first
          | assumption | apply State.updRidge_memOk | apply State.opFault_memOk | apply State.freeStage_memOk | apply State.placePiece_memOk
          | apply State.cancelGroup_memOk | apply State.dropCancelled_memOk | apply memOk_foldl | apply memOk_foldl_work | apply memOk_foldl_fst
          | apply memOk_foldl_work_fst | apply memOk_ite | refine memOk_fst ?_ (by assumption) | refine memOk_snd ?_ (by assumption)
          | refine outMemOk_elim ?_ (by assumption))
      | (intro _ _ h; try dsimp only) | intro _ | extract_lets | split | (dsimp +zetaDelta only; split)
      | (unfold State.MemOk; dsimp only; apply memOk_mem) | exact h
  clear_value s1
  repeat' first
    | (with_reducible first
        | assumption | apply State.updRidge_memOk | apply State.opFault_memOk | apply State.freeStage_memOk | apply State.placePiece_memOk
        | apply State.cancelGroup_memOk | apply State.dropCancelled_memOk | apply memOk_foldl | apply memOk_foldl_work | apply memOk_foldl_fst
        | apply memOk_foldl_work_fst | apply memOk_ite | refine memOk_fst ?_ (by assumption) | refine memOk_snd ?_ (by assumption)
        | refine outMemOk_elim ?_ (by assumption))
    | (intro _ _ h; try dsimp only) | intro _ | extract_lets | split | (dsimp +zetaDelta only; split)
    | (unfold State.MemOk; dsimp only; apply memOk_mem) | exact h
theorem State.placeOp_memOk {s : State} (h : s.MemOk) (c : Nat) (o : MemOp) (k : PlKind) : (s.placeOp c o k).MemOk := by
  unfold State.placeOp
  repeat' with_reducible first
    | assumption | apply State.placeCells_memOk
theorem State.prepare_memOk {s : State} (h : s.MemOk) (c id : Nat) : (s.prepare c id).MemOk := by
  unfold State.prepare
  repeat' first
    | (with_reducible first
        | assumption | apply State.updCore_memOk | apply State.replyAfter_memOk | apply State.probe_memOk | apply memOk_ite)
    | (intro _ _ h; try dsimp only) | intro _ | extract_lets | split | (unfold State.MemOk; dsimp only; apply memOk_mem)
theorem State.placeGo_memOk {c : Nat} (l : List Nat) : ∀ {s : State} (_ : s.MemOk), (s.placeGo c l).MemOk := by
  induction l with
  | nil => intro s h; exact h
  | cons x l ih =>
    intro s h
    unfold State.placeGo
    repeat' first
      | with_reducible assumption
      | with_reducible apply ih
      | with_reducible apply State.updCore_memOk
      | with_reducible apply State.after_memOk
      | with_reducible apply State.probe_memOk
      | with_reducible apply State.placeOp_memOk
      | with_reducible apply memOk_ite
      | intro _
      | extract_lets
      | split
      | (dsimp +zetaDelta only; split)
theorem execPlacement_memOk {s : State} (h : s.MemOk) (core : Fin 64) : OutMemOk (execPlacement core s) := by
  unfold execPlacement
  extract_lets c
  repeat' first
    | (with_reducible first
        | assumption | apply State.soon_memOk | apply State.pump_memOk | apply State.hold_memOk | apply State.prepare_memOk
        | apply State.placeGo_memOk | apply memOk_foldl | apply memOk_ite | apply outMemOk_ite | apply outMemOk_next)
    | (intro _ _ h; try dsimp only) | intro _ | extract_lets
theorem State.pieceReady_memOk {s : State} (h : s.MemOk) (p : Piece) : (s.pieceReady p).1.MemOk := by
  unfold State.pieceReady
  repeat' first
    | (with_reducible first
        | assumption | apply State.performLine_memOk | apply memOk_foldl | apply memOk_ite)
    | (intro _ _ h; try dsimp only) | intro _ | extract_lets | split | (unfold State.MemOk; dsimp only; apply memOk_mem)
theorem State.startPiece_memOk {s : State} (h : s.MemOk) (p : Piece) : (s.startPiece p).MemOk := by
  unfold State.startPiece
  repeat' first
    | (with_reducible first
        | assumption | apply State.updCore_memOk | apply State.after_memOk | apply State.updPiece_memOk | apply memOk_ite)
    | (intro _ _ h; try dsimp only) | intro _ | extract_lets | split | (unfold State.MemOk; dsimp only; apply memOk_mem)
theorem State.startCore_memOk (l : List Nat) : ∀ {s : State} (_ : s.MemOk) (seen : List (Nat × Nat)), (s.startCore l seen).MemOk := by
  induction l with
  | nil => intro s h _; exact h
  | cons x l ih =>
    intro s h seen
    unfold State.startCore
    repeat' first
      | with_reducible assumption
      | with_reducible apply ih
      | with_reducible apply State.startPiece_memOk
      | with_reducible apply State.pieceReady_memOk
      | with_reducible apply memOk_ite
      | intro _
      | extract_lets
      | split
theorem State.freeArrays_memOk {s : State} (h : s.MemOk) : s.freeArrays.MemOk := by
  unfold State.freeArrays
  repeat' first
    | (with_reducible first
        | assumption | apply State.updRidge_memOk | apply memOk_ite)
    | (intro _ _ h; try dsimp only) | intro _ | extract_lets | split | (unfold State.MemOk; dsimp only; apply memOk_mem)
theorem State.centralTurn_memOk (l : List Nat) : ∀ {s : State} (_ : s.MemOk), (s.centralTurn l).1.MemOk := by
  induction l with
  | nil => intro s h; exact h
  | cons x l ih =>
    intro s h
    unfold State.centralTurn
    repeat' first
      | with_reducible assumption
      | with_reducible apply ih
      | with_reducible apply State.updRidge_memOk
      | with_reducible apply State.startPiece_memOk
      | with_reducible apply State.pieceReady_memOk
      | intro _
      | extract_lets
      | split
      | (dsimp +zetaDelta only; split)
theorem State.centralGo_memOk (n : Nat) : ∀ {s : State} (_ : s.MemOk), (s.centralGo n).MemOk := by
  induction n with
  | zero => intro s h; exact h
  | succ n ih => exact fun {s} h => memOk_ite (fun _ => ih (State.centralTurn_memOk _ h)) fun _ => State.centralTurn_memOk _ h
theorem State.startEave_memOk {s : State} (h : s.MemOk) (u : Nat) : (s.startEave u).MemOk := by
  unfold State.startEave
  extract_lets busy
  repeat' first
    | (with_reducible first
        | assumption | apply State.updRidge_memOk | apply State.soon_memOk | apply State.pieceReady_memOk | apply State.startPiece_memOk
        | apply memOk_ite)
    | (intro _ _ h; try dsimp only) | intro _ | extract_lets | split | (unfold State.MemOk; dsimp only; apply memOk_mem)
theorem execPieceStart_memOk {s : State} (h : s.MemOk) (place : Fin 10) : OutMemOk (execPieceStart place s) := by
  unfold execPieceStart
  repeat' first
    | (with_reducible first
        | assumption | apply State.intake_memOk | apply State.startCore_memOk | apply State.freeArrays_memOk | apply State.centralGo_memOk
        | apply State.startEave_memOk | apply outMemOk_next)
    | (intro _ _ h; try dsimp only) | intro _ | extract_lets | split | (unfold State.MemOk; dsimp only; apply memOk_mem)
theorem State.storeAt_memOk {s : State} (h : s.MemOk) (c : Nat) (o : MemOp) (va : Nat) (bs : List Byte) : (s.storeAt c o va bs).MemOk := by
  unfold State.storeAt
  repeat' first
    | (with_reducible first
        | assumption | apply State.placedWrite_memOk | apply memOk_foldl)
    | (intro _ _ h; try dsimp only) | intro _ | extract_lets | split | (unfold State.MemOk; dsimp only; apply memOk_mem)
theorem State.storePart_memOk {s : State} (h : s.MemOk) (c : Nat) (o : MemOp) (e : Enf) (img : List Byte) (m0 m1 n0 n1 : Nat) : (s.storePart c o e img
    m0 m1 n0 n1).MemOk := by
  unfold State.storePart
  extract_lets d base
  repeat' first
    | (with_reducible first
        | assumption | apply State.storeAt_memOk | apply memOk_foldl)
    | (intro _ _ h; try dsimp only) | intro _ | extract_lets | split | (unfold State.MemOk; dsimp only; apply memOk_mem)
theorem State.finishPlaced_memOk {s : State} (h : s.MemOk) (c : Nat) (o : MemOp) (k : PlKind) (x : Option Word) : (s.finishPlaced c o k x).MemOk := by
  unfold State.finishPlaced
  extract_lets ev s1 vers ws live s2 s3 s4
  have h_s1 : s1.MemOk := by
    try dsimp only [s1]
    repeat' with_reducible first
      | assumption | apply State.logEvs_memOk
  clear_value s1
  have h_s2 : s2.MemOk := by
    try dsimp only [s2]
    repeat' first
      | (with_reducible first
          | assumption | apply State.updCore_memOk | apply memOk_ite)
      | (intro _ _ h; try dsimp only) | intro _ | extract_lets | (unfold State.MemOk; dsimp only; apply memOk_mem)
  clear_value s2
  have h_s3 : s3.MemOk := by
    try dsimp only [s3]
    repeat' first
      | (with_reducible first
          | assumption | apply State.pinDrop_memOk | apply memOk_foldl | apply memOk_ite)
      | (intro _ _ h; try dsimp only) | intro _
  clear_value s3
  have h_s4 : s4.MemOk := by
    try dsimp only [s4]
    repeat' first
      | (with_reducible first
          | assumption | apply State.updRidge_memOk)
      | (intro _ _ h; try dsimp only) | intro _ | extract_lets | (unfold State.MemOk; dsimp only; apply memOk_mem)
  clear_value s4
  repeat' first
    | (with_reducible first
        | assumption | apply State.updCore_memOk | apply State.soon_memOk | apply State.pump_memOk | apply State.ended_memOk
        | apply State.engineNext_memOk | apply State.accSettle_memOk)
    | (intro _ _ h; try dsimp only) | intro _
theorem State.storePiece_memOk {s : State} (h : s.MemOk) (o : MemOp) (k : PlKind) (p : Piece) : (s.storePiece o k p).1.MemOk := by
  unfold State.storePiece
  extract_lets c ps group s0
  have h_s0 : s0.MemOk := by
    try dsimp only [s0]
    repeat' first
      | (with_reducible first
          | assumption | apply State.updPiece_memOk)
      | (intro _ _ h; try dsimp only) | intro _ | extract_lets | (dsimp +zetaDelta only; split)
      | (unfold State.MemOk; dsimp only; apply memOk_mem) | exact h
  clear_value s0
  repeat' first
    | (with_reducible first
        | assumption | apply State.setCore_memOk | apply State.updCore_memOk | apply State.updPiece_memOk | apply State.storePart_memOk
        | apply memOk_ite)
    | (intro _ _ h; try dsimp only) | intro _ | extract_lets | split | (dsimp +zetaDelta only; split)
    | (unfold State.MemOk; dsimp only; apply memOk_mem) | exact h
theorem execPieceComplete_memOk {s : State} (h : s.MemOk) (id : Nat) : OutMemOk (execPieceComplete id s) := by
  unfold execPieceComplete
  repeat' first
    | (with_reducible first
        | assumption | apply State.updRidge_memOk | apply State.after_memOk | apply State.soon_memOk | apply State.ended_memOk
        | apply State.updPiece_memOk | apply State.finishPlaced_memOk | apply State.storePiece_memOk | apply memOk_ite | apply outMemOk_ite
        | apply outMemOk_next)
    | (intro _ _ h; try dsimp only) | intro _ | extract_lets | split | (unfold State.MemOk; dsimp only; apply memOk_mem)

/-! ### Context -/

theorem State.retest_memOk {s : State} (h : s.MemOk) (n : Nat) (members : List Nat) : (s.retest n members).MemOk := by
  unfold State.retest
  repeat' first
    | (with_reducible first
        | assumption | apply State.soon_memOk | apply memOk_foldl | apply memOk_ite)
    | (intro _ _ h; try dsimp only) | intro _ | extract_lets
theorem State.setDevSem_memOk {s : State} (h : s.MemOk) (n : Nat) (v : Word) (t : Stamp) : (s.setDevSem n v t).MemOk := by
  unfold State.setDevSem
  extract_lets t1
  repeat' first
    | (with_reducible first
        | assumption | apply State.updRidge_memOk | apply State.soon_memOk | apply State.retest_memOk)
    | (intro _ _ h; try dsimp only) | intro _ | extract_lets | (unfold State.MemOk; dsimp only; apply memOk_mem)
theorem State.addSem_memOk {s : State} (h : s.MemOk) (agent n : Nat) (v : Word) : (s.addSem agent n v).MemOk := by
  unfold State.addSem
  repeat' with_reducible first
    | assumption | apply State.setDevSem_memOk
theorem State.record_memOk {s : State} (h : s.MemOk) (core : Option Nat) (x g stat : Nat) (bs : List Byte) : (s.record core x g stat bs).MemOk := by
  unfold State.record
  extract_lets s1
  have h_s1 : s1.MemOk := by
    try dsimp only [s1]
    repeat' first
      | (with_reducible first
          | assumption | apply State.vwrite_memOk | apply memOk_ite)
      | intro _
  clear_value s1
  repeat' with_reducible first
    | assumption | apply State.tick_memOk
theorem State.dropXl_memOk {s : State} (h : s.MemOk) (x va : Nat) (sz : InvSize) : (s.dropXl x va sz).MemOk := by
  unfold State.dropXl
  repeat' first
    | (with_reducible first
        | assumption | apply memOk_ite)
    | (intro _ _ h; try dsimp only) | intro _ | extract_lets | (unfold State.MemOk; dsimp only; apply memOk_mem)
theorem State.stopGroups_memOk {s : State} (h : s.MemOk) (x : Nat) : (s.stopGroups x).MemOk := by
  unfold State.stopGroups
  repeat' first
    | (with_reducible first
        | assumption | apply State.stopGroup_memOk | apply memOk_foldl)
    | (intro _ _ h; try dsimp only) | intro _
theorem State.cancelChains_memOk {s : State} (h : s.MemOk) (x : Nat) : (s.cancelChains x).MemOk := by
  unfold State.cancelChains
  repeat' first
    | (with_reducible first
        | assumption | apply State.updXch_memOk | apply State.packetDone_memOk | apply memOk_foldl | apply memOk_ite)
    | (intro _ _ h; try dsimp only) | intro _ | extract_lets | split | (unfold State.MemOk; dsimp only; apply memOk_mem)
theorem State.endColl_memOk {s : State} (h : s.MemOk) (k : Coll) (result fva : Nat) : (s.endColl k result fva).MemOk := by
  unfold State.endColl
  extract_lets other done s1 s2
  have h_s1 : s1.MemOk := by
    try dsimp only [s1]
    repeat' first
      | (with_reducible first
          | assumption | apply State.updRidge_memOk)
      | (intro _ _ h; try dsimp only) | intro _ | extract_lets | (unfold State.MemOk; dsimp only; apply memOk_mem)
  clear_value s1
  have h_s2 : s2.MemOk := by
    try dsimp only [s2]
    repeat' with_reducible first
      | assumption | apply State.packetDone_memOk | apply State.record_memOk
  clear_value s2
  repeat' first
    | (with_reducible first
        | assumption | apply State.soon_memOk | apply memOk_foldl)
    | (intro _ _ h; try dsimp only) | intro _
theorem State.cancelColls_memOk {s : State} (h : s.MemOk) (x : Nat) : (s.cancelColls x).MemOk := by
  unfold State.cancelColls
  repeat' first
    | (with_reducible first
        | assumption | apply State.endColl_memOk | apply memOk_foldl)
    | (intro _ _ h; try dsimp only) | intro _
theorem State.fenceCtx_memOk {s : State} (h : s.MemOk) (x cause : Nat) : (s.fenceCtx x cause).MemOk := by
  unfold State.fenceCtx
  extract_lets k
  repeat' first
    | (with_reducible first
        | assumption | apply State.updCtx_memOk | apply State.updRegs_memOk | apply State.stopGroups_memOk | apply State.cancelChains_memOk
        | apply State.cancelColls_memOk | apply memOk_ite)
    | (intro _ _ h; try dsimp only) | intro _ | extract_lets | (unfold State.MemOk; dsimp only; apply memOk_mem)
theorem State.agentFault_memOk {s : State} (h : s.MemOk) (x cause : Nat) {f : State → State} (hf : ∀ s : State, s.MemOk → (f s).MemOk) :
    (s.agentFault x cause f).MemOk :=
  memOk_ite (fun _ => State.fenceCtx_memOk h _ _) fun _ => hf _ h
theorem State.countStale_memOk {s : State} (h : s.MemOk) : s.countStale.MemOk := by
  unfold State.countStale
  repeat' first
    | (with_reducible first
        | assumption | apply State.updRegs_memOk)
    | (intro _ _ h; try dsimp only) | intro _ | extract_lets | (unfold State.MemOk; dsimp only; apply memOk_mem)
theorem State.message_memOk {s : State} (h : s.MemOk) (peer : Bool) (gid : BitVec 16) (i : Instr) {act : Nat → State → State}
    (ha : ∀ (g : Nat) (s : State), s.MemOk → (act g s).MemOk) : (s.message peer gid i act).MemOk := by
  unfold State.message
  split
  · exact State.countStale_memOk h
  · exact State.updRun_memOk h _ _
  · exact ha _ _ h

/-! ### Translate -/

theorem State.endJoins_memOk {s : State} (h : s.MemOk) (joins : List (Nat × Nat × Nat)) (st : AccSt) (e : Option Xl) : (s.endJoins joins st e).MemOk
    := by
  unfold State.endJoins
  extract_lets s1 s2 cs
  have h_s1 : s1.MemOk := by
    try dsimp only [s1]
    repeat' first
      | (with_reducible first
          | assumption | apply State.updCore_memOk | apply memOk_foldl | apply memOk_ite)
      | (intro _ _ h; try dsimp only) | intro _ | extract_lets | split | (unfold State.MemOk; dsimp only; apply memOk_mem)
  clear_value s1
  have h_s2 : s2.MemOk := by
    try dsimp only [s2]
    repeat' first
      | (with_reducible first
          | assumption | apply State.noteFault_memOk | apply memOk_foldl)
      | (intro _ _ h; try dsimp only) | intro _
  clear_value s2
  repeat' first
    | (with_reducible first
        | assumption | apply State.soon_memOk | apply State.pump_memOk | apply memOk_foldl | apply memOk_ite)
    | (intro _ _ h; try dsimp only) | intro _
theorem State.walkLoads_memOk {s : State} (h : s.MemOk) (d : Nat) (w : Walk) (e : Xl) : (s.walkLoads d w e).MemOk := by
  unfold State.walkLoads
  repeat' first
    | (with_reducible first
        | assumption | apply State.updDie_memOk | apply State.endJoins_memOk)
    | (intro _ _ h; try dsimp only) | intro _ | extract_lets | (unfold State.MemOk; dsimp only; apply memOk_mem)
theorem State.walkFaults_memOk {s : State} (h : s.MemOk) (d : Nat) (w : Walk) (cause : Nat) : (s.walkFaults d w cause).MemOk := by
  unfold State.walkFaults
  repeat' first
    | (with_reducible first
        | assumption | apply State.updDie_memOk | apply State.endJoins_memOk)
    | (intro _ _ h; try dsimp only) | intro _ | extract_lets | (unfold State.MemOk; dsimp only; apply memOk_mem)
theorem State.walkOn_memOk {s : State} (h : s.MemOk) (d : Nat) (w : Walk) (n pa : Nat) : (s.walkOn d w n pa).MemOk := by
  unfold State.walkOn
  repeat' first
    | (with_reducible first
        | assumption | apply State.updDie_memOk | apply State.after_memOk)
    | (intro _ _ h; try dsimp only) | intro _ | extract_lets | (unfold State.MemOk; dsimp only; apply memOk_mem)
theorem State.walkGo_memOk {s : State} (h : s.MemOk) (d : Nat) (m : Walk) : (s.walkGo d m).MemOk := by
  unfold State.walkGo
  repeat' first
    | (with_reducible first
        | assumption | apply State.touchPtr_memOk | apply State.cacheLeaf_memOk | apply State.walkLoads_memOk | apply State.walkOn_memOk
        | apply memOk_ite)
    | (intro _ _ h; try dsimp only) | intro _ | extract_lets | split | (unfold State.MemOk; dsimp only; apply memOk_mem)
theorem State.startWalks_memOk {s : State} (h : s.MemOk) (d : Nat) : (s.startWalks d).MemOk := by
  unfold State.startWalks
  repeat' first
    | (with_reducible first
        | assumption | apply State.walkGo_memOk | apply memOk_foldl | apply memOk_ite)
    | (intro _ _ h; try dsimp only) | intro _
theorem execWalkStart_memOk {s : State} (h : s.MemOk) (die : Fin 8) (_ctx : Fin 64) (_va : Nat) : OutMemOk (execWalkStart die _ctx _va s) := by
  unfold execWalkStart
  repeat' with_reducible first
    | assumption | apply State.startWalks_memOk | apply outMemOk_next
theorem execWalkComplete_memOk {s : State} (h : s.MemOk) (die : Fin 8) (ctx : Fin 64) (va : Nat) : OutMemOk (execWalkComplete die ctx va s) := by
  unfold execWalkComplete
  extract_lets d
  repeat' first
    | (with_reducible first
        | assumption | apply State.updDie_memOk | apply State.cacheLeaf_memOk | apply State.cachePtrs_memOk | apply State.fenceCtx_memOk
        | apply State.walkLoads_memOk | apply State.walkFaults_memOk | apply State.walkOn_memOk | apply State.startWalks_memOk | apply State.askDone_memOk | apply State.askAgain_memOk | apply memOk_ite
        | apply outMemOk_ite | apply outMemOk_next)
    | (intro _ _ h; try dsimp only) | intro _ | extract_lets | split | (unfold State.MemOk; dsimp only; apply memOk_mem)
theorem State.gatherInv_memOk {s : State} (h : s.MemOk) : s.gatherInv.MemOk := by
  unfold State.gatherInv
  extract_lets here mine
  repeat' first
    | (with_reducible first
        | assumption | apply State.updRidge_memOk)
    | (intro _ _ h; try dsimp only) | intro _ | extract_lets | (unfold State.MemOk; dsimp only; apply memOk_mem)
theorem State.forgetLine_memOk {s : State} (h : s.MemOk) (c id n : Nat) (l : LineAcc) : (s.forgetLine c id n l).MemOk := by
  unfold State.forgetLine
  repeat' first
    | (with_reducible first
        | assumption | apply State.updCore_memOk | apply State.pinDrop_memOk)
    | (intro _ _ h; try dsimp only) | intro _ | extract_lets | (unfold State.MemOk; dsimp only; apply memOk_mem)
theorem State.forgetLines_memOk {s : State} (h : s.MemOk) (i : Inval) (c : Nat) : (s.forgetLines i c).MemOk := by
  unfold State.forgetLines
  repeat' first
    | (with_reducible first
        | assumption | apply State.soon_memOk | apply State.forgetLine_memOk | apply memOk_foldl | apply memOk_ite)
    | (intro _ _ h; try dsimp only) | intro _ | extract_lets | split | (unfold State.MemOk; dsimp only; apply memOk_mem)
theorem State.beginInv_memOk {s : State} (h : s.MemOk) : s.beginInv.MemOk := by
  unfold State.beginInv
  repeat' first
    | (with_reducible first
        | assumption | apply State.updRidge_memOk | apply State.after_memOk | apply State.dropXl_memOk | apply State.forgetLines_memOk
        | apply memOk_foldl | apply memOk_ite)
    | (intro _ _ h; try dsimp only) | intro _ | extract_lets | split | (unfold State.MemOk; dsimp only; apply memOk_mem)
theorem execInvalidationBegin_memOk {s : State} (h : s.MemOk) : OutMemOk (execInvalidationBegin s) := by
  unfold execInvalidationBegin
  repeat' with_reducible first
    | assumption | apply State.gatherInv_memOk | apply State.beginInv_memOk | apply outMemOk_next
theorem execInvalidationComplete_memOk {s : State} (h : s.MemOk) : OutMemOk (execInvalidationComplete s) := by
  unfold execInvalidationComplete
  repeat' first
    | (with_reducible first
        | assumption | apply State.updCore_memOk | apply State.updRidge_memOk | apply State.updRegs_memOk | apply State.pump_memOk
        | apply State.ended_memOk | apply State.gatherInv_memOk | apply State.beginInv_memOk | apply memOk_ite | apply outMemOk_ite
        | apply outMemOk_next)
    | (intro _ _ h; try dsimp only) | intro _ | extract_lets | split | (unfold State.MemOk; dsimp only; apply memOk_mem)

/-! ### Barrier -/

theorem State.updBar_memOk {s : State} (h : s.MemOk) (g b n : Nat) (f : Bar → Bar) : (s.updBar g b n f).MemOk := by
  unfold State.updBar
  repeat' first
    | (with_reducible first
        | assumption | apply State.updRun_memOk)
    | (intro _ _ h; try dsimp only) | intro _ | extract_lets | (unfold State.MemOk; dsimp only; apply memOk_mem)
theorem State.watch_memOk {s : State} (h : s.MemOk) (g b n : Nat) : (s.watch g b n).MemOk := by
  unfold State.watch
  repeat' first
    | (with_reducible first
        | assumption | apply State.after_memOk | apply State.updBar_memOk | apply memOk_ite)
    | (intro _ _ h; try dsimp only) | intro _ | extract_lets | split | (unfold State.MemOk; dsimp only; apply memOk_mem)
theorem State.overrun_memOk {s : State} (h : s.MemOk) (g b n : Nat) : (s.overrun g b n).MemOk := by
  unfold State.overrun
  repeat' first
    | (with_reducible first
        | assumption | apply State.endGroup_memOk | apply State.updBar_memOk)
    | (intro _ _ h; try dsimp only) | intro _ | extract_lets | (unfold State.MemOk; dsimp only; apply memOk_mem)
theorem State.sendNotice_memOk {s : State} (h : s.MemOk) (g b n : Nat) (phase : Bool) : (s.sendNotice g b n phase).MemOk := by
  unfold State.sendNotice
  extract_lets _ _ _ _ queue
  clear_value queue
  exact memOk_foldl (fun _ _ h => State.after_memOk h _ _) h
theorem State.completePhase_memOk {s : State} (h : s.MemOk) (g b n : Nat) (r : Run) : (s.completePhase g b n r).MemOk := by
  unfold State.completePhase
  extract_lets x y s1
  have h_s1 : s1.MemOk := by
    try dsimp only [s1]
    repeat' first
      | (with_reducible first
          | assumption | apply State.sendNotice_memOk | apply State.updBar_memOk | apply memOk_ite)
      | (intro _ _ h; try dsimp only) | intro _
  clear_value s1
  repeat' first
    | (with_reducible first
        | assumption | apply State.watch_memOk | apply memOk_ite)
    | intro _
theorem State.barTest_memOk {g b n : Nat} (f : Nat) : ∀ {s : State} (_ : s.MemOk), (s.barTest g b n f).MemOk := by
  induction f with
  | zero => intro s h; exact h
  | succ f ih =>
    intro s h
    unfold State.barTest
    repeat' first
      | with_reducible assumption
      | with_reducible apply ih
      | with_reducible apply State.overrun_memOk
      | with_reducible apply State.updBar_memOk
      | with_reducible apply State.completePhase_memOk
      | with_reducible apply State.sendPeers_memOk
      | with_reducible apply memOk_ite
      | intro _
      | extract_lets
      | split
theorem State.barCount_memOk {s : State} (h : s.MemOk) (g b n : Nat) (cur : Bar → Bool) (f : Bar → Bar) : (s.barCount g b n cur f).MemOk := by
  unfold State.barCount
  repeat' first
    | (with_reducible first
        | assumption | apply State.updBar_memOk | apply State.watch_memOk | apply State.barTest_memOk | apply memOk_ite)
    | intro _ | extract_lets | split | (unfold State.MemOk; dsimp only; apply memOk_mem)
theorem execBarrierArrival_memOk {s : State} (h : s.MemOk) (gid : BitVec 16) (core : Fin 64) (b : BReg) (tag : Bool) : OutMemOk (execBarrierArrival
    gid core b tag s) := by
  unfold execBarrierArrival
  repeat' first
    | (with_reducible first
        | assumption | apply State.message_memOk | apply State.barCount_memOk | apply memOk_ite | apply outMemOk_ite | apply outMemOk_next)
    | (intro _ _ h; try dsimp only) | intro _ | extract_lets | split | (unfold State.MemOk; dsimp only; apply memOk_mem)
theorem State.barLand_memOk {s : State} (h : s.MemOk) (g b n : Nat) (tag : Bool) (bytes : Nat) : (s.barLand g b n tag bytes).MemOk := by
  unfold State.barLand
  repeat' first
    | (with_reducible first
        | assumption | apply State.barCount_memOk | apply memOk_ite)
    | (intro _ _ h; try dsimp only) | intro _ | extract_lets | (unfold State.MemOk; dsimp only; apply memOk_mem)
theorem execBarrierLanding_memOk {s : State} (h : s.MemOk) (peer : Bool) (gid : BitVec 16) (core : Fin 64) (b : BReg) (tag : Bool) (bytes : Nat) :
    OutMemOk (execBarrierLanding peer gid core b tag bytes s) := by
  unfold execBarrierLanding
  repeat' first
    | (with_reducible first
        | assumption | apply State.message_memOk | apply State.barLand_memOk | apply memOk_ite | apply outMemOk_ite | apply outMemOk_next)
    | (intro _ _ h; try dsimp only) | intro _ | extract_lets | split | (unfold State.MemOk; dsimp only; apply memOk_mem)
theorem execBdclArrival_memOk {s : State} (h : s.MemOk) (gid : BitVec 16) (core : Fin 64) (b : BReg) (decl : Nat) : OutMemOk (execBdclArrival gid core
    b decl s) := by
  unfold execBdclArrival
  repeat' first
    | (with_reducible first
        | assumption | apply State.message_memOk | apply State.overrun_memOk | apply State.barCount_memOk | apply memOk_ite | apply outMemOk_ite
        | apply outMemOk_next)
    | (intro _ _ h; try dsimp only) | intro _ | extract_lets | split | (unfold State.MemOk; dsimp only; apply memOk_mem)
theorem State.barMerge_memOk {s : State} (h : s.MemOk) (r : Run) (b : Nat) : (s.barMerge r b).MemOk := by
  unfold State.barMerge
  repeat' first
    | (with_reducible first
        | assumption | apply State.merge_memOk | apply memOk_foldl | apply memOk_ite)
    | (intro _ _ h; try dsimp only) | intro _ | extract_lets
theorem execCompletionNotice_memOk {s : State} (h : s.MemOk) (gid : BitVec 16) (inst : Nat) (b : BReg) : OutMemOk (execCompletionNotice gid inst b s)
    := by
  unfold execCompletionNotice
  repeat' first
    | (with_reducible first
        | assumption | apply State.updCore_memOk | apply State.message_memOk | apply State.barMerge_memOk | apply memOk_foldl | apply memOk_ite
        | apply outMemOk_ite | apply outMemOk_next)
    | (intro _ _ h; try dsimp only) | intro _ | extract_lets | split | (unfold State.MemOk; dsimp only; apply memOk_mem)
theorem execWatchdogExpiry_memOk {s : State} (h : s.MemOk) (gid : BitVec 16) (inst : Nat) (b : BReg) : OutMemOk (execWatchdogExpiry gid inst b s) :=
    by
  unfold execWatchdogExpiry
  repeat' first
    | (with_reducible first
        | assumption | apply State.due_memOk | apply State.endGroup_memOk | apply State.updBar_memOk | apply memOk_ite | apply outMemOk_ite
        | apply outMemOk_next)
    | (intro _ _ h; try dsimp only) | intro _ | extract_lets | split | (unfold State.MemOk; dsimp only; apply memOk_mem)
theorem State.countPackage_memOk {s : State} (h : s.MemOk) (g b : Nat) (phase : Bool) : (s.countPackage g b phase).MemOk := by
  unfold State.countPackage
  repeat' first
    | (with_reducible first
        | assumption | apply State.barCount_memOk | apply memOk_ite)
    | (intro _ _ h; try dsimp only) | intro _ | extract_lets | split | (unfold State.MemOk; dsimp only; apply memOk_mem)
theorem State.packageArrives_memOk {s : State} (h : s.MemOk) (sptag : BitVec 16) (b : Nat) (phase : Bool) : (s.packageArrives sptag b phase).MemOk :=
    by
  unfold State.packageArrives
  repeat' first
    | (with_reducible first
        | assumption | apply State.updRun_memOk | apply State.countStale_memOk | apply State.countPackage_memOk)
    | (intro _ _ h; try dsimp only) | intro _ | extract_lets | split | (unfold State.MemOk; dsimp only; apply memOk_mem)
theorem execPackageArrival_memOk {s : State} (h : s.MemOk) (sptag : BitVec 16) (b : BReg) (phase : Bool) (_rank : Nat) : OutMemOk (execPackageArrival
    sptag b phase _rank s) := by
  unfold execPackageArrival
  repeat' with_reducible first
    | assumption | apply State.packageArrives_memOk | apply outMemOk_next
theorem State.landForPacket_memOk {s : State} (h : s.MemOk) (x b bytes : Nat) : (s.landForPacket x b bytes).MemOk := by
  unfold State.landForPacket
  repeat' first
    | (with_reducible first
        | assumption | apply State.after_memOk | apply memOk_foldl | apply memOk_ite)
    | (intro _ _ h; try dsimp only) | intro _ | extract_lets | split | (unfold State.MemOk; dsimp only; apply memOk_mem)
theorem State.mergeVec_memOk {s : State} (h : s.MemOk) (c : Nat) (v : List Nat) : (s.mergeVec c v).MemOk := by
  unfold State.mergeVec
  repeat' first
    | (with_reducible first
        | assumption | apply State.updAgent_memOk)
    | (intro _ _ h; try dsimp only) | intro _ | extract_lets | (unfold State.MemOk; dsimp only; apply memOk_mem)
theorem execSemaphoreOperation_memOk {s : State} (h : s.MemOk) (core : Fin 64) (id : Nat) : OutMemOk (execSemaphoreOperation core id s) := by
  unfold execSemaphoreOperation
  extract_lets c
  repeat' first
    | (with_reducible first
        | assumption | apply State.updCore_memOk | apply State.updRun_memOk | apply State.stash_memOk | apply State.replyAfter_memOk
        | apply State.pump_memOk | apply State.ended_memOk | apply State.retest_memOk | apply State.setDevSem_memOk | apply State.mergeVec_memOk
        | apply memOk_ite | apply outMemOk_ite | apply outMemOk_next)
    | (intro _ _ h; try dsimp only) | intro _ | extract_lets | split | (unfold State.MemOk; dsimp only; apply memOk_mem)
theorem execSemaphoreTest_memOk {s : State} (h : s.MemOk) (core : Fin 64) : OutMemOk (execSemaphoreTest core s) := by
  unfold execSemaphoreTest
  extract_lets c
  repeat' first
    | (with_reducible first
        | assumption | apply State.updRidge_memOk | apply State.mergeVec_memOk | apply memOk_ite | apply outMemOk_ite | apply outMemOk_next)
    | (intro _ _ h; try dsimp only) | intro _ | extract_lets | split | (unfold State.MemOk; dsimp only; apply memOk_mem)
theorem execRemoteFlagChange_memOk {s : State} (h : s.MemOk) (gid : BitVec 16) (sender : Fin 64) (rank : Nat) (f : Fin 32) (val : Bool) (epoch : Nat)
    (acq : List Nat) : OutMemOk (execRemoteFlagChange gid sender rank f val epoch acq s) := by
  unfold execRemoteFlagChange
  repeat' first
    | (with_reducible first
        | assumption | apply State.updCore_memOk | apply State.merge_memOk | apply State.message_memOk | apply memOk_ite | apply outMemOk_ite
        | apply outMemOk_next)
    | (intro _ _ h; try dsimp only) | intro _ | extract_lets | split | (unfold State.MemOk; dsimp only; apply memOk_mem)
theorem State.grantTile_memOk {s : State} (h : s.MemOk) (g c id : Nat) : (s.grantTile g c id).MemOk := by
  unfold State.grantTile
  repeat' first
    | (with_reducible first
        | assumption | apply State.updRun_memOk | apply State.deliver_memOk | apply memOk_ite)
    | (intro _ _ h; try dsimp only) | intro _ | extract_lets | split | (unfold State.MemOk; dsimp only; apply memOk_mem)
theorem execDispenserGrant_memOk {s : State} (h : s.MemOk) (core : Fin 64) (dest : ReplyTo) : OutMemOk (execDispenserGrant core dest s)
    := by
  unfold execDispenserGrant
  repeat' first
    | (with_reducible first
        | assumption | apply State.message_memOk | apply State.grantTile_memOk | apply outMemOk_next)
    | (intro _ _ h; try dsimp only) | intro _

/-! ### Channel -/

theorem execChcfgEntryArrival_memOk {s : State} (h : s.MemOk) (core : Fin 64) (n : CReg) : OutMemOk (execChcfgEntryArrival core n s) := by
  unfold execChcfgEntryArrival
  extract_lets c mine
  repeat' first
    | (with_reducible first
        | assumption | apply State.updCore_memOk | apply State.pump_memOk | apply State.endGroup_memOk | apply State.ended_memOk | apply memOk_ite
        | apply outMemOk_ite | apply outMemOk_next)
    | (intro _ _ h; try dsimp only) | intro _ | extract_lets | split | (unfold State.MemOk; dsimp only; apply memOk_mem)
theorem execChannelLanding_memOk {s : State} (h : s.MemOk) (gid : BitVec 16) (consumer : Fin 64) (sender : Nat) (n : CReg) (slot : Nat)
    (shape : Word) (tag : Bool) (bytes : List Byte) : OutMemOk (execChannelLanding gid consumer sender n slot shape tag bytes s) := by
  refine outMemOk_next (State.message_memOk h _ _ _ fun g s h => ?_)
  dsimp only
  split
  · refine memOk_ite (fun _ => h) fun _ => memOk_ite (fun _ => State.endGroup_memOk h _ _ _ _ _) fun _ => ?_
    split
    · exact State.barLand_memOk (State.updCore_memOk (State.memOk_write h rfl) _ _) _ _ _ _ _
    · exact State.updCore_memOk (State.memOk_write h rfl) _ _
  · exact h
theorem execChannelCredit_memOk {s : State} (h : s.MemOk) (peer : Bool) (gid : BitVec 16) (core : Fin 64) (n : CReg) : OutMemOk (execChannelCredit
    peer gid core n s) := by
  unfold execChannelCredit
  repeat' first
    | (with_reducible first
        | assumption | apply State.updCore_memOk | apply State.message_memOk | apply outMemOk_next)
    | (intro _ _ h; try dsimp only) | intro _ | extract_lets | (unfold State.MemOk; dsimp only; apply memOk_mem)

/-! ### Save -/

theorem State.readBack_memOk {s : State} (h : s.MemOk) (x c : Nat) (k : Core) : (s.readBack x c k).1.MemOk := by
  unfold State.readBack
  extract_lets es k0 data st r
  repeat' first
    | (with_reducible first
        | assumption | apply State.bump_memOk | apply State.hold_memOk | apply memOk_foldl | apply memOk_foldl_work | apply memOk_foldl_fst
        | apply memOk_foldl_work_fst | apply memOk_ite | refine memOk_fst ?_ (by assumption) | refine memOk_snd ?_ (by assumption)
        | refine outMemOk_elim ?_ (by assumption))
    | (intro _ _ h; try dsimp only) | intro _ | extract_lets | split | (dsimp +zetaDelta only; split)
    | (unfold State.MemOk; dsimp only; apply memOk_mem) | exact h

/-! ### Group -/

theorem State.shunFenced_memOk {s : State} (h : s.MemOk) (g : Nat) : (s.shunFenced g).MemOk := by
  unfold State.shunFenced
  repeat' first
    | (with_reducible first
        | assumption | apply State.stopGroup_memOk | apply memOk_ite)
    | intro _ | extract_lets | split | (unfold State.MemOk; dsimp only; apply memOk_mem)
theorem State.beginRun_memOk {s : State} (h : s.MemOk) (g : Nat) : (s.beginRun g).MemOk := by
  unfold State.beginRun
  repeat' first
    | (with_reducible first
        | assumption | apply State.setCore_memOk | apply State.updGrp_memOk | apply State.updRun_memOk | apply State.soon_memOk
        | apply State.mergeVec_memOk | apply State.shunFenced_memOk | apply memOk_foldl)
    | (intro _ _ h; try dsimp only) | intro _ | extract_lets | split | (unfold State.MemOk; dsimp only; apply memOk_mem)
theorem State.sendLate_memOk {s : State} (h : s.MemOk) (r : Run) : (s.sendLate r).MemOk := by
  unfold State.sendLate
  repeat' with_reducible first
    | assumption | apply State.sendPeers_memOk
theorem State.isLate_memOk {s : State} (h : s.MemOk) (g : Nat) : (s.isLate g).MemOk := by
  unfold State.isLate
  repeat' first
    | (with_reducible first
        | assumption | apply State.updRun_memOk | apply State.stopGroup_memOk | apply State.sendLate_memOk)
    | (intro _ _ h; try dsimp only) | intro _ | extract_lets | split | (unfold State.MemOk; dsimp only; apply memOk_mem)
theorem execLaunchReady_memOk {s : State} (h : s.MemOk) (no : GroupNo) : OutMemOk (execLaunchReady no s) := by
  unfold execLaunchReady
  extract_lets x
  repeat' first
    | (with_reducible first
        | assumption | apply State.updRun_memOk | apply State.tick_memOk | apply State.beginRun_memOk | apply State.isLate_memOk | apply memOk_ite
        | apply outMemOk_ite | apply outMemOk_next)
    | (intro _ _ h; try dsimp only) | intro _ | extract_lets | split | (unfold State.MemOk; dsimp only; apply memOk_mem)
theorem execStartTick_memOk {s : State} (h : s.MemOk) (g : Fin 1024) : OutMemOk (execStartTick g s) := by
  unfold execStartTick
  extract_lets x
  repeat' first
    | (with_reducible first
        | assumption | apply State.after_memOk | apply State.soon_memOk | apply State.tick_memOk | apply State.bundleIssue_memOk
        | apply State.beginRun_memOk | apply State.isLate_memOk | apply memOk_foldl | apply memOk_ite | apply outMemOk_ite | apply outMemOk_next)
    | (intro _ _ h; try dsimp only) | intro _ | extract_lets | split | (unfold State.MemOk; dsimp only; apply memOk_mem)
theorem State.lateArrives_memOk {s : State} (h : s.MemOk) (sptag : BitVec 16) : (s.lateArrives sptag).MemOk := by
  unfold State.lateArrives
  extract_lets mine
  repeat' first
    | (with_reducible first
        | assumption | apply State.updRun_memOk | apply State.stopGroup_memOk | apply memOk_ite)
    | (intro _ _ h; try dsimp only) | intro _ | extract_lets | split | (unfold State.MemOk; dsimp only; apply memOk_mem)
theorem execLate_memOk {s : State} (h : s.MemOk) (sptag : BitVec 16) : OutMemOk (execLate sptag s) := by
  unfold execLate
  repeat' with_reducible first
    | assumption | apply State.lateArrives_memOk | apply outMemOk_next
theorem State.dropWaits_memOk {s : State} (h : s.MemOk) (c : Nat) : (s.dropWaits c).MemOk := by
  unfold State.dropWaits
  extract_lets mine s1 s2
  have h_s1 : s1.MemOk := by
    try dsimp only [s1]
    repeat' first
      | (with_reducible first
          | assumption | apply State.updRidge_memOk)
      | (intro _ _ h; try dsimp only) | intro _ | extract_lets | (unfold State.MemOk; dsimp only; apply memOk_mem)
  clear_value s1
  have h_s2 : s2.MemOk := by
    try dsimp only [s2]
    repeat' first
      | (with_reducible first
          | assumption | apply State.updDie_memOk | apply memOk_foldl)
      | (intro _ _ h; try dsimp only) | intro _ | extract_lets | (unfold State.MemOk; dsimp only; apply memOk_mem)
  clear_value s2
  repeat' first
    | (with_reducible first
        | assumption | apply State.updCore_memOk)
    | (intro _ _ h; try dsimp only) | intro _ | extract_lets | split | (unfold State.MemOk; dsimp only; apply memOk_mem)
theorem State.startSave_memOk {s : State} (h : s.MemOk) (g why : Nat) : (s.startSave g why).MemOk := by
  unfold State.startSave
  repeat' first
    | (with_reducible first
        | assumption | apply State.updCore_memOk | apply State.updRun_memOk | apply State.updRidge_memOk | apply State.hold_memOk
        | apply State.performHeld_memOk | apply State.dropWaits_memOk | apply memOk_foldl | apply memOk_ite)
    | (intro _ _ h; try dsimp only) | intro _ | extract_lets | split | (unfold State.MemOk; dsimp only; apply memOk_mem)
theorem State.saveStep_memOk {s : State} (h : s.MemOk) (g : Nat) (r : Run) : (s.saveStep g r).MemOk := by
  unfold State.saveStep
  repeat' first
    | (with_reducible first
        | assumption | apply State.updRun_memOk | apply State.soon_memOk | apply State.releaseDie_memOk | apply memOk_foldl | apply memOk_ite)
    | (intro _ _ h; try dsimp only) | intro _ | extract_lets | (unfold State.MemOk; dsimp only; apply memOk_mem)
theorem execPark_memOk {s : State} (h : s.MemOk) (g : Fin 1024) : OutMemOk (execPark g s) := by
  unfold execPark
  extract_lets x
  repeat' first
    | (with_reducible first
        | assumption | apply State.startSave_memOk | apply memOk_ite | apply outMemOk_ite | apply outMemOk_next)
    | intro _ | extract_lets | split | (unfold State.MemOk; dsimp only; apply memOk_mem)
theorem State.unpin_memOk {s : State} (h : s.MemOk) (o : MemOp) : (s.unpin o).MemOk := by
  unfold State.unpin
  repeat' first
    | (with_reducible first
        | assumption | apply State.pinDrop_memOk | apply memOk_foldl | apply memOk_ite)
    | (intro _ _ h; try dsimp only) | intro _
theorem State.saveCore_memOk {s : State} (h : s.MemOk) (g x c : Nat) (p : Posn) : (s.saveCore g x c p).MemOk := by
  unfold State.saveCore
  extract_lets r k stage parts s1 s2 kept s3
  have h_s1 : s1.MemOk := by
    try dsimp only [s1]
    repeat' first
      | (with_reducible first
          | assumption | apply State.bump_memOk | apply State.agentWrite_memOk | apply memOk_foldl)
      | (intro _ _ h; try dsimp only) | intro _ | extract_lets | split | (unfold State.MemOk; dsimp only; apply memOk_mem)
  clear_value s1
  have h_s2 : s2.MemOk := by
    try dsimp only [s2]
    repeat' first
      | (with_reducible first
          | assumption | apply State.dropAsked_memOk | apply State.unpin_memOk | apply memOk_foldl)
      | (intro _ _ h; try dsimp only) | intro _
  clear_value s2
  have h_s3 : s3.MemOk := by
    try dsimp only [s3]
    repeat' with_reducible first
      | assumption | apply State.setCore_memOk | apply State.tieHeld_memOk
  clear_value s3
  repeat' first
    | (with_reducible first
        | assumption | apply State.updRun_memOk | apply State.updRidge_memOk | apply memOk_ite)
    | (intro _ _ h; try dsimp only) | intro _ | extract_lets | (unfold State.MemOk; dsimp only; apply memOk_mem)
theorem execSaveComplete_memOk {s : State} (h : s.MemOk) (g : Fin 1024) : OutMemOk (execSaveComplete g s) := by
  unfold execSaveComplete
  extract_lets x
  repeat' first
    | (with_reducible first
        | assumption | apply State.updGrp_memOk | apply State.updRun_memOk | apply State.soon_memOk | apply State.ctxSettle_memOk
        | apply State.saveCore_memOk | apply memOk_foldl | apply memOk_ite | apply outMemOk_ite | apply outMemOk_next)
    | (intro _ _ h; try dsimp only) | intro _ | extract_lets | split | (unfold State.MemOk; dsimp only; apply memOk_mem)
theorem execGroupRestore_memOk {s : State} (h : s.MemOk) (g : Fin 1024) : OutMemOk (execGroupRestore g s) := by
  unfold execGroupRestore
  repeat' first
    | (with_reducible first
        | assumption | apply State.updCore_memOk | apply State.updGrp_memOk | apply State.updRun_memOk | apply State.after_memOk
        | apply State.ctxFault_memOk | apply State.stopGroup_memOk | apply memOk_foldl | apply memOk_ite | apply outMemOk_ite
        | apply outMemOk_next)
    | (intro _ _ h; try dsimp only) | intro _ | extract_lets | split | (unfold State.MemOk; dsimp only; apply memOk_mem)
theorem State.goOn_memOk {s : State} (h : s.MemOk) (x : Nat) (a : Again) : (s.goOn x a).MemOk := by
  unfold State.goOn
  repeat' first
    | (with_reducible first
        | assumption | apply State.updSlab_memOk | apply State.soon_memOk)
    | (intro _ _ h; try dsimp only) | intro _ | extract_lets | split | (unfold State.MemOk; dsimp only; apply memOk_mem)
theorem State.redoAll_memOk {s : State} (h : s.MemOk) (r : Run) : (s.redoAll r).MemOk := by
  unfold State.redoAll
  repeat' first
    | (with_reducible first
        | assumption | apply State.goOn_memOk | apply memOk_foldl)
    | (intro _ _ h; try dsimp only) | intro _
theorem execRestoreComplete_memOk {s : State} (h : s.MemOk) (g : Fin 1024) : OutMemOk (execRestoreComplete g s) := by
  unfold execRestoreComplete
  extract_lets x
  repeat' first
    | (with_reducible first
        | assumption | apply State.setCore_memOk | apply State.updGrp_memOk | apply State.updRun_memOk | apply State.sched_memOk
        | apply State.after_memOk | apply State.soon_memOk | apply State.pokeInbox_memOk | apply State.releaseHeld_memOk
        | apply State.tieHeld_memOk | apply State.pump_memOk | apply State.push_memOk | apply State.dropAcked_memOk | apply State.watch_memOk
        | apply State.countPackage_memOk | apply State.readBack_memOk | apply State.shunFenced_memOk | apply State.redoAll_memOk
        | apply memOk_foldl | apply memOk_ite | apply outMemOk_ite | apply outMemOk_next)
    | (intro _ _ h; try dsimp only) | intro _ | extract_lets | split | (unfold State.MemOk; dsimp only; apply memOk_mem)
theorem execShadowReplay_memOk {s : State} (h : s.MemOk) (core : Fin 64) : OutMemOk (execShadowReplay core s) := by
  unfold execShadowReplay
  extract_lets c due
  repeat' first
    | (with_reducible first
        | assumption | apply State.updCore_memOk | apply State.due_memOk | apply State.accSettle_memOk | apply State.fillJob_memOk
        | apply memOk_foldl | apply outMemOk_next)
    | (intro _ _ h; try dsimp only) | intro _ | extract_lets | (unfold State.MemOk; dsimp only; apply memOk_mem)
theorem execSequencerBroadcast_memOk {s : State} (h : s.MemOk) (g : Fin 1024) : OutMemOk (execSequencerBroadcast g s) := by
  unfold execSequencerBroadcast
  extract_lets x
  repeat' first
    | (with_reducible first
        | assumption | apply State.sequence_memOk | apply State.boundary_memOk | apply State.startSave_memOk | apply State.saveStep_memOk
        | apply memOk_ite | apply outMemOk_ite | apply outMemOk_next)
    | intro _ | extract_lets | split | (unfold State.MemOk; dsimp only; apply memOk_mem)
theorem execBundleIssue_memOk {s : State} (h : s.MemOk) (core : Fin 64) : OutMemOk (execBundleIssue core s) := by
  unfold execBundleIssue
  repeat' with_reducible first
    | assumption | apply State.bundleIssue_memOk | apply outMemOk_next
theorem execExposedResultDue_memOk {s : State} (h : s.MemOk) (core : Fin 64) : OutMemOk (execExposedResultDue core s) := by
  unfold execExposedResultDue
  extract_lets c k
  repeat' first
    | (with_reducible first
        | assumption | apply State.setCore_memOk | apply State.noteLanded_memOk | apply memOk_ite | apply outMemOk_ite | apply outMemOk_next)
    | intro _
theorem State.statWrite_memOk {s : State} (h : s.MemOk) (x va : Nat) (v : Word) : (s.statWrite x va v).MemOk := by
  unfold State.statWrite
  extract_lets s1
  have h_s1 : s1.MemOk := by
    try dsimp only [s1]
    repeat' first
      | (with_reducible first
          | assumption | apply State.vwrite_memOk | apply memOk_ite)
      | intro _
  clear_value s1
  repeat' with_reducible first
    | assumption | apply State.tick_memOk
theorem State.sendMarkers_memOk {s : State} (h : s.MemOk) (g : Nat) : (s.sendMarkers g).MemOk := by
  unfold State.sendMarkers
  extract_lets ps gid s1
  have h_s1 : s1.MemOk := by
    try dsimp only [s1]
    repeat' first
      | (with_reducible first
          | assumption | apply State.after_memOk | apply State.queueOn_memOk | apply memOk_foldl | apply memOk_ite)
      | (intro _ _ h; try dsimp only) | intro _
  clear_value s1
  repeat' first
    | (with_reducible first
        | assumption | apply State.updGrp_memOk)
    | (intro _ _ h; try dsimp only) | intro _ | extract_lets | (unfold State.MemOk; dsimp only; apply memOk_mem)
theorem State.destroyCheck_memOk {s : State} (h : s.MemOk) (x : Nat) : (s.destroyCheck x).MemOk := by
  unfold State.destroyCheck
  repeat' first
    | (with_reducible first
        | assumption | apply State.soon_memOk | apply memOk_ite)
    | intro _
theorem execDrainComplete_memOk {s : State} (h : s.MemOk) (g : Fin 1024) : OutMemOk (execDrainComplete g s) := by
  unfold execDrainComplete
  extract_lets x
  repeat' first
    | (with_reducible first
        | assumption | apply State.updCore_memOk | apply State.updQueue_memOk | apply State.updGrp_memOk | apply State.updRidge_memOk
        | apply State.soon_memOk | apply State.ctxSettle_memOk | apply State.packetDone_memOk | apply State.countStale_memOk
        | apply State.statWrite_memOk | apply State.sendMarkers_memOk | apply State.destroyCheck_memOk | apply memOk_foldl | apply memOk_ite
        | apply outMemOk_ite | apply outMemOk_next)
    | (intro _ _ h; try dsimp only) | intro _ | extract_lets | split | (unfold State.MemOk; dsimp only; apply memOk_mem)
theorem State.markBack_memOk {s : State} (h : s.MemOk) (g path : Nat) : (s.markBack g path).MemOk := by
  unfold State.markBack
  extract_lets x
  repeat' first
    | (with_reducible first
        | assumption | apply State.updGrp_memOk | apply State.soon_memOk | apply memOk_ite)
    | (intro _ _ h; try dsimp only) | intro _ | extract_lets | (unfold State.MemOk; dsimp only; apply memOk_mem)
theorem execDrainMarkerReturn_memOk {s : State} (h : s.MemOk) (path : Nat) (gid : BitVec 16) : OutMemOk (execDrainMarkerReturn path gid s) := by
  unfold execDrainMarkerReturn
  repeat' first
    | (with_reducible first
        | assumption | apply State.markBack_memOk | apply outMemOk_next)
    | extract_lets | split | (unfold State.MemOk; dsimp only; apply memOk_mem)
theorem execDrainMarker_memOk {s : State} (h : s.MemOk) (path : Nat) (gid : BitVec 16) : OutMemOk (execDrainMarker path gid s) := by
  unfold execDrainMarker
  extract_lets l
  repeat' first
    | (with_reducible first
        | assumption | apply State.queueOn_memOk | apply memOk_ite | apply outMemOk_ite | apply outMemOk_next)
    | intro _

/-! ### Route -/

theorem Work.on_memOk {s : State} (h : s.MemOk) : (Work.on s).st.MemOk := by
  unfold Work.on
  repeat' first
    | (with_reducible first
        | assumption)
    | (unfold State.MemOk; dsimp only; apply memOk_mem)
theorem Work.faults_memOk {w : Work} (h : w.st.MemOk) (f : For) (va cause : Nat) : (w.faults f va cause).st.MemOk :=
  State.agentFault_memOk h _ _ fun _ h => h
theorem Work.malformed_memOk {w : Work} (h : w.st.MemOk) (va : Nat) : (w.malformed va).st.MemOk := by
  unfold Work.malformed
  try dsimp only
  repeat' first
    | (with_reducible first
        | assumption | apply memOk_foldl | apply memOk_foldl_work | apply memOk_foldl_fst | apply memOk_foldl_work_fst | apply memOk_ite
        | refine memOk_fst ?_ (by assumption) | refine memOk_snd ?_ (by assumption) | refine outMemOk_elim ?_ (by assumption))
    | (intro _ _ h; try dsimp only) | intro _ | extract_lets | split | (dsimp +zetaDelta only; split)
    | (unfold State.MemOk; dsimp only; apply memOk_mem) | exact h
theorem Work.read_memOk {w : Work} (h : w.st.MemOk) (f : For) (va n : Nat) : (w.read f va n).2.st.MemOk := by
  unfold Work.read
  split
  · exact h
  · split
    · exact State.vread_memOk h (by assumption)
    · exact Work.faults_memOk h _ _ _
theorem Work.writeLand_memOk {w : Work} (h : w.st.MemOk) (f : For) (va : Nat) (bs : List Byte) (land : Option (Bool × Nat × Nat × Nat × Bool)) :
    (w.writeLand f va bs land).st.MemOk := by
  unfold Work.writeLand
  have hv := State.vwriteLand_memOk h f.core f.ctx f.agent va bs land
  split
  · exact h
  · split
    · exact memOk_fst hv (by assumption)
    · exact Work.faults_memOk (w := { w with st := _ }) (memOk_fst hv (by assumption)) _ _ _
theorem Work.write_memOk {w : Work} (h : w.st.MemOk) (f : For) (va : Nat) (bs : List Byte) : (w.write f va bs).st.MemOk :=
  Work.writeLand_memOk h _ _ _ _
theorem Work.lose_memOk {w : Work} (h : w.st.MemOk) : w.lose.st.MemOk := by
  unfold Work.lose
  try dsimp only
  repeat' first
    | (with_reducible first
        | assumption | apply memOk_foldl | apply memOk_foldl_work | apply memOk_foldl_fst | apply memOk_foldl_work_fst | apply memOk_ite
        | refine memOk_fst ?_ (by assumption) | refine memOk_snd ?_ (by assumption) | refine outMemOk_elim ?_ (by assumption))
    | (intro _ _ h; try dsimp only) | intro _ | extract_lets | split | (dsimp +zetaDelta only; split)
    | (unfold State.MemOk; dsimp only; apply memOk_mem) | exact h
theorem Work.send_memOk {w : Work} (h : w.st.MemOk) (g vc peer : Nat) (bs : List Byte) (telling : Nat → PeerMsg) :
    (w.send g vc peer bs telling).st.MemOk := by
  unfold Work.send
  split
  · exact h
  · split
    · exact h
    · exact State.sendPeer_memOk h _ _ _ _ _ _
theorem Work.upd_memOk {w : Work} (h : w.st.MemOk) {f : State → State} (hf : ∀ s : State, s.MemOk → (f s).MemOk) :
    (w.upd f).st.MemOk := by
  unfold Work.upd
  split
  · exact h
  · exact hf _ h
theorem Work.events_memOk {w : Work} (h : w.st.MemOk) (e : Nat) : (w.events e).st.MemOk := by
  unfold Work.events
  repeat' first
    | (with_reducible first
        | assumption)
    | extract_lets | (unfold State.MemOk; dsimp only; apply memOk_mem)
theorem State.answer_memOk {s : State} (h : s.MemOk) (c id : Nat) (v : Word) (back : Nat) : (s.answer c id v back).MemOk := by
  unfold State.answer
  extract_lets s1
  have h_s1 : s1.MemOk := by
    try dsimp only [s1]
    repeat' first
      | (with_reducible first
          | assumption | apply State.updCore_memOk | apply State.merge_memOk | apply State.stash_memOk)
      | (intro _ _ h; try dsimp only) | intro _
  clear_value s1
  repeat' with_reducible first
    | assumption | apply State.replyAfter_memOk | apply State.pump_memOk | apply State.ended_memOk
theorem State.routeArrives_memOk {s : State} (h : s.MemOk) (c id op : Nat) (o : MemOp) (a b b2 : Word) : (s.routeArrives c id op o a b b2).MemOk := by
  unfold State.routeArrives
  extract_lets x r t st gid q s1 s2
  have h_s1 : s1.MemOk := by
    try dsimp only [s1]
    repeat' first
      | (with_reducible first
          | assumption | apply State.updRoute_memOk | apply State.settled_memOk | apply memOk_ite)
      | (intro _ _ h; try dsimp only) | intro _ | extract_lets | (unfold State.MemOk; dsimp only; apply memOk_mem)
  clear_value s1
  have h_s2 : s2.MemOk := by
    try dsimp only [s2]
    repeat' first
      | (with_reducible first
          | assumption | apply State.updCore_memOk | apply State.stash_memOk)
      | (intro _ _ h; try dsimp only) | intro _
  clear_value s2
  repeat' with_reducible first
    | assumption | apply State.replyAfter_memOk | apply State.pump_memOk | apply State.ended_memOk
theorem State.countArrives_memOk {s : State} (h : s.MemOk) (c id : Nat) (a : Word) (sel : Nat) (ex : Word) : (s.countArrives c id a sel ex).MemOk :=
    by
  unfold State.countArrives
  extract_lets x r
  repeat' first
    | (with_reducible first
        | assumption | apply State.updRoute_memOk | apply State.answer_memOk | apply memOk_ite)
    | (intro _ _ h; try dsimp only) | intro _ | extract_lets | (unfold State.MemOk; dsimp only; apply memOk_mem)
theorem Rte.choice_memOk {r : Rte} (h : r.w.st.MemOk) (f : For) (d : List Word) (ch i : Nat) : (r.choice f d ch i).w.st.MemOk := by
  unfold Rte.choice
  extract_lets x e put n pos dem w1 bs
  have hx : x.2.st.MemOk := Work.read_memOk h _ _ _
  have hp : ∀ v, (put v).st.MemOk := fun v => Work.write_memOk hx _ _ _
  repeat' first | exact hx | exact hp _ | exact Work.write_memOk (hp _) _ _ _ | split
theorem State.routeAll_memOk {s : State} (h : s.MemOk) (f : For) (d : List Word) (t ch : Nat) : (s.routeAll f d t ch).1.st.MemOk := by
  unfold State.routeAll
  extract_lets r0 r cs w1 disp w2
  have hr : r.w.st.MemOk := by
    have hl : ∀ (l : List Nat) (r : Rte), r.w.st.MemOk → (l.foldl (fun r i => r.choice f d ch i) r).w.st.MemOk := by
      intro l
      induction l with
      | nil => exact fun r h => h
      | cons a l ih => exact fun r h => ih _ (Rte.choice_memOk h _ _ _ _)
    exact hl _ _ h
  have h1 : w1.st.MemOk := memOk_foldl_work (fun w _ h => Work.write_memOk h _ _ _) hr
  refine memOk_foldl_work (fun w i h => ?_) h1
  show (match r.inv[i]? with | some (0, e, pos) => _ | _ => w : Work).st.MemOk
  split
  · exact Work.write_memOk h _ _ _
  · exact h
theorem Work.map_memOk {w : Work} (h : w.st.MemOk) (f : For) (d : List Word) : (w.map f d).2.st.MemOk := by
  unfold Work.map
  dsimp only
  split
  · exact Work.malformed_memOk (Work.read_memOk h _ _ _) _
  · exact Work.read_memOk h _ _ _
theorem Work.row_memOk {w : Work} (h : w.st.MemOk) (f : For) (d : List Word) (o : ROp) (e : Nat × Nat × Nat) (slot : Nat) (bs : List Byte) :
    (w.row f d o e slot bs).st.MemOk := by
  unfold Work.row
  dsimp only
  split
  · exact Work.writeLand_memOk h _ _ _ _
  · exact Work.send_memOk h _ _ _ _ _
theorem State.scatter_memOk {s : State} (h : s.MemOk) (f : For) (d : List Word) (o : ROp) : (s.scatter f d o).1.st.MemOk := by
  unfold State.scatter
  extract_lets m cnt expert
  have hc : cnt.2.st.MemOk := Work.read_memOk (Work.map_memOk (w := Work.on s) h _ _) _ _ _
  refine memOk_foldl_work (fun w e h => ?_) hc
  dsimp only [expert]
  have hw : ∀ (w : Work) (b : Prop) [Decidable b] (a : Nat), w.st.MemOk → (if b then w.malformed a else w).st.MemOk := fun w b _ a h => by
    split
    · exact Work.malformed_memOk h _
    · exact h
  have hl : ∀ (l : List Nat) (w : Work), w.st.MemOk → (l.foldl (fun (w : Work) slot =>
      if w.res ≠ 0 then w
      else
        let at_ := rtAddr d 4 + 4 * (get (wordAt cnt.1 e) 59 40 + slot)
        let t := w.read f at_ 4
        if 2 ^ 19 ≤ leNat t.1 then t.2.malformed at_
        else
          let row := t.2.read f (o.a + leNat t.1 % 2 ^ 16 * rtRB d) (rtRB d)
          row.2.row f d o (m.1.getD e (0, 0, 0)) slot row.1) w).st.MemOk := fun l w h => memOk_foldl_work (fun w i h => by
    dsimp only
    split
    · exact h
    · split
      · exact Work.malformed_memOk (Work.read_memOk h _ _ _) _
      · exact Work.row_memOk (Work.read_memOk (Work.read_memOk h _ _ _) _ _ _) _ _ _ _ _ _) h
  split
  · exact memOk_foldl_work (fun w i h => Work.row_memOk h _ _ _ _ _ _) (hl _ _ (hw _ _ _ h))
  · exact hl _ _ (hw _ _ _ h)
theorem State.askRows_memOk {s : State} (h : s.MemOk) (f : For) (n : Nat) (d : List Word) (o : ROp) (t : Nat) : (s.askRows f n d o t).1.st.MemOk := by
  unfold State.askRows
  extract_lets m r invs w home far ask
  have hr : r.2.st.MemOk := Work.read_memOk (Work.map_memOk (w := Work.on s) h _ _) _ _ _
  have hw : w.st.MemOk := by
    dsimp only [w]
    split
    · exact Work.malformed_memOk hr _
    · exact hr
  exact memOk_foldl_work (fun w i h => Work.send_memOk h _ _ _ _ _) hw
theorem State.combine_memOk {s : State} (h : s.MemOk) (f : For) (r : Route) (o : ROp) (t : Nat) : (s.combine f r o t).st.MemOk := by
  unfold State.combine
  extract_lets d n choice token
  refine memOk_foldl_work (fun w i h => ?_) (w := Work.on s) h
  have hr : ∀ (l : List Nat) (a : Work × List (Val × Nat)), a.1.st.MemOk → (l.foldl (choice i) a).1.st.MemOk := fun l a h =>
    memOk_foldl_work_fst (fun a j h => by
      dsimp only [choice]
      split
      · exact h
      · split
        · exact Work.read_memOk h _ _ _
        · exact Work.read_memOk (Work.read_memOk h _ _ _) _ _ _) h
  dsimp only [token]
  split
  · exact hr _ _ h
  · exact Work.events_memOk (Work.write_memOk (hr _ _ h) _ _ _) _
theorem State.runRoute_memOk {s : State} (h : s.MemOk) (x n : Nat) (r : Route) (o : ROp) : (s.runRoute x n r o).MemOk := by
  unfold State.runRoute
  extract_lets f
  split
  · exact memOk_ite (fun _ => State.updRoute_memOk (Work.read_memOk (w := Work.on s) h _ _ _) _ _ _)
      fun _ => State.updRoute_memOk (Work.read_memOk (w := Work.on s) h _ _ _) _ _ _
  · exact memOk_ite (fun _ => h) fun _ => memOk_ite (fun _ => State.updRoute_memOk (State.routeAll_memOk h _ _ _ _) _ _ _)
      fun _ => State.updRoute_memOk (State.routeAll_memOk h _ _ _ _) _ _ _
  · exact memOk_ite (fun _ => State.updRoute_memOk h _ _ _) fun _ => State.updRoute_memOk (State.scatter_memOk h _ _ _) _ _ _
  · exact memOk_ite (fun _ => State.updRoute_memOk h _ _ _) fun _ => State.updRoute_memOk (State.askRows_memOk h _ _ _ _ _) _ _ _
theorem execRouteOperationRun_memOk {s : State} (h : s.MemOk) (ctx route : Fin 64) : OutMemOk (execRouteOperationRun ctx route s) := by
  unfold execRouteOperationRun
  extract_lets x n r
  repeat' first
    | (with_reducible first
        | assumption | apply State.updRoute_memOk | apply State.after_memOk | apply State.runRoute_memOk | apply memOk_ite | apply outMemOk_ite
        | apply outMemOk_next)
    | (intro _ _ h; try dsimp only) | intro _ | extract_lets | split | (unfold State.MemOk; dsimp only; apply memOk_mem)
theorem State.routeRecord_memOk {s : State} (h : s.MemOk) (f : For) (d : List Word) (o : ROp) (words : List Word) (res : Nat × Nat × Nat) :
    (s.routeRecord f d o words res).MemOk := by
  unfold State.routeRecord
  extract_lets va w6 w7
  repeat' first
    | (with_reducible first
        | assumption | apply State.vwrite_memOk | apply memOk_ite)
    | intro _
theorem State.routeReads_memOk {s : State} (h : s.MemOk) (x n : Nat) : (s.routeReads x n).MemOk := by
  unfold State.routeReads
  extract_lets r rs s1
  have h_s1 : s1.MemOk := by
    try dsimp only [s1]
    repeat' first
      | (with_reducible first
          | assumption | apply State.updRoute_memOk)
      | (intro _ _ h; try dsimp only) | intro _ | extract_lets | (unfold State.MemOk; dsimp only; apply memOk_mem)
  clear_value s1
  repeat' first
    | (with_reducible first
        | assumption | apply State.answer_memOk | apply memOk_foldl)
    | (intro _ _ h; try dsimp only) | intro _ | extract_lets | split | (unfold State.MemOk; dsimp only; apply memOk_mem)
theorem State.routeDone_memOk {s : State} (h : s.MemOk) (x n : Nat) (r : Route) (o : ROp) : (s.routeDone x n r o).MemOk := by
  unfold State.routeDone
  extract_lets f w0 w s1 s2 s3 s4
  have h_w : w.st.MemOk := by
    dsimp only [w]
    split
    · exact State.combine_memOk h _ _ _ _
    · exact h
  clear_value w
  have h_s1 : s1.MemOk := memOk_ite (fun _ => State.routeRecord_memOk h_w _ _ _ _ _) fun _ => h_w
  clear_value s1
  have h_s3 : s3.MemOk := memOk_ite (fun _ => State.addSem_memOk (State.tick_memOk h_s1 _ _) _ _ _) fun _ => State.tick_memOk h_s1 _ _
  clear_value s3
  have h_s4 : s4.MemOk := State.routeReads_memOk (State.updRoute_memOk h_s3 _ _ _) _ _
  exact memOk_ite (fun _ => h_s4) fun _ => State.settled_memOk h_s4 _ _
theorem execRouteOperationComplete_memOk {s : State} (h : s.MemOk) (ctx route : Fin 64) (peers : List (List Byte)) : OutMemOk
    (execRouteOperationComplete ctx route peers s) := by
  unfold execRouteOperationComplete
  extract_lets x n r s0
  repeat' first
    | (with_reducible first
        | assumption | apply State.after_memOk | apply State.routeDone_memOk | apply memOk_ite | apply outMemOk_ite | apply outMemOk_next)
    | intro _ | extract_lets | split | (dsimp +zetaDelta only; split) | (unfold State.MemOk; dsimp only; apply memOk_mem) | exact h
theorem State.routeLearns_memOk {s : State} (h : s.MemOk) (k : Nat × Nat) (f : Route → Route) : (s.routeLearns k f).MemOk := by
  unfold State.routeLearns
  repeat' with_reducible first
    | assumption | apply State.updRoute_memOk | apply State.soon_memOk
theorem State.routeApplied_memOk {s : State} (h : s.MemOk) (msg : Nat) (fva : Option Nat) : (s.routeApplied msg fva).MemOk := by
  unfold State.routeApplied
  repeat' first
    | (with_reducible first
        | assumption | apply State.routeLearns_memOk | apply memOk_foldl | apply memOk_ite)
    | (intro _ _ h; try dsimp only) | intro _ | extract_lets | split | (unfold State.MemOk; dsimp only; apply memOk_mem)
theorem State.rowArrives_memOk {s : State} (h : s.MemOk) (ctx route row : Nat) (ok : Bool) (bs : List Byte) : (s.rowArrives ctx route row ok bs).MemOk
    := by
  unfold State.rowArrives
  extract_lets r
  repeat' first
    | (with_reducible first
        | assumption | apply Work.row_memOk | apply State.routeLearns_memOk | apply memOk_ite)
    | (intro _ _ h; try dsimp only) | intro _ | extract_lets | (unfold State.MemOk; dsimp only; apply memOk_mem)
theorem State.rowAsked_memOk {s : State} (h : s.MemOk) (peer sptag va len ctx route row : Nat) :
    (s.rowAsked peer sptag va len ctx route row).MemOk := by
  unfold State.rowAsked
  extract_lets x
  split
  · exact State.sendPeer_memOk (State.vread_memOk h (by assumption)) _ _ _ _ _ _
  · exact State.sendPeer_memOk (State.agentFault_memOk h _ _ fun _ h => h) _ _ _ _ _ _
theorem State.peerLine_memOk {s : State} (h : s.MemOk) (unit : Nat) (w : Write) : (s.peerLine unit w).MemOk := by
  unfold State.peerLine
  exact State.depart_memOk (State.bump_memOk h) _ _
theorem State.peerWriteGo_memOk {unit x : Nat} {w : Write} (f : Nat) :
    ∀ {s : State} (_ : s.MemOk) (va : Nat) (bs : List Byte), (s.peerWriteGo unit x w f va bs).1.MemOk := by
  induction f with
  | zero => intro s h va bs; exact h
  | succ f ih =>
    intro s h va bs
    unfold State.peerWriteGo
    split
    · exact h
    · dsimp only
      split
      · exact ih (State.peerLine_memOk (State.agentWalk_memOk h _ _) _ _) _ _
      · exact State.agentFault_memOk h _ _ fun _ h => h
      · exact h
theorem State.peerPut_memOk {s : State} (h : s.MemOk) (peer unit : Nat) (stamp : Stamp) (needs : List (Nat × Nat)) (x va : Nat)
    (land : Option (Bool × Nat × Nat × Nat × Bool)) (msg : Nat) (bs : List Byte) : (s.peerPut peer unit stamp needs x va land msg bs).MemOk := by
  unfold State.peerPut
  extract_lets w n s1 r tell
  have h_s1 : s1.MemOk := memOk_ite (fun _ => h) fun _ => State.updRidge_memOk h _
  have h_r : r.1.MemOk := State.peerWriteGo_memOk _ h_s1 _ _
  clear_value r
  have ht : ∀ (s : State) (a : Option Nat), s.MemOk → (tell s a).MemOk := fun s a h => State.sendPeer_memOk (State.updRidge_memOk h _) _ _ _ _ _ _
  split
  · exact ht _ _ h_r
  · exact memOk_ite (fun _ => ht _ _ h_r) fun _ => h_r
theorem State.peerWrite_memOk {s : State} (h : s.MemOk) (peer unit : Nat) (stamp : Stamp) (needs : List (Nat × Nat)) (sptag ctx va : Nat) (bar :
    Option (Nat × Bool)) (msg : Nat) (bs : List Byte) : (s.peerWrite peer unit stamp needs sptag ctx va bar msg bs).MemOk := by
  unfold State.peerWrite
  repeat' first
    | (with_reducible first
        | assumption | apply Work.map_memOk | apply State.peerPut_memOk)
    | (intro _ _ h; try dsimp only) | intro _
theorem State.loseRoutes_memOk {s : State} (h : s.MemOk) (l : Nat) : (s.loseRoutes l).MemOk := by
  unfold State.loseRoutes
  repeat' first
    | (with_reducible first
        | assumption | apply State.routeLearns_memOk | apply memOk_foldl)
    | (intro _ _ h; try dsimp only) | intro _ | extract_lets | (unfold State.MemOk; dsimp only; apply memOk_mem)

/-! ### Convert -/

theorem State.dropSteps_memOk {s : State} (h : s.MemOk) (key seq axis step : Nat) : (s.dropSteps key seq axis step).MemOk := by
  unfold State.dropSteps
  repeat' first
    | (with_reducible first
        | assumption | apply State.updRidge_memOk)
    | (intro _ _ h; try dsimp only) | intro _ | extract_lets | (unfold State.MemOk; dsimp only; apply memOk_mem)
theorem State.plSet_memOk {s : State} (h : s.MemOk) (x e : Nat) (f : List Word → List Word) : (s.plSet x e f).MemOk := by
  unfold State.plSet
  repeat' first
    | (with_reducible first
        | assumption | apply State.updPlent_memOk)
    | (intro _ _ h; try dsimp only) | intro _ | extract_lets | (unfold State.MemOk; dsimp only; apply memOk_mem)
theorem State.updConv_memOk {s : State} (h : s.MemOk) (x e : Nat) (f : Conv → Conv) : (s.updConv x e f).MemOk := by
  unfold State.updConv
  repeat' first
    | (with_reducible first
        | assumption | apply State.updPlent_memOk)
    | (intro _ _ h; try dsimp only) | intro _ | extract_lets | (unfold State.MemOk; dsimp only; apply memOk_mem)
theorem Work.putHeld_memOk {w : Work} (h : w.st.MemOk) (f : For) (ws : List Word) (seq : Nat) (e : HeldSt) :
    (w.putHeld f ws seq e).st.MemOk := by
  unfold Work.putHeld
  split
  · exact Work.write_memOk h _ _ _
  · exact Work.send_memOk h _ _ _ _ _
theorem State.convAsk_memOk {s : State} (h : s.MemOk) (x e : Nat) (q : PlReq) : (s.convAsk x e q).1.MemOk := by
  unfold State.convAsk
  extract_lets p n same
  repeat' first
    | (with_reducible first
        | assumption | apply State.updPlent_memOk | apply State.settled_memOk | apply memOk_ite)
    | (intro _ _ h; try dsimp only) | intro _ | extract_lets | split | (unfold State.MemOk; dsimp only; apply memOk_mem)
theorem State.convPull_memOk {x e : Nat} (n : Nat) : ∀ {s : State} (_ : s.MemOk), (s.convPull x e n).MemOk := by
  induction n with
  | zero => intro s h; exact h
  | succ n ih =>
    intro s h
    unfold State.convPull
    dsimp only
    split
    · exact memOk_ite (fun _ => h) fun _ => ih (State.convAsk_memOk (State.updPlent_memOk h _ _ _) _ _ _)
    · exact h
theorem State.readLoad_memOk {s : State} (h : s.MemOk) (c id : Nat) (e : Enf) (ws : List Word) (fill : Bool) : (s.readLoad c id e ws fill).MemOk := by
  unfold State.readLoad
  extract_lets e1 w lc s1
  have h_s1 : s1.MemOk := by
    try dsimp only [s1]
    repeat' first
      | (with_reducible first
          | assumption | apply State.updCore_memOk)
      | (intro _ _ h; try dsimp only) | intro _ | extract_lets | split | (unfold State.MemOk; dsimp only; apply memOk_mem)
  clear_value s1
  repeat' first
    | (with_reducible first
        | assumption | apply State.after_memOk | apply State.pump_memOk | apply memOk_ite)
    | intro _
theorem State.readPlaced_memOk {s : State} (h : s.MemOk) (c id : Nat) (e : Enf) (ws : List Word) : (s.readPlaced c id e ws).MemOk := by
  unfold State.readPlaced
  extract_lets s1
  have h_s1 : s1.MemOk := by
    try dsimp only [s1]
    repeat' first
      | (with_reducible first
          | assumption | apply State.updCore_memOk | apply memOk_ite)
      | (intro _ _ h; try dsimp only) | intro _ | extract_lets | split | (unfold State.MemOk; dsimp only; apply memOk_mem)
  clear_value s1
  repeat' with_reducible first
    | assumption | apply State.pump_memOk
theorem State.entryFault_memOk {s : State} (h : s.MemOk) (c : Nat) (o : MemOp) (e : Enf) (ws : List Word) (kind opnd : Nat) : (s.entryFault c o e ws
    kind opnd).MemOk := by
  unfold State.entryFault
  repeat' with_reducible first
    | assumption | apply State.opFault_memOk
theorem State.readEntry_memOk {s : State} (h : s.MemOk) (c id kind : Nat) (e : Enf) (ws : List Word) (fill : Bool) : (s.readEntry c id kind e ws
    fill).MemOk := by
  unfold State.readEntry
  repeat' first
    | (with_reducible first
        | assumption | apply State.readLoad_memOk | apply State.readPlaced_memOk | apply memOk_ite)
    | intro _
theorem State.testEntry_memOk {s : State} (h : s.MemOk) (c id : Nat) : (s.testEntry c id).MemOk := by
  unfold State.testEntry
  repeat' first
    | (with_reducible first
        | assumption | apply State.updPlent_memOk | apply Work.map_memOk | apply State.convAsk_memOk | apply State.entryFault_memOk
        | apply State.readEntry_memOk | apply memOk_ite)
    | (intro _ _ h; try dsimp only) | intro _ | extract_lets | split | (unfold State.MemOk; dsimp only; apply memOk_mem)
theorem State.endWaits_memOk {s : State} (h : s.MemOk) (ok : Bool) (ws : List Word) (waits : List (Nat × Nat)) : (s.endWaits ok ws waits).MemOk := by
  unfold State.endWaits
  repeat' first
    | (with_reducible first
        | assumption | apply State.entryFault_memOk | apply State.readEntry_memOk | apply memOk_foldl | apply memOk_ite)
    | (intro _ _ h; try dsimp only) | intro _ | extract_lets | split | (unfold State.MemOk; dsimp only; apply memOk_mem)
theorem State.convSoon_memOk {s : State} (h : s.MemOk) (x e : Nat) : (s.convSoon x e).MemOk := by
  unfold State.convSoon
  repeat' with_reducible first
    | assumption | apply State.soon_memOk
theorem State.convNext_memOk {s : State} (h : s.MemOk) (x e : Nat) : (s.convNext x e).MemOk := by
  unfold State.convNext
  repeat' with_reducible first
    | assumption | apply State.after_memOk
theorem State.convFin_memOk {s : State} (h : s.MemOk) (x e result fva : Nat) : (s.convFin x e result fva).MemOk := by
  unfold State.convFin
  extract_lets p
  repeat' first
    | (with_reducible first
        | assumption | apply State.updRidge_memOk | apply State.updPlent_memOk | apply State.settled_memOk | apply State.sendPeer_memOk
        | apply State.packetDone_memOk | apply State.addSem_memOk | apply State.record_memOk | apply State.convPull_memOk
        | apply State.endWaits_memOk | apply memOk_foldl | apply memOk_ite)
    | (intro _ _ h; try dsimp only) | intro _ | extract_lets | split | (unfold State.MemOk; dsimp only; apply memOk_mem)
theorem State.convPuts_memOk {s : State} (h : s.MemOk) (x e : Nat) : (s.convPuts x e).MemOk := by
  unfold State.convPuts
  extract_lets p
  repeat' first
    | (with_reducible first
        | assumption | apply Work.on_memOk | apply State.updConv_memOk | apply Work.putHeld_memOk | apply State.convNext_memOk
        | apply State.convFin_memOk | apply memOk_foldl | apply memOk_foldl_work | apply memOk_foldl_fst | apply memOk_foldl_work_fst
        | apply memOk_ite | refine memOk_fst ?_ (by assumption) | refine memOk_snd ?_ (by assumption) | refine outMemOk_elim ?_ (by assumption))
    | (intro _ _ h; try dsimp only) | intro _ | extract_lets | split | (dsimp +zetaDelta only; split)
    | (unfold State.MemOk; dsimp only; apply memOk_mem) | exact h
theorem State.convEnd_memOk {s : State} (h : s.MemOk) (x e result fva : Nat) : (s.convEnd x e result fva).MemOk := by
  unfold State.convEnd
  repeat' first
    | (with_reducible first
        | assumption | apply State.convFin_memOk | apply State.convPuts_memOk | apply memOk_ite)
    | intro _
theorem Work.sendJoins_memOk {w : Work} (h : w.st.MemOk) (g : Nat) (m : Word) (a key seq src dst : Nat) :
    (w.sendJoins g m a key seq src dst).st.MemOk :=
  memOk_foldl_work (fun _ _ h => Work.send_memOk h _ _ _ _ _) h
theorem State.convJoined_memOk {s : State} (h : s.MemOk) (x e : Nat) : (s.convJoined x e).MemOk := by
  unfold State.convJoined
  extract_lets p
  repeat' first
    | (with_reducible first
        | assumption | apply Work.map_memOk | apply State.updConv_memOk | apply State.convSoon_memOk | apply State.convEnd_memOk | apply memOk_ite)
    | (intro _ _ h; try dsimp only) | intro _ | extract_lets | split | (unfold State.MemOk; dsimp only; apply memOk_mem)
theorem State.convGo_memOk {x e : Nat} (n : Nat) : ∀ {s : State} (_ : s.MemOk), (s.convGo x e n).MemOk := by
  induction n with
  | zero => intro s h; exact State.convEnd_memOk h _ _ _ _
  | succ n ih =>
    intro s h
    unfold State.convGo
    repeat' first
      | with_reducible assumption
      | with_reducible apply ih
      | with_reducible apply State.plSet_memOk
      | with_reducible apply State.convEnd_memOk
      | with_reducible apply State.updConv_memOk
      | with_reducible apply State.after_memOk
      | with_reducible apply State.convNext_memOk
      | with_reducible apply State.convJoined_memOk
      | with_reducible apply Work.sendJoins_memOk
      | with_reducible apply memOk_ite
      | intro _
      | extract_lets
      | split
      | (unfold Work.on; dsimp only)
theorem State.convLand_memOk {s : State} (h : s.MemOk) (x : Nat) (ws : List Word) (c : Conv) (bytes : Nat) : (s.convLand x ws c bytes).MemOk := by
  unfold State.convLand
  repeat' first
    | (with_reducible first
        | assumption | apply State.after_memOk | apply State.landForPacket_memOk | apply memOk_ite)
    | intro _ | extract_lets | split | (unfold State.MemOk; dsimp only; apply memOk_mem)
theorem State.stageSwap_memOk {s : State} (h : s.MemOk) (x e : Nat) (c : Conv) (g : Stage) : (s.stageSwap x e c g).MemOk := by
  unfold State.stageSwap
  extract_lets swap s1
  have h_s1 : s1.MemOk := by
    try dsimp only [s1]
    repeat' first
      | (with_reducible first
          | assumption | apply State.plSet_memOk | apply State.updConv_memOk | apply State.convLand_memOk)
      | (intro _ _ h; try dsimp only) | intro _ | extract_lets | (unfold State.MemOk; dsimp only; apply memOk_mem)
  clear_value s1
  repeat' with_reducible first
    | assumption | apply State.convGo_memOk
theorem State.stageDone_memOk {s : State} (h : s.MemOk) (x e : Nat) (c : Conv) (g : Stage) : (s.stageDone x e c g).MemOk := by
  unfold State.stageDone
  extract_lets f own w t s1
  have hw : w.st.MemOk := Work.write_memOk (Work.read_memOk (w := Work.on s) h _ _ _) _ _ _
  have h1 : s1.MemOk := State.updConv_memOk (s := { w.st with freeCtr := w.st.freeCtr + 1 }) hw _ _ _
  exact memOk_ite (fun _ => State.convEnd_memOk hw _ _ _ _) fun _ =>
    memOk_ite (fun _ => State.convNext_memOk h1 _ _) fun _ => State.stageSwap_memOk h1 _ _ _ _
theorem State.convSend_memOk {s : State} (h : s.MemOk) (x e : Nat) (c : Conv) (g : Stage) : (s.convSend x e c g).MemOk := by
  unfold State.convSend
  extract_lets f own w
  have hw : w.st.MemOk := memOk_foldl_work (fun w q h => Work.send_memOk h _ _ _ _ _) (Work.read_memOk (w := Work.on s) h _ _ _)
  exact memOk_ite (fun _ => State.convEnd_memOk hw _ _ _ _) fun _ => State.updConv_memOk hw _ _ _
theorem State.convTake_memOk {s : State} (h : s.MemOk) (x e : Nat) (c : Conv) (g : Stage) (went : List (Nat × Nat)) (given : List (List Byte)) :
    (s.convTake x e c g went given).MemOk := by
  unfold State.convTake
  extract_lets z takes sizes total own red one src
  split
  · exact h
  · refine memOk_ite (fun _ => h) fun _ => ?_
    extract_lets r lands s1
    have ho : own.2.st.MemOk := Work.read_memOk (w := Work.on s) h _ _ _
    refine memOk_ite (fun _ => State.convEnd_memOk ho _ _ _ _) fun _ => ?_
    have h0 : State.MemOk { own.2.st with freeCtr := s.freeCtr + 1 } := ho
    have h1 : s1.MemOk := State.updConv_memOk (State.dropSteps_memOk h0 _ _ _ _) _ _ _
    clear_value s1
    refine memOk_ite (fun _ => State.convSoon_memOk h1 _ _) fun _ => ?_
    split
    · exact State.stageDone_memOk h1 _ _ _ _
    · exact h1
theorem execConversionStageComplete_memOk {s : State} (h : s.MemOk) (ctx : Fin 64) (entry : Fin 1024) (peers : List (List Byte)) :
    OutMemOk (execConversionStageComplete ctx entry peers s) := by
  unfold execConversionStageComplete
  extract_lets x e p
  split
  · exact h
  · extract_lets g s1
    refine outMemOk_next ?_
    split
    · refine memOk_ite (fun _ => State.convNext_memOk h _ _) fun _ => memOk_ite (fun _ => State.convFin_memOk h _ _ _ _) fun _ => h
    · refine memOk_ite (fun _ => State.convGo_memOk _ h) fun _ => ?_
      refine memOk_ite (fun _ => memOk_ite (fun _ => State.convNext_memOk h _ _) fun _ => State.stageSwap_memOk h _ _ _ _) fun _ => ?_
      refine memOk_ite (fun _ => State.stageDone_memOk h _ _ _ _) fun _ => memOk_ite (fun _ => h) fun _ => ?_
      split
      · exact State.convTake_memOk h _ _ _ _ _ _
      · have h1 : s1.MemOk := State.convSend_memOk h _ _ _ _
        split
        · split
          · exact memOk_ite (fun _ => State.convTake_memOk h1 _ _ _ _ _ _) fun _ => h1
          · exact h1
        · exact h1
theorem State.convApplied_memOk {s : State} (h : s.MemOk) (msg : Nat) (fva : Option Nat) : (s.convApplied msg fva).MemOk := by
  unfold State.convApplied
  repeat' first
    | (with_reducible first
        | assumption | apply State.updConv_memOk | apply State.convSoon_memOk | apply State.convFin_memOk | apply memOk_foldl | apply memOk_ite)
    | (intro _ _ h; try dsimp only) | intro _ | extract_lets | split | (unfold State.MemOk; dsimp only; apply memOk_mem)
theorem State.l1StoreVa_memOk {c x : Nat} (f : Nat) : ∀ {s : State} (_ : s.MemOk) (va : Nat) (bs : List Byte), (s.l1StoreVa c x f va bs).MemOk := by
  induction f with
  | zero => intro s h va bs; exact h
  | succ f ih =>
    intro s h va bs
    unfold State.l1StoreVa
    dsimp only
    refine memOk_ite (fun _ => h) fun _ => ih ?_ _ _
    split
    · exact State.l1Store_memOk h _ _ _
    · exact h
theorem State.pstoreGo_memOk {c x g : Nat} {ws : List Word} (l : List (Nat × List Byte)) :
    ∀ {s : State} (_ : s.MemOk), (s.pstoreGo c x g ws l).1.MemOk := by
  induction l with
  | nil => intro s h; exact h
  | cons b l ih =>
    intro s h
    unfold State.pstoreGo
    have hv := State.vwrite_memOk h (some c) x g (pstoreVa ws b.1) b.2
    dsimp only
    split
    · exact hv
    · exact ih (State.l1StoreVa_memOk _ hv _ _)
theorem execTsthAtEave_memOk {s : State} (h : s.MemOk) (core : Fin 64) (id : Nat) : OutMemOk (execTsthAtEave core id s) := by
  unfold execTsthAtEave
  extract_lets c
  repeat' first
    | (with_reducible first
        | assumption | apply State.updCore_memOk | apply State.updPlent_memOk | apply State.after_memOk | apply State.merge_memOk
        | apply State.opFault_memOk | apply State.pump_memOk | apply State.ended_memOk | apply State.agentFault_memOk | apply Work.map_memOk
        | apply State.pstoreGo_memOk | apply memOk_foldl | apply memOk_ite | apply outMemOk_ite | apply outMemOk_next)
    | (intro _ _ h; try dsimp only) | intro _ | extract_lets | split | (unfold State.MemOk; dsimp only; apply memOk_mem)
theorem State.peerHeld_memOk {s : State} (h : s.MemOk) (peer unit : Nat) (stamp : Stamp) (needs : List (Nat × Nat)) (tid seq place msg : Nat) (bs :
    List Byte) : (s.peerHeld peer unit stamp needs tid seq place msg bs).MemOk := by
  unfold State.peerHeld
  repeat' first
    | (with_reducible first
        | assumption | apply State.updPlent_memOk | apply State.sendPeer_memOk | apply State.peerPut_memOk | apply memOk_ite)
    | (intro _ _ h; try dsimp only) | intro _ | extract_lets | split | (unfold State.MemOk; dsimp only; apply memOk_mem)
theorem State.collTry_memOk {s : State} (h : s.MemOk) (k : Coll) : (s.collTry k).MemOk := by
  unfold State.collTry
  extract_lets before busy m part s1 w
  refine memOk_ite (fun _ => h) fun _ => ?_
  have hw : w.st.MemOk := Work.sendJoins_memOk (w := Work.on s1) (State.updRidge_memOk h _) _ _ _ _ _ _ _
  exact memOk_ite (fun _ => State.endColl_memOk hw _ _ _) fun _ => State.after_memOk hw _ _
theorem State.updColl_memOk {s : State} (h : s.MemOk) (id : Nat) (f : Coll → Coll) : (s.updColl id f).MemOk := by
  unfold State.updColl
  repeat' first
    | (with_reducible first
        | assumption | apply State.updRidge_memOk)
    | (intro _ _ h; try dsimp only) | intro _ | extract_lets | (unfold State.MemOk; dsimp only; apply memOk_mem)
theorem State.collJoined_memOk {s : State} (h : s.MemOk) (k : Coll) : (s.collJoined k).MemOk := by
  unfold State.collJoined
  extract_lets m a mine ranks
  repeat' first
    | (with_reducible first
        | assumption | apply State.updRidge_memOk | apply State.soon_memOk | apply State.updColl_memOk | apply memOk_ite)
    | (intro _ _ h; try dsimp only) | intro _ | extract_lets | (unfold State.MemOk; dsimp only; apply memOk_mem)
theorem sendBlock_memOk {s : State} (h : s.MemOk) (key : Nat) (xs : List Val) : (sendBlock s key xs).2.1.MemOk :=
  memOk_foldl (fun _ _ h => State.updRidge_memOk h _) h
theorem sendChunk_memOk {s : State} (h : s.MemOk) (key : Nat) (xs : List Val) : (sendChunk s key xs).2.1.MemOk := by
  unfold sendChunk
  exact foldl_inv (P := fun (a : (List Byte × State × Nat) × Nat) => a.1.2.1.MemOk) (fun _ _ h => sendBlock_memOk h _ _) h
theorem Coll.own_memOk {w : Work} (h : w.st.MemOk) (k : Coll) (p : Plan) (f : For) (cs : List Nat) : (k.own p f w cs).2.st.MemOk := by
  unfold Coll.own
  exact foldl_inv (P := fun (a : Tbl (List Byte) × Work) => a.2.st.MemOk) (fun _ _ h => Work.read_memOk h _ _ _) h
theorem Coll.enc_memOk {w : Work} (h : w.st.MemOk) (k : Coll) (p : Plan) (c : Nat) (bs : List Byte) : (k.enc p w c bs).2.st.MemOk := by
  unfold Coll.enc
  split
  · exact h
  · exact sendChunk_memOk h _ _
theorem Coll.sealOwn_memOk {w : Work} (h : w.st.MemOk) (k : Coll) (p : Plan) : (k.sealOwn p w).2.st.MemOk := by
  unfold Coll.sealOwn
  split
  · split
    · exact Coll.enc_memOk h _ _ _ _
    · exact h
  · exact h
theorem State.collSend_memOk {s : State} (h : s.MemOk) (k : Coll) : (s.collSend k).MemOk := by
  unfold State.collSend
  extract_lets d m p f sends sealed own enc w
  have ho : own.2.st.MemOk := Coll.own_memOk (Coll.sealOwn_memOk (w := Work.on s) h _ _) _ _ _ _
  have he : ∀ (l : List Nat) (a : List Byte × Work), a.2.st.MemOk → (l.foldl enc a).2.st.MemOk := fun l a h =>
    foldl_inv (P := fun (a : List Byte × Work) => a.2.st.MemOk) (fun a c h => by
      dsimp only [enc]
      split
      · exact Coll.enc_memOk h _ _ _ _
      · exact h) h
  have hw : w.st.MemOk := memOk_foldl_work (fun w q h => Work.send_memOk (he _ _ h) _ _ _ _ _) ho
  clear_value w
  split
  · exact State.endColl_memOk h _ _ _
  · exact memOk_ite (fun _ => State.endColl_memOk hw _ _ _) fun _ => State.updColl_memOk hw _ _
theorem State.collTake_memOk {s : State} (h : s.MemOk) (k : Coll) (went : List (Nat × Nat)) (given : List (List Byte)) :
    (s.collTake k went given).MemOk := by
  unfold State.collTake
  extract_lets d m p f takes sizes total need own mine one wire
  split
  · exact h
  · refine memOk_ite (fun _ => h) fun _ => ?_
    extract_lets r land w k1
    have ho : own.2.st.MemOk := Coll.own_memOk (w := Work.on _) (State.dropSteps_memOk h _ _ _ _) _ _ _ _
    have hw : w.st.MemOk := memOk_foldl_work (fun w c h => Work.events_memOk (Work.write_memOk h _ _ _) _) ho
    exact memOk_ite (fun _ => State.endColl_memOk hw _ _ _) fun _ => State.soon_memOk (State.updColl_memOk hw _ _) _
theorem execCollectiveStepComplete_memOk {s : State} (h : s.MemOk) (id : Nat) (peers : List (List Byte)) : OutMemOk (execCollectiveStepComplete id
    peers s) := by
  unfold execCollectiveStepComplete
  extract_lets at_
  repeat' first
    | (with_reducible first
        | assumption | apply State.after_memOk | apply State.endColl_memOk | apply State.landForPacket_memOk | apply State.collTry_memOk
        | apply State.collJoined_memOk | apply State.collSend_memOk | apply State.collTake_memOk | apply memOk_ite | apply outMemOk_ite
        | apply outMemOk_next)
    | intro _ | extract_lets | split | (dsimp +zetaDelta only; split) | (unfold State.MemOk; dsimp only; apply memOk_mem) | exact h
theorem State.joinArrives_memOk {s : State} (h : s.MemOk) (j : Join) : (s.joinArrives j).MemOk := by
  unfold State.joinArrives
  extract_lets s1 s2
  have h_s1 : s1.MemOk := by
    try dsimp only [s1]
    repeat' first
      | (with_reducible first
          | assumption | apply State.updRidge_memOk)
      | (intro _ _ h; try dsimp only) | intro _ | extract_lets | (unfold State.MemOk; dsimp only; apply memOk_mem)
  clear_value s1
  have h_s2 : s2.MemOk := by
    try dsimp only [s2]
    repeat' first
      | (with_reducible first
          | assumption | apply State.convJoined_memOk | apply memOk_foldl | apply memOk_ite)
      | (intro _ _ h; try dsimp only) | intro _
  clear_value s2
  repeat' first
    | (with_reducible first
        | assumption | apply State.collJoined_memOk | apply memOk_foldl)
    | (intro _ _ h; try dsimp only) | intro _
theorem execJoin_memOk {s : State} (h : s.MemOk) (key rank seq axis src dst : Nat) : OutMemOk (execJoin key rank seq axis src dst s) := by
  unfold execJoin
  repeat' first
    | (with_reducible first
        | assumption | apply State.joinArrives_memOk | apply outMemOk_next)
    | (unfold State.MemOk; dsimp only; apply memOk_mem)
theorem State.pokeSteps_memOk {s : State} (h : s.MemOk) : s.pokeSteps.MemOk := by
  unfold State.pokeSteps
  extract_lets s1
  have h_s1 : s1.MemOk := by
    try dsimp only [s1]
    repeat' first
      | (with_reducible first
          | assumption | apply State.convSoon_memOk | apply memOk_foldl | apply memOk_ite)
      | (intro _ _ h; try dsimp only) | intro _ | extract_lets | split | (unfold State.MemOk; dsimp only; apply memOk_mem)
  clear_value s1
  repeat' first
    | (with_reducible first
        | assumption | apply State.soon_memOk | apply memOk_foldl)
    | (intro _ _ h; try dsimp only) | intro _
theorem State.stepArrives_memOk {s : State} (h : s.MemOk) (i : StepIn) : (s.stepArrives i).MemOk := by
  unfold State.stepArrives
  repeat' first
    | (with_reducible first
        | assumption | apply State.updRidge_memOk | apply State.pokeSteps_memOk)
    | (intro _ _ h; try dsimp only) | intro _ | extract_lets | (unfold State.MemOk; dsimp only; apply memOk_mem)
theorem execJoinTimeout_memOk {s : State} (h : s.MemOk) (ctx : Fin 64) (entry : Fin 1024) (seq : Nat) : OutMemOk (execJoinTimeout ctx entry seq s) :=
    by
  unfold execJoinTimeout
  repeat' first
    | (with_reducible first
        | assumption | apply State.endColl_memOk | apply State.convEnd_memOk | apply memOk_ite | apply outMemOk_ite | apply outMemOk_next)
    | (intro _ _ h; try dsimp only) | intro _ | extract_lets | split | (unfold State.MemOk; dsimp only; apply memOk_mem)
theorem State.cancelConvs_memOk {s : State} (h : s.MemOk) (x : Nat) : (s.cancelConvs x).MemOk := by
  unfold State.cancelConvs
  repeat' first
    | (with_reducible first
        | assumption | apply State.updPlent_memOk | apply State.packetDone_memOk | apply State.convEnd_memOk | apply memOk_foldl)
    | (intro _ _ h; try dsimp only) | intro _ | extract_lets | (unfold State.MemOk; dsimp only; apply memOk_mem)
theorem State.loseConvs_memOk {s : State} (h : s.MemOk) (old : State) (l : Nat) : (s.loseConvs old l).MemOk := by
  unfold State.loseConvs
  extract_lets m cut s1
  have h1 : s1.MemOk := memOk_foldl (fun _ _ h => memOk_foldl (fun _ _ h => by
    dsimp only
    split
    · exact memOk_ite (fun _ => State.convEnd_memOk h _ _ _ _) fun _ => h
    · exact h) h) h
  clear_value s1
  exact memOk_foldl (fun _ _ h => State.endColl_memOk h _ _ _) h1

/-! ### Transfer -/

theorem State.status_memOk {s : State} (h : s.MemOk) (c id : Nat) (v : Word) (back : Nat) : (s.status c id v back).MemOk := by
  unfold State.status
  extract_lets s1
  have h_s1 : s1.MemOk := by
    try dsimp only [s1]
    repeat' first
      | (with_reducible first
          | assumption | apply State.updCore_memOk | apply State.stash_memOk)
      | (intro _ _ h; try dsimp only) | intro _
  clear_value s1
  repeat' with_reducible first
    | assumption | apply State.replyAfter_memOk | apply State.pump_memOk | apply State.ended_memOk
theorem State.startChain_memOk {s : State} (h : s.MemOk) (ch : Nat) : (s.startChain ch).MemOk := by
  unfold State.startChain
  repeat' first
    | (with_reducible first
        | assumption | apply State.updXch_memOk | apply State.settled_memOk)
    | (intro _ _ h; try dsimp only) | intro _ | extract_lets | split | (unfold State.MemOk; dsimp only; apply memOk_mem)
theorem State.acceptChain_memOk {s : State} (h : s.MemOk) (x ch : Nat) (c : Chain) : (s.acceptChain x ch c).1.MemOk := by
  unfold State.acceptChain
  extract_lets k
  repeat' first
    | (with_reducible first
        | assumption | apply State.updXch_memOk | apply Coll.own_memOk | apply State.startChain_memOk | apply memOk_foldl | apply memOk_foldl_work
        | apply memOk_foldl_fst | apply memOk_foldl_work_fst | apply memOk_ite | refine memOk_fst ?_ (by assumption)
        | refine memOk_snd ?_ (by assumption) | refine outMemOk_elim ?_ (by assumption))
    | (intro _ _ h; try dsimp only) | intro _ | extract_lets | split | (dsimp +zetaDelta only; split)
    | (unfold State.MemOk; dsimp only; apply memOk_mem) | exact h
theorem State.faultChain_memOk {s : State} (h : s.MemOk) (ch va : Nat) : (s.faultChain ch va).MemOk := by
  unfold State.faultChain
  extract_lets pk s1
  have h_s1 : s1.MemOk := by
    try dsimp only [s1]
    repeat' first
      | (with_reducible first
          | assumption | apply State.updXch_memOk)
      | (intro _ _ h; try dsimp only) | intro _ | extract_lets | (unfold State.MemOk; dsimp only; apply memOk_mem)
  clear_value s1
  repeat' first
    | (with_reducible first
        | assumption | apply State.packetDone_memOk | apply memOk_foldl)
    | (intro _ _ h; try dsimp only) | intro _
theorem State.linkDone_memOk {s : State} (h : s.MemOk) (ch : Nat) (c : Chain) (rest : List Chain) (ws : List Word) :
    (s.linkDone ch c rest ws).MemOk := by
  unfold State.linkDone
  repeat' first
    | (with_reducible first
        | assumption | apply State.updXch_memOk | apply State.after_memOk | apply State.tick_memOk | apply State.packetDone_memOk
        | apply State.addSem_memOk | apply State.startChain_memOk | apply memOk_ite)
    | (intro _ _ h; try dsimp only) | intro _ | extract_lets | split | (unfold State.MemOk; dsimp only; apply memOk_mem)
theorem execTransferLinkComplete_memOk {s : State} (h : s.MemOk) (ch : Fin 64) : OutMemOk (execTransferLinkComplete ch s) := by
  unfold execTransferLinkComplete
  extract_lets k x
  repeat' first
    | (with_reducible first
        | assumption | apply State.updXch_memOk | apply State.after_memOk | apply State.linkDone_memOk | apply Work.on_memOk
        | apply Work.read_memOk | apply Work.write_memOk | apply Work.map_memOk | apply State.faultChain_memOk | apply memOk_ite
        | apply outMemOk_ite | apply outMemOk_next)
    | (intro _ _ h; try dsimp only) | intro _ | extract_lets | split | (unfold State.MemOk; dsimp only; apply memOk_mem)
theorem State.slabFault_memOk {s : State} (h : s.MemOk) (x cause core opnd va : Nat) (by_ : Nat × Nat × Nat) (again : Again) : (s.slabFault x cause
    core opnd va by_ again).MemOk := by
  unfold State.slabFault
  repeat' first
    | (with_reducible first
        | assumption | apply State.faultEntry_memOk | apply State.agentFault_memOk)
    | (intro _ _ h; try dsimp only) | intro _
theorem slabRows_memOk {f : For} {k : Nat} {put : Bool} {p m : Nat} (n : Nat) :
    ∀ {w : Work} (_ : w.st.MemOk) (i : Nat), (slabRows f k put p m n i w).1.st.MemOk := by
  induction n with
  | zero => intro w h i; exact h
  | succ n ih =>
    intro w h i
    unfold slabRows
    dsimp only
    split
    · exact h
    · exact h
    · split
      · exact h
      · have hr := State.vread_memOk h (by assumption)
        split
        · exact ih (memOk_fst (State.vwrite_memOk hr _ _ _ _ _) (by assumption)) _
        · exact memOk_fst (State.vwrite_memOk hr _ _ _ _ _) (by assumption)
theorem State.slabReply_memOk {s : State} (h : s.MemOk) (c id lo hi : Nat) : (s.slabReply c id lo hi).MemOk := by
  unfold State.slabReply
  repeat' first
    | (with_reducible first
        | assumption | apply State.replyAfter_memOk | apply State.answer_memOk | apply memOk_ite)
    | intro _
theorem State.slabMove_memOk {s : State} (h : s.MemOk) (c id : Nat) (o : MemOp) (a b b2 : Word) (first : Nat) : (s.slabMove c id o a b b2 first).MemOk
    := by
  unfold State.slabMove
  extract_lets lo x k put n r i row rest keep
  have h_r : r.1.st.MemOk := by
    try dsimp only [r]
    repeat' first
      | (with_reducible first
          | assumption | apply State.updCore_memOk | apply State.replyAfter_memOk | apply State.opFault_memOk | apply State.agentFault_memOk
          | apply Work.on_memOk | apply Work.row_memOk | apply slabRows_memOk | apply State.slabReply_memOk | apply memOk_foldl
          | apply memOk_foldl_work | apply memOk_foldl_fst | apply memOk_foldl_work_fst | apply memOk_ite | refine memOk_fst ?_ (by assumption)
          | refine memOk_snd ?_ (by assumption) | refine outMemOk_elim ?_ (by assumption))
      | (intro _ _ h; try dsimp only) | intro _ | extract_lets | split | (dsimp +zetaDelta only; split)
      | (unfold State.MemOk; dsimp only; apply memOk_mem) | exact h
  clear_value r
  repeat' first
    | (with_reducible first
        | assumption | apply State.updCore_memOk | apply State.replyAfter_memOk | apply State.opFault_memOk | apply State.agentFault_memOk
        | apply Work.on_memOk | apply Work.row_memOk | apply slabRows_memOk | apply State.slabReply_memOk | apply memOk_foldl
        | apply memOk_foldl_work | apply memOk_foldl_fst | apply memOk_foldl_work_fst | apply memOk_ite | refine memOk_fst ?_ (by assumption)
        | refine memOk_snd ?_ (by assumption) | refine outMemOk_elim ?_ (by assumption))
    | (intro _ _ h; try dsimp only) | intro _ | extract_lets | split | (dsimp +zetaDelta only; split)
    | (unfold State.MemOk; dsimp only; apply memOk_mem) | exact h
theorem State.slabArrives_memOk {s : State} (h : s.MemOk) (c id : Nat) (o : MemOp) (a b b2 : Word) (lo : Nat) : (s.slabArrives c id o a b b2 lo).MemOk
    := by
  unfold State.slabArrives
  extract_lets x k ws reply
  repeat' first
    | (with_reducible first
        | assumption | apply State.updSlab_memOk | apply State.replyAfter_memOk | apply State.answer_memOk | apply State.slabMove_memOk
        | apply memOk_foldl | apply memOk_foldl_work | apply memOk_foldl_fst | apply memOk_foldl_work_fst | apply memOk_ite
        | refine memOk_fst ?_ (by assumption) | refine memOk_snd ?_ (by assumption) | refine outMemOk_elim ?_ (by assumption))
    | (intro _ _ h; try dsimp only) | intro _ | extract_lets | split | (dsimp +zetaDelta only; split)
    | (unfold State.MemOk; dsimp only; apply memOk_mem) | exact h
theorem State.growArrives_memOk {s : State} (h : s.MemOk) (c id : Nat) (o : MemOp) (a b : Word) : (s.growArrives c id o a b).MemOk := by
  unfold State.growArrives
  extract_lets x k ws sem
  repeat' first
    | (with_reducible first
        | assumption | apply State.updSlab_memOk | apply State.settled_memOk | apply State.status_memOk | apply memOk_ite)
    | (intro _ _ h; try dsimp only) | intro _ | extract_lets | (unfold State.MemOk; dsimp only; apply memOk_mem)
theorem execSlabChunkCopied_memOk {s : State} (h : s.MemOk) (ctx : Fin 64) (k : Fin 4096) : OutMemOk (execSlabChunkCopied ctx k s) := by
  unfold execSlabChunkCopied
  extract_lets x e ws
  repeat' first
    | (with_reducible first
        | assumption | apply State.updSlab_memOk | apply State.after_memOk | apply State.tick_memOk | refine State.vread_memOk ?_ (by assumption)
        | apply State.vwrite_memOk | apply State.addSem_memOk | apply State.slabFault_memOk | apply memOk_foldl | apply memOk_foldl_work
        | apply memOk_foldl_fst | apply memOk_foldl_work_fst | apply memOk_ite | apply outMemOk_ite | apply outMemOk_next
        | refine memOk_fst ?_ (by assumption) | refine memOk_snd ?_ (by assumption) | refine outMemOk_elim ?_ (by assumption))
    | (intro _ _ h; try dsimp only) | intro _ | extract_lets | split | (dsimp +zetaDelta only; split)
    | (unfold State.MemOk; dsimp only; apply memOk_mem) | exact h
theorem State.exacqArrives_memOk {s : State} (h : s.MemOk) (c id : Nat) (o : MemOp) (a b : Word) (cl nl : Nat) : (s.exacqArrives c id o a b cl
    nl).MemOk := by
  unfold State.exacqArrives
  extract_lets x e
  repeat' first
    | (with_reducible first
        | assumption | apply State.updRidge_memOk | apply State.updEslot_memOk | apply State.settled_memOk | apply State.answer_memOk
        | apply memOk_ite)
    | (intro _ _ h; try dsimp only) | intro _ | extract_lets | split | (unfold State.MemOk; dsimp only; apply memOk_mem)
theorem State.exRetry_memOk {s : State} (h : s.MemOk) : s.exRetry.MemOk := by
  unfold State.exRetry
  extract_lets ws
  repeat' first
    | (with_reducible first
        | assumption | apply State.updRidge_memOk | apply State.exacqArrives_memOk | apply memOk_foldl)
    | (intro _ _ h; try dsimp only) | intro _ | extract_lets | split | (unfold State.MemOk; dsimp only; apply memOk_mem)
theorem State.exrelArrives_memOk {s : State} (h : s.MemOk) (c id : Nat) (a : Word) : (s.exrelArrives c id a).MemOk := by
  unfold State.exrelArrives
  repeat' first
    | (with_reducible first
        | assumption | apply State.updEslot_memOk | apply State.answer_memOk | apply State.exRetry_memOk | apply memOk_ite)
    | (intro _ _ h; try dsimp only) | intro _ | extract_lets | split | (unfold State.MemOk; dsimp only; apply memOk_mem)
theorem execExpertSlotFilled_memOk {s : State} (h : s.MemOk) (n : Fin 64) : OutMemOk (execExpertSlotFilled n s) := by
  unfold execExpertSlotFilled
  extract_lets k
  repeat' first
    | (with_reducible first
        | assumption | apply State.updEslot_memOk | apply State.after_memOk | apply State.agentWrite_memOk
        | refine State.vread_memOk ?_ (by assumption) | apply State.retryLoads_memOk | apply State.slabFault_memOk | apply State.exRetry_memOk
        | apply memOk_ite | apply outMemOk_ite | apply outMemOk_next)
    | (intro _ _ h; try dsimp only) | intro _ | extract_lets | split | (unfold State.MemOk; dsimp only; apply memOk_mem)

/-! ### Reply -/

theorem State.pldefArrives_memOk {s : State} (h : s.MemOk) (c id : Nat) (a b : Word) : (s.pldefArrives c id a b).MemOk := by
  unfold State.pldefArrives
  extract_lets x e p
  repeat' first
    | (with_reducible first
        | assumption | apply State.updPlent_memOk | refine State.vread_memOk ?_ (by assumption) | apply State.answer_memOk | apply Work.map_memOk
        | apply memOk_ite)
    | (intro _ _ h; try dsimp only) | intro _ | extract_lets | split | (unfold State.MemOk; dsimp only; apply memOk_mem)
theorem State.plcnvArrives_memOk {s : State} (h : s.MemOk) (c id : Nat) (o : MemOp) (a b : Word) : (s.plcnvArrives c id o a b).MemOk := by
  unfold State.plcnvArrives
  extract_lets x e ws
  repeat' first
    | (with_reducible first
        | assumption | apply State.answer_memOk | apply Work.map_memOk | apply State.convAsk_memOk | apply memOk_ite)
    | intro _ | extract_lets | (unfold State.MemOk; dsimp only; apply memOk_mem)
theorem State.enqArrives_memOk {s : State} (h : s.MemOk) (c id : Nat) (q : Word) (bytes : List Byte) : (s.enqArrives c id q bytes).MemOk := by
  unfold State.enqArrives
  extract_lets k
  repeat' first
    | (with_reducible first
        | assumption | apply State.updQueue_memOk | apply State.soon_memOk | apply State.merge_memOk | apply State.agentWrite_memOk
        | apply State.status_memOk | apply memOk_ite)
    | (intro _ _ h; try dsimp only) | intro _ | extract_lets | split | (dsimp +zetaDelta only; split)
    | (unfold State.MemOk; dsimp only; apply memOk_mem) | exact h
theorem State.forgetStage_memOk {s : State} (h : s.MemOk) (c id : Nat) : (s.forgetStage c id).MemOk := by
  unfold State.forgetStage
  repeat' first
    | (with_reducible first
        | assumption | apply State.forgetLine_memOk | apply memOk_foldl)
    | (intro _ _ h; try dsimp only) | intro _ | extract_lets | split | (unfold State.MemOk; dsimp only; apply memOk_mem)
theorem State.resumeEntry_memOk {s : State} (h : s.MemOk) (x : Nat) (e : FqEnt) : (s.resumeEntry x e).MemOk := by
  unfold State.resumeEntry
  repeat' first
    | (with_reducible first
        | assumption | apply State.updCore_memOk | apply State.updRun_memOk | apply State.soon_memOk | apply State.pump_memOk
        | apply State.goOn_memOk | apply Work.map_memOk | apply State.forgetStage_memOk | apply memOk_ite)
    | (intro _ _ h; try dsimp only) | intro _ | extract_lets | split | (unfold State.MemOk; dsimp only; apply memOk_mem)
theorem State.resumeEntries_memOk {s : State} (h : s.MemOk) (x n : Nat) : (s.resumeEntries x n).MemOk := by
  unfold State.resumeEntries
  extract_lets k s1
  have h_s1 : s1.MemOk := by
    try dsimp only [s1]
    repeat' first
      | (with_reducible first
          | assumption | apply State.updCtx_memOk)
      | (intro _ _ h; try dsimp only) | intro _ | extract_lets | (unfold State.MemOk; dsimp only; apply memOk_mem)
  clear_value s1
  repeat' first
    | (with_reducible first
        | assumption | apply State.soon_memOk | apply State.resumeEntry_memOk | apply memOk_foldl)
    | (intro _ _ h; try dsimp only) | intro _
theorem State.frsm_memOk {s : State} (h : s.MemOk) (x n : Nat) : (s.frsm x n).1.MemOk := by
  unfold State.frsm
  extract_lets k
  repeat' first
    | (with_reducible first
        | assumption | apply State.resumeEntries_memOk | apply memOk_ite)
    | intro _ | extract_lets | (dsimp +zetaDelta only; split) | exact h
theorem State.serveReq_memOk {s : State} (h : s.MemOk) (c id : Nat) (o : MemOp) (r : Req) : (s.serveReq c id o r).MemOk := by
  unfold State.serveReq
  extract_lets x
  repeat' first
    | (with_reducible first
        | assumption | apply State.answer_memOk | apply State.routeArrives_memOk | apply State.countArrives_memOk | apply State.status_memOk
        | apply State.acceptChain_memOk | apply State.slabReply_memOk | apply State.slabArrives_memOk | apply State.growArrives_memOk
        | apply State.exacqArrives_memOk | apply State.exrelArrives_memOk | apply State.pldefArrives_memOk | apply State.plcnvArrives_memOk
        | apply State.enqArrives_memOk | apply State.frsm_memOk)
    | extract_lets | split | (unfold State.MemOk; dsimp only; apply memOk_mem)
theorem execReplyArrival_memOk {s : State} (h : s.MemOk) (core : Fin 64) (dest : ReplyTo) : OutMemOk (execReplyArrival core dest s) :=
    by
  unfold execReplyArrival
  extract_lets c
  repeat' first
    | (with_reducible first
        | assumption | apply State.deliver_memOk | apply State.message_memOk | apply State.testEntry_memOk | apply State.serveReq_memOk
        | apply memOk_ite | apply outMemOk_ite | apply outMemOk_next)
    | (intro _ _ h; try dsimp only) | intro _ | extract_lets | split | (unfold State.MemOk; dsimp only; apply memOk_mem)

/-! ### Launch -/

theorem State.feSaw_memOk {s : State} (h : s.MemOk) (x va n : Nat) : (s.feSaw x va n).MemOk := by
  unfold State.feSaw
  repeat' first
    | (with_reducible first
        | assumption | refine State.vread_memOk ?_ (by assumption))
    | extract_lets | split | (unfold State.MemOk; dsimp only; apply memOk_mem)
theorem State.lrReads_memOk {s : State} (h : s.MemOk) (x : Nat) (ws : List Word) : (s.lrReads x ws).MemOk := by
  unfold State.lrReads
  extract_lets s1
  have h_s1 : s1.MemOk := by
    try dsimp only [s1]
    repeat' with_reducible first
      | assumption | apply State.feSaw_memOk
  clear_value s1
  repeat' first
    | (with_reducible first
        | assumption | apply State.feSaw_memOk | apply memOk_foldl | apply memOk_ite)
    | (intro _ _ h; try dsimp only) | intro _
theorem State.unkeep_memOk {s : State} (h : s.MemOk) (q n : Nat) (cs : List Nat) : (s.unkeep q n cs).MemOk := by
  unfold State.unkeep
  repeat' first
    | (with_reducible first
        | assumption | apply memOk_ite)
    | (intro _ _ h; try dsimp only) | intro _ | extract_lets | split | (unfold State.MemOk; dsimp only; apply memOk_mem)
theorem State.startGroup_memOk {s : State} (h : s.MemOk) (g : Nat) (r : Run) (ws : List Word) : (s.startGroup g r ws).MemOk := by
  unfold State.startGroup
  extract_lets s1 s2 s3
  have h_s1 : s1.MemOk := by
    try dsimp only [s1]
    repeat' first
      | (with_reducible first
          | assumption | apply State.updGrp_memOk)
      | (intro _ _ h; try dsimp only) | intro _ | (unfold State.MemOk; dsimp only; apply memOk_mem)
  clear_value s1
  have h_s2 : s2.MemOk := by
    try dsimp only [s2]
    repeat' first
      | (with_reducible first
          | assumption | apply State.updCore_memOk | apply memOk_foldl)
      | (intro _ _ h; try dsimp only) | intro _ | extract_lets | (unfold State.MemOk; dsimp only; apply memOk_mem)
  clear_value s2
  have h_s3 : s3.MemOk := by
    try dsimp only [s3]
    repeat' with_reducible first
      | assumption | apply State.after_memOk | apply State.unkeep_memOk
  clear_value s3
  repeat' first
    | (with_reducible first
        | assumption | apply State.soon_memOk | apply State.tick_memOk | apply memOk_ite)
    | intro _
theorem State.lateAtHead_memOk {s : State} (h : s.MemOk) (x : Nat) (ws : List Word) : (s.lateAtHead x ws).MemOk := by
  unfold State.lateAtHead
  repeat' with_reducible first
    | assumption | apply State.sendPeers_memOk | apply State.statWrite_memOk

/-! ### Queue -/

theorem State.queueError_memOk {s : State} (h : s.MemOk) (q err : Nat) : (s.queueError q err).MemOk := by
  unfold State.queueError
  repeat' first
    | (with_reducible first
        | assumption | apply State.updQueue_memOk)
    | (intro _ _ h; try dsimp only) | intro _ | extract_lets | (unfold State.MemOk; dsimp only; apply memOk_mem)
theorem State.enableQueue_memOk {s : State} (h : s.MemOk) (q : Nat) : (s.enableQueue q).MemOk := by
  unfold State.enableQueue
  extract_lets k
  repeat' first
    | (with_reducible first
        | assumption | apply State.updQueue_memOk | apply State.soon_memOk | apply Work.on_memOk | apply memOk_ite)
    | (intro _ _ h; try dsimp only) | intro _ | extract_lets | (unfold State.MemOk; dsimp only; apply memOk_mem)
theorem execQueueEnable_memOk {s : State} (h : s.MemOk) (q : Fin 256) : OutMemOk (execQueueEnable q s) := by
  unfold execQueueEnable
  repeat' with_reducible first
    | assumption | apply State.enableQueue_memOk | apply outMemOk_next
theorem State.disableQueue_memOk {s : State} (h : s.MemOk) (q : Nat) : (s.disableQueue q).MemOk := by
  unfold State.disableQueue
  extract_lets s1 mine
  have h_s1 : s1.MemOk := by
    try dsimp only [s1]
    repeat' first
      | (with_reducible first
          | assumption | apply State.updQueue_memOk)
      | (intro _ _ h; try dsimp only) | intro _ | extract_lets | (unfold State.MemOk; dsimp only; apply memOk_mem)
  clear_value s1
  repeat' first
    | (with_reducible first
        | assumption | apply State.soon_memOk | apply memOk_ite)
    | intro _ | extract_lets | (unfold State.MemOk; dsimp only; apply memOk_mem)
theorem execQueueDisable_memOk {s : State} (h : s.MemOk) (q : Fin 256) : OutMemOk (execQueueDisable q s) := by
  unfold execQueueDisable
  repeat' with_reducible first
    | assumption | apply State.disableQueue_memOk | apply outMemOk_next
theorem State.ringBell_memOk {s : State} (h : s.MemOk) (q tail : Nat) : (s.ringBell q tail).MemOk := by
  unfold State.ringBell
  extract_lets k
  repeat' first
    | (with_reducible first
        | assumption | apply State.updQueue_memOk | apply State.soon_memOk | apply State.tick_memOk | apply State.queueError_memOk
        | apply memOk_ite)
    | (intro _ _ h; try dsimp only) | intro _ | extract_lets | (unfold State.MemOk; dsimp only; apply memOk_mem)
theorem execDoorbell_memOk {s : State} (h : s.MemOk) (q : Fin 256) (tail : BitVec 32) : OutMemOk (execDoorbell q tail s) := by
  unfold execDoorbell
  repeat' first
    | (with_reducible first
        | assumption | apply State.port_memOk | apply State.ringBell_memOk | apply outMemOk_next)
    | (intro _ _ h; try dsimp only) | intro _
theorem State.readHead_memOk {s : State} (h : s.MemOk) (q : Nat) : (s.readHead q).MemOk := by
  unfold State.readHead
  extract_lets k
  repeat' first
    | (with_reducible first
        | assumption | apply State.updQueue_memOk | apply State.settled_memOk | apply State.agentRead_memOk | apply State.feSaw_memOk
        | apply State.queueError_memOk | apply memOk_ite)
    | (intro _ _ h; try dsimp only) | intro _ | extract_lets | split | (unfold State.MemOk; dsimp only; apply memOk_mem)
theorem State.passHead_memOk {s : State} (h : s.MemOk) (q : Nat) (out : Option (Option Nat)) : (s.passHead q out).MemOk := by
  unfold State.passHead
  extract_lets b late started
  repeat' first
    | (with_reducible first
        | assumption | apply State.updQueue_memOk | apply memOk_ite)
    | (intro _ _ h; try dsimp only) | intro _ | extract_lets | (unfold State.MemOk; dsimp only; apply memOk_mem)
theorem State.doLaunch_memOk {s : State} (h : s.MemOk) (q : Nat) (tick : Option Nat) : (s.doLaunch q tick).MemOk := by
  unfold State.doLaunch
  extract_lets k ws
  repeat' first
    | (with_reducible first
        | assumption | apply State.updQueue_memOk | apply State.tick_memOk | apply Work.map_memOk | apply State.lrReads_memOk
        | apply State.startGroup_memOk | apply State.passHead_memOk | apply memOk_ite)
    | (intro _ _ h; try dsimp only) | intro _ | extract_lets | split | (unfold State.MemOk; dsimp only; apply memOk_mem)
theorem State.startLaunch_memOk {s : State} (h : s.MemOk) (q : Nat) : (s.startLaunch q).MemOk := by
  unfold State.startLaunch
  repeat' with_reducible first
    | assumption | apply State.doLaunch_memOk
theorem State.startTickstart_memOk {s : State} (h : s.MemOk) (q : Nat) : (s.startTickstart q).MemOk := by
  unfold State.startTickstart
  extract_lets k
  repeat' first
    | (with_reducible first
        | assumption | apply State.lateAtHead_memOk | apply State.passHead_memOk | apply State.doLaunch_memOk | apply memOk_ite)
    | intro _
theorem State.startCollstep_memOk {s : State} (h : s.MemOk) (q : Nat) : (s.startCollstep q).MemOk := by
  unfold State.startCollstep
  extract_lets k va
  repeat' first
    | (with_reducible first
        | assumption | apply State.updRidge_memOk | apply State.bump_memOk | apply State.soon_memOk | refine State.vread_memOk ?_ (by assumption)
        | apply Work.map_memOk | apply State.passHead_memOk)
    | (intro _ _ h; try dsimp only) | intro _ | extract_lets | split | (unfold State.MemOk; dsimp only; apply memOk_mem)
theorem State.startTransfer_memOk {s : State} (h : s.MemOk) (q : Nat) : (s.startTransfer q).MemOk := by
  unfold State.startTransfer
  extract_lets k a
  have h_a : a.1.MemOk := by
    try dsimp only [a]
    repeat' first
      | (with_reducible first
          | assumption | apply State.acceptChain_memOk)
      | (unfold State.MemOk; dsimp only; apply memOk_mem)
  clear_value a
  repeat' first
    | (with_reducible first
        | assumption | apply State.passHead_memOk | apply memOk_ite)
    | intro _
theorem State.startConvert_memOk {s : State} (h : s.MemOk) (q : Nat) : (s.startConvert q).MemOk := by
  unfold State.startConvert
  extract_lets k r
  have h_r : r.1.MemOk := by
    try dsimp only [r]
    repeat' first
      | (with_reducible first
          | assumption | apply State.convAsk_memOk)
      | (unfold State.MemOk; dsimp only; apply memOk_mem)
  clear_value r
  repeat' with_reducible first
    | assumption | apply State.passHead_memOk
theorem State.afterDone_memOk {s : State} (h : s.MemOk) (q : Nat) : (s.afterDone q).MemOk := by
  unfold State.afterDone
  repeat' first
    | (with_reducible first
        | assumption | apply State.updAgent_memOk)
    | (intro _ _ h; try dsimp only) | intro _ | extract_lets | (unfold State.MemOk; dsimp only; apply memOk_mem)
theorem State.startSignal_memOk {s : State} (h : s.MemOk) (q : Nat) : (s.startSignal q).MemOk := by
  unfold State.startSignal
  extract_lets b
  repeat' with_reducible first
    | assumption | apply State.tick_memOk | apply State.addSem_memOk | apply State.passHead_memOk | apply State.afterDone_memOk
theorem State.startWaitsem_memOk {s : State} (h : s.MemOk) (q : Nat) : (s.startWaitsem q).MemOk := by
  unfold State.startWaitsem
  repeat' with_reducible first
    | assumption | apply State.passHead_memOk
theorem State.startMarker_memOk {s : State} (h : s.MemOk) (q : Nat) : (s.startMarker q).MemOk := by
  unfold State.startMarker
  extract_lets b n s1
  have h_s1 : s1.MemOk := State.passHead_memOk (State.afterDone_memOk h _) _ _
  clear_value s1
  split
  · exact State.agentWrite_memOk h_s1 _ _ _ _ _
  · exact State.tell_memOk h_s1 _
theorem State.startPacket_memOk {s : State} (h : s.MemOk) (q : Nat) : (s.startPacket q).MemOk := by
  unfold State.startPacket
  repeat' first
    | (with_reducible first
        | assumption | apply State.startLaunch_memOk | apply State.startTickstart_memOk | apply State.startCollstep_memOk
        | apply State.startTransfer_memOk | apply State.startConvert_memOk | apply State.startSignal_memOk | apply State.startWaitsem_memOk
        | apply State.startMarker_memOk)
    | extract_lets | split | (unfold State.MemOk; dsimp only; apply memOk_mem)
theorem State.scanHeads_memOk {s : State} (h : s.MemOk) : s.scanHeads.MemOk := by
  unfold State.scanHeads
  repeat' first
    | (with_reducible first
        | assumption | apply State.updQueue_memOk | apply State.after_memOk | apply State.lateAtHead_memOk | apply State.queueError_memOk
        | apply State.readHead_memOk | apply memOk_foldl | apply memOk_ite)
    | (intro _ _ h; try dsimp only) | intro _ | extract_lets | (unfold State.MemOk; dsimp only; apply memOk_mem)
theorem State.tryRestore_memOk {s : State} (h : s.MemOk) (g : Nat) : (s.tryRestore g).MemOk := by
  unfold State.tryRestore
  try dsimp only
  repeat' first
    | (with_reducible first
        | assumption | apply execGroupRestore_memOk | apply State.unkeep_memOk | apply memOk_foldl | apply memOk_foldl_work
        | apply memOk_foldl_fst | apply memOk_foldl_work_fst | apply memOk_ite | refine memOk_fst ?_ (by assumption)
        | refine memOk_snd ?_ (by assumption) | refine outMemOk_elim ?_ (by assumption))
    | (intro _ _ h; try dsimp only) | intro _ | extract_lets | split | (dsimp +zetaDelta only; split)
    | (unfold State.MemOk; dsimp only; apply memOk_mem) | exact h
theorem State.refillCredit_memOk {s : State} (h : s.MemOk) (cls : Nat) : (s.refillCredit cls).MemOk := by
  unfold State.refillCredit
  repeat' first
    | (with_reducible first
        | assumption | apply State.updCtx_memOk | apply memOk_foldl | apply memOk_ite)
    | (intro _ _ h; try dsimp only) | intro _ | extract_lets | (unfold State.MemOk; dsimp only; apply memOk_mem)
theorem State.pickN_memOk {s : State} (h : s.MemOk) (cls : Nat) (qs : List Nat) : (s.pickN cls qs).1.MemOk := by
  unfold State.pickN
  extract_lets lowest
  repeat' first
    | (with_reducible first
        | assumption | apply State.refillCredit_memOk)
    | extract_lets | split | (unfold State.MemOk; dsimp only; apply memOk_mem)
theorem State.leaveCtx_memOk {s : State} (h : s.MemOk) (cls : Nat) : (s.leaveCtx cls).MemOk := by
  unfold State.leaveCtx
  extract_lets p
  repeat' first
    | (with_reducible first
        | assumption | apply memOk_ite)
    | (intro _ _ h; try dsimp only) | intro _ | extract_lets | (unfold State.MemOk; dsimp only; apply memOk_mem)
theorem State.look_memOk {s : State} (h : s.MemOk) : s.look.MemOk := by
  unfold State.look
  repeat' first
    | (with_reducible first
        | assumption | apply State.scanHeads_memOk | apply State.leaveCtx_memOk | apply memOk_foldl)
    | (intro _ _ h; try dsimp only) | intro _
theorem State.payCredit_memOk {s : State} (h : s.MemOk) (cls q : Nat) : (s.payCredit cls q).MemOk := by
  unfold State.payCredit
  extract_lets x c s1
  have h_s1 : s1.MemOk := by
    try dsimp only [s1]
    repeat' first
      | (with_reducible first
          | assumption | apply State.updCtx_memOk)
      | (intro _ _ h; try dsimp only) | intro _ | extract_lets | (unfold State.MemOk; dsimp only; apply memOk_mem)
  clear_value s1
  repeat' first
    | (with_reducible first
        | assumption | apply memOk_ite)
    | intro _ | extract_lets | (unfold State.MemOk; dsimp only; apply memOk_mem)
theorem State.choose_memOk (l : List Nat) : ∀ {s : State} (_ : s.MemOk), (s.choose l).1.MemOk := by
  induction l with
  | nil => intro s h; exact h
  | cons x l ih =>
    intro s h
    unfold State.choose
    dsimp only
    split
    · exact ih h
    · split
      · exact h
      · exact State.pickN_memOk h _ _
theorem State.startNext_memOk {s : State} (h : s.MemOk) (want : Nat → Bool) : (s.startNext want).MemOk := by
  unfold State.startNext
  refine memOk_ite (fun _ => h) fun _ => ?_
  extract_lets r
  have hr : r.1.MemOk := State.choose_memOk _ h
  clear_value r
  split
  · exact hr
  · refine memOk_ite (fun _ => h) fun _ => ?_
    refine State.look_memOk (State.sched_memOk (s := { State.startPacket _ _ with nextStart := s.now + 16 }) (State.startPacket_memOk ?_ _) _ _)
    exact memOk_ite (fun _ => hr) fun _ => State.payCredit_memOk hr _ _
theorem State.askPreempt_memOk {s : State} (h : s.MemOk) : s.askPreempt.MemOk := by
  unfold State.askPreempt
  extract_lets heads s0 mine
  have h_s0 : s0.MemOk := by
    try dsimp only [s0]
    repeat' first
      | (with_reducible first
          | assumption | apply Work.map_memOk | apply memOk_ite)
      | (intro _ _ h; try dsimp only) | intro _ | extract_lets | (unfold State.MemOk; dsimp only; apply memOk_mem)
  clear_value s0
  repeat' first
    | (with_reducible first
        | assumption | apply State.updRun_memOk | apply Work.map_memOk | apply memOk_foldl | apply memOk_ite)
    | (intro _ _ h; try dsimp only) | intro _ | extract_lets | split | (unfold State.MemOk; dsimp only; apply memOk_mem)
theorem State.frontEnd_memOk {s : State} (h : s.MemOk) (want : State → Nat → Bool) : (s.frontEnd want).MemOk := by
  unfold State.frontEnd
  extract_lets s1 s2 s3 more
  have h_s1 : s1.MemOk := by
    try dsimp only [s1]
    repeat' with_reducible first
      | assumption | apply State.look_memOk
  clear_value s1
  have h_s2 : s2.MemOk := by
    try dsimp only [s2]
    repeat' first
      | (with_reducible first
          | assumption | apply State.tryRestore_memOk | apply memOk_foldl)
      | (intro _ _ h; try dsimp only) | intro _
  clear_value s2
  have h_s3 : s3.MemOk := by
    try dsimp only [s3]
    repeat' with_reducible first
      | assumption | apply State.startNext_memOk
  clear_value s3
  repeat' first
    | (with_reducible first
        | assumption | apply State.sched_memOk | apply State.askPreempt_memOk | apply memOk_ite)
    | intro _
theorem execFrontEndStart_memOk {s : State} (h : s.MemOk) : OutMemOk (execFrontEndStart s) := by
  unfold execFrontEndStart
  repeat' first
    | (with_reducible first
        | assumption | apply State.frontEnd_memOk | apply outMemOk_next)
    | (intro _ _ h; try dsimp only) | intro _
theorem State.startKind_memOk {s : State} (h : s.MemOk) (q kind : Nat) : (s.startKind q kind).MemOk := State.frontEnd_memOk h _
theorem execLaunch_memOk {s : State} (h : s.MemOk) (q : Fin 256) : OutMemOk (execLaunch q s) := by
  unfold execLaunch
  try dsimp only
  repeat' first
    | (with_reducible first
        | assumption | apply State.startKind_memOk | apply memOk_foldl | apply memOk_foldl_work | apply memOk_foldl_fst
        | apply memOk_foldl_work_fst | apply memOk_ite | apply outMemOk_ite | apply outMemOk_next | refine memOk_fst ?_ (by assumption)
        | refine memOk_snd ?_ (by assumption) | refine outMemOk_elim ?_ (by assumption))
    | (intro _ _ h; try dsimp only) | intro _ | extract_lets | split | (dsimp +zetaDelta only; split)
    | (unfold State.MemOk; dsimp only; apply memOk_mem) | exact h
theorem execCollstep_memOk {s : State} (h : s.MemOk) (q : Fin 256) : OutMemOk (execCollstep q s) := by
  unfold execCollstep
  try dsimp only
  repeat' first
    | (with_reducible first
        | assumption | apply State.startKind_memOk | apply memOk_foldl | apply memOk_foldl_work | apply memOk_foldl_fst
        | apply memOk_foldl_work_fst | apply memOk_ite | apply outMemOk_ite | apply outMemOk_next | refine memOk_fst ?_ (by assumption)
        | refine memOk_snd ?_ (by assumption) | refine outMemOk_elim ?_ (by assumption))
    | (intro _ _ h; try dsimp only) | intro _ | extract_lets | split | (dsimp +zetaDelta only; split)
    | (unfold State.MemOk; dsimp only; apply memOk_mem) | exact h
theorem execTransfer_memOk {s : State} (h : s.MemOk) (q : Fin 256) : OutMemOk (execTransfer q s) := by
  unfold execTransfer
  try dsimp only
  repeat' first
    | (with_reducible first
        | assumption | apply State.startKind_memOk | apply memOk_foldl | apply memOk_foldl_work | apply memOk_foldl_fst
        | apply memOk_foldl_work_fst | apply memOk_ite | apply outMemOk_ite | apply outMemOk_next | refine memOk_fst ?_ (by assumption)
        | refine memOk_snd ?_ (by assumption) | refine outMemOk_elim ?_ (by assumption))
    | (intro _ _ h; try dsimp only) | intro _ | extract_lets | split | (dsimp +zetaDelta only; split)
    | (unfold State.MemOk; dsimp only; apply memOk_mem) | exact h
theorem execConvert_memOk {s : State} (h : s.MemOk) (q : Fin 256) : OutMemOk (execConvert q s) := by
  unfold execConvert
  try dsimp only
  repeat' first
    | (with_reducible first
        | assumption | apply State.startKind_memOk | apply memOk_foldl | apply memOk_foldl_work | apply memOk_foldl_fst
        | apply memOk_foldl_work_fst | apply memOk_ite | apply outMemOk_ite | apply outMemOk_next | refine memOk_fst ?_ (by assumption)
        | refine memOk_snd ?_ (by assumption) | refine outMemOk_elim ?_ (by assumption))
    | (intro _ _ h; try dsimp only) | intro _ | extract_lets | split | (dsimp +zetaDelta only; split)
    | (unfold State.MemOk; dsimp only; apply memOk_mem) | exact h
theorem execSignal_memOk {s : State} (h : s.MemOk) (q : Fin 256) : OutMemOk (execSignal q s) := by
  unfold execSignal
  try dsimp only
  repeat' first
    | (with_reducible first
        | assumption | apply State.startKind_memOk | apply memOk_foldl | apply memOk_foldl_work | apply memOk_foldl_fst
        | apply memOk_foldl_work_fst | apply memOk_ite | apply outMemOk_ite | apply outMemOk_next | refine memOk_fst ?_ (by assumption)
        | refine memOk_snd ?_ (by assumption) | refine outMemOk_elim ?_ (by assumption))
    | (intro _ _ h; try dsimp only) | intro _ | extract_lets | split | (dsimp +zetaDelta only; split)
    | (unfold State.MemOk; dsimp only; apply memOk_mem) | exact h
theorem execWaitsem_memOk {s : State} (h : s.MemOk) (q : Fin 256) : OutMemOk (execWaitsem q s) := by
  unfold execWaitsem
  try dsimp only
  repeat' first
    | (with_reducible first
        | assumption | apply State.startKind_memOk | apply memOk_foldl | apply memOk_foldl_work | apply memOk_foldl_fst
        | apply memOk_foldl_work_fst | apply memOk_ite | apply outMemOk_ite | apply outMemOk_next | refine memOk_fst ?_ (by assumption)
        | refine memOk_snd ?_ (by assumption) | refine outMemOk_elim ?_ (by assumption))
    | (intro _ _ h; try dsimp only) | intro _ | extract_lets | split | (dsimp +zetaDelta only; split)
    | (unfold State.MemOk; dsimp only; apply memOk_mem) | exact h
theorem execTickstart_memOk {s : State} (h : s.MemOk) (q : Fin 256) : OutMemOk (execTickstart q s) := by
  unfold execTickstart
  try dsimp only
  repeat' first
    | (with_reducible first
        | assumption | apply State.startKind_memOk | apply memOk_foldl | apply memOk_foldl_work | apply memOk_foldl_fst
        | apply memOk_foldl_work_fst | apply memOk_ite | apply outMemOk_ite | apply outMemOk_next | refine memOk_fst ?_ (by assumption)
        | refine memOk_snd ?_ (by assumption) | refine outMemOk_elim ?_ (by assumption))
    | (intro _ _ h; try dsimp only) | intro _ | extract_lets | split | (dsimp +zetaDelta only; split)
    | (unfold State.MemOk; dsimp only; apply memOk_mem) | exact h
theorem execMarker_memOk {s : State} (h : s.MemOk) (q : Fin 256) : OutMemOk (execMarker q s) := by
  unfold execMarker
  try dsimp only
  repeat' first
    | (with_reducible first
        | assumption | apply State.startKind_memOk | apply memOk_foldl | apply memOk_foldl_work | apply memOk_foldl_fst
        | apply memOk_foldl_work_fst | apply memOk_ite | apply outMemOk_ite | apply outMemOk_next | refine memOk_fst ?_ (by assumption)
        | refine memOk_snd ?_ (by assumption) | refine outMemOk_elim ?_ (by assumption))
    | (intro _ _ h; try dsimp only) | intro _ | extract_lets | split | (dsimp +zetaDelta only; split)
    | (unfold State.MemOk; dsimp only; apply memOk_mem) | exact h

/-! ### Linking -/

theorem State.loseSends_memOk {s : State} (h : s.MemOk) (lost : List Nat) : (s.loseSends lost).MemOk := by
  unfold State.loseSends
  extract_lets again back s1
  have h_s1 : s1.MemOk := by
    try dsimp only [s1]
    repeat' first
      | (with_reducible first
          | assumption | apply Work.map_memOk)
      | (intro _ _ h; try dsimp only) | intro _ | extract_lets | (unfold State.MemOk; dsimp only; apply memOk_mem)
  clear_value s1
  repeat' first
    | (with_reducible first
        | assumption | apply State.opFault_memOk | apply memOk_foldl)
    | (intro _ _ h; try dsimp only) | intro _
theorem State.sendsAcked_memOk {s : State} (h : s.MemOk) : s.sendsAcked.MemOk := by
  unfold State.sendsAcked
  repeat' first
    | (with_reducible first
        | assumption | apply State.dropAcked_memOk | apply State.pokeSteps_memOk | apply memOk_foldl)
    | (intro _ _ h; try dsimp only) | intro _
theorem State.dropLink_memOk {s : State} (h : s.MemOk) (l state loss : Nat) : (s.dropLink l state loss).MemOk := by
  unfold State.dropLink
  extract_lets k lost s1 s2
  have h2 : s2.MemOk := memOk_foldl (fun _ _ h => memOk_foldl (fun _ _ h => State.markBack_memOk h _ _) h) (State.updLink_memOk h _ _)
  clear_value s2
  exact memOk_ite (fun _ => State.loseSends_memOk (State.loseRoutes_memOk (State.loseConvs_memOk h2 _ _) _) _) fun _ => h2
theorem State.linkTrain_memOk {s : State} (h : s.MemOk) (l : Nat) : (s.linkTrain l).MemOk := by
  unfold State.linkTrain
  extract_lets k
  repeat' first
    | (with_reducible first
        | assumption | apply State.updLink_memOk | apply State.after_memOk | apply State.soon_memOk | apply memOk_ite)
    | (intro _ _ h; try dsimp only) | intro _ | extract_lets | (unfold State.MemOk; dsimp only; apply memOk_mem)
theorem State.linkFence_memOk {s : State} (h : s.MemOk) (l loss : Nat) : (s.linkFence l loss).MemOk := by
  unfold State.linkFence
  repeat' first
    | (with_reducible first
        | assumption | apply State.dropLink_memOk | apply memOk_ite)
    | intro _
theorem execLnkTrain_memOk {s : State} (h : s.MemOk) (l : Fin 48) : OutMemOk (execLnkTrain l s) := by
  unfold execLnkTrain
  repeat' with_reducible first
    | assumption | apply State.linkTrain_memOk | apply outMemOk_next
theorem execLnkFence_memOk {s : State} (h : s.MemOk) (l : Fin 48) : OutMemOk (execLnkFence l s) := by
  unfold execLnkFence
  repeat' with_reducible first
    | assumption | apply State.linkFence_memOk | apply outMemOk_next
theorem execLnkDisable_memOk {s : State} (h : s.MemOk) (l : Fin 48) : OutMemOk (execLnkDisable l s) := by
  unfold execLnkDisable
  repeat' with_reducible first
    | assumption | apply State.dropLink_memOk | apply outMemOk_next
theorem execTrainingTimeout_memOk {s : State} (h : s.MemOk) (l : Fin 48) : OutMemOk (execTrainingTimeout l s) := by
  unfold execTrainingTimeout
  extract_lets k
  repeat' first
    | (with_reducible first
        | assumption | apply State.dropLink_memOk | apply memOk_ite | apply outMemOk_ite | apply outMemOk_next)
    | intro _
theorem State.bringUp_memOk {s : State} (h : s.MemOk) : s.bringUp.MemOk := by
  unfold State.bringUp
  extract_lets ps e
  repeat' first
    | (with_reducible first
        | assumption | apply State.updRegs_memOk | apply Work.map_memOk)
    | (intro _ _ h; try dsimp only) | intro _ | extract_lets | (unfold State.MemOk; dsimp only; apply memOk_mem)
theorem execTrainingDone_memOk {s : State} (h : s.MemOk) (l : Fin 48) (locked : Nat) (ident tail : List Byte) :
    OutMemOk (execTrainingDone l locked ident tail s) := by
  unfold execTrainingDone
  extract_lets n
  repeat' first
    | (with_reducible first
        | assumption | apply State.updLink_memOk | apply State.soon_memOk | apply State.dropLink_memOk | apply State.bringUp_memOk
        | apply memOk_ite | apply outMemOk_ite | apply outMemOk_next)
    | (intro _ _ h; try dsimp only) | intro _ | extract_lets | split | (unfold State.MemOk; dsimp only; apply memOk_mem)
theorem execLaserModuleRemoval_memOk {s : State} (h : s.MemOk) (gable : Nat) : OutMemOk (execLaserModuleRemoval gable s) := by
  unfold execLaserModuleRemoval
  repeat' first
    | (with_reducible first
        | assumption | apply State.dropLink_memOk | apply memOk_foldl | apply memOk_ite | apply outMemOk_ite | apply outMemOk_next)
    | (intro _ _ h; try dsimp only) | intro _ | extract_lets | (unfold State.MemOk; dsimp only; apply memOk_mem)
theorem execLaserModuleInsertion_memOk {s : State} (h : s.MemOk) (gable : Nat) : OutMemOk (execLaserModuleInsertion gable s) := by
  unfold execLaserModuleInsertion
  repeat' first
    | (with_reducible first
        | assumption | apply outMemOk_next)
    | extract_lets | (unfold State.MemOk; dsimp only; apply memOk_mem)
theorem State.atTick_memOk {s : State} (h : s.MemOk) (t : Nat) (i : Instr) : (s.atTick t i).MemOk := by
  unfold State.atTick
  repeat' with_reducible first
    | assumption | apply State.after_memOk
theorem State.writeSltctl_memOk {s : State} (h : s.MemOk) (l : Nat) (val : Word) : (s.writeSltctl l val).MemOk := by
  unfold State.writeSltctl
  extract_lets k n
  repeat' first
    | (with_reducible first
        | assumption | apply State.updLink_memOk | apply State.soon_memOk | apply Work.on_memOk | apply memOk_ite)
    | (intro _ _ h; try dsimp only) | intro _ | extract_lets | (unfold State.MemOk; dsimp only; apply memOk_mem)
theorem execSltctlWrite_memOk {s : State} (h : s.MemOk) (l : Fin 48) (val : Word) : OutMemOk (execSltctlWrite l val s) := by
  unfold execSltctlWrite
  repeat' with_reducible first
    | assumption | apply State.writeSltctl_memOk | apply outMemOk_next
theorem execSlotOpen_memOk {s : State} (h : s.MemOk) (l : Fin 48) : OutMemOk (execSlotOpen l s) := by
  unfold execSlotOpen
  extract_lets k
  repeat' first
    | (with_reducible first
        | assumption | apply State.updLink_memOk | apply State.atTick_memOk | apply memOk_ite | apply outMemOk_ite | apply outMemOk_next)
    | (intro _ _ h; try dsimp only) | intro _ | extract_lets | split | (unfold State.MemOk; dsimp only; apply memOk_mem)
theorem execGuardEnd_memOk {s : State} (h : s.MemOk) (l : Fin 48) : OutMemOk (execGuardEnd l s) := by
  unfold execGuardEnd
  extract_lets k
  repeat' first
    | (with_reducible first
        | assumption | apply State.updLink_memOk | apply State.soon_memOk | apply State.atTick_memOk | apply memOk_ite | apply outMemOk_ite
        | apply outMemOk_next)
    | (intro _ _ h; try dsimp only) | intro _ | extract_lets | split | (unfold State.MemOk; dsimp only; apply memOk_mem)
theorem execSlotClose_memOk {s : State} (h : s.MemOk) (l : Fin 48) : OutMemOk (execSlotClose l s) := by
  unfold execSlotClose
  extract_lets k
  repeat' first
    | (with_reducible first
        | assumption | apply State.updLink_memOk | apply State.soon_memOk | apply State.atTick_memOk | apply memOk_ite | apply outMemOk_ite
        | apply outMemOk_next)
    | (intro _ _ h; try dsimp only) | intro _ | extract_lets | split | (unfold State.MemOk; dsimp only; apply memOk_mem)
theorem State.putFlit_memOk {s : State} (h : s.MemOk) (l : Nat) (f : Flit) : (s.putFlit l f).MemOk := by
  unfold State.putFlit
  extract_lets k p c f1 ack paid t
  repeat' first
    | (with_reducible first
        | assumption | apply State.updLink_memOk | apply State.after_memOk | apply Work.map_memOk)
    | (intro _ _ h; try dsimp only) | intro _ | extract_lets | (unfold State.MemOk; dsimp only; apply memOk_mem)
theorem State.sendFlit_memOk {s : State} (h : s.MemOk) (l i : Nat) (f : Flit) (w : Window) : (s.sendFlit l i f w).MemOk := by
  unfold State.sendFlit
  extract_lets k c sent step used s1 s2
  have h_s2 : s2.MemOk := by
    try dsimp only [s2]
    repeat' first
      | (with_reducible first
          | assumption | apply State.updLink_memOk | apply State.after_memOk | apply Work.map_memOk | apply State.putFlit_memOk
          | apply memOk_foldl | apply memOk_foldl_work | apply memOk_foldl_fst | apply memOk_foldl_work_fst | apply memOk_ite
          | refine memOk_fst ?_ (by assumption) | refine memOk_snd ?_ (by assumption) | refine outMemOk_elim ?_ (by assumption))
      | (intro _ _ h; try dsimp only) | intro _ | extract_lets | split | (dsimp +zetaDelta only; split)
      | (unfold State.MemOk; dsimp only; apply memOk_mem) | exact h
  clear_value s2
  repeat' first
    | (with_reducible first
        | assumption | apply State.updLink_memOk | apply State.after_memOk | apply Work.map_memOk | apply State.putFlit_memOk | apply memOk_foldl
        | apply memOk_foldl_work | apply memOk_foldl_fst | apply memOk_foldl_work_fst | apply memOk_ite | refine memOk_fst ?_ (by assumption)
        | refine memOk_snd ?_ (by assumption) | refine outMemOk_elim ?_ (by assumption))
    | (intro _ _ h; try dsimp only) | intro _ | extract_lets | split | (dsimp +zetaDelta only; split)
    | (unfold State.MemOk; dsimp only; apply memOk_mem) | exact h
theorem State.resendFlit_memOk {s : State} (h : s.MemOk) (l : Nat) (q : Nat × Nat) : (s.resendFlit l q).MemOk := by
  unfold State.resendFlit
  extract_lets k mine rest
  repeat' first
    | (with_reducible first
        | assumption | apply State.updLink_memOk | apply State.after_memOk | apply State.soon_memOk | apply Work.map_memOk
        | apply State.linkFence_memOk | apply State.putFlit_memOk | apply memOk_ite)
    | (intro _ _ h; try dsimp only) | intro _ | extract_lets | split | (unfold State.MemOk; dsimp only; apply memOk_mem)
theorem State.sendNext_memOk {s : State} (h : s.MemOk) (l : Nat) : (s.sendNext l).MemOk := by
  unfold State.sendNext
  extract_lets k
  repeat' first
    | (with_reducible first
        | assumption | apply State.sched_memOk | apply State.soon_memOk | apply State.choose_memOk | apply State.putFlit_memOk
        | apply State.sendFlit_memOk | apply State.resendFlit_memOk | apply memOk_ite)
    | intro _ | extract_lets | split | (unfold State.MemOk; dsimp only; apply memOk_mem)
theorem State.toReplay_memOk {s : State} (h : s.MemOk) (l : Nat) (from_ : Option (Nat × Nat)) (late : Nat → Bool) (back : Nat) : (s.toReplay l from_
    late back).MemOk := by
  unfold State.toReplay
  extract_lets k all qs
  repeat' first
    | (with_reducible first
        | assumption | apply State.updLink_memOk | apply State.soon_memOk)
    | (intro _ _ h; try dsimp only) | intro _ | extract_lets | (unfold State.MemOk; dsimp only; apply memOk_mem)
theorem execReplayTimeout_memOk {s : State} (h : s.MemOk) (l : Fin 48) : OutMemOk (execReplayTimeout l s) := by
  unfold execReplayTimeout
  extract_lets k old
  repeat' first
    | (with_reducible first
        | assumption | apply State.toReplay_memOk | apply memOk_ite | apply outMemOk_ite | apply outMemOk_next)
    | (intro _ _ h; try dsimp only) | intro _
theorem execReplayComplete_memOk {s : State} (h : s.MemOk) (l : Fin 48) : OutMemOk (execReplayComplete l s) := by
  unfold execReplayComplete
  extract_lets k
  repeat' first
    | (with_reducible first
        | assumption | apply State.updLink_memOk | apply State.soon_memOk | apply memOk_ite | apply outMemOk_ite | apply outMemOk_next)
    | (intro _ _ h; try dsimp only) | intro _ | extract_lets | (unfold State.MemOk; dsimp only; apply memOk_mem)
theorem execWavelengthLoss_memOk {s : State} (h : s.MemOk) (l : Fin 48) : OutMemOk (execWavelengthLoss l s) := by
  unfold execWavelengthLoss
  extract_lets k
  repeat' first
    | (with_reducible first
        | assumption | apply State.updLink_memOk | apply State.dropLink_memOk | apply State.toReplay_memOk | apply memOk_ite | apply outMemOk_ite
        | apply outMemOk_next)
    | (intro _ _ h; try dsimp only) | intro _ | extract_lets | (unfold State.MemOk; dsimp only; apply memOk_mem)
theorem State.mismatch_memOk {s : State} (h : s.MemOk) (l : Nat) : (s.mismatch l).MemOk := by
  unfold State.mismatch
  repeat' first
    | (with_reducible first
        | assumption | apply State.updLink_memOk)
    | (intro _ _ h; try dsimp only) | intro _ | extract_lets | (unfold State.MemOk; dsimp only; apply memOk_mem)
theorem State.takeHeader_memOk {s : State} (h : s.MemOk) (l p : Nat) (f : FlitIn) : (s.takeHeader l p f).MemOk := by
  unfold State.takeHeader
  extract_lets give s1
  have h_s1 : s1.MemOk := by
    try dsimp only [s1]
    repeat' first
      | (with_reducible first
          | assumption | apply State.updLink_memOk | apply memOk_ite)
      | (intro _ _ h; try dsimp only) | intro _ | extract_lets | (unfold State.MemOk; dsimp only; apply memOk_mem)
  clear_value s1
  repeat' first
    | (with_reducible first
        | assumption | apply State.soon_memOk | apply State.sendsAcked_memOk | apply memOk_ite)
    | intro _
theorem State.sendNak_memOk {s : State} (h : s.MemOk) (l p : Nat) : (s.sendNak l p).MemOk := by
  unfold State.sendNak
  extract_lets x
  repeat' first
    | (with_reducible first
        | assumption | apply State.updLink_memOk | apply State.soon_memOk | apply memOk_ite)
    | (intro _ _ h; try dsimp only) | intro _ | extract_lets | (unfold State.MemOk; dsimp only; apply memOk_mem)
theorem State.badFlit_memOk {s : State} (h : s.MemOk) (l : Nat) : (s.badFlit l).MemOk := by
  unfold State.badFlit
  extract_lets k
  repeat' first
    | (with_reducible first
        | assumption | apply Work.map_memOk | apply State.mismatch_memOk | apply State.sendNak_memOk | apply memOk_ite)
    | intro _
theorem State.receive_memOk {s : State} (h : s.MemOk) (l kind : Nat) (flit : List Byte) : (s.receive l kind flit).1.MemOk := by
  unfold State.receive
  extract_lets k
  repeat' first
    | (with_reducible first
        | assumption | apply State.mismatch_memOk | apply State.takeHeader_memOk | apply State.badFlit_memOk | apply memOk_ite)
    | intro _ | extract_lets | split | (unfold State.MemOk; dsimp only; apply memOk_mem)
theorem State.acceptFlit_memOk {s : State} (h : s.MemOk) (l : Nat) (f : FlitIn) (last : Bool) : (s.acceptFlit l f last).1.MemOk := by
  unfold State.acceptFlit
  extract_lets k p
  repeat' first
    | (with_reducible first
        | assumption | apply State.updLink_memOk | apply State.mismatch_memOk | apply State.sendNak_memOk | apply memOk_foldl
        | apply memOk_foldl_work | apply memOk_foldl_fst | apply memOk_foldl_work_fst | apply memOk_ite | refine memOk_fst ?_ (by assumption)
        | refine memOk_snd ?_ (by assumption) | refine outMemOk_elim ?_ (by assumption))
    | (intro _ _ h; try dsimp only) | intro _ | extract_lets | split | (dsimp +zetaDelta only; split)
    | (unfold State.MemOk; dsimp only; apply memOk_mem) | exact h
theorem execPayload_memOk {s : State} (h : s.MemOk) (l : Fin 48) (flit : List Byte) : OutMemOk (execPayload l flit s) := by
  unfold execPayload
  extract_lets r
  repeat' first
    | (with_reducible first
        | assumption | apply State.receive_memOk | apply State.acceptFlit_memOk | apply memOk_foldl | apply memOk_foldl_work
        | apply memOk_foldl_fst | apply memOk_foldl_work_fst | apply memOk_ite | apply outMemOk_ite | apply outMemOk_next
        | refine memOk_fst ?_ (by assumption) | refine memOk_snd ?_ (by assumption) | refine outMemOk_elim ?_ (by assumption))
    | (intro _ _ h; try dsimp only) | intro _ | extract_lets | split | (dsimp +zetaDelta only; split)
    | (unfold State.MemOk; dsimp only; apply memOk_mem) | exact h
theorem State.handMessage_memOk {s : State} (h : s.MemOk) (l : Nat) (m : Inbound) : (s.handMessage l m).MemOk := by
  unfold State.handMessage
  extract_lets gid
  repeat' first
    | (with_reducible first
        | assumption | apply State.after_memOk | apply State.queueOn_memOk | apply State.ask_memOk | apply State.countStale_memOk
        | apply State.packageArrives_memOk | apply State.lateArrives_memOk | apply State.markBack_memOk | apply Work.write_memOk
        | apply Work.row_memOk | apply State.routeApplied_memOk | apply State.rowArrives_memOk | apply State.rowAsked_memOk
        | apply State.peerWrite_memOk | apply State.convApplied_memOk | apply State.peerHeld_memOk | apply State.joinArrives_memOk
        | apply State.stepArrives_memOk | apply memOk_foldl | apply memOk_ite)
    | (intro _ _ h; try dsimp only) | intro _ | extract_lets | split | (unfold State.MemOk; dsimp only; apply memOk_mem)
theorem State.handInbox_memOk {s : State} (h : s.MemOk) (l : Nat) : (s.handInbox l).MemOk := by
  unfold State.handInbox
  extract_lets blocked
  repeat' first
    | (with_reducible first
        | assumption | apply State.updLink_memOk | apply State.due_memOk | apply State.handMessage_memOk | apply memOk_foldl
        | apply memOk_foldl_work | apply memOk_foldl_fst | apply memOk_foldl_work_fst | apply memOk_ite | refine memOk_fst ?_ (by assumption)
        | refine memOk_snd ?_ (by assumption) | refine outMemOk_elim ?_ (by assumption))
    | (intro _ _ h; try dsimp only) | intro _ | extract_lets | split | (dsimp +zetaDelta only; split)
    | (unfold State.MemOk; dsimp only; apply memOk_mem) | exact h
theorem execLast_memOk {s : State} (h : s.MemOk) (l : Fin 48) (flit : LastFlit) : OutMemOk (execLast l flit s) := by
  unfold execLast
  extract_lets r
  repeat' first
    | (with_reducible first
        | assumption | apply State.updLink_memOk | apply State.sched_memOk | apply State.due_memOk | apply State.countStale_memOk
        | apply State.receive_memOk | apply State.acceptFlit_memOk | apply State.handInbox_memOk | apply memOk_foldl | apply memOk_foldl_work
        | apply memOk_foldl_fst | apply memOk_foldl_work_fst | apply memOk_ite | apply outMemOk_ite | apply outMemOk_next
        | refine memOk_fst ?_ (by assumption) | refine memOk_snd ?_ (by assumption) | refine outMemOk_elim ?_ (by assumption))
    | (intro _ _ h; try dsimp only) | intro _ | extract_lets | split | (dsimp +zetaDelta only; split)
    | (unfold State.MemOk; dsimp only; apply memOk_mem) | exact h
theorem execFlitSend_memOk {s : State} (h : s.MemOk) (l : Fin 48) : OutMemOk (execFlitSend l s) := by
  unfold execFlitSend
  extract_lets s1
  repeat' first
    | (with_reducible first
        | assumption | apply State.updLink_memOk | apply State.sendNext_memOk | apply State.handInbox_memOk | apply memOk_foldl
        | apply memOk_foldl_work | apply memOk_foldl_fst | apply memOk_foldl_work_fst | apply memOk_ite | apply outMemOk_ite | apply outMemOk_next
        | refine memOk_fst ?_ (by assumption) | refine memOk_snd ?_ (by assumption) | refine outMemOk_elim ?_ (by assumption))
    | (intro _ _ h; try dsimp only) | intro _ | extract_lets | split | (dsimp +zetaDelta only; split)
    | (unfold State.MemOk; dsimp only; apply memOk_mem) | exact h
theorem execNak_memOk {s : State} (h : s.MemOk) (l : Fin 48) (flit : List Byte) : OutMemOk (execNak l flit s) := by
  unfold execNak
  extract_lets r k
  repeat' first
    | (with_reducible first
        | assumption | apply State.toReplay_memOk | apply State.receive_memOk | apply memOk_foldl | apply memOk_foldl_work | apply memOk_foldl_fst
        | apply memOk_foldl_work_fst | apply memOk_ite | apply outMemOk_ite | apply outMemOk_next | refine memOk_fst ?_ (by assumption)
        | refine memOk_snd ?_ (by assumption) | refine outMemOk_elim ?_ (by assumption))
    | (intro _ _ h; try dsimp only) | intro _ | extract_lets | split | (dsimp +zetaDelta only; split)
    | (unfold State.MemOk; dsimp only; apply memOk_mem) | exact h
theorem execIdle_memOk {s : State} (h : s.MemOk) (l : Fin 48) (flit : List Byte) : OutMemOk (execIdle l flit s) := by
  unfold execIdle
  repeat' with_reducible first
    | assumption | apply State.receive_memOk | apply outMemOk_next
theorem execCrcFailure_memOk {s : State} (h : s.MemOk) (l : Fin 48) : OutMemOk (execCrcFailure l s) := by
  unfold execCrcFailure
  repeat' with_reducible first
    | assumption | apply State.badFlit_memOk | apply outMemOk_next
theorem execSlotid_memOk {s : State} (h : s.MemOk) (l : Fin 48) (flit : List Byte) : OutMemOk (execSlotid l flit s) := by
  unfold execSlotid
  extract_lets k
  repeat' first
    | (with_reducible first
        | assumption | apply State.updLink_memOk | apply State.takeHeader_memOk | apply State.badFlit_memOk | apply memOk_ite | apply outMemOk_ite
        | apply outMemOk_next)
    | (intro _ _ h; try dsimp only) | intro _ | extract_lets | split | (unfold State.MemOk; dsimp only; apply memOk_mem)
theorem execTickSend_memOk {s : State} (h : s.MemOk) (l : Fin 48) : OutMemOk (execTickSend l s) := by
  unfold execTickSend
  extract_lets k due f
  repeat' first
    | (with_reducible first
        | assumption | apply State.updLink_memOk | apply State.after_memOk | apply State.soon_memOk | apply State.due_memOk | apply memOk_ite
        | apply outMemOk_ite | apply outMemOk_next)
    | (intro _ _ h; try dsimp only) | intro _ | extract_lets | (unfold State.MemOk; dsimp only; apply memOk_mem)
theorem State.followTick_memOk {s : State} (h : s.MemOk) (l t : Nat) : (s.followTick l t).MemOk := by
  unfold State.followTick
  extract_lets k err
  repeat' first
    | (with_reducible first
        | assumption | apply State.updLink_memOk | apply memOk_ite)
    | (intro _ _ h; try dsimp only) | intro _ | extract_lets | (dsimp +zetaDelta only; split) | (unfold State.MemOk; dsimp only; apply memOk_mem)
    | exact h
theorem execTickFlit_memOk {s : State} (h : s.MemOk) (l : Fin 48) (flit : List Byte) (roundTrip : Nat) : OutMemOk (execTickFlit l flit roundTrip s) :=
    by
  unfold execTickFlit
  repeat' first
    | (with_reducible first
        | assumption | apply State.updLink_memOk | apply State.receive_memOk | apply State.followTick_memOk | apply memOk_ite | apply outMemOk_ite
        | apply outMemOk_next)
    | (intro _ _ h; try dsimp only) | intro _ | extract_lets | split | (unfold State.MemOk; dsimp only; apply memOk_mem)

/-! ### Boot -/

theorem State.cold_memOk {s : State} (h : s.MemOk) (on : Bool) : (s.cold on).MemOk := Mem.filter_wf _ h
theorem State.nextMeasure_memOk {s : State} (h : s.MemOk) : s.nextMeasure.MemOk := by
  unfold State.nextMeasure
  extract_lets other int s1
  have h_s1 : s1.MemOk := by
    try dsimp only [s1]
    repeat' first
      | (with_reducible first
          | assumption)
      | extract_lets | (unfold State.MemOk; dsimp only; apply memOk_mem)
  clear_value s1
  repeat' first
    | (with_reducible first
        | assumption | apply State.after_memOk | apply memOk_ite)
    | intro _
theorem State.powerOff_memOk {s : State} (h : s.MemOk) : s.powerOff.MemOk := by
  unfold State.powerOff
  repeat' with_reducible first
    | assumption | apply State.cold_memOk
theorem execPowerLoss_memOk {s : State} (h : s.MemOk) (millivolts micros : Nat) : OutMemOk (execPowerLoss millivolts micros s) := by
  unfold execPowerLoss
  repeat' first
    | (with_reducible first
        | assumption | apply State.powerOff_memOk | apply memOk_ite | apply outMemOk_ite | apply outMemOk_next)
    | intro _
theorem execOvertemperature_memOk {s : State} (h : s.MemOk) (die temp : Nat) : OutMemOk (execOvertemperature die temp s) := by
  unfold execOvertemperature
  repeat' first
    | (with_reducible first
        | assumption | apply State.powerOff_memOk | apply memOk_ite | apply outMemOk_ite | apply outMemOk_next)
    | intro _
theorem execColdStart_memOk {s : State} (h : s.MemOk) : OutMemOk (execColdStart s) := by
  unfold execColdStart
  repeat' with_reducible first
    | assumption | apply State.cold_memOk | apply outMemOk_next
theorem State.bootFail_memOk {s : State} (h : s.MemOk) (cause : Nat) : (s.bootFail cause).MemOk := by
  unfold State.bootFail
  repeat' first
    | (with_reducible first
        | assumption | apply State.updRegs_memOk)
    | (intro _ _ h; try dsimp only) | intro _ | extract_lets | (unfold State.MemOk; dsimp only; apply memOk_mem)
theorem State.bootCmd_memOk {s : State} (h : s.MemOk) : s.bootCmd.MemOk := by
  unfold State.bootCmd
  repeat' first
    | (with_reducible first
        | assumption | apply State.updRegs_memOk | apply State.after_memOk | apply memOk_ite)
    | (intro _ _ h; try dsimp only) | intro _ | extract_lets | (unfold State.MemOk; dsimp only; apply memOk_mem)
theorem execBoot_memOk {s : State} (h : s.MemOk) : OutMemOk (execBoot s) := by
  unfold execBoot
  repeat' with_reducible first
    | assumption | apply State.port_memOk | apply State.bootCmd_memOk | apply outMemOk_next
theorem execImageVerified_memOk {s : State} (h : s.MemOk) : OutMemOk (execImageVerified s) := by
  unfold execImageVerified
  refine outMemOk_ite (fun _ => h) fun _ => ?_
  extract_lets hb hd body
  clear_value hb hd body
  refine outMemOk_ite (fun _ => State.bootFail_memOk h _) fun _ => ?_
  refine outMemOk_ite (fun _ => State.bootFail_memOk h _) fun _ => ?_
  exact outMemOk_ite (fun _ => State.bootFail_memOk h _) fun _ => State.updRegs_memOk h _
theorem State.clear_memOk {s : State} (h : s.MemOk) : s.clear.MemOk := by
  have hs : ∀ l : List Nat, (l.foldl (fun (s : State) g => s.stopGroup g 3 0) s).MemOk := fun l =>
    memOk_foldl (fun _ _ h => State.stopGroup_memOk h _ _ _) h
  unfold State.clear
  exact hs _
theorem State.warm_memOk {s : State} (h : s.MemOk) : s.warm.MemOk := by
  unfold State.warm
  repeat' first
    | (with_reducible first
        | assumption | apply State.nextMeasure_memOk | apply State.clear_memOk | apply memOk_ite)
    | intro _
theorem execWarmReset_memOk {s : State} (h : s.MemOk) : OutMemOk (execWarmReset s) := by
  unfold execWarmReset
  repeat' with_reducible first
    | assumption | apply State.port_memOk | apply State.warm_memOk | apply outMemOk_next
theorem execFunctionLevelReset_memOk {s : State} (h : s.MemOk) : OutMemOk (execFunctionLevelReset s) := by
  unfold execFunctionLevelReset
  repeat' with_reducible first
    | assumption | apply State.warm_memOk | apply outMemOk_next
theorem execInitComplete_memOk {s : State} (h : s.MemOk) (hbmTrained : Bool) : OutMemOk (execInitComplete hbmTrained s) := by
  unfold execInitComplete
  repeat' first
    | (with_reducible first
        | assumption | apply State.updRegs_memOk | apply State.cold_memOk | apply State.nextMeasure_memOk | apply State.bootFail_memOk
        | apply memOk_ite | apply outMemOk_ite | apply outMemOk_next)
    | (intro _ _ h; try dsimp only) | intro _ | extract_lets | (unfold State.MemOk; dsimp only; apply memOk_mem)
theorem execSpdmRequest_memOk {s : State} (h : s.MemOk) (req : List Byte) : OutMemOk (execSpdmRequest req s) := by
  unfold execSpdmRequest
  repeat' first
    | (with_reducible first
        | assumption | apply State.updRegs_memOk | apply memOk_ite | apply outMemOk_ite | apply outMemOk_next)
    | (intro _ _ h; try dsimp only) | intro _ | extract_lets | (unfold State.MemOk; dsimp only; apply memOk_mem)

/-! ### Errors -/

theorem State.errRecord_memOk {s : State} (h : s.MemOk) (kind action gid unit pa : Nat) : (s.errRecord kind action gid unit pa).MemOk := by
  unfold State.errRecord
  extract_lets r
  repeat' first
    | (with_reducible first
        | assumption | apply State.updRegs_memOk | apply memOk_ite)
    | (intro _ _ h; try dsimp only) | intro _ | extract_lets | (unfold State.MemOk; dsimp only; apply memOk_mem)
theorem execCorrectableError_memOk {s : State} (h : s.MemOk) : OutMemOk (execCorrectableError s) := by
  unfold execCorrectableError
  repeat' first
    | (with_reducible first
        | assumption | apply State.updRegs_memOk | apply outMemOk_next)
    | (intro _ _ h; try dsimp only) | intro _ | extract_lets | (unfold State.MemOk; dsimp only; apply memOk_mem)
theorem State.contain_memOk {s : State} (h : s.MemOk) (c : Nat) : (s.contain c).1.MemOk := by
  unfold State.contain
  repeat' first
    | (with_reducible first
        | assumption | apply State.stopGroup_memOk | apply memOk_ite)
    | intro _ | extract_lets | split | (unfold State.MemOk; dsimp only; apply memOk_mem)
theorem State.fenceCore_memOk {s : State} (h : s.MemOk) (c : Nat) : (s.fenceCore c).1.MemOk := by
  unfold State.fenceCore
  split
  · exact h
  · exact State.contain_memOk (State.soon_memOk (s := { s with fenced := insertNat c s.fenced }) h _) _
theorem execCoreLogicCheck_memOk {s : State} (h : s.MemOk) (core : Fin 64) : OutMemOk (execCoreLogicCheck core s) := by
  unfold execCoreLogicCheck
  extract_lets r
  repeat' first
    | (with_reducible first
        | assumption | apply State.errRecord_memOk | apply State.fenceCore_memOk | apply memOk_foldl | apply memOk_foldl_work
        | apply memOk_foldl_fst | apply memOk_foldl_work_fst | apply memOk_ite | apply outMemOk_ite | apply outMemOk_next
        | refine memOk_fst ?_ (by assumption) | refine memOk_snd ?_ (by assumption) | refine outMemOk_elim ?_ (by assumption))
    | (intro _ _ h; try dsimp only) | intro _ | extract_lets | split | (dsimp +zetaDelta only; split)
    | (unfold State.MemOk; dsimp only; apply memOk_mem) | exact h
theorem State.rehome_memOk {s : State} (h : s.MemOk) (ps : List Piece) : (s.rehome ps).MemOk := by
  unfold State.rehome
  extract_lets out s1 ops
  have h_s1 : s1.MemOk := by
    try dsimp only [s1]
    repeat' first
      | (with_reducible first
          | assumption | apply State.updRidge_memOk | apply Work.map_memOk)
      | (intro _ _ h; try dsimp only) | intro _ | extract_lets | (unfold State.MemOk; dsimp only; apply memOk_mem)
  clear_value s1
  repeat' first
    | (with_reducible first
        | assumption | apply State.updRidge_memOk | apply State.placeCells_memOk | apply Work.map_memOk | apply memOk_foldl)
    | (intro _ _ h; try dsimp only) | intro _ | extract_lets | split | (unfold State.MemOk; dsimp only; apply memOk_mem)
theorem execEaveLogicCheck_memOk {s : State} (h : s.MemOk) (u : Fin 8) : OutMemOk (execEaveLogicCheck u s) := by
  unfold execEaveLogicCheck
  extract_lets n
  repeat' first
    | (with_reducible first
        | assumption | apply State.updRidge_memOk | apply Work.map_memOk | apply State.errRecord_memOk | apply State.rehome_memOk
        | apply memOk_ite | apply outMemOk_ite | apply outMemOk_next)
    | (intro _ _ h; try dsimp only) | intro _ | extract_lets | (unfold State.MemOk; dsimp only; apply memOk_mem)
theorem State.requeue_memOk {s : State} (h : s.MemOk) (p : Piece) : (s.requeue p).MemOk := by
  unfold State.requeue
  extract_lets q
  repeat' first
    | (with_reducible first
        | assumption | apply State.updRidge_memOk | apply State.bump_memOk)
    | (intro _ _ h; try dsimp only) | intro _ | extract_lets | (unfold State.MemOk; dsimp only; apply memOk_mem)
theorem execArrayLogicCheck_memOk {s : State} (h : s.MemOk) (a : Fin 4) : OutMemOk (execArrayLogicCheck a s) := by
  unfold execArrayLogicCheck
  extract_lets n
  repeat' first
    | (with_reducible first
        | assumption | apply State.updRidge_memOk | apply State.soon_memOk | apply Work.on_memOk | apply Work.map_memOk
        | apply State.errRecord_memOk | apply State.rehome_memOk | apply State.requeue_memOk | apply memOk_ite | apply outMemOk_ite
        | apply outMemOk_next)
    | (intro _ _ h; try dsimp only) | intro _ | extract_lets | split | (dsimp +zetaDelta only; split)
    | (unfold State.MemOk; dsimp only; apply memOk_mem) | exact h
theorem execLinkError_memOk {s : State} (h : s.MemOk) (l : Fin 48) : OutMemOk (execLinkError l s) := by
  unfold execLinkError
  extract_lets live
  repeat' first
    | (with_reducible first
        | assumption | apply State.linkFence_memOk | apply State.errRecord_memOk | apply memOk_ite | apply outMemOk_ite | apply outMemOk_next)
    | intro _
theorem State.fencePch_memOk {s : State} (h : s.MemOk) (key pa : Nat) : (s.fencePch key pa).MemOk := by
  unfold State.fencePch
  extract_lets n
  repeat' first
    | (with_reducible first
        | assumption | apply State.updRidge_memOk | apply State.errRecord_memOk | apply memOk_ite)
    | (intro _ _ h; try dsimp only) | intro _ | extract_lets | (unfold State.MemOk; dsimp only; apply memOk_mem)
theorem State.retire_memOk {s : State} (h : s.MemOk) (key pa : Nat) : (s.retire key pa).MemOk := by
  unfold State.retire
  repeat' first
    | (with_reducible first
        | assumption | apply State.updRidge_memOk | apply State.updRegs_memOk | apply State.fencePch_memOk | apply memOk_ite)
    | (intro _ _ h; try dsimp only) | intro _ | extract_lets | (unfold State.MemOk; dsimp only; apply memOk_mem)
theorem execUncorrectableError_memOk {s : State} (h : s.MemOk) (pa consumer kind : Nat) : OutMemOk (execUncorrectableError pa consumer kind s) := by
  unfold execUncorrectableError
  try dsimp only
  repeat' first
    | (with_reducible first
        | assumption | apply State.updRoute_memOk | apply State.soon_memOk | apply State.endColl_memOk | apply State.fenceCtx_memOk
        | apply Work.map_memOk | apply State.convEnd_memOk | apply State.faultChain_memOk | apply State.queueError_memOk
        | apply State.errRecord_memOk | apply State.contain_memOk | apply State.retire_memOk | apply memOk_ite | apply outMemOk_ite
        | apply outMemOk_next)
    | (intro _ _ h; try dsimp only) | intro _ | extract_lets | split | (dsimp +zetaDelta only; split)
    | (unfold State.MemOk; dsimp only; apply memOk_mem) | exact h
theorem State.setAge_memOk {s : State} (h : s.MemOk) (i : Nat) (w : Word) : (s.setAge i w).MemOk := by
  unfold State.setAge
  repeat' first
    | (with_reducible first
        | assumption | apply State.updRegs_memOk)
    | (intro _ _ h; try dsimp only) | intro _ | extract_lets | (unfold State.MemOk; dsimp only; apply memOk_mem)
theorem State.measureDie_memOk {s : State} (h : s.MemOk) (margins temps : List Nat) (i : Nat) : (s.measureDie margins temps i).MemOk := by
  unfold State.measureDie
  extract_lets w marg w1 due s1 s3 s2 cs r
  have h1 : s1.MemOk := State.setAge_memOk h _ _
  have h2 : s2.MemOk := by
    refine memOk_ite (fun _ => ?_) fun _ => h1
    have h3 : s3.MemOk := State.soon_memOk (State.updRegs_memOk h1 _) _
    exact memOk_ite (fun _ => State.after_memOk h3 _ _) fun _ => h3
  clear_value s2
  have h4 : r.1.MemOk := memOk_foldl_fst (fun _ _ h => State.fenceCore_memOk h _) h2
  exact memOk_ite (fun _ => State.errRecord_memOk h4 _ _ _ _ _) fun _ => h2
theorem State.measure_memOk {s : State} (h : s.MemOk) (margins temps : List Nat) : (s.measure margins temps).MemOk := by
  unfold State.measure
  extract_lets s1
  have h_s1 : s1.MemOk := by
    try dsimp only [s1]
    repeat' first
      | (with_reducible first
          | assumption | apply State.measureDie_memOk | apply memOk_foldl)
      | (intro _ _ h; try dsimp only) | intro _
  clear_value s1
  repeat' first
    | (with_reducible first
        | assumption | apply State.powerOff_memOk | apply memOk_ite)
    | (intro _ _ h; try dsimp only) | intro _
theorem State.measureNow_memOk {s : State} (h : s.MemOk) : s.measureNow.MemOk := by
  unfold State.measureNow
  extract_lets s1
  have h_s1 : s1.MemOk := by
    try dsimp only [s1]
    repeat' first
      | (with_reducible first
          | assumption)
      | extract_lets | (unfold State.MemOk; dsimp only; apply memOk_mem)
  clear_value s1
  repeat' with_reducible first
    | assumption | apply State.measure_memOk
theorem execMeasurement_memOk {s : State} (h : s.MemOk) (margins temps : List Nat) : OutMemOk (execMeasurement margins temps s) := by
  unfold execMeasurement
  repeat' first
    | (with_reducible first
        | assumption | apply State.nextMeasure_memOk | apply State.measure_memOk | apply State.measureNow_memOk | apply memOk_ite
        | apply outMemOk_ite | apply outMemOk_next)
    | intro _ | extract_lets
theorem execMeas_memOk {s : State} (h : s.MemOk) : OutMemOk (execMeas s) := by
  unfold execMeas
  repeat' first
    | (with_reducible first
        | assumption | apply State.measureNow_memOk | apply memOk_ite | apply outMemOk_ite | apply outMemOk_next)
    | intro _
theorem execAgewaitExpiry_memOk {s : State} (h : s.MemOk) (die : Fin 21) : OutMemOk (execAgewaitExpiry die s) := by
  unfold execAgewaitExpiry
  extract_lets d
  repeat' first
    | (with_reducible first
        | assumption | apply State.updRun_memOk | apply State.setAge_memOk | apply memOk_foldl | apply memOk_ite | apply outMemOk_ite
        | apply outMemOk_next)
    | (intro _ _ h; try dsimp only) | intro _ | extract_lets | (unfold State.MemOk; dsimp only; apply memOk_mem)
theorem execReplanPause_memOk {s : State} (h : s.MemOk) (die : Fin 21) : OutMemOk (execReplanPause die s) := by
  unfold execReplanPause
  extract_lets d w
  repeat' first
    | (with_reducible first
        | assumption | apply State.after_memOk | apply State.setAge_memOk | apply memOk_ite | apply outMemOk_ite | apply outMemOk_next)
    | (intro _ _ h; try dsimp only) | intro _ | extract_lets
theorem execPauseEnd_memOk {s : State} (h : s.MemOk) (die : Fin 21) : OutMemOk (execPauseEnd die s) := by
  unfold execPauseEnd
  extract_lets w
  repeat' first
    | (with_reducible first
        | assumption | apply State.soon_memOk | apply State.setAge_memOk | apply memOk_ite | apply outMemOk_ite | apply outMemOk_next)
    | intro _
theorem execPkgtelRefresh_memOk {s : State} (h : s.MemOk) (watts inlet outlet : Nat) : OutMemOk (execPkgtelRefresh watts inlet outlet s) := by
  unfold execPkgtelRefresh
  repeat' first
    | (with_reducible first
        | assumption | apply State.updRegs_memOk | apply outMemOk_next)
    | (intro _ _ h; try dsimp only) | intro _ | extract_lets | (unfold State.MemOk; dsimp only; apply memOk_mem)

/-! ### Command -/

theorem State.cmdEnd_memOk {s : State} (h : s.MemOk) (status : Nat) : (s.cmdEnd status).MemOk := by
  unfold State.cmdEnd
  repeat' first
    | (with_reducible first
        | assumption | apply State.updRegs_memOk | apply State.status_memOk)
    | (intro _ _ h; try dsimp only) | intro _ | extract_lets | (unfold State.MemOk; dsimp only; apply memOk_mem)
theorem State.doCreate_memOk {s : State} (h : s.MemOk) (c : Nat) : (s.doCreate c).MemOk := by
  unfold State.doCreate
  repeat' first
    | (with_reducible first
        | assumption | apply State.updCtx_memOk | apply State.dropXl_memOk | apply State.cmdEnd_memOk | apply memOk_ite)
    | (intro _ _ h; try dsimp only) | intro _ | extract_lets | split | (unfold State.MemOk; dsimp only; apply memOk_mem)
theorem State.askAll_memOk {s : State} (h : s.MemOk) (c : Nat) : (s.askAll c).MemOk := by
  unfold State.askAll
  repeat' first
    | (with_reducible first
        | assumption | apply State.updRun_memOk | apply memOk_foldl)
    | (intro _ _ h; try dsimp only) | intro _ | extract_lets | (unfold State.MemOk; dsimp only; apply memOk_mem)
theorem State.dropReaders_memOk {s : State} (h : s.MemOk) (c : Nat) : (s.dropReaders c).MemOk := by
  unfold State.dropReaders
  extract_lets leave
  repeat' first
    | (with_reducible first
        | assumption | apply State.updRidge_memOk | apply Work.map_memOk | apply State.exRetry_memOk)
    | (intro _ _ h; try dsimp only) | intro _ | extract_lets | (unfold State.MemOk; dsimp only; apply memOk_mem)
theorem State.doDestroy_memOk {s : State} (h : s.MemOk) (c : Nat) : (s.doDestroy c).MemOk := by
  unfold State.doDestroy
  extract_lets s1 late s2 s3 s4 s5
  have hl : ∀ (s : State) (g : Nat), s.MemOk → (late s g).MemOk := fun s g h => by
    dsimp only [late]
    split
    · exact memOk_ite (fun _ => h) fun _ => State.sendLate_memOk h _
    · exact h
  have h2 : s2.MemOk := memOk_foldl hl (State.updCtx_memOk h _ _)
  clear_value s2
  have h3 : s3.MemOk := State.cancelColls_memOk (State.cancelConvs_memOk (State.cancelChains_memOk (State.stopGroups_memOk h2 _) _) _) _
  clear_value s3
  exact State.destroyCheck_memOk (State.dropXl_memOk (State.updRidge_memOk (State.updCtx_memOk (State.dropReaders_memOk h3 _) _ _) _) _ _ _) _
theorem State.command_memOk {s : State} (h : s.MemOk) (c cmd : Nat) : (s.command c cmd).MemOk := by
  unfold State.command
  repeat' first
    | (with_reducible first
        | assumption | apply State.updCtx_memOk | apply State.updRegs_memOk | apply State.soon_memOk | apply State.ctxSettle_memOk
        | apply State.fenceCtx_memOk | apply State.cmdEnd_memOk | apply State.doCreate_memOk | apply State.askAll_memOk
        | apply State.doDestroy_memOk | apply memOk_ite)
    | (intro _ _ h; try dsimp only) | intro _ | extract_lets | split | (unfold State.MemOk; dsimp only; apply memOk_mem)
theorem State.ctxCommand_memOk {s : State} (h : s.MemOk) (c cmd : Nat) : (s.ctxCommand c cmd).MemOk := by
  unfold State.ctxCommand
  repeat' first
    | (with_reducible first
        | assumption | apply State.port_memOk | apply State.command_memOk)
    | (intro _ _ h; try dsimp only) | intro _
theorem execCreate_memOk {s : State} (h : s.MemOk) (c : Fin 64) : OutMemOk (execCreate c s) := by
  unfold execCreate
  repeat' with_reducible first
    | assumption | apply State.ctxCommand_memOk | apply outMemOk_next
theorem execActivate_memOk {s : State} (h : s.MemOk) (c : Fin 64) : OutMemOk (execActivate c s) := by
  unfold execActivate
  repeat' with_reducible first
    | assumption | apply State.ctxCommand_memOk | apply outMemOk_next
theorem execSuspend_memOk {s : State} (h : s.MemOk) (c : Fin 64) : OutMemOk (execSuspend c s) := by
  unfold execSuspend
  repeat' with_reducible first
    | assumption | apply State.ctxCommand_memOk | apply outMemOk_next
theorem execCtxResume_memOk {s : State} (h : s.MemOk) (c : Fin 64) : OutMemOk (execCtxResume c s) := by
  unfold execCtxResume
  repeat' with_reducible first
    | assumption | apply State.ctxCommand_memOk | apply outMemOk_next
theorem execCtxFence_memOk {s : State} (h : s.MemOk) (c : Fin 64) : OutMemOk (execCtxFence c s) := by
  unfold execCtxFence
  repeat' with_reducible first
    | assumption | apply State.ctxCommand_memOk | apply outMemOk_next
theorem execDestroy_memOk {s : State} (h : s.MemOk) (c : Fin 64) : OutMemOk (execDestroy c s) := by
  unfold execDestroy
  repeat' with_reducible first
    | assumption | apply State.ctxCommand_memOk | apply outMemOk_next
theorem execDestroyComplete_memOk {s : State} (h : s.MemOk) (c : Fin 64) : OutMemOk (execDestroyComplete c s) := by
  unfold execDestroyComplete
  repeat' first
    | (with_reducible first
        | assumption | apply State.updCtx_memOk | apply State.cmdEnd_memOk | apply memOk_ite | apply outMemOk_ite | apply outMemOk_next)
    | (intro _ _ h; try dsimp only) | intro _ | extract_lets

/-! ### Registers -/

theorem State.writeMesh_memOk {s : State} (h : s.MemOk) (v : Word) : (s.writeMesh v).MemOk := by
  unfold State.writeMesh
  extract_lets w
  repeat' first
    | (with_reducible first
        | assumption | apply State.updRegs_memOk | apply memOk_ite)
    | (intro _ _ h; try dsimp only) | intro _ | extract_lets | (unfold State.MemOk; dsimp only; apply memOk_mem)
theorem execMeshcfgWrite_memOk {s : State} (h : s.MemOk) (val : Word) : OutMemOk (execMeshcfgWrite val s) := by
  unfold execMeshcfgWrite
  repeat' with_reducible first
    | assumption | apply State.writeMesh_memOk | apply outMemOk_next
theorem State.writeL2qt_memOk {s : State} (h : s.MemOk) (v : Word) : (s.writeL2qt v).MemOk := by
  unfold State.writeL2qt
  extract_lets w
  repeat' first
    | (with_reducible first
        | assumption | apply State.updRegs_memOk | apply memOk_ite)
    | (intro _ _ h; try dsimp only) | intro _ | extract_lets | (unfold State.MemOk; dsimp only; apply memOk_mem)
theorem execL2qtWrite_memOk {s : State} (h : s.MemOk) (val : Word) : OutMemOk (execL2qtWrite val s) := by
  unfold execL2qtWrite
  repeat' with_reducible first
    | assumption | apply State.writeL2qt_memOk | apply outMemOk_next
theorem State.writeExcfg_memOk {s : State} (h : s.MemOk) (v : Word) : (s.writeExcfg v).MemOk := by
  unfold State.writeExcfg
  extract_lets log fits used
  repeat' first
    | (with_reducible first
        | assumption | apply State.updRidge_memOk | apply State.updRegs_memOk | apply memOk_ite)
    | (intro _ _ h; try dsimp only) | intro _ | extract_lets | (unfold State.MemOk; dsimp only; apply memOk_mem)
theorem execExcfgWrite_memOk {s : State} (h : s.MemOk) (val : Word) : OutMemOk (execExcfgWrite val s) := by
  unfold execExcfgWrite
  repeat' with_reducible first
    | assumption | apply State.writeExcfg_memOk | apply outMemOk_next
theorem State.writeGstale_memOk {s : State} (h : s.MemOk) (v : Word) : (s.writeGstale v).MemOk := by
  unfold State.writeGstale
  repeat' first
    | (with_reducible first
        | assumption | apply State.updRegs_memOk | apply memOk_ite)
    | (intro _ _ h; try dsimp only) | intro _ | extract_lets | (unfold State.MemOk; dsimp only; apply memOk_mem)
theorem execGstaleWrite_memOk {s : State} (h : s.MemOk) (val : Word) : OutMemOk (execGstaleWrite val s) := by
  unfold execGstaleWrite
  repeat' with_reducible first
    | assumption | apply State.writeGstale_memOk | apply outMemOk_next
theorem State.writeInvreq_memOk {s : State} (h : s.MemOk) (v : Word) : (s.writeInvreq v).MemOk := by
  unfold State.writeInvreq
  repeat' first
    | (with_reducible first
        | assumption | apply State.updRidge_memOk | apply State.updRegs_memOk | apply State.after_memOk | apply memOk_ite)
    | (intro _ _ h; try dsimp only) | intro _ | extract_lets | (unfold State.MemOk; dsimp only; apply memOk_mem)
theorem execInvreq_memOk {s : State} (h : s.MemOk) (val : Word) : OutMemOk (execInvreq val s) := by
  unfold execInvreq
  repeat' first
    | (with_reducible first
        | assumption | apply State.port_memOk | apply State.writeInvreq_memOk | apply outMemOk_next)
    | (intro _ _ h; try dsimp only) | intro _
theorem State.writeResume_memOk {s : State} (h : s.MemOk) (v : Word) : (s.writeResume v).MemOk := by
  unfold State.writeResume
  extract_lets r
  have h_r : r.1.MemOk := by
    try dsimp only [r]
    repeat' with_reducible first
      | assumption | apply State.frsm_memOk
  clear_value r
  repeat' first
    | (with_reducible first
        | assumption | apply State.updRegs_memOk | apply Work.map_memOk)
    | (intro _ _ h; try dsimp only) | intro _ | extract_lets | (unfold State.MemOk; dsimp only; apply memOk_mem)
theorem execResume_memOk {s : State} (h : s.MemOk) (val : Word) : OutMemOk (execResume val s) := by
  unfold execResume
  repeat' first
    | (with_reducible first
        | assumption | apply State.port_memOk | apply State.writeResume_memOk | apply outMemOk_next)
    | (intro _ _ h; try dsimp only) | intro _
theorem State.writeRstctl_memOk {s : State} (h : s.MemOk) (v : Word) : (s.writeRstctl v).MemOk := by
  unfold State.writeRstctl
  repeat' first
    | (with_reducible first
        | assumption | apply State.bootCmd_memOk | apply State.warm_memOk | apply memOk_ite)
    | intro _
theorem State.writeQueueReg_memOk {s : State} (h : s.MemOk) (q word : Nat) (v : Word) : (s.writeQueueReg q word v).MemOk := by
  unfold State.writeQueueReg
  repeat' first
    | (with_reducible first
        | assumption | apply State.updQueue_memOk | apply State.enableQueue_memOk | apply State.disableQueue_memOk | apply State.ringBell_memOk
        | apply memOk_ite)
    | (intro _ _ h; try dsimp only) | intro _ | extract_lets | split | (unfold State.MemOk; dsimp only; apply memOk_mem)
theorem State.writeLnkctl_memOk {s : State} (h : s.MemOk) (l : Nat) (v : Word) : (s.writeLnkctl l v).MemOk := by
  unfold State.writeLnkctl
  repeat' first
    | (with_reducible first
        | assumption | apply State.dropLink_memOk | apply State.linkTrain_memOk | apply State.linkFence_memOk)
    | extract_lets | split | (unfold State.MemOk; dsimp only; apply memOk_mem)
theorem State.writeLinkReg_memOk {s : State} (h : s.MemOk) (l word : Nat) (v : Word) : (s.writeLinkReg l word v).MemOk := by
  unfold State.writeLinkReg
  repeat' first
    | (with_reducible first
        | assumption | apply State.updLink_memOk | apply State.writeSltctl_memOk | apply State.writeLnkctl_memOk | apply memOk_ite)
    | (intro _ _ h; try dsimp only) | intro _ | extract_lets | split | (unfold State.MemOk; dsimp only; apply memOk_mem)
theorem State.writeSlotReg_memOk {s : State} (h : s.MemOk) (l i w : Nat) (v : Word) : (s.writeSlotReg l i w v).MemOk := by
  unfold State.writeSlotReg
  extract_lets k e keep0 keep1
  repeat' first
    | (with_reducible first
        | assumption | apply State.updLink_memOk | apply memOk_ite)
    | (intro _ _ h; try dsimp only) | intro _ | extract_lets | (unfold State.MemOk; dsimp only; apply memOk_mem)
theorem State.writeClaims_memOk {s : State} (h : s.MemOk) (n : Nat) (v : Word) : (s.writeClaims n v).MemOk := by
  unfold State.writeClaims
  repeat' first
    | (with_reducible first
        | assumption | apply State.updRidge_memOk | apply memOk_foldl)
    | (intro _ _ h; try dsimp only) | intro _ | extract_lets | (unfold State.MemOk; dsimp only; apply memOk_mem)
theorem State.writeRettab_memOk {s : State} (h : s.MemOk) (v : Word) : (s.writeRettab v).MemOk := by
  unfold State.writeRettab
  extract_lets f
  repeat' first
    | (with_reducible first
        | assumption | apply State.updRegs_memOk | apply memOk_ite)
    | (intro _ _ h; try dsimp only) | intro _ | extract_lets | (unfold State.MemOk; dsimp only; apply memOk_mem)
theorem State.writeAgecfg_memOk {s : State} (h : s.MemOk) (v : Word) : (s.writeAgecfg v).MemOk := by
  unfold State.writeAgecfg
  extract_lets s1
  have h_s1 : s1.MemOk := by
    try dsimp only [s1]
    repeat' first
      | (with_reducible first
          | assumption | apply State.updRegs_memOk | apply State.nextMeasure_memOk)
      | (intro _ _ h; try dsimp only) | intro _ | extract_lets | (unfold State.MemOk; dsimp only; apply memOk_mem)
  clear_value s1
  repeat' first
    | (with_reducible first
        | assumption | apply State.measureNow_memOk | apply memOk_ite)
    | intro _
theorem State.writeTop_memOk {s : State} (h : s.MemOk) (off : Nat) (v : Word) : (s.writeTop off v).MemOk := by
  unfold State.writeTop
  repeat' first
    | (with_reducible first
        | assumption | apply State.updRegs_memOk | apply State.command_memOk | apply State.writeMesh_memOk | apply State.writeL2qt_memOk
        | apply State.writeExcfg_memOk | apply State.writeGstale_memOk | apply State.writeInvreq_memOk | apply State.writeResume_memOk
        | apply State.writeRstctl_memOk | apply State.writeAgecfg_memOk)
    | (intro _ _ h; try dsimp only) | intro _ | extract_lets | split | (unfold State.MemOk; dsimp only; apply memOk_mem)
theorem State.writeBuffer_memOk {s : State} (h : s.MemOk) (off : Nat) (v : Word) : (s.writeBuffer off v).MemOk := by
  unfold State.writeBuffer
  repeat' first
    | (with_reducible first
        | assumption | apply State.updRegs_memOk | apply Work.write_memOk | apply memOk_ite)
    | (intro _ _ h; try dsimp only) | intro _ | extract_lets | (unfold State.MemOk; dsimp only; apply memOk_mem)
theorem State.writeReg_memOk {s : State} (h : s.MemOk) (off : Nat) (v : Word) : (s.writeReg off v).MemOk := by
  unfold State.writeReg
  repeat' first
    | (with_reducible first
        | assumption | apply State.updCtx_memOk | apply State.updRegs_memOk | apply State.updXch_memOk | apply Coll.own_memOk
        | apply State.writeQueueReg_memOk | apply State.writeLinkReg_memOk | apply State.writeSlotReg_memOk | apply State.writeClaims_memOk
        | apply State.writeRettab_memOk | apply State.writeTop_memOk | apply State.writeBuffer_memOk | apply memOk_ite)
    | (intro _ _ h; try dsimp only) | intro _ | extract_lets | (unfold State.MemOk; dsimp only; apply memOk_mem)
theorem execRegisterWrite_memOk {s : State} (h : s.MemOk) (off : Nat) (val : Word) : OutMemOk (execRegisterWrite off val s) := by
  unfold execRegisterWrite
  repeat' first
    | (with_reducible first
        | assumption | apply State.port_memOk | apply State.writeReg_memOk | apply memOk_ite | apply outMemOk_ite | apply outMemOk_next)
    | (intro _ _ h; try dsimp only) | intro _
theorem execHostMemRead_memOk {s : State} (h : s.MemOk) (pa len : Nat) : OutMemOk (execHostMemRead pa len s) := by
  unfold execHostMemRead
  repeat' first
    | (with_reducible first
        | assumption | apply State.updRegs_memOk | apply State.agentRead_memOk | apply memOk_ite | apply outMemOk_ite | apply outMemOk_next)
    | (intro _ _ h; try dsimp only) | intro _ | extract_lets | (unfold State.MemOk; dsimp only; apply memOk_mem)
theorem execHostMemWrite_memOk {s : State} (h : s.MemOk) (pa : Nat) (bytes : List Byte) : OutMemOk (execHostMemWrite pa bytes s) := by
  unfold execHostMemWrite
  repeat' first
    | (with_reducible first
        | assumption | apply State.agentWrite_memOk | apply memOk_ite | apply outMemOk_ite | apply outMemOk_next)
    | intro _
end Sys2Proof.Machine
end

