-- ==== Sys2Proof/Laws/State.lean ====
section
/-! SUPPORT. What each update of the state leaves: one lemma per field per update, and reading back what was written. -/

namespace Sys2Proof.Machine

/-! ### Tables -/

/-- Reading the entry just set. -/
@[simp] theorem Tbl.get_set_self {α : Type} (t : Tbl α) (k : Nat) (v : α) : Tbl.get (Tbl.set t k v) k = some v := by
  induction t with
  | nil => simp [Tbl.set, Tbl.get]
  | cons e t ih =>
    obtain ⟨j, w⟩ := e
    by_cases h1 : j < k
    · have h2 : j ≠ k := by omega
      have h3 : ¬ j > k := by omega
      simp [Tbl.set, Tbl.get, h1, h2, h3, ih]
    · by_cases h2 : j = k
      · simp [Tbl.set, Tbl.get, h2]
      · simp [Tbl.set, Tbl.get, h1, h2]

/-- Reading another entry. -/
theorem Tbl.get_set_of_ne {α : Type} (t : Tbl α) {j k : Nat} (v : α) (h : j ≠ k) :
    Tbl.get (Tbl.set t k v) j = Tbl.get t j := by
  induction t with
  | nil =>
    have h' : k ≠ j := Ne.symm h
    by_cases h2 : k > j <;> simp [Tbl.set, Tbl.get, h', h2]
  | cons e t ih =>
    obtain ⟨i, w⟩ := e
    by_cases h1 : i < k
    · simp [Tbl.set, Tbl.get, h1, ih]
    · by_cases h2 : i = k
      · subst h2
        have h' : i ≠ j := Ne.symm h
        simp [Tbl.set, Tbl.get, h']
      · have h3 : k ≠ j := Ne.symm h
        by_cases h4 : k > j
        · have h5 : i ≠ j := by omega
          have h6 : i > j := by omega
          simp [Tbl.set, Tbl.get, h1, h2, h3, h4, h5, h6]
        · simp [Tbl.set, Tbl.get, h1, h2, h3, h4]

/-- An entry with a default after a set. -/
@[simp] theorem Tbl.getD_set_self {α : Type} (t : Tbl α) (k : Nat) (v d : α) : Tbl.getD (Tbl.set t k v) k d = v := by
  simp [Tbl.getD]

/-- Another entry with a default after a set. -/
theorem Tbl.getD_set_of_ne {α : Type} (t : Tbl α) {j k : Nat} (v d : α) (h : j ≠ k) :
    Tbl.getD (Tbl.set t k v) j d = Tbl.getD t j d := by
  simp [Tbl.getD, Tbl.get_set_of_ne t v h]

/-- Setting an entry twice. -/
@[simp] theorem Tbl.set_set {α : Type} (t : Tbl α) (k : Nat) (v w : α) : Tbl.set (Tbl.set t k v) k w = Tbl.set t k w := by
  induction t with
  | nil => simp [Tbl.set]
  | cons e t ih =>
    obtain ⟨i, u⟩ := e
    by_cases h1 : i < k
    · simp [Tbl.set, h1, ih]
    · by_cases h2 : i = k <;> simp [Tbl.set, h1, h2]


/-! ### setCore -/

@[simp] theorem State.setCore_now (s : State) (c : Nat) (k : Core) : (s.setCore c k).now = s.now := rfl
@[simp] theorem State.setCore_ftick (s : State) (c : Nat) (k : Core) : (s.setCore c k).ftick = s.ftick := rfl
@[simp] theorem State.setCore_tfrac (s : State) (c : Nat) (k : Core) : (s.setCore c k).tfrac = s.tfrac := rfl
@[simp] theorem State.setCore_thold (s : State) (c : Nat) (k : Core) : (s.setCore c k).thold = s.thold := rfl
@[simp] theorem State.setCore_tadj (s : State) (c : Nat) (k : Core) : (s.setCore c k).tadj = s.tadj := rfl
@[simp] theorem State.setCore_tlast (s : State) (c : Nat) (k : Core) : (s.setCore c k).tlast = s.tlast := rfl
@[simp] theorem State.setCore_phase (s : State) (c : Nat) (k : Core) : (s.setCore c k).phase = s.phase := rfl
@[simp] theorem State.setCore_agenda (s : State) (c : Nat) (k : Core) : (s.setCore c k).agenda = s.agenda := rfl
@[simp] theorem State.setCore_inputs (s : State) (c : Nat) (k : Core) : (s.setCore c k).inputs = s.inputs := rfl
@[simp] theorem State.setCore_nextId (s : State) (c : Nat) (k : Core) : (s.setCore c k).nextId = s.nextId := rfl
@[simp] theorem State.setCore_freeCtr (s : State) (c : Nat) (k : Core) : (s.setCore c k).freeCtr = s.freeCtr := rfl
@[simp] theorem State.setCore_powered (s : State) (c : Nat) (k : Core) : (s.setCore c k).powered = s.powered := rfl
@[simp] theorem State.setCore_lasers (s : State) (c : Nat) (k : Core) : (s.setCore c k).lasers = s.lasers := rfl
@[simp] theorem State.setCore_fenced (s : State) (c : Nat) (k : Core) : (s.setCore c k).fenced = s.fenced := rfl
@[simp] theorem State.setCore_dies (s : State) (c : Nat) (k : Core) : (s.setCore c k).dies = s.dies := rfl
@[simp] theorem State.setCore_agents (s : State) (c : Nat) (k : Core) : (s.setCore c k).agents = s.agents := rfl
@[simp] theorem State.setCore_stamps (s : State) (c : Nat) (k : Core) : (s.setCore c k).stamps = s.stamps := rfl
@[simp] theorem State.setCore_flights (s : State) (c : Nat) (k : Core) : (s.setCore c k).flights = s.flights := rfl
@[simp] theorem State.setCore_ctxs (s : State) (c : Nat) (k : Core) : (s.setCore c k).ctxs = s.ctxs := rfl
@[simp] theorem State.setCore_queues (s : State) (c : Nat) (k : Core) : (s.setCore c k).queues = s.queues := rfl
@[simp] theorem State.setCore_classPtr (s : State) (c : Nat) (k : Core) : (s.setCore c k).classPtr = s.classPtr := rfl
@[simp] theorem State.setCore_classOn (s : State) (c : Nat) (k : Core) : (s.setCore c k).classOn = s.classOn := rfl
@[simp] theorem State.setCore_nextStart (s : State) (c : Nat) (k : Core) : (s.setCore c k).nextStart = s.nextStart := rfl
@[simp] theorem State.setCore_keep (s : State) (c : Nat) (k : Core) : (s.setCore c k).keep = s.keep := rfl
@[simp] theorem State.setCore_grps (s : State) (c : Nat) (k : Core) : (s.setCore c k).grps = s.grps := rfl
@[simp] theorem State.setCore_ridge (s : State) (c : Nat) (k : Core) : (s.setCore c k).ridge = s.ridge := rfl
@[simp] theorem State.setCore_links (s : State) (c : Nat) (k : Core) : (s.setCore c k).links = s.links := rfl
@[simp] theorem State.setCore_regs (s : State) (c : Nat) (k : Core) : (s.setCore c k).regs = s.regs := rfl
@[simp] theorem State.setCore_mem (s : State) (c : Nat) (k : Core) : (s.setCore c k).mem = s.mem := rfl
@[simp] theorem State.setCore_die (s : State) (c : Nat) (k : Core) (j : Nat) : (s.setCore c k).die j = s.die j := rfl
@[simp] theorem State.setCore_agent (s : State) (c : Nat) (k : Core) (j : Nat) : (s.setCore c k).agent j = s.agent j := rfl
@[simp] theorem State.setCore_ctx (s : State) (c : Nat) (k : Core) (j : Nat) : (s.setCore c k).ctx j = s.ctx j := rfl
@[simp] theorem State.setCore_queue (s : State) (c : Nat) (k : Core) (j : Nat) : (s.setCore c k).queue j = s.queue j := rfl
@[simp] theorem State.setCore_grp (s : State) (c : Nat) (k : Core) (j : Nat) : (s.setCore c k).grp j = s.grp j := rfl
@[simp] theorem State.setCore_link (s : State) (c : Nat) (k : Core) (j : Nat) : (s.setCore c k).link j = s.link j := rfl
@[simp] theorem State.setCore_xch (s : State) (c : Nat) (k : Core) (j : Nat) : (s.setCore c k).xch j = s.xch j := rfl
@[simp] theorem State.setCore_eslot (s : State) (c : Nat) (k : Core) (j : Nat) : (s.setCore c k).eslot j = s.eslot j := rfl
@[simp] theorem State.setCore_route (s : State) (c : Nat) (k : Core) (j k' : Nat) : (s.setCore c k).route j k' = s.route j k' := rfl
@[simp] theorem State.setCore_plent (s : State) (c : Nat) (k : Core) (j k' : Nat) : (s.setCore c k).plent j k' = s.plent j k' := rfl
@[simp] theorem State.setCore_slab (s : State) (c : Nat) (k : Core) (j k' : Nat) : (s.setCore c k).slab j k' = s.slab j k' := rfl
@[simp] theorem State.setCore_self (s : State) (c : Nat) (k : Core) : (s.setCore c k).core c = k := by simp [State.setCore, State.core]
theorem State.setCore_of_ne (s : State) {j c : Nat} (k : Core) (h : j ≠ c) : (s.setCore c k).core j = s.core j := by
  simp [State.setCore, State.core, Tbl.getD_set_of_ne _ _ _ h]
@[simp] theorem State.setCore_setCore (s : State) (c : Nat) (k l : Core) : (s.setCore c k).setCore c l = s.setCore c l := by simp [State.setCore]

/-! ### updCore -/

@[simp] theorem State.updCore_now (s : State) (c : Nat) (f : Core → Core) : (s.updCore c f).now = s.now := rfl
@[simp] theorem State.updCore_ftick (s : State) (c : Nat) (f : Core → Core) : (s.updCore c f).ftick = s.ftick := rfl
@[simp] theorem State.updCore_tfrac (s : State) (c : Nat) (f : Core → Core) : (s.updCore c f).tfrac = s.tfrac := rfl
@[simp] theorem State.updCore_thold (s : State) (c : Nat) (f : Core → Core) : (s.updCore c f).thold = s.thold := rfl
@[simp] theorem State.updCore_tadj (s : State) (c : Nat) (f : Core → Core) : (s.updCore c f).tadj = s.tadj := rfl
@[simp] theorem State.updCore_tlast (s : State) (c : Nat) (f : Core → Core) : (s.updCore c f).tlast = s.tlast := rfl
@[simp] theorem State.updCore_phase (s : State) (c : Nat) (f : Core → Core) : (s.updCore c f).phase = s.phase := rfl
@[simp] theorem State.updCore_agenda (s : State) (c : Nat) (f : Core → Core) : (s.updCore c f).agenda = s.agenda := rfl
@[simp] theorem State.updCore_inputs (s : State) (c : Nat) (f : Core → Core) : (s.updCore c f).inputs = s.inputs := rfl
@[simp] theorem State.updCore_nextId (s : State) (c : Nat) (f : Core → Core) : (s.updCore c f).nextId = s.nextId := rfl
@[simp] theorem State.updCore_freeCtr (s : State) (c : Nat) (f : Core → Core) : (s.updCore c f).freeCtr = s.freeCtr := rfl
@[simp] theorem State.updCore_powered (s : State) (c : Nat) (f : Core → Core) : (s.updCore c f).powered = s.powered := rfl
@[simp] theorem State.updCore_lasers (s : State) (c : Nat) (f : Core → Core) : (s.updCore c f).lasers = s.lasers := rfl
@[simp] theorem State.updCore_fenced (s : State) (c : Nat) (f : Core → Core) : (s.updCore c f).fenced = s.fenced := rfl
@[simp] theorem State.updCore_dies (s : State) (c : Nat) (f : Core → Core) : (s.updCore c f).dies = s.dies := rfl
@[simp] theorem State.updCore_agents (s : State) (c : Nat) (f : Core → Core) : (s.updCore c f).agents = s.agents := rfl
@[simp] theorem State.updCore_stamps (s : State) (c : Nat) (f : Core → Core) : (s.updCore c f).stamps = s.stamps := rfl
@[simp] theorem State.updCore_flights (s : State) (c : Nat) (f : Core → Core) : (s.updCore c f).flights = s.flights := rfl
@[simp] theorem State.updCore_ctxs (s : State) (c : Nat) (f : Core → Core) : (s.updCore c f).ctxs = s.ctxs := rfl
@[simp] theorem State.updCore_queues (s : State) (c : Nat) (f : Core → Core) : (s.updCore c f).queues = s.queues := rfl
@[simp] theorem State.updCore_classPtr (s : State) (c : Nat) (f : Core → Core) : (s.updCore c f).classPtr = s.classPtr := rfl
@[simp] theorem State.updCore_classOn (s : State) (c : Nat) (f : Core → Core) : (s.updCore c f).classOn = s.classOn := rfl
@[simp] theorem State.updCore_nextStart (s : State) (c : Nat) (f : Core → Core) : (s.updCore c f).nextStart = s.nextStart := rfl
@[simp] theorem State.updCore_keep (s : State) (c : Nat) (f : Core → Core) : (s.updCore c f).keep = s.keep := rfl
@[simp] theorem State.updCore_grps (s : State) (c : Nat) (f : Core → Core) : (s.updCore c f).grps = s.grps := rfl
@[simp] theorem State.updCore_ridge (s : State) (c : Nat) (f : Core → Core) : (s.updCore c f).ridge = s.ridge := rfl
@[simp] theorem State.updCore_links (s : State) (c : Nat) (f : Core → Core) : (s.updCore c f).links = s.links := rfl
@[simp] theorem State.updCore_regs (s : State) (c : Nat) (f : Core → Core) : (s.updCore c f).regs = s.regs := rfl
@[simp] theorem State.updCore_mem (s : State) (c : Nat) (f : Core → Core) : (s.updCore c f).mem = s.mem := rfl
@[simp] theorem State.updCore_die (s : State) (c : Nat) (f : Core → Core) (j : Nat) : (s.updCore c f).die j = s.die j := rfl
@[simp] theorem State.updCore_agent (s : State) (c : Nat) (f : Core → Core) (j : Nat) : (s.updCore c f).agent j = s.agent j := rfl
@[simp] theorem State.updCore_ctx (s : State) (c : Nat) (f : Core → Core) (j : Nat) : (s.updCore c f).ctx j = s.ctx j := rfl
@[simp] theorem State.updCore_queue (s : State) (c : Nat) (f : Core → Core) (j : Nat) : (s.updCore c f).queue j = s.queue j := rfl
@[simp] theorem State.updCore_grp (s : State) (c : Nat) (f : Core → Core) (j : Nat) : (s.updCore c f).grp j = s.grp j := rfl
@[simp] theorem State.updCore_link (s : State) (c : Nat) (f : Core → Core) (j : Nat) : (s.updCore c f).link j = s.link j := rfl
@[simp] theorem State.updCore_xch (s : State) (c : Nat) (f : Core → Core) (j : Nat) : (s.updCore c f).xch j = s.xch j := rfl
@[simp] theorem State.updCore_eslot (s : State) (c : Nat) (f : Core → Core) (j : Nat) : (s.updCore c f).eslot j = s.eslot j := rfl
@[simp] theorem State.updCore_route (s : State) (c : Nat) (f : Core → Core) (j k' : Nat) : (s.updCore c f).route j k' = s.route j k' := rfl
@[simp] theorem State.updCore_plent (s : State) (c : Nat) (f : Core → Core) (j k' : Nat) : (s.updCore c f).plent j k' = s.plent j k' := rfl
@[simp] theorem State.updCore_slab (s : State) (c : Nat) (f : Core → Core) (j k' : Nat) : (s.updCore c f).slab j k' = s.slab j k' := rfl
@[simp] theorem State.updCore_self (s : State) (c : Nat) (f : Core → Core) : (s.updCore c f).core c = f (s.core c) := by simp [State.updCore, State.setCore, State.core]
theorem State.updCore_of_ne (s : State) {j c : Nat} (f : Core → Core) (h : j ≠ c) : (s.updCore c f).core j = s.core j := by
  simp [State.updCore, State.setCore, State.core, Tbl.getD_set_of_ne _ _ _ h]
theorem State.updCore_eq (s : State) (c : Nat) (f : Core → Core) : s.updCore c f = s.setCore c (f (s.core c)) := rfl
@[simp] theorem State.updCore_updCore (s : State) (c : Nat) (f g : Core → Core) : (s.updCore c f).updCore c g = s.updCore c (fun k => g (f k)) := by
  simp [State.updCore_eq]

/-! ### updDie -/

@[simp] theorem State.updDie_now (s : State) (d : Nat) (f : Die → Die) : (s.updDie d f).now = s.now := rfl
@[simp] theorem State.updDie_ftick (s : State) (d : Nat) (f : Die → Die) : (s.updDie d f).ftick = s.ftick := rfl
@[simp] theorem State.updDie_tfrac (s : State) (d : Nat) (f : Die → Die) : (s.updDie d f).tfrac = s.tfrac := rfl
@[simp] theorem State.updDie_thold (s : State) (d : Nat) (f : Die → Die) : (s.updDie d f).thold = s.thold := rfl
@[simp] theorem State.updDie_tadj (s : State) (d : Nat) (f : Die → Die) : (s.updDie d f).tadj = s.tadj := rfl
@[simp] theorem State.updDie_tlast (s : State) (d : Nat) (f : Die → Die) : (s.updDie d f).tlast = s.tlast := rfl
@[simp] theorem State.updDie_phase (s : State) (d : Nat) (f : Die → Die) : (s.updDie d f).phase = s.phase := rfl
@[simp] theorem State.updDie_agenda (s : State) (d : Nat) (f : Die → Die) : (s.updDie d f).agenda = s.agenda := rfl
@[simp] theorem State.updDie_inputs (s : State) (d : Nat) (f : Die → Die) : (s.updDie d f).inputs = s.inputs := rfl
@[simp] theorem State.updDie_nextId (s : State) (d : Nat) (f : Die → Die) : (s.updDie d f).nextId = s.nextId := rfl
@[simp] theorem State.updDie_freeCtr (s : State) (d : Nat) (f : Die → Die) : (s.updDie d f).freeCtr = s.freeCtr := rfl
@[simp] theorem State.updDie_powered (s : State) (d : Nat) (f : Die → Die) : (s.updDie d f).powered = s.powered := rfl
@[simp] theorem State.updDie_lasers (s : State) (d : Nat) (f : Die → Die) : (s.updDie d f).lasers = s.lasers := rfl
@[simp] theorem State.updDie_cores (s : State) (d : Nat) (f : Die → Die) : (s.updDie d f).cores = s.cores := rfl
@[simp] theorem State.updDie_fenced (s : State) (d : Nat) (f : Die → Die) : (s.updDie d f).fenced = s.fenced := rfl
@[simp] theorem State.updDie_agents (s : State) (d : Nat) (f : Die → Die) : (s.updDie d f).agents = s.agents := rfl
@[simp] theorem State.updDie_stamps (s : State) (d : Nat) (f : Die → Die) : (s.updDie d f).stamps = s.stamps := rfl
@[simp] theorem State.updDie_flights (s : State) (d : Nat) (f : Die → Die) : (s.updDie d f).flights = s.flights := rfl
@[simp] theorem State.updDie_ctxs (s : State) (d : Nat) (f : Die → Die) : (s.updDie d f).ctxs = s.ctxs := rfl
@[simp] theorem State.updDie_queues (s : State) (d : Nat) (f : Die → Die) : (s.updDie d f).queues = s.queues := rfl
@[simp] theorem State.updDie_classPtr (s : State) (d : Nat) (f : Die → Die) : (s.updDie d f).classPtr = s.classPtr := rfl
@[simp] theorem State.updDie_classOn (s : State) (d : Nat) (f : Die → Die) : (s.updDie d f).classOn = s.classOn := rfl
@[simp] theorem State.updDie_nextStart (s : State) (d : Nat) (f : Die → Die) : (s.updDie d f).nextStart = s.nextStart := rfl
@[simp] theorem State.updDie_keep (s : State) (d : Nat) (f : Die → Die) : (s.updDie d f).keep = s.keep := rfl
@[simp] theorem State.updDie_grps (s : State) (d : Nat) (f : Die → Die) : (s.updDie d f).grps = s.grps := rfl
@[simp] theorem State.updDie_ridge (s : State) (d : Nat) (f : Die → Die) : (s.updDie d f).ridge = s.ridge := rfl
@[simp] theorem State.updDie_links (s : State) (d : Nat) (f : Die → Die) : (s.updDie d f).links = s.links := rfl
@[simp] theorem State.updDie_regs (s : State) (d : Nat) (f : Die → Die) : (s.updDie d f).regs = s.regs := rfl
@[simp] theorem State.updDie_mem (s : State) (d : Nat) (f : Die → Die) : (s.updDie d f).mem = s.mem := rfl
@[simp] theorem State.updDie_core (s : State) (d : Nat) (f : Die → Die) (j : Nat) : (s.updDie d f).core j = s.core j := rfl
@[simp] theorem State.updDie_agent (s : State) (d : Nat) (f : Die → Die) (j : Nat) : (s.updDie d f).agent j = s.agent j := rfl
@[simp] theorem State.updDie_ctx (s : State) (d : Nat) (f : Die → Die) (j : Nat) : (s.updDie d f).ctx j = s.ctx j := rfl
@[simp] theorem State.updDie_queue (s : State) (d : Nat) (f : Die → Die) (j : Nat) : (s.updDie d f).queue j = s.queue j := rfl
@[simp] theorem State.updDie_grp (s : State) (d : Nat) (f : Die → Die) (j : Nat) : (s.updDie d f).grp j = s.grp j := rfl
@[simp] theorem State.updDie_link (s : State) (d : Nat) (f : Die → Die) (j : Nat) : (s.updDie d f).link j = s.link j := rfl
@[simp] theorem State.updDie_xch (s : State) (d : Nat) (f : Die → Die) (j : Nat) : (s.updDie d f).xch j = s.xch j := rfl
@[simp] theorem State.updDie_eslot (s : State) (d : Nat) (f : Die → Die) (j : Nat) : (s.updDie d f).eslot j = s.eslot j := rfl
@[simp] theorem State.updDie_route (s : State) (d : Nat) (f : Die → Die) (j k' : Nat) : (s.updDie d f).route j k' = s.route j k' := rfl
@[simp] theorem State.updDie_plent (s : State) (d : Nat) (f : Die → Die) (j k' : Nat) : (s.updDie d f).plent j k' = s.plent j k' := rfl
@[simp] theorem State.updDie_slab (s : State) (d : Nat) (f : Die → Die) (j k' : Nat) : (s.updDie d f).slab j k' = s.slab j k' := rfl
@[simp] theorem State.updDie_self (s : State) (d : Nat) (f : Die → Die) : (s.updDie d f).die d = f (s.die d) := by simp [State.updDie, State.die]
theorem State.updDie_of_ne (s : State) {j d : Nat} (f : Die → Die) (h : j ≠ d) : (s.updDie d f).die j = s.die j := by
  simp [State.updDie, State.die, Tbl.getD_set_of_ne _ _ _ h]

/-! ### updAgent -/

@[simp] theorem State.updAgent_now (s : State) (a : Nat) (f : Agent → Agent) : (s.updAgent a f).now = s.now := rfl
@[simp] theorem State.updAgent_ftick (s : State) (a : Nat) (f : Agent → Agent) : (s.updAgent a f).ftick = s.ftick := rfl
@[simp] theorem State.updAgent_tfrac (s : State) (a : Nat) (f : Agent → Agent) : (s.updAgent a f).tfrac = s.tfrac := rfl
@[simp] theorem State.updAgent_thold (s : State) (a : Nat) (f : Agent → Agent) : (s.updAgent a f).thold = s.thold := rfl
@[simp] theorem State.updAgent_tadj (s : State) (a : Nat) (f : Agent → Agent) : (s.updAgent a f).tadj = s.tadj := rfl
@[simp] theorem State.updAgent_tlast (s : State) (a : Nat) (f : Agent → Agent) : (s.updAgent a f).tlast = s.tlast := rfl
@[simp] theorem State.updAgent_phase (s : State) (a : Nat) (f : Agent → Agent) : (s.updAgent a f).phase = s.phase := rfl
@[simp] theorem State.updAgent_agenda (s : State) (a : Nat) (f : Agent → Agent) : (s.updAgent a f).agenda = s.agenda := rfl
@[simp] theorem State.updAgent_inputs (s : State) (a : Nat) (f : Agent → Agent) : (s.updAgent a f).inputs = s.inputs := rfl
@[simp] theorem State.updAgent_nextId (s : State) (a : Nat) (f : Agent → Agent) : (s.updAgent a f).nextId = s.nextId := rfl
@[simp] theorem State.updAgent_freeCtr (s : State) (a : Nat) (f : Agent → Agent) : (s.updAgent a f).freeCtr = s.freeCtr := rfl
@[simp] theorem State.updAgent_powered (s : State) (a : Nat) (f : Agent → Agent) : (s.updAgent a f).powered = s.powered := rfl
@[simp] theorem State.updAgent_lasers (s : State) (a : Nat) (f : Agent → Agent) : (s.updAgent a f).lasers = s.lasers := rfl
@[simp] theorem State.updAgent_cores (s : State) (a : Nat) (f : Agent → Agent) : (s.updAgent a f).cores = s.cores := rfl
@[simp] theorem State.updAgent_fenced (s : State) (a : Nat) (f : Agent → Agent) : (s.updAgent a f).fenced = s.fenced := rfl
@[simp] theorem State.updAgent_dies (s : State) (a : Nat) (f : Agent → Agent) : (s.updAgent a f).dies = s.dies := rfl
@[simp] theorem State.updAgent_stamps (s : State) (a : Nat) (f : Agent → Agent) : (s.updAgent a f).stamps = s.stamps := rfl
@[simp] theorem State.updAgent_flights (s : State) (a : Nat) (f : Agent → Agent) : (s.updAgent a f).flights = s.flights := rfl
@[simp] theorem State.updAgent_ctxs (s : State) (a : Nat) (f : Agent → Agent) : (s.updAgent a f).ctxs = s.ctxs := rfl
@[simp] theorem State.updAgent_queues (s : State) (a : Nat) (f : Agent → Agent) : (s.updAgent a f).queues = s.queues := rfl
@[simp] theorem State.updAgent_classPtr (s : State) (a : Nat) (f : Agent → Agent) : (s.updAgent a f).classPtr = s.classPtr := rfl
@[simp] theorem State.updAgent_classOn (s : State) (a : Nat) (f : Agent → Agent) : (s.updAgent a f).classOn = s.classOn := rfl
@[simp] theorem State.updAgent_nextStart (s : State) (a : Nat) (f : Agent → Agent) : (s.updAgent a f).nextStart = s.nextStart := rfl
@[simp] theorem State.updAgent_keep (s : State) (a : Nat) (f : Agent → Agent) : (s.updAgent a f).keep = s.keep := rfl
@[simp] theorem State.updAgent_grps (s : State) (a : Nat) (f : Agent → Agent) : (s.updAgent a f).grps = s.grps := rfl
@[simp] theorem State.updAgent_ridge (s : State) (a : Nat) (f : Agent → Agent) : (s.updAgent a f).ridge = s.ridge := rfl
@[simp] theorem State.updAgent_links (s : State) (a : Nat) (f : Agent → Agent) : (s.updAgent a f).links = s.links := rfl
@[simp] theorem State.updAgent_regs (s : State) (a : Nat) (f : Agent → Agent) : (s.updAgent a f).regs = s.regs := rfl
@[simp] theorem State.updAgent_mem (s : State) (a : Nat) (f : Agent → Agent) : (s.updAgent a f).mem = s.mem := rfl
@[simp] theorem State.updAgent_core (s : State) (a : Nat) (f : Agent → Agent) (j : Nat) : (s.updAgent a f).core j = s.core j := rfl
@[simp] theorem State.updAgent_die (s : State) (a : Nat) (f : Agent → Agent) (j : Nat) : (s.updAgent a f).die j = s.die j := rfl
@[simp] theorem State.updAgent_ctx (s : State) (a : Nat) (f : Agent → Agent) (j : Nat) : (s.updAgent a f).ctx j = s.ctx j := rfl
@[simp] theorem State.updAgent_queue (s : State) (a : Nat) (f : Agent → Agent) (j : Nat) : (s.updAgent a f).queue j = s.queue j := rfl
@[simp] theorem State.updAgent_grp (s : State) (a : Nat) (f : Agent → Agent) (j : Nat) : (s.updAgent a f).grp j = s.grp j := rfl
@[simp] theorem State.updAgent_link (s : State) (a : Nat) (f : Agent → Agent) (j : Nat) : (s.updAgent a f).link j = s.link j := rfl
@[simp] theorem State.updAgent_xch (s : State) (a : Nat) (f : Agent → Agent) (j : Nat) : (s.updAgent a f).xch j = s.xch j := rfl
@[simp] theorem State.updAgent_eslot (s : State) (a : Nat) (f : Agent → Agent) (j : Nat) : (s.updAgent a f).eslot j = s.eslot j := rfl
@[simp] theorem State.updAgent_route (s : State) (a : Nat) (f : Agent → Agent) (j k' : Nat) : (s.updAgent a f).route j k' = s.route j k' := rfl
@[simp] theorem State.updAgent_plent (s : State) (a : Nat) (f : Agent → Agent) (j k' : Nat) : (s.updAgent a f).plent j k' = s.plent j k' := rfl
@[simp] theorem State.updAgent_slab (s : State) (a : Nat) (f : Agent → Agent) (j k' : Nat) : (s.updAgent a f).slab j k' = s.slab j k' := rfl
@[simp] theorem State.updAgent_self (s : State) (a : Nat) (f : Agent → Agent) : (s.updAgent a f).agent a = f (s.agent a) := by simp [State.updAgent, State.agent]
theorem State.updAgent_of_ne (s : State) {j a : Nat} (f : Agent → Agent) (h : j ≠ a) : (s.updAgent a f).agent j = s.agent j := by
  simp [State.updAgent, State.agent, Tbl.getD_set_of_ne _ _ _ h]

/-! ### updCtx -/

@[simp] theorem State.updCtx_now (s : State) (c : Nat) (f : Ctx → Ctx) : (s.updCtx c f).now = s.now := rfl
@[simp] theorem State.updCtx_ftick (s : State) (c : Nat) (f : Ctx → Ctx) : (s.updCtx c f).ftick = s.ftick := rfl
@[simp] theorem State.updCtx_tfrac (s : State) (c : Nat) (f : Ctx → Ctx) : (s.updCtx c f).tfrac = s.tfrac := rfl
@[simp] theorem State.updCtx_thold (s : State) (c : Nat) (f : Ctx → Ctx) : (s.updCtx c f).thold = s.thold := rfl
@[simp] theorem State.updCtx_tadj (s : State) (c : Nat) (f : Ctx → Ctx) : (s.updCtx c f).tadj = s.tadj := rfl
@[simp] theorem State.updCtx_tlast (s : State) (c : Nat) (f : Ctx → Ctx) : (s.updCtx c f).tlast = s.tlast := rfl
@[simp] theorem State.updCtx_phase (s : State) (c : Nat) (f : Ctx → Ctx) : (s.updCtx c f).phase = s.phase := rfl
@[simp] theorem State.updCtx_agenda (s : State) (c : Nat) (f : Ctx → Ctx) : (s.updCtx c f).agenda = s.agenda := rfl
@[simp] theorem State.updCtx_inputs (s : State) (c : Nat) (f : Ctx → Ctx) : (s.updCtx c f).inputs = s.inputs := rfl
@[simp] theorem State.updCtx_nextId (s : State) (c : Nat) (f : Ctx → Ctx) : (s.updCtx c f).nextId = s.nextId := rfl
@[simp] theorem State.updCtx_freeCtr (s : State) (c : Nat) (f : Ctx → Ctx) : (s.updCtx c f).freeCtr = s.freeCtr := rfl
@[simp] theorem State.updCtx_powered (s : State) (c : Nat) (f : Ctx → Ctx) : (s.updCtx c f).powered = s.powered := rfl
@[simp] theorem State.updCtx_lasers (s : State) (c : Nat) (f : Ctx → Ctx) : (s.updCtx c f).lasers = s.lasers := rfl
@[simp] theorem State.updCtx_cores (s : State) (c : Nat) (f : Ctx → Ctx) : (s.updCtx c f).cores = s.cores := rfl
@[simp] theorem State.updCtx_fenced (s : State) (c : Nat) (f : Ctx → Ctx) : (s.updCtx c f).fenced = s.fenced := rfl
@[simp] theorem State.updCtx_dies (s : State) (c : Nat) (f : Ctx → Ctx) : (s.updCtx c f).dies = s.dies := rfl
@[simp] theorem State.updCtx_agents (s : State) (c : Nat) (f : Ctx → Ctx) : (s.updCtx c f).agents = s.agents := rfl
@[simp] theorem State.updCtx_stamps (s : State) (c : Nat) (f : Ctx → Ctx) : (s.updCtx c f).stamps = s.stamps := rfl
@[simp] theorem State.updCtx_flights (s : State) (c : Nat) (f : Ctx → Ctx) : (s.updCtx c f).flights = s.flights := rfl
@[simp] theorem State.updCtx_queues (s : State) (c : Nat) (f : Ctx → Ctx) : (s.updCtx c f).queues = s.queues := rfl
@[simp] theorem State.updCtx_classPtr (s : State) (c : Nat) (f : Ctx → Ctx) : (s.updCtx c f).classPtr = s.classPtr := rfl
@[simp] theorem State.updCtx_classOn (s : State) (c : Nat) (f : Ctx → Ctx) : (s.updCtx c f).classOn = s.classOn := rfl
@[simp] theorem State.updCtx_nextStart (s : State) (c : Nat) (f : Ctx → Ctx) : (s.updCtx c f).nextStart = s.nextStart := rfl
@[simp] theorem State.updCtx_keep (s : State) (c : Nat) (f : Ctx → Ctx) : (s.updCtx c f).keep = s.keep := rfl
@[simp] theorem State.updCtx_grps (s : State) (c : Nat) (f : Ctx → Ctx) : (s.updCtx c f).grps = s.grps := rfl
@[simp] theorem State.updCtx_ridge (s : State) (c : Nat) (f : Ctx → Ctx) : (s.updCtx c f).ridge = s.ridge := rfl
@[simp] theorem State.updCtx_links (s : State) (c : Nat) (f : Ctx → Ctx) : (s.updCtx c f).links = s.links := rfl
@[simp] theorem State.updCtx_regs (s : State) (c : Nat) (f : Ctx → Ctx) : (s.updCtx c f).regs = s.regs := rfl
@[simp] theorem State.updCtx_mem (s : State) (c : Nat) (f : Ctx → Ctx) : (s.updCtx c f).mem = s.mem := rfl
@[simp] theorem State.updCtx_core (s : State) (c : Nat) (f : Ctx → Ctx) (j : Nat) : (s.updCtx c f).core j = s.core j := rfl
@[simp] theorem State.updCtx_die (s : State) (c : Nat) (f : Ctx → Ctx) (j : Nat) : (s.updCtx c f).die j = s.die j := rfl
@[simp] theorem State.updCtx_agent (s : State) (c : Nat) (f : Ctx → Ctx) (j : Nat) : (s.updCtx c f).agent j = s.agent j := rfl
@[simp] theorem State.updCtx_queue (s : State) (c : Nat) (f : Ctx → Ctx) (j : Nat) : (s.updCtx c f).queue j = s.queue j := rfl
@[simp] theorem State.updCtx_grp (s : State) (c : Nat) (f : Ctx → Ctx) (j : Nat) : (s.updCtx c f).grp j = s.grp j := rfl
@[simp] theorem State.updCtx_link (s : State) (c : Nat) (f : Ctx → Ctx) (j : Nat) : (s.updCtx c f).link j = s.link j := rfl
@[simp] theorem State.updCtx_xch (s : State) (c : Nat) (f : Ctx → Ctx) (j : Nat) : (s.updCtx c f).xch j = s.xch j := rfl
@[simp] theorem State.updCtx_eslot (s : State) (c : Nat) (f : Ctx → Ctx) (j : Nat) : (s.updCtx c f).eslot j = s.eslot j := rfl
@[simp] theorem State.updCtx_self (s : State) (c : Nat) (f : Ctx → Ctx) : (s.updCtx c f).ctx c = f (s.ctx c) := by simp [State.updCtx, State.ctx]
theorem State.updCtx_of_ne (s : State) {j c : Nat} (f : Ctx → Ctx) (h : j ≠ c) : (s.updCtx c f).ctx j = s.ctx j := by
  simp [State.updCtx, State.ctx, Tbl.getD_set_of_ne _ _ _ h]

/-! ### updQueue -/

@[simp] theorem State.updQueue_now (s : State) (q : Nat) (f : Queue → Queue) : (s.updQueue q f).now = s.now := rfl
@[simp] theorem State.updQueue_ftick (s : State) (q : Nat) (f : Queue → Queue) : (s.updQueue q f).ftick = s.ftick := rfl
@[simp] theorem State.updQueue_tfrac (s : State) (q : Nat) (f : Queue → Queue) : (s.updQueue q f).tfrac = s.tfrac := rfl
@[simp] theorem State.updQueue_thold (s : State) (q : Nat) (f : Queue → Queue) : (s.updQueue q f).thold = s.thold := rfl
@[simp] theorem State.updQueue_tadj (s : State) (q : Nat) (f : Queue → Queue) : (s.updQueue q f).tadj = s.tadj := rfl
@[simp] theorem State.updQueue_tlast (s : State) (q : Nat) (f : Queue → Queue) : (s.updQueue q f).tlast = s.tlast := rfl
@[simp] theorem State.updQueue_phase (s : State) (q : Nat) (f : Queue → Queue) : (s.updQueue q f).phase = s.phase := rfl
@[simp] theorem State.updQueue_agenda (s : State) (q : Nat) (f : Queue → Queue) : (s.updQueue q f).agenda = s.agenda := rfl
@[simp] theorem State.updQueue_inputs (s : State) (q : Nat) (f : Queue → Queue) : (s.updQueue q f).inputs = s.inputs := rfl
@[simp] theorem State.updQueue_nextId (s : State) (q : Nat) (f : Queue → Queue) : (s.updQueue q f).nextId = s.nextId := rfl
@[simp] theorem State.updQueue_freeCtr (s : State) (q : Nat) (f : Queue → Queue) : (s.updQueue q f).freeCtr = s.freeCtr := rfl
@[simp] theorem State.updQueue_powered (s : State) (q : Nat) (f : Queue → Queue) : (s.updQueue q f).powered = s.powered := rfl
@[simp] theorem State.updQueue_lasers (s : State) (q : Nat) (f : Queue → Queue) : (s.updQueue q f).lasers = s.lasers := rfl
@[simp] theorem State.updQueue_cores (s : State) (q : Nat) (f : Queue → Queue) : (s.updQueue q f).cores = s.cores := rfl
@[simp] theorem State.updQueue_fenced (s : State) (q : Nat) (f : Queue → Queue) : (s.updQueue q f).fenced = s.fenced := rfl
@[simp] theorem State.updQueue_dies (s : State) (q : Nat) (f : Queue → Queue) : (s.updQueue q f).dies = s.dies := rfl
@[simp] theorem State.updQueue_agents (s : State) (q : Nat) (f : Queue → Queue) : (s.updQueue q f).agents = s.agents := rfl
@[simp] theorem State.updQueue_stamps (s : State) (q : Nat) (f : Queue → Queue) : (s.updQueue q f).stamps = s.stamps := rfl
@[simp] theorem State.updQueue_flights (s : State) (q : Nat) (f : Queue → Queue) : (s.updQueue q f).flights = s.flights := rfl
@[simp] theorem State.updQueue_ctxs (s : State) (q : Nat) (f : Queue → Queue) : (s.updQueue q f).ctxs = s.ctxs := rfl
@[simp] theorem State.updQueue_classPtr (s : State) (q : Nat) (f : Queue → Queue) : (s.updQueue q f).classPtr = s.classPtr := rfl
@[simp] theorem State.updQueue_classOn (s : State) (q : Nat) (f : Queue → Queue) : (s.updQueue q f).classOn = s.classOn := rfl
@[simp] theorem State.updQueue_nextStart (s : State) (q : Nat) (f : Queue → Queue) : (s.updQueue q f).nextStart = s.nextStart := rfl
@[simp] theorem State.updQueue_keep (s : State) (q : Nat) (f : Queue → Queue) : (s.updQueue q f).keep = s.keep := rfl
@[simp] theorem State.updQueue_grps (s : State) (q : Nat) (f : Queue → Queue) : (s.updQueue q f).grps = s.grps := rfl
@[simp] theorem State.updQueue_ridge (s : State) (q : Nat) (f : Queue → Queue) : (s.updQueue q f).ridge = s.ridge := rfl
@[simp] theorem State.updQueue_links (s : State) (q : Nat) (f : Queue → Queue) : (s.updQueue q f).links = s.links := rfl
@[simp] theorem State.updQueue_regs (s : State) (q : Nat) (f : Queue → Queue) : (s.updQueue q f).regs = s.regs := rfl
@[simp] theorem State.updQueue_mem (s : State) (q : Nat) (f : Queue → Queue) : (s.updQueue q f).mem = s.mem := rfl
@[simp] theorem State.updQueue_core (s : State) (q : Nat) (f : Queue → Queue) (j : Nat) : (s.updQueue q f).core j = s.core j := rfl
@[simp] theorem State.updQueue_die (s : State) (q : Nat) (f : Queue → Queue) (j : Nat) : (s.updQueue q f).die j = s.die j := rfl
@[simp] theorem State.updQueue_agent (s : State) (q : Nat) (f : Queue → Queue) (j : Nat) : (s.updQueue q f).agent j = s.agent j := rfl
@[simp] theorem State.updQueue_ctx (s : State) (q : Nat) (f : Queue → Queue) (j : Nat) : (s.updQueue q f).ctx j = s.ctx j := rfl
@[simp] theorem State.updQueue_grp (s : State) (q : Nat) (f : Queue → Queue) (j : Nat) : (s.updQueue q f).grp j = s.grp j := rfl
@[simp] theorem State.updQueue_link (s : State) (q : Nat) (f : Queue → Queue) (j : Nat) : (s.updQueue q f).link j = s.link j := rfl
@[simp] theorem State.updQueue_xch (s : State) (q : Nat) (f : Queue → Queue) (j : Nat) : (s.updQueue q f).xch j = s.xch j := rfl
@[simp] theorem State.updQueue_eslot (s : State) (q : Nat) (f : Queue → Queue) (j : Nat) : (s.updQueue q f).eslot j = s.eslot j := rfl
@[simp] theorem State.updQueue_route (s : State) (q : Nat) (f : Queue → Queue) (j k' : Nat) : (s.updQueue q f).route j k' = s.route j k' := rfl
@[simp] theorem State.updQueue_plent (s : State) (q : Nat) (f : Queue → Queue) (j k' : Nat) : (s.updQueue q f).plent j k' = s.plent j k' := rfl
@[simp] theorem State.updQueue_slab (s : State) (q : Nat) (f : Queue → Queue) (j k' : Nat) : (s.updQueue q f).slab j k' = s.slab j k' := rfl
@[simp] theorem State.updQueue_self (s : State) (q : Nat) (f : Queue → Queue) : (s.updQueue q f).queue q = f (s.queue q) := by simp [State.updQueue, State.queue]
theorem State.updQueue_of_ne (s : State) {j q : Nat} (f : Queue → Queue) (h : j ≠ q) : (s.updQueue q f).queue j = s.queue j := by
  simp [State.updQueue, State.queue, Tbl.getD_set_of_ne _ _ _ h]

/-! ### updGrp -/

@[simp] theorem State.updGrp_now (s : State) (g : Nat) (f : Grp → Grp) : (s.updGrp g f).now = s.now := rfl
@[simp] theorem State.updGrp_ftick (s : State) (g : Nat) (f : Grp → Grp) : (s.updGrp g f).ftick = s.ftick := rfl
@[simp] theorem State.updGrp_tfrac (s : State) (g : Nat) (f : Grp → Grp) : (s.updGrp g f).tfrac = s.tfrac := rfl
@[simp] theorem State.updGrp_thold (s : State) (g : Nat) (f : Grp → Grp) : (s.updGrp g f).thold = s.thold := rfl
@[simp] theorem State.updGrp_tadj (s : State) (g : Nat) (f : Grp → Grp) : (s.updGrp g f).tadj = s.tadj := rfl
@[simp] theorem State.updGrp_tlast (s : State) (g : Nat) (f : Grp → Grp) : (s.updGrp g f).tlast = s.tlast := rfl
@[simp] theorem State.updGrp_phase (s : State) (g : Nat) (f : Grp → Grp) : (s.updGrp g f).phase = s.phase := rfl
@[simp] theorem State.updGrp_agenda (s : State) (g : Nat) (f : Grp → Grp) : (s.updGrp g f).agenda = s.agenda := rfl
@[simp] theorem State.updGrp_inputs (s : State) (g : Nat) (f : Grp → Grp) : (s.updGrp g f).inputs = s.inputs := rfl
@[simp] theorem State.updGrp_nextId (s : State) (g : Nat) (f : Grp → Grp) : (s.updGrp g f).nextId = s.nextId := rfl
@[simp] theorem State.updGrp_freeCtr (s : State) (g : Nat) (f : Grp → Grp) : (s.updGrp g f).freeCtr = s.freeCtr := rfl
@[simp] theorem State.updGrp_powered (s : State) (g : Nat) (f : Grp → Grp) : (s.updGrp g f).powered = s.powered := rfl
@[simp] theorem State.updGrp_lasers (s : State) (g : Nat) (f : Grp → Grp) : (s.updGrp g f).lasers = s.lasers := rfl
@[simp] theorem State.updGrp_cores (s : State) (g : Nat) (f : Grp → Grp) : (s.updGrp g f).cores = s.cores := rfl
@[simp] theorem State.updGrp_fenced (s : State) (g : Nat) (f : Grp → Grp) : (s.updGrp g f).fenced = s.fenced := rfl
@[simp] theorem State.updGrp_dies (s : State) (g : Nat) (f : Grp → Grp) : (s.updGrp g f).dies = s.dies := rfl
@[simp] theorem State.updGrp_agents (s : State) (g : Nat) (f : Grp → Grp) : (s.updGrp g f).agents = s.agents := rfl
@[simp] theorem State.updGrp_stamps (s : State) (g : Nat) (f : Grp → Grp) : (s.updGrp g f).stamps = s.stamps := rfl
@[simp] theorem State.updGrp_flights (s : State) (g : Nat) (f : Grp → Grp) : (s.updGrp g f).flights = s.flights := rfl
@[simp] theorem State.updGrp_ctxs (s : State) (g : Nat) (f : Grp → Grp) : (s.updGrp g f).ctxs = s.ctxs := rfl
@[simp] theorem State.updGrp_queues (s : State) (g : Nat) (f : Grp → Grp) : (s.updGrp g f).queues = s.queues := rfl
@[simp] theorem State.updGrp_classPtr (s : State) (g : Nat) (f : Grp → Grp) : (s.updGrp g f).classPtr = s.classPtr := rfl
@[simp] theorem State.updGrp_classOn (s : State) (g : Nat) (f : Grp → Grp) : (s.updGrp g f).classOn = s.classOn := rfl
@[simp] theorem State.updGrp_nextStart (s : State) (g : Nat) (f : Grp → Grp) : (s.updGrp g f).nextStart = s.nextStart := rfl
@[simp] theorem State.updGrp_keep (s : State) (g : Nat) (f : Grp → Grp) : (s.updGrp g f).keep = s.keep := rfl
@[simp] theorem State.updGrp_ridge (s : State) (g : Nat) (f : Grp → Grp) : (s.updGrp g f).ridge = s.ridge := rfl
@[simp] theorem State.updGrp_links (s : State) (g : Nat) (f : Grp → Grp) : (s.updGrp g f).links = s.links := rfl
@[simp] theorem State.updGrp_regs (s : State) (g : Nat) (f : Grp → Grp) : (s.updGrp g f).regs = s.regs := rfl
@[simp] theorem State.updGrp_mem (s : State) (g : Nat) (f : Grp → Grp) : (s.updGrp g f).mem = s.mem := rfl
@[simp] theorem State.updGrp_core (s : State) (g : Nat) (f : Grp → Grp) (j : Nat) : (s.updGrp g f).core j = s.core j := rfl
@[simp] theorem State.updGrp_die (s : State) (g : Nat) (f : Grp → Grp) (j : Nat) : (s.updGrp g f).die j = s.die j := rfl
@[simp] theorem State.updGrp_agent (s : State) (g : Nat) (f : Grp → Grp) (j : Nat) : (s.updGrp g f).agent j = s.agent j := rfl
@[simp] theorem State.updGrp_ctx (s : State) (g : Nat) (f : Grp → Grp) (j : Nat) : (s.updGrp g f).ctx j = s.ctx j := rfl
@[simp] theorem State.updGrp_queue (s : State) (g : Nat) (f : Grp → Grp) (j : Nat) : (s.updGrp g f).queue j = s.queue j := rfl
@[simp] theorem State.updGrp_link (s : State) (g : Nat) (f : Grp → Grp) (j : Nat) : (s.updGrp g f).link j = s.link j := rfl
@[simp] theorem State.updGrp_xch (s : State) (g : Nat) (f : Grp → Grp) (j : Nat) : (s.updGrp g f).xch j = s.xch j := rfl
@[simp] theorem State.updGrp_eslot (s : State) (g : Nat) (f : Grp → Grp) (j : Nat) : (s.updGrp g f).eslot j = s.eslot j := rfl
@[simp] theorem State.updGrp_route (s : State) (g : Nat) (f : Grp → Grp) (j k' : Nat) : (s.updGrp g f).route j k' = s.route j k' := rfl
@[simp] theorem State.updGrp_plent (s : State) (g : Nat) (f : Grp → Grp) (j k' : Nat) : (s.updGrp g f).plent j k' = s.plent j k' := rfl
@[simp] theorem State.updGrp_slab (s : State) (g : Nat) (f : Grp → Grp) (j k' : Nat) : (s.updGrp g f).slab j k' = s.slab j k' := rfl
@[simp] theorem State.updGrp_self (s : State) (g : Nat) (f : Grp → Grp) : (s.updGrp g f).grp g = f (s.grp g) := by simp [State.updGrp, State.grp]
theorem State.updGrp_of_ne (s : State) {j g : Nat} (f : Grp → Grp) (h : j ≠ g) : (s.updGrp g f).grp j = s.grp j := by
  simp [State.updGrp, State.grp, Tbl.getD_set_of_ne _ _ _ h]

/-! ### updRun -/

@[simp] theorem State.updRun_now (s : State) (g : Nat) (f : Run → Run) : (s.updRun g f).now = s.now := rfl
@[simp] theorem State.updRun_ftick (s : State) (g : Nat) (f : Run → Run) : (s.updRun g f).ftick = s.ftick := rfl
@[simp] theorem State.updRun_tfrac (s : State) (g : Nat) (f : Run → Run) : (s.updRun g f).tfrac = s.tfrac := rfl
@[simp] theorem State.updRun_thold (s : State) (g : Nat) (f : Run → Run) : (s.updRun g f).thold = s.thold := rfl
@[simp] theorem State.updRun_tadj (s : State) (g : Nat) (f : Run → Run) : (s.updRun g f).tadj = s.tadj := rfl
@[simp] theorem State.updRun_tlast (s : State) (g : Nat) (f : Run → Run) : (s.updRun g f).tlast = s.tlast := rfl
@[simp] theorem State.updRun_phase (s : State) (g : Nat) (f : Run → Run) : (s.updRun g f).phase = s.phase := rfl
@[simp] theorem State.updRun_agenda (s : State) (g : Nat) (f : Run → Run) : (s.updRun g f).agenda = s.agenda := rfl
@[simp] theorem State.updRun_inputs (s : State) (g : Nat) (f : Run → Run) : (s.updRun g f).inputs = s.inputs := rfl
@[simp] theorem State.updRun_nextId (s : State) (g : Nat) (f : Run → Run) : (s.updRun g f).nextId = s.nextId := rfl
@[simp] theorem State.updRun_freeCtr (s : State) (g : Nat) (f : Run → Run) : (s.updRun g f).freeCtr = s.freeCtr := rfl
@[simp] theorem State.updRun_powered (s : State) (g : Nat) (f : Run → Run) : (s.updRun g f).powered = s.powered := rfl
@[simp] theorem State.updRun_lasers (s : State) (g : Nat) (f : Run → Run) : (s.updRun g f).lasers = s.lasers := rfl
@[simp] theorem State.updRun_cores (s : State) (g : Nat) (f : Run → Run) : (s.updRun g f).cores = s.cores := rfl
@[simp] theorem State.updRun_fenced (s : State) (g : Nat) (f : Run → Run) : (s.updRun g f).fenced = s.fenced := rfl
@[simp] theorem State.updRun_dies (s : State) (g : Nat) (f : Run → Run) : (s.updRun g f).dies = s.dies := rfl
@[simp] theorem State.updRun_agents (s : State) (g : Nat) (f : Run → Run) : (s.updRun g f).agents = s.agents := rfl
@[simp] theorem State.updRun_stamps (s : State) (g : Nat) (f : Run → Run) : (s.updRun g f).stamps = s.stamps := rfl
@[simp] theorem State.updRun_flights (s : State) (g : Nat) (f : Run → Run) : (s.updRun g f).flights = s.flights := rfl
@[simp] theorem State.updRun_ctxs (s : State) (g : Nat) (f : Run → Run) : (s.updRun g f).ctxs = s.ctxs := rfl
@[simp] theorem State.updRun_queues (s : State) (g : Nat) (f : Run → Run) : (s.updRun g f).queues = s.queues := rfl
@[simp] theorem State.updRun_classPtr (s : State) (g : Nat) (f : Run → Run) : (s.updRun g f).classPtr = s.classPtr := rfl
@[simp] theorem State.updRun_classOn (s : State) (g : Nat) (f : Run → Run) : (s.updRun g f).classOn = s.classOn := rfl
@[simp] theorem State.updRun_nextStart (s : State) (g : Nat) (f : Run → Run) : (s.updRun g f).nextStart = s.nextStart := rfl
@[simp] theorem State.updRun_keep (s : State) (g : Nat) (f : Run → Run) : (s.updRun g f).keep = s.keep := rfl
@[simp] theorem State.updRun_ridge (s : State) (g : Nat) (f : Run → Run) : (s.updRun g f).ridge = s.ridge := rfl
@[simp] theorem State.updRun_links (s : State) (g : Nat) (f : Run → Run) : (s.updRun g f).links = s.links := rfl
@[simp] theorem State.updRun_regs (s : State) (g : Nat) (f : Run → Run) : (s.updRun g f).regs = s.regs := rfl
@[simp] theorem State.updRun_mem (s : State) (g : Nat) (f : Run → Run) : (s.updRun g f).mem = s.mem := rfl
@[simp] theorem State.updRun_core (s : State) (g : Nat) (f : Run → Run) (j : Nat) : (s.updRun g f).core j = s.core j := rfl
@[simp] theorem State.updRun_die (s : State) (g : Nat) (f : Run → Run) (j : Nat) : (s.updRun g f).die j = s.die j := rfl
@[simp] theorem State.updRun_agent (s : State) (g : Nat) (f : Run → Run) (j : Nat) : (s.updRun g f).agent j = s.agent j := rfl
@[simp] theorem State.updRun_ctx (s : State) (g : Nat) (f : Run → Run) (j : Nat) : (s.updRun g f).ctx j = s.ctx j := rfl
@[simp] theorem State.updRun_queue (s : State) (g : Nat) (f : Run → Run) (j : Nat) : (s.updRun g f).queue j = s.queue j := rfl
@[simp] theorem State.updRun_link (s : State) (g : Nat) (f : Run → Run) (j : Nat) : (s.updRun g f).link j = s.link j := rfl
@[simp] theorem State.updRun_xch (s : State) (g : Nat) (f : Run → Run) (j : Nat) : (s.updRun g f).xch j = s.xch j := rfl
@[simp] theorem State.updRun_eslot (s : State) (g : Nat) (f : Run → Run) (j : Nat) : (s.updRun g f).eslot j = s.eslot j := rfl
@[simp] theorem State.updRun_route (s : State) (g : Nat) (f : Run → Run) (j k' : Nat) : (s.updRun g f).route j k' = s.route j k' := rfl
@[simp] theorem State.updRun_plent (s : State) (g : Nat) (f : Run → Run) (j k' : Nat) : (s.updRun g f).plent j k' = s.plent j k' := rfl
@[simp] theorem State.updRun_slab (s : State) (g : Nat) (f : Run → Run) (j k' : Nat) : (s.updRun g f).slab j k' = s.slab j k' := rfl
@[simp] theorem State.updRun_self (s : State) (g : Nat) (f : Run → Run) : (s.updRun g f).grp g = { s.grp g with run := (s.grp g).run.map f } := by
  simp [State.updRun, State.updGrp, State.grp]
theorem State.updRun_of_ne (s : State) {j g : Nat} (f : Run → Run) (h : j ≠ g) : (s.updRun g f).grp j = s.grp j := by
  simp [State.updRun, State.updGrp, State.grp, Tbl.getD_set_of_ne _ _ _ h]

/-! ### updLink -/

@[simp] theorem State.updLink_now (s : State) (l : Nat) (f : Link → Link) : (s.updLink l f).now = s.now := rfl
@[simp] theorem State.updLink_ftick (s : State) (l : Nat) (f : Link → Link) : (s.updLink l f).ftick = s.ftick := rfl
@[simp] theorem State.updLink_tfrac (s : State) (l : Nat) (f : Link → Link) : (s.updLink l f).tfrac = s.tfrac := rfl
@[simp] theorem State.updLink_thold (s : State) (l : Nat) (f : Link → Link) : (s.updLink l f).thold = s.thold := rfl
@[simp] theorem State.updLink_tadj (s : State) (l : Nat) (f : Link → Link) : (s.updLink l f).tadj = s.tadj := rfl
@[simp] theorem State.updLink_tlast (s : State) (l : Nat) (f : Link → Link) : (s.updLink l f).tlast = s.tlast := rfl
@[simp] theorem State.updLink_phase (s : State) (l : Nat) (f : Link → Link) : (s.updLink l f).phase = s.phase := rfl
@[simp] theorem State.updLink_agenda (s : State) (l : Nat) (f : Link → Link) : (s.updLink l f).agenda = s.agenda := rfl
@[simp] theorem State.updLink_inputs (s : State) (l : Nat) (f : Link → Link) : (s.updLink l f).inputs = s.inputs := rfl
@[simp] theorem State.updLink_nextId (s : State) (l : Nat) (f : Link → Link) : (s.updLink l f).nextId = s.nextId := rfl
@[simp] theorem State.updLink_freeCtr (s : State) (l : Nat) (f : Link → Link) : (s.updLink l f).freeCtr = s.freeCtr := rfl
@[simp] theorem State.updLink_powered (s : State) (l : Nat) (f : Link → Link) : (s.updLink l f).powered = s.powered := rfl
@[simp] theorem State.updLink_lasers (s : State) (l : Nat) (f : Link → Link) : (s.updLink l f).lasers = s.lasers := rfl
@[simp] theorem State.updLink_cores (s : State) (l : Nat) (f : Link → Link) : (s.updLink l f).cores = s.cores := rfl
@[simp] theorem State.updLink_fenced (s : State) (l : Nat) (f : Link → Link) : (s.updLink l f).fenced = s.fenced := rfl
@[simp] theorem State.updLink_dies (s : State) (l : Nat) (f : Link → Link) : (s.updLink l f).dies = s.dies := rfl
@[simp] theorem State.updLink_agents (s : State) (l : Nat) (f : Link → Link) : (s.updLink l f).agents = s.agents := rfl
@[simp] theorem State.updLink_stamps (s : State) (l : Nat) (f : Link → Link) : (s.updLink l f).stamps = s.stamps := rfl
@[simp] theorem State.updLink_flights (s : State) (l : Nat) (f : Link → Link) : (s.updLink l f).flights = s.flights := rfl
@[simp] theorem State.updLink_ctxs (s : State) (l : Nat) (f : Link → Link) : (s.updLink l f).ctxs = s.ctxs := rfl
@[simp] theorem State.updLink_queues (s : State) (l : Nat) (f : Link → Link) : (s.updLink l f).queues = s.queues := rfl
@[simp] theorem State.updLink_classPtr (s : State) (l : Nat) (f : Link → Link) : (s.updLink l f).classPtr = s.classPtr := rfl
@[simp] theorem State.updLink_classOn (s : State) (l : Nat) (f : Link → Link) : (s.updLink l f).classOn = s.classOn := rfl
@[simp] theorem State.updLink_nextStart (s : State) (l : Nat) (f : Link → Link) : (s.updLink l f).nextStart = s.nextStart := rfl
@[simp] theorem State.updLink_keep (s : State) (l : Nat) (f : Link → Link) : (s.updLink l f).keep = s.keep := rfl
@[simp] theorem State.updLink_grps (s : State) (l : Nat) (f : Link → Link) : (s.updLink l f).grps = s.grps := rfl
@[simp] theorem State.updLink_ridge (s : State) (l : Nat) (f : Link → Link) : (s.updLink l f).ridge = s.ridge := rfl
@[simp] theorem State.updLink_regs (s : State) (l : Nat) (f : Link → Link) : (s.updLink l f).regs = s.regs := rfl
@[simp] theorem State.updLink_mem (s : State) (l : Nat) (f : Link → Link) : (s.updLink l f).mem = s.mem := rfl
@[simp] theorem State.updLink_core (s : State) (l : Nat) (f : Link → Link) (j : Nat) : (s.updLink l f).core j = s.core j := rfl
@[simp] theorem State.updLink_die (s : State) (l : Nat) (f : Link → Link) (j : Nat) : (s.updLink l f).die j = s.die j := rfl
@[simp] theorem State.updLink_agent (s : State) (l : Nat) (f : Link → Link) (j : Nat) : (s.updLink l f).agent j = s.agent j := rfl
@[simp] theorem State.updLink_ctx (s : State) (l : Nat) (f : Link → Link) (j : Nat) : (s.updLink l f).ctx j = s.ctx j := rfl
@[simp] theorem State.updLink_queue (s : State) (l : Nat) (f : Link → Link) (j : Nat) : (s.updLink l f).queue j = s.queue j := rfl
@[simp] theorem State.updLink_grp (s : State) (l : Nat) (f : Link → Link) (j : Nat) : (s.updLink l f).grp j = s.grp j := rfl
@[simp] theorem State.updLink_xch (s : State) (l : Nat) (f : Link → Link) (j : Nat) : (s.updLink l f).xch j = s.xch j := rfl
@[simp] theorem State.updLink_eslot (s : State) (l : Nat) (f : Link → Link) (j : Nat) : (s.updLink l f).eslot j = s.eslot j := rfl
@[simp] theorem State.updLink_route (s : State) (l : Nat) (f : Link → Link) (j k' : Nat) : (s.updLink l f).route j k' = s.route j k' := rfl
@[simp] theorem State.updLink_plent (s : State) (l : Nat) (f : Link → Link) (j k' : Nat) : (s.updLink l f).plent j k' = s.plent j k' := rfl
@[simp] theorem State.updLink_slab (s : State) (l : Nat) (f : Link → Link) (j k' : Nat) : (s.updLink l f).slab j k' = s.slab j k' := rfl
@[simp] theorem State.updLink_self (s : State) (l : Nat) (f : Link → Link) : (s.updLink l f).link l = f (s.link l) := by simp [State.updLink, State.link]
theorem State.updLink_of_ne (s : State) {j l : Nat} (f : Link → Link) (h : j ≠ l) : (s.updLink l f).link j = s.link j := by
  simp [State.updLink, State.link, Tbl.getD_set_of_ne _ _ _ h]

/-! ### updRidge -/

@[simp] theorem State.updRidge_now (s : State) (f : Ridge → Ridge) : (s.updRidge f).now = s.now := rfl
@[simp] theorem State.updRidge_ftick (s : State) (f : Ridge → Ridge) : (s.updRidge f).ftick = s.ftick := rfl
@[simp] theorem State.updRidge_tfrac (s : State) (f : Ridge → Ridge) : (s.updRidge f).tfrac = s.tfrac := rfl
@[simp] theorem State.updRidge_thold (s : State) (f : Ridge → Ridge) : (s.updRidge f).thold = s.thold := rfl
@[simp] theorem State.updRidge_tadj (s : State) (f : Ridge → Ridge) : (s.updRidge f).tadj = s.tadj := rfl
@[simp] theorem State.updRidge_tlast (s : State) (f : Ridge → Ridge) : (s.updRidge f).tlast = s.tlast := rfl
@[simp] theorem State.updRidge_phase (s : State) (f : Ridge → Ridge) : (s.updRidge f).phase = s.phase := rfl
@[simp] theorem State.updRidge_agenda (s : State) (f : Ridge → Ridge) : (s.updRidge f).agenda = s.agenda := rfl
@[simp] theorem State.updRidge_inputs (s : State) (f : Ridge → Ridge) : (s.updRidge f).inputs = s.inputs := rfl
@[simp] theorem State.updRidge_nextId (s : State) (f : Ridge → Ridge) : (s.updRidge f).nextId = s.nextId := rfl
@[simp] theorem State.updRidge_freeCtr (s : State) (f : Ridge → Ridge) : (s.updRidge f).freeCtr = s.freeCtr := rfl
@[simp] theorem State.updRidge_powered (s : State) (f : Ridge → Ridge) : (s.updRidge f).powered = s.powered := rfl
@[simp] theorem State.updRidge_lasers (s : State) (f : Ridge → Ridge) : (s.updRidge f).lasers = s.lasers := rfl
@[simp] theorem State.updRidge_cores (s : State) (f : Ridge → Ridge) : (s.updRidge f).cores = s.cores := rfl
@[simp] theorem State.updRidge_fenced (s : State) (f : Ridge → Ridge) : (s.updRidge f).fenced = s.fenced := rfl
@[simp] theorem State.updRidge_dies (s : State) (f : Ridge → Ridge) : (s.updRidge f).dies = s.dies := rfl
@[simp] theorem State.updRidge_agents (s : State) (f : Ridge → Ridge) : (s.updRidge f).agents = s.agents := rfl
@[simp] theorem State.updRidge_stamps (s : State) (f : Ridge → Ridge) : (s.updRidge f).stamps = s.stamps := rfl
@[simp] theorem State.updRidge_flights (s : State) (f : Ridge → Ridge) : (s.updRidge f).flights = s.flights := rfl
@[simp] theorem State.updRidge_ctxs (s : State) (f : Ridge → Ridge) : (s.updRidge f).ctxs = s.ctxs := rfl
@[simp] theorem State.updRidge_queues (s : State) (f : Ridge → Ridge) : (s.updRidge f).queues = s.queues := rfl
@[simp] theorem State.updRidge_classPtr (s : State) (f : Ridge → Ridge) : (s.updRidge f).classPtr = s.classPtr := rfl
@[simp] theorem State.updRidge_classOn (s : State) (f : Ridge → Ridge) : (s.updRidge f).classOn = s.classOn := rfl
@[simp] theorem State.updRidge_nextStart (s : State) (f : Ridge → Ridge) : (s.updRidge f).nextStart = s.nextStart := rfl
@[simp] theorem State.updRidge_keep (s : State) (f : Ridge → Ridge) : (s.updRidge f).keep = s.keep := rfl
@[simp] theorem State.updRidge_grps (s : State) (f : Ridge → Ridge) : (s.updRidge f).grps = s.grps := rfl
@[simp] theorem State.updRidge_links (s : State) (f : Ridge → Ridge) : (s.updRidge f).links = s.links := rfl
@[simp] theorem State.updRidge_regs (s : State) (f : Ridge → Ridge) : (s.updRidge f).regs = s.regs := rfl
@[simp] theorem State.updRidge_mem (s : State) (f : Ridge → Ridge) : (s.updRidge f).mem = s.mem := rfl
@[simp] theorem State.updRidge_core (s : State) (f : Ridge → Ridge) (j : Nat) : (s.updRidge f).core j = s.core j := rfl
@[simp] theorem State.updRidge_die (s : State) (f : Ridge → Ridge) (j : Nat) : (s.updRidge f).die j = s.die j := rfl
@[simp] theorem State.updRidge_agent (s : State) (f : Ridge → Ridge) (j : Nat) : (s.updRidge f).agent j = s.agent j := rfl
@[simp] theorem State.updRidge_ctx (s : State) (f : Ridge → Ridge) (j : Nat) : (s.updRidge f).ctx j = s.ctx j := rfl
@[simp] theorem State.updRidge_queue (s : State) (f : Ridge → Ridge) (j : Nat) : (s.updRidge f).queue j = s.queue j := rfl
@[simp] theorem State.updRidge_grp (s : State) (f : Ridge → Ridge) (j : Nat) : (s.updRidge f).grp j = s.grp j := rfl
@[simp] theorem State.updRidge_link (s : State) (f : Ridge → Ridge) (j : Nat) : (s.updRidge f).link j = s.link j := rfl
@[simp] theorem State.updRidge_route (s : State) (f : Ridge → Ridge) (j k' : Nat) : (s.updRidge f).route j k' = s.route j k' := rfl
@[simp] theorem State.updRidge_plent (s : State) (f : Ridge → Ridge) (j k' : Nat) : (s.updRidge f).plent j k' = s.plent j k' := rfl
@[simp] theorem State.updRidge_slab (s : State) (f : Ridge → Ridge) (j k' : Nat) : (s.updRidge f).slab j k' = s.slab j k' := rfl
@[simp] theorem State.updRidge_ridge (s : State) (f : Ridge → Ridge) : (s.updRidge f).ridge = f s.ridge := rfl

/-! ### updRegs -/

@[simp] theorem State.updRegs_now (s : State) (f : Regs → Regs) : (s.updRegs f).now = s.now := rfl
@[simp] theorem State.updRegs_ftick (s : State) (f : Regs → Regs) : (s.updRegs f).ftick = s.ftick := rfl
@[simp] theorem State.updRegs_tfrac (s : State) (f : Regs → Regs) : (s.updRegs f).tfrac = s.tfrac := rfl
@[simp] theorem State.updRegs_thold (s : State) (f : Regs → Regs) : (s.updRegs f).thold = s.thold := rfl
@[simp] theorem State.updRegs_tadj (s : State) (f : Regs → Regs) : (s.updRegs f).tadj = s.tadj := rfl
@[simp] theorem State.updRegs_tlast (s : State) (f : Regs → Regs) : (s.updRegs f).tlast = s.tlast := rfl
@[simp] theorem State.updRegs_phase (s : State) (f : Regs → Regs) : (s.updRegs f).phase = s.phase := rfl
@[simp] theorem State.updRegs_agenda (s : State) (f : Regs → Regs) : (s.updRegs f).agenda = s.agenda := rfl
@[simp] theorem State.updRegs_inputs (s : State) (f : Regs → Regs) : (s.updRegs f).inputs = s.inputs := rfl
@[simp] theorem State.updRegs_nextId (s : State) (f : Regs → Regs) : (s.updRegs f).nextId = s.nextId := rfl
@[simp] theorem State.updRegs_freeCtr (s : State) (f : Regs → Regs) : (s.updRegs f).freeCtr = s.freeCtr := rfl
@[simp] theorem State.updRegs_powered (s : State) (f : Regs → Regs) : (s.updRegs f).powered = s.powered := rfl
@[simp] theorem State.updRegs_lasers (s : State) (f : Regs → Regs) : (s.updRegs f).lasers = s.lasers := rfl
@[simp] theorem State.updRegs_cores (s : State) (f : Regs → Regs) : (s.updRegs f).cores = s.cores := rfl
@[simp] theorem State.updRegs_fenced (s : State) (f : Regs → Regs) : (s.updRegs f).fenced = s.fenced := rfl
@[simp] theorem State.updRegs_dies (s : State) (f : Regs → Regs) : (s.updRegs f).dies = s.dies := rfl
@[simp] theorem State.updRegs_agents (s : State) (f : Regs → Regs) : (s.updRegs f).agents = s.agents := rfl
@[simp] theorem State.updRegs_stamps (s : State) (f : Regs → Regs) : (s.updRegs f).stamps = s.stamps := rfl
@[simp] theorem State.updRegs_flights (s : State) (f : Regs → Regs) : (s.updRegs f).flights = s.flights := rfl
@[simp] theorem State.updRegs_ctxs (s : State) (f : Regs → Regs) : (s.updRegs f).ctxs = s.ctxs := rfl
@[simp] theorem State.updRegs_queues (s : State) (f : Regs → Regs) : (s.updRegs f).queues = s.queues := rfl
@[simp] theorem State.updRegs_classPtr (s : State) (f : Regs → Regs) : (s.updRegs f).classPtr = s.classPtr := rfl
@[simp] theorem State.updRegs_classOn (s : State) (f : Regs → Regs) : (s.updRegs f).classOn = s.classOn := rfl
@[simp] theorem State.updRegs_nextStart (s : State) (f : Regs → Regs) : (s.updRegs f).nextStart = s.nextStart := rfl
@[simp] theorem State.updRegs_keep (s : State) (f : Regs → Regs) : (s.updRegs f).keep = s.keep := rfl
@[simp] theorem State.updRegs_grps (s : State) (f : Regs → Regs) : (s.updRegs f).grps = s.grps := rfl
@[simp] theorem State.updRegs_ridge (s : State) (f : Regs → Regs) : (s.updRegs f).ridge = s.ridge := rfl
@[simp] theorem State.updRegs_links (s : State) (f : Regs → Regs) : (s.updRegs f).links = s.links := rfl
@[simp] theorem State.updRegs_mem (s : State) (f : Regs → Regs) : (s.updRegs f).mem = s.mem := rfl
@[simp] theorem State.updRegs_core (s : State) (f : Regs → Regs) (j : Nat) : (s.updRegs f).core j = s.core j := rfl
@[simp] theorem State.updRegs_die (s : State) (f : Regs → Regs) (j : Nat) : (s.updRegs f).die j = s.die j := rfl
@[simp] theorem State.updRegs_agent (s : State) (f : Regs → Regs) (j : Nat) : (s.updRegs f).agent j = s.agent j := rfl
@[simp] theorem State.updRegs_ctx (s : State) (f : Regs → Regs) (j : Nat) : (s.updRegs f).ctx j = s.ctx j := rfl
@[simp] theorem State.updRegs_queue (s : State) (f : Regs → Regs) (j : Nat) : (s.updRegs f).queue j = s.queue j := rfl
@[simp] theorem State.updRegs_grp (s : State) (f : Regs → Regs) (j : Nat) : (s.updRegs f).grp j = s.grp j := rfl
@[simp] theorem State.updRegs_link (s : State) (f : Regs → Regs) (j : Nat) : (s.updRegs f).link j = s.link j := rfl
@[simp] theorem State.updRegs_xch (s : State) (f : Regs → Regs) (j : Nat) : (s.updRegs f).xch j = s.xch j := rfl
@[simp] theorem State.updRegs_eslot (s : State) (f : Regs → Regs) (j : Nat) : (s.updRegs f).eslot j = s.eslot j := rfl
@[simp] theorem State.updRegs_route (s : State) (f : Regs → Regs) (j k' : Nat) : (s.updRegs f).route j k' = s.route j k' := rfl
@[simp] theorem State.updRegs_plent (s : State) (f : Regs → Regs) (j k' : Nat) : (s.updRegs f).plent j k' = s.plent j k' := rfl
@[simp] theorem State.updRegs_slab (s : State) (f : Regs → Regs) (j k' : Nat) : (s.updRegs f).slab j k' = s.slab j k' := rfl
@[simp] theorem State.updRegs_regs (s : State) (f : Regs → Regs) : (s.updRegs f).regs = f s.regs := rfl

/-! ### updXch -/

@[simp] theorem State.updXch_now (s : State) (c : Nat) (f : XChan → XChan) : (s.updXch c f).now = s.now := rfl
@[simp] theorem State.updXch_ftick (s : State) (c : Nat) (f : XChan → XChan) : (s.updXch c f).ftick = s.ftick := rfl
@[simp] theorem State.updXch_tfrac (s : State) (c : Nat) (f : XChan → XChan) : (s.updXch c f).tfrac = s.tfrac := rfl
@[simp] theorem State.updXch_thold (s : State) (c : Nat) (f : XChan → XChan) : (s.updXch c f).thold = s.thold := rfl
@[simp] theorem State.updXch_tadj (s : State) (c : Nat) (f : XChan → XChan) : (s.updXch c f).tadj = s.tadj := rfl
@[simp] theorem State.updXch_tlast (s : State) (c : Nat) (f : XChan → XChan) : (s.updXch c f).tlast = s.tlast := rfl
@[simp] theorem State.updXch_phase (s : State) (c : Nat) (f : XChan → XChan) : (s.updXch c f).phase = s.phase := rfl
@[simp] theorem State.updXch_agenda (s : State) (c : Nat) (f : XChan → XChan) : (s.updXch c f).agenda = s.agenda := rfl
@[simp] theorem State.updXch_inputs (s : State) (c : Nat) (f : XChan → XChan) : (s.updXch c f).inputs = s.inputs := rfl
@[simp] theorem State.updXch_nextId (s : State) (c : Nat) (f : XChan → XChan) : (s.updXch c f).nextId = s.nextId := rfl
@[simp] theorem State.updXch_freeCtr (s : State) (c : Nat) (f : XChan → XChan) : (s.updXch c f).freeCtr = s.freeCtr := rfl
@[simp] theorem State.updXch_powered (s : State) (c : Nat) (f : XChan → XChan) : (s.updXch c f).powered = s.powered := rfl
@[simp] theorem State.updXch_lasers (s : State) (c : Nat) (f : XChan → XChan) : (s.updXch c f).lasers = s.lasers := rfl
@[simp] theorem State.updXch_cores (s : State) (c : Nat) (f : XChan → XChan) : (s.updXch c f).cores = s.cores := rfl
@[simp] theorem State.updXch_fenced (s : State) (c : Nat) (f : XChan → XChan) : (s.updXch c f).fenced = s.fenced := rfl
@[simp] theorem State.updXch_dies (s : State) (c : Nat) (f : XChan → XChan) : (s.updXch c f).dies = s.dies := rfl
@[simp] theorem State.updXch_agents (s : State) (c : Nat) (f : XChan → XChan) : (s.updXch c f).agents = s.agents := rfl
@[simp] theorem State.updXch_stamps (s : State) (c : Nat) (f : XChan → XChan) : (s.updXch c f).stamps = s.stamps := rfl
@[simp] theorem State.updXch_flights (s : State) (c : Nat) (f : XChan → XChan) : (s.updXch c f).flights = s.flights := rfl
@[simp] theorem State.updXch_ctxs (s : State) (c : Nat) (f : XChan → XChan) : (s.updXch c f).ctxs = s.ctxs := rfl
@[simp] theorem State.updXch_queues (s : State) (c : Nat) (f : XChan → XChan) : (s.updXch c f).queues = s.queues := rfl
@[simp] theorem State.updXch_classPtr (s : State) (c : Nat) (f : XChan → XChan) : (s.updXch c f).classPtr = s.classPtr := rfl
@[simp] theorem State.updXch_classOn (s : State) (c : Nat) (f : XChan → XChan) : (s.updXch c f).classOn = s.classOn := rfl
@[simp] theorem State.updXch_nextStart (s : State) (c : Nat) (f : XChan → XChan) : (s.updXch c f).nextStart = s.nextStart := rfl
@[simp] theorem State.updXch_keep (s : State) (c : Nat) (f : XChan → XChan) : (s.updXch c f).keep = s.keep := rfl
@[simp] theorem State.updXch_grps (s : State) (c : Nat) (f : XChan → XChan) : (s.updXch c f).grps = s.grps := rfl
@[simp] theorem State.updXch_links (s : State) (c : Nat) (f : XChan → XChan) : (s.updXch c f).links = s.links := rfl
@[simp] theorem State.updXch_regs (s : State) (c : Nat) (f : XChan → XChan) : (s.updXch c f).regs = s.regs := rfl
@[simp] theorem State.updXch_mem (s : State) (c : Nat) (f : XChan → XChan) : (s.updXch c f).mem = s.mem := rfl
@[simp] theorem State.updXch_core (s : State) (c : Nat) (f : XChan → XChan) (j : Nat) : (s.updXch c f).core j = s.core j := rfl
@[simp] theorem State.updXch_die (s : State) (c : Nat) (f : XChan → XChan) (j : Nat) : (s.updXch c f).die j = s.die j := rfl
@[simp] theorem State.updXch_agent (s : State) (c : Nat) (f : XChan → XChan) (j : Nat) : (s.updXch c f).agent j = s.agent j := rfl
@[simp] theorem State.updXch_ctx (s : State) (c : Nat) (f : XChan → XChan) (j : Nat) : (s.updXch c f).ctx j = s.ctx j := rfl
@[simp] theorem State.updXch_queue (s : State) (c : Nat) (f : XChan → XChan) (j : Nat) : (s.updXch c f).queue j = s.queue j := rfl
@[simp] theorem State.updXch_grp (s : State) (c : Nat) (f : XChan → XChan) (j : Nat) : (s.updXch c f).grp j = s.grp j := rfl
@[simp] theorem State.updXch_link (s : State) (c : Nat) (f : XChan → XChan) (j : Nat) : (s.updXch c f).link j = s.link j := rfl
@[simp] theorem State.updXch_route (s : State) (c : Nat) (f : XChan → XChan) (j k' : Nat) : (s.updXch c f).route j k' = s.route j k' := rfl
@[simp] theorem State.updXch_plent (s : State) (c : Nat) (f : XChan → XChan) (j k' : Nat) : (s.updXch c f).plent j k' = s.plent j k' := rfl
@[simp] theorem State.updXch_slab (s : State) (c : Nat) (f : XChan → XChan) (j k' : Nat) : (s.updXch c f).slab j k' = s.slab j k' := rfl
@[simp] theorem State.updXch_self (s : State) (c : Nat) (f : XChan → XChan) : (s.updXch c f).xch c = f (s.xch c) := by simp [State.updXch, State.updRidge, State.xch]

/-! ### updEslot -/

@[simp] theorem State.updEslot_now (s : State) (n : Nat) (f : ESlot → ESlot) : (s.updEslot n f).now = s.now := rfl
@[simp] theorem State.updEslot_ftick (s : State) (n : Nat) (f : ESlot → ESlot) : (s.updEslot n f).ftick = s.ftick := rfl
@[simp] theorem State.updEslot_tfrac (s : State) (n : Nat) (f : ESlot → ESlot) : (s.updEslot n f).tfrac = s.tfrac := rfl
@[simp] theorem State.updEslot_thold (s : State) (n : Nat) (f : ESlot → ESlot) : (s.updEslot n f).thold = s.thold := rfl
@[simp] theorem State.updEslot_tadj (s : State) (n : Nat) (f : ESlot → ESlot) : (s.updEslot n f).tadj = s.tadj := rfl
@[simp] theorem State.updEslot_tlast (s : State) (n : Nat) (f : ESlot → ESlot) : (s.updEslot n f).tlast = s.tlast := rfl
@[simp] theorem State.updEslot_phase (s : State) (n : Nat) (f : ESlot → ESlot) : (s.updEslot n f).phase = s.phase := rfl
@[simp] theorem State.updEslot_agenda (s : State) (n : Nat) (f : ESlot → ESlot) : (s.updEslot n f).agenda = s.agenda := rfl
@[simp] theorem State.updEslot_inputs (s : State) (n : Nat) (f : ESlot → ESlot) : (s.updEslot n f).inputs = s.inputs := rfl
@[simp] theorem State.updEslot_nextId (s : State) (n : Nat) (f : ESlot → ESlot) : (s.updEslot n f).nextId = s.nextId := rfl
@[simp] theorem State.updEslot_freeCtr (s : State) (n : Nat) (f : ESlot → ESlot) : (s.updEslot n f).freeCtr = s.freeCtr := rfl
@[simp] theorem State.updEslot_powered (s : State) (n : Nat) (f : ESlot → ESlot) : (s.updEslot n f).powered = s.powered := rfl
@[simp] theorem State.updEslot_lasers (s : State) (n : Nat) (f : ESlot → ESlot) : (s.updEslot n f).lasers = s.lasers := rfl
@[simp] theorem State.updEslot_cores (s : State) (n : Nat) (f : ESlot → ESlot) : (s.updEslot n f).cores = s.cores := rfl
@[simp] theorem State.updEslot_fenced (s : State) (n : Nat) (f : ESlot → ESlot) : (s.updEslot n f).fenced = s.fenced := rfl
@[simp] theorem State.updEslot_dies (s : State) (n : Nat) (f : ESlot → ESlot) : (s.updEslot n f).dies = s.dies := rfl
@[simp] theorem State.updEslot_agents (s : State) (n : Nat) (f : ESlot → ESlot) : (s.updEslot n f).agents = s.agents := rfl
@[simp] theorem State.updEslot_stamps (s : State) (n : Nat) (f : ESlot → ESlot) : (s.updEslot n f).stamps = s.stamps := rfl
@[simp] theorem State.updEslot_flights (s : State) (n : Nat) (f : ESlot → ESlot) : (s.updEslot n f).flights = s.flights := rfl
@[simp] theorem State.updEslot_ctxs (s : State) (n : Nat) (f : ESlot → ESlot) : (s.updEslot n f).ctxs = s.ctxs := rfl
@[simp] theorem State.updEslot_queues (s : State) (n : Nat) (f : ESlot → ESlot) : (s.updEslot n f).queues = s.queues := rfl
@[simp] theorem State.updEslot_classPtr (s : State) (n : Nat) (f : ESlot → ESlot) : (s.updEslot n f).classPtr = s.classPtr := rfl
@[simp] theorem State.updEslot_classOn (s : State) (n : Nat) (f : ESlot → ESlot) : (s.updEslot n f).classOn = s.classOn := rfl
@[simp] theorem State.updEslot_nextStart (s : State) (n : Nat) (f : ESlot → ESlot) : (s.updEslot n f).nextStart = s.nextStart := rfl
@[simp] theorem State.updEslot_keep (s : State) (n : Nat) (f : ESlot → ESlot) : (s.updEslot n f).keep = s.keep := rfl
@[simp] theorem State.updEslot_grps (s : State) (n : Nat) (f : ESlot → ESlot) : (s.updEslot n f).grps = s.grps := rfl
@[simp] theorem State.updEslot_links (s : State) (n : Nat) (f : ESlot → ESlot) : (s.updEslot n f).links = s.links := rfl
@[simp] theorem State.updEslot_regs (s : State) (n : Nat) (f : ESlot → ESlot) : (s.updEslot n f).regs = s.regs := rfl
@[simp] theorem State.updEslot_mem (s : State) (n : Nat) (f : ESlot → ESlot) : (s.updEslot n f).mem = s.mem := rfl
@[simp] theorem State.updEslot_core (s : State) (n : Nat) (f : ESlot → ESlot) (j : Nat) : (s.updEslot n f).core j = s.core j := rfl
@[simp] theorem State.updEslot_die (s : State) (n : Nat) (f : ESlot → ESlot) (j : Nat) : (s.updEslot n f).die j = s.die j := rfl
@[simp] theorem State.updEslot_agent (s : State) (n : Nat) (f : ESlot → ESlot) (j : Nat) : (s.updEslot n f).agent j = s.agent j := rfl
@[simp] theorem State.updEslot_ctx (s : State) (n : Nat) (f : ESlot → ESlot) (j : Nat) : (s.updEslot n f).ctx j = s.ctx j := rfl
@[simp] theorem State.updEslot_queue (s : State) (n : Nat) (f : ESlot → ESlot) (j : Nat) : (s.updEslot n f).queue j = s.queue j := rfl
@[simp] theorem State.updEslot_grp (s : State) (n : Nat) (f : ESlot → ESlot) (j : Nat) : (s.updEslot n f).grp j = s.grp j := rfl
@[simp] theorem State.updEslot_link (s : State) (n : Nat) (f : ESlot → ESlot) (j : Nat) : (s.updEslot n f).link j = s.link j := rfl
@[simp] theorem State.updEslot_route (s : State) (n : Nat) (f : ESlot → ESlot) (j k' : Nat) : (s.updEslot n f).route j k' = s.route j k' := rfl
@[simp] theorem State.updEslot_plent (s : State) (n : Nat) (f : ESlot → ESlot) (j k' : Nat) : (s.updEslot n f).plent j k' = s.plent j k' := rfl
@[simp] theorem State.updEslot_slab (s : State) (n : Nat) (f : ESlot → ESlot) (j k' : Nat) : (s.updEslot n f).slab j k' = s.slab j k' := rfl
@[simp] theorem State.updEslot_self (s : State) (n : Nat) (f : ESlot → ESlot) : (s.updEslot n f).eslot n = f (s.eslot n) := by simp [State.updEslot, State.updRidge, State.eslot]

/-! ### updRoute -/

@[simp] theorem State.updRoute_now (s : State) (c r : Nat) (f : Route → Route) : (s.updRoute c r f).now = s.now := rfl
@[simp] theorem State.updRoute_ftick (s : State) (c r : Nat) (f : Route → Route) : (s.updRoute c r f).ftick = s.ftick := rfl
@[simp] theorem State.updRoute_tfrac (s : State) (c r : Nat) (f : Route → Route) : (s.updRoute c r f).tfrac = s.tfrac := rfl
@[simp] theorem State.updRoute_thold (s : State) (c r : Nat) (f : Route → Route) : (s.updRoute c r f).thold = s.thold := rfl
@[simp] theorem State.updRoute_tadj (s : State) (c r : Nat) (f : Route → Route) : (s.updRoute c r f).tadj = s.tadj := rfl
@[simp] theorem State.updRoute_tlast (s : State) (c r : Nat) (f : Route → Route) : (s.updRoute c r f).tlast = s.tlast := rfl
@[simp] theorem State.updRoute_phase (s : State) (c r : Nat) (f : Route → Route) : (s.updRoute c r f).phase = s.phase := rfl
@[simp] theorem State.updRoute_agenda (s : State) (c r : Nat) (f : Route → Route) : (s.updRoute c r f).agenda = s.agenda := rfl
@[simp] theorem State.updRoute_inputs (s : State) (c r : Nat) (f : Route → Route) : (s.updRoute c r f).inputs = s.inputs := rfl
@[simp] theorem State.updRoute_nextId (s : State) (c r : Nat) (f : Route → Route) : (s.updRoute c r f).nextId = s.nextId := rfl
@[simp] theorem State.updRoute_freeCtr (s : State) (c r : Nat) (f : Route → Route) : (s.updRoute c r f).freeCtr = s.freeCtr := rfl
@[simp] theorem State.updRoute_powered (s : State) (c r : Nat) (f : Route → Route) : (s.updRoute c r f).powered = s.powered := rfl
@[simp] theorem State.updRoute_lasers (s : State) (c r : Nat) (f : Route → Route) : (s.updRoute c r f).lasers = s.lasers := rfl
@[simp] theorem State.updRoute_cores (s : State) (c r : Nat) (f : Route → Route) : (s.updRoute c r f).cores = s.cores := rfl
@[simp] theorem State.updRoute_fenced (s : State) (c r : Nat) (f : Route → Route) : (s.updRoute c r f).fenced = s.fenced := rfl
@[simp] theorem State.updRoute_dies (s : State) (c r : Nat) (f : Route → Route) : (s.updRoute c r f).dies = s.dies := rfl
@[simp] theorem State.updRoute_agents (s : State) (c r : Nat) (f : Route → Route) : (s.updRoute c r f).agents = s.agents := rfl
@[simp] theorem State.updRoute_stamps (s : State) (c r : Nat) (f : Route → Route) : (s.updRoute c r f).stamps = s.stamps := rfl
@[simp] theorem State.updRoute_flights (s : State) (c r : Nat) (f : Route → Route) : (s.updRoute c r f).flights = s.flights := rfl
@[simp] theorem State.updRoute_queues (s : State) (c r : Nat) (f : Route → Route) : (s.updRoute c r f).queues = s.queues := rfl
@[simp] theorem State.updRoute_classPtr (s : State) (c r : Nat) (f : Route → Route) : (s.updRoute c r f).classPtr = s.classPtr := rfl
@[simp] theorem State.updRoute_classOn (s : State) (c r : Nat) (f : Route → Route) : (s.updRoute c r f).classOn = s.classOn := rfl
@[simp] theorem State.updRoute_nextStart (s : State) (c r : Nat) (f : Route → Route) : (s.updRoute c r f).nextStart = s.nextStart := rfl
@[simp] theorem State.updRoute_keep (s : State) (c r : Nat) (f : Route → Route) : (s.updRoute c r f).keep = s.keep := rfl
@[simp] theorem State.updRoute_grps (s : State) (c r : Nat) (f : Route → Route) : (s.updRoute c r f).grps = s.grps := rfl
@[simp] theorem State.updRoute_ridge (s : State) (c r : Nat) (f : Route → Route) : (s.updRoute c r f).ridge = s.ridge := rfl
@[simp] theorem State.updRoute_links (s : State) (c r : Nat) (f : Route → Route) : (s.updRoute c r f).links = s.links := rfl
@[simp] theorem State.updRoute_regs (s : State) (c r : Nat) (f : Route → Route) : (s.updRoute c r f).regs = s.regs := rfl
@[simp] theorem State.updRoute_mem (s : State) (c r : Nat) (f : Route → Route) : (s.updRoute c r f).mem = s.mem := rfl
@[simp] theorem State.updRoute_core (s : State) (c r : Nat) (f : Route → Route) (j : Nat) : (s.updRoute c r f).core j = s.core j := rfl
@[simp] theorem State.updRoute_die (s : State) (c r : Nat) (f : Route → Route) (j : Nat) : (s.updRoute c r f).die j = s.die j := rfl
@[simp] theorem State.updRoute_agent (s : State) (c r : Nat) (f : Route → Route) (j : Nat) : (s.updRoute c r f).agent j = s.agent j := rfl
@[simp] theorem State.updRoute_queue (s : State) (c r : Nat) (f : Route → Route) (j : Nat) : (s.updRoute c r f).queue j = s.queue j := rfl
@[simp] theorem State.updRoute_grp (s : State) (c r : Nat) (f : Route → Route) (j : Nat) : (s.updRoute c r f).grp j = s.grp j := rfl
@[simp] theorem State.updRoute_link (s : State) (c r : Nat) (f : Route → Route) (j : Nat) : (s.updRoute c r f).link j = s.link j := rfl
@[simp] theorem State.updRoute_xch (s : State) (c r : Nat) (f : Route → Route) (j : Nat) : (s.updRoute c r f).xch j = s.xch j := rfl
@[simp] theorem State.updRoute_eslot (s : State) (c r : Nat) (f : Route → Route) (j : Nat) : (s.updRoute c r f).eslot j = s.eslot j := rfl
@[simp] theorem State.updRoute_self (s : State) (c r : Nat) (f : Route → Route) : (s.updRoute c r f).route c r = f (s.route c r) := by simp [State.updRoute, State.route]

/-! ### updPlent -/

@[simp] theorem State.updPlent_now (s : State) (c e : Nat) (f : PlEnt → PlEnt) : (s.updPlent c e f).now = s.now := rfl
@[simp] theorem State.updPlent_ftick (s : State) (c e : Nat) (f : PlEnt → PlEnt) : (s.updPlent c e f).ftick = s.ftick := rfl
@[simp] theorem State.updPlent_tfrac (s : State) (c e : Nat) (f : PlEnt → PlEnt) : (s.updPlent c e f).tfrac = s.tfrac := rfl
@[simp] theorem State.updPlent_thold (s : State) (c e : Nat) (f : PlEnt → PlEnt) : (s.updPlent c e f).thold = s.thold := rfl
@[simp] theorem State.updPlent_tadj (s : State) (c e : Nat) (f : PlEnt → PlEnt) : (s.updPlent c e f).tadj = s.tadj := rfl
@[simp] theorem State.updPlent_tlast (s : State) (c e : Nat) (f : PlEnt → PlEnt) : (s.updPlent c e f).tlast = s.tlast := rfl
@[simp] theorem State.updPlent_phase (s : State) (c e : Nat) (f : PlEnt → PlEnt) : (s.updPlent c e f).phase = s.phase := rfl
@[simp] theorem State.updPlent_agenda (s : State) (c e : Nat) (f : PlEnt → PlEnt) : (s.updPlent c e f).agenda = s.agenda := rfl
@[simp] theorem State.updPlent_inputs (s : State) (c e : Nat) (f : PlEnt → PlEnt) : (s.updPlent c e f).inputs = s.inputs := rfl
@[simp] theorem State.updPlent_nextId (s : State) (c e : Nat) (f : PlEnt → PlEnt) : (s.updPlent c e f).nextId = s.nextId := rfl
@[simp] theorem State.updPlent_freeCtr (s : State) (c e : Nat) (f : PlEnt → PlEnt) : (s.updPlent c e f).freeCtr = s.freeCtr := rfl
@[simp] theorem State.updPlent_powered (s : State) (c e : Nat) (f : PlEnt → PlEnt) : (s.updPlent c e f).powered = s.powered := rfl
@[simp] theorem State.updPlent_lasers (s : State) (c e : Nat) (f : PlEnt → PlEnt) : (s.updPlent c e f).lasers = s.lasers := rfl
@[simp] theorem State.updPlent_cores (s : State) (c e : Nat) (f : PlEnt → PlEnt) : (s.updPlent c e f).cores = s.cores := rfl
@[simp] theorem State.updPlent_fenced (s : State) (c e : Nat) (f : PlEnt → PlEnt) : (s.updPlent c e f).fenced = s.fenced := rfl
@[simp] theorem State.updPlent_dies (s : State) (c e : Nat) (f : PlEnt → PlEnt) : (s.updPlent c e f).dies = s.dies := rfl
@[simp] theorem State.updPlent_agents (s : State) (c e : Nat) (f : PlEnt → PlEnt) : (s.updPlent c e f).agents = s.agents := rfl
@[simp] theorem State.updPlent_stamps (s : State) (c e : Nat) (f : PlEnt → PlEnt) : (s.updPlent c e f).stamps = s.stamps := rfl
@[simp] theorem State.updPlent_flights (s : State) (c e : Nat) (f : PlEnt → PlEnt) : (s.updPlent c e f).flights = s.flights := rfl
@[simp] theorem State.updPlent_queues (s : State) (c e : Nat) (f : PlEnt → PlEnt) : (s.updPlent c e f).queues = s.queues := rfl
@[simp] theorem State.updPlent_classPtr (s : State) (c e : Nat) (f : PlEnt → PlEnt) : (s.updPlent c e f).classPtr = s.classPtr := rfl
@[simp] theorem State.updPlent_classOn (s : State) (c e : Nat) (f : PlEnt → PlEnt) : (s.updPlent c e f).classOn = s.classOn := rfl
@[simp] theorem State.updPlent_nextStart (s : State) (c e : Nat) (f : PlEnt → PlEnt) : (s.updPlent c e f).nextStart = s.nextStart := rfl
@[simp] theorem State.updPlent_keep (s : State) (c e : Nat) (f : PlEnt → PlEnt) : (s.updPlent c e f).keep = s.keep := rfl
@[simp] theorem State.updPlent_grps (s : State) (c e : Nat) (f : PlEnt → PlEnt) : (s.updPlent c e f).grps = s.grps := rfl
@[simp] theorem State.updPlent_ridge (s : State) (c e : Nat) (f : PlEnt → PlEnt) : (s.updPlent c e f).ridge = s.ridge := rfl
@[simp] theorem State.updPlent_links (s : State) (c e : Nat) (f : PlEnt → PlEnt) : (s.updPlent c e f).links = s.links := rfl
@[simp] theorem State.updPlent_regs (s : State) (c e : Nat) (f : PlEnt → PlEnt) : (s.updPlent c e f).regs = s.regs := rfl
@[simp] theorem State.updPlent_mem (s : State) (c e : Nat) (f : PlEnt → PlEnt) : (s.updPlent c e f).mem = s.mem := rfl
@[simp] theorem State.updPlent_core (s : State) (c e : Nat) (f : PlEnt → PlEnt) (j : Nat) : (s.updPlent c e f).core j = s.core j := rfl
@[simp] theorem State.updPlent_die (s : State) (c e : Nat) (f : PlEnt → PlEnt) (j : Nat) : (s.updPlent c e f).die j = s.die j := rfl
@[simp] theorem State.updPlent_agent (s : State) (c e : Nat) (f : PlEnt → PlEnt) (j : Nat) : (s.updPlent c e f).agent j = s.agent j := rfl
@[simp] theorem State.updPlent_queue (s : State) (c e : Nat) (f : PlEnt → PlEnt) (j : Nat) : (s.updPlent c e f).queue j = s.queue j := rfl
@[simp] theorem State.updPlent_grp (s : State) (c e : Nat) (f : PlEnt → PlEnt) (j : Nat) : (s.updPlent c e f).grp j = s.grp j := rfl
@[simp] theorem State.updPlent_link (s : State) (c e : Nat) (f : PlEnt → PlEnt) (j : Nat) : (s.updPlent c e f).link j = s.link j := rfl
@[simp] theorem State.updPlent_xch (s : State) (c e : Nat) (f : PlEnt → PlEnt) (j : Nat) : (s.updPlent c e f).xch j = s.xch j := rfl
@[simp] theorem State.updPlent_eslot (s : State) (c e : Nat) (f : PlEnt → PlEnt) (j : Nat) : (s.updPlent c e f).eslot j = s.eslot j := rfl
@[simp] theorem State.updPlent_self (s : State) (c e : Nat) (f : PlEnt → PlEnt) : (s.updPlent c e f).plent c e = f (s.plent c e) := by simp [State.updPlent, State.plent]

/-! ### updSlab -/

@[simp] theorem State.updSlab_now (s : State) (c k : Nat) (f : Slab → Slab) : (s.updSlab c k f).now = s.now := rfl
@[simp] theorem State.updSlab_ftick (s : State) (c k : Nat) (f : Slab → Slab) : (s.updSlab c k f).ftick = s.ftick := rfl
@[simp] theorem State.updSlab_tfrac (s : State) (c k : Nat) (f : Slab → Slab) : (s.updSlab c k f).tfrac = s.tfrac := rfl
@[simp] theorem State.updSlab_thold (s : State) (c k : Nat) (f : Slab → Slab) : (s.updSlab c k f).thold = s.thold := rfl
@[simp] theorem State.updSlab_tadj (s : State) (c k : Nat) (f : Slab → Slab) : (s.updSlab c k f).tadj = s.tadj := rfl
@[simp] theorem State.updSlab_tlast (s : State) (c k : Nat) (f : Slab → Slab) : (s.updSlab c k f).tlast = s.tlast := rfl
@[simp] theorem State.updSlab_phase (s : State) (c k : Nat) (f : Slab → Slab) : (s.updSlab c k f).phase = s.phase := rfl
@[simp] theorem State.updSlab_agenda (s : State) (c k : Nat) (f : Slab → Slab) : (s.updSlab c k f).agenda = s.agenda := rfl
@[simp] theorem State.updSlab_inputs (s : State) (c k : Nat) (f : Slab → Slab) : (s.updSlab c k f).inputs = s.inputs := rfl
@[simp] theorem State.updSlab_nextId (s : State) (c k : Nat) (f : Slab → Slab) : (s.updSlab c k f).nextId = s.nextId := rfl
@[simp] theorem State.updSlab_freeCtr (s : State) (c k : Nat) (f : Slab → Slab) : (s.updSlab c k f).freeCtr = s.freeCtr := rfl
@[simp] theorem State.updSlab_powered (s : State) (c k : Nat) (f : Slab → Slab) : (s.updSlab c k f).powered = s.powered := rfl
@[simp] theorem State.updSlab_lasers (s : State) (c k : Nat) (f : Slab → Slab) : (s.updSlab c k f).lasers = s.lasers := rfl
@[simp] theorem State.updSlab_cores (s : State) (c k : Nat) (f : Slab → Slab) : (s.updSlab c k f).cores = s.cores := rfl
@[simp] theorem State.updSlab_fenced (s : State) (c k : Nat) (f : Slab → Slab) : (s.updSlab c k f).fenced = s.fenced := rfl
@[simp] theorem State.updSlab_dies (s : State) (c k : Nat) (f : Slab → Slab) : (s.updSlab c k f).dies = s.dies := rfl
@[simp] theorem State.updSlab_agents (s : State) (c k : Nat) (f : Slab → Slab) : (s.updSlab c k f).agents = s.agents := rfl
@[simp] theorem State.updSlab_stamps (s : State) (c k : Nat) (f : Slab → Slab) : (s.updSlab c k f).stamps = s.stamps := rfl
@[simp] theorem State.updSlab_flights (s : State) (c k : Nat) (f : Slab → Slab) : (s.updSlab c k f).flights = s.flights := rfl
@[simp] theorem State.updSlab_queues (s : State) (c k : Nat) (f : Slab → Slab) : (s.updSlab c k f).queues = s.queues := rfl
@[simp] theorem State.updSlab_classPtr (s : State) (c k : Nat) (f : Slab → Slab) : (s.updSlab c k f).classPtr = s.classPtr := rfl
@[simp] theorem State.updSlab_classOn (s : State) (c k : Nat) (f : Slab → Slab) : (s.updSlab c k f).classOn = s.classOn := rfl
@[simp] theorem State.updSlab_nextStart (s : State) (c k : Nat) (f : Slab → Slab) : (s.updSlab c k f).nextStart = s.nextStart := rfl
@[simp] theorem State.updSlab_keep (s : State) (c k : Nat) (f : Slab → Slab) : (s.updSlab c k f).keep = s.keep := rfl
@[simp] theorem State.updSlab_grps (s : State) (c k : Nat) (f : Slab → Slab) : (s.updSlab c k f).grps = s.grps := rfl
@[simp] theorem State.updSlab_ridge (s : State) (c k : Nat) (f : Slab → Slab) : (s.updSlab c k f).ridge = s.ridge := rfl
@[simp] theorem State.updSlab_links (s : State) (c k : Nat) (f : Slab → Slab) : (s.updSlab c k f).links = s.links := rfl
@[simp] theorem State.updSlab_regs (s : State) (c k : Nat) (f : Slab → Slab) : (s.updSlab c k f).regs = s.regs := rfl
@[simp] theorem State.updSlab_mem (s : State) (c k : Nat) (f : Slab → Slab) : (s.updSlab c k f).mem = s.mem := rfl
@[simp] theorem State.updSlab_core (s : State) (c k : Nat) (f : Slab → Slab) (j : Nat) : (s.updSlab c k f).core j = s.core j := rfl
@[simp] theorem State.updSlab_die (s : State) (c k : Nat) (f : Slab → Slab) (j : Nat) : (s.updSlab c k f).die j = s.die j := rfl
@[simp] theorem State.updSlab_agent (s : State) (c k : Nat) (f : Slab → Slab) (j : Nat) : (s.updSlab c k f).agent j = s.agent j := rfl
@[simp] theorem State.updSlab_queue (s : State) (c k : Nat) (f : Slab → Slab) (j : Nat) : (s.updSlab c k f).queue j = s.queue j := rfl
@[simp] theorem State.updSlab_grp (s : State) (c k : Nat) (f : Slab → Slab) (j : Nat) : (s.updSlab c k f).grp j = s.grp j := rfl
@[simp] theorem State.updSlab_link (s : State) (c k : Nat) (f : Slab → Slab) (j : Nat) : (s.updSlab c k f).link j = s.link j := rfl
@[simp] theorem State.updSlab_xch (s : State) (c k : Nat) (f : Slab → Slab) (j : Nat) : (s.updSlab c k f).xch j = s.xch j := rfl
@[simp] theorem State.updSlab_eslot (s : State) (c k : Nat) (f : Slab → Slab) (j : Nat) : (s.updSlab c k f).eslot j = s.eslot j := rfl
@[simp] theorem State.updSlab_self (s : State) (c k : Nat) (f : Slab → Slab) : (s.updSlab c k f).slab c k = f (s.slab c k) := by simp [State.updSlab, State.slab]

/-! ### bump -/

@[simp] theorem State.bump_now (s : State) : s.bump.now = s.now := rfl
@[simp] theorem State.bump_ftick (s : State) : s.bump.ftick = s.ftick := rfl
@[simp] theorem State.bump_tfrac (s : State) : s.bump.tfrac = s.tfrac := rfl
@[simp] theorem State.bump_thold (s : State) : s.bump.thold = s.thold := rfl
@[simp] theorem State.bump_tadj (s : State) : s.bump.tadj = s.tadj := rfl
@[simp] theorem State.bump_tlast (s : State) : s.bump.tlast = s.tlast := rfl
@[simp] theorem State.bump_phase (s : State) : s.bump.phase = s.phase := rfl
@[simp] theorem State.bump_agenda (s : State) : s.bump.agenda = s.agenda := rfl
@[simp] theorem State.bump_inputs (s : State) : s.bump.inputs = s.inputs := rfl
@[simp] theorem State.bump_freeCtr (s : State) : s.bump.freeCtr = s.freeCtr := rfl
@[simp] theorem State.bump_powered (s : State) : s.bump.powered = s.powered := rfl
@[simp] theorem State.bump_lasers (s : State) : s.bump.lasers = s.lasers := rfl
@[simp] theorem State.bump_cores (s : State) : s.bump.cores = s.cores := rfl
@[simp] theorem State.bump_fenced (s : State) : s.bump.fenced = s.fenced := rfl
@[simp] theorem State.bump_dies (s : State) : s.bump.dies = s.dies := rfl
@[simp] theorem State.bump_agents (s : State) : s.bump.agents = s.agents := rfl
@[simp] theorem State.bump_stamps (s : State) : s.bump.stamps = s.stamps := rfl
@[simp] theorem State.bump_flights (s : State) : s.bump.flights = s.flights := rfl
@[simp] theorem State.bump_ctxs (s : State) : s.bump.ctxs = s.ctxs := rfl
@[simp] theorem State.bump_queues (s : State) : s.bump.queues = s.queues := rfl
@[simp] theorem State.bump_classPtr (s : State) : s.bump.classPtr = s.classPtr := rfl
@[simp] theorem State.bump_classOn (s : State) : s.bump.classOn = s.classOn := rfl
@[simp] theorem State.bump_nextStart (s : State) : s.bump.nextStart = s.nextStart := rfl
@[simp] theorem State.bump_keep (s : State) : s.bump.keep = s.keep := rfl
@[simp] theorem State.bump_grps (s : State) : s.bump.grps = s.grps := rfl
@[simp] theorem State.bump_ridge (s : State) : s.bump.ridge = s.ridge := rfl
@[simp] theorem State.bump_links (s : State) : s.bump.links = s.links := rfl
@[simp] theorem State.bump_regs (s : State) : s.bump.regs = s.regs := rfl
@[simp] theorem State.bump_mem (s : State) : s.bump.mem = s.mem := rfl
@[simp] theorem State.bump_core (s : State) (j : Nat) : s.bump.core j = s.core j := rfl
@[simp] theorem State.bump_die (s : State) (j : Nat) : s.bump.die j = s.die j := rfl
@[simp] theorem State.bump_agent (s : State) (j : Nat) : s.bump.agent j = s.agent j := rfl
@[simp] theorem State.bump_ctx (s : State) (j : Nat) : s.bump.ctx j = s.ctx j := rfl
@[simp] theorem State.bump_queue (s : State) (j : Nat) : s.bump.queue j = s.queue j := rfl
@[simp] theorem State.bump_grp (s : State) (j : Nat) : s.bump.grp j = s.grp j := rfl
@[simp] theorem State.bump_link (s : State) (j : Nat) : s.bump.link j = s.link j := rfl
@[simp] theorem State.bump_xch (s : State) (j : Nat) : s.bump.xch j = s.xch j := rfl
@[simp] theorem State.bump_eslot (s : State) (j : Nat) : s.bump.eslot j = s.eslot j := rfl
@[simp] theorem State.bump_route (s : State) (j k' : Nat) : s.bump.route j k' = s.route j k' := rfl
@[simp] theorem State.bump_plent (s : State) (j k' : Nat) : s.bump.plent j k' = s.plent j k' := rfl
@[simp] theorem State.bump_slab (s : State) (j k' : Nat) : s.bump.slab j k' = s.slab j k' := rfl
@[simp] theorem State.bump_nextId (s : State) : s.bump.nextId = s.nextId + 1 := rfl

/-! ### sched -/

@[simp] theorem State.sched_now (s : State) (t : Nat) (i : Instr) : (s.sched t i).now = s.now := rfl
@[simp] theorem State.sched_ftick (s : State) (t : Nat) (i : Instr) : (s.sched t i).ftick = s.ftick := rfl
@[simp] theorem State.sched_tfrac (s : State) (t : Nat) (i : Instr) : (s.sched t i).tfrac = s.tfrac := rfl
@[simp] theorem State.sched_thold (s : State) (t : Nat) (i : Instr) : (s.sched t i).thold = s.thold := rfl
@[simp] theorem State.sched_tadj (s : State) (t : Nat) (i : Instr) : (s.sched t i).tadj = s.tadj := rfl
@[simp] theorem State.sched_tlast (s : State) (t : Nat) (i : Instr) : (s.sched t i).tlast = s.tlast := rfl
@[simp] theorem State.sched_phase (s : State) (t : Nat) (i : Instr) : (s.sched t i).phase = s.phase := rfl
@[simp] theorem State.sched_inputs (s : State) (t : Nat) (i : Instr) : (s.sched t i).inputs = s.inputs := rfl
@[simp] theorem State.sched_nextId (s : State) (t : Nat) (i : Instr) : (s.sched t i).nextId = s.nextId := rfl
@[simp] theorem State.sched_freeCtr (s : State) (t : Nat) (i : Instr) : (s.sched t i).freeCtr = s.freeCtr := rfl
@[simp] theorem State.sched_powered (s : State) (t : Nat) (i : Instr) : (s.sched t i).powered = s.powered := rfl
@[simp] theorem State.sched_lasers (s : State) (t : Nat) (i : Instr) : (s.sched t i).lasers = s.lasers := rfl
@[simp] theorem State.sched_cores (s : State) (t : Nat) (i : Instr) : (s.sched t i).cores = s.cores := rfl
@[simp] theorem State.sched_fenced (s : State) (t : Nat) (i : Instr) : (s.sched t i).fenced = s.fenced := rfl
@[simp] theorem State.sched_dies (s : State) (t : Nat) (i : Instr) : (s.sched t i).dies = s.dies := rfl
@[simp] theorem State.sched_agents (s : State) (t : Nat) (i : Instr) : (s.sched t i).agents = s.agents := rfl
@[simp] theorem State.sched_stamps (s : State) (t : Nat) (i : Instr) : (s.sched t i).stamps = s.stamps := rfl
@[simp] theorem State.sched_flights (s : State) (t : Nat) (i : Instr) : (s.sched t i).flights = s.flights := rfl
@[simp] theorem State.sched_ctxs (s : State) (t : Nat) (i : Instr) : (s.sched t i).ctxs = s.ctxs := rfl
@[simp] theorem State.sched_queues (s : State) (t : Nat) (i : Instr) : (s.sched t i).queues = s.queues := rfl
@[simp] theorem State.sched_classPtr (s : State) (t : Nat) (i : Instr) : (s.sched t i).classPtr = s.classPtr := rfl
@[simp] theorem State.sched_classOn (s : State) (t : Nat) (i : Instr) : (s.sched t i).classOn = s.classOn := rfl
@[simp] theorem State.sched_nextStart (s : State) (t : Nat) (i : Instr) : (s.sched t i).nextStart = s.nextStart := rfl
@[simp] theorem State.sched_keep (s : State) (t : Nat) (i : Instr) : (s.sched t i).keep = s.keep := rfl
@[simp] theorem State.sched_grps (s : State) (t : Nat) (i : Instr) : (s.sched t i).grps = s.grps := rfl
@[simp] theorem State.sched_ridge (s : State) (t : Nat) (i : Instr) : (s.sched t i).ridge = s.ridge := rfl
@[simp] theorem State.sched_links (s : State) (t : Nat) (i : Instr) : (s.sched t i).links = s.links := rfl
@[simp] theorem State.sched_regs (s : State) (t : Nat) (i : Instr) : (s.sched t i).regs = s.regs := rfl
@[simp] theorem State.sched_mem (s : State) (t : Nat) (i : Instr) : (s.sched t i).mem = s.mem := rfl
@[simp] theorem State.sched_core (s : State) (t : Nat) (i : Instr) (j : Nat) : (s.sched t i).core j = s.core j := rfl
@[simp] theorem State.sched_die (s : State) (t : Nat) (i : Instr) (j : Nat) : (s.sched t i).die j = s.die j := rfl
@[simp] theorem State.sched_agent (s : State) (t : Nat) (i : Instr) (j : Nat) : (s.sched t i).agent j = s.agent j := rfl
@[simp] theorem State.sched_ctx (s : State) (t : Nat) (i : Instr) (j : Nat) : (s.sched t i).ctx j = s.ctx j := rfl
@[simp] theorem State.sched_queue (s : State) (t : Nat) (i : Instr) (j : Nat) : (s.sched t i).queue j = s.queue j := rfl
@[simp] theorem State.sched_grp (s : State) (t : Nat) (i : Instr) (j : Nat) : (s.sched t i).grp j = s.grp j := rfl
@[simp] theorem State.sched_link (s : State) (t : Nat) (i : Instr) (j : Nat) : (s.sched t i).link j = s.link j := rfl
@[simp] theorem State.sched_xch (s : State) (t : Nat) (i : Instr) (j : Nat) : (s.sched t i).xch j = s.xch j := rfl
@[simp] theorem State.sched_eslot (s : State) (t : Nat) (i : Instr) (j : Nat) : (s.sched t i).eslot j = s.eslot j := rfl
@[simp] theorem State.sched_route (s : State) (t : Nat) (i : Instr) (j k' : Nat) : (s.sched t i).route j k' = s.route j k' := rfl
@[simp] theorem State.sched_plent (s : State) (t : Nat) (i : Instr) (j k' : Nat) : (s.sched t i).plent j k' = s.plent j k' := rfl
@[simp] theorem State.sched_slab (s : State) (t : Nat) (i : Instr) (j k' : Nat) : (s.sched t i).slab j k' = s.slab j k' := rfl
@[simp] theorem State.sched_agenda (s : State) (t : Nat) (i : Instr) : (s.sched t i).agenda = insertDue t i s.agenda := rfl

/-! ### after -/

@[simp] theorem State.after_now (s : State) (d : Nat) (i : Instr) : (s.after d i).now = s.now := rfl
@[simp] theorem State.after_ftick (s : State) (d : Nat) (i : Instr) : (s.after d i).ftick = s.ftick := rfl
@[simp] theorem State.after_tfrac (s : State) (d : Nat) (i : Instr) : (s.after d i).tfrac = s.tfrac := rfl
@[simp] theorem State.after_thold (s : State) (d : Nat) (i : Instr) : (s.after d i).thold = s.thold := rfl
@[simp] theorem State.after_tadj (s : State) (d : Nat) (i : Instr) : (s.after d i).tadj = s.tadj := rfl
@[simp] theorem State.after_tlast (s : State) (d : Nat) (i : Instr) : (s.after d i).tlast = s.tlast := rfl
@[simp] theorem State.after_phase (s : State) (d : Nat) (i : Instr) : (s.after d i).phase = s.phase := rfl
@[simp] theorem State.after_inputs (s : State) (d : Nat) (i : Instr) : (s.after d i).inputs = s.inputs := rfl
@[simp] theorem State.after_nextId (s : State) (d : Nat) (i : Instr) : (s.after d i).nextId = s.nextId := rfl
@[simp] theorem State.after_freeCtr (s : State) (d : Nat) (i : Instr) : (s.after d i).freeCtr = s.freeCtr := rfl
@[simp] theorem State.after_powered (s : State) (d : Nat) (i : Instr) : (s.after d i).powered = s.powered := rfl
@[simp] theorem State.after_lasers (s : State) (d : Nat) (i : Instr) : (s.after d i).lasers = s.lasers := rfl
@[simp] theorem State.after_cores (s : State) (d : Nat) (i : Instr) : (s.after d i).cores = s.cores := rfl
@[simp] theorem State.after_fenced (s : State) (d : Nat) (i : Instr) : (s.after d i).fenced = s.fenced := rfl
@[simp] theorem State.after_dies (s : State) (d : Nat) (i : Instr) : (s.after d i).dies = s.dies := rfl
@[simp] theorem State.after_agents (s : State) (d : Nat) (i : Instr) : (s.after d i).agents = s.agents := rfl
@[simp] theorem State.after_stamps (s : State) (d : Nat) (i : Instr) : (s.after d i).stamps = s.stamps := rfl
@[simp] theorem State.after_flights (s : State) (d : Nat) (i : Instr) : (s.after d i).flights = s.flights := rfl
@[simp] theorem State.after_ctxs (s : State) (d : Nat) (i : Instr) : (s.after d i).ctxs = s.ctxs := rfl
@[simp] theorem State.after_queues (s : State) (d : Nat) (i : Instr) : (s.after d i).queues = s.queues := rfl
@[simp] theorem State.after_classPtr (s : State) (d : Nat) (i : Instr) : (s.after d i).classPtr = s.classPtr := rfl
@[simp] theorem State.after_classOn (s : State) (d : Nat) (i : Instr) : (s.after d i).classOn = s.classOn := rfl
@[simp] theorem State.after_nextStart (s : State) (d : Nat) (i : Instr) : (s.after d i).nextStart = s.nextStart := rfl
@[simp] theorem State.after_keep (s : State) (d : Nat) (i : Instr) : (s.after d i).keep = s.keep := rfl
@[simp] theorem State.after_grps (s : State) (d : Nat) (i : Instr) : (s.after d i).grps = s.grps := rfl
@[simp] theorem State.after_ridge (s : State) (d : Nat) (i : Instr) : (s.after d i).ridge = s.ridge := rfl
@[simp] theorem State.after_links (s : State) (d : Nat) (i : Instr) : (s.after d i).links = s.links := rfl
@[simp] theorem State.after_regs (s : State) (d : Nat) (i : Instr) : (s.after d i).regs = s.regs := rfl
@[simp] theorem State.after_mem (s : State) (d : Nat) (i : Instr) : (s.after d i).mem = s.mem := rfl
@[simp] theorem State.after_core (s : State) (d : Nat) (i : Instr) (j : Nat) : (s.after d i).core j = s.core j := rfl
@[simp] theorem State.after_die (s : State) (d : Nat) (i : Instr) (j : Nat) : (s.after d i).die j = s.die j := rfl
@[simp] theorem State.after_agent (s : State) (d : Nat) (i : Instr) (j : Nat) : (s.after d i).agent j = s.agent j := rfl
@[simp] theorem State.after_ctx (s : State) (d : Nat) (i : Instr) (j : Nat) : (s.after d i).ctx j = s.ctx j := rfl
@[simp] theorem State.after_queue (s : State) (d : Nat) (i : Instr) (j : Nat) : (s.after d i).queue j = s.queue j := rfl
@[simp] theorem State.after_grp (s : State) (d : Nat) (i : Instr) (j : Nat) : (s.after d i).grp j = s.grp j := rfl
@[simp] theorem State.after_link (s : State) (d : Nat) (i : Instr) (j : Nat) : (s.after d i).link j = s.link j := rfl
@[simp] theorem State.after_xch (s : State) (d : Nat) (i : Instr) (j : Nat) : (s.after d i).xch j = s.xch j := rfl
@[simp] theorem State.after_eslot (s : State) (d : Nat) (i : Instr) (j : Nat) : (s.after d i).eslot j = s.eslot j := rfl
@[simp] theorem State.after_route (s : State) (d : Nat) (i : Instr) (j k' : Nat) : (s.after d i).route j k' = s.route j k' := rfl
@[simp] theorem State.after_plent (s : State) (d : Nat) (i : Instr) (j k' : Nat) : (s.after d i).plent j k' = s.plent j k' := rfl
@[simp] theorem State.after_slab (s : State) (d : Nat) (i : Instr) (j k' : Nat) : (s.after d i).slab j k' = s.slab j k' := rfl
@[simp] theorem State.after_agenda (s : State) (d : Nat) (i : Instr) : (s.after d i).agenda = insertDue (s.now + d) i s.agenda := rfl

/-! ### soon and settled -/

@[simp] theorem State.soon_now (s : State) (i : Instr) : (s.soon i).now = s.now := by
  simp only [State.soon]; split <;> rfl
@[simp] theorem State.soon_ftick (s : State) (i : Instr) : (s.soon i).ftick = s.ftick := by
  simp only [State.soon]; split <;> rfl
@[simp] theorem State.soon_tfrac (s : State) (i : Instr) : (s.soon i).tfrac = s.tfrac := by
  simp only [State.soon]; split <;> rfl
@[simp] theorem State.soon_thold (s : State) (i : Instr) : (s.soon i).thold = s.thold := by
  simp only [State.soon]; split <;> rfl
@[simp] theorem State.soon_tadj (s : State) (i : Instr) : (s.soon i).tadj = s.tadj := by
  simp only [State.soon]; split <;> rfl
@[simp] theorem State.soon_tlast (s : State) (i : Instr) : (s.soon i).tlast = s.tlast := by
  simp only [State.soon]; split <;> rfl
@[simp] theorem State.soon_phase (s : State) (i : Instr) : (s.soon i).phase = s.phase := by
  simp only [State.soon]; split <;> rfl
@[simp] theorem State.soon_inputs (s : State) (i : Instr) : (s.soon i).inputs = s.inputs := by
  simp only [State.soon]; split <;> rfl
@[simp] theorem State.soon_nextId (s : State) (i : Instr) : (s.soon i).nextId = s.nextId := by
  simp only [State.soon]; split <;> rfl
@[simp] theorem State.soon_freeCtr (s : State) (i : Instr) : (s.soon i).freeCtr = s.freeCtr := by
  simp only [State.soon]; split <;> rfl
@[simp] theorem State.soon_powered (s : State) (i : Instr) : (s.soon i).powered = s.powered := by
  simp only [State.soon]; split <;> rfl
@[simp] theorem State.soon_lasers (s : State) (i : Instr) : (s.soon i).lasers = s.lasers := by
  simp only [State.soon]; split <;> rfl
@[simp] theorem State.soon_cores (s : State) (i : Instr) : (s.soon i).cores = s.cores := by
  simp only [State.soon]; split <;> rfl
@[simp] theorem State.soon_fenced (s : State) (i : Instr) : (s.soon i).fenced = s.fenced := by
  simp only [State.soon]; split <;> rfl
@[simp] theorem State.soon_dies (s : State) (i : Instr) : (s.soon i).dies = s.dies := by
  simp only [State.soon]; split <;> rfl
@[simp] theorem State.soon_agents (s : State) (i : Instr) : (s.soon i).agents = s.agents := by
  simp only [State.soon]; split <;> rfl
@[simp] theorem State.soon_stamps (s : State) (i : Instr) : (s.soon i).stamps = s.stamps := by
  simp only [State.soon]; split <;> rfl
@[simp] theorem State.soon_flights (s : State) (i : Instr) : (s.soon i).flights = s.flights := by
  simp only [State.soon]; split <;> rfl
@[simp] theorem State.soon_ctxs (s : State) (i : Instr) : (s.soon i).ctxs = s.ctxs := by
  simp only [State.soon]; split <;> rfl
@[simp] theorem State.soon_queues (s : State) (i : Instr) : (s.soon i).queues = s.queues := by
  simp only [State.soon]; split <;> rfl
@[simp] theorem State.soon_classPtr (s : State) (i : Instr) : (s.soon i).classPtr = s.classPtr := by
  simp only [State.soon]; split <;> rfl
@[simp] theorem State.soon_classOn (s : State) (i : Instr) : (s.soon i).classOn = s.classOn := by
  simp only [State.soon]; split <;> rfl
@[simp] theorem State.soon_nextStart (s : State) (i : Instr) : (s.soon i).nextStart = s.nextStart := by
  simp only [State.soon]; split <;> rfl
@[simp] theorem State.soon_keep (s : State) (i : Instr) : (s.soon i).keep = s.keep := by
  simp only [State.soon]; split <;> rfl
@[simp] theorem State.soon_grps (s : State) (i : Instr) : (s.soon i).grps = s.grps := by
  simp only [State.soon]; split <;> rfl
@[simp] theorem State.soon_ridge (s : State) (i : Instr) : (s.soon i).ridge = s.ridge := by
  simp only [State.soon]; split <;> rfl
@[simp] theorem State.soon_links (s : State) (i : Instr) : (s.soon i).links = s.links := by
  simp only [State.soon]; split <;> rfl
@[simp] theorem State.soon_regs (s : State) (i : Instr) : (s.soon i).regs = s.regs := by
  simp only [State.soon]; split <;> rfl
@[simp] theorem State.soon_mem (s : State) (i : Instr) : (s.soon i).mem = s.mem := by
  simp only [State.soon]; split <;> rfl
@[simp] theorem State.soon_core (s : State) (i : Instr) (j : Nat) : (s.soon i).core j = s.core j := by
  simp only [State.soon]; split <;> rfl
@[simp] theorem State.soon_die (s : State) (i : Instr) (j : Nat) : (s.soon i).die j = s.die j := by
  simp only [State.soon]; split <;> rfl
@[simp] theorem State.soon_agent (s : State) (i : Instr) (j : Nat) : (s.soon i).agent j = s.agent j := by
  simp only [State.soon]; split <;> rfl
@[simp] theorem State.soon_ctx (s : State) (i : Instr) (j : Nat) : (s.soon i).ctx j = s.ctx j := by
  simp only [State.soon]; split <;> rfl
@[simp] theorem State.soon_queue (s : State) (i : Instr) (j : Nat) : (s.soon i).queue j = s.queue j := by
  simp only [State.soon]; split <;> rfl
@[simp] theorem State.soon_grp (s : State) (i : Instr) (j : Nat) : (s.soon i).grp j = s.grp j := by
  simp only [State.soon]; split <;> rfl
@[simp] theorem State.soon_link (s : State) (i : Instr) (j : Nat) : (s.soon i).link j = s.link j := by
  simp only [State.soon]; split <;> rfl
@[simp] theorem State.soon_xch (s : State) (i : Instr) (j : Nat) : (s.soon i).xch j = s.xch j := by
  simp only [State.soon]; split <;> rfl
@[simp] theorem State.soon_eslot (s : State) (i : Instr) (j : Nat) : (s.soon i).eslot j = s.eslot j := by
  simp only [State.soon]; split <;> rfl
@[simp] theorem State.soon_route (s : State) (i : Instr) (j k' : Nat) : (s.soon i).route j k' = s.route j k' := by
  simp only [State.soon]; split <;> rfl
@[simp] theorem State.soon_plent (s : State) (i : Instr) (j k' : Nat) : (s.soon i).plent j k' = s.plent j k' := by
  simp only [State.soon]; split <;> rfl
@[simp] theorem State.soon_slab (s : State) (i : Instr) (j k' : Nat) : (s.soon i).slab j k' = s.slab j k' := by
  simp only [State.soon]; split <;> rfl
@[simp] theorem State.settled_now (s : State) (d : Nat) (i : Instr) : (s.settled d i).now = s.now := by
  simp only [State.settled]; split <;> rfl
@[simp] theorem State.settled_ftick (s : State) (d : Nat) (i : Instr) : (s.settled d i).ftick = s.ftick := by
  simp only [State.settled]; split <;> rfl
@[simp] theorem State.settled_tfrac (s : State) (d : Nat) (i : Instr) : (s.settled d i).tfrac = s.tfrac := by
  simp only [State.settled]; split <;> rfl
@[simp] theorem State.settled_thold (s : State) (d : Nat) (i : Instr) : (s.settled d i).thold = s.thold := by
  simp only [State.settled]; split <;> rfl
@[simp] theorem State.settled_tadj (s : State) (d : Nat) (i : Instr) : (s.settled d i).tadj = s.tadj := by
  simp only [State.settled]; split <;> rfl
@[simp] theorem State.settled_tlast (s : State) (d : Nat) (i : Instr) : (s.settled d i).tlast = s.tlast := by
  simp only [State.settled]; split <;> rfl
@[simp] theorem State.settled_phase (s : State) (d : Nat) (i : Instr) : (s.settled d i).phase = s.phase := by
  simp only [State.settled]; split <;> rfl
@[simp] theorem State.settled_inputs (s : State) (d : Nat) (i : Instr) : (s.settled d i).inputs = s.inputs := by
  simp only [State.settled]; split <;> rfl
@[simp] theorem State.settled_nextId (s : State) (d : Nat) (i : Instr) : (s.settled d i).nextId = s.nextId := by
  simp only [State.settled]; split <;> rfl
@[simp] theorem State.settled_freeCtr (s : State) (d : Nat) (i : Instr) : (s.settled d i).freeCtr = s.freeCtr := by
  simp only [State.settled]; split <;> rfl
@[simp] theorem State.settled_powered (s : State) (d : Nat) (i : Instr) : (s.settled d i).powered = s.powered := by
  simp only [State.settled]; split <;> rfl
@[simp] theorem State.settled_lasers (s : State) (d : Nat) (i : Instr) : (s.settled d i).lasers = s.lasers := by
  simp only [State.settled]; split <;> rfl
@[simp] theorem State.settled_cores (s : State) (d : Nat) (i : Instr) : (s.settled d i).cores = s.cores := by
  simp only [State.settled]; split <;> rfl
@[simp] theorem State.settled_fenced (s : State) (d : Nat) (i : Instr) : (s.settled d i).fenced = s.fenced := by
  simp only [State.settled]; split <;> rfl
@[simp] theorem State.settled_dies (s : State) (d : Nat) (i : Instr) : (s.settled d i).dies = s.dies := by
  simp only [State.settled]; split <;> rfl
@[simp] theorem State.settled_agents (s : State) (d : Nat) (i : Instr) : (s.settled d i).agents = s.agents := by
  simp only [State.settled]; split <;> rfl
@[simp] theorem State.settled_stamps (s : State) (d : Nat) (i : Instr) : (s.settled d i).stamps = s.stamps := by
  simp only [State.settled]; split <;> rfl
@[simp] theorem State.settled_flights (s : State) (d : Nat) (i : Instr) : (s.settled d i).flights = s.flights := by
  simp only [State.settled]; split <;> rfl
@[simp] theorem State.settled_ctxs (s : State) (d : Nat) (i : Instr) : (s.settled d i).ctxs = s.ctxs := by
  simp only [State.settled]; split <;> rfl
@[simp] theorem State.settled_queues (s : State) (d : Nat) (i : Instr) : (s.settled d i).queues = s.queues := by
  simp only [State.settled]; split <;> rfl
@[simp] theorem State.settled_classPtr (s : State) (d : Nat) (i : Instr) : (s.settled d i).classPtr = s.classPtr := by
  simp only [State.settled]; split <;> rfl
@[simp] theorem State.settled_classOn (s : State) (d : Nat) (i : Instr) : (s.settled d i).classOn = s.classOn := by
  simp only [State.settled]; split <;> rfl
@[simp] theorem State.settled_nextStart (s : State) (d : Nat) (i : Instr) : (s.settled d i).nextStart = s.nextStart := by
  simp only [State.settled]; split <;> rfl
@[simp] theorem State.settled_keep (s : State) (d : Nat) (i : Instr) : (s.settled d i).keep = s.keep := by
  simp only [State.settled]; split <;> rfl
@[simp] theorem State.settled_grps (s : State) (d : Nat) (i : Instr) : (s.settled d i).grps = s.grps := by
  simp only [State.settled]; split <;> rfl
@[simp] theorem State.settled_ridge (s : State) (d : Nat) (i : Instr) : (s.settled d i).ridge = s.ridge := by
  simp only [State.settled]; split <;> rfl
@[simp] theorem State.settled_links (s : State) (d : Nat) (i : Instr) : (s.settled d i).links = s.links := by
  simp only [State.settled]; split <;> rfl
@[simp] theorem State.settled_regs (s : State) (d : Nat) (i : Instr) : (s.settled d i).regs = s.regs := by
  simp only [State.settled]; split <;> rfl
@[simp] theorem State.settled_mem (s : State) (d : Nat) (i : Instr) : (s.settled d i).mem = s.mem := by
  simp only [State.settled]; split <;> rfl
@[simp] theorem State.settled_core (s : State) (d : Nat) (i : Instr) (j : Nat) : (s.settled d i).core j = s.core j := by
  simp only [State.settled]; split <;> rfl
@[simp] theorem State.settled_die (s : State) (d : Nat) (i : Instr) (j : Nat) : (s.settled d i).die j = s.die j := by
  simp only [State.settled]; split <;> rfl
@[simp] theorem State.settled_agent (s : State) (d : Nat) (i : Instr) (j : Nat) : (s.settled d i).agent j = s.agent j := by
  simp only [State.settled]; split <;> rfl
@[simp] theorem State.settled_ctx (s : State) (d : Nat) (i : Instr) (j : Nat) : (s.settled d i).ctx j = s.ctx j := by
  simp only [State.settled]; split <;> rfl
@[simp] theorem State.settled_queue (s : State) (d : Nat) (i : Instr) (j : Nat) : (s.settled d i).queue j = s.queue j := by
  simp only [State.settled]; split <;> rfl
@[simp] theorem State.settled_grp (s : State) (d : Nat) (i : Instr) (j : Nat) : (s.settled d i).grp j = s.grp j := by
  simp only [State.settled]; split <;> rfl
@[simp] theorem State.settled_link (s : State) (d : Nat) (i : Instr) (j : Nat) : (s.settled d i).link j = s.link j := by
  simp only [State.settled]; split <;> rfl
@[simp] theorem State.settled_xch (s : State) (d : Nat) (i : Instr) (j : Nat) : (s.settled d i).xch j = s.xch j := by
  simp only [State.settled]; split <;> rfl
@[simp] theorem State.settled_eslot (s : State) (d : Nat) (i : Instr) (j : Nat) : (s.settled d i).eslot j = s.eslot j := by
  simp only [State.settled]; split <;> rfl
@[simp] theorem State.settled_route (s : State) (d : Nat) (i : Instr) (j k' : Nat) : (s.settled d i).route j k' = s.route j k' := by
  simp only [State.settled]; split <;> rfl
@[simp] theorem State.settled_plent (s : State) (d : Nat) (i : Instr) (j k' : Nat) : (s.settled d i).plent j k' = s.plent j k' := by
  simp only [State.settled]; split <;> rfl
@[simp] theorem State.settled_slab (s : State) (d : Nat) (i : Instr) (j k' : Nat) : (s.settled d i).slab j k' = s.slab j k' := by
  simp only [State.settled]; split <;> rfl

/-- What is due is kept in order by due cycle. -/
theorem mem_insertDue (t : Nat) (i : Instr) (l : List (Nat × Instr)) (e : Nat × Instr) :
    e ∈ insertDue t i l ↔ e = (t, i) ∨ e ∈ l := by
  induction l with
  | nil => simp [insertDue]
  | cons a l ih =>
    obtain ⟨u, j⟩ := a
    simp only [insertDue]
    split
    · simp only [List.mem_cons, ih]; exact or_left_comm
    · simp only [List.mem_cons]

end Sys2Proof.Machine
end

