-- ==== Sys2Proof/Laws/Ops.lean ====
section
/-! SUPPORT. What the shared operations of an issue do, each said once. -/

namespace Sys2Proof.Machine

/-- An instruction that executes has its effect. -/
theorem slotDo_runs {s : State} {h : Hdr} (hr : s.Runs h) (i : Instr) (eff : Nat → State → State) :
    slotDo h i s eff = .next (eff s.issuer s) := by
  obtain ⟨h1, h2, h3⟩ := hr
  have h4 : ((s.core s.issuer).bctx.traps.any fun t => t.1 == h.slot.val) = false := by
    rw [List.any_eq_false]
    intro t ht
    simpa using h3 t ht
  simp only [slotDo, h1, h2, h4]
  rfl

/-- An instruction whose predicate does not hold does nothing (14 R222). -/
theorem slotDo_not_holds {s : State} {h : Hdr} (hp : (s.core s.issuer).holds s.issuer h = false) (i : Instr)
    (eff : Nat → State → State) : slotDo h i s eff = .next s := by
  simp [slotDo, hp]

/-- Everything `slotDo` can answer: the state as it was, the effect, a listed trap, or a freeze. -/
theorem slotDo_cases (h : Hdr) (i : Instr) (s : State) (eff : Nat → State → State) :
    slotDo h i s eff = .next s ∨ slotDo h i s eff = .next (eff s.issuer s) ∨
    (∃ t, (s.core s.issuer).bctx.ready = false ∧ s.trapOf s.issuer i = some t ∧
      slotDo h i s eff = .next (s.trapSlot s.issuer h.slot.val t)) ∨
    (∃ c, (s.core s.issuer).bctx.ready = false ∧ s.trapOf s.issuer i = none ∧
      slotDo h i s eff = .next { (s.waitStart s.issuer h.slot.val i).freeze s.issuer c with phase := .idle }) := by
  unfold slotDo
  dsimp only
  split
  · exact .inl rfl
  · split
    · split
      · exact .inl rfl
      · exact .inr (.inl rfl)
    · rename_i hr
      have hr' : (s.core s.issuer).bctx.ready = false := by simpa using hr
      split
      · exact .inr (.inr (.inl ⟨_, hr', by assumption, rfl⟩))
      · split
        · exact .inr (.inr (.inr ⟨_, hr', by assumption, rfl⟩))
        · exact .inr (.inl rfl)

/-- A write due later is one more pending write of its core. -/
theorem State.due_eq (s : State) (slot lat : Nat) (w : PWrite) (evs : List Nat) :
    s.due s.issuer slot lat w evs = s.addPend (s.pendAt slot lat w evs) := rfl

/-- A scalar result. -/
theorem State.dueX_eq (s : State) (h : Hdr) (lat : Nat) (xD : XReg) (v : Word × List Nat) :
    s.dueX s.issuer h.slot.val lat xD v = s.result h lat xD v.1 v.2 := rfl

/-- The bundle address hangs on the queue and the group of the core alone. -/
theorem State.bundleAddr_setCore (s : State) (c : Nat) (k : Core) (hg : k.group = (s.core c).group) (hs : k.skid = (s.core c).skid) :
    (s.setCore c k).bundleAddr c = s.bundleAddr c := by
  simp [State.bundleAddr, State.runOf, State.grpOf, hg, hs]

/-- Only the times of an operation, and what waits at the homes, change: `s.turns t` is what asking, waiting and being served can do. -/
def State.turns (s t : State) : Prop :=
  ∃ agenda asks points, t = { (s.updRidge fun x => { x with asks := asks, points := points }) with agenda := agenda }

theorem State.turns_sched (s : State) (t : Nat) (i : Instr) : s.turns (s.sched t i) := ⟨_, s.ridge.asks, s.ridge.points, rfl⟩

theorem State.turns_trans {s t u : State} (h : s.turns t) (h' : t.turns u) : s.turns u := by
  obtain ⟨a, b, c, rfl⟩ := h
  obtain ⟨a', b', c', rfl⟩ := h'
  exact ⟨a', b', c', rfl⟩

theorem State.turns_dueAt (s : State) (t : Nat) (i : Instr) : s.turns (s.dueAt t i) := by
  unfold State.dueAt
  split
  · exact ⟨s.agenda, s.ridge.asks, s.ridge.points, rfl⟩
  · exact s.turns_sched t i

/-- An access that has had its turn leaves the queue of its home; nothing else changes (22 R387 to R391). -/
theorem State.turns_askDone (s : State) (ev : Instr) (r : Option (Nat × Nat × Nat)) : s.turns (s.askDone ev r) := by
  unfold State.askDone
  extract_lets p s1
  have h1 : s.turns s1 := ⟨s.agenda, s1.ridge.asks, s1.ridge.points, rfl⟩
  clear_value s1
  split
  · exact State.turns_trans h1 (s1.turns_dueAt _ _)
  · exact h1

theorem State.askDone_locks (s : State) (ev : Instr) (r : Option (Nat × Nat × Nat)) : (s.askDone ev r).ridge.locks = s.ridge.locks := by
  obtain ⟨a, b, c, h⟩ := s.turns_askDone ev r
  rw [h]
  rfl

/-- A command that nothing of the host's holds acts at once (30 R444). -/
theorem State.port_clear (s : State) (off : Nat) (v : Word) (act : State → State) (h : s.PortClear) : s.port off v act = act s := by
  refine if_neg ?_
  simp only [h.1, Bool.and_false, Bool.false_or, Bool.not_eq_true, List.any_eq_false]
  rintro ⟨t, i⟩ he
  have := h.2 _ he
  cases i <;> simp_all

/-- A command behind writes of the host, and whatever is behind one, is looked at again in the next cycle (30 R444). -/
theorem State.port_held (s : State) (off : Nat) (v : Word) (act : State → State) (h : isCommand off = true ∧ s.hostWaits = true ∨
    (∃ e ∈ s.agenda, ∃ o w, e.2 = .registerWrite o w ∧ s.now < e.1)) : s.port off v act = s.after 1 (.registerWrite off v) := by
  unfold State.port
  apply if_pos
  rcases h with ⟨h1, h2⟩ | ⟨e, he, o, w, h1, h2⟩
  · simp only [h1, h2, Bool.and_self, Bool.true_or]
  · refine Bool.or_eq_true _ _ |>.mpr (.inr (List.any_eq_true.mpr ⟨e, he, ?_⟩))
    simp [h1, h2]

end Sys2Proof.Machine
end

