-- ==== Sys2Proof/Laws/PerInstr.lean ====
section
/-! SUPPORT. Families of statements over every instruction. `RoundTrip`: the decoder reads back the word the encoder writes. -/

namespace Sys2Proof.Laws

set_option Elab.async false

/-! ### Fields read back -/

theorem fieldF_eq {m : Nat} [NeZero m] {w lo : Nat} {x : Fin m} (h : w / 2 ^ lo % m = x.val) : fieldF w lo = x :=
  Fin.ext h
theorem fieldB_eq {k w lo : Nat} {x : BitVec k} (h : w / 2 ^ lo % 2 ^ k = x.toNat) : fieldB w lo = x := by
  apply BitVec.eq_of_toNat_eq; simpa [fieldB] using h
theorem fieldBit_eq {w lo : Nat} {b : Bool} (h : w / 2 ^ lo % 2 = b.toNat) : fieldBit w lo = b := by
  cases b <;> simp [fieldBit, h]
theorem zeros_eq {w lo k : Nat} (h : w / 2 ^ lo % 2 ^ k = 0) : zeros w lo k = true := by simp [zeros, h]
theorem hdrOf_eq {k : Fin 8} {w : Nat} {h : Hdr} (h0 : h.slot = k) (h1 : w / 2 ^ 22 % 16 = h.pr.val)
    (h2 : w / 2 ^ 21 % 2 = h.pn.toNat) : hdrOf k w = h := by
  simp only [hdrOf, fieldF_eq h1, fieldBit_eq h2, ← h0]
theorem at1 {h : Hdr} {a : Fin 8} (e : h.at [a] = true) : h.slot = a := by simpa [Hdr.at] using e
theorem at2 {h : Hdr} {a b : Fin 8} (e : h.at [a, b] = true) : h.slot = a ∨ h.slot = b := by simpa [Hdr.at] using e
theorem and_left {a b : Bool} (h : (a && b) = true) : a = true := by cases a <;> simp_all
theorem mopOf_code (a : MOp) : mopOf (mopKind a) (mopNum a) = some a := by
  cases a with
  | tile t => simp only [mopOf, mopKind, mopNum]; rw [fieldF_eq (x := t)]; have := t.isLt; omega
  | chan c =>
    have := c.isLt
    simp only [mopOf, mopKind, mopNum, this, if_true]; rw [fieldF_eq (x := c)]; omega
  | hnd c =>
    have := c.isLt
    simp only [mopOf, mopKind, mopNum, this, if_true]; rw [fieldF_eq (x := c)]; omega
theorem mopKind_lt (a : MOp) : mopKind a < 4 := by cases a <;> simp [mopKind]
theorem mopNum_lt (a : MOp) : mopNum a < 128 := by
  cases a with
  | tile t => exact t.isLt
  | chan c => have := c.isLt; simp only [mopNum]; omega
  | hnd c => have := c.isLt; simp only [mopNum]; omega
theorem boolNat_lt (b : Bool) : b.toNat < 2 := by cases b <;> decide
/-- A decoded instruction that is well formed stands. -/
theorem decodeSlot_ok {k : Fin 8} {w : Nat} {i : Instr} (h : decRaw k w = .ok i) (hw : i.wf = true) :
    decodeSlot k w = .ok i := by
  simp [decodeSlot, h, hw]
theorem satFormOf_code (x : SatForm) : satFormOf (satFormCode x) = some x := by cases x <;> rfl
theorem satFormCode_lt (x : SatForm) : satFormCode x < 8 := by cases x <;> decide
theorem condOf_code (x : Cond) : condOf (condCode x) = some x := by cases x <;> rfl
theorem condCode_lt (x : Cond) : condCode x < 8 := by cases x <;> decide
theorem combOf_code (x : Comb) : combOf (combCode x) = some x := by cases x <;> rfl
theorem combCode_lt (x : Comb) : combCode x < 4 := by cases x <;> decide
theorem waitCondOf_code (x : WaitCond) : waitCondOf (waitCondCode x) = some x := by cases x <;> rfl
theorem waitCondCode_lt (x : WaitCond) : waitCondCode x < 4 := by cases x <;> decide
theorem scopeOf_code (x : Scope) : scopeOf (scopeCode x) = some x := by cases x <;> rfl
theorem scopeCode_lt (x : Scope) : scopeCode x < 4 := by cases x <;> decide
theorem orderOf_code (x : Order) : orderOf (orderCode x) = some x := by cases x <;> rfl
theorem orderCode_lt (x : Order) : orderCode x < 4 := by cases x <;> decide
theorem invSizeOf_code (x : InvSize) : invSizeOf (invSizeCode x) = some x := by cases x <;> rfl
theorem invSizeCode_lt (x : InvSize) : invSizeCode x < 4 := by cases x <;> decide
theorem warmLevelOf_code (x : WarmLevel) : warmLevelOf (warmLevelCode x) = some x := by cases x <;> rfl
theorem warmLevelCode_lt (x : WarmLevel) : warmLevelCode x < 4 := by cases x <;> decide
theorem rModeOf_code (x : RMode) : rModeOf (rModeCode x) = some x := by cases x <;> rfl
theorem rModeCode_lt (x : RMode) : rModeCode x < 8 := by cases x <;> decide
theorem redOpOf_code (x : RedOp) : redOpOf (redOpCode x) = some x := by cases x <;> rfl
theorem redOpCode_lt (x : RedOp) : redOpCode x < 4 := by cases x <;> decide
theorem vFunOf_code (x : VFun) : vFunOf (vFunCode x) = some x := by cases x <;> rfl
theorem vFunCode_lt (x : VFun) : vFunCode x < 16 := by cases x <;> decide


/-! ### The header -/

theorem decRaw_0 {w op : Nat} {h : Hdr} (e : w / 2 ^ 26 % 64 = op) (eh : hdrOf 0 w = h) : decRaw 0 w = decC h w op := by
  subst e eh; rfl
theorem decRaw_1 {w op : Nat} {h : Hdr} (e : w / 2 ^ 26 % 64 = op) (eh : hdrOf 1 w = h) : decRaw 1 w = decS h w op := by
  subst e eh; rfl
theorem decRaw_2lo {w op : Nat} {h : Hdr} (e : w / 2 ^ 26 % 64 = op) (eh : hdrOf 2 w = h) (ho : op < 0x30) :
    decRaw 2 w = decS h w op := by
  subst e eh; exact if_pos ho
theorem decRaw_2hi {w op : Nat} {h : Hdr} (e : w / 2 ^ 26 % 64 = op) (eh : hdrOf 2 w = h) (ho : ¬ op < 0x30) :
    decRaw 2 w = decA h w op := by
  subst e eh; exact if_neg ho
theorem decRaw_3 {w op : Nat} {h : Hdr} (e : w / 2 ^ 26 % 64 = op) (eh : hdrOf 3 w = h) : decRaw 3 w = decM h w op := by
  subst e eh; rfl
theorem decRaw_4 {w op : Nat} {h : Hdr} (e : w / 2 ^ 26 % 64 = op) (eh : hdrOf 4 w = h) : decRaw 4 w = decX h w op := by
  subst e eh; rfl
theorem decRaw_5 {w op : Nat} {h : Hdr} (e : w / 2 ^ 26 % 64 = op) (eh : hdrOf 5 w = h) : decRaw 5 w = decV h w op := by
  subst e eh; rfl
theorem decRaw_6lo {w op : Nat} {h : Hdr} (e : w / 2 ^ 26 % 64 = op) (eh : hdrOf 6 w = h) (ho : op < 0x30) :
    decRaw 6 w = decV h w op := by
  subst e eh; exact if_pos ho
theorem decRaw_6hi {w op : Nat} {h : Hdr} (e : w / 2 ^ 26 % 64 = op) (eh : hdrOf 6 w = h) (ho : ¬ op < 0x30) :
    decRaw 6 w = decQ h w op := by
  subst e eh; exact if_neg ho
theorem decRaw_7 {w op : Nat} {h : Hdr} (e : w / 2 ^ 26 % 64 = op) (eh : hdrOf 7 w = h) : decRaw 7 w = decF h w op := by
  subst e eh; rfl

/-! ### Shapes of words: fields as first bit and width, and reserved fields -/

/-- What a field and what is below it stay under. -/
theorem below {x r lo k l' : Nat} (hl : lo + k = l') (hx : x < 2 ^ k) (hr : r < 2 ^ lo) : x * 2 ^ lo + r < 2 ^ l' := by
  subst hl
  have h1 : (x + 1) * 2 ^ lo ≤ 2 ^ k * 2 ^ lo := Nat.mul_le_mul_right _ hx
  rw [Nat.pow_add, Nat.mul_comm (2 ^ lo)]
  rw [Nat.succ_mul] at h1
  omega
theorem belowZ {r lo k l' : Nat} (hl : lo + k = l') (hr : r < 2 ^ lo) : r < 2 ^ l' := by
  subst hl; exact Nat.lt_of_lt_of_le hr (Nat.pow_le_pow_right (by decide) (Nat.le_add_right _ _))
/-- The highest field of the low `l'` bits, and what is below it. -/
theorem top {w x r lo k l' m : Nat} (hl : lo + k = l') (hm : 2 ^ k = m) (e : w % 2 ^ l' = x * 2 ^ lo + r) (hr : r < 2 ^ lo) :
    w / 2 ^ lo % m = x ∧ w % 2 ^ lo = r := by
  subst hl hm
  have hp := Nat.two_pow_pos lo
  constructor
  · rw [← Nat.mod_mul_right_div_self, ← Nat.pow_add, e, Nat.add_comm, Nat.add_mul_div_right _ _ hp, Nat.div_eq_of_lt hr,
      Nat.zero_add]
  · have h : w % 2 ^ (lo + k) % 2 ^ lo = w % 2 ^ lo := Nat.mod_mod_of_dvd _ ⟨2 ^ k, Nat.pow_add _ _ _⟩
    rw [← h, e, Nat.add_comm, Nat.add_mul_mod_self_right, Nat.mod_eq_of_lt hr]
theorem topZ {w r lo k l' : Nat} (hl : lo + k = l') (e : w % 2 ^ l' = r) (hr : r < 2 ^ lo) :
    w / 2 ^ lo % 2 ^ k = 0 ∧ w % 2 ^ lo = r := top hl rfl (by rw [e, Nat.zero_mul, Nat.zero_add]) hr
theorem header {w op p n r : Nat} (he : op * 2 ^ 26 + p * 2 ^ 22 + n * 2 ^ 21 + r = w) (hp : p < 16) (hn : n < 2)
    (ho : op < 64) (hr : r < 2 ^ 21) :
    w < 2 ^ 32 ∧ w / 2 ^ 26 % 64 = op ∧ w / 2 ^ 22 % 16 = p ∧ w / 2 ^ 21 % 2 = n ∧ w % 2 ^ 21 = r := by
  have h1 := below (l' := 22) (k := 1) rfl hn hr
  have h2 := below (l' := 26) (k := 4) rfl hp h1
  have h3 := below (l' := 32) (k := 6) rfl ho h2
  have e : w % 2 ^ 32 = op * 2 ^ 26 + (p * 2 ^ 22 + (n * 2 ^ 21 + r)) := by
    rw [← he, Nat.add_assoc, Nat.add_assoc]; exact Nat.mod_eq_of_lt h3
  obtain ⟨a, e1⟩ := top (k := 6) rfl rfl e h2
  obtain ⟨b, e2⟩ := top (k := 4) rfl rfl e1 h1
  obtain ⟨c, e3⟩ := top (k := 1) rfl rfl e2 hr
  refine ⟨?_, a, b, c, e3⟩
  rw [← he, Nat.add_assoc, Nat.add_assoc]; exact h3

theorem shape_0x21 {w p n a0 : Nat} {op : Nat} (he : op * 2 ^ 26 + p * 2 ^ 22 + n * 2 ^ 21 + (a0 * 2 ^ 0 + (0)) = w) (hp : p < 16) (hn : n < 2) (ha0 : a0 < 2097152)
    (ho : op < 64 := by decide) :
    w < 2 ^ 32 ∧ w / 2 ^ 26 % 64 = op ∧ w / 2 ^ 22 % 16 = p ∧ w / 2 ^ 21 % 2 = n ∧ w / 2 ^ 0 % 2097152 = a0 := by
  have l0 : 0 < 2 ^ 0 := Nat.one_pos
  have l21 := below (l' := 21) (k := 21) rfl ha0 l0
  obtain ⟨hw, c1, c2, c3, e21⟩ := header he hp hn ho l21
  obtain ⟨r0, e0⟩ := top (k := 21) rfl rfl e21 l0
  exact ⟨hw, c1, c2, c3, r0⟩
theorem shape__z0x21 {w p n : Nat} {op : Nat} (he : op * 2 ^ 26 + p * 2 ^ 22 + n * 2 ^ 21 + 0 = w) (hp : p < 16) (hn : n < 2) 
    (ho : op < 64 := by decide) :
    w < 2 ^ 32 ∧ w / 2 ^ 26 % 64 = op ∧ w / 2 ^ 22 % 16 = p ∧ w / 2 ^ 21 % 2 = n ∧ w / 2 ^ 0 % 2 ^ 21 = 0 := by
  have l0 : 0 < 2 ^ 0 := Nat.one_pos
  have l21 := belowZ (l' := 21) (k := 21) rfl l0
  obtain ⟨hw, c1, c2, c3, e21⟩ := header he hp hn ho l21
  obtain ⟨r0, e0⟩ := topZ (lo := 0) (k := 21) rfl e21 l0
  exact ⟨hw, c1, c2, c3, r0⟩
theorem shape_0x13_z13x8 {w p n a0 : Nat} {op : Nat} (he : op * 2 ^ 26 + p * 2 ^ 22 + n * 2 ^ 21 + (a0 * 2 ^ 0 + (0)) = w) (hp : p < 16) (hn : n < 2) (ha0 : a0 < 8192)
    (ho : op < 64 := by decide) :
    w < 2 ^ 32 ∧ w / 2 ^ 26 % 64 = op ∧ w / 2 ^ 22 % 16 = p ∧ w / 2 ^ 21 % 2 = n ∧ w / 2 ^ 0 % 8192 = a0 ∧ w / 2 ^ 13 % 2 ^ 8 = 0 := by
  have l0 : 0 < 2 ^ 0 := Nat.one_pos
  have l13 := below (l' := 13) (k := 13) rfl ha0 l0
  have l21 := belowZ (l' := 21) (k := 8) rfl l13
  obtain ⟨hw, c1, c2, c3, e21⟩ := header he hp hn ho l21
  obtain ⟨r13, e13⟩ := topZ (lo := 13) (k := 8) rfl e21 l13
  obtain ⟨r0, e0⟩ := top (k := 13) rfl rfl e13 l0
  exact ⟨hw, c1, c2, c3, r0, r13⟩
theorem shape_19x1_18x1_8x10_0x8_z20x1 {w p n a19 a18 a8 a0 : Nat} {op : Nat} (he : op * 2 ^ 26 + p * 2 ^ 22 + n * 2 ^ 21 + (a19 * 2 ^ 19 + (a18 * 2 ^ 18 + (a8 * 2 ^ 8 + (a0 * 2 ^ 0 + (0))))) = w) (hp : p < 16) (hn : n < 2) (ha19 : a19 < 2) (ha18 : a18 < 2) (ha8 : a8 < 1024) (ha0 : a0 < 256)
    (ho : op < 64 := by decide) :
    w < 2 ^ 32 ∧ w / 2 ^ 26 % 64 = op ∧ w / 2 ^ 22 % 16 = p ∧ w / 2 ^ 21 % 2 = n ∧ w / 2 ^ 19 % 2 = a19 ∧ w / 2 ^ 18 % 2 = a18 ∧ w / 2 ^ 8 % 1024 = a8 ∧ w / 2 ^ 0 % 256 = a0 ∧ w / 2 ^ 20 % 2 ^ 1 = 0 := by
  have l0 : 0 < 2 ^ 0 := Nat.one_pos
  have l8 := below (l' := 8) (k := 8) rfl ha0 l0
  have l18 := below (l' := 18) (k := 10) rfl ha8 l8
  have l19 := below (l' := 19) (k := 1) rfl ha18 l18
  have l20 := below (l' := 20) (k := 1) rfl ha19 l19
  have l21 := belowZ (l' := 21) (k := 1) rfl l20
  obtain ⟨hw, c1, c2, c3, e21⟩ := header he hp hn ho l21
  obtain ⟨r20, e20⟩ := topZ (lo := 20) (k := 1) rfl e21 l20
  obtain ⟨r19, e19⟩ := top (k := 1) rfl rfl e20 l19
  obtain ⟨r18, e18⟩ := top (k := 1) rfl rfl e19 l18
  obtain ⟨r8, e8⟩ := top (k := 10) rfl rfl e18 l8
  obtain ⟨r0, e0⟩ := top (k := 8) rfl rfl e8 l0
  exact ⟨hw, c1, c2, c3, r19, r18, r8, r0, r20⟩
theorem shape_20x1_19x1_18x1_12x6_0x8_z8x4 {w p n a20 a19 a18 a12 a0 : Nat} {op : Nat} (he : op * 2 ^ 26 + p * 2 ^ 22 + n * 2 ^ 21 + (a20 * 2 ^ 20 + (a19 * 2 ^ 19 + (a18 * 2 ^ 18 + (a12 * 2 ^ 12 + (a0 * 2 ^ 0 + (0)))))) = w) (hp : p < 16) (hn : n < 2) (ha20 : a20 < 2) (ha19 : a19 < 2) (ha18 : a18 < 2) (ha12 : a12 < 64) (ha0 : a0 < 256)
    (ho : op < 64 := by decide) :
    w < 2 ^ 32 ∧ w / 2 ^ 26 % 64 = op ∧ w / 2 ^ 22 % 16 = p ∧ w / 2 ^ 21 % 2 = n ∧ w / 2 ^ 20 % 2 = a20 ∧ w / 2 ^ 19 % 2 = a19 ∧ w / 2 ^ 18 % 2 = a18 ∧ w / 2 ^ 12 % 64 = a12 ∧ w / 2 ^ 0 % 256 = a0 ∧ w / 2 ^ 8 % 2 ^ 4 = 0 := by
  have l0 : 0 < 2 ^ 0 := Nat.one_pos
  have l8 := below (l' := 8) (k := 8) rfl ha0 l0
  have l12 := belowZ (l' := 12) (k := 4) rfl l8
  have l18 := below (l' := 18) (k := 6) rfl ha12 l12
  have l19 := below (l' := 19) (k := 1) rfl ha18 l18
  have l20 := below (l' := 20) (k := 1) rfl ha19 l19
  have l21 := below (l' := 21) (k := 1) rfl ha20 l20
  obtain ⟨hw, c1, c2, c3, e21⟩ := header he hp hn ho l21
  obtain ⟨r20, e20⟩ := top (k := 1) rfl rfl e21 l20
  obtain ⟨r19, e19⟩ := top (k := 1) rfl rfl e20 l19
  obtain ⟨r18, e18⟩ := top (k := 1) rfl rfl e19 l18
  obtain ⟨r12, e12⟩ := top (k := 6) rfl rfl e18 l12
  obtain ⟨r8, e8⟩ := topZ (lo := 8) (k := 4) rfl e12 l8
  obtain ⟨r0, e0⟩ := top (k := 8) rfl rfl e8 l0
  exact ⟨hw, c1, c2, c3, r20, r19, r18, r12, r0, r8⟩
theorem shape_18x3_z0x18 {w p n a18 : Nat} {op : Nat} (he : op * 2 ^ 26 + p * 2 ^ 22 + n * 2 ^ 21 + (a18 * 2 ^ 18 + (0)) = w) (hp : p < 16) (hn : n < 2) (ha18 : a18 < 8)
    (ho : op < 64 := by decide) :
    w < 2 ^ 32 ∧ w / 2 ^ 26 % 64 = op ∧ w / 2 ^ 22 % 16 = p ∧ w / 2 ^ 21 % 2 = n ∧ w / 2 ^ 18 % 8 = a18 ∧ w / 2 ^ 0 % 2 ^ 18 = 0 := by
  have l0 : 0 < 2 ^ 0 := Nat.one_pos
  have l18 := belowZ (l' := 18) (k := 18) rfl l0
  have l21 := below (l' := 21) (k := 3) rfl ha18 l18
  obtain ⟨hw, c1, c2, c3, e21⟩ := header he hp hn ho l21
  obtain ⟨r18, e18⟩ := top (k := 3) rfl rfl e21 l18
  obtain ⟨r0, e0⟩ := topZ (lo := 0) (k := 18) rfl e18 l0
  exact ⟨hw, c1, c2, c3, r18, r0⟩
theorem shape_15x5_14x1_z0x14_20x1 {w p n a15 a14 : Nat} {op : Nat} (he : op * 2 ^ 26 + p * 2 ^ 22 + n * 2 ^ 21 + (a15 * 2 ^ 15 + (a14 * 2 ^ 14 + (0))) = w) (hp : p < 16) (hn : n < 2) (ha15 : a15 < 32) (ha14 : a14 < 2)
    (ho : op < 64 := by decide) :
    w < 2 ^ 32 ∧ w / 2 ^ 26 % 64 = op ∧ w / 2 ^ 22 % 16 = p ∧ w / 2 ^ 21 % 2 = n ∧ w / 2 ^ 15 % 32 = a15 ∧ w / 2 ^ 14 % 2 = a14 ∧ w / 2 ^ 0 % 2 ^ 14 = 0 ∧ w / 2 ^ 20 % 2 ^ 1 = 0 := by
  have l0 : 0 < 2 ^ 0 := Nat.one_pos
  have l14 := belowZ (l' := 14) (k := 14) rfl l0
  have l15 := below (l' := 15) (k := 1) rfl ha14 l14
  have l20 := below (l' := 20) (k := 5) rfl ha15 l15
  have l21 := belowZ (l' := 21) (k := 1) rfl l20
  obtain ⟨hw, c1, c2, c3, e21⟩ := header he hp hn ho l21
  obtain ⟨r20, e20⟩ := topZ (lo := 20) (k := 1) rfl e21 l20
  obtain ⟨r15, e15⟩ := top (k := 5) rfl rfl e20 l15
  obtain ⟨r14, e14⟩ := top (k := 1) rfl rfl e15 l14
  obtain ⟨r0, e0⟩ := topZ (lo := 0) (k := 14) rfl e14 l0
  exact ⟨hw, c1, c2, c3, r15, r14, r0, r20⟩
theorem shape_20x1_14x6_8x6_z0x8 {w p n a20 a14 a8 : Nat} {op : Nat} (he : op * 2 ^ 26 + p * 2 ^ 22 + n * 2 ^ 21 + (a20 * 2 ^ 20 + (a14 * 2 ^ 14 + (a8 * 2 ^ 8 + (0)))) = w) (hp : p < 16) (hn : n < 2) (ha20 : a20 < 2) (ha14 : a14 < 64) (ha8 : a8 < 64)
    (ho : op < 64 := by decide) :
    w < 2 ^ 32 ∧ w / 2 ^ 26 % 64 = op ∧ w / 2 ^ 22 % 16 = p ∧ w / 2 ^ 21 % 2 = n ∧ w / 2 ^ 20 % 2 = a20 ∧ w / 2 ^ 14 % 64 = a14 ∧ w / 2 ^ 8 % 64 = a8 ∧ w / 2 ^ 0 % 2 ^ 8 = 0 := by
  have l0 : 0 < 2 ^ 0 := Nat.one_pos
  have l8 := belowZ (l' := 8) (k := 8) rfl l0
  have l14 := below (l' := 14) (k := 6) rfl ha8 l8
  have l20 := below (l' := 20) (k := 6) rfl ha14 l14
  have l21 := below (l' := 21) (k := 1) rfl ha20 l20
  obtain ⟨hw, c1, c2, c3, e21⟩ := header he hp hn ho l21
  obtain ⟨r20, e20⟩ := top (k := 1) rfl rfl e21 l20
  obtain ⟨r14, e14⟩ := top (k := 6) rfl rfl e20 l14
  obtain ⟨r8, e8⟩ := top (k := 6) rfl rfl e14 l8
  obtain ⟨r0, e0⟩ := topZ (lo := 0) (k := 8) rfl e8 l0
  exact ⟨hw, c1, c2, c3, r20, r14, r8, r0⟩
theorem shape_15x6_9x6_7x2_z0x7 {w p n a15 a9 a7 : Nat} {op : Nat} (he : op * 2 ^ 26 + p * 2 ^ 22 + n * 2 ^ 21 + (a15 * 2 ^ 15 + (a9 * 2 ^ 9 + (a7 * 2 ^ 7 + (0)))) = w) (hp : p < 16) (hn : n < 2) (ha15 : a15 < 64) (ha9 : a9 < 64) (ha7 : a7 < 4)
    (ho : op < 64 := by decide) :
    w < 2 ^ 32 ∧ w / 2 ^ 26 % 64 = op ∧ w / 2 ^ 22 % 16 = p ∧ w / 2 ^ 21 % 2 = n ∧ w / 2 ^ 15 % 64 = a15 ∧ w / 2 ^ 9 % 64 = a9 ∧ w / 2 ^ 7 % 4 = a7 ∧ w / 2 ^ 0 % 2 ^ 7 = 0 := by
  have l0 : 0 < 2 ^ 0 := Nat.one_pos
  have l7 := belowZ (l' := 7) (k := 7) rfl l0
  have l9 := below (l' := 9) (k := 2) rfl ha7 l7
  have l15 := below (l' := 15) (k := 6) rfl ha9 l9
  have l21 := below (l' := 21) (k := 6) rfl ha15 l15
  obtain ⟨hw, c1, c2, c3, e21⟩ := header he hp hn ho l21
  obtain ⟨r15, e15⟩ := top (k := 6) rfl rfl e21 l15
  obtain ⟨r9, e9⟩ := top (k := 6) rfl rfl e15 l9
  obtain ⟨r7, e7⟩ := top (k := 2) rfl rfl e9 l7
  obtain ⟨r0, e0⟩ := topZ (lo := 0) (k := 7) rfl e7 l0
  exact ⟨hw, c1, c2, c3, r15, r9, r7, r0⟩
theorem shape_16x5_10x6_9x1_z0x9 {w p n a16 a10 a9 : Nat} {op : Nat} (he : op * 2 ^ 26 + p * 2 ^ 22 + n * 2 ^ 21 + (a16 * 2 ^ 16 + (a10 * 2 ^ 10 + (a9 * 2 ^ 9 + (0)))) = w) (hp : p < 16) (hn : n < 2) (ha16 : a16 < 32) (ha10 : a10 < 64) (ha9 : a9 < 2)
    (ho : op < 64 := by decide) :
    w < 2 ^ 32 ∧ w / 2 ^ 26 % 64 = op ∧ w / 2 ^ 22 % 16 = p ∧ w / 2 ^ 21 % 2 = n ∧ w / 2 ^ 16 % 32 = a16 ∧ w / 2 ^ 10 % 64 = a10 ∧ w / 2 ^ 9 % 2 = a9 ∧ w / 2 ^ 0 % 2 ^ 9 = 0 := by
  have l0 : 0 < 2 ^ 0 := Nat.one_pos
  have l9 := belowZ (l' := 9) (k := 9) rfl l0
  have l10 := below (l' := 10) (k := 1) rfl ha9 l9
  have l16 := below (l' := 16) (k := 6) rfl ha10 l10
  have l21 := below (l' := 21) (k := 5) rfl ha16 l16
  obtain ⟨hw, c1, c2, c3, e21⟩ := header he hp hn ho l21
  obtain ⟨r16, e16⟩ := top (k := 5) rfl rfl e21 l16
  obtain ⟨r10, e10⟩ := top (k := 6) rfl rfl e16 l10
  obtain ⟨r9, e9⟩ := top (k := 1) rfl rfl e10 l9
  obtain ⟨r0, e0⟩ := topZ (lo := 0) (k := 9) rfl e9 l0
  exact ⟨hw, c1, c2, c3, r16, r10, r9, r0⟩
theorem shape_15x6_9x6_3x6_z0x3 {w p n a15 a9 a3 : Nat} {op : Nat} (he : op * 2 ^ 26 + p * 2 ^ 22 + n * 2 ^ 21 + (a15 * 2 ^ 15 + (a9 * 2 ^ 9 + (a3 * 2 ^ 3 + (0)))) = w) (hp : p < 16) (hn : n < 2) (ha15 : a15 < 64) (ha9 : a9 < 64) (ha3 : a3 < 64)
    (ho : op < 64 := by decide) :
    w < 2 ^ 32 ∧ w / 2 ^ 26 % 64 = op ∧ w / 2 ^ 22 % 16 = p ∧ w / 2 ^ 21 % 2 = n ∧ w / 2 ^ 15 % 64 = a15 ∧ w / 2 ^ 9 % 64 = a9 ∧ w / 2 ^ 3 % 64 = a3 ∧ w / 2 ^ 0 % 2 ^ 3 = 0 := by
  have l0 : 0 < 2 ^ 0 := Nat.one_pos
  have l3 := belowZ (l' := 3) (k := 3) rfl l0
  have l9 := below (l' := 9) (k := 6) rfl ha3 l3
  have l15 := below (l' := 15) (k := 6) rfl ha9 l9
  have l21 := below (l' := 21) (k := 6) rfl ha15 l15
  obtain ⟨hw, c1, c2, c3, e21⟩ := header he hp hn ho l21
  obtain ⟨r15, e15⟩ := top (k := 6) rfl rfl e21 l15
  obtain ⟨r9, e9⟩ := top (k := 6) rfl rfl e15 l9
  obtain ⟨r3, e3⟩ := top (k := 6) rfl rfl e9 l3
  obtain ⟨r0, e0⟩ := topZ (lo := 0) (k := 3) rfl e3 l0
  exact ⟨hw, c1, c2, c3, r15, r9, r3, r0⟩
theorem shape_15x6_9x6_z0x9 {w p n a15 a9 : Nat} {op : Nat} (he : op * 2 ^ 26 + p * 2 ^ 22 + n * 2 ^ 21 + (a15 * 2 ^ 15 + (a9 * 2 ^ 9 + (0))) = w) (hp : p < 16) (hn : n < 2) (ha15 : a15 < 64) (ha9 : a9 < 64)
    (ho : op < 64 := by decide) :
    w < 2 ^ 32 ∧ w / 2 ^ 26 % 64 = op ∧ w / 2 ^ 22 % 16 = p ∧ w / 2 ^ 21 % 2 = n ∧ w / 2 ^ 15 % 64 = a15 ∧ w / 2 ^ 9 % 64 = a9 ∧ w / 2 ^ 0 % 2 ^ 9 = 0 := by
  have l0 : 0 < 2 ^ 0 := Nat.one_pos
  have l9 := belowZ (l' := 9) (k := 9) rfl l0
  have l15 := below (l' := 15) (k := 6) rfl ha9 l9
  have l21 := below (l' := 21) (k := 6) rfl ha15 l15
  obtain ⟨hw, c1, c2, c3, e21⟩ := header he hp hn ho l21
  obtain ⟨r15, e15⟩ := top (k := 6) rfl rfl e21 l15
  obtain ⟨r9, e9⟩ := top (k := 6) rfl rfl e15 l9
  obtain ⟨r0, e0⟩ := topZ (lo := 0) (k := 9) rfl e9 l0
  exact ⟨hw, c1, c2, c3, r15, r9, r0⟩
theorem shape_15x6_9x6_8x1_z0x8 {w p n a15 a9 a8 : Nat} {op : Nat} (he : op * 2 ^ 26 + p * 2 ^ 22 + n * 2 ^ 21 + (a15 * 2 ^ 15 + (a9 * 2 ^ 9 + (a8 * 2 ^ 8 + (0)))) = w) (hp : p < 16) (hn : n < 2) (ha15 : a15 < 64) (ha9 : a9 < 64) (ha8 : a8 < 2)
    (ho : op < 64 := by decide) :
    w < 2 ^ 32 ∧ w / 2 ^ 26 % 64 = op ∧ w / 2 ^ 22 % 16 = p ∧ w / 2 ^ 21 % 2 = n ∧ w / 2 ^ 15 % 64 = a15 ∧ w / 2 ^ 9 % 64 = a9 ∧ w / 2 ^ 8 % 2 = a8 ∧ w / 2 ^ 0 % 2 ^ 8 = 0 := by
  have l0 : 0 < 2 ^ 0 := Nat.one_pos
  have l8 := belowZ (l' := 8) (k := 8) rfl l0
  have l9 := below (l' := 9) (k := 1) rfl ha8 l8
  have l15 := below (l' := 15) (k := 6) rfl ha9 l9
  have l21 := below (l' := 21) (k := 6) rfl ha15 l15
  obtain ⟨hw, c1, c2, c3, e21⟩ := header he hp hn ho l21
  obtain ⟨r15, e15⟩ := top (k := 6) rfl rfl e21 l15
  obtain ⟨r9, e9⟩ := top (k := 6) rfl rfl e15 l9
  obtain ⟨r8, e8⟩ := top (k := 1) rfl rfl e9 l8
  obtain ⟨r0, e0⟩ := topZ (lo := 0) (k := 8) rfl e8 l0
  exact ⟨hw, c1, c2, c3, r15, r9, r8, r0⟩
theorem shape_15x6_z0x15 {w p n a15 : Nat} {op : Nat} (he : op * 2 ^ 26 + p * 2 ^ 22 + n * 2 ^ 21 + (a15 * 2 ^ 15 + (0)) = w) (hp : p < 16) (hn : n < 2) (ha15 : a15 < 64)
    (ho : op < 64 := by decide) :
    w < 2 ^ 32 ∧ w / 2 ^ 26 % 64 = op ∧ w / 2 ^ 22 % 16 = p ∧ w / 2 ^ 21 % 2 = n ∧ w / 2 ^ 15 % 64 = a15 ∧ w / 2 ^ 0 % 2 ^ 15 = 0 := by
  have l0 : 0 < 2 ^ 0 := Nat.one_pos
  have l15 := belowZ (l' := 15) (k := 15) rfl l0
  have l21 := below (l' := 21) (k := 6) rfl ha15 l15
  obtain ⟨hw, c1, c2, c3, e21⟩ := header he hp hn ho l21
  obtain ⟨r15, e15⟩ := top (k := 6) rfl rfl e21 l15
  obtain ⟨r0, e0⟩ := topZ (lo := 0) (k := 15) rfl e15 l0
  exact ⟨hw, c1, c2, c3, r15, r0⟩
theorem shape_19x2_17x2_z0x17 {w p n a19 a17 : Nat} {op : Nat} (he : op * 2 ^ 26 + p * 2 ^ 22 + n * 2 ^ 21 + (a19 * 2 ^ 19 + (a17 * 2 ^ 17 + (0))) = w) (hp : p < 16) (hn : n < 2) (ha19 : a19 < 4) (ha17 : a17 < 4)
    (ho : op < 64 := by decide) :
    w < 2 ^ 32 ∧ w / 2 ^ 26 % 64 = op ∧ w / 2 ^ 22 % 16 = p ∧ w / 2 ^ 21 % 2 = n ∧ w / 2 ^ 19 % 4 = a19 ∧ w / 2 ^ 17 % 4 = a17 ∧ w / 2 ^ 0 % 2 ^ 17 = 0 := by
  have l0 : 0 < 2 ^ 0 := Nat.one_pos
  have l17 := belowZ (l' := 17) (k := 17) rfl l0
  have l19 := below (l' := 19) (k := 2) rfl ha17 l17
  have l21 := below (l' := 21) (k := 2) rfl ha19 l19
  obtain ⟨hw, c1, c2, c3, e21⟩ := header he hp hn ho l21
  obtain ⟨r19, e19⟩ := top (k := 2) rfl rfl e21 l19
  obtain ⟨r17, e17⟩ := top (k := 2) rfl rfl e19 l17
  obtain ⟨r0, e0⟩ := topZ (lo := 0) (k := 17) rfl e17 l0
  exact ⟨hw, c1, c2, c3, r19, r17, r0⟩
theorem shape_15x6_9x6_2x7_1x1_z0x1 {w p n a15 a9 a2 a1 : Nat} {op : Nat} (he : op * 2 ^ 26 + p * 2 ^ 22 + n * 2 ^ 21 + (a15 * 2 ^ 15 + (a9 * 2 ^ 9 + (a2 * 2 ^ 2 + (a1 * 2 ^ 1 + (0))))) = w) (hp : p < 16) (hn : n < 2) (ha15 : a15 < 64) (ha9 : a9 < 64) (ha2 : a2 < 128) (ha1 : a1 < 2)
    (ho : op < 64 := by decide) :
    w < 2 ^ 32 ∧ w / 2 ^ 26 % 64 = op ∧ w / 2 ^ 22 % 16 = p ∧ w / 2 ^ 21 % 2 = n ∧ w / 2 ^ 15 % 64 = a15 ∧ w / 2 ^ 9 % 64 = a9 ∧ w / 2 ^ 2 % 128 = a2 ∧ w / 2 ^ 1 % 2 = a1 ∧ w / 2 ^ 0 % 2 ^ 1 = 0 := by
  have l0 : 0 < 2 ^ 0 := Nat.one_pos
  have l1 := belowZ (l' := 1) (k := 1) rfl l0
  have l2 := below (l' := 2) (k := 1) rfl ha1 l1
  have l9 := below (l' := 9) (k := 7) rfl ha2 l2
  have l15 := below (l' := 15) (k := 6) rfl ha9 l9
  have l21 := below (l' := 21) (k := 6) rfl ha15 l15
  obtain ⟨hw, c1, c2, c3, e21⟩ := header he hp hn ho l21
  obtain ⟨r15, e15⟩ := top (k := 6) rfl rfl e21 l15
  obtain ⟨r9, e9⟩ := top (k := 6) rfl rfl e15 l9
  obtain ⟨r2, e2⟩ := top (k := 7) rfl rfl e9 l2
  obtain ⟨r1, e1⟩ := top (k := 1) rfl rfl e2 l1
  obtain ⟨r0, e0⟩ := topZ (lo := 0) (k := 1) rfl e1 l0
  exact ⟨hw, c1, c2, c3, r15, r9, r2, r1, r0⟩
theorem shape_14x7_z0x14 {w p n a14 : Nat} {op : Nat} (he : op * 2 ^ 26 + p * 2 ^ 22 + n * 2 ^ 21 + (a14 * 2 ^ 14 + (0)) = w) (hp : p < 16) (hn : n < 2) (ha14 : a14 < 128)
    (ho : op < 64 := by decide) :
    w < 2 ^ 32 ∧ w / 2 ^ 26 % 64 = op ∧ w / 2 ^ 22 % 16 = p ∧ w / 2 ^ 21 % 2 = n ∧ w / 2 ^ 14 % 128 = a14 ∧ w / 2 ^ 0 % 2 ^ 14 = 0 := by
  have l0 : 0 < 2 ^ 0 := Nat.one_pos
  have l14 := belowZ (l' := 14) (k := 14) rfl l0
  have l21 := below (l' := 21) (k := 7) rfl ha14 l14
  obtain ⟨hw, c1, c2, c3, e21⟩ := header he hp hn ho l21
  obtain ⟨r14, e14⟩ := top (k := 7) rfl rfl e21 l14
  obtain ⟨r0, e0⟩ := topZ (lo := 0) (k := 14) rfl e14 l0
  exact ⟨hw, c1, c2, c3, r14, r0⟩
theorem shape_15x6_9x6_3x6_0x3 {w p n a15 a9 a3 a0 : Nat} {op : Nat} (he : op * 2 ^ 26 + p * 2 ^ 22 + n * 2 ^ 21 + (a15 * 2 ^ 15 + (a9 * 2 ^ 9 + (a3 * 2 ^ 3 + (a0 * 2 ^ 0 + (0))))) = w) (hp : p < 16) (hn : n < 2) (ha15 : a15 < 64) (ha9 : a9 < 64) (ha3 : a3 < 64) (ha0 : a0 < 8)
    (ho : op < 64 := by decide) :
    w < 2 ^ 32 ∧ w / 2 ^ 26 % 64 = op ∧ w / 2 ^ 22 % 16 = p ∧ w / 2 ^ 21 % 2 = n ∧ w / 2 ^ 15 % 64 = a15 ∧ w / 2 ^ 9 % 64 = a9 ∧ w / 2 ^ 3 % 64 = a3 ∧ w / 2 ^ 0 % 8 = a0 := by
  have l0 : 0 < 2 ^ 0 := Nat.one_pos
  have l3 := below (l' := 3) (k := 3) rfl ha0 l0
  have l9 := below (l' := 9) (k := 6) rfl ha3 l3
  have l15 := below (l' := 15) (k := 6) rfl ha9 l9
  have l21 := below (l' := 21) (k := 6) rfl ha15 l15
  obtain ⟨hw, c1, c2, c3, e21⟩ := header he hp hn ho l21
  obtain ⟨r15, e15⟩ := top (k := 6) rfl rfl e21 l15
  obtain ⟨r9, e9⟩ := top (k := 6) rfl rfl e15 l9
  obtain ⟨r3, e3⟩ := top (k := 6) rfl rfl e9 l3
  obtain ⟨r0, e0⟩ := top (k := 3) rfl rfl e3 l0
  exact ⟨hw, c1, c2, c3, r15, r9, r3, r0⟩
theorem shape_15x6_9x6_0x9 {w p n a15 a9 a0 : Nat} {op : Nat} (he : op * 2 ^ 26 + p * 2 ^ 22 + n * 2 ^ 21 + (a15 * 2 ^ 15 + (a9 * 2 ^ 9 + (a0 * 2 ^ 0 + (0)))) = w) (hp : p < 16) (hn : n < 2) (ha15 : a15 < 64) (ha9 : a9 < 64) (ha0 : a0 < 512)
    (ho : op < 64 := by decide) :
    w < 2 ^ 32 ∧ w / 2 ^ 26 % 64 = op ∧ w / 2 ^ 22 % 16 = p ∧ w / 2 ^ 21 % 2 = n ∧ w / 2 ^ 15 % 64 = a15 ∧ w / 2 ^ 9 % 64 = a9 ∧ w / 2 ^ 0 % 512 = a0 := by
  have l0 : 0 < 2 ^ 0 := Nat.one_pos
  have l9 := below (l' := 9) (k := 9) rfl ha0 l0
  have l15 := below (l' := 15) (k := 6) rfl ha9 l9
  have l21 := below (l' := 21) (k := 6) rfl ha15 l15
  obtain ⟨hw, c1, c2, c3, e21⟩ := header he hp hn ho l21
  obtain ⟨r15, e15⟩ := top (k := 6) rfl rfl e21 l15
  obtain ⟨r9, e9⟩ := top (k := 6) rfl rfl e15 l9
  obtain ⟨r0, e0⟩ := top (k := 9) rfl rfl e9 l0
  exact ⟨hw, c1, c2, c3, r15, r9, r0⟩
theorem shape_15x6_0x15 {w p n a15 a0 : Nat} {op : Nat} (he : op * 2 ^ 26 + p * 2 ^ 22 + n * 2 ^ 21 + (a15 * 2 ^ 15 + (a0 * 2 ^ 0 + (0))) = w) (hp : p < 16) (hn : n < 2) (ha15 : a15 < 64) (ha0 : a0 < 32768)
    (ho : op < 64 := by decide) :
    w < 2 ^ 32 ∧ w / 2 ^ 26 % 64 = op ∧ w / 2 ^ 22 % 16 = p ∧ w / 2 ^ 21 % 2 = n ∧ w / 2 ^ 15 % 64 = a15 ∧ w / 2 ^ 0 % 32768 = a0 := by
  have l0 : 0 < 2 ^ 0 := Nat.one_pos
  have l15 := below (l' := 15) (k := 15) rfl ha0 l0
  have l21 := below (l' := 21) (k := 6) rfl ha15 l15
  obtain ⟨hw, c1, c2, c3, e21⟩ := header he hp hn ho l21
  obtain ⟨r15, e15⟩ := top (k := 6) rfl rfl e21 l15
  obtain ⟨r0, e0⟩ := top (k := 15) rfl rfl e15 l0
  exact ⟨hw, c1, c2, c3, r15, r0⟩
theorem shape_17x4_11x6_5x6_2x3_0x2 {w p n a17 a11 a5 a2 a0 : Nat} {op : Nat} (he : op * 2 ^ 26 + p * 2 ^ 22 + n * 2 ^ 21 + (a17 * 2 ^ 17 + (a11 * 2 ^ 11 + (a5 * 2 ^ 5 + (a2 * 2 ^ 2 + (a0 * 2 ^ 0 + (0)))))) = w) (hp : p < 16) (hn : n < 2) (ha17 : a17 < 16) (ha11 : a11 < 64) (ha5 : a5 < 64) (ha2 : a2 < 8) (ha0 : a0 < 4)
    (ho : op < 64 := by decide) :
    w < 2 ^ 32 ∧ w / 2 ^ 26 % 64 = op ∧ w / 2 ^ 22 % 16 = p ∧ w / 2 ^ 21 % 2 = n ∧ w / 2 ^ 17 % 16 = a17 ∧ w / 2 ^ 11 % 64 = a11 ∧ w / 2 ^ 5 % 64 = a5 ∧ w / 2 ^ 2 % 8 = a2 ∧ w / 2 ^ 0 % 4 = a0 := by
  have l0 : 0 < 2 ^ 0 := Nat.one_pos
  have l2 := below (l' := 2) (k := 2) rfl ha0 l0
  have l5 := below (l' := 5) (k := 3) rfl ha2 l2
  have l11 := below (l' := 11) (k := 6) rfl ha5 l5
  have l17 := below (l' := 17) (k := 6) rfl ha11 l11
  have l21 := below (l' := 21) (k := 4) rfl ha17 l17
  obtain ⟨hw, c1, c2, c3, e21⟩ := header he hp hn ho l21
  obtain ⟨r17, e17⟩ := top (k := 4) rfl rfl e21 l17
  obtain ⟨r11, e11⟩ := top (k := 6) rfl rfl e17 l11
  obtain ⟨r5, e5⟩ := top (k := 6) rfl rfl e11 l5
  obtain ⟨r2, e2⟩ := top (k := 3) rfl rfl e5 l2
  obtain ⟨r0, e0⟩ := top (k := 2) rfl rfl e2 l0
  exact ⟨hw, c1, c2, c3, r17, r11, r5, r2, r0⟩
theorem shape_17x4_13x4_9x4_5x4_z0x5 {w p n a17 a13 a9 a5 : Nat} {op : Nat} (he : op * 2 ^ 26 + p * 2 ^ 22 + n * 2 ^ 21 + (a17 * 2 ^ 17 + (a13 * 2 ^ 13 + (a9 * 2 ^ 9 + (a5 * 2 ^ 5 + (0))))) = w) (hp : p < 16) (hn : n < 2) (ha17 : a17 < 16) (ha13 : a13 < 16) (ha9 : a9 < 16) (ha5 : a5 < 16)
    (ho : op < 64 := by decide) :
    w < 2 ^ 32 ∧ w / 2 ^ 26 % 64 = op ∧ w / 2 ^ 22 % 16 = p ∧ w / 2 ^ 21 % 2 = n ∧ w / 2 ^ 17 % 16 = a17 ∧ w / 2 ^ 13 % 16 = a13 ∧ w / 2 ^ 9 % 16 = a9 ∧ w / 2 ^ 5 % 16 = a5 ∧ w / 2 ^ 0 % 2 ^ 5 = 0 := by
  have l0 : 0 < 2 ^ 0 := Nat.one_pos
  have l5 := belowZ (l' := 5) (k := 5) rfl l0
  have l9 := below (l' := 9) (k := 4) rfl ha5 l5
  have l13 := below (l' := 13) (k := 4) rfl ha9 l9
  have l17 := below (l' := 17) (k := 4) rfl ha13 l13
  have l21 := below (l' := 21) (k := 4) rfl ha17 l17
  obtain ⟨hw, c1, c2, c3, e21⟩ := header he hp hn ho l21
  obtain ⟨r17, e17⟩ := top (k := 4) rfl rfl e21 l17
  obtain ⟨r13, e13⟩ := top (k := 4) rfl rfl e17 l13
  obtain ⟨r9, e9⟩ := top (k := 4) rfl rfl e13 l9
  obtain ⟨r5, e5⟩ := top (k := 4) rfl rfl e9 l5
  obtain ⟨r0, e0⟩ := topZ (lo := 0) (k := 5) rfl e5 l0
  exact ⟨hw, c1, c2, c3, r17, r13, r9, r5, r0⟩
theorem shape_15x6_9x6_3x6_0x1_z1x2 {w p n a15 a9 a3 a0 : Nat} {op : Nat} (he : op * 2 ^ 26 + p * 2 ^ 22 + n * 2 ^ 21 + (a15 * 2 ^ 15 + (a9 * 2 ^ 9 + (a3 * 2 ^ 3 + (a0 * 2 ^ 0 + (0))))) = w) (hp : p < 16) (hn : n < 2) (ha15 : a15 < 64) (ha9 : a9 < 64) (ha3 : a3 < 64) (ha0 : a0 < 2)
    (ho : op < 64 := by decide) :
    w < 2 ^ 32 ∧ w / 2 ^ 26 % 64 = op ∧ w / 2 ^ 22 % 16 = p ∧ w / 2 ^ 21 % 2 = n ∧ w / 2 ^ 15 % 64 = a15 ∧ w / 2 ^ 9 % 64 = a9 ∧ w / 2 ^ 3 % 64 = a3 ∧ w / 2 ^ 0 % 2 = a0 ∧ w / 2 ^ 1 % 2 ^ 2 = 0 := by
  have l0 : 0 < 2 ^ 0 := Nat.one_pos
  have l1 := below (l' := 1) (k := 1) rfl ha0 l0
  have l3 := belowZ (l' := 3) (k := 2) rfl l1
  have l9 := below (l' := 9) (k := 6) rfl ha3 l3
  have l15 := below (l' := 15) (k := 6) rfl ha9 l9
  have l21 := below (l' := 21) (k := 6) rfl ha15 l15
  obtain ⟨hw, c1, c2, c3, e21⟩ := header he hp hn ho l21
  obtain ⟨r15, e15⟩ := top (k := 6) rfl rfl e21 l15
  obtain ⟨r9, e9⟩ := top (k := 6) rfl rfl e15 l9
  obtain ⟨r3, e3⟩ := top (k := 6) rfl rfl e9 l3
  obtain ⟨r1, e1⟩ := topZ (lo := 1) (k := 2) rfl e3 l1
  obtain ⟨r0, e0⟩ := top (k := 1) rfl rfl e1 l0
  exact ⟨hw, c1, c2, c3, r15, r9, r3, r0, r1⟩
theorem shape_15x6_5x10_z0x5 {w p n a15 a5 : Nat} {op : Nat} (he : op * 2 ^ 26 + p * 2 ^ 22 + n * 2 ^ 21 + (a15 * 2 ^ 15 + (a5 * 2 ^ 5 + (0))) = w) (hp : p < 16) (hn : n < 2) (ha15 : a15 < 64) (ha5 : a5 < 1024)
    (ho : op < 64 := by decide) :
    w < 2 ^ 32 ∧ w / 2 ^ 26 % 64 = op ∧ w / 2 ^ 22 % 16 = p ∧ w / 2 ^ 21 % 2 = n ∧ w / 2 ^ 15 % 64 = a15 ∧ w / 2 ^ 5 % 1024 = a5 ∧ w / 2 ^ 0 % 2 ^ 5 = 0 := by
  have l0 : 0 < 2 ^ 0 := Nat.one_pos
  have l5 := belowZ (l' := 5) (k := 5) rfl l0
  have l15 := below (l' := 15) (k := 10) rfl ha5 l5
  have l21 := below (l' := 21) (k := 6) rfl ha15 l15
  obtain ⟨hw, c1, c2, c3, e21⟩ := header he hp hn ho l21
  obtain ⟨r15, e15⟩ := top (k := 6) rfl rfl e21 l15
  obtain ⟨r5, e5⟩ := top (k := 10) rfl rfl e15 l5
  obtain ⟨r0, e0⟩ := topZ (lo := 0) (k := 5) rfl e5 l0
  exact ⟨hw, c1, c2, c3, r15, r5, r0⟩
theorem shape_15x6_12x3_z0x12 {w p n a15 a12 : Nat} {op : Nat} (he : op * 2 ^ 26 + p * 2 ^ 22 + n * 2 ^ 21 + (a15 * 2 ^ 15 + (a12 * 2 ^ 12 + (0))) = w) (hp : p < 16) (hn : n < 2) (ha15 : a15 < 64) (ha12 : a12 < 8)
    (ho : op < 64 := by decide) :
    w < 2 ^ 32 ∧ w / 2 ^ 26 % 64 = op ∧ w / 2 ^ 22 % 16 = p ∧ w / 2 ^ 21 % 2 = n ∧ w / 2 ^ 15 % 64 = a15 ∧ w / 2 ^ 12 % 8 = a12 ∧ w / 2 ^ 0 % 2 ^ 12 = 0 := by
  have l0 : 0 < 2 ^ 0 := Nat.one_pos
  have l12 := belowZ (l' := 12) (k := 12) rfl l0
  have l15 := below (l' := 15) (k := 3) rfl ha12 l12
  have l21 := below (l' := 21) (k := 6) rfl ha15 l15
  obtain ⟨hw, c1, c2, c3, e21⟩ := header he hp hn ho l21
  obtain ⟨r15, e15⟩ := top (k := 6) rfl rfl e21 l15
  obtain ⟨r12, e12⟩ := top (k := 3) rfl rfl e15 l12
  obtain ⟨r0, e0⟩ := topZ (lo := 0) (k := 12) rfl e12 l0
  exact ⟨hw, c1, c2, c3, r15, r12, r0⟩
theorem shape_15x6_12x3_0x12 {w p n a15 a12 a0 : Nat} {op : Nat} (he : op * 2 ^ 26 + p * 2 ^ 22 + n * 2 ^ 21 + (a15 * 2 ^ 15 + (a12 * 2 ^ 12 + (a0 * 2 ^ 0 + (0)))) = w) (hp : p < 16) (hn : n < 2) (ha15 : a15 < 64) (ha12 : a12 < 8) (ha0 : a0 < 4096)
    (ho : op < 64 := by decide) :
    w < 2 ^ 32 ∧ w / 2 ^ 26 % 64 = op ∧ w / 2 ^ 22 % 16 = p ∧ w / 2 ^ 21 % 2 = n ∧ w / 2 ^ 15 % 64 = a15 ∧ w / 2 ^ 12 % 8 = a12 ∧ w / 2 ^ 0 % 4096 = a0 := by
  have l0 : 0 < 2 ^ 0 := Nat.one_pos
  have l12 := below (l' := 12) (k := 12) rfl ha0 l0
  have l15 := below (l' := 15) (k := 3) rfl ha12 l12
  have l21 := below (l' := 21) (k := 6) rfl ha15 l15
  obtain ⟨hw, c1, c2, c3, e21⟩ := header he hp hn ho l21
  obtain ⟨r15, e15⟩ := top (k := 6) rfl rfl e21 l15
  obtain ⟨r12, e12⟩ := top (k := 3) rfl rfl e15 l12
  obtain ⟨r0, e0⟩ := top (k := 12) rfl rfl e12 l0
  exact ⟨hw, c1, c2, c3, r15, r12, r0⟩
theorem shape_15x6_12x3_6x6_z0x6 {w p n a15 a12 a6 : Nat} {op : Nat} (he : op * 2 ^ 26 + p * 2 ^ 22 + n * 2 ^ 21 + (a15 * 2 ^ 15 + (a12 * 2 ^ 12 + (a6 * 2 ^ 6 + (0)))) = w) (hp : p < 16) (hn : n < 2) (ha15 : a15 < 64) (ha12 : a12 < 8) (ha6 : a6 < 64)
    (ho : op < 64 := by decide) :
    w < 2 ^ 32 ∧ w / 2 ^ 26 % 64 = op ∧ w / 2 ^ 22 % 16 = p ∧ w / 2 ^ 21 % 2 = n ∧ w / 2 ^ 15 % 64 = a15 ∧ w / 2 ^ 12 % 8 = a12 ∧ w / 2 ^ 6 % 64 = a6 ∧ w / 2 ^ 0 % 2 ^ 6 = 0 := by
  have l0 : 0 < 2 ^ 0 := Nat.one_pos
  have l6 := belowZ (l' := 6) (k := 6) rfl l0
  have l12 := below (l' := 12) (k := 6) rfl ha6 l6
  have l15 := below (l' := 15) (k := 3) rfl ha12 l12
  have l21 := below (l' := 21) (k := 6) rfl ha15 l15
  obtain ⟨hw, c1, c2, c3, e21⟩ := header he hp hn ho l21
  obtain ⟨r15, e15⟩ := top (k := 6) rfl rfl e21 l15
  obtain ⟨r12, e12⟩ := top (k := 3) rfl rfl e15 l12
  obtain ⟨r6, e6⟩ := top (k := 6) rfl rfl e12 l6
  obtain ⟨r0, e0⟩ := topZ (lo := 0) (k := 6) rfl e6 l0
  exact ⟨hw, c1, c2, c3, r15, r12, r6, r0⟩
theorem shape_17x4_11x6_z0x11 {w p n a17 a11 : Nat} {op : Nat} (he : op * 2 ^ 26 + p * 2 ^ 22 + n * 2 ^ 21 + (a17 * 2 ^ 17 + (a11 * 2 ^ 11 + (0))) = w) (hp : p < 16) (hn : n < 2) (ha17 : a17 < 16) (ha11 : a11 < 64)
    (ho : op < 64 := by decide) :
    w < 2 ^ 32 ∧ w / 2 ^ 26 % 64 = op ∧ w / 2 ^ 22 % 16 = p ∧ w / 2 ^ 21 % 2 = n ∧ w / 2 ^ 17 % 16 = a17 ∧ w / 2 ^ 11 % 64 = a11 ∧ w / 2 ^ 0 % 2 ^ 11 = 0 := by
  have l0 : 0 < 2 ^ 0 := Nat.one_pos
  have l11 := belowZ (l' := 11) (k := 11) rfl l0
  have l17 := below (l' := 17) (k := 6) rfl ha11 l11
  have l21 := below (l' := 21) (k := 4) rfl ha17 l17
  obtain ⟨hw, c1, c2, c3, e21⟩ := header he hp hn ho l21
  obtain ⟨r17, e17⟩ := top (k := 4) rfl rfl e21 l17
  obtain ⟨r11, e11⟩ := top (k := 6) rfl rfl e17 l11
  obtain ⟨r0, e0⟩ := topZ (lo := 0) (k := 11) rfl e11 l0
  exact ⟨hw, c1, c2, c3, r17, r11, r0⟩
theorem shape_17x4_0x17 {w p n a17 a0 : Nat} {op : Nat} (he : op * 2 ^ 26 + p * 2 ^ 22 + n * 2 ^ 21 + (a17 * 2 ^ 17 + (a0 * 2 ^ 0 + (0))) = w) (hp : p < 16) (hn : n < 2) (ha17 : a17 < 16) (ha0 : a0 < 131072)
    (ho : op < 64 := by decide) :
    w < 2 ^ 32 ∧ w / 2 ^ 26 % 64 = op ∧ w / 2 ^ 22 % 16 = p ∧ w / 2 ^ 21 % 2 = n ∧ w / 2 ^ 17 % 16 = a17 ∧ w / 2 ^ 0 % 131072 = a0 := by
  have l0 : 0 < 2 ^ 0 := Nat.one_pos
  have l17 := below (l' := 17) (k := 17) rfl ha0 l0
  have l21 := below (l' := 21) (k := 4) rfl ha17 l17
  obtain ⟨hw, c1, c2, c3, e21⟩ := header he hp hn ho l21
  obtain ⟨r17, e17⟩ := top (k := 4) rfl rfl e21 l17
  obtain ⟨r0, e0⟩ := top (k := 17) rfl rfl e17 l0
  exact ⟨hw, c1, c2, c3, r17, r0⟩
theorem shape_17x4_14x3_8x6_z0x8 {w p n a17 a14 a8 : Nat} {op : Nat} (he : op * 2 ^ 26 + p * 2 ^ 22 + n * 2 ^ 21 + (a17 * 2 ^ 17 + (a14 * 2 ^ 14 + (a8 * 2 ^ 8 + (0)))) = w) (hp : p < 16) (hn : n < 2) (ha17 : a17 < 16) (ha14 : a14 < 8) (ha8 : a8 < 64)
    (ho : op < 64 := by decide) :
    w < 2 ^ 32 ∧ w / 2 ^ 26 % 64 = op ∧ w / 2 ^ 22 % 16 = p ∧ w / 2 ^ 21 % 2 = n ∧ w / 2 ^ 17 % 16 = a17 ∧ w / 2 ^ 14 % 8 = a14 ∧ w / 2 ^ 8 % 64 = a8 ∧ w / 2 ^ 0 % 2 ^ 8 = 0 := by
  have l0 : 0 < 2 ^ 0 := Nat.one_pos
  have l8 := belowZ (l' := 8) (k := 8) rfl l0
  have l14 := below (l' := 14) (k := 6) rfl ha8 l8
  have l17 := below (l' := 17) (k := 3) rfl ha14 l14
  have l21 := below (l' := 21) (k := 4) rfl ha17 l17
  obtain ⟨hw, c1, c2, c3, e21⟩ := header he hp hn ho l21
  obtain ⟨r17, e17⟩ := top (k := 4) rfl rfl e21 l17
  obtain ⟨r14, e14⟩ := top (k := 3) rfl rfl e17 l14
  obtain ⟨r8, e8⟩ := top (k := 6) rfl rfl e14 l8
  obtain ⟨r0, e0⟩ := topZ (lo := 0) (k := 8) rfl e8 l0
  exact ⟨hw, c1, c2, c3, r17, r14, r8, r0⟩
theorem shape_15x6_11x4_z0x11 {w p n a15 a11 : Nat} {op : Nat} (he : op * 2 ^ 26 + p * 2 ^ 22 + n * 2 ^ 21 + (a15 * 2 ^ 15 + (a11 * 2 ^ 11 + (0))) = w) (hp : p < 16) (hn : n < 2) (ha15 : a15 < 64) (ha11 : a11 < 16)
    (ho : op < 64 := by decide) :
    w < 2 ^ 32 ∧ w / 2 ^ 26 % 64 = op ∧ w / 2 ^ 22 % 16 = p ∧ w / 2 ^ 21 % 2 = n ∧ w / 2 ^ 15 % 64 = a15 ∧ w / 2 ^ 11 % 16 = a11 ∧ w / 2 ^ 0 % 2 ^ 11 = 0 := by
  have l0 : 0 < 2 ^ 0 := Nat.one_pos
  have l11 := belowZ (l' := 11) (k := 11) rfl l0
  have l15 := below (l' := 15) (k := 4) rfl ha11 l11
  have l21 := below (l' := 21) (k := 6) rfl ha15 l15
  obtain ⟨hw, c1, c2, c3, e21⟩ := header he hp hn ho l21
  obtain ⟨r15, e15⟩ := top (k := 6) rfl rfl e21 l15
  obtain ⟨r11, e11⟩ := top (k := 4) rfl rfl e15 l11
  obtain ⟨r0, e0⟩ := topZ (lo := 0) (k := 11) rfl e11 l0
  exact ⟨hw, c1, c2, c3, r15, r11, r0⟩
theorem shape_15x6_9x6_5x4_z0x5 {w p n a15 a9 a5 : Nat} {op : Nat} (he : op * 2 ^ 26 + p * 2 ^ 22 + n * 2 ^ 21 + (a15 * 2 ^ 15 + (a9 * 2 ^ 9 + (a5 * 2 ^ 5 + (0)))) = w) (hp : p < 16) (hn : n < 2) (ha15 : a15 < 64) (ha9 : a9 < 64) (ha5 : a5 < 16)
    (ho : op < 64 := by decide) :
    w < 2 ^ 32 ∧ w / 2 ^ 26 % 64 = op ∧ w / 2 ^ 22 % 16 = p ∧ w / 2 ^ 21 % 2 = n ∧ w / 2 ^ 15 % 64 = a15 ∧ w / 2 ^ 9 % 64 = a9 ∧ w / 2 ^ 5 % 16 = a5 ∧ w / 2 ^ 0 % 2 ^ 5 = 0 := by
  have l0 : 0 < 2 ^ 0 := Nat.one_pos
  have l5 := belowZ (l' := 5) (k := 5) rfl l0
  have l9 := below (l' := 9) (k := 4) rfl ha5 l5
  have l15 := below (l' := 15) (k := 6) rfl ha9 l9
  have l21 := below (l' := 21) (k := 6) rfl ha15 l15
  obtain ⟨hw, c1, c2, c3, e21⟩ := header he hp hn ho l21
  obtain ⟨r15, e15⟩ := top (k := 6) rfl rfl e21 l15
  obtain ⟨r9, e9⟩ := top (k := 6) rfl rfl e15 l9
  obtain ⟨r5, e5⟩ := top (k := 4) rfl rfl e9 l5
  obtain ⟨r0, e0⟩ := topZ (lo := 0) (k := 5) rfl e5 l0
  exact ⟨hw, c1, c2, c3, r15, r9, r5, r0⟩
theorem shape_14x7_8x6_4x4_3x1_0x3 {w p n a14 a8 a4 a3 a0 : Nat} {op : Nat} (he : op * 2 ^ 26 + p * 2 ^ 22 + n * 2 ^ 21 + (a14 * 2 ^ 14 + (a8 * 2 ^ 8 + (a4 * 2 ^ 4 + (a3 * 2 ^ 3 + (a0 * 2 ^ 0 + (0)))))) = w) (hp : p < 16) (hn : n < 2) (ha14 : a14 < 128) (ha8 : a8 < 64) (ha4 : a4 < 16) (ha3 : a3 < 2) (ha0 : a0 < 8)
    (ho : op < 64 := by decide) :
    w < 2 ^ 32 ∧ w / 2 ^ 26 % 64 = op ∧ w / 2 ^ 22 % 16 = p ∧ w / 2 ^ 21 % 2 = n ∧ w / 2 ^ 14 % 128 = a14 ∧ w / 2 ^ 8 % 64 = a8 ∧ w / 2 ^ 4 % 16 = a4 ∧ w / 2 ^ 3 % 2 = a3 ∧ w / 2 ^ 0 % 8 = a0 := by
  have l0 : 0 < 2 ^ 0 := Nat.one_pos
  have l3 := below (l' := 3) (k := 3) rfl ha0 l0
  have l4 := below (l' := 4) (k := 1) rfl ha3 l3
  have l8 := below (l' := 8) (k := 4) rfl ha4 l4
  have l14 := below (l' := 14) (k := 6) rfl ha8 l8
  have l21 := below (l' := 21) (k := 7) rfl ha14 l14
  obtain ⟨hw, c1, c2, c3, e21⟩ := header he hp hn ho l21
  obtain ⟨r14, e14⟩ := top (k := 7) rfl rfl e21 l14
  obtain ⟨r8, e8⟩ := top (k := 6) rfl rfl e14 l8
  obtain ⟨r4, e4⟩ := top (k := 4) rfl rfl e8 l4
  obtain ⟨r3, e3⟩ := top (k := 1) rfl rfl e4 l3
  obtain ⟨r0, e0⟩ := top (k := 3) rfl rfl e3 l0
  exact ⟨hw, c1, c2, c3, r14, r8, r4, r3, r0⟩
theorem shape_14x7_8x6_4x4_z0x4 {w p n a14 a8 a4 : Nat} {op : Nat} (he : op * 2 ^ 26 + p * 2 ^ 22 + n * 2 ^ 21 + (a14 * 2 ^ 14 + (a8 * 2 ^ 8 + (a4 * 2 ^ 4 + (0)))) = w) (hp : p < 16) (hn : n < 2) (ha14 : a14 < 128) (ha8 : a8 < 64) (ha4 : a4 < 16)
    (ho : op < 64 := by decide) :
    w < 2 ^ 32 ∧ w / 2 ^ 26 % 64 = op ∧ w / 2 ^ 22 % 16 = p ∧ w / 2 ^ 21 % 2 = n ∧ w / 2 ^ 14 % 128 = a14 ∧ w / 2 ^ 8 % 64 = a8 ∧ w / 2 ^ 4 % 16 = a4 ∧ w / 2 ^ 0 % 2 ^ 4 = 0 := by
  have l0 : 0 < 2 ^ 0 := Nat.one_pos
  have l4 := belowZ (l' := 4) (k := 4) rfl l0
  have l8 := below (l' := 8) (k := 4) rfl ha4 l4
  have l14 := below (l' := 14) (k := 6) rfl ha8 l8
  have l21 := below (l' := 21) (k := 7) rfl ha14 l14
  obtain ⟨hw, c1, c2, c3, e21⟩ := header he hp hn ho l21
  obtain ⟨r14, e14⟩ := top (k := 7) rfl rfl e21 l14
  obtain ⟨r8, e8⟩ := top (k := 6) rfl rfl e14 l8
  obtain ⟨r4, e4⟩ := top (k := 4) rfl rfl e8 l4
  obtain ⟨r0, e0⟩ := topZ (lo := 0) (k := 4) rfl e4 l0
  exact ⟨hw, c1, c2, c3, r14, r8, r4, r0⟩
theorem shape_14x7_8x6_6x2_5x1_0x3_z3x2 {w p n a14 a8 a6 a5 a0 : Nat} {op : Nat} (he : op * 2 ^ 26 + p * 2 ^ 22 + n * 2 ^ 21 + (a14 * 2 ^ 14 + (a8 * 2 ^ 8 + (a6 * 2 ^ 6 + (a5 * 2 ^ 5 + (a0 * 2 ^ 0 + (0)))))) = w) (hp : p < 16) (hn : n < 2) (ha14 : a14 < 128) (ha8 : a8 < 64) (ha6 : a6 < 4) (ha5 : a5 < 2) (ha0 : a0 < 8)
    (ho : op < 64 := by decide) :
    w < 2 ^ 32 ∧ w / 2 ^ 26 % 64 = op ∧ w / 2 ^ 22 % 16 = p ∧ w / 2 ^ 21 % 2 = n ∧ w / 2 ^ 14 % 128 = a14 ∧ w / 2 ^ 8 % 64 = a8 ∧ w / 2 ^ 6 % 4 = a6 ∧ w / 2 ^ 5 % 2 = a5 ∧ w / 2 ^ 0 % 8 = a0 ∧ w / 2 ^ 3 % 2 ^ 2 = 0 := by
  have l0 : 0 < 2 ^ 0 := Nat.one_pos
  have l3 := below (l' := 3) (k := 3) rfl ha0 l0
  have l5 := belowZ (l' := 5) (k := 2) rfl l3
  have l6 := below (l' := 6) (k := 1) rfl ha5 l5
  have l8 := below (l' := 8) (k := 2) rfl ha6 l6
  have l14 := below (l' := 14) (k := 6) rfl ha8 l8
  have l21 := below (l' := 21) (k := 7) rfl ha14 l14
  obtain ⟨hw, c1, c2, c3, e21⟩ := header he hp hn ho l21
  obtain ⟨r14, e14⟩ := top (k := 7) rfl rfl e21 l14
  obtain ⟨r8, e8⟩ := top (k := 6) rfl rfl e14 l8
  obtain ⟨r6, e6⟩ := top (k := 2) rfl rfl e8 l6
  obtain ⟨r5, e5⟩ := top (k := 1) rfl rfl e6 l5
  obtain ⟨r3, e3⟩ := topZ (lo := 3) (k := 2) rfl e5 l3
  obtain ⟨r0, e0⟩ := top (k := 3) rfl rfl e3 l0
  exact ⟨hw, c1, c2, c3, r14, r8, r6, r5, r0, r3⟩
theorem shape_14x7_8x6_6x2_z0x6 {w p n a14 a8 a6 : Nat} {op : Nat} (he : op * 2 ^ 26 + p * 2 ^ 22 + n * 2 ^ 21 + (a14 * 2 ^ 14 + (a8 * 2 ^ 8 + (a6 * 2 ^ 6 + (0)))) = w) (hp : p < 16) (hn : n < 2) (ha14 : a14 < 128) (ha8 : a8 < 64) (ha6 : a6 < 4)
    (ho : op < 64 := by decide) :
    w < 2 ^ 32 ∧ w / 2 ^ 26 % 64 = op ∧ w / 2 ^ 22 % 16 = p ∧ w / 2 ^ 21 % 2 = n ∧ w / 2 ^ 14 % 128 = a14 ∧ w / 2 ^ 8 % 64 = a8 ∧ w / 2 ^ 6 % 4 = a6 ∧ w / 2 ^ 0 % 2 ^ 6 = 0 := by
  have l0 : 0 < 2 ^ 0 := Nat.one_pos
  have l6 := belowZ (l' := 6) (k := 6) rfl l0
  have l8 := below (l' := 8) (k := 2) rfl ha6 l6
  have l14 := below (l' := 14) (k := 6) rfl ha8 l8
  have l21 := below (l' := 21) (k := 7) rfl ha14 l14
  obtain ⟨hw, c1, c2, c3, e21⟩ := header he hp hn ho l21
  obtain ⟨r14, e14⟩ := top (k := 7) rfl rfl e21 l14
  obtain ⟨r8, e8⟩ := top (k := 6) rfl rfl e14 l8
  obtain ⟨r6, e6⟩ := top (k := 2) rfl rfl e8 l6
  obtain ⟨r0, e0⟩ := topZ (lo := 0) (k := 6) rfl e6 l0
  exact ⟨hw, c1, c2, c3, r14, r8, r6, r0⟩
theorem shape_14x7_8x6_1x7_0x1 {w p n a14 a8 a1 a0 : Nat} {op : Nat} (he : op * 2 ^ 26 + p * 2 ^ 22 + n * 2 ^ 21 + (a14 * 2 ^ 14 + (a8 * 2 ^ 8 + (a1 * 2 ^ 1 + (a0 * 2 ^ 0 + (0))))) = w) (hp : p < 16) (hn : n < 2) (ha14 : a14 < 128) (ha8 : a8 < 64) (ha1 : a1 < 128) (ha0 : a0 < 2)
    (ho : op < 64 := by decide) :
    w < 2 ^ 32 ∧ w / 2 ^ 26 % 64 = op ∧ w / 2 ^ 22 % 16 = p ∧ w / 2 ^ 21 % 2 = n ∧ w / 2 ^ 14 % 128 = a14 ∧ w / 2 ^ 8 % 64 = a8 ∧ w / 2 ^ 1 % 128 = a1 ∧ w / 2 ^ 0 % 2 = a0 := by
  have l0 : 0 < 2 ^ 0 := Nat.one_pos
  have l1 := below (l' := 1) (k := 1) rfl ha0 l0
  have l8 := below (l' := 8) (k := 7) rfl ha1 l1
  have l14 := below (l' := 14) (k := 6) rfl ha8 l8
  have l21 := below (l' := 21) (k := 7) rfl ha14 l14
  obtain ⟨hw, c1, c2, c3, e21⟩ := header he hp hn ho l21
  obtain ⟨r14, e14⟩ := top (k := 7) rfl rfl e21 l14
  obtain ⟨r8, e8⟩ := top (k := 6) rfl rfl e14 l8
  obtain ⟨r1, e1⟩ := top (k := 7) rfl rfl e8 l1
  obtain ⟨r0, e0⟩ := top (k := 1) rfl rfl e1 l0
  exact ⟨hw, c1, c2, c3, r14, r8, r1, r0⟩
theorem shape_14x7_8x6_1x7_z0x1 {w p n a14 a8 a1 : Nat} {op : Nat} (he : op * 2 ^ 26 + p * 2 ^ 22 + n * 2 ^ 21 + (a14 * 2 ^ 14 + (a8 * 2 ^ 8 + (a1 * 2 ^ 1 + (0)))) = w) (hp : p < 16) (hn : n < 2) (ha14 : a14 < 128) (ha8 : a8 < 64) (ha1 : a1 < 128)
    (ho : op < 64 := by decide) :
    w < 2 ^ 32 ∧ w / 2 ^ 26 % 64 = op ∧ w / 2 ^ 22 % 16 = p ∧ w / 2 ^ 21 % 2 = n ∧ w / 2 ^ 14 % 128 = a14 ∧ w / 2 ^ 8 % 64 = a8 ∧ w / 2 ^ 1 % 128 = a1 ∧ w / 2 ^ 0 % 2 ^ 1 = 0 := by
  have l0 : 0 < 2 ^ 0 := Nat.one_pos
  have l1 := belowZ (l' := 1) (k := 1) rfl l0
  have l8 := below (l' := 8) (k := 7) rfl ha1 l1
  have l14 := below (l' := 14) (k := 6) rfl ha8 l8
  have l21 := below (l' := 21) (k := 7) rfl ha14 l14
  obtain ⟨hw, c1, c2, c3, e21⟩ := header he hp hn ho l21
  obtain ⟨r14, e14⟩ := top (k := 7) rfl rfl e21 l14
  obtain ⟨r8, e8⟩ := top (k := 6) rfl rfl e14 l8
  obtain ⟨r1, e1⟩ := top (k := 7) rfl rfl e8 l1
  obtain ⟨r0, e0⟩ := topZ (lo := 0) (k := 1) rfl e1 l0
  exact ⟨hw, c1, c2, c3, r14, r8, r1, r0⟩
theorem shape_14x7_8x6_4x4_0x3_z3x1 {w p n a14 a8 a4 a0 : Nat} {op : Nat} (he : op * 2 ^ 26 + p * 2 ^ 22 + n * 2 ^ 21 + (a14 * 2 ^ 14 + (a8 * 2 ^ 8 + (a4 * 2 ^ 4 + (a0 * 2 ^ 0 + (0))))) = w) (hp : p < 16) (hn : n < 2) (ha14 : a14 < 128) (ha8 : a8 < 64) (ha4 : a4 < 16) (ha0 : a0 < 8)
    (ho : op < 64 := by decide) :
    w < 2 ^ 32 ∧ w / 2 ^ 26 % 64 = op ∧ w / 2 ^ 22 % 16 = p ∧ w / 2 ^ 21 % 2 = n ∧ w / 2 ^ 14 % 128 = a14 ∧ w / 2 ^ 8 % 64 = a8 ∧ w / 2 ^ 4 % 16 = a4 ∧ w / 2 ^ 0 % 8 = a0 ∧ w / 2 ^ 3 % 2 ^ 1 = 0 := by
  have l0 : 0 < 2 ^ 0 := Nat.one_pos
  have l3 := below (l' := 3) (k := 3) rfl ha0 l0
  have l4 := belowZ (l' := 4) (k := 1) rfl l3
  have l8 := below (l' := 8) (k := 4) rfl ha4 l4
  have l14 := below (l' := 14) (k := 6) rfl ha8 l8
  have l21 := below (l' := 21) (k := 7) rfl ha14 l14
  obtain ⟨hw, c1, c2, c3, e21⟩ := header he hp hn ho l21
  obtain ⟨r14, e14⟩ := top (k := 7) rfl rfl e21 l14
  obtain ⟨r8, e8⟩ := top (k := 6) rfl rfl e14 l8
  obtain ⟨r4, e4⟩ := top (k := 4) rfl rfl e8 l4
  obtain ⟨r3, e3⟩ := topZ (lo := 3) (k := 1) rfl e4 l3
  obtain ⟨r0, e0⟩ := top (k := 3) rfl rfl e3 l0
  exact ⟨hw, c1, c2, c3, r14, r8, r4, r0, r3⟩
theorem shape_15x6_9x6_5x4_0x3_z3x2 {w p n a15 a9 a5 a0 : Nat} {op : Nat} (he : op * 2 ^ 26 + p * 2 ^ 22 + n * 2 ^ 21 + (a15 * 2 ^ 15 + (a9 * 2 ^ 9 + (a5 * 2 ^ 5 + (a0 * 2 ^ 0 + (0))))) = w) (hp : p < 16) (hn : n < 2) (ha15 : a15 < 64) (ha9 : a9 < 64) (ha5 : a5 < 16) (ha0 : a0 < 8)
    (ho : op < 64 := by decide) :
    w < 2 ^ 32 ∧ w / 2 ^ 26 % 64 = op ∧ w / 2 ^ 22 % 16 = p ∧ w / 2 ^ 21 % 2 = n ∧ w / 2 ^ 15 % 64 = a15 ∧ w / 2 ^ 9 % 64 = a9 ∧ w / 2 ^ 5 % 16 = a5 ∧ w / 2 ^ 0 % 8 = a0 ∧ w / 2 ^ 3 % 2 ^ 2 = 0 := by
  have l0 : 0 < 2 ^ 0 := Nat.one_pos
  have l3 := below (l' := 3) (k := 3) rfl ha0 l0
  have l5 := belowZ (l' := 5) (k := 2) rfl l3
  have l9 := below (l' := 9) (k := 4) rfl ha5 l5
  have l15 := below (l' := 15) (k := 6) rfl ha9 l9
  have l21 := below (l' := 21) (k := 6) rfl ha15 l15
  obtain ⟨hw, c1, c2, c3, e21⟩ := header he hp hn ho l21
  obtain ⟨r15, e15⟩ := top (k := 6) rfl rfl e21 l15
  obtain ⟨r9, e9⟩ := top (k := 6) rfl rfl e15 l9
  obtain ⟨r5, e5⟩ := top (k := 4) rfl rfl e9 l5
  obtain ⟨r3, e3⟩ := topZ (lo := 3) (k := 2) rfl e5 l3
  obtain ⟨r0, e0⟩ := top (k := 3) rfl rfl e3 l0
  exact ⟨hw, c1, c2, c3, r15, r9, r5, r0, r3⟩
theorem shape_14x7_8x6_z2x6_0x1_1x1 {w p n a14 a8 : Nat} {op : Nat} (he : op * 2 ^ 26 + p * 2 ^ 22 + n * 2 ^ 21 + (a14 * 2 ^ 14 + (a8 * 2 ^ 8 + (0))) = w) (hp : p < 16) (hn : n < 2) (ha14 : a14 < 128) (ha8 : a8 < 64)
    (ho : op < 64 := by decide) :
    w < 2 ^ 32 ∧ w / 2 ^ 26 % 64 = op ∧ w / 2 ^ 22 % 16 = p ∧ w / 2 ^ 21 % 2 = n ∧ w / 2 ^ 14 % 128 = a14 ∧ w / 2 ^ 8 % 64 = a8 ∧ w / 2 ^ 2 % 2 ^ 6 = 0 ∧ w / 2 ^ 0 % 2 ^ 1 = 0 ∧ w / 2 ^ 1 % 2 ^ 1 = 0 := by
  have l0 : 0 < 2 ^ 0 := Nat.one_pos
  have l1 := belowZ (l' := 1) (k := 1) rfl l0
  have l2 := belowZ (l' := 2) (k := 1) rfl l1
  have l8 := belowZ (l' := 8) (k := 6) rfl l2
  have l14 := below (l' := 14) (k := 6) rfl ha8 l8
  have l21 := below (l' := 21) (k := 7) rfl ha14 l14
  obtain ⟨hw, c1, c2, c3, e21⟩ := header he hp hn ho l21
  obtain ⟨r14, e14⟩ := top (k := 7) rfl rfl e21 l14
  obtain ⟨r8, e8⟩ := top (k := 6) rfl rfl e14 l8
  obtain ⟨r2, e2⟩ := topZ (lo := 2) (k := 6) rfl e8 l2
  obtain ⟨r1, e1⟩ := topZ (lo := 1) (k := 1) rfl e2 l1
  obtain ⟨r0, e0⟩ := topZ (lo := 0) (k := 1) rfl e1 l0
  exact ⟨hw, c1, c2, c3, r14, r8, r2, r0, r1⟩
theorem shape_14x7_8x6_2x6_1x1_z0x1 {w p n a14 a8 a2 a1 : Nat} {op : Nat} (he : op * 2 ^ 26 + p * 2 ^ 22 + n * 2 ^ 21 + (a14 * 2 ^ 14 + (a8 * 2 ^ 8 + (a2 * 2 ^ 2 + (a1 * 2 ^ 1 + (0))))) = w) (hp : p < 16) (hn : n < 2) (ha14 : a14 < 128) (ha8 : a8 < 64) (ha2 : a2 < 64) (ha1 : a1 < 2)
    (ho : op < 64 := by decide) :
    w < 2 ^ 32 ∧ w / 2 ^ 26 % 64 = op ∧ w / 2 ^ 22 % 16 = p ∧ w / 2 ^ 21 % 2 = n ∧ w / 2 ^ 14 % 128 = a14 ∧ w / 2 ^ 8 % 64 = a8 ∧ w / 2 ^ 2 % 64 = a2 ∧ w / 2 ^ 1 % 2 = a1 ∧ w / 2 ^ 0 % 2 ^ 1 = 0 := by
  have l0 : 0 < 2 ^ 0 := Nat.one_pos
  have l1 := belowZ (l' := 1) (k := 1) rfl l0
  have l2 := below (l' := 2) (k := 1) rfl ha1 l1
  have l8 := below (l' := 8) (k := 6) rfl ha2 l2
  have l14 := below (l' := 14) (k := 6) rfl ha8 l8
  have l21 := below (l' := 21) (k := 7) rfl ha14 l14
  obtain ⟨hw, c1, c2, c3, e21⟩ := header he hp hn ho l21
  obtain ⟨r14, e14⟩ := top (k := 7) rfl rfl e21 l14
  obtain ⟨r8, e8⟩ := top (k := 6) rfl rfl e14 l8
  obtain ⟨r2, e2⟩ := top (k := 6) rfl rfl e8 l2
  obtain ⟨r1, e1⟩ := top (k := 1) rfl rfl e2 l1
  obtain ⟨r0, e0⟩ := topZ (lo := 0) (k := 1) rfl e1 l0
  exact ⟨hw, c1, c2, c3, r14, r8, r2, r1, r0⟩
theorem shape_15x6_9x6_5x4_3x2_z0x3 {w p n a15 a9 a5 a3 : Nat} {op : Nat} (he : op * 2 ^ 26 + p * 2 ^ 22 + n * 2 ^ 21 + (a15 * 2 ^ 15 + (a9 * 2 ^ 9 + (a5 * 2 ^ 5 + (a3 * 2 ^ 3 + (0))))) = w) (hp : p < 16) (hn : n < 2) (ha15 : a15 < 64) (ha9 : a9 < 64) (ha5 : a5 < 16) (ha3 : a3 < 4)
    (ho : op < 64 := by decide) :
    w < 2 ^ 32 ∧ w / 2 ^ 26 % 64 = op ∧ w / 2 ^ 22 % 16 = p ∧ w / 2 ^ 21 % 2 = n ∧ w / 2 ^ 15 % 64 = a15 ∧ w / 2 ^ 9 % 64 = a9 ∧ w / 2 ^ 5 % 16 = a5 ∧ w / 2 ^ 3 % 4 = a3 ∧ w / 2 ^ 0 % 2 ^ 3 = 0 := by
  have l0 : 0 < 2 ^ 0 := Nat.one_pos
  have l3 := belowZ (l' := 3) (k := 3) rfl l0
  have l5 := below (l' := 5) (k := 2) rfl ha3 l3
  have l9 := below (l' := 9) (k := 4) rfl ha5 l5
  have l15 := below (l' := 15) (k := 6) rfl ha9 l9
  have l21 := below (l' := 21) (k := 6) rfl ha15 l15
  obtain ⟨hw, c1, c2, c3, e21⟩ := header he hp hn ho l21
  obtain ⟨r15, e15⟩ := top (k := 6) rfl rfl e21 l15
  obtain ⟨r9, e9⟩ := top (k := 6) rfl rfl e15 l9
  obtain ⟨r5, e5⟩ := top (k := 4) rfl rfl e9 l5
  obtain ⟨r3, e3⟩ := top (k := 2) rfl rfl e5 l3
  obtain ⟨r0, e0⟩ := topZ (lo := 0) (k := 3) rfl e3 l0
  exact ⟨hw, c1, c2, c3, r15, r9, r5, r3, r0⟩
theorem shape_19x2_17x2_10x7_8x2_1x7_0x1 {w p n a19 a17 a10 a8 a1 a0 : Nat} {op : Nat} (he : op * 2 ^ 26 + p * 2 ^ 22 + n * 2 ^ 21 + (a19 * 2 ^ 19 + (a17 * 2 ^ 17 + (a10 * 2 ^ 10 + (a8 * 2 ^ 8 + (a1 * 2 ^ 1 + (a0 * 2 ^ 0 + (0))))))) = w) (hp : p < 16) (hn : n < 2) (ha19 : a19 < 4) (ha17 : a17 < 4) (ha10 : a10 < 128) (ha8 : a8 < 4) (ha1 : a1 < 128) (ha0 : a0 < 2)
    (ho : op < 64 := by decide) :
    w < 2 ^ 32 ∧ w / 2 ^ 26 % 64 = op ∧ w / 2 ^ 22 % 16 = p ∧ w / 2 ^ 21 % 2 = n ∧ w / 2 ^ 19 % 4 = a19 ∧ w / 2 ^ 17 % 4 = a17 ∧ w / 2 ^ 10 % 128 = a10 ∧ w / 2 ^ 8 % 4 = a8 ∧ w / 2 ^ 1 % 128 = a1 ∧ w / 2 ^ 0 % 2 = a0 := by
  have l0 : 0 < 2 ^ 0 := Nat.one_pos
  have l1 := below (l' := 1) (k := 1) rfl ha0 l0
  have l8 := below (l' := 8) (k := 7) rfl ha1 l1
  have l10 := below (l' := 10) (k := 2) rfl ha8 l8
  have l17 := below (l' := 17) (k := 7) rfl ha10 l10
  have l19 := below (l' := 19) (k := 2) rfl ha17 l17
  have l21 := below (l' := 21) (k := 2) rfl ha19 l19
  obtain ⟨hw, c1, c2, c3, e21⟩ := header he hp hn ho l21
  obtain ⟨r19, e19⟩ := top (k := 2) rfl rfl e21 l19
  obtain ⟨r17, e17⟩ := top (k := 2) rfl rfl e19 l17
  obtain ⟨r10, e10⟩ := top (k := 7) rfl rfl e17 l10
  obtain ⟨r8, e8⟩ := top (k := 2) rfl rfl e10 l8
  obtain ⟨r1, e1⟩ := top (k := 7) rfl rfl e8 l1
  obtain ⟨r0, e0⟩ := top (k := 1) rfl rfl e1 l0
  exact ⟨hw, c1, c2, c3, r19, r17, r10, r8, r1, r0⟩
theorem shape_14x7_12x2_9x3_8x1_z0x8 {w p n a14 a12 a9 a8 : Nat} {op : Nat} (he : op * 2 ^ 26 + p * 2 ^ 22 + n * 2 ^ 21 + (a14 * 2 ^ 14 + (a12 * 2 ^ 12 + (a9 * 2 ^ 9 + (a8 * 2 ^ 8 + (0))))) = w) (hp : p < 16) (hn : n < 2) (ha14 : a14 < 128) (ha12 : a12 < 4) (ha9 : a9 < 8) (ha8 : a8 < 2)
    (ho : op < 64 := by decide) :
    w < 2 ^ 32 ∧ w / 2 ^ 26 % 64 = op ∧ w / 2 ^ 22 % 16 = p ∧ w / 2 ^ 21 % 2 = n ∧ w / 2 ^ 14 % 128 = a14 ∧ w / 2 ^ 12 % 4 = a12 ∧ w / 2 ^ 9 % 8 = a9 ∧ w / 2 ^ 8 % 2 = a8 ∧ w / 2 ^ 0 % 2 ^ 8 = 0 := by
  have l0 : 0 < 2 ^ 0 := Nat.one_pos
  have l8 := belowZ (l' := 8) (k := 8) rfl l0
  have l9 := below (l' := 9) (k := 1) rfl ha8 l8
  have l12 := below (l' := 12) (k := 3) rfl ha9 l9
  have l14 := below (l' := 14) (k := 2) rfl ha12 l12
  have l21 := below (l' := 21) (k := 7) rfl ha14 l14
  obtain ⟨hw, c1, c2, c3, e21⟩ := header he hp hn ho l21
  obtain ⟨r14, e14⟩ := top (k := 7) rfl rfl e21 l14
  obtain ⟨r12, e12⟩ := top (k := 2) rfl rfl e14 l12
  obtain ⟨r9, e9⟩ := top (k := 3) rfl rfl e12 l9
  obtain ⟨r8, e8⟩ := top (k := 1) rfl rfl e9 l8
  obtain ⟨r0, e0⟩ := topZ (lo := 0) (k := 8) rfl e8 l0
  exact ⟨hw, c1, c2, c3, r14, r12, r9, r8, r0⟩
theorem shape_14x7_12x2_6x6_z0x6 {w p n a14 a12 a6 : Nat} {op : Nat} (he : op * 2 ^ 26 + p * 2 ^ 22 + n * 2 ^ 21 + (a14 * 2 ^ 14 + (a12 * 2 ^ 12 + (a6 * 2 ^ 6 + (0)))) = w) (hp : p < 16) (hn : n < 2) (ha14 : a14 < 128) (ha12 : a12 < 4) (ha6 : a6 < 64)
    (ho : op < 64 := by decide) :
    w < 2 ^ 32 ∧ w / 2 ^ 26 % 64 = op ∧ w / 2 ^ 22 % 16 = p ∧ w / 2 ^ 21 % 2 = n ∧ w / 2 ^ 14 % 128 = a14 ∧ w / 2 ^ 12 % 4 = a12 ∧ w / 2 ^ 6 % 64 = a6 ∧ w / 2 ^ 0 % 2 ^ 6 = 0 := by
  have l0 : 0 < 2 ^ 0 := Nat.one_pos
  have l6 := belowZ (l' := 6) (k := 6) rfl l0
  have l12 := below (l' := 12) (k := 6) rfl ha6 l6
  have l14 := below (l' := 14) (k := 2) rfl ha12 l12
  have l21 := below (l' := 21) (k := 7) rfl ha14 l14
  obtain ⟨hw, c1, c2, c3, e21⟩ := header he hp hn ho l21
  obtain ⟨r14, e14⟩ := top (k := 7) rfl rfl e21 l14
  obtain ⟨r12, e12⟩ := top (k := 2) rfl rfl e14 l12
  obtain ⟨r6, e6⟩ := top (k := 6) rfl rfl e12 l6
  obtain ⟨r0, e0⟩ := topZ (lo := 0) (k := 6) rfl e6 l0
  exact ⟨hw, c1, c2, c3, r14, r12, r6, r0⟩
theorem shape_19x2_z0x19 {w p n a19 : Nat} {op : Nat} (he : op * 2 ^ 26 + p * 2 ^ 22 + n * 2 ^ 21 + (a19 * 2 ^ 19 + (0)) = w) (hp : p < 16) (hn : n < 2) (ha19 : a19 < 4)
    (ho : op < 64 := by decide) :
    w < 2 ^ 32 ∧ w / 2 ^ 26 % 64 = op ∧ w / 2 ^ 22 % 16 = p ∧ w / 2 ^ 21 % 2 = n ∧ w / 2 ^ 19 % 4 = a19 ∧ w / 2 ^ 0 % 2 ^ 19 = 0 := by
  have l0 : 0 < 2 ^ 0 := Nat.one_pos
  have l19 := belowZ (l' := 19) (k := 19) rfl l0
  have l21 := below (l' := 21) (k := 2) rfl ha19 l19
  obtain ⟨hw, c1, c2, c3, e21⟩ := header he hp hn ho l21
  obtain ⟨r19, e19⟩ := top (k := 2) rfl rfl e21 l19
  obtain ⟨r0, e0⟩ := topZ (lo := 0) (k := 19) rfl e19 l0
  exact ⟨hw, c1, c2, c3, r19, r0⟩
theorem shape_19x2_17x2_10x7_z0x10 {w p n a19 a17 a10 : Nat} {op : Nat} (he : op * 2 ^ 26 + p * 2 ^ 22 + n * 2 ^ 21 + (a19 * 2 ^ 19 + (a17 * 2 ^ 17 + (a10 * 2 ^ 10 + (0)))) = w) (hp : p < 16) (hn : n < 2) (ha19 : a19 < 4) (ha17 : a17 < 4) (ha10 : a10 < 128)
    (ho : op < 64 := by decide) :
    w < 2 ^ 32 ∧ w / 2 ^ 26 % 64 = op ∧ w / 2 ^ 22 % 16 = p ∧ w / 2 ^ 21 % 2 = n ∧ w / 2 ^ 19 % 4 = a19 ∧ w / 2 ^ 17 % 4 = a17 ∧ w / 2 ^ 10 % 128 = a10 ∧ w / 2 ^ 0 % 2 ^ 10 = 0 := by
  have l0 : 0 < 2 ^ 0 := Nat.one_pos
  have l10 := belowZ (l' := 10) (k := 10) rfl l0
  have l17 := below (l' := 17) (k := 7) rfl ha10 l10
  have l19 := below (l' := 19) (k := 2) rfl ha17 l17
  have l21 := below (l' := 21) (k := 2) rfl ha19 l19
  obtain ⟨hw, c1, c2, c3, e21⟩ := header he hp hn ho l21
  obtain ⟨r19, e19⟩ := top (k := 2) rfl rfl e21 l19
  obtain ⟨r17, e17⟩ := top (k := 2) rfl rfl e19 l17
  obtain ⟨r10, e10⟩ := top (k := 7) rfl rfl e17 l10
  obtain ⟨r0, e0⟩ := topZ (lo := 0) (k := 10) rfl e10 l0
  exact ⟨hw, c1, c2, c3, r19, r17, r10, r0⟩
theorem shape_14x7_7x7_0x7 {w p n a14 a7 a0 : Nat} {op : Nat} (he : op * 2 ^ 26 + p * 2 ^ 22 + n * 2 ^ 21 + (a14 * 2 ^ 14 + (a7 * 2 ^ 7 + (a0 * 2 ^ 0 + (0)))) = w) (hp : p < 16) (hn : n < 2) (ha14 : a14 < 128) (ha7 : a7 < 128) (ha0 : a0 < 128)
    (ho : op < 64 := by decide) :
    w < 2 ^ 32 ∧ w / 2 ^ 26 % 64 = op ∧ w / 2 ^ 22 % 16 = p ∧ w / 2 ^ 21 % 2 = n ∧ w / 2 ^ 14 % 128 = a14 ∧ w / 2 ^ 7 % 128 = a7 ∧ w / 2 ^ 0 % 128 = a0 := by
  have l0 : 0 < 2 ^ 0 := Nat.one_pos
  have l7 := below (l' := 7) (k := 7) rfl ha0 l0
  have l14 := below (l' := 14) (k := 7) rfl ha7 l7
  have l21 := below (l' := 21) (k := 7) rfl ha14 l14
  obtain ⟨hw, c1, c2, c3, e21⟩ := header he hp hn ho l21
  obtain ⟨r14, e14⟩ := top (k := 7) rfl rfl e21 l14
  obtain ⟨r7, e7⟩ := top (k := 7) rfl rfl e14 l7
  obtain ⟨r0, e0⟩ := top (k := 7) rfl rfl e7 l0
  exact ⟨hw, c1, c2, c3, r14, r7, r0⟩
theorem shape_14x7_7x7_z0x7 {w p n a14 a7 : Nat} {op : Nat} (he : op * 2 ^ 26 + p * 2 ^ 22 + n * 2 ^ 21 + (a14 * 2 ^ 14 + (a7 * 2 ^ 7 + (0))) = w) (hp : p < 16) (hn : n < 2) (ha14 : a14 < 128) (ha7 : a7 < 128)
    (ho : op < 64 := by decide) :
    w < 2 ^ 32 ∧ w / 2 ^ 26 % 64 = op ∧ w / 2 ^ 22 % 16 = p ∧ w / 2 ^ 21 % 2 = n ∧ w / 2 ^ 14 % 128 = a14 ∧ w / 2 ^ 7 % 128 = a7 ∧ w / 2 ^ 0 % 2 ^ 7 = 0 := by
  have l0 : 0 < 2 ^ 0 := Nat.one_pos
  have l7 := belowZ (l' := 7) (k := 7) rfl l0
  have l14 := below (l' := 14) (k := 7) rfl ha7 l7
  have l21 := below (l' := 21) (k := 7) rfl ha14 l14
  obtain ⟨hw, c1, c2, c3, e21⟩ := header he hp hn ho l21
  obtain ⟨r14, e14⟩ := top (k := 7) rfl rfl e21 l14
  obtain ⟨r7, e7⟩ := top (k := 7) rfl rfl e14 l7
  obtain ⟨r0, e0⟩ := topZ (lo := 0) (k := 7) rfl e7 l0
  exact ⟨hw, c1, c2, c3, r14, r7, r0⟩
theorem shape_14x7_7x7_4x3_3x1_z0x3 {w p n a14 a7 a4 a3 : Nat} {op : Nat} (he : op * 2 ^ 26 + p * 2 ^ 22 + n * 2 ^ 21 + (a14 * 2 ^ 14 + (a7 * 2 ^ 7 + (a4 * 2 ^ 4 + (a3 * 2 ^ 3 + (0))))) = w) (hp : p < 16) (hn : n < 2) (ha14 : a14 < 128) (ha7 : a7 < 128) (ha4 : a4 < 8) (ha3 : a3 < 2)
    (ho : op < 64 := by decide) :
    w < 2 ^ 32 ∧ w / 2 ^ 26 % 64 = op ∧ w / 2 ^ 22 % 16 = p ∧ w / 2 ^ 21 % 2 = n ∧ w / 2 ^ 14 % 128 = a14 ∧ w / 2 ^ 7 % 128 = a7 ∧ w / 2 ^ 4 % 8 = a4 ∧ w / 2 ^ 3 % 2 = a3 ∧ w / 2 ^ 0 % 2 ^ 3 = 0 := by
  have l0 : 0 < 2 ^ 0 := Nat.one_pos
  have l3 := belowZ (l' := 3) (k := 3) rfl l0
  have l4 := below (l' := 4) (k := 1) rfl ha3 l3
  have l7 := below (l' := 7) (k := 3) rfl ha4 l4
  have l14 := below (l' := 14) (k := 7) rfl ha7 l7
  have l21 := below (l' := 21) (k := 7) rfl ha14 l14
  obtain ⟨hw, c1, c2, c3, e21⟩ := header he hp hn ho l21
  obtain ⟨r14, e14⟩ := top (k := 7) rfl rfl e21 l14
  obtain ⟨r7, e7⟩ := top (k := 7) rfl rfl e14 l7
  obtain ⟨r4, e4⟩ := top (k := 3) rfl rfl e7 l4
  obtain ⟨r3, e3⟩ := top (k := 1) rfl rfl e4 l3
  obtain ⟨r0, e0⟩ := topZ (lo := 0) (k := 3) rfl e3 l0
  exact ⟨hw, c1, c2, c3, r14, r7, r4, r3, r0⟩
theorem shape_14x7_7x7_1x6_z0x1 {w p n a14 a7 a1 : Nat} {op : Nat} (he : op * 2 ^ 26 + p * 2 ^ 22 + n * 2 ^ 21 + (a14 * 2 ^ 14 + (a7 * 2 ^ 7 + (a1 * 2 ^ 1 + (0)))) = w) (hp : p < 16) (hn : n < 2) (ha14 : a14 < 128) (ha7 : a7 < 128) (ha1 : a1 < 64)
    (ho : op < 64 := by decide) :
    w < 2 ^ 32 ∧ w / 2 ^ 26 % 64 = op ∧ w / 2 ^ 22 % 16 = p ∧ w / 2 ^ 21 % 2 = n ∧ w / 2 ^ 14 % 128 = a14 ∧ w / 2 ^ 7 % 128 = a7 ∧ w / 2 ^ 1 % 64 = a1 ∧ w / 2 ^ 0 % 2 ^ 1 = 0 := by
  have l0 : 0 < 2 ^ 0 := Nat.one_pos
  have l1 := belowZ (l' := 1) (k := 1) rfl l0
  have l7 := below (l' := 7) (k := 6) rfl ha1 l1
  have l14 := below (l' := 14) (k := 7) rfl ha7 l7
  have l21 := below (l' := 21) (k := 7) rfl ha14 l14
  obtain ⟨hw, c1, c2, c3, e21⟩ := header he hp hn ho l21
  obtain ⟨r14, e14⟩ := top (k := 7) rfl rfl e21 l14
  obtain ⟨r7, e7⟩ := top (k := 7) rfl rfl e14 l7
  obtain ⟨r1, e1⟩ := top (k := 6) rfl rfl e7 l1
  obtain ⟨r0, e0⟩ := topZ (lo := 0) (k := 1) rfl e1 l0
  exact ⟨hw, c1, c2, c3, r14, r7, r1, r0⟩
theorem shape_14x7_7x7_3x4_z0x3 {w p n a14 a7 a3 : Nat} {op : Nat} (he : op * 2 ^ 26 + p * 2 ^ 22 + n * 2 ^ 21 + (a14 * 2 ^ 14 + (a7 * 2 ^ 7 + (a3 * 2 ^ 3 + (0)))) = w) (hp : p < 16) (hn : n < 2) (ha14 : a14 < 128) (ha7 : a7 < 128) (ha3 : a3 < 16)
    (ho : op < 64 := by decide) :
    w < 2 ^ 32 ∧ w / 2 ^ 26 % 64 = op ∧ w / 2 ^ 22 % 16 = p ∧ w / 2 ^ 21 % 2 = n ∧ w / 2 ^ 14 % 128 = a14 ∧ w / 2 ^ 7 % 128 = a7 ∧ w / 2 ^ 3 % 16 = a3 ∧ w / 2 ^ 0 % 2 ^ 3 = 0 := by
  have l0 : 0 < 2 ^ 0 := Nat.one_pos
  have l3 := belowZ (l' := 3) (k := 3) rfl l0
  have l7 := below (l' := 7) (k := 4) rfl ha3 l3
  have l14 := below (l' := 14) (k := 7) rfl ha7 l7
  have l21 := below (l' := 21) (k := 7) rfl ha14 l14
  obtain ⟨hw, c1, c2, c3, e21⟩ := header he hp hn ho l21
  obtain ⟨r14, e14⟩ := top (k := 7) rfl rfl e21 l14
  obtain ⟨r7, e7⟩ := top (k := 7) rfl rfl e14 l7
  obtain ⟨r3, e3⟩ := top (k := 4) rfl rfl e7 l3
  obtain ⟨r0, e0⟩ := topZ (lo := 0) (k := 3) rfl e3 l0
  exact ⟨hw, c1, c2, c3, r14, r7, r3, r0⟩
theorem shape_14x7_7x7_4x3_3x1_1x2_z0x1 {w p n a14 a7 a4 a3 a1 : Nat} {op : Nat} (he : op * 2 ^ 26 + p * 2 ^ 22 + n * 2 ^ 21 + (a14 * 2 ^ 14 + (a7 * 2 ^ 7 + (a4 * 2 ^ 4 + (a3 * 2 ^ 3 + (a1 * 2 ^ 1 + (0)))))) = w) (hp : p < 16) (hn : n < 2) (ha14 : a14 < 128) (ha7 : a7 < 128) (ha4 : a4 < 8) (ha3 : a3 < 2) (ha1 : a1 < 4)
    (ho : op < 64 := by decide) :
    w < 2 ^ 32 ∧ w / 2 ^ 26 % 64 = op ∧ w / 2 ^ 22 % 16 = p ∧ w / 2 ^ 21 % 2 = n ∧ w / 2 ^ 14 % 128 = a14 ∧ w / 2 ^ 7 % 128 = a7 ∧ w / 2 ^ 4 % 8 = a4 ∧ w / 2 ^ 3 % 2 = a3 ∧ w / 2 ^ 1 % 4 = a1 ∧ w / 2 ^ 0 % 2 ^ 1 = 0 := by
  have l0 : 0 < 2 ^ 0 := Nat.one_pos
  have l1 := belowZ (l' := 1) (k := 1) rfl l0
  have l3 := below (l' := 3) (k := 2) rfl ha1 l1
  have l4 := below (l' := 4) (k := 1) rfl ha3 l3
  have l7 := below (l' := 7) (k := 3) rfl ha4 l4
  have l14 := below (l' := 14) (k := 7) rfl ha7 l7
  have l21 := below (l' := 21) (k := 7) rfl ha14 l14
  obtain ⟨hw, c1, c2, c3, e21⟩ := header he hp hn ho l21
  obtain ⟨r14, e14⟩ := top (k := 7) rfl rfl e21 l14
  obtain ⟨r7, e7⟩ := top (k := 7) rfl rfl e14 l7
  obtain ⟨r4, e4⟩ := top (k := 3) rfl rfl e7 l4
  obtain ⟨r3, e3⟩ := top (k := 1) rfl rfl e4 l3
  obtain ⟨r1, e1⟩ := top (k := 2) rfl rfl e3 l1
  obtain ⟨r0, e0⟩ := topZ (lo := 0) (k := 1) rfl e1 l0
  exact ⟨hw, c1, c2, c3, r14, r7, r4, r3, r1, r0⟩
theorem shape_15x6_8x7_2x6_z0x2 {w p n a15 a8 a2 : Nat} {op : Nat} (he : op * 2 ^ 26 + p * 2 ^ 22 + n * 2 ^ 21 + (a15 * 2 ^ 15 + (a8 * 2 ^ 8 + (a2 * 2 ^ 2 + (0)))) = w) (hp : p < 16) (hn : n < 2) (ha15 : a15 < 64) (ha8 : a8 < 128) (ha2 : a2 < 64)
    (ho : op < 64 := by decide) :
    w < 2 ^ 32 ∧ w / 2 ^ 26 % 64 = op ∧ w / 2 ^ 22 % 16 = p ∧ w / 2 ^ 21 % 2 = n ∧ w / 2 ^ 15 % 64 = a15 ∧ w / 2 ^ 8 % 128 = a8 ∧ w / 2 ^ 2 % 64 = a2 ∧ w / 2 ^ 0 % 2 ^ 2 = 0 := by
  have l0 : 0 < 2 ^ 0 := Nat.one_pos
  have l2 := belowZ (l' := 2) (k := 2) rfl l0
  have l8 := below (l' := 8) (k := 6) rfl ha2 l2
  have l15 := below (l' := 15) (k := 7) rfl ha8 l8
  have l21 := below (l' := 21) (k := 6) rfl ha15 l15
  obtain ⟨hw, c1, c2, c3, e21⟩ := header he hp hn ho l21
  obtain ⟨r15, e15⟩ := top (k := 6) rfl rfl e21 l15
  obtain ⟨r8, e8⟩ := top (k := 7) rfl rfl e15 l8
  obtain ⟨r2, e2⟩ := top (k := 6) rfl rfl e8 l2
  obtain ⟨r0, e0⟩ := topZ (lo := 0) (k := 2) rfl e2 l0
  exact ⟨hw, c1, c2, c3, r15, r8, r2, r0⟩
theorem shape_14x7_8x6_2x6_z0x2 {w p n a14 a8 a2 : Nat} {op : Nat} (he : op * 2 ^ 26 + p * 2 ^ 22 + n * 2 ^ 21 + (a14 * 2 ^ 14 + (a8 * 2 ^ 8 + (a2 * 2 ^ 2 + (0)))) = w) (hp : p < 16) (hn : n < 2) (ha14 : a14 < 128) (ha8 : a8 < 64) (ha2 : a2 < 64)
    (ho : op < 64 := by decide) :
    w < 2 ^ 32 ∧ w / 2 ^ 26 % 64 = op ∧ w / 2 ^ 22 % 16 = p ∧ w / 2 ^ 21 % 2 = n ∧ w / 2 ^ 14 % 128 = a14 ∧ w / 2 ^ 8 % 64 = a8 ∧ w / 2 ^ 2 % 64 = a2 ∧ w / 2 ^ 0 % 2 ^ 2 = 0 := by
  have l0 : 0 < 2 ^ 0 := Nat.one_pos
  have l2 := belowZ (l' := 2) (k := 2) rfl l0
  have l8 := below (l' := 8) (k := 6) rfl ha2 l2
  have l14 := below (l' := 14) (k := 6) rfl ha8 l8
  have l21 := below (l' := 21) (k := 7) rfl ha14 l14
  obtain ⟨hw, c1, c2, c3, e21⟩ := header he hp hn ho l21
  obtain ⟨r14, e14⟩ := top (k := 7) rfl rfl e21 l14
  obtain ⟨r8, e8⟩ := top (k := 6) rfl rfl e14 l8
  obtain ⟨r2, e2⟩ := top (k := 6) rfl rfl e8 l2
  obtain ⟨r0, e0⟩ := topZ (lo := 0) (k := 2) rfl e2 l0
  exact ⟨hw, c1, c2, c3, r14, r8, r2, r0⟩
theorem shape_14x7_8x6_z0x8 {w p n a14 a8 : Nat} {op : Nat} (he : op * 2 ^ 26 + p * 2 ^ 22 + n * 2 ^ 21 + (a14 * 2 ^ 14 + (a8 * 2 ^ 8 + (0))) = w) (hp : p < 16) (hn : n < 2) (ha14 : a14 < 128) (ha8 : a8 < 64)
    (ho : op < 64 := by decide) :
    w < 2 ^ 32 ∧ w / 2 ^ 26 % 64 = op ∧ w / 2 ^ 22 % 16 = p ∧ w / 2 ^ 21 % 2 = n ∧ w / 2 ^ 14 % 128 = a14 ∧ w / 2 ^ 8 % 64 = a8 ∧ w / 2 ^ 0 % 2 ^ 8 = 0 := by
  have l0 : 0 < 2 ^ 0 := Nat.one_pos
  have l8 := belowZ (l' := 8) (k := 8) rfl l0
  have l14 := below (l' := 14) (k := 6) rfl ha8 l8
  have l21 := below (l' := 21) (k := 7) rfl ha14 l14
  obtain ⟨hw, c1, c2, c3, e21⟩ := header he hp hn ho l21
  obtain ⟨r14, e14⟩ := top (k := 7) rfl rfl e21 l14
  obtain ⟨r8, e8⟩ := top (k := 6) rfl rfl e14 l8
  obtain ⟨r0, e0⟩ := topZ (lo := 0) (k := 8) rfl e8 l0
  exact ⟨hw, c1, c2, c3, r14, r8, r0⟩
theorem shape_14x7_7x7_5x2_z0x5 {w p n a14 a7 a5 : Nat} {op : Nat} (he : op * 2 ^ 26 + p * 2 ^ 22 + n * 2 ^ 21 + (a14 * 2 ^ 14 + (a7 * 2 ^ 7 + (a5 * 2 ^ 5 + (0)))) = w) (hp : p < 16) (hn : n < 2) (ha14 : a14 < 128) (ha7 : a7 < 128) (ha5 : a5 < 4)
    (ho : op < 64 := by decide) :
    w < 2 ^ 32 ∧ w / 2 ^ 26 % 64 = op ∧ w / 2 ^ 22 % 16 = p ∧ w / 2 ^ 21 % 2 = n ∧ w / 2 ^ 14 % 128 = a14 ∧ w / 2 ^ 7 % 128 = a7 ∧ w / 2 ^ 5 % 4 = a5 ∧ w / 2 ^ 0 % 2 ^ 5 = 0 := by
  have l0 : 0 < 2 ^ 0 := Nat.one_pos
  have l5 := belowZ (l' := 5) (k := 5) rfl l0
  have l7 := below (l' := 7) (k := 2) rfl ha5 l5
  have l14 := below (l' := 14) (k := 7) rfl ha7 l7
  have l21 := below (l' := 21) (k := 7) rfl ha14 l14
  obtain ⟨hw, c1, c2, c3, e21⟩ := header he hp hn ho l21
  obtain ⟨r14, e14⟩ := top (k := 7) rfl rfl e21 l14
  obtain ⟨r7, e7⟩ := top (k := 7) rfl rfl e14 l7
  obtain ⟨r5, e5⟩ := top (k := 2) rfl rfl e7 l5
  obtain ⟨r0, e0⟩ := topZ (lo := 0) (k := 5) rfl e5 l0
  exact ⟨hw, c1, c2, c3, r14, r7, r5, r0⟩
theorem shape_14x7_11x3_z0x11 {w p n a14 a11 : Nat} {op : Nat} (he : op * 2 ^ 26 + p * 2 ^ 22 + n * 2 ^ 21 + (a14 * 2 ^ 14 + (a11 * 2 ^ 11 + (0))) = w) (hp : p < 16) (hn : n < 2) (ha14 : a14 < 128) (ha11 : a11 < 8)
    (ho : op < 64 := by decide) :
    w < 2 ^ 32 ∧ w / 2 ^ 26 % 64 = op ∧ w / 2 ^ 22 % 16 = p ∧ w / 2 ^ 21 % 2 = n ∧ w / 2 ^ 14 % 128 = a14 ∧ w / 2 ^ 11 % 8 = a11 ∧ w / 2 ^ 0 % 2 ^ 11 = 0 := by
  have l0 : 0 < 2 ^ 0 := Nat.one_pos
  have l11 := belowZ (l' := 11) (k := 11) rfl l0
  have l14 := below (l' := 14) (k := 3) rfl ha11 l11
  have l21 := below (l' := 21) (k := 7) rfl ha14 l14
  obtain ⟨hw, c1, c2, c3, e21⟩ := header he hp hn ho l21
  obtain ⟨r14, e14⟩ := top (k := 7) rfl rfl e21 l14
  obtain ⟨r11, e11⟩ := top (k := 3) rfl rfl e14 l11
  obtain ⟨r0, e0⟩ := topZ (lo := 0) (k := 11) rfl e11 l0
  exact ⟨hw, c1, c2, c3, r14, r11, r0⟩
theorem shape_15x6_8x7_z0x8 {w p n a15 a8 : Nat} {op : Nat} (he : op * 2 ^ 26 + p * 2 ^ 22 + n * 2 ^ 21 + (a15 * 2 ^ 15 + (a8 * 2 ^ 8 + (0))) = w) (hp : p < 16) (hn : n < 2) (ha15 : a15 < 64) (ha8 : a8 < 128)
    (ho : op < 64 := by decide) :
    w < 2 ^ 32 ∧ w / 2 ^ 26 % 64 = op ∧ w / 2 ^ 22 % 16 = p ∧ w / 2 ^ 21 % 2 = n ∧ w / 2 ^ 15 % 64 = a15 ∧ w / 2 ^ 8 % 128 = a8 ∧ w / 2 ^ 0 % 2 ^ 8 = 0 := by
  have l0 : 0 < 2 ^ 0 := Nat.one_pos
  have l8 := belowZ (l' := 8) (k := 8) rfl l0
  have l15 := below (l' := 15) (k := 7) rfl ha8 l8
  have l21 := below (l' := 21) (k := 6) rfl ha15 l15
  obtain ⟨hw, c1, c2, c3, e21⟩ := header he hp hn ho l21
  obtain ⟨r15, e15⟩ := top (k := 6) rfl rfl e21 l15
  obtain ⟨r8, e8⟩ := top (k := 7) rfl rfl e15 l8
  obtain ⟨r0, e0⟩ := topZ (lo := 0) (k := 8) rfl e8 l0
  exact ⟨hw, c1, c2, c3, r15, r8, r0⟩
theorem shape_15x6_14x1_z0x14 {w p n a15 a14 : Nat} {op : Nat} (he : op * 2 ^ 26 + p * 2 ^ 22 + n * 2 ^ 21 + (a15 * 2 ^ 15 + (a14 * 2 ^ 14 + (0))) = w) (hp : p < 16) (hn : n < 2) (ha15 : a15 < 64) (ha14 : a14 < 2)
    (ho : op < 64 := by decide) :
    w < 2 ^ 32 ∧ w / 2 ^ 26 % 64 = op ∧ w / 2 ^ 22 % 16 = p ∧ w / 2 ^ 21 % 2 = n ∧ w / 2 ^ 15 % 64 = a15 ∧ w / 2 ^ 14 % 2 = a14 ∧ w / 2 ^ 0 % 2 ^ 14 = 0 := by
  have l0 : 0 < 2 ^ 0 := Nat.one_pos
  have l14 := belowZ (l' := 14) (k := 14) rfl l0
  have l15 := below (l' := 15) (k := 1) rfl ha14 l14
  have l21 := below (l' := 21) (k := 6) rfl ha15 l15
  obtain ⟨hw, c1, c2, c3, e21⟩ := header he hp hn ho l21
  obtain ⟨r15, e15⟩ := top (k := 6) rfl rfl e21 l15
  obtain ⟨r14, e14⟩ := top (k := 1) rfl rfl e15 l14
  obtain ⟨r0, e0⟩ := topZ (lo := 0) (k := 14) rfl e14 l0
  exact ⟨hw, c1, c2, c3, r15, r14, r0⟩

/-! ### The family -/

/-- A well-formed instruction that has a word is what its slot decodes from that word; an event has no word. -/
def RoundTrip.Statement (i : Instr) : Prop :=
  i.wf = true → ∀ w, encode i = some w → ∃ k, i.slot? = some k ∧ w < 2 ^ 32 ∧ decodeSlot k w = .ok i

theorem RoundTrip.nop (h : Hdr) : RoundTrip.Statement (.nop h) := by
  intro hw w he
  obtain ⟨hl, e2, e3, e4, z0⟩ := shape__z0x21 (op := 0) (Option.some.inj he) h.pr.isLt (boolNat_lt h.pn)
  have z := zeros_eq z0
  refine ⟨h.slot, rfl, hl, decodeSlot_ok ?_ hw⟩
  generalize hk : h.slot = k
  match k with
  | 0 => rw [decRaw_0 e2 (hdrOf_eq hk e3 e4)]; show unlessRes (zeros w 0 21) _ = _; rw [z]; rfl
  | 1 => rw [decRaw_1 e2 (hdrOf_eq hk e3 e4)]; show unlessRes (zeros w 0 21) _ = _; rw [z]; rfl
  | 2 => rw [decRaw_2lo e2 (hdrOf_eq hk e3 e4) (by decide)]; show unlessRes (zeros w 0 21) _ = _; rw [z]; rfl
  | 3 => rw [decRaw_3 e2 (hdrOf_eq hk e3 e4)]; show unlessRes (zeros w 0 21) _ = _; rw [z]; rfl
  | 4 => rw [decRaw_4 e2 (hdrOf_eq hk e3 e4)]; show unlessRes (zeros w 0 21) _ = _; rw [z]; rfl
  | 5 => rw [decRaw_5 e2 (hdrOf_eq hk e3 e4)]; show unlessRes (zeros w 0 21) _ = _; rw [z]; rfl
  | 6 => rw [decRaw_6lo e2 (hdrOf_eq hk e3 e4) (by decide)]; show unlessRes (zeros w 0 21) _ = _; rw [z]; rfl
  | 7 => rw [decRaw_7 e2 (hdrOf_eq hk e3 e4)]; show unlessRes (zeros w 0 21) _ = _; rw [z]; rfl
theorem RoundTrip.br (h : Hdr) (disp : BitVec 21) : RoundTrip.Statement (.br h disp) := by
  intro hw w he
  replace he := Option.some.inj he
  rw [List.sum_cons, List.sum_nil] at he
  simp only [encHdr, sh] at he
  obtain ⟨hl, e2, e3, e4, f0⟩ := shape_0x21 he h.pr.isLt (boolNat_lt h.pn) disp.isLt
  refine ⟨h.slot, rfl, hl, decodeSlot_ok ?_ hw⟩
  have hk := at1 hw
  rw [hk, decRaw_0 e2 (hdrOf_eq hk e3 e4)]; show ((.ok (.br h (fieldB w 0))) : Except DecErr Instr) = _; rw [(fieldB_eq f0 : fieldB w 0 = disp)] <;> rfl
theorem RoundTrip.call (h : Hdr) (disp : BitVec 21) : RoundTrip.Statement (.call h disp) := by
  intro hw w he
  replace he := Option.some.inj he
  rw [List.sum_cons, List.sum_nil] at he
  simp only [encHdr, sh] at he
  obtain ⟨hl, e2, e3, e4, f0⟩ := shape_0x21 he h.pr.isLt (boolNat_lt h.pn) disp.isLt
  refine ⟨h.slot, rfl, hl, decodeSlot_ok ?_ hw⟩
  have hk := at1 hw
  rw [hk, decRaw_0 e2 (hdrOf_eq hk e3 e4)]; show ((.ok (.call h (fieldB w 0))) : Except DecErr Instr) = _; rw [(fieldB_eq f0 : fieldB w 0 = disp)] <;> rfl
theorem RoundTrip.ret (h : Hdr) : RoundTrip.Statement (.ret h) := by
  intro hw w he
  replace he := Option.some.inj he
  rw [List.sum_nil] at he
  simp only [encHdr] at he
  obtain ⟨hl, e2, e3, e4, z0⟩ := shape__z0x21 he h.pr.isLt (boolNat_lt h.pn)
  refine ⟨h.slot, rfl, hl, decodeSlot_ok ?_ hw⟩
  have hk := at1 hw
  rw [hk, decRaw_0 e2 (hdrOf_eq hk e3 e4)]; show ((unlessRes (zeros w 0 21) (.ok (.ret h))) : Except DecErr Instr) = _; rw [zeros_eq z0] <;> rfl
theorem RoundTrip.jmp (h : Hdr) (target : Fin 8192) : RoundTrip.Statement (.jmp h target) := by
  intro hw w he
  replace he := Option.some.inj he
  rw [List.sum_cons, List.sum_nil] at he
  simp only [encHdr, sh] at he
  obtain ⟨hl, e2, e3, e4, f0, z13⟩ := shape_0x13_z13x8 he h.pr.isLt (boolNat_lt h.pn) target.isLt
  refine ⟨h.slot, rfl, hl, decodeSlot_ok ?_ hw⟩
  have hk := at1 hw
  rw [hk, decRaw_0 e2 (hdrOf_eq hk e3 e4)]; show ((unlessRes (zeros w 13 8) (.ok (.jmp h (fieldF w 0)))) : Except DecErr Instr) = _; rw [zeros_eq z13, (fieldF_eq f0 : fieldF w 0 = target)] <;> rfl
theorem RoundTrip.loop (h : Hdr) (l : Bool) (p : Bool) (count : Fin 1024) (lenM1 : Fin 256) : RoundTrip.Statement (.loop h l p count lenM1) := by
  intro hw w he
  replace he := Option.some.inj he
  rw [List.sum_cons, List.sum_cons, List.sum_cons, List.sum_cons, List.sum_nil] at he
  simp only [encHdr, sh] at he
  obtain ⟨hl, e2, e3, e4, f19, f18, f8, f0, z20⟩ := shape_19x1_18x1_8x10_0x8_z20x1 he h.pr.isLt (boolNat_lt h.pn) (boolNat_lt l) (boolNat_lt p) count.isLt lenM1.isLt
  refine ⟨h.slot, rfl, hl, decodeSlot_ok ?_ hw⟩
  have hk := at1 hw
  rw [hk, decRaw_0 e2 (hdrOf_eq hk e3 e4)]; show ((if fieldBit w 20 then unlessRes (zeros w 8 4) (.ok (.loopReg h (fieldBit w 19) (fieldBit w 18) (fieldF w 12) (fieldF w 0))) else .ok (.loop h (fieldBit w 19) (fieldBit w 18) (fieldF w 8) (fieldF w 0))) : Except DecErr Instr) = _; rw [(fieldBit_eq (b := false) z20), (fieldBit_eq f19 : fieldBit w 19 = l), (fieldBit_eq f18 : fieldBit w 18 = p), (fieldF_eq f8 : fieldF w 8 = count), (fieldF_eq f0 : fieldF w 0 = lenM1)] <;> rfl
theorem RoundTrip.loopReg (h : Hdr) (l : Bool) (p : Bool) (xN : XReg) (lenM1 : Fin 256) : RoundTrip.Statement (.loopReg h l p xN lenM1) := by
  intro hw w he
  replace he := Option.some.inj he
  rw [List.sum_cons, List.sum_cons, List.sum_cons, List.sum_cons, List.sum_cons, List.sum_nil] at he
  simp only [encHdr, sh] at he
  obtain ⟨hl, e2, e3, e4, f20, f19, f18, f12, f0, z8⟩ := shape_20x1_19x1_18x1_12x6_0x8_z8x4 he h.pr.isLt (boolNat_lt h.pn) (by decide) (boolNat_lt l) (boolNat_lt p) xN.isLt lenM1.isLt
  refine ⟨h.slot, rfl, hl, decodeSlot_ok ?_ hw⟩
  have hk := at1 hw
  rw [hk, decRaw_0 e2 (hdrOf_eq hk e3 e4)]; show ((if fieldBit w 20 then unlessRes (zeros w 8 4) (.ok (.loopReg h (fieldBit w 19) (fieldBit w 18) (fieldF w 12) (fieldF w 0))) else .ok (.loop h (fieldBit w 19) (fieldBit w 18) (fieldF w 8) (fieldF w 0))) : Except DecErr Instr) = _; rw [zeros_eq z8, (fieldBit_eq (b := true) f20), (fieldBit_eq f19 : fieldBit w 19 = l), (fieldBit_eq f18 : fieldBit w 18 = p), (fieldF_eq f12 : fieldF w 12 = xN), (fieldF_eq f0 : fieldF w 0 = lenM1)] <;> rfl
theorem RoundTrip.lbrk (h : Hdr) (n : Fin 8) : RoundTrip.Statement (.lbrk h n) := by
  intro hw w he
  replace he := Option.some.inj he
  rw [List.sum_cons, List.sum_nil] at he
  simp only [encHdr, sh] at he
  obtain ⟨hl, e2, e3, e4, f18, z0⟩ := shape_18x3_z0x18 he h.pr.isLt (boolNat_lt h.pn) n.isLt
  refine ⟨h.slot, rfl, hl, decodeSlot_ok ?_ hw⟩
  have hk := at1 (and_left hw)
  rw [hk, decRaw_0 e2 (hdrOf_eq hk e3 e4)]; show ((unlessRes (zeros w 0 18) (.ok (.lbrk h (fieldF w 18)))) : Except DecErr Instr) = _; rw [zeros_eq z0, (fieldF_eq f18 : fieldF w 18 = n)] <;> rfl
theorem RoundTrip.waitFlag (h : Hdr) (f : Fin 32) (clear : Bool) : RoundTrip.Statement (.waitFlag h f clear) := by
  intro hw w he
  replace he := Option.some.inj he
  rw [List.sum_cons, List.sum_cons, List.sum_nil] at he
  simp only [encHdr, sh] at he
  obtain ⟨hl, e2, e3, e4, f15, f14, z0, z20⟩ := shape_15x5_14x1_z0x14_20x1 he h.pr.isLt (boolNat_lt h.pn) f.isLt (boolNat_lt clear)
  refine ⟨h.slot, rfl, hl, decodeSlot_ok ?_ hw⟩
  have hk := at1 hw
  rw [hk, decRaw_0 e2 (hdrOf_eq hk e3 e4)]; show ((if fieldBit w 20 then unlessRes (zeros w 0 8) (.ok (.waitSem h (fieldF w 14) (fieldF w 8))) else unlessRes (zeros w 0 14) (.ok (.waitFlag h (fieldF w 15) (fieldBit w 14)))) : Except DecErr Instr) = _; rw [zeros_eq z0, (fieldBit_eq (b := false) z20), (fieldF_eq f15 : fieldF w 15 = f), (fieldBit_eq f14 : fieldBit w 14 = clear)] <;> rfl
theorem RoundTrip.waitSem (h : Hdr) (xS : XReg) (xT : XReg) : RoundTrip.Statement (.waitSem h xS xT) := by
  intro hw w he
  replace he := Option.some.inj he
  rw [List.sum_cons, List.sum_cons, List.sum_cons, List.sum_nil] at he
  simp only [encHdr, sh] at he
  obtain ⟨hl, e2, e3, e4, f20, f14, f8, z0⟩ := shape_20x1_14x6_8x6_z0x8 he h.pr.isLt (boolNat_lt h.pn) (by decide) xS.isLt xT.isLt
  refine ⟨h.slot, rfl, hl, decodeSlot_ok ?_ hw⟩
  have hk := at1 hw
  rw [hk, decRaw_0 e2 (hdrOf_eq hk e3 e4)]; show ((if fieldBit w 20 then unlessRes (zeros w 0 8) (.ok (.waitSem h (fieldF w 14) (fieldF w 8))) else unlessRes (zeros w 0 14) (.ok (.waitFlag h (fieldF w 15) (fieldBit w 14)))) : Except DecErr Instr) = _; rw [zeros_eq z0, (fieldBit_eq (b := true) f20), (fieldF_eq f14 : fieldF w 14 = xS), (fieldF_eq f8 : fieldF w 8 = xT)] <;> rfl
theorem RoundTrip.waita (h : Hdr) (xA : XReg) (xV : XReg) (cond : WaitCond) : RoundTrip.Statement (.waita h xA xV cond) := by
  intro hw w he
  replace he := Option.some.inj he
  rw [List.sum_cons, List.sum_cons, List.sum_cons, List.sum_nil] at he
  simp only [encHdr, sh] at he
  obtain ⟨hl, e2, e3, e4, f15, f9, f7, z0⟩ := shape_15x6_9x6_7x2_z0x7 he h.pr.isLt (boolNat_lt h.pn) xA.isLt xV.isLt (waitCondCode_lt cond)
  refine ⟨h.slot, rfl, hl, decodeSlot_ok ?_ hw⟩
  have hk := at1 hw
  rw [hk, decRaw_0 e2 (hdrOf_eq hk e3 e4)]; show ((unlessRes (zeros w 0 7) (withCode (waitCondOf (w / 2 ^ 7 % 4)) fun cond => .ok (.waita h (fieldF w 15) (fieldF w 9) cond))) : Except DecErr Instr) = _; rw [zeros_eq z0, f7, waitCondOf_code cond, (fieldF_eq f15 : fieldF w 15 = xA), (fieldF_eq f9 : fieldF w 9 = xV)] <;> rfl
theorem RoundTrip.setf (h : Hdr) (f : Fin 32) (xC : XReg) (remote : Bool) : RoundTrip.Statement (.setf h f xC remote) := by
  intro hw w he
  replace he := Option.some.inj he
  rw [List.sum_cons, List.sum_cons, List.sum_cons, List.sum_nil] at he
  simp only [encHdr, sh] at he
  obtain ⟨hl, e2, e3, e4, f16, f10, f9, z0⟩ := shape_16x5_10x6_9x1_z0x9 he h.pr.isLt (boolNat_lt h.pn) f.isLt xC.isLt (boolNat_lt remote)
  refine ⟨h.slot, rfl, hl, decodeSlot_ok ?_ hw⟩
  have hk := at1 (and_left hw)
  rw [hk, decRaw_0 e2 (hdrOf_eq hk e3 e4)]; show ((unlessRes (zeros w 0 9) (.ok (.setf h (fieldF w 16) (fieldF w 10) (fieldBit w 9)))) : Except DecErr Instr) = _; rw [zeros_eq z0, (fieldF_eq f16 : fieldF w 16 = f), (fieldF_eq f10 : fieldF w 10 = xC), (fieldBit_eq f9 : fieldBit w 9 = remote)] <;> rfl
theorem RoundTrip.clrf (h : Hdr) (f : Fin 32) (xC : XReg) (remote : Bool) : RoundTrip.Statement (.clrf h f xC remote) := by
  intro hw w he
  replace he := Option.some.inj he
  rw [List.sum_cons, List.sum_cons, List.sum_cons, List.sum_nil] at he
  simp only [encHdr, sh] at he
  obtain ⟨hl, e2, e3, e4, f16, f10, f9, z0⟩ := shape_16x5_10x6_9x1_z0x9 he h.pr.isLt (boolNat_lt h.pn) f.isLt xC.isLt (boolNat_lt remote)
  refine ⟨h.slot, rfl, hl, decodeSlot_ok ?_ hw⟩
  have hk := at1 (and_left hw)
  rw [hk, decRaw_0 e2 (hdrOf_eq hk e3 e4)]; show ((unlessRes (zeros w 0 9) (.ok (.clrf h (fieldF w 16) (fieldF w 10) (fieldBit w 9)))) : Except DecErr Instr) = _; rw [zeros_eq z0, (fieldF_eq f16 : fieldF w 16 = f), (fieldF_eq f10 : fieldF w 10 = xC), (fieldBit_eq f9 : fieldBit w 9 = remote)] <;> rfl
theorem RoundTrip.sadd (h : Hdr) (xD : XReg) (xS : XReg) (xV : XReg) : RoundTrip.Statement (.sadd h xD xS xV) := by
  intro hw w he
  replace he := Option.some.inj he
  rw [List.sum_cons, List.sum_cons, List.sum_cons, List.sum_nil] at he
  simp only [encHdr, sh] at he
  obtain ⟨hl, e2, e3, e4, f15, f9, f3, z0⟩ := shape_15x6_9x6_3x6_z0x3 he h.pr.isLt (boolNat_lt h.pn) xD.isLt xS.isLt xV.isLt
  refine ⟨h.slot, rfl, hl, decodeSlot_ok ?_ hw⟩
  have hk := at1 hw
  rw [hk, decRaw_0 e2 (hdrOf_eq hk e3 e4)]; show ((unlessRes (zeros w 0 3) (.ok (.sadd h (fieldF w 15) (fieldF w 9) (fieldF w 3)))) : Except DecErr Instr) = _; rw [zeros_eq z0, (fieldF_eq f15 : fieldF w 15 = xD), (fieldF_eq f9 : fieldF w 9 = xS), (fieldF_eq f3 : fieldF w 3 = xV)] <;> rfl
theorem RoundTrip.scas (h : Hdr) (xD : XReg) (xS : XReg) (xV : XReg) : RoundTrip.Statement (.scas h xD xS xV) := by
  intro hw w he
  replace he := Option.some.inj he
  rw [List.sum_cons, List.sum_cons, List.sum_cons, List.sum_nil] at he
  simp only [encHdr, sh] at he
  obtain ⟨hl, e2, e3, e4, f15, f9, f3, z0⟩ := shape_15x6_9x6_3x6_z0x3 he h.pr.isLt (boolNat_lt h.pn) xD.isLt xS.isLt xV.isLt
  refine ⟨h.slot, rfl, hl, decodeSlot_ok ?_ hw⟩
  have hk := at1 hw
  rw [hk, decRaw_0 e2 (hdrOf_eq hk e3 e4)]; show ((unlessRes (zeros w 0 3) (.ok (.scas h (fieldF w 15) (fieldF w 9) (fieldF w 3)))) : Except DecErr Instr) = _; rw [zeros_eq z0, (fieldF_eq f15 : fieldF w 15 = xD), (fieldF_eq f9 : fieldF w 9 = xS), (fieldF_eq f3 : fieldF w 3 = xV)] <;> rfl
theorem RoundTrip.sxch (h : Hdr) (xD : XReg) (xS : XReg) (xV : XReg) : RoundTrip.Statement (.sxch h xD xS xV) := by
  intro hw w he
  replace he := Option.some.inj he
  rw [List.sum_cons, List.sum_cons, List.sum_cons, List.sum_nil] at he
  simp only [encHdr, sh] at he
  obtain ⟨hl, e2, e3, e4, f15, f9, f3, z0⟩ := shape_15x6_9x6_3x6_z0x3 he h.pr.isLt (boolNat_lt h.pn) xD.isLt xS.isLt xV.isLt
  refine ⟨h.slot, rfl, hl, decodeSlot_ok ?_ hw⟩
  have hk := at1 hw
  rw [hk, decRaw_0 e2 (hdrOf_eq hk e3 e4)]; show ((unlessRes (zeros w 0 3) (.ok (.sxch h (fieldF w 15) (fieldF w 9) (fieldF w 3)))) : Except DecErr Instr) = _; rw [zeros_eq z0, (fieldF_eq f15 : fieldF w 15 = xD), (fieldF_eq f9 : fieldF w 9 = xS), (fieldF_eq f3 : fieldF w 3 = xV)] <;> rfl
theorem RoundTrip.smax (h : Hdr) (xD : XReg) (xS : XReg) (xV : XReg) : RoundTrip.Statement (.smax h xD xS xV) := by
  intro hw w he
  replace he := Option.some.inj he
  rw [List.sum_cons, List.sum_cons, List.sum_cons, List.sum_nil] at he
  simp only [encHdr, sh] at he
  obtain ⟨hl, e2, e3, e4, f15, f9, f3, z0⟩ := shape_15x6_9x6_3x6_z0x3 he h.pr.isLt (boolNat_lt h.pn) xD.isLt xS.isLt xV.isLt
  refine ⟨h.slot, rfl, hl, decodeSlot_ok ?_ hw⟩
  have hk := at1 hw
  rw [hk, decRaw_0 e2 (hdrOf_eq hk e3 e4)]; show ((unlessRes (zeros w 0 3) (.ok (.smax h (fieldF w 15) (fieldF w 9) (fieldF w 3)))) : Except DecErr Instr) = _; rw [zeros_eq z0, (fieldF_eq f15 : fieldF w 15 = xD), (fieldF_eq f9 : fieldF w 9 = xS), (fieldF_eq f3 : fieldF w 3 = xV)] <;> rfl
theorem RoundTrip.swge (h : Hdr) (xD : XReg) (xS : XReg) (xV : XReg) : RoundTrip.Statement (.swge h xD xS xV) := by
  intro hw w he
  replace he := Option.some.inj he
  rw [List.sum_cons, List.sum_cons, List.sum_cons, List.sum_nil] at he
  simp only [encHdr, sh] at he
  obtain ⟨hl, e2, e3, e4, f15, f9, f3, z0⟩ := shape_15x6_9x6_3x6_z0x3 he h.pr.isLt (boolNat_lt h.pn) xD.isLt xS.isLt xV.isLt
  refine ⟨h.slot, rfl, hl, decodeSlot_ok ?_ hw⟩
  have hk := at1 hw
  rw [hk, decRaw_0 e2 (hdrOf_eq hk e3 e4)]; show ((unlessRes (zeros w 0 3) (.ok (.swge h (fieldF w 15) (fieldF w 9) (fieldF w 3)))) : Except DecErr Instr) = _; rw [zeros_eq z0, (fieldF_eq f15 : fieldF w 15 = xD), (fieldF_eq f9 : fieldF w 9 = xS), (fieldF_eq f3 : fieldF w 3 = xV)] <;> rfl
theorem RoundTrip.srd (h : Hdr) (xD : XReg) (xS : XReg) : RoundTrip.Statement (.srd h xD xS) := by
  intro hw w he
  replace he := Option.some.inj he
  rw [List.sum_cons, List.sum_cons, List.sum_nil] at he
  simp only [encHdr, sh] at he
  obtain ⟨hl, e2, e3, e4, f15, f9, z0⟩ := shape_15x6_9x6_z0x9 he h.pr.isLt (boolNat_lt h.pn) xD.isLt xS.isLt
  refine ⟨h.slot, rfl, hl, decodeSlot_ok ?_ hw⟩
  have hk := at1 hw
  rw [hk, decRaw_0 e2 (hdrOf_eq hk e3 e4)]; show ((unlessRes (zeros w 0 9) (.ok (.srd h (fieldF w 15) (fieldF w 9)))) : Except DecErr Instr) = _; rw [zeros_eq z0, (fieldF_eq f15 : fieldF w 15 = xD), (fieldF_eq f9 : fieldF w 9 = xS)] <;> rfl
theorem RoundTrip.bdcl (h : Hdr) (b : BReg) (xA : XReg) : RoundTrip.Statement (.bdcl h b xA) := by
  intro hw w he
  replace he := Option.some.inj he
  rw [List.sum_cons, List.sum_cons, List.sum_nil] at he
  simp only [encHdr, sh] at he
  obtain ⟨hl, e2, e3, e4, f15, f9, z0⟩ := shape_15x6_9x6_z0x9 he h.pr.isLt (boolNat_lt h.pn) b.isLt xA.isLt
  refine ⟨h.slot, rfl, hl, decodeSlot_ok ?_ hw⟩
  have hk := at1 hw
  rw [hk, decRaw_0 e2 (hdrOf_eq hk e3 e4)]; show ((unlessRes (zeros w 0 9) (.ok (.bdcl h (fieldF w 15) (fieldF w 9)))) : Except DecErr Instr) = _; rw [zeros_eq z0, (fieldF_eq f15 : fieldF w 15 = b), (fieldF_eq f9 : fieldF w 9 = xA)] <;> rfl
theorem RoundTrip.barv (h : Hdr) (b : BReg) (c : CReg) (named : Bool) : RoundTrip.Statement (.barv h b c named) := by
  intro hw w he
  replace he := Option.some.inj he
  rw [List.sum_cons, List.sum_cons, List.sum_cons, List.sum_nil] at he
  simp only [encHdr, sh] at he
  obtain ⟨hl, e2, e3, e4, f15, f9, f8, z0⟩ := shape_15x6_9x6_8x1_z0x8 he h.pr.isLt (boolNat_lt h.pn) b.isLt c.isLt (boolNat_lt named)
  refine ⟨h.slot, rfl, hl, decodeSlot_ok ?_ hw⟩
  have hk := at1 hw
  rw [hk, decRaw_0 e2 (hdrOf_eq hk e3 e4)]; show ((unlessRes (zeros w 0 8) (.ok (.barv h (fieldF w 15) (fieldF w 9) (fieldBit w 8)))) : Except DecErr Instr) = _; rw [zeros_eq z0, (fieldF_eq f15 : fieldF w 15 = b), (fieldF_eq f9 : fieldF w 9 = c), (fieldBit_eq f8 : fieldBit w 8 = named)] <;> rfl
theorem RoundTrip.bwt (h : Hdr) (b : BReg) : RoundTrip.Statement (.bwt h b) := by
  intro hw w he
  replace he := Option.some.inj he
  rw [List.sum_cons, List.sum_nil] at he
  simp only [encHdr, sh] at he
  obtain ⟨hl, e2, e3, e4, f15, z0⟩ := shape_15x6_z0x15 he h.pr.isLt (boolNat_lt h.pn) b.isLt
  refine ⟨h.slot, rfl, hl, decodeSlot_ok ?_ hw⟩
  have hk := at1 hw
  rw [hk, decRaw_0 e2 (hdrOf_eq hk e3 e4)]; show ((unlessRes (zeros w 0 15) (.ok (.bwt h (fieldF w 15)))) : Except DecErr Instr) = _; rw [zeros_eq z0, (fieldF_eq f15 : fieldF w 15 = b)] <;> rfl
theorem RoundTrip.sstep (h : Hdr) (b : BReg) (c : CReg) (named : Bool) : RoundTrip.Statement (.sstep h b c named) := by
  intro hw w he
  replace he := Option.some.inj he
  rw [List.sum_cons, List.sum_cons, List.sum_cons, List.sum_nil] at he
  simp only [encHdr, sh] at he
  obtain ⟨hl, e2, e3, e4, f15, f9, f8, z0⟩ := shape_15x6_9x6_8x1_z0x8 he h.pr.isLt (boolNat_lt h.pn) b.isLt c.isLt (boolNat_lt named)
  refine ⟨h.slot, rfl, hl, decodeSlot_ok ?_ hw⟩
  have hk := at1 hw
  rw [hk, decRaw_0 e2 (hdrOf_eq hk e3 e4)]; show ((unlessRes (zeros w 0 8) (.ok (.sstep h (fieldF w 15) (fieldF w 9) (fieldBit w 8)))) : Except DecErr Instr) = _; rw [zeros_eq z0, (fieldF_eq f15 : fieldF w 15 = b), (fieldF_eq f9 : fieldF w 9 = c), (fieldBit_eq f8 : fieldBit w 8 = named)] <;> rfl
theorem RoundTrip.fence (h : Hdr) (order : Order) (scope : Scope) : RoundTrip.Statement (.fence h order scope) := by
  intro hw w he
  replace he := Option.some.inj he
  rw [List.sum_cons, List.sum_cons, List.sum_nil] at he
  simp only [encHdr, sh] at he
  obtain ⟨hl, e2, e3, e4, f19, f17, z0⟩ := shape_19x2_17x2_z0x17 he h.pr.isLt (boolNat_lt h.pn) (scopeCode_lt scope) (orderCode_lt order)
  refine ⟨h.slot, rfl, hl, decodeSlot_ok ?_ hw⟩
  have hk := at1 hw
  rw [hk, decRaw_0 e2 (hdrOf_eq hk e3 e4)]; show ((unlessRes (zeros w 0 17) (withCode (orderOf (w / 2 ^ 17 % 4)) fun order => withCode (scopeOf (w / 2 ^ 19 % 4)) fun scope => .ok (.fence h order scope))) : Except DecErr Instr) = _; rw [zeros_eq z0, f19, f17, scopeOf_code scope, orderOf_code order] <;> rfl
theorem RoundTrip.trig (h : Hdr) : RoundTrip.Statement (.trig h) := by
  intro hw w he
  replace he := Option.some.inj he
  rw [List.sum_nil] at he
  simp only [encHdr] at he
  obtain ⟨hl, e2, e3, e4, z0⟩ := shape__z0x21 he h.pr.isLt (boolNat_lt h.pn)
  refine ⟨h.slot, rfl, hl, decodeSlot_ok ?_ hw⟩
  have hk := at1 hw
  rw [hk, decRaw_0 e2 (hdrOf_eq hk e3 e4)]; show ((unlessRes (zeros w 0 21) (.ok (.trig h))) : Except DecErr Instr) = _; rw [zeros_eq z0] <;> rfl
theorem RoundTrip.enq (h : Hdr) (xD : XReg) (xQ : XReg) (tS : TReg) (hi : Bool) : RoundTrip.Statement (.enq h xD xQ tS hi) := by
  intro hw w he
  replace he := Option.some.inj he
  rw [List.sum_cons, List.sum_cons, List.sum_cons, List.sum_cons, List.sum_nil] at he
  simp only [encHdr, sh] at he
  obtain ⟨hl, e2, e3, e4, f15, f9, f2, f1, z0⟩ := shape_15x6_9x6_2x7_1x1_z0x1 he h.pr.isLt (boolNat_lt h.pn) xD.isLt xQ.isLt tS.isLt (boolNat_lt hi)
  refine ⟨h.slot, rfl, hl, decodeSlot_ok ?_ hw⟩
  have hk := at1 hw
  rw [hk, decRaw_0 e2 (hdrOf_eq hk e3 e4)]; show ((unlessRes (zeros w 0 1) (.ok (.enq h (fieldF w 15) (fieldF w 9) (fieldF w 2) (fieldBit w 1)))) : Except DecErr Instr) = _; rw [zeros_eq z0, (fieldF_eq f15 : fieldF w 15 = xD), (fieldF_eq f9 : fieldF w 9 = xQ), (fieldF_eq f2 : fieldF w 2 = tS), (fieldBit_eq f1 : fieldBit w 1 = hi)] <;> rfl
theorem RoundTrip.ntile (h : Hdr) : RoundTrip.Statement (.ntile h) := by
  intro hw w he
  replace he := Option.some.inj he
  rw [List.sum_nil] at he
  simp only [encHdr] at he
  obtain ⟨hl, e2, e3, e4, z0⟩ := shape__z0x21 he h.pr.isLt (boolNat_lt h.pn)
  refine ⟨h.slot, rfl, hl, decodeSlot_ok ?_ hw⟩
  have hk := at1 hw
  rw [hk, decRaw_0 e2 (hdrOf_eq hk e3 e4)]; show ((unlessRes (zeros w 0 21) (.ok (.ntile h))) : Except DecErr Instr) = _; rw [zeros_eq z0] <;> rfl
theorem RoundTrip.layer (h : Hdr) : RoundTrip.Statement (.layer h) := by
  intro hw w he
  replace he := Option.some.inj he
  rw [List.sum_nil] at he
  simp only [encHdr] at he
  obtain ⟨hl, e2, e3, e4, z0⟩ := shape__z0x21 he h.pr.isLt (boolNat_lt h.pn)
  refine ⟨h.slot, rfl, hl, decodeSlot_ok ?_ hw⟩
  have hk := at1 hw
  rw [hk, decRaw_0 e2 (hdrOf_eq hk e3 e4)]; show ((unlessRes (zeros w 0 21) (.ok (.layer h))) : Except DecErr Instr) = _; rw [zeros_eq z0] <;> rfl
theorem RoundTrip.spec (h : Hdr) : RoundTrip.Statement (.spec h) := by
  intro hw w he
  replace he := Option.some.inj he
  rw [List.sum_nil] at he
  simp only [encHdr] at he
  obtain ⟨hl, e2, e3, e4, z0⟩ := shape__z0x21 he h.pr.isLt (boolNat_lt h.pn)
  refine ⟨h.slot, rfl, hl, decodeSlot_ok ?_ hw⟩
  have hk := at1 hw
  rw [hk, decRaw_0 e2 (hdrOf_eq hk e3 e4)]; show ((unlessRes (zeros w 0 21) (.ok (.spec h))) : Except DecErr Instr) = _; rw [zeros_eq z0] <;> rfl
theorem RoundTrip.cmit (h : Hdr) : RoundTrip.Statement (.cmit h) := by
  intro hw w he
  replace he := Option.some.inj he
  rw [List.sum_nil] at he
  simp only [encHdr] at he
  obtain ⟨hl, e2, e3, e4, z0⟩ := shape__z0x21 he h.pr.isLt (boolNat_lt h.pn)
  refine ⟨h.slot, rfl, hl, decodeSlot_ok ?_ hw⟩
  have hk := at1 hw
  rw [hk, decRaw_0 e2 (hdrOf_eq hk e3 e4)]; show ((unlessRes (zeros w 0 21) (.ok (.cmit h))) : Except DecErr Instr) = _; rw [zeros_eq z0] <;> rfl
theorem RoundTrip.sabt (h : Hdr) : RoundTrip.Statement (.sabt h) := by
  intro hw w he
  replace he := Option.some.inj he
  rw [List.sum_nil] at he
  simp only [encHdr] at he
  obtain ⟨hl, e2, e3, e4, z0⟩ := shape__z0x21 he h.pr.isLt (boolNat_lt h.pn)
  refine ⟨h.slot, rfl, hl, decodeSlot_ok ?_ hw⟩
  have hk := at1 hw
  rw [hk, decRaw_0 e2 (hdrOf_eq hk e3 e4)]; show ((unlessRes (zeros w 0 21) (.ok (.sabt h))) : Except DecErr Instr) = _; rw [zeros_eq z0] <;> rfl
theorem RoundTrip.trap (h : Hdr) (n : Fin 128) : RoundTrip.Statement (.trap h n) := by
  intro hw w he
  replace he := Option.some.inj he
  rw [List.sum_cons, List.sum_nil] at he
  simp only [encHdr, sh] at he
  obtain ⟨hl, e2, e3, e4, f14, z0⟩ := shape_14x7_z0x14 he h.pr.isLt (boolNat_lt h.pn) n.isLt
  refine ⟨h.slot, rfl, hl, decodeSlot_ok ?_ hw⟩
  have hk := at1 hw
  rw [hk, decRaw_0 e2 (hdrOf_eq hk e3 e4)]; show ((unlessRes (zeros w 0 14) (.ok (.trap h (fieldF w 14)))) : Except DecErr Instr) = _; rw [zeros_eq z0, (fieldF_eq f14 : fieldF w 14 = n)] <;> rfl
theorem RoundTrip.exit (h : Hdr) : RoundTrip.Statement (.exit h) := by
  intro hw w he
  replace he := Option.some.inj he
  rw [List.sum_nil] at he
  simp only [encHdr] at he
  obtain ⟨hl, e2, e3, e4, z0⟩ := shape__z0x21 he h.pr.isLt (boolNat_lt h.pn)
  refine ⟨h.slot, rfl, hl, decodeSlot_ok ?_ hw⟩
  have hk := at1 hw
  rw [hk, decRaw_0 e2 (hdrOf_eq hk e3 e4)]; show ((unlessRes (zeros w 0 21) (.ok (.exit h))) : Except DecErr Instr) = _; rw [zeros_eq z0] <;> rfl
theorem RoundTrip.frsm (h : Hdr) (xD : XReg) (xC : XReg) (xN : XReg) : RoundTrip.Statement (.frsm h xD xC xN) := by
  intro hw w he
  replace he := Option.some.inj he
  rw [List.sum_cons, List.sum_cons, List.sum_cons, List.sum_nil] at he
  simp only [encHdr, sh] at he
  obtain ⟨hl, e2, e3, e4, f15, f9, f3, z0⟩ := shape_15x6_9x6_3x6_z0x3 he h.pr.isLt (boolNat_lt h.pn) xD.isLt xC.isLt xN.isLt
  refine ⟨h.slot, rfl, hl, decodeSlot_ok ?_ hw⟩
  have hk := at1 hw
  rw [hk, decRaw_0 e2 (hdrOf_eq hk e3 e4)]; show ((unlessRes (zeros w 0 3) (.ok (.frsm h (fieldF w 15) (fieldF w 9) (fieldF w 3)))) : Except DecErr Instr) = _; rw [zeros_eq z0, (fieldF_eq f15 : fieldF w 15 = xD), (fieldF_eq f9 : fieldF w 9 = xC), (fieldF_eq f3 : fieldF w 3 = xN)] <;> rfl
theorem RoundTrip.tlbi (h : Hdr) (xA : XReg) (xC : XReg) (sz : InvSize) : RoundTrip.Statement (.tlbi h xA xC sz) := by
  intro hw w he
  replace he := Option.some.inj he
  rw [List.sum_cons, List.sum_cons, List.sum_cons, List.sum_nil] at he
  simp only [encHdr, sh] at he
  obtain ⟨hl, e2, e3, e4, f15, f9, f7, z0⟩ := shape_15x6_9x6_7x2_z0x7 he h.pr.isLt (boolNat_lt h.pn) xA.isLt xC.isLt (invSizeCode_lt sz)
  refine ⟨h.slot, rfl, hl, decodeSlot_ok ?_ hw⟩
  have hk := at1 hw
  rw [hk, decRaw_0 e2 (hdrOf_eq hk e3 e4)]; show ((unlessRes (zeros w 0 7) (withCode (invSizeOf (w / 2 ^ 7 % 4)) fun sz => .ok (.tlbi h (fieldF w 15) (fieldF w 9) sz))) : Except DecErr Instr) = _; rw [zeros_eq z0, f7, invSizeOf_code sz, (fieldF_eq f15 : fieldF w 15 = xA), (fieldF_eq f9 : fieldF w 9 = xC)] <;> rfl
theorem RoundTrip.add (h : Hdr) (xD : XReg) (xA : XReg) (xB : XReg) (fn : SatForm) : RoundTrip.Statement (.add h xD xA xB fn) := by
  intro hw w he
  replace he := Option.some.inj he
  rw [List.sum_cons, List.sum_cons, List.sum_cons, List.sum_cons, List.sum_nil] at he
  simp only [encHdr, sh] at he
  obtain ⟨hl, e2, e3, e4, f15, f9, f3, f0⟩ := shape_15x6_9x6_3x6_0x3 he h.pr.isLt (boolNat_lt h.pn) xD.isLt xA.isLt xB.isLt (satFormCode_lt fn)
  refine ⟨h.slot, rfl, hl, decodeSlot_ok ?_ hw⟩
  rcases at2 hw with hk | hk
  · rw [hk, decRaw_1 e2 (hdrOf_eq hk e3 e4)]; show ((withCode (satFormOf (w / 2 ^ 0 % 8)) fun fn => .ok (.add h (fieldF w 15) (fieldF w 9) (fieldF w 3) fn)) : Except DecErr Instr) = _; rw [f0, satFormOf_code fn, (fieldF_eq f15 : fieldF w 15 = xD), (fieldF_eq f9 : fieldF w 9 = xA), (fieldF_eq f3 : fieldF w 3 = xB)] <;> rfl
  · rw [hk, decRaw_2lo e2 (hdrOf_eq hk e3 e4) (by decide)]; show ((withCode (satFormOf (w / 2 ^ 0 % 8)) fun fn => .ok (.add h (fieldF w 15) (fieldF w 9) (fieldF w 3) fn)) : Except DecErr Instr) = _; rw [f0, satFormOf_code fn, (fieldF_eq f15 : fieldF w 15 = xD), (fieldF_eq f9 : fieldF w 9 = xA), (fieldF_eq f3 : fieldF w 3 = xB)] <;> rfl
theorem RoundTrip.sub (h : Hdr) (xD : XReg) (xA : XReg) (xB : XReg) (fn : SatForm) : RoundTrip.Statement (.sub h xD xA xB fn) := by
  intro hw w he
  replace he := Option.some.inj he
  rw [List.sum_cons, List.sum_cons, List.sum_cons, List.sum_cons, List.sum_nil] at he
  simp only [encHdr, sh] at he
  obtain ⟨hl, e2, e3, e4, f15, f9, f3, f0⟩ := shape_15x6_9x6_3x6_0x3 he h.pr.isLt (boolNat_lt h.pn) xD.isLt xA.isLt xB.isLt (satFormCode_lt fn)
  refine ⟨h.slot, rfl, hl, decodeSlot_ok ?_ hw⟩
  rcases at2 hw with hk | hk
  · rw [hk, decRaw_1 e2 (hdrOf_eq hk e3 e4)]; show ((withCode (satFormOf (w / 2 ^ 0 % 8)) fun fn => .ok (.sub h (fieldF w 15) (fieldF w 9) (fieldF w 3) fn)) : Except DecErr Instr) = _; rw [f0, satFormOf_code fn, (fieldF_eq f15 : fieldF w 15 = xD), (fieldF_eq f9 : fieldF w 9 = xA), (fieldF_eq f3 : fieldF w 3 = xB)] <;> rfl
  · rw [hk, decRaw_2lo e2 (hdrOf_eq hk e3 e4) (by decide)]; show ((withCode (satFormOf (w / 2 ^ 0 % 8)) fun fn => .ok (.sub h (fieldF w 15) (fieldF w 9) (fieldF w 3) fn)) : Except DecErr Instr) = _; rw [f0, satFormOf_code fn, (fieldF_eq f15 : fieldF w 15 = xD), (fieldF_eq f9 : fieldF w 9 = xA), (fieldF_eq f3 : fieldF w 3 = xB)] <;> rfl
theorem RoundTrip.mul (h : Hdr) (xD : XReg) (xA : XReg) (xB : XReg) : RoundTrip.Statement (.mul h xD xA xB) := by
  intro hw w he
  replace he := Option.some.inj he
  rw [List.sum_cons, List.sum_cons, List.sum_cons, List.sum_nil] at he
  simp only [encHdr, sh] at he
  obtain ⟨hl, e2, e3, e4, f15, f9, f3, z0⟩ := shape_15x6_9x6_3x6_z0x3 he h.pr.isLt (boolNat_lt h.pn) xD.isLt xA.isLt xB.isLt
  refine ⟨h.slot, rfl, hl, decodeSlot_ok ?_ hw⟩
  rcases at2 hw with hk | hk
  · rw [hk, decRaw_1 e2 (hdrOf_eq hk e3 e4)]; show ((unlessRes (zeros w 0 3) (.ok (.mul h (fieldF w 15) (fieldF w 9) (fieldF w 3)))) : Except DecErr Instr) = _; rw [zeros_eq z0, (fieldF_eq f15 : fieldF w 15 = xD), (fieldF_eq f9 : fieldF w 9 = xA), (fieldF_eq f3 : fieldF w 3 = xB)] <;> rfl
  · rw [hk, decRaw_2lo e2 (hdrOf_eq hk e3 e4) (by decide)]; show ((unlessRes (zeros w 0 3) (.ok (.mul h (fieldF w 15) (fieldF w 9) (fieldF w 3)))) : Except DecErr Instr) = _; rw [zeros_eq z0, (fieldF_eq f15 : fieldF w 15 = xD), (fieldF_eq f9 : fieldF w 9 = xA), (fieldF_eq f3 : fieldF w 3 = xB)] <;> rfl
theorem RoundTrip.mulh (h : Hdr) (xD : XReg) (xA : XReg) (xB : XReg) : RoundTrip.Statement (.mulh h xD xA xB) := by
  intro hw w he
  replace he := Option.some.inj he
  rw [List.sum_cons, List.sum_cons, List.sum_cons, List.sum_nil] at he
  simp only [encHdr, sh] at he
  obtain ⟨hl, e2, e3, e4, f15, f9, f3, z0⟩ := shape_15x6_9x6_3x6_z0x3 he h.pr.isLt (boolNat_lt h.pn) xD.isLt xA.isLt xB.isLt
  refine ⟨h.slot, rfl, hl, decodeSlot_ok ?_ hw⟩
  rcases at2 hw with hk | hk
  · rw [hk, decRaw_1 e2 (hdrOf_eq hk e3 e4)]; show ((unlessRes (zeros w 0 3) (.ok (.mulh h (fieldF w 15) (fieldF w 9) (fieldF w 3)))) : Except DecErr Instr) = _; rw [zeros_eq z0, (fieldF_eq f15 : fieldF w 15 = xD), (fieldF_eq f9 : fieldF w 9 = xA), (fieldF_eq f3 : fieldF w 3 = xB)] <;> rfl
  · rw [hk, decRaw_2lo e2 (hdrOf_eq hk e3 e4) (by decide)]; show ((unlessRes (zeros w 0 3) (.ok (.mulh h (fieldF w 15) (fieldF w 9) (fieldF w 3)))) : Except DecErr Instr) = _; rw [zeros_eq z0, (fieldF_eq f15 : fieldF w 15 = xD), (fieldF_eq f9 : fieldF w 9 = xA), (fieldF_eq f3 : fieldF w 3 = xB)] <;> rfl
theorem RoundTrip.mulhu (h : Hdr) (xD : XReg) (xA : XReg) (xB : XReg) : RoundTrip.Statement (.mulhu h xD xA xB) := by
  intro hw w he
  replace he := Option.some.inj he
  rw [List.sum_cons, List.sum_cons, List.sum_cons, List.sum_nil] at he
  simp only [encHdr, sh] at he
  obtain ⟨hl, e2, e3, e4, f15, f9, f3, z0⟩ := shape_15x6_9x6_3x6_z0x3 he h.pr.isLt (boolNat_lt h.pn) xD.isLt xA.isLt xB.isLt
  refine ⟨h.slot, rfl, hl, decodeSlot_ok ?_ hw⟩
  rcases at2 hw with hk | hk
  · rw [hk, decRaw_1 e2 (hdrOf_eq hk e3 e4)]; show ((unlessRes (zeros w 0 3) (.ok (.mulhu h (fieldF w 15) (fieldF w 9) (fieldF w 3)))) : Except DecErr Instr) = _; rw [zeros_eq z0, (fieldF_eq f15 : fieldF w 15 = xD), (fieldF_eq f9 : fieldF w 9 = xA), (fieldF_eq f3 : fieldF w 3 = xB)] <;> rfl
  · rw [hk, decRaw_2lo e2 (hdrOf_eq hk e3 e4) (by decide)]; show ((unlessRes (zeros w 0 3) (.ok (.mulhu h (fieldF w 15) (fieldF w 9) (fieldF w 3)))) : Except DecErr Instr) = _; rw [zeros_eq z0, (fieldF_eq f15 : fieldF w 15 = xD), (fieldF_eq f9 : fieldF w 9 = xA), (fieldF_eq f3 : fieldF w 3 = xB)] <;> rfl
theorem RoundTrip.div (h : Hdr) (xD : XReg) (xA : XReg) (xB : XReg) : RoundTrip.Statement (.div h xD xA xB) := by
  intro hw w he
  replace he := Option.some.inj he
  rw [List.sum_cons, List.sum_cons, List.sum_cons, List.sum_nil] at he
  simp only [encHdr, sh] at he
  obtain ⟨hl, e2, e3, e4, f15, f9, f3, z0⟩ := shape_15x6_9x6_3x6_z0x3 he h.pr.isLt (boolNat_lt h.pn) xD.isLt xA.isLt xB.isLt
  refine ⟨h.slot, rfl, hl, decodeSlot_ok ?_ hw⟩
  rcases at2 hw with hk | hk
  · rw [hk, decRaw_1 e2 (hdrOf_eq hk e3 e4)]; show ((unlessRes (zeros w 0 3) (.ok (.div h (fieldF w 15) (fieldF w 9) (fieldF w 3)))) : Except DecErr Instr) = _; rw [zeros_eq z0, (fieldF_eq f15 : fieldF w 15 = xD), (fieldF_eq f9 : fieldF w 9 = xA), (fieldF_eq f3 : fieldF w 3 = xB)] <;> rfl
  · rw [hk, decRaw_2lo e2 (hdrOf_eq hk e3 e4) (by decide)]; show ((unlessRes (zeros w 0 3) (.ok (.div h (fieldF w 15) (fieldF w 9) (fieldF w 3)))) : Except DecErr Instr) = _; rw [zeros_eq z0, (fieldF_eq f15 : fieldF w 15 = xD), (fieldF_eq f9 : fieldF w 9 = xA), (fieldF_eq f3 : fieldF w 3 = xB)] <;> rfl
theorem RoundTrip.divu (h : Hdr) (xD : XReg) (xA : XReg) (xB : XReg) : RoundTrip.Statement (.divu h xD xA xB) := by
  intro hw w he
  replace he := Option.some.inj he
  rw [List.sum_cons, List.sum_cons, List.sum_cons, List.sum_nil] at he
  simp only [encHdr, sh] at he
  obtain ⟨hl, e2, e3, e4, f15, f9, f3, z0⟩ := shape_15x6_9x6_3x6_z0x3 he h.pr.isLt (boolNat_lt h.pn) xD.isLt xA.isLt xB.isLt
  refine ⟨h.slot, rfl, hl, decodeSlot_ok ?_ hw⟩
  rcases at2 hw with hk | hk
  · rw [hk, decRaw_1 e2 (hdrOf_eq hk e3 e4)]; show ((unlessRes (zeros w 0 3) (.ok (.divu h (fieldF w 15) (fieldF w 9) (fieldF w 3)))) : Except DecErr Instr) = _; rw [zeros_eq z0, (fieldF_eq f15 : fieldF w 15 = xD), (fieldF_eq f9 : fieldF w 9 = xA), (fieldF_eq f3 : fieldF w 3 = xB)] <;> rfl
  · rw [hk, decRaw_2lo e2 (hdrOf_eq hk e3 e4) (by decide)]; show ((unlessRes (zeros w 0 3) (.ok (.divu h (fieldF w 15) (fieldF w 9) (fieldF w 3)))) : Except DecErr Instr) = _; rw [zeros_eq z0, (fieldF_eq f15 : fieldF w 15 = xD), (fieldF_eq f9 : fieldF w 9 = xA), (fieldF_eq f3 : fieldF w 3 = xB)] <;> rfl
theorem RoundTrip.rem (h : Hdr) (xD : XReg) (xA : XReg) (xB : XReg) : RoundTrip.Statement (.rem h xD xA xB) := by
  intro hw w he
  replace he := Option.some.inj he
  rw [List.sum_cons, List.sum_cons, List.sum_cons, List.sum_nil] at he
  simp only [encHdr, sh] at he
  obtain ⟨hl, e2, e3, e4, f15, f9, f3, z0⟩ := shape_15x6_9x6_3x6_z0x3 he h.pr.isLt (boolNat_lt h.pn) xD.isLt xA.isLt xB.isLt
  refine ⟨h.slot, rfl, hl, decodeSlot_ok ?_ hw⟩
  rcases at2 hw with hk | hk
  · rw [hk, decRaw_1 e2 (hdrOf_eq hk e3 e4)]; show ((unlessRes (zeros w 0 3) (.ok (.rem h (fieldF w 15) (fieldF w 9) (fieldF w 3)))) : Except DecErr Instr) = _; rw [zeros_eq z0, (fieldF_eq f15 : fieldF w 15 = xD), (fieldF_eq f9 : fieldF w 9 = xA), (fieldF_eq f3 : fieldF w 3 = xB)] <;> rfl
  · rw [hk, decRaw_2lo e2 (hdrOf_eq hk e3 e4) (by decide)]; show ((unlessRes (zeros w 0 3) (.ok (.rem h (fieldF w 15) (fieldF w 9) (fieldF w 3)))) : Except DecErr Instr) = _; rw [zeros_eq z0, (fieldF_eq f15 : fieldF w 15 = xD), (fieldF_eq f9 : fieldF w 9 = xA), (fieldF_eq f3 : fieldF w 3 = xB)] <;> rfl
theorem RoundTrip.remu (h : Hdr) (xD : XReg) (xA : XReg) (xB : XReg) : RoundTrip.Statement (.remu h xD xA xB) := by
  intro hw w he
  replace he := Option.some.inj he
  rw [List.sum_cons, List.sum_cons, List.sum_cons, List.sum_nil] at he
  simp only [encHdr, sh] at he
  obtain ⟨hl, e2, e3, e4, f15, f9, f3, z0⟩ := shape_15x6_9x6_3x6_z0x3 he h.pr.isLt (boolNat_lt h.pn) xD.isLt xA.isLt xB.isLt
  refine ⟨h.slot, rfl, hl, decodeSlot_ok ?_ hw⟩
  rcases at2 hw with hk | hk
  · rw [hk, decRaw_1 e2 (hdrOf_eq hk e3 e4)]; show ((unlessRes (zeros w 0 3) (.ok (.remu h (fieldF w 15) (fieldF w 9) (fieldF w 3)))) : Except DecErr Instr) = _; rw [zeros_eq z0, (fieldF_eq f15 : fieldF w 15 = xD), (fieldF_eq f9 : fieldF w 9 = xA), (fieldF_eq f3 : fieldF w 3 = xB)] <;> rfl
  · rw [hk, decRaw_2lo e2 (hdrOf_eq hk e3 e4) (by decide)]; show ((unlessRes (zeros w 0 3) (.ok (.remu h (fieldF w 15) (fieldF w 9) (fieldF w 3)))) : Except DecErr Instr) = _; rw [zeros_eq z0, (fieldF_eq f15 : fieldF w 15 = xD), (fieldF_eq f9 : fieldF w 9 = xA), (fieldF_eq f3 : fieldF w 3 = xB)] <;> rfl
theorem RoundTrip.and (h : Hdr) (xD : XReg) (xA : XReg) (xB : XReg) : RoundTrip.Statement (.and h xD xA xB) := by
  intro hw w he
  replace he := Option.some.inj he
  rw [List.sum_cons, List.sum_cons, List.sum_cons, List.sum_nil] at he
  simp only [encHdr, sh] at he
  obtain ⟨hl, e2, e3, e4, f15, f9, f3, z0⟩ := shape_15x6_9x6_3x6_z0x3 he h.pr.isLt (boolNat_lt h.pn) xD.isLt xA.isLt xB.isLt
  refine ⟨h.slot, rfl, hl, decodeSlot_ok ?_ hw⟩
  rcases at2 hw with hk | hk
  · rw [hk, decRaw_1 e2 (hdrOf_eq hk e3 e4)]; show ((unlessRes (zeros w 0 3) (.ok (.and h (fieldF w 15) (fieldF w 9) (fieldF w 3)))) : Except DecErr Instr) = _; rw [zeros_eq z0, (fieldF_eq f15 : fieldF w 15 = xD), (fieldF_eq f9 : fieldF w 9 = xA), (fieldF_eq f3 : fieldF w 3 = xB)] <;> rfl
  · rw [hk, decRaw_2lo e2 (hdrOf_eq hk e3 e4) (by decide)]; show ((unlessRes (zeros w 0 3) (.ok (.and h (fieldF w 15) (fieldF w 9) (fieldF w 3)))) : Except DecErr Instr) = _; rw [zeros_eq z0, (fieldF_eq f15 : fieldF w 15 = xD), (fieldF_eq f9 : fieldF w 9 = xA), (fieldF_eq f3 : fieldF w 3 = xB)] <;> rfl
theorem RoundTrip.or (h : Hdr) (xD : XReg) (xA : XReg) (xB : XReg) : RoundTrip.Statement (.or h xD xA xB) := by
  intro hw w he
  replace he := Option.some.inj he
  rw [List.sum_cons, List.sum_cons, List.sum_cons, List.sum_nil] at he
  simp only [encHdr, sh] at he
  obtain ⟨hl, e2, e3, e4, f15, f9, f3, z0⟩ := shape_15x6_9x6_3x6_z0x3 he h.pr.isLt (boolNat_lt h.pn) xD.isLt xA.isLt xB.isLt
  refine ⟨h.slot, rfl, hl, decodeSlot_ok ?_ hw⟩
  rcases at2 hw with hk | hk
  · rw [hk, decRaw_1 e2 (hdrOf_eq hk e3 e4)]; show ((unlessRes (zeros w 0 3) (.ok (.or h (fieldF w 15) (fieldF w 9) (fieldF w 3)))) : Except DecErr Instr) = _; rw [zeros_eq z0, (fieldF_eq f15 : fieldF w 15 = xD), (fieldF_eq f9 : fieldF w 9 = xA), (fieldF_eq f3 : fieldF w 3 = xB)] <;> rfl
  · rw [hk, decRaw_2lo e2 (hdrOf_eq hk e3 e4) (by decide)]; show ((unlessRes (zeros w 0 3) (.ok (.or h (fieldF w 15) (fieldF w 9) (fieldF w 3)))) : Except DecErr Instr) = _; rw [zeros_eq z0, (fieldF_eq f15 : fieldF w 15 = xD), (fieldF_eq f9 : fieldF w 9 = xA), (fieldF_eq f3 : fieldF w 3 = xB)] <;> rfl
theorem RoundTrip.xor (h : Hdr) (xD : XReg) (xA : XReg) (xB : XReg) : RoundTrip.Statement (.xor h xD xA xB) := by
  intro hw w he
  replace he := Option.some.inj he
  rw [List.sum_cons, List.sum_cons, List.sum_cons, List.sum_nil] at he
  simp only [encHdr, sh] at he
  obtain ⟨hl, e2, e3, e4, f15, f9, f3, z0⟩ := shape_15x6_9x6_3x6_z0x3 he h.pr.isLt (boolNat_lt h.pn) xD.isLt xA.isLt xB.isLt
  refine ⟨h.slot, rfl, hl, decodeSlot_ok ?_ hw⟩
  rcases at2 hw with hk | hk
  · rw [hk, decRaw_1 e2 (hdrOf_eq hk e3 e4)]; show ((unlessRes (zeros w 0 3) (.ok (.xor h (fieldF w 15) (fieldF w 9) (fieldF w 3)))) : Except DecErr Instr) = _; rw [zeros_eq z0, (fieldF_eq f15 : fieldF w 15 = xD), (fieldF_eq f9 : fieldF w 9 = xA), (fieldF_eq f3 : fieldF w 3 = xB)] <;> rfl
  · rw [hk, decRaw_2lo e2 (hdrOf_eq hk e3 e4) (by decide)]; show ((unlessRes (zeros w 0 3) (.ok (.xor h (fieldF w 15) (fieldF w 9) (fieldF w 3)))) : Except DecErr Instr) = _; rw [zeros_eq z0, (fieldF_eq f15 : fieldF w 15 = xD), (fieldF_eq f9 : fieldF w 9 = xA), (fieldF_eq f3 : fieldF w 3 = xB)] <;> rfl
theorem RoundTrip.andn (h : Hdr) (xD : XReg) (xA : XReg) (xB : XReg) : RoundTrip.Statement (.andn h xD xA xB) := by
  intro hw w he
  replace he := Option.some.inj he
  rw [List.sum_cons, List.sum_cons, List.sum_cons, List.sum_nil] at he
  simp only [encHdr, sh] at he
  obtain ⟨hl, e2, e3, e4, f15, f9, f3, z0⟩ := shape_15x6_9x6_3x6_z0x3 he h.pr.isLt (boolNat_lt h.pn) xD.isLt xA.isLt xB.isLt
  refine ⟨h.slot, rfl, hl, decodeSlot_ok ?_ hw⟩
  rcases at2 hw with hk | hk
  · rw [hk, decRaw_1 e2 (hdrOf_eq hk e3 e4)]; show ((unlessRes (zeros w 0 3) (.ok (.andn h (fieldF w 15) (fieldF w 9) (fieldF w 3)))) : Except DecErr Instr) = _; rw [zeros_eq z0, (fieldF_eq f15 : fieldF w 15 = xD), (fieldF_eq f9 : fieldF w 9 = xA), (fieldF_eq f3 : fieldF w 3 = xB)] <;> rfl
  · rw [hk, decRaw_2lo e2 (hdrOf_eq hk e3 e4) (by decide)]; show ((unlessRes (zeros w 0 3) (.ok (.andn h (fieldF w 15) (fieldF w 9) (fieldF w 3)))) : Except DecErr Instr) = _; rw [zeros_eq z0, (fieldF_eq f15 : fieldF w 15 = xD), (fieldF_eq f9 : fieldF w 9 = xA), (fieldF_eq f3 : fieldF w 3 = xB)] <;> rfl
theorem RoundTrip.shl (h : Hdr) (xD : XReg) (xA : XReg) (xB : XReg) : RoundTrip.Statement (.shl h xD xA xB) := by
  intro hw w he
  replace he := Option.some.inj he
  rw [List.sum_cons, List.sum_cons, List.sum_cons, List.sum_nil] at he
  simp only [encHdr, sh] at he
  obtain ⟨hl, e2, e3, e4, f15, f9, f3, z0⟩ := shape_15x6_9x6_3x6_z0x3 he h.pr.isLt (boolNat_lt h.pn) xD.isLt xA.isLt xB.isLt
  refine ⟨h.slot, rfl, hl, decodeSlot_ok ?_ hw⟩
  rcases at2 hw with hk | hk
  · rw [hk, decRaw_1 e2 (hdrOf_eq hk e3 e4)]; show ((unlessRes (zeros w 0 3) (.ok (.shl h (fieldF w 15) (fieldF w 9) (fieldF w 3)))) : Except DecErr Instr) = _; rw [zeros_eq z0, (fieldF_eq f15 : fieldF w 15 = xD), (fieldF_eq f9 : fieldF w 9 = xA), (fieldF_eq f3 : fieldF w 3 = xB)] <;> rfl
  · rw [hk, decRaw_2lo e2 (hdrOf_eq hk e3 e4) (by decide)]; show ((unlessRes (zeros w 0 3) (.ok (.shl h (fieldF w 15) (fieldF w 9) (fieldF w 3)))) : Except DecErr Instr) = _; rw [zeros_eq z0, (fieldF_eq f15 : fieldF w 15 = xD), (fieldF_eq f9 : fieldF w 9 = xA), (fieldF_eq f3 : fieldF w 3 = xB)] <;> rfl
theorem RoundTrip.shr (h : Hdr) (xD : XReg) (xA : XReg) (xB : XReg) : RoundTrip.Statement (.shr h xD xA xB) := by
  intro hw w he
  replace he := Option.some.inj he
  rw [List.sum_cons, List.sum_cons, List.sum_cons, List.sum_nil] at he
  simp only [encHdr, sh] at he
  obtain ⟨hl, e2, e3, e4, f15, f9, f3, z0⟩ := shape_15x6_9x6_3x6_z0x3 he h.pr.isLt (boolNat_lt h.pn) xD.isLt xA.isLt xB.isLt
  refine ⟨h.slot, rfl, hl, decodeSlot_ok ?_ hw⟩
  rcases at2 hw with hk | hk
  · rw [hk, decRaw_1 e2 (hdrOf_eq hk e3 e4)]; show ((unlessRes (zeros w 0 3) (.ok (.shr h (fieldF w 15) (fieldF w 9) (fieldF w 3)))) : Except DecErr Instr) = _; rw [zeros_eq z0, (fieldF_eq f15 : fieldF w 15 = xD), (fieldF_eq f9 : fieldF w 9 = xA), (fieldF_eq f3 : fieldF w 3 = xB)] <;> rfl
  · rw [hk, decRaw_2lo e2 (hdrOf_eq hk e3 e4) (by decide)]; show ((unlessRes (zeros w 0 3) (.ok (.shr h (fieldF w 15) (fieldF w 9) (fieldF w 3)))) : Except DecErr Instr) = _; rw [zeros_eq z0, (fieldF_eq f15 : fieldF w 15 = xD), (fieldF_eq f9 : fieldF w 9 = xA), (fieldF_eq f3 : fieldF w 3 = xB)] <;> rfl
theorem RoundTrip.sar (h : Hdr) (xD : XReg) (xA : XReg) (xB : XReg) : RoundTrip.Statement (.sar h xD xA xB) := by
  intro hw w he
  replace he := Option.some.inj he
  rw [List.sum_cons, List.sum_cons, List.sum_cons, List.sum_nil] at he
  simp only [encHdr, sh] at he
  obtain ⟨hl, e2, e3, e4, f15, f9, f3, z0⟩ := shape_15x6_9x6_3x6_z0x3 he h.pr.isLt (boolNat_lt h.pn) xD.isLt xA.isLt xB.isLt
  refine ⟨h.slot, rfl, hl, decodeSlot_ok ?_ hw⟩
  rcases at2 hw with hk | hk
  · rw [hk, decRaw_1 e2 (hdrOf_eq hk e3 e4)]; show ((unlessRes (zeros w 0 3) (.ok (.sar h (fieldF w 15) (fieldF w 9) (fieldF w 3)))) : Except DecErr Instr) = _; rw [zeros_eq z0, (fieldF_eq f15 : fieldF w 15 = xD), (fieldF_eq f9 : fieldF w 9 = xA), (fieldF_eq f3 : fieldF w 3 = xB)] <;> rfl
  · rw [hk, decRaw_2lo e2 (hdrOf_eq hk e3 e4) (by decide)]; show ((unlessRes (zeros w 0 3) (.ok (.sar h (fieldF w 15) (fieldF w 9) (fieldF w 3)))) : Except DecErr Instr) = _; rw [zeros_eq z0, (fieldF_eq f15 : fieldF w 15 = xD), (fieldF_eq f9 : fieldF w 9 = xA), (fieldF_eq f3 : fieldF w 3 = xB)] <;> rfl
theorem RoundTrip.min (h : Hdr) (xD : XReg) (xA : XReg) (xB : XReg) : RoundTrip.Statement (.min h xD xA xB) := by
  intro hw w he
  replace he := Option.some.inj he
  rw [List.sum_cons, List.sum_cons, List.sum_cons, List.sum_nil] at he
  simp only [encHdr, sh] at he
  obtain ⟨hl, e2, e3, e4, f15, f9, f3, z0⟩ := shape_15x6_9x6_3x6_z0x3 he h.pr.isLt (boolNat_lt h.pn) xD.isLt xA.isLt xB.isLt
  refine ⟨h.slot, rfl, hl, decodeSlot_ok ?_ hw⟩
  rcases at2 hw with hk | hk
  · rw [hk, decRaw_1 e2 (hdrOf_eq hk e3 e4)]; show ((unlessRes (zeros w 0 3) (.ok (.min h (fieldF w 15) (fieldF w 9) (fieldF w 3)))) : Except DecErr Instr) = _; rw [zeros_eq z0, (fieldF_eq f15 : fieldF w 15 = xD), (fieldF_eq f9 : fieldF w 9 = xA), (fieldF_eq f3 : fieldF w 3 = xB)] <;> rfl
  · rw [hk, decRaw_2lo e2 (hdrOf_eq hk e3 e4) (by decide)]; show ((unlessRes (zeros w 0 3) (.ok (.min h (fieldF w 15) (fieldF w 9) (fieldF w 3)))) : Except DecErr Instr) = _; rw [zeros_eq z0, (fieldF_eq f15 : fieldF w 15 = xD), (fieldF_eq f9 : fieldF w 9 = xA), (fieldF_eq f3 : fieldF w 3 = xB)] <;> rfl
theorem RoundTrip.max (h : Hdr) (xD : XReg) (xA : XReg) (xB : XReg) : RoundTrip.Statement (.max h xD xA xB) := by
  intro hw w he
  replace he := Option.some.inj he
  rw [List.sum_cons, List.sum_cons, List.sum_cons, List.sum_nil] at he
  simp only [encHdr, sh] at he
  obtain ⟨hl, e2, e3, e4, f15, f9, f3, z0⟩ := shape_15x6_9x6_3x6_z0x3 he h.pr.isLt (boolNat_lt h.pn) xD.isLt xA.isLt xB.isLt
  refine ⟨h.slot, rfl, hl, decodeSlot_ok ?_ hw⟩
  rcases at2 hw with hk | hk
  · rw [hk, decRaw_1 e2 (hdrOf_eq hk e3 e4)]; show ((unlessRes (zeros w 0 3) (.ok (.max h (fieldF w 15) (fieldF w 9) (fieldF w 3)))) : Except DecErr Instr) = _; rw [zeros_eq z0, (fieldF_eq f15 : fieldF w 15 = xD), (fieldF_eq f9 : fieldF w 9 = xA), (fieldF_eq f3 : fieldF w 3 = xB)] <;> rfl
  · rw [hk, decRaw_2lo e2 (hdrOf_eq hk e3 e4) (by decide)]; show ((unlessRes (zeros w 0 3) (.ok (.max h (fieldF w 15) (fieldF w 9) (fieldF w 3)))) : Except DecErr Instr) = _; rw [zeros_eq z0, (fieldF_eq f15 : fieldF w 15 = xD), (fieldF_eq f9 : fieldF w 9 = xA), (fieldF_eq f3 : fieldF w 3 = xB)] <;> rfl
theorem RoundTrip.minu (h : Hdr) (xD : XReg) (xA : XReg) (xB : XReg) : RoundTrip.Statement (.minu h xD xA xB) := by
  intro hw w he
  replace he := Option.some.inj he
  rw [List.sum_cons, List.sum_cons, List.sum_cons, List.sum_nil] at he
  simp only [encHdr, sh] at he
  obtain ⟨hl, e2, e3, e4, f15, f9, f3, z0⟩ := shape_15x6_9x6_3x6_z0x3 he h.pr.isLt (boolNat_lt h.pn) xD.isLt xA.isLt xB.isLt
  refine ⟨h.slot, rfl, hl, decodeSlot_ok ?_ hw⟩
  rcases at2 hw with hk | hk
  · rw [hk, decRaw_1 e2 (hdrOf_eq hk e3 e4)]; show ((unlessRes (zeros w 0 3) (.ok (.minu h (fieldF w 15) (fieldF w 9) (fieldF w 3)))) : Except DecErr Instr) = _; rw [zeros_eq z0, (fieldF_eq f15 : fieldF w 15 = xD), (fieldF_eq f9 : fieldF w 9 = xA), (fieldF_eq f3 : fieldF w 3 = xB)] <;> rfl
  · rw [hk, decRaw_2lo e2 (hdrOf_eq hk e3 e4) (by decide)]; show ((unlessRes (zeros w 0 3) (.ok (.minu h (fieldF w 15) (fieldF w 9) (fieldF w 3)))) : Except DecErr Instr) = _; rw [zeros_eq z0, (fieldF_eq f15 : fieldF w 15 = xD), (fieldF_eq f9 : fieldF w 9 = xA), (fieldF_eq f3 : fieldF w 3 = xB)] <;> rfl
theorem RoundTrip.maxu (h : Hdr) (xD : XReg) (xA : XReg) (xB : XReg) : RoundTrip.Statement (.maxu h xD xA xB) := by
  intro hw w he
  replace he := Option.some.inj he
  rw [List.sum_cons, List.sum_cons, List.sum_cons, List.sum_nil] at he
  simp only [encHdr, sh] at he
  obtain ⟨hl, e2, e3, e4, f15, f9, f3, z0⟩ := shape_15x6_9x6_3x6_z0x3 he h.pr.isLt (boolNat_lt h.pn) xD.isLt xA.isLt xB.isLt
  refine ⟨h.slot, rfl, hl, decodeSlot_ok ?_ hw⟩
  rcases at2 hw with hk | hk
  · rw [hk, decRaw_1 e2 (hdrOf_eq hk e3 e4)]; show ((unlessRes (zeros w 0 3) (.ok (.maxu h (fieldF w 15) (fieldF w 9) (fieldF w 3)))) : Except DecErr Instr) = _; rw [zeros_eq z0, (fieldF_eq f15 : fieldF w 15 = xD), (fieldF_eq f9 : fieldF w 9 = xA), (fieldF_eq f3 : fieldF w 3 = xB)] <;> rfl
  · rw [hk, decRaw_2lo e2 (hdrOf_eq hk e3 e4) (by decide)]; show ((unlessRes (zeros w 0 3) (.ok (.maxu h (fieldF w 15) (fieldF w 9) (fieldF w 3)))) : Except DecErr Instr) = _; rw [zeros_eq z0, (fieldF_eq f15 : fieldF w 15 = xD), (fieldF_eq f9 : fieldF w 9 = xA), (fieldF_eq f3 : fieldF w 3 = xB)] <;> rfl
theorem RoundTrip.addi (h : Hdr) (xD : XReg) (xA : XReg) (imm : BitVec 9) : RoundTrip.Statement (.addi h xD xA imm) := by
  intro hw w he
  replace he := Option.some.inj he
  rw [List.sum_cons, List.sum_cons, List.sum_cons, List.sum_nil] at he
  simp only [encHdr, sh] at he
  obtain ⟨hl, e2, e3, e4, f15, f9, f0⟩ := shape_15x6_9x6_0x9 he h.pr.isLt (boolNat_lt h.pn) xD.isLt xA.isLt imm.isLt
  refine ⟨h.slot, rfl, hl, decodeSlot_ok ?_ hw⟩
  rcases at2 hw with hk | hk
  · rw [hk, decRaw_1 e2 (hdrOf_eq hk e3 e4)]; show ((.ok (.addi h (fieldF w 15) (fieldF w 9) (fieldB w 0))) : Except DecErr Instr) = _; rw [(fieldF_eq f15 : fieldF w 15 = xD), (fieldF_eq f9 : fieldF w 9 = xA), (fieldB_eq f0 : fieldB w 0 = imm)] <;> rfl
  · rw [hk, decRaw_2lo e2 (hdrOf_eq hk e3 e4) (by decide)]; show ((.ok (.addi h (fieldF w 15) (fieldF w 9) (fieldB w 0))) : Except DecErr Instr) = _; rw [(fieldF_eq f15 : fieldF w 15 = xD), (fieldF_eq f9 : fieldF w 9 = xA), (fieldB_eq f0 : fieldB w 0 = imm)] <;> rfl
theorem RoundTrip.andi (h : Hdr) (xD : XReg) (xA : XReg) (imm : BitVec 9) : RoundTrip.Statement (.andi h xD xA imm) := by
  intro hw w he
  replace he := Option.some.inj he
  rw [List.sum_cons, List.sum_cons, List.sum_cons, List.sum_nil] at he
  simp only [encHdr, sh] at he
  obtain ⟨hl, e2, e3, e4, f15, f9, f0⟩ := shape_15x6_9x6_0x9 he h.pr.isLt (boolNat_lt h.pn) xD.isLt xA.isLt imm.isLt
  refine ⟨h.slot, rfl, hl, decodeSlot_ok ?_ hw⟩
  rcases at2 hw with hk | hk
  · rw [hk, decRaw_1 e2 (hdrOf_eq hk e3 e4)]; show ((.ok (.andi h (fieldF w 15) (fieldF w 9) (fieldB w 0))) : Except DecErr Instr) = _; rw [(fieldF_eq f15 : fieldF w 15 = xD), (fieldF_eq f9 : fieldF w 9 = xA), (fieldB_eq f0 : fieldB w 0 = imm)] <;> rfl
  · rw [hk, decRaw_2lo e2 (hdrOf_eq hk e3 e4) (by decide)]; show ((.ok (.andi h (fieldF w 15) (fieldF w 9) (fieldB w 0))) : Except DecErr Instr) = _; rw [(fieldF_eq f15 : fieldF w 15 = xD), (fieldF_eq f9 : fieldF w 9 = xA), (fieldB_eq f0 : fieldB w 0 = imm)] <;> rfl
theorem RoundTrip.ori (h : Hdr) (xD : XReg) (xA : XReg) (imm : BitVec 9) : RoundTrip.Statement (.ori h xD xA imm) := by
  intro hw w he
  replace he := Option.some.inj he
  rw [List.sum_cons, List.sum_cons, List.sum_cons, List.sum_nil] at he
  simp only [encHdr, sh] at he
  obtain ⟨hl, e2, e3, e4, f15, f9, f0⟩ := shape_15x6_9x6_0x9 he h.pr.isLt (boolNat_lt h.pn) xD.isLt xA.isLt imm.isLt
  refine ⟨h.slot, rfl, hl, decodeSlot_ok ?_ hw⟩
  rcases at2 hw with hk | hk
  · rw [hk, decRaw_1 e2 (hdrOf_eq hk e3 e4)]; show ((.ok (.ori h (fieldF w 15) (fieldF w 9) (fieldB w 0))) : Except DecErr Instr) = _; rw [(fieldF_eq f15 : fieldF w 15 = xD), (fieldF_eq f9 : fieldF w 9 = xA), (fieldB_eq f0 : fieldB w 0 = imm)] <;> rfl
  · rw [hk, decRaw_2lo e2 (hdrOf_eq hk e3 e4) (by decide)]; show ((.ok (.ori h (fieldF w 15) (fieldF w 9) (fieldB w 0))) : Except DecErr Instr) = _; rw [(fieldF_eq f15 : fieldF w 15 = xD), (fieldF_eq f9 : fieldF w 9 = xA), (fieldB_eq f0 : fieldB w 0 = imm)] <;> rfl
theorem RoundTrip.xori (h : Hdr) (xD : XReg) (xA : XReg) (imm : BitVec 9) : RoundTrip.Statement (.xori h xD xA imm) := by
  intro hw w he
  replace he := Option.some.inj he
  rw [List.sum_cons, List.sum_cons, List.sum_cons, List.sum_nil] at he
  simp only [encHdr, sh] at he
  obtain ⟨hl, e2, e3, e4, f15, f9, f0⟩ := shape_15x6_9x6_0x9 he h.pr.isLt (boolNat_lt h.pn) xD.isLt xA.isLt imm.isLt
  refine ⟨h.slot, rfl, hl, decodeSlot_ok ?_ hw⟩
  rcases at2 hw with hk | hk
  · rw [hk, decRaw_1 e2 (hdrOf_eq hk e3 e4)]; show ((.ok (.xori h (fieldF w 15) (fieldF w 9) (fieldB w 0))) : Except DecErr Instr) = _; rw [(fieldF_eq f15 : fieldF w 15 = xD), (fieldF_eq f9 : fieldF w 9 = xA), (fieldB_eq f0 : fieldB w 0 = imm)] <;> rfl
  · rw [hk, decRaw_2lo e2 (hdrOf_eq hk e3 e4) (by decide)]; show ((.ok (.xori h (fieldF w 15) (fieldF w 9) (fieldB w 0))) : Except DecErr Instr) = _; rw [(fieldF_eq f15 : fieldF w 15 = xD), (fieldF_eq f9 : fieldF w 9 = xA), (fieldB_eq f0 : fieldB w 0 = imm)] <;> rfl
theorem RoundTrip.shli (h : Hdr) (xD : XReg) (xA : XReg) (imm : BitVec 9) : RoundTrip.Statement (.shli h xD xA imm) := by
  intro hw w he
  replace he := Option.some.inj he
  rw [List.sum_cons, List.sum_cons, List.sum_cons, List.sum_nil] at he
  simp only [encHdr, sh] at he
  obtain ⟨hl, e2, e3, e4, f15, f9, f0⟩ := shape_15x6_9x6_0x9 he h.pr.isLt (boolNat_lt h.pn) xD.isLt xA.isLt imm.isLt
  refine ⟨h.slot, rfl, hl, decodeSlot_ok ?_ hw⟩
  rcases at2 (and_left hw) with hk | hk
  · rw [hk, decRaw_1 e2 (hdrOf_eq hk e3 e4)]; show ((.ok (.shli h (fieldF w 15) (fieldF w 9) (fieldB w 0))) : Except DecErr Instr) = _; rw [(fieldF_eq f15 : fieldF w 15 = xD), (fieldF_eq f9 : fieldF w 9 = xA), (fieldB_eq f0 : fieldB w 0 = imm)] <;> rfl
  · rw [hk, decRaw_2lo e2 (hdrOf_eq hk e3 e4) (by decide)]; show ((.ok (.shli h (fieldF w 15) (fieldF w 9) (fieldB w 0))) : Except DecErr Instr) = _; rw [(fieldF_eq f15 : fieldF w 15 = xD), (fieldF_eq f9 : fieldF w 9 = xA), (fieldB_eq f0 : fieldB w 0 = imm)] <;> rfl
theorem RoundTrip.shri (h : Hdr) (xD : XReg) (xA : XReg) (imm : BitVec 9) : RoundTrip.Statement (.shri h xD xA imm) := by
  intro hw w he
  replace he := Option.some.inj he
  rw [List.sum_cons, List.sum_cons, List.sum_cons, List.sum_nil] at he
  simp only [encHdr, sh] at he
  obtain ⟨hl, e2, e3, e4, f15, f9, f0⟩ := shape_15x6_9x6_0x9 he h.pr.isLt (boolNat_lt h.pn) xD.isLt xA.isLt imm.isLt
  refine ⟨h.slot, rfl, hl, decodeSlot_ok ?_ hw⟩
  rcases at2 (and_left hw) with hk | hk
  · rw [hk, decRaw_1 e2 (hdrOf_eq hk e3 e4)]; show ((.ok (.shri h (fieldF w 15) (fieldF w 9) (fieldB w 0))) : Except DecErr Instr) = _; rw [(fieldF_eq f15 : fieldF w 15 = xD), (fieldF_eq f9 : fieldF w 9 = xA), (fieldB_eq f0 : fieldB w 0 = imm)] <;> rfl
  · rw [hk, decRaw_2lo e2 (hdrOf_eq hk e3 e4) (by decide)]; show ((.ok (.shri h (fieldF w 15) (fieldF w 9) (fieldB w 0))) : Except DecErr Instr) = _; rw [(fieldF_eq f15 : fieldF w 15 = xD), (fieldF_eq f9 : fieldF w 9 = xA), (fieldB_eq f0 : fieldB w 0 = imm)] <;> rfl
theorem RoundTrip.sari (h : Hdr) (xD : XReg) (xA : XReg) (imm : BitVec 9) : RoundTrip.Statement (.sari h xD xA imm) := by
  intro hw w he
  replace he := Option.some.inj he
  rw [List.sum_cons, List.sum_cons, List.sum_cons, List.sum_nil] at he
  simp only [encHdr, sh] at he
  obtain ⟨hl, e2, e3, e4, f15, f9, f0⟩ := shape_15x6_9x6_0x9 he h.pr.isLt (boolNat_lt h.pn) xD.isLt xA.isLt imm.isLt
  refine ⟨h.slot, rfl, hl, decodeSlot_ok ?_ hw⟩
  rcases at2 (and_left hw) with hk | hk
  · rw [hk, decRaw_1 e2 (hdrOf_eq hk e3 e4)]; show ((.ok (.sari h (fieldF w 15) (fieldF w 9) (fieldB w 0))) : Except DecErr Instr) = _; rw [(fieldF_eq f15 : fieldF w 15 = xD), (fieldF_eq f9 : fieldF w 9 = xA), (fieldB_eq f0 : fieldB w 0 = imm)] <;> rfl
  · rw [hk, decRaw_2lo e2 (hdrOf_eq hk e3 e4) (by decide)]; show ((.ok (.sari h (fieldF w 15) (fieldF w 9) (fieldB w 0))) : Except DecErr Instr) = _; rw [(fieldF_eq f15 : fieldF w 15 = xD), (fieldF_eq f9 : fieldF w 9 = xA), (fieldB_eq f0 : fieldB w 0 = imm)] <;> rfl
theorem RoundTrip.li (h : Hdr) (xD : XReg) (imm : BitVec 15) : RoundTrip.Statement (.li h xD imm) := by
  intro hw w he
  replace he := Option.some.inj he
  rw [List.sum_cons, List.sum_cons, List.sum_nil] at he
  simp only [encHdr, sh] at he
  obtain ⟨hl, e2, e3, e4, f15, f0⟩ := shape_15x6_0x15 he h.pr.isLt (boolNat_lt h.pn) xD.isLt imm.isLt
  refine ⟨h.slot, rfl, hl, decodeSlot_ok ?_ hw⟩
  rcases at2 hw with hk | hk
  · rw [hk, decRaw_1 e2 (hdrOf_eq hk e3 e4)]; show ((.ok (.li h (fieldF w 15) (fieldB w 0))) : Except DecErr Instr) = _; rw [(fieldF_eq f15 : fieldF w 15 = xD), (fieldB_eq f0 : fieldB w 0 = imm)] <;> rfl
  · rw [hk, decRaw_2lo e2 (hdrOf_eq hk e3 e4) (by decide)]; show ((.ok (.li h (fieldF w 15) (fieldB w 0))) : Except DecErr Instr) = _; rw [(fieldF_eq f15 : fieldF w 15 = xD), (fieldB_eq f0 : fieldB w 0 = imm)] <;> rfl
theorem RoundTrip.lih (h : Hdr) (xD : XReg) (imm : BitVec 15) : RoundTrip.Statement (.lih h xD imm) := by
  intro hw w he
  replace he := Option.some.inj he
  rw [List.sum_cons, List.sum_cons, List.sum_nil] at he
  simp only [encHdr, sh] at he
  obtain ⟨hl, e2, e3, e4, f15, f0⟩ := shape_15x6_0x15 he h.pr.isLt (boolNat_lt h.pn) xD.isLt imm.isLt
  refine ⟨h.slot, rfl, hl, decodeSlot_ok ?_ hw⟩
  rcases at2 hw with hk | hk
  · rw [hk, decRaw_1 e2 (hdrOf_eq hk e3 e4)]; show ((.ok (.lih h (fieldF w 15) (fieldB w 0))) : Except DecErr Instr) = _; rw [(fieldF_eq f15 : fieldF w 15 = xD), (fieldB_eq f0 : fieldB w 0 = imm)] <;> rfl
  · rw [hk, decRaw_2lo e2 (hdrOf_eq hk e3 e4) (by decide)]; show ((.ok (.lih h (fieldF w 15) (fieldB w 0))) : Except DecErr Instr) = _; rw [(fieldF_eq f15 : fieldF w 15 = xD), (fieldB_eq f0 : fieldB w 0 = imm)] <;> rfl
theorem RoundTrip.cmp (h : Hdr) (pD : PReg) (xA : XReg) (xB : XReg) (cond : Cond) (comb : Comb) : RoundTrip.Statement (.cmp h pD xA xB cond comb) := by
  intro hw w he
  replace he := Option.some.inj he
  rw [List.sum_cons, List.sum_cons, List.sum_cons, List.sum_cons, List.sum_cons, List.sum_nil] at he
  simp only [encHdr, sh] at he
  obtain ⟨hl, e2, e3, e4, f17, f11, f5, f2, f0⟩ := shape_17x4_11x6_5x6_2x3_0x2 he h.pr.isLt (boolNat_lt h.pn) pD.isLt xA.isLt xB.isLt (condCode_lt cond) (combCode_lt comb)
  refine ⟨h.slot, rfl, hl, decodeSlot_ok ?_ hw⟩
  rcases at2 hw with hk | hk
  · rw [hk, decRaw_1 e2 (hdrOf_eq hk e3 e4)]; show ((withCode (condOf (w / 2 ^ 2 % 8)) fun cond => withCode (combOf (w / 2 ^ 0 % 4)) fun comb => .ok (.cmp h (fieldF w 17) (fieldF w 11) (fieldF w 5) cond comb)) : Except DecErr Instr) = _; rw [f2, f0, condOf_code cond, combOf_code comb, (fieldF_eq f17 : fieldF w 17 = pD), (fieldF_eq f11 : fieldF w 11 = xA), (fieldF_eq f5 : fieldF w 5 = xB)] <;> rfl
  · rw [hk, decRaw_2lo e2 (hdrOf_eq hk e3 e4) (by decide)]; show ((withCode (condOf (w / 2 ^ 2 % 8)) fun cond => withCode (combOf (w / 2 ^ 0 % 4)) fun comb => .ok (.cmp h (fieldF w 17) (fieldF w 11) (fieldF w 5) cond comb)) : Except DecErr Instr) = _; rw [f2, f0, condOf_code cond, combOf_code comb, (fieldF_eq f17 : fieldF w 17 = pD), (fieldF_eq f11 : fieldF w 11 = xA), (fieldF_eq f5 : fieldF w 5 = xB)] <;> rfl
theorem RoundTrip.cmpi (h : Hdr) (pD : PReg) (xA : XReg) (imm : BitVec 6) (cond : Cond) (comb : Comb) : RoundTrip.Statement (.cmpi h pD xA imm cond comb) := by
  intro hw w he
  replace he := Option.some.inj he
  rw [List.sum_cons, List.sum_cons, List.sum_cons, List.sum_cons, List.sum_cons, List.sum_nil] at he
  simp only [encHdr, sh] at he
  obtain ⟨hl, e2, e3, e4, f17, f11, f5, f2, f0⟩ := shape_17x4_11x6_5x6_2x3_0x2 he h.pr.isLt (boolNat_lt h.pn) pD.isLt xA.isLt imm.isLt (condCode_lt cond) (combCode_lt comb)
  refine ⟨h.slot, rfl, hl, decodeSlot_ok ?_ hw⟩
  rcases at2 hw with hk | hk
  · rw [hk, decRaw_1 e2 (hdrOf_eq hk e3 e4)]; show ((withCode (condOf (w / 2 ^ 2 % 8)) fun cond => withCode (combOf (w / 2 ^ 0 % 4)) fun comb => .ok (.cmpi h (fieldF w 17) (fieldF w 11) (fieldB w 5) cond comb)) : Except DecErr Instr) = _; rw [f2, f0, condOf_code cond, combOf_code comb, (fieldF_eq f17 : fieldF w 17 = pD), (fieldF_eq f11 : fieldF w 11 = xA), (fieldB_eq f5 : fieldB w 5 = imm)] <;> rfl
  · rw [hk, decRaw_2lo e2 (hdrOf_eq hk e3 e4) (by decide)]; show ((withCode (condOf (w / 2 ^ 2 % 8)) fun cond => withCode (combOf (w / 2 ^ 0 % 4)) fun comb => .ok (.cmpi h (fieldF w 17) (fieldF w 11) (fieldB w 5) cond comb)) : Except DecErr Instr) = _; rw [f2, f0, condOf_code cond, combOf_code comb, (fieldF_eq f17 : fieldF w 17 = pD), (fieldF_eq f11 : fieldF w 11 = xA), (fieldB_eq f5 : fieldB w 5 = imm)] <;> rfl
theorem RoundTrip.sel (h : Hdr) (xD : XReg) (xA : XReg) (xB : XReg) : RoundTrip.Statement (.sel h xD xA xB) := by
  intro hw w he
  replace he := Option.some.inj he
  rw [List.sum_cons, List.sum_cons, List.sum_cons, List.sum_nil] at he
  simp only [encHdr, sh] at he
  obtain ⟨hl, e2, e3, e4, f15, f9, f3, z0⟩ := shape_15x6_9x6_3x6_z0x3 he h.pr.isLt (boolNat_lt h.pn) xD.isLt xA.isLt xB.isLt
  refine ⟨h.slot, rfl, hl, decodeSlot_ok ?_ hw⟩
  rcases at2 hw with hk | hk
  · rw [hk, decRaw_1 e2 (hdrOf_eq hk e3 e4)]; show ((unlessRes (zeros w 0 3) (.ok (.sel h (fieldF w 15) (fieldF w 9) (fieldF w 3)))) : Except DecErr Instr) = _; rw [zeros_eq z0, (fieldF_eq f15 : fieldF w 15 = xD), (fieldF_eq f9 : fieldF w 9 = xA), (fieldF_eq f3 : fieldF w 3 = xB)] <;> rfl
  · rw [hk, decRaw_2lo e2 (hdrOf_eq hk e3 e4) (by decide)]; show ((unlessRes (zeros w 0 3) (.ok (.sel h (fieldF w 15) (fieldF w 9) (fieldF w 3)))) : Except DecErr Instr) = _; rw [zeros_eq z0, (fieldF_eq f15 : fieldF w 15 = xD), (fieldF_eq f9 : fieldF w 9 = xA), (fieldF_eq f3 : fieldF w 3 = xB)] <;> rfl
theorem RoundTrip.plog (h : Hdr) (pD : PReg) (pA : PReg) (pB : PReg) (tt : BitVec 4) : RoundTrip.Statement (.plog h pD pA pB tt) := by
  intro hw w he
  replace he := Option.some.inj he
  rw [List.sum_cons, List.sum_cons, List.sum_cons, List.sum_cons, List.sum_nil] at he
  simp only [encHdr, sh] at he
  obtain ⟨hl, e2, e3, e4, f17, f13, f9, f5, z0⟩ := shape_17x4_13x4_9x4_5x4_z0x5 he h.pr.isLt (boolNat_lt h.pn) pD.isLt pA.isLt pB.isLt tt.isLt
  refine ⟨h.slot, rfl, hl, decodeSlot_ok ?_ hw⟩
  rcases at2 hw with hk | hk
  · rw [hk, decRaw_1 e2 (hdrOf_eq hk e3 e4)]; show ((unlessRes (zeros w 0 5) (.ok (.plog h (fieldF w 17) (fieldF w 13) (fieldF w 9) (fieldB w 5)))) : Except DecErr Instr) = _; rw [zeros_eq z0, (fieldF_eq f17 : fieldF w 17 = pD), (fieldF_eq f13 : fieldF w 13 = pA), (fieldF_eq f9 : fieldF w 9 = pB), (fieldB_eq f5 : fieldB w 5 = tt)] <;> rfl
  · rw [hk, decRaw_2lo e2 (hdrOf_eq hk e3 e4) (by decide)]; show ((unlessRes (zeros w 0 5) (.ok (.plog h (fieldF w 17) (fieldF w 13) (fieldF w 9) (fieldB w 5)))) : Except DecErr Instr) = _; rw [zeros_eq z0, (fieldF_eq f17 : fieldF w 17 = pD), (fieldF_eq f13 : fieldF w 13 = pA), (fieldF_eq f9 : fieldF w 9 = pB), (fieldB_eq f5 : fieldB w 5 = tt)] <;> rfl
theorem RoundTrip.clz (h : Hdr) (xD : XReg) (xA : XReg) : RoundTrip.Statement (.clz h xD xA) := by
  intro hw w he
  replace he := Option.some.inj he
  rw [List.sum_cons, List.sum_cons, List.sum_nil] at he
  simp only [encHdr, sh] at he
  obtain ⟨hl, e2, e3, e4, f15, f9, z0⟩ := shape_15x6_9x6_z0x9 he h.pr.isLt (boolNat_lt h.pn) xD.isLt xA.isLt
  refine ⟨h.slot, rfl, hl, decodeSlot_ok ?_ hw⟩
  rcases at2 hw with hk | hk
  · rw [hk, decRaw_1 e2 (hdrOf_eq hk e3 e4)]; show ((unlessRes (zeros w 0 9) (.ok (.clz h (fieldF w 15) (fieldF w 9)))) : Except DecErr Instr) = _; rw [zeros_eq z0, (fieldF_eq f15 : fieldF w 15 = xD), (fieldF_eq f9 : fieldF w 9 = xA)] <;> rfl
  · rw [hk, decRaw_2lo e2 (hdrOf_eq hk e3 e4) (by decide)]; show ((unlessRes (zeros w 0 9) (.ok (.clz h (fieldF w 15) (fieldF w 9)))) : Except DecErr Instr) = _; rw [zeros_eq z0, (fieldF_eq f15 : fieldF w 15 = xD), (fieldF_eq f9 : fieldF w 9 = xA)] <;> rfl
theorem RoundTrip.ctz (h : Hdr) (xD : XReg) (xA : XReg) : RoundTrip.Statement (.ctz h xD xA) := by
  intro hw w he
  replace he := Option.some.inj he
  rw [List.sum_cons, List.sum_cons, List.sum_nil] at he
  simp only [encHdr, sh] at he
  obtain ⟨hl, e2, e3, e4, f15, f9, z0⟩ := shape_15x6_9x6_z0x9 he h.pr.isLt (boolNat_lt h.pn) xD.isLt xA.isLt
  refine ⟨h.slot, rfl, hl, decodeSlot_ok ?_ hw⟩
  rcases at2 hw with hk | hk
  · rw [hk, decRaw_1 e2 (hdrOf_eq hk e3 e4)]; show ((unlessRes (zeros w 0 9) (.ok (.ctz h (fieldF w 15) (fieldF w 9)))) : Except DecErr Instr) = _; rw [zeros_eq z0, (fieldF_eq f15 : fieldF w 15 = xD), (fieldF_eq f9 : fieldF w 9 = xA)] <;> rfl
  · rw [hk, decRaw_2lo e2 (hdrOf_eq hk e3 e4) (by decide)]; show ((unlessRes (zeros w 0 9) (.ok (.ctz h (fieldF w 15) (fieldF w 9)))) : Except DecErr Instr) = _; rw [zeros_eq z0, (fieldF_eq f15 : fieldF w 15 = xD), (fieldF_eq f9 : fieldF w 9 = xA)] <;> rfl
theorem RoundTrip.popc (h : Hdr) (xD : XReg) (xA : XReg) : RoundTrip.Statement (.popc h xD xA) := by
  intro hw w he
  replace he := Option.some.inj he
  rw [List.sum_cons, List.sum_cons, List.sum_nil] at he
  simp only [encHdr, sh] at he
  obtain ⟨hl, e2, e3, e4, f15, f9, z0⟩ := shape_15x6_9x6_z0x9 he h.pr.isLt (boolNat_lt h.pn) xD.isLt xA.isLt
  refine ⟨h.slot, rfl, hl, decodeSlot_ok ?_ hw⟩
  rcases at2 hw with hk | hk
  · rw [hk, decRaw_1 e2 (hdrOf_eq hk e3 e4)]; show ((unlessRes (zeros w 0 9) (.ok (.popc h (fieldF w 15) (fieldF w 9)))) : Except DecErr Instr) = _; rw [zeros_eq z0, (fieldF_eq f15 : fieldF w 15 = xD), (fieldF_eq f9 : fieldF w 9 = xA)] <;> rfl
  · rw [hk, decRaw_2lo e2 (hdrOf_eq hk e3 e4) (by decide)]; show ((unlessRes (zeros w 0 9) (.ok (.popc h (fieldF w 15) (fieldF w 9)))) : Except DecErr Instr) = _; rw [zeros_eq z0, (fieldF_eq f15 : fieldF w 15 = xD), (fieldF_eq f9 : fieldF w 9 = xA)] <;> rfl
theorem RoundTrip.bfx (h : Hdr) (xD : XReg) (xA : XReg) (xB : XReg) (sx : Bool) : RoundTrip.Statement (.bfx h xD xA xB sx) := by
  intro hw w he
  replace he := Option.some.inj he
  rw [List.sum_cons, List.sum_cons, List.sum_cons, List.sum_cons, List.sum_nil] at he
  simp only [encHdr, sh] at he
  obtain ⟨hl, e2, e3, e4, f15, f9, f3, f0, z1⟩ := shape_15x6_9x6_3x6_0x1_z1x2 he h.pr.isLt (boolNat_lt h.pn) xD.isLt xA.isLt xB.isLt (boolNat_lt sx)
  refine ⟨h.slot, rfl, hl, decodeSlot_ok ?_ hw⟩
  rcases at2 hw with hk | hk
  · rw [hk, decRaw_1 e2 (hdrOf_eq hk e3 e4)]; show ((unlessRes (zeros w 1 2) (.ok (.bfx h (fieldF w 15) (fieldF w 9) (fieldF w 3) (fieldBit w 0)))) : Except DecErr Instr) = _; rw [zeros_eq z1, (fieldF_eq f15 : fieldF w 15 = xD), (fieldF_eq f9 : fieldF w 9 = xA), (fieldF_eq f3 : fieldF w 3 = xB), (fieldBit_eq f0 : fieldBit w 0 = sx)] <;> rfl
  · rw [hk, decRaw_2lo e2 (hdrOf_eq hk e3 e4) (by decide)]; show ((unlessRes (zeros w 1 2) (.ok (.bfx h (fieldF w 15) (fieldF w 9) (fieldF w 3) (fieldBit w 0)))) : Except DecErr Instr) = _; rw [zeros_eq z1, (fieldF_eq f15 : fieldF w 15 = xD), (fieldF_eq f9 : fieldF w 9 = xA), (fieldF_eq f3 : fieldF w 3 = xB), (fieldBit_eq f0 : fieldBit w 0 = sx)] <;> rfl
theorem RoundTrip.mfs (h : Hdr) (xD : XReg) (num : Fin 1024) : RoundTrip.Statement (.mfs h xD num) := by
  intro hw w he
  replace he := Option.some.inj he
  rw [List.sum_cons, List.sum_cons, List.sum_nil] at he
  simp only [encHdr, sh] at he
  obtain ⟨hl, e2, e3, e4, f15, f5, z0⟩ := shape_15x6_5x10_z0x5 he h.pr.isLt (boolNat_lt h.pn) xD.isLt num.isLt
  refine ⟨h.slot, rfl, hl, decodeSlot_ok ?_ hw⟩
  rcases at2 (and_left hw) with hk | hk
  · rw [hk, decRaw_1 e2 (hdrOf_eq hk e3 e4)]; show ((unlessRes (zeros w 0 5) (.ok (.mfs h (fieldF w 15) (fieldF w 5)))) : Except DecErr Instr) = _; rw [zeros_eq z0, (fieldF_eq f15 : fieldF w 15 = xD), (fieldF_eq f5 : fieldF w 5 = num)] <;> rfl
  · rw [hk, decRaw_2lo e2 (hdrOf_eq hk e3 e4) (by decide)]; show ((unlessRes (zeros w 0 5) (.ok (.mfs h (fieldF w 15) (fieldF w 5)))) : Except DecErr Instr) = _; rw [zeros_eq z0, (fieldF_eq f15 : fieldF w 15 = xD), (fieldF_eq f5 : fieldF w 5 = num)] <;> rfl
theorem RoundTrip.mts (h : Hdr) (xA : XReg) (num : Fin 1024) : RoundTrip.Statement (.mts h xA num) := by
  intro hw w he
  replace he := Option.some.inj he
  rw [List.sum_cons, List.sum_cons, List.sum_nil] at he
  simp only [encHdr, sh] at he
  obtain ⟨hl, e2, e3, e4, f15, f5, z0⟩ := shape_15x6_5x10_z0x5 he h.pr.isLt (boolNat_lt h.pn) xA.isLt num.isLt
  refine ⟨h.slot, rfl, hl, decodeSlot_ok ?_ hw⟩
  rcases at2 (and_left hw) with hk | hk
  · rw [hk, decRaw_1 e2 (hdrOf_eq hk e3 e4)]; show ((unlessRes (zeros w 0 5) (.ok (.mts h (fieldF w 15) (fieldF w 5)))) : Except DecErr Instr) = _; rw [zeros_eq z0, (fieldF_eq f15 : fieldF w 15 = xA), (fieldF_eq f5 : fieldF w 5 = num)] <;> rfl
  · rw [hk, decRaw_2lo e2 (hdrOf_eq hk e3 e4) (by decide)]; show ((unlessRes (zeros w 0 5) (.ok (.mts h (fieldF w 15) (fieldF w 5)))) : Except DecErr Instr) = _; rw [zeros_eq z0, (fieldF_eq f15 : fieldF w 15 = xA), (fieldF_eq f5 : fieldF w 5 = num)] <;> rfl
theorem RoundTrip.xidx (h : Hdr) (xD : XReg) (lvl : LevelF) : RoundTrip.Statement (.xidx h xD lvl) := by
  intro hw w he
  replace he := Option.some.inj he
  rw [List.sum_cons, List.sum_cons, List.sum_nil] at he
  simp only [encHdr, sh] at he
  obtain ⟨hl, e2, e3, e4, f15, f12, z0⟩ := shape_15x6_12x3_z0x12 he h.pr.isLt (boolNat_lt h.pn) xD.isLt lvl.isLt
  refine ⟨h.slot, rfl, hl, decodeSlot_ok ?_ hw⟩
  rcases at2 (and_left hw) with hk | hk
  · rw [hk, decRaw_1 e2 (hdrOf_eq hk e3 e4)]; show ((unlessRes (zeros w 0 12) (.ok (.xidx h (fieldF w 15) (fieldF w 12)))) : Except DecErr Instr) = _; rw [zeros_eq z0, (fieldF_eq f15 : fieldF w 15 = xD), (fieldF_eq f12 : fieldF w 12 = lvl)] <;> rfl
  · rw [hk, decRaw_2lo e2 (hdrOf_eq hk e3 e4) (by decide)]; show ((unlessRes (zeros w 0 12) (.ok (.xidx h (fieldF w 15) (fieldF w 12)))) : Except DecErr Instr) = _; rw [zeros_eq z0, (fieldF_eq f15 : fieldF w 15 = xD), (fieldF_eq f12 : fieldF w 12 = lvl)] <;> rfl
theorem RoundTrip.ldp (h : Hdr) (xD : XReg) (wn : Fin 8) (imm : Fin 4096) : RoundTrip.Statement (.ldp h xD wn imm) := by
  intro hw w he
  replace he := Option.some.inj he
  rw [List.sum_cons, List.sum_cons, List.sum_cons, List.sum_nil] at he
  simp only [encHdr, sh] at he
  obtain ⟨hl, e2, e3, e4, f15, f12, f0⟩ := shape_15x6_12x3_0x12 he h.pr.isLt (boolNat_lt h.pn) xD.isLt wn.isLt imm.isLt
  refine ⟨h.slot, rfl, hl, decodeSlot_ok ?_ hw⟩
  rcases at2 hw with hk | hk
  · rw [hk, decRaw_1 e2 (hdrOf_eq hk e3 e4)]; show ((.ok (.ldp h (fieldF w 15) (fieldF w 12) (fieldF w 0))) : Except DecErr Instr) = _; rw [(fieldF_eq f15 : fieldF w 15 = xD), (fieldF_eq f12 : fieldF w 12 = wn), (fieldF_eq f0 : fieldF w 0 = imm)] <;> rfl
  · rw [hk, decRaw_2lo e2 (hdrOf_eq hk e3 e4) (by decide)]; show ((.ok (.ldp h (fieldF w 15) (fieldF w 12) (fieldF w 0))) : Except DecErr Instr) = _; rw [(fieldF_eq f15 : fieldF w 15 = xD), (fieldF_eq f12 : fieldF w 12 = wn), (fieldF_eq f0 : fieldF w 0 = imm)] <;> rfl
theorem RoundTrip.ldpx (h : Hdr) (xD : XReg) (wn : Fin 8) (xA : XReg) : RoundTrip.Statement (.ldpx h xD wn xA) := by
  intro hw w he
  replace he := Option.some.inj he
  rw [List.sum_cons, List.sum_cons, List.sum_cons, List.sum_nil] at he
  simp only [encHdr, sh] at he
  obtain ⟨hl, e2, e3, e4, f15, f12, f6, z0⟩ := shape_15x6_12x3_6x6_z0x6 he h.pr.isLt (boolNat_lt h.pn) xD.isLt wn.isLt xA.isLt
  refine ⟨h.slot, rfl, hl, decodeSlot_ok ?_ hw⟩
  rcases at2 hw with hk | hk
  · rw [hk, decRaw_1 e2 (hdrOf_eq hk e3 e4)]; show ((unlessRes (zeros w 0 6) (.ok (.ldpx h (fieldF w 15) (fieldF w 12) (fieldF w 6)))) : Except DecErr Instr) = _; rw [zeros_eq z0, (fieldF_eq f15 : fieldF w 15 = xD), (fieldF_eq f12 : fieldF w 12 = wn), (fieldF_eq f6 : fieldF w 6 = xA)] <;> rfl
  · rw [hk, decRaw_2lo e2 (hdrOf_eq hk e3 e4) (by decide)]; show ((unlessRes (zeros w 0 6) (.ok (.ldpx h (fieldF w 15) (fieldF w 12) (fieldF w 6)))) : Except DecErr Instr) = _; rw [zeros_eq z0, (fieldF_eq f15 : fieldF w 15 = xD), (fieldF_eq f12 : fieldF w 12 = wn), (fieldF_eq f6 : fieldF w 6 = xA)] <;> rfl
theorem RoundTrip.oset (h : Hdr) (oD : OReg) (xA : XReg) : RoundTrip.Statement (.oset h oD xA) := by
  intro hw w he
  replace he := Option.some.inj he
  rw [List.sum_cons, List.sum_cons, List.sum_nil] at he
  simp only [encHdr, sh] at he
  obtain ⟨hl, e2, e3, e4, f17, f11, z0⟩ := shape_17x4_11x6_z0x11 he h.pr.isLt (boolNat_lt h.pn) oD.isLt xA.isLt
  refine ⟨h.slot, rfl, hl, decodeSlot_ok ?_ hw⟩
  have hk := at1 hw
  rw [hk, decRaw_2hi e2 (hdrOf_eq hk e3 e4) (by decide)]; show ((unlessRes (zeros w 0 11) (.ok (.oset h (fieldF w 17) (fieldF w 11)))) : Except DecErr Instr) = _; rw [zeros_eq z0, (fieldF_eq f17 : fieldF w 17 = oD), (fieldF_eq f11 : fieldF w 11 = xA)] <;> rfl
theorem RoundTrip.oaddi (h : Hdr) (oD : OReg) (imm : BitVec 17) : RoundTrip.Statement (.oaddi h oD imm) := by
  intro hw w he
  replace he := Option.some.inj he
  rw [List.sum_cons, List.sum_cons, List.sum_nil] at he
  simp only [encHdr, sh] at he
  obtain ⟨hl, e2, e3, e4, f17, f0⟩ := shape_17x4_0x17 he h.pr.isLt (boolNat_lt h.pn) oD.isLt imm.isLt
  refine ⟨h.slot, rfl, hl, decodeSlot_ok ?_ hw⟩
  have hk := at1 hw
  rw [hk, decRaw_2hi e2 (hdrOf_eq hk e3 e4) (by decide)]; show ((.ok (.oaddi h (fieldF w 17) (fieldB w 0))) : Except DecErr Instr) = _; rw [(fieldF_eq f17 : fieldF w 17 = oD), (fieldB_eq f0 : fieldB w 0 = imm)] <;> rfl
theorem RoundTrip.ostr (h : Hdr) (oD : OReg) (lvl : LevelF) (xA : XReg) : RoundTrip.Statement (.ostr h oD lvl xA) := by
  intro hw w he
  replace he := Option.some.inj he
  rw [List.sum_cons, List.sum_cons, List.sum_cons, List.sum_nil] at he
  simp only [encHdr, sh] at he
  obtain ⟨hl, e2, e3, e4, f17, f14, f8, z0⟩ := shape_17x4_14x3_8x6_z0x8 he h.pr.isLt (boolNat_lt h.pn) oD.isLt lvl.isLt xA.isLt
  refine ⟨h.slot, rfl, hl, decodeSlot_ok ?_ hw⟩
  have hk := at1 (and_left hw)
  rw [hk, decRaw_2hi e2 (hdrOf_eq hk e3 e4) (by decide)]; show ((unlessRes (zeros w 0 8) (.ok (.ostr h (fieldF w 17) (fieldF w 14) (fieldF w 8)))) : Except DecErr Instr) = _; rw [zeros_eq z0, (fieldF_eq f17 : fieldF w 17 = oD), (fieldF_eq f14 : fieldF w 14 = lvl), (fieldF_eq f8 : fieldF w 8 = xA)] <;> rfl
theorem RoundTrip.ord (h : Hdr) (xD : XReg) (oA : OReg) : RoundTrip.Statement (.ord h xD oA) := by
  intro hw w he
  replace he := Option.some.inj he
  rw [List.sum_cons, List.sum_cons, List.sum_nil] at he
  simp only [encHdr, sh] at he
  obtain ⟨hl, e2, e3, e4, f15, f11, z0⟩ := shape_15x6_11x4_z0x11 he h.pr.isLt (boolNat_lt h.pn) xD.isLt oA.isLt
  refine ⟨h.slot, rfl, hl, decodeSlot_ok ?_ hw⟩
  have hk := at1 hw
  rw [hk, decRaw_2hi e2 (hdrOf_eq hk e3 e4) (by decide)]; show ((unlessRes (zeros w 0 11) (.ok (.ord h (fieldF w 15) (fieldF w 11)))) : Except DecErr Instr) = _; rw [zeros_eq z0, (fieldF_eq f15 : fieldF w 15 = xD), (fieldF_eq f11 : fieldF w 11 = oA)] <;> rfl
theorem RoundTrip.brx (h : Hdr) (disp : BitVec 21) : RoundTrip.Statement (.brx h disp) := by
  intro hw w he
  replace he := Option.some.inj he
  rw [List.sum_cons, List.sum_nil] at he
  simp only [encHdr, sh] at he
  obtain ⟨hl, e2, e3, e4, f0⟩ := shape_0x21 he h.pr.isLt (boolNat_lt h.pn) disp.isLt
  refine ⟨h.slot, rfl, hl, decodeSlot_ok ?_ hw⟩
  have hk := at1 hw
  rw [hk, decRaw_2hi e2 (hdrOf_eq hk e3 e4) (by decide)]; show ((.ok (.brx h (fieldB w 0))) : Except DecErr Instr) = _; rw [(fieldB_eq f0 : fieldB w 0 = disp)] <;> rfl
theorem RoundTrip.hset (h : Hdr) (hD : HReg) (xA : XReg) (sel : Fin 16) : RoundTrip.Statement (.hset h hD xA sel) := by
  intro hw w he
  replace he := Option.some.inj he
  rw [List.sum_cons, List.sum_cons, List.sum_cons, List.sum_nil] at he
  simp only [encHdr, sh] at he
  obtain ⟨hl, e2, e3, e4, f15, f9, f5, z0⟩ := shape_15x6_9x6_5x4_z0x5 he h.pr.isLt (boolNat_lt h.pn) hD.isLt xA.isLt sel.isLt
  refine ⟨h.slot, rfl, hl, decodeSlot_ok ?_ hw⟩
  have hk := at1 (and_left hw)
  rw [hk, decRaw_2hi e2 (hdrOf_eq hk e3 e4) (by decide)]; show ((unlessRes (zeros w 0 5) (.ok (.hset h (fieldF w 15) (fieldF w 9) (fieldF w 5)))) : Except DecErr Instr) = _; rw [zeros_eq z0, (fieldF_eq f15 : fieldF w 15 = hD), (fieldF_eq f9 : fieldF w 9 = xA), (fieldF_eq f5 : fieldF w 5 = sel)] <;> rfl
theorem RoundTrip.hget (h : Hdr) (xD : XReg) (hA : HReg) (sel : Fin 16) : RoundTrip.Statement (.hget h xD hA sel) := by
  intro hw w he
  replace he := Option.some.inj he
  rw [List.sum_cons, List.sum_cons, List.sum_cons, List.sum_nil] at he
  simp only [encHdr, sh] at he
  obtain ⟨hl, e2, e3, e4, f15, f9, f5, z0⟩ := shape_15x6_9x6_5x4_z0x5 he h.pr.isLt (boolNat_lt h.pn) xD.isLt hA.isLt sel.isLt
  refine ⟨h.slot, rfl, hl, decodeSlot_ok ?_ hw⟩
  have hk := at1 (and_left hw)
  rw [hk, decRaw_2hi e2 (hdrOf_eq hk e3 e4) (by decide)]; show ((unlessRes (zeros w 0 5) (.ok (.hget h (fieldF w 15) (fieldF w 9) (fieldF w 5)))) : Except DecErr Instr) = _; rw [zeros_eq z0, (fieldF_eq f15 : fieldF w 15 = xD), (fieldF_eq f9 : fieldF w 9 = hA), (fieldF_eq f5 : fieldF w 5 = sel)] <;> rfl
theorem RoundTrip.hcpy (h : Hdr) (hD : HReg) (hA : HReg) : RoundTrip.Statement (.hcpy h hD hA) := by
  intro hw w he
  replace he := Option.some.inj he
  rw [List.sum_cons, List.sum_cons, List.sum_nil] at he
  simp only [encHdr, sh] at he
  obtain ⟨hl, e2, e3, e4, f15, f9, z0⟩ := shape_15x6_9x6_z0x9 he h.pr.isLt (boolNat_lt h.pn) hD.isLt hA.isLt
  refine ⟨h.slot, rfl, hl, decodeSlot_ok ?_ hw⟩
  have hk := at1 hw
  rw [hk, decRaw_2hi e2 (hdrOf_eq hk e3 e4) (by decide)]; show ((unlessRes (zeros w 0 9) (.ok (.hcpy h (fieldF w 15) (fieldF w 9)))) : Except DecErr Instr) = _; rw [zeros_eq z0, (fieldF_eq f15 : fieldF w 15 = hD), (fieldF_eq f9 : fieldF w 9 = hA)] <;> rfl
theorem RoundTrip.tld (h : Hdr) (tD : TReg) (xB : XReg) (oO : OReg) (byp : Bool) (land : Land) : RoundTrip.Statement (.tld h tD xB oO byp land) := by
  intro hw w he
  replace he := Option.some.inj he
  rw [List.sum_cons, List.sum_cons, List.sum_cons, List.sum_cons, List.sum_cons, List.sum_nil] at he
  simp only [encHdr, sh] at he
  obtain ⟨hl, e2, e3, e4, f14, f8, f4, f3, f0⟩ := shape_14x7_8x6_4x4_3x1_0x3 he h.pr.isLt (boolNat_lt h.pn) tD.isLt xB.isLt oO.isLt (boolNat_lt byp) land.isLt
  refine ⟨h.slot, rfl, hl, decodeSlot_ok ?_ hw⟩
  have hk := at1 hw
  rw [hk, decRaw_3 e2 (hdrOf_eq hk e3 e4)]; show ((.ok (.tld h (fieldF w 14) (fieldF w 8) (fieldF w 4) (fieldBit w 3) (fieldF w 0))) : Except DecErr Instr) = _; rw [(fieldF_eq f14 : fieldF w 14 = tD), (fieldF_eq f8 : fieldF w 8 = xB), (fieldF_eq f4 : fieldF w 4 = oO), (fieldBit_eq f3 : fieldBit w 3 = byp), (fieldF_eq f0 : fieldF w 0 = land)] <;> rfl
theorem RoundTrip.tst (h : Hdr) (tS : TReg) (xB : XReg) (oO : OReg) : RoundTrip.Statement (.tst h tS xB oO) := by
  intro hw w he
  replace he := Option.some.inj he
  rw [List.sum_cons, List.sum_cons, List.sum_cons, List.sum_nil] at he
  simp only [encHdr, sh] at he
  obtain ⟨hl, e2, e3, e4, f14, f8, f4, z0⟩ := shape_14x7_8x6_4x4_z0x4 he h.pr.isLt (boolNat_lt h.pn) tS.isLt xB.isLt oO.isLt
  refine ⟨h.slot, rfl, hl, decodeSlot_ok ?_ hw⟩
  have hk := at1 hw
  rw [hk, decRaw_3 e2 (hdrOf_eq hk e3 e4)]; show ((unlessRes (zeros w 0 4) (.ok (.tst h (fieldF w 14) (fieldF w 8) (fieldF w 4)))) : Except DecErr Instr) = _; rw [zeros_eq z0, (fieldF_eq f14 : fieldF w 14 = tS), (fieldF_eq f8 : fieldF w 8 = xB), (fieldF_eq f4 : fieldF w 4 = oO)] <;> rfl
theorem RoundTrip.tldh (h : Hdr) (tD : TReg) (hn : HReg) (og : Fin 4) (enf : Bool) (land : Land) : RoundTrip.Statement (.tldh h tD hn og enf land) := by
  intro hw w he
  replace he := Option.some.inj he
  rw [List.sum_cons, List.sum_cons, List.sum_cons, List.sum_cons, List.sum_cons, List.sum_nil] at he
  simp only [encHdr, sh] at he
  obtain ⟨hl, e2, e3, e4, f14, f8, f6, f5, f0, z3⟩ := shape_14x7_8x6_6x2_5x1_0x3_z3x2 he h.pr.isLt (boolNat_lt h.pn) tD.isLt hn.isLt og.isLt (boolNat_lt enf) land.isLt
  refine ⟨h.slot, rfl, hl, decodeSlot_ok ?_ hw⟩
  have hk := at1 hw
  rw [hk, decRaw_3 e2 (hdrOf_eq hk e3 e4)]; show ((unlessRes (zeros w 3 2) (.ok (.tldh h (fieldF w 14) (fieldF w 8) (fieldF w 6) (fieldBit w 5) (fieldF w 0)))) : Except DecErr Instr) = _; rw [zeros_eq z3, (fieldF_eq f14 : fieldF w 14 = tD), (fieldF_eq f8 : fieldF w 8 = hn), (fieldF_eq f6 : fieldF w 6 = og), (fieldBit_eq f5 : fieldBit w 5 = enf), (fieldF_eq f0 : fieldF w 0 = land)] <;> rfl
theorem RoundTrip.tsth (h : Hdr) (tS : TReg) (hn : HReg) (og : Fin 4) : RoundTrip.Statement (.tsth h tS hn og) := by
  intro hw w he
  replace he := Option.some.inj he
  rw [List.sum_cons, List.sum_cons, List.sum_cons, List.sum_nil] at he
  simp only [encHdr, sh] at he
  obtain ⟨hl, e2, e3, e4, f14, f8, f6, z0⟩ := shape_14x7_8x6_6x2_z0x6 he h.pr.isLt (boolNat_lt h.pn) tS.isLt hn.isLt og.isLt
  refine ⟨h.slot, rfl, hl, decodeSlot_ok ?_ hw⟩
  have hk := at1 hw
  rw [hk, decRaw_3 e2 (hdrOf_eq hk e3 e4)]; show ((unlessRes (zeros w 0 6) (.ok (.tsth h (fieldF w 14) (fieldF w 8) (fieldF w 6)))) : Except DecErr Instr) = _; rw [zeros_eq z0, (fieldF_eq f14 : fieldF w 14 = tS), (fieldF_eq f8 : fieldF w 8 = hn), (fieldF_eq f6 : fieldF w 6 = og)] <;> rfl
theorem RoundTrip.tldg (h : Hdr) (tD : TReg) (xB : XReg) (tI : TReg) (l7 : Bool) : RoundTrip.Statement (.tldg h tD xB tI l7) := by
  intro hw w he
  replace he := Option.some.inj he
  rw [List.sum_cons, List.sum_cons, List.sum_cons, List.sum_cons, List.sum_nil] at he
  simp only [encHdr, sh] at he
  obtain ⟨hl, e2, e3, e4, f14, f8, f1, f0⟩ := shape_14x7_8x6_1x7_0x1 he h.pr.isLt (boolNat_lt h.pn) tD.isLt xB.isLt tI.isLt (boolNat_lt l7)
  refine ⟨h.slot, rfl, hl, decodeSlot_ok ?_ hw⟩
  have hk := at1 hw
  rw [hk, decRaw_3 e2 (hdrOf_eq hk e3 e4)]; show ((.ok (.tldg h (fieldF w 14) (fieldF w 8) (fieldF w 1) (fieldBit w 0))) : Except DecErr Instr) = _; rw [(fieldF_eq f14 : fieldF w 14 = tD), (fieldF_eq f8 : fieldF w 8 = xB), (fieldF_eq f1 : fieldF w 1 = tI), (fieldBit_eq f0 : fieldBit w 0 = l7)] <;> rfl
theorem RoundTrip.tsts (h : Hdr) (tS : TReg) (xB : XReg) (tI : TReg) : RoundTrip.Statement (.tsts h tS xB tI) := by
  intro hw w he
  replace he := Option.some.inj he
  rw [List.sum_cons, List.sum_cons, List.sum_cons, List.sum_nil] at he
  simp only [encHdr, sh] at he
  obtain ⟨hl, e2, e3, e4, f14, f8, f1, z0⟩ := shape_14x7_8x6_1x7_z0x1 he h.pr.isLt (boolNat_lt h.pn) tS.isLt xB.isLt tI.isLt
  refine ⟨h.slot, rfl, hl, decodeSlot_ok ?_ hw⟩
  have hk := at1 hw
  rw [hk, decRaw_3 e2 (hdrOf_eq hk e3 e4)]; show ((unlessRes (zeros w 0 1) (.ok (.tsts h (fieldF w 14) (fieldF w 8) (fieldF w 1)))) : Except DecErr Instr) = _; rw [zeros_eq z0, (fieldF_eq f14 : fieldF w 14 = tS), (fieldF_eq f8 : fieldF w 8 = xB), (fieldF_eq f1 : fieldF w 1 = tI)] <;> rfl
theorem RoundTrip.tldx (h : Hdr) (tD : TReg) (xB : XReg) (oO : OReg) (land : Land) : RoundTrip.Statement (.tldx h tD xB oO land) := by
  intro hw w he
  replace he := Option.some.inj he
  rw [List.sum_cons, List.sum_cons, List.sum_cons, List.sum_cons, List.sum_nil] at he
  simp only [encHdr, sh] at he
  obtain ⟨hl, e2, e3, e4, f14, f8, f4, f0, z3⟩ := shape_14x7_8x6_4x4_0x3_z3x1 he h.pr.isLt (boolNat_lt h.pn) tD.isLt xB.isLt oO.isLt land.isLt
  refine ⟨h.slot, rfl, hl, decodeSlot_ok ?_ hw⟩
  have hk := at1 hw
  rw [hk, decRaw_3 e2 (hdrOf_eq hk e3 e4)]; show ((unlessRes (zeros w 3 1) (.ok (.tldx h (fieldF w 14) (fieldF w 8) (fieldF w 4) (fieldF w 0)))) : Except DecErr Instr) = _; rw [zeros_eq z3, (fieldF_eq f14 : fieldF w 14 = tD), (fieldF_eq f8 : fieldF w 8 = xB), (fieldF_eq f4 : fieldF w 4 = oO), (fieldF_eq f0 : fieldF w 0 = land)] <;> rfl
theorem RoundTrip.tldw (h : Hdr) (xD : XReg) (xB : XReg) (oO : OReg) (land : Land) : RoundTrip.Statement (.tldw h xD xB oO land) := by
  intro hw w he
  replace he := Option.some.inj he
  rw [List.sum_cons, List.sum_cons, List.sum_cons, List.sum_cons, List.sum_nil] at he
  simp only [encHdr, sh] at he
  obtain ⟨hl, e2, e3, e4, f15, f9, f5, f0, z3⟩ := shape_15x6_9x6_5x4_0x3_z3x2 he h.pr.isLt (boolNat_lt h.pn) xD.isLt xB.isLt oO.isLt land.isLt
  refine ⟨h.slot, rfl, hl, decodeSlot_ok ?_ hw⟩
  have hk := at1 (and_left hw)
  rw [hk, decRaw_3 e2 (hdrOf_eq hk e3 e4)]; show ((unlessRes (zeros w 3 2) (.ok (.tldw h (fieldF w 15) (fieldF w 9) (fieldF w 5) (fieldF w 0)))) : Except DecErr Instr) = _; rw [zeros_eq z3, (fieldF_eq f15 : fieldF w 15 = xD), (fieldF_eq f9 : fieldF w 9 = xB), (fieldF_eq f5 : fieldF w 5 = oO), (fieldF_eq f0 : fieldF w 0 = land)] <;> rfl
theorem RoundTrip.tshp (h : Hdr) (tD : TReg) (xA : XReg) : RoundTrip.Statement (.tshp h tD xA) := by
  intro hw w he
  replace he := Option.some.inj he
  rw [List.sum_cons, List.sum_cons, List.sum_nil] at he
  simp only [encHdr, sh] at he
  obtain ⟨hl, e2, e3, e4, f14, f8, z2, z0, z1⟩ := shape_14x7_8x6_z2x6_0x1_1x1 he h.pr.isLt (boolNat_lt h.pn) tD.isLt xA.isLt
  refine ⟨h.slot, rfl, hl, decodeSlot_ok ?_ hw⟩
  have hk := at1 hw
  rw [hk, decRaw_3 e2 (hdrOf_eq hk e3 e4)]; show ((if fieldBit w 1 then unlessRes (zeros w 0 1) (.ok (.tshpBound h (fieldF w 14) (fieldF w 8) (fieldF w 2))) else unlessRes (zeros w 2 6 && zeros w 0 1) (.ok (.tshp h (fieldF w 14) (fieldF w 8)))) : Except DecErr Instr) = _; rw [zeros_eq z2, zeros_eq z0, (fieldBit_eq (b := false) z1), (fieldF_eq f14 : fieldF w 14 = tD), (fieldF_eq f8 : fieldF w 8 = xA)] <;> rfl
theorem RoundTrip.tshpBound (h : Hdr) (tD : TReg) (xA : XReg) (hn : HReg) : RoundTrip.Statement (.tshpBound h tD xA hn) := by
  intro hw w he
  replace he := Option.some.inj he
  rw [List.sum_cons, List.sum_cons, List.sum_cons, List.sum_cons, List.sum_nil] at he
  simp only [encHdr, sh] at he
  obtain ⟨hl, e2, e3, e4, f14, f8, f2, f1, z0⟩ := shape_14x7_8x6_2x6_1x1_z0x1 he h.pr.isLt (boolNat_lt h.pn) tD.isLt xA.isLt hn.isLt (by decide)
  refine ⟨h.slot, rfl, hl, decodeSlot_ok ?_ hw⟩
  have hk := at1 hw
  rw [hk, decRaw_3 e2 (hdrOf_eq hk e3 e4)]; show ((if fieldBit w 1 then unlessRes (zeros w 0 1) (.ok (.tshpBound h (fieldF w 14) (fieldF w 8) (fieldF w 2))) else unlessRes (zeros w 2 6 && zeros w 0 1) (.ok (.tshp h (fieldF w 14) (fieldF w 8)))) : Except DecErr Instr) = _; rw [zeros_eq z0, (fieldF_eq f14 : fieldF w 14 = tD), (fieldF_eq f8 : fieldF w 8 = xA), (fieldF_eq f2 : fieldF w 2 = hn), (fieldBit_eq (b := true) f1)] <;> rfl
theorem RoundTrip.tzero (h : Hdr) (tD : TReg) : RoundTrip.Statement (.tzero h tD) := by
  intro hw w he
  replace he := Option.some.inj he
  rw [List.sum_cons, List.sum_nil] at he
  simp only [encHdr, sh] at he
  obtain ⟨hl, e2, e3, e4, f14, z0⟩ := shape_14x7_z0x14 he h.pr.isLt (boolNat_lt h.pn) tD.isLt
  refine ⟨h.slot, rfl, hl, decodeSlot_ok ?_ hw⟩
  have hk := at1 hw
  rw [hk, decRaw_3 e2 (hdrOf_eq hk e3 e4)]; show ((unlessRes (zeros w 0 14) (.ok (.tzero h (fieldF w 14)))) : Except DecErr Instr) = _; rw [zeros_eq z0, (fieldF_eq f14 : fieldF w 14 = tD)] <;> rfl
theorem RoundTrip.tempty (h : Hdr) (tD : TReg) : RoundTrip.Statement (.tempty h tD) := by
  intro hw w he
  replace he := Option.some.inj he
  rw [List.sum_cons, List.sum_nil] at he
  simp only [encHdr, sh] at he
  obtain ⟨hl, e2, e3, e4, f14, z0⟩ := shape_14x7_z0x14 he h.pr.isLt (boolNat_lt h.pn) tD.isLt
  refine ⟨h.slot, rfl, hl, decodeSlot_ok ?_ hw⟩
  have hk := at1 hw
  rw [hk, decRaw_3 e2 (hdrOf_eq hk e3 e4)]; show ((unlessRes (zeros w 0 14) (.ok (.tempty h (fieldF w 14)))) : Except DecErr Instr) = _; rw [zeros_eq z0, (fieldF_eq f14 : fieldF w 14 = tD)] <;> rfl
theorem RoundTrip.twarm (h : Hdr) (xN : XReg) (xB : XReg) (oO : OReg) (lvl : WarmLevel) : RoundTrip.Statement (.twarm h xN xB oO lvl) := by
  intro hw w he
  replace he := Option.some.inj he
  rw [List.sum_cons, List.sum_cons, List.sum_cons, List.sum_cons, List.sum_nil] at he
  simp only [encHdr, sh] at he
  obtain ⟨hl, e2, e3, e4, f15, f9, f5, f3, z0⟩ := shape_15x6_9x6_5x4_3x2_z0x3 he h.pr.isLt (boolNat_lt h.pn) xN.isLt xB.isLt oO.isLt (warmLevelCode_lt lvl)
  refine ⟨h.slot, rfl, hl, decodeSlot_ok ?_ hw⟩
  have hk := at1 hw
  rw [hk, decRaw_3 e2 (hdrOf_eq hk e3 e4)]; show ((unlessRes (zeros w 0 3) (withCode (warmLevelOf (w / 2 ^ 3 % 4)) fun lvl => .ok (.twarm h (fieldF w 15) (fieldF w 9) (fieldF w 5) lvl))) : Except DecErr Instr) = _; rw [zeros_eq z0, f3, warmLevelOf_code lvl, (fieldF_eq f15 : fieldF w 15 = xN), (fieldF_eq f9 : fieldF w 9 = xB), (fieldF_eq f5 : fieldF w 5 = oO)] <;> rfl
theorem RoundTrip.xchn (h : Hdr) (xD : XReg) (xA : XReg) (xC : XReg) : RoundTrip.Statement (.xchn h xD xA xC) := by
  intro hw w he
  replace he := Option.some.inj he
  rw [List.sum_cons, List.sum_cons, List.sum_cons, List.sum_nil] at he
  simp only [encHdr, sh] at he
  obtain ⟨hl, e2, e3, e4, f15, f9, f3, z0⟩ := shape_15x6_9x6_3x6_z0x3 he h.pr.isLt (boolNat_lt h.pn) xD.isLt xA.isLt xC.isLt
  refine ⟨h.slot, rfl, hl, decodeSlot_ok ?_ hw⟩
  have hk := at1 hw
  rw [hk, decRaw_3 e2 (hdrOf_eq hk e3 e4)]; show ((unlessRes (zeros w 0 3) (.ok (.xchn h (fieldF w 15) (fieldF w 9) (fieldF w 3)))) : Except DecErr Instr) = _; rw [zeros_eq z0, (fieldF_eq f15 : fieldF w 15 = xD), (fieldF_eq f9 : fieldF w 9 = xA), (fieldF_eq f3 : fieldF w 3 = xC)] <;> rfl
theorem RoundTrip.twm (h : Hdr) (xD : XReg) (xC : XReg) : RoundTrip.Statement (.twm h xD xC) := by
  intro hw w he
  replace he := Option.some.inj he
  rw [List.sum_cons, List.sum_cons, List.sum_nil] at he
  simp only [encHdr, sh] at he
  obtain ⟨hl, e2, e3, e4, f15, f9, z0⟩ := shape_15x6_9x6_z0x9 he h.pr.isLt (boolNat_lt h.pn) xD.isLt xC.isLt
  refine ⟨h.slot, rfl, hl, decodeSlot_ok ?_ hw⟩
  have hk := at1 hw
  rw [hk, decRaw_3 e2 (hdrOf_eq hk e3 e4)]; show ((unlessRes (zeros w 0 9) (.ok (.twm h (fieldF w 15) (fieldF w 9)))) : Except DecErr Instr) = _; rw [zeros_eq z0, (fieldF_eq f15 : fieldF w 15 = xD), (fieldF_eq f9 : fieldF w 9 = xC)] <;> rfl
theorem RoundTrip.mma (h : Hdr) (acc : AReg) (a : MOp) (b : MOp) (fs : Bool) : RoundTrip.Statement (.mma h acc a b fs) := by
  intro hw w he
  replace he := Option.some.inj he
  rw [List.sum_cons, List.sum_cons, List.sum_cons, List.sum_cons, List.sum_cons, List.sum_cons, List.sum_nil] at he
  simp only [encHdr, sh] at he
  obtain ⟨hl, e2, e3, e4, f19, f17, f10, f8, f1, f0⟩ := shape_19x2_17x2_10x7_8x2_1x7_0x1 he h.pr.isLt (boolNat_lt h.pn) acc.isLt (mopKind_lt a) (mopNum_lt a) (mopKind_lt b) (mopNum_lt b) (boolNat_lt fs)
  refine ⟨h.slot, rfl, hl, decodeSlot_ok ?_ hw⟩
  have hk := at1 hw
  rw [hk, decRaw_4 e2 (hdrOf_eq hk e3 e4)]; show ((withCode (mopOf (w / 2 ^ 17 % 4) (w / 2 ^ 10 % 128)) fun a => withCode (mopOf (w / 2 ^ 8 % 4) (w / 2 ^ 1 % 128)) fun b => .ok (.mma h (fieldF w 19) a b (fieldBit w 0))) : Except DecErr Instr) = _; rw [f17, f10, f8, f1, mopOf_code a, mopOf_code b, (fieldF_eq f19 : fieldF w 19 = acc), (fieldBit_eq f0 : fieldBit w 0 = fs)] <;> rfl
theorem RoundTrip.mmaz (h : Hdr) (acc : AReg) (a : MOp) (b : MOp) (fs : Bool) : RoundTrip.Statement (.mmaz h acc a b fs) := by
  intro hw w he
  replace he := Option.some.inj he
  rw [List.sum_cons, List.sum_cons, List.sum_cons, List.sum_cons, List.sum_cons, List.sum_cons, List.sum_nil] at he
  simp only [encHdr, sh] at he
  obtain ⟨hl, e2, e3, e4, f19, f17, f10, f8, f1, f0⟩ := shape_19x2_17x2_10x7_8x2_1x7_0x1 he h.pr.isLt (boolNat_lt h.pn) acc.isLt (mopKind_lt a) (mopNum_lt a) (mopKind_lt b) (mopNum_lt b) (boolNat_lt fs)
  refine ⟨h.slot, rfl, hl, decodeSlot_ok ?_ hw⟩
  have hk := at1 hw
  rw [hk, decRaw_4 e2 (hdrOf_eq hk e3 e4)]; show ((withCode (mopOf (w / 2 ^ 17 % 4) (w / 2 ^ 10 % 128)) fun a => withCode (mopOf (w / 2 ^ 8 % 4) (w / 2 ^ 1 % 128)) fun b => .ok (.mmaz h (fieldF w 19) a b (fieldBit w 0))) : Except DecErr Instr) = _; rw [f17, f10, f8, f1, mopOf_code a, mopOf_code b, (fieldF_eq f19 : fieldF w 19 = acc), (fieldBit_eq f0 : fieldBit w 0 = fs)] <;> rfl
theorem RoundTrip.mout (h : Hdr) (tD : TReg) (acc : AReg) (rm : RMode) (sat : Bool) : RoundTrip.Statement (.mout h tD acc rm sat) := by
  intro hw w he
  replace he := Option.some.inj he
  rw [List.sum_cons, List.sum_cons, List.sum_cons, List.sum_cons, List.sum_nil] at he
  simp only [encHdr, sh] at he
  obtain ⟨hl, e2, e3, e4, f14, f12, f9, f8, z0⟩ := shape_14x7_12x2_9x3_8x1_z0x8 he h.pr.isLt (boolNat_lt h.pn) tD.isLt acc.isLt (rModeCode_lt rm) (boolNat_lt sat)
  refine ⟨h.slot, rfl, hl, decodeSlot_ok ?_ hw⟩
  have hk := at1 hw
  rw [hk, decRaw_4 e2 (hdrOf_eq hk e3 e4)]; show ((unlessRes (zeros w 0 8) (withCode (rModeOf (w / 2 ^ 9 % 8)) fun rm => .ok (.mout h (fieldF w 14) (fieldF w 12) rm (fieldBit w 8)))) : Except DecErr Instr) = _; rw [zeros_eq z0, f9, rModeOf_code rm, (fieldF_eq f14 : fieldF w 14 = tD), (fieldF_eq f12 : fieldF w 12 = acc), (fieldBit_eq f8 : fieldBit w 8 = sat)] <;> rfl
theorem RoundTrip.mrd (h : Hdr) (tD : TReg) (acc : AReg) (xD : XReg) : RoundTrip.Statement (.mrd h tD acc xD) := by
  intro hw w he
  replace he := Option.some.inj he
  rw [List.sum_cons, List.sum_cons, List.sum_cons, List.sum_nil] at he
  simp only [encHdr, sh] at he
  obtain ⟨hl, e2, e3, e4, f14, f12, f6, z0⟩ := shape_14x7_12x2_6x6_z0x6 he h.pr.isLt (boolNat_lt h.pn) tD.isLt acc.isLt xD.isLt
  refine ⟨h.slot, rfl, hl, decodeSlot_ok ?_ hw⟩
  have hk := at1 hw
  rw [hk, decRaw_4 e2 (hdrOf_eq hk e3 e4)]; show ((unlessRes (zeros w 0 6) (.ok (.mrd h (fieldF w 14) (fieldF w 12) (fieldF w 6)))) : Except DecErr Instr) = _; rw [zeros_eq z0, (fieldF_eq f14 : fieldF w 14 = tD), (fieldF_eq f12 : fieldF w 12 = acc), (fieldF_eq f6 : fieldF w 6 = xD)] <;> rfl
theorem RoundTrip.mclr (h : Hdr) (acc : AReg) : RoundTrip.Statement (.mclr h acc) := by
  intro hw w he
  replace he := Option.some.inj he
  rw [List.sum_cons, List.sum_nil] at he
  simp only [encHdr, sh] at he
  obtain ⟨hl, e2, e3, e4, f19, z0⟩ := shape_19x2_z0x19 he h.pr.isLt (boolNat_lt h.pn) acc.isLt
  refine ⟨h.slot, rfl, hl, decodeSlot_ok ?_ hw⟩
  have hk := at1 hw
  rw [hk, decRaw_4 e2 (hdrOf_eq hk e3 e4)]; show ((unlessRes (zeros w 0 19) (.ok (.mclr h (fieldF w 19)))) : Except DecErr Instr) = _; rw [zeros_eq z0, (fieldF_eq f19 : fieldF w 19 = acc)] <;> rfl
theorem RoundTrip.mcop (h : Hdr) (xA : XReg) : RoundTrip.Statement (.mcop h xA) := by
  intro hw w he
  replace he := Option.some.inj he
  rw [List.sum_cons, List.sum_nil] at he
  simp only [encHdr, sh] at he
  obtain ⟨hl, e2, e3, e4, f15, z0⟩ := shape_15x6_z0x15 he h.pr.isLt (boolNat_lt h.pn) xA.isLt
  refine ⟨h.slot, rfl, hl, decodeSlot_ok ?_ hw⟩
  have hk := at1 hw
  rw [hk, decRaw_4 e2 (hdrOf_eq hk e3 e4)]; show ((unlessRes (zeros w 0 15) (.ok (.mcop h (fieldF w 15)))) : Except DecErr Instr) = _; rw [zeros_eq z0, (fieldF_eq f15 : fieldF w 15 = xA)] <;> rfl
theorem RoundTrip.mfeed (h : Hdr) (acc : AReg) (a : MOp) : RoundTrip.Statement (.mfeed h acc a) := by
  intro hw w he
  replace he := Option.some.inj he
  rw [List.sum_cons, List.sum_cons, List.sum_cons, List.sum_nil] at he
  simp only [encHdr, sh] at he
  obtain ⟨hl, e2, e3, e4, f19, f17, f10, z0⟩ := shape_19x2_17x2_10x7_z0x10 he h.pr.isLt (boolNat_lt h.pn) acc.isLt (mopKind_lt a) (mopNum_lt a)
  refine ⟨h.slot, rfl, hl, decodeSlot_ok ?_ hw⟩
  have hk := at1 hw
  rw [hk, decRaw_4 e2 (hdrOf_eq hk e3 e4)]; show ((unlessRes (zeros w 0 10) (withCode (mopOf (w / 2 ^ 17 % 4) (w / 2 ^ 10 % 128)) fun a => .ok (.mfeed h (fieldF w 19) a))) : Except DecErr Instr) = _; rw [zeros_eq z0, f17, f10, mopOf_code a, (fieldF_eq f19 : fieldF w 19 = acc)] <;> rfl
theorem RoundTrip.mfmt (h : Hdr) (lvl : LevelF) : RoundTrip.Statement (.mfmt h lvl) := by
  intro hw w he
  replace he := Option.some.inj he
  rw [List.sum_cons, List.sum_nil] at he
  simp only [encHdr, sh] at he
  obtain ⟨hl, e2, e3, e4, f18, z0⟩ := shape_18x3_z0x18 he h.pr.isLt (boolNat_lt h.pn) lvl.isLt
  refine ⟨h.slot, rfl, hl, decodeSlot_ok ?_ hw⟩
  have hk := at1 (and_left hw)
  rw [hk, decRaw_4 e2 (hdrOf_eq hk e3 e4)]; show ((unlessRes (zeros w 0 18) (.ok (.mfmt h (fieldF w 18)))) : Except DecErr Instr) = _; rw [zeros_eq z0, (fieldF_eq f18 : fieldF w 18 = lvl)] <;> rfl
theorem RoundTrip.vadd (h : Hdr) (tD : TReg) (tA : TReg) (tB : TReg) : RoundTrip.Statement (.vadd h tD tA tB) := by
  intro hw w he
  replace he := Option.some.inj he
  rw [List.sum_cons, List.sum_cons, List.sum_cons, List.sum_nil] at he
  simp only [encHdr, sh] at he
  obtain ⟨hl, e2, e3, e4, f14, f7, f0⟩ := shape_14x7_7x7_0x7 he h.pr.isLt (boolNat_lt h.pn) tD.isLt tA.isLt tB.isLt
  refine ⟨h.slot, rfl, hl, decodeSlot_ok ?_ hw⟩
  rcases at2 hw with hk | hk
  · rw [hk, decRaw_5 e2 (hdrOf_eq hk e3 e4)]; show ((.ok (.vadd h (fieldF w 14) (fieldF w 7) (fieldF w 0))) : Except DecErr Instr) = _; rw [(fieldF_eq f14 : fieldF w 14 = tD), (fieldF_eq f7 : fieldF w 7 = tA), (fieldF_eq f0 : fieldF w 0 = tB)] <;> rfl
  · rw [hk, decRaw_6lo e2 (hdrOf_eq hk e3 e4) (by decide)]; show ((.ok (.vadd h (fieldF w 14) (fieldF w 7) (fieldF w 0))) : Except DecErr Instr) = _; rw [(fieldF_eq f14 : fieldF w 14 = tD), (fieldF_eq f7 : fieldF w 7 = tA), (fieldF_eq f0 : fieldF w 0 = tB)] <;> rfl
theorem RoundTrip.vsub (h : Hdr) (tD : TReg) (tA : TReg) (tB : TReg) : RoundTrip.Statement (.vsub h tD tA tB) := by
  intro hw w he
  replace he := Option.some.inj he
  rw [List.sum_cons, List.sum_cons, List.sum_cons, List.sum_nil] at he
  simp only [encHdr, sh] at he
  obtain ⟨hl, e2, e3, e4, f14, f7, f0⟩ := shape_14x7_7x7_0x7 he h.pr.isLt (boolNat_lt h.pn) tD.isLt tA.isLt tB.isLt
  refine ⟨h.slot, rfl, hl, decodeSlot_ok ?_ hw⟩
  rcases at2 hw with hk | hk
  · rw [hk, decRaw_5 e2 (hdrOf_eq hk e3 e4)]; show ((.ok (.vsub h (fieldF w 14) (fieldF w 7) (fieldF w 0))) : Except DecErr Instr) = _; rw [(fieldF_eq f14 : fieldF w 14 = tD), (fieldF_eq f7 : fieldF w 7 = tA), (fieldF_eq f0 : fieldF w 0 = tB)] <;> rfl
  · rw [hk, decRaw_6lo e2 (hdrOf_eq hk e3 e4) (by decide)]; show ((.ok (.vsub h (fieldF w 14) (fieldF w 7) (fieldF w 0))) : Except DecErr Instr) = _; rw [(fieldF_eq f14 : fieldF w 14 = tD), (fieldF_eq f7 : fieldF w 7 = tA), (fieldF_eq f0 : fieldF w 0 = tB)] <;> rfl
theorem RoundTrip.vmul (h : Hdr) (tD : TReg) (tA : TReg) (tB : TReg) : RoundTrip.Statement (.vmul h tD tA tB) := by
  intro hw w he
  replace he := Option.some.inj he
  rw [List.sum_cons, List.sum_cons, List.sum_cons, List.sum_nil] at he
  simp only [encHdr, sh] at he
  obtain ⟨hl, e2, e3, e4, f14, f7, f0⟩ := shape_14x7_7x7_0x7 he h.pr.isLt (boolNat_lt h.pn) tD.isLt tA.isLt tB.isLt
  refine ⟨h.slot, rfl, hl, decodeSlot_ok ?_ hw⟩
  rcases at2 hw with hk | hk
  · rw [hk, decRaw_5 e2 (hdrOf_eq hk e3 e4)]; show ((.ok (.vmul h (fieldF w 14) (fieldF w 7) (fieldF w 0))) : Except DecErr Instr) = _; rw [(fieldF_eq f14 : fieldF w 14 = tD), (fieldF_eq f7 : fieldF w 7 = tA), (fieldF_eq f0 : fieldF w 0 = tB)] <;> rfl
  · rw [hk, decRaw_6lo e2 (hdrOf_eq hk e3 e4) (by decide)]; show ((.ok (.vmul h (fieldF w 14) (fieldF w 7) (fieldF w 0))) : Except DecErr Instr) = _; rw [(fieldF_eq f14 : fieldF w 14 = tD), (fieldF_eq f7 : fieldF w 7 = tA), (fieldF_eq f0 : fieldF w 0 = tB)] <;> rfl
theorem RoundTrip.vfma (h : Hdr) (tD : TReg) (tA : TReg) (tB : TReg) : RoundTrip.Statement (.vfma h tD tA tB) := by
  intro hw w he
  replace he := Option.some.inj he
  rw [List.sum_cons, List.sum_cons, List.sum_cons, List.sum_nil] at he
  simp only [encHdr, sh] at he
  obtain ⟨hl, e2, e3, e4, f14, f7, f0⟩ := shape_14x7_7x7_0x7 he h.pr.isLt (boolNat_lt h.pn) tD.isLt tA.isLt tB.isLt
  refine ⟨h.slot, rfl, hl, decodeSlot_ok ?_ hw⟩
  rcases at2 hw with hk | hk
  · rw [hk, decRaw_5 e2 (hdrOf_eq hk e3 e4)]; show ((.ok (.vfma h (fieldF w 14) (fieldF w 7) (fieldF w 0))) : Except DecErr Instr) = _; rw [(fieldF_eq f14 : fieldF w 14 = tD), (fieldF_eq f7 : fieldF w 7 = tA), (fieldF_eq f0 : fieldF w 0 = tB)] <;> rfl
  · rw [hk, decRaw_6lo e2 (hdrOf_eq hk e3 e4) (by decide)]; show ((.ok (.vfma h (fieldF w 14) (fieldF w 7) (fieldF w 0))) : Except DecErr Instr) = _; rw [(fieldF_eq f14 : fieldF w 14 = tD), (fieldF_eq f7 : fieldF w 7 = tA), (fieldF_eq f0 : fieldF w 0 = tB)] <;> rfl
theorem RoundTrip.vmax (h : Hdr) (tD : TReg) (tA : TReg) (tB : TReg) : RoundTrip.Statement (.vmax h tD tA tB) := by
  intro hw w he
  replace he := Option.some.inj he
  rw [List.sum_cons, List.sum_cons, List.sum_cons, List.sum_nil] at he
  simp only [encHdr, sh] at he
  obtain ⟨hl, e2, e3, e4, f14, f7, f0⟩ := shape_14x7_7x7_0x7 he h.pr.isLt (boolNat_lt h.pn) tD.isLt tA.isLt tB.isLt
  refine ⟨h.slot, rfl, hl, decodeSlot_ok ?_ hw⟩
  rcases at2 hw with hk | hk
  · rw [hk, decRaw_5 e2 (hdrOf_eq hk e3 e4)]; show ((.ok (.vmax h (fieldF w 14) (fieldF w 7) (fieldF w 0))) : Except DecErr Instr) = _; rw [(fieldF_eq f14 : fieldF w 14 = tD), (fieldF_eq f7 : fieldF w 7 = tA), (fieldF_eq f0 : fieldF w 0 = tB)] <;> rfl
  · rw [hk, decRaw_6lo e2 (hdrOf_eq hk e3 e4) (by decide)]; show ((.ok (.vmax h (fieldF w 14) (fieldF w 7) (fieldF w 0))) : Except DecErr Instr) = _; rw [(fieldF_eq f14 : fieldF w 14 = tD), (fieldF_eq f7 : fieldF w 7 = tA), (fieldF_eq f0 : fieldF w 0 = tB)] <;> rfl
theorem RoundTrip.vmin (h : Hdr) (tD : TReg) (tA : TReg) (tB : TReg) : RoundTrip.Statement (.vmin h tD tA tB) := by
  intro hw w he
  replace he := Option.some.inj he
  rw [List.sum_cons, List.sum_cons, List.sum_cons, List.sum_nil] at he
  simp only [encHdr, sh] at he
  obtain ⟨hl, e2, e3, e4, f14, f7, f0⟩ := shape_14x7_7x7_0x7 he h.pr.isLt (boolNat_lt h.pn) tD.isLt tA.isLt tB.isLt
  refine ⟨h.slot, rfl, hl, decodeSlot_ok ?_ hw⟩
  rcases at2 hw with hk | hk
  · rw [hk, decRaw_5 e2 (hdrOf_eq hk e3 e4)]; show ((.ok (.vmin h (fieldF w 14) (fieldF w 7) (fieldF w 0))) : Except DecErr Instr) = _; rw [(fieldF_eq f14 : fieldF w 14 = tD), (fieldF_eq f7 : fieldF w 7 = tA), (fieldF_eq f0 : fieldF w 0 = tB)] <;> rfl
  · rw [hk, decRaw_6lo e2 (hdrOf_eq hk e3 e4) (by decide)]; show ((.ok (.vmin h (fieldF w 14) (fieldF w 7) (fieldF w 0))) : Except DecErr Instr) = _; rw [(fieldF_eq f14 : fieldF w 14 = tD), (fieldF_eq f7 : fieldF w 7 = tA), (fieldF_eq f0 : fieldF w 0 = tB)] <;> rfl
theorem RoundTrip.vabs (h : Hdr) (tD : TReg) (tA : TReg) : RoundTrip.Statement (.vabs h tD tA) := by
  intro hw w he
  replace he := Option.some.inj he
  rw [List.sum_cons, List.sum_cons, List.sum_nil] at he
  simp only [encHdr, sh] at he
  obtain ⟨hl, e2, e3, e4, f14, f7, z0⟩ := shape_14x7_7x7_z0x7 he h.pr.isLt (boolNat_lt h.pn) tD.isLt tA.isLt
  refine ⟨h.slot, rfl, hl, decodeSlot_ok ?_ hw⟩
  rcases at2 hw with hk | hk
  · rw [hk, decRaw_5 e2 (hdrOf_eq hk e3 e4)]; show ((unlessRes (zeros w 0 7) (.ok (.vabs h (fieldF w 14) (fieldF w 7)))) : Except DecErr Instr) = _; rw [zeros_eq z0, (fieldF_eq f14 : fieldF w 14 = tD), (fieldF_eq f7 : fieldF w 7 = tA)] <;> rfl
  · rw [hk, decRaw_6lo e2 (hdrOf_eq hk e3 e4) (by decide)]; show ((unlessRes (zeros w 0 7) (.ok (.vabs h (fieldF w 14) (fieldF w 7)))) : Except DecErr Instr) = _; rw [zeros_eq z0, (fieldF_eq f14 : fieldF w 14 = tD), (fieldF_eq f7 : fieldF w 7 = tA)] <;> rfl
theorem RoundTrip.vneg (h : Hdr) (tD : TReg) (tA : TReg) : RoundTrip.Statement (.vneg h tD tA) := by
  intro hw w he
  replace he := Option.some.inj he
  rw [List.sum_cons, List.sum_cons, List.sum_nil] at he
  simp only [encHdr, sh] at he
  obtain ⟨hl, e2, e3, e4, f14, f7, z0⟩ := shape_14x7_7x7_z0x7 he h.pr.isLt (boolNat_lt h.pn) tD.isLt tA.isLt
  refine ⟨h.slot, rfl, hl, decodeSlot_ok ?_ hw⟩
  rcases at2 hw with hk | hk
  · rw [hk, decRaw_5 e2 (hdrOf_eq hk e3 e4)]; show ((unlessRes (zeros w 0 7) (.ok (.vneg h (fieldF w 14) (fieldF w 7)))) : Except DecErr Instr) = _; rw [zeros_eq z0, (fieldF_eq f14 : fieldF w 14 = tD), (fieldF_eq f7 : fieldF w 7 = tA)] <;> rfl
  · rw [hk, decRaw_6lo e2 (hdrOf_eq hk e3 e4) (by decide)]; show ((unlessRes (zeros w 0 7) (.ok (.vneg h (fieldF w 14) (fieldF w 7)))) : Except DecErr Instr) = _; rw [zeros_eq z0, (fieldF_eq f14 : fieldF w 14 = tD), (fieldF_eq f7 : fieldF w 7 = tA)] <;> rfl
theorem RoundTrip.vrcp (h : Hdr) (tD : TReg) (tA : TReg) (rm : RMode) (sat : Bool) : RoundTrip.Statement (.vrcp h tD tA rm sat) := by
  intro hw w he
  replace he := Option.some.inj he
  rw [List.sum_cons, List.sum_cons, List.sum_cons, List.sum_cons, List.sum_nil] at he
  simp only [encHdr, sh] at he
  obtain ⟨hl, e2, e3, e4, f14, f7, f4, f3, z0⟩ := shape_14x7_7x7_4x3_3x1_z0x3 he h.pr.isLt (boolNat_lt h.pn) tD.isLt tA.isLt (rModeCode_lt rm) (boolNat_lt sat)
  refine ⟨h.slot, rfl, hl, decodeSlot_ok ?_ hw⟩
  rcases at2 hw with hk | hk
  · rw [hk, decRaw_5 e2 (hdrOf_eq hk e3 e4)]; show ((unlessRes (zeros w 0 3) (withCode (rModeOf (w / 2 ^ 4 % 8)) fun rm => .ok (.vrcp h (fieldF w 14) (fieldF w 7) rm (fieldBit w 3)))) : Except DecErr Instr) = _; rw [zeros_eq z0, f4, rModeOf_code rm, (fieldF_eq f14 : fieldF w 14 = tD), (fieldF_eq f7 : fieldF w 7 = tA), (fieldBit_eq f3 : fieldBit w 3 = sat)] <;> rfl
  · rw [hk, decRaw_6lo e2 (hdrOf_eq hk e3 e4) (by decide)]; show ((unlessRes (zeros w 0 3) (withCode (rModeOf (w / 2 ^ 4 % 8)) fun rm => .ok (.vrcp h (fieldF w 14) (fieldF w 7) rm (fieldBit w 3)))) : Except DecErr Instr) = _; rw [zeros_eq z0, f4, rModeOf_code rm, (fieldF_eq f14 : fieldF w 14 = tD), (fieldF_eq f7 : fieldF w 7 = tA), (fieldBit_eq f3 : fieldBit w 3 = sat)] <;> rfl
theorem RoundTrip.vrsq (h : Hdr) (tD : TReg) (tA : TReg) (rm : RMode) (sat : Bool) : RoundTrip.Statement (.vrsq h tD tA rm sat) := by
  intro hw w he
  replace he := Option.some.inj he
  rw [List.sum_cons, List.sum_cons, List.sum_cons, List.sum_cons, List.sum_nil] at he
  simp only [encHdr, sh] at he
  obtain ⟨hl, e2, e3, e4, f14, f7, f4, f3, z0⟩ := shape_14x7_7x7_4x3_3x1_z0x3 he h.pr.isLt (boolNat_lt h.pn) tD.isLt tA.isLt (rModeCode_lt rm) (boolNat_lt sat)
  refine ⟨h.slot, rfl, hl, decodeSlot_ok ?_ hw⟩
  rcases at2 hw with hk | hk
  · rw [hk, decRaw_5 e2 (hdrOf_eq hk e3 e4)]; show ((unlessRes (zeros w 0 3) (withCode (rModeOf (w / 2 ^ 4 % 8)) fun rm => .ok (.vrsq h (fieldF w 14) (fieldF w 7) rm (fieldBit w 3)))) : Except DecErr Instr) = _; rw [zeros_eq z0, f4, rModeOf_code rm, (fieldF_eq f14 : fieldF w 14 = tD), (fieldF_eq f7 : fieldF w 7 = tA), (fieldBit_eq f3 : fieldBit w 3 = sat)] <;> rfl
  · rw [hk, decRaw_6lo e2 (hdrOf_eq hk e3 e4) (by decide)]; show ((unlessRes (zeros w 0 3) (withCode (rModeOf (w / 2 ^ 4 % 8)) fun rm => .ok (.vrsq h (fieldF w 14) (fieldF w 7) rm (fieldBit w 3)))) : Except DecErr Instr) = _; rw [zeros_eq z0, f4, rModeOf_code rm, (fieldF_eq f14 : fieldF w 14 = tD), (fieldF_eq f7 : fieldF w 7 = tA), (fieldBit_eq f3 : fieldBit w 3 = sat)] <;> rfl
theorem RoundTrip.vsqrt (h : Hdr) (tD : TReg) (tA : TReg) (rm : RMode) (sat : Bool) : RoundTrip.Statement (.vsqrt h tD tA rm sat) := by
  intro hw w he
  replace he := Option.some.inj he
  rw [List.sum_cons, List.sum_cons, List.sum_cons, List.sum_cons, List.sum_nil] at he
  simp only [encHdr, sh] at he
  obtain ⟨hl, e2, e3, e4, f14, f7, f4, f3, z0⟩ := shape_14x7_7x7_4x3_3x1_z0x3 he h.pr.isLt (boolNat_lt h.pn) tD.isLt tA.isLt (rModeCode_lt rm) (boolNat_lt sat)
  refine ⟨h.slot, rfl, hl, decodeSlot_ok ?_ hw⟩
  rcases at2 hw with hk | hk
  · rw [hk, decRaw_5 e2 (hdrOf_eq hk e3 e4)]; show ((unlessRes (zeros w 0 3) (withCode (rModeOf (w / 2 ^ 4 % 8)) fun rm => .ok (.vsqrt h (fieldF w 14) (fieldF w 7) rm (fieldBit w 3)))) : Except DecErr Instr) = _; rw [zeros_eq z0, f4, rModeOf_code rm, (fieldF_eq f14 : fieldF w 14 = tD), (fieldF_eq f7 : fieldF w 7 = tA), (fieldBit_eq f3 : fieldBit w 3 = sat)] <;> rfl
  · rw [hk, decRaw_6lo e2 (hdrOf_eq hk e3 e4) (by decide)]; show ((unlessRes (zeros w 0 3) (withCode (rModeOf (w / 2 ^ 4 % 8)) fun rm => .ok (.vsqrt h (fieldF w 14) (fieldF w 7) rm (fieldBit w 3)))) : Except DecErr Instr) = _; rw [zeros_eq z0, f4, rModeOf_code rm, (fieldF_eq f14 : fieldF w 14 = tD), (fieldF_eq f7 : fieldF w 7 = tA), (fieldBit_eq f3 : fieldBit w 3 = sat)] <;> rfl
theorem RoundTrip.vexp2 (h : Hdr) (tD : TReg) (tA : TReg) (rm : RMode) (sat : Bool) : RoundTrip.Statement (.vexp2 h tD tA rm sat) := by
  intro hw w he
  replace he := Option.some.inj he
  rw [List.sum_cons, List.sum_cons, List.sum_cons, List.sum_cons, List.sum_nil] at he
  simp only [encHdr, sh] at he
  obtain ⟨hl, e2, e3, e4, f14, f7, f4, f3, z0⟩ := shape_14x7_7x7_4x3_3x1_z0x3 he h.pr.isLt (boolNat_lt h.pn) tD.isLt tA.isLt (rModeCode_lt rm) (boolNat_lt sat)
  refine ⟨h.slot, rfl, hl, decodeSlot_ok ?_ hw⟩
  rcases at2 hw with hk | hk
  · rw [hk, decRaw_5 e2 (hdrOf_eq hk e3 e4)]; show ((unlessRes (zeros w 0 3) (withCode (rModeOf (w / 2 ^ 4 % 8)) fun rm => .ok (.vexp2 h (fieldF w 14) (fieldF w 7) rm (fieldBit w 3)))) : Except DecErr Instr) = _; rw [zeros_eq z0, f4, rModeOf_code rm, (fieldF_eq f14 : fieldF w 14 = tD), (fieldF_eq f7 : fieldF w 7 = tA), (fieldBit_eq f3 : fieldBit w 3 = sat)] <;> rfl
  · rw [hk, decRaw_6lo e2 (hdrOf_eq hk e3 e4) (by decide)]; show ((unlessRes (zeros w 0 3) (withCode (rModeOf (w / 2 ^ 4 % 8)) fun rm => .ok (.vexp2 h (fieldF w 14) (fieldF w 7) rm (fieldBit w 3)))) : Except DecErr Instr) = _; rw [zeros_eq z0, f4, rModeOf_code rm, (fieldF_eq f14 : fieldF w 14 = tD), (fieldF_eq f7 : fieldF w 7 = tA), (fieldBit_eq f3 : fieldBit w 3 = sat)] <;> rfl
theorem RoundTrip.vlog2 (h : Hdr) (tD : TReg) (tA : TReg) (rm : RMode) (sat : Bool) : RoundTrip.Statement (.vlog2 h tD tA rm sat) := by
  intro hw w he
  replace he := Option.some.inj he
  rw [List.sum_cons, List.sum_cons, List.sum_cons, List.sum_cons, List.sum_nil] at he
  simp only [encHdr, sh] at he
  obtain ⟨hl, e2, e3, e4, f14, f7, f4, f3, z0⟩ := shape_14x7_7x7_4x3_3x1_z0x3 he h.pr.isLt (boolNat_lt h.pn) tD.isLt tA.isLt (rModeCode_lt rm) (boolNat_lt sat)
  refine ⟨h.slot, rfl, hl, decodeSlot_ok ?_ hw⟩
  rcases at2 hw with hk | hk
  · rw [hk, decRaw_5 e2 (hdrOf_eq hk e3 e4)]; show ((unlessRes (zeros w 0 3) (withCode (rModeOf (w / 2 ^ 4 % 8)) fun rm => .ok (.vlog2 h (fieldF w 14) (fieldF w 7) rm (fieldBit w 3)))) : Except DecErr Instr) = _; rw [zeros_eq z0, f4, rModeOf_code rm, (fieldF_eq f14 : fieldF w 14 = tD), (fieldF_eq f7 : fieldF w 7 = tA), (fieldBit_eq f3 : fieldBit w 3 = sat)] <;> rfl
  · rw [hk, decRaw_6lo e2 (hdrOf_eq hk e3 e4) (by decide)]; show ((unlessRes (zeros w 0 3) (withCode (rModeOf (w / 2 ^ 4 % 8)) fun rm => .ok (.vlog2 h (fieldF w 14) (fieldF w 7) rm (fieldBit w 3)))) : Except DecErr Instr) = _; rw [zeros_eq z0, f4, rModeOf_code rm, (fieldF_eq f14 : fieldF w 14 = tD), (fieldF_eq f7 : fieldF w 7 = tA), (fieldBit_eq f3 : fieldBit w 3 = sat)] <;> rfl
theorem RoundTrip.vcvt (h : Hdr) (tD : TReg) (tA : TReg) (rm : RMode) (sat : Bool) : RoundTrip.Statement (.vcvt h tD tA rm sat) := by
  intro hw w he
  replace he := Option.some.inj he
  rw [List.sum_cons, List.sum_cons, List.sum_cons, List.sum_cons, List.sum_nil] at he
  simp only [encHdr, sh] at he
  obtain ⟨hl, e2, e3, e4, f14, f7, f4, f3, z0⟩ := shape_14x7_7x7_4x3_3x1_z0x3 he h.pr.isLt (boolNat_lt h.pn) tD.isLt tA.isLt (rModeCode_lt rm) (boolNat_lt sat)
  refine ⟨h.slot, rfl, hl, decodeSlot_ok ?_ hw⟩
  rcases at2 hw with hk | hk
  · rw [hk, decRaw_5 e2 (hdrOf_eq hk e3 e4)]; show ((unlessRes (zeros w 0 3) (withCode (rModeOf (w / 2 ^ 4 % 8)) fun rm => .ok (.vcvt h (fieldF w 14) (fieldF w 7) rm (fieldBit w 3)))) : Except DecErr Instr) = _; rw [zeros_eq z0, f4, rModeOf_code rm, (fieldF_eq f14 : fieldF w 14 = tD), (fieldF_eq f7 : fieldF w 7 = tA), (fieldBit_eq f3 : fieldBit w 3 = sat)] <;> rfl
  · rw [hk, decRaw_6lo e2 (hdrOf_eq hk e3 e4) (by decide)]; show ((unlessRes (zeros w 0 3) (withCode (rModeOf (w / 2 ^ 4 % 8)) fun rm => .ok (.vcvt h (fieldF w 14) (fieldF w 7) rm (fieldBit w 3)))) : Except DecErr Instr) = _; rw [zeros_eq z0, f4, rModeOf_code rm, (fieldF_eq f14 : fieldF w 14 = tD), (fieldF_eq f7 : fieldF w 7 = tA), (fieldBit_eq f3 : fieldBit w 3 = sat)] <;> rfl
theorem RoundTrip.vand (h : Hdr) (tD : TReg) (tA : TReg) (tB : TReg) : RoundTrip.Statement (.vand h tD tA tB) := by
  intro hw w he
  replace he := Option.some.inj he
  rw [List.sum_cons, List.sum_cons, List.sum_cons, List.sum_nil] at he
  simp only [encHdr, sh] at he
  obtain ⟨hl, e2, e3, e4, f14, f7, f0⟩ := shape_14x7_7x7_0x7 he h.pr.isLt (boolNat_lt h.pn) tD.isLt tA.isLt tB.isLt
  refine ⟨h.slot, rfl, hl, decodeSlot_ok ?_ hw⟩
  rcases at2 hw with hk | hk
  · rw [hk, decRaw_5 e2 (hdrOf_eq hk e3 e4)]; show ((.ok (.vand h (fieldF w 14) (fieldF w 7) (fieldF w 0))) : Except DecErr Instr) = _; rw [(fieldF_eq f14 : fieldF w 14 = tD), (fieldF_eq f7 : fieldF w 7 = tA), (fieldF_eq f0 : fieldF w 0 = tB)] <;> rfl
  · rw [hk, decRaw_6lo e2 (hdrOf_eq hk e3 e4) (by decide)]; show ((.ok (.vand h (fieldF w 14) (fieldF w 7) (fieldF w 0))) : Except DecErr Instr) = _; rw [(fieldF_eq f14 : fieldF w 14 = tD), (fieldF_eq f7 : fieldF w 7 = tA), (fieldF_eq f0 : fieldF w 0 = tB)] <;> rfl
theorem RoundTrip.vor (h : Hdr) (tD : TReg) (tA : TReg) (tB : TReg) : RoundTrip.Statement (.vor h tD tA tB) := by
  intro hw w he
  replace he := Option.some.inj he
  rw [List.sum_cons, List.sum_cons, List.sum_cons, List.sum_nil] at he
  simp only [encHdr, sh] at he
  obtain ⟨hl, e2, e3, e4, f14, f7, f0⟩ := shape_14x7_7x7_0x7 he h.pr.isLt (boolNat_lt h.pn) tD.isLt tA.isLt tB.isLt
  refine ⟨h.slot, rfl, hl, decodeSlot_ok ?_ hw⟩
  rcases at2 hw with hk | hk
  · rw [hk, decRaw_5 e2 (hdrOf_eq hk e3 e4)]; show ((.ok (.vor h (fieldF w 14) (fieldF w 7) (fieldF w 0))) : Except DecErr Instr) = _; rw [(fieldF_eq f14 : fieldF w 14 = tD), (fieldF_eq f7 : fieldF w 7 = tA), (fieldF_eq f0 : fieldF w 0 = tB)] <;> rfl
  · rw [hk, decRaw_6lo e2 (hdrOf_eq hk e3 e4) (by decide)]; show ((.ok (.vor h (fieldF w 14) (fieldF w 7) (fieldF w 0))) : Except DecErr Instr) = _; rw [(fieldF_eq f14 : fieldF w 14 = tD), (fieldF_eq f7 : fieldF w 7 = tA), (fieldF_eq f0 : fieldF w 0 = tB)] <;> rfl
theorem RoundTrip.vxor (h : Hdr) (tD : TReg) (tA : TReg) (tB : TReg) : RoundTrip.Statement (.vxor h tD tA tB) := by
  intro hw w he
  replace he := Option.some.inj he
  rw [List.sum_cons, List.sum_cons, List.sum_cons, List.sum_nil] at he
  simp only [encHdr, sh] at he
  obtain ⟨hl, e2, e3, e4, f14, f7, f0⟩ := shape_14x7_7x7_0x7 he h.pr.isLt (boolNat_lt h.pn) tD.isLt tA.isLt tB.isLt
  refine ⟨h.slot, rfl, hl, decodeSlot_ok ?_ hw⟩
  rcases at2 hw with hk | hk
  · rw [hk, decRaw_5 e2 (hdrOf_eq hk e3 e4)]; show ((.ok (.vxor h (fieldF w 14) (fieldF w 7) (fieldF w 0))) : Except DecErr Instr) = _; rw [(fieldF_eq f14 : fieldF w 14 = tD), (fieldF_eq f7 : fieldF w 7 = tA), (fieldF_eq f0 : fieldF w 0 = tB)] <;> rfl
  · rw [hk, decRaw_6lo e2 (hdrOf_eq hk e3 e4) (by decide)]; show ((.ok (.vxor h (fieldF w 14) (fieldF w 7) (fieldF w 0))) : Except DecErr Instr) = _; rw [(fieldF_eq f14 : fieldF w 14 = tD), (fieldF_eq f7 : fieldF w 7 = tA), (fieldF_eq f0 : fieldF w 0 = tB)] <;> rfl
theorem RoundTrip.vshl (h : Hdr) (tD : TReg) (tA : TReg) (xB : XReg) : RoundTrip.Statement (.vshl h tD tA xB) := by
  intro hw w he
  replace he := Option.some.inj he
  rw [List.sum_cons, List.sum_cons, List.sum_cons, List.sum_nil] at he
  simp only [encHdr, sh] at he
  obtain ⟨hl, e2, e3, e4, f14, f7, f1, z0⟩ := shape_14x7_7x7_1x6_z0x1 he h.pr.isLt (boolNat_lt h.pn) tD.isLt tA.isLt xB.isLt
  refine ⟨h.slot, rfl, hl, decodeSlot_ok ?_ hw⟩
  rcases at2 hw with hk | hk
  · rw [hk, decRaw_5 e2 (hdrOf_eq hk e3 e4)]; show ((unlessRes (zeros w 0 1) (.ok (.vshl h (fieldF w 14) (fieldF w 7) (fieldF w 1)))) : Except DecErr Instr) = _; rw [zeros_eq z0, (fieldF_eq f14 : fieldF w 14 = tD), (fieldF_eq f7 : fieldF w 7 = tA), (fieldF_eq f1 : fieldF w 1 = xB)] <;> rfl
  · rw [hk, decRaw_6lo e2 (hdrOf_eq hk e3 e4) (by decide)]; show ((unlessRes (zeros w 0 1) (.ok (.vshl h (fieldF w 14) (fieldF w 7) (fieldF w 1)))) : Except DecErr Instr) = _; rw [zeros_eq z0, (fieldF_eq f14 : fieldF w 14 = tD), (fieldF_eq f7 : fieldF w 7 = tA), (fieldF_eq f1 : fieldF w 1 = xB)] <;> rfl
theorem RoundTrip.vshr (h : Hdr) (tD : TReg) (tA : TReg) (xB : XReg) : RoundTrip.Statement (.vshr h tD tA xB) := by
  intro hw w he
  replace he := Option.some.inj he
  rw [List.sum_cons, List.sum_cons, List.sum_cons, List.sum_nil] at he
  simp only [encHdr, sh] at he
  obtain ⟨hl, e2, e3, e4, f14, f7, f1, z0⟩ := shape_14x7_7x7_1x6_z0x1 he h.pr.isLt (boolNat_lt h.pn) tD.isLt tA.isLt xB.isLt
  refine ⟨h.slot, rfl, hl, decodeSlot_ok ?_ hw⟩
  rcases at2 hw with hk | hk
  · rw [hk, decRaw_5 e2 (hdrOf_eq hk e3 e4)]; show ((unlessRes (zeros w 0 1) (.ok (.vshr h (fieldF w 14) (fieldF w 7) (fieldF w 1)))) : Except DecErr Instr) = _; rw [zeros_eq z0, (fieldF_eq f14 : fieldF w 14 = tD), (fieldF_eq f7 : fieldF w 7 = tA), (fieldF_eq f1 : fieldF w 1 = xB)] <;> rfl
  · rw [hk, decRaw_6lo e2 (hdrOf_eq hk e3 e4) (by decide)]; show ((unlessRes (zeros w 0 1) (.ok (.vshr h (fieldF w 14) (fieldF w 7) (fieldF w 1)))) : Except DecErr Instr) = _; rw [zeros_eq z0, (fieldF_eq f14 : fieldF w 14 = tD), (fieldF_eq f7 : fieldF w 7 = tA), (fieldF_eq f1 : fieldF w 1 = xB)] <;> rfl
theorem RoundTrip.vcmp (h : Hdr) (tD : TReg) (tA : TReg) (tB : TReg) : RoundTrip.Statement (.vcmp h tD tA tB) := by
  intro hw w he
  replace he := Option.some.inj he
  rw [List.sum_cons, List.sum_cons, List.sum_cons, List.sum_nil] at he
  simp only [encHdr, sh] at he
  obtain ⟨hl, e2, e3, e4, f14, f7, f0⟩ := shape_14x7_7x7_0x7 he h.pr.isLt (boolNat_lt h.pn) tD.isLt tA.isLt tB.isLt
  refine ⟨h.slot, rfl, hl, decodeSlot_ok ?_ hw⟩
  rcases at2 hw with hk | hk
  · rw [hk, decRaw_5 e2 (hdrOf_eq hk e3 e4)]; show ((.ok (.vcmp h (fieldF w 14) (fieldF w 7) (fieldF w 0))) : Except DecErr Instr) = _; rw [(fieldF_eq f14 : fieldF w 14 = tD), (fieldF_eq f7 : fieldF w 7 = tA), (fieldF_eq f0 : fieldF w 0 = tB)] <;> rfl
  · rw [hk, decRaw_6lo e2 (hdrOf_eq hk e3 e4) (by decide)]; show ((.ok (.vcmp h (fieldF w 14) (fieldF w 7) (fieldF w 0))) : Except DecErr Instr) = _; rw [(fieldF_eq f14 : fieldF w 14 = tD), (fieldF_eq f7 : fieldF w 7 = tA), (fieldF_eq f0 : fieldF w 0 = tB)] <;> rfl
theorem RoundTrip.vsel (h : Hdr) (tD : TReg) (tA : TReg) (tB : TReg) : RoundTrip.Statement (.vsel h tD tA tB) := by
  intro hw w he
  replace he := Option.some.inj he
  rw [List.sum_cons, List.sum_cons, List.sum_cons, List.sum_nil] at he
  simp only [encHdr, sh] at he
  obtain ⟨hl, e2, e3, e4, f14, f7, f0⟩ := shape_14x7_7x7_0x7 he h.pr.isLt (boolNat_lt h.pn) tD.isLt tA.isLt tB.isLt
  refine ⟨h.slot, rfl, hl, decodeSlot_ok ?_ hw⟩
  rcases at2 hw with hk | hk
  · rw [hk, decRaw_5 e2 (hdrOf_eq hk e3 e4)]; show ((.ok (.vsel h (fieldF w 14) (fieldF w 7) (fieldF w 0))) : Except DecErr Instr) = _; rw [(fieldF_eq f14 : fieldF w 14 = tD), (fieldF_eq f7 : fieldF w 7 = tA), (fieldF_eq f0 : fieldF w 0 = tB)] <;> rfl
  · rw [hk, decRaw_6lo e2 (hdrOf_eq hk e3 e4) (by decide)]; show ((.ok (.vsel h (fieldF w 14) (fieldF w 7) (fieldF w 0))) : Except DecErr Instr) = _; rw [(fieldF_eq f14 : fieldF w 14 = tD), (fieldF_eq f7 : fieldF w 7 = tA), (fieldF_eq f0 : fieldF w 0 = tB)] <;> rfl
theorem RoundTrip.vmov (h : Hdr) (tD : TReg) (tA : TReg) : RoundTrip.Statement (.vmov h tD tA) := by
  intro hw w he
  replace he := Option.some.inj he
  rw [List.sum_cons, List.sum_cons, List.sum_nil] at he
  simp only [encHdr, sh] at he
  obtain ⟨hl, e2, e3, e4, f14, f7, z0⟩ := shape_14x7_7x7_z0x7 he h.pr.isLt (boolNat_lt h.pn) tD.isLt tA.isLt
  refine ⟨h.slot, rfl, hl, decodeSlot_ok ?_ hw⟩
  rcases at2 hw with hk | hk
  · rw [hk, decRaw_5 e2 (hdrOf_eq hk e3 e4)]; show ((unlessRes (zeros w 0 7) (.ok (.vmov h (fieldF w 14) (fieldF w 7)))) : Except DecErr Instr) = _; rw [zeros_eq z0, (fieldF_eq f14 : fieldF w 14 = tD), (fieldF_eq f7 : fieldF w 7 = tA)] <;> rfl
  · rw [hk, decRaw_6lo e2 (hdrOf_eq hk e3 e4) (by decide)]; show ((unlessRes (zeros w 0 7) (.ok (.vmov h (fieldF w 14) (fieldF w 7)))) : Except DecErr Instr) = _; rw [zeros_eq z0, (fieldF_eq f14 : fieldF w 14 = tD), (fieldF_eq f7 : fieldF w 7 = tA)] <;> rfl
theorem RoundTrip.vopx (h : Hdr) (tD : TReg) (tA : TReg) (fn : VFun) : RoundTrip.Statement (.vopx h tD tA fn) := by
  intro hw w he
  replace he := Option.some.inj he
  rw [List.sum_cons, List.sum_cons, List.sum_cons, List.sum_nil] at he
  simp only [encHdr, sh] at he
  obtain ⟨hl, e2, e3, e4, f14, f7, f3, z0⟩ := shape_14x7_7x7_3x4_z0x3 he h.pr.isLt (boolNat_lt h.pn) tD.isLt tA.isLt (vFunCode_lt fn)
  refine ⟨h.slot, rfl, hl, decodeSlot_ok ?_ hw⟩
  rcases at2 hw with hk | hk
  · rw [hk, decRaw_5 e2 (hdrOf_eq hk e3 e4)]; show ((unlessRes (zeros w 0 3) (withCode (vFunOf (w / 2 ^ 3 % 16)) fun fn => .ok (.vopx h (fieldF w 14) (fieldF w 7) fn))) : Except DecErr Instr) = _; rw [zeros_eq z0, f3, vFunOf_code fn, (fieldF_eq f14 : fieldF w 14 = tD), (fieldF_eq f7 : fieldF w 7 = tA)] <;> rfl
  · rw [hk, decRaw_6lo e2 (hdrOf_eq hk e3 e4) (by decide)]; show ((unlessRes (zeros w 0 3) (withCode (vFunOf (w / 2 ^ 3 % 16)) fun fn => .ok (.vopx h (fieldF w 14) (fieldF w 7) fn))) : Except DecErr Instr) = _; rw [zeros_eq z0, f3, vFunOf_code fn, (fieldF_eq f14 : fieldF w 14 = tD), (fieldF_eq f7 : fieldF w 7 = tA)] <;> rfl
theorem RoundTrip.vbc (h : Hdr) (tD : TReg) (tA : TReg) : RoundTrip.Statement (.vbc h tD tA) := by
  intro hw w he
  replace he := Option.some.inj he
  rw [List.sum_cons, List.sum_cons, List.sum_nil] at he
  simp only [encHdr, sh] at he
  obtain ⟨hl, e2, e3, e4, f14, f7, z0⟩ := shape_14x7_7x7_z0x7 he h.pr.isLt (boolNat_lt h.pn) tD.isLt tA.isLt
  refine ⟨h.slot, rfl, hl, decodeSlot_ok ?_ hw⟩
  rcases at2 hw with hk | hk
  · rw [hk, decRaw_5 e2 (hdrOf_eq hk e3 e4)]; show ((unlessRes (zeros w 0 7) (.ok (.vbc h (fieldF w 14) (fieldF w 7)))) : Except DecErr Instr) = _; rw [zeros_eq z0, (fieldF_eq f14 : fieldF w 14 = tD), (fieldF_eq f7 : fieldF w 7 = tA)] <;> rfl
  · rw [hk, decRaw_6lo e2 (hdrOf_eq hk e3 e4) (by decide)]; show ((unlessRes (zeros w 0 7) (.ok (.vbc h (fieldF w 14) (fieldF w 7)))) : Except DecErr Instr) = _; rw [zeros_eq z0, (fieldF_eq f14 : fieldF w 14 = tD), (fieldF_eq f7 : fieldF w 7 = tA)] <;> rfl
theorem RoundTrip.vrred (h : Hdr) (tD : TReg) (tA : TReg) (rm : RMode) (sat : Bool) (op : RedOp) : RoundTrip.Statement (.vrred h tD tA rm sat op) := by
  intro hw w he
  replace he := Option.some.inj he
  rw [List.sum_cons, List.sum_cons, List.sum_cons, List.sum_cons, List.sum_cons, List.sum_nil] at he
  simp only [encHdr, sh] at he
  obtain ⟨hl, e2, e3, e4, f14, f7, f4, f3, f1, z0⟩ := shape_14x7_7x7_4x3_3x1_1x2_z0x1 he h.pr.isLt (boolNat_lt h.pn) tD.isLt tA.isLt (rModeCode_lt rm) (boolNat_lt sat) (redOpCode_lt op)
  refine ⟨h.slot, rfl, hl, decodeSlot_ok ?_ hw⟩
  rcases at2 hw with hk | hk
  · rw [hk, decRaw_5 e2 (hdrOf_eq hk e3 e4)]; show ((unlessRes (zeros w 0 1) (withCode (rModeOf (w / 2 ^ 4 % 8)) fun rm => withCode (redOpOf (w / 2 ^ 1 % 4)) fun op => .ok (.vrred h (fieldF w 14) (fieldF w 7) rm (fieldBit w 3) op))) : Except DecErr Instr) = _; rw [zeros_eq z0, f4, f1, rModeOf_code rm, redOpOf_code op, (fieldF_eq f14 : fieldF w 14 = tD), (fieldF_eq f7 : fieldF w 7 = tA), (fieldBit_eq f3 : fieldBit w 3 = sat)] <;> rfl
  · rw [hk, decRaw_6lo e2 (hdrOf_eq hk e3 e4) (by decide)]; show ((unlessRes (zeros w 0 1) (withCode (rModeOf (w / 2 ^ 4 % 8)) fun rm => withCode (redOpOf (w / 2 ^ 1 % 4)) fun op => .ok (.vrred h (fieldF w 14) (fieldF w 7) rm (fieldBit w 3) op))) : Except DecErr Instr) = _; rw [zeros_eq z0, f4, f1, rModeOf_code rm, redOpOf_code op, (fieldF_eq f14 : fieldF w 14 = tD), (fieldF_eq f7 : fieldF w 7 = tA), (fieldBit_eq f3 : fieldBit w 3 = sat)] <;> rfl
theorem RoundTrip.vcred (h : Hdr) (tD : TReg) (tA : TReg) (rm : RMode) (sat : Bool) (op : RedOp) : RoundTrip.Statement (.vcred h tD tA rm sat op) := by
  intro hw w he
  replace he := Option.some.inj he
  rw [List.sum_cons, List.sum_cons, List.sum_cons, List.sum_cons, List.sum_cons, List.sum_nil] at he
  simp only [encHdr, sh] at he
  obtain ⟨hl, e2, e3, e4, f14, f7, f4, f3, f1, z0⟩ := shape_14x7_7x7_4x3_3x1_1x2_z0x1 he h.pr.isLt (boolNat_lt h.pn) tD.isLt tA.isLt (rModeCode_lt rm) (boolNat_lt sat) (redOpCode_lt op)
  refine ⟨h.slot, rfl, hl, decodeSlot_ok ?_ hw⟩
  rcases at2 hw with hk | hk
  · rw [hk, decRaw_5 e2 (hdrOf_eq hk e3 e4)]; show ((unlessRes (zeros w 0 1) (withCode (rModeOf (w / 2 ^ 4 % 8)) fun rm => withCode (redOpOf (w / 2 ^ 1 % 4)) fun op => .ok (.vcred h (fieldF w 14) (fieldF w 7) rm (fieldBit w 3) op))) : Except DecErr Instr) = _; rw [zeros_eq z0, f4, f1, rModeOf_code rm, redOpOf_code op, (fieldF_eq f14 : fieldF w 14 = tD), (fieldF_eq f7 : fieldF w 7 = tA), (fieldBit_eq f3 : fieldBit w 3 = sat)] <;> rfl
  · rw [hk, decRaw_6lo e2 (hdrOf_eq hk e3 e4) (by decide)]; show ((unlessRes (zeros w 0 1) (withCode (rModeOf (w / 2 ^ 4 % 8)) fun rm => withCode (redOpOf (w / 2 ^ 1 % 4)) fun op => .ok (.vcred h (fieldF w 14) (fieldF w 7) rm (fieldBit w 3) op))) : Except DecErr Instr) = _; rw [zeros_eq z0, f4, f1, rModeOf_code rm, redOpOf_code op, (fieldF_eq f14 : fieldF w 14 = tD), (fieldF_eq f7 : fieldF w 7 = tA), (fieldBit_eq f3 : fieldBit w 3 = sat)] <;> rfl
theorem RoundTrip.vxs (h : Hdr) (xD : XReg) (tA : TReg) (xB : XReg) : RoundTrip.Statement (.vxs h xD tA xB) := by
  intro hw w he
  replace he := Option.some.inj he
  rw [List.sum_cons, List.sum_cons, List.sum_cons, List.sum_nil] at he
  simp only [encHdr, sh] at he
  obtain ⟨hl, e2, e3, e4, f15, f8, f2, z0⟩ := shape_15x6_8x7_2x6_z0x2 he h.pr.isLt (boolNat_lt h.pn) xD.isLt tA.isLt xB.isLt
  refine ⟨h.slot, rfl, hl, decodeSlot_ok ?_ hw⟩
  rcases at2 hw with hk | hk
  · rw [hk, decRaw_5 e2 (hdrOf_eq hk e3 e4)]; show ((unlessRes (zeros w 0 2) (.ok (.vxs h (fieldF w 15) (fieldF w 8) (fieldF w 2)))) : Except DecErr Instr) = _; rw [zeros_eq z0, (fieldF_eq f15 : fieldF w 15 = xD), (fieldF_eq f8 : fieldF w 8 = tA), (fieldF_eq f2 : fieldF w 2 = xB)] <;> rfl
  · rw [hk, decRaw_6lo e2 (hdrOf_eq hk e3 e4) (by decide)]; show ((unlessRes (zeros w 0 2) (.ok (.vxs h (fieldF w 15) (fieldF w 8) (fieldF w 2)))) : Except DecErr Instr) = _; rw [zeros_eq z0, (fieldF_eq f15 : fieldF w 15 = xD), (fieldF_eq f8 : fieldF w 8 = tA), (fieldF_eq f2 : fieldF w 2 = xB)] <;> rfl
theorem RoundTrip.vins (h : Hdr) (tD : TReg) (xA : XReg) (xB : XReg) : RoundTrip.Statement (.vins h tD xA xB) := by
  intro hw w he
  replace he := Option.some.inj he
  rw [List.sum_cons, List.sum_cons, List.sum_cons, List.sum_nil] at he
  simp only [encHdr, sh] at he
  obtain ⟨hl, e2, e3, e4, f14, f8, f2, z0⟩ := shape_14x7_8x6_2x6_z0x2 he h.pr.isLt (boolNat_lt h.pn) tD.isLt xA.isLt xB.isLt
  refine ⟨h.slot, rfl, hl, decodeSlot_ok ?_ hw⟩
  rcases at2 hw with hk | hk
  · rw [hk, decRaw_5 e2 (hdrOf_eq hk e3 e4)]; show ((unlessRes (zeros w 0 2) (.ok (.vins h (fieldF w 14) (fieldF w 8) (fieldF w 2)))) : Except DecErr Instr) = _; rw [zeros_eq z0, (fieldF_eq f14 : fieldF w 14 = tD), (fieldF_eq f8 : fieldF w 8 = xA), (fieldF_eq f2 : fieldF w 2 = xB)] <;> rfl
  · rw [hk, decRaw_6lo e2 (hdrOf_eq hk e3 e4) (by decide)]; show ((unlessRes (zeros w 0 2) (.ok (.vins h (fieldF w 14) (fieldF w 8) (fieldF w 2)))) : Except DecErr Instr) = _; rw [zeros_eq z0, (fieldF_eq f14 : fieldF w 14 = tD), (fieldF_eq f8 : fieldF w 8 = xA), (fieldF_eq f2 : fieldF w 2 = xB)] <;> rfl
theorem RoundTrip.viota (h : Hdr) (tD : TReg) (xA : XReg) : RoundTrip.Statement (.viota h tD xA) := by
  intro hw w he
  replace he := Option.some.inj he
  rw [List.sum_cons, List.sum_cons, List.sum_nil] at he
  simp only [encHdr, sh] at he
  obtain ⟨hl, e2, e3, e4, f14, f8, z0⟩ := shape_14x7_8x6_z0x8 he h.pr.isLt (boolNat_lt h.pn) tD.isLt xA.isLt
  refine ⟨h.slot, rfl, hl, decodeSlot_ok ?_ hw⟩
  rcases at2 hw with hk | hk
  · rw [hk, decRaw_5 e2 (hdrOf_eq hk e3 e4)]; show ((unlessRes (zeros w 0 8) (.ok (.viota h (fieldF w 14) (fieldF w 8)))) : Except DecErr Instr) = _; rw [zeros_eq z0, (fieldF_eq f14 : fieldF w 14 = tD), (fieldF_eq f8 : fieldF w 8 = xA)] <;> rfl
  · rw [hk, decRaw_6lo e2 (hdrOf_eq hk e3 e4) (by decide)]; show ((unlessRes (zeros w 0 8) (.ok (.viota h (fieldF w 14) (fieldF w 8)))) : Except DecErr Instr) = _; rw [zeros_eq z0, (fieldF_eq f14 : fieldF w 14 = tD), (fieldF_eq f8 : fieldF w 8 = xA)] <;> rfl
theorem RoundTrip.vperm (h : Hdr) (tD : TReg) (tA : TReg) (tB : TReg) : RoundTrip.Statement (.vperm h tD tA tB) := by
  intro hw w he
  replace he := Option.some.inj he
  rw [List.sum_cons, List.sum_cons, List.sum_cons, List.sum_nil] at he
  simp only [encHdr, sh] at he
  obtain ⟨hl, e2, e3, e4, f14, f7, f0⟩ := shape_14x7_7x7_0x7 he h.pr.isLt (boolNat_lt h.pn) tD.isLt tA.isLt tB.isLt
  refine ⟨h.slot, rfl, hl, decodeSlot_ok ?_ hw⟩
  rcases at2 hw with hk | hk
  · rw [hk, decRaw_5 e2 (hdrOf_eq hk e3 e4)]; show ((.ok (.vperm h (fieldF w 14) (fieldF w 7) (fieldF w 0))) : Except DecErr Instr) = _; rw [(fieldF_eq f14 : fieldF w 14 = tD), (fieldF_eq f7 : fieldF w 7 = tA), (fieldF_eq f0 : fieldF w 0 = tB)] <;> rfl
  · rw [hk, decRaw_6lo e2 (hdrOf_eq hk e3 e4) (by decide)]; show ((.ok (.vperm h (fieldF w 14) (fieldF w 7) (fieldF w 0))) : Except DecErr Instr) = _; rw [(fieldF_eq f14 : fieldF w 14 = tD), (fieldF_eq f7 : fieldF w 7 = tA), (fieldF_eq f0 : fieldF w 0 = tB)] <;> rfl
theorem RoundTrip.vscan (h : Hdr) (tD : TReg) (tA : TReg) (rm : RMode) (sat : Bool) (op : RedOp) : RoundTrip.Statement (.vscan h tD tA rm sat op) := by
  intro hw w he
  replace he := Option.some.inj he
  rw [List.sum_cons, List.sum_cons, List.sum_cons, List.sum_cons, List.sum_cons, List.sum_nil] at he
  simp only [encHdr, sh] at he
  obtain ⟨hl, e2, e3, e4, f14, f7, f4, f3, f1, z0⟩ := shape_14x7_7x7_4x3_3x1_1x2_z0x1 he h.pr.isLt (boolNat_lt h.pn) tD.isLt tA.isLt (rModeCode_lt rm) (boolNat_lt sat) (redOpCode_lt op)
  refine ⟨h.slot, rfl, hl, decodeSlot_ok ?_ hw⟩
  rcases at2 hw with hk | hk
  · rw [hk, decRaw_5 e2 (hdrOf_eq hk e3 e4)]; show ((unlessRes (zeros w 0 1) (withCode (rModeOf (w / 2 ^ 4 % 8)) fun rm => withCode (redOpOf (w / 2 ^ 1 % 4)) fun op => .ok (.vscan h (fieldF w 14) (fieldF w 7) rm (fieldBit w 3) op))) : Except DecErr Instr) = _; rw [zeros_eq z0, f4, f1, rModeOf_code rm, redOpOf_code op, (fieldF_eq f14 : fieldF w 14 = tD), (fieldF_eq f7 : fieldF w 7 = tA), (fieldBit_eq f3 : fieldBit w 3 = sat)] <;> rfl
  · rw [hk, decRaw_6lo e2 (hdrOf_eq hk e3 e4) (by decide)]; show ((unlessRes (zeros w 0 1) (withCode (rModeOf (w / 2 ^ 4 % 8)) fun rm => withCode (redOpOf (w / 2 ^ 1 % 4)) fun op => .ok (.vscan h (fieldF w 14) (fieldF w 7) rm (fieldBit w 3) op))) : Except DecErr Instr) = _; rw [zeros_eq z0, f4, f1, rModeOf_code rm, redOpOf_code op, (fieldF_eq f14 : fieldF w 14 = tD), (fieldF_eq f7 : fieldF w 7 = tA), (fieldBit_eq f3 : fieldBit w 3 = sat)] <;> rfl
theorem RoundTrip.vpart (h : Hdr) (tD : TReg) (tA : TReg) (nom1 : Fin 4) : RoundTrip.Statement (.vpart h tD tA nom1) := by
  intro hw w he
  replace he := Option.some.inj he
  rw [List.sum_cons, List.sum_cons, List.sum_cons, List.sum_nil] at he
  simp only [encHdr, sh] at he
  obtain ⟨hl, e2, e3, e4, f14, f7, f5, z0⟩ := shape_14x7_7x7_5x2_z0x5 he h.pr.isLt (boolNat_lt h.pn) tD.isLt tA.isLt nom1.isLt
  refine ⟨h.slot, rfl, hl, decodeSlot_ok ?_ hw⟩
  rcases at2 hw with hk | hk
  · rw [hk, decRaw_5 e2 (hdrOf_eq hk e3 e4)]; show ((unlessRes (zeros w 0 5) (.ok (.vpart h (fieldF w 14) (fieldF w 7) (fieldF w 5)))) : Except DecErr Instr) = _; rw [zeros_eq z0, (fieldF_eq f14 : fieldF w 14 = tD), (fieldF_eq f7 : fieldF w 7 = tA), (fieldF_eq f5 : fieldF w 5 = nom1)] <;> rfl
  · rw [hk, decRaw_6lo e2 (hdrOf_eq hk e3 e4) (by decide)]; show ((unlessRes (zeros w 0 5) (.ok (.vpart h (fieldF w 14) (fieldF w 7) (fieldF w 5)))) : Except DecErr Instr) = _; rw [zeros_eq z0, (fieldF_eq f14 : fieldF w 14 = tD), (fieldF_eq f7 : fieldF w 7 = tA), (fieldF_eq f5 : fieldF w 5 = nom1)] <;> rfl
theorem RoundTrip.vclmp (h : Hdr) (tD : TReg) (tA : TReg) (tB : TReg) : RoundTrip.Statement (.vclmp h tD tA tB) := by
  intro hw w he
  replace he := Option.some.inj he
  rw [List.sum_cons, List.sum_cons, List.sum_cons, List.sum_nil] at he
  simp only [encHdr, sh] at he
  obtain ⟨hl, e2, e3, e4, f14, f7, f0⟩ := shape_14x7_7x7_0x7 he h.pr.isLt (boolNat_lt h.pn) tD.isLt tA.isLt tB.isLt
  refine ⟨h.slot, rfl, hl, decodeSlot_ok ?_ hw⟩
  rcases at2 hw with hk | hk
  · rw [hk, decRaw_5 e2 (hdrOf_eq hk e3 e4)]; show ((.ok (.vclmp h (fieldF w 14) (fieldF w 7) (fieldF w 0))) : Except DecErr Instr) = _; rw [(fieldF_eq f14 : fieldF w 14 = tD), (fieldF_eq f7 : fieldF w 7 = tA), (fieldF_eq f0 : fieldF w 0 = tB)] <;> rfl
  · rw [hk, decRaw_6lo e2 (hdrOf_eq hk e3 e4) (by decide)]; show ((.ok (.vclmp h (fieldF w 14) (fieldF w 7) (fieldF w 0))) : Except DecErr Instr) = _; rw [(fieldF_eq f14 : fieldF w 14 = tD), (fieldF_eq f7 : fieldF w 7 = tA), (fieldF_eq f0 : fieldF w 0 = tB)] <;> rfl
theorem RoundTrip.vtrn (h : Hdr) (tD : TReg) (tA : TReg) : RoundTrip.Statement (.vtrn h tD tA) := by
  intro hw w he
  replace he := Option.some.inj he
  rw [List.sum_cons, List.sum_cons, List.sum_nil] at he
  simp only [encHdr, sh] at he
  obtain ⟨hl, e2, e3, e4, f14, f7, z0⟩ := shape_14x7_7x7_z0x7 he h.pr.isLt (boolNat_lt h.pn) tD.isLt tA.isLt
  refine ⟨h.slot, rfl, hl, decodeSlot_ok ?_ hw⟩
  rcases at2 hw with hk | hk
  · rw [hk, decRaw_5 e2 (hdrOf_eq hk e3 e4)]; show ((unlessRes (zeros w 0 7) (.ok (.vtrn h (fieldF w 14) (fieldF w 7)))) : Except DecErr Instr) = _; rw [zeros_eq z0, (fieldF_eq f14 : fieldF w 14 = tD), (fieldF_eq f7 : fieldF w 7 = tA)] <;> rfl
  · rw [hk, decRaw_6lo e2 (hdrOf_eq hk e3 e4) (by decide)]; show ((unlessRes (zeros w 0 7) (.ok (.vtrn h (fieldF w 14) (fieldF w 7)))) : Except DecErr Instr) = _; rw [zeros_eq z0, (fieldF_eq f14 : fieldF w 14 = tD), (fieldF_eq f7 : fieldF w 7 = tA)] <;> rfl
theorem RoundTrip.qthr (h : Hdr) (tD : TReg) (tA : TReg) : RoundTrip.Statement (.qthr h tD tA) := by
  intro hw w he
  replace he := Option.some.inj he
  rw [List.sum_cons, List.sum_cons, List.sum_nil] at he
  simp only [encHdr, sh] at he
  obtain ⟨hl, e2, e3, e4, f14, f7, z0⟩ := shape_14x7_7x7_z0x7 he h.pr.isLt (boolNat_lt h.pn) tD.isLt tA.isLt
  refine ⟨h.slot, rfl, hl, decodeSlot_ok ?_ hw⟩
  have hk := at1 hw
  rw [hk, decRaw_6hi e2 (hdrOf_eq hk e3 e4) (by decide)]; show ((unlessRes (zeros w 0 7) (.ok (.qthr h (fieldF w 14) (fieldF w 7)))) : Except DecErr Instr) = _; rw [zeros_eq z0, (fieldF_eq f14 : fieldF w 14 = tD), (fieldF_eq f7 : fieldF w 7 = tA)] <;> rfl
theorem RoundTrip.qbis (h : Hdr) (tD : TReg) (km1 : Fin 8) : RoundTrip.Statement (.qbis h tD km1) := by
  intro hw w he
  replace he := Option.some.inj he
  rw [List.sum_cons, List.sum_cons, List.sum_nil] at he
  simp only [encHdr, sh] at he
  obtain ⟨hl, e2, e3, e4, f14, f11, z0⟩ := shape_14x7_11x3_z0x11 he h.pr.isLt (boolNat_lt h.pn) tD.isLt km1.isLt
  refine ⟨h.slot, rfl, hl, decodeSlot_ok ?_ hw⟩
  have hk := at1 hw
  rw [hk, decRaw_6hi e2 (hdrOf_eq hk e3 e4) (by decide)]; show ((unlessRes (zeros w 0 11) (.ok (.qbis h (fieldF w 14) (fieldF w 11)))) : Except DecErr Instr) = _; rw [zeros_eq z0, (fieldF_eq f14 : fieldF w 14 = tD), (fieldF_eq f11 : fieldF w 11 = km1)] <;> rfl
theorem RoundTrip.qsel (h : Hdr) (tD : TReg) (tA : TReg) (tB : TReg) : RoundTrip.Statement (.qsel h tD tA tB) := by
  intro hw w he
  replace he := Option.some.inj he
  rw [List.sum_cons, List.sum_cons, List.sum_cons, List.sum_nil] at he
  simp only [encHdr, sh] at he
  obtain ⟨hl, e2, e3, e4, f14, f7, f0⟩ := shape_14x7_7x7_0x7 he h.pr.isLt (boolNat_lt h.pn) tD.isLt tA.isLt tB.isLt
  refine ⟨h.slot, rfl, hl, decodeSlot_ok ?_ hw⟩
  have hk := at1 hw
  rw [hk, decRaw_6hi e2 (hdrOf_eq hk e3 e4) (by decide)]; show ((.ok (.qsel h (fieldF w 14) (fieldF w 7) (fieldF w 0))) : Except DecErr Instr) = _; rw [(fieldF_eq f14 : fieldF w 14 = tD), (fieldF_eq f7 : fieldF w 7 = tA), (fieldF_eq f0 : fieldF w 0 = tB)] <;> rfl
theorem RoundTrip.qscl (h : Hdr) (tD : TReg) (tA : TReg) (rm : RMode) (sat : Bool) : RoundTrip.Statement (.qscl h tD tA rm sat) := by
  intro hw w he
  replace he := Option.some.inj he
  rw [List.sum_cons, List.sum_cons, List.sum_cons, List.sum_cons, List.sum_nil] at he
  simp only [encHdr, sh] at he
  obtain ⟨hl, e2, e3, e4, f14, f7, f4, f3, z0⟩ := shape_14x7_7x7_4x3_3x1_z0x3 he h.pr.isLt (boolNat_lt h.pn) tD.isLt tA.isLt (rModeCode_lt rm) (boolNat_lt sat)
  refine ⟨h.slot, rfl, hl, decodeSlot_ok ?_ hw⟩
  have hk := at1 hw
  rw [hk, decRaw_6hi e2 (hdrOf_eq hk e3 e4) (by decide)]; show ((unlessRes (zeros w 0 3) (withCode (rModeOf (w / 2 ^ 4 % 8)) fun rm => .ok (.qscl h (fieldF w 14) (fieldF w 7) rm (fieldBit w 3)))) : Except DecErr Instr) = _; rw [zeros_eq z0, f4, rModeOf_code rm, (fieldF_eq f14 : fieldF w 14 = tD), (fieldF_eq f7 : fieldF w 7 = tA), (fieldBit_eq f3 : fieldBit w 3 = sat)] <;> rfl
theorem RoundTrip.qnt (h : Hdr) (tD : TReg) (tA : TReg) (rm : RMode) (sat : Bool) : RoundTrip.Statement (.qnt h tD tA rm sat) := by
  intro hw w he
  replace he := Option.some.inj he
  rw [List.sum_cons, List.sum_cons, List.sum_cons, List.sum_cons, List.sum_nil] at he
  simp only [encHdr, sh] at he
  obtain ⟨hl, e2, e3, e4, f14, f7, f4, f3, z0⟩ := shape_14x7_7x7_4x3_3x1_z0x3 he h.pr.isLt (boolNat_lt h.pn) tD.isLt tA.isLt (rModeCode_lt rm) (boolNat_lt sat)
  refine ⟨h.slot, rfl, hl, decodeSlot_ok ?_ hw⟩
  have hk := at1 hw
  rw [hk, decRaw_6hi e2 (hdrOf_eq hk e3 e4) (by decide)]; show ((unlessRes (zeros w 0 3) (withCode (rModeOf (w / 2 ^ 4 % 8)) fun rm => .ok (.qnt h (fieldF w 14) (fieldF w 7) rm (fieldBit w 3)))) : Except DecErr Instr) = _; rw [zeros_eq z0, f4, rModeOf_code rm, (fieldF_eq f14 : fieldF w 14 = tD), (fieldF_eq f7 : fieldF w 7 = tA), (fieldBit_eq f3 : fieldBit w 3 = sat)] <;> rfl
theorem RoundTrip.qdq (h : Hdr) (tD : TReg) (tA : TReg) : RoundTrip.Statement (.qdq h tD tA) := by
  intro hw w he
  replace he := Option.some.inj he
  rw [List.sum_cons, List.sum_cons, List.sum_nil] at he
  simp only [encHdr, sh] at he
  obtain ⟨hl, e2, e3, e4, f14, f7, z0⟩ := shape_14x7_7x7_z0x7 he h.pr.isLt (boolNat_lt h.pn) tD.isLt tA.isLt
  refine ⟨h.slot, rfl, hl, decodeSlot_ok ?_ hw⟩
  have hk := at1 hw
  rw [hk, decRaw_6hi e2 (hdrOf_eq hk e3 e4) (by decide)]; show ((unlessRes (zeros w 0 7) (.ok (.qdq h (fieldF w 14) (fieldF w 7)))) : Except DecErr Instr) = _; rw [zeros_eq z0, (fieldF_eq f14 : fieldF w 14 = tD), (fieldF_eq f7 : fieldF w 7 = tA)] <;> rfl
theorem RoundTrip.qef (h : Hdr) (tD : TReg) (tA : TReg) (tB : TReg) : RoundTrip.Statement (.qef h tD tA tB) := by
  intro hw w he
  replace he := Option.some.inj he
  rw [List.sum_cons, List.sum_cons, List.sum_cons, List.sum_nil] at he
  simp only [encHdr, sh] at he
  obtain ⟨hl, e2, e3, e4, f14, f7, f0⟩ := shape_14x7_7x7_0x7 he h.pr.isLt (boolNat_lt h.pn) tD.isLt tA.isLt tB.isLt
  refine ⟨h.slot, rfl, hl, decodeSlot_ok ?_ hw⟩
  have hk := at1 hw
  rw [hk, decRaw_6hi e2 (hdrOf_eq hk e3 e4) (by decide)]; show ((.ok (.qef h (fieldF w 14) (fieldF w 7) (fieldF w 0))) : Except DecErr Instr) = _; rw [(fieldF_eq f14 : fieldF w 14 = tD), (fieldF_eq f7 : fieldF w 7 = tA), (fieldF_eq f0 : fieldF w 0 = tB)] <;> rfl
theorem RoundTrip.chcfg (h : Hdr) (c : CReg) (xA : XReg) : RoundTrip.Statement (.chcfg h c xA) := by
  intro hw w he
  replace he := Option.some.inj he
  rw [List.sum_cons, List.sum_cons, List.sum_nil] at he
  simp only [encHdr, sh] at he
  obtain ⟨hl, e2, e3, e4, f15, f9, z0⟩ := shape_15x6_9x6_z0x9 he h.pr.isLt (boolNat_lt h.pn) c.isLt xA.isLt
  refine ⟨h.slot, rfl, hl, decodeSlot_ok ?_ hw⟩
  have hk := at1 hw
  rw [hk, decRaw_7 e2 (hdrOf_eq hk e3 e4)]; show ((unlessRes (zeros w 0 9) (.ok (.chcfg h (fieldF w 15) (fieldF w 9)))) : Except DecErr Instr) = _; rw [zeros_eq z0, (fieldF_eq f15 : fieldF w 15 = c), (fieldF_eq f9 : fieldF w 9 = xA)] <;> rfl
theorem RoundTrip.chsnd (h : Hdr) (c : CReg) (tS : TReg) : RoundTrip.Statement (.chsnd h c tS) := by
  intro hw w he
  replace he := Option.some.inj he
  rw [List.sum_cons, List.sum_cons, List.sum_nil] at he
  simp only [encHdr, sh] at he
  obtain ⟨hl, e2, e3, e4, f15, f8, z0⟩ := shape_15x6_8x7_z0x8 he h.pr.isLt (boolNat_lt h.pn) c.isLt tS.isLt
  refine ⟨h.slot, rfl, hl, decodeSlot_ok ?_ hw⟩
  have hk := at1 hw
  rw [hk, decRaw_7 e2 (hdrOf_eq hk e3 e4)]; show ((unlessRes (zeros w 0 8) (.ok (.chsnd h (fieldF w 15) (fieldF w 8)))) : Except DecErr Instr) = _; rw [zeros_eq z0, (fieldF_eq f15 : fieldF w 15 = c), (fieldF_eq f8 : fieldF w 8 = tS)] <;> rfl
theorem RoundTrip.chadv (h : Hdr) (c : CReg) (cons : Bool) : RoundTrip.Statement (.chadv h c cons) := by
  intro hw w he
  replace he := Option.some.inj he
  rw [List.sum_cons, List.sum_cons, List.sum_nil] at he
  simp only [encHdr, sh] at he
  obtain ⟨hl, e2, e3, e4, f15, f14, z0⟩ := shape_15x6_14x1_z0x14 he h.pr.isLt (boolNat_lt h.pn) c.isLt (boolNat_lt cons)
  refine ⟨h.slot, rfl, hl, decodeSlot_ok ?_ hw⟩
  have hk := at1 hw
  rw [hk, decRaw_7 e2 (hdrOf_eq hk e3 e4)]; show ((unlessRes (zeros w 0 14) (.ok (.chadv h (fieldF w 15) (fieldBit w 14)))) : Except DecErr Instr) = _; rw [zeros_eq z0, (fieldF_eq f15 : fieldF w 15 = c), (fieldBit_eq f14 : fieldBit w 14 = cons)] <;> rfl
theorem RoundTrip.chst (h : Hdr) (xD : XReg) (c : CReg) : RoundTrip.Statement (.chst h xD c) := by
  intro hw w he
  replace he := Option.some.inj he
  rw [List.sum_cons, List.sum_cons, List.sum_nil] at he
  simp only [encHdr, sh] at he
  obtain ⟨hl, e2, e3, e4, f15, f9, z0⟩ := shape_15x6_9x6_z0x9 he h.pr.isLt (boolNat_lt h.pn) xD.isLt c.isLt
  refine ⟨h.slot, rfl, hl, decodeSlot_ok ?_ hw⟩
  have hk := at1 hw
  rw [hk, decRaw_7 e2 (hdrOf_eq hk e3 e4)]; show ((unlessRes (zeros w 0 9) (.ok (.chst h (fieldF w 15) (fieldF w 9)))) : Except DecErr Instr) = _; rw [zeros_eq z0, (fieldF_eq f15 : fieldF w 15 = xD), (fieldF_eq f9 : fieldF w 9 = c)] <;> rfl
theorem RoundTrip.vrcfg (h : Hdr) (xD : XReg) (xA : XReg) (xB : XReg) : RoundTrip.Statement (.vrcfg h xD xA xB) := by
  intro hw w he
  replace he := Option.some.inj he
  rw [List.sum_cons, List.sum_cons, List.sum_cons, List.sum_nil] at he
  simp only [encHdr, sh] at he
  obtain ⟨hl, e2, e3, e4, f15, f9, f3, z0⟩ := shape_15x6_9x6_3x6_z0x3 he h.pr.isLt (boolNat_lt h.pn) xD.isLt xA.isLt xB.isLt
  refine ⟨h.slot, rfl, hl, decodeSlot_ok ?_ hw⟩
  have hk := at1 hw
  rw [hk, decRaw_7 e2 (hdrOf_eq hk e3 e4)]; show ((unlessRes (zeros w 0 3) (.ok (.vrcfg h (fieldF w 15) (fieldF w 9) (fieldF w 3)))) : Except DecErr Instr) = _; rw [zeros_eq z0, (fieldF_eq f15 : fieldF w 15 = xD), (fieldF_eq f9 : fieldF w 9 = xA), (fieldF_eq f3 : fieldF w 3 = xB)] <;> rfl
theorem RoundTrip.vrrte (h : Hdr) (xD : XReg) (xA : XReg) (xB : XReg) : RoundTrip.Statement (.vrrte h xD xA xB) := by
  intro hw w he
  replace he := Option.some.inj he
  rw [List.sum_cons, List.sum_cons, List.sum_cons, List.sum_nil] at he
  simp only [encHdr, sh] at he
  obtain ⟨hl, e2, e3, e4, f15, f9, f3, z0⟩ := shape_15x6_9x6_3x6_z0x3 he h.pr.isLt (boolNat_lt h.pn) xD.isLt xA.isLt xB.isLt
  refine ⟨h.slot, rfl, hl, decodeSlot_ok ?_ hw⟩
  have hk := at1 hw
  rw [hk, decRaw_7 e2 (hdrOf_eq hk e3 e4)]; show ((unlessRes (zeros w 0 3) (.ok (.vrrte h (fieldF w 15) (fieldF w 9) (fieldF w 3)))) : Except DecErr Instr) = _; rw [zeros_eq z0, (fieldF_eq f15 : fieldF w 15 = xD), (fieldF_eq f9 : fieldF w 9 = xA), (fieldF_eq f3 : fieldF w 3 = xB)] <;> rfl
theorem RoundTrip.vrsct (h : Hdr) (xD : XReg) (xA : XReg) (xB : XReg) : RoundTrip.Statement (.vrsct h xD xA xB) := by
  intro hw w he
  replace he := Option.some.inj he
  rw [List.sum_cons, List.sum_cons, List.sum_cons, List.sum_nil] at he
  simp only [encHdr, sh] at he
  obtain ⟨hl, e2, e3, e4, f15, f9, f3, z0⟩ := shape_15x6_9x6_3x6_z0x3 he h.pr.isLt (boolNat_lt h.pn) xD.isLt xA.isLt xB.isLt
  refine ⟨h.slot, rfl, hl, decodeSlot_ok ?_ hw⟩
  have hk := at1 hw
  rw [hk, decRaw_7 e2 (hdrOf_eq hk e3 e4)]; show ((unlessRes (zeros w 0 3) (.ok (.vrsct h (fieldF w 15) (fieldF w 9) (fieldF w 3)))) : Except DecErr Instr) = _; rw [zeros_eq z0, (fieldF_eq f15 : fieldF w 15 = xD), (fieldF_eq f9 : fieldF w 9 = xA), (fieldF_eq f3 : fieldF w 3 = xB)] <;> rfl
theorem RoundTrip.vrcmb (h : Hdr) (xD : XReg) (xA : XReg) (xB : XReg) : RoundTrip.Statement (.vrcmb h xD xA xB) := by
  intro hw w he
  replace he := Option.some.inj he
  rw [List.sum_cons, List.sum_cons, List.sum_cons, List.sum_nil] at he
  simp only [encHdr, sh] at he
  obtain ⟨hl, e2, e3, e4, f15, f9, f3, z0⟩ := shape_15x6_9x6_3x6_z0x3 he h.pr.isLt (boolNat_lt h.pn) xD.isLt xA.isLt xB.isLt
  refine ⟨h.slot, rfl, hl, decodeSlot_ok ?_ hw⟩
  have hk := at1 hw
  rw [hk, decRaw_7 e2 (hdrOf_eq hk e3 e4)]; show ((unlessRes (zeros w 0 3) (.ok (.vrcmb h (fieldF w 15) (fieldF w 9) (fieldF w 3)))) : Except DecErr Instr) = _; rw [zeros_eq z0, (fieldF_eq f15 : fieldF w 15 = xD), (fieldF_eq f9 : fieldF w 9 = xA), (fieldF_eq f3 : fieldF w 3 = xB)] <;> rfl
theorem RoundTrip.vrcnt (h : Hdr) (xD : XReg) (xA : XReg) (sel : Fin 16) : RoundTrip.Statement (.vrcnt h xD xA sel) := by
  intro hw w he
  replace he := Option.some.inj he
  rw [List.sum_cons, List.sum_cons, List.sum_cons, List.sum_nil] at he
  simp only [encHdr, sh] at he
  obtain ⟨hl, e2, e3, e4, f15, f9, f5, z0⟩ := shape_15x6_9x6_5x4_z0x5 he h.pr.isLt (boolNat_lt h.pn) xD.isLt xA.isLt sel.isLt
  refine ⟨h.slot, rfl, hl, decodeSlot_ok ?_ hw⟩
  have hk := at1 (and_left hw)
  rw [hk, decRaw_7 e2 (hdrOf_eq hk e3 e4)]; show ((unlessRes (zeros w 0 5) (.ok (.vrcnt h (fieldF w 15) (fieldF w 9) (fieldF w 5)))) : Except DecErr Instr) = _; rw [zeros_eq z0, (fieldF_eq f15 : fieldF w 15 = xD), (fieldF_eq f9 : fieldF w 9 = xA), (fieldF_eq f5 : fieldF w 5 = sel)] <;> rfl
theorem RoundTrip.pldef (h : Hdr) (xD : XReg) (xA : XReg) (xB : XReg) : RoundTrip.Statement (.pldef h xD xA xB) := by
  intro hw w he
  replace he := Option.some.inj he
  rw [List.sum_cons, List.sum_cons, List.sum_cons, List.sum_nil] at he
  simp only [encHdr, sh] at he
  obtain ⟨hl, e2, e3, e4, f15, f9, f3, z0⟩ := shape_15x6_9x6_3x6_z0x3 he h.pr.isLt (boolNat_lt h.pn) xD.isLt xA.isLt xB.isLt
  refine ⟨h.slot, rfl, hl, decodeSlot_ok ?_ hw⟩
  have hk := at1 hw
  rw [hk, decRaw_7 e2 (hdrOf_eq hk e3 e4)]; show ((unlessRes (zeros w 0 3) (.ok (.pldef h (fieldF w 15) (fieldF w 9) (fieldF w 3)))) : Except DecErr Instr) = _; rw [zeros_eq z0, (fieldF_eq f15 : fieldF w 15 = xD), (fieldF_eq f9 : fieldF w 9 = xA), (fieldF_eq f3 : fieldF w 3 = xB)] <;> rfl
theorem RoundTrip.plcnv (h : Hdr) (xD : XReg) (xA : XReg) (xB : XReg) : RoundTrip.Statement (.plcnv h xD xA xB) := by
  intro hw w he
  replace he := Option.some.inj he
  rw [List.sum_cons, List.sum_cons, List.sum_cons, List.sum_nil] at he
  simp only [encHdr, sh] at he
  obtain ⟨hl, e2, e3, e4, f15, f9, f3, z0⟩ := shape_15x6_9x6_3x6_z0x3 he h.pr.isLt (boolNat_lt h.pn) xD.isLt xA.isLt xB.isLt
  refine ⟨h.slot, rfl, hl, decodeSlot_ok ?_ hw⟩
  have hk := at1 hw
  rw [hk, decRaw_7 e2 (hdrOf_eq hk e3 e4)]; show ((unlessRes (zeros w 0 3) (.ok (.plcnv h (fieldF w 15) (fieldF w 9) (fieldF w 3)))) : Except DecErr Instr) = _; rw [zeros_eq z0, (fieldF_eq f15 : fieldF w 15 = xD), (fieldF_eq f9 : fieldF w 9 = xA), (fieldF_eq f3 : fieldF w 3 = xB)] <;> rfl
theorem RoundTrip.plqry (h : Hdr) (xD : XReg) (xA : XReg) (sel : Fin 16) : RoundTrip.Statement (.plqry h xD xA sel) := by
  intro hw w he
  replace he := Option.some.inj he
  rw [List.sum_cons, List.sum_cons, List.sum_cons, List.sum_nil] at he
  simp only [encHdr, sh] at he
  obtain ⟨hl, e2, e3, e4, f15, f9, f5, z0⟩ := shape_15x6_9x6_5x4_z0x5 he h.pr.isLt (boolNat_lt h.pn) xD.isLt xA.isLt sel.isLt
  refine ⟨h.slot, rfl, hl, decodeSlot_ok ?_ hw⟩
  have hk := at1 hw
  rw [hk, decRaw_7 e2 (hdrOf_eq hk e3 e4)]; show ((unlessRes (zeros w 0 5) (.ok (.plqry h (fieldF w 15) (fieldF w 9) (fieldF w 5)))) : Except DecErr Instr) = _; rw [zeros_eq z0, (fieldF_eq f15 : fieldF w 15 = xD), (fieldF_eq f9 : fieldF w 9 = xA), (fieldF_eq f5 : fieldF w 5 = sel)] <;> rfl
theorem RoundTrip.slbxl (h : Hdr) (xD : XReg) (xA : XReg) (xB : XReg) : RoundTrip.Statement (.slbxl h xD xA xB) := by
  intro hw w he
  replace he := Option.some.inj he
  rw [List.sum_cons, List.sum_cons, List.sum_cons, List.sum_nil] at he
  simp only [encHdr, sh] at he
  obtain ⟨hl, e2, e3, e4, f15, f9, f3, z0⟩ := shape_15x6_9x6_3x6_z0x3 he h.pr.isLt (boolNat_lt h.pn) xD.isLt xA.isLt xB.isLt
  refine ⟨h.slot, rfl, hl, decodeSlot_ok ?_ hw⟩
  have hk := at1 hw
  rw [hk, decRaw_7 e2 (hdrOf_eq hk e3 e4)]; show ((unlessRes (zeros w 0 3) (.ok (.slbxl h (fieldF w 15) (fieldF w 9) (fieldF w 3)))) : Except DecErr Instr) = _; rw [zeros_eq z0, (fieldF_eq f15 : fieldF w 15 = xD), (fieldF_eq f9 : fieldF w 9 = xA), (fieldF_eq f3 : fieldF w 3 = xB)] <;> rfl
theorem RoundTrip.slbgr (h : Hdr) (xD : XReg) (xA : XReg) (xB : XReg) : RoundTrip.Statement (.slbgr h xD xA xB) := by
  intro hw w he
  replace he := Option.some.inj he
  rw [List.sum_cons, List.sum_cons, List.sum_cons, List.sum_nil] at he
  simp only [encHdr, sh] at he
  obtain ⟨hl, e2, e3, e4, f15, f9, f3, z0⟩ := shape_15x6_9x6_3x6_z0x3 he h.pr.isLt (boolNat_lt h.pn) xD.isLt xA.isLt xB.isLt
  refine ⟨h.slot, rfl, hl, decodeSlot_ok ?_ hw⟩
  have hk := at1 hw
  rw [hk, decRaw_7 e2 (hdrOf_eq hk e3 e4)]; show ((unlessRes (zeros w 0 3) (.ok (.slbgr h (fieldF w 15) (fieldF w 9) (fieldF w 3)))) : Except DecErr Instr) = _; rw [zeros_eq z0, (fieldF_eq f15 : fieldF w 15 = xD), (fieldF_eq f9 : fieldF w 9 = xA), (fieldF_eq f3 : fieldF w 3 = xB)] <;> rfl
theorem RoundTrip.exacq (h : Hdr) (xD : XReg) (xA : XReg) (xB : XReg) : RoundTrip.Statement (.exacq h xD xA xB) := by
  intro hw w he
  replace he := Option.some.inj he
  rw [List.sum_cons, List.sum_cons, List.sum_cons, List.sum_nil] at he
  simp only [encHdr, sh] at he
  obtain ⟨hl, e2, e3, e4, f15, f9, f3, z0⟩ := shape_15x6_9x6_3x6_z0x3 he h.pr.isLt (boolNat_lt h.pn) xD.isLt xA.isLt xB.isLt
  refine ⟨h.slot, rfl, hl, decodeSlot_ok ?_ hw⟩
  have hk := at1 hw
  rw [hk, decRaw_7 e2 (hdrOf_eq hk e3 e4)]; show ((unlessRes (zeros w 0 3) (.ok (.exacq h (fieldF w 15) (fieldF w 9) (fieldF w 3)))) : Except DecErr Instr) = _; rw [zeros_eq z0, (fieldF_eq f15 : fieldF w 15 = xD), (fieldF_eq f9 : fieldF w 9 = xA), (fieldF_eq f3 : fieldF w 3 = xB)] <;> rfl
theorem RoundTrip.exrel (h : Hdr) (xD : XReg) (xA : XReg) : RoundTrip.Statement (.exrel h xD xA) := by
  intro hw w he
  replace he := Option.some.inj he
  rw [List.sum_cons, List.sum_cons, List.sum_nil] at he
  simp only [encHdr, sh] at he
  obtain ⟨hl, e2, e3, e4, f15, f9, z0⟩ := shape_15x6_9x6_z0x9 he h.pr.isLt (boolNat_lt h.pn) xD.isLt xA.isLt
  refine ⟨h.slot, rfl, hl, decodeSlot_ok ?_ hw⟩
  have hk := at1 hw
  rw [hk, decRaw_7 e2 (hdrOf_eq hk e3 e4)]; show ((unlessRes (zeros w 0 9) (.ok (.exrel h (fieldF w 15) (fieldF w 9)))) : Except DecErr Instr) = _; rw [zeros_eq z0, (fieldF_eq f15 : fieldF w 15 = xD), (fieldF_eq f9 : fieldF w 9 = xA)] <;> rfl
theorem RoundTrip.tick (h : Hdr) (xD : XReg) : RoundTrip.Statement (.tick h xD) := by
  intro hw w he
  replace he := Option.some.inj he
  rw [List.sum_cons, List.sum_nil] at he
  simp only [encHdr, sh] at he
  obtain ⟨hl, e2, e3, e4, f15, z0⟩ := shape_15x6_z0x15 he h.pr.isLt (boolNat_lt h.pn) xD.isLt
  refine ⟨h.slot, rfl, hl, decodeSlot_ok ?_ hw⟩
  have hk := at1 hw
  rw [hk, decRaw_7 e2 (hdrOf_eq hk e3 e4)]; show ((unlessRes (zeros w 0 15) (.ok (.tick h (fieldF w 15)))) : Except DecErr Instr) = _; rw [zeros_eq z0, (fieldF_eq f15 : fieldF w 15 = xD)] <;> rfl
theorem RoundTrip.destroyComplete (c : Fin 64) : RoundTrip.Statement (.destroyComplete c) := fun _ _ he => nomatch he
theorem RoundTrip.launchReady (no : GroupNo) : RoundTrip.Statement (.launchReady no) := fun _ _ he => nomatch he
theorem RoundTrip.startTick (g : Fin 1024) : RoundTrip.Statement (.startTick g) := fun _ _ he => nomatch he
theorem RoundTrip.sequencerBroadcast (g : Fin 1024) : RoundTrip.Statement (.sequencerBroadcast g) := fun _ _ he => nomatch he
theorem RoundTrip.bundleIssue (core : Fin 64) : RoundTrip.Statement (.bundleIssue core) := fun _ _ he => nomatch he
theorem RoundTrip.saveComplete (g : Fin 1024) : RoundTrip.Statement (.saveComplete g) := fun _ _ he => nomatch he
theorem RoundTrip.park (g : Fin 1024) : RoundTrip.Statement (.park g) := fun _ _ he => nomatch he
theorem RoundTrip.groupRestore (g : Fin 1024) : RoundTrip.Statement (.groupRestore g) := fun _ _ he => nomatch he
theorem RoundTrip.restoreComplete (g : Fin 1024) : RoundTrip.Statement (.restoreComplete g) := fun _ _ he => nomatch he
theorem RoundTrip.shadowReplay (core : Fin 64) : RoundTrip.Statement (.shadowReplay core) := fun _ _ he => nomatch he
theorem RoundTrip.exposedResultDue (core : Fin 64) : RoundTrip.Statement (.exposedResultDue core) := fun _ _ he => nomatch he
theorem RoundTrip.drainComplete (g : Fin 1024) : RoundTrip.Statement (.drainComplete g) := fun _ _ he => nomatch he
theorem RoundTrip.drainMarkerReturn (path : Nat) (gid : BitVec 16) : RoundTrip.Statement (.drainMarkerReturn path gid) := fun _ _ he => nomatch he
theorem RoundTrip.dispenserGrant (core : Fin 64) (dest : ReplyTo) : RoundTrip.Statement (.dispenserGrant core dest) := fun _ _ he => nomatch he
theorem RoundTrip.barrierArrival (gid : BitVec 16) (core : Fin 64) (b : BReg) (tag : Bool) : RoundTrip.Statement (.barrierArrival gid core b tag) := fun _ _ he => nomatch he
theorem RoundTrip.bdclArrival (gid : BitVec 16) (core : Fin 64) (b : BReg) (decl : Nat) : RoundTrip.Statement (.bdclArrival gid core b decl) := fun _ _ he => nomatch he
theorem RoundTrip.barrierLanding (peer : Bool) (gid : BitVec 16) (core : Fin 64) (b : BReg) (tag : Bool) (bytes : Nat) : RoundTrip.Statement (.barrierLanding peer gid core b tag bytes) := fun _ _ he => nomatch he
theorem RoundTrip.completionNotice (gid : BitVec 16) (inst : Nat) (b : BReg) : RoundTrip.Statement (.completionNotice gid inst b) := fun _ _ he => nomatch he
theorem RoundTrip.watchdogExpiry (gid : BitVec 16) (inst : Nat) (b : BReg) : RoundTrip.Statement (.watchdogExpiry gid inst b) := fun _ _ he => nomatch he
theorem RoundTrip.semaphoreTest (core : Fin 64) : RoundTrip.Statement (.semaphoreTest core) := fun _ _ he => nomatch he
theorem RoundTrip.semaphoreOperation (core : Fin 64) (id : Nat) : RoundTrip.Statement (.semaphoreOperation core id) := fun _ _ he => nomatch he
theorem RoundTrip.monitorWake (core : Fin 64) : RoundTrip.Statement (.monitorWake core) := fun _ _ he => nomatch he
theorem RoundTrip.monitorReread (core : Fin 64) : RoundTrip.Statement (.monitorReread core) := fun _ _ he => nomatch he
theorem RoundTrip.remoteFlagChange (gid : BitVec 16) (sender : Fin 64) (rank : Nat) (f : Fin 32) (val : Bool) (epoch : Nat) (acq : List Nat) : RoundTrip.Statement (.remoteFlagChange gid sender rank f val epoch acq) := fun _ _ he => nomatch he
theorem RoundTrip.loadPerformed (core : Fin 64) (id line : Nat) : RoundTrip.Statement (.loadPerformed core id line) := fun _ _ he => nomatch he
theorem RoundTrip.loadLanding (core : Fin 64) (id : Nat) : RoundTrip.Statement (.loadLanding core id) := fun _ _ he => nomatch he
theorem RoundTrip.storePerformed (core : Fin 64) (id line : Nat) : RoundTrip.Statement (.storePerformed core id line) := fun _ _ he => nomatch he
theorem RoundTrip.wcbAgeDrain (die : Fin 8) (key : Nat) : RoundTrip.Statement (.wcbAgeDrain die key) := fun _ _ he => nomatch he
theorem RoundTrip.writeApply (home : Fin 18) (id : Nat) : RoundTrip.Statement (.writeApply home id) := fun _ _ he => nomatch he
theorem RoundTrip.closeMarker (home agent : Fin 18) (closing : Closing) : RoundTrip.Statement (.closeMarker home agent closing) := fun _ _ he => nomatch he
theorem RoundTrip.applyAcknowledgement (die : Fin 8) (id : Nat) : RoundTrip.Statement (.applyAcknowledgement die id) := fun _ _ he => nomatch he
theorem RoundTrip.releaseComplete (core : Fin 64) (id : Nat) : RoundTrip.Statement (.releaseComplete core id) := fun _ _ he => nomatch he
theorem RoundTrip.walkStart (die : Fin 8) (ctx : Fin 64) (va : Nat) : RoundTrip.Statement (.walkStart die ctx va) := fun _ _ he => nomatch he
theorem RoundTrip.walkComplete (die : Fin 8) (ctx : Fin 64) (va : Nat) : RoundTrip.Statement (.walkComplete die ctx va) := fun _ _ he => nomatch he
theorem RoundTrip.placement (core : Fin 64) : RoundTrip.Statement (.placement core) := fun _ _ he => nomatch he
theorem RoundTrip.pieceStart (place : Fin 10) : RoundTrip.Statement (.pieceStart place) := fun _ _ he => nomatch he
theorem RoundTrip.pieceComplete (id : Nat) : RoundTrip.Statement (.pieceComplete id) := fun _ _ he => nomatch he
theorem RoundTrip.kstepComplete (core : Fin 64) (id : Nat) : RoundTrip.Statement (.kstepComplete core id) := fun _ _ he => nomatch he
theorem RoundTrip.shadowSwap (core : Fin 64) : RoundTrip.Statement (.shadowSwap core) := fun _ _ he => nomatch he
theorem RoundTrip.mmaComplete (core : Fin 64) (id : Nat) : RoundTrip.Statement (.mmaComplete core id) := fun _ _ he => nomatch he
theorem RoundTrip.matrixOutputComplete (core : Fin 64) (id : Nat) : RoundTrip.Statement (.matrixOutputComplete core id) := fun _ _ he => nomatch he
theorem RoundTrip.pipeStart (core : Fin 64) (q : Bool) : RoundTrip.Statement (.pipeStart core q) := fun _ _ he => nomatch he
theorem RoundTrip.vectorComplete (core : Fin 64) (id : Nat) : RoundTrip.Statement (.vectorComplete core id) := fun _ _ he => nomatch he
theorem RoundTrip.tzeroFill (core : Fin 64) (id : Nat) : RoundTrip.Statement (.tzeroFill core id) := fun _ _ he => nomatch he
theorem RoundTrip.chcfgEntryArrival (core : Fin 64) (c : CReg) : RoundTrip.Statement (.chcfgEntryArrival core c) := fun _ _ he => nomatch he
theorem RoundTrip.channelLanding (gid : BitVec 16) (consumer : Fin 64) (sender : Nat) (c : CReg) (slot : Nat) (shape : Word) (tag : Bool) (bytes : List Byte) : RoundTrip.Statement (.channelLanding gid consumer sender c slot shape tag bytes) := fun _ _ he => nomatch he
theorem RoundTrip.channelCredit (peer : Bool) (gid : BitVec 16) (core : Fin 64) (c : CReg) : RoundTrip.Statement (.channelCredit peer gid core c) := fun _ _ he => nomatch he
theorem RoundTrip.replyArrival (core : Fin 64) (dest : ReplyTo) : RoundTrip.Statement (.replyArrival core dest) := fun _ _ he => nomatch he
theorem RoundTrip.routeOperationRun (ctx : Fin 64) (route : Fin 64) : RoundTrip.Statement (.routeOperationRun ctx route) := fun _ _ he => nomatch he
theorem RoundTrip.routeOperationComplete (ctx : Fin 64) (route : Fin 64) (peers : List (List Byte)) : RoundTrip.Statement (.routeOperationComplete ctx route peers) := fun _ _ he => nomatch he
theorem RoundTrip.joinTimeout (ctx : Fin 64) (entry : Fin 1024) (seq : Nat) : RoundTrip.Statement (.joinTimeout ctx entry seq) := fun _ _ he => nomatch he
theorem RoundTrip.conversionStageComplete (ctx : Fin 64) (entry : Fin 1024) (peers : List (List Byte)) : RoundTrip.Statement (.conversionStageComplete ctx entry peers) := fun _ _ he => nomatch he
theorem RoundTrip.collectiveStepComplete (id : Nat) (peers : List (List Byte)) : RoundTrip.Statement (.collectiveStepComplete id peers) := fun _ _ he => nomatch he
theorem RoundTrip.tsthAtEave (core : Fin 64) (id : Nat) : RoundTrip.Statement (.tsthAtEave core id) := fun _ _ he => nomatch he
theorem RoundTrip.transferLinkComplete (ch : Fin 64) : RoundTrip.Statement (.transferLinkComplete ch) := fun _ _ he => nomatch he
theorem RoundTrip.slabChunkCopied (ctx : Fin 64) (k : Fin 4096) : RoundTrip.Statement (.slabChunkCopied ctx k) := fun _ _ he => nomatch he
theorem RoundTrip.expertSlotFilled (n : Fin 64) : RoundTrip.Statement (.expertSlotFilled n) := fun _ _ he => nomatch he
theorem RoundTrip.trainingTimeout (l : Fin 48) : RoundTrip.Statement (.trainingTimeout l) := fun _ _ he => nomatch he
theorem RoundTrip.replayTimeout (l : Fin 48) : RoundTrip.Statement (.replayTimeout l) := fun _ _ he => nomatch he
theorem RoundTrip.replayComplete (l : Fin 48) : RoundTrip.Statement (.replayComplete l) := fun _ _ he => nomatch he
theorem RoundTrip.flitSend (l : Fin 48) : RoundTrip.Statement (.flitSend l) := fun _ _ he => nomatch he
theorem RoundTrip.slotOpen (l : Fin 48) : RoundTrip.Statement (.slotOpen l) := fun _ _ he => nomatch he
theorem RoundTrip.guardEnd (l : Fin 48) : RoundTrip.Statement (.guardEnd l) := fun _ _ he => nomatch he
theorem RoundTrip.slotClose (l : Fin 48) : RoundTrip.Statement (.slotClose l) := fun _ _ he => nomatch he
theorem RoundTrip.tickSend (l : Fin 48) : RoundTrip.Statement (.tickSend l) := fun _ _ he => nomatch he
theorem RoundTrip.agewaitExpiry (die : Fin 21) : RoundTrip.Statement (.agewaitExpiry die) := fun _ _ he => nomatch he
theorem RoundTrip.replanPause (die : Fin 21) : RoundTrip.Statement (.replanPause die) := fun _ _ he => nomatch he
theorem RoundTrip.pauseEnd (die : Fin 21) : RoundTrip.Statement (.pauseEnd die) := fun _ _ he => nomatch he
theorem RoundTrip.powerLoss (millivolts micros : Nat) : RoundTrip.Statement (.powerLoss millivolts micros) := fun _ _ he => nomatch he
theorem RoundTrip.overtemperature (die temp : Nat) : RoundTrip.Statement (.overtemperature die temp) := fun _ _ he => nomatch he
theorem RoundTrip.laserModuleRemoval (gable : Nat) : RoundTrip.Statement (.laserModuleRemoval gable) := fun _ _ he => nomatch he
theorem RoundTrip.laserModuleInsertion (gable : Nat) : RoundTrip.Statement (.laserModuleInsertion gable) := fun _ _ he => nomatch he
theorem RoundTrip.initComplete (hbmTrained : Bool) : RoundTrip.Statement (.initComplete hbmTrained) := fun _ _ he => nomatch he
theorem RoundTrip.spdmRequest (req : List Byte) : RoundTrip.Statement (.spdmRequest req) := fun _ _ he => nomatch he
theorem RoundTrip.registerWrite (off : Nat) (val : Word) : RoundTrip.Statement (.registerWrite off val) := fun _ _ he => nomatch he
theorem RoundTrip.hostMemRead (pa len : Nat) : RoundTrip.Statement (.hostMemRead pa len) := fun _ _ he => nomatch he
theorem RoundTrip.hostMemWrite (pa : Nat) (bytes : List Byte) : RoundTrip.Statement (.hostMemWrite pa bytes) := fun _ _ he => nomatch he
theorem RoundTrip.create (c : Fin 64) : RoundTrip.Statement (.create c) := fun _ _ he => nomatch he
theorem RoundTrip.activate (c : Fin 64) : RoundTrip.Statement (.activate c) := fun _ _ he => nomatch he
theorem RoundTrip.suspend (c : Fin 64) : RoundTrip.Statement (.suspend c) := fun _ _ he => nomatch he
theorem RoundTrip.ctxResume (c : Fin 64) : RoundTrip.Statement (.ctxResume c) := fun _ _ he => nomatch he
theorem RoundTrip.ctxFence (c : Fin 64) : RoundTrip.Statement (.ctxFence c) := fun _ _ he => nomatch he
theorem RoundTrip.destroy (c : Fin 64) : RoundTrip.Statement (.destroy c) := fun _ _ he => nomatch he
theorem RoundTrip.queueEnable (q : Fin 256) : RoundTrip.Statement (.queueEnable q) := fun _ _ he => nomatch he
theorem RoundTrip.queueDisable (q : Fin 256) : RoundTrip.Statement (.queueDisable q) := fun _ _ he => nomatch he
theorem RoundTrip.doorbell (q : Fin 256) (tail : BitVec 32) : RoundTrip.Statement (.doorbell q tail) := fun _ _ he => nomatch he
theorem RoundTrip.launch (q : Fin 256) : RoundTrip.Statement (.launch q) := fun _ _ he => nomatch he
theorem RoundTrip.collstep (q : Fin 256) : RoundTrip.Statement (.collstep q) := fun _ _ he => nomatch he
theorem RoundTrip.transfer (q : Fin 256) : RoundTrip.Statement (.transfer q) := fun _ _ he => nomatch he
theorem RoundTrip.convert (q : Fin 256) : RoundTrip.Statement (.convert q) := fun _ _ he => nomatch he
theorem RoundTrip.signal (q : Fin 256) : RoundTrip.Statement (.signal q) := fun _ _ he => nomatch he
theorem RoundTrip.waitsem (q : Fin 256) : RoundTrip.Statement (.waitsem q) := fun _ _ he => nomatch he
theorem RoundTrip.tickstart (q : Fin 256) : RoundTrip.Statement (.tickstart q) := fun _ _ he => nomatch he
theorem RoundTrip.marker (q : Fin 256) : RoundTrip.Statement (.marker q) := fun _ _ he => nomatch he
theorem RoundTrip.drainMarker (path : Nat) (gid : BitVec 16) : RoundTrip.Statement (.drainMarker path gid) := fun _ _ he => nomatch he
theorem RoundTrip.late (sptag : BitVec 16) : RoundTrip.Statement (.late sptag) := fun _ _ he => nomatch he
theorem RoundTrip.packageArrival (sptag : BitVec 16) (b : BReg) (phase : Bool) (rank : Nat) : RoundTrip.Statement (.packageArrival sptag b phase rank) := fun _ _ he => nomatch he
theorem RoundTrip.join (key rank : Nat) (seq axis src dst : Nat) : RoundTrip.Statement (.join key rank seq axis src dst) := fun _ _ he => nomatch he
theorem RoundTrip.bankRetry (core : Fin 64) : RoundTrip.Statement (.bankRetry core) := fun _ _ he => nomatch he
theorem RoundTrip.lnkTrain (l : Fin 48) : RoundTrip.Statement (.lnkTrain l) := fun _ _ he => nomatch he
theorem RoundTrip.lnkFence (l : Fin 48) : RoundTrip.Statement (.lnkFence l) := fun _ _ he => nomatch he
theorem RoundTrip.lnkDisable (l : Fin 48) : RoundTrip.Statement (.lnkDisable l) := fun _ _ he => nomatch he
theorem RoundTrip.trainingDone (l : Fin 48) (locked : Nat) (ident tail : List Byte) : RoundTrip.Statement (.trainingDone l locked ident tail) := fun _ _ he => nomatch he
theorem RoundTrip.wavelengthLoss (l : Fin 48) : RoundTrip.Statement (.wavelengthLoss l) := fun _ _ he => nomatch he
theorem RoundTrip.nak (l : Fin 48) (flit : List Byte) : RoundTrip.Statement (.nak l flit) := fun _ _ he => nomatch he
theorem RoundTrip.payload (l : Fin 48) (flit : List Byte) : RoundTrip.Statement (.payload l flit) := fun _ _ he => nomatch he
theorem RoundTrip.last (l : Fin 48) (flit : LastFlit) : RoundTrip.Statement (.last l flit) := fun _ _ he => nomatch he
theorem RoundTrip.idle (l : Fin 48) (flit : List Byte) : RoundTrip.Statement (.idle l flit) := fun _ _ he => nomatch he
theorem RoundTrip.tickFlit (l : Fin 48) (flit : List Byte) (roundTrip : Nat) : RoundTrip.Statement (.tickFlit l flit roundTrip) := fun _ _ he => nomatch he
theorem RoundTrip.slotid (l : Fin 48) (flit : List Byte) : RoundTrip.Statement (.slotid l flit) := fun _ _ he => nomatch he
theorem RoundTrip.sltctlWrite (l : Fin 48) (val : Word) : RoundTrip.Statement (.sltctlWrite l val) := fun _ _ he => nomatch he
theorem RoundTrip.crcFailure (l : Fin 48) : RoundTrip.Statement (.crcFailure l) := fun _ _ he => nomatch he
theorem RoundTrip.meshcfgWrite (val : Word) : RoundTrip.Statement (.meshcfgWrite val) := fun _ _ he => nomatch he
theorem RoundTrip.l2qtWrite (val : Word) : RoundTrip.Statement (.l2qtWrite val) := fun _ _ he => nomatch he
theorem RoundTrip.excfgWrite (val : Word) : RoundTrip.Statement (.excfgWrite val) := fun _ _ he => nomatch he
theorem RoundTrip.gstaleWrite (val : Word) : RoundTrip.Statement (.gstaleWrite val) := fun _ _ he => nomatch he
theorem RoundTrip.invreq (val : Word) : RoundTrip.Statement (.invreq val) := fun _ _ he => nomatch he
theorem RoundTrip.resume (val : Word) : RoundTrip.Statement (.resume val) := fun _ _ he => nomatch he
theorem RoundTrip.measurement (margins temps : List Nat) : RoundTrip.Statement (.measurement margins temps) := fun _ _ he => nomatch he
theorem RoundTrip.pkgtelRefresh (watts inlet outlet : Nat) : RoundTrip.Statement (.pkgtelRefresh watts inlet outlet) := fun _ _ he => nomatch he
theorem RoundTrip.uncorrectableError (pa : Nat) (consumer : Nat) (kind : Nat) : RoundTrip.Statement (.uncorrectableError pa consumer kind) := fun _ _ he => nomatch he
theorem RoundTrip.coreLogicCheck (core : Fin 64) : RoundTrip.Statement (.coreLogicCheck core) := fun _ _ he => nomatch he
theorem RoundTrip.eaveLogicCheck (u : Fin 8) : RoundTrip.Statement (.eaveLogicCheck u) := fun _ _ he => nomatch he
theorem RoundTrip.arrayLogicCheck (a : Fin 4) : RoundTrip.Statement (.arrayLogicCheck a) := fun _ _ he => nomatch he
theorem RoundTrip.linkError (l : Fin 48) : RoundTrip.Statement (.linkError l) := fun _ _ he => nomatch he
theorem RoundTrip.coldStart : RoundTrip.Statement .coldStart := fun _ _ he => nomatch he
theorem RoundTrip.boot : RoundTrip.Statement .boot := fun _ _ he => nomatch he
theorem RoundTrip.imageVerified : RoundTrip.Statement .imageVerified := fun _ _ he => nomatch he
theorem RoundTrip.warmReset : RoundTrip.Statement .warmReset := fun _ _ he => nomatch he
theorem RoundTrip.functionLevelReset : RoundTrip.Statement .functionLevelReset := fun _ _ he => nomatch he
theorem RoundTrip.frontEndStart : RoundTrip.Statement .frontEndStart := fun _ _ he => nomatch he
theorem RoundTrip.invalidationBegin : RoundTrip.Statement .invalidationBegin := fun _ _ he => nomatch he
theorem RoundTrip.invalidationComplete : RoundTrip.Statement .invalidationComplete := fun _ _ he => nomatch he
theorem RoundTrip.meas : RoundTrip.Statement .meas := fun _ _ he => nomatch he
theorem RoundTrip.correctableError : RoundTrip.Statement .correctableError := fun _ _ he => nomatch he

end Sys2Proof.Laws
end

