-- ==== Sys2Proof/Tests/Slice0.lean ====
section
/-! SUPPORT. Tests: ill-formed terms that the check refuses, words written out from the encoding tables, worked values of
the manual, and for each statement with hypotheses a state and operands that meet them. -/

namespace Sys2Proof.Tests

open Sys2Proof Sys2Proof.Machine Sys2Proof.Bits

/-! ### Well-formed and ill-formed terms -/

/-- The header of an instruction in slot `k` under p0. -/
def hd (k : Fin 8) : Hdr := ⟨k, 0, false⟩

/-- Each check of `Instr.wf` refuses a term: the slot, LBRK's count, xC without `.remote`, a shift count, an unassigned special
register, a loop level, a handle field, a landing code, a selector of VRCNT. -/
theorem test_ill_formed_refused :
    (Instr.add (hd 0) 1 2 3 .wrap).wf = false ∧ (Instr.br (hd 1) 0).wf = false ∧ (Instr.oset (hd 1) 0 0).wf = false ∧
    (Instr.tld (hd 4) 0 0 0 false 0).wf = false ∧ (Instr.mclr (hd 3) 0).wf = false ∧ (Instr.vadd (hd 7) 0 0 0).wf = false ∧
    (Instr.qthr (hd 5) 0 0).wf = false ∧ (Instr.tick (hd 6) 0).wf = false ∧
    (Instr.lbrk (hd 0) 0).wf = false ∧ (Instr.lbrk (hd 0) 7).wf = false ∧
    (Instr.setf (hd 0) 0 1 false).wf = false ∧ (Instr.clrf (hd 0) 0 1 false).wf = false ∧
    (Instr.shli (hd 1) 0 0 64).wf = false ∧ (Instr.shri (hd 1) 0 0 64).wf = false ∧ (Instr.sari (hd 1) 0 0 64).wf = false ∧
    (Instr.mfs (hd 1) 0 0x006).wf = false ∧ (Instr.mts (hd 1) 0 0x022).wf = false ∧
    (Instr.xidx (hd 1) 0 6).wf = false ∧ (Instr.ostr (hd 2) 0 6 0).wf = false ∧ (Instr.mfmt (hd 4) 6).wf = false ∧
    (Instr.hset (hd 2) 0 0 14).wf = false ∧ (Instr.hget (hd 2) 0 0 14).wf = false ∧
    (Instr.tldw (hd 3) 0 0 0 0).wf = false ∧ (Instr.vrcnt (hd 7) 0 0 9).wf = false := by decide

/-- The terms at the edge of the same ranges are well formed. -/
theorem test_edges_well_formed :
    (Instr.lbrk (hd 0) 6).wf = true ∧ (Instr.shli (hd 1) 0 0 63).wf = true ∧ (Instr.xidx (hd 1) 0 5).wf = true ∧
    (Instr.hset (hd 2) 0 0 13).wf = true ∧ (Instr.tldw (hd 3) 0 0 0 1).wf = true ∧ (Instr.vrcnt (hd 7) 0 0 8).wf = true := by decide

/-! ### Words -/

/-- Words the manual works out (chapters 14 to 21). -/
theorem test_worked_words_control :
    decodeSlot 0 0x077FFFFD = .ok (.br ⟨0, 13, true⟩ 0x1FFFFD) ∧
    decodeSlot 0 0x18080000 = .ok (.lbrk ⟨0, 0, false⟩ 2) ∧
    decodeSlot 0 0x24051E00 = .ok (.setf ⟨0, 0, false⟩ 5 7 true) ∧
    decodeSlot 0 0x2C018828 = .ok (.sadd ⟨0, 0, false⟩ 3 4 5) ∧
    decodeSlot 0 0x48018B00 = .ok (.barv ⟨0, 0, false⟩ 3 5 true) ∧
    decodeSlot 0 0x20020A80 = .ok (.waita ⟨0, 0, false⟩ 4 5 .ne) ∧
    decodeSlot 0 0x54120000 = .ok (.fence ⟨0, 0, false⟩ .rel .device) ∧
    decodeSlot 0 0x64000000 = .ok (.layer ⟨0, 0, false⟩) ∧
    decodeSlot 0 0x68000000 = .ok (.spec ⟨0, 0, false⟩) ∧
    decodeSlot 0 0x6C000000 = .ok (.cmit ⟨0, 0, false⟩) ∧
    decodeSlot 0 0x70000000 = .ok (.sabt ⟨0, 0, false⟩) ∧
    decodeSlot 0 0x74014000 = .ok (.trap ⟨0, 0, false⟩ 5) ∧
    decodeSlot 0 0x78000000 = .ok (.exit ⟨0, 0, false⟩) := by
  refine ⟨?_, ?_, ?_, ?_, ?_, ?_, ?_, ?_, ?_, ?_, ?_, ?_, ?_⟩ <;> rfl

/-- Words written out from the tables of chapter 14, each operand at its place. -/
theorem test_written_words_control :
    decodeSlot 0 (0x00 * 2 ^ 26) = .ok (.nop ⟨0, 0, false⟩) ∧
    decodeSlot 0 (0x02 * 2 ^ 26 + 2097147) = .ok (.call ⟨0, 0, false⟩ 0x1FFFFB) ∧
    decodeSlot 0 (0x03 * 2 ^ 26) = .ok (.ret ⟨0, 0, false⟩) ∧
    decodeSlot 0 (0x04 * 2 ^ 26 + 3) = .ok (.jmp ⟨0, 0, false⟩ 3) ∧
    decodeSlot 0 (0x05 * 2 ^ 26 + 1 * 2 ^ 19 + 1 * 2 ^ 18 + 21 * 2 ^ 8 + 6) = .ok (.loop ⟨0, 0, false⟩ true true 21 6) ∧
    decodeSlot 0 (0x05 * 2 ^ 26 + 0x100000 + 1 * 2 ^ 19 + 1 * 2 ^ 18 + 21 * 2 ^ 12 + 6) = .ok (.loopReg ⟨0, 0, false⟩ true true 21 6) ∧
    decodeSlot 0 (0x07 * 2 ^ 26 + 3 * 2 ^ 15 + 1 * 2 ^ 14) = .ok (.waitFlag ⟨0, 0, false⟩ 3 true) ∧
    decodeSlot 0 (0x07 * 2 ^ 26 + 0x100000 + 3 * 2 ^ 14 + 14 * 2 ^ 8) = .ok (.waitSem ⟨0, 0, false⟩ 3 14) ∧
    decodeSlot 0 (0x0A * 2 ^ 26 + 3 * 2 ^ 16 + 14 * 2 ^ 10 + 1 * 2 ^ 9) = .ok (.clrf ⟨0, 0, false⟩ 3 14 true) ∧
    decodeSlot 0 (0x0C * 2 ^ 26 + 3 * 2 ^ 15 + 14 * 2 ^ 9 + 21 * 2 ^ 3) = .ok (.scas ⟨0, 0, false⟩ 3 14 21) ∧
    decodeSlot 0 (0x0D * 2 ^ 26 + 3 * 2 ^ 15 + 14 * 2 ^ 9 + 21 * 2 ^ 3) = .ok (.sxch ⟨0, 0, false⟩ 3 14 21) ∧
    decodeSlot 0 (0x0E * 2 ^ 26 + 3 * 2 ^ 15 + 14 * 2 ^ 9 + 21 * 2 ^ 3) = .ok (.smax ⟨0, 0, false⟩ 3 14 21) ∧
    decodeSlot 0 (0x0F * 2 ^ 26 + 3 * 2 ^ 15 + 14 * 2 ^ 9 + 21 * 2 ^ 3) = .ok (.swge ⟨0, 0, false⟩ 3 14 21) ∧
    decodeSlot 0 (0x10 * 2 ^ 26 + 3 * 2 ^ 15 + 14 * 2 ^ 9) = .ok (.srd ⟨0, 0, false⟩ 3 14) ∧
    decodeSlot 0 (0x11 * 2 ^ 26 + 3 * 2 ^ 15 + 14 * 2 ^ 9) = .ok (.bdcl ⟨0, 0, false⟩ 3 14) ∧
    decodeSlot 0 (0x13 * 2 ^ 26 + 3 * 2 ^ 15) = .ok (.bwt ⟨0, 0, false⟩ 3) ∧
    decodeSlot 0 (0x14 * 2 ^ 26 + 3 * 2 ^ 15 + 14 * 2 ^ 9 + 1 * 2 ^ 8) = .ok (.sstep ⟨0, 0, false⟩ 3 14 true) ∧
    decodeSlot 0 (0x16 * 2 ^ 26) = .ok (.trig ⟨0, 0, false⟩) ∧
    decodeSlot 0 (0x17 * 2 ^ 26 + 3 * 2 ^ 15 + 14 * 2 ^ 9 + 21 * 2 ^ 2 + 1 * 2 ^ 1) = .ok (.enq ⟨0, 0, false⟩ 3 14 21 true) ∧
    decodeSlot 0 (0x18 * 2 ^ 26) = .ok (.ntile ⟨0, 0, false⟩) ∧
    decodeSlot 0 (0x20 * 2 ^ 26 + 3 * 2 ^ 15 + 14 * 2 ^ 9 + 21 * 2 ^ 3) = .ok (.frsm ⟨0, 0, false⟩ 3 14 21) ∧
    decodeSlot 0 (0x21 * 2 ^ 26 + 3 * 2 ^ 15 + 14 * 2 ^ 9 + 1 * 2 ^ 7) = .ok (.tlbi ⟨0, 0, false⟩ 3 14 .m2) := by
  refine ⟨?_, ?_, ?_, ?_, ?_, ?_, ?_, ?_, ?_, ?_, ?_, ?_, ?_, ?_, ?_, ?_, ?_, ?_, ?_, ?_, ?_, ?_⟩ <;> rfl

/-- Words the manual works out (chapters 14 to 21). -/
theorem test_worked_words_scalar :
    decodeSlot 1 0x04018620 = .ok (.add ⟨1, 0, false⟩ 3 3 4 .wrap) ∧
    decodeSlot 1 0x81430E40 = .ok (.sel ⟨1, 5, false⟩ 6 7 8) ∧
    decodeSlot 1 0x84084700 = .ok (.plog ⟨1, 0, false⟩ 4 2 3 8) ∧
    decodeSlot 1 0x780420A9 = .ok (.cmp ⟨1, 0, false⟩ 2 4 5 .lt .and) ∧
    decodeSlot 1 0x7C04E804 = .ok (.cmpi ⟨1, 0, false⟩ 2 29 0 .ne .set) ∧
    decodeSlot 1 0x980F0120 = .ok (.mfs ⟨1, 0, false⟩ 30 9) ∧
    decodeSlot 2 0x9C0F8120 = .ok (.mts ⟨2, 0, false⟩ 31 9) ∧
    decodeSlot 1 0xA0049000 = .ok (.xidx ⟨1, 0, false⟩ 9 1) ∧
    decodeSlot 2 0xC8020900 = .ok (.ostr ⟨2, 0, false⟩ 1 0 9) ∧
    decodeSlot 2 0xD1000006 = .ok (.brx ⟨2, 4, false⟩ 6) ∧
    decodeSlot 2 0xD4019740 = .ok (.hset ⟨2, 0, false⟩ 3 11 10) ∧
    decodeSlot 2 0xD80207A0 = .ok (.hget ⟨2, 0, false⟩ 4 3 13) ∧
    decodeSlot 2 0xDC028600 = .ok (.hcpy ⟨2, 0, false⟩ 5 3) := by
  refine ⟨?_, ?_, ?_, ?_, ?_, ?_, ?_, ?_, ?_, ?_, ?_, ?_, ?_⟩ <;> rfl

/-- Words written out from the tables of chapter 14, each operand at its place. -/
theorem test_written_words_scalar :
    decodeSlot 1 (0x02 * 2 ^ 26 + 3 * 2 ^ 15 + 14 * 2 ^ 9 + 21 * 2 ^ 3 + 2) = .ok (.sub ⟨1, 0, false⟩ 3 14 21 .satu) ∧
    decodeSlot 1 (0x03 * 2 ^ 26 + 3 * 2 ^ 15 + 14 * 2 ^ 9 + 21 * 2 ^ 3) = .ok (.mul ⟨1, 0, false⟩ 3 14 21) ∧
    decodeSlot 1 (0x04 * 2 ^ 26 + 3 * 2 ^ 15 + 14 * 2 ^ 9 + 21 * 2 ^ 3) = .ok (.mulh ⟨1, 0, false⟩ 3 14 21) ∧
    decodeSlot 1 (0x05 * 2 ^ 26 + 3 * 2 ^ 15 + 14 * 2 ^ 9 + 21 * 2 ^ 3) = .ok (.mulhu ⟨1, 0, false⟩ 3 14 21) ∧
    decodeSlot 1 (0x06 * 2 ^ 26 + 3 * 2 ^ 15 + 14 * 2 ^ 9 + 21 * 2 ^ 3) = .ok (.div ⟨1, 0, false⟩ 3 14 21) ∧
    decodeSlot 1 (0x07 * 2 ^ 26 + 3 * 2 ^ 15 + 14 * 2 ^ 9 + 21 * 2 ^ 3) = .ok (.divu ⟨1, 0, false⟩ 3 14 21) ∧
    decodeSlot 1 (0x08 * 2 ^ 26 + 3 * 2 ^ 15 + 14 * 2 ^ 9 + 21 * 2 ^ 3) = .ok (.rem ⟨1, 0, false⟩ 3 14 21) ∧
    decodeSlot 1 (0x09 * 2 ^ 26 + 3 * 2 ^ 15 + 14 * 2 ^ 9 + 21 * 2 ^ 3) = .ok (.remu ⟨1, 0, false⟩ 3 14 21) ∧
    decodeSlot 1 (0x0A * 2 ^ 26 + 3 * 2 ^ 15 + 14 * 2 ^ 9 + 21 * 2 ^ 3) = .ok (.and ⟨1, 0, false⟩ 3 14 21) ∧
    decodeSlot 1 (0x0B * 2 ^ 26 + 3 * 2 ^ 15 + 14 * 2 ^ 9 + 21 * 2 ^ 3) = .ok (.or ⟨1, 0, false⟩ 3 14 21) ∧
    decodeSlot 1 (0x0C * 2 ^ 26 + 3 * 2 ^ 15 + 14 * 2 ^ 9 + 21 * 2 ^ 3) = .ok (.xor ⟨1, 0, false⟩ 3 14 21) ∧
    decodeSlot 1 (0x0D * 2 ^ 26 + 3 * 2 ^ 15 + 14 * 2 ^ 9 + 21 * 2 ^ 3) = .ok (.andn ⟨1, 0, false⟩ 3 14 21) ∧
    decodeSlot 1 (0x0E * 2 ^ 26 + 3 * 2 ^ 15 + 14 * 2 ^ 9 + 21 * 2 ^ 3) = .ok (.shl ⟨1, 0, false⟩ 3 14 21) ∧
    decodeSlot 1 (0x0F * 2 ^ 26 + 3 * 2 ^ 15 + 14 * 2 ^ 9 + 21 * 2 ^ 3) = .ok (.shr ⟨1, 0, false⟩ 3 14 21) ∧
    decodeSlot 1 (0x10 * 2 ^ 26 + 3 * 2 ^ 15 + 14 * 2 ^ 9 + 21 * 2 ^ 3) = .ok (.sar ⟨1, 0, false⟩ 3 14 21) ∧
    decodeSlot 1 (0x11 * 2 ^ 26 + 3 * 2 ^ 15 + 14 * 2 ^ 9 + 21 * 2 ^ 3) = .ok (.min ⟨1, 0, false⟩ 3 14 21) ∧
    decodeSlot 1 (0x12 * 2 ^ 26 + 3 * 2 ^ 15 + 14 * 2 ^ 9 + 21 * 2 ^ 3) = .ok (.max ⟨1, 0, false⟩ 3 14 21) ∧
    decodeSlot 1 (0x13 * 2 ^ 26 + 3 * 2 ^ 15 + 14 * 2 ^ 9 + 21 * 2 ^ 3) = .ok (.minu ⟨1, 0, false⟩ 3 14 21) ∧
    decodeSlot 1 (0x14 * 2 ^ 26 + 3 * 2 ^ 15 + 14 * 2 ^ 9 + 21 * 2 ^ 3) = .ok (.maxu ⟨1, 0, false⟩ 3 14 21) ∧
    decodeSlot 1 (0x15 * 2 ^ 26 + 3 * 2 ^ 15 + 14 * 2 ^ 9 + 507) = .ok (.addi ⟨1, 0, false⟩ 3 14 0x1FB) ∧
    decodeSlot 1 (0x16 * 2 ^ 26 + 3 * 2 ^ 15 + 14 * 2 ^ 9 + 507) = .ok (.andi ⟨1, 0, false⟩ 3 14 0x1FB) ∧
    decodeSlot 1 (0x17 * 2 ^ 26 + 3 * 2 ^ 15 + 14 * 2 ^ 9 + 507) = .ok (.ori ⟨1, 0, false⟩ 3 14 0x1FB) ∧
    decodeSlot 1 (0x18 * 2 ^ 26 + 3 * 2 ^ 15 + 14 * 2 ^ 9 + 507) = .ok (.xori ⟨1, 0, false⟩ 3 14 0x1FB) ∧
    decodeSlot 1 (0x19 * 2 ^ 26 + 3 * 2 ^ 15 + 14 * 2 ^ 9 + 63) = .ok (.shli ⟨1, 0, false⟩ 3 14 0x3F) ∧
    decodeSlot 1 (0x1A * 2 ^ 26 + 3 * 2 ^ 15 + 14 * 2 ^ 9 + 63) = .ok (.shri ⟨1, 0, false⟩ 3 14 0x3F) ∧
    decodeSlot 1 (0x1B * 2 ^ 26 + 3 * 2 ^ 15 + 14 * 2 ^ 9 + 63) = .ok (.sari ⟨1, 0, false⟩ 3 14 0x3F) ∧
    decodeSlot 1 (0x1C * 2 ^ 26 + 3 * 2 ^ 15 + 32763) = .ok (.li ⟨1, 0, false⟩ 3 0x7FFB) ∧
    decodeSlot 1 (0x1D * 2 ^ 26 + 3 * 2 ^ 15 + 32763) = .ok (.lih ⟨1, 0, false⟩ 3 0x7FFB) ∧
    decodeSlot 1 (0x22 * 2 ^ 26 + 3 * 2 ^ 15 + 14 * 2 ^ 9) = .ok (.clz ⟨1, 0, false⟩ 3 14) ∧
    decodeSlot 1 (0x23 * 2 ^ 26 + 3 * 2 ^ 15 + 14 * 2 ^ 9) = .ok (.ctz ⟨1, 0, false⟩ 3 14) ∧
    decodeSlot 1 (0x24 * 2 ^ 26 + 3 * 2 ^ 15 + 14 * 2 ^ 9) = .ok (.popc ⟨1, 0, false⟩ 3 14) ∧
    decodeSlot 1 (0x25 * 2 ^ 26 + 3 * 2 ^ 15 + 14 * 2 ^ 9 + 21 * 2 ^ 3 + 1) = .ok (.bfx ⟨1, 0, false⟩ 3 14 21 true) ∧
    decodeSlot 1 (0x29 * 2 ^ 26 + 3 * 2 ^ 15 + 6 * 2 ^ 12 + 291) = .ok (.ldp ⟨1, 0, false⟩ 3 6 291) ∧
    decodeSlot 1 (0x2A * 2 ^ 26 + 3 * 2 ^ 15 + 6 * 2 ^ 12 + 21 * 2 ^ 6) = .ok (.ldpx ⟨1, 0, false⟩ 3 6 21) ∧
    decodeSlot 2 (0x30 * 2 ^ 26 + 3 * 2 ^ 17 + 14 * 2 ^ 11) = .ok (.oset ⟨2, 0, false⟩ 3 14) ∧
    decodeSlot 2 (0x31 * 2 ^ 26 + 3 * 2 ^ 17 + 131067) = .ok (.oaddi ⟨2, 0, false⟩ 3 0x1FFFB) ∧
    decodeSlot 2 (0x33 * 2 ^ 26 + 3 * 2 ^ 15 + 14 * 2 ^ 11) = .ok (.ord ⟨2, 0, false⟩ 3 14) := by
  refine ⟨?_, ?_, ?_, ?_, ?_, ?_, ?_, ?_, ?_, ?_, ?_, ?_, ?_, ?_, ?_, ?_, ?_, ?_, ?_, ?_, ?_, ?_, ?_, ?_, ?_, ?_, ?_, ?_, ?_, ?_, ?_, ?_, ?_, ?_, ?_, ?_, ?_⟩ <;> rfl

/-- Words the manual works out (chapters 14 to 21). -/
theorem test_worked_words_tilememory :
    decodeSlot 3 0x040A072B = .ok (.tld ⟨3, 0, false⟩ 40 7 2 true 3) ∧
    decodeSlot 3 0x08101430 = .ok (.tst ⟨3, 0, false⟩ 64 20 3) ∧
    decodeSlot 3 0x0C050361 = .ok (.tldh ⟨3, 0, false⟩ 20 3 1 true 1) ∧
    decodeSlot 3 0x10054280 = .ok (.tsth ⟨3, 0, false⟩ 21 2 2) ∧
    decodeSlot 3 0x14018951 = .ok (.tldg ⟨3, 0, false⟩ 6 9 40 true) ∧
    decodeSlot 3 0x18018950 = .ok (.tsts ⟨3, 0, false⟩ 6 9 40) ∧
    decodeSlot 3 0x1C01CA54 = .ok (.tldx ⟨3, 0, false⟩ 7 10 5 4) ∧
    decodeSlot 3 0x20061A21 = .ok (.tldw ⟨3, 0, false⟩ 12 13 1 1) ∧
    decodeSlot 3 0x2401440E = .ok (.tshpBound ⟨3, 0, false⟩ 5 4 3) ∧
    decodeSlot 3 0x28024000 = .ok (.tzero ⟨3, 0, false⟩ 9) ∧
    decodeSlot 3 0x2C024000 = .ok (.tempty ⟨3, 0, false⟩ 9) ∧
    decodeSlot 3 0x30018C48 = .ok (.twarm ⟨3, 0, false⟩ 3 6 2 .l2) ∧
    decodeSlot 3 0x34010620 = .ok (.xchn ⟨3, 0, false⟩ 2 3 4) ∧
    decodeSlot 3 0x38028800 = .ok (.twm ⟨3, 0, false⟩ 5 4) := by
  refine ⟨?_, ?_, ?_, ?_, ?_, ?_, ?_, ?_, ?_, ?_, ?_, ?_, ?_, ?_⟩ <;> rfl

/-- Words written out from the tables of chapter 14, each operand at its place. -/
theorem test_written_words_tilememory :
    decodeSlot 3 (0x09 * 2 ^ 26 + 3 * 2 ^ 14 + 14 * 2 ^ 8) = .ok (.tshp ⟨3, 0, false⟩ 3 14) := by
  rfl

/-- Words the manual works out (chapters 14 to 21). -/
theorem test_worked_words_matrix :
    decodeSlot 4 0x04080850 = .ok (.mma ⟨4, 0, false⟩ 1 (.tile 2) (.tile 40) false) ∧
    decodeSlot 4 0x04000103 = .ok (.mma ⟨4, 0, false⟩ 0 (.tile 0) (.chan 1) true) ∧
    decodeSlot 4 0x08000040 = .ok (.mmaz ⟨4, 0, false⟩ 0 (.tile 0) (.tile 32) false) ∧
    decodeSlot 4 0x0804120A = .ok (.mmaz ⟨4, 0, false⟩ 0 (.hnd 4) (.hnd 5) false) ∧
    decodeSlot 4 0x0C100100 = .ok (.mout ⟨4, 0, false⟩ 64 0 .rne true) ∧
    decodeSlot 4 0x0C11A800 = .ok (.mout ⟨4, 0, false⟩ 70 2 .sr false) ∧
    decodeSlot 4 0x10119240 = .ok (.mrd ⟨4, 0, false⟩ 70 1 9) ∧
    decodeSlot 4 0x14180000 = .ok (.mclr ⟨4, 0, false⟩ 3) ∧
    decodeSlot 4 0x18038000 = .ok (.mcop ⟨4, 0, false⟩ 7) ∧
    decodeSlot 4 0x1C120C00 = .ok (.mfeed ⟨4, 0, false⟩ 2 (.chan 3)) ∧
    decodeSlot 4 0x20040000 = .ok (.mfmt ⟨4, 0, false⟩ 1) := by
  refine ⟨?_, ?_, ?_, ?_, ?_, ?_, ?_, ?_, ?_, ?_, ?_⟩ <;> rfl

/-- Words the manual works out (chapters 14 to 21). -/
theorem test_worked_words_vector :
    decodeSlot 5 0x04024286 = .ok (.vadd ⟨5, 0, false⟩ 9 5 6) ∧
    decodeSlot 5 0x10028286 = .ok (.vfma ⟨5, 0, false⟩ 10 5 6) ∧
    decodeSlot 5 0x24030590 = .ok (.vrcp ⟨5, 0, false⟩ 12 11 .rz false) ∧
    decodeSlot 5 0x38052008 = .ok (.vcvt ⟨5, 0, false⟩ 20 64 .rne true) ∧
    decodeSlot 5 0x48078F8A = .ok (.vshl ⟨5, 0, false⟩ 30 31 5) ∧
    decodeSlot 5 0x50038286 = .ok (.vcmp ⟨5, 0, false⟩ 14 5 6) ∧
    decodeSlot 5 0x5C01C430 = .ok (.vopx ⟨5, 0, false⟩ 7 8 .relu) ∧
    decodeSlot 5 0x640A148A = .ok (.vrred ⟨5, 0, false⟩ 40 41 .rne true .max) ∧
    decodeSlot 5 0x6C028818 = .ok (.vxs ⟨5, 0, false⟩ 5 8 6) ∧
    decodeSlot 5 0x70020518 = .ok (.vins ⟨5, 0, false⟩ 8 5 6) ∧
    decodeSlot 5 0x74024000 = .ok (.viota ⟨5, 0, false⟩ 9 0) ∧
    decodeSlot 5 0x7C030688 = .ok (.vscan ⟨5, 0, false⟩ 12 13 .rne true .sum) ∧
    decodeSlot 5 0x800285C0 = .ok (.vpart ⟨5, 0, false⟩ 10 11 2) ∧
    decodeSlot 5 0x8803C280 = .ok (.vtrn ⟨5, 0, false⟩ 15 5) ∧
    decodeSlot 6 0xC00C8A00 = .ok (.qthr ⟨6, 0, false⟩ 50 20) ∧
    decodeSlot 6 0xC4CC8800 = .ok (.qbis ⟨6, 3, false⟩ 50 1) ∧
    decodeSlot 6 0xC80CCA32 = .ok (.qsel ⟨6, 0, false⟩ 51 20 50) ∧
    decodeSlot 6 0xCC0A0A08 = .ok (.qscl ⟨6, 0, false⟩ 40 20 .rne true) ∧
    decodeSlot 6 0xD0118A08 = .ok (.qnt ⟨6, 0, false⟩ 70 20 .rne true) ∧
    decodeSlot 6 0xD411E300 = .ok (.qdq ⟨6, 0, false⟩ 71 70) ∧
    decodeSlot 6 0xD8120A49 = .ok (.qef ⟨6, 0, false⟩ 72 20 73) := by
  refine ⟨?_, ?_, ?_, ?_, ?_, ?_, ?_, ?_, ?_, ?_, ?_, ?_, ?_, ?_, ?_, ?_, ?_, ?_, ?_, ?_, ?_⟩ <;> rfl

/-- Words written out from the tables of chapter 14, each operand at its place. -/
theorem test_written_words_vector :
    decodeSlot 5 (0x02 * 2 ^ 26 + 3 * 2 ^ 14 + 14 * 2 ^ 7 + 21) = .ok (.vsub ⟨5, 0, false⟩ 3 14 21) ∧
    decodeSlot 5 (0x03 * 2 ^ 26 + 3 * 2 ^ 14 + 14 * 2 ^ 7 + 21) = .ok (.vmul ⟨5, 0, false⟩ 3 14 21) ∧
    decodeSlot 5 (0x05 * 2 ^ 26 + 3 * 2 ^ 14 + 14 * 2 ^ 7 + 21) = .ok (.vmax ⟨5, 0, false⟩ 3 14 21) ∧
    decodeSlot 5 (0x06 * 2 ^ 26 + 3 * 2 ^ 14 + 14 * 2 ^ 7 + 21) = .ok (.vmin ⟨5, 0, false⟩ 3 14 21) ∧
    decodeSlot 5 (0x07 * 2 ^ 26 + 3 * 2 ^ 14 + 14 * 2 ^ 7) = .ok (.vabs ⟨5, 0, false⟩ 3 14) ∧
    decodeSlot 5 (0x08 * 2 ^ 26 + 3 * 2 ^ 14 + 14 * 2 ^ 7) = .ok (.vneg ⟨5, 0, false⟩ 3 14) ∧
    decodeSlot 5 (0x0A * 2 ^ 26 + 3 * 2 ^ 14 + 14 * 2 ^ 7 + 1 * 2 ^ 4 + 1 * 2 ^ 3) = .ok (.vrsq ⟨5, 0, false⟩ 3 14 .rz true) ∧
    decodeSlot 5 (0x0B * 2 ^ 26 + 3 * 2 ^ 14 + 14 * 2 ^ 7 + 1 * 2 ^ 4 + 1 * 2 ^ 3) = .ok (.vsqrt ⟨5, 0, false⟩ 3 14 .rz true) ∧
    decodeSlot 5 (0x0C * 2 ^ 26 + 3 * 2 ^ 14 + 14 * 2 ^ 7 + 1 * 2 ^ 4 + 1 * 2 ^ 3) = .ok (.vexp2 ⟨5, 0, false⟩ 3 14 .rz true) ∧
    decodeSlot 5 (0x0D * 2 ^ 26 + 3 * 2 ^ 14 + 14 * 2 ^ 7 + 1 * 2 ^ 4 + 1 * 2 ^ 3) = .ok (.vlog2 ⟨5, 0, false⟩ 3 14 .rz true) ∧
    decodeSlot 5 (0x0F * 2 ^ 26 + 3 * 2 ^ 14 + 14 * 2 ^ 7 + 21) = .ok (.vand ⟨5, 0, false⟩ 3 14 21) ∧
    decodeSlot 5 (0x10 * 2 ^ 26 + 3 * 2 ^ 14 + 14 * 2 ^ 7 + 21) = .ok (.vor ⟨5, 0, false⟩ 3 14 21) ∧
    decodeSlot 5 (0x11 * 2 ^ 26 + 3 * 2 ^ 14 + 14 * 2 ^ 7 + 21) = .ok (.vxor ⟨5, 0, false⟩ 3 14 21) ∧
    decodeSlot 5 (0x13 * 2 ^ 26 + 3 * 2 ^ 14 + 14 * 2 ^ 7 + 21 * 2 ^ 1) = .ok (.vshr ⟨5, 0, false⟩ 3 14 21) ∧
    decodeSlot 5 (0x15 * 2 ^ 26 + 3 * 2 ^ 14 + 14 * 2 ^ 7 + 21) = .ok (.vsel ⟨5, 0, false⟩ 3 14 21) ∧
    decodeSlot 5 (0x16 * 2 ^ 26 + 3 * 2 ^ 14 + 14 * 2 ^ 7) = .ok (.vmov ⟨5, 0, false⟩ 3 14) ∧
    decodeSlot 5 (0x18 * 2 ^ 26 + 3 * 2 ^ 14 + 14 * 2 ^ 7) = .ok (.vbc ⟨5, 0, false⟩ 3 14) ∧
    decodeSlot 5 (0x1A * 2 ^ 26 + 3 * 2 ^ 14 + 14 * 2 ^ 7 + 1 * 2 ^ 4 + 1 * 2 ^ 3 + 1 * 2 ^ 1) = .ok (.vcred ⟨5, 0, false⟩ 3 14 .rz true .max) ∧
    decodeSlot 5 (0x1E * 2 ^ 26 + 3 * 2 ^ 14 + 14 * 2 ^ 7 + 21) = .ok (.vperm ⟨5, 0, false⟩ 3 14 21) ∧
    decodeSlot 5 (0x21 * 2 ^ 26 + 3 * 2 ^ 14 + 14 * 2 ^ 7 + 21) = .ok (.vclmp ⟨5, 0, false⟩ 3 14 21) := by
  refine ⟨?_, ?_, ?_, ?_, ?_, ?_, ?_, ?_, ?_, ?_, ?_, ?_, ?_, ?_, ?_, ?_, ?_, ?_, ?_, ?_⟩ <;> rfl

/-- Words the manual works out (chapters 14 to 21). -/
theorem test_worked_words_fabric :
    decodeSlot 7 0x04009400 = .ok (.chcfg ⟨7, 0, false⟩ 1 10) ∧
    decodeSlot 7 0x08008800 = .ok (.chsnd ⟨7, 0, false⟩ 1 8) ∧
    decodeSlot 7 0x0C008000 = .ok (.chadv ⟨7, 0, false⟩ 1 false) ∧
    decodeSlot 7 0x0C00C000 = .ok (.chadv ⟨7, 0, false⟩ 1 true) ∧
    decodeSlot 7 0x10028200 = .ok (.chst ⟨7, 0, false⟩ 5 1) ∧
    decodeSlot 7 0x14010620 = .ok (.vrcfg ⟨7, 0, false⟩ 2 3 4) ∧
    decodeSlot 7 0x18010620 = .ok (.vrrte ⟨7, 0, false⟩ 2 3 4) ∧
    decodeSlot 7 0x1C010620 = .ok (.vrsct ⟨7, 0, false⟩ 2 3 4) ∧
    decodeSlot 7 0x20010630 = .ok (.vrcmb ⟨7, 0, false⟩ 2 3 6) ∧
    decodeSlot 7 0x240486E0 = .ok (.vrcnt ⟨7, 0, false⟩ 9 3 7) ∧
    decodeSlot 7 0x28010620 = .ok (.pldef ⟨7, 0, false⟩ 2 3 4) ∧
    decodeSlot 7 0x2C010620 = .ok (.plcnv ⟨7, 0, false⟩ 2 3 4) ∧
    decodeSlot 7 0x300206A0 = .ok (.plqry ⟨7, 0, false⟩ 4 3 5) ∧
    decodeSlot 7 0x34010620 = .ok (.slbxl ⟨7, 0, false⟩ 2 3 4) ∧
    decodeSlot 7 0x38010620 = .ok (.slbgr ⟨7, 0, false⟩ 2 3 4) ∧
    decodeSlot 7 0x3C010620 = .ok (.exacq ⟨7, 0, false⟩ 2 3 4) ∧
    decodeSlot 7 0x40010600 = .ok (.exrel ⟨7, 0, false⟩ 2 3) ∧
    decodeSlot 7 0x44038000 = .ok (.tick ⟨7, 0, false⟩ 7) := by
  refine ⟨?_, ?_, ?_, ?_, ?_, ?_, ?_, ?_, ?_, ?_, ?_, ?_, ?_, ?_, ?_, ?_, ?_, ?_⟩ <;> rfl

/-! ### Worked values of the manual -/

/-- Core 0 executes a bundle whose traps and freezes have been tested. -/
def live : State :=
  { (State.reset.updCore 0 fun k => { k with bctx := { BCtx.fresh with ready := true } }) with phase := .slot 0 1 }

/-- The same with x2 and x3 set. -/
def withX (a b : Word) : State :=
  live.updCore 0 fun k => { k with x := (k.x.set 2 a).set 3 b }

/-- What an instruction leaves pending last. -/
def lastWrite (o : Out) : Option (Nat × PWrite × List Nat) :=
  match o with
  | .next s => ((s.core 0).pend.getLast?).map fun p => (p.due, p.w, p.evs)
  | _ => none

/-- 17 R289: 100 over -7 and -100 over 7 give -14, with remainders 2 and -2. -/
theorem test_div_signs :
    lastWrite (exec (.div (hd 1) 1 2 3) (withX 100 (-7))) = some (34, .x 1 (-14), []) ∧
    lastWrite (exec (.rem (hd 1) 1 2 3) (withX 100 (-7))) = some (34, .x 1 2, []) ∧
    lastWrite (exec (.div (hd 1) 1 2 3) (withX (-100) 7)) = some (34, .x 1 (-14), []) ∧
    lastWrite (exec (.rem (hd 1) 1 2 3) (withX (-100) 7)) = some (34, .x 1 (-2), []) := by decide

/-- 17 R289: a divisor of 0 gives all ones and logs IDZ; -2^63 over -1 gives itself. -/
theorem test_div_corners :
    lastWrite (exec (.div (hd 1) 1 2 3) (withX 5 0)) = some (34, .x 1 0xFFFFFFFFFFFFFFFF, [0x11]) ∧
    lastWrite (exec (.div (hd 1) 1 2 3) (withX 0x8000000000000000 (-1))) = some (34, .x 1 0x8000000000000000, []) := by decide

/-- 17 R288: a clamp that changes the value logs SAT. -/
theorem test_add_clamps :
    lastWrite (exec (.add (hd 1) 1 2 3 .sats) (withX 0x7FFFFFFFFFFFFFFF 1)) = some (1, .x 1 0x7FFFFFFFFFFFFFFF, [0x05]) ∧
    lastWrite (exec (.sub (hd 1) 1 2 3 .satu) (withX 1 2)) = some (1, .x 1 0, [0x05]) := by decide

/-- 17 R296: xA = 0x00F0_0000 and xB = 0x0414 give 15, and -1 for BFX.sx. -/
theorem test_bfx :
    lastWrite (exec (.bfx (hd 1) 1 2 3 false) (withX 0x00F00000 0x0414)) = some (1, .x 1 15, []) ∧
    lastWrite (exec (.bfx (hd 1) 1 2 3 true) (withX 0x00F00000 0x0414)) = some (1, .x 1 (-1), []) := by decide

/-- 17 R295: CLZ and CTZ of 0 give 64. -/
theorem test_counts_of_zero :
    lastWrite (exec (.clz (hd 1) 1 2) (withX 0 0)) = some (1, .x 1 64, []) ∧
    lastWrite (exec (.ctz (hd 1) 1 2) (withX 0 0)) = some (1, .x 1 64, []) := by decide

/-- 17 R293: the table 0x4 is pA AND NOT pB. -/
theorem test_plog :
    lastWrite (exec (.plog (hd 1) 4 0 3 4) live) = some (1, .p 4 true, []) ∧
    lastWrite (exec (.plog (hd 1) 4 3 0 4) live) = some (1, .p 4 false, []) := by decide

/-- 17 R291: LIH appends fifteen bits. -/
theorem test_lih : lastWrite (exec (.lih (hd 1) 2 0x7FFF) (withX 1 0)) = some (1, .x 2 0xFFFF, []) := by decide

/-- 16 R272: a local SETF is due for the next bundle. -/
theorem test_setf : lastWrite (exec (.setf (hd 0) 31 0 false) live) = some (1, .flag 31 true, []) := by decide

/-- A table word placed for the next fetch is what the next step runs. -/
theorem test_fetch_word :
    decodeTableWord 32 0x28024000 = some (.tzero (hd 3) 9) ∧
    step (State.reset.withFetchWord 32 0x28024000) =
      pastSlot 0 3 (exec (.tzero (hd 3) 9) (State.reset.withFetchWord 32 0x28024000)) := ⟨rfl, rfl⟩


/-! ### Witnesses: decoding, the step and the slots -/

theorem witness_EncodedInstructionDecodesBack :
    (Instr.add (hd 1) 63 63 63 .satu).wf = true ∧ encode (.add (hd 1) 63 63 63 .satu) = some 0x041FFFFA := by decide

theorem witness_EverySlotInstructionHasAWord : (Instr.add (hd 1) 63 63 63 .satu).wf = true ∧ Instr.coldStart.wf = true := by decide

theorem witness_DecodedWordIsTheEncodedOne : 0xD8120A49 < 2 ^ 32 ∧ decodeSlot 6 0xD8120A49 = .ok (.qef (hd 6) 72 20 73) := ⟨by decide, rfl⟩

theorem witness_StepRunsTheDecodedInstruction :
    (State.reset.atSlot 1 0x04018620).phase = .slot 0 1 ∧
    decodeSlot 1 ((State.reset.atSlot 1 0x04018620).slotWord 0 1) = .ok (.add (hd 1) 3 3 4 .wrap) ∧
    (State.reset.atSlot 7 0).phase = .slot 0 7 ∧ decodeSlot 7 ((State.reset.atSlot 7 0).slotWord 0 7) = .ok (.nop (hd 7)) ∧
    State.reset.phase ≠ .slot 0 7 := ⟨rfl, rfl, rfl, rfl, by decide⟩

/-- The step from a state whose next slot word is ADD answers what the statement says. -/
theorem witness_step_answers :
    ∃ t, exec (.add (hd 1) 3 3 4 .wrap) (State.reset.atSlot 1 0x04018620) = .next t :=
  ⟨_, rfl⟩

theorem witness_StepOutsideABundle :
    State.reset.phase = .idle ∧ State.reset.inputs = [] ∧
    { State.reset with agenda := [(0, .coldStart)] }.agenda = [(0, Instr.coldStart)] ∧ 0 ≤ State.reset.now ∧
    { State.reset with agenda := [(1, .coldStart)], inputs := [.boot] }.now < 1 := by decide

theorem live_runs (k : Fin 8) : live.Runs (hd k) := ⟨rfl, rfl, by intro t h; cases h⟩

theorem withX_runs (a b : Word) (k : Fin 8) : (withX a b).Runs (hd k) := ⟨rfl, rfl, by intro t h; cases h⟩

/-- The one hypothesis of the statements on slots, at each slot. -/
theorem witness_slots :
    live.Runs (hd 0) ∧ live.Runs (hd 1) ∧ live.Runs (hd 2) ∧ live.Runs (hd 3) ∧ live.Runs (hd 4) ∧ live.Runs (hd 5) ∧
    live.Runs (hd 6) ∧ live.Runs (hd 7) :=
  ⟨live_runs 0, live_runs 1, live_runs 2, live_runs 3, live_runs 4, live_runs 5, live_runs 6, live_runs 7⟩

theorem witness_AddAndSubResults :
    live.Runs (hd 1) ∧ 0x04000003 / 2 ^ 26 = 1 ∧ 2 < 0x04000003 % 8 ∧ 0x08000007 / 2 ^ 26 = 2 ∧ 2 < 0x08000007 % 8 :=
  ⟨live_runs 1, by decide⟩

theorem witness_MultiplyResults : live.Runs (hd 1) := live_runs 1

theorem witness_DivideResults :
    (withX 5 0).Runs (hd 1) ∧ (withX 5 0).here.rx 3 = 0 ∧
    (withX 5 1).Runs (hd 1) ∧ (withX 5 1).here.rx 3 ≠ 0 ∧
    (withX 0x8000000000000000 0xFFFFFFFFFFFFFFFF).Runs (hd 1) ∧ (withX 0x8000000000000000 0xFFFFFFFFFFFFFFFF).here.rx 2 = 0x8000000000000000 ∧
    (withX 0x8000000000000000 0xFFFFFFFFFFFFFFFF).here.rx 3 = 0xFFFFFFFFFFFFFFFF :=
  ⟨withX_runs _ _ _, by decide, withX_runs _ _ _, by decide, withX_runs _ _ _, by decide, by decide⟩

theorem witness_LogicShiftAndOrderResults : (withX 1 63).Runs (hd 1) := withX_runs _ _ _

theorem witness_ImmediateResults :
    (withX 1 63).Runs (hd 2) ∧ 0x64000040 / 2 ^ 26 = 0x19 ∧ 63 < 0x64000040 % 2 ^ 9 ∧ 0x6C0001FF / 2 ^ 26 = 0x1B ∧ 63 < 0x6C0001FF % 2 ^ 9 :=
  ⟨withX_runs _ _ _, by decide⟩

theorem witness_BitCountAndFieldResults :
    (withX 5 0x0000).Runs (hd 1) ∧ ((withX 5 0x0000).here.rx 3).toNat / 2 ^ 8 % 2 ^ 7 = 0 ∧
    64 < ((withX 5 0x4100).here.rx 3).toNat / 2 ^ 8 % 2 ^ 7 ∧
    ((withX 5 0x0100).here.rx 3).toNat / 2 ^ 8 % 2 ^ 7 = 1 ∧ ((withX 5 0x4000).here.rx 3).toNat / 2 ^ 8 % 2 ^ 7 = 64 ∧
    0x88000001 / 2 ^ 26 = 0x22 ∧ 0x88000001 % 2 ^ 9 ≠ 0 ∧ 0x90000100 / 2 ^ 26 = 0x24 ∧ 0x90000100 % 2 ^ 9 ≠ 0 :=
  ⟨withX_runs _ _ _, by decide⟩

/-- Core 0 in a bundle that runs under one open level, at its last iteration. -/
def inLoop : State :=
  live.updCore 0 fun k => { k with skid := [⟨0, 4, List.replicate 8 0, [⟨false, false, 2, 3, 4, 0⟩], [], 0, false, none⟩] }

theorem witness_SelectAndIndexResults :
    live.here.holds live.issuer (hd 1) = true ∧ live.here.holds live.issuer ⟨1, 0, true⟩ = false ∧
    inLoop.here.stack.reverse[(0 : LevelF).val]? = some ⟨false, false, 2, 3, 4, 0⟩ ∧ inLoop.here.stack.length ≤ (1 : LevelF).val := by decide

theorem witness_in_loop_runs : inLoop.Runs (hd 1) := ⟨rfl, rfl, by intro t h; cases h⟩

theorem witness_PredicateResults : (withX 1 2).Runs (hd 1) ∧ (0 : PReg).val = 0 ∧ 12 ≤ (12 : PReg).val := ⟨withX_runs _ _ _, by decide⟩

theorem witness_SpecialRegisterResults : live.Runs (hd 7) := live_runs 7

theorem witness_OffsetHandleAndShapeWrites : live.Runs (hd 2) ∧ (12 : Fin 16).val ≠ 13 ∧ (14 : Fin 16).val ≠ 13 := ⟨live_runs 2, by decide⟩

theorem witness_HandleCopyOverrulesVersionWrites : live.Runs (hd 2) := live_runs 2

theorem witness_PendingWriteFrame :
    (Instr.add (hd 1) 1 2 3 .wrap).pendingOnly = true ∧ ∃ t, exec (.add (hd 1) 1 2 3 .wrap) live = .next t :=
  ⟨rfl, _, rfl⟩

theorem witness_BranchResults : live.Runs (hd 0) ∧ live.Runs (hd 2) := ⟨live_runs 0, live_runs 2⟩

/-! ### A running group of two members -/

/-- A run of members 0 and 8 in context 1, with one barrier over the course and a tile grid of two. -/
def run2 : Run :=
  { ctx := 1, queue := 0, cls := 2, deadline := 0, packet := 0, seq := 0, members := [0, 8], clen := 2, code := 0, image := [],
    win := [], fmts := [], chs := [], bars := [⟨12, 2, 2, 0⟩], insts := [], fmtb := 0, lds := [], grid := (2, 1, 1), tiles := 0,
    npkg := 0, sptag := 0, peers := [], stat := 0, tick := none, sq := ⟨0, [], 0, none, none, [], false, 0, none⟩, timer := 0,
    preempt := false, sems := [], triggered := false, stamp := zeroVec, ready := false, started := false, saved := [], saving := 0,
    savedAt := 0, heldMsgs := [], heldArr := [], redo := [], stalled := none, parkedAt := 0, entries := [], late := 0 }

/-- Group index 3 in state `st` with run `r`, its members' cores, and its context ACTIVE. -/
def group (st : Nat) (r : Run) : State :=
  ((((live.updGrp 3 fun _ => { Grp.reset with state := st, ctx := 1, run := some r }).updCore 0 fun k => { k with group := some 3 }).updCore 8
    fun k => { k with group := some 3 }).updCtx 1 fun _ => { Ctx.reset with state := 2 })

theorem group_runs (st : Nat) (r : Run) (k : Fin 8) : (group st r).Runs (hd k) := ⟨rfl, rfl, by intro t h; cases h⟩

/-- The same with x2 holding `v`. -/
def groupX (v : Word) : State := (group 2 run2).updCore 0 fun k => { k with x := k.x.set 2 v }

theorem witness_WaitAndFlagResults :
    live.Runs (hd 0) ∧ (groupX 1).Runs (hd 0) ∧ ((groupX 1).membersOf (groupX 1).issuer)[((groupX 1).here.rx 2).toNat]? = some 8 ∧
    ((groupX 2).membersOf (groupX 2).issuer).length ≤ ((groupX 2).here.rx 2).toNat :=
  ⟨live_runs 0, ⟨rfl, rfl, by intro t h; cases h⟩, by decide⟩

theorem witness_SemaphoreRequests : live.Runs (hd 0) := live_runs 0

theorem witness_RequestLeavesAtOnce : (live.core 0).memq = [] ∧ (live.core 0).spec = none := by decide

theorem witness_OrderingAndBarrierResults : (group 2 run2).Runs (hd 0) := group_runs _ _ _

theorem witness_RidgeRequestResults : (group 2 run2).Runs (hd 7) ∧ 63 < (64 : Word).toNat ∧ ¬ 63 < (63 : Word).toNat :=
  ⟨group_runs _ _ _, by decide⟩

theorem witness_RegionTrapAndExitResults : (group 2 run2).Runs (hd 0) := group_runs _ _ _

/-- Core 0 with word 7 of handle 1 as given. -/
def withHandle (w : Word) : State := live.updCore 0 fun k => { k with h := [(1, [0, 0, 0, 0, 0, 0, 0, w])] }

theorem witness_TileLoadResults :
    (withHandle 0).Runs (hd 3) ∧ hPV ((withHandle 0).here.hwords 1) = false ∧
    (withHandle 0x400).Runs (hd 3) ∧ hPV ((withHandle 0x400).here.hwords 1) = true :=
  ⟨⟨rfl, rfl, by intro t h; cases h⟩, by decide, ⟨rfl, rfl, by intro t h; cases h⟩, by decide⟩

/-- The same handle, with the core in a speculative region. -/
def inRegion : State := (withHandle 0x400).updCore 0 fun k => { k with spec := some ⟨0, [], [], [], []⟩ }

theorem witness_TileStoreAndFillResults :
    (withHandle 0).Runs (hd 3) ∧ hPV ((withHandle 0).here.hwords 1) = false ∧
    (withHandle 0x400).Runs (hd 3) ∧ hPV ((withHandle 0x400).here.hwords 1) = true ∧ (withHandle 0x400).here.spec = none ∧
    inRegion.Runs (hd 3) ∧ hPV (inRegion.here.hwords 1) = true ∧ inRegion.here.spec ≠ none :=
  ⟨⟨rfl, rfl, by intro t h; cases h⟩, by decide, ⟨rfl, rfl, by intro t h; cases h⟩, by decide, by decide,
    ⟨rfl, rfl, by intro t h; cases h⟩, by decide, by decide⟩

/-- Tile 5 of core 0 bound to handle 3. -/
def boundTile : State := live.updCore 0 fun k => { k with shapes := [(5, Shape.reset.word, BitVec.ofNat 64 (2 ^ 63 + 3))] }

theorem witness_MatrixResults :
    live.Runs (hd 4) ∧ live.here.boundTo 5 = none ∧ (live.mopArg 0 (.tile 5) 0).hnd = none ∧
    boundTile.Runs (hd 4) ∧ boundTile.here.boundTo 5 = some 3 ∧ ((boundTile.mopArg 0 (.tile 5) 0).hnd).isSome = true :=
  ⟨live_runs 4, by decide, by decide, ⟨rfl, rfl, by intro t h; cases h⟩, by decide, by decide⟩

theorem witness_VectorIssueResults : live.Runs (hd 5) ∧ live.Runs (hd 6) := ⟨live_runs 5, live_runs 6⟩

/-- A configured channel: to package `pkg` where `x`, rank `r`, one slot of one line. -/
def chanTo (x : Bool) (pkg r : Nat) : Chan :=
  ⟨true, false, x, false, pkg, r, none, 1, 1, 0, 0, 1, 0, [(0, 0, 0)]⟩

/-- Core 0 of the group with channel 1. -/
def chanState (c : Chan) : State := (group 2 run2).updCore 0 fun k => { k with chans := [(1, c)] }

theorem chanState_runs (c : Chan) (k : Fin 8) : (chanState c).Runs (hd k) := ⟨rfl, rfl, by intro t h; cases h⟩

theorem witness_ChannelResults :
    live.here.chan 1 = none ∧
    (chanState (chanTo false 0 2)).here.chan 1 = some (chanTo false 0 2) ∧ (chanState (chanTo false 0 2)).chTarget 0 (chanTo false 0 2) = none ∧
    (chanState (chanTo false 0 1)).here.chan 1 = some (chanTo false 0 1) ∧
    (chanState (chanTo false 0 1)).chTarget 0 (chanTo false 0 1) = some (none, 1) ∧
    (chanState (chanTo true 7 1)).here.chan 1 = some (chanTo true 7 1) ∧
    (chanState (chanTo true 7 1)).chTarget 0 (chanTo true 7 1) = some (some 7, 1) ∧
    (chanState (chanTo false 0 1)).consumes 0 (chanTo false 0 1) = false ∧
    (chanState (chanTo false 0 0)).consumes 0 (chanTo false 0 0) = true := by decide

theorem witness_channel_runs : (chanState (chanTo false 0 1)).Runs (hd 7) ∧ (chanState (chanTo false 0 0)).Runs (hd 7) :=
  ⟨chanState_runs _ _, chanState_runs _ _⟩

/-! ### Witnesses: contexts, queues and packets -/

/-- Context 1 in state `st`, with CAUSE `cause`. -/
def ctxIn (st cause : Nat) : State := State.reset.updCtx 1 fun _ => { Ctx.reset with state := st, cause := cause }

/-- A descriptor of context 1 at 64 whose word 2 is `w2` and word 1 `w1`. -/
def withDesc (w1 w2 : Word) : State :=
  { State.reset with mem := (State.reset.mem.write 64 (wordLE 1)).write 72 (wordLE w1 ++ wordLE w2) }

theorem witness_ContextCommandResults_create :
    (withDesc 0x200000 4).regs.cmdBusy = false ∧ ((withDesc 0x200000 4).ctx 1).state = 0 ∧
    (withDesc 0x200000 4).descriptor 1 = some [1, 0x200000, 4, 0, 0, 0, 0, 0] ∧
    descOk [1, 0x200000, 4, 0, 0, 0, 0, 0] = true ∧ saveOk [1, 0x200000, 4, 0, 0, 0, 0, 0] = true ∧
    (withDesc 0x200000 3).descriptor 1 = some [1, 0x200000, 3, 0, 0, 0, 0, 0] ∧ descOk [1, 0x200000, 3, 0, 0, 0, 0, 0] = false ∧
    (withDesc 0x7FFFFFE00000 12).descriptor 1 = some [1, 0x7FFFFFE00000, 12, 0, 0, 0, 0, 0] ∧
    descOk [1, 0x7FFFFFE00000, 12, 0, 0, 0, 0, 0] = true ∧ saveOk [1, 0x7FFFFFE00000, 12, 0, 0, 0, 0, 0] = false ∧
    { State.reset with regs := { Regs.reset with ctxtab := 0xF000000000000 } }.descriptor 1 = none := by decide

/-- A write of the host that waits at its home. -/
def hostWriting : State :=
  State.reset.updAgent 0 fun a => { a with
    waiting := [{ id := 4, stamp := ⟨17, 0, zeroVec⟩, src := 0, key := 0, home := 0, bytes := [], die := none }] }

theorem witness_ContextCommandResults_states :
    (ctxIn 1 0).regs.cmdBusy = false ∧ ((ctxIn 1 0).ctx 1).state = 1 ∧ ((ctxIn 2 0).ctx 1).state = 2 ∧ ((ctxIn 3 0).ctx 1).state = 3 ∧
    ((ctxIn 4 1).ctx 1).state = 4 ∧ ((ctxIn 5 3).ctx 1).state ≠ 0 ∧ ((ctxIn 5 3).ctx 1).state ≠ 6 ∧ ((ctxIn 6 0).ctx 1).state = 6 ∧
    (ctxIn 2 0).hostWaits = false ∧ (ctxIn 2 0).agenda = [] ∧ (ctxIn 0 0).destroyed 1 = false ∧ hostWriting.hostWaits = true ∧
    ((ctxIn 0 0).ctx 1).state ≠ 1 ∧ ((ctxIn 0 0).ctx 1).state ≠ 2 ∧ ((ctxIn 0 0).ctx 1).state ≠ 3 ∧ ((ctxIn 0 0).ctx 1).state ≠ 4 ∧
    ((ctxIn 6 0).updRegs fun r => { r with cmdBusy := true }).regs.cmdBusy = true ∧
    ((ctxIn 6 0).updRegs fun r => { r with cmdBusy := true, cmdCtx := 1 }).destroyed 1 = true := by decide

/-- Queue 5 of context 1, which is in state `st`. -/
def queueIn (st : Nat) (k : Queue) : State :=
  (State.reset.updCtx 1 fun _ => { Ctx.reset with state := st }).updQueue 5 fun _ => { k with ctx := 1 }

theorem witness_QueueRegisterResults :
    let ok := queueIn 2 { Queue.reset with size := 4, base := 0x400 }
    let bad := queueIn 2 { Queue.reset with size := 3 }
    let on := queueIn 2 { Queue.reset with size := 4, en := true, state := 1 }
    (ok.queue 5).en = false ∧ 4 ≤ (ok.queue 5).size ∧ (ok.queue 5).base % (2 ^ (ok.queue 5).size * 64) = 0 ∧ (ok.ctx 1).state ≠ 0 ∧
    (ok.ctx 1).state ≠ 6 ∧ (ok.queue 5).cls ≠ 0 ∧ (ok.queues.filter fun e => e.2.en && e.2.ctx == 1).length < 16 ∧
    (bad.queue 5).en = false ∧ (bad.queue 5).size < 4 ∧
    (on.queue 5).enqok = false ∧ (on.queue 5).en = true ∧ (on.queue 5).state = 1 ∧
    ((queueIn 2 { Queue.reset with enqok := true }).queue 5).enqok = true ∧ ok.hostWaits = false ∧ ok.agenda = [] := by decide

/-- Context 1 with its first gigabyte mapped to the first of HBM. -/
def mapped : State :=
  { (State.reset.updCtx 1 fun _ => { Ctx.reset with state := 2, root := 0x10000 }) with
    mem := (State.reset.mem.write 0x10000 (wordLE 0x20001)).write 0x20000 (wordLE 0x1F) }

/-- Queue 5 of context 1 with the packet of these words at its head, and a launch record beside it. -/
def atHead (s : State) (w0 w1 w2 w3 : Word) (rec_ : List Byte) : State :=
  s.updQueue 5 fun _ => { Queue.reset with
    ctx := 1, size := 4, en := true, state := 1, tail := 1,
    pkt := wordLE w0 ++ wordLE w1 ++ wordLE w2 ++ wordLE w3 ++ List.replicate 32 0, rec_ := rec_ }

/-- A launch record: one bundle at 0x100000, one core of one die, landing latencies 1, NPKG `n`. -/
def recBytes (n : Nat) : List Byte :=
  wordLE 0x100000 ++ wordLE 1 ++ wordLE 0 ++ wordLE 0x0004010040100401 ++ wordLE 1 ++ List.replicate 112 0 ++
    wordLE (BitVec.ofNat 64 (n * 65536)) ++ List.replicate 96 0

/-- A state whose heads have been looked at and whose saved groups have asked for their cores. -/
def looked (s : State) : State := s.look.comeback.foldl (fun (s : State) g => s.tryRestore g) s.look

/-- The start the front end chooses is due, and it is queue 5's packet of this kind. -/
def chooses (s : State) (kind : Nat) : Bool :=
  let ch := (looked s).choose [0, 1, 2, 3]
  decide ((looked s).nextStart ≤ (looked s).now) && ch.2 == some (2, 5) && pkKind ((looked s).queue 5).pkt == kind &&
    pkKind ((ch.1.payCredit 2 5).queue 5).pkt == kind

set_option maxRecDepth 100000 in
theorem witness_PacketStarts_marker :
    chooses (atHead mapped 8 0 0x1000 7 []) 8 = true ∧ (resolvePA (0x1000 : Word).toNat).isSome = true := by decide

set_option maxRecDepth 100000 in
theorem witness_PacketStarts_signal :
    chooses (atHead (mapped.updRidge fun r => { r with claims := [(9, 129)] }) 5 0 9 1 []) 5 = true := by decide

set_option maxRecDepth 100000 in
theorem witness_PacketStarts_waitsem :
    let s := (atHead (mapped.updRidge fun r => { r with claims := [(9, 129)] }) 6 0 9 0 []).updQueue 5 fun k => { k with met := some 0 }
    chooses { s with now := 20 } 6 = true := by decide

set_option maxRecDepth 100000 in
theorem witness_PacketStarts_launch : chooses (atHead mapped 1 0 0x200 0 (recBytes 0)) 1 = true := by decide

set_option maxRecDepth 100000 in
theorem witness_PacketStarts_tickstart :
    let s := atHead mapped 7 0 0x200 100 (recBytes 1)
    let late := atHead mapped 7 0 0x200 0 (recBytes 1)
    let u := fun (s : State) => ((looked s).choose [0, 1, 2, 3]).1.payCredit 2 5
    chooses s 7 = true ∧ (u s).ftick < (100 : Word).toNat ∧ (u s).tickLocked = true ∧
    chooses late 7 = true ∧ (0 : Word).toNat ≤ (u late).ftick ∧ ((u late).queue 5).met = none := by decide

set_option maxRecDepth 100000 in
theorem witness_PacketStarts_transfer :
    chooses (atHead (mapped.updXch 2 fun x => { x with own := 0x41 }) 3 0 0x1000 2 []) 3 = true := by decide

set_option maxRecDepth 100000 in
theorem witness_PacketStarts_convert :
    chooses (atHead (mapped.updPlent 1 6 fun p => { p with words := [0x8000000000000000, 0, 0, 0, 0, 0, 0, 0] }) 4 0 6 0 []) 4 = true := by
  decide

set_option maxRecDepth 100000 in
theorem witness_PacketStarts_collstep :
    chooses (atHead (mapped.updRegs fun r => { r with meshcfg := 0x001E_0000_0000_0001 }) 2 0 0x1000 0 []) 2 = true := by decide

set_option maxRecDepth 100000 in
/-- The front end before its next start time; with nothing to start; and a head whose fields are not right. -/
theorem witness_PacketStarts_nothing :
    let early := { State.reset with nextStart := 1 }
    let bad := atHead mapped 8 0 0x1004 7 []
    (looked early).now < (looked early).nextStart ∧ (looked State.reset).nextStart ≤ (looked State.reset).now ∧
    ((looked State.reset).choose [0, 1, 2, 3]).2 = none ∧ bad.queues = [(5, bad.queue 5)] ∧ (bad.readHead 5).headSt 5 = .bad := by decide

/-! ### Witnesses: groups -/

theorem witness_GroupStartResults :
    let late := { run2 with tick := some 100 }
    ((group 1 run2).grp 3).run = some run2 ∧ ((group 1 run2).grp 3).state = 1 ∧ run2.ready = false ∧ run2.started = false ∧
    run2.saved = [] ∧ run2.tick = none ∧ (run2.members.all fun c => !(group 1 run2).fenced.contains c) = true ∧
    1 ≠ ((group 1 run2).grp 3).gen ∧ ((group 1 late).grp 3).run = some late ∧ late.tick = some 100 ∧ (group 1 late).ftick < 100 ∧ late.ready = false ∧
    100 ≤ ({ (group 1 late) with ftick := 100 }).ftick ∧
    ({ (group 1 { late with ready := true }) with ftick := 100 }).tickLocked = true ∧ { late with ready := true }.ready = true ∧
    ((group 1 { late with ready := true }).grp 3).run = some { late with ready := true } := by decide

theorem witness_GroupStartResults_late :
    let r := { run2 with npkg := 2, sptag := 77 }
    let s := (group 2 r).updGrp 2 fun _ => { Grp.reset with state := 2, run := some { run2 with npkg := 2, sptag := 76 } }
    let n := s.grps.length
    (s.grp 3).run = some r ∧ r.npkg ≠ 0 ∧ r.sptag = (77 : BitVec 16).toNat ∧ (s.grp 3).state ≤ 4 ∧ n = 2 ∧
    s.grps = (s.grps.takeWhile fun e => e.1 != 3) ++ (3, s.grp 3) :: (s.grps.dropWhile fun e => e.1 != 3).drop 1 ∧
    (s.grps.takeWhile fun e => e.1 != 3).all (fun e => match e.2.run with
      | some q => q.sptag != 77
      | none => true) = true := by decide

/-- A bundle of NOPs in a skid queue. -/
def nops : Skid := ⟨0, 4, List.replicate 8 0, [], [], 0, false, none⟩

/-- A result of core 0 that is due. -/
def duePend (id : Nat) (w : PWrite) : Pend := ⟨0, 1, 0, w, true, id, []⟩

theorem witness_SequencerAndIssueResults :
    ((group 4 run2).grp 3).state ≠ 2 ∧ ((group 4 run2).grp 3).state ≠ 3 ∧
    ((group 2 { run2 with saving := 1 }).grp 3).run = some { run2 with saving := 1 } ∧ { run2 with saving := 1 }.saving ≠ 0 ∧
    ((group 2 run2).grp 3).state = 2 ∧ run2.saving = 0 ∧ ((group 2 run2).boundary 3 run2).2 = false ∧
    (((group 2 run2).boundary 3 run2).1.grp 3).run = some run2 := by decide

/-- At a pre-emption point with every skid queue empty, and the group asked to leave. -/
theorem witness_SequencerAndIssueResults_boundary :
    let r := { run2 with preempt := true, sq := { run2.sq with bound := some 0 } }
    ((group 2 r).grp 3).run = some r ∧ ((group 2 r).grp 3).state = 2 ∧ r.saving = 0 ∧ ((group 2 r).boundary 3 r).2 = true := by decide

/-- A member frozen on a fault for the 65,536th cycle. -/
theorem witness_SequencerAndIssueResults_park :
    let r := { run2 with timer := 65535 }
    let s := ((group 3 r).updCore 0 fun k => { k with frozen := true, waitT := some (0, 1) }).updCtx 1 fun x => { x with ents := [⟨0, 0, [], .op 0 1⟩] }
    (s.grp 3).run = some r ∧ (s.grp 3).state = 3 ∧ r.saving = 0 ∧ r.members.any s.faultFrozen = true ∧ 65535 ≤ r.timer := by decide

theorem witness_SequencerAndIssueResults_due :
    let s := (group 2 run2).updCore 0 fun k => { k with skid := [nops], pend := [duePend 0 (.x 5 7)] }
    (s.core 0).skid ≠ [] ∧ (s.core 0).exited = false ∧ s.groupIssues 0 = true ∧ (s.core 0).dueArrived = true ∧
    ((group 2 run2).core 0).skid = [] := by decide

theorem witness_SaveAndRestoreResults :
    let parking := { run2 with timer := 65536 }
    let saving := { run2 with saving := 2, savedAt := 1 }
    ((group 3 parking).grp 3).state = 3 ∧ ((group 3 parking).grp 3).run = some parking ∧ parking.saving = 0 ∧ 65536 ≤ parking.timer ∧
    { run2 with timer := 65535 }.timer < 65536 ∧
    ((group 2 saving).grp 3).run = some saving ∧ saving.saving ≠ 0 ∧ saving.savedAt ≠ 0 := by decide

/-- A saved group whose cores are free. -/
def parked : State :=
  (State.reset.updGrp 3 fun _ => { Grp.reset with state := 4, ctx := 1, run := some run2 }).updCtx 1 fun _ => { Ctx.reset with state := 2 }

theorem witness_SaveAndRestoreResults_restore :
    (parked.grp 3).run = some run2 ∧ parked.eligible 3 = true ∧ (run2.members.all fun c => !parked.fenced.contains c) = true ∧
    parked.freeSeq = some 0 ∧ run2.members.all parked.coreFree1 = true ∧
    ({ parked with fenced := [8] }).eligible 3 = true ∧ 8 ∈ run2.members ∧ 8 ∈ ({ parked with fenced := [8] }).fenced := by decide

/-- A group that is being restored with the saved state of its members, and a write of another master under way at `key`. -/
def restoring (key : Nat) : State :=
  { (group 1 { run2 with saved := [(0, Core.reset 0), (8, Core.reset 8)] }) with
    flights := [{ id := 4, stamp := ⟨1, 0, zeroVec⟩, src := 0, key := key, home := 0, bytes := [], die := none }] }

theorem witness_SaveAndRestoreResults_complete :
    let s := restoring 0
    let r := { run2 with saved := [(0, Core.reset 0), (8, Core.reset 8)] }
    (s.grp 3).state = 1 ∧ (s.grp 3).run = some r ∧ r.saved ≠ [] ∧ s.writesUnder (s.slotAt r.ctx 0) slotSize = true ∧
    (r.members.all fun c => (restoring (2 ^ 40)).writesUnder ((restoring (2 ^ 40)).slotAt r.ctx c) slotSize == false) = true := by decide

theorem witness_DrainAndQuarantineResults :
    ((group 5 run2).grp 3).run = some run2 ∧ ((group 5 run2).grp 3).state = 5 ∧ (run2.members.all fun c => ((group 5 run2).core c).quiet) = true ∧
    (group 5 run2).piecesOf run2.members = false ∧ ((group 2 run2).grp 3).state ≠ 5 ∧
    ((State.reset.updGrp 3 fun _ => { Grp.reset with state := 7, gen := 63, marks := [1000] }).grp 3).state = 7 ∧
    ((State.reset.updGrp 3 fun _ => { Grp.reset with state := 7, gen := 63, marks := [1000] }).grp 3).gen < 64 ∧
    (State.reset.updLink 2 fun k => { k with state := 2 }).linkUsable (23 / 8) = true ∧ State.reset.linkUsable (23 / 8) = false := by decide

/-! ### Witnesses: barriers, semaphores and memory -/

/-- A run spanning two packages, with a spanning barrier. -/
def runSpan : Run := { run2 with npkg := 2, sptag := 77, peers := [0, 1], bars := [⟨12, 3, 2, 0⟩] }

/-- The run with barrier 0's instance 0 as given. -/
def runBar (x : Bar) : Run := { run2 with insts := [(0, x)] }

theorem witness_BarrierResults :
    ((group 2 run2).grp 3).run = some run2 ∧ (0 : BReg).val < run2.bars.length ∧ (group 2 run2).fate false 3 = .live 3 ∧
    (run2.bar 0 (run2.instOf 8 0)).cond = 0 ∧ (run2.bar 0 (run2.instOf 8 0)).phase = false ∧ (run2.bar 0 (run2.instOf 8 0)).phase ≠ true ∧
    (run2.bar 0 (run2.instOf 8 0)).land ≤ 0 ∧
    (group 2 (runBar ⟨false, 0, 0, 5, 0, 0, 0, 0, none, 0, false⟩)).fate false 3 = .live 3 ∧
    4 < ((runBar ⟨false, 0, 0, 5, 0, 0, 0, 0, none, 0, false⟩).bar 0 0).land ∧
    (group 2 runSpan).fate true 77 = .live 3 ∧ 2 ≤ (runSpan.decl 0).dom ∧ (runSpan.decl 0).dom = 3 ∧ (runSpan.bar 0 0).cond = 0 ∧
    (runSpan.bar 0 0).phase ≠ true ∧ (runSpan.bar 0 0).phase = false ∧ (runSpan.instMembers 0 (1 / 2)) = [0, 8] := by decide

theorem witness_BarrierResults_watchdog :
    let r := runBar ⟨false, 1, 0, 0, 0, 0, 0, 0, some 0, 0, false⟩
    (group 2 r).ofGid 3 = some 3 ∧ (r.bar 0 0).since = some 0 ∧ 0 + 2 ^ (r.decl 0).wdog ≤ ({ (group 2 r) with now := 4096 }).now ∧
    (r.decl 0).wdog ≠ 0 ∧ (r.bar 0 0).cond = 0 ∧ ((group 2 r).grp 3).state = 2 := by decide

theorem witness_BarrierResults_dropped_and_held :
    State.reset.fate false 3 = .stale ∧ State.reset.fate true 77 = .stale ∧ (group 4 run2).fate false 3 = .held 3 ∧
    (group 4 runSpan).fate true 77 = .held 3 := by decide

/-- An operation of core 0. -/
def opOf (kind : OpKind) (lines : List LineAcc) : MemOp := ⟨9, 0, 0, kind, lines, [], none, true, false, 0, false, [], [], false, 0, (0, 0)⟩

/-- A line of core 0's scratchpad, in state `st`. -/
def scrLine (st : AccSt) : LineAcc := ⟨0xFFFFFC0000000, scrKey 0 0, 0, 0, st, List.replicate 128 0, List.replicate 128 true, zeroVec, 0, false⟩

/-- A line of HBM, in state `st`. -/
def hbmLine (st : AccSt) : LineAcc := ⟨0x1000, 0x1000, 0, 0, st, List.replicate 128 0, List.replicate 128 true, zeroVec, 0, false⟩

/-- Core 0 of the group with one operation outstanding. -/
def withOp (o : MemOp) : State := (group 2 run2).updCore 0 fun k => { k with memq := [o] }

theorem witness_SemaphoreFlagAndTileResults :
    let req := fun (op n : Nat) => opOf (.req (.sem op 5 n 1 0) 24) []
    ((withOp (req 4 65535)).core 0).op 9 = some (req 4 65535) ∧ (req 4 65535).kind = .req (.sem 4 5 65535 1 0) 24 ∧
    ((withOp (req 5 65536)).core 0).op 9 = some (req 5 65536) := by decide

theorem witness_SemaphoreFlagAndTileResults_waiter :
    let w : SemW := ⟨0, 0, 9, 0, none⟩
    let v : SemW := ⟨0, 0, 9, 1, none⟩
    (State.reset.updRidge fun r => { r with semw := [w] }).ridge.semw.find? (fun w => w.core == 0 && w.met.isNone) = some w ∧
    w.thr.toInt ≤ ((State.reset.updRidge fun r => { r with semw := [w] }).semOf 0 w.sem).1.toInt ∧
    (State.reset.updRidge fun r => { r with semw := [v] }).ridge.semw.find? (fun w => w.core == 0 && w.met.isNone) = some v ∧
    ((State.reset.updRidge fun r => { r with semw := [v] }).semOf 0 v.sem).1.toInt < v.thr.toInt := by decide

theorem witness_SemaphoreFlagAndTileResults_flag_and_tile :
    (group 2 run2).fate false 3 = .live 3 ∧ run2.members[1]? = some 8 ∧ ((group 2 run2).core 8).exited = false ∧
    (((group 2 run2).updCore 0 fun k => { k with pend := [duePend 4 (.ntile 0 false)] }).core 0).pend.any (·.id == 4) = true ∧
    (group 2 run2).grpOf 0 = some 3 ∧ run2.tiles < 2 * 1 * 1 ∧ 2 * 1 * 1 ≤ { run2 with tiles := 2 }.tiles := by decide

/-- Records found in one cycle stand in ascending KIND (29 R421). -/
theorem test_error_records_in_order :
    let s := (State.reset.errRecord 8 6 0 2 0).errRecord 4 2 0 9 0
    wnth (Tbl.getD s.regs.errlog 0 []) 0 = 0x0402000000090000 ∧ wnth (Tbl.getD s.regs.errlog 1 []) 0 = 0x0806000000020000 ∧
    wnth (Tbl.getD s.regs.errlog 1 []) 3 = 1 ∧ s.regs.errTail = 2 ∧ s.regs.lost = 0 := by decide

theorem witness_AppliedWriteChangesItsBytes : State.reset.MemOk := rfl

theorem witness_LoadAndMonitorResults_load :
    let o := opOf (.load 5 [] [] none) [hbmLine .flight]
    (withOp o).bankBusy 0 0x1000 = false ∧
    ((withOp o).core 0).op 9 = some o ∧ o.lines[0]? = some (hbmLine .flight) ∧ (hbmLine .flight).st = .flight ∧ o.isPlainLoad = true ∧
    (((withOp o).core 0).memq.all fun p => !p.isPlainLoad || decide (o.pos ≤ p.pos)) = true ∧ (hbmLine .flight).l1 = false ∧
    ((withOp o).serve 0 o.pos 0x1000 0 0 zeroVec false false).isSome = true ∧ (withOp o).hasTurn (.loadPerformed 0 9 0) = true ∧
    ((withOp o).request (.loadPerformed 0 9 0)).any (fun q => decide (q.1 < 64)) = false := by decide

/-- The pseudo-channel of address 0x1000 at HBM is busy; a line of a striped page that its L2 bank does not hold; a line that the L1 held as the
access left, and holds no longer. -/
theorem witness_LoadAndMonitorResults_turn :
    let o := opOf (.load 5 [] [] none) [hbmLine .flight]
    let q := opOf (.load 5 [] [] none) [{ hbmLine .flight with home := 16 }]
    let m := { hbmLine .flight with l1 := true }
    ((withOp o).updRidge fun r => { r with points := Tbl.set r.points (64 + pchOf 0x1000) ⟨5, 17, none⟩ }).hasTurn (.loadPerformed 0 9 0) = false ∧
    (withOp q).hasTurn (.loadPerformed 0 9 0) = true ∧ (withOp q).request (.loadPerformed 0 9 0) = some (32, 0, 0x1000) ∧
    (withOp q).l2Hit 0x1000 = false ∧ ((withOp q).serve 0 0 0x1000 16 0 zeroVec false false).isSome = true ∧
    ((withOp (opOf (.load 5 [] [] none) [m])).core 0).l1 = [] := by decide

theorem witness_LoadAndMonitorResults_compare :
    let o := opOf (.waita .eq 0 0) [hbmLine .flight]
    ((withOp o).core 0).op 9 = some o ∧ o.lines[0]? = some (hbmLine .flight) ∧ o.kind = .waita .eq 0 0 ∧
    ((withOp o).serveHome 0 0x1000 0 zeroVec).isSome = true ∧ (withOp o).bankBusy 0 0x1000 = false ∧
    (withOp o).hasTurn (.loadPerformed 0 9 0) = true ∧
    ((withOp o).request (.loadPerformed 0 9 0)).any (fun q => decide (q.1 < 64)) = false := by decide

/-- A line of core 1's scratchpad whose bank core 1 reads in the same cycle, and two loads of one line in flight. -/
theorem witness_LoadAndMonitorResults_second :
    let l := { hbmLine .flight with key := scrKey 1 0 }
    let o := opOf (.load 5 [] [] none) [l]
    let q := { opOf (.load 6 [] [] none) [hbmLine .flight] with id := 10, pos := 1 }
    let p := opOf (.load 5 [] [] none) [hbmLine .flight]
    let s := (withOp p).updCore 0 fun k => { k with memq := [p, q] }
    ((withOp o).updDie 0 fun d => { d with served := (0, [(1, scrKey 1 0)]) }).bankBusy 0 l.key = true ∧
    (s.core 0).op 10 = some q ∧ q.lines[0]? = some (hbmLine .flight) ∧ p ∈ (s.core 0).memq ∧ p.isPlainLoad = true ∧ p.pos < q.pos ∧
    (hbmLine .flight).onWay = true ∧
    -- an earlier load of the line that is not on its way
    (((withOp q).updCore 0 fun k => { k with memq := [opOf (.load 5 [] [] none) [hbmLine .idle], q] }).core 0).linesBefore q (hbmLine .flight) =
      [hbmLine .idle] ∧ (hbmLine .idle).isDone = false ∧ (hbmLine .idle).onWay = false := by decide

/-- A load that waits at its home for a close marker of an epoch it has seen. -/
theorem witness_LoadAndMonitorResults_waits :
    let l := { hbmLine .flight with acq := List.replicate 18 5 }
    let o := opOf (.load 5 [] [] none) [l]
    ((withOp o).core 0).op 9 = some o ∧ (withOp o).serve 0 o.pos 0x1000 0 0 (List.replicate 18 5) false false = none ∧
    (withOp o).serveHome 0 0x1000 0 (List.replicate 18 5) = none ∧ (0, 9, 0, List.replicate 18 5) ∉ ((withOp o).agent 0).loads := by decide

theorem witness_LoadAndMonitorResults_landing :
    let o := opOf (.load 5 [] [] none) [hbmLine .done]
    let w := opOf (.tldw 6 0) [hbmLine .done]
    o.settled = true ∧ o.unperformed = false ∧ ((withOp o).core 0).op 9 = some o ∧
    (((withOp o).core 0).pend.all fun p => p.w != .land 9) = true ∧
    (((withOp o).updCore 0 fun k => { k with pend := [duePend 0 (.land 9)] }).core 0).pend.any (fun p => p.w == .land 9) = true ∧
    w.settled = true ∧ w.unperformed = false ∧ (hbmLine .done).isDone = true ∧
    (opOf (.chcfg 1 0) [hbmLine .done]).settled = true ∧ (opOf (.waita .eq 0 0) [hbmLine .done]).settled = true := by decide

theorem witness_LoadAndMonitorResults_monitor :
    let o := opOf (.waita .eq 0 0) [hbmLine .idle]
    let n := opOf (.waita .eq 1 0) [hbmLine .idle]
    let armed := fun (o : MemOp) => (withOp o).updDie 7 fun d => { d with mons := [⟨0x1000, 0, 9⟩] }
    ((armed o).core 0).waitaOp = some o ∧ o.lines.head? = some (hbmLine .idle) ∧ (⟨0x1000, 0, 9⟩ : Mon) ∈ ((armed o).die 7).mons ∧
    waitHolds .eq (leWord (slice ((armed o).mem.read 0x1000 128) 0 8)) 0 = true ∧ Tbl.get (armed o).stamps (0x1000 / 128) = none ∧
    ((armed n).core 0).waitaOp = some n ∧ waitHolds .eq (leWord (slice ((armed n).mem.read 0x1000 128) 0 8)) 1 = false ∧
    ((withOp o).core 0).waitaOp = some o ∧ (withOp o).ridge.mons = [] ∧ ((withOp o).die 7).mons = [] := by decide

/-- A write-combining buffer with no free line. -/
def fullBuffer : State :=
  (withOp (opOf .store [hbmLine .flight])).updDie 0 fun d => { d with
    wcb := (List.range 2048).map fun i => ⟨0x100000 + 128 * i, 0, 0, 0, [], [], some i⟩ }

theorem witness_StoreBufferAndReleaseResults_store :
    let o := opOf .store [hbmLine .flight]
    ((withOp o).core 0).op 9 = some o ∧ o.kind = .store ∧ o.lines[0]? = some (hbmLine .flight) ∧ ((withOp o).wcbRoom 0 0x1000).1 = true ∧
    (withOp o).bankBusy 0 0x1000 = false := by decide

/-- A write to the home of die 0. -/
def aWrite (acq : List Nat) : Write :=
  { id := 4, stamp := ⟨1, 0, acq⟩, src := 0, key := 0x1000, home := 0, bytes := List.replicate 128 (true, 7), die := none }

theorem witness_StoreBufferAndReleaseResults_write :
    let s := { State.reset with flights := [aWrite zeroVec] }
    let h := { State.reset with flights := [aWrite (List.replicate 18 5)] }
    s.flights.find? (fun w => w.id == 4 && w.home == 0) = some (aWrite zeroVec) ∧ (s.agent 0).mayApply 0 (aWrite zeroVec) = true ∧
    (s.agent 0).waiting = [] ∧ h.flights.find? (fun w => w.id == 4 && w.home == 0) = some (aWrite (List.replicate 18 5)) ∧
    (h.agent 0).mayApply 0 (aWrite (List.replicate 18 5)) = false ∧ s.hasTurn (.writeApply 0 4) = true ∧ h.hasTurn (.writeApply 0 4) = true ∧
    (s.updRidge fun r => { r with points := Tbl.set r.points (64 + pchOf 0x1000) ⟨5, 17, none⟩ }).hasTurn (.writeApply 0 4) = false ∧
    s.marksBehind 0 1 ⟨0, 0, 0⟩ = true ∧ State.reset.marksBehind 0 1 ⟨0, 0, 0⟩ = false ∧ State.reset.marksBehind 0 1 ⟨0, 2, 0⟩ = false := by
  decide

theorem witness_StoreBufferAndReleaseResults_age :
    let w : WLine := ⟨0x1000, 0, 0, 0, List.replicate 128 (true, 7), [], none⟩
    let s := { (State.reset.updDie 0 fun d => { d with wcb := [w] }) with now := 4096 }
    (s.die 0).wcb.find? (fun w => w.key == 0x1000 && w.drainable && decide (w.since + 4096 ≤ s.now)) = some w := by decide

theorem witness_StoreBufferAndReleaseResults_release :
    let o := fun (ord : Order) (stage : Nat) => opOf (.fence ord .device stage) []
    let w : WLine := ⟨0x1000, 0, 0, 0, List.replicate 128 (true, 7), [], none⟩
    ((withOp (o .sc 2)).core 0).op 9 = some (o .sc 2) ∧ (withOp (o .sc 2)).fenceDone 0 (o .sc 2) = true ∧
    (withOp (o .rel 2)).fenceDone 0 (o .rel 2) = true ∧ (withOp (o .acq 2)).fenceDone 0 (o .acq 2) = true ∧
    (withOp (o .rel 0)).fenceDone 0 (o .rel 0) = false ∧
    -- a first release of this cycle drains its die; a second one with lines to drain waits
    ((withOp (o .rel 1)).releaseDie 0).2 = some 0 ∧ (((withOp (o .rel 1)).updDie 0 fun d => { d with tickAt := 1, wcb := [w] }).releaseDie 0).2 = none := by
  decide

theorem witness_StoreBufferAndReleaseResults_tzero :
    let j : Job := ⟨4, 0, 0, 3, .tzero, [], (0, 0)⟩
    let s := { (State.reset.updCore 0 fun k => { k with jobs := [j] }) with now := 3 }
    (s.core 0).jobs.find? (fun j => j.id == 4) = some j ∧ j.done ≤ s.now := by decide

/-- Context 1 mapped, its level-2 entry as given, with an access of core 0 to address 0x1000 waiting for its walk, or its walk reading. -/
def walking (leaf : Word) (run : Option (Nat × Nat)) : State :=
  ({ mapped with mem := (mapped.mem.write 0x20000 (wordLE leaf)) }).updDie 0 fun d => { d with walks := [⟨1, 0x1000, 0, 0, run, [(0, 9, 0)]⟩] }

theorem witness_TranslationResults :
    let s := walking 0x1F none
    let w : Walk := ⟨1, 0x1000, 0, 0, none, [(0, 9, 0)]⟩
    let e : Xl := ⟨1, 0, 2, 0x1F⟩
    let many := s.updDie 0 fun d => { d with walks := d.walks ++ List.replicate 32 ⟨2, 0, 0, 0, some (4, 0), []⟩ }
    let alone := fun (s : State) => (s.die 0).walks.filter (fun v => v.run.isNone && decide (v.arr ≤ s.now)) = [w] ∧
      (s.die 0).walks.find? (fun v => v.is 1 0x1000 && v.run.isNone) = some w
    alone s ∧ alone many ∧ ((s.updDie 0 fun d => { d with tlb := [e] }).die 0).tlb.find? (·.covers 1 0x1000) = some e ∧
    (s.die 0).tlb.find? (·.covers 1 0x1000) = none ∧ s.ridgeLeaf 1 0x1000 = none ∧ ((s.die 0).walks.filter (·.run.isSome)).length < 32 ∧
    (s.updRidge fun r => { r with wcache := [⟨1, 0, 2, 0x1F⟩] }).ridgeLeaf 1 0x1000 = some e ∧
    ((many.die 0).walks.filter (·.run.isSome)).length = 32 := by decide

theorem witness_TranslationResults_reads :
    let w : Nat → Nat → Walk := fun n pa => ⟨1, 0x1000, 0, 0, some (n, pa), [(0, 9, 0)]⟩
    let ev : Instr := .walkComplete 0 1 0x1000
    let read := fun (s : State) => s.askDone ev (s.request ev)
    let found := fun (leaf : Word) (n pa : Nat) (p : Word) =>
      (((walking leaf (some (n, pa))).die 0).walks.find? fun v => v.is 1 0x1000 && v.run.isSome) = some (w n pa) ∧
      ((read (walking leaf (some (n, pa)))).entryAt 0x1000 (n - 1) pa).map (·.1) = some p ∧ (walking leaf (some (n, pa))).hasTurn ev = true
    found 0x1F 4 0x10000 0x20001 ∧ pteKind 3 0x20001 = .ptr 0x20000 ∧ found 0x1F 3 0x20000 0x1F ∧ pteKind 2 0x1F = .leaf ∧
    bit (0x1F : Word) 57 = false ∧ found 0 3 0x20000 0 ∧ pteKind 2 0 = .bad 1 ∧ found 0x20000000000001F 3 0x20000 0x20000000000001F ∧
    pteKind 2 0x20000000000001F = .leaf ∧ bit (0x20000000000001F : Word) 57 = true ∧
    (read (walking 0x20000000000001F (some (3, 0x20000)))).lockRoom ⟨1, 0, 2, 0x20000000000001F⟩ = true ∧
    (read (walking 0x1F (some (4, 0xF000000000000)))).entryAt 0x1000 3 0xF000000000000 = none ∧
    (walking 0x1F (some (4, 0xF000000000000))).hasTurn ev = true ∧
    ((walking 0x1F (some (3, 0x20000))).updRidge fun r => { r with points := (List.range 320).map fun i => (i, ⟨5, 17, none⟩) }).hasTurn ev = false := by
  decide

theorem witness_TranslationResults_invalidation :
    let i : Inval := ⟨none, 0, 1, 0, .ctx, 1⟩
    let t : Inval := ⟨some (0, 9), 0, 1, 0, .ctx, 1⟩
    let free : Lock := ⟨1, ⟨1, 0, 2, 0x1F⟩, 0, true⟩
    let read : Lock := ⟨1, ⟨1, 0, 2, 0x1F⟩, 1, true⟩
    let s := fun (i : Inval) (l : Lock) => { (State.reset.updRidge fun r => { r with invs := [i], locks := [l] }) with now := 60 }
    (s i free).ridge.invs = [i] ∧ (s t free).ridge.invs = [t] ∧ i.began ≠ 0 ∧ i.began + 59 ≤ (s i free).now ∧ (s i free).ridge.locks = [free] ∧
    free.readers = 0 ∧ (s i free).lockWaits free.id = false ∧ i.by_ = none ∧ t.by_ = some (0, 9) ∧ read ∈ (s i read).ridge.locks ∧
    read.withdrawn = true ∧ read.xl.under i.ctx i.va i.sz = true ∧ read.readers ≠ 0 ∧ State.reset.ridge.invs = [] := by decide

set_option maxRecDepth 100000 in
theorem witness_StoreBufferAndReleaseResults_full :
    (fullBuffer.core 0).op 9 = some (opOf .store [hbmLine .flight]) ∧ (fullBuffer.wcbRoom 0 0x1000).1 = false := by decide

theorem locks_full (s : State) (l : Lock) (e : Xl) (n : Nat) (h : 16384 ≤ n) (hs : s.ridge.locks = List.replicate n l) (hl : (l.xl == e) = false) :
    s.lockRoom e = false := by
  have h2 : ¬ n < 16384 := by omega
  simp [State.lockRoom, hs, List.any_replicate, hl, h2]

/-- The table of pinned leaves is full. -/
def fullLocks : State :=
  (walking 0x20000000000001F (some (3, 0x20000))).updRidge fun r => { r with locks := List.replicate 16384 ⟨1, ⟨2, 0, 2, 0⟩, 0, false⟩ }

theorem witness_TranslationResults_no_room :
    let ev : Instr := .walkComplete 0 1 0x1000
    (fullLocks.askDone ev (fullLocks.request ev)).lockRoom ⟨1, 0, 2, 0x20000000000001F⟩ = false ∧ fullLocks.hasTurn ev = true ∧
    ((fullLocks.askDone ev (fullLocks.request ev)).entryAt 0x1000 2 0x20000).map (·.1) = some 0x20000000000001F :=
  ⟨locks_full _ _ _ _ (Nat.le_refl _) (by rw [State.askDone_locks]; rfl) rfl, rfl, rfl⟩

/-! ### Witnesses: engines, placement, channels, routes and the ridge's engines -/

/-- An MMA of core 0 with `done` of its two K-steps over. -/
def anMma (done : Nat) : MmaOp :=
  ⟨9, 0, 0, 0, false, ⟨0, 0, 1, 32, [], none⟩, ⟨0, 0, 1, 32, [], none⟩, 0, 0, 1, 1, 2, 4, 0, false, some 0, done, [], [], (0, 0, 0)⟩

/-- A result of core 0 that is over at cycle 3. -/
def aJob (kind : JobKind) : Job := ⟨9, 0, 0, 3, kind, [], (0, 0)⟩

/-- Core 0 with an MMA and with results on their way. -/
def engines (m : List MmaOp) (j : List Job) : State :=
  { (State.reset.updCore 0 fun k => { k with mma := m, jobs := j }) with now := 3 }

theorem witness_EngineResults :
    ((engines [anMma 0] []).core 0).mma.find? (fun o => o.id == 9) = some (anMma 0) ∧ (anMma 0).start.isSome = true ∧
    (anMma 0).kdone + 1 < (anMma 0).ksteps ∧ (anMma 1).kdone + 1 = (anMma 1).ksteps ∧ (anMma 2).ksteps ≤ (anMma 2).kdone ∧
    ((engines [] [aJob (.mclr 1)]).core 0).jobs.find? (fun j => j.id == 9) = some (aJob (.mclr 1)) ∧ (aJob (.mclr 1)).done ≠ 0 ∧
    (aJob (.mclr 1)).done ≤ (engines [] []).now ∧ (aJob (.mfeed 1 1 32 0 [])).kind = .mfeed 1 1 32 0 [] ∧ (aJob .mrd).kind = .mrd ∧
    (aJob (.mout 1 5 .rne true [])).kind = .mout 1 5 .rne true [] ∧ (aJob .vec).kind = .vec := by decide

theorem witness_EngineResults_pipe :
    let o : PipeOp := ⟨aJob .vec, 2, 6, []⟩
    let s := State.reset.updCore 0 fun k => { k with pipeV := [o] }
    let late := s.updCore 0 fun k => { k with jobs := [{ aJob .vec with done := 5 }] }
    ((s.trfTurn 0).core 0).pipe false = [o] ∧ ((s.trfTurn 0).core 0).jobs = [] ∧ ((late.trfTurn 0).core 0).pipe false = [o] ∧
    { aJob .vec with done := 5 } ∈ ((late.trfTurn 0).core 0).jobs ∧ late.now + o.lat < 5 + o.occ ∧
    ((State.reset.trfTurn 0).core 0).pipe false = [] := by decide

/-- A placed operation of core 0 that still needs the address of its handle's entry. -/
def placedOp : MemOp := { opOf (.placed (.mfeed 0 ⟨1, [0, 0, 0, 0, 0, 0, 0, 0x400], [0, 0, 0, 0], ⟨1, 32, 0⟩, true⟩)) [] with ready := 1 }

theorem witness_PlacementResults :
    let ids := fun (s : State) => ((s.core 0).memq.filter fun o => o.plKind.isSome).map (·.id)
    let placed := fun (s : State) => ((ids s).foldl (fun (s : State) id => s.prepare 0 id) s).placeGo 0 (ids s)
    (State.reset.core 0).hold = none ∧ ((placed State.reset).core 0).memq = (State.reset.core 0).memq ∧
    ((withOp placedOp).core 0).hold = none ∧ ((placed (withOp placedOp)).core 0).memq ≠ ((withOp placedOp).core 0).memq ∧
    ((State.reset.updCore 0 fun k => { k with hold := some [] }).core 0).hold ≠ none := by decide

/-- A piece of the placed operation. -/
def aPiece (id k0 st : Nat) : Piece := ⟨id, 0, 9, 0, 3, 0, 1, 0, 32, k0, k0 + 32, 0, 0, 0, 0, st, (0, 0, 0)⟩

/-- Two pieces of one cell, the first of K running, or done. -/
def twoPieces (o : MemOp) (st : Nat) : State := (withOp o).updRidge fun r => { r with pieces := [(4, aPiece 4 0 st), (5, aPiece 5 32 2)] }

theorem witness_PlacementResults_pieces :
    let s := twoPieces placedOp 2
    let t := twoPieces placedOp 4
    let hold := (twoPieces { placedOp with lines := [hbmLine .done] } 2).updAgent 0 fun a => { a with acq := List.replicate 18 5 }
    Tbl.get s.ridge.pieces 5 = some (aPiece 5 32 2) ∧ (aPiece 4 0 2) ∈ s.opPieces 0 9 ∧ (s.core 0).op 9 = some placedOp ∧
    placedOp.plKind.isSome = true ∧ Tbl.get t.ridge.pieces 5 = some (aPiece 5 32 2) ∧
    ((t.opPieces 0 9).filter fun q => decide (q.k0 < 32)).all (fun q => q.st == 4) = true ∧
    ((t.opPieces 0 9).filter fun q => decide (32 < q.k0)).all (fun q => q.st != 3) = true ∧ t.homesTake 0 placedOp = true ∧
    ((State.reset.updRidge fun r => { r with pieces := [(5, aPiece 5 32 2)] }).core 0).op 9 = none ∧ (aPiece 4 0 2).k0 < (aPiece 5 32 2).k0 ∧
    (aPiece 5 32 2).place ≠ 0 ∧ hold.homesTake 0 { placedOp with lines := [hbmLine .done] } = false := by decide

theorem witness_ChannelAndReplyResults_entry :
    let l := { hbmLine .done with data := wordLE 0x1000000000 ++ List.replicate 120 0 }
    let bad := { hbmLine .done with data := List.replicate 16 0 ++ wordLE 1 ++ List.replicate 104 0 }
    let o := opOf (.chcfg 1 0) [l]
    ((group 2 run2).grp 3).run = some run2 ∧ ((withOp o).core 0).memq = [] ++ o :: [] ∧ o.unperformed = false ∧
    (withOp o).grpOf 0 = some 3 ∧ (chanOf (words4 (slice l.data 0 32)) 0 2 []).isSome = true ∧
    chanOf (words4 (slice bad.data 0 32)) 0 2 [] = none ∧ ((withOp o).grp 3).state ≤ 3 := by decide

theorem witness_ChannelAndReplyResults_landing :
    let c := chanTo false 0 1
    let b := { c with bar := some 0 }
    let full := { c with slots := [(2, 0, 8)] }
    (chanState c).MemOk ∧ (chanState c).fate (decide (64 ≤ 8)) 3 = .live 3 ∧ ((chanState c).core 0).chan 1 = some c ∧ 0 < c.nslot ∧
    (c.slots.getD 0 (0, 0, 0)).1 = 0 ∧ c.bar = none ∧ ((chanState b).core 0).chan 1 = some b ∧ b.bar = some 0 ∧
    ((chanState full).core 0).chan 1 = some full ∧ (full.slots.getD 0 (0, 0, 0)).1 ≠ 0 := by
  refine ⟨rfl, ?_⟩; decide

theorem witness_ChannelAndReplyResults_reply :
    let o := opOf (.req (.twm 4) 12) []
    ((withOp o).core 0).op 9 = some o ∧ o.left = true ∧ o.fq = false ∧ ((group 2 run2).core 0).op 9 = none ∧
    (((group 2 run2).updCore 0 fun k => { k with pend := [duePend 9 (.x 5 0)] }).core 0).pend.any (·.id == 9) = true ∧
    (group 4 run2).fate false 3 = .held 3 ∧ ((group 4 run2).core 0).op 9 = none ∧ (group 2 run2).fate false 1027 = .stale ∧
    ((withOp placedOp).core 0).op 9 = some placedOp ∧ placedOp.plKind ≠ none := by decide

/-- Route 2 of context 1. -/
def routeIs (r : Route) : State := State.reset.updRoute 1 2 fun _ => r

/-- An operation of a route: opcode 5 is VRCFG, 8 VRCMB. -/
def anRop (op : Nat) : ROp := ⟨op, 0, 0, 0, 0, [], 0, 0⟩

/-- The same package with a write of its own waiting at its home. -/
def applying (s : State) : State :=
  s.updAgent 0 fun a => { a with
    waiting := [{ id := 4, stamp := ⟨16, 0, zeroVec⟩, src := 0, key := 0, home := 0, bytes := [], die := none }] }

theorem witness_RouteOperationResults :
    let on := fun (op : Nat) (ready : Bool) => { Route.reset with queue := [anRop op], run := true, ready := ready, ids := (4, 5) }
    let off := { Route.reset with queue := [anRop 5] }
    let away := { on 8 true with sent := [(0, 7)] }
    ((routeIs (on 5 false)).route 1 2).queue = anRop 5 :: [] ∧ ((routeIs (on 5 false)).route 1 2).run = true ∧
    ((routeIs off).route 1 2).queue = anRop 5 :: [] ∧ ((routeIs off).route 1 2).run = false ∧
    -- not answered; answered and applied or not, with and without a descriptor, VRCMB and another
    (away.gave []).res.1 = 0 ∧ (away.gave []).sent ≠ [] ∧ ((on 5 false).gave []).sent = [] ∧ ((on 5 false).gave []).asked = [] ∧
    (applying (routeIs (on 5 false))).unapplied 4 5 = true ∧ ((applying (routeIs (on 5 false))).route 1 2).queue = anRop 5 :: [] ∧
    (routeIs (on 5 false)).unapplied 4 5 = false ∧ ((on 5 false).gave []).ready = false ∧ (anRop 5).op ≠ 8 ∧
    ((on 5 true).gave []).ready = true ∧ (routeIs (on 5 true)).unapplied 4 5 = false ∧
    (anRop 8).op = 8 ∧ ((on 8 true).gave []).ready = true ∧ ((on 8 true).gave []).res.1 = 0 := by decide

/-- A conversion of axis 0 of an entry. -/
def aConv : Conv := ⟨0, 0, none, 0, 8, [], false, 0, 0, [], [], 0, none, [], 0, none, none⟩

/-- Entry 6 of context 1, in states `st`, with the conversion `cv`, on a mesh whose axis 0 has two members. -/
def converting (st : Nat) (cv : Conv) : State :=
  (State.reset.updRegs fun r => { r with meshcfg := 0x001E_0000_0000_0001 }).updPlent 1 6 fun _ => { PlEnt.reset with
    words := [0x8000000000000000, 0x20, 0, 0, BitVec.ofNat 64 st, 0, 0, 0], convs := [cv] }

theorem witness_ConversionAndCollectiveResults :
    let t := { (converting 8 { aConv with joinAt := 1 }) with now := 2 ^ 30 }
    let m := t.regs.meshcfg
    let on := { aConv with joinAt := 1, begun := true }
    let home := { on with tgt := 8, from_ := 0 }
    (State.reset.ctxs.all fun e => e.2.ptab.isEmpty) = true ∧
    (t.plent 1 6).convs = { aConv with joinAt := 1 } :: [] ∧ 1 + 2 ^ get m 53 48 ≤ t.now + 1 ∧ aConv.puts = none ∧ aConv.joinAt = 0 ∧
    ((converting 8 aConv).plent 1 6).convs = aConv :: [] ∧ ((converting 0 home).plent 1 6).convs = home :: [] ∧
    (convStage m ((converting 0 home).plent 1 6).words home).kind = .local_ ∧
    (convStage m (t.plent 1 6).words { aConv with joinAt := 1 }).kind ≠ .local_ ∧
    ((converting 8 on).plent 1 6).convs = on :: [] ∧ (convStage m ((converting 8 on).plent 1 6).words on).kind ≠ .local_ ∧
    ((converting 8 { on with went := some [] }).plent 1 6).convs = { on with went := some [] } :: [] ∧
    ((converting 8 { on with ids := some (4, 5) }).plent 1 6).convs = { on with ids := some (4, 5) } :: [] ∧
    ((converting 8 { on with ids := some (4, 5), puts := some [] }).plent 1 6).convs = { on with ids := some (4, 5), puts := some [] } :: [] := by
  decide

/-- Context 1 mapped, and link 5 usable to package 1, the other member of axis 0. -/
def linked (s : State) : State :=
  (({ s with mem := mapped.mem }.updCtx 1 fun k => { k with state := 2, root := 0x10000 }).updLink 5 fun _ =>
    { Link.reset with state := 2, nwl := 16 }).updRegs fun r => { r with lrte := [(1, 0x45)], meshcfg := 0x001E_0000_0000_0001 }

set_option maxRecDepth 100000 in
/-- What a conversion sends in its first step. -/
theorem witness_ConversionAndCollectiveResults_sends :
    let on := { aConv with joinAt := 1, begun := true }
    let s := linked (converting 8 on)
    let d := (((s.convSend 1 6 on (convStage s.regs.meshcfg (s.plent 1 6).words on)).plent 1 6).convs).headD aConv
    d.went.isSome = true ∧ d.seq = on.seq := by decide

/-- Step 0 of a collective of context 1. -/
def aColl : Coll := ⟨7, 1, List.replicate 8 0, 0x1000, 0, (0, 0), [], false, false, none, 0, [], 0, none⟩

/-- The package with this step. -/
def collIs (k : Coll) : State := State.reset.updRidge fun r => { r with colls := [k] }

set_option maxRecDepth 100000 in
theorem witness_ConversionAndCollectiveResults_steps :
    let sent := { aColl with sent := true }
    let on := { sent with begun := true }
    let wrote := { on with ids := some (4, 5) }
    let bar := { wrote with desc := [0, 0, 0, 0, 0, 0x0200000000000000, 0, 0], landed := 128 }
    (collIs sent).ridge.colls.find? (fun k => k.id + 65536 == 7 + 65536) = some sent ∧
    (collIs aColl).ridge.colls.find? (fun k => k.id == 7) = some aColl ∧
    (((collIs aColl).collTry aColl).ridge.colls.find? (fun k => k.id == 7)).isSome = true ∧
    (collIs { on with went := some [] }).ridge.colls.find? (fun k => k.id == 7) = some { on with went := some [] } ∧
    (linked (collIs on)).ridge.colls.find? (fun k => k.id == 7) = some on ∧ on.ids = none ∧ on.went = none ∧
    ((((linked (collIs on)).collSend on).ridge.colls.find? (fun k => k.id == 7)).bind (·.went)).isSome = true ∧
    (collIs wrote).ridge.colls.find? (fun k => k.id == 7) = some wrote ∧ (applying (collIs wrote)).unapplied 4 5 = true ∧
    (collIs wrote).unapplied 4 5 = false ∧ clBar wrote.desc = none ∧
    (collIs bar).ridge.colls.find? (fun k => k.id == 7) = some bar ∧ clBar bar.desc = some 0 ∧ bar.landed ≠ 0 := by decide

/-- Core 0 stores through entry 6, which converts where `conv`, with the handle's version `ver`. -/
def storing (conv : Bool) (ver : Word) (bytes : List (Nat × List Byte)) : State :=
  ((withOp (opOf (.pstore ⟨1, [0, 0, 0, 0, 0, 0, 0, ver * 0x100000000 + 0x406], [0, 0, 0, 0], ⟨1, 32, 0⟩, true⟩ bytes) []))).updPlent 1 6 fun p =>
    { p with words := [if conv then 0xA000000000000000 else 0x8000000000000000, 0x20, 0, 0, 0, 0, 0, 0] }

theorem witness_ConversionAndCollectiveResults_stores :
    let e := fun (ver : Word) => (⟨1, [0, 0, 0, 0, 0, 0, 0, ver * 0x100000000 + 0x406], [0, 0, 0, 0], ⟨1, 32, 0⟩, true⟩ : Enf)
    let q := fun (s : State) => (s.plent (s.ctxOf 0) (hPle (e 0).ws)).words
    hVer (e 1).ws ≠ plVer (q (storing false 1 [])) ∧
    hVer (e 0).ws = plVer (q (storing false 0 [])) ∧ plConv (q (storing true 0 [])) = true ∧ plConv (q (storing false 0 [])) = false ∧
    ((storing true 0 []).plent 1 6).heldBytes + 0 ≤ 2 ^ 22 ∧
    (((storing false 0 []).merge 8 ((storing false 0 []).stampOf 0)).pstoreGo 0 1 8 (q (storing false 0 [])) []).2 = none ∧
    (((storing false 0 [(pstoreBase, [1])]).merge 8 ((storing false 0 []).stampOf 0)).pstoreGo 0 1 8 (q (storing false 0 [])) [(pstoreBase, [1])]).2 =
      some (0, 1) := by decide

/-- Context 1 mapped and owning transfer channel 2, which has a chain at 0x1000. -/
def chained (on : Bool) (w2 w3 : Word) : State :=
  ({ mapped with
      mem := ((mapped.mem.write 0x1000 (wordLE 0x2000)).write 0x1008 (wordLE 0x3000)).write 0x1010 (wordLE w2 ++ wordLE w3) }).updXch 2 fun x =>
    { x with own := 0x41, state := 1, chains := [⟨0x1000, none, none, on, none⟩] }

set_option maxRecDepth 100000 in
theorem witness_TransferSlabAndExpertResults_links :
    let f : For := ⟨none, 1, 16⟩
    let s := chained true 128 0
    let l := (Work.on s).read f 0x1000 32
    let ws := (List.range 4).map (wordAt l.1)
    ((chained false 128 0).xch 2).chains = ⟨0x1000, none, none, false, none⟩ :: [] ∧ (s.xch 2).chains = ⟨0x1000, none, none, true, none⟩ :: [] ∧
    l.2.res = 0 ∧ s.linkOk 1 0x1000 ws = true ∧
    ((l.2.read f 0x2000 128).2.write f 0x3000 (List.replicate 128 0)).res = 0 := by decide

theorem witness_TransferSlabAndExpertResults_bad_links :
    let f : For := ⟨none, 1, 16⟩
    let s := chained true 64 0
    let far := (chained true 128 0).updXch 2 fun x => { x with chains := [⟨0x40000000, none, none, true, none⟩] }
    s.linkOk 1 0x1000 ((List.range 4).map (wordAt ((Work.on s).read f 0x1000 32).1)) = false ∧
    ((Work.on far).read f 0x40000000 32).2.res ≠ 0 ∧
    (((Work.on s).read f 0x1000 32).2.write f 0x40000000 [0]).res ≠ 0 := by decide

/-- A link whose writes are made: waiting at a home, and applied, at the end of its chain and before another link. -/
theorem witness_TransferSlabAndExpertResults_made :
    let m := fun (w2 w3 : Word) => (([0x2000, 0x3000, w2, w3], 4, 5) : List Word × Nat × Nat)
    let s := fun (w2 w3 : Word) => (chained true w2 w3).updXch 2 fun x => { x with chains := [⟨0x1000, none, none, true, some (m w2 w3)⟩] }
    ((s 128 0).xch 2).chains = ⟨0x1000, none, none, true, some (m 128 0)⟩ :: [] ∧
    ((s 0x200090000000080 0x1020).xch 2).chains = ⟨0x1000, none, none, true, some (m 0x200090000000080 0x1020)⟩ :: [] ∧
    (applying (s 128 0)).unapplied 4 5 = true ∧ ((applying (s 128 0)).xch 2).chains = ((s 128 0).xch 2).chains ∧
    (s 128 0).unapplied 4 5 = false ∧ (s 0x200090000000080 0x1020).unapplied 4 5 = false ∧
    bit (wnth (m 128 0).1 2) 57 = false ∧ get (wnth (m 128 0).1 3) 51 0 = 0 ∧
    bit (wnth (m 0x200090000000080 0x1020).1 2) 57 = true ∧ get (wnth (m 0x200090000000080 0x1020).1 3) 51 0 ≠ 0 := by decide

/-- Slab 4 of context 1 growing from 128 rows of 128 bytes at 0x100000 to 0x200000, with `wm` rows copied. -/
def growing (c : State) (wm : Nat) : State :=
  c.updSlab 1 4 fun _ => { Slab.reset with words := slabWords 2 7 0x100000 128 0x200000 wm }

set_option maxRecDepth 100000 in
theorem witness_TransferSlabAndExpertResults_slab :
    sbState ((growing mapped 0).slab 1 4).words = 2 ∧ ((growing mapped 0).slab 1 4).stop = false ∧
    sbWm ((growing mapped 0).slab 1 4).words + 64 < 2 ^ sbCap ((growing mapped 0).slab 1 4).words ∧
    2 ^ sbCap ((growing mapped 64).slab 1 4).words ≤ sbWm ((growing mapped 64).slab 1 4).words + 64 ∧
    sbRow ((growing mapped 64).slab 1 4).words = 128 := by decide

theorem ok_of_isOk {α β : Type} (x : Except α β) (h : x.isOk = true) : ∃ v, x = .ok v := by
  cases x with
  | ok v => exact ⟨v, rfl⟩
  | error e => cases h

/-- A chunk written: with the write waiting at its home, and applied, at either end of a slab's growth. -/
theorem witness_TransferSlabAndExpertResults_chunk :
    let s := fun (wm : Nat) => (growing mapped wm).updSlab 1 4 fun b => { b with ids := some (4, 5) }
    ((s 0).slab 1 4).ids = some (4, 5) ∧ (applying (s 0)).unapplied 4 5 = true ∧ ((applying (s 0)).slab 1 4).ids = some (4, 5) ∧
    (s 0).unapplied 4 5 = false ∧ ((growing mapped 0).slab 1 4).ids = none := by decide

set_option maxRecDepth 100000 in
/-- A read of the last rows of the slab that succeeds, and a write of as many bytes to its new place that does. -/
theorem witness_TransferSlabAndExpertResults_copy :
    (∃ v, (growing mapped 64).vread (some 0) 1 16 (0x100000 + 64 * 128) (64 * 128) = .ok v) ∧
    ((growing mapped 64).vwrite (some 0) 1 16 (0x200000 + 64 * 128) (List.replicate 8192 0)).2 = none := by
  refine ⟨ok_of_isOk _ ?_, ?_⟩ <;> decide

theorem witness_TransferSlabAndExpertResults_copy_faults :
    ((growing (ctxIn 2 0) 0).vread (some 0) 1 16 0x100000 (64 * 128)).isOk = false := by decide

/-- Expert slot 3 being filled for context 1, `n` bytes in. -/
def filling (n : Nat) (ids : Option (Nat × Nat)) : State :=
  (mapped.updRegs fun r => { r with excfg := 16 }).updEslot 3 fun _ =>
    { ESlot.reset with state := 1, ctx := 1, src := 0x100000, filled := n, ids := ids }

theorem witness_TransferSlabAndExpertResults_expert :
    ((filling 0 none).eslot 3).state = 1 ∧ ((filling 0 none).eslot 3).ids = none ∧ (mapped.eslot 3).state ≠ 1 ∧
    ((filling 0 (some (4, 5))).eslot 3).ids = some (4, 5) ∧ (applying (filling 0 (some (4, 5)))).unapplied 4 5 = true ∧
    (filling 0 (some (4, 5))).unapplied 4 5 = false ∧ 0 + 128 < (filling 0 none).slotLen ∧ (filling 0 none).slotLen ≤ 65408 + 128 ∧
    ((filling 65408 (some (4, 5))).eslot 3).filled = 65408 ∧
    (((filling 0 none).updCtx 1 fun k => { k with root := 0x18000000000 }).vread (some 0) 1 16 0x100000 128).isOk = false := by decide

theorem witness_TransferSlabAndExpertResults_expert_read : ∃ v, (filling 0 none).vread (some 0) 1 16 0x100000 128 = .ok v :=
  ok_of_isOk _ (by decide)

/-! ### Witnesses: links, errors, power, the host and the rules of the whole machine -/

/-- Link 5 as given. -/
def linkIs (k : Link) : State := State.reset.updLink 5 fun _ => k

theorem witness_LinkStateResults :
    let l := fun (st : Nat) => ((linkIs { Link.reset with state := st }).link 5).state
    l 0 = 0 ∧ l 5 = 5 ∧ l 6 = 6 ∧ State.reset.lasers.getD (5 / 12) false = true ∧ l 1 = 1 ∧ l 2 = 2 ∧ l 3 = 3 ∧ l 4 = 4 ∧
    ({ State.reset with lasers := [false, true, true, true] }).lasers.getD (5 / 12) false = false ∧
    ((linkIs { Link.reset with state := 1, free := 0 }).link 5).free ≤ (linkIs Link.reset).now ∧
    12 < ((linkIs { Link.reset with state := 2, nwl := 13 }).link 5).nwl ∧ ((linkIs { Link.reset with state := 3, nwl := 12 }).link 5).nwl ≤ 12 ∧
    ((linkIs { Link.reset with state := 2 }).linkUsable 5) = true ∧ ((linkIs { Link.reset with state := 4 }).link 5).resend = [] := by decide

/-- The bytes of a flit that package 7 sends, its SEQ 0. -/
def flitOf (vc kind gid : Nat) (bytes : List Byte) : List Byte := Flit.image ⟨vc, kind, 0, 0, gid, bytes.length, bytes, 0, .nothing⟩ none 0 0 7

/-- What a link reads of it. -/
def fieldsOf (vc kind gid : Nat) (bytes : List Byte) : FlitIn := ⟨0, vc, kind, false, 0, 0, 0, 7, gid, bytes⟩

set_option maxRecDepth 100000 in
/-- The flits of the witnesses below read as their fields, and an empty one does not read. -/
theorem witness_flits_read :
    readFlit (flitOf 6 2 0xFFFF [16, 2]) = some (fieldsOf 6 2 0xFFFF [16, 2]) ∧
    readFlit (flitOf 6 2 0xFFFF [11, 2]) = some (fieldsOf 6 2 0xFFFF [11, 2]) ∧
    readFlit (flitOf 6 2 0xFFFF [16, 1]) = some (fieldsOf 6 2 0xFFFF [16, 1]) ∧
    readFlit (flitOf 3 1 0xFFFF [1, 2]) = some (fieldsOf 3 1 0xFFFF [1, 2]) ∧
    readFlit (flitOf 3 2 0xFFFF [1, 2]) = some (fieldsOf 3 2 0xFFFF [1, 2]) ∧
    readFlit (flitOf 3 2 77 [1, 2]) = some (fieldsOf 3 2 77 [1, 2]) ∧
    readFlit (flitOf 0 0 0xFFFF []) = some (fieldsOf 0 0 0xFFFF []) ∧
    readFlit (flitOf 6 4 0xFFFF []) = some (fieldsOf 6 4 0xFFFF []) ∧
    readFlit (flitOf 0 5 0xFFFF []) = some (fieldsOf 0 5 0xFFFF []) ∧
    readFlit (flitOf 6 3 0xFFFF (natLE 8 90)) = some (fieldsOf 6 3 0xFFFF (natLE 8 90)) ∧ readFlit [] = none := by decide +kernel

theorem witness_LinkStateResults_training :
    numAt (fieldsOf 6 2 0xFFFF [16, 2]).bytes 1 1 = 2 ∧ 12 ≤ min (min 16 (numAt (fieldsOf 6 2 0xFFFF [16, 2]).bytes 0 1)) 16 ∧
    min (min 16 (numAt (fieldsOf 6 2 0xFFFF [11, 2]).bytes 0 1)) 16 < 12 ∧ numAt (fieldsOf 6 2 0xFFFF [16, 1]).bytes 1 1 ≠ 2 := by decide

set_option maxRecDepth 100000 in
theorem witness_LinkStateResults_replay_and_slots :
    let f : Flit := ⟨0, 1, 0, 7, 0xFFFF, 2, [1, 2], 0, .nothing⟩
    let k := { Link.reset with state := 2, peer := 7, replay := [(f, 0, 0)] }
    let s := { (linkIs k) with now := 6000 }
    ((linkIs k).receive 5 4 (flitOf 6 4 0xFFFF [])).2 = some (fieldsOf 6 4 0xFFFF []) ∧
    (((linkIs k).receive 5 4 (flitOf 6 4 0xFFFF [])).1.link 5).state = 2 ∧
    (s.link 5).replay.any (fun e => decide (e.2.2 + 6000 ≤ s.now)) = true ∧
    Link.reset.en = false ∧ bit (0x140 : Word) 8 = true ∧ Link.reset.tableOk (get (0x140 : Word) 6 0) = true ∧
    ({ Link.reset with sltctl := 0x140 }).en = true ∧ bit (0 : Word) 8 = false := by decide +kernel

/-- A link in UP with a slot table of one entry, V = 1, to package 7. -/
def slotted (base : Word) (slot : Option (Nat × Nat × Bool × Nat)) (q : List Flit) : Link :=
  { Link.reset with
    state := 2, nwl := 16, sltctl := 0x101, sltbase := base, table := [(0, 0x80FF_0070_0000_2710, 0x0258_0000_0000_0000)], slot := slot,
    queue := q, peers := [(7, { PeerSt.fresh with credit := List.replicate 8 1 })] }

theorem witness_LinkTrafficResults_slots :
    let k := slotted 0 none []
    let later := slotted 100 none []
    let guard := slotted 0 (some (0, 0, false, 0)) []
    k.en = true ∧ (linkIs k).linkUsable 5 = true ∧ k.sltbase.toNat ≤ (linkIs k).ftick ∧ k.slot = none ∧
    (linkIs later).ftick < later.sltbase.toNat ∧ guard.slot = some (0, 0, false, 0) ∧
    0 + seGuard (guard.entry 0) ≤ ({ (linkIs guard) with ftick := 600 }).ftick ∧ seV (guard.entry 0) = true ∧
    0 + seDur (guard.entry 0) ≤ ({ (linkIs guard) with ftick := 10000 }).ftick := by decide

theorem witness_LinkTrafficResults_sending :
    let f : Flit := ⟨0, 2, 0, 7, 0xFFFF, 2, [1, 2], 0, .nothing⟩
    let k := slotted 0 (some (0, 0, true, 0)) [f]
    let w : Window := ⟨7, 127, none, some 10000⟩
    let b := fun (k : Link) => ((linkIs k).updLink 5 fun k => k.board (linkIs k).now).handInbox 5
    let r : Link := { k with state := 4, queue := [], resend := [(7, 3)] }
    let pay : Link := { k with queue := [], peers := [(7, { PeerSt.fresh with owed := [1, 0, 0, 0, 0, 0, 0, 0] })] }
    (b Link.reset).linkUsable 5 = false ∧ (b { k with free := 1 }).linkUsable 5 = true ∧ (b { k with free := 1 }).now < ((b { k with free := 1 }).link 5).free ∧
    (b { k with free := 1 }).agenda = [] ∧ ((b k).link 5).free ≤ (b k).now ∧ ((b k).link 5).window (b k).ftick = some w ∧
    (b k).fitsSlot ((b k).link 5) w = true ∧ ((b k).link 5).choose w = some (0, f) ∧
    (b r).linkUsable 5 = true ∧ ((b r).link 5).window (b r).ftick = some w ∧ ((b r).link 5).choose w = none ∧ ((b r).link 5).state = 4 ∧
    ((b r).link 5).nextResend w = some (7, 3) ∧ ((b { r with resend := [] }).link 5).choose w = none ∧
    ((b { r with resend := [] }).link 5).resend = [] ∧ ((b pay).link 5).choose w = none ∧ ((b pay).link 5).state ≠ 4 ∧
    (b pay).payable ((b pay).link 5) 7 = some (0, 1) ∧ (linkIs k).agenda = [] := by decide

set_option maxRecDepth 100000 in
theorem witness_LinkTrafficResults_receiving :
    let k := slotted 0 (some (0, 0, true, 0)) []
    let s := linkIs k
    let from9 := { k with table := [(0, 0x80FF_0090_0000_2710, 0x0258_0000_0000_0000)] }
    s.linkUsable 5 = true ∧ ({ k with wrongId := true }).discards 0 7 = true ∧ k.discards 0 7 = false ∧
    (s.receive 5 1 (flitOf 3 1 0xFFFF [1, 2])).2 = some (fieldsOf 3 1 0xFFFF [1, 2]) ∧
    (((s.receive 5 1 (flitOf 3 1 0xFFFF [1, 2])).1.link 5).peerSt (((s.receive 5 1 (flitOf 3 1 0xFFFF [1, 2])).1.link 5).sender 7)).rxSeq = 0 ∧
    ((((linkIs { k with peers := [(7, { PeerSt.fresh with rxSeq := 1 })] }).receive 5 1 (flitOf 3 1 0xFFFF [1, 2])).1.link 5).peerSt 7).rxSeq ≠ 0 ∧
    ((s.receive 5 2 (flitOf 3 2 0xFFFF [1, 2])).1.acceptFlit 5 (fieldsOf 3 2 0xFFFF [1, 2]) true).2 = some (7, [1, 2]) ∧
    ((s.receive 5 2 (flitOf 3 2 77 [1, 2])).1.acceptFlit 5 (fieldsOf 3 2 77 [1, 2]) true).2 = some (7, [1, 2]) ∧
    ((s.receive 5 2 (flitOf 3 2 77 [1, 2])).1.acceptFlit 5 (fieldsOf 3 2 77 [1, 2]) true).1.fate true 77 = .stale ∧
    outlivesGroup (.landing 0 64 0 0 0 false) = false ∧
    ((linkIs { k with peers := [(7, { PeerSt.fresh with rxSeq := 1 })] }).acceptFlit 5 (fieldsOf 3 2 77 [1, 2]) true).2 = none ∧
    sePeer (k.entry 0) = 7 ∧ sePeer (from9.entry 0) ≠ 7 := by decide +kernel

/-- A landing that has to cross the eave ring, and one at the eave of its link. -/
theorem witness_LinkTrafficResults_ring :
    let s := (group 2 { run2 with npkg := 2, sptag := 77 }).updLink 5 fun _ => slotted 0 none []
    (s.hopsTo 5 (.landing 1 64 0 0 0 false) 77).length ≠ 0 ∧ (s.hopsTo 5 (.landing 0 64 0 0 0 false) 77).length = 0 ∧ s.fate true 77 = .live 3 := by
  decide

set_option maxRecDepth 100000 in
theorem witness_LinkTrafficResults_tick :
    let s := fun (st ft : Nat) => { ((linkIs { Link.reset with state := st }).updRegs fun r => { r with tkcfg := 5 }) with ftick := ft }
    let u := ((s 2 100).receive 5 3 (flitOf 6 3 0xFFFF (natLE 8 90))).1
    (s 1 100).upstream = some 5 ∧ ((s 1 100).link 5).state = 1 ∧ ((s 1 100).link 5).back = 0 ∧ numAt (natLE 8 90) 0 8 = 90 ∧ (s 1 100).ftick ≤ 90 + 20 / 2 ∧
    90 + 18 / 2 < (s 1 100).ftick ∧ ((s 2 100).receive 5 3 (flitOf 6 3 0xFFFF (natLE 8 90))).2 = some (fieldsOf 6 3 0xFFFF (natLE 8 90)) ∧
    ((s 2 100).link 5).state ≠ 1 ∧ u.upstream = some 5 ∧ u.linkUsable 5 = true ∧ (u.link 5).state ≠ 1 ∧ 90 + 24 / 2 ≤ u.ftick + 2 ∧
    u.ftick ≤ 90 + 16 / 2 + 2 := by decide +kernel

theorem witness_ErrorAndAgeingResults :
    0 ∉ (group 2 run2).fenced ∧ (group 2 run2).grpOf 0 = some 3 ∧ ((group 2 run2).grp 3).state = 2 ∧ (group 2 run2).gid16 3 ≠ 0 ∧
    State.reset.grpOf 0 = none ∧ (group 1 run2).grpOf 0 = some 3 ∧ ((group 1 run2).grp 3).state = 1 ∧ 0 ∉ (group 1 run2).fenced ∧
    ((State.reset.updXch 2 fun x => { x with chains := [⟨0x1000, none, none, true, none⟩] }).xch 2).chains ≠ [] ∧
    ((queueIn 2 { Queue.reset with en := true, state := 1 }).queue (5 % 256)).en = true ∧
    ((queueIn 2 { Queue.reset with en := true, state := 1 }).queue (5 % 256)).state = 1 ∧
    ((linkIs { Link.reset with state := 4 }).link 5).state = 4 ∧
    3 ∉ State.reset.ridge.eaveFenced ∧ State.reset.ridge.pieces = [] ∧ 3 ∉ State.reset.ridge.arrFenced ∧
    (insertNat 3 State.reset.ridge.arrFenced).length < 4 ∧ State.reset.ridge.arrays.getD 3 none = none ∧
    (resolvePA 0x1000).isSome = true ∧ ((ctxIn 2 0).ctx (1 % 64)).state = 2 ∧ State.reset.powered = true ∧ State.reset.grpOf (8 % 64) = none := by
  decide

theorem witness_ErrorAndAgeingResults_plan :
    let s := fun (w : Word) => State.reset.updRegs fun r => { r with agest := [(2, w)] }
    agPlan ((s 1).age 2) = 1 ∧ Tbl.getD (s 1).regs.ageWait 2 0 ≤ (s 1).now ∧ (s 1).mayPause 2 = true ∧ agPlan ((s 2).age 2) = 2 ∧
    (s 2).mayPause 2 = true ∧ agPlan ((s 3).age 2) = 3 := by decide

set_option maxRecDepth 100000 in
theorem witness_ErrorAndAgeingResults_measurement :
    let s := State.reset.updRegs fun r => { r with agecfg := 1 }
    s.powered = true ∧ get s.regs.agecfg 15 0 ≠ 0 ∧ ([30] : List Nat) ≠ [] ∧ (s.measure [30] []).powered = true ∧
    (s.measure [30] [110]).powered = false ∧ get (0 : Word) 15 0 = 0 := by decide

theorem witness_PowerBootAndResetResults :
    let s := fun (st : Nat) => State.reset.updRegs fun r => { r with bootState := st }
    43999 < 44000 ∧ 100 ≤ 100 ∧ 44000 ≤ 44000 ∧ 99 < 100 ∧ 20 < 21 ∧ 110 ≤ 110 ∧ 109 < 110 ∧
    (s 0).powered = true ∧ (s 0).regs.bootState = 0 ∧ (s 4).regs.bootState = 4 ∧ (s 1).regs.bootState = 1 ∧ (s 2).regs.bootState = 2 ∧
    (s 3).regs.bootState = 3 ∧ (s 2).regs.bootState ≠ 3 ∧ (s 0).hostWaits = false ∧ (s 0).agenda = [] ∧ hostWriting.hostWaits = true ∧ hdrOk (Machine.hdrOf ((s 1).regs.buffer.read 0 64)) = false := by decide

/-- A load buffer with a well-formed header; whether its signature verifies is a free value, and each case is some hypothesis's. -/
theorem witness_PowerBootAndResetResults_image :
    let b : Mem := Mem.write [] 0 (wordLE 0x465839)
    hdrOk (Machine.hdrOf (b.read 0 64)) = true ∧ imgSvn (Machine.hdrOf (b.read 0 64)) = 0 ∧ 0 < 1 ∧
    (∀ bs, Config.imageOk bs = true ∨ Config.imageOk bs = false) :=
  ⟨by decide, by decide, by decide, fun bs => by cases Config.imageOk bs <;> simp⟩

theorem witness_HostPortResults :
    let up := State.reset.updRegs fun r => { r with bootState := 3 }
    State.reset.powered = true ∧ ({ State.reset with powered := false }).powered = false ∧
    meshOk (BitVec.ofNat 64 (get (0x001E_0000_0000_0000 : Word) 53 0)) State.reset.regs.pkrank = true ∧ State.reset.ridge.colls = [] ∧
    State.reset.ctxs = [] ∧ meshOk (BitVec.ofNat 64 (get (0x001E_0000_0100_0000 : Word) 53 0)) State.reset.regs.pkrank = false ∧
    quotaOk (BitVec.ofNat 64 (get (0xC0300C0300 : Word) 39 0)) = true ∧ quotaOk (BitVec.ofNat 64 (get (0x1F : Word) 39 0)) = false ∧
    16 ≤ get (0x15 : Word) 4 0 ∧ get (0x15 : Word) 4 0 ≤ 21 ∧ get (0x15 : Word) 26 5 * 2 ^ 21 + 64 * 2 ^ get (0x15 : Word) 4 0 ≤ 2 ^ 27 ∧
    State.reset.ridge.slots = [] ∧ ((State.reset.updEslot 3 fun e => { e with state := 1 }).ridge.slots.any fun e => e.2.state == 1) = true ∧
    State.reset.regs.invBusy = false ∧ (State.reset.updRegs fun r => { r with invBusy := true }).regs.invBusy = true ∧
    State.reset.hostWaits = false ∧ State.reset.agenda = [] ∧ isCommand 0x40 = false ∧ isCommand 0x18 = true ∧ hostWriting.powered = true ∧
    hostWriting.hostWaits = true ∧ (1, .registerWrite 0x40 0) ∈ ({ State.reset with agenda := [(1, .registerWrite 0x40 0)] }).agenda ∧
    get (0 : Word) 31 0 = 0 ∧ get (1 : Word) 31 0 ≠ 0 ∧ up.cxlMem = true ∧ 0 + 128 ≤ hbmTop ∧ up.unitFault 0 = none ∧ hostBase + 128 ≤ 2 * hostBase ∧ State.reset.cxlMem = false := by decide

theorem witness_HostPortResults_resume :
    ((ctxIn 2 0).frsm 1 5).2 = some 0 ∧ (State.reset.frsm 1 5).2 = none := by decide

theorem witness_UnexecutedInstructionChangesNothing :
    (Instr.add ⟨1, 0, true⟩ 1 2 3 .wrap).hdr? = some ⟨1, 0, true⟩ ∧ live.here.holds live.issuer ⟨1, 0, true⟩ = false ∧
    (live.updCore 0 fun k => { k with bctx := { k.bctx with traps := [(1, 0x80)] } }).here.bctx.ready = true ∧
    (live.updCore 0 fun k => { k with bctx := { k.bctx with traps := [(1, 0x80)] } }).here.bctx.traps.any (fun t => t.1 == 1) = true := by decide

/-- Core 0 of the running group with a trap listed for slot 1. -/
def trapped (spnd : Bool) : State :=
  (((group 2 run2).updCore 0 fun k => { k with bctx := { k.bctx with traps := [(1, 0x80)] } })).updCtx 1 fun k => { k with spnd := spnd }

theorem witness_TrapEndsTheGroup :
    ((trapped false).core 0).group = some 3 ∧ ((trapped false).grp 3).run = some run2 ∧ ((trapped false).grp 3).state ≤ 3 ∧
    ((trapped false).core 0).bctx.traps = [] ++ (1, 0x80) :: [] ∧ ((trapped false).core 0).bctx.cmit = false ∧
    ((trapped false).core 0).bctx.exit = false ∧ ((trapped false).ctx 1).state = 2 ∧ ((trapped false).ctx 1).spnd = false ∧
    ((trapped true).ctx 1).state = 2 ∧ ((trapped true).ctx 1).spnd = true := by decide

set_option maxRecDepth 100000 in
/-- What taking that trap leaves. -/
theorem test_trap_ends_the_group :
    (((trapped false).finishBundle 0).grp 3).state = 5 ∧ (((trapped false).finishBundle 0).grp 3).cause = 2 ∧
    (((trapped false).finishBundle 0).grp 3).trap = 0x80 ∧ (((trapped false).finishBundle 0).ctx 1).state = 4 ∧
    (((trapped false).finishBundle 0).ctx 1).cause = 1 := by decide

/-- Two writes of x5 that are due, the later one second. -/
def twoDue : Core :=
  { Core.reset 0 with pend := [⟨0, 9, 0, .x 5 2, true, 0, []⟩, ⟨0, 1, 0, .x 5 1, true, 0, []⟩, ⟨1, 2, 0, .x 5 3, true, 0, []⟩] }

theorem witness_DueWritesApplyInOrder :
    (⟨0, 9, 0, .x 5 2, true, 0, []⟩ : Pend) ∈ twoDue.pend ∧ 0 ≤ twoDue.lcyc ∧ (5 : XReg).val ≠ 0 ∧
    (twoDue.pend.all fun q => !decide (q.due ≤ twoDue.lcyc) || q == ⟨0, 9, 0, .x 5 2, true, 0, []⟩ || decide (q.due = 0 ∧ q.pos < 9)) = true := by
  decide

theorem test_due_writes : twoDue.applyDue.rx 5 = 2 ∧ twoDue.applyDue.pend.length = 1 := by decide

/-- A core whose bundle runs under one open level. -/
def inLoopCore : Core := { Core.reset 0 with skid := [⟨0, 4, List.replicate 8 0, [⟨false, false, 0, 1, 4, 0⟩], [], 0, false, none⟩] }

theorem witness_FixedRegisters :
    (0 : XReg).val = 0 ∧ (63 : XReg).val ≠ 0 ∧ (11 : PReg).val < 12 ∧ (12 : PReg).val = 12 ∧ (13 : PReg).val = 13 ∧ inLoopCore.stack ≠ [] ∧
    (Core.reset 0).stack = [] := by decide

theorem witness_ResetState : (0 : Nat) < 64 ∧ (63 : Nat) < 64 := by decide

theorem witness_StepKeepsMemoryCanonical : State.reset.MemOk ∧ ∃ t, step State.reset = .next t := ⟨rfl, _, rfl⟩

end Sys2Proof.Tests
end

section
/-! SUPPORT. When an instruction is not executed (14 R222, R225, R247). -/

namespace Sys2Proof.Machine

/-- NOP does nothing, SEL asks for no predicate (14 R225), and the effect of every other slot instruction stands behind the tests of
`slotDo`; events have no header. -/
theorem exec_of_hdr {i : Instr} {h : Hdr} (hi : i.hdr? = some h) :
    i = .nop h ∨ (∃ xD xA xB, i = .sel h xD xA xB) ∨ ∃ eff, ∀ s, exec i s = slotDo h i s eff := by
  cases i <;> cases hi
  case nop.refl => exact .inl rfl
  case sel.refl xD xA xB => exact .inr (.inl ⟨xD, xA, xB, rfl⟩)
  all_goals exact .inr (.inr ⟨_, fun _ => by dsimp only [exec]; rfl⟩)

/-- An instruction for whose slot its bundle has listed a trap does nothing (14 R247). -/
theorem slotDo_trapped {s : State} {h : Hdr} (hr : (s.core s.issuer).bctx.ready = true)
    (ht : ∃ t ∈ (s.core s.issuer).bctx.traps, t.1 = h.slot.val) (i : Instr) (eff : Nat → State → State) :
    slotDo h i s eff = .next s := by
  have hany : (s.core s.issuer).bctx.traps.any (·.1 == h.slot.val) = true := by simpa using ht
  simp [slotDo, hr, hany]

/-- SEL always executes, its predicate choosing the operand (14 R225). -/
theorem exec_sel (s : State) (h : Hdr) (xD xA xB : XReg) : exec (.sel h xD xA xB) s =
    .next (s.result h 1 xD (if s.here.holds s.issuer h then s.here.rx xA else s.here.rx xB) []) :=
  congrArg Host.Outcome.next (s.dueX_eq h 1 xD (_, []))

/-- Settles O55: every slot instruction but NOP and SEL is a `slotDo`, which leaves the state as it is when the predicate does not hold
or a trap is listed for the slot. -/
theorem unexecutedInstructionChangesNothing : Obligations.UnexecutedInstructionChangesNothing := by
  refine ⟨exec_sel, fun s i h hi hsel => ?_⟩
  obtain rfl | ⟨xD, xA, xB, rfl⟩ | ⟨eff, heff⟩ := exec_of_hdr hi
  · exact ⟨fun _ => rfl, fun _ _ => rfl⟩
  · exact absurd rfl (hsel xD xA xB)
  · rw [heff s]
    exact ⟨fun hp => slotDo_not_holds hp i eff, fun hr ht => slotDo_trapped hr ht i eff⟩

end Sys2Proof.Machine
end

section
/-! SUPPORT. Reading a register, and what a pending write leaves of it (14 R228, R231; 16 R268). -/

namespace Sys2Proof.Machine

/-! ### Scalar registers -/

@[simp] theorem Core.rx_zero (k : Core) {r : XReg} (hr : r.val = 0) : k.rx r = 0 := if_pos hr

theorem Core.rx_of_ne_zero (k : Core) {r : XReg} (hr : r.val ≠ 0) : k.rx r = k.x[r.val] := if_neg hr

/-- A write to `x0` is discarded (14 R228). -/
@[simp] theorem Core.apply_x_zero (k : Core) {n : Nat} (hn : n = 0) (v : Word) : k.apply (.x n v) = k := if_pos hn

theorem Core.apply_x_of_ne_zero (k : Core) {n : Nat} (hn : n ≠ 0) (v : Word) :
    k.apply (.x n v) = { k with x := k.x.setIfInBounds n v } := if_neg hn

theorem Core.rx_apply_x_self (k : Core) {r : XReg} (hr : r.val ≠ 0) (v : Word) : (k.apply (.x r.val v)).rx r = v := by
  rw [k.apply_x_of_ne_zero hr, rx_of_ne_zero _ hr]
  exact Vector.getElem_setIfInBounds_self r.isLt

theorem Core.rx_apply_x_of_ne (k : Core) {q r : XReg} (hqr : q ≠ r) (v : Word) :
    (k.apply (.x r.val v)).rx q = k.rx q := by
  by_cases hr : r.val = 0
  · rw [k.apply_x_zero hr]
  by_cases hq : q.val = 0
  · rw [rx_zero _ hq, rx_zero _ hq]
  rw [k.apply_x_of_ne_zero hr, rx_of_ne_zero _ hq, rx_of_ne_zero _ hq]
  exact Vector.getElem_setIfInBounds_ne q.isLt (Fin.val_ne_of_ne hqr.symm)

/-! ### Predicate registers with a meaning of their own -/

@[simp] theorem Core.rp_zero (k : Core) (c : Nat) {p : PReg} (hp : p.val = 0) : k.rp c p = true := by
  simp [Core.rp, hp]

/-- `p12` under an open level: its first iteration (16 R268). -/
theorem Core.rp_first (k : Core) (c : Nat) {p : PReg} (hp : p.val = 12) {l : LoopL} {rest : List LoopL}
    (hl : k.stack = l :: rest) : k.rp c p = decide (l.index = 0) := by
  simp [Core.rp, hp, hl]

/-- `p13` under an open level: its last iteration (16 R268). -/
theorem Core.rp_last (k : Core) (c : Nat) {p : PReg} (hp : p.val = 13) {l : LoopL} {rest : List LoopL}
    (hl : k.stack = l :: rest) : k.rp c p = decide (l.index + 1 = l.count) := by
  simp [Core.rp, hp, hl]

/-- `p12` and `p13` with no level open (16 R268). -/
theorem Core.rp_no_level (k : Core) (c : Nat) {p : PReg} (hp : p.val = 12 ∨ p.val = 13) (hl : k.stack = []) :
    k.rp c p = false := by
  obtain hp | hp := hp <;> simp [Core.rp, hp, hl]

theorem Core.rp_dsel (k : Core) (c : Nat) {p : PReg} (hp : p.val = 14) :
    k.rp c p = decide (k.dsel / 2 ^ (c / 8) % 2 = 1) := by
  simp [Core.rp, hp]

theorem Core.rp_csel (k : Core) (c : Nat) {p : PReg} (hp : p.val = 15) :
    k.rp c p = decide (k.csel / 2 ^ (c % 8) % 2 = 1) := by
  simp [Core.rp, hp]

/-! ### The other predicate registers -/

theorem Core.rp_of_ordinary (k : Core) (c : Nat) {p : PReg} (h0 : p.val ≠ 0) (h12 : p.val < 12) :
    k.rp c p = k.p[p.val] := by
  unfold Core.rp
  split
  case h_6 => rfl
  all_goals omega

/-- What a predicate reads as depends on the loop stack, `DSEL`, `CSEL` and its own bit alone. -/
theorem Core.rp_congr {k k' : Core} (c : Nat) {p : PReg} (hs : k.stack = k'.stack) (hd : k.dsel = k'.dsel)
    (hc : k.csel = k'.csel) (hp : k.p[p.val] = k'.p[p.val]) : k.rp c p = k'.rp c p := by
  have hp' : k.p.get p = k'.p.get p := hp
  simp only [Core.rp, hs, hd, hc, hp']

/-- A write to `p0` or to `p12` to `p15` is discarded (14 R228). -/
theorem Core.apply_p_fixed (k : Core) {n : Nat} (hn : n = 0 ∨ 12 ≤ n) (b : Bool) : k.apply (.p n b) = k := if_pos hn

theorem Core.apply_p_of_ordinary (k : Core) {n : Nat} (h0 : n ≠ 0) (h12 : n < 12) (b : Bool) :
    k.apply (.p n b) = { k with p := k.p.setIfInBounds n b } := if_neg (by omega)

theorem Core.rp_apply_p_self (k : Core) (c : Nat) {p : PReg} (h0 : p.val ≠ 0) (h12 : p.val < 12) (b : Bool) :
    (k.apply (.p p.val b)).rp c p = b := by
  rw [k.apply_p_of_ordinary h0 h12, rp_of_ordinary _ c h0 h12]
  exact Vector.getElem_setIfInBounds_self p.isLt

theorem Core.rp_apply_p_of_ne (k : Core) (c : Nat) {p q : PReg} (hqp : q ≠ p) (b : Bool) :
    (k.apply (.p p.val b)).rp c q = k.rp c q := by
  by_cases hp : p.val = 0 ∨ 12 ≤ p.val
  · rw [k.apply_p_fixed hp]
  obtain ⟨h0, h12⟩ : p.val ≠ 0 ∧ p.val < 12 := by omega
  rw [k.apply_p_of_ordinary h0 h12]
  exact rp_congr c rfl rfl rfl (Vector.getElem_setIfInBounds_ne q.isLt (Fin.val_ne_of_ne hqp.symm))

/-- Settles O58: the read rule of each register with a meaning of its own, and for a write either that it is discarded or that it is
read back from its register and leaves the others. -/
theorem fixedRegisters : Obligations.FixedRegisters := by
  intro k c r p v b
  refine ⟨fun hr => ⟨k.rx_zero hr, k.apply_x_zero hr v⟩,
    fun hr => ⟨k.rx_apply_x_self hr v, fun q hq => k.rx_apply_x_of_ne hq v⟩,
    fun l rest hl => ⟨fun hp => ?first, fun hp => ?last⟩,
    fun hl hp => k.rp_no_level c hp hl,
    k.rp_zero c, k.rp_dsel c, k.rp_csel c,
    fun hp => k.apply_p_fixed hp b,
    fun h0 h12 => ⟨k.rp_apply_p_self c h0 h12 b, fun q hq => k.rp_apply_p_of_ne c hq b⟩⟩
  case first => rw [k.rp_first c hp hl, decide_eq_true_iff]
  case last => rw [k.rp_last c hp hl, decide_eq_true_iff]

end Sys2Proof.Machine
end

section
/-! SUPPORT. Words of slots s and a that are no instruction (14 R239, R246). -/

namespace Sys2Proof.Machine

/-- A word is an instruction when its fields are decoded and their values stand in their ranges. -/
theorem decodeSlot_eq_ok_iff {k : Fin 8} {w : Nat} {i : Instr} :
    decodeSlot k w = .ok i ↔ decRaw k w = .ok i ∧ i.wf = true := by
  refine ⟨fun hdec => ?_, fun ⟨hraw, hwf⟩ => Laws.decodeSlot_ok hraw hwf⟩
  cases hraw : decRaw k w with
  | error e => simp [decodeSlot, hraw] at hdec
  | ok j =>
    by_cases hwf : j.wf = true
    · simp only [decodeSlot, hraw, hwf, if_true] at hdec
      exact ⟨hdec, Except.ok.inj hdec ▸ hwf⟩
    · simp [decodeSlot, hraw, hwf] at hdec

/-- Slots s and a share the opcodes below 0x30 (14 Table 14.1). -/
theorem decRaw_scalar {k : Fin 8} {w op : Nat} (hk : k = 1 ∨ k = 2) (hop : w / 2 ^ 26 = op) (hlt : op < 0x30) :
    decRaw k w = decS (Sys2Proof.hdrOf k w) w op := by
  have hmod : w / 2 ^ 26 % 64 = op := by omega
  obtain rfl | rfl := hk
  · exact Laws.decRaw_1 hmod rfl
  · exact Laws.decRaw_2lo hmod rfl hlt

theorem unlessRes_eq_ok {z : Bool} {r : Except DecErr Instr} {i : Instr} (h : unlessRes z r = .ok i) : z = true ∧ r = .ok i := by
  cases z with
  | false => cases h
  | true => exact ⟨rfl, h⟩

theorem withCode_eq_ok {α : Type} {c : Option α} {f : α → Except DecErr Instr} {i : Instr} (h : withCode c f = .ok i) :
    ∃ a, c = some a ∧ f a = .ok i := by
  cases c with
  | none => cases h
  | some a => exact ⟨a, rfl, h⟩

theorem satFormOf_eq_some {c : Nat} {fn : SatForm} (h : satFormOf c = some fn) : c ≤ 2 := by
  unfold satFormOf at h
  split at h
  case h_4 => cases h
  all_goals omega

theorem zeros_low {w n : Nat} (h : zeros w 0 n = true) : w % 2 ^ n = 0 := by
  simpa [zeros] using h

theorem toNat_fieldB_low (w n : Nat) : (fieldB w 0 : BitVec n).toNat = w % 2 ^ n := by
  simp [fieldB]

/-- ADD and SUB stand only with FN 0 to 2 (17 R288). -/
theorem fn_of_add_sub_word {k : Fin 8} {w : Nat} {i : Instr} (hk : k = 1 ∨ k = 2) (hop : w / 2 ^ 26 = 1 ∨ w / 2 ^ 26 = 2)
    (hdec : decodeSlot k w = .ok i) : w % 8 ≤ 2 := by
  obtain ⟨hraw, -⟩ := decodeSlot_eq_ok_iff.mp hdec
  obtain hop | hop := hop <;>
  · rw [decRaw_scalar hk hop (by decide)] at hraw
    obtain ⟨fn, hfn, -⟩ := withCode_eq_ok hraw
    simpa using satFormOf_eq_some hfn

/-- SHLI, SHRI and SARI stand only with a count of 0 to 63 (17 R290). -/
theorem count_of_shift_word {k : Fin 8} {w : Nat} {i : Instr} (hk : k = 1 ∨ k = 2)
    (hop : w / 2 ^ 26 = 25 ∨ w / 2 ^ 26 = 26 ∨ w / 2 ^ 26 = 27) (hdec : decodeSlot k w = .ok i) : w % 2 ^ 9 ≤ 63 := by
  obtain ⟨hraw, hwf⟩ := decodeSlot_eq_ok_iff.mp hdec
  obtain hop | hop | hop := hop <;>
  · rw [decRaw_scalar hk hop (by decide)] at hraw
    obtain rfl := Except.ok.inj hraw
    obtain ⟨-, hcount⟩ := Bool.and_eq_true_iff.mp hwf
    simpa [toNat_fieldB_low] using hcount

/-- CLZ, CTZ and POPC stand only with their reserved bits zero (17 R295). -/
theorem reserved_of_count_word {k : Fin 8} {w : Nat} {i : Instr} (hk : k = 1 ∨ k = 2)
    (hop : w / 2 ^ 26 = 34 ∨ w / 2 ^ 26 = 35 ∨ w / 2 ^ 26 = 36) (hdec : decodeSlot k w = .ok i) : w % 2 ^ 9 = 0 := by
  obtain ⟨hraw, -⟩ := decodeSlot_eq_ok_iff.mp hdec
  obtain hop | hop | hop := hop <;>
  · rw [decRaw_scalar hk hop (by decide)] at hraw
    exact zeros_low (unlessRes_eq_ok hraw).1

end Sys2Proof.Machine
end

section
/-! SUPPORT. Scalar results: an instruction that executes leaves its value due (14 R231; 17). -/

namespace Sys2Proof.Machine

/-- What a register instruction that executes leaves due, once its value is known. -/
theorem slotDo_result {s : State} {h : Hdr} (hr : s.Runs h) (i : Instr) {lat : Nat} {xD : XReg}
    {val : Nat → State → Word × List Nat} {v : Word} {evs : List Nat} (hv : val s.issuer s = (v, evs)) :
    slotDo h i s (fun c s => s.dueX c h.slot.val lat xD (val c s)) = .next (s.result h lat xD v evs) := by
  rw [slotDo_runs hr, State.dueX_eq, hv]

/-- The same for a value that logs no event. -/
theorem slotDo_word {s : State} {h : Hdr} (hr : s.Runs h) (i : Instr) {lat : Nat} {xD : XReg}
    {val : Nat → State → Word} {v : Word} (hv : val s.issuer s = v) :
    slotDo h i s (fun c s => s.dueX c h.slot.val lat xD (val c s, [])) = .next (s.result h lat xD v []) :=
  slotDo_result hr i (congrArg (·, []) hv)

/-- The same for a predicate. -/
theorem slotDo_predicate {s : State} {h : Hdr} (hr : s.Runs h) (i : Instr) {lat : Nat} {pD : PReg}
    {val : Nat → State → Bool} {b : Bool} (hb : val s.issuer s = b) :
    slotDo h i s (fun c s => s.due c h.slot.val lat (.p pD.val (val c s))) =
      .next (s.addPend (s.pendAt h.slot.val lat (.p pD.val b) [])) := by
  rw [slotDo_runs hr, State.due_eq, hb]

end Sys2Proof.Machine
end

section
/-! SUPPORT. Addition and subtraction (17 R288). -/

namespace Sys2Proof.Machine
open Sys2Proof.Bits

theorem ofInt_toInt_add (a b : Word) : ofInt (a.toInt + b.toInt) = a + b := by
  simp [ofInt, BitVec.ofInt_add]

theorem ofInt_toInt_sub (a b : Word) : ofInt (a.toInt - b.toInt) = a - b := by
  simp [ofInt, Int.sub_eq_add_neg, BitVec.ofInt_add, BitVec.ofInt_neg, BitVec.sub_eq_add_neg]

theorem ofInt_toNat_add (a b : Word) : ofInt ((a.toNat : Int) + b.toNat) = a + b := by
  simp [ofInt, BitVec.ofInt_add]

theorem ofInt_toNat_sub (a b : Word) : ofInt ((a.toNat : Int) - b.toNat) = a - b := by
  simp [ofInt, Int.sub_eq_add_neg, BitVec.ofInt_add, BitVec.ofInt_neg, BitVec.sub_eq_add_neg]

theorem addVal_wrap (a b : Word) : addVal .wrap a b = (a + b, []) := Prod.ext (ofInt_toNat_add a b) rfl

theorem subVal_wrap (a b : Word) : subVal .wrap a b = (a - b, []) := Prod.ext (ofInt_toNat_sub a b) rfl

theorem addVal_sats (a b : Word) : addVal .sats a b =
    if a.toInt + b.toInt < -(2 ^ 63) then (0x8000000000000000, [0x05])
    else if 2 ^ 63 - 1 < a.toInt + b.toInt then (0x7FFFFFFFFFFFFFFF, [0x05]) else (a + b, []) := by
  rw [← ofInt_toInt_add]; rfl

theorem subVal_sats (a b : Word) : subVal .sats a b =
    if a.toInt - b.toInt < -(2 ^ 63) then (0x8000000000000000, [0x05])
    else if 2 ^ 63 - 1 < a.toInt - b.toInt then (0x7FFFFFFFFFFFFFFF, [0x05]) else (a - b, []) := by
  rw [← ofInt_toInt_sub]; rfl

/-- The clamp of the unsigned forms. -/
theorem addForm_satu (s u : Int) : addForm .satu s u =
    if u < 0 then (0, [0x05]) else if 2 ^ 64 - 1 < u then (0xFFFFFFFFFFFFFFFF, [0x05]) else (ofInt u, []) := rfl

/-- An unsigned sum has no lower bound to pass. -/
theorem addVal_satu (a b : Word) : addVal .satu a b =
    if 2 ^ 64 ≤ a.toNat + b.toNat then (0xFFFFFFFFFFFFFFFF, [0x05]) else (a + b, []) := by
  rw [addVal, addForm_satu, if_neg (by omega), ofInt_toNat_add]
  exact ite_congr (propext (by omega)) (fun _ => rfl) (fun _ => rfl)

/-- An unsigned difference has no upper bound to pass. -/
theorem subVal_satu (a b : Word) : subVal .satu a b = if a.toNat < b.toNat then (0, [0x05]) else (a - b, []) := by
  have hhi : ¬ (2 ^ 64 - 1 : Int) < (a.toNat : Int) - b.toNat := by omega
  rw [subVal, addForm_satu, if_neg hhi, ofInt_toNat_sub]
  exact ite_congr (propext (by omega)) (fun _ => rfl) (fun _ => rfl)

theorem exec_add {s : State} {h : Hdr} (hr : s.Runs h) (xD xA xB : XReg) (fn : SatForm) : exec (.add h xD xA xB fn) s =
    .next (s.result h 1 xD (addVal fn (s.here.rx xA) (s.here.rx xB)).1 (addVal fn (s.here.rx xA) (s.here.rx xB)).2) := by
  dsimp only [exec]
  exact slotDo_runs hr _ _

theorem exec_sub {s : State} {h : Hdr} (hr : s.Runs h) (xD xA xB : XReg) (fn : SatForm) : exec (.sub h xD xA xB fn) s =
    .next (s.result h 1 xD (subVal fn (s.here.rx xA) (s.here.rx xB)).1 (subVal fn (s.here.rx xA) (s.here.rx xB)).2) := by
  dsimp only [exec]
  exact slotDo_runs hr _ _

/-- Settles O7: FN 3 to 7 name no form, and each form's value is the sum or difference once the clamp that cannot happen is left out. -/
theorem addAndSubResults : Obligations.AddAndSubResults := by
  refine ⟨fun k w i hk hop hfn hdec => absurd (fn_of_add_sub_word hk hop hdec) (by omega), fun s h xD xA xB hr => ?_⟩
  dsimp only
  simp only [exec_add hr, exec_sub hr, addVal_wrap, subVal_wrap, addVal_sats, subVal_sats, addVal_satu, subVal_satu, true_and]
  refine ⟨?_, ?_, ?_, ?_⟩ <;> (repeat' split) <;> rfl

end Sys2Proof.Machine
end

section
/-! SUPPORT. Division (17 R289). -/

namespace Sys2Proof.Machine
open Sys2Proof.Bits

theorem ofInt_tdiv (a b : Word) : ofInt (a.toInt.tdiv b.toInt) = a.sdiv b := by
  apply BitVec.eq_of_toInt_eq
  rw [BitVec.toInt_sdiv, ofInt, BitVec.toInt_ofInt]

theorem ofInt_tmod (a b : Word) : ofInt (a.toInt.tmod b.toInt) = a.srem b := by
  rw [← BitVec.toInt_srem, ofInt, BitVec.ofInt_toInt]

theorem divVal_of_ne_zero (a : Word) {b : Word} (hb : b ≠ 0) : divVal a b = (a.sdiv b, []) := by
  rw [divVal, if_neg hb, ofInt_tdiv]

theorem divuVal_of_ne_zero (a : Word) {b : Word} (hb : b ≠ 0) : divuVal a b = (a / b, []) := by
  rw [divuVal, if_neg hb, BitVec.udiv_def]

theorem remVal_of_ne_zero (a : Word) {b : Word} (hb : b ≠ 0) : remVal a b = (a.srem b, []) := by
  rw [remVal, if_neg hb, ofInt_tmod]

theorem remuVal_of_ne_zero (a : Word) {b : Word} (hb : b ≠ 0) : remuVal a b = (a % b, []) := by
  rw [remuVal, if_neg hb, BitVec.umod_def]

/-- Settles O9: a zero divisor, any other, and the one quotient that does not fit. -/
theorem divideResults : Obligations.DivideResults := by
  intro s h xD xA xB hr a b
  dsimp only [exec]
  refine ⟨fun hb => ?zero, fun hb => ?nonzero, fun ha hb => ?overflow⟩
  case zero =>
    exact ⟨slotDo_result hr _ (if_pos hb), slotDo_result hr _ (if_pos hb), slotDo_result hr _ (if_pos hb),
      slotDo_result hr _ (if_pos hb)⟩
  case nonzero =>
    exact ⟨slotDo_result hr _ (divVal_of_ne_zero a hb), slotDo_result hr _ (divuVal_of_ne_zero a hb),
      slotDo_result hr _ (remVal_of_ne_zero a hb), slotDo_result hr _ (remuVal_of_ne_zero a hb)⟩
  case overflow =>
    have hdiv : divVal a b = (a, []) := by rw [ha, hb]; rfl
    have hrem : remVal a b = (0, []) := by rw [ha, hb]; rfl
    exact ⟨slotDo_result hr _ hdiv, slotDo_result hr _ hrem⟩

end Sys2Proof.Machine
end

section
/-! SUPPORT. Immediates and constants (17 R290, R291). -/

namespace Sys2Proof.Machine

/-- Settles O11: a count above 63 is outside its field's range, and an immediate form logs nothing, so `slotDo_word` gives each value. -/
theorem immediateResults : Obligations.ImmediateResults := by
  refine ⟨fun k w i hk hlo hhi hcount hdec => ?_, fun s h xD xA imm long hr => ?_⟩
  · exact absurd (count_of_shift_word hk (by omega) hdec) (by omega)
  · dsimp only [exec]
    and_intros <;> exact slotDo_word hr _ rfl

end Sys2Proof.Machine
end

section
/-! SUPPORT. Bit counts and the field extract (17 R295, R296). -/

namespace Sys2Proof.Machine
open Sys2Proof.Bits

/-! ### Leading and trailing zeros, set bits (17 R295) -/

theorem clz_le (n v : Nat) : clz n v ≤ n := by
  induction n with
  | zero => exact Nat.le_refl 0
  | succ n ih => unfold clz; split <;> omega

/-- No bit is set in the leading zeros. -/
theorem lt_two_pow_sub_clz {n v : Nat} (hv : v < 2 ^ n) : v < 2 ^ (n - clz n v) := by
  induction n with
  | zero => exact hv
  | succ n ih =>
    unfold clz
    split
    case isTrue => exact hv
    case isFalse htop =>
      have hlow : v < 2 ^ n := by
        refine Nat.lt_of_not_le fun hge => ?_
        have hdiv : v / 2 ^ n = 1 := Nat.div_eq_of_lt_le (by omega) (by omega)
        exact htop (by rw [hdiv])
      rw [show n + 1 - (1 + clz n v) = n - clz n v by omega]
      exact ih hlow

/-- The bit below the leading zeros is set. -/
theorem two_pow_le_of_clz_lt {n v : Nat} (hlt : clz n v < n) : 2 ^ (n - 1 - clz n v) ≤ v := by
  induction n with
  | zero => omega
  | succ n ih =>
    unfold clz at hlt ⊢
    split
    case isTrue htop =>
      refine Nat.le_of_not_lt fun (hlow : v < 2 ^ n) => ?_
      rw [Nat.div_eq_of_lt hlow] at htop
      omega
    case isFalse htop =>
      rw [if_neg htop] at hlt
      rw [show n + 1 - 1 - (1 + clz n v) = n - 1 - clz n v by omega]
      exact ih (by omega)

theorem ctz_le (n v : Nat) : ctz n v ≤ n := by
  induction n generalizing v with
  | zero => exact Nat.le_refl 0
  | succ n ih =>
    have := ih (v / 2)
    unfold ctz; split <;> omega

/-- No bit is set in the trailing zeros. -/
theorem mod_two_pow_ctz (n v : Nat) : v % 2 ^ ctz n v = 0 := by
  induction n generalizing v with
  | zero => exact Nat.mod_one v
  | succ n ih =>
    unfold ctz
    split
    case isTrue => exact Nat.mod_one v
    case isFalse heven => rw [Nat.pow_add, Nat.pow_one, Nat.mod_mul, ih (v / 2)]; omega

/-- The bit above the trailing zeros is set. -/
theorem testBit_ctz {n v : Nat} (hlt : ctz n v < n) : v.testBit (ctz n v) = true := by
  induction n generalizing v with
  | zero => omega
  | succ n ih =>
    unfold ctz at hlt ⊢
    split
    case isTrue hodd => simpa [Nat.testBit_zero] using hodd
    case isFalse heven =>
      rw [if_neg heven] at hlt
      rw [Nat.add_comm, Nat.testBit_succ]
      exact ih (by omega)

theorem popc_eq_countP (n v : Nat) : popc n v = (List.range n).countP fun i => v.testBit i := by
  induction n generalizing v with
  | zero => rfl
  | succ n ih =>
    have hrest : (List.range n).countP (fun i => (v / 2).testBit i) = (List.range n).countP fun i => v.testBit (i + 1) := by
      simp only [Nat.testBit_succ]
    rw [popc, ih, hrest, List.range_succ_eq_map, List.countP_cons, List.countP_map, Nat.add_comm]
    congr 1
    obtain hbit | hbit := Nat.mod_two_eq_zero_or_one v <;> simp [Nat.testBit_zero, hbit]

/-! ### The field extract (17 R296) -/

/-- The signed reading of the low `n` bits. -/
theorem ofInt_sext_low (x : Word) {n : Nat} (hn : 0 < n) :
    ofInt (sext (x.toNat % 2 ^ n) n) = (x.truncate n).signExtend 64 := by
  obtain ⟨m, rfl⟩ : ∃ m, n = m + 1 := ⟨n - 1, by omega⟩
  have hsext : sext (x.toNat % 2 ^ (m + 1)) (m + 1) = (x.truncate (m + 1)).toInt := by
    simp only [sext, Nat.mod_mod, BitVec.toInt_eq_toNat_cond, BitVec.truncate_eq_setWidth, BitVec.toNat_setWidth,
      Nat.add_sub_cancel]
    exact ite_congr (propext (by omega)) (fun _ => rfl) (fun _ => by push_cast; rfl)
  rw [hsext]; rfl

theorem bfxVal_of_bad_width (sx : Bool) (a : Word) {b : Word}
    (hn : b.toNat / 2 ^ 8 % 2 ^ 7 = 0 ∨ 64 < b.toNat / 2 ^ 8 % 2 ^ 7) : bfxVal sx a b = 0 := if_pos hn

theorem bfxVal_of_good_width (sx : Bool) (a : Word) {b : Word} {lo n : Nat} (hlo : b.toNat % 64 = lo)
    (hn : b.toNat / 2 ^ 8 % 2 ^ 7 = n) (hwidth : 1 ≤ n ∧ n ≤ 64) : bfxVal sx a b =
      if sx then ofInt (sext (a.toNat / 2 ^ lo % 2 ^ n) n) else BitVec.ofNat 64 (a.toNat / 2 ^ lo % 2 ^ n) := by
  have hlo' : Bits.get b 5 0 = lo := by simpa [Bits.get] using hlo
  have hn' : Bits.get b 14 8 = n := hn
  rw [bfxVal, hlo', hn']
  exact if_neg (by omega)

theorem bfxVal_false (a : Word) {b : Word} {lo n : Nat} (hlo : b.toNat % 64 = lo) (hn : b.toNat / 2 ^ 8 % 2 ^ 7 = n)
    (hwidth : 1 ≤ n ∧ n ≤ 64) : bfxVal false a b = BitVec.ofNat 64 (a.toNat / 2 ^ lo % 2 ^ n) :=
  bfxVal_of_good_width false a hlo hn hwidth

theorem bfxVal_true (a : Word) {b : Word} {lo n : Nat} (hlo : b.toNat % 64 = lo) (hn : b.toNat / 2 ^ 8 % 2 ^ 7 = n)
    (hwidth : 1 ≤ n ∧ n ≤ 64) : bfxVal true a b = ((a >>> lo).truncate n).signExtend 64 := by
  rw [← ofInt_sext_low _ hwidth.1, BitVec.toNat_ushiftRight, Nat.shiftRight_eq_div_pow]
  exact bfxVal_of_good_width true a hlo hn hwidth

/-- Settles O12: a reserved bit set is no instruction, the recursive counts have the properties that say what they count, and BFX takes
the field of a width of 1 to 64. -/
theorem bitCountAndFieldResults : Obligations.BitCountAndFieldResults := by
  refine ⟨fun k w i hk hlo hhi hres hdec => hres (reserved_of_count_word hk (by omega) hdec), fun s h xD xA xB sx hr => ?_⟩
  dsimp only [exec]
  refine ⟨⟨_, slotDo_word hr _ rfl, clz_le 64 _, lt_two_pow_sub_clz (BitVec.isLt _), two_pow_le_of_clz_lt⟩,
    ⟨_, slotDo_word hr _ rfl, ctz_le 64 _, mod_two_pow_ctz 64 _, testBit_ctz⟩,
    ?popc, fun hn => ?badWidth, fun hn => ⟨?unsigned, ?signed⟩⟩
  case popc => exact slotDo_word hr _ (congrArg (BitVec.ofNat 64) (popc_eq_countP 64 _))
  case badWidth => exact slotDo_word hr _ (bfxVal_of_bad_width sx _ hn)
  case unsigned => exact slotDo_word hr _ (bfxVal_false _ rfl rfl hn)
  case signed => exact slotDo_word hr _ (bfxVal_true _ rfl rfl hn)

end Sys2Proof.Machine
end

section
/-! SUPPORT. Selection and loop levels (14 R225; 17 R298). -/

namespace Sys2Proof.Machine

theorem Core.levelIndex_of_open {k : Core} {n : Nat} {l : LoopL} (hl : k.stack.reverse[n]? = some l) : k.levelIndex n = l.index := by
  rw [Core.levelIndex, hl]; rfl

theorem Core.levelIndex_of_closed {k : Core} {n : Nat} (hn : k.stack.length ≤ n) : k.levelIndex n = 0 := by
  rw [Core.levelIndex, List.getElem?_eq_none (by rwa [List.length_reverse])]; rfl

/-- Settles O13: SEL asks for no predicate to execute (`exec_sel`), and the index of a level hangs on whether it is open. -/
theorem selectAndIndexResults : Obligations.SelectAndIndexResults := by
  intro s h xD xA xB lvl
  refine ⟨fun hp => ?_, fun hp => ?_, fun hr l hl => ?_, fun hr hlen => ?_⟩
  · rw [exec_sel, hp, if_pos rfl]
  · rw [exec_sel, hp, if_neg Bool.false_ne_true]
  · dsimp only [exec]
    exact slotDo_word hr _ (congrArg (BitVec.ofNat 64) (Core.levelIndex_of_open hl))
  · dsimp only [exec]
    exact slotDo_word hr _ (congrArg (BitVec.ofNat 64) (Core.levelIndex_of_closed hlen))

end Sys2Proof.Machine
end

section
/-! SUPPORT. Predicate results (14 R239; 17 R292, R293). -/

namespace Sys2Proof.Machine

theorem cmpVal_eq_iff (a b : Word) : cmpVal .eq a b = true ↔ a = b := beq_iff_eq

theorem cmpVal_ne_iff (a b : Word) : cmpVal .ne a b = true ↔ a ≠ b := bne_iff_ne

theorem cmpVal_lt_iff (a b : Word) : cmpVal .lt a b = true ↔ a.toInt < b.toInt := BitVec.slt_iff_toInt_lt

theorem cmpVal_ge_iff (a b : Word) : cmpVal .ge a b = true ↔ b.toInt ≤ a.toInt := by
  rw [← Int.not_lt, ← cmpVal_lt_iff, Bool.not_eq_true, ← Bool.not_eq_true']; rfl

theorem cmpVal_ltu_iff (a b : Word) : cmpVal .ltu a b = true ↔ a.toNat < b.toNat := BitVec.ult_iff_lt

theorem cmpVal_geu_iff (a b : Word) : cmpVal .geu a b = true ↔ b.toNat ≤ a.toNat := by
  rw [← Nat.not_lt, ← cmpVal_ltu_iff, Bool.not_eq_true, ← Bool.not_eq_true']; rfl

theorem cmpVal_bset_iff (a b : Word) : cmpVal .bset a b = true ↔ a &&& b ≠ 0 := bne_iff_ne

theorem cmpVal_bclr_iff (a b : Word) : cmpVal .bclr a b = true ↔ a &&& b = 0 := beq_iff_eq

/-- Settles O14: the model's comparison and combination are those of the tables, case by case, and a fixed predicate discards its
write. -/
theorem predicateResults : Obligations.PredicateResults := by
  intro s h pD pA pB xA xB imm cond comb tt hr a old holds put
  have hholds (b : Word) : cmpVal cond a b = holds b := by
    rw [Bool.eq_iff_iff]
    cases cond with
    | eq => rw [cmpVal_eq_iff, decide_eq_true_iff]
    | ne => rw [cmpVal_ne_iff, decide_eq_true_iff]
    | lt => rw [cmpVal_lt_iff, decide_eq_true_iff]
    | ge => rw [cmpVal_ge_iff, decide_eq_true_iff]
    | ltu => rw [cmpVal_ltu_iff, decide_eq_true_iff]
    | geu => rw [cmpVal_geu_iff, decide_eq_true_iff]
    | bset => rw [cmpVal_bset_iff, decide_eq_true_iff]
    | bclr => rw [cmpVal_bclr_iff, decide_eq_true_iff]
  have hput (c : Bool) : s.addPend (s.pendAt h.slot.val 1 (.p pD.val (combVal comb old c)) []) = put c := by
    cases comb <;> rfl
  refine ⟨?cmp, ?cmpi, ?plog, fun hfixed k b => k.apply_p_fixed hfixed b⟩
  case cmp =>
    rw [← hholds, ← hput]
    dsimp only [exec]
    exact slotDo_predicate hr _ rfl
  case cmpi =>
    rw [← hholds, ← hput]
    dsimp only [exec]
    exact slotDo_predicate hr _ rfl
  case plog =>
    dsimp only [exec]
    exact slotDo_predicate hr _ rfl

end Sys2Proof.Machine
end

section
/-! SUPPORT. The round trip of encoding and decoding (14 R222 to R246). -/

namespace Sys2Proof.Machine
open Sys2Proof.Laws

/-- The round trip of every instruction: its own statement for one with a word; an event has none. -/
theorem roundTrip (i : Instr) : RoundTrip.Statement i := by
  cases i with
  | nop => apply RoundTrip.nop
  | br => apply RoundTrip.br
  | call => apply RoundTrip.call
  | ret => apply RoundTrip.ret
  | jmp => apply RoundTrip.jmp
  | loop => apply RoundTrip.loop
  | loopReg => apply RoundTrip.loopReg
  | lbrk => apply RoundTrip.lbrk
  | waitFlag => apply RoundTrip.waitFlag
  | waitSem => apply RoundTrip.waitSem
  | waita => apply RoundTrip.waita
  | setf => apply RoundTrip.setf
  | clrf => apply RoundTrip.clrf
  | sadd => apply RoundTrip.sadd
  | scas => apply RoundTrip.scas
  | sxch => apply RoundTrip.sxch
  | smax => apply RoundTrip.smax
  | swge => apply RoundTrip.swge
  | srd => apply RoundTrip.srd
  | bdcl => apply RoundTrip.bdcl
  | barv => apply RoundTrip.barv
  | bwt => apply RoundTrip.bwt
  | sstep => apply RoundTrip.sstep
  | fence => apply RoundTrip.fence
  | trig => apply RoundTrip.trig
  | enq => apply RoundTrip.enq
  | ntile => apply RoundTrip.ntile
  | layer => apply RoundTrip.layer
  | spec => apply RoundTrip.spec
  | cmit => apply RoundTrip.cmit
  | sabt => apply RoundTrip.sabt
  | trap => apply RoundTrip.trap
  | exit => apply RoundTrip.exit
  | frsm => apply RoundTrip.frsm
  | tlbi => apply RoundTrip.tlbi
  | add => apply RoundTrip.add
  | sub => apply RoundTrip.sub
  | mul => apply RoundTrip.mul
  | mulh => apply RoundTrip.mulh
  | mulhu => apply RoundTrip.mulhu
  | div => apply RoundTrip.div
  | divu => apply RoundTrip.divu
  | rem => apply RoundTrip.rem
  | remu => apply RoundTrip.remu
  | and => apply RoundTrip.and
  | or => apply RoundTrip.or
  | xor => apply RoundTrip.xor
  | andn => apply RoundTrip.andn
  | shl => apply RoundTrip.shl
  | shr => apply RoundTrip.shr
  | sar => apply RoundTrip.sar
  | min => apply RoundTrip.min
  | max => apply RoundTrip.max
  | minu => apply RoundTrip.minu
  | maxu => apply RoundTrip.maxu
  | addi => apply RoundTrip.addi
  | andi => apply RoundTrip.andi
  | ori => apply RoundTrip.ori
  | xori => apply RoundTrip.xori
  | shli => apply RoundTrip.shli
  | shri => apply RoundTrip.shri
  | sari => apply RoundTrip.sari
  | li => apply RoundTrip.li
  | lih => apply RoundTrip.lih
  | cmp => apply RoundTrip.cmp
  | cmpi => apply RoundTrip.cmpi
  | sel => apply RoundTrip.sel
  | plog => apply RoundTrip.plog
  | clz => apply RoundTrip.clz
  | ctz => apply RoundTrip.ctz
  | popc => apply RoundTrip.popc
  | bfx => apply RoundTrip.bfx
  | mfs => apply RoundTrip.mfs
  | mts => apply RoundTrip.mts
  | xidx => apply RoundTrip.xidx
  | ldp => apply RoundTrip.ldp
  | ldpx => apply RoundTrip.ldpx
  | oset => apply RoundTrip.oset
  | oaddi => apply RoundTrip.oaddi
  | ostr => apply RoundTrip.ostr
  | ord => apply RoundTrip.ord
  | brx => apply RoundTrip.brx
  | hset => apply RoundTrip.hset
  | hget => apply RoundTrip.hget
  | hcpy => apply RoundTrip.hcpy
  | tld => apply RoundTrip.tld
  | tst => apply RoundTrip.tst
  | tldh => apply RoundTrip.tldh
  | tsth => apply RoundTrip.tsth
  | tldg => apply RoundTrip.tldg
  | tsts => apply RoundTrip.tsts
  | tldx => apply RoundTrip.tldx
  | tldw => apply RoundTrip.tldw
  | tshp => apply RoundTrip.tshp
  | tshpBound => apply RoundTrip.tshpBound
  | tzero => apply RoundTrip.tzero
  | tempty => apply RoundTrip.tempty
  | twarm => apply RoundTrip.twarm
  | xchn => apply RoundTrip.xchn
  | twm => apply RoundTrip.twm
  | mma => apply RoundTrip.mma
  | mmaz => apply RoundTrip.mmaz
  | mout => apply RoundTrip.mout
  | mrd => apply RoundTrip.mrd
  | mclr => apply RoundTrip.mclr
  | mcop => apply RoundTrip.mcop
  | mfeed => apply RoundTrip.mfeed
  | mfmt => apply RoundTrip.mfmt
  | vadd => apply RoundTrip.vadd
  | vsub => apply RoundTrip.vsub
  | vmul => apply RoundTrip.vmul
  | vfma => apply RoundTrip.vfma
  | vmax => apply RoundTrip.vmax
  | vmin => apply RoundTrip.vmin
  | vabs => apply RoundTrip.vabs
  | vneg => apply RoundTrip.vneg
  | vrcp => apply RoundTrip.vrcp
  | vrsq => apply RoundTrip.vrsq
  | vsqrt => apply RoundTrip.vsqrt
  | vexp2 => apply RoundTrip.vexp2
  | vlog2 => apply RoundTrip.vlog2
  | vcvt => apply RoundTrip.vcvt
  | vand => apply RoundTrip.vand
  | vor => apply RoundTrip.vor
  | vxor => apply RoundTrip.vxor
  | vshl => apply RoundTrip.vshl
  | vshr => apply RoundTrip.vshr
  | vcmp => apply RoundTrip.vcmp
  | vsel => apply RoundTrip.vsel
  | vmov => apply RoundTrip.vmov
  | vopx => apply RoundTrip.vopx
  | vbc => apply RoundTrip.vbc
  | vrred => apply RoundTrip.vrred
  | vcred => apply RoundTrip.vcred
  | vxs => apply RoundTrip.vxs
  | vins => apply RoundTrip.vins
  | viota => apply RoundTrip.viota
  | vperm => apply RoundTrip.vperm
  | vscan => apply RoundTrip.vscan
  | vpart => apply RoundTrip.vpart
  | vclmp => apply RoundTrip.vclmp
  | vtrn => apply RoundTrip.vtrn
  | qthr => apply RoundTrip.qthr
  | qbis => apply RoundTrip.qbis
  | qsel => apply RoundTrip.qsel
  | qscl => apply RoundTrip.qscl
  | qnt => apply RoundTrip.qnt
  | qdq => apply RoundTrip.qdq
  | qef => apply RoundTrip.qef
  | chcfg => apply RoundTrip.chcfg
  | chsnd => apply RoundTrip.chsnd
  | chadv => apply RoundTrip.chadv
  | chst => apply RoundTrip.chst
  | vrcfg => apply RoundTrip.vrcfg
  | vrrte => apply RoundTrip.vrrte
  | vrsct => apply RoundTrip.vrsct
  | vrcmb => apply RoundTrip.vrcmb
  | vrcnt => apply RoundTrip.vrcnt
  | pldef => apply RoundTrip.pldef
  | plcnv => apply RoundTrip.plcnv
  | plqry => apply RoundTrip.plqry
  | slbxl => apply RoundTrip.slbxl
  | slbgr => apply RoundTrip.slbgr
  | exacq => apply RoundTrip.exacq
  | exrel => apply RoundTrip.exrel
  | tick => apply RoundTrip.tick
  | _ => exact fun _ _ he => nomatch he

/-- Settles O2: the round trip of each instruction. -/
theorem encodedInstructionDecodesBack : Obligations.EncodedInstructionDecodesBack :=
  fun i w hwf he => roundTrip i hwf w he

/-- The instructions with a word are those that stand in a slot. -/
theorem isSome_encode (i : Instr) : (encode i).isSome = i.slot?.isSome := by
  cases i <;> rfl

/-- Settles O3: `isSome_encode`. -/
theorem everySlotInstructionHasAWord : Obligations.EverySlotInstructionHasAWord := by
  intro i _
  have h := isSome_encode i
  rw [Bool.eq_iff_iff, Option.isSome_iff_exists, Option.isSome_iff_exists] at h
  exact h.symm

end Sys2Proof.Machine
end

section
/-! SUPPORT. Memory keeps its canonical form (log 5). -/

namespace Sys2Proof.Machine

/-- Every instruction and every event keeps memory canonical. -/
theorem exec_memOk {s : State} (h : s.MemOk) (i : Instr) : OutMemOk (exec i s) := by
  cases i with
  | nop hdr => exact execNop_memOk h hdr
  | br => exact execBr_memOk h ..
  | call => exact execCall_memOk h ..
  | ret => exact execRet_memOk h ..
  | jmp => exact execJmp_memOk h ..
  | loop => exact execLoop_memOk h ..
  | loopReg => exact execLoopReg_memOk h ..
  | lbrk => exact execLbrk_memOk h ..
  | waitFlag => exact execWaitFlag_memOk h ..
  | waitSem => exact execWaitSem_memOk h ..
  | waita => exact execWaita_memOk h ..
  | setf => exact execSetf_memOk h ..
  | clrf => exact execClrf_memOk h ..
  | sadd => exact execSadd_memOk h ..
  | scas => exact execScas_memOk h ..
  | sxch => exact execSxch_memOk h ..
  | smax => exact execSmax_memOk h ..
  | swge => exact execSwge_memOk h ..
  | srd => exact execSrd_memOk h ..
  | bdcl => exact execBdcl_memOk h ..
  | barv => exact execBarv_memOk h ..
  | bwt => exact execBwt_memOk h ..
  | sstep => exact execSstep_memOk h ..
  | fence => exact execFence_memOk h ..
  | trig => exact execTrig_memOk h ..
  | enq => exact execEnq_memOk h ..
  | ntile => exact execNtile_memOk h ..
  | layer => exact execLayer_memOk h ..
  | spec => exact execSpec_memOk h ..
  | cmit => exact execCmit_memOk h ..
  | sabt => exact execSabt_memOk h ..
  | trap => exact execTrap_memOk h ..
  | exit => exact execExit_memOk h ..
  | frsm => exact execFrsm_memOk h ..
  | tlbi => exact execTlbi_memOk h ..
  | add => exact execAdd_memOk h ..
  | sub => exact execSub_memOk h ..
  | mul => exact execMul_memOk h ..
  | mulh => exact execMulh_memOk h ..
  | mulhu => exact execMulhu_memOk h ..
  | div => exact execDiv_memOk h ..
  | divu => exact execDivu_memOk h ..
  | rem => exact execRem_memOk h ..
  | remu => exact execRemu_memOk h ..
  | and => exact execAnd_memOk h ..
  | or => exact execOr_memOk h ..
  | xor => exact execXor_memOk h ..
  | andn => exact execAndn_memOk h ..
  | shl => exact execShl_memOk h ..
  | shr => exact execShr_memOk h ..
  | sar => exact execSar_memOk h ..
  | min => exact execMin_memOk h ..
  | max => exact execMax_memOk h ..
  | minu => exact execMinu_memOk h ..
  | maxu => exact execMaxu_memOk h ..
  | addi => exact execAddi_memOk h ..
  | andi => exact execAndi_memOk h ..
  | ori => exact execOri_memOk h ..
  | xori => exact execXori_memOk h ..
  | shli => exact execShli_memOk h ..
  | shri => exact execShri_memOk h ..
  | sari => exact execSari_memOk h ..
  | li => exact execLi_memOk h ..
  | lih => exact execLih_memOk h ..
  | cmp => exact execCmp_memOk h ..
  | cmpi => exact execCmpi_memOk h ..
  | sel => exact execSel_memOk h ..
  | plog => exact execPlog_memOk h ..
  | clz => exact execClz_memOk h ..
  | ctz => exact execCtz_memOk h ..
  | popc => exact execPopc_memOk h ..
  | bfx => exact execBfx_memOk h ..
  | mfs => exact execMfs_memOk h ..
  | mts => exact execMts_memOk h ..
  | xidx => exact execXidx_memOk h ..
  | ldp => exact execLdp_memOk h ..
  | ldpx => exact execLdpx_memOk h ..
  | oset => exact execOset_memOk h ..
  | oaddi => exact execOaddi_memOk h ..
  | ostr => exact execOstr_memOk h ..
  | ord => exact execOrd_memOk h ..
  | brx => exact execBrx_memOk h ..
  | hset => exact execHset_memOk h ..
  | hget => exact execHget_memOk h ..
  | hcpy => exact execHcpy_memOk h ..
  | tld => exact execTld_memOk h ..
  | tst => exact execTst_memOk h ..
  | tldh => exact execTldh_memOk h ..
  | tsth => exact execTsth_memOk h ..
  | tldg => exact execTldg_memOk h ..
  | tsts => exact execTsts_memOk h ..
  | tldx => exact execTldx_memOk h ..
  | tldw => exact execTldw_memOk h ..
  | tshp => exact execTshp_memOk h ..
  | tshpBound => exact execTshpBound_memOk h ..
  | tzero => exact execTzero_memOk h ..
  | tempty => exact execTempty_memOk h ..
  | twarm => exact execTwarm_memOk h ..
  | xchn => exact execXchn_memOk h ..
  | twm => exact execTwm_memOk h ..
  | mma => exact execMma_memOk h ..
  | mmaz => exact execMmaz_memOk h ..
  | mout => exact execMout_memOk h ..
  | mrd => exact execMrd_memOk h ..
  | mclr => exact execMclr_memOk h ..
  | mcop => exact execMcop_memOk h ..
  | mfeed => exact execMfeed_memOk h ..
  | mfmt => exact execMfmt_memOk h ..
  | vadd => exact execVadd_memOk h ..
  | vsub => exact execVsub_memOk h ..
  | vmul => exact execVmul_memOk h ..
  | vfma => exact execVfma_memOk h ..
  | vmax => exact execVmax_memOk h ..
  | vmin => exact execVmin_memOk h ..
  | vabs => exact execVabs_memOk h ..
  | vneg => exact execVneg_memOk h ..
  | vrcp => exact execVrcp_memOk h ..
  | vrsq => exact execVrsq_memOk h ..
  | vsqrt => exact execVsqrt_memOk h ..
  | vexp2 => exact execVexp2_memOk h ..
  | vlog2 => exact execVlog2_memOk h ..
  | vcvt => exact execVcvt_memOk h ..
  | vand => exact execVand_memOk h ..
  | vor => exact execVor_memOk h ..
  | vxor => exact execVxor_memOk h ..
  | vshl => exact execVshl_memOk h ..
  | vshr => exact execVshr_memOk h ..
  | vcmp => exact execVcmp_memOk h ..
  | vsel => exact execVsel_memOk h ..
  | vmov => exact execVmov_memOk h ..
  | vopx => exact execVopx_memOk h ..
  | vbc => exact execVbc_memOk h ..
  | vrred => exact execVrred_memOk h ..
  | vcred => exact execVcred_memOk h ..
  | vxs => exact execVxs_memOk h ..
  | vins => exact execVins_memOk h ..
  | viota => exact execViota_memOk h ..
  | vperm => exact execVperm_memOk h ..
  | vscan => exact execVscan_memOk h ..
  | vpart => exact execVpart_memOk h ..
  | vclmp => exact execVclmp_memOk h ..
  | vtrn => exact execVtrn_memOk h ..
  | qthr => exact execQthr_memOk h ..
  | qbis => exact execQbis_memOk h ..
  | qsel => exact execQsel_memOk h ..
  | qscl => exact execQscl_memOk h ..
  | qnt => exact execQnt_memOk h ..
  | qdq => exact execQdq_memOk h ..
  | qef => exact execQef_memOk h ..
  | chcfg => exact execChcfg_memOk h ..
  | chsnd => exact execChsnd_memOk h ..
  | chadv => exact execChadv_memOk h ..
  | chst => exact execChst_memOk h ..
  | vrcfg => exact execVrcfg_memOk h ..
  | vrrte => exact execVrrte_memOk h ..
  | vrsct => exact execVrsct_memOk h ..
  | vrcmb => exact execVrcmb_memOk h ..
  | vrcnt => exact execVrcnt_memOk h ..
  | pldef => exact execPldef_memOk h ..
  | plcnv => exact execPlcnv_memOk h ..
  | plqry => exact execPlqry_memOk h ..
  | slbxl => exact execSlbxl_memOk h ..
  | slbgr => exact execSlbgr_memOk h ..
  | exacq => exact execExacq_memOk h ..
  | exrel => exact execExrel_memOk h ..
  | tick => exact execTick_memOk h ..
  | destroyComplete => exact execDestroyComplete_memOk h ..
  | launchReady => exact execLaunchReady_memOk h ..
  | startTick => exact execStartTick_memOk h ..
  | sequencerBroadcast => exact execSequencerBroadcast_memOk h ..
  | bundleIssue => exact execBundleIssue_memOk h ..
  | saveComplete => exact execSaveComplete_memOk h ..
  | park => exact execPark_memOk h ..
  | groupRestore => exact execGroupRestore_memOk h ..
  | restoreComplete => exact execRestoreComplete_memOk h ..
  | shadowReplay => exact execShadowReplay_memOk h ..
  | exposedResultDue => exact execExposedResultDue_memOk h ..
  | drainComplete => exact execDrainComplete_memOk h ..
  | drainMarkerReturn => exact execDrainMarkerReturn_memOk h ..
  | dispenserGrant => exact execDispenserGrant_memOk h ..
  | barrierArrival => exact execBarrierArrival_memOk h ..
  | bdclArrival => exact execBdclArrival_memOk h ..
  | barrierLanding => exact execBarrierLanding_memOk h ..
  | completionNotice => exact execCompletionNotice_memOk h ..
  | watchdogExpiry => exact execWatchdogExpiry_memOk h ..
  | semaphoreTest => exact execSemaphoreTest_memOk h ..
  | semaphoreOperation => exact execSemaphoreOperation_memOk h ..
  | monitorWake => exact execMonitorWake_memOk h ..
  | monitorReread => exact execMonitorReread_memOk h ..
  | remoteFlagChange => exact execRemoteFlagChange_memOk h ..
  | loadPerformed => exact execLoadPerformed_memOk h ..
  | loadLanding => exact execLoadLanding_memOk h ..
  | storePerformed => exact execStorePerformed_memOk h ..
  | wcbAgeDrain => exact execWcbAgeDrain_memOk h ..
  | writeApply => exact execWriteApply_memOk h ..
  | closeMarker => exact execCloseMarker_memOk h ..
  | applyAcknowledgement => exact execApplyAcknowledgement_memOk h ..
  | releaseComplete => exact execReleaseComplete_memOk h ..
  | walkStart die ctx va => exact execWalkStart_memOk h die ctx va
  | walkComplete => exact execWalkComplete_memOk h ..
  | placement => exact execPlacement_memOk h ..
  | pieceStart => exact execPieceStart_memOk h ..
  | pieceComplete => exact execPieceComplete_memOk h ..
  | kstepComplete => exact execKstepComplete_memOk h ..
  | shadowSwap => exact execShadowSwap_memOk h ..
  | mmaComplete => exact execMmaComplete_memOk h ..
  | matrixOutputComplete => exact execMatrixOutputComplete_memOk h ..
  | pipeStart => exact execPipeStart_memOk h ..
  | vectorComplete => exact execVectorComplete_memOk h ..
  | tzeroFill => exact execTzeroFill_memOk h ..
  | chcfgEntryArrival => exact execChcfgEntryArrival_memOk h ..
  | channelLanding => exact execChannelLanding_memOk h ..
  | channelCredit => exact execChannelCredit_memOk h ..
  | replyArrival => exact execReplyArrival_memOk h ..
  | routeOperationRun => exact execRouteOperationRun_memOk h ..
  | routeOperationComplete => exact execRouteOperationComplete_memOk h ..
  | joinTimeout => exact execJoinTimeout_memOk h ..
  | conversionStageComplete => exact execConversionStageComplete_memOk h ..
  | collectiveStepComplete => exact execCollectiveStepComplete_memOk h ..
  | tsthAtEave => exact execTsthAtEave_memOk h ..
  | transferLinkComplete => exact execTransferLinkComplete_memOk h ..
  | slabChunkCopied => exact execSlabChunkCopied_memOk h ..
  | expertSlotFilled => exact execExpertSlotFilled_memOk h ..
  | trainingTimeout => exact execTrainingTimeout_memOk h ..
  | replayTimeout => exact execReplayTimeout_memOk h ..
  | replayComplete => exact execReplayComplete_memOk h ..
  | flitSend => exact execFlitSend_memOk h ..
  | slotOpen => exact execSlotOpen_memOk h ..
  | guardEnd => exact execGuardEnd_memOk h ..
  | slotClose => exact execSlotClose_memOk h ..
  | tickSend => exact execTickSend_memOk h ..
  | agewaitExpiry => exact execAgewaitExpiry_memOk h ..
  | replanPause => exact execReplanPause_memOk h ..
  | pauseEnd => exact execPauseEnd_memOk h ..
  | measurement => exact execMeasurement_memOk h ..
  | powerLoss => exact execPowerLoss_memOk h ..
  | overtemperature => exact execOvertemperature_memOk h ..
  | laserModuleRemoval => exact execLaserModuleRemoval_memOk h ..
  | laserModuleInsertion => exact execLaserModuleInsertion_memOk h ..
  | initComplete => exact execInitComplete_memOk h ..
  | spdmRequest => exact execSpdmRequest_memOk h ..
  | registerWrite => exact execRegisterWrite_memOk h ..
  | hostMemRead => exact execHostMemRead_memOk h ..
  | hostMemWrite => exact execHostMemWrite_memOk h ..
  | create => exact execCreate_memOk h ..
  | activate => exact execActivate_memOk h ..
  | suspend => exact execSuspend_memOk h ..
  | ctxResume => exact execCtxResume_memOk h ..
  | ctxFence => exact execCtxFence_memOk h ..
  | destroy => exact execDestroy_memOk h ..
  | queueEnable => exact execQueueEnable_memOk h ..
  | queueDisable => exact execQueueDisable_memOk h ..
  | doorbell => exact execDoorbell_memOk h ..
  | launch => exact execLaunch_memOk h ..
  | collstep => exact execCollstep_memOk h ..
  | transfer => exact execTransfer_memOk h ..
  | convert => exact execConvert_memOk h ..
  | signal => exact execSignal_memOk h ..
  | waitsem => exact execWaitsem_memOk h ..
  | tickstart => exact execTickstart_memOk h ..
  | marker => exact execMarker_memOk h ..
  | drainMarker => exact execDrainMarker_memOk h ..
  | late => exact execLate_memOk h ..
  | packageArrival tag b phase rank => exact execPackageArrival_memOk h tag b phase rank
  | join => exact execJoin_memOk h ..
  | bankRetry => exact execBankRetry_memOk h ..
  | lnkTrain => exact execLnkTrain_memOk h ..
  | lnkFence => exact execLnkFence_memOk h ..
  | lnkDisable => exact execLnkDisable_memOk h ..
  | trainingDone => exact execTrainingDone_memOk h ..
  | wavelengthLoss => exact execWavelengthLoss_memOk h ..
  | nak => exact execNak_memOk h ..
  | payload => exact execPayload_memOk h ..
  | last => exact execLast_memOk h ..
  | idle => exact execIdle_memOk h ..
  | tickFlit => exact execTickFlit_memOk h ..
  | slotid => exact execSlotid_memOk h ..
  | sltctlWrite => exact execSltctlWrite_memOk h ..
  | crcFailure => exact execCrcFailure_memOk h ..
  | meshcfgWrite => exact execMeshcfgWrite_memOk h ..
  | l2qtWrite => exact execL2qtWrite_memOk h ..
  | excfgWrite => exact execExcfgWrite_memOk h ..
  | gstaleWrite => exact execGstaleWrite_memOk h ..
  | invreq => exact execInvreq_memOk h ..
  | resume => exact execResume_memOk h ..
  | pkgtelRefresh => exact execPkgtelRefresh_memOk h ..
  | uncorrectableError => exact execUncorrectableError_memOk h ..
  | coreLogicCheck => exact execCoreLogicCheck_memOk h ..
  | eaveLogicCheck => exact execEaveLogicCheck_memOk h ..
  | arrayLogicCheck => exact execArrayLogicCheck_memOk h ..
  | linkError => exact execLinkError_memOk h ..
  | coldStart => exact execColdStart_memOk h ..
  | boot => exact execBoot_memOk h ..
  | imageVerified => exact execImageVerified_memOk h ..
  | warmReset => exact execWarmReset_memOk h ..
  | functionLevelReset => exact execFunctionLevelReset_memOk h ..
  | frontEndStart => exact execFrontEndStart_memOk h ..
  | invalidationBegin => exact execInvalidationBegin_memOk h ..
  | invalidationComplete => exact execInvalidationComplete_memOk h ..
  | meas => exact execMeas_memOk h ..
  | correctableError => exact execCorrectableError_memOk h ..

theorem pastSlot_memOk {o : Out} (h : OutMemOk o) (c k : Nat) : OutMemOk (pastSlot c k o) := by
  cases o with
  | next t => exact outMemOk_next (State.advance_memOk h c k)
  | fault r => trivial
  | refused r => trivial

/-- A step is an instruction, a trap, an event, an input or the next cycle. -/
theorem step_memOk {s : State} (h : s.MemOk) : OutMemOk (step s) := by
  unfold step
  split
  case h_1 c k _ =>
    split
    · exact pastSlot_memOk (exec_memOk h _) c k
    · exact pastSlot_memOk (outMemOk_next (State.trapSlot_memOk h c k _)) c k
  case h_2 =>
    split
    case h_1 hdue => exact exec_memOk (State.takeDue_memOk h hdue) _
    case h_2 =>
      split
      case h_1 hin => exact exec_memOk (State.takeInput_memOk h hin) _
      case h_2 => exact outMemOk_next (State.nextCycle_memOk h)

/-- Settles O60: every kind of step keeps memory canonical. -/
theorem stepKeepsMemoryCanonical : Obligations.StepKeepsMemoryCanonical :=
  fun _ _ h hstep => outMemOk_elim (step_memOk h) hstep

end Sys2Proof.Machine
end

section
/-! SUPPORT. A word that decodes is the word its instruction encodes to: the fields and the zero bits between them make up the whole
word (14 R246). -/

namespace Sys2Proof.Machine

/-! ### A field as the number that the encoder puts back -/

theorem val_fieldF {m : Nat} [NeZero m] (w lo : Nat) : (fieldF w lo : Fin m).val = w / 2 ^ lo % m := (rfl)

/-! The sum of a word's fields is rewritten by these equations, not by computation, in which the kernel would count up to `2 ^ lo`. -/

theorem sum_fields_nil : ([] : List Nat).sum = 0 := (List.sum_nil)

theorem sum_fields_cons (v : Nat) (vs : List Nat) : (v :: vs).sum = v + vs.sum := (List.sum_cons)

theorem sh_eq (lo v : Nat) : sh lo v = v * 2 ^ lo := (rfl)

theorem toNat_fieldB {n : Nat} (w lo : Nat) : (fieldB w lo : BitVec n).toNat = w / 2 ^ lo % 2 ^ n := BitVec.toNat_ofNat ..

theorem toNat_fieldBit (w lo : Nat) : (fieldBit w lo).toNat = w / 2 ^ lo % 2 := by
  unfold fieldBit
  rcases Nat.mod_two_eq_zero_or_one (w / 2 ^ lo) with h | h <;> rw [h] <;> rfl

theorem fieldBit_iff (w lo : Nat) : fieldBit w lo = true ↔ w / 2 ^ lo % 2 = 1 := beq_iff_eq

theorem zeros_iff (w lo k : Nat) : zeros w lo k = true ↔ w / 2 ^ lo % 2 ^ k = 0 := beq_iff_eq

/-! ### A code names the value whose code it is -/

theorem satFormOf_iff (c : Nat) (x : SatForm) : Sys2Proof.satFormOf c = some x ↔ satFormCode x = c := by
  refine ⟨fun h => ?_, fun h => h ▸ Laws.satFormOf_code x⟩
  unfold Sys2Proof.satFormOf at h
  split at h <;> cases h <;> rfl

theorem condOf_iff (c : Nat) (x : Cond) : Sys2Proof.condOf c = some x ↔ condCode x = c := by
  refine ⟨fun h => ?_, fun h => h ▸ Laws.condOf_code x⟩
  unfold Sys2Proof.condOf at h
  split at h <;> cases h <;> rfl

theorem combOf_iff (c : Nat) (x : Comb) : Sys2Proof.combOf c = some x ↔ combCode x = c := by
  refine ⟨fun h => ?_, fun h => h ▸ Laws.combOf_code x⟩
  unfold Sys2Proof.combOf at h
  split at h <;> cases h <;> rfl

theorem waitCondOf_iff (c : Nat) (x : WaitCond) : Sys2Proof.waitCondOf c = some x ↔ waitCondCode x = c := by
  refine ⟨fun h => ?_, fun h => h ▸ Laws.waitCondOf_code x⟩
  unfold Sys2Proof.waitCondOf at h
  split at h <;> cases h <;> rfl

theorem scopeOf_iff (c : Nat) (x : Scope) : Sys2Proof.scopeOf c = some x ↔ scopeCode x = c := by
  refine ⟨fun h => ?_, fun h => h ▸ Laws.scopeOf_code x⟩
  unfold Sys2Proof.scopeOf at h
  split at h <;> cases h <;> rfl

theorem orderOf_iff (c : Nat) (x : Order) : Sys2Proof.orderOf c = some x ↔ orderCode x = c := by
  refine ⟨fun h => ?_, fun h => h ▸ Laws.orderOf_code x⟩
  unfold Sys2Proof.orderOf at h
  split at h <;> cases h <;> rfl

theorem invSizeOf_iff (c : Nat) (x : InvSize) : Sys2Proof.invSizeOf c = some x ↔ invSizeCode x = c := by
  refine ⟨fun h => ?_, fun h => h ▸ Laws.invSizeOf_code x⟩
  unfold Sys2Proof.invSizeOf at h
  split at h <;> cases h <;> rfl

theorem warmLevelOf_iff (c : Nat) (x : WarmLevel) : Sys2Proof.warmLevelOf c = some x ↔ warmLevelCode x = c := by
  refine ⟨fun h => ?_, fun h => h ▸ Laws.warmLevelOf_code x⟩
  unfold Sys2Proof.warmLevelOf at h
  split at h <;> cases h <;> rfl

theorem rModeOf_iff (c : Nat) (x : RMode) : Sys2Proof.rModeOf c = some x ↔ rModeCode x = c := by
  refine ⟨fun h => ?_, fun h => h ▸ Laws.rModeOf_code x⟩
  unfold Sys2Proof.rModeOf at h
  split at h <;> cases h <;> rfl

theorem redOpOf_iff (c : Nat) (x : RedOp) : Sys2Proof.redOpOf c = some x ↔ redOpCode x = c := by
  refine ⟨fun h => ?_, fun h => h ▸ Laws.redOpOf_code x⟩
  unfold Sys2Proof.redOpOf at h
  split at h <;> cases h <;> rfl

theorem vFunOf_iff (c : Nat) (x : VFun) : Sys2Proof.vFunOf c = some x ↔ vFunCode x = c := by
  refine ⟨fun h => ?_, fun h => h ▸ Laws.vFunOf_code x⟩
  unfold Sys2Proof.vFunOf at h
  split at h <;> cases h <;> rfl

/-- A kind and a number in seven bits name the matrix operand whose kind and number they are (14 R239). -/
theorem mopOf_iff (k v : Nat) (a : MOp) : mopOf k (v % 128) = some a ↔ mopKind a = k ∧ mopNum a = v % 128 := by
  refine ⟨fun h => ?_, fun ⟨hk, hv⟩ => hk ▸ hv ▸ Laws.mopOf_code a⟩
  unfold mopOf at h
  split at h
  case h_1 =>
    cases h
    exact ⟨rfl, (val_fieldF _ 0).trans (by omega)⟩
  case h_2 =>
    split at h <;> cases h
    exact ⟨rfl, (val_fieldF _ 0).trans (by omega)⟩
  case h_3 =>
    split at h <;> cases h
    exact ⟨rfl, (val_fieldF _ 0).trans (by omega)⟩
  case h_4 => cases h

/-! ### What a decoding gives encodes to the word -/

/-- The word `w` has the header `h` and the opcode `op`. -/
structure HasHeader (w : Nat) (h : Hdr) (op : Nat) : Prop where
  op_eq : w / 2 ^ 26 = op
  pr_eq : h.pr.val = w / 2 ^ 22 % 16
  pn_eq : h.pn.toNat = w / 2 ^ 21 % 2

theorem hasHeader_hdrOf (k : Fin 8) {w : Nat} (hw : w < 2 ^ 32) : HasHeader w (Sys2Proof.hdrOf k w) (w / 2 ^ 26 % 64) :=
  ⟨by omega, rfl, toNat_fieldBit w 21⟩

/-- What the decoder answers, if an instruction, stands in the slot of `h` and encodes to `w`. -/
def Encodes (w : Nat) (h : Hdr) (r : Except DecErr Instr) : Prop := ∀ i, r = .ok i → encode i = some w ∧ i.slot? = some h.slot

theorem encodes_error (w : Nat) (h : Hdr) (e : DecErr) : Encodes w h (.error e) := fun _ hi => nomatch hi

/-- The header and the fields make up the word. -/
theorem enc_eq_some {w : Nat} {h : Hdr} {op : Nat} {fs : List Nat} (hh : HasHeader w h op) (hsum : fs.sum = w % 2 ^ 21) :
    enc h op fs = some w := by
  obtain ⟨hop, hpr, hpn⟩ := hh
  rw [enc, encHdr, hsum, hpr, hpn, Option.some.injEq]
  omega

theorem encodes_ok (w : Nat) (h : Hdr) (i : Instr) : Encodes w h (.ok i) ↔ encode i = some w ∧ i.slot? = some h.slot :=
  ⟨fun hi => hi i rfl, fun hi _ hj => Except.ok.inj hj ▸ hi⟩

theorem encodes_unlessRes (w : Nat) (h : Hdr) (z : Bool) (r : Except DecErr Instr) :
    Encodes w h (unlessRes z r) ↔ (z = true → Encodes w h r) := by
  cases z with
  | false => exact ⟨fun _ hz => (nomatch hz), fun _ => encodes_error w h _⟩
  | true => exact ⟨fun hr _ => hr, fun hr => hr rfl⟩

theorem encodes_withCode (w : Nat) (h : Hdr) {α : Type} (c : Option α) (f : α → Except DecErr Instr) :
    Encodes w h (withCode c f) ↔ ∀ a, c = some a → Encodes w h (f a) := by
  cases c with
  | none => exact ⟨fun _ _ hc => (nomatch hc), fun _ => encodes_error w h _⟩
  | some b => exact ⟨fun hf a hc => Option.some.inj hc ▸ hf, fun hf => hf b rfl⟩

section
variable {w op : Nat} {h : Hdr}

theorem encodes_decC (hh : HasHeader w h op) : Encodes w h (decC h w op) := by
  unfold decC
  repeat' split
  any_goals exact encodes_error w h _
  all_goals
    simp only [encodes_ok, encodes_unlessRes, encodes_withCode]
    intros
    refine ⟨enc_eq_some hh ?_, rfl⟩
    simp only [zeros_iff, fieldBit_iff, waitCondOf_iff, orderOf_iff, scopeOf_iff, invSizeOf_iff,
      sum_fields_cons, sum_fields_nil, sh_eq, val_fieldF, toNat_fieldB, toNat_fieldBit] at *
    omega

theorem encodes_decS (hh : HasHeader w h op) : Encodes w h (decS h w op) := by
  unfold decS
  repeat' split
  any_goals exact encodes_error w h _
  all_goals
    simp only [encodes_ok, encodes_unlessRes, encodes_withCode]
    intros
    refine ⟨enc_eq_some hh ?_, rfl⟩
    simp only [zeros_iff, satFormOf_iff, condOf_iff, combOf_iff,
      sum_fields_cons, sum_fields_nil, sh_eq, val_fieldF, toNat_fieldB, toNat_fieldBit] at *
    omega

theorem encodes_decA (hh : HasHeader w h op) : Encodes w h (decA h w op) := by
  unfold decA
  repeat' split
  any_goals exact encodes_error w h _
  all_goals
    simp only [encodes_ok, encodes_unlessRes]
    intros
    refine ⟨enc_eq_some hh ?_, rfl⟩
    simp only [zeros_iff, sum_fields_cons, sum_fields_nil, sh_eq, val_fieldF, toNat_fieldB] at *
    omega

theorem encodes_decM (hh : HasHeader w h op) : Encodes w h (decM h w op) := by
  unfold decM
  repeat' split
  any_goals exact encodes_error w h _
  all_goals
    simp only [encodes_ok, encodes_unlessRes, encodes_withCode]
    intros
    refine ⟨enc_eq_some hh ?_, rfl⟩
    simp only [zeros_iff, fieldBit_iff, Bool.and_eq_true, warmLevelOf_iff, sum_fields_cons, sum_fields_nil, sh_eq, val_fieldF, toNat_fieldBit] at *
    omega

theorem encodes_decX (hh : HasHeader w h op) : Encodes w h (decX h w op) := by
  unfold decX
  repeat' split
  any_goals exact encodes_error w h _
  all_goals
    simp only [encodes_ok, encodes_unlessRes, encodes_withCode]
    intros
    refine ⟨enc_eq_some hh ?_, rfl⟩
    simp only [zeros_iff, mopOf_iff, rModeOf_iff, sum_fields_cons, sum_fields_nil, sh_eq, val_fieldF, toNat_fieldBit] at *
    omega

theorem encodes_decV (hh : HasHeader w h op) : Encodes w h (decV h w op) := by
  unfold decV
  repeat' split
  any_goals exact encodes_error w h _
  all_goals
    simp only [encodes_ok, encodes_unlessRes, encodes_withCode]
    intros
    refine ⟨enc_eq_some hh ?_, rfl⟩
    simp only [zeros_iff, rModeOf_iff, vFunOf_iff, redOpOf_iff, sum_fields_cons, sum_fields_nil, sh_eq, val_fieldF, toNat_fieldBit] at *
    omega

theorem encodes_decQ (hh : HasHeader w h op) : Encodes w h (decQ h w op) := by
  unfold decQ
  repeat' split
  any_goals exact encodes_error w h _
  all_goals
    simp only [encodes_ok, encodes_unlessRes, encodes_withCode]
    intros
    refine ⟨enc_eq_some hh ?_, rfl⟩
    simp only [zeros_iff, rModeOf_iff, sum_fields_cons, sum_fields_nil, sh_eq, val_fieldF, toNat_fieldBit] at *
    omega

theorem encodes_decF (hh : HasHeader w h op) : Encodes w h (decF h w op) := by
  unfold decF
  repeat' split
  any_goals exact encodes_error w h _
  all_goals
    simp only [encodes_ok, encodes_unlessRes]
    intros
    refine ⟨enc_eq_some hh ?_, rfl⟩
    simp only [zeros_iff, sum_fields_cons, sum_fields_nil, sh_eq, val_fieldF, toNat_fieldBit] at *
    omega

end

/-- Each slot's opcode map (14 Table 14.1). -/
theorem encodes_decRaw (k : Fin 8) {w : Nat} (hw : w < 2 ^ 32) : Encodes w (Sys2Proof.hdrOf k w) (decRaw k w) := by
  have hh := hasHeader_hdrOf k hw
  unfold decRaw
  match k with
  | 0 => exact encodes_decC hh
  | 1 => exact encodes_decS hh
  | 2 => dsimp only; split; { exact encodes_decS hh }; { exact encodes_decA hh }
  | 3 => exact encodes_decM hh
  | 4 => exact encodes_decX hh
  | 5 => exact encodes_decV hh
  | 6 => dsimp only; split; { exact encodes_decV hh }; { exact encodes_decQ hh }
  | 7 => exact encodes_decF hh

/-- Settles O4: what the opcode map of the slot answers encodes to the word, and only a well-formed instruction is decoded. -/
theorem decodedWordIsTheEncodedOne : Obligations.DecodedWordIsTheEncodedOne := by
  intro k w i hw hdec
  obtain ⟨hraw, hwf⟩ := decodeSlot_eq_ok_iff.mp hdec
  obtain ⟨henc, hslot⟩ := encodes_decRaw k hw i hraw
  exact ⟨henc, hslot, hwf⟩

end Sys2Proof.Machine
end

section
/-! SUPPORT. The order in which due writes are applied (14 R231). -/

namespace Sys2Proof.Machine
open Sys2Proof.Bits

/-! ### The order of application -/

/-- `p` is applied before `q`, or could be: by due bundle, then by issue. -/
def Pend.NotAfter (p q : Pend) : Prop := p.due < q.due ∨ (p.due = q.due ∧ p.pos ≤ q.pos)

theorem mem_insertPend (p q : Pend) (l : List Pend) : q ∈ insertPend p l ↔ q = p ∨ q ∈ l := by
  induction l with
  | nil => simp [insertPend]
  | cons a l ih =>
    unfold insertPend
    split
    · rw [List.mem_cons, ih, List.mem_cons, or_left_comm]
    · exact List.mem_cons

theorem pairwise_insertPend (p : Pend) {l : List Pend} (hl : l.Pairwise Pend.NotAfter) :
    (insertPend p l).Pairwise Pend.NotAfter := by
  induction l with
  | nil => exact List.pairwise_singleton _ p
  | cons a l ih =>
    obtain ⟨ha, hrest⟩ := List.pairwise_cons.mp hl
    unfold insertPend
    split
    case isTrue hap =>
      refine List.pairwise_cons.mpr ⟨fun q hq => ?_, ih hrest⟩
      obtain rfl | hq := (mem_insertPend p q l).mp hq
      · exact hap
      · exact ha q hq
    case isFalse hap =>
      refine List.pairwise_cons.mpr ⟨fun q hq => ?_, hl⟩
      obtain rfl | hq := List.mem_cons.mp hq
      · unfold Pend.NotAfter; omega
      · have := ha q hq; unfold Pend.NotAfter at *; omega

/-- The writes in the order of application. -/
def inOrder (l : List Pend) : List Pend := l.foldl (fun l p => insertPend p l) []

theorem mem_foldl_insertPend (q : Pend) (l acc : List Pend) :
    q ∈ l.foldl (fun l p => insertPend p l) acc ↔ q ∈ l ∨ q ∈ acc := by
  induction l generalizing acc with
  | nil => simp
  | cons p l ih => rw [List.foldl_cons, ih, mem_insertPend, List.mem_cons, or_left_comm, or_assoc]

theorem mem_inOrder (q : Pend) (l : List Pend) : q ∈ inOrder l ↔ q ∈ l := by
  rw [inOrder, mem_foldl_insertPend, or_iff_left List.not_mem_nil]

theorem pairwise_inOrder (l : List Pend) : (inOrder l).Pairwise Pend.NotAfter :=
  List.foldlRecOn l _ List.Pairwise.nil fun _ hacc p _ => pairwise_insertPend p hacc

/-! ### What one write leaves -/

/-- Logging an event leaves every register but the event log, and what is pending. -/
theorem Core.log_frame (k : Core) (pos addr mask code : Nat) :
    (k.log pos addr mask code).x = k.x ∧ (k.log pos addr mask code).pend = k.pend := by
  unfold Core.log
  split
  · exact ⟨rfl, rfl⟩
  · dsimp only
    generalize (!bit k.fels 24 || _) = first
    cases first <;> exact ⟨rfl, rfl⟩

theorem Core.logCodes_frame (k : Core) (pos addr : Nat) (codes : List Nat) :
    (k.logCodes pos addr codes).x = k.x ∧ (k.logCodes pos addr codes).pend = k.pend := by
  cases codes with
  | nil => exact ⟨rfl, rfl⟩
  | cons c cs => exact k.log_frame pos addr _ c

theorem Core.rx_congr {k l : Core} (h : k.x = l.x) (r : XReg) : k.rx r = l.rx r := by
  unfold Core.rx; rw [h]

/-- A special register is no scalar register. -/
theorem Core.wspr_frame (k : Core) (n : Nat) (v : Word) : (k.wspr n v).x = k.x ∧ (k.wspr n v).pend = k.pend := by
  unfold Core.wspr Core.clearFels
  dsimp only
  repeat' split
  all_goals exact ⟨rfl, rfl⟩

theorem Core.apply_pend (k : Core) (w : PWrite) : (k.apply w).pend = k.pend := by
  cases w with
  | spr n v => exact (k.wspr_frame n v).2
  | x r v | p r v => dsimp only [Core.apply]; split <;> rfl
  | _ => rfl

/-- Only the writes of a scalar register and NTILE reach the scalar registers. -/
theorem Core.apply_x_of_other (k : Core) {w : PWrite} (hx : ∀ r v, w ≠ .x r v) (hn : ∀ a b, w ≠ .ntile a b) :
    (k.apply w).x = k.x := by
  cases w with
  | spr n v => exact (k.wspr_frame n v).1
  | x r v => exact absurd rfl (hx r v)
  | ntile a b => exact absurd rfl (hn a b)
  | p r v => dsimp only [Core.apply]; split <;> rfl
  | _ => rfl

theorem Core.rx_apply_of_other (k : Core) {w : PWrite} {r : XReg} (hx : ∀ v, w ≠ .x r.val v) (hn : ∀ a b, w ≠ .ntile a b) :
    (k.apply w).rx r = k.rx r := by
  by_cases hw : ∃ n v, w = .x n v
  · obtain ⟨n, v, rfl⟩ := hw
    have hne : n ≠ r.val := fun he => hx v (he ▸ rfl)
    by_cases h0 : n = 0
    · rw [k.apply_x_zero h0]
    · rw [k.apply_x_of_ne_zero h0]
      unfold Core.rx
      split
      · rfl
      · exact Vector.getElem_setIfInBounds_ne r.isLt hne
  · exact rx_congr (k.apply_x_of_other (fun n v he => hw ⟨n, v, he⟩) hn) r

theorem Core.applyPend_pend (k : Core) (p : Pend) : (k.applyPend p).pend = k.pend :=
  ((k.apply p.w).logCodes_frame _ _ _).2.trans (k.apply_pend p.w)

theorem Core.rx_applyPend (k : Core) (p : Pend) (r : XReg) : (k.applyPend p).rx r = (k.apply p.w).rx r :=
  rx_congr ((k.apply p.w).logCodes_frame _ _ _).1 r

/-! ### What a sequence of writes leaves -/

theorem Core.foldl_applyPend_pend (k : Core) (l : List Pend) : (l.foldl Core.applyPend k).pend = k.pend :=
  List.foldlRecOn (motive := fun m : Core => m.pend = k.pend) l _ rfl fun m hm p _ => (m.applyPend_pend p).trans hm

/-- Behind the write `p` of `xr`, nothing but `p` itself writes `xr`. -/
theorem Core.rx_foldl_applyPend_of_written {k : Core} {l : List Pend} {p : Pend} {r : XReg} {v : Word} (hr : r.val ≠ 0)
    (hw : p.w = .x r.val v) (hk : k.rx r = v) (hn : ∀ q ∈ l, ∀ a b, q.w ≠ .ntile a b)
    (hother : ∀ q ∈ l, q ≠ p → ∀ v', q.w ≠ .x r.val v') : (l.foldl Core.applyPend k).rx r = v := by
  refine List.foldlRecOn (motive := fun m : Core => m.rx r = v) l _ hk fun m hm q hq => ?_
  rw [rx_applyPend]
  by_cases hqp : q = p
  · rw [hqp, hw]; exact m.rx_apply_x_self hr v
  · rw [m.rx_apply_of_other (hother q hq hqp) (hn q hq)]; exact hm

/-- Of the writes of `xr` in order, the last one that is after all others is what `xr` holds. -/
theorem Core.rx_foldl_applyPend {k : Core} {l : List Pend} {p : Pend} {r : XReg} {v : Word} (hr : r.val ≠ 0)
    (hw : p.w = .x r.val v) (hl : l.Pairwise Pend.NotAfter) (hp : p ∈ l) (hn : ∀ q ∈ l, ∀ a b, q.w ≠ .ntile a b)
    (hlast : ∀ q ∈ l, q ≠ p → (∃ v', q.w = .x r.val v') → ¬ p.NotAfter q) : (l.foldl Core.applyPend k).rx r = v := by
  obtain ⟨pre, post, rfl⟩ := List.append_of_mem hp
  rw [List.foldl_append, List.foldl_cons]
  have hafter : ∀ q ∈ post, p.NotAfter q := (List.pairwise_cons.mp (List.pairwise_append.mp hl).2.1).1
  have hmem (q : Pend) (hq : q ∈ post) : q ∈ pre ++ p :: post := List.mem_append_right pre (List.mem_cons_of_mem p hq)
  refine rx_foldl_applyPend_of_written hr hw ?_ (fun q hq => hn q (hmem q hq)) fun q hq hqp v' hv' => ?_
  · rw [rx_applyPend, hw]; exact rx_apply_x_self _ hr v
  · exact hlast q (hmem q hq) hqp ⟨v', hv'⟩ (hafter q hq)

theorem Core.mem_dueNow (k : Core) (q : Pend) : q ∈ k.dueNow ↔ q ∈ k.pend ∧ q.due ≤ k.lcyc := by
  rw [Core.dueNow, List.mem_filter, decide_eq_true_iff]

/-- With no landing due, what is due is applied in order, and the rest stays. -/
theorem Core.applyDue_of_no_landing {k : Core} (h : ∀ q ∈ k.dueNow, ∀ id, q.w ≠ .land id) : k.applyDue =
    (inOrder k.dueNow).foldl Core.applyPend { k with pend := k.pend.filter fun p => !decide (p.due ≤ k.lcyc) } := by
  unfold Core.applyDue
  extract_lets k1 l
  have hland : k1 = k := by
    refine List.foldlRecOn (motive := fun m : Core => m = k) _ _ rfl fun m hm q hq => ?_
    split
    case h_1 id hid => exact absurd hid (h q hq id)
    case h_2 => exact hm
  simp only [l, hland, inOrder]

/-- Settles O57: the due writes are applied in a sorted order, in which the last writer of the register comes behind the others. -/
theorem dueWritesApplyInOrder : Obligations.DueWritesApplyInOrder := by
  intro k p r v hp hdue hw hr hkind hlast
  have hin {q : Pend} (hq : q ∈ inOrder k.dueNow) : q ∈ k.pend ∧ q.due ≤ k.lcyc := (k.mem_dueNow q).mp ((mem_inOrder q _).mp hq)
  have hland : ∀ q ∈ k.dueNow, ∀ id, q.w ≠ .land id := fun q hq =>
    have ⟨hmem, hle⟩ := (k.mem_dueNow q).mp hq
    (hkind q hmem hle).1
  rw [Core.applyDue_of_no_landing hland]
  refine ⟨Core.rx_foldl_applyPend hr hw (pairwise_inOrder _) ((mem_inOrder p _).mpr ((k.mem_dueNow p).mpr ⟨hp, hdue⟩))
    (fun q hq => ?_) fun q hq hqp hwrites hpq => ?_, ?_⟩
  · obtain ⟨hmem, hle⟩ := hin hq
    exact (hkind q hmem hle).2
  · obtain ⟨hmem, hle⟩ := hin hq
    have := hlast q hmem hqp hle hwrites
    unfold Pend.NotAfter at hpq
    omega
  · rw [Core.foldl_applyPend_pend]
    exact List.filter_congr fun q _ => by simp only [← decide_not, Nat.not_le]

end Sys2Proof.Machine
end

section
/-! SUPPORT. The stamp of an applied write (04 R84, R91). -/

namespace Sys2Proof.Machine

/-- A peer's write: its source is not this package. -/
def peerWrite : Write := { id := 0, stamp := ⟨0, 0, []⟩, src := 1, key := 0, home := 0, bytes := [], die := none }

/-- Refutes O40: a peer's write (a source other than 0) leaves its line without a stamp, here the line 0 of the state after reset. -/
theorem not_appliedWriteChangesItsBytes : ¬ Obligations.AppliedWriteChangesItsBytes := by
  intro h
  obtain ⟨-, hstamp, -⟩ := h State.reset peerWrite rfl
  exact absurd hstamp (by decide)

end Sys2Proof.Machine
end

section
/-! SUPPORT. The frame of the instructions whose whole effect is a pending write (14 R231, R232). -/

namespace Sys2Proof.Machine

/-- The slot instructions of `Instr.pendingOnly`, but SEL, are each a `slotDo` whose effect is one write due a bundle on or later. -/
theorem exec_of_pendingOnly {i : Instr} (hi : i.pendingOnly = true) :
    (∃ h xD xA xB, i = .sel h xD xA xB) ∨ ∃ h lat, ∃ (w : Nat → State → PWrite) (evs : Nat → State → List Nat), 1 ≤ lat ∧
      ∀ s, exec i s = slotDo h i s fun c s => s.due c h.slot.val lat (w c s) (evs c s) := by
  cases i <;> cases hi
  case sel.refl h xD xA xB => exact .inl ⟨h, xD, xA, xB, rfl⟩
  all_goals exact .inr ⟨_, _, _, _, Nat.le_add_left 1 _, fun _ => by dsimp only [exec]; rfl⟩

/-- None of them waits. -/
theorem State.waitStart_of_pendingOnly {i : Instr} (hi : i.pendingOnly = true) (s : State) (c slot : Nat) : s.waitStart c slot i = s := by
  cases i <;> cases hi <;> rfl

/-- `t` is `s` with no more than a further pending write, due after the bundle, and the flow of the issue changed. -/
def State.PendFrame (s t : State) : Prop :=
  (∀ a, t.mem.read1 a = s.mem.read1 a) ∧ s.SameOutside t ∧ (∀ d, d ≠ s.issuer → t.core d = s.core d) ∧
  s.here.SameRegs (s.hereIn t) ∧ (s.hereIn t).memq = s.here.memq ∧ (s.hereIn t).jobs = s.here.jobs ∧
  ((s.hereIn t).pend = s.here.pend ∨ ∃ p, (s.hereIn t).pend = s.here.pend ++ [p] ∧ s.here.lcyc < p.due)

theorem Core.SameRegs.refl (k : Core) : k.SameRegs k := by
  and_intros <;> rfl

theorem State.SameOutside.refl (s : State) : s.SameOutside s := by
  and_intros <;> rfl

theorem State.pendFrame_refl (s : State) : s.PendFrame s :=
  ⟨fun _ => rfl, .refl s, fun _ _ => rfl, .refl _, rfl, rfl, .inl rfl⟩

/-- Only the issuing core changes, and of it neither a register nor what it has outstanding but for the write. -/
theorem State.pendFrame_setHere (s : State) {k : Core} (hregs : s.here.SameRegs k) (hmemq : k.memq = s.here.memq)
    (hjobs : k.jobs = s.here.jobs) (hpend : k.pend = s.here.pend ∨ ∃ p, k.pend = s.here.pend ++ [p] ∧ s.here.lcyc < p.due) :
    s.PendFrame (s.setHere k) := by
  have hk : s.hereIn (s.setHere k) = k := by simp [State.hereIn, State.setHere]
  refine ⟨fun _ => rfl, .refl s, fun d hd => ?_, ?_⟩
  · exact s.setCore_of_ne _ hd
  · rw [hk]
    exact ⟨hregs, hmemq, hjobs, hpend⟩

theorem State.pendFrame_phase {s t : State} (ht : s.PendFrame t) (p : Phase) : s.PendFrame { t with phase := p } := ht

theorem State.pendFrame_due (s : State) (slot : Nat) {lat : Nat} (hlat : 1 ≤ lat) (w : PWrite) (evs : List Nat) :
    s.PendFrame (s.due s.issuer slot lat w evs) :=
  s.pendFrame_setHere (.refl s.here) rfl rfl (.inr ⟨s.pendAt slot lat w evs, rfl, Nat.lt_add_of_pos_right hlat⟩)

theorem State.pendFrame_trapSlot (s : State) (slot t : Nat) : s.PendFrame (s.trapSlot s.issuer slot t) :=
  s.pendFrame_setHere (.refl s.here) rfl rfl (.inl rfl)

theorem State.pendFrame_freeze (s : State) (cause : Nat) : s.PendFrame (s.freeze s.issuer cause) :=
  s.pendFrame_setHere (.refl s.here) rfl rfl (.inl rfl)

/-- Settles O18: the instruction leaves the state alone, adds its write, lists its trap or freezes the bundle; none of these touches a
register, memory or another core. -/
theorem pendingWriteFrame : Obligations.PendingWriteFrame := by
  intro i s t hi ht
  change s.PendFrame t
  obtain ⟨h, xD, xA, xB, rfl⟩ | ⟨h, lat, w, evs, hlat, hexec⟩ := exec_of_pendingOnly hi
  · rw [exec_sel] at ht
    cases ht
    exact s.pendFrame_due h.slot.val (Nat.le_refl 1) _ []
  · rw [hexec] at ht
    obtain hs | hs | ⟨code, -, -, hs⟩ | ⟨cause, -, -, hs⟩ := slotDo_cases h i s
      fun c s => s.due c h.slot.val lat (w c s) (evs c s)
    all_goals rw [hs] at ht; cases ht
    · exact s.pendFrame_refl
    · exact s.pendFrame_due h.slot.val hlat _ _
    · exact s.pendFrame_trapSlot h.slot.val code
    · rw [State.waitStart_of_pendingOnly hi]
      exact State.pendFrame_phase (s.pendFrame_freeze cause) .idle

end Sys2Proof.Machine
end

section
/-! SUPPORT. The end of a bundle with a trap, and of its group (14 R247, 08 R155). -/

namespace Sys2Proof.Machine
open Sys2Proof.Bits

/-- The lowest slot first; of one slot's traps the one listed first. -/
def lowestTrap (t : Nat × Nat) (ts : List (Nat × Nat)) : Nat × Nat := ts.foldl (fun a b => if b.1 < a.1 then b else a) t

theorem lowestTrap_of_le {t : Nat × Nat} {ts : List (Nat × Nat)} (h : ∀ u ∈ ts, t.1 ≤ u.1) : lowestTrap t ts = t := by
  induction ts with
  | nil => rfl
  | cons u ts ih =>
    have hu : ¬ u.1 < t.1 := Nat.not_lt.mpr (h u List.mem_cons_self)
    simpa [lowestTrap, hu] using ih fun v hv => h v (List.mem_cons_of_mem u hv)

theorem lowestTrap_append {t u : Nat × Nat} {before after : List (Nat × Nat)} (ht : u.1 < t.1) (hb : ∀ v ∈ before, u.1 < v.1)
    (ha : ∀ v ∈ after, u.1 ≤ v.1) : lowestTrap t (before ++ u :: after) = u := by
  induction before generalizing t with
  | nil => simpa [lowestTrap, ht] using lowestTrap_of_le ha
  | cons v before ih =>
    obtain ⟨hv, hb⟩ := List.forall_mem_cons.mp hb
    by_cases hlt : v.1 < t.1
    · simpa [lowestTrap, hlt] using ih hv hb
    · simpa [lowestTrap, hlt] using ih ht hb

/-- `l` has the place of `k` in the course of its group. -/
def Core.SamePlace (k l : Core) : Prop := l.lcyc = k.lcyc ∧ l.group = k.group

theorem Core.SamePlace.trans {k l m : Core} (h : k.SamePlace l) (h' : l.SamePlace m) : k.SamePlace m :=
  ⟨h'.1.trans h.1, h'.2.trans h.2⟩

theorem Core.logCode_samePlace (k : Core) (pos addr code : Nat) : k.SamePlace (k.logCode pos addr code) := by
  unfold Core.logCode Core.log
  split
  · exact ⟨rfl, rfl⟩
  · dsimp only
    generalize (!bit k.fels 24 || _) = first
    cases first <;> exact ⟨rfl, rfl⟩

theorem Core.abort_samePlace (k : Core) (r : Spec) : k.SamePlace (k.abort r) := by
  dsimp only [Core.abort]
  exact ⟨rfl, rfl⟩

theorem State.updCore_setCore (s : State) (c : Nat) (k : Core) (f : Core → Core) : (s.setCore c k).updCore c f = s.setCore c (f k) := by
  rw [State.updCore_eq, State.setCore_self, State.setCore_setCore]

/-- A core whose bundle, the head of its queue, is over. -/
def Core.bundleDone (k : Core) (now : Nat) (exit : Bool) : Core :=
  { k with lcyc := k.lcyc + 1, issued := now, skid := k.skid.drop 1, bctx := BCtx.fresh, exited := k.exited || exit }

/-- At the end of a bundle that traps, and neither commits a region nor exits, the core has moved on and its group ends. -/
theorem State.finishBundle_of_trap {s : State} {c g : Nat} {t : Nat × Nat} {ts : List (Nat × Nat)} (hg : (s.core c).group = some g)
    (ht : (s.core c).bctx.traps = t :: ts) (hcmit : (s.core c).bctx.cmit = false) (hexit : (s.core c).bctx.exit = false) :
    ∃ k : Core, k.lcyc = (s.core c).lcyc + 1 ∧ s.finishBundle c = State.endGroup { s.setCore c k with phase := .idle } g 2
      (lowestTrap t ts).2 (gtrapWord (s.bundleAddr c) (lowestTrap t ts).1) false := by
  unfold State.finishBundle
  extract_lets k b e delay early two act addr pos mask k1 k2 own k3 k4 k5 s1 s2 s3 s4 s5
  have h1 : k.SamePlace k1 := ⟨rfl, rfl⟩
  clear_value k1 own early
  have h2 : k.SamePlace k2 := by
    refine h1.trans ?_
    dsimp only [k2]
    split
    · exact k1.logCode_samePlace _ _ _
    · exact ⟨rfl, rfl⟩
  clear_value k2
  have h3 : k.SamePlace k3 := by
    refine h2.trans ?_
    dsimp only [k3]
    split
    · cases own <;> exact ⟨rfl, rfl⟩
    · cases own <;> exact ⟨rfl, rfl⟩
    · exact ⟨rfl, rfl⟩
  clear_value k3
  have h4 : k.SamePlace k4 := by
    refine h3.trans ?_
    dsimp only [k4]
    split
    · exact k3.abort_samePlace _
    · exact ⟨rfl, rfl⟩
  clear_value k4
  have h5 : k.SamePlace k5 := h4.trans ⟨rfl, rfl⟩
  clear_value k5
  have e2 : s2 = s1 := if_neg (by simp [b, k, hcmit])
  have e4 : s4 = s3 := if_neg (by simp [b, k, hexit])
  clear_value s4 s2
  subst e4 e2
  have e3 : s3 = s.setCore c (k5.bundleDone s.now b.exit) := s.updCore_setCore c k5 fun k => k.bundleDone s.now b.exit
  have h6 : (k5.bundleDone s.now b.exit).lcyc = k.lcyc + 1 := congrArg (· + 1) h5.1
  have hgrp : s5.grpOf c = some g := by
    have h : s3.grpOf c = some g := by
      rw [e3]
      exact (congrArg Core.group (s.setCore_self c _)).trans (h5.2.trans hg)
    exact h
  clear_value s3
  subst e3
  refine ⟨k5.bundleDone s.now b.exit, h6, ?_⟩
  change _ = s5.endGroup g 2 _ _ _
  clear_value s5
  simp only [hgrp, show b.traps = t :: ts from ht, lowestTrap, addr]

/-- A group that runs, waits or is FROZEN ends: every member stops, and then its drain is looked at. -/
theorem State.endGroup_of_run {s : State} {g : Nat} {r : Run} (hrun : (s.grp g).run = some r) (hst : (s.grp g).state ≤ 3)
    (trap : Nat) (gt : Word) (stop : Bool) : ∃ u : State,
      s.endGroup g 2 trap gt stop = (r.members.foldl (fun (s : State) m => s.endCore stop m) u).drainCheck g ∧
      (u.grp g).state = 5 ∧ (u.grp g).cause = 2 ∧ (u.grp g).trap = trap ∧ (u.grp g).gen = (s.grp g).gen ∧ (u.grp g).gtrap = gt ∧
      u.cores = s.cores ∧ u.mem = s.mem ∧ u.ctxs = (s.ctxFault (s.grp g).ctx 1).ctxs := by
  unfold State.endGroup
  extract_lets x s1 s2
  have hlt : ¬ 5 ≤ x.state := Nat.not_le.mpr (Nat.lt_of_le_of_lt hst (by decide))
  have hold : decide (x.state ≠ 4) = true := decide_eq_true (Nat.ne_of_lt (Nat.lt_of_le_of_lt hst (by decide)))
  have e2 : s2 = s1.ctxFault x.ctx 1 := if_pos rfl
  have hg1 : s1.grp g = { x with state := 5, cause := 2, trap := trap, gtrap := gt } := State.updGrp_self _ _ _
  have hg2 : s2.grp g = s1.grp g := by rw [e2]; rfl
  refine ⟨s2.updRun g fun r => { r with saved := [], ready := false, preempt := false, saving := 0 }, ?_, ?_⟩
  · rw [if_neg hlt, show x.run = some r from hrun]
    exact (if_pos hold).trans (congrArg (State.drainCheck · g) (if_pos hold))
  rw [State.updRun, State.updGrp_self, hg2, hg1]
  exact ⟨rfl, rfl, rfl, rfl, rfl, by rw [e2]; rfl, by rw [e2]; rfl, by rw [e2]; rfl⟩

/-- Settles O56: the bundle ends with its lowest trap, and its group with it. -/
theorem trapEndsTheGroup : Obligations.TrapEndsTheGroup := by
  intro s c g slot code r before after hg hrun hst htraps hbefore hafter hcmit hexit
  obtain ⟨t, ts, hcons⟩ : ∃ t ts, (s.core c).bctx.traps = t :: ts := by
    rw [htraps]
    cases before <;> exact ⟨_, _, rfl⟩
  have hlow : lowestTrap t ts = (slot, code) := by
    rw [htraps] at hcons
    cases before with
    | nil =>
      cases hcons
      exact lowestTrap_of_le hafter
    | cons b before =>
      cases hcons
      obtain ⟨hb, hbefore⟩ := List.forall_mem_cons.mp hbefore
      exact lowestTrap_append hb hbefore hafter
  obtain ⟨k, hk, hfinish⟩ := State.finishBundle_of_trap hg hcons hcmit hexit
  rw [hlow] at hfinish
  obtain ⟨u, hend, hstate, hcause, htrap, hgen, hgtrap, hcores, hmem, hctxs⟩ :=
    State.endGroup_of_run (s := { s.setCore c k with phase := .idle }) hrun hst code (gtrapWord (s.bundleAddr c) slot) false
  have hcore : u.core c = k := by
    rw [State.core, hcores]
    exact s.setCore_self c k
  have hctx : u.ctx (s.grp g).ctx = (s.ctxFault (s.grp g).ctx 1).ctx (s.grp g).ctx := by
    rw [State.ctx, hctxs]
    rfl
  refine ⟨u, hfinish.trans hend, hstate, hcause, htrap, hgen, hgtrap, hcore ▸ hk, hmem, fun h2 hspnd => ?_, fun h2 hspnd => ?_⟩
  all_goals simp [hctx, State.ctxFault, h2, hspnd]

end Sys2Proof.Machine
end

section
/-! SUPPORT. The form of a step (log 2), words written out from the tables, and the state after reset. -/

namespace Sys2Proof.Machine

/-- Settles O1: each word is decoded as it stands. -/
theorem sampleWordsDecode : Obligations.SampleWordsDecode := by
  unfold Obligations.SampleWordsDecode
  exact ⟨rfl, rfl, rfl, rfl, rfl, rfl, rfl, rfl, rfl, rfl, rfl, rfl⟩

theorem fin8_val (k : Fin 8) : fin8 k.val = k := Fin.ext (Nat.mod_eq_of_lt k.isLt)

/-- Settles O5: a step in a bundle decodes the slot's word, executes it and moves past the slot. -/
theorem stepRunsTheDecodedInstruction : Obligations.StepRunsTheDecodedInstruction := by
  intro s c k i hphase hdec
  refine ⟨fun t ht => ?_, fun t hp hk => ?_, fun t hp hk => ?_, fun t hp => if_neg hp⟩
  · simp [step, hphase, fin8_val, hdec, ht, pastSlot]
  · simp [State.advance, hp, hk]
  · simp [State.advance, hp, hk]

/-- The first event of the agenda is due or nothing is. -/
theorem State.takeDue_eq_none {s : State} (h : ∀ t i rest, s.agenda = (t, i) :: rest → s.now < t) : s.takeDue = none := by
  unfold State.takeDue
  split
  · exact if_neg (Nat.not_le.mpr (h _ _ _ (by assumption)))
  · rfl

/-- Settles O6: the agenda comes first, then the inputs, then the next cycle. -/
theorem stepOutsideABundle : Obligations.StepOutsideABundle := by
  intro s hphase
  refine ⟨fun t i rest hagenda hdue => ?_, fun hlater i rest hinputs => ?_, fun hlater hinputs => ?_⟩
  · simp [step, hphase, State.takeDue, hagenda, hdue]
  · simp [step, hphase, State.takeDue_eq_none hlater, State.takeInput, hinputs]
  · simp [step, hphase, State.takeDue_eq_none hlater, State.takeInput, hinputs]

/-- Settles O59: every table is empty, so that what is read of it is its entry's reset value. -/
theorem resetState : Obligations.ResetState := by
  exact ⟨rfl, rfl, rfl, rfl, fun c _ => ⟨rfl, rfl, rfl⟩, fun _ => rfl, fun _ => rfl, fun _ => rfl, fun _ => rfl, fun _ => rfl,
    rfl, rfl, rfl, rfl⟩

end Sys2Proof.Machine
end

section
/-! SUPPORT. Values of the scalar instructions and what a handle's copy overrules (17). -/

namespace Sys2Proof.Machine
open Sys2Proof.Bits

/-- Settles O8: each is a scalar result three bundles on. -/
theorem multiplyResults : Obligations.MultiplyResults := by
  intro s h xD xA xB hr a b
  dsimp only [exec]
  exact ⟨slotDo_word hr _ rfl, slotDo_word hr _ rfl, slotDo_word hr _ rfl⟩

/-- A shift takes the low six bits of its count. -/
theorem shAmt_eq (b : Word) : shAmt b = b.toNat % 64 := by
  simp [shAmt, Bits.get]

/-- `b < a` decides minimum and maximum; where the two are equal it does not matter which is taken. -/
theorem max_of_slt (a b : Word) : (if a.slt b then b else a) = if a.toInt ≤ b.toInt then b else a := by
  by_cases hlt : a.toInt < b.toInt
  · simp [BitVec.slt, hlt, Int.le_of_lt hlt]
  · by_cases heq : a.toInt = b.toInt
    · simp [BitVec.slt, BitVec.toInt_inj.mp heq]
    · simp [BitVec.slt, hlt, show ¬ a.toInt ≤ b.toInt by omega]

theorem max_of_ult (a b : Word) : (if a.ult b then b else a) = if a.toNat ≤ b.toNat then b else a := by
  by_cases hlt : a.toNat < b.toNat
  · simp [BitVec.ult, hlt, Nat.le_of_lt hlt]
  · by_cases heq : a.toNat = b.toNat
    · simp [BitVec.ult, BitVec.toNat_inj.mp heq]
    · simp [BitVec.ult, hlt, show ¬ a.toNat ≤ b.toNat by omega]

theorem min_of_slt (a b : Word) : (if b.slt a then b else a) = if a.toInt ≤ b.toInt then a else b := by
  by_cases hlt : b.toInt < a.toInt
  · simp [BitVec.slt, hlt, Int.not_le.mpr hlt]
  · simp [BitVec.slt, hlt, Int.not_lt.mp hlt]

theorem min_of_ult (a b : Word) : (if b.ult a then b else a) = if a.toNat ≤ b.toNat then a else b := by
  by_cases hlt : b.toNat < a.toNat
  · simp [BitVec.ult, hlt, Nat.not_le.mpr hlt]
  · simp [BitVec.ult, hlt, Nat.not_lt.mp hlt]

/-- Settles O10: each is a scalar result one bundle on. -/
theorem logicShiftAndOrderResults : Obligations.LogicShiftAndOrderResults := by
  intro s h xD xA xB hr a b
  dsimp only [exec]
  exact ⟨slotDo_word hr _ rfl, slotDo_word hr _ rfl, slotDo_word hr _ rfl, slotDo_word hr _ rfl,
    slotDo_word hr _ (congrArg (a <<< ·) (shAmt_eq b)), slotDo_word hr _ (congrArg (a >>> ·) (shAmt_eq b)),
    slotDo_word hr _ (congrArg (a.sshiftRight ·) (shAmt_eq b)), slotDo_word hr _ (min_of_slt a b), slotDo_word hr _ (max_of_slt a b),
    slotDo_word hr _ (min_of_ult a b), slotDo_word hr _ (max_of_ult a b)⟩

/-- Eight bytes of a window, zero past its end. -/
theorem ofNat_numAt_eight (w : List Byte) (off : Nat) :
    BitVec.ofNat 64 (numAt w off 8) = leWord (((w.drop off).take 8 ++ List.replicate 8 0).take 8) := by
  have hlen : ((w.drop off).take 8).length ≤ 8 := List.length_take_le 8 _
  rw [numAt, slice, leWord, List.take_append, List.take_of_length_le hlen, List.take_replicate, Nat.min_eq_left (Nat.sub_le 8 _)]

/-- Settles O15: each is a scalar result or a pending write. -/
theorem specialRegisterResults : Obligations.SpecialRegisterResults := by
  intro s h xD xA num w imm n hr win at_
  dsimp only [exec]
  exact ⟨slotDo_word hr _ rfl, slotDo_runs hr _ _, slotDo_result hr _ (congrArg (·, _) (ofNat_numAt_eight win _)),
    slotDo_result hr _ (congrArg (·, _) (ofNat_numAt_eight win _)), slotDo_runs hr _ _, slotDo_runs hr _ _⟩

/-- Settles O16: each is one pending write of its own kind. -/
theorem offsetHandleAndShapeWrites : Obligations.OffsetHandleAndShapeWrites := by
  intro s h xD xA oD imm lvl hD hA sel tD hr a put
  dsimp only [exec]
  refine ⟨slotDo_runs hr _ _, slotDo_runs hr _ _, slotDo_runs hr _ _, slotDo_word hr _ rfl, fun hsel => ?_, slotDo_word hr _ rfl,
    slotDo_runs hr _ _, slotDo_runs hr _ _, slotDo_runs hr _ _, slotDo_runs hr _ _, slotDo_runs hr _ _⟩
  refine (slotDo_runs hr _ _).trans ?_
  rw [if_neg hsel]
  rfl

theorem State.addPend_setHere (s : State) (k : Core) (p : Pend) :
    (s.setHere k).addPend p = s.setHere { k with pend := k.pend ++ [p] } :=
  s.updCore_setCore s.issuer k fun l => { l with pend := l.pend ++ [p] }

/-- A write after a change of the core that leaves its place is the write it was. -/
theorem State.due_setHere (s : State) {k : Core} (hl : k.lcyc = s.here.lcyc) (hg : k.group = s.here.group) (hs : k.skid = s.here.skid)
    (slot lat : Nat) (w : PWrite) (evs : List Nat) :
    (s.setHere k).due s.issuer slot lat w evs = (s.setHere k).addPend (s.pendAt slot lat w evs) := by
  have hp : (⟨k.lcyc + lat, k.posAt slot, (s.setHere k).bundleAddr s.issuer, w, true, 0, evs⟩ : Pend) = s.pendAt slot lat w evs := by
    rw [show (s.setHere k).bundleAddr s.issuer = s.bundleAddr s.issuer from s.bundleAddr_setCore s.issuer k hg hs, Core.posAt, hl]
    rfl
  rw [State.addPend_setHere, ← hp]
  exact s.updCore_setCore s.issuer k fun l =>
    { l with pend := l.pend ++ [⟨l.lcyc + lat, l.posAt slot, (s.setHere k).bundleAddr s.issuer, w, true, 0, evs⟩] }

/-- The bundle's handle copy overrules the version writes still owed, unless its SABT undoes it. -/
theorem Core.overrule_eq (k : Core) (n : Nat) : k.overrule n = { k with
    pend := k.pend.filter (fun p => match p.w with
      | .ver m _ => m != n
      | _ => true),
    memq := k.memq.map (MemOp.mute fun m => m == n) } := by
  have hlate : (fun p : Pend => !(match p.w with
      | .ver m _ => m == n
      | _ => false)) = fun p : Pend => match p.w with
      | .ver m _ => m != n
      | _ => true := by
    funext p
    cases p.w <;> rfl
  exact congrArg (fun f => ({ k with pend := k.pend.filter f, memq := k.memq.map (MemOp.mute fun m => m == n) } : Core)) hlate

/-- Settles O17: the versions still owed go, and then the write is due. -/
theorem handleCopyOverrulesVersionWrites : Obligations.HandleCopyOverrulesVersionWrites := by
  intro s h xA hD hA hr k owed
  have howed : s.overrule s.issuer hD.val = owed := by
    unfold State.overrule
    rw [State.updCore_eq, Core.overrule_eq]
    rfl
  have hdue : ∀ w, owed.due s.issuer h.slot.val 1 w [] = owed.addPend (s.pendAt h.slot.val 1 w []) := by
    intro w
    dsimp only [owed]
    split
    · rfl
    · apply s.due_setHere <;> rfl
  dsimp only [exec]
  refine ⟨?_, ?_, ?_, ?_, ?_⟩
  · refine (slotDo_runs hr _ _).trans (congrArg _ ?_)
    rw [howed, hdue]
    rfl
  · refine (slotDo_runs hr _ _).trans (congrArg _ ?_)
    rw [if_pos (show (13 : Fin 16).val = 13 from rfl), howed, hdue]
    rfl
  all_goals dsimp only [owed]; split
  · exact .refl s
  · exact .refl s
  · exact .refl _
  · rw [State.hereIn, State.setHere, State.setCore_self]
    exact .refl _
  · exact fun _ _ => rfl
  · exact fun d hd => s.setCore_of_ne _ hd

/-- The trip count of LOOP by register. -/
theorem clampCount_eq (v : Word) : clampCount v = (max 0 (min v.toInt 1048575)).toNat := by
  unfold clampCount sgn
  split
  · omega
  · split <;> omega

/-- Settles O19: a branch asks the sequencer, and CALL's return address is one pending write. -/
theorem branchResults : Obligations.BranchResults := by
  intro s h disp target l p count len xN n hr k delay pc asked clamped
  have hasked : ∀ a, s.branch s.issuer h.slot.val a = asked a := fun a => rfl
  dsimp only [exec]
  refine ⟨slotDo_runs hr _ _, slotDo_runs hr _ _, ?_, slotDo_runs hr _ _, slotDo_runs hr _ _, slotDo_runs hr _ _, ?_, slotDo_runs hr _ _⟩
  · refine (slotDo_runs hr _ _).trans (congrArg _ ?_)
    dsimp only
    by_cases hd : delay = true
    · exact (if_pos hd).trans (if_pos hd).symm
    · refine (if_neg hd).trans (Eq.trans ?_ (if_neg hd).symm)
      rw [show asked (.call disp.toInt) = _ from if_neg hd, hasked, show asked (.call disp.toInt) = _ from if_neg hd]
      apply s.due_setHere <;> rfl
  · refine (slotDo_runs hr _ _).trans ?_
    rw [clampCount_eq]
    rfl

end Sys2Proof.Machine
end

section
/-! SUPPORT. Waits, flags, semaphores and the requests a core sends (16, 21). -/

namespace Sys2Proof.Machine
open Sys2Proof.Bits

/-- A flag of another member is a request to it, one of a rank that no member has does nothing (16 R272). -/
theorem State.flagOp_remote {s : State} {c : Nat} {xC : XReg} {m : Nat} (hm : (s.membersOf c)[((s.core c).rx xC).toNat]? = some m)
    (slot f : Nat) (v : Bool) : s.flagOp c slot f xC true v =
      s.ask c slot (.flag ((s.core c).rx xC).toNat f v) (if m / 8 = c / 8 then 16 else 40) none 0 := by
  simp only [State.flagOp, hm, if_true]

theorem State.flagOp_no_member {s : State} {c : Nat} {xC : XReg} (hm : (s.membersOf c).length ≤ ((s.core c).rx xC).toNat)
    (slot f : Nat) (v : Bool) : s.flagOp c slot f xC true v = s := by
  simp only [State.flagOp, List.getElem?_eq_none hm, if_true]

/-- Settles O20: what a wait that is over, or a flag's change, leaves. -/
theorem waitAndFlagResults : Obligations.WaitAndFlagResults := by
  constructor
  · refine ⟨fun s h => rfl, fun s h f clear xS xT cond hr => ?_⟩
    dsimp only [exec]
    exact ⟨slotDo_runs hr _ _, slotDo_runs hr _ _, slotDo_runs hr _ _⟩
  · intro s h f xC hr rank send
    dsimp only [exec]
    refine ⟨slotDo_runs hr _ _, slotDo_runs hr _ _, fun m hm => ⟨?_, ?_⟩, fun hlen => ⟨?_, ?_⟩⟩
    · exact (slotDo_runs hr _ _).trans (congrArg _ (State.flagOp_remote hm _ _ true))
    · exact (slotDo_runs hr _ _).trans (congrArg _ (State.flagOp_remote hm _ _ false))
    · exact (slotDo_runs hr _ _).trans (congrArg _ (State.flagOp_no_member hlen _ _ true))
    · exact (slotDo_runs hr _ _).trans (congrArg _ (State.flagOp_no_member hlen _ _ false))

/-- A request to the semaphore file, of a device semaphore or of one of the sequencer. -/
theorem State.semOp_eq (s : State) (c slot op : Nat) (xD xS : XReg) (v : Word) : s.semOp c slot op xD xS v =
    s.ask c slot (.sem op xD.val ((s.core c).rx xS).toNat v ((s.core c).rx xD)) (if ((s.core c).rx xS).toNat < 0x10000 then 24 else 8)
      (some xD.val) (if ((s.core c).rx xS).toNat < 0x10000 then 48 else 16) := by
  simp only [State.semOp, decide_eq_true_eq]

/-- Settles O21: each is one request of its own operation. -/
theorem semaphoreRequests : Obligations.SemaphoreRequests := by
  intro s h xD xS xV hr n v send
  dsimp only [exec]
  and_intros
  all_goals exact (slotDo_runs hr _ _).trans (congrArg _ (s.semOp_eq _ _ _ xD xS _))

/-- With one operation outstanding, the pump looks at that one. -/
theorem State.pump_singleton {s : State} {c : Nat} {o : MemOp} (h : (s.core c).memq = [o]) :
    s.pump c = s.pumpOp c ⟨false, false, false, false, false, false, [], [], [], []⟩ o := by
  have hop : (s.core c).op o.id = some o := by simp [Core.op, h]
  simp only [State.pump, h, List.map_cons, List.map_nil, State.pumpGo, hop]

/-- A request to the semaphore file that nothing holds leaves. -/
theorem State.pumpOp_sem (s : State) (c : Nat) {a : Ahead} {o : MemOp} {op xD n t : Nat} {v cmp : Word}
    (hkind : o.kind = .req (.sem op xD n v cmp) t) (hleft : o.left = false) (hrel : a.rel = false) : s.pumpOp c a o =
      (s.updCore c fun k => k.updOp o.id fun o => { o with left := true, tags := k.tags s.now }).sched (max s.now t)
        (.semaphoreOperation (fin64 c) o.id) := by
  simp only [State.pumpOp, hkind, hleft, hrel, Bool.false_eq_true, or_self, if_false, State.sendReq]

/-- A core with one more pending write, and with one more operation. -/
def Core.withPend (k : Core) (p : Pend) : Core := { k with pend := k.pend ++ [p] }

def Core.withOp (k : Core) (o : MemOp) : Core := { k with memq := k.memq ++ [o] }

/-- The request of a core as it enters its queue. -/
def Core.reqOp (k : Core) (id pos addr : Nat) (r : Req) (t : Nat) : MemOp :=
  { id := id, pos := pos, addr := addr, kind := .req r t, lines := [], chunks := [], land := none, left := false, nl1 := false,
    ready := 0, fq := false, tags := [], about := [], full := false, rbnd := k.rbnd }

theorem State.push_req (s : State) (c : Nat) (k : Core) (pos addr : Nat) (r : Req) (t : Nat) :
    (s.setCore c k).push c pos addr (.req r t) [] [] none false = s.bump.setCore c (k.withOp (k.reqOp s.nextId pos addr r t)) := by
  unfold State.push
  rw [State.setCore_self]
  exact s.bump.updCore_setCore c k fun l => l.withOp (k.reqOp s.nextId pos addr r t)

/-- A request of a core with no open region: its result is one more pending write, and the pump sees to the request. -/
theorem State.ask_of_no_region {s : State} {c : Nat} (hspec : (s.core c).spec = none) (slot rel x lat : Nat) (r : Req) :
    s.ask c slot r rel (some x) lat = ((s.setCore c ((s.core c).withPend
      ⟨(s.core c).lcyc + lat, (s.core c).posAt slot, s.bundleAddr c, .x x 0, false, s.nextId, []⟩)).push c ((s.core c).posAt slot)
        (s.bundleAddr c) (.req r (s.now + rel)) [] [] none false).pump c :=
  if_neg (by simp [hspec])

/-- Settles O22: the request is the core's only one, so that the pump lets it go. -/
theorem requestLeavesAtOnce : Obligations.RequestLeavesAtOnce := by
  intro s c slot op xD n rel lat v cmp hmemq hspec k t
  let p : Pend := ⟨k.lcyc + lat, k.posAt slot, s.bundleAddr c, .x xD 0, false, s.nextId, []⟩
  let o : MemOp := k.reqOp s.nextId (k.posAt slot) (s.bundleAddr c) (.sem op xD n v cmp) (s.now + rel)
  let asked : Core := (k.withPend p).withOp o
  have hasked : asked.memq = [o] := congrArg (· ++ [o]) hmemq
  have ht : t = ((s.bump.setCore c asked).updCore c fun k => k.updOp o.id fun o => { o with left := true, tags := k.tags s.now }).sched
      (max s.now (s.now + rel)) (.semaphoreOperation (fin64 c) o.id) := by
    dsimp only [t]
    rw [State.ask_of_no_region hspec, State.push_req]
    refine (State.pump_singleton (o := o) ?_).trans (State.pumpOp_sem _ c rfl rfl rfl)
    rw [State.setCore_self]
    exact hasked
  rw [ht, Nat.max_eq_right (Nat.le_add_right _ _), State.updCore_setCore]
  have hcore := s.bump.setCore_self c (asked.updOp o.id fun o => { o with left := true, tags := asked.tags s.now })
  refine ⟨rfl, ?_, ?_, rfl, rfl, fun d hd => ?_⟩
  · exact congrArg Core.pend hcore
  · refine (congrArg (fun l : Core => l.memq.map fun o => (o.id, o.kind, o.left)) hcore).trans ?_
    simp only [Core.updOp, hasked]
    simp [updWhere, o, Core.reqOp]
  · exact s.bump.setCore_of_ne _ hd

end Sys2Proof.Machine
end

section
/-! SUPPORT. What orders, the requests to the ridge, and the operations of a region (04, 09, 16, 21). -/

namespace Sys2Proof.Machine
open Sys2Proof.Bits

/-- Settles O23: each is its fence and its request. -/
theorem orderingAndBarrierResults : Obligations.OrderingAndBarrierResults := by
  intro s h ord sc b n named xA hr c slot scope released marked
  dsimp only [exec]
  refine ⟨slotDo_runs hr _ _, slotDo_runs hr _ _, slotDo_runs hr _ _, slotDo_runs hr _ _, slotDo_runs hr _ _, ?_⟩
  refine (slotDo_runs hr _ _).trans ?_
  simp only [Bits.get, Nat.pow_zero, Nat.div_one]
  rfl

/-- Settles O24: each is one request with the fields of its form. -/
theorem ridgeRequestResults : Obligations.RidgeRequestResults := by
  intro s h xD xA xB tS hi sel sz hr c slot k a b b2 released status reply pushed
  dsimp only [exec]
  and_intros
  all_goals exact slotDo_runs hr _ _

/-- Settles O25: each changes the flow of its core alone. -/
theorem regionTrapAndExitResults : Obligations.RegionTrapAndExitResults := by
  intro s h n hr k
  dsimp only [exec]
  refine ⟨(slotDo_runs hr _ _).trans (congrArg _ ?_), slotDo_runs hr _ _, slotDo_runs hr _ _, slotDo_runs hr _ _, slotDo_runs hr _ _⟩
  have hor : ∀ o : Spec, k.spec.or (some o) = match k.spec with
      | some r => some r
      | none => some o := by
    intro o
    cases k.spec <;> rfl
  exact congrArg (fun x => s.setHere { k with spec := x }) (hor _)

end Sys2Proof.Machine
end

section
/-! SUPPORT. Loads, stores and the tile operations of slots m and x (18, 19). -/

namespace Sys2Proof.Machine
open Sys2Proof.Bits

/-- Settles O26: each starts the load of its form. -/
theorem tileLoadResults : Obligations.TileLoadResults := by
  intro s h tD tI xB xD oO hn og byp enf l7 land hr c k slot a n blank ws walk
  dsimp only [exec]
  refine ⟨slotDo_runs hr _ _, fun hpv => ?_, fun hpv => ?_, slotDo_runs hr _ _, slotDo_runs hr _ _, slotDo_runs hr _ _⟩
  · refine (slotDo_runs hr _ _).trans ?_
    exact congrArg _ (if_neg (Bool.eq_false_iff.mp hpv))
  · refine (slotDo_runs hr _ _).trans ?_
    exact congrArg _ (if_pos hpv)

/-- Settles O27: each starts the store of its form, or empties its lines. -/
theorem tileStoreAndFillResults : Obligations.TileStoreAndFillResults := by
  intro s h tS tI xB xN oO hn og lvl hr c k slot sh ws done job bytes about
  dsimp only [exec]
  refine ⟨slotDo_runs hr _ _, fun hpv => ?_, fun hpv hspec => ?_, fun hpv hspec => ?_, slotDo_runs hr _ _, slotDo_runs hr _ _,
    slotDo_runs hr _ _, slotDo_runs hr _ _⟩
  · refine (slotDo_runs hr _ _).trans ?_
    exact congrArg _ (if_neg (Bool.eq_false_iff.mp hpv))
  · refine (slotDo_runs hr _ _).trans (congrArg _ ?_)
    exact (if_pos hpv).trans (if_neg (Option.not_isSome_iff_eq_none.mpr hspec))
  · refine (slotDo_runs hr _ _).trans (congrArg _ ?_)
    exact (if_pos hpv).trans (if_pos (Option.isSome_iff_ne_none.mpr hspec))

/-- Settles O28: each operation enters with what its operands hold, placed when a bound operand makes it so. -/
theorem matrixResults : Obligations.MatrixResults := by
  intro s h tD acc a b fs sat rm xD hr c k slot d pos rs wait mclr mrd sh arg
  refine ⟨?_, ?_, ?_, ?_⟩
  · dsimp only [exec]
    exact slotDo_runs hr _ _
  · dsimp only [exec]
    exact slotDo_runs hr _ _
  · dsimp only [exec]
    exact slotDo_runs hr _ _
  intro img counted
  dsimp only [exec]
  have hcounted : counted.here = { k with pend := k.pend ++ [s.pendAt slot (6 + d.lines) (.x xD.val (BitVec.ofNat 64 (s.outstanding c acc.val))) []] } :=
    s.setCore_self c _
  have hwriters : counted.here.writers = k.writers := by rw [hcounted]
  have hjobs : counted.here.jobs = k.jobs := by rw [hcounted]
  refine ⟨fun hb => ?_, fun hn hb => ?_, fun hb => ?_, fun hn hb => ?_, fun ha => ?_, fun e ha => ?_⟩
  · refine (slotDo_runs hr _ _).trans (congrArg _ ?_)
    simp only [show (s.core s.issuer).boundTo tD.val = none from hb]
    rw [← hwriters, ← hjobs]
    rfl
  · refine (slotDo_runs hr _ _).trans (congrArg _ ?_)
    simp only [show (s.core s.issuer).boundTo tD.val = some hn from hb]
    rw [← hwriters]
    rfl
  · refine (slotDo_runs hr _ _).trans (congrArg _ ?_)
    simp only [show (s.core s.issuer).boundTo tD.val = none from hb]
    refine congrArg (State.settleJob · c _) ?_
    exact s.bump.updCore_setCore c { k with seed := rs.2 } _
  · refine (slotDo_runs hr _ _).trans (congrArg _ ?_)
    simp only [show (s.core s.issuer).boundTo tD.val = some hn from hb]
    refine congrArg (State.pushPlaced · c slot _) ?_
    exact s.updCore_setCore c { k with seed := rs.2 } _
  · refine (slotDo_runs hr _ _).trans (congrArg _ ?_)
    simp only [show (s.mopArg s.issuer a ((s.core s.issuer).mopShape a).fmt).hnd = none from ha]
    refine congrArg (State.settleJob · c _) ?_
    exact s.bump.updCore_setCore c _ _
  · refine (slotDo_runs hr _ _).trans (congrArg _ ?_)
    simp only [show (s.mopArg s.issuer a ((s.core s.issuer).mopShape a).fmt).hnd = some e from ha]
    rfl

/-- Settles O29: the operation of the mnemonic is issued. -/
theorem vectorIssueResults : Obligations.VectorIssueResults := by
  intro s h d a b xD xA xB rm sat fn op no km hr k run three two
  dsimp only [exec]
  and_intros
  all_goals exact slotDo_runs hr _ _

end Sys2Proof.Machine
end

section
/-! SUPPORT. A core's side of its channels (21 R369 to R373). -/

namespace Sys2Proof.Machine

/-- A channel that can be read is an entry of the table, so that changing it sets the entry. -/
theorem Core.updChan_of_chan {k : Core} {n : Nat} {x : Chan} (h : k.chan n = some x) (f : Chan → Chan) :
    k.updChan n f = { k with chans := Tbl.set k.chans n (f x) } := by
  have hget : Tbl.get k.chans n = some x := by
    obtain ⟨y, hy, hx⟩ := Option.bind_eq_some_iff.mp h
    by_cases hconf : y.conf = true <;> simp [hconf] at hx
    rw [hy, hx]
  simp only [Core.updChan, hget]

/-- Settles O30: what the channel's entry names decides where the tile and the credit go. -/
theorem channelResults : Obligations.ChannelResults := by
  intro s h n xA tS cons hr c k a pending lines img put tag
  have chan : ∀ {o}, k.chan n.val = o → (s.core s.issuer).chan n.val = o := id
  have htag : ∀ x, tag x = match x.bar with
      | some b => k.tagOf s.now b
      | none => false := by
    intro x
    dsimp only [tag]
    cases x.bar <;> rfl
  dsimp only [exec]
  refine ⟨slotDo_runs hr _ _, fun hn => ⟨?_, ?_⟩, fun x hx ht => ⟨?_, ?_⟩, fun x r hx ht => ⟨?_, ?_⟩, fun x p r hx ht => ⟨?_, ?_⟩,
    fun x hx hcons => ?_, fun x hx hcons => ?_⟩
  all_goals refine (slotDo_runs hr _ _).trans (congrArg _ ?_)
  · simp only [chan hn]
  · simp only [chan hn]
  · simp only [chan hx, show s.chTarget s.issuer x = none from ht]
  · simp only [chan hx, show s.chTarget s.issuer x = none from ht]
    rfl
  · simp only [chan hx, show s.chTarget s.issuer x = some (none, r) from ht]
    rw [htag]
    rfl
  · simp only [chan hx, show s.chTarget s.issuer x = some (none, r) from ht]
    exact congrArg s.setHere (Core.updChan_of_chan hx _)
  · simp only [chan hx, show s.chTarget s.issuer x = some (some p, r) from ht]
    rw [htag]
    rfl
  · simp only [chan hx, show s.chTarget s.issuer x = some (some p, r) from ht]
    exact congrArg s.setHere (Core.updChan_of_chan hx _)
  · simp only [chan hx, show s.consumes s.issuer x = false from hcons]
    rfl
  · simp only [chan hx, show s.consumes s.issuer x = true from hcons, if_true]
    refine congrArg (State.creditBack · c n.val x.cur.2.2) ?_
    exact congrArg s.setHere (Core.updChan_of_chan hx _)

end Sys2Proof.Machine
end

section
/-! SUPPORT. The context commands and the queue registers (05, 06 R118). -/

namespace Sys2Proof.Machine
open Sys2Proof.Bits

/-- A command that has come through the port. -/
theorem State.ctxCommand_clear {s : State} (hp : s.PortClear) (c cmd : Nat) : s.ctxCommand c cmd = s.command c cmd :=
  s.port_clear _ _ _ hp

theorem State.ctxCommand_held {s : State} (hw : s.hostWaits = true) (c cmd : Nat) :
    s.ctxCommand c cmd = s.after 1 (.registerWrite 0x18 (BitVec.ofNat 64 (cmd * 256 + c))) :=
  s.port_held _ _ _ (.inl ⟨by decide, hw⟩)

theorem State.cmdEnd_ctx (s : State) (status j : Nat) : (s.cmdEnd status).ctx j = s.ctx j := rfl

/-- A command that ends with its context changed, and has the front end look again. -/
theorem State.cmdEnd_soon (s : State) (c : Nat) (f : Ctx → Ctx) (i : Instr) : let t := ((s.updCtx c f).cmdEnd 0).soon i
    (t.regs.cmdBusy = false ∧ t.regs.cmdStatus = 0 ∧ t.regs.cmdCtx = s.regs.cmdCtx) ∧ t.ctx c = f (s.ctx c) := by
  intro t
  dsimp only [t]
  rw [State.soon_regs, State.soon_ctx, State.cmdEnd_ctx, State.updCtx_self]
  exact ⟨⟨rfl, rfl, rfl⟩, rfl⟩

/-- The register block with `c` named by the last command. -/
def State.withCmdCtx (s : State) (c : Nat) : State := s.updRegs fun r => { r with cmdCtx := c }

section
variable {s : State} (hb : s.regs.cmdBusy = false) (c : Nat)
include hb

theorem State.command_create : s.command c 1 = if (s.ctx c).state = 0 then (s.withCmdCtx c).doCreate c else (s.withCmdCtx c).cmdEnd 2 :=
  if_neg (Bool.eq_false_iff.mp hb)

theorem State.command_activate : s.command c 2 = if (s.ctx c).state = 1 then
    (((s.withCmdCtx c).updCtx c fun k => { k with state := 2 }).cmdEnd 0).soon .frontEndStart else (s.withCmdCtx c).cmdEnd 2 :=
  if_neg (Bool.eq_false_iff.mp hb)

theorem State.command_suspend : s.command c 3 = if (s.ctx c).state = 2 ∨ (s.ctx c).state = 4 then
    ((((s.withCmdCtx c).updRegs fun r => { r with cmdBusy := true }).updCtx c fun k => { k with spnd := true }).askAll c).ctxSettle c
    else (s.withCmdCtx c).cmdEnd 2 :=
  if_neg (Bool.eq_false_iff.mp hb)

theorem State.command_resume : s.command c 4 = if (s.ctx c).state = 3 then
      (((s.withCmdCtx c).updCtx c fun k => { k with state := if k.cause = 0 then 2 else 4 }).cmdEnd 0).soon .frontEndStart
    else if (s.ctx c).state = 4 then (((s.withCmdCtx c).updCtx c fun k => { k with state := 2, cause := 0 }).cmdEnd 0).soon .frontEndStart
    else (s.withCmdCtx c).cmdEnd 2 :=
  if_neg (Bool.eq_false_iff.mp hb)

theorem State.command_fence : s.command c 5 = if (s.ctx c).state = 2 ∨ (s.ctx c).state = 3 ∨ (s.ctx c).state = 4 then
    ((s.withCmdCtx c).fenceCtx c 5).cmdEnd 0 else (s.withCmdCtx c).cmdEnd 2 :=
  if_neg (Bool.eq_false_iff.mp hb)

theorem State.command_destroy : s.command c 6 = if (s.ctx c).state = 0 ∨ (s.ctx c).state = 6 then (s.withCmdCtx c).cmdEnd 2
    else ((s.withCmdCtx c).updRegs fun r => { r with cmdBusy := true }).doDestroy c :=
  if_neg (Bool.eq_false_iff.mp hb)

end

/-- A command while BUSY changes no more than STATUS, and that for the context being destroyed (05 R105). -/
theorem State.command_busy {s : State} (hb : s.regs.cmdBusy = true) (c : Nat) {cmd : Nat} (hcmd : 1 ≤ cmd ∧ cmd ≤ 6) :
    s.command c cmd = if (s.ctx c).state = 6 then s.updRegs fun r => { r with cmdStatus := 2 } else s := by
  unfold State.command
  rw [if_pos hb]
  simp only [hcmd.1, hcmd.2, and_self, and_true]

/-- CREATE of a state that allows it. -/
theorem State.doCreate_malformed {s : State} {c : Nat} (h : s.descriptor c = none) : s.doCreate c = s.cmdEnd 3 := by
  simp only [State.doCreate, h]

theorem State.doCreate_some {s : State} {c : Nat} {d : List Word} (h : s.descriptor c = some d) : s.doCreate c =
    if descOk d = false then s.cmdEnd 3 else if saveOk d = false then s.cmdEnd 4
    else ((s.dropXl c 0 .ctx).updCtx c fun _ => ctxOfDesc d).cmdEnd 0 := by
  simp only [State.doCreate, h]

/-- Settles O31: each command from each state. -/
theorem contextCommandResults : Obligations.ContextCommandResults := by
  refine ⟨fun s c hp hb => ?_, fun s c => ?_⟩
  · intro x finished named busy
    dsimp only [exec, execCreate, execActivate, execSuspend, execCtxResume, execCtxFence, execDestroy]
    have hclear := State.ctxCommand_clear hp c.val
    rw [hclear 1, hclear 2, hclear 3, hclear 4, hclear 5, hclear 6, State.command_create hb, State.command_activate hb,
      State.command_suspend hb, State.command_fence hb, State.command_destroy hb,
      State.command_resume hb]
    refine ⟨fun d h0 hd hok hsave => ?_, fun h1 => ?_, fun h => ?_, fun h3 => ?_, fun h4 => ?_, fun h => ?_, fun h => ?_⟩
    · rw [if_pos h0, State.doCreate_some (s := s.withCmdCtx c.val) hd, if_neg (Bool.not_eq_false _ ▸ hok),
        if_neg (Bool.not_eq_false _ ▸ hsave)]
      refine ⟨_, rfl, ⟨rfl, rfl, rfl⟩, ?_⟩
      rw [State.cmdEnd_ctx, State.updCtx_self]
      exact ⟨rfl, rfl, rfl, rfl, rfl, rfl, rfl, rfl⟩
    · rw [if_pos h1]
      exact ⟨_, rfl, State.cmdEnd_soon _ _ _ _⟩
    · rw [if_pos h]
      rfl
    · rw [if_pos h3]
      exact ⟨_, rfl, State.cmdEnd_soon _ _ _ _⟩
    · rw [if_neg fun h3 => absurd (h4.symm.trans h3) (by decide), if_pos h4]
      exact ⟨_, rfl, State.cmdEnd_soon _ _ _ _⟩
    · rw [if_pos h]
      rfl
    · rw [if_neg (not_or.mpr h)]
      rfl
  · intro x refused
    dsimp only [refused, exec, execCreate, execActivate, execSuspend, execCtxResume, execCtxFence, execDestroy, execDestroyComplete]
    have hends : ∀ status, ∃ t, Host.Outcome.next ((s.withCmdCtx c.val).cmdEnd status) = (Host.Outcome.next t : Out) ∧
        t.regs.cmdBusy = false ∧ t.regs.cmdStatus = status ∧ t.ctxs = s.ctxs := fun status => ⟨_, rfl, rfl, rfl, rfl⟩
    refine ⟨fun hw => ⟨?_, ?_⟩, fun hp hb => ?_, fun hp hb => ?_, fun hd => ?_, fun hd => ?_⟩
    · rw [State.ctxCommand_held hw, Nat.one_mul]
    · rw [State.ctxCommand_held hw]
    · have hall : ∀ cmd, 1 ≤ cmd ∧ cmd ≤ 6 → (Host.Outcome.next (s.ctxCommand c.val cmd) : Out) =
          .next (if x.state = 6 then s.updRegs fun r => { r with cmdStatus := 2 } else s) := fun cmd hcmd =>
        congrArg _ ((State.ctxCommand_clear hp c.val cmd).trans (State.command_busy hb c.val hcmd))
      intro i hi
      simp only [List.mem_cons, List.not_mem_nil, or_false] at hi
      obtain rfl | rfl | rfl | rfl | rfl | rfl := hi
      · exact hall 1 (by decide)
      · exact hall 2 (by decide)
      · exact hall 3 (by decide)
      · exact hall 4 (by decide)
      · exact hall 5 (by decide)
      · exact hall 6 (by decide)
    · have hclear := State.ctxCommand_clear hp c.val
      rw [hclear 1, hclear 2, hclear 3, hclear 4, hclear 5, hclear 6, State.command_create hb, State.command_activate hb,
      State.command_suspend hb, State.command_fence hb, State.command_destroy hb,
        State.command_resume hb]
      refine ⟨fun h => ?_, fun h hd => ?_, fun d h hd hok => ?_, fun d h hd hok hsave => ?_, fun h => ?_, fun h => ?_, fun h => ?_,
        fun h => ?_, fun h => ?_⟩
      · rw [if_neg h]
        exact hends 2
      · rw [if_pos h, State.doCreate_malformed (s := s.withCmdCtx c.val) hd]
        exact hends 3
      · rw [if_pos h, State.doCreate_some (s := s.withCmdCtx c.val) hd, if_pos hok]
        exact hends 3
      · rw [if_pos h, State.doCreate_some (s := s.withCmdCtx c.val) hd, if_neg (Bool.not_eq_false _ ▸ hok), if_pos hsave]
        exact hends 4
      · rw [if_neg h]
        exact hends 2
      · rw [if_neg (not_or.mpr h)]
        exact hends 2
      · rw [if_neg h.1, if_neg h.2]
        exact hends 2
      · rw [if_neg (not_or.mpr ⟨h.1, not_or.mpr h.2⟩)]
        exact hends 2
      · rw [if_pos h]
        exact hends 2
    · rw [if_pos hd]
      by_cases hc : s.regs.cmdCtx = c.val
      · rw [if_pos hc]
        exact ⟨_, rfl, (State.cmdEnd_ctx _ _ _).trans (State.updCtx_self _ _ _), fun _ => ⟨rfl, rfl⟩⟩
      · rw [if_neg hc]
        exact ⟨_, rfl, State.updCtx_self _ _ _, fun h => absurd h hc⟩
    · rw [if_neg (Bool.eq_false_iff.mp hd)]

/-! ### Queue registers -/

/-- Setting EN where nothing refuses it, and where something does. -/
theorem State.enableQueue_starts {s : State} {q : Nat} (hen : (s.queue q).en = false) (hsize : 4 ≤ (s.queue q).size)
    (hbase : (s.queue q).base % (2 ^ (s.queue q).size * 64) = 0) (h0 : (s.ctx (s.queue q).ctx).state ≠ 0)
    (h6 : (s.ctx (s.queue q).ctx).state ≠ 6) (hcls : (s.queue q).cls ≠ 0)
    (hcount : (s.queues.filter fun e => e.2.en && e.2.ctx == (s.queue q).ctx).length < 16) :
    s.enableQueue q = ((s.updQueue q fun k => { k.unread with head := k.tail, miss := 0 }).updQueue q fun k =>
      { k with en := true, err := 0, state := 1, stampB := zeroVec, stampC := zeroVec, last := none }).soon .frontEndStart := by
  unfold State.enableQueue
  rw [if_neg (Bool.eq_false_iff.mp hen)]
  refine if_neg ?_
  simp only [Bool.or_eq_true, decide_eq_true_eq, bne_iff_ne, beq_iff_eq, Bool.and_eq_true, h0, h6, hcls, false_and, or_false,
    hbase, ne_eq, not_true]
  omega

theorem State.enableQueue_refused {s : State} {q : Nat} (hen : (s.queue q).en = false) (hbad : (s.queue q).size < 4 ∨
    (s.queue q).base % (2 ^ (s.queue q).size * 64) ≠ 0 ∨ (s.ctx (s.queue q).ctx).state = 0 ∨ (s.ctx (s.queue q).ctx).state = 6) :
    s.enableQueue q = (s.updQueue q fun k => { k.unread with head := k.tail, miss := 0 }).updQueue q fun k =>
      { k with en := false, err := 4, state := 2 } := by
  unfold State.enableQueue
  rw [if_neg (Bool.eq_false_iff.mp hen)]
  refine if_pos ?_
  simp only [Bool.or_eq_true, decide_eq_true_eq, bne_iff_ne, beq_iff_eq]
  refine .inl (.inl ?_)
  rcases hbad with h | h | h | h
  · exact .inl (.inl (.inl h))
  · exact .inl (.inl (.inr h))
  · exact .inl (.inr h)
  · exact .inr h

theorem State.disableQueue_queue (s : State) (q : Nat) :
    (s.disableQueue q).queue q = { (s.queue q).unread with en := false, state := 0 } := by
  unfold State.disableQueue
  extract_lets s1 mine
  have h : s1.queue q = { (s.queue q).unread with en := false, state := 0 } := State.updQueue_self _ _ _
  split
  · rw [State.soon_queue]
    exact h
  · exact h

/-- Marking the paths of an epoch, and closing it, leave the queues. -/
theorem State.markPaths_queues (s : State) (g e : Nat) : (s.markPaths g e).queues = s.queues := by
  refine foldl_inv (P := fun t : State => t.queues = s.queues) (fun t l ht => ?_) rfl
  dsimp only
  split
  · exact ht
  · exact foldl_inv (P := fun t : State => t.queues = s.queues) (fun u w hu => hu) ht

theorem State.tick_queues (s : State) (g d : Nat) : (s.tick g d).queues = s.queues := by
  refine foldl_inv (P := fun t : State => t.queues = s.queues) (fun t h ht => ?_) (State.markPaths_queues _ g _)
  split
  · exact ht
  · exact ht

/-- A doorbell that a queue takes: TAIL moves, and one more entry than the queue holds is ERROR 2. -/
theorem State.ringBell_queue {s : State} {q : Nat} (henq : (s.queue q).enqok = false) (tail : Nat) : ∃ stamp,
    let k := { s.queue q with tail := tail % 2 ^ 32, stampB := stamp }
    (s.ringBell q tail).queue q =
      if (s.queue q).en = false ∨ (s.queue q).state ≠ 1 then k
      else if 2 ^ (s.queue q).size < (tail + 2 ^ 32 - (s.queue q).head) % 2 ^ 32 then { k with state := 2, err := 2 } else k := by
  refine ⟨vmax (s.queue q).stampB (vmerge zeroVec ((s.tick 17 0).stampOf 17)), ?_⟩
  intro k
  unfold State.ringBell
  rw [if_neg (Bool.eq_false_iff.mp henq)]
  extract_lets s1 v s2
  have hq : s1.queue q = s.queue q := by rw [State.queue, State.tick_queues]; rfl
  have h2 : s2.queue q = k := by
    dsimp only [s2]
    rw [State.updQueue_self, hq]
  clear_value s2
  by_cases hoff : (s.queue q).en = false ∨ (s.queue q).state ≠ 1
  · rw [if_pos hoff, if_pos hoff]
    exact h2
  · rw [if_neg hoff, if_neg hoff]
    by_cases hfull : 2 ^ (s.queue q).size < (tail + 2 ^ 32 - (s.queue q).head) % 2 ^ 32
    · rw [if_pos hfull, if_pos hfull, State.queueError, State.updQueue_self, h2]
    · rw [if_neg hfull, if_neg hfull, State.soon_queue, h2]

/-- Settles O32: EN and TAIL from each state of the queue. -/
theorem queueRegisterResults : Obligations.QueueRegisterResults := by
  intro s q tail k x fresh
  dsimp only [exec, execQueueEnable, execQueueDisable, execDoorbell]
  refine ⟨fun hen hsize hbase h0 h6 hcls hcount => ?_, fun hen hbad => ?_, ?_, fun hw => ?_, fun hp henq => ?_, fun hp henq => ?_⟩
  · rw [State.enableQueue_starts hen hsize hbase h0 h6 hcls hcount]
    refine ⟨_, rfl, ?_⟩
    rw [State.soon_queue, State.updQueue_self, State.updQueue_self]
    rfl
  · rw [State.enableQueue_refused hen hbad]
    refine ⟨_, rfl, ?_⟩
    rw [State.updQueue_self, State.updQueue_self]
    rfl
  · exact ⟨_, rfl, s.disableQueue_queue q.val⟩
  · refine congrArg _ (State.port_held _ _ _ _ (.inl ⟨?_, hw⟩))
    have hq := q.isLt
    refine Bool.or_eq_true _ _ |>.mpr (.inr (decide_eq_true ?_))
    omega
  · rw [State.port_clear _ _ _ _ hp]
    exact congrArg _ (if_pos henq)
  · rw [State.port_clear _ _ _ _ hp]
    obtain ⟨stamp, hstamp⟩ := State.ringBell_queue henq tail.toNat
    have htail : tail.toNat % 2 ^ 32 = tail.toNat := Nat.mod_eq_of_lt tail.isLt
    refine ⟨_, rfl, ?_⟩
    rw [hstamp, htail]
    by_cases hoff : k.en = false ∨ k.state ≠ 1
    · rw [if_pos hoff]
      refine ⟨rfl, rfl, fun hen hst => absurd hoff ?_⟩
      simp [hen, hst]
    · rw [if_neg hoff]
      have hst : k.state = 1 := Classical.not_not.mp (not_or.mp hoff).2
      by_cases hfull : 2 ^ k.size < (tail.toNat + 2 ^ 32 - k.head) % 2 ^ 32
      · rw [if_pos hfull]
        exact ⟨rfl, rfl, fun _ _ => ⟨iff_of_true hfull rfl, fun _ => rfl⟩⟩
      · rw [if_neg hfull]
        have hne : k.state ≠ 2 := by omega
        exact ⟨rfl, rfl, fun _ _ => ⟨iff_of_false hfull hne, fun h => absurd h hne⟩⟩

end Sys2Proof.Machine
end

section
/-! SUPPORT. The starts of the front end (06 R121 to R124). -/

namespace Sys2Proof.Machine
open Sys2Proof.Bits

/-- Before its time nothing starts. -/
theorem State.startNext_early {s : State} (h : s.now < s.nextStart) (want : Nat → Bool) : s.startNext want = s := if_pos h

section
variable {s : State} (hdue : s.nextStart ≤ s.now)
include hdue

theorem State.startNext_none (hch : (s.choose [0, 1, 2, 3]).2 = none) (want : Nat → Bool) :
    s.startNext want = (s.choose [0, 1, 2, 3]).1 := by
  unfold State.startNext
  rw [if_neg (Nat.not_lt.mpr hdue)]
  simp only [hch]

variable {cls q : Nat} (hch : (s.choose [0, 1, 2, 3]).2 = some (cls, q)) {want : Nat → Bool}
include hch

theorem State.startNext_unwanted (hw : want q = false) : s.startNext want = s := by
  unfold State.startNext
  rw [if_neg (Nat.not_lt.mpr hdue)]
  simp only [hch, hw, Bool.not_false, if_true]

theorem State.startNext_wanted (hw : want q = true) : s.startNext want =
    (State.sched { (if cls = 0 then (s.choose [0, 1, 2, 3]).1 else (s.choose [0, 1, 2, 3]).1.payCredit cls q).startPacket q with
      nextStart := s.now + 16 } (s.now + 16) .frontEndStart).look := by
  unfold State.startNext
  rw [if_neg (Nat.not_lt.mpr hdue)]
  simp only [hch, hw, Bool.not_true, Bool.false_eq_true, if_false]

end

/-- A TICKSTART at its head that is late, or that is not. -/
theorem State.startTickstart_late {s : State} {q : Nat} (h : s.headLate (s.queue q) = true) (hmet : (s.queue q).met = none) :
    s.startTickstart q = (s.lateAtHead (s.queue q).ctx (s.queue q).recWords).passHead q none := by
  unfold State.startTickstart
  simp only [h, hmet, if_true]
  rfl

theorem State.startTickstart_ahead {s : State} {q : Nat} (h : s.headLate (s.queue q) = false) :
    s.startTickstart q = s.doLaunch q (some (pkWord (s.queue q).pkt 3).toNat) :=
  if_neg (Bool.eq_false_iff.mp h)

theorem State.startMarker_of_resolvePA {s : State} {q key home : Nat}
    (h : resolvePA (pkWord (s.queue q).pkt 2).toNat = some (key, home)) : s.startMarker q =
      ((s.afterDone q).passHead q (some none)).agentWrite 16 key home (wordLE (pkWord (s.queue q).pkt 3)) (.marker q (s.queue q).head) := by
  simp only [State.startMarker, h]

/-- What starts a head packet of kind `n`. -/
def State.packetOf (s : State) (q : Nat) : Nat → State
  | 1 => s.startLaunch q
  | 2 => s.startCollstep q
  | 3 => s.startTransfer q
  | 4 => s.startConvert q
  | 5 => s.startSignal q
  | 6 => s.startWaitsem q
  | 7 => s.startTickstart q
  | 8 => s.startMarker q
  | _ => s

theorem State.startPacket_of_kind {s : State} {q n : Nat} (h : pkKind (s.queue q).pkt = n) : s.startPacket q = s.packetOf q n :=
  h ▸ rfl

/-- Settles O33: the chosen packet starts as its kind does. -/
theorem packetStarts : Obligations.PacketStarts := by
  intro s q s1 s2 ch waits begun
  have hfront : ∀ want, s.frontEnd want = waits (s2.startNext (want s2)) := fun want => rfl
  clear_value s2 waits
  have hunwanted : ∀ kind, s2.nextStart ≤ s2.now → ∀ cls, ch.2 = some (cls, q.val) → pkKind (s2.queue q.val).pkt ≠ kind →
      s.startKind q.val kind = waits s2 := fun kind hdue cls hch hk => by
    rw [State.startKind, hfront, State.startNext_unwanted hdue hch]
    simp [hk]
  refine ⟨?_, fun hearly => ⟨?_, ?_, ?_⟩, fun hdue hch => ?_, fun k hq hbad => ?_⟩
  · intro cls hdue hch u k b starts
    have hwanted : ∀ want : State → Nat → Bool, want s2 q.val = true → s.frontEnd want = begun (u.startPacket q.val) := fun want hw =>
      (hfront want).trans (congrArg waits (State.startNext_wanted hdue hch hw))
    have hstarts : ∀ (kind : Nat) (i : Instr) (t : State), exec i s = .next (s.startKind q.val kind) →
        (pkKind b = kind → u.startPacket q.val = t) → starts kind i t := by
      intro kind i t hexec hpacket hk hb
      rw [hexec, ← hpacket hb]
      refine ⟨congrArg Host.Outcome.next (hwanted (fun t p => p == q.val && pkKind (t.queue p).pkt == kind) ?_),
        congrArg Host.Outcome.next (hwanted (fun _ _ => true) rfl)⟩
      simp [hk]
    refine ⟨hstarts 1 (.launch q) _ rfl fun h => ?_, hstarts 2 (.collstep q) _ rfl fun h => ?_, hstarts 3 (.transfer q) _ rfl fun h => ?_, hstarts 4 (.convert q) _ rfl fun h => ?_,
      hstarts 5 (.signal q) _ rfl fun h => ?_, hstarts 6 (.waitsem q) _ rfl fun h => ?_, fun hlate hmet => hstarts 7 (.tickstart q) _ rfl fun h => ?_,
      fun hahead hlock => hstarts 7 (.tickstart q) _ rfl fun h => ?_, fun key home hpa => hstarts 8 (.marker q) _ rfl fun h => ?_,
      fun hk => congrArg Host.Outcome.next (hunwanted 1 hdue cls hch hk),
      fun hk => congrArg Host.Outcome.next (hunwanted 8 hdue cls hch hk)⟩
    all_goals refine (State.startPacket_of_kind h).trans ?_
    · rfl
    · rfl
    · rfl
    · rfl
    · rfl
    · rfl
    · exact State.startTickstart_late (by simpa [State.headLate] using hlate) hmet
    · exact State.startTickstart_ahead (by simpa [State.headLate, hlock] using hahead)
    · exact State.startMarker_of_resolvePA hpa
  · exact congrArg Host.Outcome.next ((hfront _).trans (congrArg waits (State.startNext_early hearly _)))
  · exact congrArg Host.Outcome.next ((hfront _).trans (congrArg waits (State.startNext_early hearly _)))
  · exact congrArg Host.Outcome.next ((hfront _).trans (congrArg waits (State.startNext_early hearly _)))
  · exact congrArg Host.Outcome.next ((hfront _).trans (congrArg waits (State.startNext_none hdue hch _)))
  · have hlist : s.queueList = [q.val] := by
      rw [State.queueList, hq]
      rfl
    unfold State.scanHeads
    rw [hlist]
    exact if_pos hbad

end Sys2Proof.Machine
end

section
/-! SUPPORT. The set-up of a LAUNCH and the start at a tick (07 R130 to R136). -/

namespace Sys2Proof.Machine
open Sys2Proof.Bits

/-- A group none of whose cores is fenced runs. -/
theorem State.shunFenced_of_sound {s : State} {g : Nat} {r : Run} (hrun : (s.grp g).run = some r) (hf : ∀ c ∈ r.members, c ∉ s.fenced) :
    s.shunFenced g = s := by
  have hnone : r.members.any s.fenced.contains = false := by
    rw [List.any_eq_false]
    intro c hc
    simpa using hf c hc
  simp only [State.shunFenced, hrun, hnone, Bool.false_eq_true, if_false]

/-- What a start leaves of the group. -/
theorem State.beginRun_grp {s : State} {g : Nat} {r : Run} (hrun : (s.grp g).run = some r) (hf : ∀ c ∈ r.members, c ∉ s.fenced) :
    (s.beginRun g).grp g = { s.grp g with state := 2, run := some { r with started := true } } := by
  unfold State.beginRun
  rw [hrun]
  dsimp only
  generalize hs1 : List.foldl _ s r.members = s1
  have hcores : s1.grps = s.grps ∧ s1.fenced = s.fenced :=
    hs1 ▸ foldl_inv (P := fun t : State => t.grps = s.grps ∧ t.fenced = s.fenced) (fun t c ht => ht) ⟨rfl, rfl⟩
  have hgrp : s1.grp g = s.grp g := by rw [State.grp, hcores.1]; rfl
  have hrun1 : (s1.updRun g fun r => { r with started := true }).grp g = { s.grp g with run := some { r with started := true } } := by
    rw [State.updRun_self, hgrp, hrun]
    rfl
  have hrun2 : ((((s1.updRun g fun r => { r with started := true }).updGrp g fun x => { x with state := 2 }).soon .frontEndStart)).grp g =
      { s.grp g with state := 2, run := some { r with started := true } } := by
    rw [State.soon_grp, State.updGrp_self, hrun1]
  rw [State.shunFenced_of_sound (r := { r with started := true })]
  · exact hrun2
  · rw [hrun2]
  · rw [State.soon_fenced]
    exact hcores.2.symm ▸ hf

/-- The first part with the tag is the one that LATE aborts. -/
theorem State.lateArrives_of_tag {s : State} {g : Nat} {x : Grp} {r : Run} {tag : BitVec 16} {before after : List (Nat × Grp)}
    (hgrps : s.grps = before ++ (g, x) :: after) (hrun : x.run = some r) (hpkg : r.npkg ≠ 0) (htag : r.sptag = tag.toNat)
    (hst : x.state ≤ 4) (hbefore : ∀ e ∈ before, ∀ r', e.2.run = some r' → r'.sptag ≠ tag.toNat) :
    s.lateArrives tag = (s.updRun g fun r => { r with late := if r.late = 0 then 2 else r.late }).stopGroup g 4 0 := by
  have hfind : s.grps.find? (fun e => match e.2.run with
      | some r => r.npkg != 0 && r.sptag == tag.toNat && decide (e.2.state ≤ 4)
      | none => false) = some (g, x) := by
    rw [hgrps, List.find?_append, List.find?_eq_none.mpr, Option.none_or]
    · refine List.find?_cons_of_pos ?_
      simp [hrun, hpkg, htag, hst]
    · intro e he
      cases hr' : e.2.run with
      | none => simp
      | some r' => simp [hbefore e he r' hr']
  exact congrArg (fun o : Option (Nat × Grp) => match o with
    | some e => (s.updRun e.1 fun r => { r with late := if r.late = 0 then 2 else r.late }).stopGroup e.1 4 0
    | none => s) hfind

/-- Settles O34: each event at each stage of a start. -/
theorem groupStartResults : Obligations.GroupStartResults := by
  intro s g r tag hrun st ready gen
  have hnow : st = 1 → r.ready = false → r.started = false → r.saved = [] → execLaunchReady ⟨g, gen⟩ s = match r.tick with
      | none => .next (ready.beginRun g.val)
      | some t => .next (if t ≤ s.ftick then ready.isLate g.val else ready) := fun hst hready hstarted hsaved => by
    unfold execLaunchReady
    dsimp only
    rw [hrun]
    exact if_neg (by simp [show (s.grp g.val).state = 1 from hst, gen, hready, hstarted, hsaved])
  have htickDo : ∀ tk, st = 1 → r.started = false → r.tick = some tk → execStartTick g s =
      if s.ftick < tk then .next (s.after 1 (.startTick g))
      else if r.ready && s.tickLocked then .next (r.members.foldl (fun (s : State) c => s.soon (.bundleIssue (fin64 c)))
        ((s.beginRun g.val).soon (.sequencerBroadcast g)))
      else .next (s.isLate g.val) := fun tk hst hstarted htick => by
    unfold execStartTick
    dsimp only
    rw [hrun]
    dsimp only
    rw [htick]
    exact if_neg (by simp [show (s.grp g.val).state = 1 from hst, hstarted])
  dsimp only [exec]
  refine ⟨fun hst hready hstarted hsaved htick hf => ?_, fun tk hst hready hstarted hsaved htick hlt => ?_,
    fun tk hst hready hstarted hsaved htick hle => ?_, fun n hn => ?_, fun tk hst hstarted htick hlt => ?_,
    fun tk hst hstarted htick hle hready hlock => ?_, fun tk hst hstarted htick hle hor => ?_,
    fun before x after hgrps hx hpkg htag hxst hbefore => congrArg _ (State.lateArrives_of_tag hgrps hx hpkg htag hxst hbefore)⟩
  · have hgrp : ready.grp g.val = { s.grp g.val with run := some { r with ready := true } } := by
      rw [State.updRun_self, hrun]
      rfl
    have hbegun := State.beginRun_grp (s := ready) (g := g.val) (r := { r with ready := true }) (by rw [hgrp]) hf
    refine ⟨ready.beginRun g.val, ?_, ?_⟩
    · rw [hnow hst hready hstarted hsaved, htick]
    · rw [hbegun, hgrp]
      exact ⟨rfl, rfl, rfl⟩
  · rw [hnow hst hready hstarted hsaved, htick]
    exact congrArg Host.Outcome.next (if_neg (Nat.not_le.mpr hlt))
  · rw [hnow hst hready hstarted hsaved, htick]
    exact congrArg Host.Outcome.next (if_pos hle)
  · unfold execLaunchReady
    dsimp only
    rw [hrun]
    exact if_pos (.inr (.inl (Ne.symm hn)))
  · rw [htickDo tk hst hstarted htick, if_pos hlt]
  · rw [htickDo tk hst hstarted htick, if_neg (Nat.not_lt.mpr hle), if_pos (by rw [hready, hlock]; rfl)]
  · rw [htickDo tk hst hstarted htick, if_neg (Nat.not_lt.mpr hle), if_neg]
    obtain h | h := hor <;> simp [h]

end Sys2Proof.Machine
end

section
/-! SUPPORT. A cycle of a sequencer, an issue, and results that fall due (08, 17). -/

namespace Sys2Proof.Machine
open Sys2Proof.Bits

theorem fin1024_val (g : Fin 1024) : fin1024 g.val = g := Fin.ext (Nat.mod_eq_of_lt g.isLt)

/-- A cycle more in which the group stands frozen by a fault (08 R146). -/
theorem State.parkTimer_frozen {s : State} {g : Nat} {r : Run} (hsaving : r.saving = 0) (hst : (s.grp g).state = 2 ∨ (s.grp g).state = 3)
    (hfrozen : r.members.any s.faultFrozen = true) : s.parkTimer g r =
      let s1 := (s.updGrp g fun x => { x with state := 3 }).updRun g fun q => { q with timer := r.timer + 1 }
      if 65536 ≤ r.timer + 1 then s1.sched (s.now + 1) (.park (fin1024 g)) else s1 := by
  unfold State.parkTimer
  dsimp only
  rw [if_neg (by simp only [hsaving]; omega), if_pos hfrozen]

/-- Settles O35: each event by the state of the group. -/
theorem sequencerAndIssueResults : Obligations.SequencerAndIssueResults := by
  intro s g r core hrun st b k shadows
  have hcast : execSequencerBroadcast g s = if st ≠ 2 ∧ st ≠ 3 then .next s else if r.saving ≠ 0 then .next (s.saveStep g.val r)
      else if b.2 then .next (b.1.startSave g.val 2) else match (b.1.grp g.val).run with
        | some r1 => .next (b.1.sequence g.val r1)
        | none => .next b.1 := by
    unfold execSequencerBroadcast
    dsimp only
    rw [hrun] <;> rfl
  dsimp only [exec]
  refine ⟨fun h2 h3 => ?_, fun hst hsaving => ?_, fun r1 hst hsaving hb hr1 => ?_, fun hst hsaving hb => ?_, fun hsaving hst hfrozen => ?_,
    rfl, fun hskid hexit hgrp hdue => ?_, fun hskid => ?_, rfl⟩
  · rw [hcast, if_pos ⟨h2, h3⟩]
  · rw [hcast, if_neg fun h => hst.elim h.1 h.2, if_pos hsaving]
  · rw [hcast, if_neg fun h => hst.elim h.1 h.2, if_neg (Classical.not_not.mpr hsaving), if_neg (Bool.eq_false_iff.mp hb)]
    simp only [hr1]
  · rw [hcast, if_neg fun h => hst.elim h.1 h.2, if_neg (Classical.not_not.mpr hsaving), if_pos hb]
  · have hpark := State.parkTimer_frozen hsaving hst hfrozen
    rw [fin1024_val] at hpark
    have hgrp : (s.parkTimer g.val r).grp g.val = { s.grp g.val with state := 3, run := some { r with timer := r.timer + 1 } } := by
      have h1 : ((s.updGrp g.val fun x => { x with state := 3 }).updRun g.val fun q => { q with timer := r.timer + 1 }).grp g.val =
          { s.grp g.val with state := 3, run := some { r with timer := r.timer + 1 } } := by
        rw [State.updRun_self, State.updGrp_self, hrun]
        rfl
      rw [hpark]
      dsimp only
      split
      · exact h1
      · exact h1
    refine ⟨by rw [hgrp], ⟨{ r with timer := r.timer + 1 }, by rw [hgrp], rfl⟩, fun htimer => ?_⟩
    rw [hpark]
    dsimp only
    rw [if_pos (Nat.succ_le_succ htimer)]
    exact (mem_insertDue _ _ _ _).mpr (.inl rfl)
  · refine if_neg ?_
    simp [show (s.core core.val).skid ≠ [] from hskid, show (s.core core.val).exited = false from hexit, hgrp,
      show (s.core core.val).dueArrived = true from hdue]
  · refine if_pos ?_
    simp [show (s.core core.val).skid = [] from hskid]

end Sys2Proof.Machine
end

section
/-! SUPPORT. What messages, ticks and the writes of agents leave: groups, cores and the states of the links. -/

namespace Sys2Proof.Machine
open Sys2Proof.Bits

/-- `t` has the groups, cores and link states of `s`. -/
structure State.KeepsRuns (s t : State) : Prop where
  grps : t.grps = s.grps
  cores : t.cores = s.cores
  links : ∀ l, (t.link l).state = (s.link l).state

theorem State.KeepsRuns.refl (s : State) : s.KeepsRuns s := ⟨rfl, rfl, fun _ => rfl⟩

theorem State.KeepsRuns.trans {s t u : State} (h : s.KeepsRuns t) (h' : t.KeepsRuns u) : s.KeepsRuns u :=
  ⟨h'.grps.trans h.grps, h'.cores.trans h.cores, fun l => (h'.links l).trans (h.links l)⟩

/-- An operation that changes none of the three tables. -/
theorem State.KeepsRuns.of_tables {s t : State} (hg : t.grps = s.grps) (hc : t.cores = s.cores) (hl : t.links = s.links) : s.KeepsRuns t :=
  ⟨hg, hc, fun l => by rw [State.link, hl]; rfl⟩

theorem State.KeepsRuns.ite {p : Prop} [Decidable p] {s t u : State} (ht : s.KeepsRuns t) (hu : s.KeepsRuns u) :
    s.KeepsRuns (if p then t else u) := by
  split
  · exact ht
  · exact hu

theorem State.KeepsRuns.foldl {α : Type} {f : State → α → State} (hf : ∀ (s : State) a, s.KeepsRuns (f s a)) (l : List α) (s : State) :
    s.KeepsRuns (l.foldl f s) :=
  foldl_inv (P := fun t => s.KeepsRuns t) (fun t a ht => ht.trans (hf t a)) (.refl s)

section
variable {s t : State} (h : s.KeepsRuns t)
include h

theorem State.KeepsRuns.grp (g : Nat) : t.grp g = s.grp g := by rw [State.grp, h.grps]; rfl

theorem State.KeepsRuns.core (c : Nat) : t.core c = s.core c := by rw [State.core, h.cores]; rfl

theorem State.KeepsRuns.linkUsable (l : Nat) : t.linkUsable l = s.linkUsable l := by
  unfold State.linkUsable
  rw [h.links l]

theorem State.KeepsRuns.markerPaths : t.markerPaths = s.markerPaths := by
  unfold State.markerPaths
  rw [show t.linkUsable = s.linkUsable from funext h.linkUsable]

end

/-! ### Tables that no group, core or link stands in -/

theorem State.keepsRuns_bump (s : State) : s.KeepsRuns s.bump := .of_tables rfl rfl rfl

theorem State.keepsRuns_sched (s : State) (t : Nat) (i : Instr) : s.KeepsRuns (s.sched t i) := .of_tables rfl rfl rfl

theorem State.keepsRuns_soon (s : State) (i : Instr) : s.KeepsRuns (s.soon i) := .ite (.refl s) (s.keepsRuns_sched _ i)

theorem State.keepsRuns_updLink (s : State) (l : Nat) {f : Link → Link} (hf : ∀ k, (f k).state = k.state) : s.KeepsRuns (s.updLink l f) := by
  refine ⟨rfl, rfl, fun j => ?_⟩
  by_cases hj : j = l
  · subst hj
    rw [State.updLink_self, hf]
  · rw [State.updLink_of_ne _ _ hj]

theorem State.keepsRuns_updAgent (s : State) (a : Nat) (f : Agent → Agent) : s.KeepsRuns (s.updAgent a f) := .of_tables rfl rfl rfl
theorem State.keepsRuns_updCtx (s : State) (c : Nat) (f : Ctx → Ctx) : s.KeepsRuns (s.updCtx c f) := .of_tables rfl rfl rfl
theorem State.keepsRuns_updQueue (s : State) (q : Nat) (f : Queue → Queue) : s.KeepsRuns (s.updQueue q f) := .of_tables rfl rfl rfl
theorem State.keepsRuns_updRidge (s : State) (f : Ridge → Ridge) : s.KeepsRuns (s.updRidge f) := .of_tables rfl rfl rfl

/-! ### Messages and ticks -/

theorem State.keepsRuns_queueOn (s : State) (g l vc peer gid : Nat) (bs : List Byte) (telling : PeerMsg) :
    s.KeepsRuns (s.queueOn g l vc peer gid bs telling) :=
  s.keepsRuns_bump.trans ((State.keepsRuns_updLink s.bump l (by intro; rfl)).trans (State.keepsRuns_sched _ _ _))

theorem Link.carries_state (k : Link) (vc peer : Nat) (telling : PeerMsg) : (k.carries vc peer telling).state = k.state := by
  cases telling <;> rfl

theorem State.keepsRuns_sendPeer (s : State) (g vc p gid : Nat) (bs : List Byte) (telling : PeerMsg) :
    s.KeepsRuns (s.sendPeer g vc p gid bs telling).1 := by
  unfold State.sendPeer
  split
  · exact .refl s
  · exact (s.keepsRuns_queueOn _ _ _ _ _ _ _).trans (State.keepsRuns_updLink _ _ fun k => k.carries_state vc p telling)

theorem State.keepsRuns_markPaths (s : State) (g e : Nat) : s.KeepsRuns (s.markPaths g e) := by
  refine .foldl (fun t l => ?_) _ s
  refine .ite (.refl t) (State.KeepsRuns.trans (t.keepsRuns_updLink l (by intro; rfl))
    (.foldl (fun u w => (u.keepsRuns_queueOn _ _ _ _ _ _ _).trans (State.keepsRuns_updAgent _ _ _)) _ _))

theorem State.keepsRuns_tick (s : State) (g d : Nat) : s.KeepsRuns (s.tick g d) := by
  refine ((s.keepsRuns_updAgent g _).trans (State.keepsRuns_markPaths _ g _)).trans (.foldl (fun t h => ?_) _ _)
  exact .ite (.refl t) (t.keepsRuns_sched _ _)

theorem State.keepsRuns_packetDone (s : State) (q n g : Nat) : s.KeepsRuns (s.packetDone q n g) :=
  (s.keepsRuns_updQueue q _).trans (State.keepsRuns_soon _ _)

theorem State.keepsRuns_tell (s : State) (t : Told) : s.KeepsRuns (s.tell t) := by
  cases t with
  | none => exact .refl s
  | entry x =>
    dsimp only [State.tell]
    exact (s.keepsRuns_tick 16 0).trans ((s.tick 16 0).keepsRuns_updCtx x _)
  | marker q n =>
    dsimp only [State.tell]
    exact (s.keepsRuns_tick 16 0).trans ((s.tick 16 0).keepsRuns_packetDone q n 16)

/-! ### Writes of agents -/

theorem State.keepsRuns_wake (s : State) (key : Nat) : s.KeepsRuns (s.wake key) :=
  .foldl (fun t _ => t.keepsRuns_soon _) _ s

theorem State.keepsRuns_landWrite (s : State) (w : Write) : s.KeepsRuns (s.landWrite w) := by
  unfold State.landWrite
  split
  · exact s.keepsRuns_sched _ _
  · exact .refl s

theorem State.keepsRuns_landBack (s : State) (w : Write) : s.KeepsRuns (s.landBack w) := by
  unfold State.landBack
  split
  · exact .refl s
  · exact .ite ((s.keepsRuns_updRidge _).trans (State.keepsRuns_sendPeer _ _ _ _ _ _ _)) (s.keepsRuns_updRidge _)

theorem State.keepsRuns_applyWrite (s : State) (w : Write) : s.KeepsRuns (s.applyWrite w) := by
  unfold State.applyWrite
  extract_lets stamps s1 s2 s3
  have h1 : s.KeepsRuns s1 := .of_tables rfl rfl rfl
  have h2 : s.KeepsRuns s2 := (((h1.trans (s1.keepsRuns_wake _)).trans (State.keepsRuns_landWrite _ w)).trans
    (State.keepsRuns_landBack _ w)).trans (State.keepsRuns_tell _ _)
  have h3 : s.KeepsRuns s3 := .ite h2 (h2.trans (s2.keepsRuns_soon _))
  split
  · exact h3.trans (s3.keepsRuns_sched _ _)
  · exact h3

theorem State.keepsRuns_sendWrite (s : State) (g : Nat) (w : Write) : s.KeepsRuns (s.sendWrite g w) := by
  unfold State.sendWrite State.deliverWrite State.depart
  refine .ite (.ite (s.keepsRuns_applyWrite w) (s.keepsRuns_updAgent _ _)) (.ite (.of_tables rfl rfl rfl) (.of_tables rfl rfl rfl))

theorem State.keepsRuns_agentWriteGo (g home : Nat) (land : Option (Bool × Nat × Nat × Nat × Bool)) (lock : Nat) (told : Told) (n : Nat) :
    ∀ (s : State) (key : Nat) (bs : List Byte), s.KeepsRuns (s.agentWriteGo g home land lock told n key bs) := by
  induction n with
  | zero => exact fun s _ _ => .refl s
  | succ n ih =>
    intro s key bs
    unfold State.agentWriteGo
    exact .ite (.refl s) (s.keepsRuns_bump.trans ((State.keepsRuns_sendWrite _ g _).trans (ih _ _ _)))

theorem State.keepsRuns_agentWalk (s : State) (ctx va : Nat) : s.KeepsRuns (s.agentWalk ctx va) := by
  have hleaf : ∀ (t : State) e, t.KeepsRuns (t.cacheLeaf e) := fun t e => by
    unfold State.cacheLeaf
    exact .ite (.ite (.refl t) (.of_tables rfl rfl rfl)) (t.keepsRuns_updRidge _)
  have htouch : s.KeepsRuns (s.touchPtr ctx va) := by
    unfold State.touchPtr
    dsimp only
    split
    · exact s.keepsRuns_updRidge _
    · exact .refl s
  have hptrs : ∀ (t : State) ps, t.KeepsRuns (t.cachePtrs ctx va ps) := fun t ps => .foldl (fun u _ => u.keepsRuns_updRidge _) ps t
  unfold State.agentWalk
  by_cases hva : winBase ≤ va
  · rw [if_pos hva]
    exact .refl s
  · rw [if_neg hva]
    split
    · exact hleaf s _
    · dsimp only
      split
      · exact .ite (htouch.trans (hptrs _ _)) ((htouch.trans (hptrs _ _)).trans (hleaf _ _))
      · exact htouch.trans (hptrs _ _)

theorem State.keepsRuns_vwriteGo (core : Option Nat) (ctx g : Nat) (land : Option (Bool × Nat × Nat × Nat × Bool)) (n : Nat) :
    ∀ (s : State) (va : Nat) (bs : List Byte), s.KeepsRuns (s.vwriteGo core ctx g land n va bs).1 := by
  induction n with
  | zero => exact fun s _ _ => .refl s
  | succ n ih =>
    intro s va bs
    unfold State.vwriteGo
    by_cases hbs : bs.isEmpty = true
    · rw [if_pos hbs]
      exact .refl s
    · rw [if_neg hbs]
      dsimp only
      split
      · exact ((s.keepsRuns_agentWalk ctx va).trans (State.keepsRuns_agentWriteGo _ _ _ _ _ _ _ _ _)).trans (ih _ _ _)
      · exact .refl s
      · exact .refl s

theorem State.keepsRuns_statWrite (s : State) (x va : Nat) (v : Word) : s.KeepsRuns (s.statWrite x va v) := by
  unfold State.statWrite
  exact (State.KeepsRuns.ite (State.keepsRuns_vwriteGo _ _ _ _ _ s _ _) (.refl s)).trans (State.keepsRuns_tick _ 16 0)

theorem State.keepsRuns_ctxSettle (s : State) (x : Nat) : s.KeepsRuns (s.ctxSettle x) :=
  .ite (.ite (.of_tables rfl rfl rfl) (s.keepsRuns_updCtx x _)) (.refl s)

theorem State.keepsRuns_destroyCheck (s : State) (x : Nat) : s.KeepsRuns (s.destroyCheck x) :=
  .ite (s.keepsRuns_soon _) (.refl s)

end Sys2Proof.Machine
end

section
/-! SUPPORT. The end of a drain and the markers of an id in quarantine (08 R145, R146). -/

namespace Sys2Proof.Machine
open Sys2Proof.Bits

/-- The markers of an id go out; its group is as it was but for them. -/
theorem State.sendMarkers_grp (s : State) (g : Nat) : (s.sendMarkers g).grp g = { s.grp g with marks := s.markerPaths } := by
  unfold State.sendMarkers
  extract_lets ps gid s1
  have h1 : s.KeepsRuns s1 := .foldl (fun t p => .ite (t.keepsRuns_sched _ _) (t.keepsRuns_queueOn _ _ _ _ _ _ _)) _ _
  rw [State.updGrp_self, h1.grp]

/-- A drained group RETIREs. -/
theorem execDrainComplete_of_quiet {s : State} {g : Fin 1024} {r : Run} (hrun : (s.grp g.val).run = some r) (hst : (s.grp g.val).state = 5)
    (hquiet : ∀ c ∈ r.members, (s.core c).quiet = true) (hpieces : s.piecesOf r.members = false) : ∃ t,
      execDrainComplete g s = .next t ∧ t.grp g.val = { s.grp g.val with state := 7, run := none, marks := s.markerPaths } := by
  have hbusy : (r.members.any fun c => (s.core c).group == some g.val && !(s.core c).quiet) = false := by
    rw [List.any_eq_false]
    intro c hc
    simp [hquiet c hc]
  unfold execDrainComplete
  dsimp only
  rw [if_neg (Classical.not_not.mpr hst), hrun]
  dsimp only
  rw [if_neg (by simp only [hbusy, hpieces, Bool.false_and, Bool.or_self, Bool.false_eq_true, not_false_eq_true])]
  refine ⟨_, rfl, ?_⟩
  generalize hs1 : s.statWrite r.ctx r.stat _ = s1
  have h1 : s.KeepsRuns s1 := hs1 ▸ s.keepsRuns_statWrite _ _ _
  generalize hs2 : State.updQueue (s1.packetDone r.queue r.packet 16) r.queue _ = s2
  have h2 : s.KeepsRuns s2 := hs2 ▸ (h1.trans (s1.keepsRuns_packetDone _ _ _)).trans (State.keepsRuns_updQueue _ _ _)
  generalize hs3 : List.foldl _ s2 r.members = s3
  have h3 : s3.grps = s2.grps ∧ s3.links = s2.links :=
    hs3 ▸ foldl_inv (P := fun t : State => t.grps = s2.grps ∧ t.links = s2.links) (fun t c ht => by split <;> exact ht) ⟨rfl, rfl⟩
  generalize hs5 : List.foldl _ (State.updRidge s3 _) _ = s5
  have h5 : s5.grps = s2.grps ∧ s5.links = s2.links :=
    hs5 ▸ foldl_inv (P := fun t : State => t.grps = s2.grps ∧ t.links = s2.links) (fun t c ht => ht) h3
  have hgrp : s5.grp g.val = s.grp g.val := by
    rw [State.grp, h5.1, h2.grps]
    rfl
  have hpaths : s5.markerPaths = s.markerPaths := by
    rw [← h2.markerPaths]
    unfold State.markerPaths State.linkUsable State.link
    rw [h5.2]
  have hend : ∀ u : State, u.KeepsRuns ((List.range 8).foldl (fun (s : State) d => s.soon (.replanPause (fin21 d)))
      (((u.ctxSettle r.ctx).destroyCheck r.ctx).soon .frontEndStart)) := fun u =>
    (((u.keepsRuns_ctxSettle _).trans (State.keepsRuns_destroyCheck _ _)).trans (State.keepsRuns_soon _ _)).trans
      (.foldl (fun t _ => t.keepsRuns_soon _) _ _)
  rw [(hend _).grp, State.sendMarkers_grp, State.updGrp_self, hgrp]
  exact congrArg (fun ps => ({ s.grp g.val with state := 7, run := none, marks := ps } : Grp)) hpaths

/-- The index of an id. -/
theorem State.ofGid_gid16 (s : State) (g : Fin 1024) : s.ofGid (s.gid16 g.val) = some g.val := by
  have hg := g.isLt
  have hn : (s.gid16 g.val).toNat = (s.grp g.val).gen % 64 * 1024 + g.val := by
    rw [State.gid16, BitVec.toNat_ofNat]
    omega
  unfold State.ofGid
  rw [hn, show ((s.grp g.val).gen % 64 * 1024 + g.val) % 1024 = g.val by omega]
  exact if_pos (by omega)

/-- Settles O37: the drain's end, its markers, and those of a peer. -/
theorem drainAndQuarantineResults : Obligations.DrainAndQuarantineResults := by
  intro s g path x left
  dsimp only [exec]
  refine ⟨fun r hrun hst hquiet hpieces => ?_, fun hst => ?_, fun hst _ => ?_, fun hl => ?_, fun hl => ?_⟩
  · obtain ⟨t, ht, hgrp⟩ := execDrainComplete_of_quiet hrun hst hquiet hpieces
    refine ⟨t, ht, ?_⟩
    rw [hgrp]
    exact ⟨rfl, rfl, rfl, rfl, rfl, rfl⟩
  · exact if_pos hst
  · unfold execDrainMarkerReturn
    rw [State.ofGid_gid16]
    refine ⟨_, rfl, ?_⟩
    unfold State.markBack
    dsimp only
    rw [if_neg (Classical.not_not.mpr hst), State.soon_grp, State.updGrp_self]
    simp only [List.isEmpty_iff]
    rfl
  · exact if_pos hl
  · exact if_neg (Bool.eq_false_iff.mp hl)

end Sys2Proof.Machine
end

section
/-! SUPPORT. Parks, saves and restores (05 R111 to R113; 08 R146). -/

namespace Sys2Proof.Machine
open Sys2Proof.Bits

/-! ### Saving -/

theorem State.keepsRuns_pinDrop (s : State) (lock : Nat) : s.KeepsRuns (s.pinDrop lock) :=
  .ite (.refl s) ((s.keepsRuns_updRidge _).trans (State.keepsRuns_soon _ _))

theorem State.keepsRuns_dropAsked (s : State) (c : Nat) : s.KeepsRuns (s.dropAsked c) := .of_tables rfl rfl rfl

/-- The save of a member counts no park of its group. -/
theorem State.saveCore_parks (s : State) (g x c : Nat) (p : Posn) : ((s.saveCore g x c p).grp g).parks = (s.grp g).parks := by
  unfold State.saveCore
  extract_lets r k stage parts s1 s2 kept s3
  have h1 : s.KeepsRuns s1 := s.keepsRuns_bump.trans (.foldl (fun t part => by
    split
    · exact State.keepsRuns_agentWriteGo _ _ _ _ _ _ _ _ _
    · exact .refl t) _ _)
  clear_value s1
  have h2 : s.KeepsRuns s2 := (h1.trans (s1.keepsRuns_dropAsked c)).trans
    (.foldl (fun t o => .foldl (fun u l => .ite (u.keepsRuns_pinDrop _) (.refl u)) _ _) _ _)
  clear_value s2 kept k
  have h3 : s3.grp g = s.grp g := h2.grp g
  clear_value s3
  rw [(State.keepsRuns_updRidge _ _).grp, State.updRun_self]
  calc _ = (s3.grp g).parks := rfl
    _ = (s.grp g).parks := congrArg Grp.parks h3

/-- A save that has come to its end leaves the group PARKED. -/
theorem execSaveComplete_of_saved {s : State} {g : Fin 1024} {r : Run} (hrun : (s.grp g.val).run = some r)
    (hst : (s.grp g.val).state = 2 ∨ (s.grp g.val).state = 3) (hsaving : r.saving ≠ 0) (hsaved : r.savedAt ≠ 0) : ∃ t,
      execSaveComplete g s = .next t ∧ (t.grp g.val).state = 4 ∧ (t.grp g.val).pwhy = r.saving ∧
      (t.grp g.val).parks = if r.saving = 1 then ((s.grp g.val).parks + 1) % 2 ^ 32 else (s.grp g.val).parks := by
  have hcond : ¬ (r.saving = 0 ∨ r.savedAt = 0 ∨ ((s.grp g.val).state ≠ 2 ∧ (s.grp g.val).state ≠ 3)) := by omega
  unfold execSaveComplete
  dsimp only
  rw [hrun]
  dsimp only
  rw [if_neg hcond]
  refine ⟨_, rfl, ?_⟩
  generalize hs1 : List.foldl (fun (t : State) c => t.saveCore g.val r.ctx c (s.posn r)) s r.members = s1
  have h1 : (s1.grp g.val).parks = (s.grp g.val).parks :=
    hs1 ▸ foldl_inv (P := fun t : State => (t.grp g.val).parks = (s.grp g.val).parks)
      (fun t c ht => (t.saveCore_parks _ _ _ _).trans ht) rfl
  have hend : ∀ u : State, u.KeepsRuns ((List.range 8).foldl (fun (s : State) d => s.soon (.replanPause (fin21 d)))
      ((u.ctxSettle r.ctx).soon .frontEndStart)) := fun u =>
    ((u.keepsRuns_ctxSettle _).trans (State.keepsRuns_soon _ _)).trans (.foldl (fun t _ => t.keepsRuns_soon _) _ _)
  rw [(hend _).grp, State.updGrp_self, State.updRun_self]
  refine ⟨rfl, rfl, ?_⟩
  dsimp only
  rw [h1]

/-! ### Restoring -/

/-- A core is taken for a group. -/
def State.joins (g : Nat) (t : State) (d : Nat) : State := t.updCore d fun k => { k with group := some g }

/-- The cores that a restore has taken are of the group. -/
theorem State.foldl_joins_group (s : State) (g : Nat) {l : List Nat} {c : Nat} (hc : c ∈ l) :
    ((l.foldl (State.joins g) s).core c).group = some g := by
  have hstep : ∀ (t : State) (d : Nat), ((t.core c).group = some g ∨ d = c) → ((State.joins g t d).core c).group = some g := by
    intro t d h
    unfold State.joins
    by_cases hd : d = c
    · subst hd
      rw [State.updCore_self]
    · rw [State.updCore_of_ne _ _ (Ne.symm hd)]
      exact h.resolve_right hd
  induction l generalizing s with
  | nil => exact absurd hc List.not_mem_nil
  | cons d l ih =>
    rw [List.foldl_cons]
    rcases List.mem_cons.mp hc with rfl | hl
    · exact foldl_inv (P := fun t : State => (t.core c).group = some g) (fun t e ht => hstep t e (.inl ht)) (hstep s c (.inr rfl))
    · exact ih _ hl

/-- A restore takes the cores and a sequencer for the group. -/
theorem execGroupRestore_of_room {s : State} {g : Fin 1024} {r : Run} {q : Nat} (hrun : (s.grp g.val).run = some r)
    (helig : s.eligible g.val = true) (hf : ∀ c ∈ r.members, c ∉ s.fenced) (hseq : s.freeSeq = some q)
    (hfree : r.members.all s.coreFree1 = true) : ∃ t, execGroupRestore g s = .next t ∧ (t.grp g.val).state = 1 ∧
      (t.grp g.val).run = some { r with seq := q } ∧ ∀ c ∈ r.members, (t.core c).group = some g.val := by
  have hnone : r.members.any s.fenced.contains = false := by
    rw [List.any_eq_false]
    intro c hc
    simpa using hf c hc
  unfold execGroupRestore
  rw [hrun]
  dsimp only
  rw [if_neg (by simp [helig]), if_neg (by simp [hnone]), hseq]
  dsimp only
  rw [if_neg (by simp [hfree])]
  refine ⟨_, rfl, ?_⟩
  have hgrps : (r.members.foldl (State.joins g.val) s).grps = s.grps := foldl_inv (P := fun t : State => t.grps = s.grps) (fun t c ht => ht) rfl
  have hgrp : (r.members.foldl (State.joins g.val) s).grp g.val = s.grp g.val := by
    rw [State.grp, hgrps]
    rfl
  have hgrp2 := State.updRun_self (r.members.foldl (State.joins g.val) s) g.val fun r => { r with seq := q }
  rw [hgrp, hrun] at hgrp2
  have hgrp3 := State.updGrp_self ((r.members.foldl (State.joins g.val) s).updRun g.val fun r => { r with seq := q }) g.val fun x => { x with state := 1 }
  rw [hgrp2] at hgrp3
  exact ⟨congrArg Grp.state hgrp3, congrArg Grp.run hgrp3, fun c hc => s.foldl_joins_group g.val hc⟩

/-- A member's core as the restore puts it back from its slot and what the save kept. -/
def State.putBack (g : Nat) (r : Run) (was back : Posn) (t : State) (e : Nat × Core) : State :=
  let b := t.readBack r.ctx e.1 e.2
  (b.1.setCore e.1 { b.2 with
    group := some g, lastCtx := some r.ctx, gid := t.gidWord g r.seq, utlb := (t.core e.1).utlb, skid := if was = back then e.2.skid else [], issued := t.now }).tieHeld
    (e.1 + 64 * (g + 1)) e.1

/-- What a restore leaves of the group's run before anything held for it arrives. -/
def Run.resumed (r : Run) (now : Nat) (was back : Posn) : Run :=
  { r with
    saved := [], heldMsgs := [], heldArr := [], redo := [], entries := [], sq := r.sq.restored was back
    insts := r.insts.map fun e => (e.1, { e.2 with since := e.2.since.map fun t => now - t }) }

/-- The state that a restore leaves before anything held for the group arrives. -/
def State.resumed (s : State) (g : Nat) (r : Run) : State :=
  let was := posnKept r
  let back := posnOf (s.slotWords r.ctx (r.members.headD 0) 0x54_55C0 7)
  ((r.saved.foldl (State.putBack g r was back) s).updRun g (Run.resumed · s.now was back)).updGrp g fun x =>
    { x with state := if s.faultsOut g r then 3 else 2 }

theorem State.readBack_grps (s : State) (x c : Nat) (k : Core) : (s.readBack x c k).1.grps = s.grps := by
  unfold State.readBack
  refine foldl_inv (P := fun a : State × Core => a.1.grps = s.grps) (fun a e ha => ha) ?_
  refine foldl_inv (P := fun a : State × Core => a.1.grps = s.grps) (fun a i ha => ?_) rfl
  dsimp only
  split
  · exact ha
  · exact ha

theorem State.putBack_grps (g : Nat) (r : Run) (was back : Posn) (t : State) (e : Nat × Core) :
    (State.putBack g r was back t e).grps = t.grps :=
  t.readBack_grps r.ctx e.1 e.2

theorem State.resumed_grp {s : State} {g : Nat} {r : Run} (hrun : (s.grp g).run = some r) :
    ((s.resumed g r).grp g).state = (if s.faultsOut g r = true then 3 else 2) ∧
    ∃ r1, ((s.resumed g r).grp g).run = some r1 ∧ r1.saved = [] ∧ r1.heldMsgs = [] ∧ r1.heldArr = [] ∧ r1.redo = [] := by
  unfold State.resumed
  extract_lets was back
  have hgrps : (r.saved.foldl (State.putBack g r was back) s).grps = s.grps :=
    foldl_inv (P := fun t : State => t.grps = s.grps) (fun t e ht => (State.putBack_grps g r was back t e).trans ht) rfl
  generalize r.saved.foldl (State.putBack g r was back) s = s1 at hgrps
  have hgrp : s1.grp g = s.grp g := by
    rw [State.grp, hgrps]
    rfl
  have hrun1 := State.updRun_self s1 g (Run.resumed · s.now was back)
  rw [hgrp, hrun] at hrun1
  rw [State.updGrp_self, hrun1]
  exact ⟨rfl, _, rfl, rfl, rfl, rfl, rfl⟩

/-- A restore that nothing holds back: what was held for the group arrives, then every member acts as FENCE.acq.system (05 R113). -/
theorem execRestoreComplete_of_settled {s : State} {g : Fin 1024} {r : Run} (hrun : (s.grp g.val).run = some r)
    (hst : (s.grp g.val).state = 1) (hsaved : r.saved ≠ []) (hw : ∀ c ∈ r.members, s.writesUnder (s.slotAt r.ctx c) slotSize = false) :
    execRestoreComplete g s =
      let counted := r.heldArr.foldl (fun (s : State) a => s.countPackage g.val a.1 a.2) (r.insts.foldl (fun (s : State) e => match e.2.since with
          | some t => s.sched (s.now - t + 2 ^ (r.decl (e.1 / 64)).wdog) (.watchdogExpiry (s.gid16 g.val) (e.1 % 64) (fin64 (e.1 / 64)))
          | none => s) (((r.heldMsgs.foldl (fun (s : State) i => s.soon i) (s.resumed g.val r)).redoAll r).pokeInbox))
      .next (((r.members.foldl (fun (s : State) c =>
        let s1 := (s.releaseHeld (c / 8)).dropAcked c
        ((s1.push c (8 * (s1.core c).lcyc) 0 (.fence .acq .system 0) [] [] none false).soon (.placement (fin64 c))).pump c) counted).soon
          .frontEndStart).shunFenced g.val) := by
  have hnone : (r.members.any fun c => s.writesUnder (s.slotAt r.ctx c) slotSize) = false := by
    rw [List.any_eq_false]
    intro c hc
    rw [hw c hc]
    exact Bool.false_ne_true
  have hheld : ¬ ((s.grp g.val).state ≠ 1 ∨ r.saved.isEmpty = true) := by
    rw [not_or, Classical.not_not, List.isEmpty_iff]
    exact ⟨hst, hsaved⟩
  unfold execRestoreComplete
  dsimp only
  rw [hrun]
  dsimp only
  rw [if_neg hheld, hnone, if_neg Bool.false_ne_true]
  unfold State.resumed
  rfl

/-- Settles O36: a park, a save and a restore follow the checks of their events in turn; a restore takes the group's cores and
sequencer, and lets arrive what was held once every write under its slots is applied. -/
theorem saveAndRestoreResults : Obligations.SaveAndRestoreResults := by
  unfold Obligations.SaveAndRestoreResults
  intro s g r hrun
  extract_lets x
  have hpark : exec (.park g) s =
      .next (if x.state = 3 ∧ r.saving = 0 ∧ 65536 ≤ r.timer then s.startSave g.val 1 else s) := by
    dsimp only [exec]
    unfold execPark
    dsimp only
    rw [hrun]
  refine ⟨?_, ?_, fun hst hsaving hsaved => execSaveComplete_of_saved hrun hst hsaving hsaved,
    fun q helig hf hseq hfree => execGroupRestore_of_room hrun helig hf hseq hfree, ?_, ?_, ?_⟩
  · intro hst hsaving htimer
    rw [hpark, if_pos ⟨hst, hsaving, htimer⟩]
  · intro htimer
    rw [hpark, if_neg fun h => absurd h.2.2 (Nat.not_le_of_lt htimer)]
  · rintro helig ⟨c, hc, hf⟩
    have hany : r.members.any s.fenced.contains = true := List.any_eq_true.mpr ⟨c, hc, List.contains_iff_mem.mpr hf⟩
    dsimp only [exec]
    unfold execGroupRestore
    rw [hrun]
    dsimp only
    rw [helig, if_neg (by decide), if_pos hany]
  · rintro hst hsaved ⟨c, hc, hw⟩
    have hany : (r.members.any fun c => s.writesUnder (s.slotAt r.ctx c) slotSize) = true := List.any_eq_true.mpr ⟨c, hc, hw⟩
    have hheld : ¬ (x.state ≠ 1 ∨ r.saved.isEmpty = true) := by
      rw [not_or, Classical.not_not, List.isEmpty_iff]
      exact ⟨hst, hsaved⟩
    dsimp only [exec]
    unfold execRestoreComplete
    dsimp only
    rw [hrun]
    dsimp only
    rw [if_neg hheld, if_pos hany]
  · intro hst hsaved hw
    obtain ⟨hstate, hresumed⟩ := State.resumed_grp hrun
    exact ⟨s.resumed g.val r, hstate, hresumed, execRestoreComplete_of_settled hrun hst hsaved hw⟩

end Sys2Proof.Machine
end

section
/-! SUPPORT. Barrier traffic (09 R149 to R156; 08 R147). -/

namespace Sys2Proof.Machine
open Sys2Proof.Bits

/-! ### The fate of a message -/

section
variable {s : State} {peer : Bool} {gid : BitVec 16}

theorem State.message_live {g : Nat} (h : s.fate peer gid = .live g) (i : Instr) (act : Nat → State → State) :
    s.message peer gid i act = act g s := by
  unfold State.message
  rw [h]

theorem State.message_held {g : Nat} (h : s.fate peer gid = .held g) (i : Instr) (act : Nat → State → State) :
    s.message peer gid i act = s.updRun g fun r => { r with heldMsgs := r.heldMsgs ++ [i] } := by
  unfold State.message
  rw [h]

theorem State.message_stale (h : s.fate peer gid = .stale) (i : Instr) (act : Nat → State → State) :
    s.message peer gid i act = s.countStale := by
  unfold State.message
  rw [h]

end

/-! ### An instance that is OPEN counts -/

section
variable {s : State} {g b n : Nat} {r : Run} (hrun : (s.grp g).run = some r) (hb : b < r.bars.length) (hopen : (r.bar b n).cond = 0)
include hrun hb hopen

theorem State.barCount_watched {cur : Bar → Bool} (hcur : cur (r.bar b n) = true) (f : Bar → Bar) :
    s.barCount g b n cur f = ((s.updBar g b n f).watch g b n).barTest g b n 8 := by
  unfold State.barCount
  rw [hrun]
  dsimp only
  rw [if_neg (not_or.mpr ⟨Nat.not_le_of_lt hb, Classical.not_not.mpr hopen⟩), hcur, if_pos rfl]

theorem State.barCount_unwatched {cur : Bar → Bool} (hcur : cur (r.bar b n) = false) (f : Bar → Bar) :
    s.barCount g b n cur f = (s.updBar g b n f).barTest g b n 8 := by
  unfold State.barCount
  rw [hrun]
  dsimp only
  rw [if_neg (not_or.mpr ⟨Nat.not_le_of_lt hb, Classical.not_not.mpr hopen⟩), hcur, if_neg Bool.false_ne_true]

/-- A count that is tagged for the phase the instance is in starts its watchdog. -/
theorem State.barCount_current {tag : Bool} (htag : (r.bar b n).phase = tag) (f : Bar → Bar) :
    s.barCount g b n (fun x => x.phase == tag) f = ((s.updBar g b n f).watch g b n).barTest g b n 8 :=
  State.barCount_watched hrun hb hopen (cur := fun x => x.phase == tag) (beq_iff_eq.mpr htag) f

/-- A count that is tagged for the next phase does not. -/
theorem State.barCount_ahead {tag : Bool} (htag : (r.bar b n).phase ≠ tag) (f : Bar → Bar) :
    s.barCount g b n (fun x => x.phase == tag) f = (s.updBar g b n f).barTest g b n 8 :=
  State.barCount_unwatched hrun hb hopen (cur := fun x => x.phase == tag) (beq_eq_false_iff_ne.mpr htag) f

end

/-- A landing counts bytes only at a barrier that takes them: of the package's own group, or of a spanning declaration. -/
theorem execBarrierLanding_of_live {s : State} {peer : Bool} {gid : BitVec 16} {g : Nat} {r : Run} (hrun : (s.grp g).run = some r)
    (hlive : s.fate peer gid = .live g) (core : Fin 64) (b : BReg) (hdom : peer = true → 2 ≤ (r.decl b.val).dom) (tag : Bool) (bytes : Nat) :
    execBarrierLanding peer gid core b tag bytes s = .next (s.barLand g b.val (r.instOf core.val b.val) tag bytes) := by
  have hown : ¬ (peer = true ∧ (r.decl b.val).dom ≤ 1) := fun ⟨hp, hd⟩ => by have := hdom hp; omega
  unfold execBarrierLanding
  rw [State.message_live hlive, hrun]
  dsimp only
  rw [if_neg hown]

theorem execPackageArrival_of_live {s : State} {gid : BitVec 16} {g : Nat} {r : Run} (hrun : (s.grp g).run = some r)
    (hlive : s.fate true gid = .live g) (b : BReg) (hdom : (r.decl b.val).dom = 3) (phase : Bool) (rank : Nat) :
    execPackageArrival gid b phase rank s = .next (s.barCount g b.val 0 (fun x => x.phase == phase) fun x =>
      if x.phase = phase then { x with parr := x.parr + 1 } else { x with parrN := x.parrN + 1 }) := by
  unfold execPackageArrival State.packageArrives
  rw [hlive]
  dsimp only
  unfold State.countPackage
  rw [hrun]
  dsimp only
  rw [if_pos hdom]

/-! ### A completion notice -/

/-- A core's P and A bits of a barrier as a completion notice leaves them (09 R151). -/
def Core.noticed (k : Core) (b : Nat) (phase : Prop) [Decidable phase] : Core :=
  { k with bP := (if phase then [b] else []) ++ k.bP.filter (· != b), bA := k.bA.filter (· != b) }

theorem Core.noticed_bits (k : Core) (b : Nat) (phase : Prop) [Decidable phase] :
    b ∉ (k.noticed b phase).bA ∧ (b ∈ (k.noticed b phase).bP ↔ phase) := by
  unfold Core.noticed
  split
  · simp_all
  · simp_all

theorem State.foldl_noticed (b : Nat) (phase : Prop) [Decidable phase] {l : List Nat} {m : Nat} (hm : m ∈ l) (s : State) :
    let t := l.foldl (fun (s : State) m => s.updCore m (Core.noticed · b phase)) s
    b ∉ (t.core m).bA ∧ (b ∈ (t.core m).bP ↔ phase) := by
  have hstep : ∀ (t : State) (d : Nat), ((b ∉ (t.core m).bA ∧ (b ∈ (t.core m).bP ↔ phase)) ∨ d = m) →
      b ∉ ((t.updCore d (Core.noticed · b phase)).core m).bA ∧ (b ∈ ((t.updCore d (Core.noticed · b phase)).core m).bP ↔ phase) := by
    intro t d h
    by_cases hd : d = m
    · subst hd
      rw [State.updCore_self]
      exact Core.noticed_bits _ b phase
    · rw [State.updCore_of_ne _ _ (Ne.symm hd)]
      exact h.resolve_right hd
  induction l generalizing s with
  | nil => exact absurd hm List.not_mem_nil
  | cons d l ih =>
    rw [List.foldl_cons]
    rcases List.mem_cons.mp hm with rfl | hl
    · exact foldl_inv (P := fun t : State => b ∉ (t.core m).bA ∧ (b ∈ (t.core m).bP ↔ phase)) (fun t e ht => hstep t e (.inl ht))
        (hstep s m (.inr rfl))
    · exact ih hl _

theorem execCompletionNotice_of_live {s : State} {gid : BitVec 16} {g : Nat} {r : Run} (hrun : (s.grp g).run = some r)
    (hlive : s.fate false gid = .live g) (n : Nat) (b : BReg) :
    execCompletionNotice gid n b s = .next ((r.instMembers b.val (n / 2)).foldl
      (fun (s : State) m => s.updCore m (Core.noticed · b.val (n % 2 = 1))) (s.barMerge r b.val)) := by
  unfold execCompletionNotice
  rw [State.message_live hlive, hrun]
  rfl

/-! ### O38 -/

theorem barrierTraffic_live (s : State) (g : Nat) (r : Run) (gid : BitVec 16) (core : Fin 64) (b : BReg) (tag : Bool) (n : Nat)
    (hrun : (s.grp g).run = some r) (hb : b.val < r.bars.length) (hlive : s.fate false gid = .live g)
    (hopen : (r.bar b.val (r.instOf core.val b.val)).cond = 0) :
    let inst := r.instOf core.val b.val
    execBarrierArrival gid core b tag s = .next (s.barCount g b.val inst (fun x => x.phase == tag) fun x =>
      if x.phase = tag then { x with arr := x.arr + 1 } else { x with arrN := x.arrN + 1 }) ∧
    ((r.bar b.val inst).land ≤ n → execBdclArrival gid core b n s =
      .next ((s.updBar g b.val inst fun x => { x with decl := n }).barTest g b.val inst 8)) ∧
    (n < (r.bar b.val inst).land → execBdclArrival gid core b n s = .next (s.overrun g b.val inst)) := by
  intro inst
  refine ⟨?_, fun hn => ?_, fun hn => ?_⟩
  · unfold execBarrierArrival
    rw [State.message_live hlive, hrun]
  · unfold execBdclArrival
    rw [State.message_live hlive, hrun]
    dsimp only
    rw [if_neg fun h => absurd h.2 (Nat.not_lt_of_le hn), State.barCount_unwatched hrun hb hopen rfl]
  · unfold execBdclArrival
    rw [State.message_live hlive, hrun]
    dsimp only
    rw [if_pos ⟨hopen, hn⟩]

/-- Settles O38: a message counts at its open instance by `State.barCount`, and goes to its group's fate first. -/
theorem barrierResults : Obligations.BarrierResults := by
  unfold Obligations.BarrierResults
  refine ⟨?_, ?_⟩
  · intro s g r gid core b tag peer n bytes rank hrun hb inst open_ count
    refine ⟨fun hlive hopen => ?_, fun hlive hopen hdom htag => ?_, fun hlive hopen hdom htag => ?_, fun hlive => ?_, ?_,
      fun hlive hdom hopen => ?_⟩
    · dsimp only [exec]
      obtain ⟨harr, hle, hlt⟩ := barrierTraffic_live s g r gid core b tag n hrun hb hlive hopen
      refine ⟨fun htag => ?_, fun htag => ?_, hle, hlt⟩
      · exact harr.trans (congrArg Host.Outcome.next (State.barCount_current hrun hb hopen htag _))
      · exact harr.trans (congrArg Host.Outcome.next (State.barCount_ahead hrun hb hopen htag _))
    · dsimp only [exec]
      exact (execBarrierLanding_of_live hrun hlive core b hdom tag bytes).trans
        (congrArg Host.Outcome.next (State.barCount_ahead hrun hb hopen htag _))
    · dsimp only [exec]
      exact (execBarrierLanding_of_live hrun hlive core b hdom tag bytes).trans
        (congrArg Host.Outcome.next (State.barCount_current hrun hb hopen htag _))
    · dsimp only [exec]
      exact ⟨_, execCompletionNotice_of_live hrun hlive n b, fun m hm => State.foldl_noticed b.val (n % 2 = 1) hm _⟩
    · intro since hgid hsince hdue hwdog hopen hstate
      have hcond : (decide (since + 2 ^ (r.decl b.val).wdog ≤ s.now) && (r.decl b.val).wdog != 0 && (r.bar b.val n).cond == 0 &&
          ((s.grp g).state == 2 || (s.grp g).state == 3)) = true := by
        rw [Bool.and_eq_true, Bool.and_eq_true, Bool.and_eq_true, Bool.or_eq_true]
        exact ⟨⟨⟨decide_eq_true hdue, bne_iff_ne.mpr hwdog⟩, beq_iff_eq.mpr hopen⟩, hstate.imp beq_iff_eq.mpr beq_iff_eq.mpr⟩
      dsimp only [exec]
      unfold execWatchdogExpiry
      rw [hgid]
      dsimp only
      rw [hrun]
      dsimp only
      rw [hsince]
      dsimp only
      rw [if_pos hcond]
    · intro counted
      dsimp only [exec]
      refine ⟨fun htag => ?_, fun htag => ?_⟩
      · exact (execPackageArrival_of_live hrun hlive b hdom tag rank).trans
          (congrArg Host.Outcome.next (State.barCount_ahead hrun hb hopen htag _))
      · exact (execPackageArrival_of_live hrun hlive b hdom tag rank).trans
          (congrArg Host.Outcome.next (State.barCount_current hrun hb hopen htag _))
  · intro s g gid core b tag peer n held stale
    have hstale : s.countStale = stale := rfl
    refine ⟨fun h => ?_, fun h => ?_, fun h => ?_, fun h => ?_, fun h => ?_, fun h => ?_⟩
    · dsimp only [exec]
      exact congrArg Host.Outcome.next (State.message_stale h _ _)
    · dsimp only [exec]
      exact ⟨congrArg Host.Outcome.next (State.message_stale h _ _), congrArg Host.Outcome.next (State.message_stale h _ _),
        congrArg Host.Outcome.next (State.message_stale h _ _)⟩
    · dsimp only [exec]
      unfold execPackageArrival State.packageArrives
      rw [h]
      rfl
    · dsimp only [exec]
      unfold execPackageArrival State.packageArrives
      rw [h]
    · dsimp only [exec]
      exact congrArg Host.Outcome.next (State.message_held h _ _)
    · dsimp only [exec]
      exact ⟨congrArg Host.Outcome.next (State.message_held h _ _), congrArg Host.Outcome.next (State.message_held h _ _),
        congrArg Host.Outcome.next (State.message_held h _ _)⟩

end Sys2Proof.Machine
end

section
/-! SUPPORT. Semaphores, remote flags and the tile dispenser (16 R272 to R275; 07 R135). -/

namespace Sys2Proof.Machine
open Sys2Proof.Bits

/-! ### The semaphore file -/

theorem State.semOf_device {s : State} {c n : Nat} (hn : n < 65536) : (s.semOf c n).1 = s.devSem n := by
  unfold State.semOf
  rw [if_pos hn]

/-- An operation of the first five kinds on a device semaphore sets it and answers 24 cycles on. -/
theorem execSemaphoreOperation_device {s : State} {core : Fin 64} {id : Nat} {o : MemOp} {op n t : Nat} {a : Nat} {v cmp : Word}
    (ho : (s.core core.val).op id = some o) (hk : o.kind = .req (.sem op a n v cmp) t) (hop : op < 5) (hn : n < 65536) :
    execSemaphoreOperation core id s = .next ((((((s.setDevSem n (semNew op (s.devSem n) v cmp) (s.stampOf (core.val / 8))).mergeVec core.val
      (s.semOf core.val n).2).stash core.val id (s.devSem n)).updCore core.val fun k => k.dropOp id).replyAfter core.val 24 id).ended
        core.val |>.pump core.val) := by
  unfold execSemaphoreOperation
  dsimp only
  rw [ho]
  dsimp only
  rw [hk]
  dsimp only
  rw [if_neg (Nat.ne_of_lt hop), if_pos hn, if_pos hn, State.semOf_device hn]

theorem execSemaphoreOperation_read {s : State} {core : Fin 64} {id : Nat} {o : MemOp} {n t : Nat} {a : Nat} {v cmp : Word}
    (ho : (s.core core.val).op id = some o) (hk : o.kind = .req (.sem 5 a n v cmp) t) :
    execSemaphoreOperation core id s = .next (((((s.mergeVec core.val (s.semOf core.val n).2).stash core.val id
      (s.semOf core.val n).1).updCore core.val fun k => k.dropOp id).replyAfter core.val (if n < 65536 then 24 else 8) id).ended
        core.val |>.pump core.val) := by
  unfold execSemaphoreOperation
  dsimp only
  rw [ho]
  dsimp only
  rw [hk]
  dsimp only
  rw [if_pos rfl]

/-! ### A remote flag -/

theorem flag_getLsbD (w : BitVec 32) (f j : Nat) (val : Bool) (hj : j < 32) :
    (if val then w ||| BitVec.ofNat 32 (2 ^ f) else w &&& ~~~BitVec.ofNat 32 (2 ^ f)).getLsbD j =
      if j = f then val else w.getLsbD j := by
  have hbit : (BitVec.ofNat 32 (2 ^ f)).getLsbD j = decide (f = j) := by
    rw [BitVec.getLsbD_ofNat, Nat.testBit_two_pow, decide_eq_true hj, Bool.true_and]
  cases val
  · rw [if_neg Bool.false_ne_true, BitVec.getLsbD_and, BitVec.getLsbD_not, hbit, decide_eq_true hj]
    by_cases h : j = f
    · simp [h]
    · simp [h, Ne.symm h]
  · rw [if_pos rfl, BitVec.getLsbD_or, hbit]
    by_cases h : j = f
    · simp [h]
    · simp [h, Ne.symm h]

theorem execRemoteFlagChange_of_live {s : State} {gid : BitVec 16} {g rank m : Nat} {r : Run} (hlive : s.fate false gid = .live g)
    (hrun : (s.grp g).run = some r) (hm : r.members[rank]? = some m) (hexit : (s.core m).exited = false) (core : Fin 64) (f : Fin 32)
    (val : Bool) (epoch : Nat) (acq : List Nat) :
    execRemoteFlagChange gid core rank f val epoch acq s =
      .next ((s.updCore m fun k => k.apply (.flag f.val val)).merge (m / 8) ⟨core.val / 8, epoch, acq⟩) := by
  unfold execRemoteFlagChange
  rw [State.message_live hlive, hrun]
  dsimp only [Option.bind]
  rw [hm]
  dsimp only
  rw [hexit, if_neg Bool.false_ne_true]

/-! ### The dispenser -/

theorem State.grantTile_of_run {s : State} {g c id : Nat} {r : Run} (hpend : (s.core c).pend.any (·.id == id) = true)
    (hrun : (s.grp g).run = some r) :
    s.grantTile g c id =
      if r.tiles < r.grid.1 * r.grid.2.1 * r.grid.2.2 then (s.updRun g fun q => { q with tiles := r.tiles + 1 }).deliver c id fun _ =>
        .ntile (BitVec.ofNat 64 (r.tiles / (r.grid.1 * r.grid.2.1) * 2 ^ 32 + r.tiles / r.grid.1 % r.grid.2.1 * 2 ^ 16 + r.tiles % r.grid.1)) true
      else s.deliver c id fun _ => .ntile (-1) false := by
  unfold State.grantTile
  rw [hpend, if_neg (by decide), hrun]
  rfl

/-- Settles O39: each event goes by its case lemma; a flag changes only the bit it names. -/
theorem semaphoreFlagAndTileResults : Obligations.SemaphoreFlagAndTileResults := by
  unfold Obligations.SemaphoreFlagAndTileResults
  intro s core c new
  have hnew : ∀ op old v cmp, op < 5 → semNew op old v cmp = new op old v cmp := by
    intro op old v cmp hop
    match op, hop with
    | 0, _ => rfl
    | 1, _ => rfl
    | 2, _ => rfl
    | 3, _ => rfl
    | 4, _ => rfl
  refine ⟨?_, ?_, ?_, ?_, ?_, ?_, ?_⟩
  · intro id o op a n v cmp t ho hk hop hn
    rw [← hnew op _ v cmp hop]
    exact execSemaphoreOperation_device ho hk hop hn
  · intro id o a n v cmp t ho hk
    exact execSemaphoreOperation_read ho hk
  · intro w hw hle
    dsimp only [exec]
    unfold execSemaphoreTest
    dsimp only
    rw [hw]
    exact if_pos hle
  · intro w hw hlt
    dsimp only [exec]
    unfold execSemaphoreTest
    dsimp only
    rw [hw]
    exact if_neg (Int.not_le.mpr hlt)
  · intro gid g r rank m f val epoch acq hlive hrun hm hexit
    refine ⟨_, execRemoteFlagChange_of_live hlive hrun hm hexit core f val epoch acq, ?_⟩
    have hcore : ((s.updCore m fun k => k.apply (.flag f.val val)).merge (m / 8) ⟨core.val / 8, epoch, acq⟩).core m =
        (s.core m).apply (.flag f.val val) :=
      State.updCore_self s m fun k => k.apply (.flag f.val val)
    rw [hcore]
    exact ⟨fun j hj => flag_getLsbD _ f.val j val hj, rfl, rfl, rfl⟩
  · intro gid id g r hlive hpend hrun gx gy
    have hgrant : execDispenserGrant core ⟨gid, id⟩ s = .next (s.grantTile g c id) :=
      congrArg Host.Outcome.next (State.message_live hlive _ _)
    rw [State.grantTile_of_run hpend hrun] at hgrant
    refine ⟨fun hlt => ?_, fun hle => ?_⟩
    · rw [if_pos hlt] at hgrant
      exact hgrant
    · rw [if_neg (Nat.not_lt_of_le hle)] at hgrant
      exact hgrant
  · intro gid id hstale
    exact congrArg Host.Outcome.next (State.message_stale hstale _ _)

end Sys2Proof.Machine
end

section
/-! SUPPORT. Loads at the homes of their lines (04 R79 to R86; 22 R387 to R391). -/

namespace Sys2Proof.Machine
open Sys2Proof.Bits

theorem fin64_val (c : Fin 64) : fin64 c.val = c := Fin.ext (Nat.mod_eq_of_lt c.isLt)

/-! ### Lines of one core's loads -/

theorem LineAcc.isDone_of_onWay {l : LineAcc} (h : l.onWay = true) : l.isDone = false := by
  unfold LineAcc.onWay at h
  unfold LineAcc.isDone
  cases hst : l.st <;> simp_all

/-- The lines before `l` of its core's loads: of earlier plain loads, not done, of its line. -/
theorem Core.mem_linesBefore {k : Core} {o : MemOp} {l m : LineAcc} :
    m ∈ k.linesBefore o l ↔ ∃ p ∈ k.memq, p.isPlainLoad = true ∧ p.pos < o.pos ∧ m ∈ p.lines ∧ m.isDone = false ∧
      (m.key = l.key ∨ lineOf m.va = lineOf l.va) := by
  unfold Core.linesBefore
  rw [List.mem_flatMap]
  refine exists_congr fun p => and_congr_right fun _ => ?_
  by_cases hp : p.isPlainLoad = true ∧ p.pos < o.pos
  · simp [hp.1, hp.2]
  · have hc : (p.isPlainLoad && decide (p.pos < o.pos)) = false := by
      rw [Bool.and_eq_false_iff, decide_eq_false_iff_not, ← Bool.not_eq_true]
      exact Classical.not_and_iff_not_or_not.mp hp
    rw [hc, if_neg Bool.false_ne_true]
    exact ⟨fun h => absurd h List.not_mem_nil, fun ⟨h1, h2, _⟩ => absurd ⟨h1, h2⟩ hp⟩

theorem Core.linesBefore_eq_nil {k : Core} {o : MemOp} {l : LineAcc}
    (h : ∀ p ∈ k.memq, p.isPlainLoad = true → p.pos < o.pos → ∀ m ∈ p.lines, m.isDone = true ∨ (m.key ≠ l.key ∧ lineOf m.va ≠ lineOf l.va)) :
    k.linesBefore o l = [] := by
  rw [List.eq_nil_iff_forall_not_mem]
  intro m hm
  obtain ⟨p, hp, hplain, hpos, hmem, hdone, hline⟩ := Core.mem_linesBefore.mp hm
  rcases h p hp hplain hpos m hmem with hd | ⟨hk, hv⟩
  · rw [hdone] at hd
    exact Bool.false_ne_true hd
  · exact hline.elim hk hv

/-! ### A line that is on its way -/

/-- What a line gives where it is read: at its home for a WAITA, else at the source that serves it. -/
def State.lineGot (s : State) (c : Nat) (o : MemOp) (l : LineAcc) : Option (List Byte × State) := match o.kind with
  | .waita _ _ _ => s.serveHome c l.key l.home l.acq
  | _ => s.serve c o.pos l.key l.home l.pte l.acq o.nl1 l.l1

/-- What follows when the line that a request reads has its turn and is there. -/
def State.lineRead (s : State) (c : Nat) (o : MemOp) (l : LineAcc) (id line : Nat) (ev : Instr) (bs : List Byte) (s1 : State) : State :=
  let s2 := s.backAt c id line o l (s.askMissed ev) ((s1.bankTake c l.key).askDone ev (s.request ev))
  match o.kind with
  | .waita cond v off => s2.compareArm c id line o l cond v off bs
  | _ => ((s2.pinDrop l.lock).lineDone c id line (s.heldOver c o.pos l.key bs)).afterLine c id

section
variable {s : State} {core : Fin 64} {id line : Nat} {o : MemOp} {l : LineAcc}
  (ho : (s.core core.val).op id = some o) (hl : o.lines[line]? = some l) (hst : l.st = .flight)
include ho hl hst

/-- A line on its way goes behind the earlier loads of its line, then to what serves it. -/
theorem State.performLine_of_flight :
    s.performLine core.val id line =
      let ev : Instr := .loadPerformed core id line
      let before := (s.core core.val).linesBefore o l
      let looks := ((s.request ev).any fun q => decide (q.1 < 64)) && !s.l2Hit l.key
      if before.any (·.onWay) then (if s.askBehind core.val id line o l then s.askAgain ev else (s.askDone ev none).after 1 ev)
      else if !before.isEmpty then (s.askDone ev none).restart core.val id line l
      else if l.l1 && !(s.core core.val).l1.any (fun e => decide (e.1 = l.key)) then
        ((s.askDone ev none).restart core.val id line l).pump core.val
      else if s.bankBusy core.val l.key then s.after 1 ev
      else match s.lineGot core.val o l with
        | none => (s.askDone ev none).waitAt core.val id line l
        | some (bs, s1) =>
          if !s.hasTurn ev then s.askAgain ev
          else if looks then s.askMiss ev (s.request ev) l.home
          else s.lineRead core.val o l id line ev bs s1 := by
  have hnot : (l.st != .flight) = false := by simp [hst]
  unfold State.performLine
  rw [fin64_val, ho]
  dsimp only
  rw [hl]
  dsimp only
  rw [hnot, if_neg Bool.false_ne_true]
  rfl

/-- Behind an earlier load of its line that is on its way, a line asks again, at its point if the other waits there. -/
theorem State.performLine_behind {m : LineAcc} (hm : m ∈ (s.core core.val).linesBefore o l) (hway : m.onWay = true) :
    s.performLine core.val id line = if s.askBehind core.val id line o l then s.askAgain (.loadPerformed core id line)
      else (s.askDone (.loadPerformed core id line) none).after 1 (.loadPerformed core id line) := by
  rw [State.performLine_of_flight ho hl hst]
  dsimp only
  rw [if_pos (List.any_eq_true.mpr ⟨m, hm, hway⟩)]

/-- Behind an earlier load of its line that has not left, a line leaves again. -/
theorem State.performLine_restart (hno : ∀ m ∈ (s.core core.val).linesBefore o l, m.onWay = false) {m : LineAcc}
    (hm : m ∈ (s.core core.val).linesBefore o l) :
    s.performLine core.val id line = (s.askDone (.loadPerformed core id line) none).restart core.val id line l := by
  have hempty : ((s.core core.val).linesBefore o l).isEmpty = false := by
    rw [List.isEmpty_eq_false_iff]
    exact List.ne_nil_of_mem hm
  have hany : ((s.core core.val).linesBefore o l).any (·.onWay) = false := List.any_eq_false.mpr fun m hm => by simp [hno m hm]
  rw [State.performLine_of_flight ho hl hst]
  dsimp only
  rw [hany, if_neg Bool.false_ne_true, hempty]
  rfl

variable (hfirst : (s.core core.val).linesBefore o l = [])
include hfirst

/-- A line that the L1 was to serve and has lost leaves again. -/
theorem State.performLine_lost (hl1 : l.l1 = true) (hgone : ∀ e ∈ (s.core core.val).l1, e.1 ≠ l.key) :
    s.performLine core.val id line = ((s.askDone (.loadPerformed core id line) none).restart core.val id line l).pump core.val := by
  have hany : (s.core core.val).l1.any (fun e => decide (e.1 = l.key)) = false := List.any_eq_false.mpr fun e he => by simp [hgone e he]
  rw [State.performLine_of_flight ho hl hst]
  dsimp only
  rw [hfirst, hl1, hany]
  rfl

variable (hheld : l.l1 = false ∨ (s.core core.val).l1.any (fun e => decide (e.1 = l.key)) = true)
include hheld

theorem State.performLine_first :
    s.performLine core.val id line =
      let ev : Instr := .loadPerformed core id line
      if s.bankBusy core.val l.key then s.after 1 ev
      else match s.lineGot core.val o l with
        | none => (s.askDone ev none).waitAt core.val id line l
        | some (bs, s1) =>
          if !s.hasTurn ev then s.askAgain ev
          else if ((s.request ev).any fun q => decide (q.1 < 64)) && !s.l2Hit l.key then s.askMiss ev (s.request ev) l.home
          else s.lineRead core.val o l id line ev bs s1 := by
  have hkept : (l.l1 && !(s.core core.val).l1.any (fun e => decide (e.1 = l.key))) = false := by
    rcases hheld with h | h
    · rw [h, Bool.false_and]
    · rw [h, Bool.not_true, Bool.and_false]
  rw [State.performLine_of_flight ho hl hst]
  dsimp only
  rw [hfirst, hkept]
  rfl

theorem State.performLine_bankBusy (hbusy : s.bankBusy core.val l.key = true) :
    s.performLine core.val id line = s.after 1 (.loadPerformed core id line) := by
  rw [State.performLine_first ho hl hst hfirst hheld]
  dsimp only
  rw [if_pos hbusy]

variable (hbank : s.bankBusy core.val l.key = false)
include hbank

theorem State.performLine_waits (hgot : s.lineGot core.val o l = none) :
    s.performLine core.val id line = (s.askDone (.loadPerformed core id line) none).waitAt core.val id line l := by
  rw [State.performLine_first ho hl hst hfirst hheld]
  dsimp only
  rw [hbank, if_neg Bool.false_ne_true, hgot]

theorem State.performLine_got {bs : List Byte} {s1 : State} (hgot : s.lineGot core.val o l = some (bs, s1)) :
    s.performLine core.val id line =
      let ev : Instr := .loadPerformed core id line
      if !s.hasTurn ev then s.askAgain ev
      else if ((s.request ev).any fun q => decide (q.1 < 64)) && !s.l2Hit l.key then s.askMiss ev (s.request ev) l.home
      else s.lineRead core.val o l id line ev bs s1 := by
  rw [State.performLine_first ho hl hst hfirst hheld]
  dsimp only
  rw [hbank, if_neg Bool.false_ne_true, hgot]

theorem State.performLine_noTurn {p : List Byte × State} (hgot : s.lineGot core.val o l = some p)
    (hturn : s.hasTurn (.loadPerformed core id line) = false) :
    s.performLine core.val id line = s.askAgain (.loadPerformed core id line) := by
  rw [State.performLine_got ho hl hst hfirst hheld hbank hgot]
  dsimp only
  rw [hturn]
  rfl

theorem State.performLine_misses {p : List Byte × State} {q : Nat × Nat × Nat} (hgot : s.lineGot core.val o l = some p)
    (hturn : s.hasTurn (.loadPerformed core id line) = true) (hreq : s.request (.loadPerformed core id line) = some q) (hq : q.1 < 64)
    (hhit : s.l2Hit l.key = false) :
    s.performLine core.val id line = s.askMiss (.loadPerformed core id line) (some q) l.home := by
  rw [State.performLine_got ho hl hst hfirst hheld hbank hgot]
  dsimp only
  rw [hturn, hreq, hhit, Option.any_some, decide_eq_true hq]
  rfl

theorem State.performLine_reads {bs : List Byte} {s1 : State} (hgot : s.lineGot core.val o l = some (bs, s1))
    (hturn : s.hasTurn (.loadPerformed core id line) = true)
    (hfound : (s.request (.loadPerformed core id line)).any (fun q => decide (q.1 < 64)) = false ∨ s.l2Hit l.key = true) :
    s.performLine core.val id line = s.lineRead core.val o l id line (.loadPerformed core id line) bs s1 := by
  have hlooks : (((s.request (.loadPerformed core id line)).any fun q => decide (q.1 < 64)) && !s.l2Hit l.key) = false := by
    rcases hfound with h | h
    · rw [h, Bool.false_and]
    · rw [h, Bool.not_true, Bool.and_false]
  rw [State.performLine_got ho hl hst hfirst hheld hbank hgot]
  dsimp only
  rw [hturn, hlooks]
  rfl

end

/-! ### Kinds of loads -/

theorem State.lineGot_waita {s : State} {c : Nat} {o : MemOp} {l : LineAcc} {cond : WaitCond} {v : Word} {off : Nat}
    (hk : o.kind = .waita cond v off) : s.lineGot c o l = s.serveHome c l.key l.home l.acq := by
  unfold State.lineGot
  rw [hk]

/-- The plain loads. -/
theorem MemOp.isPlainLoad_cases {o : MemOp} (h : o.isPlainLoad = true) :
    (∃ t fill keep e, o.kind = .load t fill keep e) ∨ (∃ x off, o.kind = .tldw x off) ∨ ∃ c off, o.kind = .chcfg c off := by
  unfold MemOp.isPlainLoad at h
  split at h
  next t fill keep e hk => exact .inl ⟨t, fill, keep, e, hk⟩
  next x off hk => exact .inr (.inl ⟨x, off, hk⟩)
  next c off hk => exact .inr (.inr ⟨c, off, hk⟩)
  next => exact absurd h Bool.false_ne_true

theorem State.lineGot_plain {s : State} {c : Nat} {o : MemOp} {l : LineAcc} (hk : o.isPlainLoad = true) :
    s.lineGot c o l = s.serve c o.pos l.key l.home l.pte l.acq o.nl1 l.l1 := by
  unfold State.lineGot
  rcases MemOp.isPlainLoad_cases hk with ⟨_, _, _, _, h⟩ | ⟨_, _, h⟩ | ⟨_, _, h⟩
  all_goals rw [h]

theorem State.lineRead_waita {s : State} {c : Nat} {o : MemOp} {l : LineAcc} {cond : WaitCond} {v : Word} {off : Nat}
    (hk : o.kind = .waita cond v off) (id line : Nat) (ev : Instr) (bs : List Byte) (s1 : State) :
    s.lineRead c o l id line ev bs s1 = (s.backAt c id line o l (s.askMissed ev) ((s1.bankTake c l.key).askDone ev (s.request ev))).compareArm
      c id line o l cond v off bs := by
  unfold State.lineRead
  dsimp only
  rw [hk]

theorem State.lineRead_plain {s : State} {c : Nat} {o : MemOp} {l : LineAcc} (hk : o.isPlainLoad = true) (id line : Nat) (ev : Instr)
    (bs : List Byte) (s1 : State) :
    s.lineRead c o l id line ev bs s1 =
      (((s.backAt c id line o l (s.askMissed ev) ((s1.bankTake c l.key).askDone ev (s.request ev))).pinDrop l.lock).lineDone c id line
        (s.heldOver c o.pos l.key bs)).afterLine c id := by
  unfold State.lineRead
  dsimp only
  rcases MemOp.isPlainLoad_cases hk with ⟨_, _, _, _, h⟩ | ⟨_, _, h⟩ | ⟨_, _, h⟩
  all_goals rw [h]

theorem State.askDone_agents (s : State) (ev : Instr) (r : Option (Nat × Nat × Nat)) : (s.askDone ev r).agents = s.agents := by
  unfold State.askDone
  extract_lets p s1
  split
  · unfold State.dueAt
    split
    · rfl
    · rfl
  · rfl

theorem State.waitAt_new {s : State} {c id n : Nat} {l : LineAcc} (h : (c, id, n, l.acq) ∉ (s.agent l.home).loads) :
    s.waitAt c id n l = s.updAgent l.home fun a => { a with loads := a.loads ++ [(c, id, n, l.acq)] } := by
  have hno : (s.agent l.home).loads.contains (c, id, n, l.acq) = false := by
    rw [← Bool.not_eq_true, List.contains_iff_mem]
    exact h
  unfold State.waitAt State.updAgent
  dsimp only
  rw [hno]
  rfl

/-! ### Landings -/

section
variable {s : State} {core : Fin 64} {id : Nat} {o : MemOp} (ho : (s.core core.val).op id = some o) (hset : o.settled = true)
include ho hset

theorem execLoadLanding_load {t : Nat} {fill : List Byte} {keep : List (Nat × Byte)} {e : Option Enf}
    (hun : o.unperformed = false) (hk : o.kind = .load t fill keep e) :
    execLoadLanding core id s = if (s.core core.val).pend.any (fun p => p.w == .land id) then .next (s.updCore core.val fun k => { k with
        pend := updWhere (fun (p : Pend) => p.w == .land id) (fun p => { p with arrived := true }) k.pend })
      else .next ((((s.updCore core.val fun k => k.landOp id).noteLanded core.val (s.core core.val).lines).accSettle core.val 0).pump core.val) := by
  unfold execLoadLanding
  dsimp only
  rw [ho]
  dsimp only
  rw [hset, hk, hun]
  rfl

theorem execLoadLanding_tldw {x off : Nat} {l : LineAcc} (hk : o.kind = .tldw x off) (hl : o.lines = [l]) (hdone : l.isDone = true) :
    execLoadLanding core id s =
      .next (((s.deliver core.val id fun _ => .x x (leWord (slice l.data off 8))).updCore core.val fun k => k.dropOp id).ended core.val) := by
  unfold execLoadLanding
  dsimp only
  rw [ho]
  dsimp only
  rw [hset, hk, hl]
  exact if_pos hdone

theorem execLoadLanding_chcfg {n off : Nat} (hun : o.unperformed = false) (hk : o.kind = .chcfg n off) :
    execLoadLanding core id s = .next (s.soon (.chcfgEntryArrival core (fin64 n))) := by
  unfold execLoadLanding
  dsimp only
  rw [ho]
  dsimp only
  rw [hset, hk, hun]
  rfl

theorem execLoadLanding_waita {cond : WaitCond} {v : Word} {off : Nat} (hun : o.unperformed = false) (hk : o.kind = .waita cond v off) :
    execLoadLanding core id s = .next ((s.updCore core.val fun k => k.dropOp id).ended core.val) := by
  unfold execLoadLanding
  dsimp only
  rw [ho]
  dsimp only
  rw [hset, hk, hun]
  rfl

end

/-! ### Monitors -/

/-- The monitor tables without those of operation `id` of core `c`. -/
def State.disarm (s : State) (c id : Nat) : State :=
  (List.range 8).foldl (fun (s : State) d => s.updDie d fun x => { x with mons := x.mons.filter fun m => !(m.core == c && m.id == id) })
    (s.updRidge fun r => { r with mons := r.mons.filter fun m => !(m.core == c && m.id == id) })

theorem State.disarm_mem (s : State) (c id : Nat) : (s.disarm c id).mem = s.mem :=
  foldl_inv (P := fun t : State => t.mem = s.mem) (fun _ _ ht => ht) rfl

/-- An armed monitor wakes its WAITA: the word at the home of the line is compared again (09 R159). -/
theorem execMonitorWake_of_armed {s : State} {core : Fin 64} {o : MemOp} {l : LineAcc} {cond : WaitCond} {v : Word} {off : Nat}
    (ho : (s.core core.val).waitaOp = some o) (hl : o.lines.head? = some l) (hk : o.kind = .waita cond v off)
    (harmed : ⟨l.key, core.val, o.id⟩ ∈ s.ridge.mons ∨ ∃ d, d < 8 ∧ ⟨l.key, core.val, o.id⟩ ∈ (s.die d).mons) :
    execMonitorWake core s =
      let t := s.disarm core.val o.id
      if waitHolds cond (leWord (slice (t.mem.read l.key 128) off 8)) v then
        .next (((((t.mergeLine (core.val / 8) l.key).pinDrop l.lock).updCore core.val fun k =>
          { (k.updOp o.id fun o => { o with ready := s.now + legs l.home (core.val / 8) }) with l1 := k.l1.filter fun e => e.1 != l.key }).lineDone
          core.val o.id 0 (t.mem.read l.key 128)).afterLine core.val o.id)
      else .next (t.after (legs l.home (core.val / 8) + max 1 (legs (core.val / 8) l.home)) (.loadPerformed core o.id 0)) := by
  have hmine : ∀ ms : List Mon, ⟨l.key, core.val, o.id⟩ ∈ ms → ms.any (fun m => m.core == core.val && m.id == o.id) = true :=
    fun ms hm => List.any_eq_true.mpr ⟨_, hm, by simp⟩
  have hany : (s.ridge.mons.any (fun m => m.core == core.val && m.id == o.id) ||
      (List.range 8).any fun d => (s.die d).mons.any (fun m => m.core == core.val && m.id == o.id)) = true := by
    rw [Bool.or_eq_true]
    rcases harmed with hm | ⟨d, hd, hm⟩
    · exact .inl (hmine _ hm)
    · exact .inr (List.any_eq_true.mpr ⟨d, List.mem_range.mpr hd, hmine _ hm⟩)
  unfold execMonitorWake
  dsimp only
  rw [ho]
  dsimp only
  rw [hany, hk, hl]
  rfl

theorem execMonitorReread_of_unarmed {s : State} {core : Fin 64} {o : MemOp} (ho : (s.core core.val).waitaOp = some o)
    (hridge : ∀ m ∈ s.ridge.mons, m.core ≠ core.val) (hdie : ∀ d, d < 8 → ∀ m ∈ (s.die d).mons, m.core ≠ core.val) :
    execMonitorReread core s = .next (s.performLine core.val o.id 0) := by
  have hnone : ∀ ms : List Mon, (∀ m ∈ ms, m.core ≠ core.val) → ms.any (fun m => m.core == core.val && m.id == o.id) = false :=
    fun ms hms => List.any_eq_false.mpr fun m hm => by simp [hms m hm]
  have hall : ((List.range 8).any fun d => (s.die d).mons.any (fun m => m.core == core.val && m.id == o.id)) = false :=
    List.any_eq_false.mpr fun d hd => by simp [hnone _ (hdie d (List.mem_range.mp hd))]
  unfold execMonitorReread
  rw [ho]
  dsimp only
  rw [hnone _ hridge, hall]
  rfl

/-! ### O41 -/

/-- Settles O41: a line that is on its way goes through the tests of `State.performLine` in turn; landings and monitors by their kind. -/
theorem loadAndMonitorResults : Obligations.LoadAndMonitorResults := by
  unfold Obligations.LoadAndMonitorResults
  intro s core id line o l ho c next held first ev r found back got waiting arrived monitored unarmed word
  have hev : exec ev s = .next (s.performLine core.val id line) := rfl
  have hland : exec (.loadLanding core id) s = execLoadLanding core id s := rfl
  have hwake : exec (.monitorWake core) s = execMonitorWake core s := rfl
  have hread : exec (.monitorReread core) s = execMonitorReread core s := rfl
  have hgot : got = s.lineGot c o l := rfl
  rw [hev, hland, hwake, hread]
  refine ⟨?_, ?_, ?_, ?_, ?_, ?_, ?_, ?_, ?_, ?_, ?_, ?_, ?_, ?_, ?_, ?_, ?_⟩
  · rintro bs s1 ⟨⟨hl, hst, hbefore⟩, hheld, hbank⟩ hturn hfound hserve hplain
    refine congrArg Host.Outcome.next ((State.performLine_reads ho hl hst (Core.linesBefore_eq_nil hbefore) hheld hbank
      ((State.lineGot_plain hplain).trans hserve) hturn hfound).trans ?_)
    exact State.lineRead_plain hplain id line ev bs s1
  · rintro bs s1 cond v off ⟨⟨hl, hst, hbefore⟩, hheld, hbank⟩ hturn hfound hserve hk
    refine congrArg Host.Outcome.next ((State.performLine_reads ho hl hst (Core.linesBefore_eq_nil hbefore) hheld hbank
      ((State.lineGot_waita hk).trans hserve) hturn hfound).trans ?_)
    exact State.lineRead_waita hk id line ev bs s1
  · rintro p ⟨⟨hl, hst, hbefore⟩, hheld, hbank⟩ hp hturn
    exact congrArg Host.Outcome.next (State.performLine_noTurn ho hl hst (Core.linesBefore_eq_nil hbefore) hheld hbank
      (hgot.symm.trans hp) hturn)
  · rintro p q ⟨⟨hl, hst, hbefore⟩, hheld, hbank⟩ hp hturn hr hq hhit
    rw [hr]
    exact congrArg Host.Outcome.next (State.performLine_misses ho hl hst (Core.linesBefore_eq_nil hbefore) hheld hbank
      (hgot.symm.trans hp) hturn hr hq hhit)
  · rintro ⟨⟨hl, hst, hbefore⟩, hheld, hbank⟩ hnone hnew
    refine congrArg Host.Outcome.next ((State.performLine_waits ho hl hst (Core.linesBefore_eq_nil hbefore) hheld hbank
      (hgot.symm.trans hnone)).trans (State.waitAt_new ?_))
    rw [State.agent, State.askDone_agents]
    exact hnew
  · rintro ⟨hl, hst, hbefore⟩ hheld hbusy
    exact congrArg Host.Outcome.next (State.performLine_bankBusy ho hl hst (Core.linesBefore_eq_nil hbefore) hheld hbusy)
  · rintro ⟨hl, hst, hbefore⟩ hl1 hgone
    exact congrArg Host.Outcome.next (State.performLine_lost ho hl hst (Core.linesBefore_eq_nil hbefore) hl1 hgone)
  · rintro p m hl hst hp hplain hpos hm hway hkey
    have hmem : m ∈ (s.core c).linesBefore o l :=
      Core.mem_linesBefore.mpr ⟨p, hp, hplain, hpos, hm, LineAcc.isDone_of_onWay hway, .inl hkey⟩
    exact congrArg Host.Outcome.next (State.performLine_behind ho hl hst hmem hway)
  · rintro p m hl hst hno hp hplain hpos hm hdone hkey
    have hmem : m ∈ (s.core c).linesBefore o l := Core.mem_linesBefore.mpr ⟨p, hp, hplain, hpos, hm, hdone, .inl hkey⟩
    exact congrArg Host.Outcome.next (State.performLine_restart ho hl hst hno hmem)
  · rintro t fill keep e ⟨hset, hun⟩ hk hno
    have hlate : (s.core c).pend.any (fun p => p.w == .land id) = false := List.any_eq_false.mpr fun p hp => by simp [hno p hp]
    rw [execLoadLanding_load ho hset hun hk, hlate]
    rfl
  · rintro t fill keep e ⟨hset, hun⟩ hk ⟨p, hp, hw⟩
    have hlate : (s.core c).pend.any (fun p => p.w == .land id) = true := List.any_eq_true.mpr ⟨p, hp, beq_iff_eq.mpr hw⟩
    rw [execLoadLanding_load ho hset hun hk, hlate]
    rfl
  · rintro x off ⟨hset, hun⟩ hk hl hdone
    exact execLoadLanding_tldw ho hset hk hl hdone
  · rintro n off ⟨hset, hun⟩ hk
    exact execLoadLanding_chcfg ho hset hun hk
  · rintro cond v off ⟨hset, hun⟩ hk
    exact execLoadLanding_waita ho hset hun hk
  · rintro cond v off ⟨hwaita, hl, hid, harmed⟩ hk hholds
    subst hid
    have hmem : (s.disarm core.val o.id).mem = s.mem := s.disarm_mem _ _
    rw [execMonitorWake_of_armed hwaita hl hk harmed]
    dsimp only
    rw [hmem]
    exact if_neg (by rw [hholds]; exact Bool.false_ne_true)
  · rintro cond v off ⟨hwaita, hl, hid, harmed⟩ hk hholds
    subst hid
    have hmem : (s.disarm core.val o.id).mem = s.mem := s.disarm_mem _ _
    rw [execMonitorWake_of_armed hwaita hl hk harmed]
    dsimp only
    rw [hmem]
    exact if_pos hholds
  · rintro hwaita hid hridge hdie
    subst hid
    exact execMonitorReread_of_unarmed hwaita hridge hdie

end Sys2Proof.Machine
end

section
/-! SUPPORT. Stores, buffers, writes, markers and releases (04 R81 to R95; 18 R316). -/

namespace Sys2Proof.Machine
open Sys2Proof.Bits

/-! ### Stores -/

section
variable {s : State} {core : Fin 64} {id line : Nat} {o : MemOp} {l : LineAcc} (ho : (s.core core.val).op id = some o)
  (hk : o.kind = .store) (hl : o.lines[line]? = some l) (hst : l.st = .flight)
include ho hk hl hst

theorem execStorePerformed_busy (hbusy : s.bankBusy core.val l.key = true) :
    execStorePerformed core id line s = .next (s.after 1 (.storePerformed core id line)) := by
  have hnot : (l.st != .flight) = false := by simp [hst]
  unfold execStorePerformed
  dsimp only
  rw [ho]
  dsimp only
  rw [hk, hl]
  dsimp only
  rw [hnot, if_neg Bool.false_ne_true, if_pos hbusy]

variable (hbank : s.bankBusy core.val l.key = false)
include hbank

theorem execStorePerformed_full {s1 : State} (hroom : s.wcbRoom core.val l.key = (false, s1)) :
    execStorePerformed core id line s = .next (s1.after 1 (.storePerformed core id line)) := by
  have hnot : (l.st != .flight) = false := by simp [hst]
  unfold execStorePerformed
  dsimp only
  rw [ho]
  dsimp only
  rw [hk, hl]
  dsimp only
  rw [hnot, if_neg Bool.false_ne_true, hbank, if_neg Bool.false_ne_true, hroom]

theorem execStorePerformed_enters {s1 s4 : State} (hroom : s.wcbRoom core.val l.key = (true, s1))
    (hs4 : s4 = ((((s1.bankTake core.val l.key).enterStore core.val o.pos l.key l.home (get l.pte 63 62) (List.zip l.mask l.data)).pinDrop
      l.lock).updCore core.val fun k => k.updOp id fun o => o.updLine line fun l => { l with st := .done }).noteFault core.val id) :
    execStorePerformed core id line s = .next (((if ((s4.core core.val).op id).any (fun o => !o.unperformed) then
      s4.updCore core.val fun k => k.dropOp id else s4).ended core.val).pump core.val) := by
  have hnot : (l.st != .flight) = false := by simp [hst]
  unfold execStorePerformed
  dsimp only
  rw [ho]
  dsimp only
  rw [hk, hl]
  dsimp only
  rw [hnot, if_neg Bool.false_ne_true, hbank, if_neg Bool.false_ne_true, hroom]
  dsimp only
  rw [← hs4]
  cases (s4.core core.val).op id with
  | none => rfl
  | some _ => rfl

end

/-! ### Writes at their home -/

section
variable {s : State} {home : Fin 18} {id : Nat} {w : Write} (hw : s.flights.find? (fun w => w.id == id && w.home == home.val) = some w)
include hw

theorem execWriteApply_waits (hturn : s.hasTurn (.writeApply home id) = false) :
    execWriteApply home id s = .next (s.askAgain (.writeApply home id)) := by
  unfold execWriteApply
  dsimp only
  rw [hw]
  dsimp only
  rw [hturn, if_neg Bool.false_ne_true]

theorem execWriteApply_turn (hturn : s.hasTurn (.writeApply home id) = true) :
    execWriteApply home id s = .next ((State.deliverWrite { s.askDone (.writeApply home id) (s.request (.writeApply home id)) with
      flights := s.flights.filter fun v => v.id != id } w).nextWrite w) := by
  unfold execWriteApply
  dsimp only
  rw [hw]
  dsimp only
  rw [hturn, if_pos rfl]

end

/-- A home applies a write that it may, when none of the same agent and epoch waits there. -/
theorem State.deliverWrite_apply {s : State} {w : Write} (hmay : (s.agent w.home).mayApply w.home w = true)
    (hfirst : ∀ v ∈ (s.agent w.home).waiting, v.src ≠ w.src ∨ v.stamp.agent ≠ w.stamp.agent ∨ v.stamp.epoch ≠ w.stamp.epoch) :
    s.deliverWrite w = s.applyWrite w := by
  have hnone : ((s.agent w.home).waiting.any fun v =>
      decide (v.src = w.src ∧ v.stamp.agent = w.stamp.agent ∧ v.stamp.epoch = w.stamp.epoch)) = false := by
    rw [List.any_eq_false]
    intro v hv
    rw [decide_eq_true_eq, Classical.not_and_iff_not_or_not, Classical.not_and_iff_not_or_not]
    exact hfirst v hv
  unfold State.deliverWrite
  dsimp only
  rw [hmay, hnone]
  rfl

theorem State.deliverWrite_holds {s : State} {w : Write} (hmay : (s.agent w.home).mayApply w.home w = false) :
    s.deliverWrite w = s.updAgent w.home fun a => { a with waiting := a.waiting ++ [w] } := by
  unfold State.deliverWrite
  dsimp only
  rw [hmay]
  rfl

/-! ### Releases -/

/-- What a wide release drains of its die, and when the drain is over; another fence drains nothing. -/
def State.drained (s : State) (c : Nat) (ord : Order) (sc : Scope) : State × Option Nat :=
  if relOrd ord && wideScope sc then s.releaseDie (c / 8) else (s, some s.now)

theorem State.fenceDrain_later {s : State} {core : Fin 64} {id : Nat} {ord : Order} {sc : Scope}
    (hnone : (s.drained core.val ord sc).2 = none) : s.fenceDrain core.val id ord sc = s.after 1 (.releaseComplete core id) := by
  unfold State.drained at hnone
  unfold State.fenceDrain
  dsimp only
  rw [hnone, fin64_val]

theorem State.fenceDrain_drains {s : State} {core : Fin 64} {id : Nat} {ord : Order} {sc : Scope} {t : Nat}
    (hsome : (s.drained core.val ord sc).2 = some t) :
    s.fenceDrain core.val id ord sc = ((s.drained core.val ord sc).1.updCore core.val fun k => k.updOp id fun o =>
      { o with kind := .fence ord sc 2, ready := t }).sched t (.releaseComplete core id) := by
  unfold State.drained at hsome ⊢
  unfold State.fenceDrain
  dsimp only
  rw [hsome, fin64_val]

section
variable {s : State} {core : Fin 64} {id : Nat} {o : MemOp} {ord : Order} {sc : Scope} {stage : Nat}
  (ho : (s.core core.val).op id = some o) (hk : o.kind = .fence ord sc stage)
include ho hk

theorem execReleaseComplete_drains (hstage : stage = 1) : execReleaseComplete core id s = .next (s.fenceDrain core.val id ord sc) := by
  unfold execReleaseComplete
  dsimp only
  rw [ho]
  dsimp only
  rw [hk]
  dsimp only
  rw [if_pos hstage]

theorem execReleaseComplete_awaits (hstage : stage ≠ 1) (hdone : s.fenceDone core.val o = false) : execReleaseComplete core id s = .next s := by
  unfold execReleaseComplete
  dsimp only
  rw [ho]
  dsimp only
  rw [hk]
  dsimp only
  rw [if_neg hstage, hdone]
  rfl

omit ho in
/-- A fence is done only in its last stage. -/
theorem State.fenceDone_stage (hdone : s.fenceDone core.val o = true) : stage = 2 := by
  unfold State.fenceDone at hdone
  rw [hk] at hdone
  dsimp only at hdone
  rw [Bool.and_eq_true, Bool.and_eq_true] at hdone
  exact beq_iff_eq.mp hdone.1.1

theorem execReleaseComplete_ends (hdone : s.fenceDone core.val o = true) :
    execReleaseComplete core id s =
      let s1 := match ord, sc with
        | .sc, .device => s.updRidge fun r => { r with sc := r.sc + 1 }
        | .sc, .system => s.updRidge fun r => { r with sc := r.sc + 1 }
        | .sc, .cluster => s.updDie (core.val / 8) fun d => { d with sc := d.sc + 1 }
        | _, _ => s
      let s2 := if acqOrd ord && sc != .core then s1.updCore core.val fun k => { k with l1 := [] } else s1
      .next (((s2.updCore core.val fun k => k.dropOp id).ended core.val).pump core.val) := by
  have hstage : stage ≠ 1 := by
    rw [State.fenceDone_stage hk hdone]
    decide
  unfold execReleaseComplete
  dsimp only
  rw [ho]
  dsimp only
  rw [hk]
  dsimp only
  rw [if_neg hstage, hdone]
  rfl

end

/-! ### O42 -/

/-- Settles O42: each event goes by the tests of its own definition in turn. -/
theorem storeBufferAndReleaseResults : Obligations.StoreBufferAndReleaseResults := by
  unfold Obligations.StoreBufferAndReleaseResults
  intro s core die home agent id line epoch key src path c ev taken
  have hstore : exec (.storePerformed core id line) s = execStorePerformed core id line s := rfl
  have happly : exec ev s = execWriteApply home id s := rfl
  have hrel : exec (.releaseComplete core id) s = execReleaseComplete core id s := rfl
  rw [hstore, happly, hrel]
  refine ⟨?_, ?_, ?_, ?_, ?_, ?_, ?_, ?_, rfl, ?_, ?_, ?_, ?_, ?_, ?_, rfl⟩
  · intro o l ho hk hl hst hbusy
    exact execStorePerformed_busy ho hk hl hst hbusy
  · intro o l s1 ho hk hl hst hbank hroom
    exact execStorePerformed_full ho hk hl hst hbank hroom
  · intro o l s1 s4 ho hk hl hst hbank hroom hs4
    exact execStorePerformed_enters ho hk hl hst hbank hroom hs4
  · intro w hw
    dsimp only [exec]
    unfold execWcbAgeDrain
    rw [hw]
  · intro w hw
    have hagent : taken.agent w.home = s.agent w.home := by
      rw [State.agent, State.askDone_agents]
      rfl
    refine ⟨execWriteApply_waits hw, fun hturn hmay hfirst => ?_, fun hturn hmay => ?_⟩
    · rw [← hagent] at hmay hfirst
      rw [execWriteApply_turn hw hturn]
      exact congrArg (fun t : State => Host.Outcome.next (t.nextWrite w)) (State.deliverWrite_apply hmay hfirst)
    · rw [← hagent] at hmay
      rw [execWriteApply_turn hw hturn]
      exact congrArg (fun t : State => Host.Outcome.next (t.nextWrite w)) (State.deliverWrite_holds hmay)
  · intro hbehind
    dsimp only [exec]
    unfold execCloseMarker
    rw [if_pos hbehind]
  · intro hbehind
    dsimp only [exec]
    unfold execCloseMarker
    rw [hbehind]
    rfl
  · intro hsrc hbehind
    dsimp only [exec]
    unfold execCloseMarker
    rw [hbehind, if_neg Bool.false_ne_true]
    dsimp only
    simp only [if_neg hsrc]
  · intro o ord sc ho hk drained
    rw [execReleaseComplete_drains ho hk rfl]
    refine ⟨fun hnone => ?_, fun t hsome => ?_⟩
    · exact congrArg Host.Outcome.next (State.fenceDrain_later hnone)
    · exact congrArg Host.Outcome.next (State.fenceDrain_drains hsome)
  · intro o ord sc stage ho hk hstage hdone
    exact execReleaseComplete_awaits ho hk hstage hdone
  · intro o done ho hk hdone
    exact execReleaseComplete_ends ho hk hdone
  · intro o done ho hk hdone
    exact execReleaseComplete_ends ho hk hdone
  · intro o done ho hk hdone
    exact execReleaseComplete_ends ho hk hdone
  · intro j hj hk hdue
    have hgo : (j.kind != .tzero || decide (s.now < j.done)) = false := by
      rw [hk, decide_eq_false (Nat.not_lt_of_le hdue)]
      rfl
    dsimp only [exec]
    unfold execTzeroFill
    dsimp only
    rw [hj]
    dsimp only
    rw [hgo, if_neg Bool.false_ne_true]

end Sys2Proof.Machine
end

section
/-! SUPPORT. Walks and invalidations (10 R161 to R168). -/

namespace Sys2Proof.Machine
open Sys2Proof.Bits

/-! ### Misses that have arrived -/

section
variable {s : State} {d : Nat} {w : Walk}

/-- The only miss that has arrived is the one that starts. -/
theorem State.startWalks_alone (h : (s.die d).walks.filter (fun v => v.run.isNone && decide (v.arr ≤ s.now)) = [w]) :
    s.startWalks d = s.walkGo d w := by
  have hmine : ∀ v : Walk, (v.run.isNone && decide (v.arr ≤ s.now)) = true ↔ v.run.isNone = true ∧ v.arr ≤ s.now := fun v => by
    rw [Bool.and_eq_true, decide_eq_true_eq]
  have hlist : (s.die d).walks.foldl (fun l v => if v.run.isNone = true ∧ v.arr ≤ s.now then insertMiss v l else l) [] = [w] := by
    have hfold := List.foldl_filter (p := fun v : Walk => v.run.isNone && decide (v.arr ≤ s.now)) (f := fun l v => insertMiss v l)
      (l := (s.die d).walks) (init := [])
    rw [h] at hfold
    simp only [hmine] at hfold
    exact hfold.symm
  unfold State.startWalks
  rw [hlist]
  rfl

variable (hfind : (s.die d).walks.find? (fun v => v.is w.ctx w.va && v.run.isNone) = some w)
include hfind

theorem State.walkGo_tlb {e : Xl} (htlb : (s.die d).tlb.find? (·.covers w.ctx w.va) = some e) : s.walkGo d w = s.walkLoads d w e := by
  unfold State.walkGo
  rw [hfind]
  dsimp only
  rw [htlb]

variable (htlb : (s.die d).tlb.find? (·.covers w.ctx w.va) = none)
include htlb

theorem State.walkGo_ridge {e : Xl} (hleaf : s.ridgeLeaf w.ctx w.va = some e) : s.walkGo d w = (s.cacheLeaf e).walkLoads d w e := by
  unfold State.walkGo
  rw [hfind]
  dsimp only
  rw [htlb]
  dsimp only
  rw [hleaf]

variable (hleaf : s.ridgeLeaf w.ctx w.va = none)
include hleaf

theorem State.walkGo_starts (hfree : ((s.die d).walks.filter (·.run.isSome)).length < 32) :
    s.walkGo d w = (s.touchPtr w.ctx w.va).walkOn d w (s.walkStartAt w.ctx w.va).1 (s.walkStartAt w.ctx w.va).2 := by
  unfold State.walkGo
  rw [hfind]
  dsimp only
  rw [htlb]
  dsimp only
  rw [hleaf]
  dsimp only
  rw [if_neg (Nat.not_le_of_lt hfree)]

theorem State.walkGo_full (hfull : 32 ≤ ((s.die d).walks.filter (·.run.isSome)).length) : s.walkGo d w = s := by
  unfold State.walkGo
  rw [hfind]
  dsimp only
  rw [htlb]
  dsimp only
  rw [hleaf]
  dsimp only
  rw [if_pos hfull]

end

/-! ### A walk that reads an entry -/

/-- What a walk does with the entry of level `n` that it has read at `pa`, in the state after its turn. -/
def State.walkReads (t : State) (d ctx va : Nat) (w : Walk) (n pa : Nat) : State := match t.entryAt va n pa with
  | none => ((t.updDie d fun x => { x with walks := x.walks.filter fun v => v != w }).fenceCtx ctx 4).startWalks d
  | some (p, _, _) => match pteKind n p with
    | .ptr next => (t.cachePtrs ctx va [(n, p)]).walkOn d w n next
    | .bad c => (t.walkFaults d w c).startWalks d
    | .leaf =>
      let e : Xl := ⟨ctx, pageBase n va, n, p⟩
      (if bit p 57 && !t.lockRoom e then t.walkFaults d w 11 else (t.cacheLeaf e).walkLoads d w e).startWalks d

section
variable {s : State} {die : Fin 8} {ctx : Fin 64} {va n pa : Nat} {w : Walk}
  (hw : (s.die die.val).walks.find? (fun v => v.is ctx.val va && v.run.isSome) = some w)
include hw

theorem execWalkComplete_waits (hturn : s.hasTurn (.walkComplete die ctx va) = false) :
    execWalkComplete die ctx va s = .next (s.askAgain (.walkComplete die ctx va)) := by
  unfold execWalkComplete
  dsimp only
  rw [hw]
  dsimp only
  rw [hturn]
  rfl

theorem execWalkComplete_reads (hrun : w.run = some (n + 1, pa)) (hturn : s.hasTurn (.walkComplete die ctx va) = true) :
    execWalkComplete die ctx va s =
      .next ((s.askDone (.walkComplete die ctx va) (s.request (.walkComplete die ctx va))).walkReads die.val ctx.val va w n pa) := by
  unfold execWalkComplete
  dsimp only
  rw [hw]
  dsimp only
  rw [hturn, hrun]
  rfl

end

section
variable {t : State} {d ctx va n pa : Nat} {w : Walk}

theorem State.walkReads_fenced (h : t.entryAt va n pa = none) : t.walkReads d ctx va w n pa =
    ((t.updDie d fun x => { x with walks := x.walks.filter fun v => v != w }).fenceCtx ctx 4).startWalks d := by
  unfold State.walkReads
  rw [h]

variable {p : Word} {at_ : Nat × Nat} (h : t.entryAt va n pa = some (p, at_))
include h

theorem State.walkReads_ptr {table : Nat} (hk : pteKind n p = .ptr table) :
    t.walkReads d ctx va w n pa = (t.cachePtrs ctx va [(n, p)]).walkOn d w n table := by
  unfold State.walkReads
  rw [h]
  dsimp only
  rw [hk]

theorem State.walkReads_bad {cause : Nat} (hk : pteKind n p = .bad cause) :
    t.walkReads d ctx va w n pa = (t.walkFaults d w cause).startWalks d := by
  unfold State.walkReads
  rw [h]
  dsimp only
  rw [hk]

theorem State.walkReads_leaf (hk : pteKind n p = .leaf) (hroom : bit p 57 = false ∨ t.lockRoom ⟨ctx, pageBase n va, n, p⟩ = true) :
    t.walkReads d ctx va w n pa =
      ((t.cacheLeaf ⟨ctx, pageBase n va, n, p⟩).walkLoads d w ⟨ctx, pageBase n va, n, p⟩).startWalks d := by
  have hgo : (bit p 57 && !t.lockRoom ⟨ctx, pageBase n va, n, p⟩) = false := by
    rcases hroom with hb | hr
    · rw [hb, Bool.false_and]
    · rw [hr, Bool.not_true, Bool.and_false]
  unfold State.walkReads
  rw [h]
  dsimp only
  rw [hk]
  dsimp only
  rw [hgo, if_neg Bool.false_ne_true]

theorem State.walkReads_pinsFull (hk : pteKind n p = .leaf) (hpin : bit p 57 = true) (hroom : t.lockRoom ⟨ctx, pageBase n va, n, p⟩ = false) :
    t.walkReads d ctx va w n pa = (t.walkFaults d w 11).startWalks d := by
  unfold State.walkReads
  rw [h]
  dsimp only
  rw [hk]
  dsimp only
  rw [hpin, hroom]
  rfl

end

/-! ### Invalidations -/

/-- A withdrawn translation that the first invalidation covers is still read. -/
def State.invRead (s : State) (i : Inval) : Bool :=
  s.ridge.locks.any fun l => l.withdrawn && l.xl.under i.ctx i.va i.sz && (l.readers != 0 || s.lockWaits l.id)

/-- The ridge without the invalidation that is over, and without the withdrawn translations that nothing reads. -/
def State.invOver (s : State) (rest : List Inval) : State := s.updRidge fun r =>
  { r with invs := rest, locks := r.locks.filter fun l => !(l.withdrawn && l.readers == 0 && !s.lockWaits l.id) }

section
variable {s : State} {i : Inval} {rest : List Inval} (hinvs : s.ridge.invs = i :: rest)
include hinvs

theorem execInvalidationComplete_early (h : i.began = 0 ∨ s.now < i.began + 59 ∨ s.invRead i = true) : execInvalidationComplete s = .next s := by
  unfold execInvalidationComplete
  rw [hinvs]
  exact if_pos h

theorem execInvalidationComplete_over (hbegan : i.began ≠ 0) (hlate : i.began + 59 ≤ s.now) (hread : s.invRead i = false) :
    execInvalidationComplete s = match i.by_ with
      | some (c, id) => .next (((((s.invOver rest).updCore c fun k => k.dropOp id).ended c).pump c).gatherInv.beginInv)
      | none => .next (((s.invOver rest).updRegs fun r => { r with invBusy := false }).gatherInv.beginInv) := by
  have hgo : ¬ (i.began = 0 ∨ s.now < i.began + 59 ∨ s.invRead i = true) := by
    rw [hread]
    simp only [Bool.false_eq_true, or_false, not_or]
    exact ⟨hbegan, Nat.not_lt_of_le hlate⟩
  unfold execInvalidationComplete
  rw [hinvs]
  exact if_neg hgo

end

/-! ### O43 -/

/-- Settles O43: a miss, a walk and an invalidation go by the tests of their own definitions in turn. -/
theorem translationResults : Obligations.TranslationResults := by
  unfold Obligations.TranslationResults
  intro s die ctx va w d alone start
  have hstart : exec (.walkStart die ctx va) s = .next (s.startWalks d) := rfl
  have hinv : exec .invalidationComplete s = execInvalidationComplete s := rfl
  rw [hinv]
  refine ⟨rfl, ?_, ?_, ?_, ?_, ?_, rfl, ?_, ?_, ?_⟩
  · rintro e ⟨hone, hfind⟩ htlb
    rw [hstart, State.startWalks_alone hone, State.walkGo_tlb hfind htlb]
  · rintro e ⟨hone, hfind⟩ htlb hleaf
    rw [hstart, State.startWalks_alone hone, State.walkGo_ridge hfind htlb hleaf]
  · rintro ⟨hone, hfind⟩ htlb hleaf hfree
    rw [hstart, State.startWalks_alone hone, State.walkGo_starts hfind htlb hleaf hfree]
  · rintro ⟨hone, hfind⟩ htlb hleaf hfull
    rw [hstart, State.startWalks_alone hone, State.walkGo_full hfind htlb hleaf hfull]
  · intro n pa hw hrun ev t gone
    have hev : exec ev s = execWalkComplete die ctx va s := rfl
    rw [hev]
    refine ⟨execWalkComplete_waits hw, fun hturn hnone => ?_, ?_⟩
    · exact (execWalkComplete_reads hw hrun hturn).trans (congrArg Host.Outcome.next (State.walkReads_fenced hnone))
    · intro p at_ hturn hp e
      refine ⟨fun table hk => ?_, fun cause hk => ?_, fun hk hroom => ?_, fun hk hpin hroom => ?_⟩
      · exact (execWalkComplete_reads hw hrun hturn).trans (congrArg Host.Outcome.next (State.walkReads_ptr hp hk))
      · exact (execWalkComplete_reads hw hrun hturn).trans (congrArg Host.Outcome.next (State.walkReads_bad hp hk))
      · exact (execWalkComplete_reads hw hrun hturn).trans (congrArg Host.Outcome.next (State.walkReads_leaf hp hk hroom))
      · exact (execWalkComplete_reads hw hrun hturn).trans (congrArg Host.Outcome.next (State.walkReads_pinsFull hp hk hpin hroom))
  · intro hnil
    unfold execInvalidationComplete
    rw [hnil]
  · intro i rest hinvs hbegan hlate hfree done
    have hread : s.invRead i = false := by
      refine List.any_eq_false.mpr fun l hl h => ?_
      rw [Bool.and_eq_true, Bool.and_eq_true] at h
      obtain ⟨⟨hwithdrawn, hunder⟩, hreads⟩ := h
      obtain ⟨hreaders, hwaits⟩ := hfree l hl hwithdrawn hunder
      rw [hreaders, hwaits] at hreads
      exact Bool.false_ne_true hreads
    refine ⟨fun hby => ?_, fun c id hby => ?_⟩
    · rw [execInvalidationComplete_over hinvs hbegan hlate hread, hby]
      rfl
    · rw [execInvalidationComplete_over hinvs hbegan hlate hread, hby]
      rfl
  · intro i rest hinvs hwhy
    refine execInvalidationComplete_early hinvs (hwhy.imp_right (Or.imp_right ?_))
    rintro ⟨l, hl, hwithdrawn, hunder, hreaders⟩
    refine List.any_eq_true.mpr ⟨l, hl, ?_⟩
    rw [hwithdrawn, hunder, bne_iff_ne.mpr hreaders]
    rfl

end Sys2Proof.Machine
end

section
/-! SUPPORT. The matrix engine, the vector pipes, and placed operations (19 R335 to R340; 20 R348 to R350; 03 R53 to R60). -/

namespace Sys2Proof.Machine
open Sys2Proof.Bits

/-! ### The matrix engine -/

section
variable {s : State} {core : Fin 64} {id : Nat} {o : MmaOp} (ho : (s.core core.val).mma.find? (fun o => o.id == id) = some o)
  (hstart : o.start.isSome = true)
include ho hstart

theorem execKstepComplete_of_running (hmore : o.kdone < o.ksteps) :
    execKstepComplete core id s = .next (if o.kdone + 1 < o.ksteps then (s.updCore core.val fun k => k.kstep o).after o.c (.kstepComplete core id)
      else (s.updCore core.val fun k => k.kstep o).soon (.mmaComplete core id)) := by
  have hgo : (o.start.isNone || decide (o.ksteps ≤ o.kdone)) = false := by
    rw [← Option.not_isSome, hstart, decide_eq_false (Nat.not_le_of_lt hmore)]
    rfl
  unfold execKstepComplete
  rw [ho]
  dsimp only
  rw [hgo, if_neg Bool.false_ne_true]

theorem execMmaComplete_of_over (hover : o.ksteps ≤ o.kdone) :
    execMmaComplete core id s = .next (((s.logEvs core.val o.pos o.addr o.evs).updCore core.val fun k =>
      { k with mma := k.mma.filter fun v => v.id != id }).accSettle core.val id) := by
  have hgo : (o.start.isNone || decide (o.kdone < o.ksteps)) = false := by
    rw [← Option.not_isSome, hstart, decide_eq_false (Nat.not_lt_of_le hover)]
    rfl
  unfold execMmaComplete
  rw [ho]
  dsimp only
  rw [hgo, if_neg Bool.false_ne_true]

end

/-- State `s` without job `id` of core `c`. -/
def State.endJob (s : State) (c id : Nat) : State := s.updCore c fun k => { k with jobs := k.jobs.filter fun v => v.id != id }

section
variable {s : State} {core : Fin 64} {id : Nat} {j : Job} (hj : (s.core core.val).jobs.find? (fun j => j.id == id) = some j)
  (hset : j.done ≠ 0) (hdue : j.done ≤ s.now)
include hj hset hdue

/-- A job of the matrix engine that is due ends as its kind says (19 R337 to R340). -/
theorem execMatrixOutputComplete_of_due :
    execMatrixOutputComplete core id s = match j.kind with
      | .mclr acc => .next (((s.endJob core.val id).updCore core.val fun k => k.accZero acc).accSettle core.val id)
      | .mfeed acc rows cols fmt img =>
        let r := ((s.endJob core.val id).core core.val).feed acc ⟨rows, cols, fmt⟩ img
        .next ((((s.endJob core.val id).setCore core.val r.1).logEvs core.val j.pos j.addr r.2).accSettle core.val id)
      | .vec => .next s
      | .tzero => .next s
      | .shadow _ => .next s
      | _ => .next (((s.endJob core.val id).fillJob core.val j).accSettle core.val id) := by
  have hgo : ¬ (j.done = 0 ∨ decide (s.now < j.done) = true) := by
    rw [not_or, decide_eq_true_eq]
    exact ⟨hset, Nat.not_lt_of_le hdue⟩
  unfold execMatrixOutputComplete
  dsimp only
  rw [hj]
  exact if_neg (by rw [Bool.or_eq_true, decide_eq_true_eq]; exact hgo)

theorem execVectorComplete_of_due (hk : j.kind = .vec) :
    execVectorComplete core id s =
      .next ((((s.endJob core.val id).fillJob core.val j).deliver core.val id fun w => w).accSettle core.val id) := by
  have hgo : (decide (j.done = 0) || decide (s.now < j.done) || j.kind != .vec) = false := by
    rw [hk, decide_eq_false hset, decide_eq_false (Nat.not_lt_of_le hdue)]
    rfl
  unfold execVectorComplete
  dsimp only
  rw [hj]
  dsimp only
  rw [hgo]
  rfl

end

/-! ### The vector pipes -/

theorem execPipeStart_empty {s : State} {core : Fin 64} {q : Bool} (h : ((s.trfTurn core.val).core core.val).pipe q = []) :
    execPipeStart core q s = .next ((s.trfTurn core.val).watchTrf core.val) := by
  unfold execPipeStart
  dsimp only
  rw [h]

section
variable {s : State} {core : Fin 64} {q : Bool} {o : PipeOp} {rest : List PipeOp}
  (h : ((s.trfTurn core.val).core core.val).pipe q = o :: rest)
include h

theorem execPipeStart_goes
    (hlate : ∀ j ∈ ((s.trfTurn core.val).core core.val).jobs, j.id = o.job.id → j.done + o.occ ≤ s.now + o.lat) :
    execPipeStart core q s = .next (((s.trfTurn core.val).updCore core.val fun k => k.setPipe q rest).pipeGo core.val q) := by
  have hearly : (((s.trfTurn core.val).core core.val).jobs.any fun j => j.id == o.job.id && decide (s.now + o.lat < j.done + o.occ)) = false := by
    refine List.any_eq_false.mpr fun j hj hc => ?_
    rw [Bool.and_eq_true, beq_iff_eq, decide_eq_true_eq] at hc
    exact absurd hc.2 (Nat.not_lt_of_le (hlate j hj hc.1))
  unfold execPipeStart
  dsimp only
  rw [h]
  dsimp only
  rw [hearly, if_neg Bool.false_ne_true]

theorem execPipeStart_early
    (hlate : ∃ j ∈ ((s.trfTurn core.val).core core.val).jobs, j.id = o.job.id ∧ s.now + o.lat < j.done + o.occ) :
    execPipeStart core q s = .next ((s.trfTurn core.val).watchTrf core.val) := by
  have hearly : (((s.trfTurn core.val).core core.val).jobs.any fun j => j.id == o.job.id && decide (s.now + o.lat < j.done + o.occ)) = true := by
    obtain ⟨j, hj, hid, hlt⟩ := hlate
    refine List.any_eq_true.mpr ⟨j, hj, ?_⟩
    rw [Bool.and_eq_true, beq_iff_eq, decide_eq_true_eq]
    exact ⟨hid, hlt⟩
  unfold execPipeStart
  dsimp only
  rw [h]
  dsimp only
  rw [hearly, if_pos rfl]

end

/-! ### O44 -/

/-- Settles O44: each completion follows the tests of its own definition, then the kind of its job. -/
theorem engineResults : Obligations.EngineResults := by
  unfold Obligations.EngineResults
  intro s core id q c k finished done turned
  have hkstep : exec (.kstepComplete core id) s = execKstepComplete core id s := rfl
  have hout : exec (.matrixOutputComplete core id) s = execMatrixOutputComplete core id s := rfl
  have hpipe : exec (.pipeStart core q) s = execPipeStart core q s := rfl
  rw [hkstep, hout, hpipe]
  refine ⟨?_, ?_, rfl, ?_, ?_, ?_, ?_, ?_, ?_, ?_, ?_⟩
  · intro o ho hstart hmore
    rw [execKstepComplete_of_running ho hstart (by omega), if_pos hmore]
  · intro o ho hstart hlast
    rw [execKstepComplete_of_running ho hstart (by omega), if_neg (by omega)]
  · intro o ho hstart hover
    exact execMmaComplete_of_over ho hstart hover
  · intro j acc hj hset hdue hk
    rw [execMatrixOutputComplete_of_due hj hset hdue, hk]
    rfl
  · intro j acc rows cols fmt img hj hset hdue hk
    rw [execMatrixOutputComplete_of_due hj hset hdue, hk]
    rfl
  · intro j hj hset hdue hk
    rw [execMatrixOutputComplete_of_due hj hset hdue, hk]
    rfl
  · intro j acc tD rm sat rs hj hset hdue hk
    rw [execMatrixOutputComplete_of_due hj hset hdue, hk]
    rfl
  · intro o rest h
    exact ⟨execPipeStart_goes h, execPipeStart_early h⟩
  · intro h
    exact execPipeStart_empty h
  · intro j hj hset hdue hk
    exact execVectorComplete_of_due hj hset hdue hk

end Sys2Proof.Machine
end

section
/-! SUPPORT. Placed operations and their pieces (03 R53 to R60). -/

namespace Sys2Proof.Machine
open Sys2Proof.Bits

theorem fin10_add_two {u : Nat} (hu : u < 8) : (fin10 (u + 2)).val = u + 2 := Nat.mod_eq_of_lt (by omega)

/-! ### The queue of a core -/

/-- A core's placed operations after each has been prepared and the ones that can have been placed. -/
def State.placed (s : State) (c : Nat) : State :=
  let ids := ((s.core c).memq.filter fun o => o.plKind.isSome).map (·.id)
  (ids.foldl (fun (s : State) id => s.prepare c id) s).placeGo c ids

theorem execPlacement_live {s : State} {core : Fin 64} (hlive : (s.core core.val).hold = none) :
    execPlacement core s = .next (if ((s.placed core.val).core core.val).memq = (s.core core.val).memq then s.placed core.val
      else ((s.placed core.val).soon (.pieceStart 0)).pump core.val) := by
  unfold execPlacement
  dsimp only
  rw [hlive]
  simp only [Option.isSome_none, Bool.false_eq_true, if_false, decide_eq_true_eq]
  rfl

theorem execPlacement_held {s : State} {core : Fin 64} (hheld : (s.core core.val).hold ≠ none) : execPlacement core s = .next s := by
  unfold execPlacement
  dsimp only
  rw [if_pos (Option.isSome_iff_ne_none.mpr hheld)]

/-! ### A piece that is over -/

/-- The next sum above `k0` that waits follows 4 cycles later. -/
def State.nextSum (t : State) (group : List Piece) (k0 : Nat) : State :=
  match lowestK (group.filter fun q => q.st == 3 && decide (k0 < q.k0)) with
  | some q => t.after 4 (.pieceComplete q.id)
  | none => t

section
variable {s : State} {id : Nat} {p : Piece} (hp : Tbl.get s.ridge.pieces id = some p) (hst : p.st = 2 ∨ p.st = 3)
include hp hst

theorem execPieceComplete_dropped (ho : (s.core p.core).op p.op = none) :
    execPieceComplete id s =
      .next (((s.updRidge fun r => { r with pieces := Tbl.erase r.pieces id }).soon (.pieceStart (fin10 p.place))).ended p.core) := by
  have hgo : ¬ (p.st ≠ 2 ∧ p.st ≠ 3) := by omega
  unfold execPieceComplete
  rw [hp]
  dsimp only
  rw [if_neg hgo, ho]

variable {o : MemOp} {k : PlKind} (ho : (s.core p.core).op p.op = some o) (hk : o.plKind = some k)
include ho hk

/-- A piece that is over waits for the sums below it, then for the homes of its destination, and is stored (03 R58). -/
theorem execPieceComplete_of_op :
    execPieceComplete id s =
      let group := (s.opPieces p.core p.op).filter fun q => decide (q.m0 = p.m0 ∧ q.n0 = p.n0)
      if group.any fun q => decide (q.k0 < p.k0) && q.st != 4 then .next (s.updPiece id fun p => { p with st := 3 })
      else if !s.homesTake p.core o then .next ((s.updPiece id fun p => { p with st := 3 }).after 1 (.pieceComplete id))
      else
        let r := s.storePiece o k p
        let t := r.1.nextSum group p.k0
        let u := if (t.opPieces p.core p.op).all (·.st == 4) then t.finishPlaced p.core o k r.2 else t
        .next (if p.place = 0 then u else u.soon (.pieceStart (fin10 p.place))) := by
  have hgo : ¬ (p.st ≠ 2 ∧ p.st ≠ 3) := by omega
  unfold execPieceComplete
  rw [hp]
  dsimp only
  rw [if_neg hgo, ho]
  dsimp only
  rw [hk]
  rfl

end

/-- The pieces of one sum below `p` are all stored. -/
theorem any_below_eq_false {group : List Piece} {k0 : Nat} (h : ∀ q ∈ group, q.k0 < k0 → q.st = 4) :
    (group.any fun q => decide (q.k0 < k0) && q.st != 4) = false := by
  refine List.any_eq_false.mpr fun q hq hc => ?_
  rw [Bool.and_eq_true, decide_eq_true_eq, bne_iff_ne] at hc
  exact hc.2 (h q hq hc.1)

/-- Settles O45: a placed operation is prepared and placed in its turn; a piece that is over is stored behind the sums below it. -/
theorem placementResults : Obligations.PlacementResults := by
  unfold Obligations.PlacementResults
  intro s core id c ids placed
  have hplace : exec (.placement core) s = execPlacement core s := rfl
  have hpiece : exec (.pieceComplete id) s = execPieceComplete id s := rfl
  rw [hplace, hpiece]
  refine ⟨fun hlive hsame => ?_, fun hlive hnew => ?_, fun hheld => execPlacement_held hheld, rfl, rfl, fun u hu => ?_, fun p hp hst ho => ?_,
    fun p o k hp hst ho hk => ?_⟩
  · rw [execPlacement_live hlive]
    exact congrArg Host.Outcome.next (if_pos hsame)
  · rw [execPlacement_live hlive]
    exact congrArg Host.Outcome.next (if_neg hnew)
  · dsimp only [exec]
    unfold execPieceStart
    rw [fin10_add_two hu]
  · exact execPieceComplete_dropped hp hst ho
  · intro group
    refine ⟨?_, ?_, ?_⟩
    · rintro ⟨q, hq, hlt, hopen⟩
      have hany : (group.any fun q => decide (q.k0 < p.k0) && q.st != 4) = true :=
        List.any_eq_true.mpr ⟨q, hq, by rw [decide_eq_true hlt, bne_iff_ne.mpr hopen]; rfl⟩
      rw [execPieceComplete_of_op hp hst ho hk]
      exact if_pos hany
    · intro hbelow htake
      rw [execPieceComplete_of_op hp hst ho hk]
      dsimp only
      rw [any_below_eq_false hbelow, htake]
      rfl
    · intro hbelow htake r t u
      rw [execPieceComplete_of_op hp hst ho hk]
      dsimp only
      rw [any_below_eq_false hbelow, htake]
      have hu : u = if (t.opPieces p.core p.op).all (·.st == 4) then t.finishPlaced p.core o k r.2 else t :=
        Bool.cond_eq_ite _ _ _
      rw [hu]
      rfl

end Sys2Proof.Machine
end

section
/-! SUPPORT. Channel entries, landings, credits and replies (21 R366 to R374). -/

namespace Sys2Proof.Machine
open Sys2Proof.Bits

/-! ### A new entry -/

theorem find?_of_split {α : Type} {p : α → Bool} {before after : List α} {x : α} (hno : ∀ y ∈ before, ¬ p y = true) (hyes : p x = true) :
    (before ++ x :: after).find? p = some x := by
  rw [List.find?_append, List.find?_eq_none.mpr hno, Option.none_or, List.find?_cons, hyes]

section
variable {s : State} {core : Fin 64} {n : CReg} {g : Nat} {r : Run} (hrun : (s.grp g).run = some r) (hgrp : s.grpOf core.val = some g)
  {before after : List MemOp} {o : MemOp} {l : LineAcc} {off : Nat} (hq : (s.core core.val).memq = before ++ o :: after)
  (hbefore : ∀ p ∈ before, ∀ a, p.kind ≠ .chcfg n.val a) (hk : o.kind = .chcfg n.val off) (hun : o.unperformed = false) (hl : o.lines = [l])
include hrun hgrp hq hbefore hk hun hl

theorem execChcfgEntryArrival_of_first :
    execChcfgEntryArrival core n s =
      let s1 := s.updCore core.val fun k => k.dropOp o.id
      match chanOf (words4 (slice l.data off 32)) r.npkg r.members.length r.peers with
      | some x => .next (((s1.updCore core.val fun k => { k with chans := Tbl.set k.chans n.val x }).ended core.val).pump core.val)
      | none =>
        let s2 := s1.updCore core.val fun k => k.updChan n.val fun x => { x with pend := false }
        .next (if (s.grp g).state ≤ 3 then s2.endGroup g 2 trSHAPE (gtrapWord o.addr (o.pos % 8)) false else s2.ended core.val) := by
  unfold execChcfgEntryArrival
  dsimp only
  rw [hq, find?_of_split, hgrp]
  · dsimp only
    rw [hrun, hk, hl] <;> rfl
  · intro p hp h
    split at h
    next m a hpk =>
      rw [Bool.and_eq_true, beq_iff_eq] at h
      exact hbefore p hp a (h.1 ▸ hpk)
    next => exact Bool.false_ne_true h
  · rw [hk]
    dsimp only
    rw [hun, beq_self_eq_true]
    rfl

end

/-! ### A landing -/

/-- The state after a tile has landed in a slot of a channel, before its barrier counts it. -/
def State.landTile (s : State) (c n : Nat) (x : Chan) (slot : Nat) (shape : Word) (sender : Nat) (bytes : List Byte) : State :=
  { s with mem := s.mem.write (scrKey c (128 * (x.rbase + slot * x.lines))) (bytes.take (128 * x.lines)) }.updCore c fun k =>
    k.updChan n fun x => { x with slots := x.slots.set slot (2, shape, sender) }

section
variable {s : State} {core : Fin 64} {n : CReg} {g : Nat} {r : Run} (hrun : (s.grp g).run = some r) {gid : BitVec 16} {sender : Nat}
  (hlive : s.fate (decide (64 ≤ sender)) gid = .live g) {x : Chan} (hx : (s.core core.val).chan n.val = some x) {slot : Nat}
  (hslot : slot < x.nslot)
include hrun hlive hx hslot

theorem execChannelLanding_overrun (hused : (x.slots.getD slot (0, 0, 0)).1 ≠ 0) (shape : Word) (tag : Bool) (bytes : List Byte) :
    execChannelLanding gid core sender n slot shape tag bytes s = .next (s.endGroup g 2 trCHOVR 0 false) := by
  unfold execChannelLanding
  rw [State.message_live hlive]
  dsimp only
  rw [hx, hrun]
  dsimp only
  rw [if_neg (Nat.not_le_of_lt hslot), if_pos hused]

variable (hfree : (x.slots.getD slot (0, 0, 0)).1 = 0) (shape : Word) (tag : Bool) (bytes : List Byte)
include hfree

theorem execChannelLanding_quiet (hbar : x.bar = none) :
    execChannelLanding gid core sender n slot shape tag bytes s = .next (s.landTile core.val n.val x slot shape sender bytes) := by
  unfold execChannelLanding
  rw [State.message_live hlive]
  dsimp only
  rw [hx, hrun]
  dsimp only
  rw [if_neg (Nat.not_le_of_lt hslot), if_neg (Classical.not_not.mpr hfree), hbar]
  rfl

theorem execChannelLanding_counts {b : Nat} (hbar : x.bar = some b) :
    execChannelLanding gid core sender n slot shape tag bytes s =
      .next ((s.landTile core.val n.val x slot shape sender bytes).barLand g b (r.instOf core.val b) tag bytes.length) := by
  unfold execChannelLanding
  rw [State.message_live hlive]
  dsimp only
  rw [hx, hrun]
  dsimp only
  rw [if_neg (Nat.not_le_of_lt hslot), if_neg (Classical.not_not.mpr hfree), hbar]
  rfl

end

/-- A landing writes its slot's bytes, no more than the slot holds. -/
theorem State.landTile_read1 {s : State} (hok : s.MemOk) (c n : Nat) (x : Chan) (slot : Nat) (shape : Word) (sender : Nat) (bytes : List Byte)
    (a : Nat) :
    let key := scrKey c (128 * (x.rbase + slot * x.lines))
    (s.landTile c n x slot shape sender bytes).mem.read1 a =
      if key ≤ a ∧ a < key + min bytes.length (128 * x.lines) then bytes.getD (a - key) 0 else s.mem.read1 a := by
  intro key
  have h := Mem.read1_write (m := s.mem) key (bytes.take (128 * x.lines)) a hok
  rw [List.length_take, Nat.min_comm] at h
  refine h.trans ?_
  split
  next hin =>
    have hlt : a - key < 128 * x.lines := by omega
    rw [List.getD_eq_getElem?_getD, List.getD_eq_getElem?_getD, List.getElem?_take, if_pos hlt]
  next => rfl

theorem Core.chan_updChan {k : Core} {n : Nat} {x : Chan} (h : k.chan n = some x) (f : Chan → Chan) (hconf : (f x).conf = x.conf) :
    (k.updChan n f).chan n = some (f x) := by
  have hx : x.conf = true := by
    obtain ⟨y, _, hy⟩ := Option.bind_eq_some_iff.mp h
    split at hy
    next hc => exact Option.some.inj hy ▸ hc
    next => exact absurd hy (by simp)
  rw [Core.updChan_of_chan h]
  show ((Tbl.get (Tbl.set k.chans n (f x)) n).bind fun x => if x.conf then some x else none) = some (f x)
  rw [Tbl.get_set_self, Option.bind_some, hconf, hx, if_pos rfl]

/-! ### Replies -/

section
variable {s : State} {core : Fin 64} {gid : BitVec 16} {id : Nat}

theorem execReplyArrival_none (ho : (s.core core.val).op id = none) :
    execReplyArrival core ⟨gid, id⟩ s = .next (s.message false gid (.replyArrival core ⟨gid, id⟩) fun _ s =>
      if (s.core core.val).pend.any (·.id == id) then s.deliver core.val id fun w => w else s) := by
  unfold execReplyArrival
  dsimp only
  rw [ho]

variable {op : MemOp} (ho : (s.core core.val).op id = some op)
include ho

theorem execReplyArrival_req {rq : Req} {at_ : Nat} (hk : op.kind = .req rq at_) (hleft : op.left = true) (hfq : op.fq = false) :
    execReplyArrival core ⟨gid, id⟩ s = .next (s.serveReq core.val id op rq) := by
  unfold execReplyArrival
  dsimp only
  rw [ho]
  dsimp only
  rw [hk]
  dsimp only
  rw [hleft, hfq]
  rfl

theorem execReplyArrival_placed (hk : op.plKind ≠ none) : execReplyArrival core ⟨gid, id⟩ s = .next (s.testEntry core.val id) := by
  unfold MemOp.plKind at hk
  unfold execReplyArrival
  dsimp only
  rw [ho]
  dsimp only
  split at hk
  next k h => rw [h]
  next => exact absurd rfl hk

end

/-! ### O46 -/

/-- Settles O46: a new entry is the oldest performed CHCFG's; a landing writes its free slot; a reply goes to the operation that asked. -/
theorem channelAndReplyResults : Obligations.ChannelAndReplyResults := by
  unfold Obligations.ChannelAndReplyResults
  intro s core n gid g r hrun c
  have hentry : exec (.chcfgEntryArrival core n) s = execChcfgEntryArrival core n s := rfl
  have hland : ∀ sender slot shape tag bytes, exec (.channelLanding gid core sender n slot shape tag bytes) s =
      execChannelLanding gid core sender n slot shape tag bytes s := fun _ _ _ _ _ => rfl
  have hreply : ∀ id, exec (.replyArrival core ⟨gid, id⟩) s = execReplyArrival core ⟨gid, id⟩ s := fun _ => rfl
  simp only [hentry, hland, hreply]
  refine ⟨?_, ?_, ?_, ?_, ?_, ?_, ?_, ?_, ?_, ?_, ?_⟩
  · intro before o after l off x hq hbefore hk hun hl hgrp hchan
    rw [execChcfgEntryArrival_of_first hrun hgrp hq hbefore hk hun hl]
    dsimp only
    rw [hchan]
  · intro before o after l off hq hbefore hk hun hl hgrp hst hchan
    rw [execChcfgEntryArrival_of_first hrun hgrp hq hbefore hk hun hl]
    dsimp only
    rw [hchan]
    dsimp only
    rw [if_pos hst]
  · intro x sender slot shape tag bytes hok hlive hx hslot hfree hbar
    refine ⟨s.landTile c n.val x slot shape sender bytes, execChannelLanding_quiet hrun hlive hx hslot hfree shape tag bytes hbar,
      Mem.write_wf _ _ hok, State.landTile_read1 hok c n.val x slot shape sender bytes, ?_⟩
    refine ⟨{ x with slots := x.slots.set slot (2, shape, sender) }, ?_, rfl, rfl, rfl⟩
    unfold State.landTile
    rw [State.updCore_self]
    exact Core.chan_updChan hx (fun x => { x with slots := x.slots.set slot (2, shape, sender) }) rfl
  · intro x b sender slot shape tag bytes hlive hx hslot hfree hbar
    exact execChannelLanding_counts hrun hlive hx hslot hfree shape tag bytes hbar
  · intro peer hlive
    exact congrArg Host.Outcome.next (State.message_live hlive _ _)
  · intro x sender slot shape tag bytes hlive hx hslot hused
    exact execChannelLanding_overrun hrun hlive hx hslot hused shape tag bytes
  · intro op rq at_ id ho hk hleft hfq
    exact execReplyArrival_req ho hk hleft hfq
  · intro op id ho hk
    exact execReplyArrival_placed ho hk
  · rintro id ho hlive ⟨p, hp, hid⟩
    have hany : (s.core c).pend.any (·.id == id) = true := List.any_eq_true.mpr ⟨p, hp, beq_iff_eq.mpr hid⟩
    rw [execReplyArrival_none ho, State.message_live hlive]
    exact congrArg Host.Outcome.next (if_pos hany)
  · intro id ho hheld
    rw [execReplyArrival_none ho, State.message_held hheld]
  · intro id ho hstale
    rw [execReplyArrival_none ho, State.message_stale hstale]

end Sys2Proof.Machine
end

section
/-! SUPPORT. Operations of a route (12 R195 to R203). -/

namespace Sys2Proof.Machine
open Sys2Proof.Bits

theorem Route.gave_queue (r : Route) (rows : List (List Byte)) : (r.gave rows).queue = r.queue := by
  unfold Route.gave
  split
  · rfl
  · rfl

theorem Route.gave_run (r : Route) (rows : List (List Byte)) : (r.gave rows).run = r.run := by
  unfold Route.gave
  split
  · rfl
  · rfl

/-- An operation waits for other packages unless it has a result or they have answered all it sent and asked. -/
theorem Route.waits_eq_true_iff {r : Route} : r.waits = true ↔ ¬ (r.res.1 ≠ 0 ∨ (r.sent = [] ∧ r.asked = [])) := by
  unfold Route.waits
  rw [Bool.and_eq_true, beq_iff_eq, Bool.not_eq_true', ← Bool.not_eq_true, Bool.and_eq_true, List.isEmpty_iff, List.isEmpty_iff, not_or, Classical.not_not]

theorem Route.waits_eq_false {r : Route} (h : r.res.1 ≠ 0 ∨ (r.sent = [] ∧ r.asked = [])) : r.waits = false := by
  rw [← Bool.not_eq_true, Route.waits_eq_true_iff, Classical.not_not]
  exact h

/-! ### An operation that completes -/

/-- The route goes on behind the operation that has completed. -/
def State.routeOn (s : State) (ctx route : Fin 64) (rest : List ROp) : State :=
  let u := (s.updRoute ctx.val route.val (·.ended)).routeReads ctx.val route.val
  if rest = [] then u else u.settled 0 (.routeOperationRun ctx route)

section
variable {s : State} {ctx route : Fin 64} {r : Route} {o : ROp} {rest : List ROp} (hq : r.queue = o :: rest)
include hq

theorem State.routeDone_eq :
    s.routeDone ctx.val route.val r o =
      let f : For := ⟨some o.core, ctx.val, 16⟩
      let w := if o.op = 8 ∧ r.res.1 = 0 then s.combine f r o (wnth r.words 0).toNat
        else { Work.on s with res := r.res.1, evt := r.res.2.1, fva := r.res.2.2 }
      let s1 := if r.ready then w.st.routeRecord f r.desc o r.words (w.res, w.evt, w.fva) else w.st
      let s2 := s1.tick 16 0
      (if r.ready then s2.addSem 16 (rtSem r.desc) 1 else s2).routeOn ctx route rest := by
  have hlen : r.queue.length ≤ 1 ↔ rest = [] := by
    rw [hq, List.length_cons, ← List.length_eq_zero_iff]
    omega
  unfold State.routeDone State.routeOn
  dsimp only
  rw [fin64_val, fin64_val]
  simp only [hlen]

theorem State.routeDone_unready (hready : r.ready = false) (hop : o.op ≠ 8 ∨ r.res.1 ≠ 0) :
    s.routeDone ctx.val route.val r o = (s.tick 16 0).routeOn ctx route rest := by
  rw [State.routeDone_eq hq]
  dsimp only
  rw [hready, if_neg Bool.false_ne_true, if_neg Bool.false_ne_true, if_neg (Classical.not_and_iff_not_or_not.mpr hop)]
  rfl

theorem State.routeDone_ready (hready : r.ready = true) (hop : o.op ≠ 8 ∨ r.res.1 ≠ 0) :
    s.routeDone ctx.val route.val r o =
      (((s.routeRecord ⟨some o.core, ctx.val, 16⟩ r.desc o r.words r.res).tick 16 0).addSem 16 (rtSem r.desc) 1).routeOn ctx route rest := by
  rw [State.routeDone_eq hq]
  dsimp only
  rw [hready, if_pos rfl, if_pos rfl, if_neg (Classical.not_and_iff_not_or_not.mpr hop)]
  rfl

theorem State.routeDone_combine (hready : r.ready = true) (hop : o.op = 8) (hres : r.res.1 = 0) :
    s.routeDone ctx.val route.val r o =
      let w := s.combine ⟨some o.core, ctx.val, 16⟩ r o (wnth r.words 0).toNat
      (((w.st.routeRecord ⟨some o.core, ctx.val, 16⟩ r.desc o r.words (w.res, w.evt, w.fva)).tick 16 0).addSem 16 (rtSem r.desc) 1).routeOn
        ctx route rest := by
  rw [State.routeDone_eq hq]
  dsimp only
  rw [hready, if_pos rfl, if_pos rfl, if_pos ⟨hop, hres⟩]

end

/-! ### The two events -/

section
variable {s : State} {ctx route : Fin 64} {o : ROp} {rest : List ROp} (hq : (s.route ctx.val route.val).queue = o :: rest)
include hq

theorem execRouteOperationRun_of_queue :
    execRouteOperationRun ctx route s = if (s.route ctx.val route.val).run then .next s
      else .next (((s.runRoute ctx.val route.val (s.route ctx.val route.val) o).updRoute ctx.val route.val fun k =>
        { k with run := true }).after 1 (.routeOperationComplete ctx route [])) := by
  unfold execRouteOperationRun
  dsimp only
  rw [hq]

variable (peers : List (List Byte))

theorem execRouteOperationComplete_of_queue :
    execRouteOperationComplete ctx route peers s =
      let r := (s.route ctx.val route.val).gave peers
      let s0 := s.updRoute ctx.val route.val fun _ => r
      if (s.route ctx.val route.val).run = false then .next s
      else if r.waits then .next s0
      else if r.res.1 = 0 ∧ s.unapplied r.ids.1 r.ids.2 = true then .next (s0.after 1 (.routeOperationComplete ctx route []))
      else .next (s0.routeDone ctx.val route.val r o) := by
  unfold execRouteOperationComplete
  dsimp only
  rw [Route.gave_queue, hq]
  dsimp only
  rw [Route.gave_run]
  simp only [Bool.not_eq_true']

variable (hrun : (s.route ctx.val route.val).run = true)
include hrun

theorem execRouteOperationComplete_of_run :
    execRouteOperationComplete ctx route peers s =
      let r := (s.route ctx.val route.val).gave peers
      let s0 := s.updRoute ctx.val route.val fun _ => r
      if r.waits then .next s0
      else if r.res.1 = 0 ∧ s.unapplied r.ids.1 r.ids.2 = true then .next (s0.after 1 (.routeOperationComplete ctx route []))
      else .next (s0.routeDone ctx.val route.val r o) := by
  rw [execRouteOperationComplete_of_queue hq]
  dsimp only
  rw [hrun, if_neg (by decide)]

variable {r : Route} (hr : (s.route ctx.val route.val).gave peers = r) (hanswered : r.res.1 ≠ 0 ∨ (r.sent = [] ∧ r.asked = []))
include hr hanswered

/-- What other packages have answered completes once its own rows have been applied. -/
theorem execRouteOperationComplete_answered :
    execRouteOperationComplete ctx route peers s =
      let s0 := s.updRoute ctx.val route.val fun _ => r
      if r.res.1 = 0 ∧ s.unapplied r.ids.1 r.ids.2 = true then .next (s0.after 1 (.routeOperationComplete ctx route []))
      else .next (s0.routeDone ctx.val route.val r o) := by
  rw [execRouteOperationComplete_of_run hq peers hrun, hr]
  dsimp only
  rw [Route.waits_eq_false hanswered, if_neg Bool.false_ne_true]

theorem execRouteOperationComplete_applied (happlied : r.res.1 ≠ 0 ∨ s.unapplied r.ids.1 r.ids.2 = false) :
    execRouteOperationComplete ctx route peers s = .next ((s.updRoute ctx.val route.val fun _ => r).routeDone ctx.val route.val r o) := by
  rw [execRouteOperationComplete_answered hq peers hrun hr hanswered]
  dsimp only
  rw [if_neg (Classical.not_and_iff_not_or_not.mpr (happlied.imp_right fun h => by rw [h]; exact Bool.false_ne_true))]

end

/-- Settles O47: the front operation of a route runs, and completes when it is answered and its rows are applied. -/
theorem routeOperationResults : Obligations.RouteOperationResults := by
  unfold Obligations.RouteOperationResults
  intro s ctx route peers o rest x n r0 r s0 f next answered applied hq
  have hev : exec (.routeOperationRun ctx route) s = execRouteOperationRun ctx route s := rfl
  have hcomplete : exec (.routeOperationComplete ctx route peers) s = execRouteOperationComplete ctx route peers s := rfl
  have hrq : r.queue = o :: rest := (r0.gave_queue peers).trans hq
  have hnext : ∀ t : State, t.routeOn ctx route rest = next t := fun _ => rfl
  rw [hev, hcomplete]
  refine ⟨fun hrun => ?_, fun hrun => ?_, fun hrun => ?_, fun hrun hwait => ?_, fun hrun ha hap => ?_, fun hrun ha hap hready hop => ?_,
    fun hrun ha hap hready hop => ?_, fun hrun ha hap hready hop hres => ?_⟩
  · rw [execRouteOperationRun_of_queue hq]
    exact if_pos hrun
  · rw [execRouteOperationRun_of_queue hq]
    exact if_neg (by rw [hrun]; exact Bool.false_ne_true)
  · rw [execRouteOperationComplete_of_queue hq]
    exact if_pos hrun
  · rw [execRouteOperationComplete_of_run hq peers hrun]
    exact if_pos (Route.waits_eq_true_iff.mpr hwait)
  · have hun : r.res.1 = 0 ∧ s.unapplied r.ids.1 r.ids.2 = true := by
      rw [not_or, Classical.not_not, Bool.not_eq_false] at hap
      exact hap
    rw [execRouteOperationComplete_answered hq peers hrun rfl ha]
    exact if_pos hun
  · rw [execRouteOperationComplete_applied hq peers hrun rfl ha hap, ← hnext]
    exact congrArg Host.Outcome.next (State.routeDone_unready hrq hready hop)
  · rw [execRouteOperationComplete_applied hq peers hrun rfl ha hap, ← hnext]
    exact congrArg Host.Outcome.next (State.routeDone_ready hrq hready hop)
  · intro w
    rw [execRouteOperationComplete_applied hq peers hrun rfl ha hap, ← hnext]
    exact congrArg Host.Outcome.next (State.routeDone_combine hrq hready hop hres)

end Sys2Proof.Machine
end

section
/-! SUPPORT. Joins, stages of a conversion, steps of a collective, and stores through entries (13 R214 to R219). -/

namespace Sys2Proof.Machine
open Sys2Proof.Bits

/-! ### Joins and their timeouts -/

/-- With no entry in any context a join is the collectives' alone. -/
theorem State.joinArrives_colls {s : State} (h : ∀ e ∈ s.ctxs, e.2.ptab = []) (j : Join) :
    s.joinArrives j = s.ridge.colls.foldl (fun (s : State) k => s.collJoined k) (s.updRidge fun r => { r with joins := r.joins ++ [j] }) := by
  have hentries : ∀ (l : List (Nat × Ctx)) (f : Nat → State → Nat × PlEnt → State) (t : State), (∀ e ∈ l, e.2.ptab = []) →
      l.foldl (fun (t : State) x => x.2.ptab.foldl (f x.1) t) t = t := by
    intro l f t hl
    induction l generalizing t with
    | nil => rfl
    | cons e l ih =>
      rw [List.foldl_cons, hl e List.mem_cons_self]
      exact ih t fun e he => hl e (List.mem_cons_of_mem _ he)
  unfold State.joinArrives
  extract_lets s1 s2
  have hs2 : s2 = s1 := hentries s.ctxs (fun x s e => if e.2.convs.isEmpty || convKey e.2.words != j.key then s else s.convJoined x e.1) s1 h
  rw [hs2]
  rfl

theorem execJoinTimeout_conv {s : State} {ctx : Fin 64} {entry : Fin 1024} {cv : Conv} {rest : List Conv}
    (hcv : (s.plent ctx.val entry.val).convs = cv :: rest) (hseq : cv.seq < 65536) (hat : cv.joinAt ≠ 0) (hbegun : cv.begun = false)
    (hdue : cv.joinAt + 2 ^ get s.regs.meshcfg 53 48 ≤ s.now + 1) :
    execJoinTimeout ctx entry cv.seq s = .next (s.convEnd ctx.val entry.val 4 0) := by
  unfold execJoinTimeout
  rw [if_neg (by omega : ¬ 2 ^ 16 ≤ cv.seq), hcv]
  dsimp only
  rw [if_pos ⟨rfl, hat, hbegun, hdue⟩]

theorem execJoinTimeout_coll {s : State} {ctx : Fin 64} {entry : Fin 1024} {id : Nat} {k : Coll}
    (hk : s.ridge.colls.find? (fun k => k.id + 65536 == id + 65536) = some k) (hsent : k.sent = true) (hbegun : k.begun = false) :
    execJoinTimeout ctx entry (id + 65536) s = .next (s.endColl k 4 0) := by
  unfold execJoinTimeout
  rw [if_pos (by omega : 2 ^ 16 ≤ id + 65536)]
  simp only [Nat.reducePow, hk, hsent, hbegun, Bool.not_false, Bool.and_self, if_true]

/-! ### Stages of a conversion -/

/-- What a stage that has begun does with its messages: it sends them, and takes what comes once they have been sent. -/
def State.stageMoves (s : State) (x e : Nat) (c : Conv) (g : Stage) (peers : List (List Byte)) : State := match c.went with
  | some ms => s.convTake x e c g ms peers
  | none =>
    let s1 := s.convSend x e c g
    match (s1.plent x e).convs with
    | d :: _ => (match d.went with
      | some ms => if d.seq = c.seq then s1.convTake x e d g ms peers else s1
      | none => s1)
    | [] => s1

section
variable {s : State} {ctx : Fin 64} {entry : Fin 1024} {cv : Conv} {rest : List Conv}
  (hcv : (s.plent ctx.val entry.val).convs = cv :: rest) (peers : List (List Byte))
include hcv

theorem execConversionStageComplete_puts {ms : List (Nat × Nat)} (hputs : cv.puts = some ms) :
    execConversionStageComplete ctx entry peers s = .next (if s.idsOut cv.ids then s.after 1 (.conversionStageComplete ctx entry [])
      else if ms.isEmpty then s.convFin ctx.val entry.val 0 0 else s) := by
  unfold execConversionStageComplete
  dsimp only
  rw [hcv]
  dsimp only
  rw [hputs]
  dsimp only [State.convNext]
  rw [fin64_val, fin1024_val]

variable (hputs : cv.puts = none)
include hputs

theorem execConversionStageComplete_stage :
    execConversionStageComplete ctx entry peers s =
      let g := convStage s.regs.meshcfg (s.plent ctx.val entry.val).words cv
      .next (if cv.joinAt = 0 then s.convGo ctx.val entry.val (4 - cv.axis)
        else if cv.ids.isSome then (if s.idsOut cv.ids then s.after 1 (.conversionStageComplete ctx entry []) else s.stageSwap ctx.val entry.val cv g)
        else if g.kind = .local_ then s.stageDone ctx.val entry.val cv g
        else if !cv.begun then s
        else s.stageMoves ctx.val entry.val cv g peers) := by
  unfold execConversionStageComplete
  dsimp only
  rw [hcv]
  dsimp only
  rw [hputs]
  dsimp only [State.convNext]
  rw [fin64_val, fin1024_val]
  rfl

theorem execConversionStageComplete_moves (hat : cv.joinAt ≠ 0) (hids : cv.ids = none)
    (hkind : (convStage s.regs.meshcfg (s.plent ctx.val entry.val).words cv).kind ≠ .local_) (hbegun : cv.begun = true) :
    execConversionStageComplete ctx entry peers s =
      .next (s.stageMoves ctx.val entry.val cv (convStage s.regs.meshcfg (s.plent ctx.val entry.val).words cv) peers) := by
  rw [execConversionStageComplete_stage hcv peers hputs]
  dsimp only
  rw [if_neg hat, hids, Option.isSome_none, if_neg Bool.false_ne_true, if_neg hkind, hbegun]
  rfl

end

theorem State.stageMoves_takes {s : State} {x e : Nat} {c : Conv} {g : Stage} {peers : List (List Byte)} {ms : List (Nat × Nat)}
    (hwent : c.went = some ms) : s.stageMoves x e c g peers = s.convTake x e c g ms peers := by
  unfold State.stageMoves
  rw [hwent]

theorem State.stageMoves_sends {s : State} {x e : Nat} {c d : Conv} {later : List Conv} {g : Stage} {peers : List (List Byte)}
    {ms : List (Nat × Nat)} (hwent : c.went = none) (hd : ((s.convSend x e c g).plent x e).convs = d :: later) (hsent : d.went = some ms)
    (hseq : d.seq = c.seq) : s.stageMoves x e c g peers = (s.convSend x e c g).convTake x e d g ms peers := by
  unfold State.stageMoves
  rw [hwent]
  dsimp only
  rw [hd]
  dsimp only
  rw [hsent]
  dsimp only
  rw [if_pos hseq]

/-! ### Steps of a collective -/

/-- What a step that has begun does with its messages. -/
def State.stepMoves (s : State) (id : Nat) (k : Coll) (peers : List (List Byte)) : State := match k.went with
  | some ms => s.collTake k ms peers
  | none =>
    let s1 := s.collSend k
    match s1.ridge.colls.find? fun k => k.id == id with
    | some k1 => (match k1.went with
      | some ms => s1.collTake k1 ms peers
      | none => s1)
    | none => s1

/-- A collective that has written lands its bytes at its barrier. -/
def State.stepLands (s : State) (k : Coll) : State := match clBar k.desc with
  | some b => if k.landed = 0 then s else s.landForPacket k.ctx b k.landed
  | none => s

section
variable {s : State} {id : Nat} {k : Coll} (hk : s.ridge.colls.find? (fun k => k.id == id) = some k) (peers : List (List Byte))
include hk

theorem execCollectiveStepComplete_tries {k1 : Coll} (hsent : k.sent = false)
    (hk1 : (s.collTry k).ridge.colls.find? (fun k => k.id == id) = some k1) :
    execCollectiveStepComplete id peers s = .next ((s.collTry k).collJoined k1) := by
  unfold execCollectiveStepComplete
  dsimp only
  rw [hk]
  dsimp only
  rw [hsent, hk1]
  rfl

variable (hsent : k.sent = true)
include hsent

theorem execCollectiveStepComplete_early (hbegun : k.begun = false) : execCollectiveStepComplete id peers s = .next s := by
  unfold execCollectiveStepComplete
  dsimp only
  rw [hk]
  dsimp only
  rw [hsent, hbegun]
  rfl

variable (hbegun : k.begun = true)
include hbegun

theorem execCollectiveStepComplete_moves (hids : k.ids = none) :
    execCollectiveStepComplete id peers s = .next (s.stepMoves id k peers) := by
  unfold execCollectiveStepComplete
  dsimp only
  rw [hk]
  dsimp only
  rw [hsent, hbegun, hids]
  rfl

theorem execCollectiveStepComplete_written {ids : Nat × Nat} (hids : k.ids = some ids) :
    execCollectiveStepComplete id peers s = .next (if s.unapplied ids.1 ids.2 then s.after 1 (.collectiveStepComplete id [])
      else (s.stepLands k).endColl k 0 0) := by
  unfold execCollectiveStepComplete
  dsimp only
  rw [hk]
  dsimp only
  rw [hsent, hbegun, hids]
  rfl

end

theorem State.stepMoves_takes {s : State} {id : Nat} {k : Coll} {peers : List (List Byte)} {ms : List (Nat × Nat)}
    (hwent : k.went = some ms) : s.stepMoves id k peers = s.collTake k ms peers := by
  unfold State.stepMoves
  rw [hwent]

theorem State.stepMoves_sends {s : State} {id : Nat} {k k1 : Coll} {peers : List (List Byte)} {ms : List (Nat × Nat)} (hwent : k.went = none)
    (hk1 : (s.collSend k).ridge.colls.find? (fun k => k.id == id) = some k1) (hsent : k1.went = some ms) :
    s.stepMoves id k peers = (s.collSend k).collTake k1 ms peers := by
  unfold State.stepMoves
  rw [hwent]
  dsimp only
  rw [hk1]
  dsimp only
  rw [hsent]

theorem State.stepLands_quiet {s : State} {k : Coll} (h : clBar k.desc = none ∨ k.landed = 0) : s.stepLands k = s := by
  unfold State.stepLands
  split
  next b hb => exact if_pos (h.resolve_left (by rw [hb]; exact Option.some_ne_none b))
  next => rfl

theorem State.stepLands_lands {s : State} {k : Coll} {b : Nat} (hb : clBar k.desc = some b) (hl : k.landed ≠ 0) :
    s.stepLands k = s.landForPacket k.ctx b k.landed := by
  unfold State.stepLands
  rw [hb]
  exact if_neg hl

/-! ### Stores through entries -/

/-- A store through an entry is done. -/
def State.opEnds (s : State) (c id : Nat) : State := ((s.updCore c fun k => k.dropOp id).ended c).pump c

/-- A store at its eave unit faults with cause `cause` at `va`, or fences its context. -/
def State.storeFaults (s : State) (c id x : Nat) (o : MemOp) (cause va : Nat) : State :=
  s.agentFault x cause fun s => s.opFault c o cause 2 1 va (.op c id)

theorem State.storeFaults_fault (s : State) (c id x : Nat) (o : MemOp) {cause : Nat} (h : cause ≠ 0) (va : Nat) :
    s.storeFaults c id x o cause va = s.opFault c o cause 2 1 va (.op c id) := if_neg h

theorem State.storeFaults_fence (s : State) (c id x : Nat) (o : MemOp) (va : Nat) : s.storeFaults c id x o 0 va = s.fenceCtx x 4 := by
  unfold State.storeFaults State.agentFault
  rw [if_pos rfl]

/-- A store through an entry has written, or has met a fault. -/
def State.storeWrote (c id x : Nat) (o : MemOp) (w : State × Option (Nat × Nat)) : State := match w.2 with
  | some (va, cause) => w.1.storeFaults c id x o cause va
  | none => w.1.opEnds c id

theorem State.storeWrote_none {w : State × Option (Nat × Nat)} (h : w.2 = none) (c id x : Nat) (o : MemOp) :
    State.storeWrote c id x o w = w.1.opEnds c id := by
  unfold State.storeWrote
  rw [h]

theorem State.storeWrote_some {w : State × Option (Nat × Nat)} {va cause : Nat} (h : w.2 = some (va, cause)) (c id x : Nat) (o : MemOp) :
    State.storeWrote c id x o w = w.1.storeFaults c id x o cause va := by
  unfold State.storeWrote
  rw [h]

section
variable {s : State} {core : Fin 64} {id : Nat} {o : MemOp} {e : Enf} {bytes : List (Nat × List Byte)}
  (ho : (s.core core.val).op id = some o) (hk : o.kind = .pstore e bytes) (hfq : o.fq = false)
include ho hk hfq

/-- A store at its eave unit is tested against the entry's version, then held by a conversion or written (13 R218). -/
theorem execTsthAtEave_of_store :
    execTsthAtEave core id s =
      let x := s.ctxOf core.val
      let p := s.plent x (hPle e.ws)
      let g := 8 + plAff p.words % 8
      let s0 := s.merge g (s.stampOf (core.val / 8))
      let w := s0.pstoreGo core.val x g p.words bytes
      if hVer e.ws != plVer p.words then .next (s.storeFaults core.val id x o 8 (hFirst e.shape e.ws (plBase p.words) e.offs))
      else if plConv p.words then
        if 2 ^ 22 < p.heldBytes + bytes.foldl (fun n b => n + b.2.length) 0 then .next (s.after 60 (.tsthAtEave core id))
        else .next ((s0.updPlent x (hPle e.ws) fun q => { q with held := q.held ++ bytes.filterMap fun b =>
          (heldAt s.regs.meshcfg p.words ((b.1 : Int) - pstoreBase) b.2.length).map fun k => (⟨k, some core.val, none, b.2⟩ : HeldSt) }).opEnds
            core.val id)
      else .next (State.storeWrote core.val id x o w) := by
  unfold execTsthAtEave
  dsimp only
  rw [ho]
  dsimp only
  rw [hk]
  dsimp only
  rw [hfq]
  rfl

end

/-! ### O48 -/

/-- Settles O48: a join, a stage, a step and a store go by the tests of their own definitions in turn. -/
theorem conversionAndCollectiveResults : Obligations.ConversionAndCollectiveResults := by
  unfold Obligations.ConversionAndCollectiveResults
  intro s ctx core entry id peers x n p c
  have htimeout : ∀ seq, exec (.joinTimeout ctx entry seq) s = execJoinTimeout ctx entry seq s := fun _ => rfl
  have hstage : exec (.conversionStageComplete ctx entry peers) s = execConversionStageComplete ctx entry peers s := rfl
  have hstep : exec (.collectiveStepComplete id peers) s = execCollectiveStepComplete id peers s := rfl
  have hstore : exec (.tsthAtEave core id) s = execTsthAtEave core id s := rfl
  simp only [htimeout, hstage, hstep, hstore]
  refine ⟨fun key rank seq axis src dst hptab => ?_, fun cv rest hcv hseq hat hbegun hdue => ?_, fun k hk hsent hbegun => ?_,
    fun cv rest hcv => ⟨?_, ?_, ?_, ?_, ?_, ?_, ?_⟩, fun k hk => ⟨?_, ?_, ?_, ?_, ?_, ?_, ?_⟩, fun o e bytes ho hk hfq => ?_⟩
  · exact congrArg Host.Outcome.next (State.joinArrives_colls hptab _)
  · exact execJoinTimeout_conv hcv hseq hat hbegun hdue
  · exact execJoinTimeout_coll hk hsent hbegun
  · intro hputs hat
    rw [execConversionStageComplete_stage hcv peers hputs]
    exact congrArg Host.Outcome.next (if_pos hat)
  · intro hputs hat hids hkind
    rw [execConversionStageComplete_stage hcv peers hputs]
    dsimp only
    rw [if_neg hat, hids, Option.isSome_none, if_neg Bool.false_ne_true, if_pos hkind]
  · intro hputs hat hids hkind hbegun
    rw [execConversionStageComplete_stage hcv peers hputs]
    dsimp only
    rw [if_neg hat, hids, Option.isSome_none, if_neg Bool.false_ne_true, if_neg hkind, hbegun]
    rfl
  · intro ms hputs hat hids hkind hbegun hwent
    rw [execConversionStageComplete_moves hcv peers hputs hat hids hkind hbegun, State.stageMoves_takes hwent]
  · intro d later ms hputs hat hids hkind hbegun hwent hd hsent hseq
    rw [execConversionStageComplete_moves hcv peers hputs hat hids hkind hbegun, State.stageMoves_sends hwent hd hsent hseq]
  · intro ids hputs hat hids
    rw [execConversionStageComplete_stage hcv peers hputs]
    dsimp only
    rw [if_neg hat, hids, Option.isSome_some, if_pos rfl]
    rfl
  · intro ids ms hputs hids
    rw [execConversionStageComplete_puts hcv peers hputs, hids]
    simp only [State.idsOut, List.isEmpty_iff]
    rfl
  · intro k1 hsent hk1
    exact execCollectiveStepComplete_tries hk peers hsent hk1
  · intro hsent hbegun
    exact execCollectiveStepComplete_early hk peers hsent hbegun
  · intro ms hsent hbegun hids hwent
    rw [execCollectiveStepComplete_moves hk peers hsent hbegun hids, State.stepMoves_takes hwent]
  · intro k1 ms hsent hbegun hids hwent hk1 hwent1
    rw [execCollectiveStepComplete_moves hk peers hsent hbegun hids, State.stepMoves_sends hwent hk1 hwent1]
  · intro ids hsent hbegun hids hun
    rw [execCollectiveStepComplete_written hk peers hsent hbegun hids, if_pos hun]
  · intro ids hsent hbegun hids hun hquiet
    rw [execCollectiveStepComplete_written hk peers hsent hbegun hids, hun, if_neg Bool.false_ne_true, State.stepLands_quiet hquiet]
  · intro ids b hsent hbegun hids hun hb hl
    rw [execCollectiveStepComplete_written hk peers hsent hbegun hids, hun, if_neg Bool.false_ne_true, State.stepLands_lands hb hl]
  · have hcur : ∀ {v w : Nat}, v = w → (v != w) = false := fun h => by simp [h]
    rw [execTsthAtEave_of_store ho hk hfq]
    refine ⟨fun hver => ?_, fun hver hconv hsize => ?_, fun hver hconv hsize => ?_, fun hver hconv hw => ?_, fun va cause hver hconv hw hcause => ?_,
      fun va hver hconv hw => ?_⟩
    · dsimp only
      rw [if_pos (bne_iff_ne.mpr hver), State.storeFaults_fault _ _ _ _ _ (by decide)]
    · dsimp only
      rw [hcur hver, if_neg Bool.false_ne_true, if_pos hconv, if_neg (Nat.not_lt_of_le hsize)]
      rfl
    · dsimp only
      rw [hcur hver, if_neg Bool.false_ne_true, if_pos hconv, if_pos hsize]
    · dsimp only
      rw [hcur hver, if_neg Bool.false_ne_true, hconv, if_neg Bool.false_ne_true]
      exact congrArg Host.Outcome.next (State.storeWrote_none hw _ _ _ _)
    · dsimp only
      rw [hcur hver, if_neg Bool.false_ne_true, hconv, if_neg Bool.false_ne_true]
      exact congrArg Host.Outcome.next ((State.storeWrote_some hw _ _ _ _).trans (State.storeFaults_fault _ _ _ _ _ hcause _))
    · dsimp only
      rw [hcur hver, if_neg Bool.false_ne_true, hconv, if_neg Bool.false_ne_true]
      exact congrArg Host.Outcome.next ((State.storeWrote_some hw _ _ _ _).trans (State.storeFaults_fence _ _ _ _ _ _))

end Sys2Proof.Machine
end

section
/-! SUPPORT. Links of transfer chains, growing slabs and expert slots (18 R322; 10 R170 to R175). -/

namespace Sys2Proof.Machine
open Sys2Proof.Bits

/-! ### Transfer chains -/

/-- What a link of a chain copies: its record is read, its source read whole, and its destination written. -/
def State.linkCopies (s : State) (ch : Fin 64) (c : Chain) (rest : List Chain) : State :=
  let x := get (s.xch ch.val).own 5 0
  let f : For := ⟨c.core, x, 16⟩
  let l := (Work.on s).read f c.link 32
  let ws := (List.range 4).map (wordAt l.1)
  if l.2.res ≠ 0 then l.2.st.faultChain ch.val l.2.fva
  else if !s.linkOk x c.link ws then l.2.st.faultChain ch.val c.link
  else
    let dst := get (wnth ws 1) 51 0
    let src := l.2.read f (get (wnth ws 0) 51 0) (get (wnth ws 2) 39 0)
    let w := src.2.write f dst src.1
    let lo := src.2.st.nextId
    if w.res ≠ 0 then
      let upto := w.st.applied lo w.st.nextId (min (w.fva - dst) src.1.length)
      (w.st.updXch ch.val fun k => { k with wm := (k.wm + upto) % 2 ^ 48 }).faultChain ch.val w.fva
    else (w.st.updXch ch.val fun k => { k with chains := { c with made := some (ws, lo, w.st.nextId) } :: rest }).after 0
      (.transferLinkComplete ch)

section
variable {s : State} {ch : Fin 64} {c : Chain} {rest : List Chain} (hc : (s.xch ch.val).chains = c :: rest)
include hc

theorem execTransferLinkComplete_made {m : List Word × Nat × Nat} (hm : c.made = some m) :
    execTransferLinkComplete ch s =
      .next (if s.unapplied m.2.1 m.2.2 then s.after 1 (.transferLinkComplete ch) else s.linkDone ch.val c rest m.1) := by
  unfold execTransferLinkComplete
  dsimp only
  rw [hc]
  dsimp only
  rw [hm]

variable (hm : c.made = none)
include hm

theorem execTransferLinkComplete_begins (hon : c.on = false) :
    execTransferLinkComplete ch s = .next ((s.updXch ch.val fun k => { k with chains := { c with on := true } :: rest }).after
      (s.linkTime (get (s.xch ch.val).own 5 0) c) (.transferLinkComplete ch)) := by
  unfold execTransferLinkComplete
  dsimp only
  rw [hc]
  dsimp only
  rw [hm]
  dsimp only
  rw [if_pos hon]

theorem execTransferLinkComplete_copies (hon : c.on = true) : execTransferLinkComplete ch s = .next (s.linkCopies ch c rest) := by
  unfold execTransferLinkComplete State.linkCopies
  dsimp only
  rw [hc]
  dsimp only
  rw [hm]
  dsimp only
  rw [if_neg (by rw [hon]; exact Bool.noConfusion), apply_ite Host.Outcome.next, apply_ite Host.Outcome.next, apply_ite Host.Outcome.next]

end

/-- The last link of the last chain leaves the channel idle (18 R322). -/
theorem State.linkDone_last {s : State} {ch : Nat} {c : Chain} {ws : List Word} (hsem : bit (wnth ws 2) 57 = false)
    (hend : get (wnth ws 3) 51 0 = 0) (hpkt : c.pkt = none) :
    s.linkDone ch c [] ws = (((s.updXch ch fun k => { k with wm := (k.wm + get (wnth ws 2) 39 0) % 2 ^ 48 }).tick 16 0).updXch ch fun k =>
      { k with chains := [] }).updXch ch fun k => { k with state := 0 } := by
  unfold State.linkDone
  dsimp only
  rw [hsem, if_neg Bool.false_ne_true, if_neg (Classical.not_not.mpr hend), hpkt]
  rfl

theorem State.linkDone_next {s : State} {ch : Nat} {c : Chain} {rest : List Chain} {ws : List Word} (hsem : bit (wnth ws 2) 57 = true)
    (hmore : get (wnth ws 3) 51 0 ≠ 0) :
    s.linkDone ch c rest ws =
      let c1 := { c with link := get (wnth ws 3) 51 0, made := none }
      let t := ((s.updXch ch fun k => { k with wm := (k.wm + get (wnth ws 2) 39 0) % 2 ^ 48 }).addSem 16 (get (wnth ws 2) 56 40) 1).updXch ch
        fun k => { k with chains := c1 :: rest }
      t.after (t.linkTime (get (s.xch ch).own 5 0) c1) (.transferLinkComplete (fin64 ch)) := by
  unfold State.linkDone
  dsimp only
  rw [hsem, if_pos rfl, if_pos hmore]

/-! ### Growing slabs -/

/-- A growing slab stops at a byte that faults. -/
def State.growthFaults (t : State) (x k : Nat) (e : Slab) (cause va opnd : Nat) : State :=
  (t.updSlab x k fun e => { e with stop := true }).slabFault x cause e.core opnd va e.by_ (.grow k)

section
variable {s : State} {ctx : Fin 64} {k : Fin 4096} {e : Slab} (he : s.slab ctx.val k.val = e) (hstate : sbState e.words = 2)
  (hstop : e.stop = false)
include he hstate hstop

theorem execSlabChunkCopied_unread {va cause : Nat} (hids : e.ids = none)
    (hr : s.vread (some e.core) ctx.val 16 (sbBase e.words + sbWm e.words * sbRow e.words) (64 * sbRow e.words) = .error (va, cause)) :
    execSlabChunkCopied ctx k s = .next (s.growthFaults ctx.val k.val e cause va 1) := by
  have hgo : ¬ (sbState e.words ≠ 2 ∨ e.stop = true) := by
    rw [hstop]
    simp [hstate]
  unfold execSlabChunkCopied
  dsimp only
  rw [he, if_neg hgo, hids]
  dsimp only
  rw [hr]
  rfl

section
variable (hids : e.ids = none) {bs : List Byte} {s1 s2 : State}
  (hr : s.vread (some e.core) ctx.val 16 (sbBase e.words + sbWm e.words * sbRow e.words) (64 * sbRow e.words) = .ok (bs, s1))
include hids hr

theorem execSlabChunkCopied_unwritten {va cause : Nat}
    (hw : s1.vwrite (some e.core) ctx.val 16 (sbNew e.words + sbWm e.words * sbRow e.words) bs = (s2, some (va, cause))) :
    execSlabChunkCopied ctx k s = .next (s2.growthFaults ctx.val k.val e cause va 0) := by
  have hgo : ¬ (sbState e.words ≠ 2 ∨ e.stop = true) := by
    rw [hstop]
    simp [hstate]
  unfold execSlabChunkCopied
  dsimp only
  rw [he, if_neg hgo, hids]
  dsimp only
  rw [hr]
  dsimp only
  rw [hw]
  rfl

theorem execSlabChunkCopied_copied
    (hw : s1.vwrite (some e.core) ctx.val 16 (sbNew e.words + sbWm e.words * sbRow e.words) bs = (s2, none)) :
    execSlabChunkCopied ctx k s =
      .next ((s2.updSlab ctx.val k.val fun e => { e with ids := some (s1.nextId, s2.nextId) }).after 0 (.slabChunkCopied ctx k)) := by
  have hgo : ¬ (sbState e.words ≠ 2 ∨ e.stop = true) := by
    rw [hstop]
    simp [hstate]
  unfold execSlabChunkCopied
  dsimp only
  rw [he, if_neg hgo, hids]
  dsimp only
  rw [hr]
  dsimp only
  rw [hw]

end

/-- A chunk that is copied waits for its writes; then the watermark passes it, or the slab takes its new base (10 R171). -/
theorem execSlabChunkCopied_written {w : Nat × Nat} (hids : e.ids = some w) :
    execSlabChunkCopied ctx k s =
      if s.unapplied w.1 w.2 then .next (s.after 1 (.slabChunkCopied ctx k))
      else if sbWm e.words + 64 < 2 ^ sbCap e.words then .next ((s.updSlab ctx.val k.val fun b =>
        { b with words := slabWords 2 (sbCap e.words) (sbBase e.words) (sbRow e.words) (sbNew e.words) (sbWm e.words + 64), ids := none }).after
          (1 + sbRow e.words) (.slabChunkCopied ctx k))
      else
        let grown := (s.updSlab ctx.val k.val fun _ =>
          { Slab.reset with words := slabWords 1 (sbCap e.words + 1) (sbNew e.words) (sbRow e.words) 0 0 }).tick 16 0
        .next (if e.sem < 65536 then grown.addSem 16 e.sem 1 else grown) := by
  have hgo : ¬ (sbState e.words ≠ 2 ∨ e.stop = true) := by
    rw [hstop]
    simp [hstate]
  unfold execSlabChunkCopied
  dsimp only
  rw [he, if_neg hgo, hids]

end

/-! ### Expert slots -/

section
variable {s : State} {n : Fin 64}

theorem execExpertSlotFilled_idle (hstate : (s.eslot n.val).state ≠ 1) : execExpertSlotFilled n s = .next s := by
  unfold execExpertSlotFilled
  dsimp only
  rw [if_pos hstate]

variable {q : ESlot} (hq : s.eslot n.val = q) (hstate : q.state = 1)
include hq hstate

theorem execExpertSlotFilled_unread {va cause : Nat} (hids : q.ids = none)
    (hr : s.vread (some q.core) q.ctx 16 (q.src + q.filled) 128 = .error (va, cause)) :
    execExpertSlotFilled n s = .next (s.slabFault q.ctx cause q.core 1 va q.by_ (.fill n.val)) := by
  unfold execExpertSlotFilled
  dsimp only
  rw [hq, if_neg (Classical.not_not.mpr hstate), hids]
  dsimp only
  rw [hr]

theorem execExpertSlotFilled_writes {bs : List Byte} {s1 : State} (hids : q.ids = none)
    (hr : s.vread (some q.core) q.ctx 16 (q.src + q.filled) 128 = .ok (bs, s1)) :
    execExpertSlotFilled n s =
      let s2 := s1.agentWrite 16 (chipBase + s.slotOff n.val + q.filled) 16 bs
      .next ((s2.updEslot n.val fun k => { k with ids := some (s1.nextId, s2.nextId) }).after 0 (.expertSlotFilled n)) := by
  unfold execExpertSlotFilled
  dsimp only
  rw [hq, if_neg (Classical.not_not.mpr hstate), hids]
  dsimp only
  rw [hr]

/-- The slot after a line of its weights has been applied at its home. -/
def State.lineLanded (s : State) (n : Nat) (state : Nat) : State :=
  (s.updEslot n fun k => { k with state := state, filled := k.filled + 128, ids := none }).retryLoads 16

theorem execExpertSlotFilled_written {w : Nat × Nat} (hids : q.ids = some w) :
    execExpertSlotFilled n s =
      if s.unapplied w.1 w.2 then .next (s.after 1 (.expertSlotFilled n))
      else if s.slotLen ≤ q.filled + 128 then .next (s.lineLanded n.val 2).exRetry
      else .next ((s.lineLanded n.val 1).after 2 (.expertSlotFilled n)) := by
  unfold execExpertSlotFilled
  dsimp only
  rw [hq, if_neg (Classical.not_not.mpr hstate), hids]
  dsimp only
  by_cases hfull : s.slotLen ≤ q.filled + 128
  · rw [decide_eq_true hfull, if_pos hfull]
    rfl
  · rw [decide_eq_false hfull, if_neg hfull]
    rfl

end

/-! ### O49 -/

/-- Settles O49: a link, a chunk and a line go by the tests of their own events in turn. -/
theorem transferSlabAndExpertResults : Obligations.TransferSlabAndExpertResults := by
  unfold Obligations.TransferSlabAndExpertResults
  intro s ch ctx kk n k x e row cap q
  have hlink : exec (.transferLinkComplete ch) s = execTransferLinkComplete ch s := rfl
  have hchunk : exec (.slabChunkCopied ctx kk) s = execSlabChunkCopied ctx kk s := rfl
  have hslot : exec (.expertSlotFilled n) s = execExpertSlotFilled n s := rfl
  simp only [hlink, hchunk, hslot]
  refine ⟨?_, ?_, ?_, ?_, ?_, ?_, ?_, ?_, ?_⟩
  · intro c rest hc hm hon
    exact execTransferLinkComplete_begins hc hm hon
  · intro c rest hc hm hon
    rw [execTransferLinkComplete_copies hc hm hon]
    unfold State.linkCopies
    dsimp only
    refine ⟨fun hl => ?_, fun hl hok => ?_, fun hl hok hw => ?_, fun hl hok hw => ?_⟩
    · rw [if_pos hl]
    · rw [if_neg (Classical.not_not.mpr hl), hok]
      rfl
    · rw [if_neg (Classical.not_not.mpr hl), hok, if_neg (by decide), if_pos hw]
    · rw [if_neg (Classical.not_not.mpr hl), hok, if_neg (by decide), if_neg (Classical.not_not.mpr hw)]
  · intro c rest m hc hm
    rw [execTransferLinkComplete_made hc hm]
    refine ⟨fun hun => ?_, fun hun hsem hend hpkt hrest => ?_, fun hun hsem hmore => ?_⟩
    · rw [if_pos hun]
    · rw [hun, if_neg Bool.false_ne_true, hrest, State.linkDone_last hsem hend hpkt]
    · rw [hun, if_neg Bool.false_ne_true, State.linkDone_next hsem hmore]
  · intro hstate hstop hids
    refine ⟨fun bs s1 s2 hr hw => ?_, fun va cause hr => ?_, fun bs s1 s2 va cause hr hw => ?_⟩
    · exact execSlabChunkCopied_copied rfl hstate hstop hids hr hw
    · exact execSlabChunkCopied_unread rfl hstate hstop hids hr
    · exact execSlabChunkCopied_unwritten rfl hstate hstop hids hr hw
  · intro w hstate hstop hids
    rw [execSlabChunkCopied_written rfl hstate hstop hids]
    refine ⟨fun hun => if_pos hun, fun hun hmore => ?_, fun hun hlast => ?_⟩
    · rw [hun, if_neg Bool.false_ne_true]
      exact if_pos hmore
    · rw [hun, if_neg Bool.false_ne_true]
      exact if_neg (Nat.not_lt_of_le hlast)
  · intro bs s1 hstate hids hr
    exact execExpertSlotFilled_writes rfl hstate hids hr
  · intro va cause hstate hids hr
    exact execExpertSlotFilled_unread rfl hstate hids hr
  · intro w hstate hids
    rw [execExpertSlotFilled_written rfl hstate hids]
    refine ⟨fun hun => if_pos hun, fun hun hmore => ?_, fun hun hlast => ?_⟩
    · rw [hun, if_neg Bool.false_ne_true]
      exact if_neg (Nat.not_le_of_lt hmore)
    · rw [hun, if_neg Bool.false_ne_true]
      exact if_pos hlast
  · intro hstate
    exact execExpertSlotFilled_idle hstate

end Sys2Proof.Machine
end

section
/-! SUPPORT. The states of a link (11 R179 to R188; 31 Light). -/

namespace Sys2Proof.Machine
open Sys2Proof.Bits

theorem fin48_val (l : Fin 48) : fin48 l.val = l := Fin.ext (Nat.mod_eq_of_lt l.isLt)

theorem State.mem_agenda_sched (s : State) (t : Nat) (i : Instr) : (t, i) ∈ (s.sched t i).agenda :=
  (mem_insertDue t i s.agenda (t, i)).mpr (.inl rfl)

theorem State.mem_agenda_soon {s : State} {e : Nat × Instr} (h : e ∈ s.agenda) (i : Instr) : e ∈ (s.soon i).agenda := by
  unfold State.soon
  split
  · exact h
  · exact (mem_insertDue s.now i s.agenda e).mpr (.inr h)

/-! ### A link that drops -/

/-- What a link that drops keeps: no wavelength, no tick lock, and nothing queued or on its way. -/
structure Link.Dropped (k : Link) (state loss : Nat) : Prop where
  state : k.state = state
  nwl : k.nwl = 0
  tlock : k.tlock = false
  queue : k.queue = []
  coming : k.coming = []
  replay : k.replay = []
  loss : k.loss = loss

theorem State.markBack_links (s : State) (g path : Nat) : (s.markBack g path).links = s.links := by
  unfold State.markBack
  dsimp only
  split
  · rfl
  · exact State.soon_links _ _

/-- A link that was not up drops with nothing else changed of it (11 Table 11.1). -/
theorem State.dropLink_dropped {s : State} {l : Nat} (hdown : ¬ (2 ≤ (s.link l).state ∧ (s.link l).state ≤ 4)) (state : Nat) {loss : Nat}
    (hloss : loss ≠ 0) : ((s.dropLink l state loss).link l).Dropped state loss := by
  unfold State.dropLink
  extract_lets k lost s1 s2
  rw [if_neg hdown]
  have hlinks : s2.links = s1.links :=
    foldl_inv (P := fun t : State => t.links = s1.links) (fun t g ht =>
      foldl_inv (P := fun u : State => u.links = s1.links) (fun u p hu => (u.markBack_links g.1 p).trans hu) ht) rfl
  have hlink : s2.link l = s1.link l := by
    rw [State.link, hlinks]
    rfl
  rw [hlink]
  dsimp only [s1]
  rw [State.updLink_self]
  exact ⟨rfl, rfl, rfl, rfl, rfl, rfl, if_neg hloss⟩

/-! ### LNKCTL -/

section
variable {s : State} {l : Fin 48}

/-- Training begins on a disabled, fenced or down link whose laser module is there (11 Table 11.1). -/
theorem execLnkTrain_begins (hst : (s.link l.val).state = 0 ∨ (s.link l.val).state = 5 ∨ (s.link l.val).state = 6)
    (hlaser : s.lasers.getD (l.val / 12) false = true) :
    execLnkTrain l s = .next (((s.updLink l.val fun k => { k with state := 1, back := 0, replays := 0, free := s.now + 3000000 }).after 3000000
      (.trainingTimeout l)).soon (.tickSend l)) := by
  have hgable : gableOf l.val = l.val / 12 := Nat.div_div_eq_div_mul l.val 6 2
  unfold execLnkTrain State.linkTrain
  dsimp only
  rw [hgable, if_pos ⟨hst, hlaser⟩, fin48_val]

theorem execLnkTrain_ignored
    (h : (s.link l.val).state ≠ 0 ∧ (s.link l.val).state ≠ 5 ∧ (s.link l.val).state ≠ 6 ∨ s.lasers.getD (l.val / 12) false = false) :
    execLnkTrain l s = .next s := by
  have hgable : gableOf l.val = l.val / 12 := Nat.div_div_eq_div_mul l.val 6 2
  have hno : ¬ (((s.link l.val).state = 0 ∨ (s.link l.val).state = 5 ∨ (s.link l.val).state = 6) ∧
      s.lasers.getD (l.val / 12) false = true) := by
    rintro ⟨hst, hlaser⟩
    rcases h with ⟨h0, h5, h6⟩ | h
    · exact hst.elim h0 (Or.rec h5 h6)
    · exact absurd (hlaser.symm.trans h) (by decide)
  unfold execLnkTrain State.linkTrain
  dsimp only
  rw [hgable, if_neg hno]

theorem execLnkFence_fences (h : 1 ≤ (s.link l.val).state ∧ (s.link l.val).state ≤ 4) : execLnkFence l s = .next (s.dropLink l.val 5 4) := by
  unfold execLnkFence State.linkFence
  rw [if_pos h]

theorem execLnkFence_ignored (h : (s.link l.val).state = 0 ∨ 5 ≤ (s.link l.val).state) : execLnkFence l s = .next s := by
  unfold execLnkFence State.linkFence
  rw [if_neg (by omega)]

/-! ### Training -/

/-- The identity flit of this end (11 R181). -/
def identFlit (w : Nat) : Flit := ⟨6, 2, 0, 0, 0xFFFF, 2, [BitVec.ofNat 8 w, 2], 0, .nothing⟩

/-- The state once this end's identity flit is on the wire. -/
def State.identified (s : State) (n w : Nat) : State := s.updLink n fun k => { k with wire := (identFlit w).image none 0 0 s.regs.pkrank }

theorem execTrainingDone_ignored {w : Nat} {flit tail : List Byte} (h : readFlit (flit ++ tail) = none ∨ (s.link l.val).state ≠ 1) :
    execTrainingDone l w flit tail s = .next s := by
  unfold execTrainingDone
  dsimp only
  split
  next => rfl
  next f hf => rw [if_pos (.inl (h.resolve_left (by rw [hf]; exact Option.some_ne_none f)))]

section
variable {w : Nat} {flit tail : List Byte} {f : FlitIn} (hst : (s.link l.val).state = 1) (hf : readFlit (flit ++ tail) = some f)
  (hvc : f.vc = 6)
include hst hf hvc

theorem execTrainingDone_foreign (hver : numAt f.bytes 1 1 ≠ 2) :
    execTrainingDone l w flit tail s = .next ((s.identified l.val w).dropLink l.val 6 1) := by
  unfold execTrainingDone
  dsimp only
  rw [hf]
  dsimp only
  rw [if_neg (not_or.mpr ⟨Classical.not_not.mpr hst, Classical.not_not.mpr hvc⟩), if_pos hver]
  rfl

variable (hver : numAt f.bytes 1 1 = 2)
include hver

theorem execTrainingDone_few (hfew : min (min w (numAt f.bytes 0 1)) 16 < 12) :
    execTrainingDone l w flit tail s = .next ((s.identified l.val w).dropLink l.val 6 2) := by
  unfold execTrainingDone
  dsimp only
  rw [hf]
  dsimp only
  rw [if_neg (not_or.mpr ⟨Classical.not_not.mpr hst, Classical.not_not.mpr hvc⟩), if_neg (Classical.not_not.mpr hver), if_pos hfew]
  rfl

theorem execTrainingDone_up (hmany : 12 ≤ min (min w (numAt f.bytes 0 1)) 16) :
    execTrainingDone l w flit tail s = .next ((((((s.identified l.val w).updLink l.val fun k => { k with
      state := if min (min w (numAt f.bytes 0 1)) 16 = 16 then 2 else 3, nwl := min (min w (numAt f.bytes 0 1)) 16, peer := f.peer, peers := [],
      beats := 0, free := s.now }).bringUp).soon (.tickSend l)).soon (.slotOpen l)).soon (.flitSend l)) := by
  unfold execTrainingDone
  dsimp only
  rw [hf]
  dsimp only
  rw [if_neg (not_or.mpr ⟨Classical.not_not.mpr hst, Classical.not_not.mpr hvc⟩), if_neg (Classical.not_not.mpr hver), if_neg (Nat.not_lt_of_le hmany)]
  rfl

end

theorem execTrainingTimeout_drops (hst : (s.link l.val).state = 1) (hfree : (s.link l.val).free ≤ s.now) :
    execTrainingTimeout l s = .next (s.dropLink l.val 6 1) := by
  unfold execTrainingTimeout
  dsimp only
  rw [if_pos ⟨hst, hfree⟩]

/-! ### Replay -/

end

/-- The flits that wait for their acknowledgement, each by its peer and SEQ. -/
def Link.unacked (k : Link) : List (Nat × Nat) := k.replay.map fun e => (e.1.peer, e.1.seq)

theorem State.toReplay_late (s : State) (n : Nat) (late : Nat → Bool) (back : Nat) :
    (s.toReplay n none late back).link n = { s.link n with
      state := 4, back := back, resend := (s.link n).unacked.filter fun e => late e.1, replays := min ((s.link n).replays + 1) 65535 } := by
  unfold State.toReplay
  dsimp only
  rw [State.soon_link, State.updLink_self]
  rfl

theorem State.toReplay_from (s : State) (n : Nat) (q : Nat × Nat) (late : Nat → Bool) (back : Nat) :
    (s.toReplay n (some q) late back).link n = { s.link n with
      state := 4, back := back, resend := ((s.link n).unacked.filter fun e => e.1 == q.1).dropWhile (· != q),
      replays := min ((s.link n).replays + 1) 65535 } := by
  unfold State.toReplay
  dsimp only
  rw [State.soon_link, State.updLink_self]
  rfl

section
variable {s : State} {l : Fin 48}

theorem execWavelengthLoss_drops (hup : (s.link l.val).state = 2 ∨ (s.link l.val).state = 3) (hfew : (s.link l.val).nwl ≤ 12) :
    execWavelengthLoss l s = .next (s.dropLink l.val 6 2) := by
  unfold execWavelengthLoss
  dsimp only
  rw [if_neg (by omega), if_pos (by omega)]

theorem execWavelengthLoss_replays (hup : (s.link l.val).state = 2 ∨ (s.link l.val).state = 3) (hmany : 12 < (s.link l.val).nwl) :
    execWavelengthLoss l s =
      .next ((s.updLink l.val fun k => { k with nwl := k.nwl - 1 }).toReplay l.val none (fun _ => true) 3) := by
  unfold execWavelengthLoss
  dsimp only
  rw [if_neg (by omega), if_neg (by omega)]

theorem execNak_replays {flit : List Byte} {u : State} {f : FlitIn} (hr : s.receive l.val 4 flit = (u, some f))
    (hup : (u.link l.val).state = 2 ∨ (u.link l.val).state = 3) :
    execNak l flit s =
      .next (u.toReplay l.val (some ((u.link l.val).sender f.peer, f.seq)) (fun _ => false) (u.link l.val).state) := by
  unfold execNak
  dsimp only
  rw [hr]
  dsimp only
  rw [if_pos hup]

/-- Peer `p` has a flit that has waited 4 µs. -/
def Link.overdue (k : Link) (now p : Nat) : Bool := k.replay.any fun e => e.1.peer == p && decide (e.2.2 + 6000 ≤ now)

theorem execReplayTimeout_replays (hup : (s.link l.val).state = 2 ∨ (s.link l.val).state = 3)
    (hold : ∃ e ∈ (s.link l.val).replay, e.2.2 + 6000 ≤ s.now) :
    execReplayTimeout l s = .next (s.toReplay l.val none ((s.link l.val).overdue s.now) (s.link l.val).state) := by
  have hany : (s.link l.val).replay.any (fun e => decide (e.2.2 + 6000 ≤ s.now)) = true := by
    obtain ⟨e, he, hlate⟩ := hold
    exact List.any_eq_true.mpr ⟨e, he, decide_eq_true hlate⟩
  exact congrArg Host.Outcome.next (if_pos ⟨hup, hany⟩)

theorem Link.mem_resend_overdue (k : Link) (now p q : Nat) :
    (p, q) ∈ k.unacked.filter (fun e => k.overdue now e.1) ↔
      (∃ e ∈ k.replay, e.1.peer = p ∧ e.1.seq = q) ∧ ∃ e ∈ k.replay, e.1.peer = p ∧ e.2.2 + 6000 ≤ now := by
  rw [List.mem_filter]
  unfold Link.unacked Link.overdue
  simp only [List.mem_map, Prod.mk.injEq, List.any_eq_true, Bool.and_eq_true, beq_iff_eq, decide_eq_true_eq]

/-! ### A flit that fails its CRC -/

theorem State.badFlit_naks {n : Nat} (huse : s.linkUsable n = true) (h : (s.link n).en = false ∨ (s.link n).wrongId = false) :
    s.badFlit n = s.sendNak n ((((s.link n).window s.ftick).map (·.peer)).getD (s.link n).peer) := by
  have hno : ((s.link n).en && (s.link n).wrongId) = false := by
    rw [Bool.and_eq_false_iff]
    exact h
  unfold State.badFlit
  dsimp only
  rw [huse, hno]
  rfl

theorem State.badFlit_counts {n : Nat} (huse : s.linkUsable n = true) (hen : (s.link n).en = true) (hwrong : (s.link n).wrongId = true) :
    s.badFlit n = s.mismatch n := by
  unfold State.badFlit
  dsimp only
  rw [huse, hen, hwrong]
  rfl

/-! ### SLTCTL -/

theorem get_slotCount_lt (w : Word) : get w 6 0 < 128 := Nat.mod_lt _ (by decide)

/-- SLTCTL as it reads back: EN in bit 8, the number of slots below it. -/
theorem sltctl_word (on : Bool) {n : Nat} (hn : n < 128) :
    bit (BitVec.ofNat 64 ((if on then 256 else 0) + n)) 8 = on ∧ get (BitVec.ofNat 64 ((if on then 256 else 0) + n)) 6 0 = n := by
  have hval : ((if on then 256 else 0) + n) % 2 ^ 64 = (if on then 256 else 0) + n := Nat.mod_eq_of_lt (by split <;> omega)
  unfold bit Bits.get
  rw [BitVec.getLsbD_ofNat, BitVec.toNat_ofNat, hval, Nat.testBit_eq_decide_div_mod_eq]
  cases on
  · simp only [Bool.false_eq_true, if_false]
    constructor
    · simp
      omega
    · omega
  · simp only [if_true]
    constructor
    · simp
      omega
    · omega

theorem State.writeSltctl_starts {n : Nat} {val : Word} (hen : (s.link n).en = false) (hbit : bit val 8 = true)
    (hok : (s.link n).tableOk (get val 6 0) = true) :
    s.writeSltctl n val = (s.updLink n fun k => { k with
      sltctl := BitVec.ofNat 64 ((if true then 256 else 0) + get val 6 0), slot := none, wrongId := false }).soon (.slotOpen (fin48 n)) := by
  unfold State.writeSltctl
  dsimp only
  rw [hen, hbit, hok]
  rfl

theorem State.writeSltctl_stops {n : Nat} {val : Word} (hen : (s.link n).en = true) (hbit : bit val 8 = false) :
    s.writeSltctl n val = (s.updLink n fun k => { k with
      sltctl := BitVec.ofNat 64 ((if false then 256 else 0) + k.nslot), slot := none, wrongId := false }).soon (.flitSend (fin48 n)) := by
  unfold State.writeSltctl
  dsimp only
  rw [hen, hbit]
  simp only [if_true, Bool.false_eq_true, if_false, Nat.zero_add]

end

/-! ### O50 -/

/-- Settles O50: a link that drops keeps what `Link.Dropped` says; every other event changes the fields its table names. -/
theorem linkStateResults : Obligations.LinkStateResults := by
  unfold Obligations.LinkStateResults
  intro s l w flit tail val n k dropped
  have hdropped : ∀ (t : State) (state loss : Nat), (t.link n).Dropped state loss → dropped t state loss :=
    fun t state loss h => ⟨h.state, h.nwl, h.tlock, h.queue, h.coming, h.replay, h.loss⟩
  have htrain : exec (.lnkTrain l) s = execLnkTrain l s := rfl
  have hfence : exec (.lnkFence l) s = execLnkFence l s := rfl
  have hdone : exec (.trainingDone l w flit tail) s = execTrainingDone l w flit tail s := rfl
  have htimeout : exec (.trainingTimeout l) s = execTrainingTimeout l s := rfl
  have hloss : exec (.wavelengthLoss l) s = execWavelengthLoss l s := rfl
  have hnak : exec (.nak l flit) s = execNak l flit s := rfl
  have hreplay : exec (.replayTimeout l) s = execReplayTimeout l s := rfl
  have hcrc : exec (.crcFailure l) s = .next (s.badFlit n) := rfl
  have hctl : exec (.sltctlWrite l val) s = .next (s.writeSltctl n val) := rfl
  have hident : ((s.identified n w).link n).state = k.state := by
    unfold State.identified
    rw [State.updLink_self]
  have hlate : ∀ {state : Nat}, state = 1 → ¬ (2 ≤ state ∧ state ≤ 4) := fun h => by omega
  rw [htrain, hfence, hdone, htimeout, hloss, hreplay, hcrc, hctl]
  refine ⟨fun hst hlaser => ?_, execLnkTrain_ignored, fun hst => ?_, fun hst => ?_, execLnkFence_ignored, rfl, fun f hst hf hvc hver => ?_,
    fun f hst hf hvc hver => ?_, execTrainingDone_ignored, fun hst hfree => ?_, fun hup hmany => ?_, execWavelengthLoss_drops,
    fun gable hg => ?_, fun gable => rfl, fun u f hr hup => ?_, fun hup hold => ?_, fun hst hnone => ?_, fun huse h => ?_,
    fun huse hen hwrong => ?_, fun hen hbit hok => ?_, fun hen hbit => ?_⟩
  · refine ⟨_, execLnkTrain_begins hst hlaser, ?_, ?_, State.mem_agenda_soon (State.mem_agenda_sched _ _ _) _⟩
    · rw [State.soon_link, State.after_link, State.updLink_self]
    · rw [State.soon_link, State.after_link, State.updLink_self]
  · have hup : 1 ≤ k.state ∧ k.state ≤ 4 := by omega
    exact ⟨_, execLnkFence_fences hup, hdropped _ _ _ (State.dropLink_dropped (hlate hst) 5 (by decide))⟩
  · have hup : 1 ≤ k.state ∧ k.state ≤ 4 := by omega
    exact execLnkFence_fences hup
  · intro both mine
    refine ⟨fun hmany => ?_, fun hfew => ?_⟩
    · refine ⟨_, execTrainingDone_up hst hf hvc hver hmany, ?_⟩
      rw [State.soon_link, State.soon_link, State.soon_link]
      have hlink := State.updLink_self (s.identified n w) n fun k => { k with
        state := if both = 16 then 2 else 3, nwl := both, peer := f.peer, peers := [], beats := 0, free := s.now }
      have hwire : ((s.identified n w).link n).wire = mine.image none 0 0 s.regs.pkrank := by
        unfold State.identified
        rw [State.updLink_self]
        rfl
      exact ⟨congrArg Link.state hlink, congrArg Link.nwl hlink, congrArg Link.peer hlink, congrArg Link.peers hlink,
        (congrArg Link.wire hlink).trans hwire⟩
    · exact ⟨_, execTrainingDone_few hst hf hvc hver hfew,
        hdropped _ _ _ (State.dropLink_dropped (hlate (hident.trans hst)) 6 (by decide))⟩
  · exact ⟨_, execTrainingDone_foreign hst hf hvc hver,
      hdropped _ _ _ (State.dropLink_dropped (hlate (hident.trans hst)) 6 (by decide))⟩
  · exact ⟨_, execTrainingTimeout_drops hst hfree, hdropped _ _ _ (State.dropLink_dropped (hlate hst) 6 (by decide))⟩
  · refine ⟨_, execWavelengthLoss_replays hup hmany, ?_⟩
    rw [State.toReplay_late, State.updLink_self]
    exact ⟨rfl, rfl, rfl, List.filter_eq_self.mpr fun _ _ => rfl⟩
  · dsimp only [exec]
    unfold execLaserModuleRemoval
    rw [if_neg (Nat.not_le_of_lt hg)]
  · rw [hnak]
    refine ⟨_, execNak_replays hr hup, ?_⟩
    rw [State.toReplay_from]
    exact ⟨rfl, rfl, rfl, rfl, rfl⟩
  · refine ⟨_, execReplayTimeout_replays hup hold, ?_⟩
    rw [State.toReplay_late]
    exact ⟨rfl, rfl, fun p q => Link.mem_resend_overdue k s.now p q⟩
  · refine ⟨_, congrArg Host.Outcome.next (if_pos ⟨hst, List.isEmpty_iff.mpr hnone⟩), ?_⟩
    rw [State.soon_link, State.updLink_self]
  · rw [State.badFlit_naks huse h]
  · rw [State.badFlit_counts huse hen hwrong]
  · refine ⟨_, congrArg Host.Outcome.next (State.writeSltctl_starts hen hbit hok), ?_⟩
    rw [State.soon_link, State.updLink_self]
    exact sltctl_word true (get_slotCount_lt val)
  · refine ⟨_, congrArg Host.Outcome.next (State.writeSltctl_stops hen hbit), ?_⟩
    rw [State.soon_link, State.updLink_self]
    have hn : k.nslot < 128 := get_slotCount_lt _
    obtain ⟨hoff, hslots⟩ := sltctl_word false hn
    exact ⟨hoff, hslots.trans (Nat.mod_eq_of_lt hn).symm, rfl⟩

end Sys2Proof.Machine
end

section
/-! SUPPORT. Slots, flits and the fabric tick (11 R180 to R190). -/

namespace Sys2Proof.Machine
open Sys2Proof.Bits

/-! ### Slots -/

section
variable {s : State} {l : Fin 48}

theorem execSlotOpen_opens (hen : (s.link l.val).en = true) (huse : s.linkUsable l.val = true) (hbase : (s.link l.val).sltbase.toNat ≤ s.ftick)
    (hslot : (s.link l.val).slot = none) :
    execSlotOpen l s =
      let p := (s.link l.val).slotAt s.ftick
      let e := (s.link l.val).entry p.1
      .next (((s.updLink l.val fun k => { k with slot := some (p.1, p.2, false, 0), wrongId := false }).atTick (p.2 + seGuard e)
        (.guardEnd l)).atTick (p.2 + seDur e) (.slotClose l)) := by
  unfold execSlotOpen
  dsimp only
  rw [hen, huse, hslot, if_neg (by decide), if_neg (Nat.not_lt_of_le hbase)]
  rfl

theorem execSlotOpen_waits (hen : (s.link l.val).en = true) (huse : s.linkUsable l.val = true) (hbase : s.ftick < (s.link l.val).sltbase.toNat) :
    execSlotOpen l s = .next (s.atTick (s.link l.val).sltbase.toNat (.slotOpen l)) := by
  unfold execSlotOpen
  dsimp only
  rw [hen, huse, if_neg (by decide), if_pos hbase]

theorem execGuardEnd_identifies {i at_ used : Nat} (hslot : (s.link l.val).slot = some (i, at_, false, used))
    (hdue : at_ + seGuard ((s.link l.val).entry i) ≤ s.ftick) (hv : seV ((s.link l.val).entry i) = true) :
    execGuardEnd l s = .next ((s.updLink l.val fun k => { k with
      slot := some (i, at_, true, 0),
      queue := ⟨0, 5, 0, sePeer ((s.link l.val).entry i), 0xFFFF, 0, [], 0, .nothing⟩ :: k.queue }).soon (.flitSend l)) := by
  unfold execGuardEnd
  dsimp only
  rw [hslot]
  dsimp only
  rw [if_neg Bool.false_ne_true, if_neg (Nat.not_lt_of_le hdue), hv]
  rfl

theorem execSlotClose_closes {i at_ used : Nat} {done : Bool} (hslot : (s.link l.val).slot = some (i, at_, done, used))
    (hdue : at_ + seDur ((s.link l.val).entry i) ≤ s.ftick) :
    execSlotClose l s = .next ((s.updLink l.val fun k => { k with slot := none, wrongId := false }).soon (.slotOpen l)) := by
  unfold execSlotClose
  dsimp only
  rw [hslot]
  dsimp only
  rw [if_neg (Nat.not_lt_of_le hdue)]

/-! ### Sending -/

theorem State.sendNext_later (hfree : s.now < (s.link l.val).free) (hnew : ((s.link l.val).free, .flitSend l) ∉ s.agenda) :
    s.sendNext l.val = s.sched (s.link l.val).free (.flitSend l) := by
  have hno : s.agenda.contains ((s.link l.val).free, Instr.flitSend l) = false := by
    rw [← Bool.not_eq_true, List.contains_iff_mem]
    exact hnew
  unfold State.sendNext
  dsimp only
  rw [if_pos hfree, fin48_val, hno, if_neg Bool.false_ne_true]

/-- What a link sends when its window is open and none of its queue may go: in REPLAY a flit to send again, else the credits it owes. -/
def State.sendElse (s : State) (l : Fin 48) (w : Window) : State :=
  let k := s.link l.val
  if k.state = 4 then
    (if k.resend.isEmpty then s.soon (.replayComplete l)
     else match k.nextResend w with
      | some q => s.resendFlit l.val q
      | none => s)
  else if (s.payable k w.peer).isSome then s.putFlit l.val ⟨0, 0, 0, w.peer, 0xFFFF, 0, [], 0, .nothing⟩
  else s

section
variable (hfree : (s.link l.val).free ≤ s.now) {w : Window} (hw : (s.link l.val).window s.ftick = some w)
  (hfits : s.fitsSlot (s.link l.val) w = true)
include hfree hw hfits

theorem State.sendNext_chosen {e : Nat × Flit} (he : (s.link l.val).choose w = some e) : s.sendNext l.val = s.sendFlit l.val e.1 e.2 w := by
  unfold State.sendNext
  dsimp only
  rw [if_neg (Nat.not_lt_of_le hfree), hw]
  dsimp only
  rw [hfits, if_neg (by decide), he]

theorem State.sendNext_else (he : (s.link l.val).choose w = none) : s.sendNext l.val = s.sendElse l w := by
  unfold State.sendNext
  dsimp only
  rw [if_neg (Nat.not_lt_of_le hfree), hw]
  dsimp only
  rw [hfits, if_neg (by decide), he, fin48_val]
  rfl

end

theorem State.sendElse_resends {w : Window} {q : Nat × Nat} (hst : (s.link l.val).state = 4) (hq : (s.link l.val).nextResend w = some q) :
    s.sendElse l w = s.resendFlit l.val q := by
  have hsome : (s.link l.val).resend.isEmpty = false := by
    rw [List.isEmpty_eq_false_iff]
    intro hnil
    unfold Link.nextResend at hq
    rw [hnil] at hq
    exact Option.some_ne_none q hq.symm
  unfold State.sendElse
  dsimp only
  rw [if_pos hst, hsome, if_neg Bool.false_ne_true, hq]

theorem State.sendElse_replayed {w : Window} (hst : (s.link l.val).state = 4) (hnil : (s.link l.val).resend = []) :
    s.sendElse l w = s.soon (.replayComplete l) := by
  unfold State.sendElse
  dsimp only
  rw [if_pos hst, hnil, if_pos List.isEmpty_nil]

theorem State.sendElse_pays {w : Window} {v : Nat × Nat} (hst : (s.link l.val).state ≠ 4) (hv : s.payable (s.link l.val) w.peer = some v) :
    s.sendElse l w = s.putFlit l.val ⟨0, 0, 0, w.peer, 0xFFFF, 0, [], 0, .nothing⟩ := by
  unfold State.sendElse
  dsimp only
  rw [if_neg hst, hv, if_pos Option.isSome_some]

/-- The TICK flit of a link (11 R189). -/
def State.tickFlit (s : State) (l : Nat) : Flit :=
  ⟨6, 3, 0, (((s.link l).window s.ftick).map (·.peer)).getD (s.link l).peer, 0xFFFF, 8, natLE 8 s.ftick, 0, .nothing⟩

theorem execTickSend_due (hdue : ∀ e ∈ s.agenda, e.2 = .tickSend l → e.1 ≤ s.now) :
    execTickSend l s =
      if (s.link l.val).state = 1 then
        .next ((s.updLink l.val fun k => { k with wire := (s.tickFlit l.val).image none 0 0 s.regs.pkrank }).after 23438 (.tickSend l))
      else if !s.linkUsable l.val then .next s
      else .next (((s.updLink l.val fun k => { k with queue := k.queue ++ [s.tickFlit l.val] }).soon (.flitSend l)).after 23438 (.tickSend l)) := by
  have hno : (s.agenda.any fun e => e.2 == .tickSend l && decide (s.now < e.1)) = false := by
    refine List.any_eq_false.mpr fun e he h => ?_
    rw [Bool.and_eq_true, beq_iff_eq, decide_eq_true_eq] at h
    exact absurd h.2 (Nat.not_lt_of_le (hdue e he h.1))
  unfold execTickSend
  dsimp only
  rw [hno, if_neg Bool.false_ne_true]
  rfl

theorem State.linkUsable_state {n : Nat} (h : s.linkUsable n = true) : 2 ≤ (s.link n).state := by
  unfold State.linkUsable at h
  simp only [Bool.or_eq_true, beq_iff_eq] at h
  omega

/-! ### Receiving -/

section
variable {n : Nat} (huse : s.linkUsable n = true) {flit : List Byte}
include huse

theorem State.receive_bad (hf : readFlit flit = none) (kind : Nat) : s.receive n kind flit = (s.badFlit n, none) := by
  unfold State.receive
  dsimp only
  rw [huse, if_neg (by decide), hf]

variable {f : FlitIn} (hf : readFlit flit = some f)
include hf

theorem State.receive_discarded (hd : (s.link n).discards s.ftick f.peer = true) : s.receive n f.kind flit = (s.mismatch n, none) := by
  unfold State.receive
  dsimp only
  rw [huse, if_neg (by decide), hf]
  dsimp only
  rw [if_neg (Classical.not_not.mpr rfl), if_pos hd]

theorem State.receive_taken (hd : (s.link n).discards s.ftick f.peer = false) :
    s.receive n f.kind flit = (s.takeHeader n ((s.link n).sender f.peer) f, some f) := by
  unfold State.receive
  dsimp only
  rw [huse, if_neg (by decide), hf]
  dsimp only
  rw [if_neg (Classical.not_not.mpr rfl), hd, if_neg Bool.false_ne_true]

end

section
variable {flit : List Byte} {u : State}

theorem execPayload_none (hr : s.receive l.val 1 flit = (u, none)) : execPayload l flit s = .next u := by
  unfold execPayload
  dsimp only
  rw [hr]

theorem execPayload_some {f : FlitIn} (hr : s.receive l.val 1 flit = (u, some f)) :
    execPayload l flit s = .next (u.acceptFlit l.val f false).1 := by
  unfold execPayload
  dsimp only
  rw [hr]

theorem execLast_none {telling : PeerMsg} (hr : s.receive l.val 2 flit = (u, none)) : execLast l ⟨flit, telling⟩ s = .next u := by
  unfold execLast
  dsimp only
  rw [hr]

theorem execIdle_eq {o : Option FlitIn} (hr : s.receive l.val 0 flit = (u, o)) : execIdle l flit s = .next u := by
  unfold execIdle
  rw [hr]

theorem execNak_none (hr : s.receive l.val 4 flit = (u, none)) : execNak l flit s = .next u := by
  unfold execNak
  dsimp only
  rw [hr]

theorem execTickFlit_none {roundTrip : Nat} (hst : (s.link l.val).state ≠ 1) (hr : s.receive l.val 3 flit = (u, none)) :
    execTickFlit l flit roundTrip s = .next u := by
  unfold execTickFlit
  rw [if_neg hst]
  dsimp only
  rw [hr]

end

/-! ### Messages -/

theorem Link.peerSt_updPeer (k : Link) (p : Nat) (f : PeerSt → PeerSt) : (k.updPeer p f).peerSt p = f (k.peerSt p) :=
  Tbl.getD_set_self _ _ _ _

/-- What a flit of channel `vc` in its order leaves of its peer's sequence state (11 R182 to R184). -/
def PeerSt.accepted (x : PeerSt) (vc : Nat) : PeerSt :=
  { x with rxSeq := (x.rxSeq + 1) % 8192, seen := true, naked := false, owed := x.owed.modify vc (· + 1) }

/-- A flit in its order that does not end a message joins the bytes of its message (11 R182). -/
theorem State.acceptFlit_joins {u : State} {n : Nat} {f : FlitIn}
    (hseq : f.seq = ((u.link n).peerSt ((u.link n).sender f.peer)).rxSeq) (hvc : f.vc ≠ 7) :
    let p := (u.link n).sender f.peer
    let t := (u.acceptFlit n f false).1
    ((t.link n).peerSt p).rxSeq = (f.seq + 1) % 8192 ∧
      Tbl.get (t.link n).assembly (p * 8 + f.vc) = some (Tbl.getD (u.link n).assembly (p * 8 + f.vc) [] ++ f.bytes) := by
  unfold State.acceptFlit
  dsimp only
  rw [if_neg (Classical.not_not.mpr hseq), if_neg hvc, if_neg Bool.false_ne_true]
  dsimp only
  rw [State.updLink_self, State.updLink_self]
  refine ⟨?_, Tbl.get_set_self _ _ _⟩
  refine (congrArg PeerSt.rxSeq (Link.peerSt_updPeer (u.link n) ((u.link n).sender f.peer) (PeerSt.accepted · f.vc))).trans ?_
  rw [hseq]
  rfl

theorem State.acceptFlit_naks {u : State} {n : Nat} {f : FlitIn} (hseq : f.seq ≠ ((u.link n).peerSt ((u.link n).sender f.peer)).rxSeq)
    (last : Bool) : u.acceptFlit n f last = (u.sendNak n ((u.link n).sender f.peer), none) := by
  unfold State.acceptFlit
  dsimp only
  rw [if_pos hseq]

/-- A message that names a group whose id has been used up. -/
def State.staleMsg (v : State) (gid : Nat) (telling : PeerMsg) : Prop :=
  gid ≠ 0xFFFF ∧ outlivesGroup telling = false ∧ v.fate true (BitVec.ofNat 16 gid) = .stale

section
variable {flit : List Byte} {u v : State} {f : FlitIn} {peer : Nat} {bs : List Byte} {telling : PeerMsg}
  (hr : s.receive l.val 2 flit = (u, some f))
include hr

theorem execLast_partial (ha : u.acceptFlit l.val f true = (v, none)) : execLast l ⟨flit, telling⟩ s = .next v := by
  unfold execLast
  dsimp only
  rw [hr]
  dsimp only
  rw [ha]

variable (ha : u.acceptFlit l.val f true = (v, some (peer, bs)))
include ha

theorem execLast_stale (hstale : v.staleMsg f.gid telling) : execLast l ⟨flit, telling⟩ s = .next v.countStale := by
  obtain ⟨hgid, hout, hfate⟩ := hstale
  unfold execLast
  dsimp only
  rw [hr]
  dsimp only
  rw [ha]
  dsimp only
  rw [hfate, hout, bne_iff_ne.mpr hgid]
  rfl

/-- A message waits for the ring, and acts at its agent behind those before it (11 R184). -/
theorem execLast_kept (hlive : ¬ v.staleMsg f.gid telling) :
    execLast l ⟨flit, telling⟩ s =
      let due := s.now + 18 * (s.hopsTo l.val telling f.gid).length
      let kept := v.updLink l.val fun k => { k with inbox := k.inbox ++ [⟨due, peer, f.vc, f.gid, telling, bs⟩] }
      .next (if due = s.now then kept.handInbox l.val else kept.sched due (.flitSend l)) := by
  unfold execLast
  dsimp only
  rw [hr]
  dsimp only
  rw [ha]
  dsimp only
  rw [if_neg]
  rw [Bool.and_eq_true, Bool.and_eq_true, bne_iff_ne, Bool.not_eq_true']
  rintro ⟨⟨hgid, hout⟩, hfate⟩
  refine hlive ⟨hgid, hout, ?_⟩
  split at hfate
  next h => exact h
  next => exact absurd hfate Bool.false_ne_true

end

/-! ### SLOTID -/

section
variable {flit : List Byte} {f : FlitIn} {q : Nat × Nat × Bool × Nat} (huse : s.linkUsable l.val = true) (hf : readFlit flit = some f)
  (hkind : f.kind = 5) (hslot : (s.link l.val).slot = some q) (hen : (s.link l.val).en = true)
include huse hf hkind hslot hen

theorem execSlotid_of_slot :
    execSlotid l flit s =
      let wrong := sePeer ((s.link l.val).entry q.1) != f.peer
      let s1 := s.updLink l.val fun k => { k with wrongId := wrong }
      .next (if wrong then s1 else s1.takeHeader l.val f.peer f) := by
  have hgo : ¬ (f.kind ≠ 5 ∨ (s.link l.val).en = false ∨ s.linkUsable l.val = false) := by
    rw [huse, hen]
    simp [hkind]
  unfold execSlotid
  dsimp only
  rw [hf, hslot]
  dsimp only
  rw [if_neg hgo]

end

/-! ### The fabric tick -/

section
variable {n : Nat} {tick : Nat} (hup : s.upstream = some n)
include hup

theorem State.followTick_train (hst : (s.link n).state = 1) (hback : (s.link n).back = 0) :
    s.followTick n tick =
      let s1 := s.updLink n fun k => { k with back := 1 }
      if s.ftick ≤ tick then { s1 with ftick := tick % 2 ^ 64 } else { s1 with thold := s.ftick - tick } := by
  unfold State.followTick
  dsimp only
  rw [if_neg (Classical.not_not.mpr hup), if_pos hst, if_neg (Classical.not_not.mpr hback)]

theorem State.followTick_locks (hst : (s.link n).state ≠ 1) (huse : s.linkUsable n = true) (hlo : tick ≤ s.ftick + 2) (hhi : s.ftick ≤ tick + 2) :
    s.followTick n tick = State.updLink { s with tadj := (tick : Int) - s.ftick } n fun k => { k with tlock := true } := by
  have hnear : -2 ≤ (tick : Int) - s.ftick ∧ (tick : Int) - s.ftick ≤ 2 := by omega
  unfold State.followTick
  dsimp only
  rw [if_neg (Classical.not_not.mpr hup), if_neg hst, if_pos huse, if_pos hnear]

end

theorem execTickFlit_train {flit : List Byte} {f : FlitIn} (hst : (s.link l.val).state = 1) (hf : readFlit flit = some f) (hkind : f.kind = 3)
    (roundTrip : Nat) : execTickFlit l flit roundTrip s = .next (s.followTick l.val (numAt f.bytes 0 8 + roundTrip / 2)) := by
  unfold execTickFlit
  rw [if_pos hst, hf]
  dsimp only
  rw [if_pos hkind]

theorem execTickFlit_up {flit : List Byte} {u : State} {f : FlitIn} (hst : (s.link l.val).state ≠ 1)
    (hr : s.receive l.val 3 flit = (u, some f)) (roundTrip : Nat) :
    execTickFlit l flit roundTrip s = .next ((u.updLink l.val fun k => k.updPeer (k.sender f.peer) fun x =>
      { x with owed := x.owed.modify f.vc (· + 1) }).followTick l.val (numAt f.bytes 0 8 + roundTrip / 2)) := by
  unfold execTickFlit
  rw [if_neg hst]
  dsimp only
  rw [hr]

end

/-! ### O51 -/

/-- What a link does that sends: what came over the ring joins its queue, and what it received goes to its agents, first. -/
def State.boarded (s : State) (n : Nat) : State := (s.updLink n fun k => k.board s.now).handInbox n

theorem flitSend_results (s : State) (l : Fin 48) :
    let b := s.boarded l.val
    let j := b.link l.val
    (b.linkUsable l.val = false → execFlitSend l s = .next b) ∧
    (b.linkUsable l.val = true → b.now < j.free → (j.free, .flitSend l) ∉ b.agenda → execFlitSend l s = .next (b.sched j.free (.flitSend l))) ∧
    (∀ w, b.linkUsable l.val = true → j.free ≤ b.now → j.window b.ftick = some w → b.fitsSlot j w = true →
      (∀ i g, j.choose w = some (i, g) → execFlitSend l s = .next (b.sendFlit l.val i g w)) ∧
      (∀ q, j.choose w = none → j.state = 4 → j.nextResend w = some q → execFlitSend l s = .next (b.resendFlit l.val q)) ∧
      (j.choose w = none → j.state = 4 → j.resend = [] → execFlitSend l s = .next (b.soon (.replayComplete l))) ∧
      (∀ v, j.choose w = none → j.state ≠ 4 → b.payable j w.peer = some v → execFlitSend l s =
        .next (b.putFlit l.val ⟨0, 0, 0, w.peer, 0xFFFF, 0, [], 0, .nothing⟩))) := by
  intro b j
  have hidle : b.linkUsable l.val = false → execFlitSend l s = .next b := fun h =>
    congrArg Host.Outcome.next (if_neg fun hc => Bool.false_ne_true (h.symm.trans hc))
  have hsends : b.linkUsable l.val = true → execFlitSend l s = .next (b.sendNext l.val) := fun h => congrArg Host.Outcome.next (if_pos h)
  clear_value b
  refine ⟨hidle, fun huse hfree hnew => ?_, fun w huse hfree hw hfits => ⟨fun i g he => ?_, fun q he hst hq => ?_, fun he hst hnil => ?_,
    fun v he hst hv => ?_⟩⟩
  · rw [hsends huse, State.sendNext_later hfree hnew]
  · rw [hsends huse, State.sendNext_chosen hfree hw hfits he]
  · rw [hsends huse, State.sendNext_else hfree hw hfits he, State.sendElse_resends hst hq]
  · rw [hsends huse, State.sendNext_else hfree hw hfits he, State.sendElse_replayed hst hnil]
  · rw [hsends huse, State.sendNext_else hfree hw hfits he, State.sendElse_pays hst hv]

/-- Settles O51: each event by its own tests; a flit received goes through `State.receive` and `State.acceptFlit`. -/
theorem linkTrafficResults : Obligations.LinkTrafficResults := by
  unfold Obligations.LinkTrafficResults
  intro s l flit roundTrip n k p tickFlit
  have hopen : exec (.slotOpen l) s = execSlotOpen l s := rfl
  have hguard : exec (.guardEnd l) s = execGuardEnd l s := rfl
  have hclose : exec (.slotClose l) s = execSlotClose l s := rfl
  have hsend : exec (.flitSend l) s = execFlitSend l s := rfl
  have htick : exec (.tickSend l) s = execTickSend l s := rfl
  have hpayload : exec (.payload l flit) s = execPayload l flit s := rfl
  have hlast : ∀ telling, exec (.last l ⟨flit, telling⟩) s = execLast l ⟨flit, telling⟩ s := fun _ => rfl
  have hidle : exec (.idle l flit) s = execIdle l flit s := rfl
  have hnak : exec (.nak l flit) s = execNak l flit s := rfl
  have htickFlit : exec (.tickFlit l flit roundTrip) s = execTickFlit l flit roundTrip s := rfl
  have hslotid : exec (.slotid l flit) s = execSlotid l flit s := rfl
  have hup : s.linkUsable n = true → (s.link n).state ≠ 1 := fun h => by
    have := State.linkUsable_state h
    omega
  rw [hopen, hguard, hclose, hsend, htick, hpayload, hidle, htickFlit, hslotid, hnak]
  refine ⟨fun hen huse hbase hslot => ?_, fun hen huse hbase => ?_, fun i at_ used hslot hdue hv => ?_, fun i at_ done used hslot hdue => ?_,
    flitSend_results s l, fun hst hdue => ?_, fun huse hdue => ?_, fun telling huse hf => ?_, fun f telling huse hf hd => ?_,
    fun f huse hf hd => ?_, fun u f hr => ?_, fun u f v peer bs telling hr ha => ?_, fun u f v telling hr ha => ?_,
    fun f q huse hf hkind hslot hen => ?_, fun f hf hkind hupstream hst hback => ?_, fun u f hr hst hupstream huse hust => ?_⟩
  · exact execSlotOpen_opens hen huse hbase hslot
  · exact execSlotOpen_waits hen huse hbase
  · exact execGuardEnd_identifies hslot hdue hv
  · exact execSlotClose_closes hslot hdue
  · rw [execTickSend_due hdue]
    exact if_pos hst
  · rw [execTickSend_due hdue, if_neg (hup huse), if_neg (by rw [huse]; decide)]
    rfl
  · have hbad := State.receive_bad huse hf
    exact ⟨execPayload_none (hbad 1), (hlast telling).trans (execLast_none (hbad 2)), execIdle_eq (hbad 0), execNak_none (hbad 4),
      execTickFlit_none (hup huse) (hbad 3)⟩
  · have hdrop := State.receive_discarded huse hf hd
    refine ⟨State.updLink_self _ _ _, fun hk => ?_, fun hk => ?_, fun hk => ?_, fun hk => ?_, fun hk => ?_⟩
    · exact execPayload_none (hk ▸ hdrop)
    · exact (hlast telling).trans (execLast_none (hk ▸ hdrop))
    · exact execIdle_eq (hk ▸ hdrop)
    · exact execNak_none (hk ▸ hdrop)
    · exact execTickFlit_none (hup huse) (hk ▸ hdrop)
  · have htaken := State.receive_taken huse hf hd
    exact ⟨htaken, fun hk => execIdle_eq (hk ▸ htaken)⟩
  · intro j
    refine ⟨fun hseq hvc => ⟨_, execPayload_some hr, State.acceptFlit_joins hseq hvc⟩, fun hseq => ?_⟩
    rw [execPayload_some hr, State.acceptFlit_naks hseq]
  · intro far kept stale
    rw [hlast]
    refine ⟨fun hstale => execLast_stale hr ha hstale, fun hlive hfar => ?_, fun hlive hfar => ?_⟩
    · rw [execLast_kept hr ha hlive]
      have hnow : s.now + 18 * far = s.now := by omega
      exact congrArg Host.Outcome.next (if_pos hnow)
    · have hlate : ¬ s.now + 18 * far = s.now := by omega
      rw [execLast_kept hr ha hlive]
      exact congrArg Host.Outcome.next (if_neg hlate)
  · rw [hlast]
    exact execLast_partial hr ha
  · rw [execSlotid_of_slot huse hf hkind hslot hen]
    intro told
    refine ⟨fun hne => ?_, fun heq => ?_⟩
    · have hwrong : (sePeer ((s.link n).entry q.1) != f.peer) = true := bne_iff_ne.mpr hne
      dsimp only
      rw [hwrong]
      rfl
    · have hright : (sePeer ((s.link n).entry q.1) != f.peer) = false := bne_eq_false_iff_eq.mpr heq
      dsimp only
      rw [hright]
      rfl
  · intro tick
    rw [execTickFlit_train hst hf hkind, State.followTick_train hupstream hst hback]
    refine ⟨fun hle => ?_, fun hlt => ?_⟩
    · refine ⟨_, congrArg Host.Outcome.next (if_pos hle), rfl, ?_⟩
      exact congrArg Link.back (State.updLink_self s n fun k => { k with back := 1 })
    · exact ⟨_, congrArg Host.Outcome.next (if_neg (Nat.not_le_of_lt hlt)), rfl, rfl⟩
  · intro tick hlo hhi
    let v := u.updLink n fun k => k.updPeer (k.sender f.peer) fun x => { x with owed := x.owed.modify f.vc (· + 1) }
    have hstate : (v.link n).state = (u.link n).state := by
      rw [State.updLink_self]
      rfl
    have hvuse : v.linkUsable n = true := by
      unfold State.linkUsable at huse ⊢
      rw [hstate]
      exact huse
    have hlocks : v.followTick n tick = _ := State.followTick_locks hupstream (by rw [hstate]; exact hust) hvuse hlo hhi
    refine ⟨_, (execTickFlit_up hst hr roundTrip).trans (congrArg Host.Outcome.next hlocks), ?_, rfl⟩
    rw [State.updLink_self]

end Sys2Proof.Machine
end

section
/-! SUPPORT. Errors, what they fence, and ageing (29 R415 to R425). -/

namespace Sys2Proof.Machine
open Sys2Proof.Bits

/-! ### Cores, eaves and arrays -/

section
variable {s : State} {c g : Nat} (hgrp : s.grpOf c = some g)
include hgrp

theorem State.contain_stops (hst : (s.grp g).state = 2 ∨ (s.grp g).state = 3) : s.contain c = (s.stopGroup g 6 0, (s.gid16 g).toNat) := by
  unfold State.contain
  rw [hgrp]
  exact if_pos hst

theorem State.contain_idle (hst : (s.grp g).state ≠ 2 ∧ (s.grp g).state ≠ 3) : s.contain c = (s, 0) := by
  unfold State.contain
  rw [hgrp]
  exact if_neg (not_or.mpr hst)

end

theorem State.contain_none {s : State} {c : Nat} (hgrp : s.grpOf c = none) : s.contain c = (s, 0) := by
  unfold State.contain
  rw [hgrp]

/-- The state in which core `c` has been fenced. -/
def State.fencing (s : State) (c : Nat) : State := State.soon { s with fenced := insertNat c s.fenced } .frontEndStart

theorem State.fencing_grp (s : State) (c g : Nat) : (s.fencing c).grp g = s.grp g := State.soon_grp _ _ _

theorem State.fencing_grpOf (s : State) (c d : Nat) : (s.fencing c).grpOf d = s.grpOf d :=
  congrArg Core.group (State.soon_core { s with fenced := insertNat c s.fenced } .frontEndStart d)

theorem State.fencing_gid16 (s : State) (c g : Nat) : (s.fencing c).gid16 g = s.gid16 g := by
  unfold State.gid16
  rw [State.fencing_grp]

theorem execCoreLogicCheck_fences {s : State} {core : Fin 64} (hf : core.val ∉ s.fenced) :
    execCoreLogicCheck core s =
      .next (((s.fencing core.val).contain core.val).1.errRecord 4 2 ((s.fencing core.val).contain core.val).2 core.val 0) := by
  have hno : s.fenced.contains core.val = false := by
    rw [← Bool.not_eq_true, List.contains_iff_mem]
    exact hf
  unfold execCoreLogicCheck State.fenceCore
  dsimp only
  rw [hno]
  rfl

theorem execEaveLogicCheck_idle {s : State} {u : Fin 8} (hf : u.val ∉ s.ridge.eaveFenced) (hidle : ∀ e ∈ s.ridge.pieces, e.2.place ≠ u.val + 2) :
    execEaveLogicCheck u s = .next (((s.updRidge fun r =>
      { r with eaveFenced := insertNat u.val r.eaveFenced, eaveRun := r.eaveRun.set u.val none }).rehome []).errRecord 7 5 0 u.val 0) := by
  have hno : s.ridge.eaveFenced.contains u.val = false := by
    rw [← Bool.not_eq_true, List.contains_iff_mem]
    exact hf
  have hnone : s.ridge.pieces.filter (fun e => e.2.at_ s.now (u.val + 2)) = [] := by
    refine List.filter_eq_nil_iff.mpr fun e he h => ?_
    unfold Piece.at_ at h
    rw [Bool.and_eq_true, beq_iff_eq] at h
    exact hidle e he h.1
  unfold execEaveLogicCheck
  dsimp only
  rw [hno, if_neg Bool.false_ne_true]
  refine congrArg (fun ps : List (Nat × Piece) => Host.Outcome.next (State.errRecord (State.rehome _ (ps.map (·.2))) 7 5 0 u.val 0)) hnone

theorem execArrayLogicCheck_idle {s : State} {a : Fin 4} (hf : a.val ∉ s.ridge.arrFenced)
    (hmany : (insertNat a.val s.ridge.arrFenced).length < 4) (hidle : s.ridge.arrays.getD a.val none = none) :
    execArrayLogicCheck a s = .next ((s.updRidge fun r =>
      { r with arrFenced := insertNat a.val r.arrFenced, arrays := r.arrays.set a.val none }).errRecord 8 6 0 a.val 0) := by
  have hno : s.ridge.arrFenced.contains a.val = false := by
    rw [← Bool.not_eq_true, List.contains_iff_mem]
    exact hf
  unfold execArrayLogicCheck
  dsimp only
  rw [hno, if_neg Bool.false_ne_true, hidle]
  exact congrArg (fun t : State => Host.Outcome.next (t.errRecord 8 6 0 a.val 0)) (if_neg (Nat.not_le_of_lt hmany))

theorem execLinkError_live {s : State} {l : Fin 48} (hlive : 1 ≤ (s.link l.val).state ∧ (s.link l.val).state ≤ 4) :
    execLinkError l s = .next ((s.dropLink l.val 5 5).errRecord 5 3 0 l.val 0) := by
  unfold execLinkError State.linkFence
  dsimp only
  rw [if_pos hlive, decide_eq_true hlive, if_pos rfl]

/-! ### Uncorrectable errors -/

/-- A record about the line at `line`, whose frame is then retired. -/
def State.noteLine (t : State) (key line kind action gid : Nat) : State := (t.errRecord kind action gid (unitOf key) line).retire key line

section
variable {s : State} {pa key home : Nat} (hpa : resolvePA pa = some (key, home)) (consumer : Nat)
include hpa

theorem execUncorrectableError_unread :
    execUncorrectableError pa consumer 0 s = .next (s.noteLine key (pa / 128 * 128) 3 (s.frameAction key) 0) := by
  unfold execUncorrectableError
  rw [hpa]
  rfl

theorem execUncorrectableError_core :
    execUncorrectableError pa consumer 1 s = .next ((s.contain (consumer % 64)).1.noteLine key (pa / 128 * 128) 2
      (if (s.contain (consumer % 64)).2 = 0 then s.frameAction key else 1) (s.contain (consumer % 64)).2) := by
  unfold execUncorrectableError
  rw [hpa]
  rfl

theorem execUncorrectableError_chain (hc : (s.xch (consumer % 64)).chains ≠ []) :
    execUncorrectableError pa consumer 2 s =
      .next ((s.faultChain (consumer % 64) 0).noteLine key (pa / 128 * 128) 2 (s.frameAction key) 0) := by
  have hsome : (s.xch (consumer % 64)).chains.isEmpty = false := List.isEmpty_eq_false_iff.mpr hc
  unfold execUncorrectableError
  rw [hpa]
  dsimp only
  rw [hsome]
  rfl

theorem execUncorrectableError_save (hst : (s.ctx (consumer % 64)).state = 2) :
    execUncorrectableError pa consumer 6 s =
      .next (((s.fenceCtx (consumer % 64) 3).retire key (pa / 128 * 128)).errRecord 10 7 0 (unitOf key) (pa / 128 * 128)) := by
  unfold execUncorrectableError
  rw [hpa]
  dsimp only
  rw [hst]
  rfl

theorem execUncorrectableError_queue (hen : (s.queue (consumer % 256)).en = true) (hst : (s.queue (consumer % 256)).state = 1) :
    execUncorrectableError pa consumer 7 s =
      .next ((s.queueError (consumer % 256) 3).noteLine key (pa / 128 * 128) 2 (s.frameAction key) 0) := by
  unfold execUncorrectableError
  rw [hpa]
  dsimp only
  rw [hen, hst]
  rfl

end

/-! ### Ageing -/

section
variable {s : State}

theorem execMeasurement_shown {margins temps : List Nat} (hpow : s.powered = true) (hint : get s.regs.agecfg 15 0 ≠ 0) (hm : margins ≠ []) :
    execMeasurement margins temps s =
      .next (if (s.measure margins temps).powered then (s.measure margins temps).nextMeasure else s.measure margins temps) := by
  have hgo : ¬ (s.powered = false ∨ get s.regs.agecfg 15 0 = 0) := by
    rw [hpow]
    simp [hint]
  unfold execMeasurement
  rw [if_neg hgo]
  dsimp only
  rw [List.isEmpty_eq_false_iff.mpr hm, if_neg Bool.false_ne_true]

theorem execAgewaitExpiry_drains {die : Fin 21} (hd : die.val < 8) (hplan : agPlan (s.age die.val) = 1)
    (hdue : Tbl.getD s.regs.ageWait die.val 0 ≤ s.now) :
    execAgewaitExpiry die s = .next ((s.groupsOn die.val).foldl (fun (s : State) g => s.updRun g fun r => { r with preempt := true })
      (s.setAge die.val (put (s.age die.val) 1 0 2))) := by
  unfold execAgewaitExpiry
  dsimp only
  rw [if_neg (by omega)]

theorem execReplanPause_pauses {die : Fin 21} (hplan : agPlan (s.age die.val) = 1 ∨ agPlan (s.age die.val) = 2)
    (hmay : s.mayPause die.val = true) :
    execReplanPause die s = .next ((s.setAge die.val (put (put (put (s.age die.val) 63 48 (agPauses (s.age die.val) + 1)) 39 32
      (min 255 (agGuard (s.age die.val) + 4 - agMarg (s.age die.val)))) 1 0 3)).after 3000000 (.pauseEnd die)) := by
  unfold execReplanPause
  dsimp only
  rw [if_neg (by omega), if_pos hmay]

theorem State.age_setAge (s : State) (i : Nat) (w : Word) : (s.setAge i w).age i = w := Tbl.getD_set_self _ _ _ _

theorem State.age_soon (s : State) (i : Instr) (d : Nat) : (s.soon i).age d = s.age d :=
  congrArg (fun r : Regs => Tbl.getD r.agest d resetAge) (State.soon_regs s i)

end

/-! ### O52 -/

/-- Settles O52: an error is recorded once what it makes unusable is fenced; a die goes through its plan. -/
theorem errorAndAgeingResults : Obligations.ErrorAndAgeingResults := by
  unfold Obligations.ErrorAndAgeingResults
  intro s core u arr l die pa consumer margins temps w
  have hcore : exec (.coreLogicCheck core) s = execCoreLogicCheck core s := rfl
  have huncorr : ∀ kind, exec (.uncorrectableError pa consumer kind) s = execUncorrectableError pa consumer kind s := fun _ => rfl
  have hmeas : exec (.measurement margins temps) s = execMeasurement margins temps s := rfl
  rw [hcore, hmeas]
  refine ⟨rfl, fun g hf hgrp hst => ?_, fun hf hidle => ?_, execEaveLogicCheck_idle, execArrayLogicCheck_idle, execLinkError_live,
    fun key home hpa => ?_, fun hpow hint hm hon => ?_, fun hpow hint hoff hm => ?_, fun hoff => if_pos hoff, fun hpow => ?_,
    execAgewaitExpiry_drains, execReplanPause_pauses, fun hplan => ?_, rfl⟩
  · rw [execCoreLogicCheck_fences hf, State.contain_stops ((s.fencing_grpOf _ _).trans hgrp) (by rw [State.fencing_grp]; exact hst),
      State.fencing_gid16]
    rfl
  · have hcontain : (s.fencing core.val).contain core.val = (s.fencing core.val, 0) := by
      rcases hidle with hnone | ⟨g, hgrp, hst⟩
      · exact State.contain_none ((s.fencing_grpOf _ _).trans hnone)
      · exact State.contain_idle ((s.fencing_grpOf _ _).trans hgrp) (by rw [State.fencing_grp]; exact hst)
    rw [execCoreLogicCheck_fences hf, hcontain]
    rfl
  · intro line noted act
    simp only [huncorr]
    refine ⟨execUncorrectableError_unread hpa consumer, fun g hgrp hst hgid => ?_, fun hgrp => ?_, execUncorrectableError_chain hpa consumer,
      execUncorrectableError_save hpa consumer, execUncorrectableError_queue hpa consumer⟩
    · have hgid' : (s.gid16 g).toNat ≠ 0 := fun h => hgid (BitVec.eq_of_toNat_eq h)
      rw [execUncorrectableError_core hpa, State.contain_stops hgrp hst, if_neg hgid']
      rfl
    · rw [execUncorrectableError_core hpa, State.contain_none hgrp, if_pos rfl]
      rfl
  · rw [execMeasurement_shown hpow hint hm, if_pos hon]
  · rw [execMeasurement_shown hpow hint hm, hoff, if_neg Bool.false_ne_true]
  · exact congrArg Host.Outcome.next (if_pos hpow)
  · refine ⟨_, congrArg Host.Outcome.next (if_pos hplan), ?_⟩
    rw [State.age_soon, State.age_setAge]

end Sys2Proof.Machine
end

section
/-! SUPPORT. Power, boot, attestation and reset (30 R430 to R433; 31 R435, R438). -/

namespace Sys2Proof.Machine
open Sys2Proof.Bits

/-! ### Power -/

/-- What is left of a package that has lost its volatile contents. -/
structure State.Off (s t : State) : Prop where
  powered : t.powered = false
  ctxs : t.ctxs = []
  queues : t.queues = []
  grps : t.grps = []
  links : t.links = []
  cores : t.cores = []
  bootState : t.regs.bootState = 0
  bootCtr : t.regs.bootCtr = s.regs.bootCtr
  now : t.now = s.now
  mem : ∀ e ∈ t.mem, hostBase ≤ e.1

theorem State.powerOff_off (s : State) : s.Off s.powerOff where
  powered := rfl
  ctxs := rfl
  queues := rfl
  grps := rfl
  links := rfl
  cores := rfl
  bootState := rfl
  bootCtr := rfl
  now := rfl
  mem := fun _ he => of_decide_eq_true (List.mem_filter.mp he).2

theorem execPowerLoss_off {s : State} {mv us : Nat} (h : mv < 44000 ∧ 100 ≤ us) : execPowerLoss mv us s = .next s.powerOff :=
  congrArg Host.Outcome.next (if_pos h)

theorem execPowerLoss_on {s : State} {mv us : Nat} (h : 44000 ≤ mv ∨ us < 100) : execPowerLoss mv us s = .next s :=
  congrArg Host.Outcome.next (if_neg (by omega))

theorem execOvertemperature_off {s : State} {die temp : Nat} (h : die < 21 ∧ 110 ≤ temp) : execOvertemperature die temp s = .next s.powerOff :=
  congrArg Host.Outcome.next (if_pos h)

theorem execOvertemperature_on {s : State} {die temp : Nat} (h : temp < 110) : execOvertemperature die temp s = .next s :=
  congrArg Host.Outcome.next (if_neg (by omega))

/-! ### Boot -/

theorem State.bootCmd_taken {s : State} (hpow : s.powered = true) (hst : s.regs.bootState = 0 ∨ s.regs.bootState = 4) :
    s.bootCmd = (s.updRegs fun r => { r with bootState := 1, bootCause := 0 }).after 1 .imageVerified := if_pos ⟨hpow, hst⟩

theorem State.bootCmd_ignored {s : State} (h : s.powered = false ∨ s.regs.bootState ≠ 0 ∧ s.regs.bootState ≠ 4) : s.bootCmd = s := by
  refine if_neg ?_
  rintro ⟨hpow, hst⟩
  rcases h with hoff | ⟨h0, h4⟩
  · exact Bool.false_ne_true (hoff.symm.trans hpow)
  · exact hst.elim h0 h4

section
variable {s : State} (hst : s.regs.bootState = 1)
include hst

/-- The header, the signature and the body of an image are checked in order (30 R431). -/
theorem execImageVerified_of_load :
    let hb := s.regs.buffer.read 0 64
    let h := hdrOf hb
    let sig := s.regs.buffer.read 64 29792
    let body := s.regs.buffer.read 29856 (imgLen h)
    execImageVerified s = if hdrOk h = false then .next (s.bootFail 1)
      else if Config.imageOk (hb ++ sig ++ body) = false then .next (s.bootFail 2)
      else if imgSvn h < s.regs.bootCtr then .next (s.bootFail 3)
      else .next (s.updRegs fun r => { r with bootState := 2, image := hb ++ body }) := by
  intro hb h sig body
  unfold execImageVerified
  rw [if_neg (Classical.not_not.mpr hst)]
  rfl

end

theorem State.nextMeasure_keeps (s : State) :
    s.nextMeasure.regs = s.regs ∧ s.nextMeasure.cores = s.cores ∧ s.nextMeasure.ctxs = s.ctxs ∧ s.nextMeasure.queues = s.queues ∧
    s.nextMeasure.grps = s.grps ∧ s.nextMeasure.links = s.links ∧ s.nextMeasure.phase = s.phase := by
  unfold State.nextMeasure
  extract_lets other int s1
  split
  · exact ⟨rfl, rfl, rfl, rfl, rfl, rfl, rfl⟩
  · exact ⟨rfl, rfl, rfl, rfl, rfl, rfl, rfl⟩

/-- The fused counter after initialisation: BUMP advances it to the image's SVN (30 R431). -/
def State.bumped (s : State) : Nat :=
  let h := hdrOf (s.regs.image.take hdrBytes)
  if imgBump h && decide (s.regs.bootCtr < imgSvn h) then imgSvn h else s.regs.bootCtr

theorem State.bootCtr_le_bumped (s : State) : s.regs.bootCtr ≤ s.bumped := by
  unfold State.bumped
  extract_lets h
  split
  next hup =>
    rw [Bool.and_eq_true, decide_eq_true_eq] at hup
    exact Nat.le_of_lt hup.2
  next => exact Nat.le_refl _

section
variable {s : State} (hst : s.regs.bootState = 2)
include hst

theorem execInitComplete_trained :
    execInitComplete true s =
      .next ((s.cold s.powered).updRegs fun r => { r with bootState := 3, bootCtr := s.bumped, image := s.regs.image }).nextMeasure := by
  unfold execInitComplete
  rw [if_neg (Classical.not_not.mpr hst)]
  rfl

theorem execInitComplete_untrained : execInitComplete false s = .next (s.bootFail 4) := by
  unfold execInitComplete
  rw [if_neg (Classical.not_not.mpr hst)]
  rfl

end

theorem execSpdmRequest_ready {s : State} (hpow : s.powered = true) (hst : s.regs.bootState = 3) (req : List Byte) :
    execSpdmRequest req s = .next (s.updRegs fun r => { r with
      spdm := true,
      spdmOut := Config.spdmReply req (some s.regs.image) r.bootCtr (imgSvn (hdrOf (s.regs.image.take 64))) :: r.spdmOut }) := by
  unfold execSpdmRequest
  rw [hpow, hst]
  rfl

/-! ### Reset -/

theorem State.warm_ready {s : State} (hpow : s.powered = true) (hst : s.regs.bootState = 3) : s.warm = s.clear.nextMeasure :=
  if_pos ⟨hpow, hst⟩

theorem State.warm_ignored {s : State} (hst : s.regs.bootState ≠ 3) : s.warm = s := if_neg fun h => hst h.2

/-! ### O53 -/

theorem imageChecks (s : State) (hst : s.regs.bootState = 1) :
    let hb := s.regs.buffer.read 0 64
    let h := hdrOf hb
    let sig := s.regs.buffer.read 64 29792
    let body := s.regs.buffer.read 29856 (imgLen h)
    let failed := fun (t : State) (cause : Nat) => t.regs.bootState = 4 ∧ t.regs.bootCause = cause ∧ t.regs.buffer = []
    (hdrOk h = false → ∃ t, execImageVerified s = .next t ∧ failed t 1) ∧
    (hdrOk h = true → Config.imageOk (hb ++ sig ++ body) = false → ∃ t, execImageVerified s = .next t ∧ failed t 2) ∧
    (hdrOk h = true → Config.imageOk (hb ++ sig ++ body) = true → imgSvn h < s.regs.bootCtr →
      ∃ t, execImageVerified s = .next t ∧ failed t 3) ∧
    (hdrOk h = true → Config.imageOk (hb ++ sig ++ body) = true → s.regs.bootCtr ≤ imgSvn h →
      ∃ t, execImageVerified s = .next t ∧ t.regs.bootState = 2 ∧ t.regs.image = hb ++ body) := by
  intro hb h sig body failed
  have hload := execImageVerified_of_load hst
  have hfail : ∀ cause, failed (s.bootFail cause) cause := fun cause => ⟨rfl, rfl, rfl⟩
  have hyes : ∀ {b : Bool}, b = true → ¬ b = false := fun hb => by rw [hb]; decide
  refine ⟨fun hbad => ?_, fun hok himg => ?_, fun hok himg hold => ?_, fun hok himg hnew => ?_⟩
  · exact ⟨_, hload.trans (if_pos hbad), hfail 1⟩
  · exact ⟨_, hload.trans ((if_neg (hyes hok)).trans (if_pos himg)), hfail 2⟩
  · exact ⟨_, hload.trans ((if_neg (hyes hok)).trans ((if_neg (hyes himg)).trans (if_pos hold))), hfail 3⟩
  · exact ⟨_, hload.trans ((if_neg (hyes hok)).trans ((if_neg (hyes himg)).trans (if_neg (Nat.not_lt_of_le hnew)))), rfl, rfl⟩

/-- Settles O53: a power loss keeps what `State.Off` says; boot, initialisation and reset go by their STATE. -/
theorem powerBootAndResetResults : Obligations.PowerBootAndResetResults := by
  unfold Obligations.PowerBootAndResetResults
  intro s mv us die temp req off
  have hoff : off s.powerOff := by
    obtain ⟨h1, h2, h3, h4, h5, h6, h7, h8, h9, h10⟩ := s.powerOff_off
    exact ⟨h1, h2, h3, h4, h5, h6, h7, h8, h9, h10⟩
  have hboot : exec .boot s = .next (s.port 0x8 1 State.bootCmd) := rfl
  have hwarm : exec .warmReset s = .next (s.port 0x8 2 State.warm) := rfl
  have hflr : exec .functionLevelReset s = .next s.warm := rfl
  have himage : exec .imageVerified s = execImageVerified s := rfl
  have hcmd : isCommand 0x8 = true := rfl
  rw [hboot, hwarm, hflr, himage]
  refine ⟨fun hmv hus => ⟨_, execPowerLoss_off ⟨hmv, hus⟩, hoff⟩, execPowerLoss_on, fun hdie htemp => ⟨_, execOvertemperature_off ⟨hdie, htemp⟩, hoff⟩,
    execOvertemperature_on, ⟨_, rfl, rfl, rfl, rfl, rfl, rfl, rfl⟩, fun hpow hp hst => ?_, fun hp h => ?_, fun hw => ⟨?_, ?_⟩,
    imageChecks s, fun hst => ?_, fun hst => ⟨_, execInitComplete_untrained hst, rfl, rfl⟩, fun hpow hst => execSpdmRequest_ready hpow hst req,
    fun hpow hst => ?_, fun hst => ⟨fun hp => ?_, ?_⟩⟩
  · rw [s.port_clear 0x8 1 _ hp, State.bootCmd_taken hpow hst]
    exact ⟨_, rfl, rfl, rfl⟩
  · rw [s.port_clear 0x8 1 _ hp, State.bootCmd_ignored h]
  · rw [s.port_held 0x8 1 _ (.inl ⟨hcmd, hw⟩)]
  · rw [s.port_held 0x8 2 _ (.inl ⟨hcmd, hw⟩)]
  · refine ⟨_, execInitComplete_trained hst, ?_⟩
    obtain ⟨hregs, hcores, hctxs, hqueues, -⟩ := State.nextMeasure_keeps ((s.cold s.powered).updRegs fun r =>
      { r with bootState := 3, bootCtr := s.bumped, image := s.regs.image })
    rw [hregs, hcores, hctxs, hqueues]
    exact ⟨rfl, rfl, s.bootCtr_le_bumped, rfl, rfl, rfl⟩
  · rw [State.warm_ready hpow hst]
    refine ⟨_, fun hp => ?_, rfl, ?_⟩
    · rw [s.port_clear 0x8 2 _ hp, State.warm_ready hpow hst]
    · obtain ⟨hregs, hcores, hctxs, hqueues, hgrps, hlinks, hphase⟩ := s.clear.nextMeasure_keeps
      rw [hregs, hcores, hctxs, hqueues, hgrps, hlinks, hphase]
      exact ⟨rfl, rfl, rfl, rfl, rfl, rfl, hst, rfl, rfl, rfl, rfl, rfl⟩
  · rw [s.port_clear 0x8 2 _ hp, State.warm_ignored hst]
  · rw [State.warm_ignored hst]

end Sys2Proof.Machine
end

section
/-! SUPPORT. The host port: registers and device memory (30 R427 to R430, R444; 04 R92). -/

namespace Sys2Proof.Machine
open Sys2Proof.Bits

/-! ### A register write at the port -/

/-- What is no command goes on when nothing is held in front of it, whatever the host's writes do (30 R444). -/
theorem State.port_register {s : State} {off : Nat} (v : Word) (act : State → State)
    (hfree : ∀ e ∈ s.agenda, ∀ o w, e.2 = .registerWrite o w → e.1 ≤ s.now) (hoff : isCommand off = false) :
    s.port off v act = act s := by
  refine if_neg ?_
  simp only [hoff, Bool.false_and, Bool.false_or, Bool.not_eq_true, List.any_eq_false]
  intro e he
  split
  case h_1 o w hwrite => simpa using hfree e he o w hwrite
  case h_2 => rfl

theorem execRegisterWrite_on {s : State} {off : Nat} {v : Word} (hpow : s.powered = true) :
    execRegisterWrite off v s = .next (s.port off v fun s => s.writeReg off v) := congrArg Host.Outcome.next (if_pos hpow)

theorem execRegisterWrite_off {s : State} {off : Nat} {v : Word} (hpow : s.powered = false) : execRegisterWrite off v s = .next s :=
  congrArg Host.Outcome.next (if_neg (Bool.eq_false_iff.mp hpow))

/-! ### Registers with rules of their own -/

theorem State.writeMesh_taken {s : State} {v : Word} (hok : meshOk (BitVec.ofNat 64 (get v 53 0)) s.regs.pkrank = true)
    (hcolls : s.ridge.colls = []) (hctxs : s.ctxs = []) :
    s.writeMesh v = s.updRegs fun r => { r with meshcfg := BitVec.ofNat 64 (get v 53 0) } := by
  have hidle : s.meshBusy = false := by rw [State.meshBusy, hcolls, hctxs, List.isEmpty_nil, List.any_nil]; rfl
  exact if_pos (by rw [hok, hidle]; rfl)

theorem State.writeMesh_refused {s : State} {v : Word} (hok : meshOk (BitVec.ofNat 64 (get v 53 0)) s.regs.pkrank = false) :
    s.writeMesh v = s := if_neg (by rw [hok, Bool.false_and]; exact Bool.false_ne_true)

theorem State.writeL2qt_taken {s : State} {v : Word} (hok : quotaOk (BitVec.ofNat 64 (get v 39 0)) = true) :
    s.writeL2qt v = s.updRegs fun r => { r with l2qt := BitVec.ofNat 64 (get v 39 0) } := if_pos hok

theorem State.writeL2qt_refused {s : State} {v : Word} (hok : quotaOk (BitVec.ofNat 64 (get v 39 0)) = false) :
    s.writeL2qt v = s := if_neg (Bool.eq_false_iff.mp hok)

/-- The region fits and no slot is in use: the slots become EMPTY (10 R176). -/
theorem State.writeExcfg_taken {s : State} {v : Word} (hlo : 16 ≤ get v 4 0) (hhi : get v 4 0 ≤ 21)
    (hfits : get v 26 5 * 2 ^ 21 + 64 * 2 ^ get v 4 0 ≤ 2 ^ 27) (hfree : ∀ e ∈ s.ridge.slots, e.2.readers = 0 ∧ e.2.state ≠ 1) :
    s.writeExcfg v = (s.updRegs fun r => { r with excfg := BitVec.ofNat 64 (get v 26 0) }).updRidge fun r => { r with slots := [] } := by
  have hunused : (s.ridge.slots.any fun e => e.2.readers != 0 || e.2.state == 1) = false := by
    refine List.any_eq_false.mpr fun e he => ?_
    obtain ⟨hreaders, hstate⟩ := hfree e he
    simp [hreaders, hstate]
  refine if_pos ?_
  rw [hunused, decide_eq_true ⟨hlo, hhi, hfits⟩]
  rfl

theorem State.writeExcfg_refused {s : State} {v : Word} (hused : ∃ e ∈ s.ridge.slots, e.2.readers ≠ 0 ∨ e.2.state = 1) :
    s.writeExcfg v = s := by
  obtain ⟨e, he, h⟩ := hused
  have hany : (s.ridge.slots.any fun e => e.2.readers != 0 || e.2.state == 1) = true :=
    List.any_eq_true.mpr ⟨e, he, by simpa using h⟩
  refine if_neg ?_
  rw [hany, Bool.not_true, Bool.and_false]
  exact Bool.false_ne_true

/-! ### Commands of the ridge -/

theorem State.writeInvreq_free {s : State} {v : Word} (hbusy : s.regs.invBusy = false) :
    s.writeInvreq v = ((s.updRegs fun r => { r with invBusy := true }).updRidge fun r => { r with
      invs := r.invs ++ [⟨none, s.now + 1, get v 57 52, get v 51 16 * 65536, invSizeOf (get v 61 60), 0⟩] }).after 1 .invalidationBegin :=
  if_neg (Bool.eq_false_iff.mp hbusy)

theorem State.writeInvreq_busy {s : State} {v : Word} (hbusy : s.regs.invBusy = true) : s.writeInvreq v = s := if_pos hbusy

/-- `RESUME` shows the answer of FRSM in 32 bits (30 R429). -/
theorem State.writeResume_some {s t : State} {v : Word} {m : Nat} (hfrsm : s.frsm (get v 5 0) (get v 31 16) = (t, some m))
    (hm : m < 2 ^ 32) : s.writeResume v = t.updRegs fun k => { k with resumeDone := m } := by
  simp only [State.writeResume, hfrsm, Option.map_some, Option.getD_some, Nat.mod_eq_of_lt hm]

theorem State.writeResume_none {s t : State} {v : Word} (hfrsm : s.frsm (get v 5 0) (get v 31 16) = (t, none)) :
    s.writeResume v = t.updRegs fun k => { k with resumeDone := 0xFFFFFFFF } := by
  rw [State.writeResume, hfrsm]
  rfl

/-! ### Device memory -/

/-- The stamps that a read merges are all that it changes: not the registers, not memory. -/
theorem State.agentRead_regs_mem (s : State) (g key n : Nat) :
    (s.agentRead g key n).2.regs = s.regs ∧ (s.agentRead g key n).2.mem = s.mem :=
  foldl_inv (P := fun t : State => t.regs = s.regs ∧ t.mem = s.mem)
    (fun t i ht => by
      split
      · split
        · exact ht
        · exact ht
      · exact ht) ⟨rfl, rfl⟩

/-- CXL.mem serves an access that ends below the top of device memory in storage that no fence holds. -/
theorem State.cxl_served {s : State} {pa n : Nat} (hon : s.cxlMem = true) (htop : pa + n ≤ hbmTop) (hunit : s.unitFault pa = none) :
    ¬(s.cxlMem = false ∨ hbmTop < pa + n ∨ (s.unitFault pa).isSome = true) := by
  rw [hon, hunit]
  rintro (h | h | h)
  · exact Bool.false_ne_true h.symm
  · exact absurd htop (Nat.not_le.mpr h)
  · exact Bool.false_ne_true h

/-- The host's own memory lies above device memory. -/
theorem not_host_of_device {pa n : Nat} (htop : pa + n ≤ hbmTop) : ¬(hostBase ≤ pa ∧ pa + n ≤ 2 * hostBase) := by
  have hlt : hbmTop < hostBase := by decide
  omega

theorem execHostMemRead_served {s : State} {pa len : Nat} (hon : s.cxlMem = true) (htop : pa + len ≤ hbmTop)
    (hunit : s.unitFault pa = none) : ∃ t, execHostMemRead pa len s = .next t ∧
      t.regs.reads = s.mem.read pa len :: s.regs.reads ∧ t.mem = s.mem := by
  obtain ⟨hregs, hmem⟩ := s.agentRead_regs_mem 17 pa len
  exact ⟨_, if_neg (State.cxl_served hon htop hunit), congrArg (fun r : Regs => s.mem.read pa len :: r.reads) hregs, hmem⟩

theorem execHostMemRead_off {s : State} {pa len : Nat} (hoff : s.cxlMem = false) : execHostMemRead pa len s = .next s :=
  if_pos (.inl hoff)

theorem execHostMemWrite_device {s : State} {pa : Nat} {bytes : List Byte} (hon : s.cxlMem = true)
    (htop : pa + bytes.length ≤ hbmTop) (hunit : s.unitFault pa = none) :
    execHostMemWrite pa bytes s = .next (s.agentWrite 17 pa (8 + pa / 2 ^ 36) bytes) :=
  (if_neg (not_host_of_device htop)).trans (if_neg (State.cxl_served hon htop hunit))

theorem execHostMemWrite_host {s : State} {pa : Nat} {bytes : List Byte} (hlo : hostBase ≤ pa)
    (hhi : pa + bytes.length ≤ 2 * hostBase) : execHostMemWrite pa bytes s = .next (s.agentWrite 17 pa 17 bytes) :=
  if_pos ⟨hlo, hhi⟩

theorem execHostMemWrite_off {s : State} {pa : Nat} {bytes : List Byte} (hoff : s.cxlMem = false)
    (htop : pa + bytes.length ≤ hbmTop) : execHostMemWrite pa bytes s = .next s :=
  (if_neg (not_host_of_device htop)).trans (if_pos (.inl hoff))

/-- Settles O54: a register write passes the port or is held there, each register with rules of its own takes or refuses its word, and an
access to device memory reaches its home. -/
theorem hostPortResults : Obligations.HostPortResults := by
  intro s off pa len v bytes
  have hreg : exec (.registerWrite off v) s = execRegisterWrite off v s := rfl
  have hmesh : exec (.meshcfgWrite v) s = .next (s.writeMesh v) := rfl
  have hl2 : exec (.l2qtWrite v) s = .next (s.writeL2qt v) := rfl
  have hex : exec (.excfgWrite v) s = .next (s.writeExcfg v) := rfl
  have hgst : exec (.gstaleWrite v) s = .next (s.writeGstale v) := rfl
  have hinv : exec (.invreq v) s = .next (s.port 0x70 v fun s => s.writeInvreq v) := rfl
  have hres : exec (.resume v) s = .next (s.port 0x78 v fun s => s.writeResume v) := rfl
  have hread : exec (.hostMemRead pa len) s = execHostMemRead pa len s := rfl
  have hwrite : exec (.hostMemWrite pa bytes) s = execHostMemWrite pa bytes s := rfl
  rw [hreg, hmesh, hl2, hex, hgst, hinv, hres, hread, hwrite]
  refine ⟨fun hpow hp => ?_, fun hpow hfree hoff => ?_, fun hpow hheld => ?_, execRegisterWrite_off,
    fun hok hcolls hctxs => ?_, fun hok => ?_, fun hok => ?_, fun hok => ?_, fun hlo hhi hfits hfree => ?_, fun hused => ?_,
    fun h0 => ?_, fun h0 => ?_, fun hw => ⟨?_, ?_⟩, fun hp hbusy => ?_, fun hp hbusy => ?_, fun t m hp hfrsm hm => ?_,
    fun t hp hfrsm => ?_, execHostMemRead_served, execHostMemWrite_device, execHostMemWrite_host,
    fun hoff htop => ⟨execHostMemRead_off hoff, execHostMemWrite_off hoff htop⟩⟩
  · rw [execRegisterWrite_on hpow, s.port_clear off v _ hp]
  · rw [execRegisterWrite_on hpow, State.port_register v _ hfree hoff]
  · rw [execRegisterWrite_on hpow, s.port_held off v _ hheld]
  · exact congrArg _ (State.writeMesh_taken hok hcolls hctxs)
  · exact congrArg _ (State.writeMesh_refused hok)
  · exact congrArg _ (State.writeL2qt_taken hok)
  · exact congrArg _ (State.writeL2qt_refused hok)
  · exact congrArg _ (State.writeExcfg_taken hlo hhi hfits hfree)
  · exact congrArg _ (State.writeExcfg_refused hused)
  · exact congrArg _ (if_pos h0)
  · exact congrArg _ (if_neg h0)
  · exact congrArg _ (s.port_held 0x70 v _ (.inl ⟨by decide, hw⟩))
  · exact congrArg _ (s.port_held 0x78 v _ (.inl ⟨by decide, hw⟩))
  · rw [s.port_clear 0x70 v _ hp, State.writeInvreq_free hbusy]
  · rw [s.port_clear 0x70 v _ hp, State.writeInvreq_busy hbusy]
  · rw [s.port_clear 0x78 v _ hp, State.writeResume_some hfrsm hm]; rfl
  · rw [s.port_clear 0x78 v _ hp, State.writeResume_none hfrsm]; rfl

end Sys2Proof.Machine
end
